-- ==== Sys2Proof/Word.lean ====
section
/-! DEFINITION. The word types of the XQ9: bytes, 32-bit lanes, 64-bit scalars and 32-lane vector registers. -/

namespace Sys2Proof

abbrev Byte := BitVec 8
abbrev W16 := BitVec 16
abbrev W32 := BitVec 32
abbrev W64 := BitVec 64

/-- A vector register: 32 lanes of 32 bits, lane i at bytes 4i to 4i+3 of its memory image (R2, R138). -/
abbrev VReg := Vector W32 32

/-- The register that reads as zero in every lane (R143). -/
def VReg.zero : VReg := Vector.replicate 32 0#32

/-- A register from its lanes. -/
def VReg.ofFn (f : Nat → W32) : VReg := Vector.ofFn fun i => f i.val

/-- Lane i; lanes outside 0 to 31 do not exist and read as zero. -/
def VReg.lane (r : VReg) (i : Nat) : W32 := if h : i < 32 then r[i] else 0#32

end Sys2Proof
end

