-- ==== Sys2Proof/Syntax.lean ====
section
/-! DEFINITION. The syntax: operand codes (R178), memory operands (R180), the contents of events, and Instr. -/

namespace Sys2Proof

/-- An operand, one constructor per kind of code of R178; `lit` carries the literal word that follows (R168). -/
inductive Opnd where
  | v (n : Fin 64)
  | s (n : Fin 64)
  | o (n : Fin 8)
  | a (n : Fin 16)
  | m (n : Fin 16)
  | b (n : Fin 8)
  | lat
  | zero
  | lit (w : W32)
  | lid
  | int (c : Fin 32)
  | flt (c : Fin 16)
  | reserved (code : BitVec 8)
  deriving DecidableEq, Repr

/-- Address modes of R180. -/
inductive AMode where
  | base | post | postMod | idx | lanes | idxMod | reserved6 | reserved7
  deriving DecidableEq, Repr

/-- Bits 15:0 of an M-format word (R175, R180). -/
structure MemRef where
  areg : BitVec 4
  amode : AMode
  breg : BitVec 3
  index : BitVec 6
  deriving DecidableEq, Repr

/-- A band slot: package-wide core 0 to 239, quadrant 0 to 3, slot 0 to 15 (R8). -/
structure Place where
  core : Nat
  quad : Nat
  slot : Nat
  deriving DecidableEq, Repr

/-- Who translates, each with a TLB of its own (R61): a quadrant's bands, the core TLB behind the four quadrants, a core's copy engine and
Prism, a quadrant's Tailrace, a Flume; the command processor has none. -/
inductive Agent where
  | quad (core quad : Nat)
  | core (core : Nat)
  | copy (core : Nat)
  | tailrace (core quad : Nat)
  | prism (core : Nat)
  | flume (n : Nat)
  | command
  deriving DecidableEq, Repr

/-- A reduction step at an owner (R349): launch, process group, bucket and step. -/
structure StepKey where
  lid : Nat
  pgrp : Nat
  bid : Nat
  step : W32
  deriving DecidableEq, Repr

/-- One element of a contribution: its index in the bucket, its bits, and under FMT 2 its block's scale byte (R274, R349). -/
structure Elem where
  idx : Nat
  bits : W32
  scale : Byte
  deriving DecidableEq, Repr

/-- A contribution as the Flume of another device `dev` sends it (R348, R349, R418). -/
structure ContribMsg where
  key : StepKey
  dev : Nat
  rank : Nat
  count : Nat
  fmt : Nat
  ofmt : Nat
  quorum : Nat
  timer : Nat
  normg : Nat
  dst : Nat
  elems : List Elem
  deriving DecidableEq, Repr

/-- Whose contribution arrives: that of a CRS of this device for an owner it serves, or another device's. -/
inductive ContribSrc where
  | own (op owner : Nat)
  | remote (owner : Nat) (m : ContribMsg)
  deriving DecidableEq, Repr

/-- How an owner classed a contribution (R350, R352); `conflict` and `repeated` are the drops of R349 and R274. `fault`: a step that the
launch contributed to has closed as a reduction fault (R351). -/
inductive AckClass where
  | onTime | late | dropped | conflict | repeated
  | fault (lid : Nat)
  deriving DecidableEq, Repr

/-- A block of 32 elements carried round a ring (R354, R355): the fields of its step and the blocks of its owner, as the contribution
that starts the ring has them; its values in units of the window, or X320 with side bits once escalated; the ranks folded in, each with
the weight of its class, 2 on time and 1 late. -/
structure RingMsg where
  key : StepKey
  owner : Nat
  block : Nat
  blocks : List Nat
  count : Nat
  ofmt : Nat
  quorum : Nat
  timer : Nat
  normg : Nat
  dst : Nat
  scale : Nat
  escalated : Bool
  vals : List Int
  sides : List (BitVec 4)
  folded : List (Nat × Nat)
  checksum : W64
  op : Nat
  deriving DecidableEq, Repr

/-- A scalar contribution as a device `dev` sends it, whose operation there is `tag` (R356). -/
structure ScalarMsg where
  lid : Nat
  pgrp : Nat
  step : W32
  dev : Nat
  tag : Nat
  rank : Nat
  opc : Nat
  typ : Nat
  quorum : Nat
  timer : Nat
  value : W64
  deriving DecidableEq, Repr

inductive ScalarSrc where
  | own (op : Nat)
  | remote (m : ScalarMsg)
  deriving DecidableEq, Repr

/-- The closer's result of a scalar step, for the contribution of a device's operation `tag` (R356, R275). -/
structure ScalarResult where
  lid : Nat
  pgrp : Nat
  step : W32
  tag : Nat
  rank : Nat
  status : W16
  non : Nat
  nlate : Nat
  ndrop : Nat
  result : W64
  deriving DecidableEq, Repr

/-- A norm partial (R357): the X320 sum and its side bits. -/
structure NormMsg where
  lid : Nat
  pgrp : Nat
  step : W32
  j : Nat
  dev : BitVec 21
  sum : Int
  side : BitVec 4
  deriving DecidableEq, Repr

/-- A chunk of 64 KiB for a version (R277): of a CAG of this device, or of one that a rank of another device `dev` publishes, whose
operation there is `tag` and which has `nchk` chunks; `dst` is the chunk's address, `data` its bytes, little-endian, and `bad` the atoms of it that were
read poisoned. -/
inductive CagSrc where
  | own (op chunk : Nat)
  | remote (dev tag lid rank nchk chunk : Nat) (w : W32) (dst : W64) (data : Nat) (bad : List Nat)
  deriving DecidableEq, Repr

/-- How a device's deliveries of a CAG ended (R275, R277). -/
inductive CagOutcome where
  | accepted
  | refused (pubst : BitVec 2)
  | unreachable
  | failed (ecode : BitVec 3)
  deriving DecidableEq, Repr

/-- A run of payload bytes at an offset, with the numbers of its damaged bytes (R102, R97). -/
structure Run where
  off : W64
  data : List Byte
  bad : List Nat
  deriving DecidableEq, Repr

/-- An erroneous symbol of an atom (R46): its position in the code word, 0 to 39, and what is added to it. -/
structure SymErr where
  atom : Nat
  sym : Nat
  err : Byte
  deriving DecidableEq, Repr

/-- An atom of a mirror store (R82): the operation, and the atom's number at the target. -/
structure StmAtom where
  op : Nat
  atom : Nat
  deriving DecidableEq, Repr

/-- Whose COPYM takes its receivers' flags and sends (R103): one of this device, where `away` tells that the flags of its receivers on
other devices have been set and taken; or one of another device, which names its operation there, the privilege it translates with, the
bounding range of the payload from a receiver's address, and the list entries whose receivers are here. -/
inductive CopymSrc where
  | own (op : Nat) (away : Bool)
  | remote (dev lid tag : Nat) (priv : Bool) (lo : Int) (n : Nat) (entries : List (W64 × W64 × W64))
  deriving DecidableEq, Repr

/-- Whose COPYM has a receiver (R103): an operation of this device, or of another device, which names it there. -/
inductive CopymOf where
  | own (op : Nat)
  | remote (dev tag : Nat)
  deriving DecidableEq, Repr

/-- What comes of a receiver of a COPYM (R103): for this device's operation, a receiver here takes its payload, or the receiver's device
has ended with an engine error code, 0 for none (6: it is lost); for another device's, the payload arrives for a receiver here, with the sequence value, status and count of
its stamp. -/
inductive CopymReply where
  | ended (code : BitVec 3)
  | payload (runs : List Run) (seq : BitVec 48) (status : W16) (count : Nat)
  deriving DecidableEq, Repr

/-- What kills a launch (R375, R330, R342): the summary bit and code it leaves, and whether the launch may be replayed. -/
inductive KillCause where
  | matrixSilent
  | memUncorrectable
  | integrity
  | trap (code : BitVec 8) (replayable : Bool)
  | save
  | replayLog
  | cancelled
  | host
  deriving DecidableEq, Repr

/-- The requests that the part completes (R394): reads, writes, and the atomic requests FetchAdd, Swap and CAS with its compare value. -/
inductive PcieKind where
  | read
  | write
  | fetchAdd
  | swap
  | cas (compare : Nat)
  deriving DecidableEq, Repr

/-- What a request of the host reaches (R395): a BAR, by offset, or the function's configuration space, of which the BAR registers are
modelled. -/
inductive PcieSpace where
  | bar0
  | bar2
  | bar4
  | config
  deriving DecidableEq, Repr

/-- A request of the host (R394, R395). -/
structure PcieAccess where
  space : PcieSpace
  kind : PcieKind
  off : Nat
  size : Nat
  data : Nat
  deriving DecidableEq, Repr

/-- The boot ROM's checks of an image (R406); codes of BOOTSTAT.CODE. -/
inductive ImageCheck where
  | valid (fver : W32)
  | invalid (code : W16)
  deriving DecidableEq, Repr

/-- What bring-up found in service and what Flaell and secure firmware set (R390, R406, R408). -/
structure Bringup where
  capcore : W64
  capmem : W64
  caplink : W64
  caphbm : List W64
  worlds : List W64
  secbase : List W64
  seclim : List W64
  trained : Bool
  deriving DecidableEq, Repr

/-- The rows of spec/opcode_table.json, one constructor each: first the words of R183 (and the clause header of R169), then the
events of spec/95_what_each_step_holds.md, whose arguments are what comes from outside the package or name the operation concerned, and the
errors of memory that the event is the first to find (log 5). -/
inductive Instr where
  | clauseHeader (wait : BitVec 12) (seta : BitVec 4) (setb : BitVec 4) (len : BitVec 4)
  | nop
  | br (off : BitVec 24)
  | brz (p : Opnd) (off : BitVec 16)
  | brnz (p : Opnd) (off : BitVec 16)
  | bzm (p : Opnd) (off : BitVec 16)
  | bnzm (p : Opnd) (off : BitVec 16)
  | ballm (p : Opnd) (off : BitVec 16)
  | call (n : BitVec 8) (off : BitVec 16)
  | calli (n : BitVec 8) (t : Opnd)
  | ret
  | loop (p : Opnd) (off : BitVec 16)
  | yield
  | yieldc (off : BitVec 24)
  | exit
  | trap (imm : BitVec 16)
  | jmpi (t : Opnd)
  | setmode (imm : BitVec 16)
  | setmm (imm : BitVec 16)
  | getmode (d : Opnd)
  | mand (d : Opnd) (a : Opnd) (b : Opnd)
  | mor (d : Opnd) (a : Opnd) (b : Opnd)
  | mxor (d : Opnd) (a : Opnd) (b : Opnd)
  | mandn (d : Opnd) (a : Opnd) (b : Opnd)
  | mnot (d : Opnd) (a : Opnd)
  | mmov (d : Opnd) (a : Opnd)
  | mpopc (d : Opnd) (a : Opnd)
  | mffs (d : Opnd) (a : Opnd)
  | mseti (d : Opnd) (imm : W32)
  | mlane (d : Opnd) (a : Opnd)
  | fpsget (d : Opnd)
  | fpsclr (a : Opnd) (imm : BitVec 6)
  | sget (d : Opnd) (imm : BitVec 8)
  | sadd (d : Opnd) (a : Opnd) (b : Opnd)
  | ssub (d : Opnd) (a : Opnd) (b : Opnd)
  | smul (d : Opnd) (a : Opnd) (b : Opnd)
  | smulh (d : Opnd) (a : Opnd) (b : Opnd)
  | smulhn (d : Opnd) (a : Opnd) (b : Opnd)
  | sdiv (d : Opnd) (a : Opnd) (b : Opnd)
  | sdivn (d : Opnd) (a : Opnd) (b : Opnd)
  | smod (d : Opnd) (a : Opnd) (b : Opnd)
  | sand (d : Opnd) (a : Opnd) (b : Opnd)
  | sor (d : Opnd) (a : Opnd) (b : Opnd)
  | sxor (d : Opnd) (a : Opnd) (b : Opnd)
  | sshl (d : Opnd) (a : Opnd) (b : Opnd)
  | sshr (d : Opnd) (a : Opnd) (b : Opnd)
  | ssar (d : Opnd) (a : Opnd) (b : Opnd)
  | smin (d : Opnd) (a : Opnd) (b : Opnd)
  | smax (d : Opnd) (a : Opnd) (b : Opnd)
  | sminn (d : Opnd) (a : Opnd) (b : Opnd)
  | smaxn (d : Opnd) (a : Opnd) (b : Opnd)
  | smov (d : Opnd) (a : Opnd)
  | smovi (d : Opnd) (imm : BitVec 16)
  | smovh (d : Opnd) (imm : BitVec 16)
  | scmpeq (d : Opnd) (a : Opnd) (b : Opnd)
  | scmplt (d : Opnd) (a : Opnd) (b : Opnd)
  | scmpltn (d : Opnd) (a : Opnd) (b : Opnd)
  | spopc (d : Opnd) (a : Opnd)
  | sclz (d : Opnd) (a : Opnd)
  | sbfx (d : Opnd) (a : Opnd) (b : Opnd)
  | sbfi (d : Opnd) (a : Opnd) (b : Opnd)
  | saddi (d : Opnd) (a : Opnd) (imm : BitVec 8)
  | amov (d : Opnd) (a : Opnd)
  | aadd (d : Opnd) (a : Opnd) (b : Opnd)
  | bset (d : Opnd) (a : Opnd) (b : Opnd)
  | vadd (d : Opnd) (a : Opnd) (b : Opnd)
  | vsub (d : Opnd) (a : Opnd) (b : Opnd)
  | vmul (d : Opnd) (a : Opnd) (b : Opnd)
  | vmulh (d : Opnd) (a : Opnd) (b : Opnd)
  | vmad (d : Opnd) (a : Opnd) (b : Opnd)
  | vand (d : Opnd) (a : Opnd) (b : Opnd)
  | vor (d : Opnd) (a : Opnd) (b : Opnd)
  | vxor (d : Opnd) (a : Opnd) (b : Opnd)
  | vnot (d : Opnd) (a : Opnd)
  | vshl (d : Opnd) (a : Opnd) (b : Opnd)
  | vshr (d : Opnd) (a : Opnd) (b : Opnd)
  | vmin (d : Opnd) (a : Opnd) (b : Opnd)
  | vmax (d : Opnd) (a : Opnd) (b : Opnd)
  | vabs (d : Opnd) (a : Opnd)
  | vneg (d : Opnd) (a : Opnd)
  | vmov (d : Opnd) (a : Opnd)
  | vmovi (d : Opnd) (imm : BitVec 16)
  | vbcast (d : Opnd) (a : Opnd) (b : Opnd)
  | vceq (d : Opnd) (a : Opnd) (b : Opnd)
  | vcne (d : Opnd) (a : Opnd) (b : Opnd)
  | vclt (d : Opnd) (a : Opnd) (b : Opnd)
  | vcle (d : Opnd) (a : Opnd) (b : Opnd)
  | vcgt (d : Opnd) (a : Opnd) (b : Opnd)
  | vcge (d : Opnd) (a : Opnd) (b : Opnd)
  | vsel (d : Opnd) (a : Opnd) (b : Opnd)
  | vpopc (d : Opnd) (a : Opnd)
  | vclz (d : Opnd) (a : Opnd)
  | vbfx (d : Opnd) (a : Opnd) (b : Opnd)
  | vidx (d : Opnd) (a : Opnd) (b : Opnd)
  | vdot4 (d : Opnd) (a : Opnd) (b : Opnd)
  | fadd (d : Opnd) (a : Opnd) (b : Opnd)
  | fsub (d : Opnd) (a : Opnd) (b : Opnd)
  | fmul (d : Opnd) (a : Opnd) (b : Opnd)
  | ffma (d : Opnd) (a : Opnd) (b : Opnd)
  | fmin (d : Opnd) (a : Opnd) (b : Opnd)
  | fmax (d : Opnd) (a : Opnd) (b : Opnd)
  | fminnum (d : Opnd) (a : Opnd) (b : Opnd)
  | fmaxnum (d : Opnd) (a : Opnd) (b : Opnd)
  | fabs (d : Opnd) (a : Opnd)
  | fneg (d : Opnd) (a : Opnd)
  | frcp (d : Opnd) (a : Opnd)
  | frsq (d : Opnd) (a : Opnd)
  | fsqrt (d : Opnd) (a : Opnd)
  | fdiv (d : Opnd) (a : Opnd) (b : Opnd)
  | fexp2 (d : Opnd) (a : Opnd)
  | flog2 (d : Opnd) (a : Opnd)
  | fsin (d : Opnd) (a : Opnd)
  | fcos (d : Opnd) (a : Opnd)
  | frnd (d : Opnd) (a : Opnd) (x : BitVec 1) (r : BitVec 3)
  | fscale (d : Opnd) (a : Opnd) (b : Opnd)
  | fclass (d : Opnd) (a : Opnd)
  | fceq (d : Opnd) (a : Opnd) (b : Opnd)
  | fclt (d : Opnd) (a : Opnd) (b : Opnd)
  | fcle (d : Opnd) (a : Opnd) (b : Opnd)
  | fcun (d : Opnd) (a : Opnd) (b : Opnd)
  | fkey (d : Opnd) (a : Opnd)
  | cvt (d : Opnd) (a : Opnd) (t : BitVec 4) (s : BitVec 4)
  | qpack (d : Opnd) (a : Opnd) (s : BitVec 1) (f : BitVec 3)
  | qunpack (d : Opnd) (a : Opnd) (s : BitVec 1) (f : BitVec 3)
  | qscale (d : Opnd) (a : Opnd) (s : BitVec 1) (f : BitVec 3)
  | scvt (d : Opnd) (a : Opnd) (k : BitVec 2) (s : BitVec 1) (f : BitVec 4)
  | vshfl (d : Opnd) (a : Opnd) (b : Opnd)
  | vbfly (d : Opnd) (a : Opnd) (imm : BitVec 5)
  | vrot (d : Opnd) (a : Opnd) (imm : BitVec 5)
  | vredadd (d : Opnd) (a : Opnd)
  | vredmax (d : Opnd) (a : Opnd)
  | vredmin (d : Opnd) (a : Opnd)
  | vargmax (d : Opnd) (a : Opnd) (b : Opnd)
  | vscan (d : Opnd) (a : Opnd) (x : BitVec 1) (off : BitVec 2)
  | vdist (d : Opnd) (a : Opnd) (q : BitVec 2) (r : BitVec 3) (f : BitVec 1) (m : BitVec 1)
  | vtopk (d : Opnd) (a : Opnd) (off : BitVec 1) (k : BitVec 5)
  | vtopkm (d : Opnd) (a : Opnd) (off : BitVec 1) (k : BitVec 5)
  | lds (d : Opnd) (mem : MemRef)
  | sts (d : Opnd) (mem : MemRef)
  | ldv (d : Opnd) (mem : MemRef)
  | stv (d : Opnd) (mem : MemRef)
  | ldl (d : Opnd) (mem : MemRef)
  | stl (d : Opnd) (mem : MemRef)
  | lda (d : Opnd) (mem : MemRef)
  | sta (d : Opnd) (mem : MemRef)
  | ldw (d : Opnd) (mem : MemRef)
  | stw (d : Opnd) (mem : MemRef)
  | ldpar (d : Opnd) (mem : MemRef)
  | stt (d : Opnd) (mem : MemRef)
  | stm (d : Opnd) (mem : MemRef)
  | pref (mem : MemRef)
  | atadd (d : Opnd) (mem : MemRef)
  | atmin (d : Opnd) (mem : MemRef)
  | atmax (d : Opnd) (mem : MemRef)
  | atand (d : Opnd) (mem : MemRef)
  | ator (d : Opnd) (mem : MemRef)
  | atxor (d : Opnd) (mem : MemRef)
  | atxchg (d : Opnd) (mem : MemRef)
  | atcas (d : Opnd) (mem : MemRef)
  | atinc (d : Opnd) (mem : MemRef)
  | atfadd (d : Opnd) (mem : MemRef)
  | atfmax (d : Opnd) (mem : MemRef)
  | atfmin (d : Opnd) (mem : MemRef)
  | fence
  | fencea (a : Opnd) (b : Opnd)
  | acqrg (d : Opnd) (a : Opnd) (b : Opnd)
  | relrg (d : Opnd) (a : Opnd) (b : Opnd)
  | monarm (k : BitVec 2) (mem : MemRef)
  | monwait (d : Opnd) (k : BitVec 2) (b : Opnd)
  | copy (mem : MemRef)
  | copym (mem : MemRef)
  | mack (n : BitVec 6)
  | stash (d : Opnd) (mem : MemRef)
  | stgld (mem : MemRef)
  | crs (mem : MemRef)
  | cscal (a : Opnd) (b : Opnd)
  | cag (mem : MemRef)
  | step
  | steprd (d : Opnd) (a : Opnd) (imm : BitVec 8)
  | gsget (d : Opnd) (j : BitVec 3) (g : BitVec 1) (x : BitVec 6)
  | bar (d : Opnd) (a : Opnd) (b : BitVec 2)
  | swaph (d : Opnd) (a : Opnd)
  | watch (d : Opnd) (mem : MemRef)
  | blatch (vb : Opnd) (t : BitVec 1) (q : BitVec 2) (f : BitVec 4)
  | mmaE4m3 (cbs : Opnd) (abs : Opnd) (sel : BitVec 1) (zero : BitVec 1) (lrc : BitVec 1) (lra : BitVec 1)
  | mmaE5m2 (cbs : Opnd) (abs : Opnd) (sel : BitVec 1) (zero : BitVec 1) (lrc : BitVec 1) (lra : BitVec 1)
  | mmaE3m2 (cbs : Opnd) (abs : Opnd) (sel : BitVec 1) (zero : BitVec 1) (lrc : BitVec 1) (lra : BitVec 1)
  | mmaE2m3 (cbs : Opnd) (abs : Opnd) (sel : BitVec 1) (zero : BitVec 1) (lrc : BitVec 1) (lra : BitVec 1)
  | mmaF4s (cbs : Opnd) (abs : Opnd) (sel : BitVec 1) (zero : BitVec 1) (lrc : BitVec 1) (lra : BitVec 1)
  | mmaBf16 (cbs : Opnd) (abs : Opnd) (sel : BitVec 1) (zero : BitVec 1) (lrc : BitVec 1) (lra : BitVec 1)
  | mmaF16 (cbs : Opnd) (abs : Opnd) (sel : BitVec 1) (zero : BitVec 1) (lrc : BitVec 1) (lra : BitVec 1)
  | mmaI8 (cbs : Opnd) (abs : Opnd) (sel : BitVec 1) (zero : BitVec 1) (lrc : BitVec 1) (lra : BitVec 1)
  | mmaE2m1 (cbs : Opnd) (abs : Opnd) (sel : BitVec 1) (zero : BitVec 1) (lrc : BitVec 1) (lra : BitVec 1)
  | mfence (d : Opnd)
  | mwait (a : Opnd)
  | accz (a : Opnd)
  | accrd (d : Opnd) (a : Opnd) (k : BitVec 2) (m : BitVec 1) (f : BitVec 4)
  | accld (d : Opnd) (a : Opnd) (f : BitVec 4)
  | freeze
  | sigchk (imm : W32)
  | sigclr
  | snap
  | rft (s : BitVec 1)
  | mfsr (d : Opnd) (n : BitVec 16)
  | mtsr (d : Opnd) (n : BitVec 16)
  | wdepth (d : Opnd)
  | wsync
  | free (d : Opnd) (a : Opnd) (b : Opnd)
  | tlbi (a : Opnd)
  | halt
  | clauseFetch
  | atomWritePerformed (op : Nat) (atom : Nat) (es : List SymErr)
  | atomReadPerformed (op : Nat) (atom : Nat) (es : List SymErr) (ext : BitVec 256)
  | celogFilterClear (unit : Nat)
  | scAccessResponse (op : Nat)
  | loadDataReturn (op : Nat)
  | atomicPerformed (op : Nat) (atom : Nat) (es : List SymErr)
  | arithResultWritten (op : Nat)
  | pageWalkComplete (agent : Agent) (root : Nat) (va : W64) (es : List SymErr)
  | tlbiComplete (op : Nat)
  | publicationOpen (launch : Nat) (vs : Nat) (w : W32) (pageSize : Nat)
  | publicationFrameTaken (vs : Nat) (w : W32)
  | publicationClose (vs : Nat) (w : W32)
  | versionAdvanceComplete (vs : Nat)
  | versionWaitTimeout (p : Place)
  | acqrgTimeout (p : Place)
  | relrgComplete (op : Nat)
  | stmPerformed (at_ : StmAtom)
  | swaphSwap (launch : Nat) (inst : Nat)
  | swaphTimeout (launch : Nat) (inst : Nat)
  | barTimeout (wg : Nat) (bar : Nat)
  | monwaitTimeout (p : Place)
  | copyStart (op : Nat)
  | copyComplete (op : Nat) (es : List SymErr)
  | copymSend (src : CopymSrc)
  | copymReceiverAck (src : CopymOf) (idx : Nat) (reply : CopymReply)
  | stashComplete (op : Nat)
  | storageSlotAssigned (op : Nat)
  | storageCompletion (qp : Nat)
  | storageCommandTimeout (op : Nat)
  | storageWindowAccess (kind : PcieKind) (off : Nat) (size : Nat) (data : Nat)
  | watchPost (slot : Nat)
  | yieldcReactivate (p : Place)
  | tailraceSpill (p : Place) (frame : Nat)
  | frameSpilled (p : Place) (frame : Nat)
  | tailraceRefillComplete (p : Place) (es : List SymErr)
  | apertureAccess (op : Nat) (lane : Nat)
  | apertureStoreDelivery (op : Nat) (lane : Nat)
  | bandPark (core : Nat) (quad : Nat)
  | bandRestore (core : Nat) (quad : Nat)
  | mmaExecuteComplete (op : Nat) (mismatch : Bool)
  | mmaRerunComplete (op : Nat) (mismatch : Bool)
  | contributionArrival (src : ContribSrc)
  | quorumTimerExpiry (key : StepKey)
  | ownerAckArrival (op : Nat) (owner : Nat) (cls : AckClass)
  | ringHop (m : RingMsg)
  | scalarContributionArrival (src : ScalarSrc)
  | scalarTimerExpiry (lid : Nat) (pgrp : Nat) (step : W32)
  | scalarResultArrival (r : ScalarResult)
  | cscalResultTimeout (op : Nat)
  | stepClosedPoint (lid : Nat) (pgrp : Nat) (step : W32)
  | normPartialArrival (m : NormMsg)
  | cagChunkArrival (src : CagSrc)
  | cagDeviceDone (op : Nat) (pos : Nat) (out : CagOutcome)
  | heldMessageExpiry (idx : Nat)
  | weirStepMessage (lid : Nat) (rank : Nat) (step : W32)
  | weirHeartbeat
  | podSummaryArrival (lid : Nat) (pod : Nat) (step : W32)
  | weirSilenceTimeout (lid : Nat) (isPod : Bool) (who : Nat)
  | linkLaneChange (ethernet : Bool) (port : Nat) (lanes : Nat)
  | peerUnreachable (lid : Nat) (dev : BitVec 21)
  | queueDoorbell (queue : Nat) (tail : W16)
  | launchDispatch (queue : Nat)
  | launchActivate (queue : Nat)
  | workgroupPlace
  | templateImageAck (launch : Nat) (inst : Nat) (core : Nat)
  | preemptTimerExpiry (prio : Nat)
  | preemptSave (wg : Nat)
  | workgroupResume (wg : Nat)
  | launchComplete (launch : Nat)
  | eventRingCoalesceTimeout
  | evrctlWrite (v : W64)
  | trapEntry (p : Place)
  | launchKill (launch : Nat) (cause : KillCause)
  | launchKillComplete (launch : Nat)
  | writesetGranuleCopy (launch : Nat) (granule : Nat)
  | redundantCompare (launch : Nat)
  | snapshotPin
  | snapshotTimer
  | snapshotReadoutComplete
  | snapctlWrite (v : W64)
  | secregionWrite (num : Nat) (v : W64) (secure : Bool)
  | lsroleWrite (num : Nat) (v : W64)
  | gclrWrite (v : W64)
  | wmbaseWrite (v : W64)
  | ueptabWrite (v : W64)
  | cwrldWrite (die : Nat) (v : W64) (secure : Bool)
  | registerWrite (off : Nat) (v : W64) (secure : Bool)
  | flmcmdNone (v : W64)
  | flmcmdCloseStep (v : W64)
  | flmcmdDeclareSilent (v : W64)
  | flmcmdRefused (v : W64)
  | hcmdCancelLaunch
  | hcmdCancelQueue
  | hcmdPreemptLaunch
  | hcmdResumeHalted
  | hcmdKillLaunch
  | hcmdResumeSuspended
  | hcmdDeliverTrap
  | hcmdMalformed
  | pcieInboundAccess (acc : PcieAccess)
  | reset (flash : Option ImageCheck)
  | bootMailboxImage (check : ImageCheck)
  | bringupComplete (r : Bringup)
  | attestationRequest (nonce : BitVec 384)
  | attestationReport
  | thermalStateChange (tj : BitVec 8)
  | powerTelemetryUpdate (pwr : BitVec 12) (thr : BitVec 10) (tj : BitVec 8) (tin : BitVec 8)
  deriving DecidableEq, Repr

end Sys2Proof
end

