-- ==== Sys2Proof/WellFormed.lean ====
section
/-! DEFINITION. Which instructions are well formed whatever the state holds: the codes and immediates that the entries accept
(R175, R177, R178, R180, R185). Generated from the fields of spec/opcode_table.json and the entries. What depends on MODE, on
lat's validity or on the place of the word in its clause is checked where the word issues (Machine/Operands.lean). -/

namespace Sys2Proof

/-- Reserved codes of R178. -/
def Opnd.isReserved : Opnd → Bool
  | .reserved _ => true
  | _ => false

def Opnd.isV : Opnd → Bool
  | .v _ => true
  | _ => false

def Opnd.isS : Opnd → Bool
  | .s _ => true
  | _ => false

def Opnd.isO : Opnd → Bool
  | .o _ => true
  | _ => false

def Opnd.isA : Opnd → Bool
  | .a _ => true
  | _ => false

def Opnd.isM : Opnd → Bool
  | .m _ => true
  | _ => false

def Opnd.isB : Opnd → Bool
  | .b _ => true
  | _ => false

def Opnd.isLat : Opnd → Bool
  | .lat => true
  | _ => false

def Opnd.isZero : Opnd → Bool
  | .zero => true
  | _ => false

def Opnd.isLit : Opnd → Bool
  | .lit _ => true
  | _ => false

def Opnd.isLid : Opnd → Bool
  | .lid => true
  | _ => false

def Opnd.isInt : Opnd → Bool
  | .int _ => true
  | _ => false

def Opnd.isFlt : Opnd → Bool
  | .flt _ => true
  | _ => false


def Opnd.isConst : Opnd → Bool
  | .zero | .int _ | .flt _ | .lit _ => true
  | _ => false

/-- An s or an a register. -/
def Opnd.isAddr (o : Opnd) : Bool := o.isS || o.isA

/-- R285: roles. -/
def Opnd.scalarSrc (o : Opnd) : Bool := o.isS || o.isA || o.isM || o.isZero || o.isInt || o.isLit
def Opnd.maskSrc (o : Opnd) : Bool := o.isM || o.isS || o.isZero || o.isInt || o.isLit

/-- An s register, an inline integer or a literal. -/
def Opnd.count (o : Opnd) : Bool := o.isS || o.isInt || o.isLit

/-- A status destination: an s register or zero. -/
def Opnd.status (o : Opnd) : Bool := o.isS || o.isZero

/-- R218: roles. -/
def Opnd.vecDst (o : Opnd) : Bool := o.isV || o.isO
def Opnd.vecReg (o : Opnd) : Bool := o.isV || o.isO || o.isLat
def Opnd.vecSrc (o : Opnd) : Bool := o.vecReg || o.isS || o.isConst || o.isLid

/-- R194: data of a store in the vector form. -/
def Opnd.vecData (o : Opnd) : Bool := o.vecReg || o.isConst

/-- R311: a name to free, or none. -/
def Opnd.freed (o : Opnd) : Bool := o.isV || o.isS || o.isZero

/-- A v register below a number. -/
def Opnd.vBelow (k : Nat) : Opnd → Bool
  | .v n => decide (n.val < k)
  | _ => false

/-- A v or s register of an even number. -/
def Opnd.even : Opnd → Bool
  | .v n | .s n => n.val % 2 == 0
  | _ => false

/-- R301: the slides. -/
def slideOk (n : BitVec 8) : Bool := n.toNat % 8 == 0 && 8 ≤ n.toNat && n.toNat ≤ 48

/-- R298: the specials. -/
def specialOk (c : BitVec 8) : Bool := c.toNat ≤ 10 || (0x10 ≤ c.toNat && c.toNat ≤ 0x17)

/-- R246, R247: the last register of a quarter's block counted from its first, 64 for a reserved format. -/
def blockEnd (f : BitVec 4) : Nat :=
  match f.toNat with
  | 0 | 1 | 2 | 3 | 7 => 15
  | 4 | 8 => 7
  | 5 | 6 => 31
  | _ => 64

/-- Formats with a choice of scale bytes. -/
def scaledPair (f : Nat) : Bool := f ≤ 3 || f == 8

/-- R180: the fields of a mode that must be zero, and the reserved modes. -/
def MemRef.ok (m : MemRef) : Bool :=
  match m.amode with
  | .base => m.breg == 0 && m.index == 0
  | .post => m.breg == 0 && m.index == 0
  | .postMod => m.index == 0
  | .idx => m.breg == 0
  | .lanes => m.breg == 0
  | .idxMod => true
  | .reserved6 => false
  | .reserved7 => false

/-- R194: the modes 000, 001 and 011. -/
def MemRef.plain (m : MemRef) : Bool := m.amode == .base || m.amode == .post || m.amode == .idx

/-- The operand fields of an instruction word, in the order of the word (R175). -/
def Instr.opnds : Instr → List Opnd
  | .clauseHeader _ _ _ _ => []
  | .nop => []
  | .br _ => []
  | .brz p _ => [p]
  | .brnz p _ => [p]
  | .bzm p _ => [p]
  | .bnzm p _ => [p]
  | .ballm p _ => [p]
  | .call _ _ => []
  | .calli _ t => [t]
  | .ret => []
  | .loop p _ => [p]
  | .yield => []
  | .yieldc _ => []
  | .exit => []
  | .trap _ => []
  | .jmpi t => [t]
  | .setmode _ => []
  | .setmm _ => []
  | .getmode d => [d]
  | .mand d a b => [d, a, b]
  | .mor d a b => [d, a, b]
  | .mxor d a b => [d, a, b]
  | .mandn d a b => [d, a, b]
  | .mnot d a => [d, a]
  | .mmov d a => [d, a]
  | .mpopc d a => [d, a]
  | .mffs d a => [d, a]
  | .mseti d imm => [d, .lit imm]
  | .mlane d a => [d, a]
  | .fpsget d => [d]
  | .fpsclr a _ => [a]
  | .sget d _ => [d]
  | .sadd d a b => [d, a, b]
  | .ssub d a b => [d, a, b]
  | .smul d a b => [d, a, b]
  | .smulh d a b => [d, a, b]
  | .smulhn d a b => [d, a, b]
  | .sdiv d a b => [d, a, b]
  | .sdivn d a b => [d, a, b]
  | .smod d a b => [d, a, b]
  | .sand d a b => [d, a, b]
  | .sor d a b => [d, a, b]
  | .sxor d a b => [d, a, b]
  | .sshl d a b => [d, a, b]
  | .sshr d a b => [d, a, b]
  | .ssar d a b => [d, a, b]
  | .smin d a b => [d, a, b]
  | .smax d a b => [d, a, b]
  | .sminn d a b => [d, a, b]
  | .smaxn d a b => [d, a, b]
  | .smov d a => [d, a]
  | .smovi d _ => [d]
  | .smovh d _ => [d]
  | .scmpeq d a b => [d, a, b]
  | .scmplt d a b => [d, a, b]
  | .scmpltn d a b => [d, a, b]
  | .spopc d a => [d, a]
  | .sclz d a => [d, a]
  | .sbfx d a b => [d, a, b]
  | .sbfi d a b => [d, a, b]
  | .saddi d a _ => [d, a]
  | .amov d a => [d, a]
  | .aadd d a b => [d, a, b]
  | .bset d a b => [d, a, b]
  | .vadd d a b => [d, a, b]
  | .vsub d a b => [d, a, b]
  | .vmul d a b => [d, a, b]
  | .vmulh d a b => [d, a, b]
  | .vmad d a b => [d, a, b]
  | .vand d a b => [d, a, b]
  | .vor d a b => [d, a, b]
  | .vxor d a b => [d, a, b]
  | .vnot d a => [d, a]
  | .vshl d a b => [d, a, b]
  | .vshr d a b => [d, a, b]
  | .vmin d a b => [d, a, b]
  | .vmax d a b => [d, a, b]
  | .vabs d a => [d, a]
  | .vneg d a => [d, a]
  | .vmov d a => [d, a]
  | .vmovi d _ => [d]
  | .vbcast d a b => [d, a, b]
  | .vceq d a b => [d, a, b]
  | .vcne d a b => [d, a, b]
  | .vclt d a b => [d, a, b]
  | .vcle d a b => [d, a, b]
  | .vcgt d a b => [d, a, b]
  | .vcge d a b => [d, a, b]
  | .vsel d a b => [d, a, b]
  | .vpopc d a => [d, a]
  | .vclz d a => [d, a]
  | .vbfx d a b => [d, a, b]
  | .vidx d a b => [d, a, b]
  | .vdot4 d a b => [d, a, b]
  | .fadd d a b => [d, a, b]
  | .fsub d a b => [d, a, b]
  | .fmul d a b => [d, a, b]
  | .ffma d a b => [d, a, b]
  | .fmin d a b => [d, a, b]
  | .fmax d a b => [d, a, b]
  | .fminnum d a b => [d, a, b]
  | .fmaxnum d a b => [d, a, b]
  | .fabs d a => [d, a]
  | .fneg d a => [d, a]
  | .frcp d a => [d, a]
  | .frsq d a => [d, a]
  | .fsqrt d a => [d, a]
  | .fdiv d a b => [d, a, b]
  | .fexp2 d a => [d, a]
  | .flog2 d a => [d, a]
  | .fsin d a => [d, a]
  | .fcos d a => [d, a]
  | .frnd d a _ _ => [d, a]
  | .fscale d a b => [d, a, b]
  | .fclass d a => [d, a]
  | .fceq d a b => [d, a, b]
  | .fclt d a b => [d, a, b]
  | .fcle d a b => [d, a, b]
  | .fcun d a b => [d, a, b]
  | .fkey d a => [d, a]
  | .cvt d a _ _ => [d, a]
  | .qpack d a _ _ => [d, a]
  | .qunpack d a _ _ => [d, a]
  | .qscale d a _ _ => [d, a]
  | .scvt d a _ _ _ => [d, a]
  | .vshfl d a b => [d, a, b]
  | .vbfly d a _ => [d, a]
  | .vrot d a _ => [d, a]
  | .vredadd d a => [d, a]
  | .vredmax d a => [d, a]
  | .vredmin d a => [d, a]
  | .vargmax d a b => [d, a, b]
  | .vscan d a _ _ => [d, a]
  | .vdist d a _ _ _ _ => [d, a]
  | .vtopk d a _ _ => [d, a]
  | .vtopkm d a _ _ => [d, a]
  | .lds d _ => [d]
  | .sts d _ => [d]
  | .ldv d _ => [d]
  | .stv d _ => [d]
  | .ldl d _ => [d]
  | .stl d _ => [d]
  | .lda d _ => [d]
  | .sta d _ => [d]
  | .ldw d _ => [d]
  | .stw d _ => [d]
  | .ldpar d _ => [d]
  | .stt d _ => [d]
  | .stm d _ => [d]
  | .pref _ => []
  | .atadd d _ => [d]
  | .atmin d _ => [d]
  | .atmax d _ => [d]
  | .atand d _ => [d]
  | .ator d _ => [d]
  | .atxor d _ => [d]
  | .atxchg d _ => [d]
  | .atcas d _ => [d]
  | .atinc d _ => [d]
  | .atfadd d _ => [d]
  | .atfmax d _ => [d]
  | .atfmin d _ => [d]
  | .fence => []
  | .fencea a b => [a, b]
  | .acqrg d a b => [d, a, b]
  | .relrg d a b => [d, a, b]
  | .monarm _ _ => []
  | .monwait d _ b => [d, b]
  | .copy _ => []
  | .copym _ => []
  | .mack _ => []
  | .stash d _ => [d]
  | .stgld _ => []
  | .crs _ => []
  | .cscal a b => [a, b]
  | .cag _ => []
  | .step => []
  | .steprd d a _ => [d, a]
  | .gsget d _ _ _ => [d]
  | .bar d a _ => [d, a]
  | .swaph d a => [d, a]
  | .watch d _ => [d]
  | .blatch vb _ _ _ => [vb]
  | .mmaE4m3 cbs abs _ _ _ _ => [cbs, abs]
  | .mmaE5m2 cbs abs _ _ _ _ => [cbs, abs]
  | .mmaE3m2 cbs abs _ _ _ _ => [cbs, abs]
  | .mmaE2m3 cbs abs _ _ _ _ => [cbs, abs]
  | .mmaF4s cbs abs _ _ _ _ => [cbs, abs]
  | .mmaBf16 cbs abs _ _ _ _ => [cbs, abs]
  | .mmaF16 cbs abs _ _ _ _ => [cbs, abs]
  | .mmaI8 cbs abs _ _ _ _ => [cbs, abs]
  | .mmaE2m1 cbs abs _ _ _ _ => [cbs, abs]
  | .mfence d => [d]
  | .mwait a => [a]
  | .accz a => [a]
  | .accrd d a _ _ _ => [d, a]
  | .accld d a _ => [d, a]
  | .freeze => []
  | .sigchk imm => [.lit imm]
  | .sigclr => []
  | .snap => []
  | .rft _ => []
  | .mfsr d _ => [d]
  | .mtsr d _ => [d]
  | .wdepth d => [d]
  | .wsync => []
  | .free d a b => [d, a, b]
  | .tlbi a => [a]
  | .halt => []
  | _ => []

/-- The memory operand of an M-format word (R180); the BREG of LDPAR has its own use (R204). -/
def Instr.memRef? : Instr → Option MemRef
  | .lds _ mem => some mem
  | .sts _ mem => some mem
  | .ldv _ mem => some mem
  | .stv _ mem => some mem
  | .ldl _ mem => some mem
  | .stl _ mem => some mem
  | .lda _ mem => some mem
  | .sta _ mem => some mem
  | .ldw _ mem => some mem
  | .stw _ mem => some mem
  | .stt _ mem => some mem
  | .stm _ mem => some mem
  | .pref mem => some mem
  | .atadd _ mem => some mem
  | .atmin _ mem => some mem
  | .atmax _ mem => some mem
  | .atand _ mem => some mem
  | .ator _ mem => some mem
  | .atxor _ mem => some mem
  | .atxchg _ mem => some mem
  | .atcas _ mem => some mem
  | .atinc _ mem => some mem
  | .atfadd _ mem => some mem
  | .atfmax _ mem => some mem
  | .atfmin _ mem => some mem
  | .monarm _ mem => some mem
  | .copy mem => some mem
  | .copym mem => some mem
  | .stash _ mem => some mem
  | .stgld mem => some mem
  | .crs mem => some mem
  | .cag mem => some mem
  | .watch _ mem => some mem
  | _ => none

/-- Whether the row has a word of its own; the others are events (R183, spec/opcode_table.json). -/
def Instr.hasWord : Instr → Bool
  | .clauseFetch => false
  | .atomWritePerformed _ _ _ => false
  | .atomReadPerformed _ _ _ _ => false
  | .celogFilterClear _ => false
  | .scAccessResponse _ => false
  | .loadDataReturn _ => false
  | .atomicPerformed _ _ _ => false
  | .arithResultWritten _ => false
  | .pageWalkComplete _ _ _ _ => false
  | .tlbiComplete _ => false
  | .publicationOpen _ _ _ _ => false
  | .publicationFrameTaken _ _ => false
  | .publicationClose _ _ => false
  | .versionAdvanceComplete _ => false
  | .versionWaitTimeout _ => false
  | .acqrgTimeout _ => false
  | .relrgComplete _ => false
  | .stmPerformed _ => false
  | .swaphSwap _ _ => false
  | .swaphTimeout _ _ => false
  | .barTimeout _ _ => false
  | .monwaitTimeout _ => false
  | .copyStart _ => false
  | .copyComplete _ _ => false
  | .copymSend _ => false
  | .copymReceiverAck _ _ _ => false
  | .stashComplete _ => false
  | .storageSlotAssigned _ => false
  | .storageCompletion _ => false
  | .storageCommandTimeout _ => false
  | .storageWindowAccess _ _ _ _ => false
  | .watchPost _ => false
  | .yieldcReactivate _ => false
  | .tailraceSpill _ _ => false
  | .frameSpilled _ _ => false
  | .tailraceRefillComplete _ _ => false
  | .apertureAccess _ _ => false
  | .apertureStoreDelivery _ _ => false
  | .bandPark _ _ => false
  | .bandRestore _ _ => false
  | .mmaExecuteComplete _ _ => false
  | .mmaRerunComplete _ _ => false
  | .contributionArrival _ => false
  | .quorumTimerExpiry _ => false
  | .ownerAckArrival _ _ _ => false
  | .ringHop _ => false
  | .scalarContributionArrival _ => false
  | .scalarTimerExpiry _ _ _ => false
  | .scalarResultArrival _ => false
  | .cscalResultTimeout _ => false
  | .stepClosedPoint _ _ _ => false
  | .normPartialArrival _ => false
  | .cagChunkArrival _ => false
  | .cagDeviceDone _ _ _ => false
  | .heldMessageExpiry _ => false
  | .weirStepMessage _ _ _ => false
  | .weirHeartbeat => false
  | .podSummaryArrival _ _ _ => false
  | .weirSilenceTimeout _ _ _ => false
  | .linkLaneChange _ _ _ => false
  | .peerUnreachable _ _ => false
  | .queueDoorbell _ _ => false
  | .launchDispatch _ => false
  | .launchActivate _ => false
  | .workgroupPlace => false
  | .templateImageAck _ _ _ => false
  | .preemptTimerExpiry _ => false
  | .preemptSave _ => false
  | .workgroupResume _ => false
  | .launchComplete _ => false
  | .eventRingCoalesceTimeout => false
  | .evrctlWrite _ => false
  | .trapEntry _ => false
  | .launchKill _ _ => false
  | .launchKillComplete _ => false
  | .writesetGranuleCopy _ _ => false
  | .redundantCompare _ => false
  | .snapshotPin => false
  | .snapshotTimer => false
  | .snapshotReadoutComplete => false
  | .snapctlWrite _ => false
  | .secregionWrite _ _ _ => false
  | .lsroleWrite _ _ => false
  | .gclrWrite _ => false
  | .wmbaseWrite _ => false
  | .ueptabWrite _ => false
  | .cwrldWrite _ _ _ => false
  | .registerWrite _ _ _ => false
  | .flmcmdNone _ => false
  | .flmcmdCloseStep _ => false
  | .flmcmdDeclareSilent _ => false
  | .flmcmdRefused _ => false
  | .hcmdCancelLaunch => false
  | .hcmdCancelQueue => false
  | .hcmdPreemptLaunch => false
  | .hcmdResumeHalted => false
  | .hcmdKillLaunch => false
  | .hcmdResumeSuspended => false
  | .hcmdDeliverTrap => false
  | .hcmdMalformed => false
  | .pcieInboundAccess _ => false
  | .reset _ => false
  | .bootMailboxImage _ => false
  | .bringupComplete _ => false
  | .attestationRequest _ => false
  | .attestationReport => false
  | .thermalStateChange _ => false
  | .powerTelemetryUpdate _ _ _ _ => false
  | _ => true

/-- The codes each entry accepts in each field, and its reserved immediates (R175, R177, R185 and the entries). -/
def Instr.fieldsOk : Instr → Bool
  | .brz p _ => p.isAddr
  | .brnz p _ => p.isAddr
  | .bzm p _ => p.isM
  | .bnzm p _ => p.isM
  | .ballm p _ => p.isM
  | .call n _ => slideOk n
  | .calli n t => slideOk n && t.isAddr
  | .loop p _ => p.isS
  | .jmpi t => t.isAddr
  | .getmode d => d.isS
  | .mand d a b => d.isM && a.maskSrc && b.maskSrc
  | .mor d a b => d.isM && a.maskSrc && b.maskSrc
  | .mxor d a b => d.isM && a.maskSrc && b.maskSrc
  | .mandn d a b => d.isM && a.maskSrc && b.maskSrc
  | .mnot d a => d.isM && a.maskSrc
  | .mmov d a => (d.isM || d.isS) && a.maskSrc
  | .mpopc d a => d.isS && a.isM
  | .mffs d a => d.isS && a.isM
  | .mseti d _ => d.isM
  | .mlane d a => d.isM && a.scalarSrc
  | .fpsget d => d.isS
  | .fpsclr a _ => a == .v 0 || a.isS
  | .sget d imm => d.isS && specialOk imm
  | .sadd d a b => d.isS && a.scalarSrc && b.scalarSrc
  | .ssub d a b => d.isS && a.scalarSrc && b.scalarSrc
  | .smul d a b => d.isS && a.scalarSrc && b.scalarSrc
  | .smulh d a b => d.isS && a.scalarSrc && b.scalarSrc
  | .smulhn d a b => d.isS && a.scalarSrc && b.scalarSrc
  | .sdiv d a b => d.isS && a.scalarSrc && b.scalarSrc
  | .sdivn d a b => d.isS && a.scalarSrc && b.scalarSrc
  | .smod d a b => d.isS && a.scalarSrc && b.scalarSrc
  | .sand d a b => d.isS && a.scalarSrc && b.scalarSrc
  | .sor d a b => d.isS && a.scalarSrc && b.scalarSrc
  | .sxor d a b => d.isS && a.scalarSrc && b.scalarSrc
  | .sshl d a b => d.isS && a.scalarSrc && b.scalarSrc
  | .sshr d a b => d.isS && a.scalarSrc && b.scalarSrc
  | .ssar d a b => d.isS && a.scalarSrc && b.scalarSrc
  | .smin d a b => d.isS && a.scalarSrc && b.scalarSrc
  | .smax d a b => d.isS && a.scalarSrc && b.scalarSrc
  | .sminn d a b => d.isS && a.scalarSrc && b.scalarSrc
  | .smaxn d a b => d.isS && a.scalarSrc && b.scalarSrc
  | .smov d a => d.isS && a.scalarSrc
  | .smovi d _ => d.isS
  | .smovh d _ => d.isS
  | .scmpeq d a b => d.isS && a.scalarSrc && b.scalarSrc
  | .scmplt d a b => d.isS && a.scalarSrc && b.scalarSrc
  | .scmpltn d a b => d.isS && a.scalarSrc && b.scalarSrc
  | .spopc d a => d.isS && a.scalarSrc
  | .sclz d a => d.isS && a.scalarSrc
  | .sbfx d a b => d.isS && a.scalarSrc && b.scalarSrc
  | .sbfi d a b => d.isS && a.scalarSrc && b.scalarSrc
  | .saddi d a _ => d.isS && a.scalarSrc
  | .amov d a => d.isAddr && a.scalarSrc
  | .aadd d a b => d.isAddr && a.isAddr && b.scalarSrc
  | .bset d a b => d.isB && (if a.isB then b == .v 0 else a.scalarSrc && b.scalarSrc)
  | .vadd d a b => d.vecDst && a.vecSrc && b.vecSrc
  | .vsub d a b => d.vecDst && a.vecSrc && b.vecSrc
  | .vmul d a b => d.vecDst && a.vecSrc && b.vecSrc
  | .vmulh d a b => d.vecDst && a.vecSrc && b.vecSrc
  | .vmad d a b => d.vecDst && a.vecSrc && b.vecSrc
  | .vand d a b => d.vecDst && a.vecSrc && b.vecSrc
  | .vor d a b => d.vecDst && a.vecSrc && b.vecSrc
  | .vxor d a b => d.vecDst && a.vecSrc && b.vecSrc
  | .vnot d a => d.vecDst && a.vecSrc
  | .vshl d a b => d.vecDst && a.vecSrc && b.vecSrc && !b.isFlt
  | .vshr d a b => d.vecDst && a.vecSrc && b.vecSrc && !b.isFlt
  | .vmin d a b => d.vecDst && a.vecSrc && b.vecSrc
  | .vmax d a b => d.vecDst && a.vecSrc && b.vecSrc
  | .vabs d a => d.vecDst && a.vecSrc
  | .vneg d a => d.vecDst && a.vecSrc
  | .vmov d a => d.vecDst && a.vecSrc
  | .vmovi d _ => d.vecDst
  | .vbcast d a b => d.vecDst && a.vecReg && b.count
  | .vceq d a b => d.isM && a.vecSrc && b.vecSrc
  | .vcne d a b => d.isM && a.vecSrc && b.vecSrc
  | .vclt d a b => d.isM && a.vecSrc && b.vecSrc
  | .vcle d a b => d.isM && a.vecSrc && b.vecSrc
  | .vcgt d a b => d.isM && a.vecSrc && b.vecSrc
  | .vcge d a b => d.isM && a.vecSrc && b.vecSrc
  | .vsel d a b => d.vecDst && a.vecSrc && b.vecSrc
  | .vpopc d a => d.vecDst && a.vecSrc
  | .vclz d a => d.vecDst && a.vecSrc
  | .vbfx d a b => d.vecDst && a.vecSrc && b.vecSrc && !b.isFlt
  | .vidx d a b => d.vecDst && a.vecSrc && b.vecSrc
  | .vdot4 d a b => d.vecDst && a.vecSrc && b.vecSrc
  | .fadd d a b => d.vecDst && a.vecSrc && b.vecSrc
  | .fsub d a b => d.vecDst && a.vecSrc && b.vecSrc
  | .fmul d a b => d.vecDst && a.vecSrc && b.vecSrc
  | .ffma d a b => d.vecDst && a.vecSrc && b.vecSrc
  | .fmin d a b => d.vecDst && a.vecSrc && b.vecSrc
  | .fmax d a b => d.vecDst && a.vecSrc && b.vecSrc
  | .fminnum d a b => d.vecDst && a.vecSrc && b.vecSrc
  | .fmaxnum d a b => d.vecDst && a.vecSrc && b.vecSrc
  | .fabs d a => d.vecDst && a.vecSrc
  | .fneg d a => d.vecDst && a.vecSrc
  | .frcp d a => d.vecDst && a.vecSrc
  | .frsq d a => d.vecDst && a.vecSrc
  | .fsqrt d a => d.vecDst && a.vecSrc
  | .fdiv d a b => d.vecDst && a.vecSrc && b.vecSrc
  | .fexp2 d a => d.vecDst && a.vecSrc
  | .flog2 d a => d.vecDst && a.vecSrc
  | .fsin d a => d.vecDst && a.vecSrc
  | .fcos d a => d.vecDst && a.vecSrc
  | .frnd d a _ r => d.vecDst && a.vecSrc && r != 6
  | .fscale d a b => d.vecDst && a.vecSrc && b.vecSrc && !b.isFlt
  | .fclass d a => d.vecDst && a.vecSrc
  | .fceq d a b => d.isM && a.vecSrc && b.vecSrc
  | .fclt d a b => d.isM && a.vecSrc && b.vecSrc
  | .fcle d a b => d.isM && a.vecSrc && b.vecSrc
  | .fcun d a b => d.isM && a.vecSrc && b.vecSrc
  | .fkey d a => d.vecDst && a.vecSrc
  | .cvt d a _ _ => d.vecDst && a.vecSrc
  | .qpack d a _ f => f.toNat < 6 && d.vBelow 63 && a.vBelow (if f.toNat < 4 then 61 else 57)
  | .qunpack d a _ f => f.toNat < 6 && a.vBelow 63 && d.vBelow (if f.toNat < 4 then 61 else 57)
  | .qscale d a _ f => f.toNat < 6 && d.vecDst && a.vecDst
  | .scvt d a _ _ f => d.vecDst && a.vecSrc && (f == 0 || (8 ≤ f.toNat && f != 11))
  | .vshfl d a b => d.vecDst && a.vecReg && b.vecSrc
  | .vbfly d a _ => d.vecDst && a.vecReg
  | .vrot d a _ => d.vecDst && a.vecReg
  | .vredadd d a => (d.isS || d.vecDst) && a.vecSrc
  | .vredmax d a => (d.isS || d.vecDst) && a.vecSrc
  | .vredmin d a => (d.isS || d.vecDst) && a.vecSrc
  | .vargmax d a b => d.isS && a.vecSrc && b.vecSrc && !b.isFlt
  | .vscan d a _ off => d.vecDst && a.vecSrc && off != 3
  | .vdist d a _ _ _ _ => d.vecDst && a.vBelow 57
  | .vtopk d a _ _ => d.vBelow 63 && a.vBelow 63
  | .vtopkm d a _ _ => d.vBelow 63 && a.vBelow 63
  | .lds d mem => (d.isAddr || d.isM) && mem.amode != .lanes
  | .sts d mem => (d.isAddr || d.isM || d.isConst) && mem.amode != .lanes
  | .ldv d _ => d.vecDst
  | .stv d _ => d.vecData
  | .ldl d mem => d.vecDst || (d.isAddr && mem.amode != .lanes)
  | .stl d mem => d.vecData || (d.isAddr && mem.amode != .lanes)
  | .lda d mem => d.vecDst || (d.isAddr && mem.amode != .lanes)
  | .sta d mem => d.vecData || (d.isAddr && mem.amode != .lanes)
  | .ldw d mem => d.vecDst || (d.isAddr && mem.amode != .lanes)
  | .stw d mem => d.vecData || (d.isAddr && mem.amode != .lanes)
  | .ldpar d mem => ({ mem with breg := 0 } : MemRef).ok && (d.vecDst || (d.isS && mem.amode != .lanes)) && mem.amode != .postMod && mem.amode != .idxMod
  | .stt d mem => d.vecData || (d.isAddr && mem.amode != .lanes)
  | .stm d mem => (d.vecData || d.isAddr) && mem.plain
  | .atadd d mem => d.isV || d.isConst || (d.isS && mem.amode != .lanes)
  | .atmin d mem => d.isV || d.isConst || (d.isS && mem.amode != .lanes)
  | .atmax d mem => d.isV || d.isConst || (d.isS && mem.amode != .lanes)
  | .atand d mem => d.isV || d.isConst || (d.isS && mem.amode != .lanes)
  | .ator d mem => d.isV || d.isConst || (d.isS && mem.amode != .lanes)
  | .atxor d mem => d.isV || d.isConst || (d.isS && mem.amode != .lanes)
  | .atxchg d mem => d.isV || d.isConst || (d.isS && mem.amode != .lanes)
  | .atcas d mem => d.even && (d.isV || (d.isS && mem.amode != .lanes))
  | .atinc d mem => d.isV || d.isZero || (d.isS && mem.amode != .lanes)
  | .atfadd d mem => d.isV || d.isConst || (d.isS && mem.amode != .lanes)
  | .atfmax d mem => d.isV || d.isConst || (d.isS && mem.amode != .lanes)
  | .atfmin d mem => d.isV || d.isConst || (d.isS && mem.amode != .lanes)
  | .fencea a b => a.isAddr && b.count
  | .acqrg d a b => d.status && a.isAddr && b.count
  | .relrg d a b => d.status && a.isAddr && b.count
  | .monarm _ mem => mem.plain
  | .monwait d _ b => d.status && b.isS && b.even
  | .copy mem => mem.amode != .lanes
  | .copym mem => mem.amode != .lanes
  | .stash d mem => d.isV && mem.amode != .lanes
  | .stgld mem => mem.amode != .lanes
  | .crs mem => mem.amode != .lanes
  | .cscal a b => a.count && b.isAddr
  | .cag mem => mem.amode != .lanes
  | .steprd d a imm => d.isS && imm.toNat ≤ 4 && (if imm.toNat ≤ 2 then a == .v 0 else a.count)
  | .gsget d j _ _ => d.isS && d.even && j.toNat ≤ 5
  | .bar d a _ => d.status && a.count
  | .swaph d a => d.status && a.count
  | .watch d mem => d.isS && mem.amode != .lanes
  | .blatch vb t _ f => blockEnd f ≤ 62 && vb.vBelow (63 - blockEnd f) && (t == 0 || scaledPair f.toNat)
  | .mmaE4m3 cbs abs _ _ _ _ => cbs.isS && abs.isS
  | .mmaE5m2 cbs abs _ _ _ _ => cbs.isS && abs.isS
  | .mmaE3m2 cbs abs _ _ _ _ => cbs.isS && abs.isS
  | .mmaE2m3 cbs abs _ _ _ _ => cbs.isS && abs.isS
  | .mmaF4s cbs abs sel _ _ _ => cbs.isS && abs.isS && sel == 0
  | .mmaBf16 cbs abs sel _ _ _ => cbs.isS && abs.isS && sel == 0
  | .mmaF16 cbs abs sel _ _ _ => cbs.isS && abs.isS && sel == 0
  | .mmaI8 cbs abs sel _ _ _ => cbs.isS && abs.isS && sel == 0
  | .mmaE2m1 cbs abs _ _ _ _ => cbs.isS && abs.isS
  | .mfence d => d.status
  | .mwait a => a.count
  | .accz a => a.isS
  | .accrd d a _ m f => a.isS && (if m == 0 then f == 10 && d.vBelow 33 else if f == 10 then d.vBelow 33 else if f == 8 || f == 9 then d.vBelow 49 else (f == 0 || 12 ≤ f.toNat) && d.vBelow 57)
  | .accld d a f => d.isS && (if f == 10 then a.vBelow 33 else (f == 8 || f == 9) && a.vBelow 49)
  | .mfsr d _ => d.isS
  | .mtsr d _ => d.isS
  | .wdepth d => d.isS
  | .free d a b => d.freed && a.freed && b.freed
  | .tlbi a => a.isS
  | _ => true

/-- A reserved code stands only for the codes that R178 reserves, so that every operand has one code. -/
def Opnd.codeOk : Opnd → Bool
  | .reserved c => (0xB4 ≤ c.toNat && c.toNat ≤ 0xBF) || 0xF0 ≤ c.toNat
  | _ => true

/-- A second literal code is refused (R177, R178). -/
def oneLiteral (l : List Opnd) : Bool := (l.filter Opnd.isLit).length ≤ 1

/-- Well formed: no reserved code, one literal at most, a legal address mode, and the entry's own kinds. -/
def Instr.wellFormed (i : Instr) : Bool :=
  i.opnds.all (fun o => !o.isReserved) && oneLiteral i.opnds && (i.memRef?.all MemRef.ok) && i.fieldsOk

/-- Every operand has the code it is read from; what decoding needs, and less than `Instr.wellFormed`. -/
def Instr.encodable (i : Instr) : Bool := i.opnds.all Opnd.codeOk && oneLiteral i.opnds

end Sys2Proof
end

