-- ==== Sys2Proof/Decode.lean ====
section
/-! DEFINITION. The decoder, total on any words and refusing by name, and the encoder (R168, R175, R178, R180, R183, R184).
Rows generated from spec/opcode_table.json. Illegal kinds of operand are read as they stand: they are refused where the
word issues, after the privilege check (R177). -/

namespace Sys2Proof

/-- Why a word is no instruction. All but the first are illegal operands (R177). -/
inductive DecodeError where
  /-- No word is left to read: raised by the decoder at the end of its input. -/
  | noWord
  /-- R184: the opcode is unassigned; the illegal-instruction trap. -/
  | unassigned
  /-- R175, R185: a field that must be zero, or that an entry fixes, holds something else; the illegal-operand trap. -/
  | fixedField
  /-- R178: a second literal code; the illegal-operand trap. -/
  | secondLiteral
  /-- R177: a literal code in the last word; the illegal-operand trap. -/
  | missingLiteral
  deriving DecidableEq, Repr

/-- R178: the operand of a code, with the word that a literal code takes. -/
def opndOf (c : BitVec 8) (l : W32) : Opnd :=
  let n := c.toNat
  if n < 0x40 then .v (Fin.ofNat 64 n)
  else if n < 0x80 then .s (Fin.ofNat 64 (n - 0x40))
  else if n < 0x88 then .o (Fin.ofNat 8 (n - 0x80))
  else if n < 0x98 then .a (Fin.ofNat 16 (n - 0x88))
  else if n < 0xA8 then .m (Fin.ofNat 16 (n - 0x98))
  else if n < 0xB0 then .b (Fin.ofNat 8 (n - 0xA8))
  else if n = 0xB0 then .lat
  else if n = 0xB1 then .zero
  else if n = 0xB2 then .lit l
  else if n = 0xB3 then .lid
  else if n < 0xC0 then .reserved c
  else if n < 0xE0 then .int (Fin.ofNat 32 (n - 0xC0))
  else if n < 0xF0 then .flt (Fin.ofNat 16 (n - 0xE0))
  else .reserved c

/-- R178: the code of an operand. -/
def Opnd.code : Opnd → BitVec 8
  | .v n => BitVec.ofNat 8 n.val
  | .s n => BitVec.ofNat 8 (0x40 + n.val)
  | .o n => BitVec.ofNat 8 (0x80 + n.val)
  | .a n => BitVec.ofNat 8 (0x88 + n.val)
  | .m n => BitVec.ofNat 8 (0x98 + n.val)
  | .b n => BitVec.ofNat 8 (0xA8 + n.val)
  | .lat => 0xB0
  | .zero => 0xB1
  | .lit _ => 0xB2
  | .lid => 0xB3
  | .int n => BitVec.ofNat 8 (0xC0 + n.val)
  | .flt n => BitVec.ofNat 8 (0xE0 + n.val)
  | .reserved c => c

/-- R180: the mode of an AMODE field. -/
def amodeOf (m : BitVec 3) : AMode :=
  match m.toNat with
  | 0 => .base
  | 1 => .post
  | 2 => .postMod
  | 3 => .idx
  | 4 => .lanes
  | 5 => .idxMod
  | 6 => .reserved6
  | _ => .reserved7

def AMode.bits : AMode → BitVec 3
  | .base => 0
  | .post => 1
  | .postMod => 2
  | .idx => 3
  | .lanes => 4
  | .idxMod => 5
  | .reserved6 => 6
  | .reserved7 => 7

/-- Bits 15:0 of an M-format word (R175). -/
def memRefOf (w : W32) : MemRef :=
  { areg := w.extractLsb' 12 4, amode := amodeOf (w.extractLsb' 9 3), breg := w.extractLsb' 6 3, index := w.extractLsb' 0 6 }

def MemRef.bits (m : MemRef) : BitVec 16 := m.areg ++ m.amode.bits ++ m.breg ++ m.index

/-- What an opcode makes of a word: whether its must-be-zero and fixed fields are as they must be, the codes of its operand fields, and the
instruction, the literal word read in. -/
structure Row where
  fixed : Bool
  codes : List (BitVec 8)
  instr : Instr
  deriving DecidableEq, Repr

/-- The row 0x0x of the opcode map (R183): the fields that must be zero, the codes that may take a literal word, and the
instruction read. -/
def rows0 (op : Nat) (w l : W32) : Option Row :=
  match op with
  | 0x0 => some ⟨w.extractLsb' 0 24 == 0, [], .nop⟩
  | 0x1 => some ⟨true, [], .br (w.extractLsb' 0 24)⟩
  | 0x2 => some ⟨true, [w.extractLsb' 16 8], .brz (opndOf (w.extractLsb' 16 8) l) (w.extractLsb' 0 16)⟩
  | 0x3 => some ⟨true, [w.extractLsb' 16 8], .brnz (opndOf (w.extractLsb' 16 8) l) (w.extractLsb' 0 16)⟩
  | 0x4 => some ⟨true, [w.extractLsb' 16 8], .bzm (opndOf (w.extractLsb' 16 8) l) (w.extractLsb' 0 16)⟩
  | 0x5 => some ⟨true, [w.extractLsb' 16 8], .bnzm (opndOf (w.extractLsb' 16 8) l) (w.extractLsb' 0 16)⟩
  | 0x6 => some ⟨true, [w.extractLsb' 16 8], .ballm (opndOf (w.extractLsb' 16 8) l) (w.extractLsb' 0 16)⟩
  | 0x7 => some ⟨true, [], .call (w.extractLsb' 16 8) (w.extractLsb' 0 16)⟩
  | 0x8 => some ⟨w.extractLsb' 0 8 == 0, [w.extractLsb' 8 8], .calli (w.extractLsb' 16 8) (opndOf (w.extractLsb' 8 8) l)⟩
  | 0x9 => some ⟨w.extractLsb' 0 24 == 0, [], .ret⟩
  | 0xA => some ⟨true, [w.extractLsb' 16 8], .loop (opndOf (w.extractLsb' 16 8) l) (w.extractLsb' 0 16)⟩
  | 0xB => some ⟨w.extractLsb' 0 24 == 0, [], .yield⟩
  | 0xC => some ⟨true, [], .yieldc (w.extractLsb' 0 24)⟩
  | 0xD => some ⟨w.extractLsb' 0 24 == 0, [], .exit⟩
  | 0xE => some ⟨w.extractLsb' 16 8 == 0, [], .trap (w.extractLsb' 0 16)⟩
  | 0xF => some ⟨w.extractLsb' 16 8 == 0 && w.extractLsb' 0 8 == 0, [w.extractLsb' 8 8], .jmpi (opndOf (w.extractLsb' 8 8) l)⟩
  | _ => none

/-- The row 0x1x of the opcode map (R183): the fields that must be zero, the codes that may take a literal word, and the
instruction read. -/
def rows1 (op : Nat) (w l : W32) : Option Row :=
  match op with
  | 0x0 => some ⟨w.extractLsb' 16 8 == 0, [], .setmode (w.extractLsb' 0 16)⟩
  | 0x1 => some ⟨w.extractLsb' 16 8 == 0, [], .setmm (w.extractLsb' 0 16)⟩
  | 0x2 => some ⟨w.extractLsb' 0 16 == 0, [w.extractLsb' 16 8], .getmode (opndOf (w.extractLsb' 16 8) l)⟩
  | 0x3 => some ⟨true, [w.extractLsb' 16 8, w.extractLsb' 8 8, w.extractLsb' 0 8], .mand (opndOf (w.extractLsb' 16 8) l) (opndOf (w.extractLsb' 8 8) l) (opndOf (w.extractLsb' 0 8) l)⟩
  | 0x4 => some ⟨true, [w.extractLsb' 16 8, w.extractLsb' 8 8, w.extractLsb' 0 8], .mor (opndOf (w.extractLsb' 16 8) l) (opndOf (w.extractLsb' 8 8) l) (opndOf (w.extractLsb' 0 8) l)⟩
  | 0x5 => some ⟨true, [w.extractLsb' 16 8, w.extractLsb' 8 8, w.extractLsb' 0 8], .mxor (opndOf (w.extractLsb' 16 8) l) (opndOf (w.extractLsb' 8 8) l) (opndOf (w.extractLsb' 0 8) l)⟩
  | 0x6 => some ⟨true, [w.extractLsb' 16 8, w.extractLsb' 8 8, w.extractLsb' 0 8], .mandn (opndOf (w.extractLsb' 16 8) l) (opndOf (w.extractLsb' 8 8) l) (opndOf (w.extractLsb' 0 8) l)⟩
  | 0x7 => some ⟨w.extractLsb' 0 8 == 0, [w.extractLsb' 16 8, w.extractLsb' 8 8], .mnot (opndOf (w.extractLsb' 16 8) l) (opndOf (w.extractLsb' 8 8) l)⟩
  | 0x8 => some ⟨w.extractLsb' 0 8 == 0, [w.extractLsb' 16 8, w.extractLsb' 8 8], .mmov (opndOf (w.extractLsb' 16 8) l) (opndOf (w.extractLsb' 8 8) l)⟩
  | 0x9 => some ⟨w.extractLsb' 0 8 == 0, [w.extractLsb' 16 8, w.extractLsb' 8 8], .mpopc (opndOf (w.extractLsb' 16 8) l) (opndOf (w.extractLsb' 8 8) l)⟩
  | 0xA => some ⟨w.extractLsb' 0 8 == 0, [w.extractLsb' 16 8, w.extractLsb' 8 8], .mffs (opndOf (w.extractLsb' 16 8) l) (opndOf (w.extractLsb' 8 8) l)⟩
  | 0xB => some ⟨w.extractLsb' 0 16 == 0xb200, [w.extractLsb' 16 8, 0xB2], .mseti (opndOf (w.extractLsb' 16 8) l) l⟩
  | 0xC => some ⟨w.extractLsb' 0 8 == 0, [w.extractLsb' 16 8, w.extractLsb' 8 8], .mlane (opndOf (w.extractLsb' 16 8) l) (opndOf (w.extractLsb' 8 8) l)⟩
  | 0xD => some ⟨w.extractLsb' 0 16 == 0, [w.extractLsb' 16 8], .fpsget (opndOf (w.extractLsb' 16 8) l)⟩
  | 0xE => some ⟨w.extractLsb' 16 8 == 0 && w.extractLsb' 6 2 == 0, [w.extractLsb' 8 8], .fpsclr (opndOf (w.extractLsb' 8 8) l) (w.extractLsb' 0 6)⟩
  | 0xF => some ⟨w.extractLsb' 8 8 == 0, [w.extractLsb' 16 8], .sget (opndOf (w.extractLsb' 16 8) l) (w.extractLsb' 0 8)⟩
  | _ => none

/-- The row 0x2x of the opcode map (R183): the fields that must be zero, the codes that may take a literal word, and the
instruction read. -/
def rows2 (op : Nat) (w l : W32) : Option Row :=
  match op with
  | 0x0 => some ⟨true, [w.extractLsb' 16 8, w.extractLsb' 8 8, w.extractLsb' 0 8], .sadd (opndOf (w.extractLsb' 16 8) l) (opndOf (w.extractLsb' 8 8) l) (opndOf (w.extractLsb' 0 8) l)⟩
  | 0x1 => some ⟨true, [w.extractLsb' 16 8, w.extractLsb' 8 8, w.extractLsb' 0 8], .ssub (opndOf (w.extractLsb' 16 8) l) (opndOf (w.extractLsb' 8 8) l) (opndOf (w.extractLsb' 0 8) l)⟩
  | 0x2 => some ⟨true, [w.extractLsb' 16 8, w.extractLsb' 8 8, w.extractLsb' 0 8], .smul (opndOf (w.extractLsb' 16 8) l) (opndOf (w.extractLsb' 8 8) l) (opndOf (w.extractLsb' 0 8) l)⟩
  | 0x3 => some ⟨true, [w.extractLsb' 16 8, w.extractLsb' 8 8, w.extractLsb' 0 8], .smulh (opndOf (w.extractLsb' 16 8) l) (opndOf (w.extractLsb' 8 8) l) (opndOf (w.extractLsb' 0 8) l)⟩
  | 0x4 => some ⟨true, [w.extractLsb' 16 8, w.extractLsb' 8 8, w.extractLsb' 0 8], .smulhn (opndOf (w.extractLsb' 16 8) l) (opndOf (w.extractLsb' 8 8) l) (opndOf (w.extractLsb' 0 8) l)⟩
  | 0x5 => some ⟨true, [w.extractLsb' 16 8, w.extractLsb' 8 8, w.extractLsb' 0 8], .sdiv (opndOf (w.extractLsb' 16 8) l) (opndOf (w.extractLsb' 8 8) l) (opndOf (w.extractLsb' 0 8) l)⟩
  | 0x6 => some ⟨true, [w.extractLsb' 16 8, w.extractLsb' 8 8, w.extractLsb' 0 8], .sdivn (opndOf (w.extractLsb' 16 8) l) (opndOf (w.extractLsb' 8 8) l) (opndOf (w.extractLsb' 0 8) l)⟩
  | 0x7 => some ⟨true, [w.extractLsb' 16 8, w.extractLsb' 8 8, w.extractLsb' 0 8], .smod (opndOf (w.extractLsb' 16 8) l) (opndOf (w.extractLsb' 8 8) l) (opndOf (w.extractLsb' 0 8) l)⟩
  | 0x8 => some ⟨true, [w.extractLsb' 16 8, w.extractLsb' 8 8, w.extractLsb' 0 8], .sand (opndOf (w.extractLsb' 16 8) l) (opndOf (w.extractLsb' 8 8) l) (opndOf (w.extractLsb' 0 8) l)⟩
  | 0x9 => some ⟨true, [w.extractLsb' 16 8, w.extractLsb' 8 8, w.extractLsb' 0 8], .sor (opndOf (w.extractLsb' 16 8) l) (opndOf (w.extractLsb' 8 8) l) (opndOf (w.extractLsb' 0 8) l)⟩
  | 0xA => some ⟨true, [w.extractLsb' 16 8, w.extractLsb' 8 8, w.extractLsb' 0 8], .sxor (opndOf (w.extractLsb' 16 8) l) (opndOf (w.extractLsb' 8 8) l) (opndOf (w.extractLsb' 0 8) l)⟩
  | 0xB => some ⟨true, [w.extractLsb' 16 8, w.extractLsb' 8 8, w.extractLsb' 0 8], .sshl (opndOf (w.extractLsb' 16 8) l) (opndOf (w.extractLsb' 8 8) l) (opndOf (w.extractLsb' 0 8) l)⟩
  | 0xC => some ⟨true, [w.extractLsb' 16 8, w.extractLsb' 8 8, w.extractLsb' 0 8], .sshr (opndOf (w.extractLsb' 16 8) l) (opndOf (w.extractLsb' 8 8) l) (opndOf (w.extractLsb' 0 8) l)⟩
  | 0xD => some ⟨true, [w.extractLsb' 16 8, w.extractLsb' 8 8, w.extractLsb' 0 8], .ssar (opndOf (w.extractLsb' 16 8) l) (opndOf (w.extractLsb' 8 8) l) (opndOf (w.extractLsb' 0 8) l)⟩
  | 0xE => some ⟨true, [w.extractLsb' 16 8, w.extractLsb' 8 8, w.extractLsb' 0 8], .smin (opndOf (w.extractLsb' 16 8) l) (opndOf (w.extractLsb' 8 8) l) (opndOf (w.extractLsb' 0 8) l)⟩
  | 0xF => some ⟨true, [w.extractLsb' 16 8, w.extractLsb' 8 8, w.extractLsb' 0 8], .smax (opndOf (w.extractLsb' 16 8) l) (opndOf (w.extractLsb' 8 8) l) (opndOf (w.extractLsb' 0 8) l)⟩
  | _ => none

/-- The row 0x3x of the opcode map (R183): the fields that must be zero, the codes that may take a literal word, and the
instruction read. -/
def rows3 (op : Nat) (w l : W32) : Option Row :=
  match op with
  | 0x0 => some ⟨true, [w.extractLsb' 16 8, w.extractLsb' 8 8, w.extractLsb' 0 8], .sminn (opndOf (w.extractLsb' 16 8) l) (opndOf (w.extractLsb' 8 8) l) (opndOf (w.extractLsb' 0 8) l)⟩
  | 0x1 => some ⟨true, [w.extractLsb' 16 8, w.extractLsb' 8 8, w.extractLsb' 0 8], .smaxn (opndOf (w.extractLsb' 16 8) l) (opndOf (w.extractLsb' 8 8) l) (opndOf (w.extractLsb' 0 8) l)⟩
  | 0x2 => some ⟨w.extractLsb' 0 8 == 0, [w.extractLsb' 16 8, w.extractLsb' 8 8], .smov (opndOf (w.extractLsb' 16 8) l) (opndOf (w.extractLsb' 8 8) l)⟩
  | 0x3 => some ⟨true, [w.extractLsb' 16 8], .smovi (opndOf (w.extractLsb' 16 8) l) (w.extractLsb' 0 16)⟩
  | 0x4 => some ⟨true, [w.extractLsb' 16 8], .smovh (opndOf (w.extractLsb' 16 8) l) (w.extractLsb' 0 16)⟩
  | 0x5 => some ⟨true, [w.extractLsb' 16 8, w.extractLsb' 8 8, w.extractLsb' 0 8], .scmpeq (opndOf (w.extractLsb' 16 8) l) (opndOf (w.extractLsb' 8 8) l) (opndOf (w.extractLsb' 0 8) l)⟩
  | 0x6 => some ⟨true, [w.extractLsb' 16 8, w.extractLsb' 8 8, w.extractLsb' 0 8], .scmplt (opndOf (w.extractLsb' 16 8) l) (opndOf (w.extractLsb' 8 8) l) (opndOf (w.extractLsb' 0 8) l)⟩
  | 0x7 => some ⟨true, [w.extractLsb' 16 8, w.extractLsb' 8 8, w.extractLsb' 0 8], .scmpltn (opndOf (w.extractLsb' 16 8) l) (opndOf (w.extractLsb' 8 8) l) (opndOf (w.extractLsb' 0 8) l)⟩
  | 0x8 => some ⟨w.extractLsb' 0 8 == 0, [w.extractLsb' 16 8, w.extractLsb' 8 8], .spopc (opndOf (w.extractLsb' 16 8) l) (opndOf (w.extractLsb' 8 8) l)⟩
  | 0x9 => some ⟨w.extractLsb' 0 8 == 0, [w.extractLsb' 16 8, w.extractLsb' 8 8], .sclz (opndOf (w.extractLsb' 16 8) l) (opndOf (w.extractLsb' 8 8) l)⟩
  | 0xA => some ⟨true, [w.extractLsb' 16 8, w.extractLsb' 8 8, w.extractLsb' 0 8], .sbfx (opndOf (w.extractLsb' 16 8) l) (opndOf (w.extractLsb' 8 8) l) (opndOf (w.extractLsb' 0 8) l)⟩
  | 0xB => some ⟨true, [w.extractLsb' 16 8, w.extractLsb' 8 8, w.extractLsb' 0 8], .sbfi (opndOf (w.extractLsb' 16 8) l) (opndOf (w.extractLsb' 8 8) l) (opndOf (w.extractLsb' 0 8) l)⟩
  | 0xC => some ⟨true, [w.extractLsb' 16 8, w.extractLsb' 8 8], .saddi (opndOf (w.extractLsb' 16 8) l) (opndOf (w.extractLsb' 8 8) l) (w.extractLsb' 0 8)⟩
  | 0xD => some ⟨w.extractLsb' 0 8 == 0, [w.extractLsb' 16 8, w.extractLsb' 8 8], .amov (opndOf (w.extractLsb' 16 8) l) (opndOf (w.extractLsb' 8 8) l)⟩
  | 0xE => some ⟨true, [w.extractLsb' 16 8, w.extractLsb' 8 8, w.extractLsb' 0 8], .aadd (opndOf (w.extractLsb' 16 8) l) (opndOf (w.extractLsb' 8 8) l) (opndOf (w.extractLsb' 0 8) l)⟩
  | 0xF => some ⟨true, [w.extractLsb' 16 8, w.extractLsb' 8 8, w.extractLsb' 0 8], .bset (opndOf (w.extractLsb' 16 8) l) (opndOf (w.extractLsb' 8 8) l) (opndOf (w.extractLsb' 0 8) l)⟩
  | _ => none

/-- The row 0x4x of the opcode map (R183): the fields that must be zero, the codes that may take a literal word, and the
instruction read. -/
def rows4 (op : Nat) (w l : W32) : Option Row :=
  match op with
  | 0x0 => some ⟨true, [w.extractLsb' 16 8, w.extractLsb' 8 8, w.extractLsb' 0 8], .vadd (opndOf (w.extractLsb' 16 8) l) (opndOf (w.extractLsb' 8 8) l) (opndOf (w.extractLsb' 0 8) l)⟩
  | 0x1 => some ⟨true, [w.extractLsb' 16 8, w.extractLsb' 8 8, w.extractLsb' 0 8], .vsub (opndOf (w.extractLsb' 16 8) l) (opndOf (w.extractLsb' 8 8) l) (opndOf (w.extractLsb' 0 8) l)⟩
  | 0x2 => some ⟨true, [w.extractLsb' 16 8, w.extractLsb' 8 8, w.extractLsb' 0 8], .vmul (opndOf (w.extractLsb' 16 8) l) (opndOf (w.extractLsb' 8 8) l) (opndOf (w.extractLsb' 0 8) l)⟩
  | 0x3 => some ⟨true, [w.extractLsb' 16 8, w.extractLsb' 8 8, w.extractLsb' 0 8], .vmulh (opndOf (w.extractLsb' 16 8) l) (opndOf (w.extractLsb' 8 8) l) (opndOf (w.extractLsb' 0 8) l)⟩
  | 0x4 => some ⟨true, [w.extractLsb' 16 8, w.extractLsb' 8 8, w.extractLsb' 0 8], .vmad (opndOf (w.extractLsb' 16 8) l) (opndOf (w.extractLsb' 8 8) l) (opndOf (w.extractLsb' 0 8) l)⟩
  | 0x5 => some ⟨true, [w.extractLsb' 16 8, w.extractLsb' 8 8, w.extractLsb' 0 8], .vand (opndOf (w.extractLsb' 16 8) l) (opndOf (w.extractLsb' 8 8) l) (opndOf (w.extractLsb' 0 8) l)⟩
  | 0x6 => some ⟨true, [w.extractLsb' 16 8, w.extractLsb' 8 8, w.extractLsb' 0 8], .vor (opndOf (w.extractLsb' 16 8) l) (opndOf (w.extractLsb' 8 8) l) (opndOf (w.extractLsb' 0 8) l)⟩
  | 0x7 => some ⟨true, [w.extractLsb' 16 8, w.extractLsb' 8 8, w.extractLsb' 0 8], .vxor (opndOf (w.extractLsb' 16 8) l) (opndOf (w.extractLsb' 8 8) l) (opndOf (w.extractLsb' 0 8) l)⟩
  | 0x8 => some ⟨w.extractLsb' 0 8 == 0, [w.extractLsb' 16 8, w.extractLsb' 8 8], .vnot (opndOf (w.extractLsb' 16 8) l) (opndOf (w.extractLsb' 8 8) l)⟩
  | 0x9 => some ⟨true, [w.extractLsb' 16 8, w.extractLsb' 8 8, w.extractLsb' 0 8], .vshl (opndOf (w.extractLsb' 16 8) l) (opndOf (w.extractLsb' 8 8) l) (opndOf (w.extractLsb' 0 8) l)⟩
  | 0xA => some ⟨true, [w.extractLsb' 16 8, w.extractLsb' 8 8, w.extractLsb' 0 8], .vshr (opndOf (w.extractLsb' 16 8) l) (opndOf (w.extractLsb' 8 8) l) (opndOf (w.extractLsb' 0 8) l)⟩
  | 0xB => some ⟨true, [w.extractLsb' 16 8, w.extractLsb' 8 8, w.extractLsb' 0 8], .vmin (opndOf (w.extractLsb' 16 8) l) (opndOf (w.extractLsb' 8 8) l) (opndOf (w.extractLsb' 0 8) l)⟩
  | 0xC => some ⟨true, [w.extractLsb' 16 8, w.extractLsb' 8 8, w.extractLsb' 0 8], .vmax (opndOf (w.extractLsb' 16 8) l) (opndOf (w.extractLsb' 8 8) l) (opndOf (w.extractLsb' 0 8) l)⟩
  | 0xD => some ⟨w.extractLsb' 0 8 == 0, [w.extractLsb' 16 8, w.extractLsb' 8 8], .vabs (opndOf (w.extractLsb' 16 8) l) (opndOf (w.extractLsb' 8 8) l)⟩
  | 0xE => some ⟨w.extractLsb' 0 8 == 0, [w.extractLsb' 16 8, w.extractLsb' 8 8], .vneg (opndOf (w.extractLsb' 16 8) l) (opndOf (w.extractLsb' 8 8) l)⟩
  | 0xF => some ⟨w.extractLsb' 0 8 == 0, [w.extractLsb' 16 8, w.extractLsb' 8 8], .vmov (opndOf (w.extractLsb' 16 8) l) (opndOf (w.extractLsb' 8 8) l)⟩
  | _ => none

/-- The row 0x5x of the opcode map (R183): the fields that must be zero, the codes that may take a literal word, and the
instruction read. -/
def rows5 (op : Nat) (w l : W32) : Option Row :=
  match op with
  | 0x0 => some ⟨true, [w.extractLsb' 16 8], .vmovi (opndOf (w.extractLsb' 16 8) l) (w.extractLsb' 0 16)⟩
  | 0x1 => some ⟨true, [w.extractLsb' 16 8, w.extractLsb' 8 8, w.extractLsb' 0 8], .vbcast (opndOf (w.extractLsb' 16 8) l) (opndOf (w.extractLsb' 8 8) l) (opndOf (w.extractLsb' 0 8) l)⟩
  | 0x2 => some ⟨true, [w.extractLsb' 16 8, w.extractLsb' 8 8, w.extractLsb' 0 8], .vceq (opndOf (w.extractLsb' 16 8) l) (opndOf (w.extractLsb' 8 8) l) (opndOf (w.extractLsb' 0 8) l)⟩
  | 0x3 => some ⟨true, [w.extractLsb' 16 8, w.extractLsb' 8 8, w.extractLsb' 0 8], .vcne (opndOf (w.extractLsb' 16 8) l) (opndOf (w.extractLsb' 8 8) l) (opndOf (w.extractLsb' 0 8) l)⟩
  | 0x4 => some ⟨true, [w.extractLsb' 16 8, w.extractLsb' 8 8, w.extractLsb' 0 8], .vclt (opndOf (w.extractLsb' 16 8) l) (opndOf (w.extractLsb' 8 8) l) (opndOf (w.extractLsb' 0 8) l)⟩
  | 0x5 => some ⟨true, [w.extractLsb' 16 8, w.extractLsb' 8 8, w.extractLsb' 0 8], .vcle (opndOf (w.extractLsb' 16 8) l) (opndOf (w.extractLsb' 8 8) l) (opndOf (w.extractLsb' 0 8) l)⟩
  | 0x6 => some ⟨true, [w.extractLsb' 16 8, w.extractLsb' 8 8, w.extractLsb' 0 8], .vcgt (opndOf (w.extractLsb' 16 8) l) (opndOf (w.extractLsb' 8 8) l) (opndOf (w.extractLsb' 0 8) l)⟩
  | 0x7 => some ⟨true, [w.extractLsb' 16 8, w.extractLsb' 8 8, w.extractLsb' 0 8], .vcge (opndOf (w.extractLsb' 16 8) l) (opndOf (w.extractLsb' 8 8) l) (opndOf (w.extractLsb' 0 8) l)⟩
  | 0x8 => some ⟨true, [w.extractLsb' 16 8, w.extractLsb' 8 8, w.extractLsb' 0 8], .vsel (opndOf (w.extractLsb' 16 8) l) (opndOf (w.extractLsb' 8 8) l) (opndOf (w.extractLsb' 0 8) l)⟩
  | 0x9 => some ⟨w.extractLsb' 0 8 == 0, [w.extractLsb' 16 8, w.extractLsb' 8 8], .vpopc (opndOf (w.extractLsb' 16 8) l) (opndOf (w.extractLsb' 8 8) l)⟩
  | 0xA => some ⟨w.extractLsb' 0 8 == 0, [w.extractLsb' 16 8, w.extractLsb' 8 8], .vclz (opndOf (w.extractLsb' 16 8) l) (opndOf (w.extractLsb' 8 8) l)⟩
  | 0xB => some ⟨true, [w.extractLsb' 16 8, w.extractLsb' 8 8, w.extractLsb' 0 8], .vbfx (opndOf (w.extractLsb' 16 8) l) (opndOf (w.extractLsb' 8 8) l) (opndOf (w.extractLsb' 0 8) l)⟩
  | 0xC => some ⟨true, [w.extractLsb' 16 8, w.extractLsb' 8 8, w.extractLsb' 0 8], .vidx (opndOf (w.extractLsb' 16 8) l) (opndOf (w.extractLsb' 8 8) l) (opndOf (w.extractLsb' 0 8) l)⟩
  | 0xD => some ⟨true, [w.extractLsb' 16 8, w.extractLsb' 8 8, w.extractLsb' 0 8], .vdot4 (opndOf (w.extractLsb' 16 8) l) (opndOf (w.extractLsb' 8 8) l) (opndOf (w.extractLsb' 0 8) l)⟩
  | _ => none

/-- The row 0x7x of the opcode map (R183): the fields that must be zero, the codes that may take a literal word, and the
instruction read. -/
def rows7 (op : Nat) (w l : W32) : Option Row :=
  match op with
  | 0x0 => some ⟨true, [w.extractLsb' 16 8, w.extractLsb' 8 8, w.extractLsb' 0 8], .fadd (opndOf (w.extractLsb' 16 8) l) (opndOf (w.extractLsb' 8 8) l) (opndOf (w.extractLsb' 0 8) l)⟩
  | 0x1 => some ⟨true, [w.extractLsb' 16 8, w.extractLsb' 8 8, w.extractLsb' 0 8], .fsub (opndOf (w.extractLsb' 16 8) l) (opndOf (w.extractLsb' 8 8) l) (opndOf (w.extractLsb' 0 8) l)⟩
  | 0x2 => some ⟨true, [w.extractLsb' 16 8, w.extractLsb' 8 8, w.extractLsb' 0 8], .fmul (opndOf (w.extractLsb' 16 8) l) (opndOf (w.extractLsb' 8 8) l) (opndOf (w.extractLsb' 0 8) l)⟩
  | 0x3 => some ⟨true, [w.extractLsb' 16 8, w.extractLsb' 8 8, w.extractLsb' 0 8], .ffma (opndOf (w.extractLsb' 16 8) l) (opndOf (w.extractLsb' 8 8) l) (opndOf (w.extractLsb' 0 8) l)⟩
  | 0x4 => some ⟨true, [w.extractLsb' 16 8, w.extractLsb' 8 8, w.extractLsb' 0 8], .fmin (opndOf (w.extractLsb' 16 8) l) (opndOf (w.extractLsb' 8 8) l) (opndOf (w.extractLsb' 0 8) l)⟩
  | 0x5 => some ⟨true, [w.extractLsb' 16 8, w.extractLsb' 8 8, w.extractLsb' 0 8], .fmax (opndOf (w.extractLsb' 16 8) l) (opndOf (w.extractLsb' 8 8) l) (opndOf (w.extractLsb' 0 8) l)⟩
  | 0x6 => some ⟨true, [w.extractLsb' 16 8, w.extractLsb' 8 8, w.extractLsb' 0 8], .fminnum (opndOf (w.extractLsb' 16 8) l) (opndOf (w.extractLsb' 8 8) l) (opndOf (w.extractLsb' 0 8) l)⟩
  | 0x7 => some ⟨true, [w.extractLsb' 16 8, w.extractLsb' 8 8, w.extractLsb' 0 8], .fmaxnum (opndOf (w.extractLsb' 16 8) l) (opndOf (w.extractLsb' 8 8) l) (opndOf (w.extractLsb' 0 8) l)⟩
  | 0x8 => some ⟨w.extractLsb' 0 8 == 0, [w.extractLsb' 16 8, w.extractLsb' 8 8], .fabs (opndOf (w.extractLsb' 16 8) l) (opndOf (w.extractLsb' 8 8) l)⟩
  | 0x9 => some ⟨w.extractLsb' 0 8 == 0, [w.extractLsb' 16 8, w.extractLsb' 8 8], .fneg (opndOf (w.extractLsb' 16 8) l) (opndOf (w.extractLsb' 8 8) l)⟩
  | 0xA => some ⟨w.extractLsb' 0 8 == 0, [w.extractLsb' 16 8, w.extractLsb' 8 8], .frcp (opndOf (w.extractLsb' 16 8) l) (opndOf (w.extractLsb' 8 8) l)⟩
  | 0xB => some ⟨w.extractLsb' 0 8 == 0, [w.extractLsb' 16 8, w.extractLsb' 8 8], .frsq (opndOf (w.extractLsb' 16 8) l) (opndOf (w.extractLsb' 8 8) l)⟩
  | 0xC => some ⟨w.extractLsb' 0 8 == 0, [w.extractLsb' 16 8, w.extractLsb' 8 8], .fsqrt (opndOf (w.extractLsb' 16 8) l) (opndOf (w.extractLsb' 8 8) l)⟩
  | 0xD => some ⟨true, [w.extractLsb' 16 8, w.extractLsb' 8 8, w.extractLsb' 0 8], .fdiv (opndOf (w.extractLsb' 16 8) l) (opndOf (w.extractLsb' 8 8) l) (opndOf (w.extractLsb' 0 8) l)⟩
  | 0xE => some ⟨w.extractLsb' 0 8 == 0, [w.extractLsb' 16 8, w.extractLsb' 8 8], .fexp2 (opndOf (w.extractLsb' 16 8) l) (opndOf (w.extractLsb' 8 8) l)⟩
  | 0xF => some ⟨w.extractLsb' 0 8 == 0, [w.extractLsb' 16 8, w.extractLsb' 8 8], .flog2 (opndOf (w.extractLsb' 16 8) l) (opndOf (w.extractLsb' 8 8) l)⟩
  | _ => none

/-- The row 0x8x of the opcode map (R183): the fields that must be zero, the codes that may take a literal word, and the
instruction read. -/
def rows8 (op : Nat) (w l : W32) : Option Row :=
  match op with
  | 0x0 => some ⟨w.extractLsb' 0 8 == 0, [w.extractLsb' 16 8, w.extractLsb' 8 8], .fsin (opndOf (w.extractLsb' 16 8) l) (opndOf (w.extractLsb' 8 8) l)⟩
  | 0x1 => some ⟨w.extractLsb' 0 8 == 0, [w.extractLsb' 16 8, w.extractLsb' 8 8], .fcos (opndOf (w.extractLsb' 16 8) l) (opndOf (w.extractLsb' 8 8) l)⟩
  | 0x2 => some ⟨w.extractLsb' 4 4 == 0, [w.extractLsb' 16 8, w.extractLsb' 8 8], .frnd (opndOf (w.extractLsb' 16 8) l) (opndOf (w.extractLsb' 8 8) l) (w.extractLsb' 3 1) (w.extractLsb' 0 3)⟩
  | 0x3 => some ⟨true, [w.extractLsb' 16 8, w.extractLsb' 8 8, w.extractLsb' 0 8], .fscale (opndOf (w.extractLsb' 16 8) l) (opndOf (w.extractLsb' 8 8) l) (opndOf (w.extractLsb' 0 8) l)⟩
  | 0x4 => some ⟨w.extractLsb' 0 8 == 0, [w.extractLsb' 16 8, w.extractLsb' 8 8], .fclass (opndOf (w.extractLsb' 16 8) l) (opndOf (w.extractLsb' 8 8) l)⟩
  | 0x5 => some ⟨true, [w.extractLsb' 16 8, w.extractLsb' 8 8, w.extractLsb' 0 8], .fceq (opndOf (w.extractLsb' 16 8) l) (opndOf (w.extractLsb' 8 8) l) (opndOf (w.extractLsb' 0 8) l)⟩
  | 0x6 => some ⟨true, [w.extractLsb' 16 8, w.extractLsb' 8 8, w.extractLsb' 0 8], .fclt (opndOf (w.extractLsb' 16 8) l) (opndOf (w.extractLsb' 8 8) l) (opndOf (w.extractLsb' 0 8) l)⟩
  | 0x7 => some ⟨true, [w.extractLsb' 16 8, w.extractLsb' 8 8, w.extractLsb' 0 8], .fcle (opndOf (w.extractLsb' 16 8) l) (opndOf (w.extractLsb' 8 8) l) (opndOf (w.extractLsb' 0 8) l)⟩
  | 0x8 => some ⟨true, [w.extractLsb' 16 8, w.extractLsb' 8 8, w.extractLsb' 0 8], .fcun (opndOf (w.extractLsb' 16 8) l) (opndOf (w.extractLsb' 8 8) l) (opndOf (w.extractLsb' 0 8) l)⟩
  | 0x9 => some ⟨w.extractLsb' 0 8 == 0, [w.extractLsb' 16 8, w.extractLsb' 8 8], .fkey (opndOf (w.extractLsb' 16 8) l) (opndOf (w.extractLsb' 8 8) l)⟩
  | 0xA => some ⟨true, [w.extractLsb' 16 8, w.extractLsb' 8 8], .cvt (opndOf (w.extractLsb' 16 8) l) (opndOf (w.extractLsb' 8 8) l) (w.extractLsb' 4 4) (w.extractLsb' 0 4)⟩
  | 0xB => some ⟨w.extractLsb' 4 4 == 0, [w.extractLsb' 16 8, w.extractLsb' 8 8], .qpack (opndOf (w.extractLsb' 16 8) l) (opndOf (w.extractLsb' 8 8) l) (w.extractLsb' 3 1) (w.extractLsb' 0 3)⟩
  | 0xC => some ⟨w.extractLsb' 4 4 == 0, [w.extractLsb' 16 8, w.extractLsb' 8 8], .qunpack (opndOf (w.extractLsb' 16 8) l) (opndOf (w.extractLsb' 8 8) l) (w.extractLsb' 3 1) (w.extractLsb' 0 3)⟩
  | 0xD => some ⟨w.extractLsb' 4 4 == 0, [w.extractLsb' 16 8, w.extractLsb' 8 8], .qscale (opndOf (w.extractLsb' 16 8) l) (opndOf (w.extractLsb' 8 8) l) (w.extractLsb' 3 1) (w.extractLsb' 0 3)⟩
  | 0xE => some ⟨w.extractLsb' 7 1 == 0, [w.extractLsb' 16 8, w.extractLsb' 8 8], .scvt (opndOf (w.extractLsb' 16 8) l) (opndOf (w.extractLsb' 8 8) l) (w.extractLsb' 5 2) (w.extractLsb' 4 1) (w.extractLsb' 0 4)⟩
  | _ => none

/-- The row 0xAx of the opcode map (R183): the fields that must be zero, the codes that may take a literal word, and the
instruction read. -/
def rowsA (op : Nat) (w l : W32) : Option Row :=
  match op with
  | 0x0 => some ⟨true, [w.extractLsb' 16 8, w.extractLsb' 8 8, w.extractLsb' 0 8], .vshfl (opndOf (w.extractLsb' 16 8) l) (opndOf (w.extractLsb' 8 8) l) (opndOf (w.extractLsb' 0 8) l)⟩
  | 0x1 => some ⟨w.extractLsb' 5 3 == 0, [w.extractLsb' 16 8, w.extractLsb' 8 8], .vbfly (opndOf (w.extractLsb' 16 8) l) (opndOf (w.extractLsb' 8 8) l) (w.extractLsb' 0 5)⟩
  | 0x2 => some ⟨w.extractLsb' 5 3 == 0, [w.extractLsb' 16 8, w.extractLsb' 8 8], .vrot (opndOf (w.extractLsb' 16 8) l) (opndOf (w.extractLsb' 8 8) l) (w.extractLsb' 0 5)⟩
  | 0x3 => some ⟨w.extractLsb' 0 8 == 0, [w.extractLsb' 16 8, w.extractLsb' 8 8], .vredadd (opndOf (w.extractLsb' 16 8) l) (opndOf (w.extractLsb' 8 8) l)⟩
  | 0x4 => some ⟨w.extractLsb' 0 8 == 0, [w.extractLsb' 16 8, w.extractLsb' 8 8], .vredmax (opndOf (w.extractLsb' 16 8) l) (opndOf (w.extractLsb' 8 8) l)⟩
  | 0x5 => some ⟨w.extractLsb' 0 8 == 0, [w.extractLsb' 16 8, w.extractLsb' 8 8], .vredmin (opndOf (w.extractLsb' 16 8) l) (opndOf (w.extractLsb' 8 8) l)⟩
  | 0x6 => some ⟨true, [w.extractLsb' 16 8, w.extractLsb' 8 8, w.extractLsb' 0 8], .vargmax (opndOf (w.extractLsb' 16 8) l) (opndOf (w.extractLsb' 8 8) l) (opndOf (w.extractLsb' 0 8) l)⟩
  | 0x7 => some ⟨w.extractLsb' 3 5 == 0, [w.extractLsb' 16 8, w.extractLsb' 8 8], .vscan (opndOf (w.extractLsb' 16 8) l) (opndOf (w.extractLsb' 8 8) l) (w.extractLsb' 2 1) (w.extractLsb' 0 2)⟩
  | 0x8 => some ⟨w.extractLsb' 7 1 == 0, [w.extractLsb' 16 8, w.extractLsb' 8 8], .vdist (opndOf (w.extractLsb' 16 8) l) (opndOf (w.extractLsb' 8 8) l) (w.extractLsb' 5 2) (w.extractLsb' 2 3) (w.extractLsb' 1 1) (w.extractLsb' 0 1)⟩
  | 0x9 => some ⟨w.extractLsb' 6 2 == 0, [w.extractLsb' 16 8, w.extractLsb' 8 8], .vtopk (opndOf (w.extractLsb' 16 8) l) (opndOf (w.extractLsb' 8 8) l) (w.extractLsb' 5 1) (w.extractLsb' 0 5)⟩
  | 0xA => some ⟨w.extractLsb' 6 2 == 0, [w.extractLsb' 16 8, w.extractLsb' 8 8], .vtopkm (opndOf (w.extractLsb' 16 8) l) (opndOf (w.extractLsb' 8 8) l) (w.extractLsb' 5 1) (w.extractLsb' 0 5)⟩
  | _ => none

/-- The row 0xBx of the opcode map (R183): the fields that must be zero, the codes that may take a literal word, and the
instruction read. -/
def rowsB (op : Nat) (w l : W32) : Option Row :=
  match op with
  | 0x0 => some ⟨true, [w.extractLsb' 16 8], .lds (opndOf (w.extractLsb' 16 8) l) (memRefOf w)⟩
  | 0x1 => some ⟨true, [w.extractLsb' 16 8], .sts (opndOf (w.extractLsb' 16 8) l) (memRefOf w)⟩
  | 0x2 => some ⟨true, [w.extractLsb' 16 8], .ldv (opndOf (w.extractLsb' 16 8) l) (memRefOf w)⟩
  | 0x3 => some ⟨true, [w.extractLsb' 16 8], .stv (opndOf (w.extractLsb' 16 8) l) (memRefOf w)⟩
  | 0x4 => some ⟨true, [w.extractLsb' 16 8], .ldl (opndOf (w.extractLsb' 16 8) l) (memRefOf w)⟩
  | 0x5 => some ⟨true, [w.extractLsb' 16 8], .stl (opndOf (w.extractLsb' 16 8) l) (memRefOf w)⟩
  | 0x6 => some ⟨true, [w.extractLsb' 16 8], .lda (opndOf (w.extractLsb' 16 8) l) (memRefOf w)⟩
  | 0x7 => some ⟨true, [w.extractLsb' 16 8], .sta (opndOf (w.extractLsb' 16 8) l) (memRefOf w)⟩
  | 0x8 => some ⟨true, [w.extractLsb' 16 8], .ldw (opndOf (w.extractLsb' 16 8) l) (memRefOf w)⟩
  | 0x9 => some ⟨true, [w.extractLsb' 16 8], .stw (opndOf (w.extractLsb' 16 8) l) (memRefOf w)⟩
  | 0xA => some ⟨true, [w.extractLsb' 16 8], .ldpar (opndOf (w.extractLsb' 16 8) l) (memRefOf w)⟩
  | 0xB => some ⟨true, [w.extractLsb' 16 8], .stt (opndOf (w.extractLsb' 16 8) l) (memRefOf w)⟩
  | 0xC => some ⟨true, [w.extractLsb' 16 8], .stm (opndOf (w.extractLsb' 16 8) l) (memRefOf w)⟩
  | 0xD => some ⟨w.extractLsb' 16 8 == 0, [], .pref (memRefOf w)⟩
  | _ => none

/-- The row 0xCx of the opcode map (R183): the fields that must be zero, the codes that may take a literal word, and the
instruction read. -/
def rowsC (op : Nat) (w l : W32) : Option Row :=
  match op with
  | 0x0 => some ⟨true, [w.extractLsb' 16 8], .atadd (opndOf (w.extractLsb' 16 8) l) (memRefOf w)⟩
  | 0x1 => some ⟨true, [w.extractLsb' 16 8], .atmin (opndOf (w.extractLsb' 16 8) l) (memRefOf w)⟩
  | 0x2 => some ⟨true, [w.extractLsb' 16 8], .atmax (opndOf (w.extractLsb' 16 8) l) (memRefOf w)⟩
  | 0x3 => some ⟨true, [w.extractLsb' 16 8], .atand (opndOf (w.extractLsb' 16 8) l) (memRefOf w)⟩
  | 0x4 => some ⟨true, [w.extractLsb' 16 8], .ator (opndOf (w.extractLsb' 16 8) l) (memRefOf w)⟩
  | 0x5 => some ⟨true, [w.extractLsb' 16 8], .atxor (opndOf (w.extractLsb' 16 8) l) (memRefOf w)⟩
  | 0x6 => some ⟨true, [w.extractLsb' 16 8], .atxchg (opndOf (w.extractLsb' 16 8) l) (memRefOf w)⟩
  | 0x7 => some ⟨true, [w.extractLsb' 16 8], .atcas (opndOf (w.extractLsb' 16 8) l) (memRefOf w)⟩
  | 0x8 => some ⟨true, [w.extractLsb' 16 8], .atinc (opndOf (w.extractLsb' 16 8) l) (memRefOf w)⟩
  | 0x9 => some ⟨true, [w.extractLsb' 16 8], .atfadd (opndOf (w.extractLsb' 16 8) l) (memRefOf w)⟩
  | 0xA => some ⟨true, [w.extractLsb' 16 8], .atfmax (opndOf (w.extractLsb' 16 8) l) (memRefOf w)⟩
  | 0xB => some ⟨true, [w.extractLsb' 16 8], .atfmin (opndOf (w.extractLsb' 16 8) l) (memRefOf w)⟩
  | 0xC => some ⟨w.extractLsb' 0 24 == 0, [], .fence⟩
  | 0xD => some ⟨w.extractLsb' 16 8 == 0, [w.extractLsb' 8 8, w.extractLsb' 0 8], .fencea (opndOf (w.extractLsb' 8 8) l) (opndOf (w.extractLsb' 0 8) l)⟩
  | 0xE => some ⟨true, [w.extractLsb' 16 8, w.extractLsb' 8 8, w.extractLsb' 0 8], .acqrg (opndOf (w.extractLsb' 16 8) l) (opndOf (w.extractLsb' 8 8) l) (opndOf (w.extractLsb' 0 8) l)⟩
  | 0xF => some ⟨true, [w.extractLsb' 16 8, w.extractLsb' 8 8, w.extractLsb' 0 8], .relrg (opndOf (w.extractLsb' 16 8) l) (opndOf (w.extractLsb' 8 8) l) (opndOf (w.extractLsb' 0 8) l)⟩
  | _ => none

/-- The row 0xDx of the opcode map (R183): the fields that must be zero, the codes that may take a literal word, and the
instruction read. -/
def rowsD (op : Nat) (w l : W32) : Option Row :=
  match op with
  | 0x0 => some ⟨w.extractLsb' 18 6 == 0x34, [], .monarm (w.extractLsb' 16 2) (memRefOf w)⟩
  | 0x1 => some ⟨w.extractLsb' 10 6 == 0x34, [w.extractLsb' 16 8, w.extractLsb' 0 8], .monwait (opndOf (w.extractLsb' 16 8) l) (w.extractLsb' 8 2) (opndOf (w.extractLsb' 0 8) l)⟩
  | 0x2 => some ⟨w.extractLsb' 16 8 == 0, [], .copy (memRefOf w)⟩
  | 0x3 => some ⟨w.extractLsb' 16 8 == 0, [], .copym (memRefOf w)⟩
  | 0x4 => some ⟨w.extractLsb' 6 18 == 0, [], .mack (w.extractLsb' 0 6)⟩
  | 0x5 => some ⟨true, [w.extractLsb' 16 8], .stash (opndOf (w.extractLsb' 16 8) l) (memRefOf w)⟩
  | 0x6 => some ⟨w.extractLsb' 16 8 == 0, [], .stgld (memRefOf w)⟩
  | 0x7 => some ⟨w.extractLsb' 16 8 == 0, [], .crs (memRefOf w)⟩
  | 0x8 => some ⟨w.extractLsb' 16 8 == 0, [w.extractLsb' 8 8, w.extractLsb' 0 8], .cscal (opndOf (w.extractLsb' 8 8) l) (opndOf (w.extractLsb' 0 8) l)⟩
  | 0x9 => some ⟨w.extractLsb' 16 8 == 0, [], .cag (memRefOf w)⟩
  | 0xA => some ⟨w.extractLsb' 0 24 == 0, [], .step⟩
  | 0xB => some ⟨true, [w.extractLsb' 16 8, w.extractLsb' 8 8], .steprd (opndOf (w.extractLsb' 16 8) l) (opndOf (w.extractLsb' 8 8) l) (w.extractLsb' 0 8)⟩
  | 0xC => some ⟨w.extractLsb' 11 5 == 0x1a && w.extractLsb' 7 1 == 0, [w.extractLsb' 16 8], .gsget (opndOf (w.extractLsb' 16 8) l) (w.extractLsb' 8 3) (w.extractLsb' 6 1) (w.extractLsb' 0 6)⟩
  | 0xD => some ⟨w.extractLsb' 2 6 == 0, [w.extractLsb' 16 8, w.extractLsb' 8 8], .bar (opndOf (w.extractLsb' 16 8) l) (opndOf (w.extractLsb' 8 8) l) (w.extractLsb' 0 2)⟩
  | 0xE => some ⟨w.extractLsb' 0 8 == 0, [w.extractLsb' 16 8, w.extractLsb' 8 8], .swaph (opndOf (w.extractLsb' 16 8) l) (opndOf (w.extractLsb' 8 8) l)⟩
  | 0xF => some ⟨true, [w.extractLsb' 16 8], .watch (opndOf (w.extractLsb' 16 8) l) (memRefOf w)⟩
  | _ => none

/-- The row 0xEx of the opcode map (R183): the fields that must be zero, the codes that may take a literal word, and the
instruction read. -/
def rowsE (op : Nat) (w l : W32) : Option Row :=
  match op with
  | 0x0 => some ⟨w.extractLsb' 7 9 == 0, [w.extractLsb' 16 8], .blatch (opndOf (w.extractLsb' 16 8) l) (w.extractLsb' 6 1) (w.extractLsb' 4 2) (w.extractLsb' 0 4)⟩
  | 0x1 => some ⟨w.extractLsb' 0 4 == 0, [w.extractLsb' 16 8, w.extractLsb' 8 8], .mmaE4m3 (opndOf (w.extractLsb' 16 8) l) (opndOf (w.extractLsb' 8 8) l) (w.extractLsb' 7 1) (w.extractLsb' 6 1) (w.extractLsb' 5 1) (w.extractLsb' 4 1)⟩
  | 0x2 => some ⟨w.extractLsb' 0 4 == 0, [w.extractLsb' 16 8, w.extractLsb' 8 8], .mmaE5m2 (opndOf (w.extractLsb' 16 8) l) (opndOf (w.extractLsb' 8 8) l) (w.extractLsb' 7 1) (w.extractLsb' 6 1) (w.extractLsb' 5 1) (w.extractLsb' 4 1)⟩
  | 0x3 => some ⟨w.extractLsb' 0 4 == 0, [w.extractLsb' 16 8, w.extractLsb' 8 8], .mmaE3m2 (opndOf (w.extractLsb' 16 8) l) (opndOf (w.extractLsb' 8 8) l) (w.extractLsb' 7 1) (w.extractLsb' 6 1) (w.extractLsb' 5 1) (w.extractLsb' 4 1)⟩
  | 0x4 => some ⟨w.extractLsb' 0 4 == 0, [w.extractLsb' 16 8, w.extractLsb' 8 8], .mmaE2m3 (opndOf (w.extractLsb' 16 8) l) (opndOf (w.extractLsb' 8 8) l) (w.extractLsb' 7 1) (w.extractLsb' 6 1) (w.extractLsb' 5 1) (w.extractLsb' 4 1)⟩
  | 0x5 => some ⟨w.extractLsb' 0 4 == 0, [w.extractLsb' 16 8, w.extractLsb' 8 8], .mmaF4s (opndOf (w.extractLsb' 16 8) l) (opndOf (w.extractLsb' 8 8) l) (w.extractLsb' 7 1) (w.extractLsb' 6 1) (w.extractLsb' 5 1) (w.extractLsb' 4 1)⟩
  | 0x6 => some ⟨w.extractLsb' 0 4 == 0, [w.extractLsb' 16 8, w.extractLsb' 8 8], .mmaBf16 (opndOf (w.extractLsb' 16 8) l) (opndOf (w.extractLsb' 8 8) l) (w.extractLsb' 7 1) (w.extractLsb' 6 1) (w.extractLsb' 5 1) (w.extractLsb' 4 1)⟩
  | 0x7 => some ⟨w.extractLsb' 0 4 == 0, [w.extractLsb' 16 8, w.extractLsb' 8 8], .mmaF16 (opndOf (w.extractLsb' 16 8) l) (opndOf (w.extractLsb' 8 8) l) (w.extractLsb' 7 1) (w.extractLsb' 6 1) (w.extractLsb' 5 1) (w.extractLsb' 4 1)⟩
  | 0x8 => some ⟨w.extractLsb' 0 4 == 0, [w.extractLsb' 16 8, w.extractLsb' 8 8], .mmaI8 (opndOf (w.extractLsb' 16 8) l) (opndOf (w.extractLsb' 8 8) l) (w.extractLsb' 7 1) (w.extractLsb' 6 1) (w.extractLsb' 5 1) (w.extractLsb' 4 1)⟩
  | 0xE => some ⟨w.extractLsb' 0 4 == 0, [w.extractLsb' 16 8, w.extractLsb' 8 8], .mmaE2m1 (opndOf (w.extractLsb' 16 8) l) (opndOf (w.extractLsb' 8 8) l) (w.extractLsb' 7 1) (w.extractLsb' 6 1) (w.extractLsb' 5 1) (w.extractLsb' 4 1)⟩
  | 0x9 => some ⟨w.extractLsb' 0 16 == 0, [w.extractLsb' 16 8], .mfence (opndOf (w.extractLsb' 16 8) l)⟩
  | 0xA => some ⟨w.extractLsb' 16 8 == 0 && w.extractLsb' 0 8 == 0, [w.extractLsb' 8 8], .mwait (opndOf (w.extractLsb' 8 8) l)⟩
  | 0xB => some ⟨w.extractLsb' 16 8 == 0 && w.extractLsb' 0 8 == 0, [w.extractLsb' 8 8], .accz (opndOf (w.extractLsb' 8 8) l)⟩
  | 0xC => some ⟨w.extractLsb' 7 1 == 0, [w.extractLsb' 16 8, w.extractLsb' 8 8], .accrd (opndOf (w.extractLsb' 16 8) l) (opndOf (w.extractLsb' 8 8) l) (w.extractLsb' 5 2) (w.extractLsb' 4 1) (w.extractLsb' 0 4)⟩
  | 0xD => some ⟨w.extractLsb' 4 4 == 0, [w.extractLsb' 16 8, w.extractLsb' 8 8], .accld (opndOf (w.extractLsb' 16 8) l) (opndOf (w.extractLsb' 8 8) l) (w.extractLsb' 0 4)⟩
  | _ => none

/-- The row 0xFx of the opcode map (R183): the fields that must be zero, the codes that may take a literal word, and the
instruction read. -/
def rowsF (op : Nat) (w l : W32) : Option Row :=
  match op with
  | 0xC => some ⟨true, [], .clauseHeader (w.extractLsb' 12 12) (w.extractLsb' 8 4) (w.extractLsb' 4 4) (w.extractLsb' 0 4)⟩
  | 0x0 => some ⟨w.extractLsb' 0 24 == 0, [], .freeze⟩
  | 0x1 => some ⟨w.extractLsb' 0 24 == 0xb200, [0xB2], .sigchk l⟩
  | 0x2 => some ⟨w.extractLsb' 0 24 == 0, [], .sigclr⟩
  | 0x3 => some ⟨w.extractLsb' 0 24 == 0, [], .snap⟩
  | 0x4 => some ⟨w.extractLsb' 1 23 == 0, [], .rft (w.extractLsb' 0 1)⟩
  | 0x5 => some ⟨true, [w.extractLsb' 16 8], .mfsr (opndOf (w.extractLsb' 16 8) l) (w.extractLsb' 0 16)⟩
  | 0x6 => some ⟨true, [w.extractLsb' 16 8], .mtsr (opndOf (w.extractLsb' 16 8) l) (w.extractLsb' 0 16)⟩
  | 0x7 => some ⟨w.extractLsb' 0 16 == 0, [w.extractLsb' 16 8], .wdepth (opndOf (w.extractLsb' 16 8) l)⟩
  | 0x8 => some ⟨w.extractLsb' 0 24 == 0, [], .wsync⟩
  | 0x9 => some ⟨true, [w.extractLsb' 16 8, w.extractLsb' 8 8, w.extractLsb' 0 8], .free (opndOf (w.extractLsb' 16 8) l) (opndOf (w.extractLsb' 8 8) l) (opndOf (w.extractLsb' 0 8) l)⟩
  | 0xA => some ⟨w.extractLsb' 16 8 == 0 && w.extractLsb' 0 8 == 0, [w.extractLsb' 8 8], .tlbi (opndOf (w.extractLsb' 8 8) l)⟩
  | 0xB => some ⟨w.extractLsb' 0 24 == 0, [], .halt⟩
  | _ => none

/-- The row of an opcode, with the word and a literal word read into it; none where R184 leaves the opcode unassigned. -/
def rowOf (w l : W32) : Option Row :=
  match (w.extractLsb' 28 4).toNat with
  | 0x0 => rows0 (w.extractLsb' 24 4).toNat w l
  | 0x1 => rows1 (w.extractLsb' 24 4).toNat w l
  | 0x2 => rows2 (w.extractLsb' 24 4).toNat w l
  | 0x3 => rows3 (w.extractLsb' 24 4).toNat w l
  | 0x4 => rows4 (w.extractLsb' 24 4).toNat w l
  | 0x5 => rows5 (w.extractLsb' 24 4).toNat w l
  | 0x7 => rows7 (w.extractLsb' 24 4).toNat w l
  | 0x8 => rows8 (w.extractLsb' 24 4).toNat w l
  | 0xA => rowsA (w.extractLsb' 24 4).toNat w l
  | 0xB => rowsB (w.extractLsb' 24 4).toNat w l
  | 0xC => rowsC (w.extractLsb' 24 4).toNat w l
  | 0xD => rowsD (w.extractLsb' 24 4).toNat w l
  | 0xE => rowsE (w.extractLsb' 24 4).toNat w l
  | 0xF => rowsF (w.extractLsb' 24 4).toNat w l
  | _ => none

/-- One instruction off a list of words: the instruction and the words left. A literal code takes the word after it (R168). -/
def decode : List W32 → Except DecodeError (Instr × List W32)
  | [] => .error .noWord
  | w :: rest =>
    match rowOf w (rest.headD 0) with
    | none => .error .unassigned
    | some r =>
      if !r.fixed then .error .fixedField
      else
        match (r.codes.filter (· == 0xB2)).length with
        | 0 => .ok (r.instr, rest)
        | 1 =>
          match rest with
          | [] => .error .missingLiteral
          | _ :: rest' => .ok (r.instr, rest')
        | _ => .error .secondLiteral

/-- The word of an instruction, its fields in the places of R175 and of the entries. -/
def encodeWord : Instr → W32
  | .clauseHeader wait seta setb len => (0xFC : BitVec 8) ++ wait ++ seta ++ setb ++ len
  | .nop => (0x00 : BitVec 8) ++ (0 : BitVec 24)
  | .br off => (0x01 : BitVec 8) ++ off
  | .brz p off => (0x02 : BitVec 8) ++ p.code ++ off
  | .brnz p off => (0x03 : BitVec 8) ++ p.code ++ off
  | .bzm p off => (0x04 : BitVec 8) ++ p.code ++ off
  | .bnzm p off => (0x05 : BitVec 8) ++ p.code ++ off
  | .ballm p off => (0x06 : BitVec 8) ++ p.code ++ off
  | .call n off => (0x07 : BitVec 8) ++ n ++ off
  | .calli n t => (0x08 : BitVec 8) ++ n ++ t.code ++ (0 : BitVec 8)
  | .ret => (0x09 : BitVec 8) ++ (0 : BitVec 24)
  | .loop p off => (0x0A : BitVec 8) ++ p.code ++ off
  | .yield => (0x0B : BitVec 8) ++ (0 : BitVec 24)
  | .yieldc off => (0x0C : BitVec 8) ++ off
  | .exit => (0x0D : BitVec 8) ++ (0 : BitVec 24)
  | .trap imm => (0x0E : BitVec 8) ++ (0 : BitVec 8) ++ imm
  | .jmpi t => (0x0F : BitVec 8) ++ (0 : BitVec 8) ++ t.code ++ (0 : BitVec 8)
  | .setmode imm => (0x10 : BitVec 8) ++ (0 : BitVec 8) ++ imm
  | .setmm imm => (0x11 : BitVec 8) ++ (0 : BitVec 8) ++ imm
  | .getmode d => (0x12 : BitVec 8) ++ d.code ++ (0 : BitVec 16)
  | .mand d a b => (0x13 : BitVec 8) ++ d.code ++ a.code ++ b.code
  | .mor d a b => (0x14 : BitVec 8) ++ d.code ++ a.code ++ b.code
  | .mxor d a b => (0x15 : BitVec 8) ++ d.code ++ a.code ++ b.code
  | .mandn d a b => (0x16 : BitVec 8) ++ d.code ++ a.code ++ b.code
  | .mnot d a => (0x17 : BitVec 8) ++ d.code ++ a.code ++ (0 : BitVec 8)
  | .mmov d a => (0x18 : BitVec 8) ++ d.code ++ a.code ++ (0 : BitVec 8)
  | .mpopc d a => (0x19 : BitVec 8) ++ d.code ++ a.code ++ (0 : BitVec 8)
  | .mffs d a => (0x1A : BitVec 8) ++ d.code ++ a.code ++ (0 : BitVec 8)
  | .mseti d imm => (0x1B : BitVec 8) ++ d.code ++ (0xb200 : BitVec 16)
  | .mlane d a => (0x1C : BitVec 8) ++ d.code ++ a.code ++ (0 : BitVec 8)
  | .fpsget d => (0x1D : BitVec 8) ++ d.code ++ (0 : BitVec 16)
  | .fpsclr a imm => (0x1E : BitVec 8) ++ (0 : BitVec 8) ++ a.code ++ (0 : BitVec 2) ++ imm
  | .sget d imm => (0x1F : BitVec 8) ++ d.code ++ (0 : BitVec 8) ++ imm
  | .sadd d a b => (0x20 : BitVec 8) ++ d.code ++ a.code ++ b.code
  | .ssub d a b => (0x21 : BitVec 8) ++ d.code ++ a.code ++ b.code
  | .smul d a b => (0x22 : BitVec 8) ++ d.code ++ a.code ++ b.code
  | .smulh d a b => (0x23 : BitVec 8) ++ d.code ++ a.code ++ b.code
  | .smulhn d a b => (0x24 : BitVec 8) ++ d.code ++ a.code ++ b.code
  | .sdiv d a b => (0x25 : BitVec 8) ++ d.code ++ a.code ++ b.code
  | .sdivn d a b => (0x26 : BitVec 8) ++ d.code ++ a.code ++ b.code
  | .smod d a b => (0x27 : BitVec 8) ++ d.code ++ a.code ++ b.code
  | .sand d a b => (0x28 : BitVec 8) ++ d.code ++ a.code ++ b.code
  | .sor d a b => (0x29 : BitVec 8) ++ d.code ++ a.code ++ b.code
  | .sxor d a b => (0x2A : BitVec 8) ++ d.code ++ a.code ++ b.code
  | .sshl d a b => (0x2B : BitVec 8) ++ d.code ++ a.code ++ b.code
  | .sshr d a b => (0x2C : BitVec 8) ++ d.code ++ a.code ++ b.code
  | .ssar d a b => (0x2D : BitVec 8) ++ d.code ++ a.code ++ b.code
  | .smin d a b => (0x2E : BitVec 8) ++ d.code ++ a.code ++ b.code
  | .smax d a b => (0x2F : BitVec 8) ++ d.code ++ a.code ++ b.code
  | .sminn d a b => (0x30 : BitVec 8) ++ d.code ++ a.code ++ b.code
  | .smaxn d a b => (0x31 : BitVec 8) ++ d.code ++ a.code ++ b.code
  | .smov d a => (0x32 : BitVec 8) ++ d.code ++ a.code ++ (0 : BitVec 8)
  | .smovi d imm => (0x33 : BitVec 8) ++ d.code ++ imm
  | .smovh d imm => (0x34 : BitVec 8) ++ d.code ++ imm
  | .scmpeq d a b => (0x35 : BitVec 8) ++ d.code ++ a.code ++ b.code
  | .scmplt d a b => (0x36 : BitVec 8) ++ d.code ++ a.code ++ b.code
  | .scmpltn d a b => (0x37 : BitVec 8) ++ d.code ++ a.code ++ b.code
  | .spopc d a => (0x38 : BitVec 8) ++ d.code ++ a.code ++ (0 : BitVec 8)
  | .sclz d a => (0x39 : BitVec 8) ++ d.code ++ a.code ++ (0 : BitVec 8)
  | .sbfx d a b => (0x3A : BitVec 8) ++ d.code ++ a.code ++ b.code
  | .sbfi d a b => (0x3B : BitVec 8) ++ d.code ++ a.code ++ b.code
  | .saddi d a imm => (0x3C : BitVec 8) ++ d.code ++ a.code ++ imm
  | .amov d a => (0x3D : BitVec 8) ++ d.code ++ a.code ++ (0 : BitVec 8)
  | .aadd d a b => (0x3E : BitVec 8) ++ d.code ++ a.code ++ b.code
  | .bset d a b => (0x3F : BitVec 8) ++ d.code ++ a.code ++ b.code
  | .vadd d a b => (0x40 : BitVec 8) ++ d.code ++ a.code ++ b.code
  | .vsub d a b => (0x41 : BitVec 8) ++ d.code ++ a.code ++ b.code
  | .vmul d a b => (0x42 : BitVec 8) ++ d.code ++ a.code ++ b.code
  | .vmulh d a b => (0x43 : BitVec 8) ++ d.code ++ a.code ++ b.code
  | .vmad d a b => (0x44 : BitVec 8) ++ d.code ++ a.code ++ b.code
  | .vand d a b => (0x45 : BitVec 8) ++ d.code ++ a.code ++ b.code
  | .vor d a b => (0x46 : BitVec 8) ++ d.code ++ a.code ++ b.code
  | .vxor d a b => (0x47 : BitVec 8) ++ d.code ++ a.code ++ b.code
  | .vnot d a => (0x48 : BitVec 8) ++ d.code ++ a.code ++ (0 : BitVec 8)
  | .vshl d a b => (0x49 : BitVec 8) ++ d.code ++ a.code ++ b.code
  | .vshr d a b => (0x4A : BitVec 8) ++ d.code ++ a.code ++ b.code
  | .vmin d a b => (0x4B : BitVec 8) ++ d.code ++ a.code ++ b.code
  | .vmax d a b => (0x4C : BitVec 8) ++ d.code ++ a.code ++ b.code
  | .vabs d a => (0x4D : BitVec 8) ++ d.code ++ a.code ++ (0 : BitVec 8)
  | .vneg d a => (0x4E : BitVec 8) ++ d.code ++ a.code ++ (0 : BitVec 8)
  | .vmov d a => (0x4F : BitVec 8) ++ d.code ++ a.code ++ (0 : BitVec 8)
  | .vmovi d imm => (0x50 : BitVec 8) ++ d.code ++ imm
  | .vbcast d a b => (0x51 : BitVec 8) ++ d.code ++ a.code ++ b.code
  | .vceq d a b => (0x52 : BitVec 8) ++ d.code ++ a.code ++ b.code
  | .vcne d a b => (0x53 : BitVec 8) ++ d.code ++ a.code ++ b.code
  | .vclt d a b => (0x54 : BitVec 8) ++ d.code ++ a.code ++ b.code
  | .vcle d a b => (0x55 : BitVec 8) ++ d.code ++ a.code ++ b.code
  | .vcgt d a b => (0x56 : BitVec 8) ++ d.code ++ a.code ++ b.code
  | .vcge d a b => (0x57 : BitVec 8) ++ d.code ++ a.code ++ b.code
  | .vsel d a b => (0x58 : BitVec 8) ++ d.code ++ a.code ++ b.code
  | .vpopc d a => (0x59 : BitVec 8) ++ d.code ++ a.code ++ (0 : BitVec 8)
  | .vclz d a => (0x5A : BitVec 8) ++ d.code ++ a.code ++ (0 : BitVec 8)
  | .vbfx d a b => (0x5B : BitVec 8) ++ d.code ++ a.code ++ b.code
  | .vidx d a b => (0x5C : BitVec 8) ++ d.code ++ a.code ++ b.code
  | .vdot4 d a b => (0x5D : BitVec 8) ++ d.code ++ a.code ++ b.code
  | .fadd d a b => (0x70 : BitVec 8) ++ d.code ++ a.code ++ b.code
  | .fsub d a b => (0x71 : BitVec 8) ++ d.code ++ a.code ++ b.code
  | .fmul d a b => (0x72 : BitVec 8) ++ d.code ++ a.code ++ b.code
  | .ffma d a b => (0x73 : BitVec 8) ++ d.code ++ a.code ++ b.code
  | .fmin d a b => (0x74 : BitVec 8) ++ d.code ++ a.code ++ b.code
  | .fmax d a b => (0x75 : BitVec 8) ++ d.code ++ a.code ++ b.code
  | .fminnum d a b => (0x76 : BitVec 8) ++ d.code ++ a.code ++ b.code
  | .fmaxnum d a b => (0x77 : BitVec 8) ++ d.code ++ a.code ++ b.code
  | .fabs d a => (0x78 : BitVec 8) ++ d.code ++ a.code ++ (0 : BitVec 8)
  | .fneg d a => (0x79 : BitVec 8) ++ d.code ++ a.code ++ (0 : BitVec 8)
  | .frcp d a => (0x7A : BitVec 8) ++ d.code ++ a.code ++ (0 : BitVec 8)
  | .frsq d a => (0x7B : BitVec 8) ++ d.code ++ a.code ++ (0 : BitVec 8)
  | .fsqrt d a => (0x7C : BitVec 8) ++ d.code ++ a.code ++ (0 : BitVec 8)
  | .fdiv d a b => (0x7D : BitVec 8) ++ d.code ++ a.code ++ b.code
  | .fexp2 d a => (0x7E : BitVec 8) ++ d.code ++ a.code ++ (0 : BitVec 8)
  | .flog2 d a => (0x7F : BitVec 8) ++ d.code ++ a.code ++ (0 : BitVec 8)
  | .fsin d a => (0x80 : BitVec 8) ++ d.code ++ a.code ++ (0 : BitVec 8)
  | .fcos d a => (0x81 : BitVec 8) ++ d.code ++ a.code ++ (0 : BitVec 8)
  | .frnd d a x r => (0x82 : BitVec 8) ++ d.code ++ a.code ++ (0 : BitVec 4) ++ x ++ r
  | .fscale d a b => (0x83 : BitVec 8) ++ d.code ++ a.code ++ b.code
  | .fclass d a => (0x84 : BitVec 8) ++ d.code ++ a.code ++ (0 : BitVec 8)
  | .fceq d a b => (0x85 : BitVec 8) ++ d.code ++ a.code ++ b.code
  | .fclt d a b => (0x86 : BitVec 8) ++ d.code ++ a.code ++ b.code
  | .fcle d a b => (0x87 : BitVec 8) ++ d.code ++ a.code ++ b.code
  | .fcun d a b => (0x88 : BitVec 8) ++ d.code ++ a.code ++ b.code
  | .fkey d a => (0x89 : BitVec 8) ++ d.code ++ a.code ++ (0 : BitVec 8)
  | .cvt d a t s => (0x8A : BitVec 8) ++ d.code ++ a.code ++ t ++ s
  | .qpack d a s f => (0x8B : BitVec 8) ++ d.code ++ a.code ++ (0 : BitVec 4) ++ s ++ f
  | .qunpack d a s f => (0x8C : BitVec 8) ++ d.code ++ a.code ++ (0 : BitVec 4) ++ s ++ f
  | .qscale d a s f => (0x8D : BitVec 8) ++ d.code ++ a.code ++ (0 : BitVec 4) ++ s ++ f
  | .scvt d a k s f => (0x8E : BitVec 8) ++ d.code ++ a.code ++ (0 : BitVec 1) ++ k ++ s ++ f
  | .vshfl d a b => (0xA0 : BitVec 8) ++ d.code ++ a.code ++ b.code
  | .vbfly d a imm => (0xA1 : BitVec 8) ++ d.code ++ a.code ++ (0 : BitVec 3) ++ imm
  | .vrot d a imm => (0xA2 : BitVec 8) ++ d.code ++ a.code ++ (0 : BitVec 3) ++ imm
  | .vredadd d a => (0xA3 : BitVec 8) ++ d.code ++ a.code ++ (0 : BitVec 8)
  | .vredmax d a => (0xA4 : BitVec 8) ++ d.code ++ a.code ++ (0 : BitVec 8)
  | .vredmin d a => (0xA5 : BitVec 8) ++ d.code ++ a.code ++ (0 : BitVec 8)
  | .vargmax d a b => (0xA6 : BitVec 8) ++ d.code ++ a.code ++ b.code
  | .vscan d a x off => (0xA7 : BitVec 8) ++ d.code ++ a.code ++ (0 : BitVec 5) ++ x ++ off
  | .vdist d a q r f m => (0xA8 : BitVec 8) ++ d.code ++ a.code ++ (0 : BitVec 1) ++ q ++ r ++ f ++ m
  | .vtopk d a off k => (0xA9 : BitVec 8) ++ d.code ++ a.code ++ (0 : BitVec 2) ++ off ++ k
  | .vtopkm d a off k => (0xAA : BitVec 8) ++ d.code ++ a.code ++ (0 : BitVec 2) ++ off ++ k
  | .lds d mem => (0xB0 : BitVec 8) ++ d.code ++ mem.bits
  | .sts d mem => (0xB1 : BitVec 8) ++ d.code ++ mem.bits
  | .ldv d mem => (0xB2 : BitVec 8) ++ d.code ++ mem.bits
  | .stv d mem => (0xB3 : BitVec 8) ++ d.code ++ mem.bits
  | .ldl d mem => (0xB4 : BitVec 8) ++ d.code ++ mem.bits
  | .stl d mem => (0xB5 : BitVec 8) ++ d.code ++ mem.bits
  | .lda d mem => (0xB6 : BitVec 8) ++ d.code ++ mem.bits
  | .sta d mem => (0xB7 : BitVec 8) ++ d.code ++ mem.bits
  | .ldw d mem => (0xB8 : BitVec 8) ++ d.code ++ mem.bits
  | .stw d mem => (0xB9 : BitVec 8) ++ d.code ++ mem.bits
  | .ldpar d mem => (0xBA : BitVec 8) ++ d.code ++ mem.bits
  | .stt d mem => (0xBB : BitVec 8) ++ d.code ++ mem.bits
  | .stm d mem => (0xBC : BitVec 8) ++ d.code ++ mem.bits
  | .pref mem => (0xBD : BitVec 8) ++ (0 : BitVec 8) ++ mem.bits
  | .atadd d mem => (0xC0 : BitVec 8) ++ d.code ++ mem.bits
  | .atmin d mem => (0xC1 : BitVec 8) ++ d.code ++ mem.bits
  | .atmax d mem => (0xC2 : BitVec 8) ++ d.code ++ mem.bits
  | .atand d mem => (0xC3 : BitVec 8) ++ d.code ++ mem.bits
  | .ator d mem => (0xC4 : BitVec 8) ++ d.code ++ mem.bits
  | .atxor d mem => (0xC5 : BitVec 8) ++ d.code ++ mem.bits
  | .atxchg d mem => (0xC6 : BitVec 8) ++ d.code ++ mem.bits
  | .atcas d mem => (0xC7 : BitVec 8) ++ d.code ++ mem.bits
  | .atinc d mem => (0xC8 : BitVec 8) ++ d.code ++ mem.bits
  | .atfadd d mem => (0xC9 : BitVec 8) ++ d.code ++ mem.bits
  | .atfmax d mem => (0xCA : BitVec 8) ++ d.code ++ mem.bits
  | .atfmin d mem => (0xCB : BitVec 8) ++ d.code ++ mem.bits
  | .fence => (0xCC : BitVec 8) ++ (0 : BitVec 24)
  | .fencea a b => (0xCD : BitVec 8) ++ (0 : BitVec 8) ++ a.code ++ b.code
  | .acqrg d a b => (0xCE : BitVec 8) ++ d.code ++ a.code ++ b.code
  | .relrg d a b => (0xCF : BitVec 8) ++ d.code ++ a.code ++ b.code
  | .monarm k mem => (0xD0 : BitVec 8) ++ (0x34 : BitVec 6) ++ k ++ mem.bits
  | .monwait d k b => (0xD1 : BitVec 8) ++ d.code ++ (0x34 : BitVec 6) ++ k ++ b.code
  | .copy mem => (0xD2 : BitVec 8) ++ (0 : BitVec 8) ++ mem.bits
  | .copym mem => (0xD3 : BitVec 8) ++ (0 : BitVec 8) ++ mem.bits
  | .mack n => (0xD4 : BitVec 8) ++ (0 : BitVec 18) ++ n
  | .stash d mem => (0xD5 : BitVec 8) ++ d.code ++ mem.bits
  | .stgld mem => (0xD6 : BitVec 8) ++ (0 : BitVec 8) ++ mem.bits
  | .crs mem => (0xD7 : BitVec 8) ++ (0 : BitVec 8) ++ mem.bits
  | .cscal a b => (0xD8 : BitVec 8) ++ (0 : BitVec 8) ++ a.code ++ b.code
  | .cag mem => (0xD9 : BitVec 8) ++ (0 : BitVec 8) ++ mem.bits
  | .step => (0xDA : BitVec 8) ++ (0 : BitVec 24)
  | .steprd d a imm => (0xDB : BitVec 8) ++ d.code ++ a.code ++ imm
  | .gsget d j g x => (0xDC : BitVec 8) ++ d.code ++ (0x1a : BitVec 5) ++ j ++ (0 : BitVec 1) ++ g ++ x
  | .bar d a b => (0xDD : BitVec 8) ++ d.code ++ a.code ++ (0 : BitVec 6) ++ b
  | .swaph d a => (0xDE : BitVec 8) ++ d.code ++ a.code ++ (0 : BitVec 8)
  | .watch d mem => (0xDF : BitVec 8) ++ d.code ++ mem.bits
  | .blatch vb t q f => (0xE0 : BitVec 8) ++ vb.code ++ (0 : BitVec 9) ++ t ++ q ++ f
  | .mmaE4m3 cbs abs sel zero lrc lra => (0xE1 : BitVec 8) ++ cbs.code ++ abs.code ++ sel ++ zero ++ lrc ++ lra ++ (0 : BitVec 4)
  | .mmaE5m2 cbs abs sel zero lrc lra => (0xE2 : BitVec 8) ++ cbs.code ++ abs.code ++ sel ++ zero ++ lrc ++ lra ++ (0 : BitVec 4)
  | .mmaE3m2 cbs abs sel zero lrc lra => (0xE3 : BitVec 8) ++ cbs.code ++ abs.code ++ sel ++ zero ++ lrc ++ lra ++ (0 : BitVec 4)
  | .mmaE2m3 cbs abs sel zero lrc lra => (0xE4 : BitVec 8) ++ cbs.code ++ abs.code ++ sel ++ zero ++ lrc ++ lra ++ (0 : BitVec 4)
  | .mmaF4s cbs abs sel zero lrc lra => (0xE5 : BitVec 8) ++ cbs.code ++ abs.code ++ sel ++ zero ++ lrc ++ lra ++ (0 : BitVec 4)
  | .mmaBf16 cbs abs sel zero lrc lra => (0xE6 : BitVec 8) ++ cbs.code ++ abs.code ++ sel ++ zero ++ lrc ++ lra ++ (0 : BitVec 4)
  | .mmaF16 cbs abs sel zero lrc lra => (0xE7 : BitVec 8) ++ cbs.code ++ abs.code ++ sel ++ zero ++ lrc ++ lra ++ (0 : BitVec 4)
  | .mmaI8 cbs abs sel zero lrc lra => (0xE8 : BitVec 8) ++ cbs.code ++ abs.code ++ sel ++ zero ++ lrc ++ lra ++ (0 : BitVec 4)
  | .mmaE2m1 cbs abs sel zero lrc lra => (0xEE : BitVec 8) ++ cbs.code ++ abs.code ++ sel ++ zero ++ lrc ++ lra ++ (0 : BitVec 4)
  | .mfence d => (0xE9 : BitVec 8) ++ d.code ++ (0 : BitVec 16)
  | .mwait a => (0xEA : BitVec 8) ++ (0 : BitVec 8) ++ a.code ++ (0 : BitVec 8)
  | .accz a => (0xEB : BitVec 8) ++ (0 : BitVec 8) ++ a.code ++ (0 : BitVec 8)
  | .accrd d a k m f => (0xEC : BitVec 8) ++ d.code ++ a.code ++ (0 : BitVec 1) ++ k ++ m ++ f
  | .accld d a f => (0xED : BitVec 8) ++ d.code ++ a.code ++ (0 : BitVec 4) ++ f
  | .freeze => (0xF0 : BitVec 8) ++ (0 : BitVec 24)
  | .sigchk imm => (0xF1 : BitVec 8) ++ (0xb200 : BitVec 24)
  | .sigclr => (0xF2 : BitVec 8) ++ (0 : BitVec 24)
  | .snap => (0xF3 : BitVec 8) ++ (0 : BitVec 24)
  | .rft s => (0xF4 : BitVec 8) ++ (0 : BitVec 23) ++ s
  | .mfsr d n => (0xF5 : BitVec 8) ++ d.code ++ n
  | .mtsr d n => (0xF6 : BitVec 8) ++ d.code ++ n
  | .wdepth d => (0xF7 : BitVec 8) ++ d.code ++ (0 : BitVec 16)
  | .wsync => (0xF8 : BitVec 8) ++ (0 : BitVec 24)
  | .free d a b => (0xF9 : BitVec 8) ++ d.code ++ a.code ++ b.code
  | .tlbi a => (0xFA : BitVec 8) ++ (0 : BitVec 8) ++ a.code ++ (0 : BitVec 8)
  | .halt => (0xFB : BitVec 8) ++ (0 : BitVec 24)
  | _ => 0#32

/-- The literal words of an operand list. -/
def litWords : List Opnd → List W32
  | [] => []
  | .lit w :: os => w :: litWords os
  | _ :: os => litWords os

/-- The words of an instruction: its own and, where an operand is a literal, the literal word after it (R168). -/
def encode (i : Instr) : List W32 := encodeWord i :: litWords i.opnds

/-- What the decoder reads from words laid out as the opcode table numbers their bits, with zero words after them. -/
def decodeTableWord (nbits w : Nat) : Option Instr :=
  if nbits = 0 then none
  else
    match decode [BitVec.ofNat 32 w, BitVec.ofNat 32 (w >>> 32)] with
    | .ok (i, _) => some i
    | .error _ => none

end Sys2Proof
end

