-- ==== Sys2Proof/Machine/State.lean ====
section
/-! DEFINITION. The state of one XQ9 package as plain data, the state after reset, and the reasons a step can stop. -/

namespace Sys2Proof.Machine

/-! ## Registers of a band -/

/-- What a v or s name maps to (R142, R143, R161): nothing (zero), a private register, or register `reg` of template image `img`. -/
inductive MapKind where
  | zero
  | priv
  | shared (img reg : Nat)
  deriving DecidableEq, Repr

/-- The operation whose result a name awaits (R145, R146), and which register of that result it is: the low (0) or the high (1) one of a
pair, or register `part` of a block (R261). -/
structure Tag where
  op : Nat
  part : Nat
  deriving DecidableEq, Repr

/-- A v name: the value of its register, what it maps to, and the write it awaits. -/
structure VName where
  val : VReg
  kind : MapKind
  pend : Option Tag
  deriving DecidableEq, Repr

/-- An s name; `slot` is the scalar slot of a private one, 16 to a divided register of the quadrant (R142), none until it is given one. -/
structure SName where
  val : W64
  kind : MapKind
  pend : Option Tag
  slot : Option Nat
  deriving DecidableEq, Repr

def VName.zero : VName := ⟨VReg.zero, .zero, none⟩
def SName.zero : SName := ⟨0, .zero, none, none⟩
/-- A scalar newly allocated. -/
def SName.ofVal (w : W64) : SName := ⟨w, .priv, none, none⟩

/-- Where a saved frame's registers are (R154 to R156). -/
inductive FrameAt where
  | resident
  | spilling
  | spilled
  | refilling
  deriving DecidableEq, Repr

/-- A saved frame (R149): return address, slide, and the hidden v and s names. -/
structure Frame where
  retpc : W64
  slide : Nat
  hv : List VName
  hs : List SName
  loc : FrameAt
  deriving DecidableEq, Repr

/-- A fetched clause (R168, R174): its header word and the words after it. -/
structure Clause where
  header : W32
  words : List W32
  deriving DecidableEq, Repr

/-- A monitor (R214): armed on the 8-byte word at a physical address. -/
structure Monitor where
  k : Nat
  pa : Nat
  deriving DecidableEq, Repr

/-- A recorded Tailrace fault (R157): address, frame depth and kind (1 absent, 2 permission, 3 world). -/
structure WinFault where
  va : W64
  depth : Nat
  kind : Nat
  deriving DecidableEq, Repr

/-- A trap as R369 and R372 report it. -/
structure Trap where
  code : Byte
  lane : Nat
  s26 : W64
  s27 : W64
  /-- PC reported in s25 (R372), and whether the trap was reported at a clause header. -/
  pc : W64
  atHdr : Bool
  /-- s28 and s29 of R372: the header of the word's clause and the skip address. -/
  hdr : W64
  skip : W64
  deriving DecidableEq, Repr

/-- What holds a band at its word until an event ends it. -/
inductive Wait where
  /-- A walk the band's translation needs (R60): the address, the kind of access (R369) and the lane that asks. -/
  | walk (va : W64) (kind lane : Nat)
  /-- R67, R204: an LDPAR or load whose binding is below `min`, since `since`, with the minimum it read. -/
  | version (lane : Nat) (va : W64) (set : Nat) (min : Option W32) (since : Nat)
  /-- R85: waits for a token on a region of the physical space until the deadline. -/
  | acqrg (pbase len : Nat) (deadline : Nat)
  /-- R281: arrived at barrier b. -/
  | bar (b : Nat)
  /-- R83: arrived at the superstep barrier. -/
  | swaph
  /-- R215: tests the word of monitor k; the condition, the expected value and the deadline (none: a single test). -/
  | monitor (k : Nat) (cond : Nat) (e : W64) (deadline : Nat)
  /-- R278. -/
  | step
  /-- R89: waits for a reserved copy entry. -/
  | copyEntry
  /-- R100, R214, R248, R266: waits for a slot, lock-table room, a list entry or a stage generation. -/
  | entry
  /-- R305: out of the ready set until the operation ends; then continues at the target, from the YIELDC at `pc`;
  `ended` is the scope of the stamp once the operation has ended. -/
  | yieldc (op : Nat) (target : W64) (pc : W64) (hdr : W64) (ended : Option Nat)
  /-- The wait has ended with this status, which the word takes when it issues. -/
  | done (status : W64)
  /-- R371: a trap's entry waits for registers. -/
  | entryRegs
  /-- R376, R377: stopped at its word for good, its launch being killed. -/
  | killed
  deriving DecidableEq, Repr

/-- An allocation stall (R142): since when, and the registers and scalar slots that the word asks for. -/
structure Stall where
  since : Nat
  nv : Nat
  ns : Nat
  deriving DecidableEq, Repr

/-- A resident or parked band. -/
structure Band where
  uid : Nat
  place : Place
  launch : Nat
  wg : Nat
  /-- Position in the workgroup, and the numbers of R140, R320. -/
  pos : Nat
  itemidx : Nat
  xidx : W32
  fdepth : Nat
  rank : Nat
  lvls : List Nat
  /-- Which nested template of the launch it belongs to: the image it was stamped from (R333). -/
  image : Option Nat
  template : Bool
  v : Vector VName 64
  s : Vector SName 64
  o : Vector VReg 8
  lat : VReg
  latValid : Bool
  a : Vector W64 16
  b : Vector (W64 × W64) 8
  m : Vector W32 16
  f : Vector (BitVec 6) 12
  mode : W32
  fps : W32
  sig : W32
  srseq : W64
  /-- Header of the current clause, address of the next word, and the fetched clause (none: to be fetched). -/
  hdr : W64
  pc : W64
  clause : Option Clause
  /-- Where a refetched clause resumes (R174, R374). -/
  resume : Option W64
  /-- Saved frames, newest first; the window depth is their number (R149). -/
  frames : List Frame
  inHandler : Bool
  privileged : Bool
  winFault : Option WinFault
  /-- The frame whose transfer failed and is tried again (R157). -/
  retrying : Option Nat
  /-- The batch counter's closed batches and the open batch (R256). -/
  batch : Nat
  /-- Issued MMAs of each batch that have not completed: (batch, count). -/
  batchLeft : List (Nat × Nat)
  monitors : List Monitor
  /-- A trap that awaits the host (R392) or the registers of its entry (R371). -/
  trap : Option Trap
  suspended : Bool
  halted : Bool
  parked : Bool
  /-- Stop before the next header, for a pre-emption or a kill (R338, R377). -/
  stopping : Bool
  wait : Option Wait
  /-- The remaining time of a withdrawn wait (R266): none of its own where that had no deadline. -/
  timeLeft : Option (Option Nat)
  /-- The word has been tried and holds; cleared by every event. -/
  held : Bool
  /-- R67, R204: since when the load at its word has tried to issue, and the minimum that an LDPAR read then. -/
  tried : Option (Option W32 × Nat)
  stalled : Option Stall
  /-- COPYs issued (R90) and the most recent copy operation (R99). -/
  copies : Nat
  lastCopy : Option Nat
  /-- Ready time (R335) and since when the slot has been held (R331). -/
  readyAt : Nat
  since : Nat
  deriving DecidableEq, Repr

/-! ## Memory structures -/

/-- A line of a core's L1 (R71): number of the 128-byte line, which bytes it holds, which are dirty (R74), its bytes, and the launch whose
store made bytes of it dirty last (log 6). -/
structure L1Line where
  core : Nat
  line : Nat
  valid : BitVec 128
  dirty : BitVec 128
  data : BitVec 1024
  owner : Option Nat
  deriving DecidableEq, Repr

/-- A binding of a versioned page (R66): its version set, the frame and its version; none while the page has no version. -/
structure Binding where
  set : Nat
  cur : Option (Nat × W32)
  deriving DecidableEq, Repr

/-- A TLB entry (R61): holder, root index, world, page number base, page size 2^(12+k), the leaf, and the binding. -/
structure TlbEntry where
  agent : Agent
  root : Nat
  world : Bool
  vbase : Nat
  k : Nat
  pte : W64
  bind : Option Binding
  deriving DecidableEq, Repr

/-- An entry of a compute die's walk cache (R61): a table entry of level 4 to 1, and the address bits that index it and the levels above. -/
structure WalkEntry where
  die : Nat
  root : Nat
  world : Bool
  level : Nat
  tag : Nat
  pte : W64
  deriving DecidableEq, Repr

/-- An ownership token (R84). -/
structure Token where
  core : Nat
  slot : Nat
  pbase : Nat
  len : Nat
  deriving DecidableEq, Repr

/-- The spaces of R79 and memory. -/
inductive Space where
  | mem | sp | ab | wb | cb
  deriving DecidableEq, Repr

/-- A range lock (R100): the operation that holds it, or the bands and batches whose MMAs do (R258); whether it locks a destination,
and the range: for memory by root, world and virtual address, for a local space by window slot and offset. `hi` is exclusive. -/
structure Lock where
  core : Nat
  op : Option Nat
  holders : List (Nat × Nat)
  dest : Bool
  space : Space
  root : Nat
  world : Bool
  slot : Nat
  lo : Nat
  hi : Nat
  deriving DecidableEq, Repr

/-- A watch slot (R111). -/
structure Watch where
  slot : Nat
  pa : Nat
  launch : Nat
  value : W64
  count : W64
  pending : Bool
  deriving DecidableEq, Repr

/-- Corrected-error logging of a stack or DDR channel (R52): set bits of the filter, repeat counters by channel and bank, next clear. -/
structure CeLog where
  unit : Nat
  bits : List Nat
  repeats : List (Nat × Nat)
  reported : List Nat
  since : Nat
  deriving DecidableEq, Repr

/-- Who publishes (R65): a copy, or a rank by its CAGs. -/
inductive Publisher where
  | copy (u : Nat)
  | rank (r : Nat)
  deriving DecidableEq, Repr

/-- A publication in progress (R65, R277): version set, version, the frame slot it holds (none while the open waits), page bytes, the
publishing launch, who opened it, and the 64 KiB chunks delivered. -/
structure Publication where
  set : Nat
  ver : W32
  slot : Option Nat
  size : Nat
  launch : Nat
  by_ : Publisher
  chunks : List Nat
  deriving DecidableEq, Repr

/-- A chunk that waits with its page's open (R65, R277): its number, address, bytes and poisoned atoms. -/
structure CagChunk where
  chunk : Nat
  dst : W64
  data : Nat
  bad : List Nat
  deriving DecidableEq, Repr

/-- A CAG of another device as this device takes it (R277): the device, its operation there, the launch here, rank, version, chunks;
chunks delivered or refused, version sets that it has opened here, chunks whose open waits, the first refusal, and whether its outcome
has been reported: then nothing more of it is written. -/
structure CagIn where
  dev : Nat
  tag : Nat
  launch : Nat
  rank : Nat
  ver : W32
  nchk : Nat
  got : List Nat
  sets : List Nat
  held : List CagChunk
  refused : Option (BitVec 2)
  ended : Bool
  deriving DecidableEq, Repr

/-- An advance that has started (R66): version set, the frame that it moves CUR off, the frame and version that it makes current, and the
page bytes. -/
structure Advance where
  set : Nat
  old : Option Nat
  frame : Nat
  ver : W32
  size : Nat
  deriving DecidableEq, Repr

/-! ## Operations in flight -/

/-- One lane of an access: its number, its virtual address and the physical address of each of its bytes. -/
structure LaneAcc where
  lane : Nat
  va : W64
  pas : List Nat
  deriving DecidableEq, Repr

/-- One atom of an access (R118): address, the leaf's class, bytes touched, data to write or data read, and whether it has been
performed. An access through the register aperture has one entry per lane. -/
structure AtomAcc where
  pa : Nat
  cc : Nat
  mask : BitVec 32
  data : BitVec 256
  done : Bool
  /-- It was read damaged (R47). -/
  bad : Bool
  deriving DecidableEq, Repr

/-- Where a result goes: names that carry the operation's tag, or registers that are not renamed (R147). -/
inductive Dest where
  | none
  | tagV (pair : Bool)
  | tagBlock
  | tagS
  | tagS2
  | o (n : Nat) (pair : Bool)
  | a (n : Nat)
  | m (n : Nat)
  deriving DecidableEq, Repr

/-- A load or a store of memory (R198, R199): lanes, atoms, type code of R15 and element width, class, scope and,
for a load, its destination and the lanes it writes. `clock` is the sc clock value it carries and `resp` the one its response does (R124). -/
structure Access where
  lanes : List LaneAcc
  atoms : List AtomAcc
  typ : Nat
  width : Nat
  cls : BitVec 3
  scope : BitVec 3
  dest : Dest
  clock : W64
  resp : W64
  answered : Bool
  deriving DecidableEq, Repr

/-- The atomics of R206. -/
inductive AtomKind where
  | add | min | max | and | or | xor | xchg | cas | inc | fadd | fmax | fmin
  deriving DecidableEq, Repr

/-- A lane of an atomic: its number, byte address, source and (ATCAS) compare value, and the old value it received. -/
structure AtomLane where
  lane : Nat
  pa : Nat
  src : W64
  cmp : W64
  old : W64
  deriving DecidableEq, Repr

/-- A result that an arithmetic-class operation writes (R170): lanes of one or two registers or of a block of them, and the lanes it
covers; a scalar or a scalar pair. -/
inductive ArithVal where
  | vec (lo hi : VReg) (lanes : W32)
  | block (rs : List VReg) (lanes : W32)
  | scalar (w : W64)
  | pair (lo hi : W64)
  deriving DecidableEq, Repr

/-- What an engine operation has to write when it ends (R96): the stamp's physical address, translated at issue. -/
structure StampSpec where
  pa : Nat
  seq : BitVec 48
  scope : BitVec 3
  deriving DecidableEq, Repr

/-- A slice of a copy (R91): the supplying band and its position, the number of operations issued before it, the band's privilege, the
descriptor's words (none: not read) and its stamp. -/
structure Slice where
  pos : Nat
  at_ : Nat
  band : Nat
  place : Place
  priv : Bool
  desc : Option (List W64)
  stamp : Option StampSpec
  deriving DecidableEq, Repr

/-- One side of a move of an engine: physical pieces (address, bytes), a window's bytes (core, carve-out, slot, space, offset within
the window), the tensor's fill bytes, or a place at each receiver relative to its address (R102). -/
inductive Side where
  | mem (ps : List (Nat × Nat))
  | loc (core carve slot : Nat) (space : Space) (off : Nat)
  | fill (bs : List Byte)
  | rel (off : W64)
  deriving DecidableEq, Repr

/-- A move of `n` bytes. `half` is for a tile's last element of four bits (R95, ESZ 4): 1, the low four bits of one byte are moved and
the others kept; 2, they are moved and the others cleared; 0 elsewhere. `pub` names the publication whose payload it is, as version set
and version. -/
structure Move' where
  src : Side
  dst : Side
  n : Nat
  half : Nat
  pub : Option (Nat × W32)
  deriving DecidableEq, Repr

/-- An operation whose descriptors have been read and whose addresses are translated (R92): its moves, its status so far (R97), the
bytes its count word holds, the versions it publishes, as (version set, version), and the bytes it has moved. -/
structure Plan where
  moves : List Move'
  status : W16
  count : Nat
  pubs : List (Nat × W32)
  moved : Nat
  deriving DecidableEq, Repr

/-- A receiver of a COPYM (R102), and what of its payload is still to be written. -/
structure Receiver where
  rctl : W64
  rdst : W64
  rstamp : W64
  acked : Bool
  rest : List Run
  deriving DecidableEq, Repr

/-- The copy engine's operations in flight. -/
inductive EngineKind where
  /-- Copy n of the workgroup: its slices (R90), and its plan once it has started. -/
  | copy (n : Nat) (slices : List Slice) (plan : Option Plan)
  /-- COPYM: slice, its receivers and payload once it has been sent (R103), its status and count. -/
  | copym (slice : Slice) (recvs : List Receiver) (sent : Option (List Run)) (status : W16) (count : Nat)
  /-- STASH: the bytes still to be written by destination kind (R104) and address, how many have been, the error its descriptor has, and
  the privilege of its band. -/
  | stash (writes : List (Nat × W64 × List Byte)) (moved err : Nat) (priv : Bool)
  /-- STGLD: command, drive, first block and blocks, the buffer's address and the physical address of each 4 KiB piece it meets, the
  error found at issue; queue pair, buffer slot, command number and time of submission (R107 to R109, R396). -/
  | storage (cmd drive : Nat) (slba : W64) (nlb : Nat) (buf : W64) (pages : List Nat) (err : Nat) (qp : Nat)
      (live : Option (Nat × Nat × Nat))
  deriving DecidableEq, Repr

/-- A bucket descriptor (R274). -/
structure Bucket where
  bid : Nat
  stepn : W32
  count : Nat
  quorum : Nat
  src : W64
  dst : W64
  recVa : W64
  timer : Nat
  pgrp : Nat
  fmt : Nat
  ofmt : Nat
  normg : Nat
  deriving DecidableEq, Repr

/-- An atom of a contribution as the Flume has read it (R137): its number from SRC on, its bytes, and whether it was damaged (R274). -/
structure SrcAtom where
  at_ : Nat
  data : BitVec 256
  bad : Bool
  deriving DecidableEq, Repr

/-- A CRS in a Flume (R274): the rank, the bucket, the owner of each 4 KiB page of its result image in order (R348), the owners that have
classed its contribution, those that it reaches round a ring with the blocks it has joined (R354), its status so far, whether its close
record has been written, and the atoms of SRC read so far. -/
structure CrsOp where
  rank : Nat
  b : Bucket
  owners : List Nat
  acked : List Nat
  ring : List Nat
  joined : List (Nat × Nat)
  status : W16
  closed : Bool
  read : List SrcAtom
  deriving DecidableEq, Repr

/-- A B-stage quarter: block registers and v63 as latched, and the scale select (R247). -/
structure Quarter where
  q : Nat
  regs : List VReg
  scales : VReg
  sel : Bool
  deriving DecidableEq, Repr

/-- A generation buffer of the B stage (R245): the number it became current under, its format and quarters. -/
structure BBuf where
  gen : Nat
  fmt : Nat
  quarters : List Quarter
  deriving DecidableEq, Repr

/-- Operations in flight (R112, R170). -/
inductive OpKind where
  | load (x : Access)
  | store (x : Access)
  | atomic (k : AtomKind) (x : Access) (lanes : List AtomLane) (sat : Bool) (fps : BitVec 6)
  /-- A typed-space load performed at issue (R80), whose data is still to be written. -/
  | localLoad (dest : Dest) (val : ArithVal)
  | arith (dest : Dest) (val : ArithVal) (fps : BitVec 6)
  /-- A store of STM (R203): target core, slot, and the bytes still to be performed by their offsets. -/
  | stm (core slot : Nat) (cells : List (Nat × Byte))
  /-- TLBI: descriptor, the frames that the entries it removed map (address, bytes), and the number below which operations were before it. -/
  | tlbi (desc : W64) (frames : List (Nat × Nat)) (below : Nat)
  | relrg (core : Nat) (pbase len : Nat) (dest : Dest)
  | engine (k : EngineKind) (stamp : Option StampSpec)
  /-- An MMA (R252): batch, the generation it is bound to, operand offsets, scales of v62, flags and the attempt of R255; the bytes of its
  A tile that it has read, by offset, and the elements of C that it has written (R254). -/
  | mma (batch : Nat) (buf : BBuf) (a c : Nat) (scales : VReg) (sel zero : Bool) (rerun : Bool) (got : List (Nat × Byte)) (put : List Nat)
  | crs (c : CrsOp)
  /-- CSCAL (R276): rank, descriptor bytes, value, submission time, whether it has reached the closer,
  and whether the closer has dropped it as late (R418). -/
  | cscal (rank : Nat) (stepn : W32) (opc typ pgrp quorum timer : Nat) (recVa : W64) (value : W64) (at_ : Nat) (delivered late : Bool)
  /-- CAG (R277): rank, version, group, chunks, source, destination, record; chunks delivered here, pages opened here and not closed;
  devices that have ended, the first refusal of a page here, the status so far. -/
  | cag (rank : Nat) (ver : W32) (pgrp : Nat) (nchk : Nat) (src dst recVa : W64) (delivered pages : List Nat)
      (ended : List (Nat × CagOutcome)) (refused : Option (BitVec 2)) (status : W16)
  deriving DecidableEq, Repr

/-- A COPYM of another device whose receivers here have taken part (R102, R103): the device, its operation there, the launch of this device,
the privilege it translates with, and its receivers here. `uid` marks its locks. -/
structure Inbound where
  uid : Nat
  dev : Nat
  tag : Nat
  launch : Nat
  priv : Bool
  lo : Int
  n : Nat
  recvs : List Receiver
  deriving DecidableEq, Repr

structure Op where
  uid : Nat
  launch : Nat
  wg : Nat
  band : Nat
  place : Place
  /-- The run of its launch that it belongs to (R382). -/
  run : Nat
  /-- The flag that counts it (R170), until it completes. -/
  flag : Option Nat
  kind : OpKind
  deriving DecidableEq, Repr

/-! ## Workgroups, templates and launches -/

/-- An arrival at a barrier instance (R281, R83): the instance's deadline and the positions that have arrived. -/
structure BarInst where
  b : Nat
  deadline : Option Nat
  arrived : List Nat
  deriving DecidableEq, Repr

/-- An overlay line of an item (R164): the band, the region line and its bytes' line in the pool. -/
structure Overlay where
  band : Nat
  line : Nat
  slot : Nat
  deriving DecidableEq, Repr

/-- A nested item to be stamped (R333). -/
structure Nested where
  image : Nat
  ppos : Nat
  itemidx : Nat
  xidx : W32
  deriving DecidableEq, Repr

structure Workgroup where
  uid : Nat
  launch : Nat
  /-- Its number among the launch's workgroups (R321), or the template instance's number. -/
  idx : Nat
  template : Bool
  run : Nat
  core : Nat
  slot : Nat
  ctx : Nat
  resident : Bool
  /-- Saved by a pre-emption: the places its bands return to. -/
  saved : List Band
  half : Bool
  current : Option BBuf
  filling : BBuf
  bars : List BarInst
  overlays : List Overlay
  nested : List Nested
  /-- Its bands have been made; until then it is only assigned to its core (R333). `places` are its bands' slots by position. -/
  stamped : Bool
  places : List Place
  /-- Band-slot cycles of its bands that have ended (R331). -/
  spent : Nat
  /-- Tokens to acquire again at resumption (R87), and the free counter with which the areas of open layout were saved (log 20). -/
  tokens : List Token
  savedCtr : Nat
  placedAt : Nat
  preempting : Bool
  /-- Whose host pre-emption keeps its placement (R340). -/
  fixed : Bool
  /-- All its bands have ended; the record stands while its launch does. `exits` holds the copy counts of the bands that ended (R90). -/
  exited : Bool
  exits : List Nat
  deriving DecidableEq, Repr

/-- A template image (R161): the rename map, registers, mode, signature, region bytes and B stage. -/
structure Image where
  uid : Nat
  launch : Nat
  inst : Nat
  /-- The band that was captured, the quadrants that hold its items, and whether items remain to be stamped (R333). -/
  band : Nat
  quads : List Nat
  keep : Bool
  run : Nat
  depth : Nat
  v : Vector VName 64
  s : Vector SName 64
  o : Vector VReg 8
  a : Vector W64 16
  b : Vector (W64 × W64) 8
  m : Vector W32 16
  mode : W32
  sig : W32
  next : W64
  region : List Byte
  current : Option BBuf
  filling : BBuf
  /-- Cores that have acknowledged it (R333), and cores whose template save area holds its registers, with the place there (R338). -/
  acked : List Nat
  savedOn : List (Nat × Nat)
  deriving DecidableEq, Repr

/-- A dependence as it waits (R329): the word's physical address, its condition, and whether a write has met it. -/
structure DepWait where
  pa : Nat
  cond : Nat
  e : W64
  met : Bool
  deriving DecidableEq, Repr

/-- A level of a launch (R319). -/
structure Level where
  count : Nat
  dom : Nat
  scope : Nat
  deriving DecidableEq, Repr

/-- A dependence word (R329). -/
structure Dep where
  en : Bool
  cond : Nat
  va : W64
  e : W64
  deriving DecidableEq, Repr

/-- A launch record (R325). -/
structure LaunchRec where
  prog : W64
  lid : W32
  wrld : Bool
  migr : Bool
  mirr : Bool
  mdom : Bool
  rply : Nat
  redn : Nat
  serial : Bool
  priv : Bool
  carve : Nat
  copies : Nat
  frz : Nat
  prio : Nat
  queue : Nat
  treg : Nat
  regs : Nat
  nctx : Nat
  vwait : Nat
  spillb : W64
  spillsz : Nat
  nest1 : Nat
  nest2 : Nat
  ctxb : W64
  pgt : W64
  rlog : W64
  rlogn : Nat
  wset : W64
  seed : W64
  cstamp : W64
  cseq : BitVec 48
  dep0 : Dep
  dep1 : Dep
  levels : List Level
  deriving DecidableEq, Repr

/-- A group of the process-group table (R323). -/
structure PGroup where
  first : Nat
  stride : Nat
  count : Nat
  lead : Nat
  deriving DecidableEq, Repr

structure PGTable where
  ndev : Nat
  rpd : Nat
  groups : List PGroup
  devs : List Nat
  /-- The device's own list position (R324). -/
  here : Nat
  deriving DecidableEq, Repr

/-- Life of a launch (R329, R377): read and waiting for its dependences, active, stopping to be killed. -/
inductive LPhase where
  | waiting
  | active
  | killing
  deriving DecidableEq, Repr

/-- A granule of a write set (R379, R382): its address, the run it belongs to, whether it is armed, and the pool frame used. -/
structure Granule where
  pa : Nat
  run : Nat
  armed : Bool
  frame : Option Nat
  deriving DecidableEq, Repr

/-- What a scalar slot of a quadrant is kept for where no name of a band has it (R142, R145, R163): a result in flight, or a shared
register of an image. -/
inductive SlotUse where
  | result (t : Tag)
  | shared (img reg : Nat)
  deriving DecidableEq, Repr

structure HeldSlot where
  core : Nat
  quad : Nat
  slot : Nat
  use : SlotUse
  deriving DecidableEq, Repr

structure Launch where
  uid : Nat
  queue : Nat
  lr : LaunchRec
  root : W64
  pg : Option PGTable
  phase : LPhase
  activatedAt : Nat
  /-- FSUM (R344), status to report, code of the first trap that killed it, whether every killing fault is replayable. -/
  fsum : W16
  status : Byte
  trapCode : Byte
  replayable : Bool
  replays : Nat
  charged : Nat
  wgRun : Nat
  /-- Workgroups placed, with their run (R332, R382), and template instances placed. -/
  placed : List (Nat × Nat)
  tplPlaced : List (Nat × Nat)
  /-- Instances whose template ended without an image (R333). -/
  barren : List (Nat × Nat)
  ctxUsed : List Nat
  /-- Band-slot cycles of template bands, by instance, not yet charged (R331). -/
  tplTime : List (Nat × Nat)
  logn : Nat
  order : List (Nat × Nat)
  granules : List Granule
  poolBase : Nat
  poolNext : Nat
  poolN : Nat
  /-- How many runs it has: 1 but for redundant runs; the cores each has used (R382, R383). -/
  runs : Nat
  runCores : List (Nat × Nat)
  deps : List DepWait
  /-- CRSs submitted: rank, group, bucket and step (R274). -/
  crsDone : List (Nat × Nat × Nat × W32)
  /-- The queue's launch that SERIAL waits for (R329), and the kills decided and not yet carried out (R376). -/
  after : Option Nat
  kills : List KillCause
  /-- How many of them LAUNCH_KILL has entered. -/
  killed : Nat
  /-- RELMODE.HRPLY as the fault that kills it was raised (R391); none until one is. -/
  assisted : Option Bool
  deriving DecidableEq, Repr

/-! ## Queues, event ring, collectives, Weir -/

/-- A completion record (R344) waiting to be written: class, queue, launch identifier, COUNT, FSUM and DETAIL. -/
structure Event where
  cls : Byte
  queue : Nat
  lid : W32
  count : W16
  fsum : W16
  detail : BitVec 128
  deriving DecidableEq, Repr

/-- A contribution an owner has folded in (R349, R354): rank, weight (2 on time, 1 late), its elements. -/
structure Contribution where
  rank : Nat
  weight : Nat
  elems : List Elem
  deriving DecidableEq, Repr

/-- An accumulator (R349): element, X320 value and side bits. -/
structure SumAcc where
  idx : Nat
  val : Int
  side : BitVec 4
  deriving DecidableEq, Repr

/-- What the first arrival fixes of a step at an owner (R349). -/
structure StepFields where
  count : Nat
  fmt : Nat
  ofmt : Nat
  quorum : Nat
  timer : Nat
  normg : Nat
  dst : Nat
  deriving DecidableEq, Repr

/-- A partial sum that came round a ring (R354): the ranks folded in, all on time, and their weighted images. -/
structure RingSum where
  ranks : List Nat
  accs : List SumAcc
  deriving DecidableEq, Repr

/-- A block of a ring's partial sum that waits for the other blocks of its owner (R354), the weight of its contributions; without
accumulators where it found no room (R347). -/
structure RingPart where
  key : StepKey
  owner : Nat
  fx : StepFields
  block : Nat
  weight : Nat
  sum : RingSum
  checksum : W64
  deriving DecidableEq, Repr

/-- An open step at an owner (R349 to R351). -/
structure Reduction where
  key : StepKey
  owner : Nat
  fx : StepFields
  accs : List SumAcc
  checksum : W64
  kept : List Contribution
  rings : List RingSum
  deadline : Nat
  expired : Bool
  deriving DecidableEq, Repr

/-- The remembered close of a step (R350, R351): its fields, counts and status bits. -/
structure Closed where
  key : StepKey
  owner : Nat
  fx : StepFields
  non : Nat
  nlate : Nat
  ndrop : Nat
  status : W16
  deriving DecidableEq, Repr

/-- Drops counted since the previous close of a bucket at an owner (R351). -/
structure Drops where
  lid : Nat
  pgrp : Nat
  bid : Nat
  owner : Nat
  n : Nat
  deriving DecidableEq, Repr

/-- A contribution that a scalar step holds: who made it, by device and operation there. -/
structure ScalarVal where
  rank : Nat
  dev : Nat
  tag : Nat
  value : W64
  deriving DecidableEq, Repr

/-- A scalar step at the closer (R356). -/
structure ScalarStep where
  lid : Nat
  pgrp : Nat
  step : W32
  opc : Nat
  typ : Nat
  quorum : Nat
  timer : Nat
  deadline : Nat
  expired : Bool
  vals : List ScalarVal
  ndrop : Nat
  closed : Bool
  status : W16
  result : W64
  deriving DecidableEq, Repr

/-- A norm partial (R357): the sum of this device's owners, and the partials received from devices. -/
structure Norm where
  lid : Nat
  pgrp : Nat
  step : W32
  j : Nat
  own : Int
  side : BitVec 4
  sent : Bool
  got : List NormMsg
  closed : Bool
  deriving DecidableEq, Repr

/-- A rank or pod entry of a Weir group (R360). -/
structure WeirEntry where
  who : Nat
  isPod : Bool
  step : W32
  silent : Bool
  heard : Nat
  /-- Its silence has been reported to the host (HOSTS). -/
  asked : Bool
  /-- How many STEPs a rank of this device has taken (R278); its step is that number modulo 2^32. -/
  taken : Nat
  deriving DecidableEq, Repr

structure WeirGroup where
  lid : Nat
  lead : Nat
  entries : List WeirEntry
  beatAt : Nat
  deriving DecidableEq, Repr

/-- A message for a launch that is not active yet (R418). -/
inductive HeldMsg where
  | contribution (owner : Nat) (m : ContribMsg)
  | scalar (m : ScalarMsg)
  | weirStep (lid rank : Nat) (step : W32)
  | podSummary (lid pod : Nat) (step : W32)
  | norm (m : NormMsg)
  | ring (m : RingMsg)
  deriving DecidableEq, Repr

structure Held where
  arrived : Nat
  msg : HeldMsg
  deriving DecidableEq, Repr

/-- Versions and values of a g register's slot (R141). -/
structure GSlot where
  ver : W32
  val : Int
  side : BitVec 4
  deriving DecidableEq, Repr

structure GReg where
  j : Nat
  s0 : Option GSlot
  s1 : Option GSlot
  deriving DecidableEq, Repr

/-- What the package sends to the outside world (DESIGN CHOICE, log 10). -/
inductive Sent where
  /-- A posted PCIe write (R397, R402, R403). -/
  | pcieWrite (addr : W64) (bytes : List Byte)
  | pcieRead (addr : W64) (size : Nat)
  /-- A completion of a PCIe read request (R395, R396); none is Unsupported Request. -/
  | pcieData (value : Option Nat)
  | interrupt (vector : Nat)
  | contribution (rank : Nat) (m : ContribMsg)
  | ring (m : RingMsg)
  | scalar (m : ScalarMsg)
  | scalarResult (dev : Nat) (r : ScalarResult)
  | ack (rank : Nat) (key : StepKey) (cls : AckClass)
  | norm (dev : Nat) (m : NormMsg)
  | weirStep (dev : Nat) (lid rank : Nat) (step : W32)
  | podSummary (dev : Nat) (lid pod : Nat) (step : W32)
  | cagChunk (dev : Nat) (m : CagSrc)
  /-- What a COPYM sends to a device (R102): the list entry's words and the payload. -/
  | copymPayload (dev : Nat) (rctl rdst rstamp : W64) (runs : List Run) (seq : BitVec 48) (status : W16)
  /-- A receiver here has taken its payload, or could not: the engine error code, 0 for none. -/
  | copymAck (dev tag idx code : Nat)
  /-- How this device's deliveries of another device's CAG ended (R277). -/
  | cagDone (dev tag : Nat) (out : CagOutcome)
  | powerOff
  deriving DecidableEq, Repr

/-- A queue pair of the storage table as the part tracks it (R107, R109): tail, head and phase. -/
structure QPair where
  qp : Nat
  tail : Nat
  head : Nat
  phase : Bool
  deriving DecidableEq, Repr

/-- The cycle of a latch, and the launch and queue that its event names (R388, R393). -/
structure SnapLatch where
  cycle : Nat
  lid : W32
  queue : Nat
  deriving DecidableEq, Repr

/-- A block record latched by a snapshot (R388). -/
structure SnapBlock where
  typ : W16
  inst : W16
  words : List W64
  deriving DecidableEq, Repr

/-- Whether and what is asked of Flaell in the mailbox (R407). -/
inductive Attest where
  | idle
  | pending (nonce : BitVec 384)
  deriving DecidableEq, Repr

/-- What moves next (DESIGN CHOICE, log 1), after so many further cycles: a band issues, an event of the opcode table comes about, or
errors arise: `strike` in a symbol of an atom (R46), `upset` in a bit of the shadow unit that forms a mask register's value in the issue
or the event that follows (R386); or an engine or an array performs a part of an operation before its end: `n` bytes from `lo` of its
i-th move or piece (R133), of an A tile (0) or elements of C (1) (R254). -/
inductive Move where
  | issue (p : Place)
  | event (i : Instr)
  | strike (atom sym : Nat) (err : Byte)
  | upsetIssue (p : Place) (err : W32)
  | upsetEvent (i : Instr) (err : W32)
  | part (op i lo n : Nat)
  deriving DecidableEq, Repr

structure Turn where
  elapsed : Nat
  move : Move
  deriving DecidableEq, Repr

/-- The package. -/
structure State where
  cycle : Nat
  /-- Bytes of physical memory (R39), canonical: see Machine/Mem. -/
  mem : List Host.Cell
  /-- Atoms whose POISON bit is set (R46), ascending. -/
  poison : List Nat
  /-- Erroneous symbols of atoms (R46). -/
  errs : List SymErr
  /-- Atoms that hold ciphertext and their half of its tag under the keys in force (R48), ascending; `mem` holds their plaintext. -/
  sealed : List Nat
  /-- Which keys are in force (R48). -/
  keyGen : Nat
  /-- Bytes of the local stores (R75): key core × 2^21 + bank × 2^16 + byte. -/
  ls : List Host.Cell
  /-- Device registers that differ from their reset value, by offset in the device-register range (R398). -/
  regs : List (Nat × W64)
  /-- Boot mailbox bytes (R398, R406). -/
  mailbox : List Host.Cell
  /-- The BAR registers BAR0 to BAR5 of configuration space (R395). -/
  bars : Vector W32 6
  /-- Writes to device registers by engines and records, each with its world, that reach them before the next move (R398; log 39). -/
  posted : List (List (Nat × Byte) × Bool)
  /-- Messages that the links have brought in (R408). -/
  carried : Nat
  tlb : List TlbEntry
  wcache : List WalkEntry
  l1 : List L1Line
  /-- sc clocks of cores and of channels (R124) that are not zero. -/
  scClock : List (Nat × W64)
  chClock : List (Nat × W64)
  tokens : List Token
  locks : List Lock
  /-- Receive flags that are set (R103): (core, flag). -/
  rflags : List (Nat × Nat)
  inbound : List Inbound
  gregs : List GReg
  watches : List Watch
  celog : List CeLog
  pubs : List Publication
  /-- CAGs of other devices that have delivered here (R277). -/
  cagsIn : List CagIn
  /-- Advances that have started and not completed (R66). -/
  advances : List Advance
  bands : List Band
  wgs : List Workgroup
  images : List Image
  launches : List Launch
  /-- Launch identifiers with a table that have completed here (R418). -/
  pastLids : List Nat
  ops : List Op
  /-- Event buffer of 256 records, completions that wait for room, GAP, and when each unread record was written, the oldest first;
  none for one that has raised the interrupt by waiting CTIME (R345). -/
  evBuf : List Event
  evHeld : List Event
  evGap : Bool
  evTimes : List (Option Nat)
  sent : List Sent
  msixPending : BitVec 4
  /-- The launch of the record read last from each queue (R329). -/
  lastRead : List (Nat × Nat)
  /-- Queue served last at each priority's round (R331). -/
  rrQueue : Nat
  qpairs : List QPair
  rrPair : List (Nat × Nat)
  snap : List SnapBlock
  snapping : Bool
  /-- The latest latch (R388). -/
  snapAt : Option SnapLatch
  /-- A host command being performed (R400): operation code. -/
  hcmd : Option Nat
  /-- Records of queues, by index, that the host has cancelled before they are read (R330). -/
  cancels : List (Nat × Nat)
  attest : Attest
  reductions : List Reduction
  ringParts : List RingPart
  closed : List Closed
  drops : List Drops
  scalars : List ScalarStep
  norms : List Norm
  /-- Steps whose step-closed point a rank group has reached (R353). -/
  stepClosed : List (Nat × Nat × W32)
  /-- Buckets closed here as owner whose step has not reached its step-closed point (R353, R365). -/
  closedHere : List StepKey
  heldMsgs : List Held
  weir : List WeirGroup
  /-- Endpoint entries read since the last write of UEPTAB (R404): device, and whether the entry is valid. -/
  endpoints : List (Nat × Bool)
  /-- The error in what the shadow unit forms in this step (R386); zero where there is none. -/
  upset : W32
  /-- R142: scalar slots that results in flight and shared registers keep. -/
  heldSlots : List HeldSlot
  /-- R335: the slot that each quadrant issued last, as (4 × core + quadrant, slot). -/
  lastIssued : List (Nat × Nat)
  /-- R154: the cycle in which each quadrant issued last; none listed, none since reset. -/
  issuedAt : List (Nat × Nat)
  /-- R134: where records of completion have been asked for or written, by the physical address of each. -/
  records : List Nat
  /-- Model's own: numbering of operations, counter of the free values, an unpopulated address that was reached, whose word
  issues in this step, and the agenda. -/
  nextUid : Nat
  freeCtr : Nat
  stray : Option Nat
  cur : Place
  agenda : List Turn
  deriving DecidableEq, Repr

/-- Why the machine stops. -/
inductive Fault where
  /-- R39: an address in no populated range was reached without translation (a register or record of system software names it).
  Raised by `step` when `State.stray` is set. Safe: the spec gives such an access no effect, and the machine stops there (DEDUCED, log 4). -/
  | unpopulated (pa : Nat)
  deriving DecidableEq, Repr

/-- Why there is no meaning. -/
inductive Refusal where
  /-- An instruction this model has not reached: raised by Dispatch only. Safe: nothing can be proved of its effect. -/
  | notModelled (mnemonic : String)
  deriving DecidableEq, Repr

def Place.origin : Place := ⟨0, 0, 0⟩

/-- The machine after reset: registers at the reset values of their field maps (an empty `regs`), g registers and sc clocks clear
(R358, R124), nothing launched; memory, local stores and the tables the spec gives no reset for hold nothing (DESIGN CHOICE, log 3). -/
def State.reset : State where
  cycle := 0
  mem := []
  poison := []
  errs := []
  sealed := []
  keyGen := 0
  ls := []
  regs := []
  mailbox := []
  bars := Vector.replicate 6 0
  posted := []
  carried := 0
  tlb := []
  wcache := []
  l1 := []
  scClock := []
  chClock := []
  tokens := []
  locks := []
  rflags := []
  inbound := []
  gregs := []
  watches := []
  celog := []
  pubs := []
  cagsIn := []
  advances := []
  bands := []
  wgs := []
  images := []
  launches := []
  pastLids := []
  ops := []
  evBuf := []
  evHeld := []
  evGap := false
  evTimes := []
  sent := []
  msixPending := 0
  lastRead := []
  rrQueue := 0
  qpairs := []
  rrPair := []
  snap := []
  snapping := false
  snapAt := none
  hcmd := none
  cancels := []
  attest := .idle
  reductions := []
  ringParts := []
  closed := []
  drops := []
  scalars := []
  norms := []
  stepClosed := []
  closedHere := []
  heldMsgs := []
  weir := []
  endpoints := []
  upset := 0
  nextUid := 0
  freeCtr := 0
  lastIssued := []
  issuedAt := []
  records := []
  heldSlots := []
  stray := none
  cur := ⟨0, 0, 0⟩
  agenda := []

end Sys2Proof.Machine
end

