-- ==== Sys2Proof/Machine/Mem.lean ====
section
/-! DEFINITION. Bytes held as canonical lists of cells, byte order (R2), and the ranges of the physical address space (R39). -/

namespace Sys2Proof.Machine

/-- The byte at an address; an address with no cell reads as zero (DESIGN CHOICE, log 3). -/
def Mem.get : List Host.Cell → Nat → Byte
  | [], _ => 0
  | (k, b) :: t, a => if k = a then b else Mem.get t a

/-- One byte written; the canonical form (addresses rising, no zero byte listed) is kept. -/
def Mem.set : List Host.Cell → Nat → Byte → List Host.Cell
  | [], a, b => if b = 0 then [] else [(a, b)]
  | (k, x) :: t, a, b =>
    if k < a then (k, x) :: Mem.set t a b
    else if k = a then (if b = 0 then t else (a, b) :: t)
    else if b = 0 then (k, x) :: t
    else (a, b) :: (k, x) :: t

/-- Every cell lies above `lo` and holds no zero byte, and the addresses rise. -/
def Mem.above : Nat → List Host.Cell → Bool
  | _, [] => true
  | lo, (k, b) :: t => decide (lo ≤ k) && (b != 0) && Mem.above (k + 1) t

/-- The canonical form of a memory. -/
def Mem.wf (m : List Host.Cell) : Bool := Mem.above 0 m

/-- `n` bytes from `a`, as a little-endian number (R2). -/
def Mem.read (m : List Host.Cell) (a : Nat) : Nat → Nat
  | 0 => 0
  | n + 1 => (Mem.get m a).toNat + 256 * Mem.read m (a + 1) n

/-- `n` bytes at `a` from a little-endian number. -/
def Mem.write (m : List Host.Cell) (a : Nat) : Nat → Nat → List Host.Cell
  | 0, _ => m
  | n + 1, x => Mem.write (Mem.set m a (BitVec.ofNat 8 x)) (a + 1) n (x / 256)

/-- A list of bytes written from `a` upwards. -/
def Mem.writeBytes (m : List Host.Cell) (a : Nat) : List Byte → List Host.Cell
  | [] => m
  | b :: bs => Mem.writeBytes (Mem.set m a b) (a + 1) bs

/-- `n` bytes from `a` as a list. -/
def Mem.bytes (m : List Host.Cell) (a n : Nat) : List Byte := (List.range n).map fun i => Mem.get m (a + i)

/-- Byte i of a little-endian number. -/
def byteOf (x i : Nat) : Byte := BitVec.ofNat 8 (x / 256 ^ i)

/-- A little-endian number from its bytes. -/
def leNat : List Byte → Nat
  | [] => 0
  | b :: bs => b.toNat + 256 * leNat bs

/-- Canonical numeric sets: strictly rising lists. -/
def insertAsc : List Nat → Nat → List Nat
  | [], x => [x]
  | y :: t, x => if y < x then y :: insertAsc t x else if y = x then y :: t else x :: y :: t

/-- The numbers of a list, each once, rising. -/
def dedup (l : List Nat) : List Nat := l.foldl insertAsc []

/-- The kinds of physical address (R39). -/
inductive PhysKind where
  | ram
  | aperture
  | device
  | host
  | hole
  deriving DecidableEq, Repr

def apertureBase : Nat := 0x200000000000
def deviceBase : Nat := 0x300000000000
def hostBase : Nat := 0x8000000000000
def ddrBase : Nat := 0x100000000000

/-- R39, R40, R41: what lies at a physical address, with `hbm` HBM channels in service and `ddrMiB` MiB of DDR-5 populated. -/
def physKind (hbm ddrMiB pa : Nat) : PhysKind :=
  if pa / 2 ^ 31 < hbm then .ram
  else if ddrBase ≤ pa ∧ pa / 2 ^ 20 < ddrBase / 2 ^ 20 + ddrMiB then .ram
  else if apertureBase ≤ pa ∧ pa < apertureBase + 2 ^ 40 then .aperture
  else if deviceBase ≤ pa ∧ pa < deviceBase + 2 ^ 32 then .device
  else if hostBase ≤ pa ∧ pa < 2 ^ 52 then .host
  else .hole

/-- R40: the dense channel of an HBM address, with C channels in service, and its offset within the channel. -/
def hbmChannel (c pa : Nat) : Nat × Nat :=
  let g := pa / 256
  let q := g / c
  let m := g % c
  let h := (q % 128) ^^^ (q / 2 ^ 7 % 128) ^^^ (q / 2 ^ 14 % 128) ^^^ (q / 2 ^ 21 % 4)
  ((m + 3 * h) % c, q * 256 + pa % 256)

/-- R41: the channel of a DDR-5 address, with C channels in service, and its offset within the channel. -/
def ddrChannel (c pa : Nat) : Nat × Nat :=
  let g := (pa - ddrBase) / 4096
  (g % c, g / c * 4096 + pa % 4096)

/-- R77: bank and byte of core offset `co` in a role of `n` banks starting at bank `first`. -/
def bankOf (first n co : Nat) : Nat × Nat :=
  let line := co / 128
  (first + line % n, line / n * 128 + co % 128)

end Sys2Proof.Machine
end

