-- ==== Sys2Proof/Machine/Crypto.lean ====
section
/-! DEFINITION. The ciphers that R48 names: AES-256, its XTS mode over a sector of 64 bytes, and GMAC; and what R407 names: SHA-384 and
ECDSA over P-384. Blocks are lists of bytes, the byte at the lowest address first. -/

namespace Sys2Proof.Machine

/-! ## AES-256 -/

/-- Doubling in GF(2^8) modulo x^8 + x^4 + x^3 + x + 1. -/
def aesDouble (x : Byte) : Byte := (x <<< 1) ^^^ (if x.getLsbD 7 then 0x1B else 0)

/-- The product of two bytes there; the fuel counts the bits of the second. -/
def aesMulBits : Nat → Byte → Byte → Byte
  | 0, _, _ => 0
  | n + 1, x, y => (if y.getLsbD 0 then x else 0) ^^^ aesMulBits n (aesDouble x) (y >>> 1)

def aesMul (x y : Byte) : Byte := aesMulBits 8 x y

/-- The inverse of a byte, zero for zero: its 254th power. -/
def aesInv (x : Byte) : Byte :=
  let p2 := aesMul x x
  let p3 := aesMul p2 x
  let p12 := let p6 := aesMul p3 p3; aesMul p6 p6
  let p15 := aesMul p12 p3
  let p240 := let a := aesMul p15 p15; let b := aesMul a a; let c := aesMul b b; aesMul c c
  aesMul (aesMul p240 p12) p2

def aesSub (x : Byte) : Byte :=
  let y := aesInv x
  y ^^^ y.rotateLeft 1 ^^^ y.rotateLeft 2 ^^^ y.rotateLeft 3 ^^^ y.rotateLeft 4 ^^^ 0x63

def aesUnsub (x : Byte) : Byte := aesInv (x.rotateLeft 1 ^^^ x.rotateLeft 3 ^^^ x.rotateLeft 6 ^^^ 0x05)

def xorBytes (x y : List Byte) : List Byte := List.zipWith (· ^^^ ·) x y

/-- The byte that row r of column c takes from a block whose rows are shifted by `k` columns each. -/
def aesShift (k : Nat) (x : List Byte) : List Byte := (List.range 16).map fun i => x.getD (i % 4 + 4 * ((i / 4 + k * (i % 4)) % 4)) 0

/-- A column multiplied by a circulant matrix of first row `m`. -/
def aesMix (m : List Byte) (x : List Byte) : List Byte :=
  (List.range 16).map fun i =>
    (List.range 4).foldl (fun a k => a ^^^ aesMul (x.getD (i / 4 * 4 + k) 0) (m.getD ((k + 4 - i % 4) % 4) 0)) 0

/-- The 60 words of the key schedule, the last first. -/
def aesWords (key : List Byte) : Nat → List (List Byte)
  | 0 => []
  | n + 1 =>
    let ws := aesWords key n
    let w :=
      if n < 8 then (key.drop (4 * n)).take 4
      else
        let t := ws.headD []
        let t := if n % 8 = 0 then
            let r := (t.drop 1 ++ t.take 1).map aesSub
            xorBytes r [(0x01 : Byte) <<< (n / 8 - 1), 0, 0, 0]
          else if n % 8 = 4 then t.map aesSub else t
        xorBytes (ws.getD 7 []) t
    w :: ws

/-- The round keys, that of the first addition first. -/
def aesKeys (key : List Byte) : List (List Byte) :=
  let ws := (aesWords key 60).reverse
  (List.range 15).map fun r => ((ws.drop (4 * r)).take 4).flatten

def aesRounds : List (List Byte) → List Byte → List Byte
  | [], x => x
  | [k], x => xorBytes (aesShift 1 (x.map aesSub)) k
  | k :: ks, x => aesRounds ks (xorBytes (aesMix [2, 3, 1, 1] (aesShift 1 (x.map aesSub))) k)

def aesUnrounds : List (List Byte) → List Byte → List Byte
  | [], x => x
  | k :: ks, x =>
    let y := aesUnrounds ks x
    let y := xorBytes y k
    (aesShift 3 (if ks = [] then y else aesMix [14, 11, 13, 9] y)).map aesUnsub

/-- AES-256 of a block. -/
def aesEncrypt (key x : List Byte) : List Byte :=
  match aesKeys key with
  | k :: ks => aesRounds ks (xorBytes x k)
  | [] => x

def aesDecrypt (key x : List Byte) : List Byte :=
  match aesKeys key with
  | k :: ks => xorBytes (aesUnrounds ks x) k
  | [] => x

/-! ## XTS over a sector -/

/-- A block as a little-endian number, and back. -/
def blockBytes (x : Nat) : List Byte := (List.range 16).map (byteOf x)

/-- The mask of block j of a sector: its number encrypted, times x to the j in GF(2^128). -/
def xtsMask (key2 : List Byte) (sector : Nat) : Nat → Nat
  | 0 => leNat (aesEncrypt key2 (blockBytes sector))
  | j + 1 =>
    let t := xtsMask key2 sector j
    if 2 ^ 127 ≤ t then (2 * t - 2 ^ 128) ^^^ 0x87 else 2 * t

/-- Block j of sector number `sector`, its plaintext encrypted or its ciphertext decrypted under the two keys. -/
def xtsBlock (cipher : List Byte → List Byte → List Byte) (key1 key2 : List Byte) (sector j : Nat) (x : List Byte) : List Byte :=
  let t := blockBytes (xtsMask key2 sector j)
  xorBytes (cipher key1 (xorBytes x t)) t

/-! ## GMAC -/

/-- A block as GHASH reads it: the first bit of the first byte is the coefficient of x^0, here the number's top bit. -/
def beNat (x : List Byte) : Nat := x.foldl (fun a b => 256 * a + b.toNat) 0

/-- The product in GF(2^128) as GHASH orders its bits; `n` bits of the first factor are left, the highest of them next. -/
def ghashMul : Nat → Nat → Nat → Nat → Nat
  | 0, _, _, z => z
  | n + 1, x, v, z =>
    ghashMul n x (if v % 2 = 1 then (v / 2) ^^^ (0xE1 * 2 ^ 120) else v / 2) (if x / 2 ^ n % 2 = 1 then z ^^^ v else z)

/-- GHASH of authenticated data alone, whole blocks of it, under the hash key. -/
def ghash (h : Nat) (blocks : List (List Byte)) (bits : Nat) : Nat :=
  (blocks.map beNat ++ [bits * 2 ^ 64]).foldl (fun y x => ghashMul 128 (y ^^^ x) h 0) 0

/-- GMAC of data of whole blocks under a key and a 96-bit initialisation vector, the first byte of the tag highest. -/
def gmac (key : List Byte) (iv : Nat) (blocks : List (List Byte)) : Nat :=
  let h := beNat (aesEncrypt key (List.replicate 16 0))
  let j := aesEncrypt key ((List.range 16).map fun i => byteOf (iv * 2 ^ 32 + 1) (15 - i))
  ghash h blocks (128 * blocks.length) ^^^ beNat j

/-! ## SHA-384 -/

/-- The greatest number below 2^b above `a`, a multiple of 2^b, whose k-th power is at most n. -/
def rootBelow (k n : Nat) : Nat → Nat → Nat
  | 0, a => a
  | b + 1, a => rootBelow k n b (if (a + 2 ^ b) ^ k ≤ n then a + 2 ^ b else a)

/-- The first 64 bits of the fractional part of the k-th root of a number below 2^12. -/
def fracRoot (k n : Nat) : W64 := BitVec.ofNat 64 (rootBelow k (n * 2 ^ (64 * k)) 70 0)

/-- The first 80 primes. -/
def primes80 : List Nat := (List.range 410).filter fun n => decide (2 ≤ n) && (List.range n).all fun d => decide (d < 2) || n % d != 0

/-- The constants of the rounds, and the value that a digest starts from. -/
def shaConstants : List W64 := primes80.map (fracRoot 3)
def shaStart : List W64 := ((primes80.drop 8).take 8).map (fracRoot 2)

def shaSigma (a b : Nat) (c x : W64) : W64 := x.rotateRight a ^^^ x.rotateRight b ^^^ c

/-- The first n words of a block's schedule, the last first. -/
def shaWords (block : List W64) : Nat → List W64
  | 0 => []
  | n + 1 =>
    let ws := shaWords block n
    let at_ := fun (k : Nat) => ws.getD k 0
    let w :=
      if n < 16 then block.getD n 0
      else shaSigma 19 61 (at_ 1 >>> 6) (at_ 1) + at_ 6 + shaSigma 1 8 (at_ 14 >>> 7) (at_ 14) + at_ 15
    w :: ws

/-- A round on the words a to h. -/
def shaRound (h : List W64) (kw : W64) : List W64 :=
  match h with
  | [a, b, c, d, e, f, g, h] =>
    let t := h + shaSigma 14 18 (e.rotateRight 41) e + ((e &&& f) ^^^ (~~~ e &&& g)) + kw
    let u := shaSigma 28 34 (a.rotateRight 39) a + ((a &&& b) ^^^ (a &&& c) ^^^ (b &&& c))
    [t + u, a, b, c, d + t, e, f, g]
  | _ => h

def shaBlock (h block : List W64) : List W64 :=
  List.zipWith (· + ·) h ((List.zipWith (· + ·) shaConstants (shaWords block 80).reverse).foldl shaRound h)

/-- Words of 8 bytes, the highest byte first, in blocks of 16. -/
def beWords : Nat → List Byte → List W64
  | 0, _ => []
  | n + 1, bs => BitVec.ofNat 64 (beNat (bs.take 8)) :: beWords n (bs.drop 8)

def blocksOf : Nat → List W64 → List (List W64)
  | 0, _ => []
  | n + 1, ws => ws.take 16 :: blocksOf n (ws.drop 16)

/-- Bytes of a number, the highest first. -/
def beBytes (n x : Nat) : List Byte := ((List.range n).map (byteOf x)).reverse

def sha384 (m : List Byte) : List Byte :=
  let n := (m.length + 17 + 127) / 128
  let p := m ++ [0x80] ++ List.replicate (128 * n - m.length - 17) 0 ++ beBytes 16 (8 * m.length)
  ((((blocksOf n (beWords (16 * n) p)).foldl shaBlock
    (shaStart)).take 6).map fun w => beBytes 8 w.toNat).flatten

/-! ## ECDSA over P-384 -/

def p384 : Nat := 2 ^ 384 - 2 ^ 128 - 2 ^ 96 + 2 ^ 32 - 1
/-- The order of the base point. -/
def p384Order : Nat := 0xffffffffffffffffffffffffffffffffffffffffffffffffc7634d81f4372ddf581a0db248b0a77aecec196accc52973
def p384Base : Nat × Nat :=
  (0xaa87ca22be8b05378eb1c71ef320ad746e1d3b628ba79b9859f741e082542a385502f25dbf55296c3a545e3872760ab7,
   0x3617de4a96262c6f5d9e98bf9292dc29f8f41dbd289a147ce9da3113b5f0b8c00a60b1ce1d7e819d7a431d7c90ea0e5f)

/-- A power modulo m by the n low bits of the exponent. -/
def powMod (m x e : Nat) : Nat → Nat
  | 0 => 1 % m
  | n + 1 => let r := powMod m (x * x % m) (e / 2) n; if e % 2 = 1 then x * r % m else r

/-- An inverse modulo a prime below 2^384. -/
def invMod (m x : Nat) : Nat := powMod m (x % m) (m - 2) 384

/-- The sum of two points of the curve y² = x³ - 3x + b; none is the point at infinity. -/
def ecAdd : Option (Nat × Nat) → Option (Nat × Nat) → Option (Nat × Nat)
  | none, q => q
  | p, none => p
  | some (x1, y1), some (x2, y2) =>
    if x1 = x2 ∧ (y1 + y2) % p384 = 0 then none
    else
      let l := if x1 = x2 then (3 * x1 * x1 + p384 - 3) * invMod p384 (2 * y1) % p384
        else (y2 + p384 - y1) * invMod p384 (x2 + p384 - x1) % p384
      let x := (l * l + 2 * p384 - x1 - x2) % p384
      some (x, (l * (x1 + p384 - x) + p384 - y1) % p384)

/-- A multiple of a point by the n low bits of a number. -/
def ecMul (p : Option (Nat × Nat)) (k : Nat) : Nat → Option (Nat × Nat)
  | 0 => none
  | n + 1 => let r := ecMul (ecAdd p p) (k / 2) n; if k % 2 = 1 then ecAdd p r else r

/-- A multiple of the base point. -/
def baseMul (k : Nat) : Nat × Nat := (ecMul (some p384Base) k 384).getD (0, 0)

/-- The signature r, s of a message under a private key, with the number k chosen for it. -/
def ecdsaSign (d k : Nat) (m : List Byte) : Nat × Nat :=
  let r := (baseMul k).1 % p384Order
  (r, invMod p384Order k * (beNat (sha384 m) + r * d) % p384Order)

end Sys2Proof.Machine
end

