-- ==== Sys2Proof/Config.lean ====
section
/-! DEFINITION. What an implementation fixes and the free values: constants without a body, so that nothing can be proved of the
value they take (logs 6 to 8, 11, 13 to 16, 19, 20, 30, 34). -/

namespace Sys2Proof.Config

/-- A free bit, taken at the counter `State.freeCtr` and an index: which of two permitted outcomes a byte shows (R93, R98, R109;
log 8), and whether a Flume carries a block-scaled bucket round a ring (R354, log 19). -/
opaque freeBit : Nat → Bool

/-- A free choice among `n` candidates, taken at the counter: L1 and TLB victims (R71, R61; logs 6, 7), and the free frame that a
publication takes (R65, log 19). -/
opaque freePick : Nat → Nat → Nat

/-- A free byte, taken at the counter: what host memory answers to a read of the part (log 11), and the bytes of a context block whose
layout is not given (R338, log 20). -/
opaque freeByte : Nat → Byte

/-- The keys of a generation (R48), never readable: the two of AES-256-XTS and that of AES-GMAC; and the initialisation vector that the
tag forms of a sector's number, in a way not given (log 30). -/
opaque dataKey : Nat → BitVec 256
opaque tweakKey : Nat → BitVec 256
opaque tagKey : Nat → BitVec 256
opaque tagIv : Nat → BitVec 96

/-- The four check symbols of 36 message symbols (R46, which gives no generator; log 30). -/
opaque checkSymbols : Nat → BitVec 32

/-- What the code makes of four or more erroneous symbols (R46 promises nothing beyond three): none where it detects them, else what
the data it delivers differs by (log 30). -/
opaque beyondCode : List (Nat × Byte) → Option (BitVec 256)

/-- The bank and the row of an atom (R53) by its unit (R52), channel and offset within the channel, which the spec does not relate (log
30). -/
opaque dramBank : Nat → Nat → Nat → BitVec 6
opaque dramRow : Nat → Nat → Nat → BitVec 19

/-- Word i of block k at a snapshot latch (R388: the meaning of the words is not architectural), taken at the counter. -/
opaque snapWord : Nat → Nat → Nat → W64

/-- How many words a block has, less one (R388: 1 to 64). -/
opaque snapWords : Nat → BitVec 6

/-- Type of block k of the package at a snapshot (R388). -/
opaque snapType : Nat → W16

/-- How many blocks of the package hold snapshot words (R388). -/
opaque snapBlocks : Nat → BitVec 8

/-- R407: the part's serial number, fused at manufacture. -/
opaque serial : Nat → BitVec 128

/-- R407: the bytes of the boot ROM, of the running Flaell image (by its version), and of the fused rollback counter (log 14). -/
opaque bootRom : Nat → List Byte
opaque flaellImage : W32 → List Byte
opaque rollback : Nat → List Byte

/-- R407: the private half of the identity key, and the number that a signature takes, at the counter (log 14). -/
opaque identityPrivate : Nat → BitVec 384
opaque signNonce : Nat → BitVec 384

/-- R408: the flits that the i-th message sent (true) or received takes on a UALink port; what makes a flit is the link's own (log 15). -/
opaque linkFlits : Bool → Nat → Nat → Nat

end Sys2Proof.Config
end

