-- ==== Sys2Proof/Machine/Regs.lean ====
section
/-! DEFINITION. Device registers: their field maps (R4) as data, raw values, reads and masked writes. Special effects of writes
are in Machine/RegWrite. -/

namespace Sys2Proof.Machine

/-- A field map by access code (R4): reset value and the bits of each class; every other bit is read-only. -/
structure RegSpec where
  reset : W64
  rwp : W64
  rws : W64
  w1c : W64
  wo : W64
  deriving DecidableEq, Repr

/-- Bits hi to lo, set. -/
def bitsMask (hi lo : Nat) : W64 := BitVec.ofNat 64 (2 ^ (hi + 1) - 2 ^ lo)

def rwpReg (reset rwp : W64) : RegSpec := ⟨reset, rwp, 0, 0, 0⟩
def rwsReg (rws : W64) : RegSpec := ⟨0, 0, rws, 0, 0⟩
def roReg : RegSpec := ⟨0, 0, 0, 0, 0⟩

/-- Field bits [hi:lo] of a register value. -/
def fld (w : W64) (hi lo : Nat) : Nat := w.toNat / 2 ^ lo % 2 ^ (hi + 1 - lo)

/-- A value with field [hi:lo] replaced. -/
def setFld (w : W64) (hi lo : Nat) (x : Nat) : W64 :=
  (w &&& ~~~ bitsMask hi lo) ||| (BitVec.ofNat 64 (x % 2 ^ (hi + 1 - lo)) <<< lo)

/-- The registers of the MFSR numbers (R315 and the chapters it names). -/
def numSpec (k : Nat) : Option RegSpec :=
  if k < 0x40 then some (rwsReg (bitsMask 63 62 ||| bitsMask 51 16))
  else if k < 0x80 then some (rwsReg (bitsMask 51 16))
  else if k < 0xC0 then some ⟨0, bitsMask 63 63 ||| bitsMask 51 12, bitsMask 62 62, 0, 0⟩
  else if (0xC0 ≤ k ∧ k < 0xCC) ∨ (0xD0 ≤ k ∧ k < 0xDA) then
    some (rwpReg 0x8036EE8010000000 (bitsMask 63 62 ||| bitsMask 55 24))
  else if 0xE0 ≤ k ∧ k < 0x100 then some (rwpReg 0 (bitsMask 63 61 ||| bitsMask 59 48 ||| bitsMask 31 0))
  else if k = 0x100 then some (rwpReg 0 (bitsMask 51 5))
  else if k = 0x101 then some (rwpReg 0 (bitsMask 63 14 ||| 1))
  else if k = 0x102 then some ⟨0, 0, 0, 0, bitsMask 63 0⟩
  else if 0x800 ≤ k ∧ k < 0x840 then some (rwpReg 0 (bitsMask 63 63 ||| bitsMask 56 9))
  else if 0x840 ≤ k ∧ k < 0x844 then some ⟨0, 0, 0, bitsMask 59 0, 0⟩
  else if k = 0x844 then some (rwpReg 0 (bitsMask 63 61))
  else if k = 0x880 then some (rwpReg 0 (bitsMask 63 62 ||| bitsMask 39 36 ||| bitsMask 21 16))
  else if k = 0x881 then some (rwpReg 0 (bitsMask 63 0))
  else if k = 0x882 then some (rwpReg 0 (bitsMask 51 20))
  else if k = 0x883 then some ⟨0, 0, 0, bitsMask 63 63, 0⟩
  else if 0x8C0 ≤ k ∧ k < 0x8C4 then some (rwsReg (bitsMask 63 63 ||| bitsMask 59 0))
  else if 0x1000 ≤ k ∧ k < 0x11E0 then
    if k % 2 = 0 then some (rwpReg 0 (bitsMask 47 0)) else some (rwpReg (bitsMask 63 63) (bitsMask 63 63 ||| bitsMask 47 0))
  else if k = 0x2000 ∨ k = 0x2001 ∨ k = 0x2002 ∨ k = 0x2003 ∨ (0x2005 ≤ k ∧ k ≤ 0x200A) then some roReg
  else if k = 0x2004 then some (rwpReg 0 (bitsMask 20 0))
  else if k = 0x2010 then some (rwpReg 0 (bitsMask 51 36))
  else if k = 0x2011 then some (rwpReg 0 (bitsMask 63 12))
  else if k = 0x2020 then some (rwpReg 0 (bitsMask 11 0))
  else if k = 0x2021 then some roReg
  else if 0x2100 ≤ k ∧ k < 0x2112 then some roReg
  else none

/-- The register at an 8-byte offset of the device-register range (R398). The message and control words of the MSI-X table reset
as PCIe has them, every vector masked (PRESUMED, log 22). -/
def regSpec (off : Nat) : Option RegSpec :=
  if off % 8 ≠ 0 then none
  else if off < 0x800 then
    match off % 32 with
    | 0 => some (rwpReg 1 (bitsMask 63 61 ||| bitsMask 59 58 ||| bitsMask 51 8 ||| bitsMask 3 0))
    | 8 => some (rwpReg 1 (bitsMask 47 32 ||| bitsMask 23 0))
    | 16 => some roReg
    | _ => none
  else if 0x1000 ≤ off ∧ off < 0x1200 then some ⟨0, 0, 0, 0, bitsMask 15 0⟩
  else if off = 0x2000 then some (rwpReg 10 (bitsMask 51 12 ||| bitsMask 4 0))
  else if off = 0x2008 then some (rwpReg 0x80000000000 (bitsMask 63 43 ||| bitsMask 41 21))
  else if off = 0x2100 then some (rwpReg 0 (bitsMask 51 0))
  else if off = 0x2108 then some (rwpReg 0x64000186A0 (bitsMask 63 62 ||| bitsMask 47 0))
  else if off = 0x2110 then some (rwpReg 0 (bitsMask 63 0))
  else if off = 0x2118 then some ⟨0, 0, 0, 0, bitsMask 63 0⟩
  else if off = 0x2200 then some (rwpReg 0 (bitsMask 63 5))
  else if 0x2300 ≤ off ∧ off < 0x2400 then some (rwpReg 1000000 (bitsMask 31 0))
  else if off = 0x3000 then some (rwpReg 0 (bitsMask 63 32 ||| bitsMask 21 16 ||| bitsMask 13 0))
  else if off = 0x3008 then some ⟨0, 0, 0, 0, bitsMask 63 0⟩
  else if off = 0x3010 then some roReg
  else if 0x4000 ≤ off ∧ off < 0x4040 then
    if off % 16 = 0 then some (rwpReg 0 (bitsMask 63 0)) else some (rwpReg 0x100000000 (bitsMask 63 0))
  else if off = 0x5000 then some roReg
  else if 0x10000 ≤ off ∧ off < 0x28000 then numSpec ((off - 0x10000) / 8)
  else none

/-- The offset of MFSR number k. -/
def numOff (k : Nat) : Nat := 0x10000 + 8 * k

def lookupReg : List (Nat × W64) → Nat → Option W64
  | [], _ => none
  | (k, w) :: t, a => if k = a then some w else lookupReg t a

/-- A sorted association list with one key's value replaced; `none` drops the key. -/
def assocPut : List (Nat × W64) → Nat → Option W64 → List (Nat × W64)
  | [], a, some w => [(a, w)]
  | [], _, none => []
  | (k, x) :: t, a, w =>
    if k < a then (k, x) :: assocPut t a w
    else if k = a then (match w with | some y => (a, y) :: t | none => t)
    else (match w with | some y => (a, y) :: (k, x) :: t | none => (k, x) :: t)

def resetOf (off : Nat) : W64 :=
  match regSpec off with
  | some r => r.reset
  | none => 0

/-- The bits a register holds. -/
def State.reg (s : State) (off : Nat) : W64 := (lookupReg s.regs off).getD (resetOf off)

/-- The bits of a register set, whatever its access codes: what the part itself does. -/
def State.setReg (s : State) (off : Nat) (w : W64) : State :=
  { s with regs := assocPut s.regs off (if w = resetOf off then none else some w) }

/-- By MFSR number. -/
def State.num (s : State) (k : Nat) : W64 := s.reg (numOff k)
def State.setNum (s : State) (k : Nat) (w : W64) : State := s.setReg (numOff k) w

/-- A message that a link carries. -/
def Sent.onLink : Sent → Bool
  | .contribution .. | .ring _ | .scalar _ | .scalarResult .. | .ack .. | .norm .. | .weirStep .. | .podSummary .. | .cagChunk .. => true
  | .copymPayload .. | .copymAck .. | .cagDone .. => true
  | .pcieWrite .. | .pcieRead .. | .pcieData _ | .interrupt _ | .powerOff => false

/-- LNKFLIT of a port: the flits of the messages sent so far, and of those received, each modulo 2^32 (R408, log 15). -/
def State.lnkflit (s : State) (port : Nat) : W64 :=
  let count := fun (out : Bool) (n : Nat) => ((List.range n).map (Config.linkFlits out port)).sum % 2 ^ 32
  BitVec.ofNat 64 (count true (s.sent.filter Sent.onLink).length + 2 ^ 32 * count false s.carried)

/-- A register as software reads it (R4): write-only fields read zero, and so do RWS fields to a non-secure reader. -/
def State.readReg (s : State) (off : Nat) (secure : Bool) : W64 :=
  match regSpec off with
  | none => 0
  | some r =>
    if off = 0x5000 then BitVec.ofNat 64 s.msixPending.toNat
    else if numOff 0x2100 ≤ off ∧ off ≤ numOff 0x2111 then s.lnkflit ((off - numOff 0x2100) / 8)
    else s.reg off &&& ~~~ r.wo &&& (if secure then ~~~ 0#64 else ~~~ r.rws)

/-- A register's bits after software writes `v` (R4), before any special effect of the write. -/
def RegSpec.merge (r : RegSpec) (old v : W64) (secure : Bool) : W64 :=
  let wr := r.rwp ||| (if secure then r.rws else 0)
  ((old &&& ~~~ wr) ||| (v &&& wr)) &&& ~~~ (v &&& r.w1c)

/-- Every listed offset lies at `lo` or above and does not hold its reset value, and the offsets rise. -/
def regsAbove : Nat → List (Nat × W64) → Bool
  | _, [] => true
  | lo, (k, w) :: t => decide (lo ≤ k) && (w != resetOf k) && regsAbove (k + 1) t

/-- The canonical form of the written registers. -/
def regsWf (l : List (Nat × W64)) : Bool := regsAbove 0 l

/-! Fields that other parts of the model read. -/

def State.hbmChannels (s : State) : Nat := fld (s.num 0x2002) 8 0
def State.ddrChannels (s : State) : Nat := fld (s.num 0x2002) 19 16
def State.ddrMiB (s : State) : Nat := fld (s.num 0x2002) 63 24
def State.kindOf (s : State) (pa : Nat) : PhysKind := physKind s.hbmChannels s.ddrMiB pa
def State.devid (s : State) : Nat := fld (s.num 0x2004) 20 0

/-- Cores in service on a die (R408), and whether a package-wide core number is one. -/
def State.coresOfDie (s : State) (d : Nat) : Nat := fld (s.num 0x2001) (8 * d + 5) (8 * d)
def State.coreInService (s : State) (c : Nat) : Bool := decide (c < 240) && decide (c % 60 < s.coresOfDie (c / 60))

/-- R389: the world bit of a core. -/
def State.coreSecure (s : State) (c : Nat) : Bool := (s.num (0x8C0 + c / 60)).getLsbD (c % 60)
/-- R384. -/
def State.coreOnProbation (s : State) (c : Nat) : Bool := (s.num (0x840 + c / 60)).getLsbD (c % 60)

/-- Whether any SECBASE or SECLIM differs from its reset value, under which no region is enabled. -/
def State.anyRegion (s : State) : Bool := s.regs.any fun r => decide (numOff 0 ≤ r.1) && decide (r.1 < numOff 0x80)

/-- R50: whether some of `n` bytes at an address lie in an enabled secure region. -/
def State.meetsSecure (s : State) (pa n : Nat) : Bool :=
  s.anyRegion && (List.range 64).any fun k =>
    let b := s.num k
    let l := s.num (0x40 + k)
    b.getLsbD 63 && decide (fld b 51 16 ≤ fld l 51 16) && decide (fld b 51 16 ≤ (pa + n - 1) / 65536) && decide (pa / 65536 ≤ fld l 51 16)

/-- R50: whether an address lies in an enabled secure region. -/
def State.inSecure (s : State) (pa : Nat) : Bool := s.meetsSecure pa 1

/-- R78: the role of a bank of a core as its LSROLE registers have it: under a carve-out, what was last written there (DESIGN CHOICE, log
36). -/
def State.roleReg (s : State) (core bank : Nat) : Nat :=
  if bank < 16 then fld (s.num (0x1000 + 2 * core)) (3 * bank + 2) (3 * bank)
  else fld (s.num (0x1001 + 2 * core)) (3 * (bank - 16) + 2) (3 * (bank - 16))

/-- R78: whether the roles are set by the registers. -/
def State.manual (s : State) (core : Nat) : Bool := (s.num (0x1001 + 2 * core)).getLsbD 63

/-- R395: the bits of BAR register k that software writes: the sizes of BAR0, BAR2 and BAR4 leave them none below 4 GiB, and of those
above, bits 31:4 of BAR3 and 31:3 of BAR5. -/
def barMask (k : Nat) : W32 :=
  match k with
  | 1 => 0xFFFFFFFF
  | 3 => 0xFFFFFFF0
  | 5 => 0xFFFFFFF8
  | _ => 0

/-- A BAR register as it reads: the low one of each pair tells a 64-bit prefetchable memory BAR, by PCI Express (PRESUMED, log 24). -/
def State.barReg (s : State) (k : Nat) : W32 := (s.bars[k]?.getD 0 &&& barMask k) ||| (if k % 2 = 0 then 0xC else 0)

/-- Bytes of a BAR register written. -/
def State.writeBar (s : State) (k : Nat) (v mask : W32) : State :=
  if h : k < 6 then { s with bars := s.bars.set k (((v &&& mask) ||| (s.bars[k] &&& ~~~ mask)) &&& barMask k) } else s

/-- The bus address of the BAR whose low register is BAR k. -/
def State.barAddr (s : State) (k : Nat) : Nat := (s.barReg (k + 1)).toNat * 2 ^ 32

/-- R397: the PCIe address of an address of the host window. -/
def State.pcieOf (s : State) (pa : Nat) : W64 := BitVec.ofNat 64 (pa - hostBase) + (s.num 0x2011 &&& bitsMask 63 12)

/-- 850 cycles of the arithmetic clock are a microsecond (R12). -/
def microseconds (n : Nat) : Nat := 850 * n

/-- A block's record in the readout buffer. -/
def SnapBlock.bytes (b : SnapBlock) : List Byte :=
  (List.range 2).map (byteOf b.typ.toNat) ++ (List.range 2).map (byteOf b.inst.toNat) ++ [BitVec.ofNat 8 b.words.length]
    ++ List.replicate 11 0 ++ (b.words.map fun w => (List.range 8).map (byteOf w.toNat)).flatten

/-! ## Bytes of the device-register range (R398) -/

/-- The snapshot readout window: record k at + 1,024 k, readable while HOSTR is 1. -/
def State.snapByte (s : State) (o : Nat) : Byte :=
  if (s.num 0x880).getLsbD 62 then
    match s.snap[o / 1024]? with
    | some b => b.bytes.getD (o % 1024) 0
    | none => 0
  else 0

/-- A byte of the device-register range as software reads it. -/
def State.devByte (s : State) (off : Nat) (secure : Bool) : Byte :=
  if 0x30000 ≤ off ∧ off < 0x40000 then Mem.get s.mailbox (off - 0x30000)
  else if 0x10000000 ≤ off ∧ off < 0x20000000 then s.snapByte (off - 0x10000000)
  else byteOf (s.readReg (off / 8 * 8) secure).toNat (off % 8)

/-- `n` bytes of it. -/
def State.devRead (s : State) (off n : Nat) (secure : Bool) : Nat :=
  leNat ((List.range n).map fun i => s.devByte (off + i) secure)

end Sys2Proof.Machine
end

