-- ==== Sys2Proof/Machine/Cells.lean ====
section
/-! DEFINITION. What the cells of RAM hold and what a controller reads from them: the code and POISON (R46, R47), ciphertext and tags
(R48 to R50), and atoms written whole (R44); before them, the parts of the state found by number, and write sets (R378 to R382). -/

namespace Sys2Proof.Machine

/-! ## Finding and replacing the parts of the state by number -/

def State.launch? (s : State) (u : Nat) : Option Launch := s.launches.find? fun l => l.uid == u
def State.wg? (s : State) (u : Nat) : Option Workgroup := s.wgs.find? fun w => w.uid == u
def State.op? (s : State) (u : Nat) : Option Op := s.ops.find? fun o => o.uid == u
def State.image? (s : State) (u : Nat) : Option Image := s.images.find? fun i => i.uid == u
def State.bandAt (s : State) (p : Place) : Option Band := s.bands.find? fun b => b.place == p
def State.band? (s : State) (u : Nat) : Option Band := s.bands.find? fun b => b.uid == u

def State.setLaunch (s : State) (l : Launch) : State :=
  { s with launches := s.launches.map fun x => if x.uid == l.uid then l else x }
def State.setWg (s : State) (w : Workgroup) : State := { s with wgs := s.wgs.map fun x => if x.uid == w.uid then w else x }
def State.setOp (s : State) (o : Op) : State := { s with ops := s.ops.map fun x => if x.uid == o.uid then o else x }
def State.setBand (s : State) (b : Band) : State := { s with bands := s.bands.map fun x => if x.uid == b.uid then b else x }
def State.modBand (s : State) (u : Nat) (f : Band → Band) : State :=
  { s with bands := s.bands.map fun x => if x.uid == u then f x else x }
def State.modLaunch (s : State) (u : Nat) (f : Launch → Launch) : State :=
  { s with launches := s.launches.map fun x => if x.uid == u then f x else x }
def State.modWg (s : State) (u : Nat) (f : Workgroup → Workgroup) : State :=
  { s with wgs := s.wgs.map fun x => if x.uid == u then f x else x }
def State.dropOp (s : State) (u : Nat) : State := { s with ops := s.ops.filter fun x => x.uid != u }
def State.addOp (s : State) (o : Op) : State := { s with ops := s.ops ++ [o] }

/-! ## Write sets (R378 to R382) -/

def granuleOf (pa : Nat) : Nat := pa / 4096 * 4096

/-- The granule of an address in a launch's write set, for a run. -/
def Launch.granule? (l : Launch) (run pa : Nat) : Option Granule :=
  l.granules.find? fun g => g.pa == granuleOf pa && g.run == run

def Launch.setGranule (l : Launch) (g : Granule) : Launch :=
  { l with granules := l.granules.map fun x => if x.pa == g.pa && x.run == g.run then g else x }

/-- R382: where an access of a redundant run goes: the shadow of its granule once that exists. -/
def State.viewOf (s : State) (u run pa : Nat) : Nat :=
  match s.launch? u with
  | none => pa
  | some l =>
    if l.lr.redn = 1 then
      match l.granule? run pa with
      | some g => match g.frame with | some j => l.poolBase + 4096 * j + pa % 4096 | none => pa
      | none => pa
    else pa

/-- The run of a workgroup. -/
def State.runOf (s : State) (wg : Nat) : Nat := match s.wg? wg with | some w => w.run | none => 0

/-! ## The code (R46) -/

/-- What the code makes of an atom that it can read: the corrected symbol, and what the data delivered differs by. -/
structure Decoded where
  sym : Option Nat
  diff : BitVec 256
  deriving DecidableEq, Repr

/-- One erroneous symbol is corrected, two or three are detected; none: uncorrectable. -/
def codeOut (es : List SymErr) : Option Decoded :=
  match es with
  | [] => some ⟨none, 0⟩
  | [e] => some ⟨some e.sym, 0⟩
  | [_, _] => none
  | [_, _, _] => none
  | es => (Config.beyondCode (es.map fun e => (e.sym, e.err))).map fun d => ⟨none, d⟩

def State.decoded (s : State) (atom : Nat) : Option Decoded := codeOut (s.errs.filter fun e => e.atom == atom)

/-- An error arises in one of the 40 symbols of an atom; errors of one symbol add up. -/
def State.strike (s : State) (atom sym : Nat) (err : Byte) : State :=
  let sym := sym % 40
  let atom := atom / 32 * 32
  let old := match s.errs.find? fun e => e.atom == atom && e.sym == sym with | some e => e.err | none => 0
  let rest := s.errs.filter fun e => !(e.atom == atom && e.sym == sym)
  { s with errs := if old = err then rest else rest ++ [⟨atom, sym, old ^^^ err⟩] }

/-- Errors that have arisen by the time an access is performed, which it is the first to find. -/
def State.strikes (s : State) (es : List SymErr) : State := es.foldl (fun s e => s.strike e.atom e.sym e.err) s

/-! ## The sector (R48, R49) -/

/-- The atoms of a sector. -/
def sectorOf (atom : Nat) : List Nat := [atom / 64 * 64, atom / 64 * 64 + 32]

/-- The atoms that a read of an atom checks: in secure memory both of its sector. -/
def State.checked (s : State) (atom : Nat) : List Nat := if s.inSecure atom then sectorOf atom else [atom]

/-- POISON is set in the atom, or in secure memory in the other atom of its sector. -/
def State.poisoned (s : State) (atom : Nat) : Bool := (s.checked atom).any fun q => s.poison.contains q

/-- What a read of an atom finds: good data, an atom that is uncorrectable or poisoned, or a tag that does not match. -/
inductive ReadOut where
  | ok
  | bad
  | tag
  deriving DecidableEq, Repr

/-! ## Ciphertext and tags -/

def keyBytes (k : BitVec 256) : List Byte := (List.range 32).map (byteOf k.toNat)

/-- Block j of a sector of secure memory under the keys in force: the XTS mode of a block cipher. -/
def State.xts (s : State) (cipher : List Byte → List Byte → List Byte) (a : Nat) (x : List Byte) : List Byte :=
  xtsBlock cipher (keyBytes (Config.dataKey s.keyGen)) (keyBytes (Config.tweakKey s.keyGen)) (a / 64) (a / 16 % 4) x

def State.sealedAt (s : State) (a : Nat) : Bool := s.sealed.contains (a / 32 * 32)

/-- The 16 bytes that a block's cells hold: the ciphertext of a sealed one, which `mem` has as plaintext. -/
def State.storedBlock (s : State) (a : Nat) : List Byte :=
  let x := Mem.bytes s.mem (a / 16 * 16) 16
  if s.sealedAt a then s.xts aesEncrypt a x else x

/-- What the code alters of the data at an address that it delivers. -/
def State.altered (s : State) (a : Nat) : Byte :=
  match s.decoded (a / 32 * 32) with
  | some d => byteOf d.diff.toNat (a % 32)
  | none => 0

/-- The block as the code delivers it. -/
def State.codedBlock (s : State) (a : Nat) : List Byte :=
  xorBytes (s.storedBlock a) ((List.range 16).map fun i => s.altered (a / 16 * 16 + i))

/-- R48: the 56-bit tag of a sector over its four blocks, truncated to the first bits; R46: the half of it that an atom carries. -/
def State.tagOf (s : State) (sector : Nat) (blocks : List (List Byte)) : Nat :=
  gmac (keyBytes (Config.tagKey s.keyGen)) (Config.tagIv (sector / 64)).toNat blocks / 2 ^ 72

def tagHalf (atom tag : Nat) : Nat := if atom % 64 = 0 then tag % 2 ^ 28 else tag / 2 ^ 28 % 2 ^ 28

/-- The blocks of a sector. -/
def sectorBlocks (sector : Nat) : List Nat := (List.range 4).map fun j => sector / 64 * 64 + 16 * j

/-- R46: the TAG of an atom as it is stored: its half of the sector's tag where it is sealed, else zero. -/
def State.tagField (s : State) (atom : Nat) : Nat :=
  if s.sealedAt atom then tagHalf atom (s.tagOf atom ((sectorBlocks atom).map s.storedBlock)) else 0

/-- R46: the side bits of an atom as they were written: POISON, TAG and CHECK; its errors are in `errs`. -/
def State.sideBits (s : State) (atom : Nat) : W64 :=
  let high := (if s.poison.contains atom then 2 ^ 28 else 0) + s.tagField atom
  let msg := leNat (s.storedBlock atom ++ s.storedBlock (atom + 16)) + high * 2 ^ 256
  BitVec.ofNat 64 (high * 2 ^ 32 + (Config.checkSymbols msg).toNat)

/-- A half of a sector is as it was sealed under the keys in force: the code has delivered it unaltered. -/
def State.intact (s : State) (atom : Nat) : Bool :=
  s.sealed.contains atom && match s.decoded atom with | some d => d.diff == 0 | none => false

/-- R49: the tag of what the code delivers of a sector is the one that its atoms carry; that of intact halves is by its making. -/
def State.tagHolds (s : State) (atom : Nat) : Bool :=
  (sectorOf atom).all s.intact ||
    (sectorOf atom).all fun q => tagHalf q (s.tagOf atom ((sectorBlocks atom).map s.codedBlock)) == s.tagField q

/-- R47, R49: the code and POISON of each atom first, then the tag. -/
def State.readOut (s : State) (atom : Nat) : ReadOut :=
  if (s.checked atom).any fun q => s.poison.contains q || (s.decoded q).isNone then .bad
  else if s.inSecure atom && !s.tagHolds atom then .tag
  else .ok

/-! ## Bytes -/

/-- The byte at an address of RAM as its controller delivers it: in an enabled region what the cipher makes of what is stored, the
plaintext of an atom that is as it was sealed; elsewhere what is stored, which is ciphertext where a region was. -/
def State.seen (s : State) (a : Nat) : Byte :=
  if s.inSecure a then
    if s.intact (a / 32 * 32) then Mem.get s.mem a else (s.xts aesDecrypt a (s.codedBlock a)).getD (a % 16) 0
  else if s.sealedAt a then (s.codedBlock a).getD (a % 16) 0
  else Mem.get s.mem a ^^^ s.altered a

/-- `n` bytes of RAM from `a`, as their controllers deliver them, little-endian. -/
def State.look (s : State) (a n : Nat) : Nat :=
  if s.anyRegion = false ∧ s.sealed = [] ∧ s.errs = [] then Mem.read s.mem a n else leNat ((List.range n).map fun i => s.seen (a + i))

def State.atom (s : State) (pa : Nat) : BitVec 256 := BitVec.ofNat 256 (s.look pa 32)

/-- The 8-byte word at a physical address of RAM. -/
def State.word (s : State) (pa : Nat) : W64 := BitVec.ofNat 64 (s.look pa 8)

/-- Bytes placed in cells, `pa` and `n` at the bounds of atoms: each atom has a fresh code and no poison, and is sealed in secure
memory (R44, R48). -/
def State.putCells (s : State) (pa n x : Nat) : State :=
  let within := fun q => decide (pa ≤ q) && decide (q + 32 ≤ pa + n)
  let kept := s.sealed.filter fun q => !within q
  { s with
    mem := Mem.write s.mem pa n x
    poison := s.poison.filter fun q => !within q
    errs := s.errs.filter fun e => !within e.atom
    sealed := if s.inSecure pa then ((List.range (n / 32)).map fun i => pa + 32 * i).foldl insertAsc kept else kept }

end Sys2Proof.Machine
end

