-- ==== Sys2Proof/Machine/Ring.lean ====
section
/-! DEFINITION. Home controllers' plain stores with what they wake, interrupts, and the event ring (R215, R111, R329, R344,
R345, R399). -/

namespace Sys2Proof.Machine

def State.send (s : State) (x : Sent) : State := { s with sent := s.sent ++ [x] }

/-- R399: a vector is raised, or its pending bit set while it is masked. -/
def State.interrupt (s : State) (v : Nat) : State :=
  if (s.reg (0x4000 + 16 * v + 8)).getLsbD 32 then { s with msixPending := s.msixPending ||| (1#4 <<< v) }
  else s.send (.interrupt v)

/-- R215, R329: the conditions of a MONWAIT and of a dependence. -/
def condMet (cond : Nat) (w e : W64) : Bool :=
  match cond with
  | 0 => w == e
  | 1 => w >>> 16 == e >>> 16
  | 2 => w != e
  | _ => decide (((w >>> 16).toNat + 2 ^ 48 - (e >>> 16).toNat) % 2 ^ 48 < 2 ^ 47)

/-- R66, R73: a core's L1 without its clean lines outside held regions; `keep` says which lines stay. -/
def State.dropLines (s : State) (drop : L1Line → Bool) : State := { s with l1 := s.l1.filter fun l => !drop l }

/-- R84: whether a core holds the region that an address lies in. -/
def State.heldBy (s : State) (core pa : Nat) : Bool :=
  s.tokens.any fun t => decide (t.core = core) && decide (t.pbase ≤ pa / 65536) && decide (pa / 65536 < t.pbase + t.len)

/-- R73: an acquire at scope cluster or wider. -/
def State.invalidateL1 (s : State) (core : Nat) : State :=
  s.dropLines fun l => decide (l.core = core) && l.dirty == 0 && !s.heldBy core (l.line * 128)

/-- R215: the physical address that a monitor's word has now, as the band's run sees it (R382). -/
def State.monPa (s : State) (b : Band) (m : Monitor) : Nat := s.viewOf b.launch (s.runOf b.wg) m.pa

/-- R215: a band waiting at MONWAIT retests its word; met, the wait is done with status 0 and it acquires at its scope (R73, R133). A
parked band reads its word again once it is restored (R216). -/
def Band.retest (s : State) (pa : Nat) (b : Band) : Band :=
  match b.wait with
  | some (.monitor k cond e _) =>
    match b.monitors.find? (fun m => m.k == k) with
    | some mon =>
      if !b.parked && s.monPa b mon / 32 == pa / 32 && condMet cond (s.word (s.monPa b mon)) e then { b with wait := some (.done 0) } else b
    | none => b
  | _ => b

/-- R111: a watch slot counts a change of its word. -/
def Watch.retest (s : State) (pa : Nat) (w : Watch) : Watch :=
  if w.pa / 32 == pa / 32 && s.word w.pa != w.value then
    { w with value := s.word w.pa, count := w.count + 1, pending := true }
  else w

/-- R329: dependences that a write met. -/
def Launch.retest (s : State) (pa : Nat) (l : Launch) : Launch :=
  { l with deps := l.deps.map fun d => if d.pa / 32 == pa / 32 && condMet d.cond (s.word d.pa) d.e then { d with met := true } else d }

/-- What a write performed at the home of an atom wakes: MONWAITs (R215), watch words (R111), dependences (R329). -/
def State.wake (s : State) (pa : Nat) : State :=
  { s with
    bands := s.bands.map (Band.retest s pa)
    watches := s.watches.map (Watch.retest s pa)
    launches := s.launches.map (Launch.retest s pa) }

/-- `n` bytes stored at a physical address of RAM, both at the bounds of atoms, each write waking its atom's waiters. -/
def State.ramStore (s : State) (pa n x : Nat) : State :=
  let first := pa / 32
  let last := (pa + n - 1) / 32
  if n = 0 then s else (List.range (last - first + 1)).foldl (fun s i => s.wake ((first + i) * 32)) (s.putCells pa n x)

def evrbase : Nat := 0x2000
def evrctl : Nat := 0x2008

/-- R345: the ring holds 2^LOG2N records, LOG2N clamped to 7 to 20. -/
def State.ringLog (s : State) : Nat := max 7 (min 20 (fld (s.reg evrbase) 4 0))
def State.ringProd (s : State) : Nat := fld (s.reg evrctl) 20 0
def State.ringCons (s : State) : Nat := fld (s.reg evrctl) 41 21
def State.ringUnread (s : State) : Nat := (s.ringProd + 2 ^ 21 - s.ringCons) % 2 ^ 21
def State.ringOn (s : State) : Bool := (s.reg evrctl).getLsbD 63
def State.ringFull (s : State) : Bool := s.ringUnread == 2 ^ s.ringLog

/-- R344: a completion record's 32 bytes. -/
def Event.record (e : Event) (phase gap : Bool) (time : Nat) : Nat :=
  (time % 2 ^ 48) + e.count.toNat * 2 ^ 48 + e.lid.toNat * 2 ^ 64 + e.cls.toNat * 2 ^ 96 + (e.queue % 64) * 2 ^ 104
    + (if gap then 2 ^ 110 else 0) + (if phase then 2 ^ 111 else 0) + e.fsum.toNat * 2 ^ 112 + e.detail.toNat * 2 ^ 128

/-- R345: record PROD is written and PROD advances; vector 0 is raised once CCOUNT records are unread. The ring is written without
translation by no launch: in secure memory R51 refuses it, and the refusal's own record would be refused with it (DEDUCED, log 30). -/
def State.ringWrite (s : State) (e : Event) : State :=
  let p := s.ringProd
  let base := fld (s.reg evrbase) 51 12 * 4096
  let pa := base + 32 * (p % 2 ^ s.ringLog)
  let x := e.record (p / 2 ^ s.ringLog % 2 == 0) s.evGap (s.cycle / 16)
  let s1 := match s.kindOf pa with
    | .ram => if s.inSecure pa then s else s.ramStore pa 32 x
    | .host => s.send (.pcieWrite (s.pcieOf pa) ((List.range 32).map (byteOf x)))
    | .hole => { s with stray := some pa }
    | _ => s
  let s2 := { s1 with evGap := false, evTimes := s.evTimes ++ [some s.cycle] }
  let s3 := s2.setReg evrctl (setFld (s2.reg evrctl) 20 0 (p + 1))
  if fld (s3.reg evrctl) 50 43 ≤ s3.ringUnread then s3.interrupt 0 else s3

/-- R345: records that wait are written while there is room, the buffer's first. -/
def State.ringDrain : Nat → State → State
  | 0, s => s
  | n + 1, s =>
    if !s.ringOn || s.ringFull then s
    else
      match s.evBuf with
      | e :: t => State.ringDrain n ({ s with evBuf := t }.ringWrite e)
      | [] =>
        match s.evHeld with
        | e :: t => State.ringDrain n ({ s with evHeld := t }.ringWrite e)
        | [] => s

def State.drain (s : State) : State := State.ringDrain (s.evBuf.length + s.evHeld.length) s

/-- Launch completions are classes 0x00 to 0x0F (R344). -/
def Event.isCompletion (e : Event) : Bool := decide (e.cls.toNat < 0x10)

/-- R345: a record is written, or waits, or is dropped and leaves a gap. -/
def State.post (s : State) (e : Event) : State :=
  if e.isCompletion then { s with evHeld := s.evHeld ++ [e] }.drain
  else if !s.ringOn then { s with evGap := true }
  else if s.evBuf.length < 256 then { s with evBuf := s.evBuf ++ [e] }.drain
  else { s with evGap := true }

/-- An event that concerns no launch, or one named by identifier. -/
def mkEvent (cls : Nat) (lid : W32) (detail : Nat) (count : Nat := 0) (queue : Nat := 0) : Event :=
  { cls := BitVec.ofNat 8 cls, queue := queue, lid := lid, count := BitVec.ofNat 16 count, fsum := 0,
    detail := BitVec.ofNat 128 detail }

/-- The counter of the free values advances past `n` uses (DESIGN CHOICE, log 16). -/
def State.tick (s : State) (n : Nat) : State := { s with freeCtr := s.freeCtr + n }

end Sys2Proof.Machine
end

