-- ==== Sys2Proof/Machine/Home.lean ====
section
/-! DEFINITION. Reads and writes of atoms at their home controllers: error events (R53), corrected-error logging (R52), byte enables and
merges (R44, R45), accesses without translation (R51), write sets and shadows (R379, R382), and the writes of launches. -/

namespace Sys2Proof.Machine

/-! ## Launches -/

/-- FSUM bits of a launch set (R344). -/
def State.sumBit (s : State) (u bit : Nat) : State := s.modLaunch u fun l => { l with fsum := l.fsum ||| (1#16 <<< bit) }

/-- R375, R376: a kill is decided; LAUNCH_KILL carries it out. What RELMODE.HRPLY holds as the first is raised governs its replay (R391). -/
def State.decideKill (s : State) (u : Nat) (c : KillCause) : State :=
  s.modLaunch u fun l =>
    if l.kills.contains c then l
    else { l with kills := l.kills ++ [c], assisted := if l.kills = [] then some ((s.num 0x844).getLsbD 61) else l.assisted }

def State.lidOf (s : State) (u : Nat) : W32 := match s.launch? u with | some l => l.lr.lid | none => 0
def State.queueOf (s : State) (u : Nat) : Nat := match s.launch? u with | some l => l.queue | none => 0
/-- An event of a launch (R344). -/
def State.eventFor (s : State) (cls u : Nat) (detail : Nat) (count : Nat := 0) : Event :=
  mkEvent cls (s.lidOf u) detail count (s.queueOf u)
/-- An event of the launch that an identifier names in collectives and the Weir, with its queue: the active one with a table (R344, R418). -/
def State.eventOf (s : State) (cls : Nat) (lid : W32) (detail : Nat) (count : Nat := 0) : Event :=
  mkEvent cls lid detail count
    (match s.launches.find? fun l => l.lr.lid == lid && l.pg.isSome && l.phase != .waiting with | some l => l.queue | none => 0)

/-! ## Error events (R53) -/

/-- Where the cells of an address are (R40, R41): TIER, HBM stack or DDR-5 channel, CHAN within the stack, and the offset within the
channel. The physical channel is the dense one in a full package; CAPHBM names it otherwise. -/
structure Cells where
  tier : Nat
  unit : Nat
  chan : Nat
  off : Nat
  deriving DecidableEq, Repr

def State.cellsOf (s : State) (pa : Nat) : Cells :=
  if pa < ddrBase then
    let (d, off) := hbmChannel s.hbmChannels pa
    let inService := (List.range 384).filter fun c => (s.num (0x2005 + c / 64)).getLsbD (c % 64)
    let c := inService.getD d d
    ⟨0, c / 32, c % 32, off⟩
  else
    let (c, off) := ddrChannel (max 1 s.ddrChannels) pa
    ⟨1, c, 0, off⟩

def celogUnit (tier unit : Nat) : Nat := tier * 16 + unit
def Cells.log (u : Cells) : Nat := celogUnit u.tier u.unit
/-- BANK and ROW of an atom (R53), and the number of its bank among those of its stack. -/
def Cells.bank (u : Cells) : Nat := (Config.dramBank u.log u.chan (u.off / 32 * 32)).toNat
def Cells.row (u : Cells) : Nat := (Config.dramRow u.log u.chan (u.off / 32 * 32)).toNat
def Cells.bankKey (u : Cells) : Nat := 64 * u.chan + u.bank
def State.celogOf (s : State) (unit : Nat) : CeLog := (s.celog.find? fun c => c.unit == unit).getD ⟨unit, [], [], [], 0⟩
def assocGet (l : List (Nat × Nat)) (k : Nat) : Nat := ((l.find? fun p => p.1 == k).map Prod.snd).getD 0
def assocSet (l : List (Nat × Nat)) (k v : Nat) : List (Nat × Nat) := (k, v) :: l.filter fun p => p.1 != k

/-- DETAIL of a memory event: SYM is 63 where no symbol was corrected; REPEAT is the counter of the atom's bank. -/
def State.memDetail (s : State) (pa : Nat) (ie cons : Bool) (sym : Nat := 63) : Nat :=
  let u := s.cellsOf pa
  let rep := assocGet (s.celogOf u.log).repeats u.bankKey
  (if ie then 2 ^ 127 else 0) + u.tier * 2 ^ 126 + (if s.inSecure pa then 2 ^ 125 else 0) + (if cons then 2 ^ 124 else 0)
    + sym % 64 * 2 ^ 118 + u.unit * 2 ^ 114 + u.chan * 2 ^ 109 + u.bank * 2 ^ 103 + u.row * 2 ^ 84 + rep * 2 ^ 76 + pa / 32 * 32

/-- Posts a memory event of a class, charged to a launch where one consumed or wrote. -/
def State.memEvent (s : State) (cls pa : Nat) (launch : Option Nat) (ie : Bool := false) : State :=
  let (lid, queue) := match launch with | some u => (s.lidOf u, s.queueOf u) | none => (0, 0)
  s.post (mkEvent cls lid (s.memDetail pa ie launch.isSome) 0 queue)

/-- R51: an untranslated non-secure access to secure memory is refused and reported. -/
def State.secureEvent (s : State) (pa : Nat) : State := s.post (mkEvent 0x45 0 (s.memDetail pa false false))

/-! ## Corrected-error logging (R52) -/

def celogHash (k : W32) (j : Nat) : Nat :=
  let c : W32 × W32 := match j with
    | 0 => (0x5BD1E995, 0x85EBCA6B)
    | 1 => (0x1B873593, 0xC2B2AE35)
    | _ => (0xCC9E2D51, 0x27D4EB2F)
  (((k ^^^ c.1) * c.2) >>> 16).toNat

def State.celogCtl (s : State) (unit : Nat) : W64 := s.num (0xC0 + unit)

def State.setCelog (s : State) (c : CeLog) : State := { s with celog := c :: s.celog.filter fun x => x.unit != c.unit }

/-- A corrected error passes the filter and the bank's repeat counter, and may post an event. CELOGCTL's numbers are those of stacks 0 to
11, then of DDR channels from 16. -/
def State.correctedError (s : State) (pa sym : Nat) : State :=
  let u := s.cellsOf pa
  let unit := u.log
  let ctl := s.celogCtl unit
  let ev (cls : Nat) (s : State) : State := s.post (mkEvent cls 0 (s.memDetail pa false false sym))
  if !ctl.getLsbD 63 then s
  else if ctl.getLsbD 62 then ev 0x40 s
  else
    let c := s.celogOf unit
    let key : W32 := BitVec.ofNat 32 (u.chan * 2 ^ 25 + u.bank * 2 ^ 19 + u.row)
    let hs := (List.range 3).map (celogHash key)
    if hs.all fun h => c.bits.contains h then
      let n := min 255 (assocGet c.repeats u.bankKey + 1)
      let c := { c with repeats := assocSet c.repeats u.bankKey n }
      if n = fld ctl 31 24 && !c.reported.contains u.bankKey then
        ev 0x41 (s.setCelog { c with reported := u.bankKey :: c.reported })
      else s.setCelog c
    else ev 0x40 (s.setCelog { c with bits := hs.foldl insertAsc c.bits })

/-- R47: what a read that delivers data leaves of the errors it corrected: each is logged, and the corrected atom written back. -/
def State.scrub (s : State) (atom : Nat) : State :=
  if s.errs = [] then s
  else
    (s.checked atom).foldl (fun s q => match (s.decoded q).bind Decoded.sym with
      | some sym => { s with errs := s.errs.filter fun e => e.atom != q }.correctedError q sym
      | none => s) s

/-! ## Writes and reads at a controller (R44, R45, R51) -/

/-- The bytes of an atom with the enabled ones replaced. -/
def mergeAtom (old new : BitVec 256) (mask : BitVec 32) : BitVec 256 :=
  BitVec.ofNat 256 (leNat ((List.range 32).map fun i => if mask.getLsbD i then byteOf new.toNat i else byteOf old.toNat i))

/-- R44: a merge in secure memory writes the sector's other atom back as well, sealed; one that is sealed stays as it is. -/
def State.resealMate (s : State) (atom : Nat) : State :=
  let mate := if atom % 64 = 0 then atom + 32 else atom - 32
  if s.inSecure atom && !s.sealed.contains mate then s.putCells mate 32 (s.look mate 32) else s

/-- A write with byte enables at an atom's controller, for a launch: a whole atom is written as it is; otherwise the enabled bytes are
merged into what the atom reads as. A merge whose read fails is refused, nothing changes, and it is reported (R45). -/
def State.atomStore (s : State) (launch : Option Nat) (pa : Nat) (mask : BitVec 32) (data : BitVec 256) : State :=
  if mask = 0 then s
  else if mask = ~~~ 0#32 then s.ramStore pa 32 data.toNat
  else
    match s.readOut pa with
    | .ok => ((s.scrub pa).resealMate pa).ramStore pa 32 (mergeAtom (s.atom pa) data mask).toNat
    | .bad => s.memEvent 0x44 pa launch
    | .tag => s.memEvent 0x43 pa launch true

/-- The part of a run of `n` bytes at `pa` that lies in one atom: its enables and its bytes in place. -/
def atomPart (pa n x atom : Nat) : BitVec 32 × BitVec 256 :=
  let lo := max pa atom - atom
  let hi := min (pa + n) (atom + 32) - atom
  (BitVec.ofNat 32 (2 ^ hi - 2 ^ lo), BitVec.ofNat 256 (x / 256 ^ (atom + lo - pa) % 256 ^ (hi - lo) * 256 ^ lo))

/-- A run of bytes written atom by atom. -/
def State.eachAtom (s : State) (pa n x : Nat) (put : State → Nat → BitVec 32 → BitVec 256 → State) : State :=
  if n = 0 then s
  else
    (List.range ((pa + n - 1) / 32 - pa / 32 + 1)).foldl (fun s i =>
      let atom := (pa / 32 + i) * 32
      let p := atomPart pa n x atom
      put s atom p.1 p.2) s

/-- `n` bytes stored in RAM by the part itself. -/
def State.storeAt (s : State) (launch : Option Nat) (pa n x : Nat) : State :=
  s.eachAtom pa n x fun s atom mask data => s.atomStore launch atom mask data

/-- The bytes of a run, each at its address. -/
def cellsAt (pa n x : Nat) : List (Nat × Byte) := (List.range n).map fun i => (pa + i, byteOf x i)

/-- A write to device registers or to the register aperture by an engine or for a record, in a world: it reaches them before the next move,
one to the aperture once its band stands between clauses (R160, R398; log 39). -/
def State.postWrite (s : State) (cells : List (Nat × Byte)) (secure : Bool) : State := { s with posted := s.posted ++ [(cells, secure)] }

/-- A store without translation, in a world, to a physical address that a register or record names: RAM, under R51; device registers, under
R4; a posted write through the host window (R397); an unpopulated address stops the machine (R39, log 4). -/
def State.physStore (s : State) (pa n x : Nat) (secure : Bool) : State :=
  match s.kindOf pa with
  | .ram => s.eachAtom pa n x fun s atom mask data =>
      if !secure && s.inSecure atom then s.secureEvent atom else s.atomStore none atom mask data
  | .host => s.send (.pcieWrite (s.pcieOf pa) ((List.range n).map (byteOf x)))
  | .hole => { s with stray := some pa }
  | _ => s.postWrite (cellsAt pa n x) secure

/-- A byte of RAM as a read by the part finds it, in a world: zero where R51 refuses it; an atom that cannot be read gives a free byte
where no rule says what its reader gets (DESIGN CHOICE, log 30). -/
def State.ramByte (s : State) (secure : Bool) (a : Nat) : Byte :=
  if !secure && s.inSecure a then 0
  else if s.readOut (a / 32 * 32) == .ok then s.seen a
  else Config.freeByte (s.freeCtr + a)

/-- `n` bytes read without translation, in a world: RAM, a device register (R398), or host memory, which answers with free bytes; where
nothing answers, zero (DESIGN CHOICE, log 11). -/
def State.physRead (s : State) (pa n : Nat) (secure : Bool) : Nat :=
  match s.kindOf pa with
  | .ram =>
    if s.anyRegion = false ∧ s.poison = [] ∧ s.errs = [] then s.look pa n else leNat ((List.range n).map fun i => s.ramByte secure (pa + i))
  | .device => s.devRead (pa - deviceBase) n secure
  | .host => leNat ((List.range n).map fun i => Config.freeByte (s.freeCtr + pa + i))
  | _ => 0

/-- The atoms of a run of bytes. -/
def atomsOfRun (pa n : Nat) : List Nat := if n = 0 then [] else (List.range ((pa + n - 1) / 32 - pa / 32 + 1)).map fun i => (pa / 32 + i) * 32

/-- What such a read leaves: errors corrected, and atoms refused under R51 reported; a read of the host window is a request on PCIe (R397). -/
def State.physTouch (s : State) (pa n : Nat) (secure : Bool) : State :=
  if s.kindOf pa == .host then s.send (.pcieRead (s.pcieOf pa) n)
  else if s.kindOf pa != .ram then s
  else (atomsOfRun pa n).foldl (fun s q =>
    if !secure && s.inSecure q then s.secureEvent q else if s.readOut q == .ok then s.scrub q else s) s

/-! ## Writes of launches -/

/-- A page of 4 KiB copied, with what cannot be read of it poisoned (R47). -/
def State.copyPage (s : State) (src dst : Nat) : State :=
  let bad := (List.range 128).filter fun i => s.readOut (src + 32 * i) != .ok
  let s := s.ramStore dst 4096 (s.look src 4096)
  { s with poison := bad.foldl (fun p i => insertAsc p (dst + 32 * i)) s.poison }

/-- R379, R382: before the first write of a run to an armed granule, the granule is copied to the next free pool frame; with no
frame free the granule is written without a copy and FSUM bit 8 is set. -/
def State.armWrite (s : State) (u run pa : Nat) : State :=
  match s.launch? u with
  | none => s
  | some l =>
    match l.granule? run pa with
    | some g =>
      if !g.armed then s
      else if l.poolNext < l.poolN then
        let j := l.poolNext
        let s := s.copyPage g.pa (l.poolBase + 4096 * j)
        let s := s.storeAt (some u) (l.poolBase + 4096 * l.poolN + 8 * j) 8 g.pa
        s.modLaunch u fun l => { l.setGranule { g with armed := false, frame := some j } with poolNext := j + 1 }
      else (s.modLaunch u fun l => l.setGranule { g with armed := false }).sumBit u 8
    | none => s

/-- A write with byte enables performed at an atom's home, of the launch and run `who`. -/
def State.homeWrite (s : State) (who : Option (Nat × Nat)) (pa : Nat) (mask : BitVec 32) (data : BitVec 256) : State :=
  if mask = 0 then s
  else
    match who with
    | some (u, r) => let s := s.armWrite u r pa; s.atomStore (some u) (s.viewOf u r pa) mask data
    | none => s.atomStore none pa mask data

/-- R47: an engine writes an atom from poisoned data: the bytes it would write are poisoned with the atom. -/
def State.homePoison (s : State) (who : Option (Nat × Nat)) (pa : Nat) : State :=
  let s := match who with | some (u, r) => s.armWrite u r pa | none => s
  let pa := match who with | some (u, r) => s.viewOf u r pa | none => pa
  { s with poison := insertAsc s.poison (pa / 32 * 32) }

/-- The world of a launch. -/
def State.worldOf (s : State) (u : Nat) : Bool := s.launches.any fun l => l.uid == u && l.lr.wrld

/-- `n` bytes written by an engine or the part for a launch, at a translated physical address, atom by atom: device registers are judged
with the launch's world (R398). -/
def State.writeFor (s : State) (who : Option (Nat × Nat)) (pa n x : Nat) : State :=
  s.eachAtom pa n x fun s atom mask data =>
    let lo := max pa atom
    let m := min (pa + n) (atom + 32) - lo
    match s.kindOf atom with
    | .ram => s.homeWrite who atom mask data
    | .host => s.send (.pcieWrite (s.pcieOf lo) ((List.range m).map (byteOf (x / 256 ^ (lo - pa)))))
    | .hole => { s with stray := some atom }
    | _ => s.postWrite (cellsAt lo m (x / 256 ^ (lo - pa))) (match who with | some (u, _) => s.worldOf u | none => false)

/-- `n` bytes read at a translated physical address for a launch and run (R382's view): RAM, a device register as its world reads it
(R398), free bytes from host memory, zero where nothing answers (DESIGN CHOICE, log 11). -/
def State.readFor (s : State) (who : Option (Nat × Nat)) (pa n : Nat) : Nat :=
  leNat ((List.range n).map fun i =>
    let a := pa + i
    let a := match who with | some (u, r) => s.viewOf u r a | none => a
    match s.kindOf a with
    | .ram => s.ramByte true a
    | .device => s.devByte (a - deviceBase) (match who with | some (u, _) => s.worldOf u | none => false)
    | .host => Config.freeByte (s.freeCtr + a)
    | _ => 0)

/-- The atoms that a read of a launch touches, and what it leaves of the errors it corrected; a read of the host window is a request on PCIe
(R397). -/
def State.readTouch (s : State) (who : Option (Nat × Nat)) (pa n : Nat) : State :=
  if s.kindOf pa == .host then s.send (.pcieRead (s.pcieOf pa) n)
  else if s.errs = [] then s
  else (atomsOfRun pa n).foldl (fun s q =>
    let q := match who with | some (u, r) => s.viewOf u r q | none => q
    if s.kindOf q == .ram && s.readOut q == .ok then s.scrub q else s) s

end Sys2Proof.Machine
end

