-- ==== Sys2Proof/Machine/Carve.lean ====
section
/-! DEFINITION. Carve-outs of the local store (R75) and roles of its banks (R78). -/

namespace Sys2Proof.Machine

/-- A carve-out of R75: banks of SP, AB, WB, CB and XC, and the workgroups a core holds. -/
structure Carve where
  sp : Nat
  ab : Nat
  wb : Nat
  cb : Nat
  xc : Nat
  w : Nat
  deriving DecidableEq, Repr

def carveMenu (e : Nat) : Carve :=
  match e with
  | 0 => ⟨8, 8, 2, 8, 6, 4⟩
  | 1 => ⟨4, 8, 2, 16, 2, 4⟩
  | 2 => ⟨2, 12, 2, 16, 0, 2⟩
  | 3 => ⟨24, 0, 0, 0, 8, 4⟩
  | 4 => ⟨8, 0, 0, 0, 24, 4⟩
  | 5 => ⟨8, 16, 0, 8, 0, 4⟩
  | 6 => ⟨16, 4, 2, 4, 6, 2⟩
  | _ => ⟨32, 0, 0, 0, 0, 1⟩

/-- The manual carve-out of a launch record (R78). -/
def manualCarve : Nat := 8

/-- R75, R78: workgroups that a core holds under an entry. -/
def carveSlots (e : Nat) : Nat := if e = manualCarve then 1 else (carveMenu e).w

def Space.role : Space → Nat
  | .sp => 0
  | .ab => 1
  | .wb => 2
  | .cb => 3
  | .mem => 7

/-- s27 of a range-lock trap (R369). -/
def Space.code : Space → Nat
  | .mem => 0
  | .sp => 1
  | .ab => 2
  | .wb => 3
  | .cb => 4

/-- The banks of a role under a carve-out, in ascending order. -/
def Carve.banks (c : Carve) (role : Nat) : List Nat :=
  match role with
  | 0 => List.range c.sp
  | 1 => (List.range c.ab).map (· + c.sp)
  | 2 => (List.range c.wb).map (· + (c.sp + c.ab))
  | 3 => (List.range c.cb).map (· + (c.sp + c.ab + c.wb))
  | 4 => (List.range c.xc).map (· + (c.sp + c.ab + c.wb + c.cb))
  | _ => []

def State.banks (s : State) (core carve role : Nat) : List Nat :=
  if carve = manualCarve then (List.range 32).filter fun k => s.roleReg core k == role else (carveMenu carve).banks role

/-- The carve-out a core is under: that of a workgroup it holds; none where it is idle. -/
def State.coreCarve (s : State) (core : Nat) : Option Nat :=
  match s.wgs.find? fun w => w.resident && w.core == core with
  | some w => (s.launch? w.launch).map fun l => l.lr.carve
  | none => none

/-- R71: ways of a core's L1. -/
def State.l1Ways (s : State) (core : Nat) : Nat :=
  let xc := if s.manual core then (s.banks core manualCarve 4).length
    else match s.coreCarve core with | some e => (s.banks core e 4).length | none => 0
  20 + 4 * xc

end Sys2Proof.Machine
end

