-- ==== Sys2Proof/Machine/L1.lean ====
section
/-! DEFINITION. The L1 (R71 to R74): what it holds, fills, stores, write-backs, replacement. -/

namespace Sys2Proof.Machine

/-- Classes of leaf that the L1 caches (R71): normal and streaming. -/
def cachedClass (cc : Nat) : Bool := cc == 0 || cc == 4

def State.line? (s : State) (core line : Nat) : Option L1Line := s.l1.find? fun l => l.core == core && l.line == line

def State.setLine (s : State) (l : L1Line) : State :=
  { s with l1 := l :: s.l1.filter fun x => !(x.core == l.core && x.line == l.line) }

def State.dropLine (s : State) (core line : Nat) : State :=
  { s with l1 := s.l1.filter fun x => !(x.core == core && x.line == line) }

/-- The part of a line's masks and bytes that is its atom k. -/
def L1Line.validOf (l : L1Line) (k : Nat) : BitVec 32 := l.valid.extractLsb' (32 * k) 32
def L1Line.dirtyOf (l : L1Line) (k : Nat) : BitVec 32 := l.dirty.extractLsb' (32 * k) 32
def L1Line.dataOf (l : L1Line) (k : Nat) : BitVec 256 := l.data.extractLsb' (256 * k) 256

/-- Bytes of an atom of a line replaced, dirty where a launch stores them. -/
def L1Line.setAtom (l : L1Line) (k : Nat) (mask : BitVec 32) (x : BitVec 256) (dirty : Option Nat) : L1Line :=
  let y := mergeAtom (l.dataOf k) x mask
  { l with
    valid := l.valid ||| (mask.setWidth 128 <<< (32 * k))
    dirty := if dirty.isSome then l.dirty ||| (mask.setWidth 128 <<< (32 * k)) else l.dirty
    owner := dirty <|> l.owner
    data := (l.data &&& ~~~ (((~~~ 0#256).setWidth 1024) <<< (256 * k))) ||| (y.setWidth 1024 <<< (256 * k)) }

/-- R74: a line's dirty bytes written to their homes, exactly those enabled; the write belongs to the launch that stored there last (R45,
log 6). -/
def State.writeBack (s : State) (l : L1Line) : State :=
  (List.range 4).foldl (fun s k => s.atomStore l.owner (l.line * 128 + 32 * k) (l.dirtyOf k) (l.dataOf k)) s

/-- A line is written back and leaves the L1. -/
def State.flushLine (s : State) (core line : Nat) : State :=
  match s.line? core line with
  | some l => (s.writeBack l).dropLine core line
  | none => s

/-- R71: room for a line in its set; which line is replaced is not specified (a free choice, log 6). -/
def State.l1Room (s : State) (core line : Nat) : State :=
  let set := s.l1.filter fun l => l.core == core && l.line % 128 == line % 128
  if set.length < s.l1Ways core then s
  else
    match set[Config.freePick s.freeCtr set.length % set.length]? with
    | some v => (s.flushLine core v.line).tick 1
    | none => s

/-- Bytes enter a line, which is allocated where it is absent, dirty where a launch stores them; `keep` leaves the bytes the line already
holds. -/
def State.l1Put (s : State) (core pa : Nat) (mask : BitVec 32) (x : BitVec 256) (dirty : Option Nat) (keep : Bool) : State :=
  let line := pa / 128
  let k := pa / 32 % 4
  match s.line? core line with
  | some l => s.setLine (l.setAtom k (if keep then mask &&& ~~~ l.validOf k else mask) x dirty)
  | none => (s.l1Room core line).setLine ((L1Line.mk core line 0 0 0 none).setAtom k mask x dirty)

/-- Bytes of a line that the L1 holds are brought up to what its core stored or read at home (R72, R120); dirty bytes stay. -/
def State.l1Update (s : State) (core pa : Nat) (mask : BitVec 32) (x : BitVec 256) : State :=
  match s.line? core (pa / 128) with
  | some l => s.setLine (l.setAtom (pa / 32 % 4) (mask &&& l.validOf (pa / 32 % 4) &&& ~~~ l.dirtyOf (pa / 32 % 4)) x none)
  | none => s

/-- The bytes of an atom that an L1 holds, all of a mask, or none. -/
def State.l1Hit (s : State) (core pa : Nat) (mask : BitVec 32) : Option (BitVec 256) :=
  match s.line? core (pa / 128) with
  | some l => if l.validOf (pa / 32 % 4) &&& mask == mask then some (l.dataOf (pa / 32 % 4)) else none
  | none => none

/-- Dirty bytes of the L1 laid over an atom read at home. -/
def State.l1Over (s : State) (core pa : Nat) (x : BitVec 256) : BitVec 256 :=
  match s.line? core (pa / 128) with
  | some l => mergeAtom x (l.dataOf (pa / 32 % 4)) (l.validOf (pa / 32 % 4))
  | none => x

/-- R85: the lines of a core that overlap a region, dirty or clean, are invalidated. -/
def State.dropRegion (s : State) (core pbase len : Nat) : State :=
  s.dropLines fun l => l.core == core && decide (pbase ≤ l.line / 512) && decide (l.line / 512 < pbase + len)

/-- R86: the dirty lines of a region are written back and its lines invalidated. -/
def State.releaseRegion (s : State) (core pbase len : Nat) : State :=
  let ls := s.l1.filter fun l => l.core == core && decide (pbase ≤ l.line / 512) && decide (l.line / 512 < pbase + len)
  (ls.foldl (fun s l => s.writeBack l) s).dropRegion core pbase len

/-- The atoms of a line enter the L1, those that can be read, errors corrected: a fill consumes nothing (R47). Bytes already held stay. -/
def State.fillLine (s : State) (core pa : Nat) : State :=
  (List.range 4).foldl (fun s k =>
    let a := pa / 128 * 128 + 32 * k
    if s.readOut a == .ok then (s.scrub a).l1Put core a (~~~ 0#32) (s.atom a) none true else s) s

end Sys2Proof.Machine
end

