-- ==== Sys2Proof/Machine/Translate.lean ====
section
/-! DEFINITION. Page tables, leaves, version sets, translation and its checks (R54 to R67). -/

namespace Sys2Proof.Machine

/-- Kinds of access (R59, R369). -/
inductive Acc where
  | load | store | atomic | fetch
  deriving DecidableEq, Repr

def Acc.code : Acc → Nat
  | .load => 0 | .store => 1 | .atomic => 2 | .fetch => 3

/-- Kinds of translation failure (R59): the engine error codes of R97 are 1, 2, 3. -/
inductive FaultKind where
  | absent | permission | world
  deriving DecidableEq, Repr

def FaultKind.code : FaultKind → Nat
  | .absent => 1 | .permission => 2 | .world => 3

structure TrFault where
  kind : FaultKind
  malformed : Bool
  nonCanon : Bool
  deriving DecidableEq, Repr

/-- s27 of a translation trap (R369). -/
def TrFault.s27 (f : TrFault) (a : Acc) : W64 :=
  BitVec.ofNat 64 (a.code + (if f.malformed then 256 else 0) + (if f.nonCanon then 512 else 0))

/-- Fields of a leaf (R56). -/
def pteV (e : W64) : Bool := e.getLsbD 0
def pteL (e : W64) : Bool := e.getLsbD 1
def pteRD (e : W64) : Bool := e.getLsbD 2
def pteW (e : W64) : Bool := e.getLsbD 3
def pteX (e : W64) : Bool := e.getLsbD 4
def pteP (e : W64) : Bool := e.getLsbD 5
def pteWrld (e : W64) : Bool := e.getLsbD 6
def pteTier (e : W64) : Bool := e.getLsbD 7
def pteVer (e : W64) : Bool := e.getLsbD 8
def pteCC (e : W64) : Nat := fld e 11 9
def pteAddr (e : W64) : Nat := fld e 51 12 * 4096
def pteSize (e : W64) : Nat := fld e 55 52
def pteVsidx (e : W64) : Nat := fld e 63 58

/-- R57: a frame of a page of 2^(12+k) bytes that no leaf may map. -/
def State.badFrame (s : State) (pte : W64) (k frame : Nat) : Bool :=
  frame % 2 ^ (12 + k) != 0 || s.kindOf frame == .hole || (s.kindOf frame == .device && !pteP pte)

/-- R57: TIER disagrees with the frame's range. The frames of a versioned page may lie in either tier: it migrates by publication (R68). -/
def badTier (pte : W64) (frame : Nat) : Bool := pteTier pte != (decide (ddrBase ≤ frame) && decide (frame < ddrBase + 2 ^ 42))

/-- R57: a malformed leaf at a level. -/
def State.badLeaf (s : State) (level : Nat) (e : W64) : Bool :=
  let k := pteSize e
  decide (2 ≤ level) || (level == 0 && decide (8 < k)) || (level == 1 && decide (k < 9)) || fld e 57 56 != 0
    || decide (4 < pteCC e)
    || (if pteVer e then decide (k < 4) || decide (9 < k) else pteVsidx e != 0 || s.badFrame e k (pteAddr e) || badTier e (pteAddr e))

/-! ## Version sets (R63) -/

def vsCtl (s : State) (set : Nat) : W64 := s.word set
def vsFrame (s : State) (set j : Nat) : Nat := (s.word (set + 8 + 8 * j)).toNat
def vsVer (s : State) (set j : Nat) : W32 := BitVec.ofNat 32 (s.look (set + 40 + 4 * j) 4)
def vsState (ctl : W64) (j : Nat) : Nat := fld ctl (2 * j + 5) (2 * j + 4)
def vsValid (ctl : W64) : Bool := ctl.getLsbD 12
def vsN (ctl : W64) : Nat := fld ctl 3 2 + 1
def vsCur (ctl : W64) : Nat := fld ctl 1 0

/-- R63: a malformed version set. The bits that must be zero are those of all four FRM; the alignment of R56 is that of the NFR + 1
frames. -/
def State.badSet (s : State) (pte : W64) (set : Nat) : Bool :=
  let c := vsCtl s set
  fld c 3 2 == 0 || (List.range 4).any (fun j => vsState c j == 3)
    || (List.range 4).any (fun j => vsFrame s set j % 4096 != 0 || decide (2 ^ 52 ≤ vsFrame s set j))
    || (List.range (vsN c)).any (fun j => vsFrame s set j % 2 ^ (12 + pteSize pte) != 0)
    || (vsValid c && (decide (fld c 3 2 < vsCur c) || vsState c (vsCur c) != 2))

/-- The version set of a versioned leaf. -/
def setOf (pte : W64) : Nat := pteAddr pte + 64 * pteVsidx pte

/-- The two atoms of a version set. -/
def setAtoms (set : Nat) : List Nat := [set / 64 * 64, set / 64 * 64 + 32]

/-- A version set that its controller cannot read (R47, R49). -/
def State.unreadSet (s : State) (set : Nat) : Bool := (setAtoms set).any fun q => s.kindOf q == .ram && s.readOut q != .ok

/-- The current frame of a page and its version (R66): while an advance has not completed, those that the first one moves CUR off. -/
def State.currentOf (s : State) (set : Nat) : Option (Nat × W32) :=
  let c := vsCtl s set
  match s.advances.find? fun a => a.set == set with
  | some a => a.old.bind fun f => ((List.range (vsN c)).find? fun j => vsFrame s set j == f).map fun j => (f, vsVer s set j)
  | none => if vsValid c then some (vsFrame s set (vsCur c), vsVer s set (vsCur c)) else none

/-- The binding that a walk makes (R66). -/
def State.bindingOf (s : State) (pte : W64) : Option Binding :=
  if pteVer pte then some ⟨setOf pte, s.currentOf (setOf pte)⟩ else none

/-- R64: p is at least v; p is newer than v. -/
def verAtLeast (p v : W32) : Bool := decide ((p - v).toNat < 2 ^ 31)
def verNewer (p v : W32) : Bool := verAtLeast p v && p != v

/-! ## Translation -/

/-- Who translates (R54, R59): the TLB holder, the launch's root index and latched root, world and privilege. -/
structure Ctx where
  agent : Agent
  root : Nat
  rootReg : W64
  world : Bool
  priv : Bool
  deriving DecidableEq, Repr

/-- A translation: physical address, class, the leaf, and the binding of a versioned page. -/
structure Tr where
  pa : Nat
  cc : Nat
  pte : W64
  bind : Option Binding
  deriving DecidableEq, Repr

/-- Entries of a holder (R61). -/
def tlbCapacity : Agent → Nat
  | .quad _ _ => 64
  | .core _ => 2048
  | .copy _ => 128
  | .tailrace _ _ => 16
  | .prism _ => 32
  | .flume _ => 256
  | .command => 0

def dieOf (core : Nat) : Nat := core / 60

/-- The core of a holder. -/
def agentCore? : Agent → Option Nat
  | .quad c _ | .core c | .copy c | .tailrace c _ | .prism c => some c
  | .flume _ | .command => none

/-- Where a translation is looked up, in order: the core TLB stands behind a quadrant's (R61). -/
def agentHolders : Agent → List Agent
  | .quad c q => [.quad c q, .core c]
  | a => [a]

def TlbEntry.covers (t : TlbEntry) (a : Agent) (c : Ctx) (va : Nat) : Bool :=
  t.agent == a && t.root == c.root && t.world == c.world && va / 2 ^ (12 + t.k) * 2 ^ (12 + t.k) == t.vbase

def State.tlbHit (s : State) (c : Ctx) (va : Nat) : Option TlbEntry :=
  (agentHolders c.agent).findSome? fun a => s.tlb.find? fun t => t.covers a c va

/-! ## Walks (R55, R61) -/

/-- The span of an entry of a level, as a power of two. -/
def levelShift (level : Nat) : Nat := 12 + 9 * level

/-- What a walk reads at a level; none where the entry cannot be read (R47). -/
def State.tableEntry (s : State) (at_ : Nat) : Option W64 :=
  if s.kindOf at_ == .ram && s.readOut (at_ / 32 * 32) != .ok then none else some (BitVec.ofNat 64 (s.physRead at_ 8 true))

/-- The walk from a table: the leaf of an address, read at the home controllers; none with the malformed detail. Of the replicas of a leaf
the one at the address's own index serves (R58 permits any: DESIGN CHOICE, log 31). The tables are read with no world of their own
(DEDUCED, log 31). -/
def State.walkFrom (s : State) (va : Nat) : List Nat → Nat → Except Bool W64
  | [], _ => .error true
  | level :: rest, table =>
    match s.tableEntry (table + 8 * (va / 2 ^ levelShift level % 512)) with
    | none => .error true
    | some e =>
      if !pteV e then .error false
      else if pteL e then (if s.badLeaf level e then .error true else .ok e)
      else if level = 0 then .error true
      else State.walkFrom s va rest (pteAddr e)

/-- The entry of a walk cache for a level of an address (R61): each compute die has one, and a Flume or the command processor has none. -/
def State.cached? (s : State) (c : Ctx) (va level : Nat) : Option W64 :=
  match agentCore? c.agent with
  | none => none
  | some core => (s.wcache.find? fun e => e.die == dieOf core && e.root == c.root && e.world == c.world && e.level == level
      && e.tag == va / 2 ^ levelShift level).map WalkEntry.pte

/-- Where a walk starts: below the lowest table entry that the walk cache holds, else at the root (R54). -/
def State.walkStart (s : State) (c : Ctx) (va : Nat) : List Nat × Nat :=
  match ([1, 2, 3, 4].findSome? fun l => (s.cached? c va l).map fun e => (l, e)) with
  | some (l, e) => ((List.range l).reverse, pteAddr e)
  | none => ([4, 3, 2, 1, 0], fld c.rootReg 51 12 * 4096)

/-- A walk reads the version set of a versioned leaf too (R61), and finds no binding where that cannot be read (R47). -/
def State.walk (s : State) (c : Ctx) (va : Nat) : Except Bool W64 :=
  match s.walkFrom va (s.walkStart c va).1 (s.walkStart c va).2 with
  | .ok e => if pteVer e && s.unreadSet (setOf e) then .error true else .ok e
  | .error m => .error m

/-- The entries that a walk reads: level, address and value. -/
def State.walkReads (s : State) (va : Nat) : List Nat → Nat → List (Nat × Nat × W64)
  | [], _ => []
  | level :: rest, table =>
    let at_ := table + 8 * (va / 2 ^ levelShift level % 512)
    match s.tableEntry at_ with
    | none => []
    | some e => (level, at_, e) :: (if pteV e && !pteL e then State.walkReads s va rest (pteAddr e) else [])

/-- The atoms that a walk reads: of its table entries, and of the version set. -/
def State.walkAtoms (s : State) (rs : List (Nat × Nat × W64)) : List Nat :=
  (rs.flatMap fun r => r.2.1 / 32 * 32 :: if pteV r.2.2 && pteL r.2.2 && pteVer r.2.2 then setAtoms (setOf r.2.2) else []).filter
    fun q => s.kindOf q == .ram

/-- The address within its page. -/
def pageOffset (k va : Nat) : Nat := va % 2 ^ (12 + k)

/-- R59: the checks of a leaf for an access, in the order of the table. Those of R57 that depend on the frame are made of the frame that
the page is bound to. A frame must lie outside every secure region whole. -/
def State.checkLeaf (s : State) (c : Ctx) (a : Acc) (pte : W64) (bind : Option Binding) (va : Nat) : Except TrFault Tr :=
  let perm := match a with
    | .load => pteRD pte
    | .store => pteW pte
    | .atomic => pteRD pte && pteW pte
    | .fetch => pteX pte
  let bound := bind.all fun b => b.cur.isSome
  let frame := match bind with
    | some b => (b.cur.map Prod.fst).getD 0
    | none => pteAddr pte
  if pteVer pte && (s.badSet pte (setOf pte) || (bound && s.badFrame pte (pteSize pte) frame)) then .error ⟨.absent, true, false⟩
  else if !perm then .error ⟨.permission, false, false⟩
  else if pteP pte && !c.priv then .error ⟨.permission, false, false⟩
  else if pteVer pte && (a == .store || a == .atomic) then .error ⟨.permission, false, false⟩
  else if !c.world && (pteWrld pte || (bound && s.meetsSecure frame (2 ^ (12 + pteSize pte)))) then .error ⟨.world, false, false⟩
  else .ok ⟨frame + pageOffset (pteSize pte) va, pteCC pte, pte, bind⟩

/-- The leaf that serves an address: the TLB's, or the walk's. -/
def State.leafFor (s : State) (c : Ctx) (va : Nat) : Except Bool (W64 × Option Binding) :=
  match s.tlbHit c va with
  | some t => .ok (t.pte, t.bind)
  | none =>
    match s.walk c va with
    | .ok pte => .ok (pte, s.bindingOf pte)
    | .error m => .error m

/-- Translation of one address for an access. -/
def State.translate (s : State) (c : Ctx) (a : Acc) (va : W64) : Except TrFault Tr :=
  if va.toNat / 2 ^ 57 ≠ 0 then .error ⟨.absent, false, true⟩
  else
    match s.leafFor c va.toNat with
    | .error m => .error ⟨.absent, m, false⟩
    | .ok (pte, bind) => s.checkLeaf c a pte bind va.toNat

/-- R60: a miss holds the band; the walk that fails is reported at once, the one that finds a leaf ends by PAGE_WALK_COMPLETE. -/
def State.missing (s : State) (c : Ctx) (va : W64) : Bool :=
  decide (va.toNat / 2 ^ 57 = 0) && (s.tlbHit c va.toNat).isNone &&
    (match s.walk c va.toNat with | .ok _ => true | .error _ => false)

/-- Which of `n` entries gives way to a new one is not stated (a free choice, log 7). -/
def State.victim (s : State) (n : Nat) : Nat := Config.freePick s.freeCtr n % n

/-- An entry joins its holder, whose capacity it keeps. -/
def State.tlbPut (s : State) (t : TlbEntry) : State :=
  let held := s.tlb.filter fun x => x.agent == t.agent
  if tlbCapacity t.agent = 0 then s
  else if held.length < tlbCapacity t.agent then { s with tlb := t :: s.tlb }
  else
    match held[s.victim held.length]? with
    | some v => { s with tlb := t :: s.tlb.erase v, freeCtr := s.freeCtr + 1 }
    | none => s

/-- A table entry joins a die's walk cache of 4,096 entries. -/
def State.wcachePut (s : State) (e : WalkEntry) : State :=
  let held := s.wcache.filter fun x => x.die == e.die
  if held.length < 4096 then { s with wcache := e :: s.wcache }
  else
    match held[s.victim held.length]? with
    | some v => { s with wcache := e :: s.wcache.erase v, freeCtr := s.freeCtr + 1 }
    | none => s

/-- What a completed walk leaves of what it read: errors corrected (R47), requests on PCIe for table entries in the host window (R397), and
table entries in the walk cache of its die. -/
def State.walkLeaves (s : State) (c : Ctx) (va : Nat) : State :=
  let rs := s.walkReads va (s.walkStart c va).1 (s.walkStart c va).2
  let s := (s.walkAtoms rs).foldl (fun s q => s.scrub q) s
  let s := (rs.filter fun r => s.kindOf r.2.1 == .host).foldl (fun s r => s.send (.pcieRead (s.pcieOf r.2.1) 8)) s
  match agentCore? c.agent with
  | none => s
  | some core => (rs.filter fun r => pteV r.2.2 && !pteL r.2.2 && r.1 != 0).foldl (fun s r =>
      s.wcachePut ⟨dieOf core, c.root, c.world, r.1, va / 2 ^ levelShift r.1, r.2.2⟩) s

/-- The entries that an agent's completed miss leaves (R61): a quadrant's is refilled from the core TLB where that holds the page, and by a
walk that fills both otherwise. -/
def State.tlbFill (s : State) (c : Ctx) (va : Nat) : State :=
  match s.tlbHit c va with
  | some t => if t.agent = c.agent then s else s.tlbPut { t with agent := c.agent }
  | none =>
    match s.walk c va with
    | .error _ => s
    | .ok pte =>
      let k := pteSize pte
      let bind := s.bindingOf pte
      (agentHolders c.agent).foldl (fun s a => s.tlbPut ⟨a, c.root, c.world, va / 2 ^ (12 + k) * 2 ^ (12 + k), k, pte, bind⟩) (s.walkLeaves c va)

/-- A fault as a trap code (R369). -/
def FaultKind.trapCode : FaultKind → Nat
  | .absent => 0x11 | .permission => 0x12 | .world => 0x13

/-- The context of a launch's own translations by the command processor (no TLB holds them). -/
def Launch.ctx (l : Launch) (agent : Agent) (priv : Bool) : Ctx := ⟨agent, l.queue, l.root, l.lr.wrld, priv⟩

/-- A range of virtual addresses as (virtual address, physical address) of each byte's 4 KiB piece; the first failure otherwise. -/
def State.translatePieces (s : State) (c : Ctx) (a : Acc) : Nat → W64 → Nat → Except (W64 × TrFault) (List (Nat × Nat))
  | 0, _, _ => .ok []
  | fuel + 1, va, n =>
    if n = 0 then .ok []
    else
      match s.translate c a va with
      | .error f => .error (va, f)
      | .ok t =>
        let here := min n (4096 - va.toNat % 4096)
        match State.translatePieces s c a fuel (va + BitVec.ofNat 64 here) (n - here) with
        | .error e => .error e
        | .ok rest => .ok ((t.pa, here) :: rest)

/-- A range translated for an access: (physical address, length) pieces in order. -/
def State.pieces (s : State) (c : Ctx) (a : Acc) (va : W64) (n : Nat) : Except (W64 × TrFault) (List (Nat × Nat)) :=
  s.translatePieces c a (n / 4096 + 2) va n

/-- The bytes of pieces, for a launch and run. -/
def readPieces (s : State) (who : Option (Nat × Nat)) : List (Nat × Nat) → List Byte
  | [] => []
  | (pa, n) :: t =>
    let x := s.readFor who pa n
    (List.range n).map (byteOf x) ++ readPieces s who t

/-- What reading pieces leaves of the errors it corrected. -/
def State.touchPieces (s : State) (who : Option (Nat × Nat)) (ps : List (Nat × Nat)) : State :=
  ps.foldl (fun s p => s.readTouch who p.1 p.2) s

/-- The atoms of pieces that cannot be read, each with whether its tag fails (R47, R49). -/
def State.badPieces (s : State) (who : Option (Nat × Nat)) (ps : List (Nat × Nat)) : List (Nat × Bool) :=
  ((ps.map fun p => atomsOfRun p.1 p.2).flatten.map fun q => match who with | some (u, r) => s.viewOf u r q | none => q).filterMap fun q =>
    if s.kindOf q != .ram then none
    else match s.readOut q with | .ok => none | .bad => some (q, false) | .tag => some (q, true)

/-- Bytes laid down over pieces, for a launch and run. -/
def State.writePieces (s : State) (who : Option (Nat × Nat)) : List (Nat × Nat) → List Byte → State
  | [], _ => s
  | (pa, n) :: t, bs => State.writePieces (s.writeFor who pa n (leNat (bs.take n))) who t (bs.drop n)

end Sys2Proof.Machine
end

