-- ==== Sys2Proof/Machine/Plain.lean ====
section
/-! DEFINITION. Bands' accesses in flight and what they order (R119, R120, R134), and memory read and written as plain loads and stores of a
band's core: its stores in flight, its L1, the home controllers (R72, R74). -/

namespace Sys2Proof.Machine

/-! ## Contexts -/

def State.bandCtx (s : State) (b : Band) : Ctx :=
  match s.launch? b.launch with
  | some l => ⟨.quad b.place.core b.place.quad, l.queue, l.root, l.lr.wrld, b.privileged⟩
  | none => ⟨.quad b.place.core b.place.quad, 0, 0, false, b.privileged⟩

/-- Whose writes a band's are, for the write set (R379, R382). -/
def State.whoOf (s : State) (b : Band) : Option (Nat × Nat) := some (b.launch, s.runOf b.wg)

/-! ## What the band's earlier accesses have come to -/

def Access.undone (x : Access) : Bool := x.atoms.any fun a => !a.done

def OpKind.access? : OpKind → Option Access
  | .load x => some x
  | .store x => some x
  | .atomic _ x _ _ _ => some x
  | _ => none

def OpKind.writes : OpKind → Bool
  | .store _ | .atomic _ _ _ _ _ => true
  | _ => false

/-- The access reads as an acquire. -/
def OpKind.acquires (k : OpKind) (x : Access) : Bool :=
  (match k with | .store _ => false | _ => true) && (x.cls == 2 || x.cls == 4 || x.cls == 5)

/-- The access writes as a release. -/
def OpKind.releases (k : OpKind) (x : Access) : Bool := k.writes && (x.cls == 3 || x.cls == 4 || x.cls == 5)

/-- R134: an address lies in a record of completion, in the event ring or where a collective's is written (DEDUCED, log 40). -/
def State.isRecord (s : State) (pa : Nat) : Bool :=
  s.records.any (fun q => decide (q ≤ pa) && decide (pa < q + 32))
    || (s.ringOn && decide (fld (s.reg evrbase) 51 12 * 4096 ≤ pa) && decide (pa < fld (s.reg evrbase) 51 12 * 4096 + 32 * 2 ^ s.ringLog))

/-- A read by an operation of a record of completion acquires at scope system, whatever MODE holds (R134). -/
def State.readsRecord (s : State) (o : Op) (x : Access) : Bool :=
  (match o.kind with | .store _ => false | _ => true) && (s.ringOn || s.records != [])
    && x.atoms.any fun a => (List.range 32).any fun k => a.mask.getLsbD k && s.isRecord (s.viewOf o.launch o.run a.pa + k)

/-- The access reads as an acquire, by its class or of such a record. -/
def State.acquires (s : State) (o : Op) (x : Access) : Bool := o.kind.acquires x || s.readsRecord o x

/-- An access that is still to be performed: to memory, or an STM. -/
def OpKind.pending (k : OpKind) : Bool :=
  match k with
  | .stm _ _ _ => true
  | _ => match k.access? with | some x => x.undone | none => false

/-- R134: no earlier access of the band waits to be performed. -/
def State.accessesDone (s : State) (b : Band) : Bool := s.ops.all fun o => !(o.band == b.uid && o.kind.pending)

/-- An operation still has an atom to perform at an address of RAM. -/
def State.pendingAt (s : State) (o : Op) (pa : Nat) : Bool :=
  match o.kind.access? with
  | some x => x.atoms.any fun a => !a.done && s.viewOf o.launch o.run a.pa == pa / 32 * 32
  | none => false

/-- A read of a band that is made as its word issues may be made: no acquire of the band waits, and no earlier access to the atoms that a
read must follow, the band's own stores being seen in flight where `own` holds (R72, R119, R120). -/
def State.readNow (s : State) (b : Band) (own : Bool) (pas : List Nat) : Bool :=
  s.ops.all fun o =>
    !((o.band == b.uid && match o.kind.access? with | some x => x.undone && s.acquires o x | none => false) ||
      (o.place.core == b.place.core && (o.band == b.uid || o.kind.writes) &&
        !(own && o.band == b.uid && match o.kind with | .store _ => true | _ => false) && pas.any fun pa => s.pendingAt o pa))

/-! ## Plain reads made at once -/

/-- A byte of a physical address that is not RAM, as an engine or a descriptor read finds it: a device register's byte (R398), zero
where nothing answers, and for host memory a free byte (DESIGN CHOICE, log 11). -/
def State.otherByte (s : State) (secure : Bool) (pa : Nat) : Byte :=
  match s.kindOf pa with
  | .device => s.devByte (pa - deviceBase) secure
  | .host => Config.freeByte (s.freeCtr + pa)
  | _ => 0

/-- The youngest store of a band still in flight to a byte. -/
def State.pendingByte (s : State) (b : Band) (pa : Nat) : Option Byte :=
  s.ops.foldl (fun acc o =>
    match o.kind with
    | .store x =>
      if o.band == b.uid then
        match x.atoms.find? fun a => !a.done && s.viewOf o.launch o.run a.pa == pa / 32 * 32 && a.mask.getLsbD (pa % 32) with
        | some a => some (byteOf a.data.toNat (pa % 32))
        | none => acc
      else acc
    | _ => acc) none

/-- A byte as a plain load of a band finds it: the band's stores in flight, its core's L1, or the home (R72, R120). -/
def State.peekByte (s : State) (b : Band) (pa : Nat) : Byte :=
  let pa := s.viewOf b.launch (s.runOf b.wg) pa
  match s.kindOf pa with
  | .ram =>
    match s.pendingByte b pa with
    | some x => x
    | none =>
      match s.l1Hit b.place.core pa (1#32 <<< (pa % 32)) with
      | some d => byteOf d.toNat (pa % 32)
      | none => s.seen pa
  | _ => s.otherByte (s.bandCtx b).world pa

/-- An atom that the plain read of a band finds damaged: one that its core's L1 does not hold (R47, R49). -/
def State.readBad (s : State) (b : Band) (pa : Nat) : Option (Nat × KillCause) :=
  let q := s.viewOf b.launch (s.runOf b.wg) pa / 32 * 32
  if s.kindOf q != .ram || (s.l1Hit b.place.core q (1#32 <<< (pa % 32))).isSome then none
  else match s.readOut q with
    | .ok => none
    | .bad => some (q, .memUncorrectable)
    | .tag => some (q, .integrity)

/-- What a read of bytes (address and class of the leaf) as plain loads of a band comes to: it waits for accesses that it must follow, it
meets damaged atoms, whose bytes it has as zeros (R47), or it has the bytes. -/
inductive PlainRead where
  | hold
  | damaged (atoms : List (Nat × KillCause)) (bs : List Byte)
  | bytes (bs : List Byte)
  deriving DecidableEq, Repr

def State.plainRead (s : State) (b : Band) (pas : List (Nat × Nat)) : PlainRead :=
  if !s.readNow b true (pas.map fun x => s.viewOf b.launch (s.runOf b.wg) x.1) then .hold
  else
    match (pas.filterMap fun x => s.readBad b x.1).eraseDups with
    | [] => .bytes (pas.map fun x => s.peekByte b x.1)
    | ds => .damaged ds (pas.map fun x => if (s.readBad b x.1).isSome then 0 else s.peekByte b x.1)

/-- What such a read leaves: cached lines enter the core's L1 (R72), errors are corrected, reads of the host window are requests on PCIe
(R397). -/
def State.plainTouch (s : State) (b : Band) (pas : List (Nat × Nat)) : State :=
  let view := fun (pa : Nat) => s.viewOf b.launch (s.runOf b.wg) pa
  let ram := pas.filter fun x => s.kindOf (view x.1) == .ram
  let lines := dedup ((ram.filter fun x => cachedClass x.2).map fun x => view x.1 / 128 * 128)
  let atoms := dedup ((ram.filter fun x => !cachedClass x.2).map fun x => view x.1 / 32 * 32)
  let host := dedup ((pas.filter fun x => s.kindOf x.1 == .host).map fun x => x.1 / 32 * 32)
  host.foldl (fun s a => s.send (.pcieRead (s.pcieOf a) 32)) (atoms.foldl State.scrub (lines.foldl (fun s a => s.fillLine b.place.core a) s))

/-- R47, R174: a damaged atom that a band read is consumed by the band, which stops. -/
def State.consume (s : State) (b : Band) (pa : Nat) (c : KillCause) : State :=
  let cls := if c == .integrity then 0x43 else 0x42
  ((s.memEvent cls pa (some b.launch) (c == .integrity)).decideKill b.launch c).modBand b.uid fun b => { b with stopping := true }

/-- R47: a band consumes what its plain read found damaged. -/
def State.consumeAll (s : State) (b : Band) (ds : List (Nat × KillCause)) : State := ds.foldl (fun s d => s.consume b d.1 d.2) s

/-! ## Plain writes -/

/-- A write of a launch's run performed at an atom of RAM from a core. `l1` says whether its class uses the L1 where the core holds the region:
there it makes the line dirty (R74), else it is performed at home, a line that is present brought up to it (R72). -/
def State.coreStore (s : State) (core u run : Nat) (l1 : Bool) (pa : Nat) (mask : BitVec 32) (data : BitVec 256) : State :=
  let held := s.heldBy core (s.viewOf u run pa)
  if held && l1 then
    let s := s.armWrite u run pa
    s.l1Put core (s.viewOf u run pa) mask data (some u) false
  else
    let s := if held then s.flushLine core (s.viewOf u run pa / 128) else s
    (s.homeWrite (some (u, run)) pa mask data).l1Update core (s.viewOf u run pa) mask data

/-- Bytes (address and class of the leaf, and value) that the part stores for a band as plain stores: those of one atom at once. -/
def State.plainWrite (s : State) (b : Band) (xs : List ((Nat × Nat) × Byte)) : State :=
  (dedup (xs.map fun x => x.1.1 / 32 * 32)).foldl (fun s atom =>
    let here := xs.filter fun x => x.1.1 / 32 * 32 == atom
    let cc := match here with | x :: _ => x.1.2 | [] => 2
    let mask : BitVec 32 := here.foldl (fun m x => m ||| (1#32 <<< (x.1.1 % 32))) 0
    let data : BitVec 256 := here.foldl (fun d x =>
      mergeAtom d ((x.2.setWidth 256 : BitVec 256) <<< (8 * (x.1.1 % 32))) (1#32 <<< (x.1.1 % 32))) 0
    if s.kindOf atom == .ram then s.coreStore b.place.core b.launch (s.runOf b.wg) (cc != 2 && cc != 3) atom mask data
    else here.foldl (fun s x => s.writeFor (s.whoOf b) x.1.1 1 x.2.toNat) s) s

end Sys2Proof.Machine
end

