-- ==== Sys2Proof/Machine/Ops.lean ====
section
/-! DEFINITION. What instructions share: the names and the pool (R142 to R147), windows (R149, R152), issue and its checks (R172,
R177), the signature (R385), the end of a word (R173), taking a trap (R369 to R373) and returning from one (R374). -/

namespace Sys2Proof.Machine

/-! ## Trap codes (R369) -/

def tIllegalInstr : Nat := 0x01
def tIllegalOperand : Nat := 0x02
def tIllegalTarget : Nat := 0x03
def tPrivilege : Nat := 0x04
def tConvergence : Nat := 0x08
def tMatrixState : Nat := 0x09
def tRangeLock : Nat := 0x10
def tMisalign : Nat := 0x14
def tVersionWait : Nat := 0x15
def tApertureEmpty : Nat := 0x16
def tApertureForbidden : Nat := 0x17
def tFetch : Nat := 0x18
def tStraddle : Nat := 0x19
def tWinOverflow : Nat := 0x20
def tWinFault : Nat := 0x21
def tOverlay : Nat := 0x22
def tIllegalState : Nat := 0x23
def tSignature : Nat := 0x28
def tMaskCheck : Nat := 0x29
def tSoftware : Nat := 0x30

/-- Why a word does not issue: a trap (with s26 the word, or with given s26 and s27), an interlock or a wait for room, a wait
that an event ends, or an allocation stall (R142). -/
inductive Stop where
  | word (code : Nat)
  /-- As `word`, in a lane. -/
  | lane (code lane : Nat)
  | trap (code lane : Nat) (s26 s27 : W64)
  | hold
  | wait (w : Wait)
  | stall (nv ns : Nat)
  deriving DecidableEq, Repr

/-- How a word that issued ends: at the next word; at a header, or within its clause at `resume`; at a header once a wait ends; with
the band gone; or held at the word with its wait registered. -/
inductive Fin' where
  | next (s : State)
  | jump (s : State) (target : W64) (resume : Option W64)
  | leave (s : State) (target : W64) (w : Wait)
  | gone (s : State)
  | waiting (s : State)
  deriving DecidableEq, Repr

abbrev Try := Except Stop

def illegalOperand {α : Type} : Try α := .error (.word tIllegalOperand)
/-- The illegal-operand trap in the lowest lane of some (R372), if there is one. -/
def illegalLanes (ls : List Nat) : Try Unit :=
  match ls with
  | [] => .ok ()
  | i :: _ => .error (.lane tIllegalOperand i)
def illegalState {α : Type} : Try α := .error (.word tIllegalState)

/-- A check whose failure is the illegal-operand trap. -/
def need (c : Bool) : Try Unit := if c then .ok () else illegalOperand
/-- A condition without which the band is held at its word. -/
def holdUnless (c : Bool) : Try Unit := if c then .ok () else .error .hold

/-! ## MODE and lanes -/

def Band.guardField (b : Band) : Nat := (b.mode.extractLsb' 0 4).toNat
def Band.typ (b : Band) : Nat := (b.mode.extractLsb' 4 4).toNat
def Band.rnd (b : Band) : Nat := (b.mode.extractLsb' 8 3).toNat
def Band.sat (b : Band) : Bool := b.mode.getLsbD 11
def Band.ftz (b : Band) : Bool := b.mode.getLsbD 12
def Band.cls (b : Band) : BitVec 3 := b.mode.extractLsb' 16 3
def Band.scope (b : Band) : BitVec 3 := b.mode.extractLsb' 19 3

def Band.exec (b : Band) : W32 := b.m[0]

/-- R139: the enabled lanes. -/
def Band.lanes (b : Band) : W32 :=
  let g := b.guardField
  if g = 0 then b.exec else b.exec &&& b.m[g % 16]

/-- R182: the values of MODE that a write is refused for. -/
def modeRefused (mode : W32) : Bool :=
  decide (12 ≤ (mode.extractLsb' 4 4).toNat) || decide (6 ≤ (mode.extractLsb' 8 3).toNat)
    || decide (6 ≤ (mode.extractLsb' 16 3).toNat) || (mode.extractLsb' 19 3 == 7) || (mode.extractLsb' 24 8 != 0)

def Band.depth (b : Band) : Nat := b.frames.length
def Band.atHeader (b : Band) : Bool := b.pc == b.hdr

/-! ## Names and the register pool -/

/-- R146, R147: whether an operation in flight of the band will write a register that is not renamed. -/
def Dest.hits (d : Dest) (o a m : Option Nat) : Bool :=
  match d with
  | .o n pair => o == some n || (pair && o == some (n + 1))
  | .a n => a == some n
  | .m n => m == some n
  | _ => false

def OpKind.dest : OpKind → Dest
  | .load x => x.dest
  | .atomic _ x _ _ _ => x.dest
  | .localLoad d _ => d
  | .arith d _ _ => d
  | .relrg _ _ _ d => d
  | _ => .none

def State.regPending (s : State) (b : Band) (o a m : Option Nat) : Bool :=
  s.ops.any fun x => x.band == b.uid && (x.kind.dest).hits o a m

def State.aReady (s : State) (b : Band) (n : Nat) : Try Unit := holdUnless (!s.regPending b none (some n) none)
def State.mReady (s : State) (b : Band) (n : Nat) : Try Unit := holdUnless (!s.regPending b none none (some n))
def State.oReady (s : State) (b : Band) (n : Nat) : Try Unit := holdUnless (!s.regPending b (some n) none none)

/-- The enabled lanes, once no load of m0 or of the guard's mask is outstanding. -/
def State.lanesOf (s : State) (b : Band) : Try W32 := do
  s.mReady b 0
  if b.guardField ≠ 0 then s.mReady b b.guardField
  pure b.lanes

def vPriv (l : List VName) : Nat := (l.filter fun n => n.kind == .priv).length
def sPriv (l : List SName) : Nat := (l.filter fun n => n.kind == .priv).length
/-- A saved frame whose registers are in the pool: it is resident until it is spilled, and again once it is refilled (R156). -/
def Frame.held (f : Frame) : Bool := f.loc == .resident || f.loc == .spilling

/-- Physical vector registers that a band holds privately, resident frames included (R142). -/
def Band.vHeld (b : Band) : Nat := vPriv b.v.toList + ((b.frames.filter Frame.held).map fun f => vPriv f.hv).sum
/-- Its private s names, resident frames included. -/
def Band.sNames (b : Band) : List SName :=
  (b.s.toList ++ ((b.frames.filter Frame.held).map Frame.hs).flatten).filter fun n => n.kind == .priv
def Band.sHeld (b : Band) : Nat := b.sNames.length

/-- R140, R142: the band's footprint. -/
def Band.footprint (b : Band) : Nat := b.vHeld + (b.sHeld + 15) / 16

def State.quadBands (s : State) (core quad : Nat) : List Band :=
  s.bands.filter fun b => b.place.core == core && b.place.quad == quad && !b.parked

/-- The v names that a band maps, its frames' among them, and the s names. -/
def Band.vKinds (b : Band) : List MapKind := (b.v.toList ++ (b.frames.map Frame.hv).flatten).map fun n => n.kind
def Band.sKinds (b : Band) : List MapKind := (b.s.toList ++ (b.frames.map Frame.hs).flatten).map fun n => n.kind

def Image.vKinds (i : Image) : List MapKind := i.v.toList.map fun n => n.kind
def Image.sKinds (i : Image) : List MapKind := i.s.toList.map fun n => n.kind

/-- A mapping to a shared register that an image owns. -/
def MapKind.ofImage (u : Nat) : MapKind → Bool
  | .shared x _ => x == u
  | _ => false

/-- The shared vector registers of an image that a quadrant holds (R163, R165, R333): all that it owns while items remain to be stamped, else
those that some band of the quadrant maps to, or a nested image whose items are still to be stamped. -/
def Image.vRegs (i : Image) (bs : List Band) (nested : List Image) : Nat :=
  ((i.vKinds.filter (MapKind.ofImage i.uid)).filter fun k =>
    i.keep || bs.any (fun b => b.vKinds.contains k) || nested.any fun j => j.vKinds.contains k).length

/-- Its shared scalars that a quadrant holds, likewise, by number. -/
def Image.sRegs (i : Image) (bs : List Band) (nested : List Image) : List Nat :=
  i.sKinds.filterMap fun k => match k with
    | .shared u r =>
      if u = i.uid && (i.keep || bs.any (fun b => b.sKinds.contains k) || nested.any fun j => j.sKinds.contains k) then some r else none
    | _ => none

/-- The images whose shared registers a quadrant holds, and its bands, parked ones among them. -/
def State.imagesAt (s : State) (core quad : Nat) : List Image := s.images.filter fun i => i.acked.contains core && i.quads.contains quad
def State.bandsAt (s : State) (core quad : Nat) : List Band := s.bands.filter fun b => b.place.core == core && b.place.quad == quad
def State.nestedIn (s : State) (core quad : Nat) (i : Image) : List Image := (s.imagesAt core quad).filter fun j => j.keep && j.uid != i.uid

/-- The shared vector registers that a quadrant holds, and its shared scalars, by image and number. -/
def State.vShared (s : State) (core quad : Nat) : Nat :=
  ((s.imagesAt core quad).map fun i => i.vRegs (s.bandsAt core quad) (s.nestedIn core quad i)).sum
def State.sShared (s : State) (core quad : Nat) : List (Nat × Nat) :=
  (s.imagesAt core quad).flatMap fun i => (i.sRegs (s.bandsAt core quad) (s.nestedIn core quad i)).map fun r => (i.uid, r)

/-- Vector registers that an operation writes (R145). -/
def OpKind.writesRegs : OpKind → Nat
  | .arith .tagBlock (.block rs _) _ => rs.length
  | .localLoad .tagBlock (.block rs _) => rs.length
  | k => match k.dest with
    | .tagV false => 1
    | .tagV true => 2
    | _ => 0

/-- Whether a name of a band, or a hidden one, awaits part `part` of an operation. -/
def Band.awaits (b : Band) (op part : Nat) : Bool :=
  let t := some (⟨op, part⟩ : Tag)
  b.v.toList.any (fun n => n.pend == t) || b.s.toList.any (fun n => n.pend == t)
    || b.frames.any fun f => f.hv.any (fun n => n.pend == t) || f.hs.any fun n => n.pend == t

/-- R144, R145: vector registers of a quadrant that no name maps to any more and that a write is still to reach. -/
def State.orphans (s : State) (core quad : Nat) : Nat :=
  s.ops.foldl (fun n o =>
    if o.place.core == core && o.place.quad == quad then
      n + ((List.range o.kind.writesRegs).filter fun k => !(s.bands.any fun b => b.uid == o.band && b.awaits o.uid k)).length
    else n) 0

/-- R142: the scalar slots of a quadrant that are not free: those of names, of results still to arrive (R145), and of shared registers. -/
def State.quadSlots (s : State) (core quad : Nat) : List Nat :=
  dedup (((s.quadBands core quad).map Band.sNames).flatten.filterMap SName.slot
    ++ (s.heldSlots.filter fun h => h.core == core && h.quad == quad).map HeldSlot.slot)

def State.holdsShared (s : State) (core quad : Nat) (x : Nat × Nat) : Bool :=
  s.heldSlots.any fun h => h.core == core && h.quad == quad && h.use == .shared x.1 x.2

/-- Scalars of a quadrant that are still to be given their slots. -/
def State.newScalars (s : State) (core quad : Nat) : Nat :=
  ((((s.quadBands core quad).map Band.sNames).flatten).filter fun n => n.slot.isNone).length
    + ((s.sShared core quad).filter fun x => !s.holdsShared core quad x).length

/-- R142: registers that scalar slots take with `more` slots beside some that are not free: a divided register is kept until its 16 slots are
free, and is filled before another is divided. -/
def slotRegs (slots : List Nat) (more : Nat) : Nat :=
  let regs := (dedup (slots.map (· / 16))).length
  regs + (more - (16 * regs - slots.length) + 15) / 16

/-- Registers of a quadrant's pool in use, with `nv` registers and `ns` scalar slots more. -/
def State.poolWith (s : State) (core quad nv ns : Nat) : Nat :=
  ((s.quadBands core quad).map Band.vHeld).sum + slotRegs (s.quadSlots core quad) (ns + s.newScalars core quad) + nv
    + s.orphans core quad + s.vShared core quad

/-- R142: whether the pool supplies an allocation; of stalled bands, those that stalled earlier are served first. -/
def State.canAlloc (s : State) (b : Band) (nv ns : Nat) : Bool :=
  decide (s.poolWith b.place.core b.place.quad nv ns ≤ 2048) &&
    (s.quadBands b.place.core b.place.quad).all fun x =>
      x.uid == b.uid || match x.stalled, b.stalled with
        | some t, some u => decide (u.since ≤ t.since)
        | _, _ => true

def State.alloc (s : State) (b : Band) (nv ns : Nat) : Try Unit :=
  if s.canAlloc b nv ns then .ok () else .error (.stall nv ns)

/-! The slots that new scalars take: the lowest free one of a divided register, else the first of a new one (DESIGN CHOICE, log 32). -/

def freeSlot (used : List Nat) : Nat :=
  let regs := dedup (used.map (· / 16))
  match ((regs.flatMap fun r => (List.range 16).map fun k => 16 * r + k).find? fun k => !used.contains k) with
  | some k => k
  | none => 16 * (((List.range (regs.length + 1)).find? fun r => !regs.contains r).getD 0)

def giveSlots : List Nat → List SName → List Nat × List SName
  | used, [] => (used, [])
  | used, n :: t =>
    if n.kind == .priv && n.slot.isNone then
      let k := freeSlot used
      let r := giveSlots (k :: used) t
      (r.1, { n with slot := some k } :: r.2)
    else
      let r := giveSlots used t
      (r.1, n :: r.2)

def giveFrames : List Nat → List Frame → List Frame
  | _, [] => []
  | used, f :: t =>
    let r := if f.held then giveSlots used f.hs else (used, f.hs)
    { f with hs := r.2 } :: giveFrames r.1 t

def Band.giveSlots (b : Band) (used : List Nat) : Band :=
  let r := Machine.giveSlots used b.s.toList
  { b with s := Vector.ofFn fun i => r.2.getD i.val SName.zero, frames := giveFrames r.1 b.frames }

/-- Whether what a slot is kept for still stands: its result is in flight, or the quadrant holds the shared register. -/
def State.slotStands (s : State) (h : HeldSlot) : Bool :=
  match h.use with
  | .result t => s.ops.any fun o => o.uid == t.op
  | .shared i r => (s.sShared h.core h.quad).contains (i, r)

/-- A shared scalar takes the slot that its template had it in, where that is free. -/
def State.holdShared (s : State) (core quad : Nat) (x : Nat × Nat) : State :=
  if s.holdsShared core quad x then s
  else
    let used := s.quadSlots core quad
    let own := ((s.image? x.1).bind fun i => (i.s.toArray.getD x.2 SName.zero).slot).filter fun k => !used.contains k
    { s with heldSlots := s.heldSlots ++ [⟨core, quad, own.getD (freeSlot used), .shared x.1 x.2⟩] }

/-- Every shared scalar has its slot in each quadrant that holds it. -/
def State.slotShared (s : State) : State :=
  s.images.foldl (fun s i => (i.acked.flatMap fun c => i.quads.map fun q => (c, q)).foldl (fun s p =>
    (s.sShared p.1 p.2).foldl (fun s x => s.holdShared p.1 p.2 x) s) s) s

/-- Every private scalar of a resident band has its slot. -/
def State.slotNames (s : State) : State :=
  s.bands.foldl (fun s b =>
    if b.parked || b.sNames.all fun n => n.slot.isSome then s
    else s.modBand b.uid fun c => c.giveSlots (s.quadSlots b.place.core b.place.quad)) s

/-- The slots of results still to arrive, which they keep where their names are written again (R145). -/
def Band.resultSlots (b : Band) : List HeldSlot :=
  b.sNames.filterMap fun n => match n.pend, n.slot with
    | some t, some k => some ⟨b.place.core, b.place.quad, k, .result t⟩
    | _, _ => none

/-- What has been written takes its slots, and what has gone leaves them. -/
def State.assignSlots (s : State) : State :=
  let s := ({ s with heldSlots := s.heldSlots.filter s.slotStands } : State).slotShared.slotNames
  { s with heldSlots := (s.bands.flatMap Band.resultSlots).foldl (fun hs h => if hs.contains h then hs else hs ++ [h]) s.heldSlots }

def Band.vName (b : Band) (n : Nat) : VName := b.v.toArray.getD n VName.zero
def Band.sName (b : Band) (n : Nat) : SName := b.s.toArray.getD n SName.zero

def Band.setVName (b : Band) (n : Nat) (x : VName) : Band := { b with v := b.v.setIfInBounds n x }
def Band.setSName (b : Band) (n : Nat) (x : SName) : Band := { b with s := b.s.setIfInBounds n x }

/-- R146: the value of a v name; a name that awaits a result holds the word. -/
def Band.readV (b : Band) (n : Nat) : Try VReg :=
  let x := b.vName n
  if x.pend.isSome then .error .hold else .ok x.val

def Band.readS (b : Band) (n : Nat) : Try W64 :=
  let x := b.sName n
  if x.pend.isSome then .error .hold else .ok x.val

def State.readO (s : State) (b : Band) (n : Nat) : Try VReg := do
  s.oReady b n
  pure (b.o.toArray.getD n VReg.zero)

def State.readA (s : State) (b : Band) (n : Nat) : Try W64 := do
  s.aReady b n
  pure (b.a.toArray.getD n 0)

def State.readM (s : State) (b : Band) (n : Nat) : Try W32 := do
  s.mReady b n
  pure (b.m.toArray.getD n 0)

/-- A register with the enabled lanes replaced (R143). -/
def mergeLanes (old new : VReg) (lanes : W32) : VReg :=
  VReg.ofFn fun i => if lanes.getLsbD i then new.lane i else old.lane i

/-- R143, R145: a word may write a name at once unless it keeps lanes of a result that has not arrived (DEDUCED, log 18). -/
def Band.partialReady (b : Band) (n : Nat) (lanes : W32) : Try Unit :=
  holdUnless (!((b.vName n).pend.isSome && lanes != ~~~ 0#32))

/-- A v name written in the given lanes: a new private register that keeps the old value elsewhere (R143, R163). -/
def State.putV (s : State) (b : Band) (n : Nat) (x : VReg) (lanes : W32) : State :=
  s.modBand b.uid fun c => c.setVName n ⟨mergeLanes (b.vName n).val x lanes, .priv, none⟩

def State.putS (s : State) (b : Band) (n : Nat) (x : W64) : State :=
  s.modBand b.uid fun c => c.setSName n (.ofVal x)

def State.putO (s : State) (b : Band) (n : Nat) (x : VReg) (lanes : W32) : State :=
  s.modBand b.uid fun c => { c with o := c.o.setIfInBounds n (mergeLanes (b.o.toArray.getD n VReg.zero) x lanes) }

def State.putA (s : State) (b : Band) (n : Nat) (x : W64) : State :=
  s.modBand b.uid fun c => { c with a := c.a.setIfInBounds n x }

def State.putM (s : State) (b : Band) (n : Nat) (x : W32) : State :=
  s.modBand b.uid fun c => { c with m := c.m.setIfInBounds n x }

/-- An s register written by a word: the slot is allocated at issue (R142). -/
def State.writeS (s : State) (b : Band) (n : Nat) (x : W64) : Try State := do
  s.alloc b 0 1
  pure (s.putS b n x)

/-- A v register written by a word in some lanes. -/
def State.writeV (s : State) (b : Band) (n : Nat) (x : VReg) (lanes : W32) : Try State := do
  b.partialReady n lanes
  s.alloc b 1 0
  pure (s.putV b n x lanes)

def State.writeA (s : State) (b : Band) (n : Nat) (x : W64) : Try State := do
  s.aReady b n
  pure (s.putA b n x)

def State.writeM (s : State) (b : Band) (n : Nat) (x : W32) : Try State := do
  s.mReady b n
  pure (s.putM b n x)

def State.writeO (s : State) (b : Band) (n : Nat) (x : VReg) (lanes : W32) : Try State := do
  s.oReady b n
  pure (s.putO b n x lanes)

/-! Names that await the result of operation `op` (R145). -/

def State.awaitV (s : State) (b : Band) (n : Nat) (op part : Nat) : State :=
  s.modBand b.uid fun c => c.setVName n ⟨(b.vName n).val, .priv, some ⟨op, part⟩⟩

def State.awaitS (s : State) (b : Band) (n : Nat) (op part : Nat) : State :=
  s.modBand b.uid fun c => c.setSName n ⟨(b.sName n).val, .priv, some ⟨op, part⟩, none⟩

def VName.land (t : Tag) (lanes : W32) (x : VReg) (n : VName) : VName :=
  if n.pend == some t then ⟨mergeLanes n.val x lanes, n.kind, none⟩ else n
def SName.land (t : Tag) (x : W64) (n : SName) : SName :=
  if n.pend == some t then ⟨x, n.kind, none, n.slot⟩ else n

def Frame.land (fv : VName → VName) (fs : SName → SName) (f : Frame) : Frame :=
  { f with hv := f.hv.map fv, hs := f.hs.map fs }

/-- A result lands in the register its tag stands on, under whatever name or frame maps to it, or nowhere (R145, R149). -/
def Band.landV (b : Band) (t : Tag) (lanes : W32) (x : VReg) : Band :=
  { b with v := b.v.map (VName.land t lanes x), frames := b.frames.map (Frame.land (VName.land t lanes x) id) }
def Band.landS (b : Band) (t : Tag) (x : W64) : Band :=
  { b with s := b.s.map (SName.land t x), frames := b.frames.map (Frame.land id (SName.land t x)) }

/-- A value written to the destination of an operation that has ended. -/
def State.landDest (s : State) (o : Op) (d : Dest) (v : ArithVal) : State :=
  s.modBand o.band fun b =>
    match d, v with
    | .tagV false, .vec lo _ lanes => b.landV ⟨o.uid, 0⟩ lanes lo
    | .tagV true, .vec lo hi lanes => (b.landV ⟨o.uid, 0⟩ lanes lo).landV ⟨o.uid, 1⟩ lanes hi
    | .tagBlock, .block rs lanes => rs.zipIdx.foldl (fun (b : Band) (x : VReg × Nat) => b.landV ⟨o.uid, x.2⟩ lanes x.1) b
    | .o n false, .vec lo _ lanes => { b with o := b.o.setIfInBounds n (mergeLanes (b.o.toArray.getD n VReg.zero) lo lanes) }
    | .o n true, .vec lo hi lanes =>
      let lo' := mergeLanes (b.o.toArray.getD n VReg.zero) lo lanes
      let hi' := mergeLanes (b.o.toArray.getD (n + 1) VReg.zero) hi lanes
      { b with o := (b.o.setIfInBounds n lo').setIfInBounds (n + 1) hi' }
    | .tagS, .scalar w => b.landS ⟨o.uid, 0⟩ w
    | .tagS2, .pair lo hi => (b.landS ⟨o.uid, 0⟩ lo).landS ⟨o.uid, 1⟩ hi
    | .a n, .scalar w => { b with a := b.a.setIfInBounds n w }
    | .m n, .scalar w => { b with m := b.m.setIfInBounds n (w.setWidth 32) }
    | _, _ => b

/-! ## Flags (R139, R170) -/

/-- The flag that a clause names for memory-class operations (SETA) or arithmetic-class ones (SETB). -/
def Band.flagOf (b : Band) (arith : Bool) : Option Nat :=
  match b.clause with
  | none => none
  | some c =>
    let k := ((if arith then c.header.extractLsb' 4 4 else c.header.extractLsb' 8 4) : BitVec 4).toNat
    if k < 12 then some k else none

/-- R139: a band whose operation would increment a flag that holds 63 waits at that operation. -/
def Band.flagReady (b : Band) (arith : Bool) : Try Unit :=
  match b.flagOf arith with
  | none => .ok ()
  | some k => holdUnless (b.f.toArray.getD k 0 != 63)

/-- R67, R85, R170: the completion flags with the operation that the band waits for at its word, if that is an ACQRG or a load's version
wait: it counts on the memory class's flag. -/
def Band.flags (b : Band) : Vector (BitVec 6) 12 :=
  match b.wait, b.flagOf false with
  | some (.acqrg ..), some k | some (.version ..), some k => b.f.setIfInBounds k (b.f.toArray.getD k 0 + 1)
  | _, _ => b.f

/-- Whose an operation's accesses are, for the write set (R379, R382). -/
def Op.who (o : Op) : Option (Nat × Nat) := some (o.launch, o.run)

/-- An operation starts: it is numbered, its flag counts it, and it joins the operations in flight. -/
def State.startOp (s : State) (b : Band) (arith : Bool) (k : OpKind) : State :=
  let fl := b.flagOf arith
  let o : Op := ⟨s.nextUid, b.launch, b.wg, b.uid, b.place, s.runOf b.wg, fl, k⟩
  let s := { s with nextUid := s.nextUid + 1, ops := s.ops ++ [o] }
  match fl with
  | none => s
  | some k => s.modBand b.uid fun c => { c with f := c.f.setIfInBounds k (c.f.toArray.getD k 0 + 1) }

/-- An engine operation that its flag counts only until submission (R170): the flag stands as it was. -/
def State.startEngine (s : State) (b : Band) (k : OpKind) : State :=
  let o : Op := ⟨s.nextUid, b.launch, b.wg, b.uid, b.place, s.runOf b.wg, none, k⟩
  { s with nextUid := s.nextUid + 1, ops := s.ops ++ [o] }

/-- The flag of an operation falls. -/
def State.dropFlag (s : State) (o : Op) : State :=
  match o.flag with
  | none => s
  | some k => s.modBand o.band fun c => { c with f := c.f.setIfInBounds k (c.f.toArray.getD k 0 - 1) }

/-- An operation completes: its flag falls and it leaves the operations in flight. -/
def State.endOp (s : State) (o : Op) : State := (s.dropFlag o).dropOp o.uid

/-! ## Classes of instruction -/

/-- R172. -/
def Instr.isControl : Instr → Bool
  | .br _ | .brz _ _ | .brnz _ _ | .bzm _ _ | .bnzm _ _ | .ballm _ _ | .call _ _ | .calli _ _ | .jmpi _ | .ret | .loop _ _ | .exit
  | .yield | .yieldc _ | .trap _ | .freeze | .rft _ | .halt => true
  | _ => false

/-- R184. -/
def Instr.isPrivileged : Instr → Bool
  | .snap | .mfsr _ _ | .mtsr _ _ | .tlbi _ | .halt => true
  | _ => false

/-- R295: the EXEC kind of a word. -/
def Instr.execKind (i : Instr) : W32 :=
  let k (d : Opnd) (n : W32) : W32 := if d == .m 0 then n else 0
  match i with
  | .vceq d _ _ | .vcne d _ _ | .vclt d _ _ | .vcle d _ _ | .vcgt d _ _ | .vcge d _ _ | .fceq d _ _ | .fclt d _ _ | .fcle d _ _
  | .fcun d _ _ => k d 1
  | .mand d _ _ | .mor d _ _ | .mxor d _ _ | .mandn d _ _ | .mnot d _ => k d 2
  | .mmov d _ | .mseti d _ => k d 3
  | .mlane d _ => k d 4
  | .lds d _ => k d 5
  | _ => 0

/-- R385. -/
def sigNext (sig word kind : W32) : W32 := sig.rotateLeft 5 ^^^ word ^^^ kind

/-- An address modulo 2^57 (R168). -/
def va57 (a : W64) : W64 := a &&& 0x01FFFFFFFFFFFFFF

/-! ## The end of a word (R173) -/

def Band.clauseEnd (b : Band) : W64 :=
  match b.clause with
  | some c => va57 (b.hdr + 4 * BitVec.ofNat 64 (1 + c.words.length))
  | none => b.hdr

/-- The word after `len` words. -/
def Band.after (b : Band) (len : Nat) : W64 := va57 (b.pc + 4 * BitVec.ofNat 64 len)

/-- Execution continues at a header, which is fetched; lat is valid within a clause only (R148). -/
def Band.goto (b : Band) (t : W64) : Band := { b with hdr := va57 t, pc := va57 t, clause := none, resume := none, latValid := false }

/-- Execution continues within the clause at a header, which is fetched again (R174); lat's validity stands (R374). -/
def Band.gotoWithin (b : Band) (t word : W64) : Band := { b.goto t with resume := some word, latValid := b.latValid }

/-- Execution continues after `len` words: in the clause, or at the header that follows it. -/
def Band.advance (b : Band) (len : Nat) : Band :=
  if b.after len == b.clauseEnd then b.goto b.clauseEnd else { b with pc := b.after len }

/-- What every word that issues leaves (R335, R385). -/
def Band.issued (b : Band) (inHandler : Bool) (i : Instr) (cycle : Nat) : Band :=
  { b with
    sig := if inHandler || i == .sigclr then b.sig else sigNext b.sig (encodeWord i) (Instr.execKind i)
    wait := none, timeLeft := none, held := false, tried := none, stalled := none, readyAt := if i == .yield then cycle + 1 else cycle }

/-! ## Windows (R149, R152) -/

/-- R149: the window slides by n, the caller's low names hidden in a new frame. -/
def Band.slide (b : Band) (n : Nat) (retpc : W64) : Band :=
  { b with
    frames := ⟨retpc, n, b.v.toList.take n, b.s.toList.take (n / 2), .resident⟩ :: b.frames
    v := Vector.ofFn fun i => if i.val + n < 64 then b.vName (i.val + n) else VName.zero
    s := Vector.ofFn fun i =>
      if 32 ≤ i.val then b.sName i.val else if i.val + n / 2 < 32 then b.sName (i.val + n / 2) else SName.zero }

/-- R152: the newest frame is restored and the callee's new names are freed. -/
def Band.unslide (b : Band) : Band :=
  match b.frames with
  | [] => b
  | f :: rest =>
    let n := f.slide
    { b with
      frames := rest
      v := Vector.ofFn fun i => if i.val < n then f.hv.getD i.val VName.zero else b.vName (i.val - n)
      s := Vector.ofFn fun i =>
        if 32 ≤ i.val then b.sName i.val
        else if i.val < n / 2 then f.hs.getD i.val SName.zero else b.sName (i.val - n / 2) }

/-- The place special of R140. -/
def placeBits (p : Place) : Nat := (p.core / 60) * 2 ^ 12 + (p.core % 60) * 2 ^ 6 + p.quad * 2 ^ 4 + p.slot
def placeOfBits (n : Nat) : Place := ⟨60 * (n / 2 ^ 12 % 4) + n / 2 ^ 6 % 64, n / 2 ^ 4 % 4, n % 16⟩

/-! ## Taking a trap (R371) -/

/-- What R371 finds of a handler: none, an entry that the band's earlier accesses keep from being read yet, a damaged atom, or the handler's
header and whether it runs privileged. -/
inductive HandlerRead where
  | absent
  | hold
  | damaged (atoms : List (Nat × KillCause))
  | entry (hdr : W64) (priv : Bool)
  deriving DecidableEq, Repr

/-- The bytes of a trap's entry in the handler table, with their class; none where there is no table or no page. -/
def State.handlerAt (s : State) (b : Band) (code : Nat) : Option (List (Nat × Nat)) :=
  let c := s.bandCtx b
  let tvec := s.num (0x800 + c.root)
  if !tvec.getLsbD 63 then none
  else (s.translate c .load (BitVec.ofNat 64 (fld tvec 56 9 * 512 + 8 * (code % 64)))).toOption.map fun t =>
    (List.range 8).map fun i => (t.pa + i, t.cc)

/-- The part of R371 that reads the handler table, by a plain load of the band. -/
def State.handler (s : State) (b : Band) (code : Nat) : HandlerRead :=
  match s.handlerAt b code with
  | none => .absent
  | some pas =>
    match s.plainRead b pas with
    | .hold => .hold
    | .damaged ds _ => .damaged ds
    | .bytes bs =>
      let e : W64 := BitVec.ofNat 64 (leNat bs)
      if e.getLsbD 63 && fld e 61 57 == 0 && fld e 1 0 == 0 then
        .entry (BitVec.ofNat 64 (fld e 56 0)) (e.getLsbD 62 && (s.reg (32 * (s.bandCtx b).root)).getLsbD 62)
      else .absent

/-- What that load leaves. -/
def State.handlerTouch (s : State) (b : Band) (code : Nat) : State :=
  match s.handlerAt b code with
  | some pas => s.plainTouch b pas
  | none => s

/-- R372: the trap state in s24 to s31. -/
def trapWords (b : Band) (t : Trap) : List W64 :=
  [BitVec.ofNat 64 (t.code.toNat + (t.lane % 32) * 2 ^ 8 + (if b.latValid then 2 ^ 13 else 0) + (if t.atHdr then 2 ^ 14 else 0)),
   t.pc, t.s26, t.s27, t.hdr, t.skip, b.exec.setWidth 64, b.mode.setWidth 64]

/-- Entry into the handler: the frame is pushed as by CALL with slide 16, the trap state written, and control goes to the header. -/
def Band.enterHandler (b : Band) (t : Trap) (hdr : W64) (priv : Bool) : Band :=
  let ws := trapWords b t
  let c := b.slide 16 t.pc
  let c := (List.range 8).foldl (fun c i => c.setSName (24 + i) (.ofVal (ws.getD i 0))) c
  let c := c.setVName 63 ⟨b.lat, .priv, none⟩
  { c.goto hdr with
    m := c.m.setIfInBounds 0 (~~~ 0#32), mode := 0, latValid := false, inHandler := true, privileged := priv,
    trap := none, suspended := false, wait := none, timeLeft := none, tried := none, stalled := none, held := false }

/-- R391, R392: the traps that host-assisted mode suspends. -/
def State.hostAssisted (s : State) (code : Nat) : Bool :=
  let r := s.num 0x844
  (r.getLsbD 63 && (code == 0x11 || code == 0x12 || code == 0x13 || code == 0x18 || code == 0x19))
    || (r.getLsbD 62 && code == tWinFault)

/-- R393: the event of a suspended band. -/
def State.suspendEvent (s : State) (b : Band) (t : Trap) : Event :=
  mkEvent (if t.code.toNat = tWinFault then 0x61 else 0x60) (s.lidOf b.launch)
    (t.code.toNat + placeBits b.place * 2 ^ 8 + (va57 t.s26).toNat * 2 ^ 32
      + (if t.code.toNat = tWinFault then fld t.s27 11 0 * 2 ^ 96 else 0)) 0 (s.queueOf b.launch)

def Launch.privOf (l : Launch) : Bool := l.lr.priv

/-- A band whose launch is killed at its word goes no further (R377). -/
def State.stopAt (s : State) (u : Nat) : State := s.modBand u fun b => { b with wait := some .killed, held := true }

/-- A stall goes on from when it began. -/
def Band.stallFrom (b : Band) (cycle nv ns : Nat) : Stall := ⟨match b.stalled with | some x => x.since | none => cycle, nv, ns⟩

/-- R386: the shadow unit's 32 bits, which an error makes differ, have another residue. -/
def State.shadowDiffers (s : State) (x : W32) : Bool := s.upset != 0 && x.toNat % 255 != (x ^^^ s.upset).toNat % 255

/-- A launch is being killed. -/
def State.beingKilled (s : State) (u : Nat) : Bool := match s.launch? u with | some l => l.kills != [] | none => false

/-- A trap kills the launch, and the band goes no further. -/
def State.trapKills (s : State) (b : Band) (code : Byte) (silent : Bool) : State := (s.decideKill b.launch (.trap code silent)).stopAt b.uid

/-- R371 without host assistance: the entry, its wait for the read of the table or for registers, or the kill for want of a handler; a
damaged entry is consumed and reads as zero (R47). Entry forms m0 twice (R386). -/
def State.enterTrap (s : State) (b : Band) (t : Trap) : State :=
  match s.handler b t.code.toNat with
  | .absent => (s.handlerTouch b t.code.toNat).trapKills b t.code false
  | .damaged ds => (s.consumeAll b ds).trapKills b t.code false
  | .hold => s.setBand { b with trap := some t, wait := some .entryRegs, stalled := none, held := true }
  | .entry hdr hp =>
    let lp := match s.launch? b.launch with | some l => l.lr.priv | none => false
    if s.canAlloc b 1 8 then
      if s.shadowDiffers (~~~ 0#32) then s.trapKills b (BitVec.ofNat 8 tMaskCheck) true
      else (s.handlerTouch b t.code.toNat).setBand (b.enterHandler t hdr (hp || lp))
    else s.setBand { b with trap := some t, wait := some .entryRegs, stalled := some (b.stallFrom s.cycle 1 8), held := true }

/-- A trap that is delivered in a launch that is being killed: no handler is entered, and one that kills joins the kill's summary (R376). -/
def State.deliverInKill (s : State) (b : Band) (t : Trap) : State :=
  match s.handler b t.code.toNat with
  | .absent | .damaged _ => s.enterTrap b t
  | _ => s.stopAt b.uid

/-- A trap of a launch that is being killed: the host is asked nothing of it. -/
def State.trapInKill (s : State) (b : Band) (t : Trap) : State :=
  if s.hostAssisted t.code.toNat then s.stopAt b.uid else s.deliverInKill b t

/-- A trap is taken at its word (R371, R373, R376, R392). The word has had no effect. -/
def State.takeTrap (s : State) (b : Band) (t : Trap) : State :=
  if b.inHandler then s.trapKills b t.code false
  else if t.code.toNat = tSignature ∨ t.code.toNat = tMaskCheck then s.trapKills b t.code true
  else if s.beingKilled b.launch then s.trapInKill b t
  else if s.hostAssisted t.code.toNat then
    (s.setBand { b with trap := some t, suspended := true, wait := none, tried := none, stalled := none, held := true }).post (s.suspendEvent b t)
  else s.enterTrap b t

/-- A trap at the word that the band is at, of `len` words. -/
def Band.trapAt (b : Band) (control : Bool) (len : Nat) (code lane : Nat) (s26 s27 : W64) : Trap :=
  { code := BitVec.ofNat 8 code, lane := lane, s26 := s26, s27 := s27, pc := b.pc, atHdr := b.atHeader, hdr := b.hdr,
    skip := if control || b.after len == b.clauseEnd then b.clauseEnd else b.after len }

/-! ## Issue -/

/-- R172: words after this one and its literal in the clause. -/
def Band.lastWord (b : Band) (len : Nat) : Bool := b.after len == b.clauseEnd

/-- A band whose word the scheduler may issue (R335): resident, not parked, halted or suspended, and not held by a wait. -/
def Band.canIssue (b : Band) : Bool :=
  !b.parked && !b.halted && !b.suspended && b.trap.isNone &&
    match b.wait with
    | none | some (.done _) | some .entry | some .copyEntry | some .step | some (.version ..) => true
    | _ => false

/-- R67, R204: what a load keeps of its first attempt to issue: when it was, and the minimum of an LDPAR, once that can be read. -/
def Band.firstTry (b : Band) (i : Instr) (cycle : Nat) : Option (Option W32 × Nat) :=
  match b.tried with
  | some x => some x
  | none => match i with
    | .lds _ _ | .ldv _ _ => some (none, cycle)
    | .ldpar _ m => (b.readS (56 + m.breg.toNat)).toOption.map fun w => (some (w.setWidth 32), cycle)
    | _ => none

/-- A word that forms m0 as it issues (R386): those of R295, but for LDS, whose data is written later, and RFT. -/
def Instr.formsExec : Instr → Bool
  | .lds _ _ => false
  | .rft _ => true
  | i => Instr.execKind i != 0

/-- R386: a word whose m0 the shadow unit formed otherwise stops its band before the next word. -/
def State.shadowed (s : State) (i : Instr) (t : Trap) (r : State) : State :=
  if s.upset = 0 then r
  else match r.bandAt s.cur with
    | some c => if Instr.formsExec i && s.shadowDiffers c.exec then r.takeTrap c t else r
    | none => r

/-- What the issue of an instruction word does: the checks of R172 and R177 in order, then the word's own meaning `body`, then the
signature and the next word. The band given to `body` is as it stood before the word; the state has lat's validity taken back. -/
def issue (i : Instr) (body : Band → State → Try Fin') (s : State) : State :=
  match s.bandAt s.cur with
  | none => s
  | some b =>
    let len := 1 + (litWords i.opnds).length
    let w : W64 := (encodeWord i).setWidth 64
    let trap := fun (code lane : Nat) (x y : W64) => s.takeTrap b (b.trapAt (Instr.isControl i) len code lane x y)
    let again : Band := { b with held := true, stalled := none, tried := b.firstTry i s.cycle }
    let formed := s.shadowed i (b.trapAt (Instr.isControl i) len tMaskCheck 0 w 0)
    if !b.canIssue then s
    else if Instr.isControl i && !b.lastWord len then trap tIllegalInstr 0 w 0
    else if Instr.isPrivileged i && !b.privileged then trap tPrivilege 0 w 0
    else if !i.wellFormed then trap tIllegalOperand 0 w 0
    else
      match body b (s.setBand { b with latValid := false }) with
      | .error (.word code) => trap code 0 w (if code = tConvergence then b.exec.setWidth 64 else 0)
      | .error (.lane code lane) => trap code lane w 0
      | .error (.trap code lane x y) => trap code lane x y
      | .error .hold => s.setBand again
      | .error (.wait v) => s.setBand { again with wait := some v }
      | .error (.stall nv ns) => s.setBand { again with stalled := some (b.stallFrom s.cycle nv ns) }
      | .ok (.next t) => formed (t.modBand b.uid fun c => (c.advance len).issued b.inHandler i s.cycle)
      | .ok (.jump t target none) => formed (t.modBand b.uid fun c => (c.issued b.inHandler i s.cycle).goto target)
      | .ok (.jump t target (some r)) => formed (t.modBand b.uid fun c => (c.issued b.inHandler i s.cycle).gotoWithin target r)
      | .ok (.leave t target v) =>
        t.modBand b.uid fun c => { (c.issued b.inHandler i s.cycle).goto target with wait := some v }
      | .ok (.gone t) => t
      | .ok (.waiting t) => t.modBand b.uid fun c => { c with held := true }

/-- A word that decodes to no instruction (R177): an unassigned opcode or a control word that is not the last of its clause
(R172), the privilege of the opcode, then the illegal operand. `w` is the word; a literal code in it still takes a word (R168). -/
def refuseWord (w : W32) (s : State) : State :=
  match s.bandAt s.cur with
  | none => s
  | some b =>
    let control := match rowOf w 0 with | some r => Instr.isControl r.instr | none => false
    let len := match rowOf w 0 with | some r => if r.codes.contains 0xB2 && !b.lastWord 1 then 2 else 1 | none => 1
    let priv := match rowOf w 0 with | some r => Instr.isPrivileged r.instr | none => false
    let code :=
      if (rowOf w 0).isNone || (control && !b.lastWord len) then tIllegalInstr
      else if priv && !b.privileged then tPrivilege
      else tIllegalOperand
    if !b.canIssue then s else s.takeTrap b (b.trapAt control len code 0 (w.setWidth 64) 0)

/-! ## Fetching (R168, R173, R174) -/

/-- The word at an address as a fetch reads it: the fault of its page, or the word and its atom's address where that cannot be read. -/
def State.fetchWord (s : State) (b : Band) (a : W64) : Except TrFault (W32 × Option (Nat × KillCause)) :=
  match s.translate (s.bandCtx b) .fetch a with
  | .error f => .error f
  | .ok t =>
    let atom := s.viewOf b.launch (s.runOf b.wg) t.pa / 32 * 32
    let bad := if s.kindOf atom != .ram then none
      else match s.readOut atom with
        | .ok => none
        | .bad => some (atom, KillCause.memUncorrectable)
        | .tag => some (atom, KillCause.integrity)
    .ok (BitVec.ofNat 32 (s.readFor (s.whoOf b) t.pa 4), bad)

/-- The page address that a fetch trap reports (R174): that of the leaf's page, or of 4 KiB where there is no leaf (DESIGN CHOICE, log 32). -/
def State.pageAddr (s : State) (c : Ctx) (a : W64) : W64 :=
  match s.leafFor c a.toNat with
  | .ok (pte, _) => a &&& ~~~ BitVec.ofNat 64 (2 ^ (12 + pteSize pte) - 1)
  | .error _ => a &&& ~~~ 0xFFF#64

/-- R173: a target whose page can be fetched and whose word is no header. -/
def State.notHeader (s : State) (b : Band) (t : W64) : Bool :=
  match s.fetchWord b t with
  | .error _ => false
  | .ok (w, bad) => bad.isNone && w.extractLsb' 24 8 != 0xFC

/-- R173: the illegal-target trap of a word that transfers control. -/
def State.checkTarget (s : State) (b : Band) (t : W64) : Try Unit :=
  if s.notHeader b (va57 t) then .error (.trap tIllegalTarget 0 (va57 t) 0) else .ok ()

/-- R173: a target register must hold a multiple of 4 below 2^57. -/
def State.checkRegTarget (s : State) (b : Band) (t : W64) : Try Unit :=
  if t.toNat % 4 ≠ 0 ∨ 2 ^ 57 ≤ t.toNat then .error (.trap tIllegalTarget 0 t 0) else s.checkTarget b t

end Sys2Proof.Machine
end

