-- ==== Sys2Proof/Machine/Flags.lean ====
section
/-! DEFINITION. The floating-point status bits (R32) and the stochastic-rounding count (R31). -/

namespace Sys2Proof.Machine

def fNV : BitVec 6 := 1
def fDZ : BitVec 6 := 2
def fOF : BitVec 6 := 4
def fUF : BitVec 6 := 8
def fNX : BitVec 6 := 16
def fNF : BitVec 6 := 32

/-- R32: bits set in FPS; no instruction but FPSCLR clears one. -/
def State.setFps (s : State) (u : Nat) (f : BitVec 6) : State :=
  s.modBand u fun b => { b with fps := b.fps ||| f.setWidth 32 }

/-- R31: the bits drawn for group g of a lane. -/
def srMix (a b : W64) : Nat → W64 × W64
  | 0 => (a, b)
  | k + 1 =>
    let (a, b) := srMix a b k
    let a := a + b + BitVec.ofNat 64 (k + 1) * 0x9E3779B97F4A7C15
    let a := (a ^^^ (a >>> 30)) * 0xBF58476D1CE4E5B9
    let b := (b.rotateLeft 17 ^^^ a) * 0x94D049BB133111EB
    (a, b ^^^ (b >>> 27))

def srBits (seed : W64) (p : Bool) (idx lane g : Nat) (n : W64) : W64 :=
  let a := seed ^^^ n
  let b : W64 := BitVec.ofNat 64 ((if p then 2 ^ 63 else 0) + (idx % 2 ^ 39) * 2 ^ 24 + (lane % 32) * 2 ^ 16 + g % 2 ^ 16)
  let (a, b) := srMix a (b ^^^ seed.rotateLeft 29) 4
  a ^^^ b

/-- What rounding draws on: the launch seed, whether the band is a template before its FREEZE, its item index, the new count. -/
structure SrKey where
  seed : W64
  p : Bool
  idx : Nat
  n : W64
  deriving DecidableEq, Repr

/-- R31: the 16 random bits of element e of a lane. -/
def SrKey.draw (k : SrKey) (lane e : Nat) : Nat :=
  ((srBits k.seed k.p k.idx lane (e / 4) k.n) >>> (16 * (e % 4))).toNat % 2 ^ 16

/-- The key of the band's next stochastic instruction, its count one further. -/
def State.srKey (s : State) (b : Band) : SrKey :=
  ⟨match s.launch? b.launch with | some l => l.lr.seed | none => 0, b.template, b.itemidx, b.srseq + 1⟩

/-- R31: an instruction whose rounding is SR (code 5) advances the count by one, whatever EXEC holds. -/
def State.countSr (s : State) (b : Band) (rnd : Nat) : State :=
  if rnd = 5 then s.modBand b.uid fun c => { c with srseq := b.srseq + 1 } else s

end Sys2Proof.Machine
end

