-- ==== Sys2Proof/Machine/Numeric.lean ====
section
/-! DEFINITION. Number formats and their exact values (R15 to R25), rounding (R27, R28, R30), the exact arithmetic of float
instructions, orders (R37, R38) and X320 (R34, R35). -/

namespace Sys2Proof.Machine

/-- A float's value: a NaN, an infinity, or (-1)^neg × m × 2^e. -/
inductive Num where
  | nan (signalling : Bool)
  | inf (neg : Bool)
  | fin (neg : Bool) (m : Nat) (e : Int)
  deriving DecidableEq, Repr

/-- How a format holds infinity and NaN (R17, R20). -/
inductive Special where
  | ieee | nanOnly | none
  deriving DecidableEq, Repr

/-- A float format: exponent bits, mantissa bits, bias and specials. -/
structure Fmt where
  eb : Nat
  mb : Nat
  bias : Nat
  special : Special
  deriving DecidableEq, Repr

def f64 : Fmt := ⟨11, 52, 1023, .ieee⟩
def f32 : Fmt := ⟨8, 23, 127, .ieee⟩
def f16 : Fmt := ⟨5, 10, 15, .ieee⟩
def bf16 : Fmt := ⟨8, 7, 127, .ieee⟩
def e5m2 : Fmt := ⟨5, 2, 15, .ieee⟩
def e4m3 : Fmt := ⟨4, 3, 7, .nanOnly⟩
def e3m2 : Fmt := ⟨3, 2, 3, .none⟩
def e2m3 : Fmt := ⟨2, 3, 1, .none⟩
def e2m1 : Fmt := ⟨2, 1, 1, .none⟩


def Fmt.width (f : Fmt) : Nat := 1 + f.eb + f.mb
/-- The code of the largest finite magnitude. -/
def Fmt.maxCode (f : Fmt) : Nat :=
  match f.special with
  | .ieee => (2 ^ f.eb - 1) * 2 ^ f.mb - 1
  | .nanOnly => 2 ^ (f.eb + f.mb) - 2
  | .none => 2 ^ (f.eb + f.mb) - 1
def Fmt.infCode (f : Fmt) : Nat := (2 ^ f.eb - 1) * 2 ^ f.mb
def Fmt.signBit (f : Fmt) : Nat := 2 ^ (f.eb + f.mb)
/-- The canonical quiet NaN; a format without NaN has none, and zero stands in its place. -/
def Fmt.nanCode (f : Fmt) : Nat :=
  match f.special with
  | .ieee => f.infCode + 2 ^ (f.mb - 1)
  | .nanOnly => 2 ^ (f.eb + f.mb) - 1
  | .none => 0
/-- Exponent of the spacing of subnormals. -/
def Fmt.minExp (f : Fmt) : Int := 1 - (f.bias : Int) - (f.mb : Int)

/-- The value of a code (R17, R20, R21). -/
def Fmt.value (f : Fmt) (c : Nat) : Num :=
  let neg := decide (f.signBit ≤ c % (2 * f.signBit))
  let mag := c % f.signBit
  let e := mag / 2 ^ f.mb
  let m := mag % 2 ^ f.mb
  if f.special == .ieee && e == 2 ^ f.eb - 1 then (if m = 0 then .inf neg else .nan (decide (m < 2 ^ (f.mb - 1))))
  else if f.special == .nanOnly && mag == f.signBit - 1 then .nan false
  else if e = 0 then .fin neg m f.minExp
  else .fin neg (2 ^ f.mb + m) (f.minExp + (e : Int) - 1)

def Fmt.withSign (f : Fmt) (neg : Bool) (mag : Nat) : Nat := if neg then f.signBit + mag else mag


/-- The IEEE and narrow float formats by type code (R15). -/
def fmtOf (code : Nat) : Option Fmt :=
  match code with
  | 8 => some f16
  | 9 => some bf16
  | 10 => some f32
  | 11 => some f64
  | 12 => some e5m2
  | 13 => some e4m3
  | 14 => some e3m2
  | 15 => some e2m3
  | _ => none

/-- Width of a type code in bits (R15). -/
def typeBits (code : Nat) : Nat :=
  match code with
  | 0 | 4 | 12 | 13 => 8
  | 1 | 5 | 8 | 9 => 16
  | 2 | 6 | 10 => 32
  | 3 | 7 | 11 => 64
  | _ => 6

def isFloatType (code : Nat) : Bool := decide (8 ≤ code)
def isSigned (code : Nat) : Bool := decide (code < 4)

/-- A rounding: mode of R27 and, for SR, the 16 random bits. -/
structure Rounding where
  mode : Nat
  r : Nat
  deriving DecidableEq, Repr

def rne : Rounding := ⟨0, 0⟩

/-- m × 2^(-sh) rounded to an integer. -/
def roundShift (rd : Rounding) (neg : Bool) (m sh : Nat) : Nat :=
  let q := m / 2 ^ sh
  let rem := m % 2 ^ sh
  let up := match rd.mode with
    | 0 => decide (2 ^ sh < 2 * rem) || (2 * rem == 2 ^ sh && q % 2 == 1)
    | 1 => false
    | 2 => !neg && rem != 0
    | 3 => neg && rem != 0
    | 4 => rem != 0 && decide (2 ^ sh ≤ 2 * rem)
    | _ => decide (2 ^ 16 ≤ rem * 2 ^ 16 / 2 ^ sh + rd.r)
  if up then q + 1 else q

/-- m × 2^e on the grid of spacing 2^u: the count of grid steps, and whether the value was on the grid. -/
def onGrid (rd : Rounding) (neg : Bool) (m : Nat) (e u : Int) : Nat × Bool :=
  if u ≤ e then (m * 2 ^ (e - u).toNat, true)
  else (roundShift rd neg m (u - e).toNat, m % 2 ^ (u - e).toNat == 0)

/-- What rounding to a format gives: the code and the status bits (R27, R28, R30, R32). `m` is not zero. -/
def roundFin (f : Fmt) (rd : Rounding) (sat : Bool) (neg : Bool) (m : Nat) (e : Int) : Nat × BitVec 6 :=
  let p : Int := (Nat.log2 m : Int) + e
  let emin : Int := f.minExp + (f.mb : Int)
  let u : Int := max p emin - (f.mb : Int)
  let (q, exact) := onGrid rd neg m e u
  let code := q + (u - f.minExp).toNat * 2 ^ f.mb
  if f.maxCode < code then
    let fl := fOF ||| fNX
    if sat || f.special != .ieee then (f.withSign neg f.maxCode, fl)
    else if rd.mode = 1 || (rd.mode = 2 && neg) || (rd.mode = 3 && !neg) then (f.withSign neg f.maxCode, fl)
    else (f.withSign neg f.infCode, fl ||| fNF)
  else
    -- tiny after rounding: the value rounded at full precision lies below the smallest normal
    let tiny := decide (p < emin) && decide ((onGrid rd neg m e (p - (f.mb : Int))).1 < 2 ^ (emin - (p - (f.mb : Int))).toNat)
    (f.withSign neg code, if exact then 0 else if tiny then fNX ||| fUF else fNX)

/-- R19: the canonical quiet NaN; a format without NaN takes +0 with NV (R29). -/
def nanResult (f : Fmt) : Nat × BitVec 6 := (f.nanCode, if f.special == .none then fNV else fNF)

/-- round_to(F, x, mode) of any value (R27 to R30). -/
def roundNum (f : Fmt) (rd : Rounding) (sat : Bool) : Num → Nat × BitVec 6
  | .nan sg => let (c, fl) := nanResult f; (c, if sg then fl ||| fNV else fl)
  | .inf neg => if f.special == .ieee then (f.withSign neg f.infCode, fNF) else (f.withSign neg f.maxCode, fNV)
  | .fin neg m e => if m = 0 then (f.withSign neg 0, 0) else roundFin f rd sat neg m e

/-- R18: a subnormal result becomes a zero of its sign. -/
def flushCode (f : Fmt) (r : Nat × BitVec 6) : Nat × BitVec 6 :=
  let mag := r.1 % f.signBit
  if mag != 0 && decide (mag < 2 ^ f.mb) && f.special == .ieee then (r.1 - mag, r.2 ||| fUF ||| fNX) else r

/-- R18: a subnormal source reads as a zero of its sign, with UF. -/
def flushSrc (f : Fmt) (c : Nat) : Nat × BitVec 6 :=
  let mag := c % f.signBit
  if mag != 0 && decide (mag < 2 ^ f.mb) then ((c / f.signBit % 2) * f.signBit, fUF) else (c, 0)

/-! ## Exact arithmetic -/

def Num.neg? : Num → Bool
  | .nan _ => false
  | .inf n => n
  | .fin n _ _ => n

def Num.negate : Num → Num
  | .nan s => .nan s
  | .inf n => .inf (!n)
  | .fin n m e => .fin (!n) m e

def Num.isNan : Num → Bool
  | .nan _ => true
  | _ => false

def Num.isSnan : Num → Bool
  | .nan s => s
  | _ => false

def Num.isInf : Num → Bool
  | .inf _ => true
  | _ => false

def Num.isZero : Num → Bool
  | .fin _ m _ => m == 0
  | _ => false

/-- A finite value as an integer multiple of 2^e0, for e0 at most its exponent. -/
def scaled (neg : Bool) (m : Nat) (e e0 : Int) : Int :=
  let x : Int := (m * 2 ^ (e - e0).toNat : Nat)
  if neg then -x else x

def ofInt (x : Int) (e : Int) (zeroNeg : Bool) : Num :=
  if x = 0 then .fin zeroNeg 0 e else .fin (decide (x < 0)) x.natAbs e

/-- The exact sum; NV where infinities cancel. An exact zero of opposite signs is -0 under RDN only (R19). -/
def Num.add (mode : Nat) (x y : Num) : Num × BitVec 6 :=
  match x, y with
  | .nan a, .nan b => (.nan false, if a || b then fNV else 0)
  | .nan a, _ => (.nan false, if a then fNV else 0)
  | _, .nan b => (.nan false, if b then fNV else 0)
  | .inf a, .inf b => if a == b then (.inf a, 0) else (.nan false, fNV)
  | .inf a, _ => (.inf a, 0)
  | _, .inf b => (.inf b, 0)
  | .fin n m e, .fin n' m' e' =>
    let e0 := min e e'
    (ofInt (scaled n m e e0 + scaled n' m' e' e0) e0
      (if m == 0 && m' == 0 && n == n' then n else mode == 3), 0)

def Num.mul (x y : Num) : Num × BitVec 6 :=
  match x, y with
  | .nan a, .nan b => (.nan false, if a || b then fNV else 0)
  | .nan a, _ => (.nan false, if a then fNV else 0)
  | _, .nan b => (.nan false, if b then fNV else 0)
  | .inf a, .inf b => (.inf (a != b), 0)
  | .inf a, .fin b m _ => if m = 0 then (.nan false, fNV) else (.inf (a != b), 0)
  | .fin a m _, .inf b => if m = 0 then (.nan false, fNV) else (.inf (a != b), 0)
  | .fin a m e, .fin b m' e' => (.fin (a != b) (m * m') (e + e'), 0)

/-- a × b + c, exact (R33). -/
def Num.fma (mode : Nat) (a b c : Num) : Num × BitVec 6 :=
  let (p, f) := a.mul b
  let (s, g) := p.add mode c
  (s, f ||| g)

/-- Quotient of positive numbers with `bits` bits and a sticky bit below them. -/
def stickyDiv (a b bits : Nat) : Nat × Nat :=
  let k := bits + Nat.log2 b + 1
  let n := a * 2 ^ k
  (2 * (n / b) + (if n % b = 0 then 0 else 1), k + 1)

def Num.div (x y : Num) : Num × BitVec 6 :=
  match x, y with
  | .nan a, .nan b => (.nan false, if a || b then fNV else 0)
  | .nan a, _ => (.nan false, if a then fNV else 0)
  | _, .nan b => (.nan false, if b then fNV else 0)
  | .inf _, .inf _ => (.nan false, fNV)
  | .inf a, .fin b _ _ => (.inf (a != b), 0)
  | .fin a _ e, .inf b => (.fin (a != b) 0 e, 0)
  | .fin a m e, .fin b m' e' =>
    if m' = 0 then (if m = 0 then (.nan false, fNV) else (.inf (a != b), fDZ))
    else
      let (q, k) := stickyDiv m m' 96
      (.fin (a != b) q (e - e' - (k : Int)), 0)

/-- Integer square root: the largest r with r² ≤ n, found bit by bit from bit `k` down. -/
def isqrtGo (n : Nat) : Nat → Nat → Nat
  | 0, r => if (r + 1) * (r + 1) ≤ n then r + 1 else r
  | k + 1, r => isqrtGo n k (if (r + 2 ^ (k + 1)) * (r + 2 ^ (k + 1)) ≤ n then r + 2 ^ (k + 1) else r)

def isqrt (n : Nat) : Nat := isqrtGo n (Nat.log2 n / 2 + 1) 0

/-- Square root of m × 2^e with 96 bits or more and a sticky bit. -/
def stickySqrt (m : Nat) (e : Int) : Nat × Int :=
  let e2 := if e % 2 = 0 then e else e - 1
  let m2 := if e % 2 = 0 then m else 2 * m
  let n := m2 * 2 ^ 256
  let r := isqrt n
  (2 * r + (if r * r = n then 0 else 1), e2 / 2 - 129)

def Num.sqrt : Num → Num × BitVec 6
  | .nan a => (.nan false, if a then fNV else 0)
  | .inf neg => if neg then (.nan false, fNV) else (.inf false, 0)
  | .fin neg m e =>
    if m = 0 then (.fin neg 0 e, 0)
    else if neg then (.nan false, fNV)
    else let (r, k) := stickySqrt m e; (.fin false r k, 0)

/-- 1 / √x; ±0 gives ±∞ with DZ. -/
def Num.rsqrt : Num → Num × BitVec 6
  | .nan a => (.nan false, if a then fNV else 0)
  | .inf neg => if neg then (.nan false, fNV) else (.fin false 0 0, 0)
  | .fin neg m e =>
    if m = 0 then (.inf neg, fDZ)
    else if neg then (.nan false, fNV)
    else
      let m2 := if e % 2 = 0 then m else 2 * m
      let e2 := if e % 2 = 0 then e else e - 1
      let k := 128 + Nat.log2 m2
      let r := isqrt (2 ^ (2 * k) / m2)
      (.fin false (2 * r + (if r * r * m2 = 2 ^ (2 * k) then 0 else 1)) (-(e2 / 2) - (k : Int) - 1), 0)

/-- Numeric comparison of values that are not NaN: less, equal or greater, zeros equal. -/
def Num.cmp (x y : Num) : Ordering :=
  match x, y with
  | .inf a, .inf b => if a == b then .eq else if a then .lt else .gt
  | .inf a, _ => if a then .lt else .gt
  | _, .inf b => if b then .gt else .lt
  | .fin n m e, .fin n' m' e' =>
    let e0 := min e e'
    compare (scaled n m e e0) (scaled n' m' e' e0)
  | _, _ => .eq

/-- R37: is x below y with -0 < +0. -/
def Num.below (x y : Num) : Bool :=
  match x.cmp y with
  | .lt => true
  | .gt => false
  | .eq => x.neg? && !y.neg?

/-- R38: fkey of a code of width w. -/
def fkey (f : Fmt) (c : Nat) : Nat :=
  if (f.value c).isNan then 2 ^ f.width - 1
  else if f.signBit ≤ c % 2 ^ f.width then 2 ^ f.width - 1 - c % 2 ^ f.width
  else c + f.signBit

/-! ## Integers (R26) -/

/-- The integer of a w-bit image. -/
def intOf (signed : Bool) (w : Nat) (x : Nat) : Int :=
  let y := x % 2 ^ w
  if signed && decide (2 ^ (w - 1) ≤ y) then (y : Int) - (2 ^ w : Nat) else (y : Int)

def intMin (signed : Bool) (w : Nat) : Int := if signed then -((2 ^ (w - 1) : Nat) : Int) else 0
def intMax (signed : Bool) (w : Nat) : Int := if signed then ((2 ^ (w - 1) : Nat) : Int) - 1 else ((2 ^ w : Nat) : Int) - 1

/-- The image of an exact result: its low w bits, or clamped under SAT. -/
def wrapInt (sat signed : Bool) (w : Nat) (x : Int) : Nat :=
  let y := if sat then max (intMin signed w) (min (intMax signed w) x) else x
  (y % ((2 ^ w : Nat) : Int)).toNat

/-! ## X320 (R34, R35) -/

def sPI : BitVec 4 := 8
def sMI : BitVec 4 := 4
def sNS : BitVec 4 := 2
def sV : BitVec 4 := 1

/-- An integer taken modulo 2^320 into the range of X320, and whether it had left it. -/
def x320Wrap (x : Int) : Int × Bool :=
  let m : Int := ((2 ^ 320 : Nat) : Int)
  let h : Int := ((2 ^ 319 : Nat) : Int)
  let y := (x + h) % m - h
  (y, y != x)

/-- x320(x) for a value that is a multiple of 2^-157; what lies below that weight is dropped (no value of R34 has it). -/
def x320 : Num → Int
  | .fin neg m e =>
    let k := e + 157
    let v : Int := if 0 ≤ k then (m * 2 ^ k.toNat : Nat) else (m / 2 ^ (-k).toNat : Nat)
    if neg then -v else v
  | _ => 0

/-- R35: a value added `weight` times into an accumulator. -/
def x320Add (acc : Int) (side : BitVec 4) (weight : Nat) (x : Num) : Int × BitVec 4 :=
  match x with
  | .nan _ => (acc, side ||| sNS)
  | .inf neg => (acc, side ||| (if neg then sMI else sPI))
  | .fin _ _ _ =>
    let (y, out) := x320Wrap (acc + (weight : Int) * x320 x)
    (y, if out then side ||| sV else side)

def x320Join (a : Int) (sa : BitVec 4) (b : Int) (sb : BitVec 4) : Int × BitVec 4 :=
  let (y, out) := x320Wrap (a + b)
  (y, sa ||| sb ||| (if out then sV else 0))

/-- W0 (R36) and the other words of an X320 value. -/
def x320Word (x : Int) (j : Nat) : W64 := BitVec.ofNat 64 ((x % ((2 ^ 320 : Nat) : Int)).toNat / 2 ^ (64 * j))

/-- R35: read-out of N × 2^-157 / d to a format; `d` is 1 but at the close of a reduction (R351). -/
def x320Read (f : Fmt) (rd : Rounding) (n : Int) (side : BitVec 4) (d : Nat) : Nat × BitVec 6 :=
  if side &&& sNS != 0 || side &&& sV != 0 || (side &&& sPI != 0 && side &&& sMI != 0) then (f.nanCode, fNV ||| fNF)
  else if side &&& sPI != 0 then (f.withSign false f.infCode, fNF)
  else if side &&& sMI != 0 then (f.withSign true f.infCode, fNF)
  else if n = 0 then (0, 0)
  else
    let (q, k) := stickyDiv n.natAbs d 400
    roundFin f rd false (decide (n < 0)) q (-157 - (k : Int))

end Sys2Proof.Machine
end

