-- ==== Sys2Proof/Machine/Operands.lean ====
section
/-! DEFINITION. Reading operands (R178, R179, R148), scalar and mask roles (R285), and the addresses of M-format words (R180). -/

namespace Sys2Proof.Machine

/-- The exact value of an inline float (R178). -/
def inlineFloat (c : Fin 16) : Num :=
  let k := c.val % 8
  .fin (decide (8 ≤ c.val)) (if k = 0 then 0 else 1) (if k = 0 then 0 else (k : Int) - 4)

/-- The integer of an inline integer code. -/
def inlineInt (c : Fin 32) : Int := (c.val : Int) - 16

/-- A value in a format when the format holds it exactly. -/
def exactly (f : Fmt) (x : Num) : Try Nat :=
  let (c, fl) := roundNum f rne false x
  if fl = 0 then .ok c else illegalOperand

/-- FP32 to FP64, exactly, NaN payloads too (R179). -/
def widen32 (l : Nat) : Nat :=
  let sign := l / 2 ^ 31 % 2
  if l / 2 ^ 23 % 256 = 255 then sign * 2 ^ 63 + 2047 * 2 ^ 52 + (l % 2 ^ 23) * 2 ^ 29
  else (roundNum f64 rne false (f32.value l)).1

/-- R179: an inline, literal or zero source in a source type, as the bits of that type. -/
def constBits (typ : Nat) (o : Opnd) : Try Nat :=
  let w := typeBits typ
  match o with
  | .zero => .ok 0
  | .int c =>
    match fmtOf typ with
    | none => .ok (inlineInt c % ((2 ^ w : Nat) : Int)).toNat
    | some f => exactly f (ofInt (inlineInt c) 0 false)
  | .flt c =>
    match fmtOf typ with
    | none => illegalOperand
    | some f => exactly f (inlineFloat c)
  | .lit l =>
    if typ = 3 then .ok (l.signExtend 64).toNat
    else if typ = 11 then .ok (widen32 l.toNat)
    else .ok (l.toNat % 2 ^ w)
  | _ => illegalOperand

/-! ## Scalar and mask roles (R285) -/

/-- A scalar source in type i64 (`signed`) or n64. -/
def State.scalarSrc (s : State) (b : Band) (signed : Bool) (o : Opnd) : Try W64 :=
  match o with
  | .s n => b.readS n.val
  | .a n => s.readA b n.val
  | .m n => do return (← s.readM b n.val).setWidth 64
  | .flt _ => illegalOperand
  | o => do return BitVec.ofNat 64 (← constBits (if signed then 3 else 7) o)

/-- A mask source: the low 32 bits. -/
def State.maskSrc (s : State) (b : Band) (o : Opnd) : Try W32 :=
  match o with
  | .m n => s.readM b n.val
  | .s n => do return (← b.readS n.val).setWidth 32
  | .flt _ => illegalOperand
  | o => do return BitVec.ofNat 32 (← constBits 6 o)

/-- A scalar or address destination. -/
def State.scalarDst (s : State) (b : Band) (d : Opnd) (x : W64) : Try State :=
  match d with
  | .s n => s.writeS b n.val x
  | .a n => s.writeA b n.val x
  | _ => illegalOperand

def State.maskDst (s : State) (b : Band) (d : Opnd) (x : W32) : Try State :=
  match d with
  | .m n => s.writeM b n.val x
  | _ => illegalOperand

/-- R286, R195: a word in the scalar form is performed once when some lane is enabled, and not at all otherwise. -/
def whenEnabled (s : State) (b : Band) (body : Try State) : Try Fin' := do
  let l ← s.lanesOf b
  if l = 0 then return .next s else return .next (← body)

/-! ## Addresses (R180) -/

/-- A modulo mode's wrap, applied once. -/
def wrapMod (base len x : W64) : W64 := if base.toNat + len.toNat ≤ x.toNat then x - len else x

/-- The effective address, the address register's new value, and the modulo buffer. -/
structure Ea where
  e : W64
  upd : Option W64
  buf : Option (W64 × W64)
  deriving DecidableEq, Repr

/-- The address of an M-format word whose access size is z. -/
def State.effective (s : State) (b : Band) (m : MemRef) (z : Nat) : Try Ea := do
  let a ← s.readA b m.areg.toNat
  let buf := b.b.toArray.getD m.breg.toNat (0, 0)
  let zz : W64 := BitVec.ofNat 64 z
  match m.amode with
  | .base => return ⟨a, none, none⟩
  | .post => return ⟨a, some (a + zz), none⟩
  | .postMod =>
    need (buf.2 != 0)
    return ⟨a, some (wrapMod buf.1 buf.2 (a + zz)), some buf⟩
  | .idx => do
    let x ← b.readS m.index.toNat
    return ⟨a + x, none, none⟩
  | .lanes => return ⟨a, none, none⟩
  | .idxMod => do
    need (buf.2 != 0)
    let x ← b.readS m.index.toNat
    return ⟨wrapMod buf.1 buf.2 (a + x), none, some buf⟩
  | _ => illegalOperand

/-- R196: the address of lane i with element width w bytes. -/
def Band.laneAddr (b : Band) (m : MemRef) (ea : Ea) (w i : Nat) : W64 :=
  match m.amode with
  | .lanes => ea.e + (((b.vName m.index.toNat).val.lane i).signExtend 64)
  | _ =>
    let x := ea.e + BitVec.ofNat 64 (i * w)
    match ea.buf with
    | some (base, len) => wrapMod base len x
    | none => x

/-- The index register of mode 100 must have its value. -/
def Band.indexReady (b : Band) (m : MemRef) : Try Unit :=
  match m.amode with
  | .lanes => holdUnless (b.vName m.index.toNat).pend.isNone
  | _ => .ok ()

/-- The address register's update (R180), made whatever EXEC holds. -/
def State.updateA (s : State) (b : Band) (m : MemRef) (ea : Ea) : State :=
  match ea.upd with
  | some x => s.putA b m.areg.toNat x
  | none => s

/-- Lanes whose bit is set, ascending. -/
def laneList (l : W32) : List Nat := (List.range 32).filter fun i => l.getLsbD i

/-! ## Vector roles -/

/-- R148: lat may be named only right after a vector ALU operation of the clause. -/
def Band.readLat (b : Band) : Try VReg := if b.latValid then .ok b.lat else illegalOperand

/-- R218: lid in a source type: the lane's number, exactly. The narrow formats do not hold all 32 numbers, so lid is no source of theirs
(DEDUCED, log 26). -/
def lidBits (typ i : Nat) : Nat :=
  match fmtOf typ with
  | none => i
  | some f => (roundNum f rne false (ofInt (i : Int) 0 false)).1

/-- The 32-bit lanes of a vector source whose elements have 32 bits or fewer, in a source type. -/
def State.vecSrc (s : State) (b : Band) (typ : Nat) (o : Opnd) : Try VReg :=
  match o with
  | .v n => b.readV n.val
  | .o n => s.readO b n.val
  | .lat => b.readLat
  | .s n => do
    let x ← b.readS n.val
    return VReg.ofFn fun _ => x.setWidth 32
  | .lid => if 12 ≤ typ then illegalOperand else .ok (VReg.ofFn fun i => BitVec.ofNat 32 (lidBits typ i))
  | o => do
    let c ← constBits typ o
    return VReg.ofFn fun _ => BitVec.ofNat 32 c

/-- A vector source of a 64-bit type: the low and the high register of the pair (R16). -/
def State.pairSrc (s : State) (b : Band) (typ : Nat) (o : Opnd) : Try (VReg × VReg) :=
  match o with
  | .v n => do
    need (n.val % 2 == 0)
    return (← b.readV n.val, ← b.readV (n.val + 1))
  | .o n => do
    need (n.val % 2 == 0)
    return (← s.readO b n.val, ← s.readO b (n.val + 1))
  | .s n => do
    let x ← b.readS n.val
    return (VReg.ofFn fun _ => x.setWidth 32, VReg.ofFn fun _ => (x >>> 32).setWidth 32)
  | .lid =>
    .ok (VReg.ofFn fun i => BitVec.ofNat 32 (lidBits typ i), VReg.ofFn fun i => BitVec.ofNat 32 (lidBits typ i / 2 ^ 32))
  | .lat => illegalOperand
  | o => do
    let c ← constBits typ o
    return (VReg.ofFn fun _ => BitVec.ofNat 32 c, VReg.ofFn fun _ => BitVec.ofNat 32 (c / 2 ^ 32))

/-- The element of lane i of a source, as bits of its type. -/
def State.lanesSrc (s : State) (b : Band) (typ : Nat) (o : Opnd) : Try (Nat → Nat) := do
  if typeBits typ = 64 then
    let (lo, hi) ← s.pairSrc b typ o
    return fun i => (lo.lane i).toNat + 2 ^ 32 * (hi.lane i).toNat
  else
    let x ← s.vecSrc b typ o
    return fun i => (x.lane i).toNat % 2 ^ typeBits typ

/-- R16: an element placed in a 32-bit lane: sign-extended for i8 and i16, else zero-extended. -/
def laneImage (typ x : Nat) : W32 :=
  match typ with
  | 0 => (BitVec.ofNat 8 x).signExtend 32
  | 1 => (BitVec.ofNat 16 x).signExtend 32
  | _ => BitVec.ofNat 32 x

/-- R16: an element placed in a 64-bit scalar register. -/
def scalarImage (typ x : Nat) : W64 :=
  match typ with
  | 0 => (BitVec.ofNat 8 x).signExtend 64
  | 1 => (BitVec.ofNat 16 x).signExtend 64
  | 2 => (BitVec.ofNat 32 x).signExtend 64
  | _ => BitVec.ofNat 64 x

/-- A register's write by a vector word to a v or o destination, in some lanes; with none it writes nothing (R219). -/
def State.vecDst (s : State) (b : Band) (d : Opnd) (x : VReg) (lanes : W32) : Try State :=
  if lanes = 0 then .ok s
  else
    match d with
    | .v n => s.writeV b n.val x lanes
    | .o n => s.writeO b n.val x lanes
    | _ => illegalOperand

/-- Two registers of a 64-bit destination, allocated at once (R142). -/
def State.pairDst (s : State) (b : Band) (d : Opnd) (lo hi : VReg) (lanes : W32) : Try State :=
  match d with
  | .v n => do
    need (n.val % 2 == 0)
    if lanes = 0 then return s
    b.partialReady n.val lanes
    b.partialReady (n.val + 1) lanes
    s.alloc b 2 0
    return (s.putV b n.val lo lanes).putV b (n.val + 1) hi lanes
  | .o n => do
    need (n.val % 2 == 0)
    if lanes = 0 then return s
    s.oReady b n.val
    s.oReady b (n.val + 1)
    return (s.putO b n.val lo lanes).putO b (n.val + 1) hi lanes
  | _ => illegalOperand

/-- The whole value of a v or o register after a write, which a vector ALU operation also puts into lat (R148). -/
def State.latFrom (s : State) (b : Band) (d : Opnd) : State :=
  s.modBand b.uid fun c =>
    match d with
    | .v n => { c with lat := (c.vName n.val).val, latValid := true }
    | .o n => { c with lat := c.o.toArray.getD n.val VReg.zero, latValid := true }
    | _ => c

/-- R146, R148: lat takes a register's whole value, so with no lane enabled the word waits for a result that the register awaits. -/
def State.wholeReady (s : State) (b : Band) (d : Opnd) (lanes : W32) : Try Unit :=
  if lanes ≠ 0 then .ok ()
  else
    match d with
    | .v n => holdUnless (b.vName n.val).pend.isNone
    | .o n => s.oReady b n.val
    | _ => .ok ()

/-- Elements written to a destination of a type: one register, or a pair. `alu` says whether lat takes a single register's value. -/
def State.elemDst (s : State) (b : Band) (typ : Nat) (d : Opnd) (f : Nat → Nat) (lanes : W32) (alu : Bool) : Try State := do
  if typeBits typ = 64 then
    s.pairDst b d (VReg.ofFn fun i => BitVec.ofNat 32 (f i)) (VReg.ofFn fun i => BitVec.ofNat 32 (f i / 2 ^ 32)) lanes
  else
    if alu then s.wholeReady b d lanes
    let t ← s.vecDst b d (VReg.ofFn fun i => laneImage typ (f i)) lanes
    return if alu then t.latFrom b d else t

end Sys2Proof.Machine
end

