-- ==== Sys2Proof/Machine/Fetch.lean ====
section
/-! DEFINITION. Clauses: fetching one whole (R174), its header (R169, R171, R172), the next word of a band, and a band placed by
hand for one word (DESIGN CHOICE, log 17). -/

namespace Sys2Proof.Machine

/-- R174: the words of a clause after its header, read in address order; the lowest page that fails otherwise. -/
def State.fetchWords (s : State) (b : Band) : Nat → W64 → Except (W64 × TrFault) (List (W32 × Option (Nat × KillCause)))
  | 0, _ => .ok []
  | n + 1, a =>
    match s.fetchWord b a with
    | .error f => .error (a, f)
    | .ok w =>
      match State.fetchWords s b n (va57 (a + 4)) with
      | .error e => .error e
      | .ok ws => .ok (w :: ws)

/-- A fetch trap reports the header and the page that failed (R174). -/
def State.fetchTrap (s : State) (b : Band) (code : Nat) (a : W64) : Trap :=
  { code := BitVec.ofNat 8 code, lane := 0, s26 := s.pageAddr (s.bandCtx b) a, s27 := 0, pc := b.hdr, atHdr := true, hdr := b.hdr,
    skip := va57 (b.hdr + 4) }

/-- The clause at a header, read whole in address order (R174). -/
inductive Fetched where
  | clause (c : Clause)
  | notHeader
  | trap (code : Nat) (va : W64)
  | damaged (atom : Nat) (cause : KillCause)
  deriving DecidableEq, Repr

def State.fetchAt (s : State) (b : Band) (hdr : W64) : Fetched :=
  match s.fetchWord b hdr with
  | .error _ => .trap tFetch hdr
  | .ok (_, some (pa, c)) => .damaged pa c
  | .ok (h, none) =>
    if h.extractLsb' 24 8 != 0xFC then .notHeader
    else
      match s.fetchWords b ((h.extractLsb' 0 4).toNat + 1) (va57 (hdr + 4)) with
      | .error (a, _) => .trap tStraddle a
      | .ok ws =>
        match ws.findSome? Prod.snd with
        | some (pa, c) => .damaged pa c
        | none => .clause ⟨h, ws.map Prod.fst⟩

/-- The errors that the read of a clause corrected (R47). -/
def State.fetchScrub (s : State) (b : Band) (hdr : W64) (n : Nat) : State :=
  if s.errs = [] then s
  else (List.range n).foldl (fun s i => match s.translate (s.bandCtx b) .fetch (va57 (hdr + 4 * BitVec.ofNat 64 i)) with
    | .ok t => s.readTouch (s.whoOf b) t.pa 4
    | .error _ => s) s

/-- The band slot that an aperture address names, with its core within the die. -/
def apPlace (pa : Nat) : Nat × Place :=
  let o := pa % 2 ^ 40
  let c := o / 2 ^ 32 % 64
  (c, ⟨60 * (o / 2 ^ 38 % 4) + c, o / 2 ^ 30 % 4, o / 2 ^ 26 % 16⟩)

/-- R160: a store through the aperture waits for the band of a place. -/
def State.apAwaits (s : State) (p : Place) : Bool :=
  s.ops.any fun o => match o.kind with
    | .store x => x.atoms.any fun a => !a.done && s.kindOf a.pa == .aperture && decide ((apPlace a.pa).1 < 60) && (apPlace a.pa).2 == p
    | _ => false

/-- Whether an address is that of a word of a clause after its header. -/
def Clause.holds (c : Clause) (hdr a : W64) : Bool :=
  let d := (va57 (a - hdr)).toNat
  decide (a.toNat < 2 ^ 57) && decide (0 < d) && decide (d % 4 = 0) && decide (d ≤ 4 * c.words.length)

/-- Where a band goes on in a clause that it was to resume in the middle of: at the word, at the header after the clause, or nowhere (R374;
DEDUCED, log 32). -/
def Band.resumeIn (b : Band) (c : Clause) : Option Band :=
  match b.resume with
  | none => some { b with clause := some c, pc := b.hdr }
  | some r =>
    if c.holds b.hdr r then some { b with clause := some c, pc := r, resume := none }
    else if r == va57 (b.hdr + 4 * BitVec.ofNat 64 (1 + c.words.length)) then some (b.goto r)
    else none

/-- R168, R173, R174: the clause at the band's header is fetched whole. A band that is to stop is not fetched for (R338), nor one for
which a store through the aperture waits (R160). A band that returns into the middle of a clause resumes at its recorded word. -/
def fetchClause (s : State) : State :=
  match s.bandAt s.cur with
  | none => s
  | some b =>
    if b.clause.isSome || !b.canIssue || b.stopping || s.apAwaits b.place then s
    else if (b.hdr.toNat / 2 ^ 57 = 0) && s.missing (s.bandCtx b) b.hdr then
      s.setBand { b with wait := some (.walk b.hdr 3 0), held := true }
    else
      match s.fetchAt b b.hdr with
      | .trap code va => s.takeTrap b (s.fetchTrap b code va)
      | .damaged pa c => (s.consume b pa c).stopAt b.uid
      | .notHeader => s.takeTrap b { s.fetchTrap b tIllegalTarget b.hdr with s26 := b.hdr }
      | .clause c =>
        match b.resumeIn c with
        | some d => (s.fetchScrub b b.hdr (1 + c.words.length)).setBand d
        | none => s.takeTrap b { s.fetchTrap b tIllegalTarget b.hdr with s26 := b.resume.getD 0 }

def execClauseFetch (s : State) : Host.Outcome State Fault Refusal := .next (fetchClause s)

/-- R171: whether every flag that WAIT masks is zero. -/
def Band.flagsClear (b : Band) (wait : BitVec 12) : Bool :=
  (List.range 12).all fun k => !wait.getLsbD k || b.f.toArray.getD k 0 == 0

def setField (x : BitVec 4) : Bool := x != 0xC && x != 0xD && x != 0xE

/-- R169, R171, R172: the header issues once its masked flags are zero. A header word met within a clause is an illegal
instruction. -/
def headerStep (i : Instr) (wait : BitVec 12) (seta setb : BitVec 4) (s : State) : State :=
  match s.bandAt s.cur with
  | none => s
  | some b =>
    let w : W64 := (encodeWord i).setWidth 64
    if !b.canIssue then s
    else if !b.atHeader || b.clause.isNone then s.takeTrap b (b.trapAt false 1 tIllegalInstr 0 w 0)
    else if b.stopping || s.apAwaits b.place then s.setBand { b with held := true }
    else if !(setField seta && setField setb) then s.takeTrap b (b.trapAt false 1 tIllegalOperand 0 w 0)
    else if !b.flagsClear wait then s.setBand { b with held := true }
    else s.setBand { (({ b with pc := va57 (b.pc + 4) } : Band).issued b.inHandler i s.cycle) with latValid := false }

def execClauseHeader (wait : BitVec 12) (seta setb len : BitVec 4) (s : State) : Host.Outcome State Fault Refusal :=
  .next (headerStep (.clauseHeader wait seta setb len) wait seta setb s)

/-- What a band does next: fetch its clause, or an instruction, or refuse a word. -/
inductive Next where
  | instr (i : Instr)
  | refuse (w : W32)
  deriving DecidableEq, Repr

/-- The words from the band's position to the end of its clause. -/
def Clause.from (c : Clause) (hdr pc : W64) : List W32 := (c.header :: c.words).drop ((va57 (pc - hdr)).toNat / 4)

def Band.nextWord (b : Band) : Next :=
  match b.clause with
  | none => .instr .clauseFetch
  | some c =>
    match c.from b.hdr b.pc with
    | [] => .instr .clauseFetch
    | w :: rest =>
      match decode (w :: rest) with
      | .ok (i, _) => .instr i
      | .error _ => .refuse w

/-! ## A band placed by hand (DESIGN CHOICE, log 17) -/

/-- A record with one level and nothing declared: what a host would submit for one band. -/
def plainRec : LaunchRec where
  prog := 0
  lid := 1
  wrld := false
  migr := false
  mirr := false
  mdom := false
  rply := 0
  redn := 0
  serial := false
  priv := true
  carve := 0
  copies := 1
  frz := 15
  prio := 0
  queue := 0
  treg := 0
  regs := 0
  nctx := 1
  vwait := 0
  spillb := 0
  spillsz := 65536
  nest1 := 0
  nest2 := 0
  ctxb := 0
  pgt := 0
  rlog := 0
  rlogn := 1024
  wset := 0
  seed := 0
  cstamp := 0
  cseq := 0
  dep0 := ⟨false, 0, 0, 0⟩
  dep1 := ⟨false, 0, 0, 0⟩
  levels := [⟨1, 7, 0⟩]

/-- A launch as it becomes active. -/
def mkLaunch (uid queue : Nat) (lr : LaunchRec) (root : W64) (pg : Option PGTable) (cycle : Nat) : Launch where
  uid := uid
  queue := queue
  lr := lr
  root := root
  pg := pg
  phase := .active
  activatedAt := cycle
  fsum := 0
  status := 0
  trapCode := 0
  replayable := true
  replays := 0
  charged := 0
  wgRun := 0
  placed := []
  tplPlaced := []
  barren := []
  ctxUsed := []
  tplTime := []
  logn := 0
  order := []
  granules := []
  poolBase := 0
  poolNext := 0
  poolN := 0
  runs := 1
  runCores := []
  deps := []
  crsDone := []
  after := none
  kills := []
  killed := 0
  assisted := none

def mkWg (uid launch idx core slot ctx cycle : Nat) (template : Bool) : Workgroup where
  uid := uid
  launch := launch
  idx := idx
  template := template
  run := 0
  core := core
  slot := slot
  ctx := ctx
  resident := true
  saved := []
  half := false
  current := none
  filling := ⟨0, 0, []⟩
  bars := []
  overlays := []
  nested := []
  stamped := false
  places := []
  spent := 0
  tokens := []
  placedAt := cycle
  savedCtr := 0
  preempting := false
  fixed := false
  exited := false
  exits := []

/-- R138: a band at its start. -/
def mkBand (uid : Nat) (p : Place) (launch wg pos itemidx : Nat) (prog : W64) (priv : Bool) (cycle : Nat) : Band where
  uid := uid
  place := p
  launch := launch
  wg := wg
  pos := pos
  itemidx := itemidx
  xidx := 0
  fdepth := 0
  rank := 0
  lvls := []
  image := none
  template := false
  v := Vector.replicate 64 VName.zero
  s := Vector.replicate 64 SName.zero
  o := Vector.replicate 8 VReg.zero
  lat := VReg.zero
  latValid := false
  a := Vector.replicate 16 0
  b := Vector.replicate 8 (0, 0)
  m := (Vector.replicate 16 0).set 0 (~~~ 0#32)
  f := Vector.replicate 12 0
  mode := 0
  fps := 0
  sig := 0
  srseq := 0
  hdr := prog
  pc := prog
  clause := none
  resume := none
  frames := []
  inHandler := false
  privileged := priv
  winFault := none
  retrying := none
  batch := 0
  batchLeft := []
  monitors := []
  trap := none
  suspended := false
  halted := false
  parked := false
  stopping := false
  wait := none
  timeLeft := none
  held := false
  tried := none
  stalled := none
  copies := 0
  lastCopy := none
  readyAt := cycle
  since := cycle

/-- A band at `p` with its launch and workgroup, where none stands. -/
def State.stage (s : State) (p : Place) : State :=
  match s.bandAt p with
  | some _ => s
  | none =>
    let u := s.nextUid
    { s with
      nextUid := u + 3
      launches := s.launches ++ [mkLaunch u 0 plainRec 0 none s.cycle]
      wgs := s.wgs ++ [{ mkWg (u + 1) u 0 p.core 0 0 s.cycle false with places := [p], stamped := true }]
      bands := s.bands ++ [mkBand (u + 2) p u (u + 1) 0 0 0 true s.cycle] }

/-- The words a table word needs in its clause: itself and, where it names a literal, the literal. -/
def tableWords (w : Nat) : List W32 :=
  let w0 := BitVec.ofNat 32 w
  let l := BitVec.ofNat 32 (w / 2 ^ 32)
  match decode [w0, l] with
  | .ok (_, [_]) => [w0]
  | _ => [w0, l]

/-- The band stands before the word: at a header when the word is one, else in a clause that ends with the word. -/
def Band.withWord (b : Band) (w : Nat) : Band :=
  let w0 : W32 := BitVec.ofNat 32 w
  if w0.extractLsb' 24 8 == 0xFC then
    { b with clause := some ⟨w0, List.replicate ((w0.extractLsb' 0 4).toNat + 1) 0⟩, pc := b.hdr, resume := none }
  else { b with clause := some ⟨0xFC000FF0, tableWords w⟩, pc := va57 (b.hdr + 4), resume := none }

end Sys2Proof.Machine
end

