-- ==== Sys2Proof/Machine/Local.lean ====
section
/-! DEFINITION. The local store: windows (R77), mirror halves (R81) and the template region (R164). -/

namespace Sys2Proof.Machine

/-- R75, R77: size of a workgroup's window. -/
def State.window (s : State) (core carve : Nat) (space : Space) : Nat :=
  (s.banks core carve space.role).length * 65536 / carveSlots carve

/-- R77: where a byte of a window lies in the local stores. -/
def State.lsKey (s : State) (core carve slot : Nat) (space : Space) (o : Nat) : Nat :=
  let bs := s.banks core carve space.role
  let (k, byte) := bankOf 0 bs.length (slot * s.window core carve space + o)
  core * 2 ^ 21 + bs.getD k 0 * 2 ^ 16 + byte

/-- What a workgroup's windows depend on: its carve-out, whether SP is mirrored (R81), and the template region's size (R164). -/
structure LsView where
  carve : Nat
  mirr : Bool
  treg : Nat
  deriving DecidableEq, Repr

def State.lsView (s : State) (w : Workgroup) : LsView :=
  match s.launch? w.launch with
  | some l => ⟨l.lr.carve, l.lr.mirr, if l.lr.frz = 15 then 0 else l.lr.treg⟩
  | none => ⟨0, false, 0⟩

/-- The bytes of a space that a workgroup addresses: half of SP's window when it is mirrored (R81). -/
def State.spaceSize (s : State) (w : Workgroup) (space : Space) : Nat :=
  let v := s.lsView w
  let n := s.window w.core v.carve space
  if v.mirr && space == .sp then n / 2 else n

/-- The front half's byte o of a workgroup, or any other space's. -/
def State.spaceKey (s : State) (w : Workgroup) (space : Space) (o : Nat) : Nat :=
  let v := s.lsView w
  let o := if v.mirr && space == .sp && w.half then o + s.window w.core v.carve space / 2 else o
  s.lsKey w.core v.carve w.slot space o

/-- The back half's byte o (R81, R82). -/
def State.backKey (s : State) (w : Workgroup) (o : Nat) : Nat :=
  let v := s.lsView w
  s.lsKey w.core v.carve w.slot .sp (if w.half then o else o + s.window w.core v.carve .sp / 2)

/-- R164: the SP byte that an item sees at an offset: its overlay line's byte, else the byte itself. -/
def Workgroup.overlaid (w : Workgroup) (band treg o : Nat) : Nat :=
  if o < treg then
    match w.overlays.find? fun v => v.band == band && v.line == o / 128 with
    | some v => treg + v.slot * 128 + o % 128
    | none => o
  else o

def State.lsByte (s : State) (key : Nat) : Byte := Mem.get s.ls key
def State.setLs (s : State) (key : Nat) (x : Byte) : State := { s with ls := Mem.set s.ls key x }

/-- Bytes of a space, at an offset of a workgroup. -/
def State.readSpace (s : State) (w : Workgroup) (space : Space) (o n : Nat) : Nat :=
  leNat ((List.range n).map fun i => s.lsByte (s.spaceKey w space (o + i)))

def State.writeSpace (s : State) (w : Workgroup) (space : Space) (o : Nat) (bs : List Byte) : State :=
  bs.zipIdx.foldl (fun s (x, i) => s.setLs (s.spaceKey w space (o + i)) x) s

/-- R165: the template region as a nested item finds it, which is its image's; other bands find the workgroup's copy. -/
def State.nestRegion (s : State) (b : Band) : List Byte :=
  match b.image.bind s.image? with
  | some i => if i.depth < 2 then [] else i.region
  | none => []

/-- The SP byte that a band sees: in the template region its overlay line's, else its nested image's, else the workgroup's (R164). -/
def State.spByte (s : State) (w : Workgroup) (b : Band) (treg o : Nat) : Byte :=
  let x := s.lsByte (s.spaceKey w .sp (w.overlaid b.uid treg o))
  if o < treg && w.overlaid b.uid treg o == o then (s.nestRegion b).getD o x else x

/-- SP as a band of a workgroup sees it. -/
def State.readSp (s : State) (w : Workgroup) (b : Band) (treg o n : Nat) : Nat :=
  leNat ((List.range n).map fun i => s.spByte w b treg (o + i))

/-- R76: a workgroup's windows cleared to zero. -/
def State.clearWindows (s : State) (w : Workgroup) : State :=
  let v := s.lsView w
  let inWindow := fun (key : Nat) =>
    [Space.sp, .ab, .wb, .cb].any fun space =>
      let bs := s.banks w.core v.carve space.role
      let n := s.window w.core v.carve space
      match bs.findIdx? (· == key / 2 ^ 16 % 32) with
      | none => false
      | some k =>
        let line := key % 2 ^ 16 / 128 * bs.length + k
        let co := line * 128 + key % 128
        decide (key / 2 ^ 21 = w.core) && decide (w.slot * n ≤ co) && decide (co < (w.slot + 1) * n)
  { s with ls := s.ls.filter fun c => !inWindow c.1 }

/-- R82: mirror-target fault; FSUM bit as R344 has it. -/
def mirrorFaultBit : Nat := 1

/-! ## Range locks (R100, R101) -/

def Lock.meets (l : Lock) (lo hi : Nat) : Bool := decide (l.lo < hi) && decide (lo < l.hi)

/-- Whether an access of a band meets a lock: destination locks, and source locks too when it writes. -/
def State.locked (s : State) (b : Band) (space : Space) (slot : Nat) (writes : Bool) (lo n : Nat) : Bool :=
  let c := s.bandCtx b
  s.locks.any fun l =>
    l.core == b.place.core && l.space == space && (l.dest || writes) && l.meets lo (lo + n) &&
      (if space == .mem then l.root == c.root && l.world == c.world else l.slot == slot)

/-- The trap of the lowest lane that meets a lock. -/
def State.checkLocks (s : State) (b : Band) (space : Space) (slot : Nat) (writes : Bool) (n : Nat) (ls : List (Nat × W64)) : Try Unit :=
  match ls.find? fun x => s.locked b space slot writes x.2.toNat n with
  | some (i, a) => .error (.trap tRangeLock i a (BitVec.ofNat 64 space.code))
  | none => .ok ()

end Sys2Proof.Machine
end

