-- ==== Sys2Proof/Machine/MemOps.lean ====
section
/-! DEFINITION. Loads and stores of memory as they issue (R194 to R199, R204, R205, R217), and what the other M-format words share
with them. Their accesses are performed by the events of Machine/Perform. -/

namespace Sys2Proof.Machine

/-! ## Lanes and translation (R195 to R197, R60) -/

/-- R195: D names a vector register or lat. -/
def isVectorOpnd : Opnd → Bool
  | .v _ | .o _ | .lat => true
  | _ => false

/-- The enabled lanes of a word with their addresses: every enabled lane in the vector form; in the scalar form one access, as
lane 0, when some lane is enabled. -/
def Band.memLanes (b : Band) (m : MemRef) (ea : Ea) (w : Nat) (vector : Bool) (l : W32) : List (Nat × W64) :=
  if vector then (laneList l).map fun i => (i, b.laneAddr m ea w i) else if l = 0 then [] else [(0, ea.e)]

/-- R197: natural alignment. -/
def checkAlign (w : Nat) (ls : List (Nat × W64)) : Try Unit :=
  match ls.find? fun x => x.2.toNat % w != 0 with
  | some (i, a) => .error (.trap tMisalign i a 0)
  | none => .ok ()

/-- The addresses at which an access of w bytes meets its pages: its own, and the next page's first byte when it crosses. -/
def touched (va : W64) (w : Nat) : List W64 :=
  if va.toNat % 4096 + w ≤ 4096 then [va] else [va, va + BitVec.ofNat 64 (4096 - va.toNat % 4096)]

/-- R60: a miss holds the band until its walk ends. -/
def State.walkFirst (s : State) (c : Ctx) (acc : Acc) (w : Nat) (ls : List (Nat × W64)) : Try Unit :=
  match ls.findSome? fun (i, a) => ((touched a w).find? fun p => s.missing c p).map fun p => (i, p) with
  | some (i, p) => .error (.wait (.walk p acc.code i))
  | none => .ok ()

/-! The register aperture (R158 to R160). -/

/-- The band of an aperture address, resident or parked. -/
def State.apBand (s : State) (pa : Nat) : Option Band :=
  let (c, p) := apPlace pa
  if 60 ≤ c then none else s.bandAt p

def State.bandLaunch (s : State) (b : Band) : Option Launch := s.launch? b.launch

/-- R160: the access gives the aperture-empty fault. -/
def State.apEmpty (s : State) (pa : Nat) : Bool :=
  match s.apBand pa with
  | none => true
  | some t => match s.bandLaunch t with | some l => l.lr.migr | none => true

/-- What a lane's translation comes to: the physical address and class of each byte, and the translations of its pages. -/
structure LaneTr where
  lane : Nat
  va : W64
  bytes : List (Nat × Nat)
  trs : List Tr
  deriving DecidableEq, Repr

/-- One page's translation with the checks that depend on what lies there (R160, R206, R214). `strict` refuses versioned pages, the
aperture and the device registers. -/
def State.translateStrict (s : State) (c : Ctx) (acc : Acc) (strict : Bool) (va : W64) : Except TrFault Tr :=
  match s.translate c acc va with
  | .error f => .error f
  | .ok t =>
    let k := s.kindOf t.pa
    if strict && (t.bind.isSome || k == .aperture || k == .device) then .error ⟨.permission, false, false⟩
    else if k == .aperture && !c.world && (match s.apBand t.pa with
      | some b => (match s.bandLaunch b with | some l => l.lr.wrld | none => false)
      | none => false) then .error ⟨.world, false, false⟩
    else .ok t

/-- The class under which an address is accessed: aperture accesses are device-class (R160). -/
def State.classAt (s : State) (t : Tr) : Nat := if s.kindOf t.pa == .aperture then 3 else t.cc

def State.translateLane (s : State) (c : Ctx) (acc : Acc) (strict : Bool) (w : Nat) (x : Nat × W64) : Except TrFault LaneTr :=
  match (touched x.2 w).mapM fun p => s.translateStrict c acc strict p with
  | .error f => .error f
  | .ok ts =>
    let first := 4096 - x.2.toNat % 4096
    .ok ⟨x.1, x.2, (List.range w).map fun i =>
      if i < first then (match ts[0]? with | some t => (t.pa + i, s.classAt t) | none => (0, 0))
      else match ts[1]? with | some t => (t.pa + (i - first), s.classAt t) | none => (0, 0), ts⟩

/-- R60: every enabled lane translated, or the trap of the lowest lane that fails. -/
def State.translateLanes (s : State) (c : Ctx) (acc : Acc) (strict : Bool) (w : Nat) :
    List (Nat × W64) → Try (List LaneTr)
  | [] => .ok []
  | x :: rest =>
    match s.translateLane c acc strict w x with
    | .error f => .error (.trap f.kind.trapCode x.1 x.2 (f.s27 acc))
    | .ok l =>
      match State.translateLanes s c acc strict w rest with
      | .error e => .error e
      | .ok ls => .ok (l :: ls)

/-- R197: the alignment that a device-class leaf or the aperture asks, checked after translation. -/
def State.checkDevice (s : State) (w : Nat) (ls : List LaneTr) : Try Unit :=
  match ls.find? fun l => l.bytes.any fun x =>
      (x.2 == 3 && l.va.toNat % w != 0) || (s.kindOf x.1 == .aperture && (l.va.toNat % w != 0 || (w != 4 && w != 8))) with
  | some l => .error (.trap tMisalign l.lane l.va 0)
  | none => .ok ()

/-- R160, R217: aperture-empty, then aperture-forbidden. -/
def State.checkAperture (s : State) (b : Band) (ls : List LaneTr) : Try Unit :=
  let ap := ls.filter fun l => l.bytes.any fun x => s.kindOf x.1 == .aperture
  match ap.find? fun l => l.bytes.any fun x => s.apEmpty x.1 with
  | some l => .error (.trap tApertureEmpty l.lane l.va 0)
  | none =>
    match ap with
    | l :: _ => if (match s.bandLaunch b with | some x => x.lr.migr | none => false) then .error (.trap tApertureForbidden l.lane l.va 0) else .ok ()
    | [] => .ok ()

/-! ## Atoms (R118) -/

/-- A byte joins the atom entry it falls in; an atom that leaves of different classes reach is one entry, of the class by which it was
first reached (R118, R199, R209; DESIGN CHOICE, log 33). -/
def addByte (pa cc : Nat) (x : Byte) : List AtomAcc → List AtomAcc
  | [] => [⟨pa / 32 * 32, cc, 1#32 <<< (pa % 32), x.setWidth 256 <<< (8 * (pa % 32)), false, false⟩]
  | a :: t =>
    if a.pa = pa / 32 * 32 then
      { a with mask := a.mask ||| (1#32 <<< (pa % 32)), data := mergeAtom a.data (x.setWidth 256 <<< (8 * (pa % 32))) (1#32 <<< (pa % 32)) } :: t
    else a :: addByte pa cc x t

/-- The atoms of the lanes' bytes in order, a later lane's byte replacing an earlier one's (R199). -/
def atomsOf (bs : List ((Nat × Nat) × Byte)) : List AtomAcc := bs.foldl (fun as x => addByte x.1.1 x.1.2 x.2 as) []

/-- Lanes through the aperture stand each for itself (R160): of two that store to one place, the higher lane's stands. -/
def State.atomsFor (s : State) (ls : List (LaneTr × Nat)) : List AtomAcc :=
  let isAp := fun (l : LaneTr) => l.bytes.any fun x => s.kindOf x.1 == .aperture
  let plain := ls.filter fun x => !isAp x.1
  let ap := ls.filter fun x => isAp x.1
  let bytes := fun (x : LaneTr × Nat) => x.1.bytes.zipIdx.map fun (p, i) => (p, byteOf x.2 i)
  let lone := ap.foldl (fun acc x =>
    let a := atomsOf (bytes x)
    (acc.filter fun y => !(a.any fun z => z.pa == y.pa && z.mask == y.mask)) ++ a) []
  atomsOf (plain.map bytes).flatten ++ lone

/-! ## What operations have still to access -/

/-- An access waits to be performed in a range of physical addresses. -/
def Access.waitsOn (x : Access) (lo hi : Nat) : Bool := x.atoms.any fun a => !a.done && decide (lo ≤ a.pa) && decide (a.pa < hi)

def Side.meets (lo hi : Nat) : Side → Bool
  | .mem ps => ps.any fun p => decide (p.1 < hi) && decide (lo < p.1 + p.2)
  | _ => false

def StampSpec.meets (lo hi : Nat) (x : StampSpec) : Bool := decide (x.pa < hi) && decide (lo < x.pa + 16)

/-- An operation has still to access a range of physical addresses that it has translated: a band's access, or a copy that has started, a
stamp, or the buffer of a storage command. -/
def OpKind.waitsOn (k : OpKind) (lo hi : Nat) : Bool :=
  match k with
  | .engine e stamp => stamp.any (StampSpec.meets lo hi) || match e with
    | .copy _ slices plan => (slices.any fun x => x.stamp.any (StampSpec.meets lo hi))
        || plan.any fun p => p.moves.any fun v => v.src.meets lo hi || v.dst.meets lo hi
    | .copym slice .. => slice.stamp.any (StampSpec.meets lo hi)
    | .storage _ _ _ _ _ pages _ _ _ => pages.any fun p => decide (p < hi) && decide (lo < p + 4096)
    | .stash .. => false
  | _ => k.access?.any fun x => x.waitsOn lo hi

/-! ## sc clocks (R124) -/

def clockOf (l : List (Nat × W64)) (k : Nat) : W64 := (lookupReg l k).getD 0
def clockSet (l : List (Nat × W64)) (k : Nat) (w : W64) : List (Nat × W64) := assocPut l k (if w = 0 then none else some w)

/-- An sc access issues: the core's clock advances and the access carries it. -/
def State.scIssue (s : State) (core : Nat) (cls : BitVec 3) : State × W64 :=
  if cls = 5 then
    let c := clockOf s.scClock core + 1
    ({ s with scClock := clockSet s.scClock core c }, c)
  else (s, 0)

/-- R124: a band issues no sc access until the response to its previous one has returned. -/
def State.scReady (s : State) (b : Band) (cls : BitVec 3) : Try Unit :=
  holdUnless (cls != 5 || s.ops.all fun o => !(o.band == b.uid && match o.kind.access? with | some x => x.cls == 5 && !x.answered | none => false))

/-! ## Loads (R198) -/

/-- R196: type and width in bytes of the element that D names. -/
def elemOf (b : Band) (d : Opnd) : Nat × Nat :=
  match d with
  | .a _ => (7, 8)
  | .m _ => (6, 4)
  | _ => (b.typ, typeBits b.typ / 8)

/-- R177: a vector operand of 64 bits names an even register. -/
def needEven (d : Opnd) (w : Nat) : Try Unit :=
  match d with
  | .v n => need (w != 8 || n.val % 2 == 0)
  | .o n => need (w != 8 || n.val % 2 == 0)
  | _ => .ok ()

/-- The destination of a load is taken at issue: names carry the operation's tag, other registers must have no load outstanding
(R145 to R147). The state's next operation is the load. -/
def State.loadDest (s : State) (b : Band) (d : Opnd) (pair : Bool) (lanes : W32) : Try (Dest × (State → State)) := do
  let u := s.nextUid
  match d with
  | .v n => do
    b.partialReady n.val lanes
    if pair then
      b.partialReady (n.val + 1) lanes
      s.alloc b 2 0
      return (.tagV true, fun t => (t.awaitV b n.val u 0).awaitV b (n.val + 1) u 1)
    else
      s.alloc b 1 0
      return (.tagV false, fun t => t.awaitV b n.val u 0)
  | .o n => do
    s.oReady b n.val
    if pair then s.oReady b (n.val + 1)
    return (.o n.val pair, id)
  | .s n => do
    s.alloc b 0 1
    return (.tagS, fun t => t.awaitS b n.val u 0)
  | .a n => do
    s.aReady b n.val
    return (.a n.val, id)
  | .m n => do
    s.mReady b n.val
    return (.m n.val, id)
  | _ => illegalOperand

/-- R67: the current version of a binding, or none. -/
def Tr.version? (t : Tr) : Option (Nat × Option W32) := t.bind.map fun b => (b.set, b.cur.map Prod.snd)

/-- R67, R204: the page of the lowest lane whose binding is not good enough: any binding without a version, and under LDPAR one
below the minimum. -/
def versionShort (min : Option W32) (ls : List LaneTr) : Option (Nat × W64 × Nat) :=
  ls.findSome? fun l => l.trs.findSome? fun t =>
    match t.version? with
    | some (set, none) => some (l.lane, l.va, set)
    | some (set, some v) => match min with
      | some m => if verAtLeast v m then none else some (l.lane, l.va, set)
      | none => none
    | none => none

/-- The minimum of an LDPAR and since when the word has tried to issue: as its first attempt left them (R67, R204). -/
def Band.versionMin (b : Band) (cycle : Nat) (m : MemRef) (par : Bool) : Try (Option W32 × Nat) :=
  match b.tried with
  | some x => .ok x
  | none => do
    if par then return (some ((← b.readS (56 + m.breg.toNat)).setWidth 32), cycle)
    else return (none, cycle)

def loadBody (d : Opnd) (m : MemRef) (par : Bool) (b : Band) (s : State) : Try Fin' := do
  let (typ, w) := elemOf b d
  let vector := isVectorOpnd d
  if vector then needEven d w
  let l ← s.lanesOf b
  b.indexReady m
  let m' := if par then { m with breg := 0 } else m
  let ea ← s.effective b m' (if vector then 32 * w else w)
  let ls := b.memLanes m' ea w vector l
  if ls.isEmpty then return .next (s.updateA b m' ea)
  let (min, since) ← b.versionMin s.cycle m par
  b.flagReady false
  s.scReady b b.cls
  if b.cls ≠ 0 then checkAlign w ls
  let c := s.bandCtx b
  s.walkFirst c .load w ls
  let ts ← s.translateLanes c .load false w ls
  s.checkDevice w ts
  s.checkLocks b .mem 0 false w ls
  s.checkAperture b ts
  match versionShort min ts with
  | some (lane, va, set) => .error (.wait (.version lane va set min since))
  | none => do
    let lanes := if vector then l else 1
    let (dest, await) ← s.loadDest b d (vector && w == 8) lanes
    let (t, k) := s.scIssue b.place.core b.cls
    let x : Access := ⟨ts.map fun l => ⟨l.lane, l.va, l.bytes.map Prod.fst⟩, s.atomsFor (ts.map fun l => (l, 0)), typ, w, b.cls, b.scope,
      dest, k, 0, false⟩
    return .next ((await (t.startOp b false (.load x))).updateA b m' ea)

def execLds (d : Opnd) (mem : MemRef) (s : State) : Host.Outcome State Fault Refusal :=
  .next (issue (.lds d mem) (loadBody d mem false) s)
def execLdv (d : Opnd) (mem : MemRef) (s : State) : Host.Outcome State Fault Refusal :=
  .next (issue (.ldv d mem) (loadBody d mem false) s)
def execLdpar (d : Opnd) (mem : MemRef) (s : State) : Host.Outcome State Fault Refusal :=
  .next (issue (.ldpar d mem) (loadBody d mem true) s)

/-! ## Stores (R199) -/

/-- The data of the scalar form: the register, or a constant in the source type. -/
def State.storeScalar (s : State) (b : Band) (typ : Nat) (d : Opnd) : Try Nat :=
  match d with
  | .s n => do return (← b.readS n.val).toNat
  | .a n => do return (← s.readA b n.val).toNat
  | .m n => do return (← s.readM b n.val).toNat
  | o => constBits typ o

/-- An acq_rel or sc store invalidates before any later access of the band (R73): as it issues, and again as it is performed. -/
def storeBody (d : Opnd) (m : MemRef) (vector : Bool) (b : Band) (s : State) : Try Fin' := do
  let (typ, w) := elemOf b d
  let data : Nat → Nat ← if vector then s.lanesSrc b typ d else do
    let x ← s.storeScalar b typ d
    pure fun _ => x
  let l ← s.lanesOf b
  b.indexReady m
  let ea ← s.effective b m (if vector then 32 * w else w)
  let ls := b.memLanes m ea w vector l
  if ls.isEmpty then return .next (s.updateA b m ea)
  b.flagReady false
  s.scReady b b.cls
  if b.cls ≠ 0 then checkAlign w ls
  let c := s.bandCtx b
  s.walkFirst c .store w ls
  let ts ← s.translateLanes c .store false w ls
  s.checkDevice w ts
  s.checkLocks b .mem 0 true w ls
  s.checkAperture b ts
  let (t, k) := s.scIssue b.place.core b.cls
  let x : Access := ⟨ts.map fun l => ⟨l.lane, l.va, l.bytes.map Prod.fst⟩, s.atomsFor (ts.map fun l => (l, data l.lane)), typ, w, b.cls,
    b.scope, .none, k, 0, false⟩
  let t := if (b.cls == 4 || b.cls == 5) && decide (2 ≤ b.scope.toNat) then t.invalidateL1 b.place.core else t
  return .next ((t.startOp b false (.store x)).updateA b m ea)

def execSts (d : Opnd) (mem : MemRef) (s : State) : Host.Outcome State Fault Refusal :=
  .next (issue (.sts d mem) (storeBody d mem false) s)
def execStv (d : Opnd) (mem : MemRef) (s : State) : Host.Outcome State Fault Refusal :=
  .next (issue (.stv d mem) (storeBody d mem true) s)

/-! ## Prefetch (R205) -/

/-- A lane of PREF: its line, unless translation, a lock or what lies there drops it. -/
def State.prefLane (b : Band) (s : State) (x : Nat × W64) : State :=
  match s.translate (s.bandCtx b) .load x.2 with
  | .error _ => s
  | .ok t =>
    let pa := s.viewOf b.launch (s.runOf b.wg) t.pa
    if s.kindOf pa == .ram && cachedClass t.cc && !s.locked b .mem 0 false (x.2.toNat / 128 * 128) 128
        && !(match t.bind with | some v => v.cur.isNone | none => false)
    then s.fillLine b.place.core pa else s

def prefBody (m : MemRef) (b : Band) (s : State) : Try Fin' := do
  let l ← s.lanesOf b
  b.indexReady m
  let ea ← s.effective b m 128
  let ls := b.memLanes m ea 128 (m.amode == .lanes) l
  return .next ((ls.foldl (State.prefLane b) s).updateA b m ea)

def execPref (mem : MemRef) (s : State) : Host.Outcome State Fault Refusal := .next (issue (.pref mem) (prefBody mem) s)

end Sys2Proof.Machine
end

