-- ==== Sys2Proof/Machine/Atomics.lean ====
section
/-! DEFINITION. Atomics as they issue (R206, R207); ATOMIC_PERFORMED of Machine/Perform performs them. -/

namespace Sys2Proof.Machine

/-- R206: types that each atomic accepts. -/
def AtomKind.accepts (k : AtomKind) (typ : Nat) : Bool :=
  match k with
  | .fadd | .fmax | .fmin => typ == 10 || typ == 11
  | .xchg | .cas => typ == 2 || typ == 6 || typ == 10 || typ == 3 || typ == 7 || typ == 11
  | _ => typ == 2 || typ == 6 || typ == 3 || typ == 7

/-- Elements of lane i in registers n (and n + 1 for 64 bits). -/
def laneElem (w : Nat) (lo hi : VReg) (i : Nat) : W64 :=
  if w = 8 then BitVec.ofNat 64 ((lo.lane i).toNat + 2 ^ 32 * (hi.lane i).toNat) else (lo.lane i).setWidth 64

/-- R206, R207: source and compare value of each lane. -/
def State.atomSrc (s : State) (b : Band) (k : AtomKind) (typ w : Nat) (d : Opnd) : Try (Nat → W64 × W64) :=
  match k, d with
  | .cas, .s n => do
    need (n.val % 2 == 0)
    let c ← b.readS n.val
    let x ← b.readS (n.val + 1)
    return fun _ => (x, c)
  | .cas, .v n => do
    need (n.val % (if w = 8 then 4 else 2) == 0)
    let c0 ← b.readV n.val
    let c1 ← b.readV (n.val + 1)
    if w = 8 then
      let x0 ← b.readV (n.val + 2)
      let x1 ← b.readV (n.val + 3)
      return fun i => (laneElem 8 x0 x1 i, laneElem 8 c0 c1 i)
    else return fun i => (laneElem 4 c1 c1 i, laneElem 4 c0 c0 i)
  | .cas, _ => illegalOperand
  | .inc, .s n => do
    let x ← b.readS n.val
    return fun _ => (x, 0)
  | _, .s n => do
    let x ← b.readS n.val
    return fun _ => (x, 0)
  | _, d => do
    let f ← s.lanesSrc b typ d
    return fun i => (BitVec.ofNat 64 (f i), 0)

/-- R195: an atomic's form follows D, or AMODE where D names no register. -/
def atomVector (d : Opnd) (m : MemRef) : Bool :=
  match d with
  | .v _ => true
  | .s _ => false
  | _ => m.amode == .lanes

/-- Where the old value goes: back into the register that D names. -/
def State.atomDest (s : State) (b : Band) (d : Opnd) (w : Nat) (lanes : W32) : Try (Dest × (State → State)) :=
  match d with
  | .v _ => s.loadDest b d (w == 8) lanes
  | .s _ => s.loadDest b d false lanes
  | _ => .ok (.none, id)

/-- R195: with no lane enabled the type (R217) is not checked: only the address register is updated. -/
def atomicBody (k : AtomKind) (d : Opnd) (m : MemRef) (b : Band) (s : State) : Try Fin' := do
  let typ := b.typ
  let w := typeBits typ / 8
  let vector := atomVector d m
  if vector then needEven d w
  let l ← s.lanesOf b
  need (l == 0 || k.accepts typ)
  let src ← s.atomSrc b k typ w d
  b.indexReady m
  let ea ← s.effective b m (if vector then 32 * w else w)
  let ls := b.memLanes m ea w vector l
  if ls.isEmpty then return .next (s.updateA b m ea)
  b.flagReady false
  s.scReady b b.cls
  checkAlign w ls
  let c := s.bandCtx b
  s.walkFirst c .atomic w ls
  let ts ← s.translateLanes c .atomic true w ls
  s.checkLocks b .mem 0 true w ls
  let (dest, await) ← s.atomDest b d w (if vector then l else 1)
  let (t, clk) := s.scIssue b.place.core b.cls
  let x : Access := ⟨ts.map fun l => ⟨l.lane, l.va, l.bytes.map Prod.fst⟩, s.atomsFor (ts.map fun l => (l, 0)), typ, w, b.cls, b.scope,
    dest, clk, 0, false⟩
  let lanes := ts.map fun l => AtomLane.mk l.lane ((l.bytes.map Prod.fst).headD 0) (src l.lane).1 (src l.lane).2 0
  return .next ((await (t.startOp b false (.atomic k x lanes b.sat 0))).updateA b m ea)

def execAtadd (d : Opnd) (mem : MemRef) (s : State) : Host.Outcome State Fault Refusal :=
  .next (issue (.atadd d mem) (atomicBody .add d mem) s)
def execAtmin (d : Opnd) (mem : MemRef) (s : State) : Host.Outcome State Fault Refusal :=
  .next (issue (.atmin d mem) (atomicBody .min d mem) s)
def execAtmax (d : Opnd) (mem : MemRef) (s : State) : Host.Outcome State Fault Refusal :=
  .next (issue (.atmax d mem) (atomicBody .max d mem) s)
def execAtand (d : Opnd) (mem : MemRef) (s : State) : Host.Outcome State Fault Refusal :=
  .next (issue (.atand d mem) (atomicBody .and d mem) s)
def execAtor (d : Opnd) (mem : MemRef) (s : State) : Host.Outcome State Fault Refusal :=
  .next (issue (.ator d mem) (atomicBody .or d mem) s)
def execAtxor (d : Opnd) (mem : MemRef) (s : State) : Host.Outcome State Fault Refusal :=
  .next (issue (.atxor d mem) (atomicBody .xor d mem) s)
def execAtxchg (d : Opnd) (mem : MemRef) (s : State) : Host.Outcome State Fault Refusal :=
  .next (issue (.atxchg d mem) (atomicBody .xchg d mem) s)
def execAtcas (d : Opnd) (mem : MemRef) (s : State) : Host.Outcome State Fault Refusal :=
  .next (issue (.atcas d mem) (atomicBody .cas d mem) s)
def execAtinc (d : Opnd) (mem : MemRef) (s : State) : Host.Outcome State Fault Refusal :=
  .next (issue (.atinc d mem) (atomicBody .inc d mem) s)
def execAtfadd (d : Opnd) (mem : MemRef) (s : State) : Host.Outcome State Fault Refusal :=
  .next (issue (.atfadd d mem) (atomicBody .fadd d mem) s)
def execAtfmax (d : Opnd) (mem : MemRef) (s : State) : Host.Outcome State Fault Refusal :=
  .next (issue (.atfmax d mem) (atomicBody .fmax d mem) s)
def execAtfmin (d : Opnd) (mem : MemRef) (s : State) : Host.Outcome State Fault Refusal :=
  .next (issue (.atfmin d mem) (atomicBody .fmin d mem) s)

end Sys2Proof.Machine
end

