-- ==== Sys2Proof/Machine/Control.lean ====
section
/-! DEFINITION. Branches, loops, calls, traps by word, returns from a handler (R299 to R309, R374). -/

namespace Sys2Proof.Machine

/-- R176: the target of a word offset. -/
def Band.target (b : Band) (off : W64) : W64 := va57 (b.pc + 4 * (1 + off))

/-- R299: a branch goes to its target when taken, else to the header after its clause. -/
def branch (i : Instr) (taken : Band → State → Try Bool) (off : W64) : State → State :=
  issue i fun b s => do
    if ← taken b s then
      s.checkTarget b (b.target off)
      return .jump s (b.target off) none
    else return .next s

/-- An s or a register that a branch tests. -/
def State.testReg (s : State) (b : Band) (p : Opnd) : Try W64 :=
  match p with
  | .s n => b.readS n.val
  | .a n => s.readA b n.val
  | _ => illegalOperand

def State.testMask (s : State) (b : Band) (p : Opnd) : Try W32 :=
  match p with
  | .m n => s.readM b n.val
  | _ => illegalOperand

def execNop (s : State) : Host.Outcome State Fault Refusal := .next (issue .nop (fun _ s => .ok (.next s)) s)

def execBr (off : BitVec 24) (s : State) : Host.Outcome State Fault Refusal :=
  .next (branch (.br off) (fun _ _ => .ok true) (off.signExtend 64) s)

def execBrz (p : Opnd) (off : BitVec 16) (s : State) : Host.Outcome State Fault Refusal :=
  .next (branch (.brz p off) (fun b s => do return (← s.testReg b p) == 0) (off.signExtend 64) s)

def execBrnz (p : Opnd) (off : BitVec 16) (s : State) : Host.Outcome State Fault Refusal :=
  .next (branch (.brnz p off) (fun b s => do return (← s.testReg b p) != 0) (off.signExtend 64) s)

def execBzm (p : Opnd) (off : BitVec 16) (s : State) : Host.Outcome State Fault Refusal :=
  .next (branch (.bzm p off) (fun b s => do return (← s.testMask b p) == 0) (off.signExtend 64) s)

def execBnzm (p : Opnd) (off : BitVec 16) (s : State) : Host.Outcome State Fault Refusal :=
  .next (branch (.bnzm p off) (fun b s => do return (← s.testMask b p) != 0) (off.signExtend 64) s)

def execBallm (p : Opnd) (off : BitVec 16) (s : State) : Host.Outcome State Fault Refusal :=
  .next (branch (.ballm p off) (fun b s => do return (← s.testMask b p) == 0xFFFFFFFF#32) (off.signExtend 64) s)

/-- R300: the counter falls by one and the loop is taken unless it is then zero. -/
def loopBody (p : Opnd) (off : W64) (b : Band) (s : State) : Try Fin' := do
  match p with
  | .s n => do
    let x := (← b.readS n.val) - 1
    if x == 0 then return .next (← s.writeS b n.val x)
    else
      s.checkTarget b (b.target off)
      return .jump (← s.writeS b n.val x) (b.target off) none
  | _ => illegalOperand

def execLoop (p : Opnd) (off : BitVec 16) (s : State) : Host.Outcome State Fault Refusal :=
  .next (issue (.loop p off) (loopBody p (off.signExtend 64)) s)

/-! ## Windows -/

def State.spillSize (s : State) (b : Band) : Nat := match s.launch? b.launch with | some l => l.lr.spillsz | none => 0

/-- R157: the window-fault trap of a recorded fault. -/
def Band.windowFault (b : Band) : Try Unit :=
  match b.winFault with
  | some f => .error (.trap tWinFault 0 f.va (BitVec.ofNat 64 (f.depth % 4096 + f.kind * 4096)))
  | none => .ok ()

/-- R151: the last slot of the spill area stays free. -/
def State.windowRoom (s : State) (b : Band) : Try Unit :=
  if s.spillSize b < (b.depth + 2) * 8192 then
    .error (.trap tWinOverflow 0 (BitVec.ofNat 64 b.depth) (BitVec.ofNat 64 (s.spillSize b)))
  else .ok ()

/-- R301, R302: the checks in order, the slide, and the jump; a transfer that is tried again comes first (R157). -/
def callBody (n : Nat) (target : Band → State → Try W64) (check : State → Band → W64 → Try Unit) (b : Band) (s : State) :
    Try Fin' := do
  let t ← target b s
  b.windowFault
  holdUnless b.retrying.isNone
  s.windowRoom b
  check s b t
  return .jump (s.modBand b.uid fun c => c.slide n b.clauseEnd) t none

def execCall (n : BitVec 8) (off : BitVec 16) (s : State) : Host.Outcome State Fault Refusal :=
  .next (issue (.call n off) (callBody n.toNat (fun b _ => .ok (b.target (off.signExtend 64))) State.checkTarget) s)

def execCalli (n : BitVec 8) (t : Opnd) (s : State) : Host.Outcome State Fault Refusal :=
  .next (issue (.calli n t) (callBody n.toNat (fun b s => s.testReg b t) State.checkRegTarget) s)

def execJmpi (t : Opnd) (s : State) : Host.Outcome State Fault Refusal :=
  .next (issue (.jmpi t) (fun b s => do
    let x ← s.testReg b t
    s.checkRegTarget b x
    return .jump s x none) s)

/-- Frame d of a band, from 1. -/
def Band.frame? (b : Band) (d : Nat) : Option Frame := if d = 0 ∨ b.depth < d then none else b.frames[b.depth - d]?

def Band.setFrame (b : Band) (d : Nat) (f : Frame) : Band := { b with frames := b.frames.set (b.depth - d) f }

/-- R155: a spilled frame that becomes the newest is refilled at once. -/
def Band.refillNewest (b : Band) : Band :=
  match b.frames with
  | f :: rest => if f.loc == .spilled && b.winFault.isNone then { b with frames := { f with loc := .refilling } :: rest } else b
  | [] => b

/-- R157: the Tailrace starts again, the transfer that faulted first. -/
def Band.restartTailrace (b : Band) : Band :=
  match b.winFault with
  | none => b.refillNewest
  | some x =>
    let c : Band := { b with winFault := none }
    (match c.frame? x.depth with
      | some (f : Frame) =>
        if f.loc == FrameAt.spilled then { c.setFrame x.depth { f with loc := .refilling } with retrying := some x.depth }
        else if f.loc == FrameAt.resident && decide (x.depth < c.depth) then
          { c.setFrame x.depth { f with loc := .spilling } with retrying := some x.depth }
        else c
      | none => c).refillNewest

/-- R303, R152. -/
def retBody (b : Band) (s : State) : Try Fin' := do
  match b.frames with
  | [] => illegalState
  | f :: _ => do
    b.windowFault
    holdUnless (f.loc == .resident && b.retrying.isNone)
    s.checkRegTarget b f.retpc
    return .jump (s.modBand b.uid fun c => c.unslide.refillNewest) f.retpc none

def execRet (s : State) : Host.Outcome State Fault Refusal := .next (issue .ret retBody s)

/-! ## Yielding and trapping -/

def execYield (s : State) : Host.Outcome State Fault Refusal := .next (issue .yield (fun _ s => .ok (.next s)) s)

/-- R305, R99: the band leaves the ready set until its most recent copy has ended. -/
def yieldcBody (off : W64) (b : Band) (s : State) : Try Fin' := do
  let t := b.target off
  match b.lastCopy with
  | some u =>
    if (s.op? u).isSome then return .leave s t (.yieldc u t b.pc b.hdr none)
    else
      s.checkTarget b t
      return .jump s t none
  | none =>
    s.checkTarget b t
    return .jump s t none

def execYieldc (off : BitVec 24) (s : State) : Host.Outcome State Fault Refusal :=
  .next (issue (.yieldc off) (yieldcBody (off.signExtend 64)) s)

def execTrap (imm : BitVec 16) (s : State) : Host.Outcome State Fault Refusal :=
  .next (issue (.trap imm) (fun _ _ => .error (.trap tSoftware 0 (imm.setWidth 64) 0)) s)

/-- R309: the band stops before its next header and stays resident. -/
def execHalt (s : State) : Host.Outcome State Fault Refusal :=
  .next (issue .halt (fun b s => .ok (.next (s.modBand b.uid fun c => { c with halted := true }))) s)

/-! ## Return from a trap (R308, R374) -/

/-- Positions of the instruction words of a clause, from 1: literal words are passed over. -/
def instrPositions : Nat → Nat → List W32 → List Nat
  | 0, _, _ => []
  | _, _, [] => []
  | fuel + 1, k, w :: rest =>
    match decode (w :: rest) with
    | .ok (_, r) => k :: instrPositions fuel (k + 1 + (rest.length - r.length)) r
    | .error _ => k :: instrPositions fuel (k + 1) rest

/-- Whether an address is that of an instruction word of a clause. -/
def Clause.isInstrWord (c : Clause) (hdr pc : W64) : Bool :=
  let d := (va57 (pc - hdr)).toNat
  decide (pc.toNat < 2 ^ 57) && decide (d % 4 = 0) && (instrPositions 16 1 c.words).contains (d / 4)

/-- What RFT finds of the clause it returns into (R374). One that cannot be fetched, or is damaged, is fetched again once the band stands at
it, outside its handler, and its fetch trap or consumption comes about there (R174; DEDUCED, log 32). -/
inductive Refetched where
  | clause (c : Clause)
  | unread
  | notHeader
  deriving DecidableEq, Repr

def State.refetch (s : State) (b : Band) (hdr : W64) : Refetched :=
  match s.fetchAt b hdr with
  | .clause c => .clause c
  | .notHeader => .notHeader
  | _ => .unread

/-- The band returns to an instruction word of the clause, as far as that can be told. -/
def Refetched.hasWord (r : Refetched) (hdr pc : W64) : Bool :=
  match r with
  | .clause c => c.isInstrWord hdr pc
  | .unread => true
  | .notHeader => false

/-- An address lies within the clause, as far as that can be told. -/
def Refetched.holds (r : Refetched) (hdr a : W64) : Bool :=
  match r with
  | .clause c => c.holds hdr a
  | .unread => true
  | .notHeader => false

def rftBody (skip : Bool) (b : Band) (s : State) : Try Fin' := do
  if !b.inHandler then illegalState
  let s24 ← b.readS 24
  let s25 ← b.readS 25
  let s28 ← b.readS 28
  let s29 ← b.readS 29
  let s30 ← b.readS 30
  let s31 ← b.readS 31
  let lat ← b.readV 63
  s.mReady b 0
  let atHdr := s24.getLsbD 14
  if modeRefused (s31.setWidth 32) then illegalState
  let clause := s.refetch b s28
  if (if atHdr then s25 != s28 else !clause.hasWord s28 s25) then .error (.trap tIllegalTarget 0 s25 0)
  if skip && atHdr then illegalState
  let within := !atHdr && (!skip || clause.holds s28 s29)
  let target := if skip && !within then s29 else s28
  if target.toNat % 4 ≠ 0 ∨ 2 ^ 57 ≤ target.toNat then .error (.trap tIllegalTarget 0 target 0)
  match b.frames with
  | [] => illegalState
  | f :: _ => do
    holdUnless (f.loc == .resident)
    let lp := match s.launch? b.launch with | some l => l.lr.priv | none => false
    let t := s.modBand b.uid fun c =>
      let c := { c with mode := s31.setWidth 32 &&& ~~~ 0xE000#32, m := c.m.setIfInBounds 0 (s30.setWidth 32) }
      let c := if skip then { c with latValid := false } else { c with lat := lat, latValid := s24.getLsbD 13 }
      let c := { c.unslide with inHandler := false, privileged := lp }
      if !skip && s24.extractLsb' 0 8 == 0x21 then c.restartTailrace else c.refillNewest
    return .jump t target (if within then some (if skip then s29 else s25) else none)

def execRft (skip : BitVec 1) (s : State) : Host.Outcome State Fault Refusal :=
  .next (issue (.rft skip) (rftBody (skip == 1)) s)

end Sys2Proof.Machine
end

