-- ==== Sys2Proof/Machine/Masks.lean ====
section
/-! DEFINITION. MODE, masks, status and specials (R293 to R298). -/

namespace Sys2Proof.Machine

/-- R182: MODE is written unless the value is refused. -/
def setModeBody (new : W32 → W32) (b : Band) (s : State) : Try Fin' := do
  let x := new b.mode
  need (!modeRefused x)
  return .next (s.modBand b.uid fun c => { c with mode := x })

def execSetmode (imm : BitVec 16) (s : State) : Host.Outcome State Fault Refusal :=
  .next (issue (.setmode imm) (setModeBody fun m => (m &&& 0xFFFF0000) ||| ((imm &&& 0x1FFF).setWidth 32)) s)

def execSetmm (imm : BitVec 16) (s : State) : Host.Outcome State Fault Refusal :=
  .next (issue (.setmm imm) (setModeBody fun m => (m &&& 0xFFFF) ||| (imm.setWidth 32 <<< 16)) s)

def execGetmode (d : Opnd) (s : State) : Host.Outcome State Fault Refusal :=
  .next (issue (.getmode d) (fun b s => do return .next (← s.scalarDst b d (b.mode.setWidth 64))) s)

/-- R293: a mask from two mask sources. -/
def maskOp (i : Instr) (d a b : Opnd) (f : W32 → W32 → W32) : State → State :=
  issue i fun bd s => do return .next (← s.maskDst bd d (f (← s.maskSrc bd a) (← s.maskSrc bd b)))

def execMand (d a b : Opnd) (s : State) : Host.Outcome State Fault Refusal :=
  .next (maskOp (.mand d a b) d a b (fun x y => x &&& y) s)
def execMor (d a b : Opnd) (s : State) : Host.Outcome State Fault Refusal :=
  .next (maskOp (.mor d a b) d a b (fun x y => x ||| y) s)
def execMxor (d a b : Opnd) (s : State) : Host.Outcome State Fault Refusal :=
  .next (maskOp (.mxor d a b) d a b (fun x y => x ^^^ y) s)
def execMandn (d a b : Opnd) (s : State) : Host.Outcome State Fault Refusal :=
  .next (maskOp (.mandn d a b) d a b (fun x y => x &&& ~~~ y) s)
def execMnot (d a : Opnd) (s : State) : Host.Outcome State Fault Refusal :=
  .next (maskOp (.mnot d a) d a .zero (fun x _ => ~~~ x) s)

/-- R294. -/
def execMmov (d a : Opnd) (s : State) : Host.Outcome State Fault Refusal :=
  .next (issue (.mmov d a) (fun b s => do
    let x ← s.maskSrc b a
    match d with
    | .m _ => return .next (← s.maskDst b d x)
    | _ => return .next (← s.scalarDst b d (x.setWidth 64))) s)

/-- Set bits of the low n positions of a word. -/
def popCount (n x : Nat) : Nat := ((List.range n).filter fun i => x.testBit i).length

/-- Index of the lowest set bit among n, n if there is none. -/
def lowestBit (n x : Nat) : Nat := ((List.range n).find? fun i => x.testBit i).getD n

/-- Leading zeros within n bits. -/
def leadingZeros (n x : Nat) : Nat := ((List.range n).find? fun i => x.testBit (n - 1 - i)).getD n

def maskCount (i : Instr) (d a : Opnd) (f : W32 → Nat) : State → State :=
  issue i fun b s => do return .next (← s.scalarDst b d (BitVec.ofNat 64 (f (← s.maskSrc b a))))

def execMpopc (d a : Opnd) (s : State) : Host.Outcome State Fault Refusal :=
  .next (maskCount (.mpopc d a) d a (fun x => popCount 32 x.toNat) s)
def execMffs (d a : Opnd) (s : State) : Host.Outcome State Fault Refusal :=
  .next (maskCount (.mffs d a) d a (fun x => lowestBit 32 x.toNat) s)

def execMseti (d : Opnd) (imm : W32) (s : State) : Host.Outcome State Fault Refusal :=
  .next (issue (.mseti d imm) (fun b s => do return .next (← s.maskDst b d imm)) s)

def execMlane (d a : Opnd) (s : State) : Host.Outcome State Fault Refusal :=
  .next (issue (.mlane d a) (fun b s => do
    let x ← s.scalarSrc b false a
    return .next (← s.maskDst b d (if x.toNat < 32 then 1#32 <<< x.toNat else 0))) s)

/-- R297: earlier arithmetic-class operations of the band have completed (a STASH sets its bits when it issues). -/
def State.arithDone (s : State) (b : Band) : Bool :=
  s.ops.all fun o => !(o.band == b.uid && match o.kind with | .arith _ _ _ => true | _ => false)

def execFpsget (d : Opnd) (s : State) : Host.Outcome State Fault Refusal :=
  .next (issue (.fpsget d) (fun b s => do
    holdUnless (s.arithDone b)
    return .next (← s.scalarDst b d (b.fps.setWidth 64))) s)

def execFpsclr (a : Opnd) (imm : BitVec 6) (s : State) : Host.Outcome State Fault Refusal :=
  .next (issue (.fpsclr a imm) (fun b s => do
    holdUnless (s.arithDone b)
    let x ← match a with
      | .s n => b.readS n.val
      | _ => pure 0
    let clr := imm ||| x.setWidth 6
    return .next (s.modBand b.uid fun c => { c with fps := b.fps &&& ~~~ (clr.setWidth 32) })) s)

/-- R140: the specials by code. -/
def State.special (s : State) (b : Band) (code : Nat) : W64 :=
  match code with
  | 0x00 => BitVec.ofNat 64 b.itemidx
  | 0x01 => b.xidx.setWidth 64
  | 0x02 => BitVec.ofNat 64 b.fdepth
  | 0x03 => b.srseq
  | 0x04 => BitVec.ofNat 64 (placeBits b.place)
  | 0x05 => BitVec.ofNat 64 s.devid
  | 0x06 => BitVec.ofNat 64 b.rank
  | 0x07 => (s.lidOf b.launch).setWidth 64
  | 0x08 => BitVec.ofNat 64 s.cycle
  | 0x09 => BitVec.ofNat 64 b.footprint
  | 0x0A => match s.launch? b.launch with | some l => if l.lr.wrld then 1 else 0 | none => 0
  | k => if 0x10 ≤ k ∧ k < 0x18 then BitVec.ofNat 64 (b.lvls.getD (k - 0x10) 0) else 0

def execSget (d : Opnd) (imm : BitVec 8) (s : State) : Host.Outcome State Fault Refusal :=
  .next (issue (.sget d imm) (fun b s => do return .next (← s.scalarDst b d (s.special b imm.toNat))) s)

end Sys2Proof.Machine
end

