-- ==== Sys2Proof/Machine/Scalar.lean ====
section
/-! DEFINITION. Scalar integer, address and buffer instructions (R288 to R292). -/

namespace Sys2Proof.Machine

/-- R288: two scalar sources of one type, a result written to an s register when some lane is enabled (R286). -/
def scalarOp (i : Instr) (signed : Bool) (d a b : Opnd) (f : Band → W64 → W64 → W64) : State → State :=
  issue i fun bd s => do
    let x ← s.scalarSrc bd signed a
    let y ← s.scalarSrc bd signed b
    whenEnabled s bd (s.scalarDst bd d (f bd x y))

def scalarOp1 (i : Instr) (signed : Bool) (d a : Opnd) (f : Band → W64 → W64) : State → State :=
  issue i fun bd s => do
    let x ← s.scalarSrc bd signed a
    whenEnabled s bd (s.scalarDst bd d (f bd x))

/-- R26 on 64-bit signed integers. -/
def narrow64 (b : Band) (x : Int) : W64 := BitVec.ofNat 64 (wrapInt b.sat true 64 x)

def execSadd (d a b : Opnd) (s : State) : Host.Outcome State Fault Refusal :=
  .next (scalarOp (.sadd d a b) true d a b (fun bd x y => narrow64 bd (x.toInt + y.toInt)) s)
def execSsub (d a b : Opnd) (s : State) : Host.Outcome State Fault Refusal :=
  .next (scalarOp (.ssub d a b) true d a b (fun bd x y => narrow64 bd (x.toInt - y.toInt)) s)
def execSmul (d a b : Opnd) (s : State) : Host.Outcome State Fault Refusal :=
  .next (scalarOp (.smul d a b) true d a b (fun bd x y => narrow64 bd (x.toInt * y.toInt)) s)
def execSmulh (d a b : Opnd) (s : State) : Host.Outcome State Fault Refusal :=
  .next (scalarOp (.smulh d a b) true d a b (fun _ x y => BitVec.ofInt 64 (x.toInt * y.toInt / (2 ^ 64 : Nat))) s)
def execSmulhn (d a b : Opnd) (s : State) : Host.Outcome State Fault Refusal :=
  .next (scalarOp (.smulhn d a b) false d a b (fun _ x y => BitVec.ofNat 64 (x.toNat * y.toNat / 2 ^ 64)) s)
def execSand (d a b : Opnd) (s : State) : Host.Outcome State Fault Refusal :=
  .next (scalarOp (.sand d a b) false d a b (fun _ x y => x &&& y) s)
def execSor (d a b : Opnd) (s : State) : Host.Outcome State Fault Refusal :=
  .next (scalarOp (.sor d a b) false d a b (fun _ x y => x ||| y) s)
def execSxor (d a b : Opnd) (s : State) : Host.Outcome State Fault Refusal :=
  .next (scalarOp (.sxor d a b) false d a b (fun _ x y => x ^^^ y) s)
def execSshl (d a b : Opnd) (s : State) : Host.Outcome State Fault Refusal :=
  .next (scalarOp (.sshl d a b) false d a b (fun _ x y => if y.toNat < 64 then x <<< y.toNat else 0) s)
def execSshr (d a b : Opnd) (s : State) : Host.Outcome State Fault Refusal :=
  .next (scalarOp (.sshr d a b) false d a b (fun _ x y => if y.toNat < 64 then x >>> y.toNat else 0) s)
def execSsar (d a b : Opnd) (s : State) : Host.Outcome State Fault Refusal :=
  .next (scalarOp (.ssar d a b) true d a b (fun _ x y => x.sshiftRight (min y.toNat 63)) s)
def execSmin (d a b : Opnd) (s : State) : Host.Outcome State Fault Refusal :=
  .next (scalarOp (.smin d a b) true d a b (fun _ x y => if y.slt x then y else x) s)
def execSmax (d a b : Opnd) (s : State) : Host.Outcome State Fault Refusal :=
  .next (scalarOp (.smax d a b) true d a b (fun _ x y => if x.slt y then y else x) s)
def execSminn (d a b : Opnd) (s : State) : Host.Outcome State Fault Refusal :=
  .next (scalarOp (.sminn d a b) false d a b (fun _ x y => if y.ult x then y else x) s)
def execSmaxn (d a b : Opnd) (s : State) : Host.Outcome State Fault Refusal :=
  .next (scalarOp (.smaxn d a b) false d a b (fun _ x y => if x.ult y then y else x) s)
def execSmov (d a : Opnd) (s : State) : Host.Outcome State Fault Refusal :=
  .next (scalarOp1 (.smov d a) false d a (fun _ x => x) s)
def execScmpeq (d a b : Opnd) (s : State) : Host.Outcome State Fault Refusal :=
  .next (scalarOp (.scmpeq d a b) false d a b (fun _ x y => if x == y then 1 else 0) s)
def execScmplt (d a b : Opnd) (s : State) : Host.Outcome State Fault Refusal :=
  .next (scalarOp (.scmplt d a b) true d a b (fun _ x y => if x.slt y then 1 else 0) s)
def execScmpltn (d a b : Opnd) (s : State) : Host.Outcome State Fault Refusal :=
  .next (scalarOp (.scmpltn d a b) false d a b (fun _ x y => if x.ult y then 1 else 0) s)
def execSpopc (d a : Opnd) (s : State) : Host.Outcome State Fault Refusal :=
  .next (scalarOp1 (.spopc d a) false d a (fun _ x => BitVec.ofNat 64 (popCount 64 x.toNat)) s)
def execSclz (d a : Opnd) (s : State) : Host.Outcome State Fault Refusal :=
  .next (scalarOp1 (.sclz d a) false d a (fun _ x => BitVec.ofNat 64 (leadingZeros 64 x.toNat)) s)

/-- R289: the quotient towards zero. -/
def sdivOf (sat : Bool) (x y : W64) : W64 :=
  if y = 0 then ~~~ 0#64 else BitVec.ofNat 64 (wrapInt sat true 64 (x.toInt.tdiv y.toInt))
def sdivnOf (x y : W64) : W64 := if y = 0 then ~~~ 0#64 else x / y
def smodOf (x y : W64) : W64 := if y = 0 then x else BitVec.ofInt 64 (x.toInt.tmod y.toInt)

/-- An arithmetic-class result for an s register (R170): it is written by ARITH_RESULT_WRITTEN. -/
def State.arithS (s : State) (b : Band) (n : Nat) (x : W64) (fps : BitVec 6) : Try State := do
  b.flagReady true
  s.alloc b 0 1
  return (s.startOp b true (.arith .tagS (.scalar x) fps)).awaitS b n s.nextUid 0

/-- An arithmetic-class result for a v or o register. -/
def State.arithV (s : State) (b : Band) (d : Opnd) (x : VReg) (lanes : W32) (fps : BitVec 6) : Try State := do
  b.flagReady true
  if lanes = 0 then return s.startOp b true (.arith .none (.vec x VReg.zero lanes) fps)
  match d with
  | .v n => do
    b.partialReady n.val lanes
    s.alloc b 1 0
    return (s.startOp b true (.arith (.tagV false) (.vec x VReg.zero lanes) fps)).awaitV b n.val s.nextUid 0
  | .o n => do
    s.oReady b n.val
    return s.startOp b true (.arith (.o n.val false) (.vec x VReg.zero lanes) fps)
  | _ => illegalOperand

/-- The same for a pair. -/
def State.arithPair (s : State) (b : Band) (d : Opnd) (lo hi : VReg) (lanes : W32) (fps : BitVec 6) : Try State := do
  b.flagReady true
  match d with
  | .v n => do
    need (n.val % 2 == 0)
    if lanes = 0 then return s.startOp b true (.arith .none (.vec lo hi lanes) fps)
    b.partialReady n.val lanes
    b.partialReady (n.val + 1) lanes
    s.alloc b 2 0
    return ((s.startOp b true (.arith (.tagV true) (.vec lo hi lanes) fps)).awaitV b n.val s.nextUid 0).awaitV b (n.val + 1) s.nextUid 1
  | .o n => do
    need (n.val % 2 == 0)
    if lanes = 0 then return s.startOp b true (.arith .none (.vec lo hi lanes) fps)
    s.oReady b n.val
    s.oReady b (n.val + 1)
    return s.startOp b true (.arith (.o n.val true) (.vec lo hi lanes) fps)
  | _ => illegalOperand

/-- Elements of a type written by an arithmetic-class operation. -/
def State.arithElems (s : State) (b : Band) (typ : Nat) (d : Opnd) (f : Nat → Nat) (lanes : W32) (fps : BitVec 6) : Try State :=
  if typeBits typ = 64 then
    s.arithPair b d (VReg.ofFn fun i => BitVec.ofNat 32 (f i)) (VReg.ofFn fun i => BitVec.ofNat 32 (f i / 2 ^ 32)) lanes fps
  else s.arithV b d (VReg.ofFn fun i => laneImage typ (f i)) lanes fps

def divOp (i : Instr) (signed : Bool) (d a b : Opnd) (f : Band → W64 → W64 → W64) : State → State :=
  issue i fun bd s => do
    let x ← s.scalarSrc bd signed a
    let y ← s.scalarSrc bd signed b
    whenEnabled s bd (match d with
      | .s n => s.arithS bd n.val (f bd x y) 0
      | _ => illegalOperand)

def execSdiv (d a b : Opnd) (s : State) : Host.Outcome State Fault Refusal :=
  .next (divOp (.sdiv d a b) true d a b (fun bd x y => sdivOf bd.sat x y) s)
def execSdivn (d a b : Opnd) (s : State) : Host.Outcome State Fault Refusal :=
  .next (divOp (.sdivn d a b) false d a b (fun _ x y => sdivnOf x y) s)
def execSmod (d a b : Opnd) (s : State) : Host.Outcome State Fault Refusal :=
  .next (divOp (.smod d a b) true d a b (fun _ x y => smodOf x y) s)

/-- R290: field position, length and extension of a descriptor, within `w` bits. -/
def bitField (w : Nat) (x : Nat) (p n : Nat) (ext : Bool) : Nat :=
  let n := min n w
  let f := x / 2 ^ p % 2 ^ n
  if n = 0 then 0 else if ext && f.testBit (n - 1) then f + (2 ^ w - 2 ^ n) else f

def sbfiOf (old x : W64) (p n : Nat) : W64 :=
  let mask : Nat := 2 ^ min n 64 - 1
  (old &&& ~~~ BitVec.ofNat 64 (mask * 2 ^ p)) ||| BitVec.ofNat 64 (x.toNat % (mask + 1) * 2 ^ p)

def execSbfx (d a b : Opnd) (s : State) : Host.Outcome State Fault Refusal :=
  .next (scalarOp (.sbfx d a b) false d a b
    (fun _ x y => BitVec.ofNat 64 (bitField 64 x.toNat (fld y 5 0) (fld y 14 8) (y.getLsbD 15))) s)

def execSbfi (d a b : Opnd) (s : State) : Host.Outcome State Fault Refusal :=
  .next (issue (.sbfi d a b) (fun bd s => do
    let x ← s.scalarSrc bd false a
    let y ← s.scalarSrc bd false b
    let old ← s.scalarSrc bd false d
    whenEnabled s bd (s.scalarDst bd d (sbfiOf old x (fld y 5 0) (fld y 14 8)))) s)

/-- R291. -/
def execSmovi (d : Opnd) (imm : BitVec 16) (s : State) : Host.Outcome State Fault Refusal :=
  .next (issue (.smovi d imm) (fun b s => whenEnabled s b (s.scalarDst b d (imm.signExtend 64))) s)
def execSmovh (d : Opnd) (imm : BitVec 16) (s : State) : Host.Outcome State Fault Refusal :=
  .next (issue (.smovh d imm) (fun b s => do
    let old ← s.scalarSrc b false d
    whenEnabled s b (s.scalarDst b d ((old <<< 16) ||| imm.setWidth 64))) s)
def execSaddi (d a : Opnd) (imm : BitVec 8) (s : State) : Host.Outcome State Fault Refusal :=
  .next (issue (.saddi d a imm) (fun b s => do
    let x ← s.scalarSrc b true a
    whenEnabled s b (s.scalarDst b d (narrow64 b (x.toInt + imm.toInt)))) s)

/-- R292. -/
def execAmov (d a : Opnd) (s : State) : Host.Outcome State Fault Refusal :=
  .next (scalarOp1 (.amov d a) false d a (fun _ x => x) s)
def execAadd (d a b : Opnd) (s : State) : Host.Outcome State Fault Refusal :=
  .next (scalarOp (.aadd d a b) true d a b (fun _ x y => x + y) s)

def execBset (d a b : Opnd) (s : State) : Host.Outcome State Fault Refusal :=
  .next (issue (.bset d a b) (fun bd s => do
    let v ← match a with
      | .b n => do
        need (b == .v 0)
        pure (bd.b.toArray.getD n.val (0, 0))
      | _ => do pure (← s.scalarSrc bd false a, ← s.scalarSrc bd false b)
    whenEnabled s bd (match d with
      | .b n => .ok (s.modBand bd.uid fun c => { c with b := c.b.setIfInBounds n.val v })
      | _ => illegalOperand)) s)

end Sys2Proof.Machine
end

