-- ==== Sys2Proof/Machine/Vector.lean ====
section
/-! DEFINITION. Vector integer instructions, constants, selection and comparisons (R222 to R225). -/

namespace Sys2Proof.Machine

def isIntType (typ : Nat) : Bool := decide (typ < 8)
def anyType (_ : Nat) : Bool := true

/-- A lane-wise vector ALU instruction without rounding: the element of each enabled lane from the source readers. -/
def laneAlu (i : Instr) (ok : Nat → Bool) (d : Opnd) (f : Band → State → Nat → Try (Nat → Nat)) : State → State :=
  issue i fun b s => do
    need (ok b.typ)
    let lanes ← s.lanesOf b
    let g ← f b s b.typ
    return .next (← s.elemDst b b.typ d g lanes true)

/-- Two sources of the type. -/
def laneAlu2 (i : Instr) (ok : Nat → Bool) (d a b : Opnd) (f : Band → Nat → Nat → Nat → Nat → Nat) : State → State :=
  laneAlu i ok d fun bd s typ => do
    let x ← s.lanesSrc bd typ a
    let y ← s.lanesSrc bd typ b
    return fun i => f bd typ i (x i) (y i)

def laneAlu1 (i : Instr) (ok : Nat → Bool) (d a : Opnd) (f : Band → Nat → Nat → Nat) : State → State :=
  laneAlu i ok d fun bd s typ => do
    let x ← s.lanesSrc bd typ a
    return fun i => f bd typ (x i)

/-- The integer of an element of a type. -/
def elemInt (typ x : Nat) : Int := intOf (isSigned typ) (typeBits typ) x

/-- R26 for an element of a type. -/
def narrow (bd : Band) (typ : Nat) (x : Int) : Nat := wrapInt bd.sat (isSigned typ) (typeBits typ) x

/-- R222: shift counts and field operands: bits 31:0 of each lane, constants read as n32; of a 64-bit type's pair the even register,
while lat is one register (R148). -/
def State.countSrc (s : State) (b : Band) (typ : Nat) (o : Opnd) : Try (Nat → Nat) := do
  if typeBits typ = 64 ∧ o ≠ .lat then
    let (lo, _) ← s.pairSrc b 6 o
    return fun i => (lo.lane i).toNat
  else
    let x ← s.vecSrc b 6 o
    return fun i => (x.lane i).toNat

def execVadd (d a b : Opnd) (s : State) : Host.Outcome State Fault Refusal :=
  .next (laneAlu2 (.vadd d a b) isIntType d a b (fun bd t _ x y => narrow bd t (elemInt t x + elemInt t y)) s)
def execVsub (d a b : Opnd) (s : State) : Host.Outcome State Fault Refusal :=
  .next (laneAlu2 (.vsub d a b) isIntType d a b (fun bd t _ x y => narrow bd t (elemInt t x - elemInt t y)) s)
def execVmul (d a b : Opnd) (s : State) : Host.Outcome State Fault Refusal :=
  .next (laneAlu2 (.vmul d a b) isIntType d a b (fun bd t _ x y => narrow bd t (elemInt t x * elemInt t y)) s)

/-- Bits 2w-1:w of the exact product. -/
def mulHigh (t x y : Nat) : Nat :=
  wrapInt false false (typeBits t) (elemInt t x * elemInt t y / ((2 ^ typeBits t : Nat) : Int))

def execVmulh (d a b : Opnd) (s : State) : Host.Outcome State Fault Refusal :=
  .next (laneAlu2 (.vmulh d a b) isIntType d a b (fun _ t _ x y => mulHigh t x y) s)

def execVmad (d a b : Opnd) (s : State) : Host.Outcome State Fault Refusal :=
  .next (laneAlu (.vmad d a b) isIntType d (fun bd s t => do
    let x ← s.lanesSrc bd t a
    let y ← s.lanesSrc bd t b
    let z ← s.lanesSrc bd t d
    return fun i => narrow bd t (elemInt t (z i) + elemInt t (x i) * elemInt t (y i))) s)

def execVand (d a b : Opnd) (s : State) : Host.Outcome State Fault Refusal :=
  .next (laneAlu2 (.vand d a b) anyType d a b (fun _ _ _ x y => x &&& y) s)
def execVor (d a b : Opnd) (s : State) : Host.Outcome State Fault Refusal :=
  .next (laneAlu2 (.vor d a b) anyType d a b (fun _ _ _ x y => x ||| y) s)
def execVxor (d a b : Opnd) (s : State) : Host.Outcome State Fault Refusal :=
  .next (laneAlu2 (.vxor d a b) anyType d a b (fun _ _ _ x y => x ^^^ y) s)
def execVnot (d a : Opnd) (s : State) : Host.Outcome State Fault Refusal :=
  .next (laneAlu1 (.vnot d a) anyType d a (fun _ t x => 2 ^ typeBits t - 1 - x) s)

def shiftLeft (t x c : Nat) : Nat := if typeBits t ≤ c then 0 else x * 2 ^ c % 2 ^ typeBits t
def shiftRight (t x c : Nat) : Nat := wrapInt false false (typeBits t) (elemInt t x / ((2 ^ min c (typeBits t) : Nat) : Int))

def shiftOp (i : Instr) (d a b : Opnd) (f : Nat → Nat → Nat → Nat) : State → State :=
  laneAlu i isIntType d fun bd s t => do
    let x ← s.lanesSrc bd t a
    let c ← s.countSrc bd t b
    return fun i => f t (x i) (c i)

def execVshl (d a b : Opnd) (s : State) : Host.Outcome State Fault Refusal := .next (shiftOp (.vshl d a b) d a b shiftLeft s)
def execVshr (d a b : Opnd) (s : State) : Host.Outcome State Fault Refusal := .next (shiftOp (.vshr d a b) d a b shiftRight s)

def execVmin (d a b : Opnd) (s : State) : Host.Outcome State Fault Refusal :=
  .next (laneAlu2 (.vmin d a b) isIntType d a b (fun _ t _ x y => if elemInt t y < elemInt t x then y else x) s)
def execVmax (d a b : Opnd) (s : State) : Host.Outcome State Fault Refusal :=
  .next (laneAlu2 (.vmax d a b) isIntType d a b (fun _ t _ x y => if elemInt t x < elemInt t y then y else x) s)
def execVabs (d a : Opnd) (s : State) : Host.Outcome State Fault Refusal :=
  .next (laneAlu1 (.vabs d a) isIntType d a (fun bd t x => narrow bd t (elemInt t x).natAbs) s)
def execVneg (d a : Opnd) (s : State) : Host.Outcome State Fault Refusal :=
  .next (laneAlu1 (.vneg d a) isIntType d a (fun bd t x => narrow bd t (0 - elemInt t x)) s)
def execVmov (d a : Opnd) (s : State) : Host.Outcome State Fault Refusal :=
  .next (laneAlu1 (.vmov d a) anyType d a (fun _ _ x => x) s)

/-- R224: the constant of VMOVI. -/
def moviBits (t : Nat) (imm : BitVec 16) : Nat :=
  if t < 4 then (imm.signExtend 64).toNat % 2 ^ typeBits t
  else if t < 8 then imm.toNat % 2 ^ typeBits t
  else if t = 10 then imm.toNat * 2 ^ 16
  else if t = 11 then imm.toNat * 2 ^ 48
  else imm.toNat

def execVmovi (d : Opnd) (imm : BitVec 16) (s : State) : Host.Outcome State Fault Refusal :=
  .next (laneAlu (.vmovi d imm) anyType d (fun _ _ t => .ok fun _ => moviBits t imm) s)

def execVbcast (d a b : Opnd) (s : State) : Host.Outcome State Fault Refusal :=
  .next (laneAlu (.vbcast d a b) anyType d (fun bd s t => do
    let x ← s.lanesSrc bd t a
    let n ← s.scalarSrc bd false b
    return fun _ => x (n.toNat % 32)) s)

/-- R224: VSEL writes every lane. -/
def execVsel (d a b : Opnd) (s : State) : Host.Outcome State Fault Refusal :=
  .next (issue (.vsel d a b) (fun bd s => do
    let lanes ← s.lanesOf bd
    let x ← s.lanesSrc bd bd.typ a
    let y ← s.lanesSrc bd bd.typ b
    return .next (← s.elemDst bd bd.typ d (fun i => if lanes.getLsbD i then x i else y i) (~~~ 0#32) true)) s)

def execVpopc (d a : Opnd) (s : State) : Host.Outcome State Fault Refusal :=
  .next (laneAlu1 (.vpopc d a) anyType d a (fun _ t x => popCount (typeBits t) x) s)
def execVclz (d a : Opnd) (s : State) : Host.Outcome State Fault Refusal :=
  .next (laneAlu1 (.vclz d a) anyType d a (fun _ t x => leadingZeros (typeBits t) x) s)

/-- R223: bits p + n - 1 : p of a, bits at or above w reading as the sign or zero. -/
def fieldOf (t x c : Nat) : Nat :=
  let p := c % 64
  let n := c / 2 ^ 8 % 128
  let y := elemInt t x / ((2 ^ p : Nat) : Int) % ((2 ^ n : Nat) : Int)
  wrapInt false false (typeBits t) (intOf (isSigned t) n y.toNat)

def execVbfx (d a b : Opnd) (s : State) : Host.Outcome State Fault Refusal :=
  .next (shiftOp (.vbfx d a b) d a b (fun t x c => if c / 2 ^ 8 % 128 = 0 then 0 else fieldOf t x c) s)

def execVidx (d a b : Opnd) (s : State) : Host.Outcome State Fault Refusal :=
  .next (laneAlu2 (.vidx d a b) isIntType d a b (fun bd t i x y => narrow bd t (elemInt t x + (i : Int) * elemInt t y)) s)

def dot4 (signed : Bool) (x y : Nat) : Int :=
  ((List.range 4).map fun k => intOf signed 8 (x / 256 ^ k) * intOf signed 8 (y / 256 ^ k)).sum

def execVdot4 (d a b : Opnd) (s : State) : Host.Outcome State Fault Refusal :=
  .next (laneAlu (.vdot4 d a b) (fun t => t == 2 || t == 6) d (fun bd s t => do
    let x ← s.lanesSrc bd t a
    let y ← s.lanesSrc bd t b
    let z ← s.lanesSrc bd t d
    return fun i => narrow bd t (elemInt t (z i) + dot4 (isSigned t) (x i) (y i))) s)

/-! ## Comparisons (R225) -/

/-- Mask bits of the enabled lanes replaced. -/
def maskBits (old : W32) (lanes : W32) (p : Nat → Bool) : W32 :=
  (old &&& ~~~ lanes) ||| BitVec.ofNat 32 (((laneList lanes).filter p).foldl (fun m i => m + 2 ^ i) 0)

/-- A comparison into a mask register; the other bits are kept, so the register's old value is needed. -/
def State.compareTo (s : State) (b : Band) (d : Opnd) (lanes : W32) (p : Nat → Bool) : Try State :=
  match d with
  | .m n => do
    let old ← s.readM b n.val
    s.writeM b n.val (maskBits old lanes p)
  | _ => illegalOperand

def compareInt (i : Instr) (d a b : Opnd) (p : Int → Int → Bool) : State → State :=
  issue i fun bd s => do
    need (isIntType bd.typ)
    let lanes ← s.lanesOf bd
    let x ← s.lanesSrc bd bd.typ a
    let y ← s.lanesSrc bd bd.typ b
    return .next (← s.compareTo bd d lanes fun i => p (elemInt bd.typ (x i)) (elemInt bd.typ (y i)))

def execVceq (d a b : Opnd) (s : State) : Host.Outcome State Fault Refusal :=
  .next (compareInt (.vceq d a b) d a b (fun x y => decide (x = y)) s)
def execVcne (d a b : Opnd) (s : State) : Host.Outcome State Fault Refusal :=
  .next (compareInt (.vcne d a b) d a b (fun x y => decide (x ≠ y)) s)
def execVclt (d a b : Opnd) (s : State) : Host.Outcome State Fault Refusal :=
  .next (compareInt (.vclt d a b) d a b (fun x y => decide (x < y)) s)
def execVcle (d a b : Opnd) (s : State) : Host.Outcome State Fault Refusal :=
  .next (compareInt (.vcle d a b) d a b (fun x y => decide (x ≤ y)) s)
def execVcgt (d a b : Opnd) (s : State) : Host.Outcome State Fault Refusal :=
  .next (compareInt (.vcgt d a b) d a b (fun x y => decide (y < x)) s)
def execVcge (d a b : Opnd) (s : State) : Host.Outcome State Fault Refusal :=
  .next (compareInt (.vcge d a b) d a b (fun x y => decide (y ≤ x)) s)

end Sys2Proof.Machine
end

