-- ==== Sys2Proof/Machine/Float.lean ====
section
/-! DEFINITION. Floating-point arithmetic of R226 to R230 without the transcendental functions. -/

namespace Sys2Proof.Machine

/-- R226: the IEEE format of MODE.TYPE; any other type is an illegal operand. -/
def Band.fmt (b : Band) : Try Fmt :=
  if isFloatType b.typ then (match fmtOf b.typ with | some f => .ok f | none => illegalOperand) else illegalOperand

/-- A source read under FTZ (R18): its value and the status it sets. -/
def readNum (f : Fmt) (ftz : Bool) (c : Nat) : Num × BitVec 6 :=
  if ftz && f.special == .ieee && decide (f.mb ≠ 2) then
    let (c', fl) := flushSrc f c
    (f.value c', fl)
  else (f.value c, 0)

/-- R19: NV for a signalling NaN. -/
def snanFlag (x : Num) : BitVec 6 := if x.isSnan then fNV else 0

/-- A result rounded once to a format, with FTZ on the result (R27, R28, R18). -/
def finish (f : Fmt) (rd : Rounding) (sat ftz : Bool) (x : Num × BitVec 6) : Nat × BitVec 6 :=
  let r := roundNum f rd sat x.1
  let r := if ftz && f.mb != 2 then flushCode f r else r
  (r.1, r.2 ||| x.2)

/-- The rounding of the one element of a lane under a mode. -/
def roundOf (mode : Nat) (k : SrKey) (lane e : Nat) : Rounding := ⟨mode, if mode = 5 then k.draw lane e else 0⟩

/-- The status of the enabled lanes. -/
def orLanes (lanes : W32) (g : Nat → Nat × BitVec 6) : BitVec 6 := (laneList lanes).foldl (fun a i => a ||| (g i).2) 0

/-- Lane-wise results with status: an ALU operation writes at once, an arithmetic-class one when it completes. -/
def State.floatDst (s : State) (b : Band) (typ : Nat) (d : Opnd) (lanes : W32) (arith alu : Bool) (g : Nat → Nat × BitVec 6) :
    Try State :=
  let fl := orLanes lanes g
  if arith then s.arithElems b typ d (fun i => (g i).1) lanes fl
  else do
    let t ← s.elemDst b typ d (fun i => (g i).1) lanes alu
    return t.setFps b.uid fl

/-- An instruction that rounds under MODE.RND: `f` gives the exact result of each lane and its status. -/
def floatOp (i : Instr) (arith : Bool) (d : Opnd) (f : Band → State → Fmt → Try (Nat → Num × BitVec 6)) : State → State :=
  issue i fun b s => do
    let ft ← b.fmt
    let lanes ← s.lanesOf b
    let g ← f b s ft
    let k := s.srKey b
    let t ← s.floatDst b b.typ d lanes arith true fun i => finish ft (roundOf b.rnd k i 0) b.sat b.ftz (g i)
    return .next (t.countSr b b.rnd)

/-- The values of a source's lanes, each with its status. -/
def State.numSrc (s : State) (b : Band) (f : Fmt) (o : Opnd) : Try (Nat → Num × BitVec 6) := do
  let x ← s.lanesSrc b b.typ o
  return fun i => let r := readNum f b.ftz (x i); (r.1, r.2 ||| snanFlag r.1)

def float2 (i : Instr) (arith : Bool) (d a b : Opnd) (op : Nat → Num → Num → Num × BitVec 6) : State → State :=
  floatOp i arith d fun bd s f => do
    let x ← s.numSrc bd f a
    let y ← s.numSrc bd f b
    return fun i => let r := op bd.rnd (x i).1 (y i).1; (r.1, r.2 ||| (x i).2 ||| (y i).2)

def float1 (i : Instr) (arith : Bool) (d a : Opnd) (op : Num → Num × BitVec 6) : State → State :=
  floatOp i arith d fun bd s f => do
    let x ← s.numSrc bd f a
    return fun i => let r := op (x i).1; (r.1, r.2 ||| (x i).2)

def execFadd (d a b : Opnd) (s : State) : Host.Outcome State Fault Refusal :=
  .next (float2 (.fadd d a b) false d a b Num.add s)
def execFsub (d a b : Opnd) (s : State) : Host.Outcome State Fault Refusal :=
  .next (float2 (.fsub d a b) false d a b (fun m x y => x.add m y.negate) s)
def execFmul (d a b : Opnd) (s : State) : Host.Outcome State Fault Refusal :=
  .next (float2 (.fmul d a b) false d a b (fun _ x y => x.mul y) s)

def execFfma (d a b : Opnd) (s : State) : Host.Outcome State Fault Refusal :=
  .next (floatOp (.ffma d a b) false d (fun bd s f => do
    let x ← s.numSrc bd f a
    let y ← s.numSrc bd f b
    let z ← s.numSrc bd f d
    return fun i => let r := Num.fma bd.rnd (x i).1 (y i).1 (z i).1; (r.1, r.2 ||| (x i).2 ||| (y i).2 ||| (z i).2)) s)

def one : Num := .fin false 1 0

def execFrcp (d a : Opnd) (s : State) : Host.Outcome State Fault Refusal :=
  .next (float1 (.frcp d a) true d a (fun x => one.div x) s)
def execFrsq (d a : Opnd) (s : State) : Host.Outcome State Fault Refusal :=
  .next (float1 (.frsq d a) true d a Num.rsqrt s)
def execFsqrt (d a : Opnd) (s : State) : Host.Outcome State Fault Refusal :=
  .next (float1 (.fsqrt d a) true d a Num.sqrt s)
def execFdiv (d a b : Opnd) (s : State) : Host.Outcome State Fault Refusal :=
  .next (float2 (.fdiv d a b) true d a b (fun _ x y => x.div y) s)

/-- a × 2^n; an exponent beyond every format's range rounds as one just beyond it does. -/
def Num.scale (x : Num) (n : Int) : Num :=
  match x with
  | .fin neg m e => .fin neg m (e + max (-8192) (min 8192 n))
  | .nan _ => .nan false
  | x => x

def execFscale (d a b : Opnd) (s : State) : Host.Outcome State Fault Refusal :=
  .next (floatOp (.fscale d a b) false d (fun bd s f => do
    let x ← s.numSrc bd f a
    let n ← s.countSrc bd bd.typ b
    return fun i => ((x i).1.scale (BitVec.ofNat 32 (n i)).toInt, (x i).2)) s)

/-! ## Exact operations: minima and maxima (R37) -/

/-- The chosen code and the status. `num` ignores a NaN beside a number. -/
def minMax (f : Fmt) (ftz num wantMax : Bool) (cx cy : Nat) : Nat × BitVec 6 :=
  let fx := if ftz then flushSrc f cx else (cx, 0)
  let fy := if ftz then flushSrc f cy else (cy, 0)
  let x := f.value fx.1
  let y := f.value fy.1
  let fl := fx.2 ||| fy.2 ||| snanFlag x ||| snanFlag y
  let code :=
    if x.isNan && y.isNan then f.nanCode
    else if x.isNan then (if num then fy.1 else f.nanCode)
    else if y.isNan then (if num then fx.1 else f.nanCode)
    else if (if wantMax then x.below y else y.below x) then fy.1 else fx.1
  let v := f.value code
  (code, if v.isNan || v.isInf then fl ||| fNF else fl)

def minMaxOp (i : Instr) (d a b : Opnd) (num wantMax : Bool) : State → State :=
  issue i fun bd s => do
    let f ← bd.fmt
    let lanes ← s.lanesOf bd
    let x ← s.lanesSrc bd bd.typ a
    let y ← s.lanesSrc bd bd.typ b
    return .next (← s.floatDst bd bd.typ d lanes false true fun i => minMax f bd.ftz num wantMax (x i) (y i))

def execFmin (d a b : Opnd) (s : State) : Host.Outcome State Fault Refusal :=
  .next (minMaxOp (.fmin d a b) d a b false false s)
def execFmax (d a b : Opnd) (s : State) : Host.Outcome State Fault Refusal :=
  .next (minMaxOp (.fmax d a b) d a b false true s)
def execFminnum (d a b : Opnd) (s : State) : Host.Outcome State Fault Refusal :=
  .next (minMaxOp (.fminnum d a b) d a b true false s)
def execFmaxnum (d a b : Opnd) (s : State) : Host.Outcome State Fault Refusal :=
  .next (minMaxOp (.fmaxnum d a b) d a b true true s)

/-! ## Bit operations -/

/-- A word that acts on the bits sets no bit of FPS, an infinity or a NaN that it passes on included: R226 excepts bit operations, and FMIN to
FMAXNUM, exact but no bit operations, set NF as R227 says (DEDUCED, log 29). -/
def bitOp (i : Instr) (d a : Opnd) (ok : Nat → Bool) (f : Fmt → Nat → Nat) : State → State :=
  issue i fun bd s => do
    let ft ← bd.fmt
    need (ok bd.typ)
    let lanes ← s.lanesOf bd
    let x ← s.lanesSrc bd bd.typ a
    return .next (← s.elemDst bd bd.typ d (fun i => f ft (x i)) lanes true)

def execFabs (d a : Opnd) (s : State) : Host.Outcome State Fault Refusal :=
  .next (bitOp (.fabs d a) d a anyType (fun f x => x % f.signBit) s)
def execFneg (d a : Opnd) (s : State) : Host.Outcome State Fault Refusal :=
  .next (bitOp (.fneg d a) d a anyType (fun f x => if f.signBit ≤ x then x - f.signBit else x + f.signBit) s)

/-- R229. -/
def classOf (f : Fmt) (c : Nat) : Nat :=
  match f.value c with
  | .nan true => 2 ^ 8
  | .nan false => 2 ^ 9
  | .inf neg => if neg then 2 ^ 0 else 2 ^ 7
  | .fin neg m _ =>
    if m = 0 then (if neg then 2 ^ 3 else 2 ^ 4)
    else if m < 2 ^ f.mb then (if neg then 2 ^ 2 else 2 ^ 5)
    else (if neg then 2 ^ 1 else 2 ^ 6)

def execFclass (d a : Opnd) (s : State) : Host.Outcome State Fault Refusal := .next (bitOp (.fclass d a) d a anyType classOf s)
def execFkey (d a : Opnd) (s : State) : Host.Outcome State Fault Refusal :=
  .next (bitOp (.fkey d a) d a (fun t => t != 11) fkey s)

/-! ## Rounding to an integer in the format (R228) -/

/-- The integral value, and the status: NX for a changed value when asked for. -/
def frndOf (f : Fmt) (ftz nx : Bool) (rd : Rounding) (c : Nat) : Nat × BitVec 6 :=
  let (x, fl) := readNum f ftz c
  match x with
  | .nan sg => (f.nanCode, fl ||| fNF ||| (if sg then fNV else 0))
  | .inf neg => (f.withSign neg f.infCode, fl ||| fNF)
  | .fin neg m e =>
    if m = 0 then (f.withSign neg 0, fl)
    else
      let (q, exact) := onGrid rd neg m e 0
      let r := if q = 0 then (f.withSign neg 0, 0) else roundFin f rne false neg q 0
      (r.1, fl ||| (if nx && !exact then fNX else 0))

def execFrnd (d a : Opnd) (x : BitVec 1) (r : BitVec 3) (s : State) : Host.Outcome State Fault Refusal :=
  .next (issue (.frnd d a x r) (fun b s => do
    let ft ← b.fmt
    need (r != 6)
    let lanes ← s.lanesOf b
    let v ← s.lanesSrc b b.typ a
    let mode := if r = 7 then b.rnd else r.toNat
    let k := s.srKey b
    let t ← s.floatDst b b.typ d lanes false true fun i => frndOf ft b.ftz (x == 1) (roundOf mode k i 0) (v i)
    return .next (t.countSr b mode)) s)

/-! ## Comparisons (R230) -/

def compareFloat (i : Instr) (d a b : Opnd) (anyNan : Bool) (p : Num → Num → Bool) : State → State :=
  issue i fun bd s => do
    let f ← bd.fmt
    let lanes ← s.lanesOf bd
    let x ← s.lanesSrc bd bd.typ a
    let y ← s.lanesSrc bd bd.typ b
    let vals := fun i => (readNum f bd.ftz (x i), readNum f bd.ftz (y i))
    let t ← s.compareTo bd d lanes fun i => p (vals i).1.1 (vals i).2.1
    let fl := orLanes lanes fun i =>
      let ((u, fu), (v, fv)) := vals i
      (0, fu ||| fv ||| snanFlag u ||| snanFlag v ||| (if anyNan && (u.isNan || v.isNan) then fNV else 0))
    return .next (t.setFps bd.uid fl)

def execFceq (d a b : Opnd) (s : State) : Host.Outcome State Fault Refusal :=
  .next (compareFloat (.fceq d a b) d a b false (fun x y => !x.isNan && !y.isNan && x.cmp y == .eq) s)
def execFclt (d a b : Opnd) (s : State) : Host.Outcome State Fault Refusal :=
  .next (compareFloat (.fclt d a b) d a b true (fun x y => !x.isNan && !y.isNan && x.cmp y == .lt) s)
def execFcle (d a b : Opnd) (s : State) : Host.Outcome State Fault Refusal :=
  .next (compareFloat (.fcle d a b) d a b true (fun x y => !x.isNan && !y.isNan && x.cmp y != .gt) s)
def execFcun (d a b : Opnd) (s : State) : Host.Outcome State Fault Refusal :=
  .next (compareFloat (.fcun d a b) d a b false (fun x y => x.isNan || y.isNan) s)

end Sys2Proof.Machine
end

