-- ==== Sys2Proof/Machine/Convert.lean ====
section
/-! DEFINITION. CVT (R29, R231), block quantisation (R22 to R25, R232 to R235) and SCVT (R236). -/

namespace Sys2Proof.Machine

/-! ## CVT -/

/-- R29: a float as an integer of a type: rounded, clamped with NV out of range. -/
def toIntOf (typ : Nat) (rd : Rounding) (x : Num) : Nat × BitVec 6 :=
  let sg := isSigned typ
  let w := typeBits typ
  match x with
  | .nan _ => (0, fNV)
  | .inf neg => (wrapInt true sg w (if neg then intMin sg w else intMax sg w), fNV)
  | .fin neg m e =>
    let (q, exact) := onGrid rd neg m e 0
    let v : Int := if neg then -(q : Int) else q
    if v < intMin sg w ∨ intMax sg w < v then (wrapInt true sg w v, fNV)
    else (wrapInt false sg w v, if exact then 0 else fNX)

/-- R29: one element converted. -/
def convert (src dst : Nat) (rd : Rounding) (sat ftz : Bool) (c : Nat) : Nat × BitVec 6 :=
  match fmtOf src, fmtOf dst with
  | none, none =>
    (wrapInt (sat && decide (typeBits dst ≤ typeBits src)) (isSigned dst) (typeBits dst) (elemInt src c), 0)
  | none, some f => finish f rd sat ftz (ofInt (elemInt src c) 0 false, 0)
  | some f, none => let (x, fl) := readNum f ftz c; let r := toIntOf dst rd x; (r.1, r.2 ||| fl)
  | some f, some g => let (x, fl) := readNum f ftz c; finish g rd sat ftz (x, fl)

def execCvt (d a : Opnd) (t x : BitVec 4) (s : State) : Host.Outcome State Fault Refusal :=
  .next (issue (.cvt d a t x) (fun b s => do
    let lanes ← s.lanesOf b
    let v ← s.lanesSrc b x.toNat a
    let k := s.srKey b
    let r ← s.floatDst b t.toNat d lanes false true fun i =>
      convert x.toNat t.toNat (roundOf b.rnd k i 0) b.sat b.ftz (v i)
    return .next (r.countSr b b.rnd)) s)

/-! ## Blocks -/

/-- The element formats of R232's codes; F4S (5) reads through E2M1 and its special byte. -/
def blockFmt (q : Nat) : Fmt :=
  match q with
  | 0 => e5m2 | 1 => e4m3 | 2 => e3m2 | 3 => e2m3 | _ => e2m1

/-- x / 2^k. -/
def Num.down (x : Num) (k : Int) : Num :=
  match x with
  | .fin n m e => .fin n m (e - k)
  | x => x

/-- R22, R23: the value of a code of a block with scale byte c and special byte p. -/
def blockValue (q code c p : Nat) : Num :=
  if c = 255 then .nan false
  else
    let x :=
      if q = 5 ∧ code % 16 = 8 then (if p = 0 then .fin false 0 0 else if p = 0x7F ∨ p = 0xFF then .nan false else e4m3.value p)
      else (blockFmt q).value code
    x.down (127 - (c : Int))

/-- Magnitudes of a list compared exactly. -/
def Num.mag (x : Num) : Num :=
  match x with
  | .fin _ m e => .fin false m e
  | .inf _ => .inf false
  | x => x

def largest : List Num → Num
  | [] => .fin false 0 0
  | x :: t => let y := largest t; if x.mag.cmp y.mag == .lt then y else x

/-- The exponent k with 2^k ≤ m × 2^e < 2^(k+1). -/
def floorLog (m : Nat) (e : Int) : Int := (Nat.log2 m : Int) + e

/-- The least k with m × 2^e ≤ m' × 2^e' × 2^k. -/
def ceilLogRatio (m : Nat) (e : Int) (m' : Nat) (e' : Int) : Int :=
  let k := floorLog m e - floorLog m' e'
  if (Num.fin false m (e - k)).cmp (.fin false m' e') == .gt then k + 1 else k

def clampK (k : Int) : Int := max (-127) (min 127 k)

structure Quantised where
  codes : List Nat
  c : Nat
  p : Nat
  fps : BitVec 6
  deriving DecidableEq, Repr

/-- |x - y| as an exact value. -/
def distance (x y : Num) : Num := (x.add 0 y.negate).1.mag

/-- R24. `rd e` is the rounding of element e. OF, NX, NF and NV are what R24 names; UF is not set (DEDUCED, log 29). -/
def quantF4s (rd : Nat → Rounding) (xs : List Num) : Quantised :=
  match largest xs with
  | .fin neg m e =>
    let raw : Int := if m = 0 then -127 else floorLog m e - 2
    let k := clampK raw
    let special := (Num.fin false m (e - k)).cmp (.fin false 6 0) == .gt
    let p := if special then (roundNum e4m3 rne true (.fin neg m (e - k))).1 else 0
    let sv := e4m3.value p
    let codes := xs.zipIdx.map fun (x, i) =>
      let y := x.down k
      let q := (roundNum e2m1 (rd i) true y).1
      let qv := e2m1.value q
      if special && (distance y sv).cmp (distance y qv) == .lt then 8 else if qv.isZero then 0 else q
    let used := codes.contains 8
    let p := if used then p else 0
    let c := (k + 127).toNat
    let off := (xs.zip codes).any fun (x, code) => (blockValue 5 code c p).cmp x != .eq
    let beyond := decide (127 < raw) && xs.any fun x => ((x.down k).mag).cmp (.fin false 6 0) == .gt
    ⟨codes, c, p, (if beyond then fOF else 0) ||| (if off then fNX else 0)⟩
  | _ => ⟨xs.map fun _ => 0, 255, 0, fNF⟩

/-- R25. -/
def quantPlain (q : Nat) (rd : Nat → Rounding) (xs : List Num) : Quantised :=
  let f := blockFmt q
  match largest xs, f.value f.maxCode with
  | .fin _ m e, .fin _ m' e' =>
    let k := if m = 0 then -127 else clampK (ceilLogRatio m e m' e')
    let rs := xs.zipIdx.map fun (x, i) => roundNum f (rd i) true (x.down k)
    ⟨rs.map fun r => if (f.value r.1).isZero then 0 else r.1, (k + 127).toNat, 0, rs.foldl (fun a r => a ||| r.2) 0⟩
  | _, _ => ⟨xs.map fun _ => 0, 255, 0, fNF⟩

/-- A block quantised: a non-finite input gives scale 0xFF (R24, R25). -/
def quantise (q : Nat) (rd : Nat → Rounding) (xs : List Num) : Quantised :=
  if xs.any fun x => x.isNan || x.isInf then
    ⟨xs.map fun _ => 0, 255, 0, fNF ||| (if xs.any Num.isSnan then fNV else 0)⟩
  else if q = 5 then quantF4s rd xs else quantPlain q rd xs

/-- The block held in a register as FP32 or BF16, with FTZ on the source (R18). -/
def blockOf (bf : Bool) (ftz : Bool) (r : VReg) : List Num × BitVec 6 :=
  let f := if bf then bf16 else f32
  let xs := (List.range 32).map fun i => readNum f ftz ((r.lane i).toNat % 2 ^ f.width)
  (xs.map Prod.fst, xs.foldl (fun a x => a ||| x.2) 0)

/-- R232: registers of a block image: 4 for the 8-bit and 6-bit formats, 8 for the 4-bit ones. -/
def blockRegs (q : Nat) : Nat := if q < 4 then 4 else 8

/-- A register from its 128 bytes. -/
def VReg.ofBytes (f : Nat → Nat) : VReg :=
  VReg.ofFn fun i => BitVec.ofNat 32 (leNat ((List.range 4).map fun k => BitVec.ofNat 8 (f (4 * i + k))))

/-- Byte k of a register's memory image (R2). -/
def VReg.byte (r : VReg) (k : Nat) : Nat := (r.lane (k / 4)).toNat / 256 ^ (k % 4) % 256

/-- R235: every lane must be enabled. -/
def allLanes (lanes : W32) : Try Unit := if lanes = ~~~ 0#32 then .ok () else .error (.word tConvergence)

/-- The v register number of an operand. -/
def vNum (o : Opnd) : Try Nat :=
  match o with
  | .v n => .ok n.val
  | _ => illegalOperand

/-- Registers a to a + n - 1 of a band. -/
def Band.readBlock (b : Band) (a n : Nat) : Try (List VReg) := (List.range n).mapM fun j => b.readV (a + j)

/-- A run of whole v registers written at once. -/
def State.writeBlock (s : State) (b : Band) (d : Nat) (rs : List VReg) : Try State := do
  s.alloc b rs.length 0
  return rs.zipIdx.foldl (fun s (r, j) => s.putV b (d + j) r (~~~ 0#32)) s

/-- Element number of code e of block j within its lane of the image (R232). -/
def codePlace (q j e : Nat) : Nat × Nat :=
  if q < 4 then ((32 * j + e) / 4, (32 * j + e) % 4) else let k := 32 * j + e; (k / 8, k % 8)

def execQpack (d a : Opnd) (x : BitVec 1) (f : BitVec 3) (s : State) : Host.Outcome State Fault Refusal :=
  .next (issue (.qpack d a x f) (fun b s => do
    need (decide (f.toNat < 6))
    let n := blockRegs f.toNat
    let an ← vNum a
    let dn ← vNum d
    need (decide (an + n ≤ 64) && decide (dn ≤ 62))
    allLanes (← s.lanesOf b)
    let rs ← b.readBlock an n
    let k := s.srKey b
    let blocks := rs.zipIdx.map fun (r, j) =>
      let (xs, fl) := blockOf (x == 1) b.ftz r
      let qd := quantise f.toNat (fun e => roundOf b.rnd k (codePlace f.toNat j e).1 (codePlace f.toNat j e).2) xs
      { qd with fps := qd.fps ||| fl }
    let codes := (blocks.map Quantised.codes).flatten
    let img := VReg.ofBytes fun i => if f.toNat < 4 then codes.getD i 0 else codes.getD (2 * i) 0 + 16 * codes.getD (2 * i + 1) 0
    let scales := VReg.ofFn fun j => match blocks[j]? with | some q => BitVec.ofNat 32 (q.c + 256 * q.p) | none => 0
    let t ← s.writeBlock b dn [img, scales]
    return .next ((t.setFps b.uid (blocks.foldl (fun m q => m ||| q.fps) 0)).countSr b b.rnd)) s)

def execQunpack (d a : Opnd) (x : BitVec 1) (f : BitVec 3) (s : State) : Host.Outcome State Fault Refusal :=
  .next (issue (.qunpack d a x f) (fun b s => do
    need (decide (f.toNat < 6))
    let n := blockRegs f.toNat
    let an ← vNum a
    let dn ← vNum d
    need (decide (an ≤ 62) && decide (dn + n ≤ 64))
    allLanes (← s.lanesOf b)
    let img ← b.readV an
    let sc ← b.readV (an + 1)
    let k := s.srKey b
    let g := if x == 1 then bf16 else f32
    let value := fun (j e : Nat) =>
      let code := if f.toNat < 4 then VReg.byte img (32 * j + e) else VReg.byte img (16 * j + e / 2) / 16 ^ (e % 2) % 16
      let w := (VReg.lane sc j).toNat
      finish g (roundOf b.rnd k e j) b.sat b.ftz (blockValue f.toNat code (w % 256) (w / 256 % 256), 0)
    let t ← s.writeBlock b dn ((List.range n).map fun j => VReg.ofFn fun e => BitVec.ofNat 32 (value j e).1)
    let fl := (List.range n).foldl (fun m j => m ||| orLanes (~~~ 0#32) (value j)) 0
    return .next ((t.setFps b.uid fl).countSr b b.rnd)) s)

/-- The register that holds a block, v or o (R218). -/
def State.blockReg (s : State) (b : Band) (o : Opnd) : Try VReg :=
  match o with
  | .v n => b.readV n.val
  | .o n => s.readO b n.val
  | _ => illegalOperand

/-- R234: c and p of one block; SR is taken as RNE and draws nothing. -/
def execQscale (d a : Opnd) (x : BitVec 1) (f : BitVec 3) (s : State) : Host.Outcome State Fault Refusal :=
  .next (issue (.qscale d a x f) (fun b s => do
    need (decide (f.toNat < 6))
    allLanes (← s.lanesOf b)
    let r ← s.blockReg b a
    let (xs, fl) := blockOf (x == 1) b.ftz r
    let q := quantise f.toNat (fun _ => ⟨if b.rnd = 5 then 0 else b.rnd, 0⟩) xs
    let t ← s.vecDst b d (VReg.ofFn fun _ => BitVec.ofNat 32 (q.c + 256 * q.p)) (~~~ 0#32)
    return .next (t.setFps b.uid (q.fps &&& (fNF ||| fNV) ||| fl))) s)

/-! ## SCVT (R236) -/

/-- Scale, clip and convert with one rounding: the value before the rounding and its status. -/
def scaleClip (x scale clip : Num) : Num × BitVec 6 :=
  let fl := snanFlag x ||| snanFlag scale ||| snanFlag clip
  if x.isNan || scale.isNan then (.nan false, fl)
  else
    let (y, g) := x.mul scale
    if y.isNan then (y, fl ||| g)
    else if !clip.isNan && y.mag.cmp clip.mag == .gt then
      ((if y.neg? then clip.mag.negate else clip.mag), fl)
    else (y, fl)

/-- The conversion to i8 or to a float (R29). -/
def scvtTo (dst : Nat) (rd : Rounding) (sat ftz : Bool) (x : Num × BitVec 6) : Nat × BitVec 6 :=
  match fmtOf dst with
  | some f => finish f rd sat ftz x
  | none => let r := toIntOf dst rd x.1; (r.1, r.2 ||| x.2)

/-- Destination codes of R236. -/
def scvtDst (c : Nat) : Bool := c == 0 || c == 8 || c == 9 || c == 10 || decide (12 ≤ c)

/-- Scale and clip in s(56 + 2k) and s(57 + 2k), which FTZ does not flush: R236 names the source alone (DEDUCED, log 29). -/
def Band.scaleRegs (b : Band) (k : Nat) : Try (Num × Num) := do
  let x ← b.readS (56 + 2 * k)
  let y ← b.readS (57 + 2 * k)
  return (f64.value x.toNat, f64.value y.toNat)

def execScvt (d a : Opnd) (k : BitVec 2) (x : BitVec 1) (f : BitVec 4) (s : State) : Host.Outcome State Fault Refusal :=
  .next (issue (.scvt d a k x f) (fun b s => do
    need (scvtDst f.toNat)
    let src := if x == 1 then 9 else 10
    let lanes ← s.lanesOf b
    let v ← s.lanesSrc b src a
    let (sc, cl) ← b.scaleRegs k.toNat
    let key := s.srKey b
    let t ← s.floatDst b f.toNat d lanes false false fun i =>
      let (y, fl) := readNum (if x == 1 then bf16 else f32) b.ftz (v i)
      let (z, g) := scaleClip y sc cl
      scvtTo f.toNat (roundOf b.rnd key i 0) b.sat b.ftz (z, g ||| fl)
    return .next (t.countSr b b.rnd)) s)

end Sys2Proof.Machine
end

