-- ==== Sys2Proof/Machine/LocalStore.lean ====
section
/-! DEFINITION. Typed-space loads and stores (R200), the template region (R164, R202) and mirror stores (R82, R203). -/

namespace Sys2Proof.Machine

/-- R200: the vector form moves 4 raw bytes a lane, the scalar form 8. -/
def spaceWidth (vector : Bool) : Nat := if vector then 4 else 8

/-- A constant stores vectorially; a register by its kind (R195). -/
def storeVector (d : Opnd) : Bool :=
  match d with
  | .s _ | .a _ => false
  | _ => true

/-- R200: an offset at or beyond the window's end, or in the overlay pool (R164). -/
def State.badOffset (s : State) (wg : Workgroup) (space : Space) (w : Nat) (a : W64) : Bool :=
  let t := (s.lsView wg).treg
  decide (s.spaceSize wg space < a.toNat + w) ||
    (space == .sp && decide (t < a.toNat + w) && decide (a.toNat < 2 * t))

def State.checkOffsets (s : State) (wg : Workgroup) (space : Space) (w : Nat) (ls : List (Nat × W64)) : Try Unit :=
  illegalLanes ((ls.filter fun x => s.badOffset wg space w x.2).map Prod.fst)

/-- The workgroup of a band. -/
def State.wgOf (s : State) (b : Band) : Try Workgroup :=
  match s.wg? b.wg with
  | some w => .ok w
  | none => illegalOperand

/-- The value of a load for a destination: raw lanes or 8 bytes. -/
def localValue (vector : Bool) (lanes : W32) (xs : List (Nat × Nat)) : ArithVal :=
  if vector then .vec (VReg.ofFn fun i => match xs.find? fun x => x.1 == i with | some x => BitVec.ofNat 32 x.2 | none => 0) VReg.zero lanes
  else .scalar (BitVec.ofNat 64 (((xs.head?).map Prod.snd).getD 0))

/-- A typed-space load, performed as it issues: the band's earlier accesses are performed before it (R129). -/
def spaceLoad (space : Space) (d : Opnd) (m : MemRef) (b : Band) (s : State) : Try Fin' := do
  let vector := isVectorOpnd d
  let w := spaceWidth vector
  let l ← s.lanesOf b
  b.indexReady m
  let ea ← s.effective b m (if vector then 128 else 8)
  let ls := b.memLanes m ea w vector l
  if ls.isEmpty then return .next (s.updateA b m ea)
  b.flagReady false
  checkAlign w ls
  let wg ← s.wgOf b
  s.checkOffsets wg space w ls
  s.checkLocks b space wg.slot false w ls
  holdUnless (s.accessesDone b)
  let (dest, await) ← s.loadDest b d false (if vector then l else 1)
  let t := if b.template || space != .sp then 0 else (s.lsView wg).treg
  let xs := ls.map fun (i, a) => (i, if space == .sp then s.readSp wg b t a.toNat w else s.readSpace wg space a.toNat w)
  return .next ((await (s.startOp b false (.localLoad dest (localValue vector l xs)))).updateA b m ea)

def execLdl (d : Opnd) (mem : MemRef) (s : State) : Host.Outcome State Fault Refusal :=
  .next (issue (.ldl d mem) (spaceLoad .sp d mem) s)
def execLda (d : Opnd) (mem : MemRef) (s : State) : Host.Outcome State Fault Refusal :=
  .next (issue (.lda d mem) (spaceLoad .ab d mem) s)
def execLdw (d : Opnd) (mem : MemRef) (s : State) : Host.Outcome State Fault Refusal :=
  .next (issue (.ldw d mem) (spaceLoad .wb d mem) s)

/-- R200: the data of a typed-space store. -/
def State.rawData (s : State) (b : Band) (d : Opnd) : Try (Nat → Nat) :=
  match d with
  | .s n => do
    let x ← b.readS n.val
    return fun _ => x.toNat
  | .a n => do
    let x ← s.readA b n.val
    return fun _ => x.toNat
  | .v n => do
    let x ← b.readV n.val
    return fun i => (x.lane i).toNat
  | .o n => do
    let x ← s.readO b n.val
    return fun i => (x.lane i).toNat
  | .lat => do
    let x ← b.readLat
    return fun i => (x.lane i).toNat
  | .lit w => .ok fun _ => w.toNat
  | .zero => .ok fun _ => 0
  | .int c => do
    let x ← constBits 2 (.int c)
    return fun _ => x
  | .flt c => do
    let x ← constBits 10 (.flt c)
    return fun _ => x
  | _ => illegalOperand

/-- R164: the item's overlay lines that a store needs, taken as free; the lane that finds none is named. -/
def takeOverlays (band treg : Nat) : List (Nat × W64) → Workgroup → Except (Nat × W64) (Workgroup × List (Nat × Nat))
  | [], w => .ok (w, [])
  | x :: rest, w =>
    let line := x.2.toNat / 128
    if treg ≤ x.2.toNat || w.overlays.any (fun v => v.band == band && v.line == line) then takeOverlays band treg rest w
    else
      match (List.range (treg / 128)).find? fun k => !(w.overlays.any fun v => v.slot == k) with
      | none => .error x
      | some k =>
        match takeOverlays band treg rest { w with overlays := w.overlays ++ [⟨band, line, k⟩] } with
        | .error e => .error e
        | .ok (w', ls) => .ok (w', (line, k) :: ls)

/-- A region line, as the band sees it, copied into its overlay line. -/
def State.copyLine (s : State) (w : Workgroup) (b : Band) (treg : Nat) (x : Nat × Nat) : State :=
  s.writeSpace w .sp (treg + 128 * x.2) ((List.range 128).map fun i => s.spByte w b treg (128 * x.1 + i))

def laneBytes (w x : Nat) : List Byte := (List.range w).map (byteOf x)

/-- Stores of the lanes, ascending, at the offsets a band sees. -/
def State.storeLanes (s : State) (w : Workgroup) (space : Space) (band treg width : Nat) (data : Nat → Nat) (ls : List (Nat × W64)) : State :=
  ls.foldl (fun s (i, a) =>
    (laneBytes width (data i)).zipIdx.foldl (fun s (x, j) =>
      s.setLs (s.spaceKey w space (if space == .sp then w.overlaid band treg (a.toNat + j) else a.toNat + j)) x) s) s

/-- A typed-space store, performed as it issues, after the band's earlier accesses (R129): it counts on its flag, where it may wait (R139),
and counts off in the same step (R112, R170); `region` is STT, whose lanes must lie in the
template region. -/
def spaceStore (space : Space) (region : Bool) (d : Opnd) (m : MemRef) (b : Band) (s : State) : Try Fin' := do
  let vector := storeVector d
  let w := spaceWidth vector
  let data ← s.rawData b d
  let l ← s.lanesOf b
  b.indexReady m
  let ea ← s.effective b m (if vector then 128 else 8)
  let wg ← s.wgOf b
  let v := s.lsView wg
  let ls := b.memLanes m ea w vector l
  if ls.isEmpty then return .next (s.updateA b m ea)
  if region && (match s.bandLaunch b with | some x => x.lr.frz == 15 | none => true) then illegalState
  b.flagReady false
  checkAlign w ls
  if region then
    illegalLanes ((ls.filter fun x => decide (v.treg < x.2.toNat + w)).map Prod.fst)
  else s.checkOffsets wg space w ls
  s.checkLocks b space wg.slot true w ls
  holdUnless (s.accessesDone b)
  let treg := if b.template || space != .sp then 0 else v.treg
  match takeOverlays b.uid treg ls wg with
  | .error (i, a) => .error (.trap tOverlay i a 0)
  | .ok (wg', lines) =>
    let t := (lines.foldl (fun s x => s.copyLine wg b treg x) s).setWg wg'
    return .next ((t.storeLanes wg' space b.uid treg w data ls).updateA b m ea)

def execStl (d : Opnd) (mem : MemRef) (s : State) : Host.Outcome State Fault Refusal :=
  .next (issue (.stl d mem) (spaceStore .sp false d mem) s)
def execSta (d : Opnd) (mem : MemRef) (s : State) : Host.Outcome State Fault Refusal :=
  .next (issue (.sta d mem) (spaceStore .ab false d mem) s)
def execStw (d : Opnd) (mem : MemRef) (s : State) : Host.Outcome State Fault Refusal :=
  .next (issue (.stw d mem) (spaceStore .wb false d mem) s)
def execStt (d : Opnd) (mem : MemRef) (s : State) : Host.Outcome State Fault Refusal :=
  .next (issue (.stt d mem) (spaceStore .sp true d mem) s)

/-! ## STM (R82, R203) -/

/-- Product of the counts of the levels whose domain code lies above `lo` and at most `hi`. -/
def Launch.countsIn (l : Launch) (lo hi : Nat) : Nat :=
  ((l.lr.levels.filter fun v => decide (lo < v.dom) && decide (v.dom ≤ hi)).map Level.count).foldl (· * ·) 1

/-- The superstep domain instance of a workgroup (R81): its instances of every level whose domain is MDOM's or wider. A template's
workgroup stands alone, and so do the runs of a launch (R382). -/
def Launch.domInst (l : Launch) (w : Workgroup) : Nat :=
  w.run * 2 ^ 41 + if w.template then 2 ^ 40 + w.idx else w.idx / l.countsIn (if l.lr.mdom then 3 else 4) 5

/-- Resident workgroups of a domain instance. -/
def State.instWgs (s : State) (launch inst : Nat) : List Workgroup :=
  match s.launch? launch with
  | some l => s.wgs.filter fun w => w.launch == launch && w.resident && l.domInst w == inst
  | none => []

/-- The workgroup that an STM of `w` reaches, if it is one it may reach. -/
def State.stmTarget (s : State) (w : Workgroup) (core slot : Nat) : Option Workgroup :=
  match s.launch? w.launch with
  | some l => (s.instWgs w.launch (l.domInst w)).find? fun x => x.core == core && x.slot == slot
  | none => none

/-- The packed target of STM: offset, core, slot. -/
def stmOff (a : W64) : Nat := a.toNat % 2 ^ 32

def stmBody (d : Opnd) (m : MemRef) (b : Band) (s : State) : Try Fin' := do
  let vector := storeVector d
  let w := spaceWidth vector
  let data ← s.rawData b d
  let l ← s.lanesOf b
  let ea ← s.effective b m (if vector then 128 else 8)
  if l = 0 then return .next (s.updateA b m ea)
  b.flagReady false
  let wg ← s.wgOf b
  let v := s.lsView wg
  if !v.mirr then illegalState
  let half := s.window wg.core v.carve .sp / 2
  let offs := if vector then (laneList l).map fun i => (i, stmOff ea.e + 4 * i) else [(0, stmOff ea.e)]
  if ea.e.toNat / 2 ^ 42 ≠ 0 then illegalOperand
  illegalLanes ((offs.filter fun x => decide (half ≤ x.2)).map Prod.fst)
  match offs.find? fun x => x.2 % w != 0 with
  | some (i, _) => .error (.trap tMisalign i (ea.e + BitVec.ofNat 64 (if vector then 4 * i else 0)) 0)
  | none => do
    let core := fld ea.e 39 32
    let slot := fld ea.e 41 40
    let cells := (offs.map fun x => (laneBytes w (data x.1)).zipIdx.map fun (y, j) => (x.2 + j, y)).flatten
    match s.stmTarget wg core slot with
    | none => return .next ((s.sumBit b.launch mirrorFaultBit).updateA b m ea)
    | some _ => return .next ((s.startOp b false (.stm core slot cells)).updateA b m ea)

def execStm (d : Opnd) (mem : MemRef) (s : State) : Host.Outcome State Fault Refusal :=
  .next (issue (.stm d mem) (stmBody d mem) s)

/-- R82, R119: no STM of the band waits that was issued earlier to the same atom, and no earlier acquire. -/
def State.stmFree (s : State) (o : Op) (core slot atom : Nat) : Bool :=
  s.ops.all fun e => !(e.band == o.band && decide (e.uid < o.uid) &&
    match e.kind with
    | .stm c w cells => c == core && w == slot && cells.any fun x => x.1 / 32 == atom
    | k => match k.access? with | some y => y.undone && s.acquires e y | none => false)

/-- STM_PERFORMED: the bytes of one atom of the store are made at the target's back half; a target that is no longer one is dropped and
reported. -/
def stmPerformed (u atom : Nat) (s : State) : State :=
  match s.op? u with
  | none => s
  | some o =>
    match o.kind with
    | .stm core slot cells =>
      let here := cells.filter fun x => x.1 / 32 == atom
      let rest := cells.filter fun x => x.1 / 32 != atom
      if here.isEmpty || !s.stmFree o core slot atom then s
      else
        match (s.wg? o.wg).bind fun w => s.stmTarget w core slot with
        | some t =>
          let s := here.foldl (fun s x => s.setLs (s.backKey t x.1) x.2) s
          if rest.isEmpty then s.endOp o else s.setOp { o with kind := .stm core slot rest }
        | none => (s.endOp o).sumBit o.launch mirrorFaultBit
    | _ => s

def execStmPerformed (at_ : StmAtom) (s : State) : Host.Outcome State Fault Refusal := .next (stmPerformed at_.op at_.atom s)

end Sys2Proof.Machine
end

