-- ==== Sys2Proof/Machine/Sync.lean ====
section
/-! DEFINITION. Fences (R126, R127, R210, R211), ownership tokens (R84 to R87, R212, R213), monitors (R214, R215), barriers (R281),
the superstep barrier (R83, R282) and TLB invalidation (R62, R316). -/

namespace Sys2Proof.Machine

/-! ## Fences -/

/-- Whether a lane of an access that touches a virtual range is still to be performed; lanes wholly outside pass (R118, R127). -/
def Access.pendingIn (x : Access) (lo hi : Nat) : Bool :=
  x.lanes.any fun l => decide (l.va.toNat < hi) && decide (lo < l.va.toNat + x.width) &&
    l.pas.any fun pa => x.atoms.any fun a => !a.done && a.pa == pa / 32 * 32 && a.mask.getLsbD (pa % 32)

/-- R127: no earlier access of the band in a range waits to be performed. -/
def State.rangeDone (s : State) (b : Band) (lo hi : Nat) : Bool :=
  s.ops.all fun o => !(o.band == b.uid && match o.kind.access? with | some x => x.pendingIn lo hi | none => false)

/-- R73: an acquire of a band at a scope. -/
def State.acquireAt (s : State) (b : Band) (scope : Nat) : State := if 2 ≤ scope then s.invalidateL1 b.place.core else s

/-- R126: the band issues nothing further until its earlier accesses are performed, reads among them, so that every later access follows
them and meets an L1 that was invalidated after them. -/
def fenceBody (b : Band) (s : State) : Try Fin' := do
  holdUnless (s.accessesDone b)
  return .next (s.acquireAt b b.scope.toNat)

def execFence (s : State) : Host.Outcome State Fault Refusal := .next (issue .fence fenceBody s)

/-- R127 permits every clean line outside held regions to go, and that is what FENCEA invalidates. -/
def fenceaBody (a l : Opnd) (b : Band) (s : State) : Try Fin' := do
  let base ← s.scalarSrc b false a
  let len ← s.scalarSrc b false l
  if 2 ^ 57 ≤ base.toNat ∨ 2 ^ 57 < base.toNat + len.toNat then illegalOperand
  if len = 0 then return .next s
  holdUnless (s.rangeDone b base.toNat (base.toNat + len.toNat))
  return .next (s.acquireAt b b.scope.toNat)

def execFencea (a l : Opnd) (s : State) : Host.Outcome State Fault Refusal := .next (issue (.fencea a l) (fenceaBody a l) s)

/-! ## Status destinations -/

/-- A status goes to an s register, or nowhere. -/
def State.statusDst (s : State) (b : Band) (d : Opnd) (x : W64) : Try State :=
  match d with
  | .s n => s.writeS b n.val x
  | .zero => .ok s
  | _ => illegalOperand

/-- A band is held at its word with a wait registered. -/
def State.holdAt (s : State) (b : Band) (w : Wait) : State := s.modBand b.uid fun c => { c with wait := some w, held := true }

/-- A wait of a band ends with a status. -/
def Band.endWait (st : W64) (b : Band) : Band := { b with wait := some (.done st), held := false }

/-- The deadline of a wait of `n` units of 1,024 cycles, or of the time a withdrawn wait has left (R266, R338). -/
def Band.deadline (b : Band) (cycle n : Nat) : Nat := cycle + b.timeLeft.join.getD (1024 * n)

/-! ## Tokens -/

def Token.overlaps (t : Token) (pbase len : Nat) : Bool := decide (t.pbase < pbase + len) && decide (pbase < t.pbase + t.len)

/-- What an ACQRG meets in the table of its core's die (R85): none when it may acquire. -/
inductive TokenState where
  | mine
  | overlap
  | other
  | full
  | free
  deriving DecidableEq, Repr

def State.tokenState (s : State) (core pbase len : Nat) : TokenState :=
  let table := s.tokens.filter fun t => dieOf t.core == dieOf core
  if table.any fun t => t.core == core && t.pbase == pbase && t.len == len then .mine
  else if table.any fun t => t.core == core && t.overlaps pbase len then .overlap
  else if table.any fun t => t.core != core && t.overlaps pbase len then .other
  else if 4096 ≤ table.length then .full
  else .free

/-- R85: the region is the core's; its lines leave the L1, and the acquire at scope die drops the clean ones (R73). -/
def State.takeToken (s : State) (core slot pbase len : Nat) : State :=
  (({ s with tokens := s.tokens ++ [⟨core, slot, pbase, len⟩] } : State).dropRegion core pbase len).invalidateL1 core

/-- The status of an ACQRG that need not wait, and what it leaves. -/
def State.tryToken (s : State) (core slot pbase len : Nat) : Option (W64 × State) :=
  match s.tokenState core pbase len with
  | .mine => some (1, s.invalidateL1 core)
  | .overlap => some (3, s)
  | .free => some (0, s.takeToken core slot pbase len)
  | _ => none

/-- The status of one that may not wait, or whose time is up (R85): by the table as it stands then, another holder before a full table
(DESIGN CHOICE, log 36). -/
def State.tokenTimeout (s : State) (core pbase len : Nat) : W64 := if s.tokenState core pbase len == .full then 4 else 2

/-- Bands at ACQRG, the lowest-numbered core first (R85). -/
def insertByCore (b : Band) : List Band → List Band
  | [] => [b]
  | x :: t => if b.place.core < x.place.core then b :: x :: t else x :: insertByCore b t

/-- Waiting ACQRGs are served once an entry is free, those of parked bands too; one whose time is up is not (R85, R166). -/
def State.wakeTokens (s : State) : State :=
  let ws := (s.bands.filter fun b => match b.wait with | some (.acqrg _ _ dl) => decide (s.cycle ≤ dl) | _ => false).foldl
    (fun l b => insertByCore b l) []
  ws.foldl (fun s b =>
    match b.wait with
    | some (.acqrg p n _) =>
      match s.tryToken b.place.core (match s.wg? b.wg with | some w => w.slot | none => 0) p n with
      | some (st, t) => t.modBand b.uid (Band.endWait st)
      | none => s
    | _ => s) s

/-- R85, R212: a range leaves the page of its first byte; where there is no page, none is left. -/
def State.crossesPage (s : State) (c : Ctx) (base : W64) (n : Nat) : Bool :=
  if 2 ^ 57 ≤ base.toNat then false
  else
    match s.leafFor c base.toNat with
    | .ok (pte, _) => decide (2 ^ (12 + pteSize pte) < base.toNat % 2 ^ (12 + pteSize pte) + n)
    | .error _ => false

/-- R212, R213: the region that the operands name, as 64 KiB units of the physical space. -/
def State.regionOf (s : State) (b : Band) (a : Opnd) (desc : W64) : Try (Nat × Nat) := do
  let base ← s.scalarSrc b false a
  let len := fld desc 11 0
  if len = 0 ∨ 2048 < len ∨ fld desc 31 12 ≠ 0 ∨ base.toNat % 65536 ≠ 0 then illegalOperand
  let c := s.bandCtx b
  s.walkFirst c .store 1 [(0, base)]
  if s.crossesPage c base (len * 65536) then illegalOperand
  match s.translate c .store base with
  | .error f => .error (.trap f.kind.trapCode 0 base (f.s27 .store))
  | .ok t => return (t.pa / 65536, len)

def acqrgBody (d a e : Opnd) (b : Band) (s : State) : Try Fin' := do
  match b.wait with
  | some (.done st) => return .next (← s.statusDst b d st)
  | _ => do
    let desc ← s.scalarSrc b false e
    let (p, n) ← s.regionOf b a desc
    b.flagReady false
    let slot := match s.wg? b.wg with | some w => w.slot | none => 0
    match s.tryToken b.place.core slot p n with
    | some (st, t) => return .next (← t.statusDst b d st)
    | none =>
      if fld desc 63 32 = 0 then return .next (← s.statusDst b d (s.tokenTimeout b.place.core p n))
      else return .waiting (s.holdAt b (.acqrg p n (b.deadline s.cycle (fld desc 63 32))))

def execAcqrg (d a e : Opnd) (s : State) : Host.Outcome State Fault Refusal := .next (issue (.acqrg d a e) (acqrgBody d a e) s)

/-- R85, R336: the timeout of a band's ACQRG; an acquisition that is possible in the cycle wins. -/
def acqrgTimeout (p : Place) (s : State) : State :=
  match s.bandAt p with
  | some b =>
    match b.wait with
    | some (.acqrg q n dl) =>
      if dl ≤ s.cycle then
        let s := s.wakeTokens
        s.modBand b.uid fun c => match c.wait with
          | some (.acqrg _ _ _) => c.endWait (s.tokenTimeout b.place.core q n)
          | _ => c
      else s
    | _ => s
  | none => s

def execAcqrgTimeout (p : Place) (s : State) : Host.Outcome State Fault Refusal := .next (acqrgTimeout p s)

def State.holdsToken (s : State) (core pbase len : Nat) : Bool := s.tokens.any fun t => t.core == core && t.pbase == pbase && t.len == len

/-- R86: a region's dirty bytes are written back, its lines invalidated, its entry freed, and a waiting ACQRG served. -/
def State.freeToken (s : State) (core pbase len : Nat) : State :=
  let s := s.releaseRegion core pbase len
  ({ s with tokens := s.tokens.filter fun t => !(t.core == core && t.pbase == pbase && t.len == len) }).wakeTokens

/-- R87: every entry of a workgroup's slot is released. -/
def State.freeTokensOf (s : State) (core slot : Nat) : State :=
  (s.tokens.filter fun t => t.core == core && t.slot == slot).foldl (fun s t => s.freeToken t.core t.pbase t.len) s

def relrgBody (d a e : Opnd) (b : Band) (s : State) : Try Fin' := do
  let desc ← s.scalarSrc b false e
  let (p, n) ← s.regionOf b a desc
  b.flagReady false
  if s.holdsToken b.place.core p n then
    match d with
    | .s k => do
      s.alloc b 0 1
      return .next ((s.startOp b false (.relrg b.place.core p n .tagS)).awaitS b k.val s.nextUid 0)
    | _ => return .next (s.startOp b false (.relrg b.place.core p n .none))
  else return .next (← s.statusDst b d 5)

def execRelrg (d a e : Opnd) (s : State) : Host.Outcome State Fault Refusal := .next (issue (.relrg d a e) (relrgBody d a e) s)

/-- Whether accesses of a band numbered below an operation are performed. -/
def State.doneBelow (s : State) (band uid : Nat) : Bool :=
  s.ops.all fun o => !(o.band == band && decide (o.uid < uid) && o.kind.pending)

def relrgComplete (u : Nat) (s : State) : State :=
  match s.op? u with
  | none => s
  | some o =>
    match o.kind with
    | .relrg core p n d =>
      if !s.doneBelow o.band o.uid then s
      else if s.holdsToken core p n then ((s.freeToken core p n).landDest o d (.scalar 0)).endOp o
      else (s.landDest o d (.scalar 5)).endOp o
    | _ => s

def execRelrgComplete (op : Nat) (s : State) : Host.Outcome State Fault Refusal := .next (relrgComplete op s)

/-! ## Monitors -/

/-- R214: monitors held by the bands of a core, pre-empted ones among them (R216). -/
def State.monitorsOf (s : State) (core : Nat) : Nat :=
  let bs := s.bands ++ (s.wgs.map Workgroup.saved).flatten
  ((bs.filter fun b => b.place.core == core).map fun b => b.monitors.length).sum

def Band.monitor? (b : Band) (k : Nat) : Option Monitor := b.monitors.find? fun m => m.k == k

def monarmBody (k : Nat) (m : MemRef) (b : Band) (s : State) : Try Fin' := do
  let ea ← s.effective b m 8
  b.flagReady false
  checkAlign 8 [(0, ea.e)]
  let c := s.bandCtx b
  s.walkFirst c .load 8 [(0, ea.e)]
  let ts ← s.translateLanes c .load true 8 [(0, ea.e)]
  if (b.monitor? k).isNone && decide (64 ≤ s.monitorsOf b.place.core) then .error (.wait .entry)
  else
    let pa := (ts.map fun l => ((l.bytes.map Prod.fst).headD 0)).headD 0
    let t := s.modBand b.uid fun c => { c with monitors := (c.monitors.filter fun x => x.k != k) ++ [⟨k, pa⟩] }
    return .next (t.updateA b m ea)

def execMonarm (k : BitVec 2) (mem : MemRef) (s : State) : Host.Outcome State Fault Refusal :=
  .next (issue (.monarm k mem) (monarmBody k.toNat mem) s)

/-- A MONWAIT ends: the monitor is disarmed, a line of its core holds nothing older than what it read (R120), and with status 0 the band
acquires (R133), of a record of completion at scope system (R134). -/
def State.monEnd (s : State) (b : Band) (k : Nat) (d : Opnd) (st : W64) : Try State := do
  let s := match b.monitor? k with
    | some m => if s.readOut (s.monPa b m / 32 * 32) != ReadOut.ok then s else s.l1Update b.place.core (s.monPa b m) (~~~ 0#32) (s.atom (s.monPa b m / 32 * 32))
    | none => s
  let t := s.modBand b.uid fun c => { c with monitors := c.monitors.filter fun x => x.k != k }
  let t := if st = 0 then t.acquireAt b (if (b.monitor? k).any fun m => s.isRecord (s.monPa b m) then 5 else b.scope.toNat) else t
  t.statusDst b d st

def monwaitBody (d : Opnd) (k : Nat) (e : Opnd) (b : Band) (s : State) : Try Fin' := do
  match e with
  | .s n => do
    match b.wait with
    | some (.done st) => return .next (← s.monEnd b k d st)
    | _ => do
      let x ← b.readS n.val
      let ctl ← b.readS (n.val + 1)
      if 3 < fld ctl 63 60 ∨ fld ctl 59 32 ≠ 0 then illegalOperand
      match b.monitor? k with
      | none => illegalState
      | some mon => do
        let pa := s.monPa b mon
        holdUnless (s.readNow b false [pa])
        match s.readOut (pa / 32 * 32) with
        | .bad => return .waiting ((s.consume b (pa / 32 * 32) .memUncorrectable).stopAt b.uid)
        | .tag => return .waiting ((s.consume b (pa / 32 * 32) .integrity).stopAt b.uid)
        | .ok =>
        let s := s.scrub (pa / 32 * 32)
        if condMet (fld ctl 63 60) (s.word pa) x then return .next (← s.monEnd b k d 0)
        if fld ctl 31 0 = 0 then return .next (← s.monEnd b k d 1)
        return .waiting (s.holdAt b (.monitor k (fld ctl 63 60) x (b.deadline s.cycle (fld ctl 31 0))))
  | _ => illegalOperand

def execMonwait (d : Opnd) (k : BitVec 2) (e : Opnd) (s : State) : Host.Outcome State Fault Refusal :=
  .next (issue (.monwait d k e) (monwaitBody d k.toNat e) s)

/-- R215, R336: the timeout of a MONWAIT; a word that meets its condition wins, but for a parked band, which reports status 1 (R216). -/
def monwaitTimeout (p : Place) (s : State) : State :=
  match s.bandAt p with
  | some b =>
    match b.wait with
    | some (.monitor k cond e dl) =>
      if dl ≤ s.cycle then
        let met := !b.parked && match b.monitor? k with | some m => condMet cond (s.word (s.monPa b m)) e | none => false
        s.modBand b.uid (Band.endWait (if met then 0 else 1))
      else s
    | _ => s
  | none => s

def execMonwaitTimeout (p : Place) (s : State) : Host.Outcome State Fault Refusal := .next (monwaitTimeout p s)

/-! ## Barriers (R281) -/

/-- Bands of a workgroup that have not exited. -/
def State.wgBands (s : State) (wg : Nat) : List Band := s.bands.filter fun b => b.wg == wg

def Workgroup.bar? (w : Workgroup) (b : Nat) : Option BarInst := w.bars.find? fun x => x.b == b
def Workgroup.dropBar (w : Workgroup) (b : Nat) : Workgroup := { w with bars := w.bars.filter fun x => x.b != b }
def Workgroup.setBar (w : Workgroup) (x : BarInst) : Workgroup := { w.dropBar x.b with bars := (w.dropBar x.b).bars ++ [x] }

/-- Bands of a workgroup waiting at barrier b are released with a status. -/
def State.releaseBar (s : State) (wg b : Nat) (st : W64) : State :=
  let s := s.modWg wg fun w => w.dropBar b
  { s with bands := s.bands.map fun x => if x.wg == wg && x.wait == some (.bar b) then x.endWait st else x }

/-- The instance of barrier b with one more arrival: the first sets the deadline (R281). -/
def Workgroup.arrive (w : Workgroup) (b pos : Nat) (deadline : Option Nat) : BarInst :=
  match w.bar? b with
  | some x => { x with arrived := insertAsc x.arrived pos }
  | none => ⟨b, deadline, [pos]⟩

/-- The deadline of BAR and SWAPH: `n` units of 1,024 cycles from now, none for 0; a withdrawn wait keeps what it had left (R266). -/
def Band.barDeadline (b : Band) (cycle n : Nat) : Option Nat :=
  match b.timeLeft with
  | some left => left.map (cycle + ·)
  | none => if n = 0 then none else some (cycle + 1024 * n)

def State.barTimeoutOf (s : State) (b : Band) (a : Opnd) : Try (Option Nat) := do
  return b.barDeadline s.cycle (fld (← s.scalarSrc b false a) 31 0)

/-- The deadline has passed: an arrival or an exit now comes too late (R281). -/
def BarInst.late (x : BarInst) (cycle : Nat) : Bool := match x.deadline with | some d => decide (d < cycle) | none => false

/-- R281: an instance whose deadline has passed has ended, its waiting bands with status 1. -/
def State.endLateBar (s : State) (wg k : Nat) : State :=
  match (s.wg? wg).bind fun w => w.bar? k with
  | some x => if x.late s.cycle then s.releaseBar wg k 1 else s
  | none => s

def barBody (d a : Opnd) (k : Nat) (b : Band) (s : State) : Try Fin' := do
  match b.wait with
  | some (.done st) => return .next (← s.statusDst b d st)
  | _ => do
    let dl ← s.barTimeoutOf b a
    holdUnless (s.accessesDone b)
    let s := s.endLateBar b.wg k
    let w ← s.wgOf b
    let inst := w.arrive k b.pos dl
    if (s.wgBands w.uid).all fun x => inst.arrived.contains x.pos then return .next (← (s.releaseBar w.uid k 0).statusDst b d 0)
    else return .waiting ((s.setWg (w.setBar inst)).holdAt b (.bar k))

def execBar (d a : Opnd) (b : BitVec 2) (s : State) : Host.Outcome State Fault Refusal :=
  .next (issue (.bar d a b) (barBody d a b.toNat) s)

/-- R281: the deadline of an instance passes; an instance that is complete completes. -/
def barTimeout (wg k : Nat) (s : State) : State :=
  match (s.wg? wg).bind fun w => w.bar? k with
  | some ⟨_, some dl, _⟩ => if dl ≤ s.cycle then s.releaseBar wg k 1 else s
  | _ => s

def execBarTimeout (wg bar : Nat) (s : State) : Host.Outcome State Fault Refusal := .next (barTimeout wg bar s)

/-- R281: an exit that leaves every remaining participant arrived completes the instance, unless its deadline has passed. -/
def State.barsAfterExit (s : State) (wg : Nat) : State :=
  match s.wg? wg with
  | none => s
  | some w => w.bars.foldl (fun s x =>
      if x.b < 4 && (s.wgBands wg).all (fun y => x.arrived.contains y.pos) then s.releaseBar wg x.b (if x.late s.cycle then 1 else 0) else s) s

/-! ## The superstep barrier (R83, R282) -/

/-- The number under which the superstep barrier's deadline stands in a workgroup. -/
def swapBar : Nat := 4

def State.instBands (s : State) (launch inst : Nat) : List Band :=
  ((s.instWgs launch inst).map fun w => s.wgBands w.uid).flatten

/-- The instance's deadline, once some band has arrived. -/
def State.swapDeadline (s : State) (launch inst : Nat) : Option (Option Nat) :=
  (s.instWgs launch inst).findSome? fun w => (w.bar? swapBar).map BarInst.deadline

/-- The superstep barrier of an instance ends with a status. -/
def State.releaseSwap (s : State) (launch inst : Nat) (st : W64) : State :=
  let ws := (s.instWgs launch inst).map Workgroup.uid
  { s with
    wgs := s.wgs.map fun w => if ws.contains w.uid then w.dropBar swapBar else w
    bands := s.bands.map fun x => if ws.contains x.wg && x.wait == some .swaph then x.endWait st else x }

/-- Every band of the instance waits at SWAPH, and none is still to be stamped: a band that has exited takes no part, so an exit may complete
the superstep (DESIGN CHOICE, log 36). -/
def State.allSwapped (s : State) (launch inst : Nat) : Bool :=
  (s.instWgs launch inst).all Workgroup.stamped && !(s.instBands launch inst).isEmpty && (s.instBands launch inst).all fun b => b.wait == some .swaph

/-- R282: an instance whose deadline has passed before its last arrival has ended, its waiting bands with status 1. -/
def State.endLateSwap (s : State) (launch inst : Nat) : State :=
  match s.swapDeadline launch inst with
  | some (some dl) => if dl < s.cycle && !s.allSwapped launch inst then s.releaseSwap launch inst 1 else s
  | _ => s

/-- R83, R134: no earlier access of the band to memory waits to be performed; its STMs may, which the swap waits for. -/
def State.memoryDone (s : State) (b : Band) : Bool := s.ops.all fun o => !(o.band == b.uid && o.kind.access?.any Access.undone)

def swaphBody (d a : Opnd) (b : Band) (s : State) : Try Fin' := do
  let w ← s.wgOf b
  match s.bandLaunch b with
  | none => illegalState
  | some l => do
    if !l.lr.mirr then illegalState
    match b.wait with
    | some (.done st) => return .next (← s.statusDst b d st)
    | _ => do
      let dl ← s.barTimeoutOf b a
      holdUnless (s.memoryDone b)
      let s := s.endLateSwap b.launch (l.domInst w)
      let w ← s.wgOf b
      let dl := (s.swapDeadline b.launch (l.domInst w)).getD dl
      return .waiting ((s.setWg (w.setBar (w.arrive swapBar b.pos dl))).holdAt b .swaph)

def execSwaph (d a : Opnd) (s : State) : Host.Outcome State Fault Refusal := .next (issue (.swaph d a) (swaphBody d a) s)

/-- No STM of the instance's workgroups is in flight. -/
def State.stmsDone (s : State) (launch inst : Nat) : Bool :=
  let ws := (s.instWgs launch inst).map Workgroup.uid
  s.ops.all fun o => !(ws.contains o.wg && match o.kind with | .stm _ _ _ => true | _ => false)

/-- R83: after the last arrival and the STMs, H is inverted in every participating workgroup and all are released. -/
def swaphSwap (launch inst : Nat) (s : State) : State :=
  if s.allSwapped launch inst && s.stmsDone launch inst then
    let ws := s.instWgs launch inst
    let s : State := { s with wgs := s.wgs.map fun (w : Workgroup) => if ws.any (fun x => x.uid == w.uid) then { w with half := !w.half } else w }
    ws.foldl (fun s w => s.invalidateL1 w.core) (s.releaseSwap launch inst 0)
  else s

def execSwaphSwap (launch inst : Nat) (s : State) : Host.Outcome State Fault Refusal := .next (swaphSwap launch inst s)

/-- R83: the timeout expires before the last arrival. -/
def swaphTimeout (launch inst : Nat) (s : State) : State :=
  match s.swapDeadline launch inst with
  | some (some dl) => if dl ≤ s.cycle && !s.allSwapped launch inst then s.releaseSwap launch inst 1 else s
  | _ => s

def execSwaphTimeout (launch inst : Nat) (s : State) : Host.Outcome State Fault Refusal := .next (swaphTimeout launch inst s)

/-! ## TLBI (R62) -/

/-- R62: the structures that DOM reaches from a core. -/
def tlbReached (dom core : Nat) (a : Agent) : Bool :=
  match agentCore? a with
  | none => dom == 3
  | some c => match dom with
    | 0 => c == core
    | 1 => c / 4 == core / 4
    | 2 => dieOf c == dieOf core
    | _ => true

/-- R62: whether a descriptor matches what serves `size` bytes at `vbase` of a root and world; a non-secure TLBI acts on non-secure
entries only. -/
def tlbMatch (desc : W64) (secure world : Bool) (root vbase size : Nat) : Bool :=
  let w := secure && desc.getLsbD 59
  let n := 2 ^ (12 + fld desc 48 45)
  let base := fld desc 44 0 * 4096 / n * n
  match fld desc 61 60 with
  | 0 => world == w && root == fld desc 57 52 && decide (base < vbase + size) && decide (vbase < base + n)
  | 1 => world == w && root == fld desc 57 52
  | 2 => world == w
  | _ => secure || !world

def TlbEntry.goes (desc : W64) (secure : Bool) (core : Nat) (e : TlbEntry) : Bool :=
  tlbReached (fld desc 63 62) core e.agent && tlbMatch desc secure e.world e.root e.vbase (2 ^ (12 + e.k))

/-- The walk caches of the dies reached lose what matches. -/
def WalkEntry.goes (desc : W64) (secure : Bool) (core : Nat) (e : WalkEntry) : Bool :=
  (fld desc 63 62 == 3 || e.die == dieOf core)
    && tlbMatch desc secure e.world e.root (e.tag * 2 ^ levelShift e.level) (2 ^ levelShift e.level)

/-- The frame that an entry maps, with its bytes. -/
def TlbEntry.frame (e : TlbEntry) : Option (Nat × Nat) :=
  match e.bind with
  | some b => b.cur.map fun c => (c.1, 2 ^ (12 + e.k))
  | none => some (pteAddr e.pte, 2 ^ (12 + e.k))

def tlbiBody (a : Opnd) (b : Band) (s : State) : Try Fin' := do
  let desc ← s.scalarSrc b false a
  if desc.getLsbD 58 ∨ fld desc 51 49 ≠ 0 then illegalOperand
  b.flagReady false
  let secure := match s.bandLaunch b with | some l => l.lr.wrld | none => false
  let goes := TlbEntry.goes desc secure b.place.core
  let t := { s with
    tlb := s.tlb.filter fun e => !goes e
    wcache := s.wcache.filter fun e => !e.goes desc secure b.place.core }
  return .next (t.startOp b false (.tlbi desc ((s.tlb.filter goes).filterMap TlbEntry.frame) s.nextUid))

def execTlbi (a : Opnd) (s : State) : Host.Outcome State Fault Refusal := .next (issue (.tlbi a) (tlbiBody a) s)

/-- R62: an operation in the TLBI's scope has still to perform an access translated before it: any access of a band there, and what an
engine there has translated to a frame of an entry that was removed. -/
def State.tlbiWaits (dom core : Nat) (frames : List (Nat × Nat)) (x : Op) : Bool :=
  tlbReached dom core (.core x.place.core) &&
    (x.kind.access?.any Access.undone || frames.any fun f => x.kind.waitsOn f.1 (f.1 + f.2))

/-- R62, R112: an L1 in the scope holds bytes of such a frame that its core has stored and that are not yet at their home (R74). -/
def State.tlbiDirty (dom core : Nat) (frames : List (Nat × Nat)) (l : L1Line) : Bool :=
  tlbReached dom core (.core l.core) && l.dirty != 0 && frames.any fun f => decide (f.1 < l.line * 128 + 128) && decide (l.line * 128 < f.1 + f.2)

/-- R62: the TLBI completes once every access in its scope that was translated before it has been performed. -/
def tlbiComplete (u : Nat) (s : State) : State :=
  match s.op? u with
  | none => s
  | some o =>
    match o.kind with
    | .tlbi desc frames below =>
      if (s.ops.any fun x => decide (x.uid < below) && State.tlbiWaits (fld desc 63 62) o.place.core frames x)
          || s.l1.any (State.tlbiDirty (fld desc 63 62) o.place.core frames) then s else s.endOp o
    | _ => s

def execTlbiComplete (op : Nat) (s : State) : Host.Outcome State Fault Refusal := .next (tlbiComplete op s)

end Sys2Proof.Machine
end

