-- ==== Sys2Proof/Machine/Groups.lean ====
section
/-! DEFINITION. Descriptors read by band instructions (R265), process groups and ranks (R323, R324), messages' launches (R418), and
close records (R275). -/

namespace Sys2Proof.Machine

/-! ## Reading on behalf of a band or an engine -/

/-- The physical address and class of each byte of a descriptor, translated as a plain load. -/
def State.descPas (s : State) (b : Band) (e : W64) (n : Nat) : Try (List (Nat × Nat)) := do
  s.walkFirst (s.bandCtx b) .load n [(0, e)]
  let ts ← s.translateLanes (s.bandCtx b) .load false n [(0, e)]
  return (ts.map LaneTr.bytes).flatten

/-- R265: a descriptor is read as a plain load of the band; a damaged atom is consumed by the band (R47). -/
def withDesc (b : Band) (e : W64) (n : Nat) (s : State) (k : List Byte → State → Try Fin') : Try Fin' := do
  let pas ← s.descPas b e n
  match s.plainRead b pas with
  | .hold => .error .hold
  | .damaged ds _ => return .waiting ((s.consumeAll b ds).stopAt b.uid)
  | .bytes bs => k bs (s.plainTouch b pas)

/-- A field of a descriptor, little-endian. -/
def descField (bs : List Byte) (off n : Nat) : Nat := leNat ((bs.drop off).take n)

def zeroBytes (bs : List Byte) (lo hi : Nat) : Bool := ((bs.drop lo).take (hi - lo)).all fun x => x == 0

/-- R284, R382: a redundant run's external operations are refused. -/
def State.notRedundant (s : State) (b : Band) : Try Unit :=
  match s.bandLaunch b with
  | some l => if l.lr.redn = 1 then illegalState else .ok ()
  | none => .ok ()

/-- A precise translation of n bytes for a store, as R96 and R274 ask of stamps and records. -/
def State.checkStore (s : State) (b : Band) (va : W64) (n : Nat) : Try Unit := do
  s.walkFirst (s.bandCtx b) .store n [(0, va)]
  let _ ← s.translateLanes (s.bandCtx b) .store false n [(0, va)]
  return ()

/-! ## Process groups -/

def PGTable.ranks (t : PGTable) : Nat := t.ndev * (t.rpd + 1)
def PGTable.group? (t : PGTable) (g : Nat) : Option PGroup := t.groups[g]?
def PGroup.member (g : PGroup) (i : Nat) : Nat := g.first + i * g.stride
def PGroup.members (g : PGroup) : List Nat := (List.range g.count).map g.member

/-- Whether a rank is a member of a group. -/
def PGroup.has (g : PGroup) (r : Nat) : Bool :=
  decide (g.first ≤ r) && decide ((r - g.first) % max 1 g.stride = 0) && decide ((r - g.first) / max 1 g.stride < g.count)

/-- The list position and the device identifier that serve a rank. -/
def PGTable.posOf (t : PGTable) (r : Nat) : Nat := r / (t.rpd + 1)
def PGTable.devAt (t : PGTable) (p : Nat) : Nat := t.devs.getD p 0
def PGTable.devOf (t : PGTable) (r : Nat) : Nat := t.devAt (t.posOf r)
def PGTable.serves (t : PGTable) (r : Nat) : Bool := t.posOf r == t.here
def PGTable.localRanks (t : PGTable) : List Nat := (List.range (t.rpd + 1)).map (· + t.here * (t.rpd + 1))

/-- Pod of a device (R11): bits 20:10 of its identifier. -/
def podOf (dev : Nat) : Nat := dev / 1024


/-- List positions of the devices of a group. -/
def PGTable.positions (t : PGTable) (g : PGroup) : List Nat := dedup (g.members.map t.posOf)

/-- The group of a launch's descriptor; a privileged band without a table has its own device, rank 0 (R277). -/
def Launch.group? (l : Launch) (g : Nat) : Option PGroup := l.pg.bind fun t => t.group? g

/-- R418: a device applies a message to its active launch of that LID with a table. -/
def State.byLid (s : State) (lid : Nat) : Option Launch :=
  s.launches.find? fun l => l.lr.lid.toNat == lid && l.pg.isSome && (l.phase == .active || l.phase == .killing)

/-! ## Close records -/

def flumeOf (core : Nat) : Nat := dieOf core

/-- The context in which a Flume translates for a launch (R346). -/
def Launch.flumeCtx (l : Launch) (n : Nat) : Ctx := l.ctx (.flume n) l.lr.priv

/-- The Flume that carries a device's work as owner or closer is not specified: any of the four (a free choice, log 34). -/
def State.someFlume (s : State) : Nat := Config.freePick s.freeCtr 4 % 4

/-- A byte of a physical address as an engine of a core reads it for a launch and run: dirty bytes of the core's own L1 count as
written (R132, R137). -/
def State.coreByte (s : State) (core : Nat) (who : Nat × Nat) (pa : Nat) : Byte :=
  let pa := s.viewOf who.1 who.2 pa
  match s.kindOf pa with
  | .ram =>
    match s.line? core (pa / 128) with
    | some l => if l.dirty.getLsbD (pa % 128) then byteOf l.data.toNat (pa % 128) else s.ramByte true pa
    | none => s.ramByte true pa
  | _ => s.otherByte (s.worldOf who.1) pa

/-- Physical addresses of the bytes of pieces. -/
def pieceBytes (ps : List (Nat × Nat)) : List Nat := (ps.map fun p => (List.range p.2).map (· + p.1)).flatten

/-- R47, R49: the event of a damaged atom that an engine or a Flume of a launch consumed. -/
def State.damageEvent (s : State) (launch : Nat) (a : Nat × Bool) : State :=
  s.memEvent (if a.2 then 0x43 else 0x42) a.1 (some launch) a.2

/-- R134: where a collective's record is to be written: a read there acquires. -/
def State.noteRecord (s : State) (c : Ctx) (rec : W64) : State :=
  match s.translate c .store rec with
  | .ok t => { s with records := insertAsc s.records t.pa }
  | .error _ => s

/-- R275: bytes 8 to 31 first, then bytes 0 to 7, as a release, by a Flume. -/
def State.closeRecord (s : State) (l : Launch) (n : Nat) (rec : W64) (hi : W32) (status : W16) (non nlate ndrop : Nat) (result : W64) :
    State :=
  match s.pieces (l.flumeCtx n) .store rec 32 with
  | .error _ => s
  | .ok ps =>
    let s := s.noteRecord (l.flumeCtx n) rec
    let body := (List.range 4).map (byteOf non) ++ (List.range 4).map (byteOf nlate) ++ (List.range 4).map (byteOf ndrop) ++ List.replicate 4 0
      ++ (List.range 8).map (byteOf result.toNat)
    match ps with
    | [(pa, _)] =>
      let s := s.writeFor (some (l.uid, 0)) (pa + 8) 24 (leNat body)
      s.writeFor (some (l.uid, 0)) pa 8 (status.toNat + 2 ^ 32 * hi.toNat)
    | _ => s

/-- Bits of a record's status (R275). -/
def stQuorum : W16 := 1
def stTimer : W16 := 2
def stNan : W16 := 4
def stRecomp : W16 := 8
def stRedflt : W16 := 16
def stErr (code : Nat) : W16 := 32 ||| (BitVec.ofNat 16 code <<< 6)
def stLate : W16 := 512
def stPubst (code : Nat) : W16 := BitVec.ofNat 16 code <<< 10
def stPois : W16 := 4096

/-- An error joins a status that holds none yet. -/
def addErr (st : W16) (code : Nat) : W16 := if st.getLsbD 5 then st else st ||| stErr code

/-- R266: collective slots that a workgroup holds. -/
def State.slotsHeld (s : State) (wg : Nat) : Nat :=
  (s.ops.filter fun o => o.wg == wg && match o.kind with
    | .crs c => !c.closed
    | .cscal .. => true
    | .cag .. => true
    | _ => false).length

def State.needSlot (s : State) (b : Band) : Try Unit := if 32 ≤ s.slotsHeld b.wg then .error (.wait .entry) else .ok ()

/-- R267: an external effect is committed (FSUM bit 8); the launch is rolled back no further (R381). -/
def State.externalEffect (s : State) (launch : Nat) : State := s.sumBit launch 8

/-! ## Endpoints (R367, R404) -/

/-- Where the entry of a device stands. -/
def State.endpointAt (s : State) (dev : Nat) : Nat := fld (s.reg 0x2200) 51 5 * 32 + 32 * dev

/-- The entry of a device in the endpoint table is valid and its own. -/
def State.endpointValid (s : State) (dev : Nat) : Bool :=
  let r := s.reg 0x2200
  let x := BitVec.ofNat 64 (s.physRead (s.endpointAt dev) 8 false)
  r.getLsbD 63 && decide (podOf dev ≤ fld r 62 52) && x.getLsbD 31 && fld x 20 0 == dev

/-- Whether traffic to a device can be sent: within the pod always, between pods by the entry read when it was first needed. -/
def State.reach (s : State) (dev : Nat) : Bool × State :=
  if podOf dev = podOf s.devid then (true, s)
  else
    match s.endpoints.find? fun e => e.1 == dev with
    | some e => (e.2, s)
    | none =>
      let t := s.physTouch (s.endpointAt dev) 8 false
      (s.endpointValid dev, { t with endpoints := s.endpoints ++ [(dev, s.endpointValid dev)] })

/-- A message to a device is sent; one to a device without an endpoint ends as unreachable (R367, R404). -/
def State.sendTo (s : State) (dev : Nat) (x : Sent) : State × Bool :=
  let (ok, s) := s.reach dev
  if ok then (s.send x, true) else (s, false)

/-- R367: the event of a device that is unreachable. -/
def State.peerEvent (s : State) (lid : W32) (dev : Nat) : State := s.post (s.eventOf 0x57 lid (dev % 2 ^ 21))

/-- A message whose loss leaves nothing else to do: the device is reported as unreachable (R367). -/
def State.reply (s : State) (lid : W32) (dev : Nat) (x : Sent) : State :=
  let (s, ok) := s.sendTo dev x
  if ok then s else s.peerEvent lid dev

/-- An address aligned to n bytes below 2^57. -/
def alignedTo (n : Nat) (a : W64) : Bool := a.toNat % n == 0

end Sys2Proof.Machine
end

