-- ==== Sys2Proof/Machine/Publish.lean ====
section
/-! DEFINITION. Publication into version sets, advances (R63 to R67, R359), watch posts (R110, R111) and snapshots (R387, R388). -/

namespace Sys2Proof.Machine

/-! ## Version sets as the home controller changes them (R65) -/

/-- CTL with the state of frame j replaced. -/
def ctlSetState (ctl : W64) (j st : Nat) : W64 := setFld ctl (2 * j + 5) (2 * j + 4) st

/-- Its control word, and the version of a frame, written for the publishing launch (R45). -/
def State.setCtl (s : State) (launch set : Nat) (ctl : W64) : State := s.storeAt (some launch) set 8 ctl.toNat

def State.setVern (s : State) (launch set j : Nat) (w : W32) : State := s.storeAt (some launch) (set + 40 + 4 * j) 4 w.toNat

/-- A publication's incoming frame becomes free. -/
def State.freeFrame (s : State) (p : Publication) : State :=
  match p.slot with
  | some j => s.setCtl p.launch p.set (ctlSetState (vsCtl s p.set) j 0)
  | none => s

/-- Frames of a set in a state. -/
def framesIn (ctl : W64) (st : Nat) : List Nat := (List.range (vsN ctl)).filter fun j => vsState ctl j == st

/-- What an open request comes to. -/
inductive Opened where
  | stale
  | duplicate
  | taken (j : Nat)
  | waits
  deriving DecidableEq, Repr

/-- PUBST codes of R97. -/
def Opened.status : Opened → BitVec 2
  | .stale => 1
  | .duplicate => 2
  | _ => 0

/-- R65: an open is refused as stale or as a duplicate. The current version is the one of R66: until an advance completes, an open of the
version that it makes current is a duplicate, and one of another version that is not newer than CUR's is stale (DEDUCED, log 38). -/
def State.openRefused (s : State) (set : Nat) (w : W32) : Option Opened :=
  let c := vsCtl s set
  if (s.currentOf set).any fun x => !verNewer w x.2 then some .stale
  else if (List.range (vsN c)).any fun j => (vsState c j == 1 || vsState c j == 2) && vsVer s set j == w then some .duplicate
  else if vsValid c && !verNewer w (vsVer s set (vsCur c)) then some .stale
  else none

/-- The oldest complete frame below current whose advance is over (R65, R66). -/
def State.recyclable (s : State) (set : Nat) : Option Nat :=
  let c := vsCtl s set
  let cur := vsVer s set (vsCur c)
  let busy := fun j => s.advances.any fun a => a.set == set && a.old == some (vsFrame s set j)
  let older := (framesIn c 2).filter fun j => vsValid c && j != vsCur c && verNewer cur (vsVer s set j) && !busy j
  older.foldl (fun best j => match best with
    | none => some j
    | some k => if (cur - vsVer s set k).toNat < (cur - vsVer s set j).toNat then some j else some k) none

/-- R359: incoming frames of versions older than an accepted open are abandoned. -/
def State.abandonOlder (s : State) (set : Nat) (w : W32) : State :=
  let gone := s.pubs.filter fun p => p.set == set && verNewer w p.ver
  let s := gone.foldl State.freeFrame s
  { s with pubs := s.pubs.filter fun p => !(p.set == set && verNewer w p.ver) }

/-- The frame an accepted open takes: a free one (which, is not stated: a free choice), else a recycled one. -/
def State.frameFor (s : State) (set : Nat) : Option Nat :=
  match framesIn (vsCtl s set) 0 with
  | [] => s.recyclable set
  | fs => some (fs.getD (Config.freePick s.freeCtr fs.length % fs.length) 0)

/-- An accepted open takes its frame, or waits (R65), as it does while the set cannot be read (log 38). -/
def State.takeFrame (s : State) (set : Nat) (w : W32) (size launch : Nat) (by_ : Publisher) : Opened × State :=
  let others := s.pubs.filter fun p => !(p.set == set && p.ver == w)
  match (if s.unreadSet set then none else s.frameFor set) with
  | some j =>
    let s := (s.setVern launch set j w).setCtl launch set (ctlSetState (vsCtl s set) j 1)
    (.taken j, ({ s with pubs := others ++ [Publication.mk set w (some j) size launch by_ []] } : State).tick 1)
  | none => (.waits, { s with pubs := others ++ [Publication.mk set w none size launch by_ []] })

/-- R65: a publication open at the home controller. -/
def State.openPub (s : State) (set : Nat) (w : W32) (size launch : Nat) (by_ : Publisher) : Opened × State :=
  match s.openRefused set w with
  | some r => (r, s)
  | none => (s.abandonOlder set w).takeFrame set w size launch by_

def State.pub? (s : State) (set : Nat) (w : W32) : Option Publication := s.pubs.find? fun p => p.set == set && p.ver == w

/-- Whether a publisher has no publication of a version any more: a newer open or a kill has abandoned it (R359). -/
def State.pubGone (s : State) (by_ : Publisher) (set : Nat) (w : W32) : Bool :=
  match s.pub? set w with
  | some p => p.by_ != by_
  | none => true

/-- R65: what an open of a version by a publisher comes to, one that it has opened already being taken; while another's open of that
version waits for a frame, the version is not incoming and this open waits behind it. -/
def State.openFor (s : State) (set : Nat) (w : W32) (size launch : Nat) (by_ : Publisher) : Opened × State :=
  match s.pub? set w with
  | some p =>
    if p.slot.isNone then (.waits, s)
    else if p.by_ = by_ ∧ p.launch = launch then (.taken 0, s)
    else (.duplicate, s)
  | none => s.openPub set w size launch by_

/-- R65: close. The frame becomes complete and, when newer than current or the first, becomes CUR and starts an advance. Where the set
cannot be read the write is refused (R45) and nothing becomes current. -/
def State.closePub (s : State) (set : Nat) (w : W32) : State :=
  match s.pub? set w with
  | some ⟨_, _, some j, size, launch, _, _⟩ =>
    let c := vsCtl s set
    let first := (framesIn c 2).isEmpty
    let newer := !vsValid c || verNewer w (vsVer s set (vsCur c))
    let c' := ctlSetState c j 2 ||| (1#64 <<< 12)
    let old := if vsValid c then some (vsFrame s set (vsCur c)) else none
    let s := { s with pubs := s.pubs.filter fun p => !(p.set == set && p.ver == w) }
    if s.unreadSet set then s.setCtl launch set c'
    else if first || newer then
      { s.setCtl launch set (setFld c' 1 0 j) with advances := s.advances ++ [⟨set, old, vsFrame s set j, w, size⟩] }
    else s.setCtl launch set c'
  | _ => s

/-- R65, R359: a killed launch's publications are abandoned and their frames free. -/
def State.abandonPubs (s : State) (launch : Nat) : State :=
  let gone := s.pubs.filter fun p => p.launch == launch
  let s := gone.foldl State.freeFrame s
  { s with pubs := s.pubs.filter fun p => p.launch != launch }

/-- A waiting open takes a frame once one can be freed. -/
def publicationFrameTaken (vs : Nat) (w : W32) (s : State) : State :=
  match s.pub? vs w with
  | some ⟨_, _, none, size, launch, by_, _⟩ => (s.takeFrame vs w size launch by_).2
  | _ => s

def execPublicationFrameTaken (vs : Nat) (w : W32) (s : State) : Host.Outcome State Fault Refusal :=
  .next (publicationFrameTaken vs w s)

/-- R66: everything translated to the old frame has been performed there. -/
def State.advanceReady (s : State) (a : Advance) : Bool :=
  match a.old with
  | none => true
  | some f => s.ops.all fun o => !o.kind.waitsOn f (f + a.size)

/-- R66, R73: the oldest advance of a set ends: every structure holds the binding that it makes current, and every L1 drops its lines of
that frame outside held regions. -/
def versionAdvance (vs : Nat) (s : State) : State :=
  match s.advances.find? fun a => a.set == vs with
  | none => s
  | some a =>
    if s.advanceReady a then
      let rebind := fun (t : TlbEntry) => match t.bind with
        | some b => if b.set == vs then { t with bind := some ⟨vs, some (a.frame, a.ver)⟩ } else t
        | none => t
      let s := s.dropLines fun l =>
        decide (a.frame ≤ l.line * 128) && decide (l.line * 128 < a.frame + a.size) && l.dirty == 0 && !s.heldBy l.core (l.line * 128)
      { s with tlb := s.tlb.map rebind, advances := s.advances.erase a }
    else s

def execVersionAdvanceComplete (vs : Nat) (s : State) : Host.Outcome State Fault Refusal := .next (versionAdvance vs s)

/-! ## Watch posts (R110, R111, R403) -/

def State.wmbase (s : State) : W64 := s.num 0x101

/-- One 64-byte posted write: the value, the change count and zeros. -/
def State.postWatch (s : State) (w : Watch) : State :=
  s.send (.pcieWrite ((s.wmbase &&& bitsMask 63 14) + BitVec.ofNat 64 (64 * w.slot))
    ((List.range 8).map (byteOf w.value.toNat) ++ (List.range 8).map (byteOf w.count.toNat) ++ List.replicate 48 0))

def State.setWatch (s : State) (w : Watch) : State :=
  { s with watches := s.watches.map fun x => if x.slot == w.slot then w else x }

/-- R267: the first post of a watch slot is an external effect of its launch; while EN is 0 nothing is posted. -/
def State.watchPost (s : State) (slot : Nat) : State :=
  match s.watches.find? fun w => w.slot == slot with
  | none => s
  | some w =>
    if w.pending && s.wmbase.getLsbD 0 then
      (s.postWatch w).setWatch { w with pending := false } |>.sumBit w.launch 8
    else s

def execWatchPost (slot : Nat) (s : State) : Host.Outcome State Fault Refusal := .next (s.watchPost slot)

/-! ## Snapshots (R387, R388) -/

/-- Bits of SNAPSTAT that a source sets: SRC bit 62 to 59 and, for a fault, FSEEN in FCLS order. -/
inductive Trigger where
  | snap
  | pin
  | timer
  | fault (cls : Nat)
  deriving DecidableEq, Repr

def State.snapctl (s : State) : W64 := s.num 0x880

/-- Whether a source is enabled. -/
def Trigger.enabled (t : Trigger) (ctl : W64) : Bool :=
  match t with
  | .snap => ctl.getLsbD 39
  | .pin => ctl.getLsbD 38
  | .timer => ctl.getLsbD 37
  | .fault k => ctl.getLsbD 36 && ctl.getLsbD (16 + k)

def Trigger.bits (t : Trigger) : W64 :=
  match t with
  | .snap => 1#64 <<< 62
  | .pin => 1#64 <<< 61
  | .timer => 1#64 <<< 60
  | .fault k => (1#64 <<< 59) ||| (1#64 <<< (53 + k))

/-- The block records latched: their words are not architectural (free values, log 13). -/
def State.snapRecords (s : State) : List SnapBlock :=
  (List.range ((Config.snapBlocks s.freeCtr).toNat + 1)).map fun k =>
    ⟨Config.snapType k, BitVec.ofNat 16 k, (List.range ((Config.snapWords k).toNat + 1)).map fun i => Config.snapWord s.freeCtr k i⟩

/-- R393: the event of a snapshot, with the launch whose fault or SNAP latched it. -/
def State.snapEvent (s : State) (readOut : Bool) : State :=
  let (lid, queue) := match s.snapAt with | some x => (x.lid, x.queue) | none => (0, 0)
  s.post (mkEvent 0x63 lid ((s.num 0x883).toNat + (if readOut then 2 ^ 64 else 0)) 0 queue)

/-- R388: a trigger latches while ARM is 1 and its source is enabled. Sources that fire in the cycle of the latch, the timer among them, are
recorded with it. `lid` and `queue` name the launch of the fault or SNAP. -/
def State.snapshot (s : State) (t : Trigger) (lid : W32) (queue : Nat) : State :=
  let ctl := s.snapctl
  if !t.enabled ctl then s
  else if !ctl.getLsbD 63 then
    if (s.num 0x883).getLsbD 63 && s.snapAt.any (fun x => x.cycle == s.cycle) then s.setNum 0x883 (s.num 0x883 ||| t.bits) else s
  else
    let timer := Trigger.timer.enabled ctl && (s.num 0x881 == BitVec.ofNat 64 s.cycle)
    let st := (1#64 <<< 63) ||| t.bits ||| (if timer then Trigger.timer.bits else 0) ||| BitVec.ofNat 64 (s.cycle / 16 % 2 ^ 32)
    let blocks := s.snapRecords
    let host := ctl.getLsbD 62
    let s := ((s.setNum 0x880 (ctl &&& ~~~ (1#64 <<< 63))).setNum 0x883 st).tick 1
    let s := { s with snap := blocks, snapping := !host, snapAt := some ⟨s.cycle, lid, queue⟩ }
    if host then s.snapEvent false else s

/-- The fault classes of FCLS by kill cause; a trap that kills is class 5 of the list. -/
def KillCause.snapClass : KillCause → Option Nat
  | .matrixSilent => some 1
  | .memUncorrectable => some 2
  | .integrity => some 3
  | .trap _ _ => some 5
  | _ => none

def execSnap (s : State) : Host.Outcome State Fault Refusal :=
  .next (issue .snap (fun b s => .ok (.next (s.snapshot .snap (s.lidOf b.launch) (s.queueOf b.launch)))) s)

def execSnapshotPin (s : State) : Host.Outcome State Fault Refusal := .next (s.snapshot .pin 0 0)

def execSnapshotTimer (s : State) : Host.Outcome State Fault Refusal :=
  .next (if s.num 0x881 == BitVec.ofNat 64 s.cycle then s.snapshot .timer 0 0 else s)

def readoutComplete (s : State) : State :=
  if !s.snapping then s
  else
    let base := fld (s.num 0x882) 51 20 * 2 ^ 20
    let s := s.snap.zipIdx.foldl (fun s (b, k) => s.physStore (base + 1024 * k) b.bytes.length (leNat b.bytes) false) s
    let s := s.setNum 0x883 (setFld (s.num 0x883) 47 32 s.snap.length)
    ({ s with snapping := false }).snapEvent true

def execSnapshotReadoutComplete (s : State) : Host.Outcome State Fault Refusal := .next (readoutComplete s)

/-- R387: SNAPCTL is written; its ARM keeps its value while a snapshot is held (DEDUCED, log 19). -/
def State.writeSnapctl (s : State) (v : W64) : State :=
  let v := if (s.num 0x883).getLsbD 63 then (v &&& ~~~ (1#64 <<< 63)) ||| (s.snapctl &&& (1#64 <<< 63)) else v
  match numSpec 0x880 with
  | some r => s.setNum 0x880 (r.merge s.snapctl v true)
  | none => s

def execSnapctlWrite (v : W64) (s : State) : Host.Outcome State Fault Refusal := .next (s.writeSnapctl v)

end Sys2Proof.Machine
end

