-- ==== Sys2Proof/Machine/Flume.lean ====
section
/-! DEFINITION. Reductions: CRS (R274), ownership (R348), accumulation (R349), classes (R350), closes (R351 to R353), ring mode
(R354, R355), norms and g registers (R141, R357, R358, R280). -/

namespace Sys2Proof.Machine

/-! ## Ownership (R348) -/

def mix32 (x : W32) : W32 :=
  let x := (x ^^^ (x >>> 16)) * 0x7FEB352D
  let x := (x ^^^ (x >>> 15)) * 0x846CA68B
  x ^^^ (x >>> 16)

/-- The rank that owns the element whose place lies at a physical address. -/
def PGroup.ownerOf (g : PGroup) (pa : Nat) : Nat :=
  let p := pa / 65536
  let h := mix32 (BitVec.ofNat 32 p ^^^ (BitVec.ofNat 32 (p / 2 ^ 32 % 16) <<< 28))
  g.member (h.toNat * g.count / 2 ^ 32)

/-- Bytes of an element by FMT and by OFMT. -/
def fmtBytes (fmt : Nat) : Nat := if fmt = 0 then 4 else if fmt = 1 then 2 else 1
def ofmtBytes (ofmt : Nat) : Nat := if ofmt = 0 then 4 else 2

/-- A NaN in place of a damaged element (R274). -/
def nanElem (fmt : Nat) : W32 := if fmt = 0 then 0x7FC00000 else if fmt = 1 then 0x7FC0 else 0x7F

/-- The exact value of an element (R349, R22). -/
def elemNum (fmt : Nat) (e : Elem) : Num :=
  match fmt with
  | 0 => f32.value e.bits.toNat
  | 1 => bf16.value e.bits.toNat
  | _ =>
    if e.scale = 0xFF then .nan false
    else (e4m3.value e.bits.toNat).mul (.fin false 1 ((e.scale.toNat : Int) - 127)) |>.1

/-- R67: a page of the range is versioned and has no complete version. -/
def State.unbound (s : State) (c : Ctx) (a : Acc) (va : W64) (n : Nat) : Bool :=
  (List.range (n / 4096 + 2)).any fun i =>
    let p := if i = 0 then va else va - BitVec.ofNat 64 (va.toNat % 4096) + BitVec.ofNat 64 (4096 * i)
    decide ((p - va).toNat < n) && match s.translate c a p with
      | .ok t => (match t.bind with | some b => b.cur.isNone | none => false)
      | .error _ => false

/-- A byte range that an engine reads: its pieces, or the engine error code of the failure (R97). -/
def State.enginePieces (s : State) (c : Ctx) (a : Acc) (va : W64) (n : Nat) : Except Nat (List (Nat × Nat)) :=
  match s.pieces c a va n with
  | .error (_, f) => .error f.kind.code
  | .ok ps => if s.unbound c a va n then .error FaultKind.absent.code else .ok ps

/-- The owner of each 4 KiB page of a bucket's result image, in order, as its places are translated (R348); the error code of a failed
translation. -/
def State.pageOwners (s : State) (l : Launch) (core : Nat) (g : PGroup) (b : Bucket) : Except Nat (List Nat) :=
  let z := ofmtBytes b.ofmt
  let lo := b.dst.toNat / 4096
  (List.range ((b.dst.toNat + b.count * z - 1) / 4096 - lo + 1)).mapM fun i => do
    let va := if i = 0 then b.dst else BitVec.ofNat 64 ((lo + i) * 4096)
    let ps ← s.enginePieces (l.flumeCtx (flumeOf core)) .store va z
    return g.ownerOf ((ps.map Prod.fst).headD 0)

/-- The elements of an owner, by number. -/
def Bucket.indices (b : Bucket) (owners : List Nat) (owner : Nat) : List Nat :=
  (List.range b.count).filter fun i => owners[(b.dst.toNat % 4096 + i * ofmtBytes b.ofmt) / 4096]? == some owner

/-- The atoms, from SRC on, in which an element lies: its own, and under FMT 2 that of its block's scale byte. -/
def Bucket.atomsOf (b : Bucket) (i : Nat) : List Nat :=
  i * fmtBytes b.fmt / 32 :: (if b.fmt = 2 then [(b.count + i / 32) / 32] else [])

/-- Element i as it is contributed, from the atoms read. -/
def CrsOp.elem (c : CrsOp) (i : Nat) : Elem :=
  let atom := fun (k : Nat) => (c.read.find? fun a => a.at_ == k).getD ⟨k, 0, false⟩
  let z := fmtBytes c.b.fmt
  let x := atom (i * z / 32)
  let k := c.b.count + i / 32
  ⟨i, if (c.b.atomsOf i).any fun j => (atom j).bad then nanElem c.b.fmt
      else BitVec.ofNat 32 (x.data.toNat / 256 ^ (i * z % 32) % 256 ^ z),
    if c.b.fmt = 2 then byteOf (atom (k / 32)).data.toNat (k % 32) else 0⟩

/-! ### A CRS's operation -/

def Op.crs? (o : Op) : Option CrsOp := match o.kind with | .crs c => some c | _ => none
def State.crs? (s : State) (u : Nat) : Option CrsOp := (s.op? u).bind Op.crs?

/-- The operation as it now stands. -/
def State.setCrs (s : State) (u : Nat) (c : CrsOp) : State := match s.op? u with | some o => s.setOp { o with kind := .crs c } | none => s

/-- An atom of a contribution is read by the Flume, once, as it stands at that point of its write order (R137); a damaged one is consumed, and
the record is to carry POIS (R274). The error code of a failed translation otherwise. -/
def State.readSrcAtom (s : State) (u k : Nat) : State × Option Nat :=
  match s.op? u with
  | some o =>
    match o.kind, s.launch? o.launch with
    | .crs c, some l =>
      if c.read.any fun a => a.at_ == k then (s, none)
      else
        match s.enginePieces (l.flumeCtx (flumeOf o.place.core)) .load (c.b.src + BitVec.ofNat 64 (32 * k)) 32 with
        | .error e => (s, some e)
        | .ok ps =>
          let bad := (s.badPieces o.who ps).eraseDups
          let x := leNat ((pieceBytes ps).map fun pa => s.coreByte o.place.core (o.launch, o.run) pa)
          let s := bad.foldl (fun s a => s.damageEvent o.launch a) ((s.tick 1).touchPieces o.who ps)
          (s.setCrs u { c with
            read := c.read ++ [⟨k, BitVec.ofNat 256 x, !bad.isEmpty⟩]
            status := if bad.isEmpty || c.closed then c.status else c.status ||| stPois }, none)
    | _, _ => (s, none)
  | none => (s, none)

/-- The atoms of some elements are read, up to the first that cannot be translated. -/
def State.readSrc (s : State) (u : Nat) (b : Bucket) (ix : List Nat) : State × Option Nat :=
  (dedup (ix.flatMap b.atomsOf)).foldl (fun p k => match p.2 with | none => p.1.readSrcAtom u k | some _ => p) (s, none)

/-- Elements as they have been read. -/
def State.elemsRead (s : State) (u : Nat) (ix : List Nat) : List Elem := match s.crs? u with | some c => ix.map c.elem | none => []

def Bucket.fields (b : Bucket) : StepFields := ⟨b.count, b.fmt, b.ofmt, b.quorum, b.timer, b.normg, b.dst.toNat⟩
def contribFields (m : ContribMsg) : StepFields := ⟨m.count, m.fmt, m.ofmt, m.quorum, m.timer, m.normg, m.dst⟩

/-! ## Norms and g registers (R141, R357) -/

def State.gOf (s : State) (j : Nat) : GReg := (s.gregs.find? fun g => g.j == j).getD ⟨j, none, none⟩

/-- R357: version and value written into a g register. -/
def GReg.put (g : GReg) (x : GSlot) : GReg :=
  match g.s0, g.s1 with
  | none, none => { g with s0 := some x }
  | some a, none => if a.ver == x.ver then g else { g with s1 := some x }
  | none, some b => if b.ver == x.ver then g else { g with s0 := some x }
  | some a, some b =>
    if a.ver == x.ver || b.ver == x.ver then g
    else if verNewer x.ver a.ver && verNewer x.ver b.ver then
      if verNewer a.ver b.ver then { g with s1 := some x } else { g with s0 := some x }
    else g

/-- g registers in ascending order of their numbers; one whose slots are both empty is not listed. -/
def insertG (g : GReg) : List GReg → List GReg
  | [] => [g]
  | x :: t => if g.j < x.j then g :: x :: t else x :: insertG g t

def State.putG (s : State) (g : GReg) : State :=
  let rest := s.gregs.filter fun x => x.j != g.j
  { s with gregs := if g.s0.isNone && g.s1.isNone then rest else insertG g rest }

def State.norm? (s : State) (lid pgrp : Nat) (step : W32) (j : Nat) : Option Norm :=
  s.norms.find? fun n => n.lid == lid && n.pgrp == pgrp && n.step == step && n.j == j

def State.setNorm (s : State) (n : Norm) : State :=
  { s with norms := (s.norms.filter fun x => !(x.lid == n.lid && x.pgrp == n.pgrp && x.step == n.step && x.j == n.j)) ++ [n] }

/-- The norm partial of a step and index, opened where it is missing. -/
def State.normOf (s : State) (lid pgrp : Nat) (step : W32) (j : Nat) : Norm :=
  (s.norm? lid pgrp step j).getD ⟨lid, pgrp, step, j, 0, 0, false, [], false⟩

def State.weirOf (s : State) (lid : Nat) : Option WeirGroup := s.weir.find? fun g => g.lid == lid

/-- Whether a rank counts as live: its entry, or its pod's, is not silent; a rank outside group 0 is live (R357). -/
def State.liveRank (s : State) (t : PGTable) (lid r : Nat) : Bool :=
  match s.weirOf lid with
  | none => true
  | some w =>
    match w.entries.find? fun e => !e.isPod && e.who == r with
    | some e => !e.silent
    | none =>
      if (match t.group? 0 with | some g => g.has r | none => false) then
        match w.entries.find? fun e => e.isPod && e.who == podOf (t.devOf r) with
        | some e => !e.silent
        | none => true
      else true

/-- R357: a norm closes once partials from every device that serves a live rank of the group are there. -/
def State.closeNorm (s : State) (n : Norm) : State :=
  match s.byLid n.lid with
  | none => s
  | some l =>
    match l.pg, l.group? n.pgrp with
    | some t, some g =>
      let need := dedup ((g.members.filter fun r => s.liveRank t n.lid r).map fun r => t.devOf r)
      if !n.closed && n.sent && need.all (fun d => n.got.any fun m => m.dev.toNat == d) then
        let (v, sd) := n.got.foldl (fun (a : Int × BitVec 4) m => x320Join a.1 a.2 m.sum m.side) (0, 0)
        (s.setNorm { n with closed := true }).putG ((s.gOf n.j).put ⟨n.step, v, sd⟩)
      else s
    | _, _ => s

def State.closeNorms (s : State) (lid : Nat) : State := (s.norms.filter fun n => n.lid == lid).foldl (fun s n => s.closeNorm n) s

/-- This device's partial goes to every device of the group, itself included (R357). -/
def State.sendNorm (s : State) (n : Norm) : State :=
  match s.byLid n.lid with
  | none => s.setNorm n
  | some l =>
    match l.pg, l.group? n.pgrp with
    | some t, some g =>
      let me := s.devid
      let msg : NormMsg := ⟨n.lid, n.pgrp, n.step, n.j, BitVec.ofNat 21 me, n.own, n.side⟩
      let s := ((t.positions g).map t.devAt).foldl (fun s d => if d == me then s else s.reply l.lr.lid d (.norm d msg)) s
      let n := { n with sent := true, got := n.got ++ [msg] }
      (s.setNorm n).closeNorm n
    | _, _ => s.setNorm n

/-- A norm as an owner's close, a CRS or an arrival leaves it. Where its step has reached the step-closed point here before the norm was known,
its partial is sent at once (DEDUCED, log 34). -/
def State.updateNorm (s : State) (n : Norm) : State :=
  if !n.sent && s.stepClosed.contains (n.lid, n.pgrp, n.step) then s.sendNorm n else (s.setNorm n).closeNorm n

/-- Room for a message held, in the work area (R418). -/
def heldBytes : Nat := 64

/-- Bytes that the work area holds: contributions and ring sums retained, and messages held (R347, R418; how much each takes, 4 bytes an
element, 40 an accumulator and 64 a message, is log 19's). -/
def State.areaUsed (s : State) : Nat :=
  (s.reductions.map fun r => (r.kept.map fun c => c.elems.length * 4).sum + (r.rings.map fun x => x.accs.length * 40).sum).sum
    + (s.ringParts.map fun p => p.sum.accs.length * 40).sum
    + (s.heldMsgs.map fun h => match h.msg with
        | .contribution _ m => m.elems.length * 4
        | .ring _ => 32 * 40
        | .scalar _ | .norm _ => heldBytes
        | .weirStep .. | .podSummary .. => 0).sum

def State.areaRoom (s : State) (n : Nat) : Bool := decide (s.areaUsed + n ≤ fld (s.reg 0x2100) 15 0 * 2 ^ 20)

/-- A message for a launch that is not active yet is held (R418). -/
def State.hold (s : State) (m : HeldMsg) : State := { s with heldMsgs := s.heldMsgs ++ [⟨s.cycle, m⟩] }

/-- NORM_PARTIAL_ARRIVAL: a partial of another device joins; one that comes after the close is dropped. -/
def normArrival (m : NormMsg) (s : State) : State :=
  if (s.byLid m.lid).isSome then
    let n := s.normOf m.lid m.pgrp m.step m.j
    if n.closed || n.got.any (fun x => x.dev == m.dev) then s else s.updateNorm { n with got := n.got ++ [m] }
  else if s.pastLids.contains m.lid || !s.areaRoom heldBytes then s
  else s.hold (.norm m)

def execNormPartialArrival (m : NormMsg) (s : State) : Host.Outcome State Fault Refusal := .next (normArrival m s)

/-! ## Steps at an owner (R349, R350) -/

def sameBucket (a b : StepKey) : Bool := a.lid == b.lid && a.pgrp == b.pgrp && a.bid == b.bid

def stepAt (k : StepKey) (st : W32) : StepKey := { k with step := st }

def State.reduction? (s : State) (k : StepKey) (owner : Nat) : Option Reduction := s.reductions.find? fun r => r.key == k && r.owner == owner
def State.closed? (s : State) (k : StepKey) (owner : Nat) : Option Closed := s.closed.find? fun c => c.key == k && c.owner == owner

def State.openSteps (s : State) (k : StepKey) (owner : Nat) : List W32 :=
  (s.reductions.filter fun r => sameBucket r.key k && r.owner == owner).map fun r => r.key.step
def State.closedSteps (s : State) (k : StepKey) (owner : Nat) : List W32 :=
  (s.closed.filter fun r => sameBucket r.key k && r.owner == owner).map fun r => r.key.step

/-- The oldest of some steps (R64). -/
def oldestStep : List W32 → Option W32
  | [] => none
  | x :: t => match oldestStep t with | none => some x | some y => if verNewer y x then some x else some y

/-- How an owner classes a contribution, and the step it folds into. -/
def State.classify (s : State) (k : StepKey) (owner : Nat) (fx : StepFields) : AckClass × W32 :=
  let opn := s.openSteps k owner
  let cl := s.closedSteps k owner
  let next := stepAt k (k.step + 1)
  let differs := fun (key : StepKey) => match s.reduction? key owner with
    | some r => r.fx != fx
    | none => match s.closed? key owner with | some c => c.fx != fx | none => false
  if differs k then (.conflict, k.step)
  else if cl.contains k.step then
    if cl.contains next.step then (.dropped, k.step)
    else if differs next then (.conflict, k.step)
    else (.late, next.step)
  else if (match oldestStep opn with | some o => verNewer k.step o && decide (7 < (k.step - o).toNat) | none => false) then (.dropped, k.step)
  else if decide (16 ≤ cl.length) && !opn.contains k.step && (match oldestStep cl with | some o => verNewer o k.step | none => false) then
    (.dropped, k.step)
  else (.onTime, k.step)

/-- An accumulator's list with x320 of a value added at an index. -/
def accAdd (idx weight : Nat) (x : Num) : List SumAcc → List SumAcc
  | [] => let (v, sd) := x320Add 0 0 weight x; [⟨idx, v, sd⟩]
  | a :: t =>
    if a.idx = idx then let (v, sd) := x320Add a.val a.side weight x; ⟨idx, v, sd⟩ :: t else a :: accAdd idx weight x t

/-- W0 of a weighted image (R350). -/
def imageSum (weight : Nat) (x : Num) : W64 := match x with | .fin _ _ _ => BitVec.ofInt 64 ((weight : Int) * x320 x) | _ => 0

def accsOf (fmt weight : Nat) (as : List SumAcc) (es : List Elem) : List SumAcc := es.foldl (fun as e => accAdd e.idx weight (elemNum fmt e) as) as
def sumsOf (fmt weight : Nat) (es : List Elem) : W64 := es.foldl (fun c e => c + imageSum weight (elemNum fmt e)) 0

/-- Accumulators joined (R354). -/
def accJoin (b : SumAcc) : List SumAcc → List SumAcc
  | [] => [b]
  | a :: t => if a.idx = b.idx then let (v, sd) := x320Join a.val a.side b.val b.side; ⟨a.idx, v, sd⟩ :: t else a :: accJoin b t

def Reduction.non (r : Reduction) : Nat := (r.kept.filter fun c => c.weight == 2).length + ((r.rings.map fun x => x.ranks.length).sum)
def Reduction.nlate (r : Reduction) : Nat := (r.kept.filter fun c => c.weight == 1).length

def State.dropsOf (s : State) (k : StepKey) (owner : Nat) : Nat :=
  ((s.drops.find? fun d => d.lid == k.lid && d.pgrp == k.pgrp && d.bid == k.bid && d.owner == owner).map Drops.n).getD 0

def State.setDrops (s : State) (k : StepKey) (owner n : Nat) : State :=
  let rest := s.drops.filter fun d => !(d.lid == k.lid && d.pgrp == k.pgrp && d.bid == k.bid && d.owner == owner)
  { s with drops := if n = 0 then rest else rest ++ [⟨k.lid, k.pgrp, k.bid, owner, n⟩] }

def State.countDrop (s : State) (k : StepKey) (owner : Nat) : State := s.setDrops k owner (s.dropsOf k owner + 1)

/-- DETAIL of classes 0x53 to 0x55 (R365). -/
def stepDetail (k : StepKey) : Nat := k.step.toNat + k.bid * 2 ^ 32 + k.pgrp % 64 * 2 ^ 64

/-- R347: a rank's contribution finds no room in the work area. -/
def State.noRoom (s : State) (k : StepKey) (owner rank : Nat) : State :=
  (s.countDrop k owner).post (s.eventOf 0x54 (BitVec.ofNat 32 k.lid) (stepDetail k + rank % 2 ^ 25 * 2 ^ 70))

def State.setReduction (s : State) (r : Reduction) : State :=
  { s with reductions := (s.reductions.filter fun x => !(x.key == r.key && x.owner == r.owner)) ++ [r] }

/-- The step's state at an owner, opened by its first arrival (R349). -/
def State.reductionAt (s : State) (k : StepKey) (owner : Nat) (fx : StepFields) : Reduction :=
  (s.reduction? k owner).getD ⟨k, owner, fx, [], 0, [], [], s.cycle + microseconds fx.timer, false⟩

/-! ## Closing (R351) -/

/-- Whether the running checksum is the sum of the accumulators' low words. -/
def checksumHolds (sum : W64) (as : List SumAcc) : Bool := sum == as.foldl (fun c a => c + BitVec.ofInt 64 a.val) 0

/-- The accumulators recomputed from what was retained. -/
def Reduction.recompute (r : Reduction) : List SumAcc :=
  (r.rings.map RingSum.accs).flatten.foldl (fun as a => accJoin a as) (r.kept.foldl (fun as c => accsOf r.fx.fmt c.weight as c.elems) [])

/-- The CRS of a rank whose close record of a step is still to be written. -/
def State.crsOf (s : State) (k : StepKey) (rank : Nat) : Option Op :=
  s.ops.find? fun o => match o.crs? with
    | some c => c.rank == rank && !c.closed && (s.lidOf o.launch).toNat == k.lid && c.b.pgrp == k.pgrp && c.b.bid == k.bid && c.b.stepn == k.step
    | none => false

/-- A CRS's operation ends once its record is written and every owner has classed it. -/
def State.settleCrs (s : State) (u : Nat) : State :=
  match s.crs? u with
  | some c => if c.closed && c.owners.all c.acked.contains then s.dropOp u else s
  | none => s

/-- The status of a record: what the rank's own part has found, with an error of its own before one of the close (R275). -/
def joinStatus (own st : W16) : W16 := own ||| (if own.getLsbD 5 then st &&& 0xFE1F else st)

/-- The record of a rank's CRS is written (R275), its own status in it. -/
def State.crsWrite (s : State) (u : Nat) (st : W16) (non nlate ndrop : Nat) : State :=
  match s.op? u with
  | some o =>
    match o.kind, s.launch? o.launch with
    | .crs c, some l =>
      (s.closeRecord l (flumeOf o.place.core) c.b.recVa c.b.stepn (joinStatus c.status st) non nlate ndrop 0).setCrs u { c with closed := true }
    | _, _ => s
  | none => s

/-- The rank's part of a CRS ends in engine error: its record carries the code, unless it has been written (R274, R367). -/
def State.crsEnd (s : State) (u code : Nat) : State :=
  match s.crs? u with
  | some c => (if c.closed then s else (s.setCrs u { c with status := addErr c.status code }).crsWrite u 0 0 0 0).dropOp u
  | none => s

/-- A rank's record falls due: what the Flume has not yet read of its contribution is read before it is written (R137, R274). -/
def State.crsRecord (s : State) (u : Nat) (st : W16) (non nlate ndrop : Nat) : State :=
  match s.crs? u with
  | some c =>
    match s.readSrc u c.b (List.range c.b.count) with
    | (s, some e) => s.crsEnd u e
    | (s, none) => (s.crsWrite u st non nlate ndrop).settleCrs u
  | none => s

/-- The element result of a close: D2 divides once (R351). -/
def closeValue (f : Fmt) (a : SumAcc) (d2 : Nat) : Nat := (x320Read f rne a.val a.side d2).1

/-- R351 step 2: the owned elements are written; the error code of a DST that cannot be translated. -/
def State.writeResults (s : State) (l : Launch) (n : Nat) (fx : StepFields) (d2 : Nat) (as : List SumAcc) : State × Option Nat :=
  as.foldl (fun (p : State × Option Nat) a =>
    let z := ofmtBytes fx.ofmt
    let f := if fx.ofmt = 0 then f32 else bf16
    match p.1.enginePieces (l.flumeCtx n) .store (BitVec.ofNat 64 (fx.dst + a.idx * z)) z with
    | .error e => (p.1, some (p.2.getD e))
    | .ok ps => (p.1.writePieces (some (l.uid, 0)) ps ((List.range z).map (byteOf (closeValue f a d2))), p.2)) (s, none)

/-- R351 step 3: the exact sum of the squares of the FP32 results. -/
def normTerm (as : List SumAcc) (d2 : Nat) : Int × BitVec 4 :=
  as.foldl (fun acc a =>
    let y := f32.value (closeValue f32 a d2)
    let q := (roundNum f32 rne false (y.mul y).1).1
    x320Add acc.1 acc.2 1 (f32.value q)) (0, 0)

/-- Remembered closes of a bucket at an owner: the 16 most recent steps (R350). -/
def State.remember (s : State) (c : Closed) : State :=
  let mine := (s.closed.filter fun x => sameBucket x.key c.key && x.owner == c.owner) ++ [c]
  let rest := s.closed.filter fun x => !(sameBucket x.key c.key && x.owner == c.owner)
  let drop := if mine.length ≤ 16 then none else oldestStep (mine.map fun x => x.key.step)
  { s with
    closed := rest ++ mine.filter fun x => some x.key.step != drop
    closedHere := if s.closedHere.contains c.key then s.closedHere else s.closedHere ++ [c.key] }

/-- The ranks whose contributions a step holds. -/
def Reduction.ranks (r : Reduction) : List Nat := dedup (r.kept.map Contribution.rank ++ r.rings.flatMap RingSum.ranks)

/-- R351 step 1: a reduction fault is entered in the fault summary of every launch that contributed, here and at other devices. -/
def State.reductionFault (s : State) (l : Launch) (t : PGTable) (r : Reduction) : State :=
  let s := if r.ranks.any t.serves then s.sumBit l.uid 5 else s
  let s := (r.ranks.filter fun k => !t.serves k).foldl (fun s k => s.reply l.lr.lid (t.devOf k) (.ack k r.key (.fault r.key.lid))) s
  let e := s.eventOf 0x53 (BitVec.ofNat 32 r.key.lid) (stepDetail r.key)
  (s.post e).snapshot (.fault 4) e.lid e.queue

/-- A step closes at an owner: check, result, norm, records. `how` is the QUORUM or TIMER bit, or neither. -/
def State.closeStep (s : State) (r : Reduction) (how : W16) : State :=
  match s.byLid r.key.lid with
  | none => { s with reductions := s.reductions.filter fun x => !(x.key == r.key && x.owner == r.owner) }
  | some l =>
    let n := s.someFlume
    let good := checksumHolds r.checksum r.accs
    let as := if good then r.accs else r.recompute
    let fault := !good && !checksumHolds r.checksum as
    let d2 := 2 * r.non + r.nlate
    let s := { s with reductions := s.reductions.filter fun x => !(x.key == r.key && x.owner == r.owner) }
    let (s, err) := if fault || d2 = 0 then (s, none) else (s.tick 1).writeResults l n r.fx d2 as
    let s := match fault, l.pg with | true, some t => s.reductionFault l t r | _, _ => s
    let s :=
      if !fault && 128 ≤ r.fx.normg && d2 ≠ 0 then
        let (q, sd) := normTerm as d2
        let n := s.normOf r.key.lid r.key.pgrp r.key.step (r.fx.normg % 64)
        let (v, sd') := x320Join n.own n.side q sd
        s.updateNorm { n with own := v, side := sd' }
      else s
    let nd := s.dropsOf r.key r.owner
    let st := how ||| (if as.any fun a => a.side &&& sNS != 0 then stNan else 0) ||| (if good then 0 else stRecomp)
      ||| (if fault then stRedflt else 0)
    let s := (s.remember ⟨r.key, r.owner, r.fx, r.non, r.nlate, nd, st⟩).setDrops r.key r.owner 0
    let st := match err with | some e => addErr st e | none => st
    match s.crsOf r.key r.owner with
    | some o =>
      if r.kept.any (fun c => c.rank == r.owner && c.weight == 2) || r.rings.any (fun x => x.ranks.contains r.owner) then
        s.crsRecord o.uid st r.non r.nlate nd
      else s
    | none => s

/-! ## Classing a contribution (R350, R352) -/

/-- What an owner's class adds to the sender's status. -/
def ackStatus (c : AckClass) (st : W16) : W16 :=
  match c with
  | .onTime | .fault _ => st
  | .late | .dropped => st ||| stLate
  | .conflict | .repeated => addErr st 5

/-- An owner has classed a CRS's contribution: the sender's status takes it up, and where the record now is due it is written: for a
rank that owns no element once every owner has answered, for an owner whose own contribution came after its step closed (R351,
R352). -/
def State.ackCrs (s : State) (u owner : Nat) (c : AckClass) : State :=
  match s.op? u with
  | some o =>
    match o.kind with
    | .crs x =>
      if !x.owners.contains owner || x.acked.contains owner then s
      else
        let acked := insertAsc x.acked owner
        let s := s.setCrs u { x with acked := acked, status := if x.closed then x.status else ackStatus c x.status }
        if x.closed then s.settleCrs u
        else if owner == x.rank then
          match c with
          | .onTime => s
          | .late | .dropped =>
            match s.closed? ⟨(s.lidOf o.launch).toNat, x.b.pgrp, x.b.bid, x.b.stepn⟩ x.rank with
            | some cl => s.crsRecord u (cl.status &&& (stQuorum ||| stTimer)) cl.non cl.nlate cl.ndrop
            | none => s.crsRecord u 0 0 0 0
          | _ => s.crsRecord u 0 0 0 0
        else if !x.owners.contains x.rank && x.owners.all acked.contains then s.crsRecord u 0 0 0 0
        else s
    | _ => s
  | none => s

/-- A contribution of a rank at an owner of this device (R349, R350): its class, and the step's state after it. -/
def State.contribute (s : State) (k : StepKey) (owner rank : Nat) (fx : StepFields) (es : List Elem) : AckClass × State :=
  match s.classify k owner fx with
  | (.onTime, st) | (.late, st) =>
    let late := (s.classify k owner fx).1 == .late
    let w := if late then 1 else 2
    let r := s.reductionAt (stepAt k st) owner fx
    if r.kept.any (fun c => c.rank == rank && c.weight == w) || (!late && r.rings.any fun x => x.ranks.contains rank) then (.repeated, s)
    else if !s.areaRoom (4 * es.length) then (.dropped, s.noRoom k owner rank)
    else
      let r := { r with
        accs := accsOf fx.fmt w r.accs es
        checksum := r.checksum + sumsOf fx.fmt w es
        kept := r.kept ++ [⟨rank, w, es⟩] }
      (if late then .late else .onTime, s.setReduction r)
  | (c, _) => (c, s.countDrop k owner)

/-- R351: a step closes on the arrival that brings the on-time contributions to QUORUM. -/
def State.checkQuorum (s : State) (k : StepKey) (owner : Nat) : State :=
  match s.reduction? k owner with
  | some r => if r.fx.quorum ≤ r.non then s.closeStep r stQuorum else s
  | none => s

/-- A CRS of this device reaches an owner that this device serves. -/
def contribOwn (u owner : Nat) (s : State) : State :=
  match s.op? u with
  | some o =>
    match o.kind, s.launch? o.launch with
    | .crs x, some l =>
      match l.pg with
      | some t =>
        if !x.owners.contains owner || x.acked.contains owner || !t.serves owner then s
        else
          let ix := x.b.indices x.owners owner
          match s.readSrc u x.b ix with
          | (s, some e) => s.crsEnd u e
          | (s, none) =>
            let key : StepKey := ⟨l.lr.lid.toNat, x.b.pgrp, x.b.bid, x.b.stepn⟩
            let (c, s) := s.contribute key owner x.rank x.b.fields (s.elemsRead u ix)
            (s.ackCrs u owner c).checkQuorum key owner
      | none => s
    | _, _ => s
  | none => s

/-- The sender of a contribution learns how it was classed (R352), where its device can be reached (R367). -/
def State.acknowledge (s : State) (m : ContribMsg) (c : AckClass) : State := s.reply (BitVec.ofNat 32 m.key.lid) m.dev (.ack m.rank m.key c)

/-- A contribution of another device's rank arrives for an owner of this device: applied, held, or discarded (R418). -/
def contribRemote (owner : Nat) (m : ContribMsg) (s : State) : State :=
  match s.byLid m.key.lid with
  | some _ =>
    let (c, s) := s.contribute m.key owner m.rank (contribFields m) m.elems
    (s.acknowledge m c).checkQuorum m.key owner
  | none =>
    if s.pastLids.contains m.key.lid then s.acknowledge m .dropped
    else if s.areaRoom (4 * m.elems.length) then s.hold (.contribution owner m)
    else (s.noRoom m.key owner m.rank).acknowledge m .dropped

def execContributionArrival (src : ContribSrc) (s : State) : Host.Outcome State Fault Refusal :=
  .next (match src with
    | .own op owner => contribOwn op owner s
    | .remote owner m => contribRemote owner m s)

/-- R351: TIMER expires; under HOSTQ an event asks the host instead. -/
def quorumTimer (k : StepKey) (s : State) : State :=
  (s.reductions.filter fun r => r.key == k && decide (r.deadline ≤ s.cycle)).foldl (fun s r =>
    if (s.reg 0x2108).getLsbD 62 then
      if r.expired then s
      else (s.setReduction { r with expired := true }).post (s.eventOf 0x55 (BitVec.ofNat 32 k.lid) (stepDetail k) r.non)
    else s.closeStep r stTimer) s

def execQuorumTimerExpiry (key : StepKey) (s : State) : Host.Outcome State Fault Refusal := .next (quorumTimer key s)

/-- R351: a step that a launch of this device contributed to has closed as a reduction fault. -/
def State.faultHeard (s : State) (lid : Nat) : State := match s.byLid lid with | some l => s.sumBit l.uid 5 | none => s

/-- Another device's owner has classed a contribution of this device, or reports a reduction fault; a scalar that its closer discarded
is late (R418). -/
def ownerAck (u owner : Nat) (c : AckClass) (s : State) : State :=
  match c with
  | .fault lid => s.faultHeard lid
  | _ =>
  match s.op? u with
  | some o =>
    match o.kind, (s.launch? o.launch).bind Launch.pg with
    | .cscal rank st opc typ pgrp q tm recVa v at_ dl _, some _ =>
      if c == .dropped then s.setOp { o with kind := .cscal rank st opc typ pgrp q tm recVa v at_ dl true } else s
    | _, some t => if t.serves owner then s else s.ackCrs u owner c
    | _, none => s
  | none => s

def execOwnerAckArrival (op owner : Nat) (cls : AckClass) (s : State) : Host.Outcome State Fault Refusal := .next (ownerAck op owner cls s)

/-! ## CRS (R274) -/

def parseBucket (bs : List Byte) : Bucket where
  bid := descField bs 0 4
  stepn := BitVec.ofNat 32 (descField bs 4 4)
  count := descField bs 8 4
  quorum := descField bs 12 4
  src := BitVec.ofNat 64 (descField bs 16 8)
  dst := BitVec.ofNat 64 (descField bs 24 8)
  recVa := BitVec.ofNat 64 (descField bs 32 8)
  timer := descField bs 40 4
  pgrp := descField bs 44 2
  fmt := descField bs 46 1
  ofmt := descField bs 47 1
  normg := descField bs 48 1

/-- R273, R274: the fields of a bucket descriptor, for a rank of a group. -/
def Bucket.ok (b : Bucket) (g : PGroup) (rank : Nat) : Bool :=
  g.has rank && decide (1 ≤ b.count) && decide (b.count ≤ 2 ^ 24) && (b.fmt != 2 || b.count % 32 == 0) && decide (1 ≤ b.quorum)
    && decide (b.quorum ≤ g.count) && alignedTo 32 b.src && alignedTo 32 b.dst && alignedTo 32 b.recVa && b.recVa != 0
    && decide (1 ≤ b.timer) && decide (b.fmt ≤ 2) && decide (b.ofmt ≤ 1) && (b.normg / 64 % 2 == 0)

/-- Contributions of a CRS to owners that other devices serve are sent (R348); those carried round a ring are not (R354). An owner
without an endpoint ends the rank's part (R367, R404). -/
def State.sendContribs (s : State) (u : Nat) (l : Launch) (t : PGTable) (c : CrsOp) (parts : List (Nat × List Elem)) : State :=
  let key : StepKey := ⟨l.lr.lid.toNat, c.b.pgrp, c.b.bid, c.b.stepn⟩
  parts.foldl (fun s p =>
    let (s, ok) := s.sendTo (t.devOf p.1) (.contribution p.1 ⟨key, s.devid, c.rank, c.b.count, c.b.fmt, c.b.ofmt, c.b.quorum, c.b.timer,
      c.b.normg, c.b.dst.toNat, p.2⟩)
    if ok then s else (s.peerEvent l.lr.lid (t.devOf p.1)).crsEnd u 6) s

/-- The owners that a contribution reaches round a ring: all of the pod's for an FMT 2 bucket, where the Flume chooses so (R354). -/
def State.ringOwners (s : State) (t : PGTable) (b : Bucket) (owners : List Nat) : List Nat :=
  if b.fmt = 2 && Config.freeBit s.freeCtr then
    (dedup owners).filter fun w => !t.serves w && podOf (t.devOf w) == podOf (t.devAt t.here)
  else []

/-- The bucket is handed to a Flume (R274 step 4). -/
def State.submitCrs (s : State) (bd : Band) (l : Launch) (t : PGTable) (g : PGroup) (b : Bucket) : State :=
  let key : StepKey := ⟨l.lr.lid.toNat, b.pgrp, b.bid, b.stepn⟩
  let s := s.externalEffect l.uid
  if l.crsDone.contains (bd.rank, b.pgrp, b.bid, b.stepn) then s.closeRecord l (flumeOf bd.place.core) b.recVa b.stepn (stErr 5) 0 0 0 0
  else
    let s := s.modLaunch l.uid fun l => { l with crsDone := l.crsDone ++ [(bd.rank, b.pgrp, b.bid, b.stepn)] }
    let s := if 128 ≤ b.normg then s.updateNorm (s.normOf key.lid b.pgrp b.stepn (b.normg % 64)) else s
    match s.pageOwners l bd.place.core g b with
    | .error e => s.closeRecord l (flumeOf bd.place.core) b.recVa b.stepn (stErr e) 0 0 0 0
    | .ok owners =>
      let ring := s.ringOwners t b owners
      let s := s.tick 1
      let u := s.nextUid
      let c : CrsOp := ⟨bd.rank, b, owners, [], ring, [], 0, false, []⟩
      let away := (dedup owners).filter fun w => !t.serves w && !ring.contains w
      match (s.startEngine bd (.crs c)).readSrc u b (away.flatMap (b.indices owners)) with
      | (s, some e) => s.crsEnd u e
      | (s, none) => s.sendContribs u l t c (away.map fun w => (w, s.elemsRead u (b.indices owners w)))

def crsBody (m : MemRef) (b : Band) (s : State) : Try Fin' := do
  s.notRedundant b
  let ea ← s.effective b m 64
  if ea.e.toNat % 64 ≠ 0 then .error (.trap tMisalign 0 ea.e 0)
  withDesc b ea.e 64 s fun bs s => do
    let k := parseBucket bs
    match s.bandLaunch b with
    | none => illegalOperand
    | some l =>
      match l.pg, l.group? k.pgrp with
      | some t, some g => do
        need (k.ok g b.rank && zeroBytes bs 49 64)
        s.checkStore b k.recVa 32
        b.flagReady false
        s.needSlot b
        holdUnless (s.accessesDone b)
        return .next (((s.noteRecord (s.bandCtx b) k.recVa).submitCrs b l t g k).updateA b m ea)
      | _, _ => illegalOperand

def execCrs (mem : MemRef) (s : State) : Host.Outcome State Fault Refusal := .next (issue (.crs mem) (crsBody mem) s)

/-! ## The step-closed point (R353) -/

def State.rankStep (s : State) (lid r : Nat) : Option W32 :=
  (s.weirOf lid).bind fun w => (w.entries.find? fun e => !e.isPod && e.who == r).map WeirEntry.step

/-- A rank of this device has passed a step: it is one of those that its STEPs took, or it has wrapped round since (R353, R278). -/
def WeirEntry.passed (e : WeirEntry) (st : W32) : Bool :=
  verNewer e.step st && decide ((e.step - st).toNat ≤ e.taken)

/-- The ranks served here that are members of a group. -/
def PGTable.ranksHere (t : PGTable) (g : PGroup) : List Nat := t.localRanks.filter g.has

/-- R353: every rank served here has passed the step by STEP, and every CRS of the step has its record. A rank outside group 0 takes no
STEP and has none to pass: where all are such, a step counts that one of them has submitted a CRS for (DESIGN CHOICE, log 34). -/
def State.atClosedPoint (s : State) (l : Launch) (t : PGTable) (g : PGroup) (pgrp : Nat) (st : W32) : Bool :=
  let mine := (t.ranksHere g).map fun r => (s.weirOf l.lr.lid.toNat).bind fun w => w.entries.find? fun e => !e.isPod && e.who == r
  !mine.isEmpty && mine.all (fun e => match e with | some e => e.passed st | none => true) &&
    (mine.any Option.isSome || l.crsDone.any fun c => c.2.1 == pgrp && c.2.2.2 == st) &&
    s.ops.all fun o => match o.crs? with
      | some c => !(o.launch == l.uid && c.b.pgrp == pgrp && c.b.stepn == st && !c.closed)
      | none => true

/-- The steps whose step-closed point a group of a launch may reach here: those that its ranks here have taken, and those of its CRSs. -/
def State.stepsHere (s : State) (l : Launch) (t : PGTable) (g : PGroup) (pgrp : Nat) : List W32 :=
  let taken := (t.ranksHere g).filterMap fun r =>
    (s.weirOf l.lr.lid.toNat).bind fun w => (w.entries.find? fun e => !e.isPod && e.who == r).map WeirEntry.taken
  let steps : List W32 := match taken with | [] => [] | n :: ns => (List.range (ns.foldl min n)).map (BitVec.ofNat 32)
  (steps ++ ((l.crsDone.filter fun c => c.2.1 == pgrp).map fun c => c.2.2.2)).eraseDups

/-- STEP_CLOSED_POINT: the event, and this device's norm partials go to every device of the group (R357). -/
def stepClosedPoint (lid pgrp : Nat) (st : W32) (s : State) : State :=
  match s.byLid lid with
  | none => s
  | some l =>
    match l.pg, l.group? pgrp with
    | some t, some g =>
      if s.stepClosed.contains (lid, pgrp, st) || !s.atClosedPoint l t g pgrp st then s
      else
        let mine := fun (k : StepKey) => k.lid == lid && k.pgrp == pgrp && k.step == st
        let nb := (s.closedHere.filter mine).length
        let s := { s with stepClosed := s.stepClosed ++ [(lid, pgrp, st)], closedHere := s.closedHere.filter fun k => !mine k }
        let s := s.post (s.eventFor 0x50 l.uid (st.toNat + pgrp % 64 * 2 ^ 32 + nb * 2 ^ 64))
        (s.norms.filter fun n => n.lid == lid && n.pgrp == pgrp && n.step == st && !n.sent).foldl State.sendNorm s
    | _, _ => s

def execStepClosedPoint (lid pgrp : Nat) (step : W32) (s : State) : Host.Outcome State Fault Refusal := .next (stepClosedPoint lid pgrp step s)

/-! ## Ring mode (R354, R355) -/

/-- The value of a window-form or escalated element as X320: W × 2^(c - 136) is W × 2^(c + 21) units. -/
def ringX320 (m : RingMsg) (i : Nat) : Int :=
  let v := m.vals.getD i 0
  if m.escalated then v else v * ((2 ^ (m.scale + 21) : Nat) : Int)

/-- The weight of a block's contributions, as the class that the owner will judge them by gives it: that of those folded in, else on
time. -/
def ringWeight (m : RingMsg) : Nat := ((m.folded.head?).map Prod.snd).getD 2

def ringRanks (m : RingMsg) : List Nat := m.folded.map Prod.fst

/-- A hop adds its weighted contribution to a block. The block escalates where the window cannot hold the sum, and on a scale byte below
the agreed scale (R355). -/
def ringAdd (m : RingMsg) (rank : Nat) (es : List Elem) : RingMsg :=
  let m := if m.folded.isEmpty then { m with scale := ((es.head?).map fun e => e.scale.toNat).getD 0, escalated := false } else m
  let xs := (List.range 32).map fun i =>
    match es.find? fun e => e.idx % 32 == i with
    | some e => x320Add (ringX320 m i) (m.sides.getD i 0) (ringWeight m) (elemNum 2 e)
    | none => (ringX320 m i, m.sides.getD i 0)
  let unit : Int := ((2 ^ (m.scale + 21) : Nat) : Int)
  let esc := m.escalated || es.any (fun e => e.scale == 0xFF || decide (e.scale.toNat < m.scale))
    || xs.any (fun x => x.1 % unit != 0 || x.2 != 0 || decide (x.1 / unit < -(2 ^ 63)) || decide (2 ^ 63 ≤ x.1 / unit))
  { m with
    escalated := esc
    vals := xs.map fun x => if esc then x.1 else x.1 / unit
    sides := xs.map Prod.snd
    folded := m.folded ++ [(rank, (ringWeight m))]
    checksum := m.checksum + sumsOf 2 (ringWeight m) es }

/-- The fields of a block's step. -/
def ringFields (m : RingMsg) : StepFields := ⟨m.count, 2, m.ofmt, m.quorum, m.timer, m.normg, m.dst⟩

/-- A block as a bucket starts it: its fields, and its owner's blocks. -/
def ringStart (m : RingMsg) (b : Bucket) (ix : List Nat) : RingMsg :=
  { m with
    blocks := dedup (ix.map (· / 32)), count := b.count, ofmt := b.ofmt, quorum := b.quorum
    timer := b.timer, normg := b.normg, dst := b.dst.toNat, vals := [], sides := [], checksum := 0 }

/-- This device's CRS named by the message joins the block, once, or starts it; it joins none whose step has other fields. -/
def State.ringJoin (s : State) (m : RingMsg) : RingMsg × State :=
  match s.op? m.op with
  | some o =>
    match o.kind with
    | .crs x =>
      let key : StepKey := ⟨(s.lidOf o.launch).toNat, x.b.pgrp, x.b.bid, x.b.stepn⟩
      let mine := x.b.indices x.owners m.owner
      let ix := mine.filter fun i => i / 32 == m.block
      let n := if m.folded.isEmpty then ringStart m x.b mine else m
      if key != m.key || !x.ring.contains m.owner || x.joined.contains (m.owner, m.block) || (ringRanks m).contains x.rank
        || ringFields n != x.b.fields || ix.isEmpty then (m, s)
      else
        match s.readSrc m.op x.b ix with
        | (s, some e) => (m, s.crsEnd m.op e)
        | (s, none) =>
          let s := match s.crs? m.op with | some c => s.setCrs m.op { c with joined := c.joined ++ [(m.owner, m.block)] } | none => s
          (ringAdd n x.rank (s.elemsRead m.op ix), s)
    | _ => (m, s)
  | none => (m, s)

/-- A sum of contributions at one weight as it is at another: on-time images are twice the late ones. -/
def reweigh (old new : Nat) (a : SumAcc) : SumAcc := { a with val := a.val * new / old }

/-- Ranks' contributions, folded into a ring's sum, are acknowledged (R352, R367); they are of the owner's pod (R354). -/
def State.ackRanks (s : State) (k : StepKey) (ranks : List Nat) (c : AckClass) : State :=
  match (s.byLid k.lid).bind Launch.pg with
  | some t => ranks.foldl (fun s r => s.reply (BitVec.ofNat 32 k.lid) (t.devOf r) (.ack r k c)) s
  | none => ranks.foldl (fun s r => s.send (.ack r k c)) s
def State.ackRing (s : State) (m : RingMsg) (c : AckClass) : State := s.ackRanks m.key (ringRanks m) c

/-- The blocks' parts that are tied to some ranks: that hold one of them, or of those that such a part holds. -/
def tiedParts (ps : List RingPart) : Nat → List Nat → List RingPart
  | 0, _ => []
  | n + 1, rs =>
    let mine := ps.filter fun p => p.sum.ranks.any rs.contains
    let more := dedup (mine.flatMap fun p => p.sum.ranks)
    if more.all rs.contains then mine else tiedParts ps n more

/-- A ring's part at a weight: on-time images are twice the late ones. -/
def RingPart.at (p : RingPart) (w : Nat) : List SumAcc × W64 :=
  if p.weight = w then (p.sum.accs, p.checksum)
  else
    let accs := p.sum.accs.map (reweigh p.weight w)
    (accs, accs.foldl (fun c a => c + BitVec.ofInt 64 a.val) 0)

/-- The arrival at its owner of all that some ranks contribute round a ring (R349, R350, R354). -/
def State.ringFold (s : State) (k : StepKey) (owner : Nat) (fx : StepFields) (ranks : List Nat) (ps : List RingPart) : State :=
  let (c, st) := s.classify k owner fx
  if c == .onTime || c == .late then
    let w := if c == .late then 1 else 2
    let accs := ps.flatMap fun p => (p.at w).1
    let r := s.reductionAt (stepAt k st) owner fx
    let r := { r with
      accs := accs.foldl (fun as a => accJoin a as) r.accs
      checksum := ps.foldl (fun c p => c + (p.at w).2) r.checksum
      kept := if c == .late then r.kept ++ ranks.map fun k => Contribution.mk k 1 [] else r.kept
      rings := r.rings ++ [⟨if c == .late then [] else ranks, accs⟩] }
    let s := (s.setReduction r).ackRanks k ranks c
    if c == .late then s else s.checkQuorum (stepAt k st) owner
  else (ranks.foldl (fun s _ => s.countDrop k owner) s).ackRanks k ranks c

/-- A block's partial sum at its owner waits until each of the owner's blocks is there from every rank that it, or a part tied to it, holds:
then those ranks' contributions arrive (R349). A rank's block that has come already is not counted again. One that finds no room is
dropped, and its ranks' contributions with it (R347). -/
def State.ringArrive (s : State) (m : RingMsg) : State :=
  let same := fun (p : RingPart) => p.key == m.key && p.owner == m.owner && p.fx == ringFields m
  if s.ringParts.any fun p => same p && p.block == m.block && p.sum.ranks.any (ringRanks m).contains then s
  else
    let accs := if s.areaRoom (32 * 40)
      then (List.range 32).map fun i => SumAcc.mk (m.block * 32 + i) (ringX320 m i) (m.sides.getD i 0) else []
    let parts := s.ringParts ++ [⟨m.key, m.owner, ringFields m, m.block, ringWeight m, ⟨ringRanks m, accs⟩, m.checksum⟩]
    let mine := tiedParts (parts.filter same) parts.length (ringRanks m)
    let ranks := dedup (mine.flatMap fun p => p.sum.ranks)
    if !(m.blocks.all fun k => ranks.all fun r => mine.any fun p => p.block == k && p.sum.ranks.contains r) then { s with ringParts := parts }
    else
      let s := { s with ringParts := parts.filter fun p => !mine.contains p }
      if mine.any fun p => p.sum.accs.isEmpty then (ranks.foldl (fun s r => s.noRoom m.key m.owner r) s).ackRanks m.key ranks .dropped
      else s.ringFold m.key m.owner (ringFields m) ranks mine

/-- RING_HOP: this device's contribution joins; at the owner the block is folded in, elsewhere it is passed on. With no active launch of its
LID it is held, or dropped (R418). -/
def ringHop (m : RingMsg) (s : State) : State :=
  match (s.byLid m.key.lid).bind Launch.pg with
  | none =>
    if m.folded.isEmpty then s
    else if s.pastLids.contains m.key.lid then s.ackRing m .dropped
    else if s.areaRoom (32 * 40) then s.hold (.ring m)
    else ((ringRanks m).foldl (fun s k => s.noRoom m.key m.owner k) s).ackRing m .dropped
  | some t =>
    let (m, s) := s.ringJoin m
    if m.folded.isEmpty then s else if t.serves m.owner then s.ringArrive m else s.send (.ring m)

def execRingHop (m : RingMsg) (s : State) : Host.Outcome State Fault Refusal := .next (ringHop m s)

/-! ## GSGET (R280) and GCLR (R358) -/

/-- The newer (or the older) slot of a g register; an empty slot is the older. -/
def GReg.pick (g : GReg) (older : Bool) : Option GSlot :=
  match g.s0, g.s1 with
  | none, none => none
  | some a, none => if older then none else some a
  | none, some b => if older then none else some b
  | some a, some b => if verNewer b.ver a.ver != older then some b else some a

/-- s(2k) and s(2k + 1) of a GSGET, and its status bits. -/
def gsValue (x : Option GSlot) (j : Nat) : W64 × W64 × BitVec 6 :=
  match x with
  | none => (0, 16, 0)
  | some g =>
    let hi := BitVec.ofNat 64 (g.ver.toNat * 2 ^ 32 + g.side.toNat)
    if j = 0 then let (c, fl) := x320Read f64 rne g.val g.side 1; (BitVec.ofNat 64 c, hi, fl)
    else (x320Word g.val (j - 1), hi, 0)

def gsgetBody (d : Opnd) (j : Nat) (older : Bool) (x : Nat) (b : Band) (s : State) : Try Fin' := do
  match d with
  | .s n => do
    need (n.val % 2 == 0 && decide (j ≤ 5))
    b.flagReady true
    s.alloc b 0 2
    let (lo, hi, fl) := gsValue ((s.gOf x).pick older) j
    let t := s.invalidateL1 b.place.core
    return .next (((t.startOp b true (.arith .tagS2 (.pair lo hi) fl)).awaitS b n.val s.nextUid 0).awaitS b (n.val + 1) s.nextUid 1)
  | _ => illegalOperand

def execGsget (d : Opnd) (j : BitVec 3) (g : BitVec 1) (x : BitVec 6) (s : State) : Host.Outcome State Fault Refusal :=
  .next (issue (.gsget d j g x) (gsgetBody d j.toNat (g == 1) x.toNat) s)

/-- R358: the g registers whose bits are written 1 are emptied. -/
def State.clearG (s : State) (v : W64) : State := { s with gregs := s.gregs.filter fun g => !v.getLsbD g.j }

def execGclrWrite (v : W64) (s : State) : Host.Outcome State Fault Refusal := .next (s.clearG v)

end Sys2Proof.Machine
end

