-- ==== Sys2Proof/Machine/Gather.lean ====
section
/-! DEFINITION. Scalar reductions: CSCAL (R276), the closer (R356). Publications by CAG (R277, R359, R418). -/

namespace Sys2Proof.Machine

/-! ## CSCAL -/

/-- The fields of a scalar descriptor. -/
structure ScalarDesc where
  stepn : W32
  opc : Nat
  typ : Nat
  pgrp : Nat
  quorum : Nat
  timer : Nat
  recVa : W64
  deriving DecidableEq, Repr

def parseScalar (bs : List Byte) : ScalarDesc where
  stepn := BitVec.ofNat 32 (descField bs 0 4)
  opc := descField bs 4 1
  typ := descField bs 5 1
  pgrp := descField bs 6 2
  quorum := descField bs 8 4
  timer := descField bs 12 4
  recVa := BitVec.ofNat 64 (descField bs 16 8)

/-- R273, R276: the descriptor is not malformed. -/
def ScalarDesc.ok (d : ScalarDesc) (g : PGroup) (rank : Nat) : Bool :=
  g.has rank && decide (d.opc ≤ 3) && decide (d.typ ≤ 3) && !(d.opc == 3 && decide (2 ≤ d.typ)) && !(d.opc == 0 && d.typ == 3)
    && decide (1 ≤ d.quorum) && decide (d.quorum ≤ g.count) && decide (1 ≤ d.timer) && d.recVa != 0 && alignedTo 32 d.recVa

/-- The device that serves member 0 of a group (R356). -/
def PGTable.closer (t : PGTable) (g : PGroup) : Nat := t.posOf g.first

/-- The record of a rank's CSCAL is written and its operation ends. -/
def State.scalarRecord (s : State) (u : Nat) (st : W16) (non nlate ndrop : Nat) (result : W64) : State :=
  match s.op? u with
  | some o =>
    match o.kind, s.launch? o.launch with
    | .cscal _ stepn _ _ _ _ _ recVa _ _ _ _, some l => (s.closeRecord l (flumeOf o.place.core) recVa stepn st non nlate ndrop result).dropOp u
    | _, _ => s.dropOp u
  | none => s

/-- The bucket is handed to the Flume: a contribution to a closer on another device is sent. -/
def State.submitScalar (s : State) (bd : Band) (l : Launch) (t : PGTable) (g : PGroup) (d : ScalarDesc) (value : W64) : State :=
  let u := s.nextUid
  let s := (s.externalEffect l.uid).startEngine bd
    (.cscal bd.rank d.stepn d.opc d.typ d.pgrp d.quorum d.timer d.recVa value s.cycle false false)
  if t.closer g = t.here then s
  else
    let (s, ok) := s.sendTo (t.devAt (t.closer g))
      (.scalar ⟨l.lr.lid.toNat, d.pgrp, d.stepn, s.devid, u, bd.rank, d.opc, d.typ, d.quorum, d.timer, value⟩)
    if ok then s else (s.peerEvent l.lr.lid (t.devAt (t.closer g))).scalarRecord u (addErr 0 6) 0 0 0 0

def cscalBody (a p : Opnd) (b : Band) (s : State) : Try Fin' := do
  s.notRedundant b
  let value ← s.scalarSrc b false a
  let e ← s.scalarSrc b false p
  if e.toNat % 32 ≠ 0 then .error (.trap tMisalign 0 e 0)
  withDesc b e 32 s fun bs s => do
    let d := parseScalar bs
    match s.bandLaunch b with
    | none => illegalOperand
    | some l =>
      match l.pg, l.group? d.pgrp with
      | some t, some g => do
        need (d.ok g b.rank && zeroBytes bs 24 32)
        s.checkStore b d.recVa 32
        b.flagReady false
        s.needSlot b
        holdUnless (s.accessesDone b)
        return .next ((s.noteRecord (s.bandCtx b) d.recVa).submitScalar b l t g d value)
      | _, _ => illegalOperand

def execCscal (a b : Opnd) (s : State) : Host.Outcome State Fault Refusal := .next (issue (.cscal a b) (cscalBody a b) s)

/-! The reduction of R276. -/

/-- The value of a contribution in a type, and whether it is a NaN. -/
def scalarNum (typ : Nat) (x : W64) : Num := if typ = 2 then f32.value (x.toNat % 2 ^ 32) else f64.value x.toNat

/-- The float that stands (greatest or least, -0 below +0). -/
def floatPick (typ opc : Nat) (x y : W64) : W64 :=
  let below := (scalarNum typ x).below (scalarNum typ y)
  if opc = 1 then (if below then y else x) else (if below then x else y)

def intPick (typ opc : Nat) (x y : W64) : W64 :=
  let below := if typ = 0 then decide (x.toInt < y.toInt) else decide (x.toNat < y.toNat)
  if opc = 1 then (if below then y else x) else (if below then x else y)

/-- RESULT and whether a NaN was seen. -/
def reduceScalars (opc typ : Nat) (xs : List W64) : W64 × Bool :=
  let xs := if typ = 2 then xs.map fun x => BitVec.ofNat 64 (x.toNat % 2 ^ 32) else xs
  match xs with
  | [] => (0, false)
  | x :: rest =>
    if typ < 2 then
      (match opc with
        | 0 => rest.foldl (· + ·) x
        | 3 => rest.foldl (· ||| ·) x
        | _ => rest.foldl (intPick typ opc) x, false)
    else
      let nan := xs.any fun x => (scalarNum typ x).isNan
      if opc = 0 then
        let (v, sd) := xs.foldl (fun (a : Int × BitVec 4) x => x320Add a.1 a.2 1 (scalarNum typ x)) (0, 0)
        (BitVec.ofNat 64 (x320Read f32 rne v sd 1).1, nan)
      else if nan then (if typ = 2 then 0x7FC00000 else 0x7FF8000000000000, true)
      else (rest.foldl (floatPick typ opc) x, false)

/-! The closer (R356). -/

def State.scalarStep? (s : State) (lid pgrp : Nat) (step : W32) : Option ScalarStep :=
  s.scalars.find? fun x => x.lid == lid && x.pgrp == pgrp && x.step == step

def State.setScalar (s : State) (x : ScalarStep) : State :=
  { s with scalars := (s.scalars.filter fun y => !(y.lid == x.lid && y.pgrp == x.pgrp && y.step == x.step)) ++ [x] }

/-- The outcome of a step for a contribution: the record of the operation that made it, or a message to its device. -/
def State.scalarOutcome (s : State) (dev : Nat) (r : ScalarResult) : State :=
  if dev = s.devid then s.scalarRecord r.tag r.status r.non r.nlate r.ndrop r.result
  else s.reply (BitVec.ofNat 32 r.lid) dev (.scalarResult dev r)

/-- A scalar step closes: every contributing rank receives the same result. -/
def State.closeScalar (s : State) (x : ScalarStep) (how : W16) : State :=
  let (result, nan) := reduceScalars x.opc x.typ (x.vals.map ScalarVal.value)
  let st := how ||| (if nan then stNan else 0)
  let s := s.setScalar { x with closed := true, status := st, result := result }
  x.vals.foldl (fun s v => s.scalarOutcome v.dev ⟨x.lid, x.pgrp, x.step, v.tag, v.rank, st, x.vals.length, 0, x.ndrop, result⟩) s

/-- A contribution reaches the closer: it joins, is late, or disagrees (R356, R349). A second one of a rank for a step still open is refused as
one that disagrees is (DEDUCED, log 34). -/
def State.scalarArrive (s : State) (m : ScalarMsg) : State :=
  let x := (s.scalarStep? m.lid m.pgrp m.step).getD
    ⟨m.lid, m.pgrp, m.step, m.opc, m.typ, m.quorum, m.timer, s.cycle + microseconds m.timer, false, [], 0, false, 0, 0⟩
  let refused := x.opc != m.opc || x.typ != m.typ || x.quorum != m.quorum || x.timer != m.timer
  if refused || (!x.closed && x.vals.any fun v => v.rank == m.rank) then
    let s := if refused then s.setScalar { x with ndrop := x.ndrop + 1 } else s
    s.scalarOutcome m.dev ⟨m.lid, m.pgrp, m.step, m.tag, m.rank, addErr 0 5, 0, 0, if refused then x.ndrop + 1 else x.ndrop, 0⟩
  else if x.closed then
    (s.setScalar { x with ndrop := x.ndrop + 1 }).scalarOutcome m.dev
      ⟨m.lid, m.pgrp, m.step, m.tag, m.rank, x.status ||| stLate, x.vals.length, 0, x.ndrop + 1, x.result⟩
  else
    let x := { x with vals := x.vals ++ [⟨m.rank, m.dev, m.tag, m.value⟩] }
    let s := s.setScalar x
    if x.quorum ≤ x.vals.length then s.closeScalar x stQuorum else s

/-- The CSCAL of a rank of this device reaches the closer, this device. -/
def scalarOwn (u : Nat) (s : State) : State :=
  match s.op? u with
  | some o =>
    match o.kind, s.launch? o.launch with
    | .cscal rank st opc typ pgrp q tm recVa v at_ false lt, some l =>
      match l.pg, l.group? pgrp with
      | some t, some g =>
        if t.closer g = t.here then
          (s.setOp { o with kind := .cscal rank st opc typ pgrp q tm recVa v at_ true lt }).scalarArrive
            ⟨l.lr.lid.toNat, pgrp, st, s.devid, u, rank, opc, typ, q, tm, v⟩
        else s
      | _, _ => s
    | _, _ => s
  | none => s

/-- A scalar contribution is discarded as dropped, and its sender told (R418). -/
def State.scalarDropped (s : State) (m : ScalarMsg) : State :=
  s.reply (BitVec.ofNat 32 m.lid) m.dev (.ack m.rank ⟨m.lid, m.pgrp, 0, m.step⟩ .dropped)

/-- One of another device: applied, held, or discarded as dropped (R418). -/
def scalarRemote (m : ScalarMsg) (s : State) : State :=
  match s.byLid m.lid with
  | some _ => s.scalarArrive m
  | none =>
    if s.pastLids.contains m.lid then s.scalarDropped m
    else if s.areaRoom heldBytes then s.hold (.scalar m)
    else (s.post (s.eventOf 0x54 (BitVec.ofNat 32 m.lid) (stepDetail ⟨m.lid, m.pgrp, 0, m.step⟩ + m.rank % 2 ^ 25 * 2 ^ 70))).scalarDropped m

def execScalarContributionArrival (src : ScalarSrc) (s : State) : Host.Outcome State Fault Refusal :=
  .next (match src with
    | .own u => scalarOwn u s
    | .remote m => scalarRemote m s)

/-- TIMER of a scalar step expires (R351, R356). -/
def scalarTimer (lid pgrp : Nat) (step : W32) (s : State) : State :=
  match s.scalarStep? lid pgrp step with
  | some x =>
    if x.closed || s.cycle < x.deadline then s
    else if (s.reg 0x2108).getLsbD 62 then
      if x.expired then s
      else (s.setScalar { x with expired := true }).post
        (s.eventOf 0x55 (BitVec.ofNat 32 lid) (stepDetail ⟨lid, pgrp, 0, step⟩) x.vals.length)
    else s.closeScalar x stTimer
  | none => s

def execScalarTimerExpiry (lid pgrp : Nat) (step : W32) (s : State) : Host.Outcome State Fault Refusal := .next (scalarTimer lid pgrp step s)

/-- The closer's result arrives at a contributing device, for the operation that it names; one that comes after its record is discarded. -/
def scalarResult (r : ScalarResult) (s : State) : State :=
  match (s.op? r.tag).map Op.kind with
  | some (.cscal rank st _ _ g ..) =>
    if rank = r.rank && st = r.step && g = r.pgrp then s.scalarRecord r.tag r.status r.non r.nlate r.ndrop r.result else s
  | _ => s

def execScalarResultArrival (r : ScalarResult) (s : State) : Host.Outcome State Fault Refusal := .next (scalarResult r s)

/-- R356: no result within twice TIMER. -/
def cscalTimeout (u : Nat) (s : State) : State :=
  match s.op? u with
  | some o =>
    match o.kind with
    | .cscal _ _ _ _ _ _ tm _ _ at_ _ late =>
      if at_ + 2 * microseconds tm ≤ s.cycle then s.scalarRecord u (addErr (if late then stLate else 0) 6) 0 0 0 0 else s
    | _ => s
  | none => s

def execCscalResultTimeout (op : Nat) (s : State) : Host.Outcome State Fault Refusal := .next (cscalTimeout op s)

/-! ## CAG -/

structure CagDesc where
  ver : W32
  pgrp : Nat
  nchk : Nat
  src : W64
  dst : W64
  recVa : W64
  deriving DecidableEq, Repr

def parseCag (bs : List Byte) : CagDesc where
  ver := BitVec.ofNat 32 (descField bs 0 4)
  pgrp := descField bs 4 2
  nchk := descField bs 6 2
  src := BitVec.ofNat 64 (descField bs 8 8)
  dst := BitVec.ofNat 64 (descField bs 16 8)
  recVa := BitVec.ofNat 64 (descField bs 24 8)

def CagDesc.ok (d : CagDesc) : Bool :=
  decide (d.nchk < 16384) && alignedTo 32 d.src && alignedTo 65536 d.dst && d.recVa != 0 && alignedTo 32 d.recVa

/-- List positions of the devices that a CAG publishes to; this device alone, as position 0, without a table. -/
def Launch.cagDevices (l : Launch) (pgrp : Nat) : List Nat :=
  match l.pg, l.group? pgrp with
  | some t, some g => t.positions g
  | _, _ => [0]

def Launch.here (l : Launch) : Nat := match l.pg with | some t => t.here | none => 0

/-- R277: every rank a device serves is silent in this device's Weir. A rank outside group 0 never is. -/
def State.silentDevice (s : State) (l : Launch) (pos : Nat) : Bool :=
  match l.pg, l.group? 0, s.weirOf l.lr.lid.toNat with
  | some t, some g, some w =>
    let ranks := (List.range (t.rpd + 1)).map (· + pos * (t.rpd + 1))
    if podOf (t.devAt pos) = podOf s.devid then ranks.all fun r => w.entries.any fun e => !e.isPod && e.who == r && e.silent
    else ranks.all g.has && w.entries.any fun e => e.isPod && e.who == podOf (t.devAt pos) && e.silent
  | _, _, _ => false

/-- A CAG's record is written once every device has ended, and its operation ends. -/
def State.settleCag (s : State) (u : Nat) : State :=
  match s.op? u with
  | some o =>
    match o.kind, s.launch? o.launch with
    | .cag rank ver pgrp _ _ _ recVa _ pages ended _ st, some l =>
      if (l.cagDevices pgrp).all fun p => ended.any fun e => e.1 == p then
        let count := fun (f : CagOutcome → Bool) => (ended.filter fun e => f e.2).length
        let non := count fun | .accepted => true | _ => false
        let nlate := count fun | .refused _ => true | _ => false
        let gone := pages.any fun v => s.pubGone (.rank rank) v ver
        let st := if gone && (st &&& stPubst 3) == 0 then st ||| stPubst 3 else st
        (s.closeRecord l (flumeOf o.place.core) recVa ver st non nlate (ended.length - non - nlate) 0).dropOp u
      else s
    | _, _ => s
  | none => s

/-- What a device's end adds to the status: the first refusal's code, the first failure's. -/
def cagStatus (st : W16) : CagOutcome → W16
  | .refused p => if (st &&& stPubst 3) == 0 then st ||| stPubst p.toNat else st
  | .failed e => addErr st e.toNat
  | _ => st

/-- A device has ended its deliveries of a CAG. -/
def State.cagEnd (s : State) (u pos : Nat) (out : CagOutcome) : State :=
  match s.op? u with
  | some o =>
    match o.kind, s.launch? o.launch with
    | .cag rank ver pgrp nchk src dst recVa dl pages ended rf st, some l =>
      if !(l.cagDevices pgrp).contains pos || ended.any fun e => e.1 == pos then s
      else
        (s.setOp { o with kind := .cag rank ver pgrp nchk src dst recVa dl pages (ended ++ [(pos, out)]) rf (cagStatus st out) }).settleCag u
    | _, _ => s
  | none => s

/-- Another device reports how it ended, or the transport that it is lost. -/
def cagDeviceDone (u pos : Nat) (out : CagOutcome) (s : State) : State :=
  match (s.op? u).bind fun o => s.launch? o.launch with
  | some l => if pos = l.here then s else s.cagEnd u pos out
  | none => s

def execCagDeviceDone (op pos : Nat) (out : CagOutcome) (s : State) : Host.Outcome State Fault Refusal := .next (cagDeviceDone op pos out s)

/-- The CAG is handed to the Flume; devices that only silent ranks live on are counted at once. -/
def State.submitCag (s : State) (bd : Band) (l : Launch) (d : CagDesc) : State :=
  let u := s.nextUid
  let s := (s.externalEffect l.uid).startEngine bd (.cag bd.rank d.ver d.pgrp (d.nchk + 1) d.src d.dst d.recVa [] [] [] none 0)
  (l.cagDevices d.pgrp).foldl (fun s p => if p != l.here && s.silentDevice l p then s.cagEnd u p .unreachable else s) s

/-- R277: DST must be a versioned page of the issuing device. -/
def State.versionedPage (s : State) (c : Ctx) (va : W64) : Bool :=
  decide (va.toNat / 2 ^ 57 = 0) && match s.leafFor c va.toNat with | .ok (pte, _) => pteVer pte | .error _ => false

def cagBody (m : MemRef) (b : Band) (s : State) : Try Fin' := do
  s.notRedundant b
  let ea ← s.effective b m 64
  match s.bandLaunch b with
  | none => illegalState
  | some l => do
    if l.pg.isNone && !b.privileged then illegalState
    if ea.e.toNat % 64 ≠ 0 then .error (.trap tMisalign 0 ea.e 0)
    withDesc b ea.e 64 s fun bs s => do
      let d := parseCag bs
      need (d.ok && zeroBytes bs 32 64 && (match l.pg with
        | some _ => (match l.group? d.pgrp with | some g => g.has b.rank | none => false)
        | none => d.pgrp == 0))
      s.checkStore b d.recVa 32
      s.walkFirst (s.bandCtx b) .load 1 [(0, d.dst)]
      if !s.versionedPage (s.bandCtx b) d.dst then .error (.trap FaultKind.permission.trapCode 0 d.dst (BitVec.ofNat 64 Acc.store.code))
      b.flagReady false
      s.needSlot b
      holdUnless (s.accessesDone b)
      return .next (((s.noteRecord (s.bandCtx b) d.recVa).submitCag b l d).updateA b m ea)

def execCag (mem : MemRef) (s : State) : Host.Outcome State Fault Refusal := .next (issue (.cag mem) (cagBody mem) s)

/-! ### Delivery -/

/-- What the delivery of a chunk at this device comes to. -/
inductive Delivery where
  | failed (e : Nat)
  | refused (p : BitVec 2)
  | waits
  | taken (set : Nat) (closed : Bool)
  deriving DecidableEq, Repr

/-- A chunk's bytes and its poisoned atoms laid into an incoming frame. -/
def State.layChunk (s : State) (pa : Nat) (data : Nat) (bad : List Nat) : State :=
  let s := s.ramStore pa 65536 data
  { s with poison := bad.foldl (fun p a => insertAsc p (pa + a)) s.poison }

/-- A chunk of a rank for version w is delivered at an address by a Flume: the page is opened by its first chunk and closed by its last (R277,
R65); chunks of one rank join, another rank's find the version incoming (R414; DEDUCED, log 38). `bad` holds the offsets of poisoned atoms. -/
def State.deliver (s : State) (l : Launch) (n rank : Nat) (w : W32) (va : W64) (data : Nat) (bad : List Nat) : State × Delivery :=
  match s.translate (l.flumeCtx n) .load va with
  | .error f => (s, .failed f.kind.code)
  | .ok t =>
    if !pteVer t.pte then (s, .failed FaultKind.permission.code)
    else
      let set := setOf t.pte
      let size := 2 ^ (12 + pteSize t.pte)
      let off := pageOffset (pteSize t.pte) va.toNat
      match s.openFor set w size l.uid (.rank rank) with
      | (.stale, s) => (s, .refused 1)
      | (.duplicate, s) => (s, .refused 2)
      | (.waits, s) => (s, .waits)
      | (.taken _, s) =>
        match s.pub? set w with
        | some p =>
          match p.slot with
          | none => (s, .waits)
          | some j =>
            if p.chunks.contains (off / 65536) then (s, .taken set false)
            else
              let s := s.layChunk (vsFrame s set j + off) data bad
              let p := { p with chunks := p.chunks ++ [off / 65536] }
              let s := { s with pubs := s.pubs.map fun x => if x.set == set && x.ver == w then p else x }
              if p.chunks.length * 65536 = size then (s.closePub set w, .taken set true) else (s, .taken set false)
        | none => (s, .waits)

/-- A chunk's page is one that its publisher has opened, and the publication has been abandoned (R359). -/
def State.chunkGone (s : State) (l : Launch) (n rank : Nat) (w : W32) (va : W64) (sets : List Nat) : Bool :=
  match s.translate (l.flumeCtx n) .load va with
  | .ok t => pteVer t.pte && sets.contains (setOf t.pte) && s.pubGone (.rank rank) (setOf t.pte) w
  | .error _ => false

/-- The pages opened and not closed, after a delivery. -/
def Delivery.sets (d : Delivery) (sets : List Nat) : List Nat :=
  match d with
  | .taken set false => insertAsc sets set
  | .taken set true => sets.filter (· != set)
  | _ => sets

/-- The source of a chunk cannot be read: the rank's part ends in engine error, and its record is written (R274, R277). -/
def State.cagFail (s : State) (u : Nat) (e : Nat) : State :=
  match s.op? u with
  | some o =>
    match o.kind, s.launch? o.launch with
    | .cag _ ver pgrp _ _ _ recVa _ _ ended _ st, some l =>
      let non := (ended.filter fun x => x.2 == .accepted).length
      let nlate := (ended.filter fun x => match x.2 with | .refused _ => true | _ => false).length
      (s.closeRecord l (flumeOf o.place.core) recVa ver (addErr st e) non nlate ((l.cagDevices pgrp).length - non - nlate) 0).dropOp u
    | _, _ => s
  | none => s

/-- What a delivery at this device leaves in the operation: the pages opened and not closed, the first refusal, or its end here. -/
def State.cagDelivered (s : State) (u c : Nat) (d : Delivery) : State :=
  match s.op? u with
  | some o =>
    match o.kind, s.launch? o.launch with
    | .cag rank ver pgrp nchk src dst recVa dl pages ended rf st, some l =>
      match d with
      | .waits => s
      | .failed e =>
        (s.setOp { o with kind := .cag rank ver pgrp nchk src dst recVa (insertAsc dl c) pages ended rf st }).cagEnd u l.here
          (.failed (BitVec.ofNat 3 e))
      | _ =>
        let pages := d.sets pages
        let rf := match d with | .refused p => some (rf.getD p) | _ => rf
        let dl := insertAsc dl c
        let s := s.setOp { o with kind := .cag rank ver pgrp nchk src dst recVa dl pages ended rf st }
        if dl.length < nchk then s else s.cagEnd u l.here (match rf with | some p => .refused p | none => .accepted)
    | _, _ => s
  | none => s

/-- A chunk of a CAG of this device is read, sent to the other devices, and delivered here. -/
def cagOwn (u c : Nat) (s : State) : State :=
  match s.op? u with
  | some o =>
    match o.kind, s.launch? o.launch with
    | .cag rank ver pgrp nchk src dst _ dl pages ended _ st, some l =>
      if nchk ≤ c || dl.contains c then s
      else
        let fl := l.flumeCtx (flumeOf o.place.core)
        match s.enginePieces fl .load (src + BitVec.ofNat 64 (c * 65536)) 65536 with
        | .error e => s.cagFail u e
        | .ok ps =>
          let data := leNat ((pieceBytes ps).map fun pa => s.coreByte o.place.core (o.launch, o.run) pa)
          let badAt := s.badPieces o.who ps
          let offs := ps.foldl (fun (a : Nat × List Nat) p => (a.1 + p.2, a.2 ++ (badAt.filter fun x => decide (p.1 ≤ x.1) && decide (x.1 < p.1 + p.2)).map
            fun x => x.1 - p.1 + a.1)) (0, [])
          let va := dst + BitVec.ofNat 64 (c * 65536)
          let n := flumeOf o.place.core
          let (s, d) := if ended.any (fun e => e.1 == l.here) then (s, .refused 0)
            else if s.chunkGone l n rank ver va pages then (s, .refused 3)
            else s.deliver l n rank ver va data offs.2
          if d == .waits then s
          else
            let s := badAt.foldl (fun s a => s.damageEvent l.uid a) (s.touchPieces o.who ps)
            let s := if badAt.isEmpty then s else
              s.setOp { o with kind := match o.kind with
                | .cag a1 a2 a3 a4 a5 a6 a7 a8 a9 b1 b2 _ => .cag a1 a2 a3 a4 a5 a6 a7 a8 a9 b1 b2 (st ||| stPois)
                | k => k }
            let msg : CagSrc := .remote s.devid u l.lr.lid.toNat rank nchk c ver va data offs.2
            let s := match l.pg with
              | some t => (l.cagDevices pgrp).foldl (fun (s : State) p =>
                  if p == l.here || ended.any (fun e => e.1 == p) then s
                  else
                    let (s, ok) := s.sendTo (t.devAt p) (.cagChunk (t.devAt p) msg)
                    if ok then s else (s.peerEvent l.lr.lid (t.devAt p)).cagEnd u p .unreachable) s
              | none => s
            s.cagDelivered u c d
    | _, _ => s
  | none => s

/-! ### CAGs of other devices -/

def State.cagIn? (s : State) (dev tag : Nat) : Option CagIn := s.cagsIn.find? fun x => x.dev == dev && x.tag == tag
def State.setCagIn (s : State) (x : CagIn) : State :=
  { s with cagsIn := (s.cagsIn.filter fun y => !(y.dev == x.dev && y.tag == x.tag)) ++ [x] }

/-- This device's deliveries of a CAG have ended, and its issuer is told; nothing more of it is written here (R277). -/
def State.endCagIn (s : State) (x : CagIn) (lid : W32) (out : CagOutcome) : State :=
  (s.setCagIn { x with held := [], ended := true }).reply lid x.dev (.cagDone x.dev x.tag out)

/-- A chunk is delivered here, refused, or kept until its page's open has a frame (R65). -/
def State.takeChunk (s : State) (x : CagIn) (c : CagChunk) : State :=
  match s.launch? x.launch with
  | none => s
  | some l =>
    if x.ended || x.got.contains c.chunk then s
    else
      let n := s.someFlume
      let (s, d) := if s.chunkGone l n x.rank x.ver c.dst x.sets then (s, .refused 3) else (s.tick 1).deliver l n x.rank x.ver c.dst c.data c.bad
      let x := { x with held := x.held.filter fun y => y.chunk != c.chunk }
      match d with
      | .waits => s.setCagIn { x with held := x.held ++ [c] }
      | .failed e => s.endCagIn x l.lr.lid (.failed (BitVec.ofNat 3 e))
      | d =>
        let x := { x with
          got := insertAsc x.got c.chunk, sets := d.sets x.sets
          refused := match d with | .refused p => some (x.refused.getD p) | _ => x.refused }
        if x.got.length < x.nchk then s.setCagIn x
        else s.endCagIn x l.lr.lid (match x.refused with | some p => .refused p | none => .accepted)

/-- A chunk of another device's CAG: delivered where the launch is active, else nothing is written and the device counts as unreachable
(R418). -/
def cagRemote (dev tag lid rank nchk : Nat) (w : W32) (c : CagChunk) (s : State) : State :=
  match s.byLid lid with
  | some l => s.takeChunk ((s.cagIn? dev tag).getD ⟨dev, tag, l.uid, rank, w, nchk, [], [], [], none, false⟩) c
  | none => s.reply (BitVec.ofNat 32 lid) dev (.cagDone dev tag .unreachable)

/-- Chunks whose open has a frame meanwhile, or has been refused, are delivered (R65, R277). -/
def State.landChunks (s : State) : State :=
  s.cagsIn.foldl (fun s x => x.held.foldl (fun s c => match s.cagIn? x.dev x.tag with | some y => s.takeChunk y c | none => s) s) s

def execCagChunkArrival (src : CagSrc) (s : State) : Host.Outcome State Fault Refusal :=
  .next (match src with
    | .own u c => cagOwn u c s
    | .remote dev tag lid rank nchk chunk w dst data bad => cagRemote dev tag lid rank nchk w ⟨chunk, dst, data, bad⟩ s)

end Sys2Proof.Machine
end

