-- ==== Sys2Proof/Machine/Weir.lean ====
section
/-! DEFINITION. The Weir (R360 to R364, R278, R279), messages held for launches (R418), host commands to Flumes and Weir (R364), and
the fabric's reports (R366, R367). -/

namespace Sys2Proof.Machine

/-! ## Registers (R364) -/

def State.weirctl (s : State) : W64 := s.reg 0x2108
def State.hosts (s : State) : Bool := s.weirctl.getLsbD 63
def State.hbeat (s : State) : Nat := microseconds (max 10 (fld s.weirctl 47 32))
def State.siltmo (s : State) : Nat := microseconds (max 1000 (min 10000000 (fld s.weirctl 31 0)))

/-! ## Entries -/

/-- The entries of a launch's stepping group: ranks of its pod, other pods. -/
def weirEntries (t : PGTable) (g : PGroup) (cycle : Nat) : List WeirEntry :=
  let pod := podOf (t.devAt t.here)
  let mine := g.members.filter fun r => podOf (t.devOf r) == pod
  let pods := dedup ((g.members.map fun r => podOf (t.devOf r)).filter (· != pod))
  (mine.map fun r => ⟨r, false, 0, false, cycle, false, 0⟩) ++ pods.map fun p => ⟨p, true, 0, false, cycle, false, 0⟩

/-- R360: the group of a launch that becomes active. -/
def State.weirStart (s : State) (l : Launch) : State :=
  match l.pg, l.group? 0 with
  | some t, some g => { s with weir := s.weir ++ [⟨l.lr.lid.toNat, g.lead, weirEntries t g s.cycle, s.cycle⟩] }
  | _, _ => s

/-- Whether the Weir has no room for a launch (R360). -/
def State.weirFull (s : State) (l : Launch) : Bool := l.pg.isSome && decide (8 ≤ s.weir.length)

/-- F: the oldest step among the live entries. -/
def WeirGroup.floor (w : WeirGroup) : W32 :=
  (oldestStep ((w.entries.filter fun e => !e.silent).map WeirEntry.step)).getD 0

def WeirGroup.rank? (w : WeirGroup) (r : Nat) : Option WeirEntry := w.entries.find? fun e => !e.isPod && e.who == r

def State.setWeir (s : State) (w : WeirGroup) : State := { s with weir := s.weir.map fun x => if x.lid == w.lid then w else x }

def WeirGroup.put (w : WeirGroup) (e : WeirEntry) : WeirGroup :=
  { w with entries := w.entries.map fun x => if x.isPod == e.isPod && x.who == e.who then e else x }

/-- The minimum step of the pod's live ranks, if there are any. -/
def WeirGroup.podMin (w : WeirGroup) : Option W32 :=
  oldestStep ((w.entries.filter fun e => !e.isPod && !e.silent).map WeirEntry.step)

/-- DETAIL of classes 0x51 and 0x52 (R365). -/
def weirDetail (e : WeirEntry) : Nat :=
  e.step.toNat + e.who % 2 ^ 25 * 2 ^ 32 + (if e.isPod then 2 ^ 63 else 0) + e.heard % 2 ^ 64 * 2 ^ 64

/-- Bands that wait for the floor, a slot or an entry try again. -/
def State.retrySteps (s : State) : State :=
  { s with bands := s.bands.map fun b => if b.wait == some .step then { b with held := false } else b }

/-! ## Sending (R361) -/

/-- Devices of a pod that hold ranks of the group, as list positions in rising order. -/
def PGTable.podPositions (t : PGTable) (g : PGroup) (pod : Nat) : List Nat := (t.positions g).filter fun p => podOf (t.devAt p) == pod

/-- The pod leader that this device knows of: for its own pod, by its entries of live ranks. -/
def State.podLeader (t : PGTable) (g : PGroup) (w : WeirGroup) (pod : Nat) : Option Nat :=
  (t.podPositions g pod).find? fun p =>
    podOf (t.devAt t.here) != pod || w.entries.any fun e => !e.isPod && !e.silent && t.posOf e.who == p

/-- The steps of some ranks of this device go to the pod's other devices. -/
def State.sendSteps (s : State) (t : PGTable) (g : PGroup) (lid : Nat) (es : List WeirEntry) : State :=
  let dst := (t.podPositions g (podOf (t.devAt t.here))).filter (· != t.here)
  es.foldl (fun s e => dst.foldl (fun s p => s.reply (BitVec.ofNat 32 lid) (t.devAt p) (.weirStep (t.devAt p) lid e.who e.step)) s) s

/-- The pod's minimum goes to the other pods' leaders. -/
def State.sendSummary (s : State) (t : PGTable) (g : PGroup) (w : WeirGroup) : State :=
  match w.podMin with
  | none => s
  | some m =>
    let mine := podOf (t.devAt t.here)
    let pods := (w.entries.filter WeirEntry.isPod).map WeirEntry.who
    pods.foldl (fun s p =>
      match State.podLeader t g w p with
      | some d => s.reply (BitVec.ofNat 32 w.lid) (t.devAt d) (.podSummary (t.devAt d) w.lid mine m)
      | none => s) s

/-- WEIR_HEARTBEAT: every group whose heartbeat is due. -/
def weirHeartbeat (s : State) : State :=
  s.weir.foldl (fun s w =>
    if s.cycle < w.beatAt + s.hbeat then s
    else
      match s.byLid w.lid with
      | none => s
      | some l =>
        match l.pg, l.group? 0 with
        | some t, some g =>
          let s := s.setWeir { w with beatAt := s.cycle }
          let s := s.sendSteps t g w.lid (w.entries.filter fun e => !e.isPod && t.serves e.who)
          if State.podLeader t g w (podOf (t.devAt t.here)) == some t.here then s.sendSummary t g w else s
        | _, _ => s) s

def execWeirHeartbeat (s : State) : Host.Outcome State Fault Refusal := .next (weirHeartbeat s)

/-! ## Hearing (R362) -/

/-- A message for an entry: a rank's step only rises, a pod's is the minimum that its leader sends, in order (R360, R367); a silent entry
returns once its step is at least F. -/
def State.hear (s : State) (w : WeirGroup) (e : WeirEntry) (step : W32) : State :=
  let e := { e with step := if e.isPod || verNewer step e.step then step else e.step, heard := s.cycle, asked := false }
  if e.silent && verAtLeast step w.floor then
    let e := { e with silent := false }
    ((s.setWeir (w.put e)).post (s.eventOf 0x52 (BitVec.ofNat 32 w.lid) (weirDetail e))).retrySteps
  else (s.setWeir (w.put e)).retrySteps

/-- WEIR_STEP_MESSAGE: the step of another device's rank; held while the launch is not active, dropped after it (R418). -/
def weirStepMessage (lid rank : Nat) (step : W32) (s : State) : State :=
  match s.byLid lid, s.weirOf lid with
  | some l, some w =>
    match w.rank? rank with
    | some e => if (match l.pg with | some t => t.serves rank | none => false) then s else s.hear w e step
    | none => s
  | _, _ => if s.pastLids.contains lid then s else s.hold (.weirStep lid rank step)

def execWeirStepMessage (lid rank : Nat) (step : W32) (s : State) : Host.Outcome State Fault Refusal := .next (weirStepMessage lid rank step s)

/-- POD_SUMMARY_ARRIVAL: another pod's minimum; this pod's leader forwards it within the pod. -/
def podSummary (lid pod : Nat) (step : W32) (s : State) : State :=
  match s.byLid lid, s.weirOf lid with
  | some l, some w =>
    match w.entries.find? fun e => e.isPod && e.who == pod with
    | none => s
    | some e =>
      let s := s.hear w e step
      match l.pg, l.group? 0 with
      | some t, some g =>
        let mine := podOf (t.devAt t.here)
        if State.podLeader t g w mine == some t.here then
          ((t.podPositions g mine).filter (· != t.here)).foldl (fun s p => s.reply l.lr.lid (t.devAt p) (.podSummary (t.devAt p) lid pod step)) s
        else s
      | _, _ => s
  | _, _ => if s.pastLids.contains lid then s else s.hold (.podSummary lid pod step)

def execPodSummaryArrival (lid pod : Nat) (step : W32) (s : State) : Host.Outcome State Fault Refusal := .next (podSummary lid pod step s)

/-- An entry is marked silent: it leaves F, and norms and STEPs that waited on it go on. -/
def State.silence (s : State) (w : WeirGroup) (e : WeirEntry) : State :=
  ((s.setWeir (w.put { e with silent := true })).closeNorms w.lid).retrySteps

/-- WEIR_SILENCE_TIMEOUT: an entry not heard from for SILTMO; under HOSTS the host is asked. -/
def weirSilence (lid : Nat) (isPod : Bool) (who : Nat) (s : State) : State :=
  match s.byLid lid, s.weirOf lid with
  | some l, some w =>
    match w.entries.find? fun e => e.isPod == isPod && e.who == who with
    | none => s
    | some e =>
      let own := !isPod && match l.pg with | some t => t.serves who | none => false
      if own || e.silent || e.asked || s.cycle < max l.activatedAt e.heard + s.siltmo then s
      else
        let s := s.post (s.eventOf 0x51 (BitVec.ofNat 32 lid) (weirDetail e))
        if s.hosts then s.setWeir (w.put { e with asked := true }) else s.silence w e
  | _, _ => s

def execWeirSilenceTimeout (lid : Nat) (isPod : Bool) (who : Nat) (s : State) : Host.Outcome State Fault Refusal :=
  .next (weirSilence lid isPod who s)

/-! ## STEP and STEPRD (R278, R279) -/

/-- The launch's table and group, where the band's rank is a member of group 0. -/
def State.stepping (s : State) (b : Band) : Try (Launch × PGTable × PGroup × WeirGroup) :=
  match s.bandLaunch b with
  | none => illegalState
  | some l =>
    match l.pg, l.group? 0, s.weirOf l.lr.lid.toNat with
    | some t, some g, some w => .ok (l, t, g, w)
    | _, _, _ => illegalState

def stepBody (b : Band) (s : State) : Try Fin' := do
  let (l, t, g, w) ← s.stepping b
  match w.rank? b.rank with
  | none => illegalState
  | some e =>
    let next := e.step + 1
    if verNewer next (w.floor + BitVec.ofNat 32 w.lead) then .error (.wait .step)
    else
      let e := { e with step := next, taken := e.taken + 1 }
      return .next ((s.setWeir (w.put e)).sendSteps t g l.lr.lid.toNat [e]).retrySteps

def execStep (s : State) : Host.Outcome State Fault Refusal := .next (issue .step stepBody s)

/-- The rank or the pod that A names: an s register, an inline integer or a literal. -/
def State.stepArg (s : State) (b : Band) (a : Opnd) : Try Nat :=
  match a with
  | .s _ | .int _ | .lit _ => do return (← s.scalarSrc b false a).toNat
  | _ => illegalOperand

/-- The value that a selector of STEPRD reads. -/
def weirRead (b : Band) (sel : Nat) (t : PGTable) (g : PGroup) (w : WeirGroup) (arg : Nat) : Try W64 :=
  match sel with
  | 0 => match w.rank? b.rank with | some e => .ok (e.step.setWidth 64) | none => illegalState
  | 1 => .ok (w.floor.setWidth 64)
  | 2 => .ok (BitVec.ofNat 64 w.lead)
  | 3 =>
    if !g.has arg then .ok 0
    else
      match w.rank? arg with
      | some e => .ok (BitVec.ofNat 64 (e.step.toNat + (if e.silent then 2 ^ 62 else 0) + 2 ^ 63))
      | none =>
        match w.entries.find? fun e => e.isPod && e.who == podOf (t.devOf arg) with
        | some e => .ok (BitVec.ofNat 64 (e.step.toNat + 2 ^ 61 + (if e.silent then 2 ^ 62 else 0) + 2 ^ 63))
        | none => .ok 0
  | _ =>
    if arg = podOf (t.devAt t.here) then
      match w.podMin with
      | some m => .ok (BitVec.ofNat 64 (m.toNat + 2 ^ 63))
      | none => .ok (if w.entries.any fun e => !e.isPod then 0x8000000000000000 else 0)
    else
      match w.entries.find? fun e => e.isPod && e.who == arg with
      | some e => .ok (BitVec.ofNat 64 (e.step.toNat + 2 ^ 63))
      | none => .ok 0

def steprdBody (d a : Opnd) (sel : Nat) (b : Band) (s : State) : Try Fin' := do
  match d with
  | .s n => do
    let arg ← (if 3 ≤ sel then s.stepArg b a else pure 0)
    let (_, t, g, w) ← s.stepping b
    let x ← weirRead b sel t g w arg
    b.flagReady true
    s.alloc b 0 1
    return .next ((s.startOp b true (.arith .tagS (.scalar x) 0)).awaitS b n.val s.nextUid 0)
  | _ => illegalOperand

def execSteprd (d a : Opnd) (imm : BitVec 8) (s : State) : Host.Outcome State Fault Refusal :=
  .next (issue (.steprd d a imm) (steprdBody d a imm.toNat) s)

/-! ## Messages held for a launch (R418) -/

def HeldMsg.lid : HeldMsg → Nat
  | .contribution _ m => m.key.lid
  | .scalar m => m.lid
  | .weirStep lid _ _ => lid
  | .podSummary lid _ _ => lid
  | .norm m => m.lid
  | .ring m => m.key.lid

/-- A held message is applied. -/
def applyHeld (m : HeldMsg) (s : State) : State :=
  match m with
  | .contribution owner m => contribRemote owner m s
  | .scalar m => scalarRemote m s
  | .weirStep lid rank step => weirStepMessage lid rank step s
  | .podSummary lid pod step => podSummary lid pod step s
  | .norm m => normArrival m s
  | .ring m => ringHop m s

/-- The messages held for a launch are applied as it becomes active, in the order they arrived. -/
def State.applyHeldFor (s : State) (lid : Nat) : State :=
  let ms := s.heldMsgs.filter fun h => h.msg.lid == lid
  ms.foldl (fun s h => applyHeld h.msg s) { s with heldMsgs := s.heldMsgs.filter fun h => h.msg.lid != lid }

/-- A message held for SILTMO is discarded; a contribution is acknowledged as dropped. -/
def heldExpiry (i : Nat) (s : State) : State :=
  match s.heldMsgs[i]? with
  | none => s
  | some h =>
    if s.cycle < h.arrived + s.siltmo then s
    else
      let s := { s with heldMsgs := s.heldMsgs.eraseIdx i }
      match h.msg with
      | .contribution _ m => s.acknowledge m .dropped
      | .ring m => s.ackRing m .dropped
      | .scalar m => s.scalarDropped m
      | _ => s

def execHeldMessageExpiry (idx : Nat) (s : State) : Host.Outcome State Fault Refusal := .next (heldExpiry idx s)

/-! ## Host commands (R364) -/

/-- What a value written to FLMCMD1 comes to, with FLMCMD0 as it stands. A scalar step has no bucket: OP 1 names it by bucket 0, as its event
of class 0x55 does (DEDUCED, log 34). -/
inductive FlmCmd where
  | nothing
  | close (rs : List Reduction) (xs : List ScalarStep)
  | silent (w : WeirGroup) (e : WeirEntry)
  | refused
  deriving DecidableEq, Repr

def State.flmcmd (s : State) (v : W64) : FlmCmd :=
  let c0 := s.reg 0x2110
  let lid := fld v 31 0
  if fld v 55 32 ≠ 0 then .refused
  else
    match fld v 63 62 with
    | 0 => .nothing
    | 1 =>
      let key : StepKey := ⟨lid, fld v 61 56, fld c0 63 32, BitVec.ofNat 32 (fld c0 31 0)⟩
      let rs := s.reductions.filter fun r => r.key == key
      let xs := s.scalars.filter fun x => key.bid == 0 && x.lid == lid && x.pgrp == key.pgrp && x.step == key.step && !x.closed
      if (s.byLid lid).isNone || (rs.isEmpty && xs.isEmpty) then .refused else .close rs xs
    | 2 =>
      if fld c0 63 25 ≠ 0 then .refused
      else
        match s.byLid lid, s.weirOf lid with
        | some l, some w =>
          match w.rank? (fld c0 24 0), l.pg with
          | some e, some t => if t.serves e.who then .refused else .silent w e
          | _, _ => .refused
        | _, _ => .refused
    | _ => .refused

/-- R364: a write of FLMCMD1. -/
def State.writeFlmcmd (s : State) (v : W64) : State :=
  match s.flmcmd v with
  | .nothing => s
  | .close rs xs => xs.foldl (fun s x => s.closeScalar x 0) (rs.foldl (fun s r => s.closeStep r 0) s)
  | .silent w e => s.silence w e
  | .refused => s.post (s.eventOf 0x5F (BitVec.ofNat 32 (fld v 31 0)) ((s.reg 0x2110).toNat + v.toNat * 2 ^ 64))

/-! The four events are the four outcomes of the write. -/

def execFlmcmdNone (v : W64) (s : State) : Host.Outcome State Fault Refusal :=
  .next (if s.flmcmd v = .nothing then s.writeFlmcmd v else s)
def execFlmcmdCloseStep (v : W64) (s : State) : Host.Outcome State Fault Refusal :=
  .next (match s.flmcmd v with | .close _ _ => s.writeFlmcmd v | _ => s)
def execFlmcmdDeclareSilent (v : W64) (s : State) : Host.Outcome State Fault Refusal :=
  .next (match s.flmcmd v with | .silent _ _ => s.writeFlmcmd v | _ => s)
def execFlmcmdRefused (v : W64) (s : State) : Host.Outcome State Fault Refusal :=
  .next (if s.flmcmd v = .refused then s.writeFlmcmd v else s)

/-! ## The fabric (R366, R367) -/

/-- The code of CAPLINK for a number of lanes (R408). -/
def laneCode (n : Nat) : Nat := if n = 0 then 0 else if n = 1 then 1 else if n = 2 then 2 else 3

/-- LINK_LANE_CHANGE: the event, and CAPLINK as it now stands. -/
def linkLanes (ethernet : Bool) (port lanes : Nat) (s : State) : State :=
  let s := if ethernet || 18 ≤ port then s else s.setNum 0x2003 (setFld (s.num 0x2003) (2 * port + 1) (2 * port) (laneCode lanes))
  s.post (mkEvent 0x56 0 (port % 32 + (if ethernet then 32 else 0) + lanes % 8 * 64))

def execLinkLaneChange (ethernet : Bool) (port lanes : Nat) (s : State) : Host.Outcome State Fault Refusal := .next (linkLanes ethernet port lanes s)

end Sys2Proof.Machine
end

