-- ==== Sys2Proof/Machine/RegWrite.lean ====
section
/-! DEFINITION. Writes of device registers with their effects (R4, R50, R52, R78, R110, R328, R345, R358, R384, R387, R389, R398 to R400,
R404, R407), and MFSR and MTSR (R315). -/

namespace Sys2Proof.Machine

/-- No resident band and no engine operation of the core in flight (R78). -/
def State.coreIdle (s : State) (core : Nat) : Bool :=
  (s.bands.all fun b => b.place.core != core) &&
    s.ops.all fun o => !(o.place.core == core && match o.kind with | .engine _ _ => true | _ => false)

/-- The bits of a register after a write of `v` under a byte mask: bytes that are not written keep what they hold, and do nothing to
bits that act when written 1. -/
def RegSpec.masked (r : RegSpec) (old v : W64) (mask : W64) : W64 :=
  (v &&& mask) ||| (old &&& ~~~ mask &&& ~~~ (r.w1c ||| r.wo))

/-- R50, R389: a register that its LOCK bit has closed. -/
def State.locked? (s : State) (num : Nat) : Bool :=
  if num < 0x80 then (s.num (num % 0x40)).getLsbD 62
  else if 0x8C0 ≤ num ∧ num < 0x8C4 then (s.num num).getLsbD 63
  else false

/-- R389: bits of cores that are not idle keep their value. -/
def State.worldMerge (s : State) (die : Nat) (old new : W64) : W64 :=
  (List.range 60).foldl (fun w k =>
    if old.getLsbD k != new.getLsbD k && !s.coreIdle (60 * die + k) then w ^^^ (1#64 <<< k) else w) new

/-- R76, R78: a bank that changes role leaves XC with its dirty lines written back; the L1 loses the core's lines where XC shrinks. -/
def State.rolesChanged (s : State) (core : Nat) : State :=
  (s.l1.filter fun l => l.core == core).foldl (fun s l => s.flushLine core l.line) s

def badRole (v : W64) : Bool := (List.range 16).any fun k => decide (5 ≤ fld v (3 * k + 2) (3 * k))

/-- A write of LSROLE of an idle core: setting any role sets MAN (R78), which a write that changes none leaves (DESIGN CHOICE, log 36). -/
def State.writeLsrole (s : State) (num : Nat) (v : W64) : State :=
  let core := (num - 0x1000) / 2
  let n1 := num / 2 * 2 + 1
  if !s.coreIdle core || badRole v then s
  else
    match numSpec num with
    | none => s
    | some r =>
      let old := s.num num
      let new := r.merge old v true
      let s := if fld old 47 0 = fld new 47 0 then s else s.rolesChanged core
      let s := s.setNum num new
      if fld old 47 0 = fld new 47 0 then s else s.setNum n1 (s.num n1 ||| (1#64 <<< 63))

/-- R328: TAIL is set unless it would exceed the ring; then event 0x11. -/
def State.doorbell (s : State) (q : Nat) (tail : W16) : State :=
  let p := s.reg (32 * q + 8)
  let n := 2 ^ max 1 (fld (s.reg (32 * q)) 3 0)
  if n < (tail.toNat + 2 ^ 16 - fld p 63 48) % 2 ^ 16 then s.post (mkEvent 0x11 0 0 0 q)
  else s.setReg (32 * q + 8) (setFld p 47 32 tail.toNat)

def execQueueDoorbell (queue : Nat) (tail : W16) (s : State) : Host.Outcome State Fault Refusal :=
  .next (if queue < 64 then s.doorbell queue tail else s)

/-- R110, R111: on setting EN the part posts every registered word. -/
def State.writeWmbase (s : State) (v : W64) : State :=
  let old := s.wmbase
  let s := s.setNum 0x101 (v &&& (bitsMask 63 14 ||| 1))
  if v.getLsbD 0 && !old.getLsbD 0 then
    let s : State := { s with watches := s.watches.map fun w => { w with pending := true } }
    s.watches.foldl (fun s w => s.watchPost w.slot) s
  else s

/-- R404: entries are read again after a write of UEPTAB. -/
def State.writeUeptab (s : State) (v : W64) : State := { s.setReg 0x2200 (v &&& bitsMask 63 5) with endpoints := [] }

/-- R345: EVRCTL is written by the host; records that waited for room or for EN are written. -/
def State.writeEvrctl (s : State) (v : W64) : State :=
  match regSpec evrctl with
  | some r =>
    let s := s.setReg evrctl (r.merge (s.reg evrctl) v true)
    ({ s with evTimes := s.evTimes.drop (s.evTimes.length - s.ringUnread) } : State).drain
  | none => s

/-- R400: HCMD1 starts a command while none is being performed; a malformed one is operation 0. -/
def State.writeHcmd1 (s : State) (v : W64) : State :=
  if s.hcmd.isSome then s
  else
    { s.setReg 0x3010 (s.reg 0x3010 ||| (1#64 <<< 63)) with hcmd := some (if fld v 59 0 = 0 then fld v 63 60 else 0) }

/-- R399: a vector unmasked while its bit is pending is raised. -/
def State.writeMsix (s : State) (off : Nat) (v : W64) : State :=
  let s := s.setReg off v
  if off % 16 = 8 then
    let k := (off - 0x4000) / 16
    if !v.getLsbD 32 && s.msixPending.getLsbD k then
      { s with msixPending := s.msixPending &&& ~~~ (1#4 <<< k) }.send (.interrupt k)
    else s
  else s

/-- A write of the register at an offset, with its effect (R398). -/
def State.writeReg (s : State) (off : Nat) (v mask : W64) (secure : Bool) : State :=
  match regSpec off with
  | none => s
  | some r =>
    let x := r.masked (s.reg off) v mask
    let new := r.merge (s.reg off) x secure
    let num := (off - 0x10000) / 8
    if off < 0x800 then
      if off % 32 = 8 then
        (s.setReg off (setFld new 47 32 (fld (s.reg off) 47 32))).doorbell (off / 32) (BitVec.ofNat 16 (fld new 47 32))
      else s.setReg off new
    else if off < 0x1200 then s.doorbell ((off - 0x1000) / 8) (BitVec.ofNat 16 (fld x 15 0))
    else if off = evrctl then s.writeEvrctl x
    else if off = 0x2118 then s.writeFlmcmd x
    else if off = 0x2200 then s.writeUeptab x
    else if off = 0x3008 then s.writeHcmd1 x
    else if 0x4000 ≤ off ∧ off < 0x4040 then s.writeMsix off new
    else if off < 0x10000 then s.setReg off new
    else if s.locked? num then s
    else if num = 0x101 then s.writeWmbase x
    else if num = 0x102 then s.clearG x
    else if num = 0x880 then s.writeSnapctl x
    else if 0x8C0 ≤ num ∧ num < 0x8C4 then s.setReg off (s.worldMerge (num - 0x8C0) (s.reg off) new)
    else if 0x1000 ≤ num ∧ num < 0x11E0 then s.writeLsrole num x
    else s.setReg off new

def allBytes : W64 := ~~~ 0#64

/-! ## The boot mailbox (R398, R406, R407) -/

/-- R407: a request for a report, ignored while one is pending and where Flaell does not run (R406). -/
def State.requestReport (s : State) (nonce : BitVec 384) : State :=
  let state := fld (s.num 0x2000) 63 62
  if s.attest == .idle && (state == 1 || state == 2) then { s with attest := .pending nonce } else s

/-- Bytes written to the mailbox; the word 1 at 0xFFF8 asks for a report with the nonce at offset 0. -/
def State.writeMailbox (s : State) (cells : List (Nat × Byte)) : State :=
  let s : State := { s with mailbox := cells.foldl (fun m c => Mem.set m (c.1 - 0x30000) c.2) s.mailbox }
  if cells.any (fun c => c.1 == 0x3FFF8) && Mem.read s.mailbox 0xFFF8 8 == 1 then
    s.requestReport (BitVec.ofNat 384 (Mem.read s.mailbox 0 48))
  else s

/-! ## Bytes of the device-register range written (R398) -/

/-- The bytes of a list that fall in the register at `off`, as a value and a mask. -/
def regPart (off : Nat) (cells : List (Nat × Byte)) : W64 × W64 :=
  cells.foldl (fun (a : W64 × W64) c =>
    if c.1 / 8 * 8 = off then (a.1 ||| ((c.2.setWidth 64 : W64) <<< (8 * (c.1 % 8))), a.2 ||| ((0xFF : W64) <<< (8 * (c.1 % 8)))) else a) (0, 0)

/-- Bytes stored at offsets of the range by one access: each register is written once, the lowest first. -/
def State.devStore (s : State) (cells : List (Nat × Byte)) (secure : Bool) : State :=
  let inBox := fun (c : Nat × Byte) => decide (0x30000 ≤ c.1) && decide (c.1 < 0x40000)
  let box := cells.filter inBox
  let s := if box.isEmpty then s else s.writeMailbox box
  let rest := cells.filter fun c => !inBox c
  (dedup (rest.map fun c => c.1 / 8 * 8)).foldl (fun s off =>
    let (v, m) := regPart off rest
    s.writeReg off v m secure) s

/-! ## Events that write one register -/

def execRegisterWrite (off : Nat) (v : W64) (secure : Bool) (s : State) : Host.Outcome State Fault Refusal :=
  .next (s.writeReg off v allBytes secure)

def execSecregionWrite (num : Nat) (v : W64) (secure : Bool) (s : State) : Host.Outcome State Fault Refusal :=
  .next (if num < 0x80 then s.writeReg (numOff num) v allBytes secure else s)

def execLsroleWrite (num : Nat) (v : W64) (s : State) : Host.Outcome State Fault Refusal :=
  .next (if 0x1000 ≤ num ∧ num < 0x11E0 then s.writeLsrole num v else s)

def execWmbaseWrite (v : W64) (s : State) : Host.Outcome State Fault Refusal := .next (s.writeWmbase v)
def execUeptabWrite (v : W64) (s : State) : Host.Outcome State Fault Refusal := .next (s.writeUeptab v)
def execEvrctlWrite (v : W64) (s : State) : Host.Outcome State Fault Refusal := .next (s.writeEvrctl v)

def execCwrldWrite (die : Nat) (v : W64) (secure : Bool) (s : State) : Host.Outcome State Fault Refusal :=
  .next (if die < 4 then s.writeReg (numOff (0x8C0 + die)) v allBytes secure else s)

/-- R52: the filter and the repeat counters of a unit are cleared when its period has passed. -/
def celogClear (unit : Nat) (s : State) : State :=
  let ms := fld (s.celogCtl unit) 55 32
  if ms = 0 || s.cycle < (s.celogOf unit).since + microseconds (1000 * ms) then s
  else s.setCelog ⟨unit, [], [], [], s.cycle⟩

def execCelogFilterClear (unit : Nat) (s : State) : Host.Outcome State Fault Refusal := .next (celogClear unit s)

/-! ## MFSR and MTSR (R315) -/

def State.bandSecure (s : State) (b : Band) : Bool := (s.bandCtx b).world

def mfsrBody (d : Opnd) (n : Nat) (b : Band) (s : State) : Try Fin' := do
  need (numSpec n).isSome
  return .next (← s.scalarDst b d (s.readReg (numOff n) (s.bandSecure b)))

def execMfsr (d : Opnd) (n : BitVec 16) (s : State) : Host.Outcome State Fault Refusal :=
  .next (issue (.mfsr d n) (mfsrBody d n.toNat) s)

/-- R78: a reserved role code is an illegal operand; a core that is not idle, an illegal state. -/
def mtsrBody (d : Opnd) (n : Nat) (b : Band) (s : State) : Try Fin' := do
  need (numSpec n).isSome
  match d with
  | .s k => do
    let v ← b.readS k.val
    if 0x1000 ≤ n ∧ n < 0x11E0 then
      need (!badRole v)
      if !s.coreIdle ((n - 0x1000) / 2) then illegalState
    return .next (s.writeReg (numOff n) v allBytes (s.bandSecure b))
  | _ => illegalOperand

def execMtsr (d : Opnd) (n : BitVec 16) (s : State) : Host.Outcome State Fault Refusal :=
  .next (issue (.mtsr d n) (mtsrBody d n.toNat) s)

end Sys2Proof.Machine
end

