-- ==== Sys2Proof/Machine/System.lean ====
section
/-! DEFINITION. Freeing names, window depth and synchronisation, the signature (R311 to R313, R385). -/

namespace Sys2Proof.Machine

/-- R144, R163: a name freed maps to zero; a write still in flight to it lands nowhere. -/
def Band.freeName (b : Band) (o : Opnd) : Band :=
  match o with
  | .v n => b.setVName n.val VName.zero
  | .s n => b.setSName n.val SName.zero
  | _ => b

def execFree (d a b : Opnd) (s : State) : Host.Outcome State Fault Refusal :=
  .next (issue (.free d a b) (fun bd s =>
    .ok (.next (s.modBand bd.uid fun c => ((c.freeName d).freeName a).freeName b))) s)

/-- R312. -/
def execWdepth (d : Opnd) (s : State) : Host.Outcome State Fault Refusal :=
  .next (issue (.wdepth d) (fun b s => do return .next (← s.scalarDst b d (BitVec.ofNat 64 b.depth))) s)

/-- Whether a Tailrace transfer of the band is under way. -/
def Band.transferring (b : Band) : Bool := b.frames.any fun f => f.loc == .spilling || f.loc == .refilling

/-- R157: WSYNC waits for every transfer and reports a recorded fault. -/
def execWsync (s : State) : Host.Outcome State Fault Refusal :=
  .next (issue .wsync (fun b s => do
    holdUnless (!b.transferring || b.winFault.isSome)
    b.windowFault
    return .next s) s)

/-- R313, R373: in a handler SIGCLR changes nothing. -/
def execSigclr (s : State) : Host.Outcome State Fault Refusal :=
  .next (issue .sigclr (fun b s =>
    .ok (.next (s.modBand b.uid fun c => { c with sig := if b.inHandler then b.sig else 0 }))) s)

def execSigchk (imm : W32) (s : State) : Host.Outcome State Fault Refusal :=
  .next (issue (.sigchk imm) (fun b s =>
    if b.inHandler || b.sig == imm then .ok (.next s) else .error (.word tSignature)) s)

end Sys2Proof.Machine
end

