-- ==== Sys2Proof/Machine/Tailrace.lean ====
section
/-! DEFINITION. The Tailrace (R150, R154 to R157), the register aperture (R158 to R160), band contexts (R334), parking (R166, R167). -/

namespace Sys2Proof.Machine

/-! ## Areas in memory (R150, R334) -/

/-- The context index of a band's workgroup and its position. -/
def State.ctxOf (s : State) (b : Band) : Nat × Nat := match s.wg? b.wg with | some w => (w.ctx, b.pos) | none => (0, b.pos)

/-- The slot of frame d. -/
def State.frameSlot (s : State) (b : Band) (d : Nat) : W64 :=
  match s.bandLaunch b with
  | some l => l.lr.spillb + BitVec.ofNat 64 ((16 * (s.ctxOf b).1 + (s.ctxOf b).2) * l.lr.spillsz + (d - 1) * 8192)
  | none => 0

/-- A position's band context. -/
def Launch.bandCtxAt (l : Launch) (c b : Nat) : W64 := l.lr.ctxb + BitVec.ofNat 64 (c * 2 ^ 22 + 2 ^ 21 + b * 2 ^ 14)

/-- In whose name these areas are translated: by the Tailrace of a quadrant, under the launch's root and privilege. -/
def Launch.areaCtx (l : Launch) (p : Place) : Ctx := l.ctx (.tailrace p.core p.quad) l.lr.priv

/-- A range that is read or written by the Tailrace: RD and W are needed (R334). -/
def State.areaPieces (s : State) (l : Launch) (p : Place) (va : W64) (n : Nat) : Except (W64 × TrFault) (List (Nat × Nat)) :=
  match s.pieces (l.areaCtx p) .load va n with
  | .error e => .error e
  | .ok _ => s.pieces (l.areaCtx p) .store va n

/-- A slot of the spill area, whose pages must also be of the band's world (R154). -/
def State.slotPieces (s : State) (l : Launch) (p : Place) (va : W64) : Except (W64 × TrFault) (List (Nat × Nat)) :=
  let other := [va, va + 4096].find? fun a => match s.translate (l.areaCtx p) .load a with
    | .ok t => pteWrld t.pte != l.lr.wrld
    | .error _ => false
  match s.areaPieces l p va 6400, other with
  | .ok _, some a => .error (a, ⟨.world, false, false⟩)
  | r, _ => r

/-- The bytes of pieces from a virtual address on, each with the class of its leaf. -/
def State.withClass (s : State) (c : Ctx) (va : W64) : List (Nat × Nat) → List (Nat × Nat)
  | [] => []
  | (pa, n) :: rest =>
    let cc := match s.translate c .load va with | .ok t => t.cc | .error _ => 0
    (List.range n).map (fun i => (pa + i, cc)) ++ State.withClass s c (va + BitVec.ofNat 64 n) rest

/-! ## Frames -/

/-- No register of a frame waits for a result. -/
def Frame.settled (f : Frame) : Bool := f.hv.all (fun n => n.pend.isNone) && f.hs.all fun n => n.pend.isNone

def vregBytes (r : VReg) : List Byte := (List.range 128).map fun k => byteOf (r.lane (k / 4)).toNat (k % 4)
def w64Bytes (w : W64) : List Byte := (List.range 8).map (byteOf w.toNat)

/-- A v register from 128 bytes. -/
def vregOfBytes (bs : List Byte) : VReg := VReg.ofFn fun i => BitVec.ofNat 32 (leNat ((bs.drop (4 * i)).take 4))
def w64OfBytes (bs : List Byte) : W64 := BitVec.ofNat 64 (leNat (bs.take 8))

/-- R150: the parts of a slot that a spill writes, by offset. -/
def Frame.image (f : Frame) : List (Nat × List Byte) :=
  (0, w64Bytes f.retpc ++ [BitVec.ofNat 8 f.slide] ++ List.replicate 55 0)
    :: (f.hs.zipIdx.map fun (n, i) => (64 + 8 * i, w64Bytes n.val)) ++ (f.hv.zipIdx.map fun (n, i) => (256 + 128 * i, vregBytes n.val))

/-- R154: the pool is short, or the quadrant has issued nothing for 16 cycles. -/
def State.spillWanted (s : State) (p : Place) : Bool :=
  decide (2048 < s.poolWith p.core p.quad 0 0 + 256) || decide (assocGet s.issuedAt (4 * p.core + p.quad) + 16 ≤ s.cycle)

/-- R157: a fault of the Tailrace is recorded; the first stands. -/
def Band.recordFault (b : Band) (va : W64) (d kind : Nat) : Band :=
  { b with winFault := some (b.winFault.getD ⟨va, d, kind⟩) }

/-- R157: a transfer that was tried again has come to its end. -/
def Band.endRetry (b : Band) (d : Nat) : Band := { b with retrying := if b.retrying = some d then none else b.retrying }

/-- TAILRACE_SPILL: the spill of frame d starts. -/
def tailraceSpill (p : Place) (d : Nat) (s : State) : State :=
  match s.bandAt p with
  | none => s
  | some b =>
    match b.frame? d, s.bandLaunch b with
    | some f, some l =>
      if b.parked || b.depth ≤ d || f.loc != .resident || b.winFault.isSome || !s.spillWanted p then s
      else
        match s.slotPieces l p (s.frameSlot b d) with
        | .error (va, x) => s.setBand (b.recordFault va d x.kind.code)
        | .ok _ => s.setBand (b.setFrame d { f with loc := .spilling })
    | _, _ => s

def execTailraceSpill (p : Place) (frame : Nat) (s : State) : Host.Outcome State Fault Refusal := .next (tailraceSpill p frame s)

/-- The parts of a slot or context written through their translation. -/
def State.writeParts (s : State) (l : Launch) (run : Nat) (p : Place) (base : W64) (parts : List (Nat × List Byte)) : State :=
  parts.foldl (fun s (off, bs) =>
    match s.areaPieces l p (base + BitVec.ofNat 64 off) bs.length with
    | .ok ps => s.writePieces (some (l.uid, run)) ps bs
    | .error _ => s) s

/-- The parts of a slot written as plain stores of the band (R154): at home, or into the L1 of its core inside a region that it holds. -/
def State.spillFrame (s : State) (b : Band) (pas : List (Nat × Nat)) (f : Frame) : State :=
  f.image.foldl (fun s x => s.plainWrite b ((pas.drop x.1).zip x.2)) s

/-- FRAME_SPILLED: every write of the frame is performed, after the band's earlier accesses to the slot (R120), and its registers are free; a
frame that a RET has made the newest meanwhile is refilled at once (R155). -/
def frameSpilled (p : Place) (d : Nat) (s : State) : State :=
  match s.bandAt p with
  | none => s
  | some b =>
    match b.frame? d, s.bandLaunch b with
    | some f, some l =>
      if f.loc != .spilling || !f.settled then s
      else
        match s.slotPieces l p (s.frameSlot b d) with
        | .error (va, x) => s.setBand (((b.setFrame d { f with loc := .resident }).recordFault va d x.kind.code).endRetry d)
        | .ok ps =>
          if !s.readNow b false (ps.flatMap fun x => (atomsOfRun x.1 x.2).map (s.viewOf b.launch (s.runOf b.wg))) then s
          else
            (s.spillFrame b (s.withClass (l.areaCtx p) (s.frameSlot b d) ps) f).modBand b.uid fun c =>
              ((c.setFrame d { f with loc := .spilled }).refillNewest).endRetry d
    | _, _ => s

def execFrameSpilled (p : Place) (frame : Nat) (s : State) : Host.Outcome State Fault Refusal := .next (frameSpilled p frame s)

/-- A hidden name as a refill finds it: a name whose slot holds what it held keeps its mapping, another has a private register. -/
def refillV (bs : List Byte) (n : VName) : VName :=
  if n.kind != .priv && n.val == vregOfBytes bs then n else ⟨vregOfBytes bs, .priv, none⟩
def refillS (bs : List Byte) (n : SName) : SName :=
  if n.kind != .priv && n.val == w64OfBytes bs then n else .ofVal (w64OfBytes bs)

/-- What a refill reads of a slot: RETPC and the hidden registers (R155). -/
def Frame.used {α : Type} (f : Frame) (xs : List α) : List α :=
  xs.take 8 ++ (xs.drop 64).take (8 * f.hs.length) ++ (xs.drop 256).take (128 * f.hv.length)

/-- The frame with those bytes; its slide stays (R155). -/
def Frame.refill (f : Frame) (bs : List Byte) : Frame where
  retpc := w64OfBytes bs
  slide := f.slide
  hv := f.hv.zipIdx.map fun (n, i) => refillV (bs.drop (8 + 8 * f.hs.length + 128 * i)) n
  hs := f.hs.zipIdx.map fun (n, i) => refillS (bs.drop (8 + 8 * i)) n
  loc := .resident

/-- What a read of a frame's slot comes to: a fault, a wait for earlier accesses of the band, or the frame with what was read, and the
damaged atoms among it, which give zeros (R47). -/
inductive SlotRead where
  | fault (va : W64) (f : TrFault)
  | hold
  | frame (f : Frame) (pas : List (Nat × Nat)) (bad : List (Nat × KillCause))
  deriving DecidableEq, Repr

/-- R155: the slot is read by plain loads of the band. -/
def State.readSlot (s : State) (l : Launch) (b : Band) (d : Nat) (f : Frame) : SlotRead :=
  match s.slotPieces l b.place (s.frameSlot b d) with
  | .error (va, x) => .fault va x
  | .ok ps =>
    let pas := f.used (s.withClass (l.areaCtx b.place) (s.frameSlot b d) ps)
    match s.plainRead b pas with
    | .hold => .hold
    | .damaged ds bs => .frame (f.refill bs) pas ds
    | .bytes bs => .frame (f.refill bs) pas []

/-- The frame of a band that is being refilled, the newest first. -/
def Band.refilling? (b : Band) : Option (Nat × Frame) :=
  (b.frames.zipIdx.find? fun x => x.1.loc == .refilling).map fun x => (b.depth - x.2, x.1)

/-- TAILRACE_REFILL_COMPLETE: a frame is read back, once the pool can hold it; the band consumes what is damaged (R157). -/
def refillComplete (p : Place) (s : State) : State :=
  match s.bandAt p with
  | none => s
  | some b =>
    match b.refilling?, s.bandLaunch b with
    | some (d, f), some l =>
      if b.parked || b.winFault.isSome then s
      else
        match s.readSlot l b d f with
        | .fault va x => s.setBand (((b.setFrame d { f with loc := .spilled }).recordFault va d x.kind.code).endRetry d)
        | .hold => s
        | .frame g pas ds =>
          if s.canAlloc b (vPriv g.hv) (sPriv g.hs) then
            ((s.plainTouch b pas).setBand ((b.setFrame d g).endRetry d)).consumeAll b ds
          else s
    | _, _ => s

def execTailraceRefillComplete (p : Place) (es : List SymErr) (s : State) : Host.Outcome State Fault Refusal :=
  .next (refillComplete p (s.strikes es))

/-! ## Band contexts (R334) -/

/-- Bits, the first the least significant, as bytes. -/
def bitBytes (bits : List Bool) (n : Nat) : List Byte :=
  (List.range n).map fun k => BitVec.ofNat 8 ((List.range 8).foldl (fun x j => x + if bits.getD (8 * k + j) false then 2 ^ j else 0) 0)

def bitAt (bs : List Byte) (k : Nat) : Bool := (bs.getD (k / 8) 0).getLsbD (k % 8)

def MapKind.isShared : MapKind → Bool
  | .shared _ _ => true
  | _ => false

/-- Bit 0 in-handler, 1 privileged, 2 fault recorded, 3 suspended, 4 halted. -/
def Band.stateWord (b : Band) : Nat :=
  (if b.inHandler then 1 else 0) + (if b.privileged then 2 else 0) + (if b.winFault.isSome then 4 else 0) + (if b.suspended then 8 else 0)
    + (if b.halted then 16 else 0)

/-- What a save writes, by offset: shared names' values are not saved. -/
def Band.context (b : Band) : List (Nat × List Byte) :=
  let vs := b.v.toList.zipIdx.filter fun x => !x.1.kind.isShared
  let ss := b.s.toList.zipIdx.filter fun x => !x.1.kind.isShared
  let kinds := (b.v.toList.map fun n => n.kind) ++ b.s.toList.map fun n => n.kind
  (vs.map fun (n, i) => (128 * i, vregBytes n.val)) ++ (ss.map fun (n, i) => (0x2000 + 8 * i, w64Bytes n.val))
    ++ [(0x2200, (b.o.toList.map vregBytes).flatten), (0x2600, (b.a.toList.map w64Bytes).flatten),
      (0x2680, (b.b.toList.map fun x => w64Bytes x.1 ++ w64Bytes x.2).flatten),
      (0x2700, (b.m.toList.map fun x => (List.range 4).map (byteOf x.toNat)).flatten),
      (0x2740, b.flags.toList.map fun x => x.setWidth 8),
      (0x2750, ([b.mode.setWidth 64, b.fps.setWidth 64, b.sig.setWidth 64, BitVec.ofNat 64 b.depth, b.srseq, b.pc,
        BitVec.ofNat 64 b.batch].map w64Bytes).flatten),
      (0x2790, bitBytes (kinds.map fun k => k == .zero) 16 ++ bitBytes (kinds.map MapKind.isShared) 16),
      (0x2800, vregBytes b.lat ++ [if b.latValid then 1 else 0, 0, 0, 0]),
      (0x2888, w64Bytes (BitVec.ofNat 64 b.stateWord)),
      (0x2890, match b.winFault with
        | some f => w64Bytes f.va ++ w64Bytes (BitVec.ofNat 64 (f.depth % 4096 + f.kind * 4096))
        | none => List.replicate 16 0)]

/-- A saved name as a restore finds it. -/
def restoreV (bs : List Byte) (zero shared : Bool) (n : VName) : VName :=
  if zero then VName.zero else if shared && n.kind.isShared then n else ⟨vregOfBytes bs, .priv, none⟩
def restoreS (bs : List Byte) (zero shared : Bool) (n : SName) : SName :=
  if zero then SName.zero else if shared && n.kind.isShared then n else .ofVal (w64OfBytes bs)

/-- MODE as a restore finds it: reserved bits read zero (R181), and a value that SETMODE and SETMM would refuse (R182) is none that a save
wrote: the band keeps its own (DESIGN CHOICE, log 20). -/
def restoredMode (old new : W32) : W32 := if modeRefused new then old else new &&& ~~~ 0xE000#32

/-- The band with the contents of its context, 16 KiB of it; frames, their depth among them, are the Tailrace's. -/
def Band.restore (b : Band) (bs : List Byte) : Band :=
  let word := fun (off : Nat) => w64OfBytes (bs.drop off)
  let st := (word 0x2888).toNat
  { b with
    v := Vector.ofFn fun i =>
      restoreV (bs.drop (128 * i.val)) (bitAt (bs.drop 0x2790) i.val) (bitAt (bs.drop 0x27A0) i.val) (b.vName i.val)
    s := Vector.ofFn fun i =>
      restoreS (bs.drop (0x2000 + 8 * i.val)) (bitAt (bs.drop 0x2790) (64 + i.val)) (bitAt (bs.drop 0x27A0) (64 + i.val)) (b.sName i.val)
    o := Vector.ofFn fun i => vregOfBytes (bs.drop (0x2200 + 128 * i.val))
    a := Vector.ofFn fun i => word (0x2600 + 8 * i.val)
    b := Vector.ofFn fun i => (word (0x2680 + 16 * i.val), word (0x2688 + 16 * i.val))
    m := Vector.ofFn fun i => (word (0x2700 + 4 * i.val)).setWidth 32
    f := Vector.ofFn fun i => (bs.getD (0x2740 + i.val) 0).setWidth 6
    mode := restoredMode b.mode ((word 0x2750).setWidth 32)
    fps := (word 0x2758).setWidth 32
    sig := (word 0x2760).setWidth 32
    srseq := word 0x2770
    batch := (word 0x2780).toNat % 2 ^ 16
    lat := vregOfBytes (bs.drop 0x2800)
    latValid := bitAt (bs.drop 0x2880) 0
    inHandler := st % 2 == 1
    privileged := st / 2 % 2 == 1
    winFault := if st / 4 % 2 == 1 then some ⟨word 0x2890, fld (word 0x2898) 11 0, fld (word 0x2898) 13 12⟩ else none
    suspended := st / 8 % 2 == 1
    halted := st / 16 % 2 == 1 }

/-- A band's context is written; none where its area cannot be accessed, which kills the launch (R334). -/
def State.saveBand (s : State) (l : Launch) (b : Band) : Option State :=
  let base := l.bandCtxAt (s.ctxOf b).1 b.pos
  (s.areaPieces l b.place base 0x28A0).toOption.map fun _ => s.writeParts l (s.runOf b.wg) b.place base b.context

/-- A band's context as it is read back: none where its area cannot be accessed or read. -/
def State.loadBand (s : State) (l : Launch) (b : Band) : Option Band :=
  match s.areaPieces l b.place (l.bandCtxAt (s.ctxOf b).1 b.pos) 0x28A0 with
  | .error _ => none
  | .ok ps =>
    if (s.badPieces (s.whoOf b) ps).isEmpty then some (b.restore (readPieces s (some (l.uid, s.runOf b.wg)) ps)) else none

/-- Every saved frame is spilled (R338). -/
def State.spillAll (s : State) (l : Launch) (b : Band) : Option State :=
  (List.range b.depth).foldl (fun acc i =>
    match acc, b.frame? (i + 1) with
    | some s, some f =>
      if f.loc == .spilled || f.loc == .refilling then some (s.modBand b.uid fun c => c.setFrame (i + 1) { f with loc := .spilled })
      else
        match s.slotPieces l b.place (s.frameSlot b (i + 1)) with
        | .error _ => none
        | .ok ps =>
          some ((s.spillFrame b (s.withClass (l.areaCtx b.place) (s.frameSlot b (i + 1)) ps) f).modBand b.uid fun c =>
            (c.setFrame (i + 1) { f with loc := .spilled }).endRetry (i + 1))
    | _, _ => none) (some s)

/-! ## The allocation deadlock (R166, R167) -/

/-- The wait is one that R166 lists. -/
def Band.stuck (b : Band) : Bool :=
  b.stalled.isSome || match b.wait with
    | some (.bar _) | some .swaph | some (.monitor ..) | some (.version ..) | some .step | some (.acqrg ..) | some .copyEntry
    | some (.yieldc ..) => true
    | _ => false

/-- A refill of the band has read its slot and waits for registers that the pool cannot supply (R155, R142). -/
def State.refillStalls (s : State) (b : Band) : Bool :=
  match b.refilling?, s.bandLaunch b with
  | some (d, f), some l => b.winFault.isNone && match s.readSlot l b d f with
    | .frame g _ _ => decide (2048 < s.poolWith b.place.core b.place.quad (vPriv g.hv) (sPriv g.hs))
    | _ => false
  | _, _ => false

/-- The band waits on allocation that the pool cannot supply: its word's, a trap entry's, or that of the refill its word waits for. -/
def State.poolWaits (s : State) (b : Band) : Bool :=
  (match b.stalled with | some t => decide (2048 < s.poolWith b.place.core b.place.quad t.nv t.ns) | none => false)
    || (b.held && s.refillStalls b)

/-- Item indices compared, itemidx first. -/
def itemBelow (a b : Band) : Bool := decide (a.itemidx < b.itemidx) || (a.itemidx == b.itemidx && decide (a.xidx.toNat < b.xidx.toNat))

def lowestItem : List Band → Option Band
  | [] => none
  | b :: t => match lowestItem t with | none => some b | some c => if itemBelow c b then some c else some b

def highestItem : List Band → Option Band
  | [] => none
  | b :: t => match highestItem t with | none => some b | some c => if itemBelow b c then some c else some b

/-- Some frame of the quadrant could be spilled, or is on its way; one that waits for registers alone is not. -/
def State.tailraceBusy (s : State) (core quad : Nat) : Bool :=
  (s.quadBands core quad).any fun b =>
    (b.transferring && !s.refillStalls b) || (b.winFault.isNone && (b.frames.drop 1).any fun f => f.loc == .resident)

/-- R166: the quadrant is deadlocked. -/
def State.deadlocked (s : State) (core quad : Nat) : Bool :=
  let bs := s.quadBands core quad
  bs.any s.poolWaits && !s.tailraceBusy core quad && bs.all fun b => b.stuck || s.poolWaits b

/-- Results of the band are still to be written: its registers are saved once they are (DEDUCED, log 32). -/
def State.landing (s : State) (b : Band) : Bool :=
  s.ops.any fun o => o.band == b.uid && match o.kind with
    | .load _ | .atomic .. | .localLoad .. | .arith .. | .relrg .. => true
    | _ => false

/-- BAND_PARK: the band with the highest item index is parked; every frame it has saved, the newest too, goes to its slot of the spill area
(R166 does not say where: DESIGN CHOICE, log 32). What completes while it is parked sets FPS bits anew. -/
def bandPark (core quad : Nat) (s : State) : State :=
  if !s.deadlocked core quad then s
  else
    let bs := s.quadBands core quad
    let low := (lowestItem bs).map Band.uid
    match highestItem (bs.filter fun b => !b.template && some b.uid != low) with
    | none => s
    | some b =>
      match s.bandLaunch b with
      | none => s
      | some l =>
        if s.landing b then s else
        match s.spillAll l b with
        | none => s.decideKill l.uid .save
        | some s =>
          match s.saveBand l b with
          | none => s.decideKill l.uid .save
          | some s => s.modBand b.uid fun c => { c with parked := true, stalled := none, fps := 0 }

def execBandPark (core quad : Nat) (s : State) : Host.Outcome State Fault Refusal := .next (bandPark core quad s)

/-- A restored band's word: a MONWAIT is executed again from its first read, with the time it had left (R216); one whose time ran out while
the band was parked has status 1 (R167). -/
def Band.rejoin (b : Band) (cycle : Nat) : Band :=
  match b.wait with
  | some (.monitor _ _ _ dl) => if dl ≤ cycle then b.endWait 1 else { b with wait := none, timeLeft := some (some (dl - cycle)) }
  | _ => b

/-- BAND_RESTORE: the parked band with the lowest item index is restored whole, its newest frame with it; its flags have counted on while
it was parked, and FPS takes the bits set meanwhile. -/
def bandRestore (core quad : Nat) (s : State) : State :=
  if (s.quadBands core quad).any fun b => b.stalled.isSome then s
  else
    match lowestItem (s.bands.filter fun b => b.place.core == core && b.place.quad == quad && b.parked) with
    | none => s
    | some b =>
      match s.bandLaunch b with
      | none => s
      | some l =>
        match s.loadBand l b with
        | none => s.decideKill l.uid .save
        | some c =>
          let c := ({ c with parked := false, held := false, readyAt := s.cycle, f := b.f, fps := c.fps ||| b.fps } : Band).rejoin s.cycle
          let nv := vPriv c.v.toList
          let ns := sPriv c.s.toList
          match c.frames with
          | f :: rest =>
            if f.loc == .spilled && c.winFault.isNone then
              match s.readSlot l c c.depth f with
              | .fault va x => if s.canAlloc b nv ns then (s.setBand (c.recordFault va c.depth x.kind.code)).wakeTokens else s
              | .hold => s
              | .frame g pas ds =>
                if s.canAlloc b (nv + vPriv g.hv) (ns + sPriv g.hs) then
                  (((s.plainTouch b pas).setBand { c with frames := g :: rest }).consumeAll b ds).wakeTokens
                else s
            else if s.canAlloc b nv ns then (s.setBand c).wakeTokens else s
          | [] => if s.canAlloc b nv ns then (s.setBand c).wakeTokens else s

def execBandRestore (core quad : Nat) (s : State) : Host.Outcome State Fault Refusal := .next (bandRestore core quad s)

/-! ## The register aperture (R159, R160) -/

/-- Where a unit of the aperture lies. -/
inductive ApCell where
  | v (i lane : Nat)
  | s (i : Nat)
  | o (i lane : Nat)
  | frame (d off : Nat)
  | reserved
  deriving DecidableEq, Repr

def apCell (pa : Nat) : ApCell :=
  let k := pa % 2 ^ 26
  if k < 0x2000 then .v (k / 128) (k % 128 / 4)
  else if k < 0x2200 then .s ((k - 0x2000) / 8)
  else if k < 0x2600 then .o ((k - 0x2200) / 128) ((k - 0x2200) % 128 / 4)
  else if 0x1000000 ≤ k then .frame ((k - 0x1000000) / 8192 + 1) (k % 8192)
  else .reserved

/-- A byte of a frame at an offset of its layout: RETPC, SLIDE, a hidden s or v register; zero elsewhere. -/
def Frame.byteAt (f : Frame) (off : Nat) : Byte :=
  if off < 8 then byteOf f.retpc.toNat off
  else if off = 8 then BitVec.ofNat 8 f.slide
  else if off < 64 then 0
  else if off < 256 then match f.hs[(off - 64) / 8]? with | some n => byteOf n.val.toNat (off % 8) | none => 0
  else if off < 6400 then
    match f.hv[(off - 256) / 128]? with | some n => byteOf (n.val.lane (off % 128 / 4)).toNat (off % 4) | none => 0
  else 0

def setByte (x i : Nat) (y : Byte) : Nat := x - (byteOf x i).toNat * 256 ^ i + y.toNat * 256 ^ i

def VReg.setByteAt (r : VReg) (off : Nat) (y : Byte) : VReg :=
  VReg.ofFn fun i => if i = off / 4 then BitVec.ofNat 32 (setByte (r.lane i).toNat (off % 4) y) else r.lane i

/-- A byte of a frame written; the slide is the part's own (R155). -/
def Frame.setByteAt (f : Frame) (off : Nat) (y : Byte) : Frame :=
  if off < 8 then { f with retpc := BitVec.ofNat 64 (setByte f.retpc.toNat off y) }
  else if off < 64 then f
  else if off < 256 then
    match f.hs[(off - 64) / 8]? with
    | some n => { f with hs := f.hs.set ((off - 64) / 8) ⟨BitVec.ofNat 64 (setByte n.val.toNat (off % 8) y), .priv, none, n.slot⟩ }
    | none => f
  else if off < 6400 then
    match f.hv[(off - 256) / 128]? with
    | some n => { f with hv := f.hv.set ((off - 256) / 128) ⟨VReg.setByteAt n.val (off % 128) y, .priv, none⟩ }
    | none => f
  else f

/-- A live register's byte, and that byte written. -/
def Band.apByte (b : Band) (pa : Nat) : Byte :=
  match apCell pa with
  | .v i lane => byteOf ((b.vName i).val.lane lane).toNat (pa % 4)
  | .s i => byteOf (b.sName i).val.toNat (pa % 8)
  | .o i lane => byteOf ((b.o.toArray.getD i VReg.zero).lane lane).toNat (pa % 4)
  | .frame d off => match b.frame? d with | some f => f.byteAt off | none => 0
  | .reserved => 0

def Band.setApByte (b : Band) (pa : Nat) (y : Byte) : Band :=
  match apCell pa with
  | .v i _ => b.setVName i ⟨VReg.setByteAt (b.vName i).val (pa % 128) y, .priv, none⟩
  | .s i => b.setSName i ⟨BitVec.ofNat 64 (setByte (b.sName i).val.toNat (pa % 8) y), .priv, none, (b.sName i).slot⟩
  | .o i _ => { b with o := b.o.setIfInBounds i (VReg.setByteAt (b.o.toArray.getD i VReg.zero) (pa % 128) y) }
  | .frame d off => match b.frame? d with | some f => b.setFrame d (f.setByteAt off y) | none => b
  | .reserved => b

/-- Whether the cell's register has its value. -/
def State.apReady (s : State) (b : Band) (pa : Nat) : Bool :=
  match apCell pa with
  | .v i _ => (b.vName i).pend.isNone
  | .s i => (b.sName i).pend.isNone
  | .o i _ => !s.regPending b (some i) none none
  | .frame d _ => match b.frame? d with | some f => f.loc != .spilling && f.loc != .refilling && f.settled | none => true
  | .reserved => true

/-- Where an access to a spilled frame or to a parked band's register goes instead: a virtual address. -/
def State.apRedirect (s : State) (b : Band) (pa : Nat) : Option W64 :=
  match apCell pa with
  | .frame d off => match b.frame? d with
    | some f => if f.loc == .spilled && decide (off < 6400) then some (s.frameSlot b d + BitVec.ofNat 64 off) else none
    | none => none
  | .reserved => none
  | _ => if b.parked then (s.bandLaunch b).map fun l => l.bandCtxAt (s.ctxOf b).1 b.pos + BitVec.ofNat 64 (pa % 2 ^ 26) else none

/-- The registers that a store to a cell allocates (R143), hidden ones of a resident frame among them. -/
def Band.apAlloc (b : Band) (pa : Nat) : Nat × Nat :=
  let v := fun (n : VName) => if n.kind == .priv then (0, 0) else (1, 0)
  let sc := fun (n : SName) => if n.kind == .priv then (0, 0) else (0, 1)
  match apCell pa with
  | .v i _ => v (b.vName i)
  | .s i => sc (b.sName i)
  | .frame d off => match b.frame? d with
    | some f =>
      if off < 64 then (0, 0)
      else if off < 256 then ((f.hs[(off - 64) / 8]?).map sc).getD (0, 0)
      else if off < 6400 then ((f.hv[(off - 256) / 128]?).map v).getD (0, 0)
      else (0, 0)
    | none => (0, 0)
  | _ => (0, 0)

/-- Whether the aperture can serve an address now: the target stands between clauses, the register has its value, no transfer of
its frame is under way, and the pool supplies what a store needs. -/
def State.apOpen (s : State) (pa : Nat) (write : Bool) : Bool :=
  match s.apBand pa with
  | none => true
  | some b =>
    (s.apRedirect b pa).isSome ||
      ((b.parked || b.atHeader) && s.apReady b pa && (!write || s.canAlloc b (b.apAlloc pa).1 (b.apAlloc pa).2))

/-- The first address of the register that a unit of the aperture lies in. -/
def apReg (pa : Nat) : Nat :=
  match apCell pa with
  | .s _ => pa / 8 * 8
  | .frame _ off => if off < 256 then pa / 8 * 8 else pa / 128 * 128
  | _ => pa / 128 * 128

/-- Whether stores to units of 4 bytes of the aperture can all be delivered now: each is open, and the pool of each quadrant supplies what
they allocate together (R160, R142). -/
def State.apStores (s : State) (us : List Nat) : Bool :=
  let ts := (dedup (us.map apReg)).filterMap fun pa =>
    (s.apBand pa).bind fun b => if (s.apRedirect b pa).isSome then none else some (b, b.apAlloc pa)
  us.all (fun pa => s.apOpen pa true) && ts.all fun t =>
    let q := ts.filter fun x => x.1.place.core == t.1.place.core && x.1.place.quad == t.1.place.quad
    s.canAlloc t.1 (q.map fun x => x.2.1).sum (q.map fun x => x.2.2).sum

/-- The physical pieces that an access redirected to memory meets. -/
def State.apPieces (s : State) (b : Band) (va : W64) (n : Nat) : List (Nat × Nat) :=
  match s.bandLaunch b with
  | some l => match s.areaPieces l b.place va n with | .ok ps => ps | .error _ => []
  | none => []

/-- The place in memory to which a unit of the aperture is redirected, and the class of its leaf. -/
def State.apTarget (s : State) (pa : Nat) : Option (Nat × Nat) :=
  (s.apBand pa).bind fun b => (s.apRedirect b pa).bind fun va => (s.bandLaunch b).bind fun l =>
    (s.translate (l.areaCtx b.place) .store va).toOption.map fun t => (t.pa, t.cc)

/-- `n` bytes read through the aperture by an engine. -/
def State.apRead (s : State) (pa n : Nat) : Nat :=
  match s.apBand pa with
  | none => 0
  | some b =>
    match s.apRedirect b pa with
    | some va => leNat (readPieces s (s.whoOf b) (s.apPieces b va n))
    | none => leNat ((List.range n).map fun i => b.apByte (pa + i))

/-- Bytes stored through the aperture, redirected ones at their home: a band's own redirected accesses are plain ones (R130). -/
def State.apWrite (s : State) (pa : Nat) (bs : List Byte) : State :=
  match s.apBand pa with
  | none => s
  | some b =>
    match s.apRedirect b pa with
    | some va => s.writePieces (s.whoOf b) (s.apPieces b va bs.length) bs
    | none => s.setBand (bs.zipIdx.foldl (fun c (y, i) => c.setApByte (pa + i) y) b)

end Sys2Proof.Machine
end

