-- ==== Sys2Proof/Machine/Perform.lean ====
section
/-! DEFINITION. Accesses as they are performed at the home controllers, the L1 and the device registers (R43 to R53, R72 to R74,
R112, R118 to R129), what they return (R198, R206 to R209), the ends of page walks (R60, R61) and of version waits (R67). -/

namespace Sys2Proof.Machine

/-! ## Which access may be performed (R119, R120) -/

/-- Volatile or device-class (R117). -/
def Access.isVolatile (x : Access) (a : AtomAcc) : Bool := x.cls == 1 || a.cc == 3

/-- A plain or acquire read takes its band's earlier stores from the store path (R120): it need not wait for them. -/
def OpKind.forwards (e k : OpKind) (x : Access) (l1 : Bool) : Bool :=
  (match e with | .store _ => true | _ => false) && (match k with | .load _ => true | _ => false) && l1 && x.cls != 1 && x.cls != 5

/-- Whether an earlier access of the band must be performed first: `e` is the earlier operation, `a` the atom of the later. Two
accesses of one atom keep their order (R119, R120). -/
def State.mustPrecede (s : State) (e : Op) (y : Access) (o : Op) (x : Access) (a : AtomAcc) (l1 : Bool) : Bool :=
  y.undone &&
    (s.acquires e y || o.kind.releases x || (y.cls == 5 && x.cls == 5) ||
      y.atoms.any fun c => !c.done && ((y.isVolatile c && x.isVolatile a) ||
        (s.viewOf e.launch e.run c.pa == s.viewOf o.launch o.run a.pa && !(a.cc == 3 && s.kindOf a.pa == .aperture)
          && !e.kind.forwards o.kind x l1)))

/-- No earlier access of the band stands in the way; a release follows its STMs too. -/
def State.orderFree (s : State) (o : Op) (x : Access) (a : AtomAcc) (l1 : Bool) : Bool :=
  s.ops.all fun e => !(e.band == o.band && decide (e.uid < o.uid) &&
    match e.kind with
    | .stm _ _ _ => o.kind.releases x
    | k => match k.access? with | some y => s.mustPrecede e y o x a l1 | none => false)

/-- No store that another band of the core issued earlier waits to be performed at an atom (R72). -/
def State.coreFree (s : State) (o : Op) (pa : Nat) : Bool :=
  s.ops.all fun e => !(e.place.core == o.place.core && e.band != o.band && decide (e.uid < o.uid) && e.kind.writes && s.pendingAt e pa)

/-- An access's L1 use: plain reads and writes of cached leaves, and of any leaf in a held region (R72, R74). -/
def Access.usesL1 (x : Access) (a : AtomAcc) (held : Bool) : Bool := x.cls != 1 && x.cls != 5 && (cachedClass a.cc || (held && a.cc != 2 && a.cc != 3))

/-! ## The sc clocks (R124) -/

/-- The channel of an address, HBM then DDR-5. -/
def State.channelOf (s : State) (pa : Nat) : Nat :=
  if pa < ddrBase then (hbmChannel s.hbmChannels pa).1 else 1024 + (ddrChannel (max 1 s.ddrChannels) pa).1

/-- An sc access is performed at an atom: the channel's clock, and the value that the response carries. -/
def State.scPerform (s : State) (x : Access) (pa : Nat) : State × Access :=
  if x.cls != 5 then (s, x)
  else
    let k := s.channelOf pa
    let c := clockOf s.chClock k + 1
    let t := if x.clock.toNat < c.toNat then c else x.clock
    ({ s with chClock := clockSet s.chClock k t }, { x with resp := if x.resp.toNat < t.toNat then t else x.resp })

/-! ## Ends -/

/-- R73: an acquire, acq_rel or sc access at scope cluster or wider, or a read of a record of completion (R134). -/
def State.acquireOf (s : State) (o : Op) (x : Access) : State :=
  if !x.undone && (((x.cls == 2 || x.cls == 4 || x.cls == 5) && decide (2 ≤ x.scope.toNat)) || s.readsRecord o x) then
    s.invalidateL1 o.place.core
  else s

/-- A store whose atoms are all performed completes; an sc store stays until its response (R124). -/
def State.endStore (s : State) (o : Op) (x : Access) : State :=
  if x.undone then s
  else if x.cls == 5 && !x.answered then (s.dropFlag o).setOp { o with flag := none, kind := .store x }
  else s.endOp o

/-- The band that issued an operation consumes a damaged atom (R47). -/
def State.consumeBy (s : State) (o : Op) (pa : Nat) (tag : Bool) : State :=
  let cls := if tag then 0x43 else 0x42
  let s := (s.memEvent cls pa (some o.launch) tag).decideKill o.launch (if tag then .integrity else .memUncorrectable)
  s.modBand o.band fun b => { b with stopping := true }

def Access.setAtom (x : Access) (i : Nat) (a : AtomAcc) : Access := { x with atoms := x.atoms.set i a }

/-- The world of an operation's launch. -/
def State.opSecure (s : State) (o : Op) : Bool := match s.launch? o.launch with | some l => l.lr.wrld | none => false

/-! ## Reads -/

/-- A band's earlier stores in flight laid over an atom (R120). -/
def State.overlayStores (s : State) (o : Op) (pa : Nat) (x : BitVec 256) : BitVec 256 :=
  s.ops.foldl (fun x e =>
    match e.kind with
    | .store y =>
      if e.band == o.band && decide (e.uid < o.uid) then
        y.atoms.foldl (fun x a => if !a.done && s.viewOf e.launch e.run a.pa == pa then mergeAtom x a.data a.mask else x) x
      else x
    | _ => x) x

/-- A read at the home of an atom: its data, or zero when it is damaged (R47, R49), and whether it could be read. -/
def State.homeRead (s : State) (o : Op) (pa : Nat) : BitVec 256 × Bool × State :=
  match s.readOut pa with
  | .ok => (s.atom pa, true, s.scrub pa)
  | .bad => (0, false, s.consumeBy o pa false)
  | .tag => (0, false, s.consumeBy o pa true)

/-- What a load reads of an atom of RAM: its L1's bytes, or the home's, and then the line enters the L1 (R72). -/
def State.ramRead (s : State) (o : Op) (x : Access) (a : AtomAcc) : BitVec 256 × Bool × State :=
  let pa := s.viewOf o.launch o.run a.pa
  let core := o.place.core
  if x.usesL1 a (s.heldBy core pa) then
    match s.l1Hit core pa a.mask with
    | some d => (s.overlayStores o pa d, true, s)
    | none =>
      let (d, good, t) := s.homeRead o pa
      if good then
        let d := t.l1Over core pa d
        (t.overlayStores o pa d, true, t.fillLine core pa)
      else (0, false, t)
  else
    let s := if s.heldBy core pa then s.flushLine core (pa / 128) else s
    let (d, good, t) := s.homeRead o pa
    (d, good, if good then t.l1Update core pa (~~~ 0#32) d else t)

/-- ATOM_READ_PERFORMED: a load reads one of its atoms; `ext` is what host memory answers. -/
def atomRead (u i : Nat) (ext : BitVec 256) (s : State) : State :=
  match s.op? u with
  | some o =>
    match o.kind with
    | .load x =>
      match x.atoms[i]? with
      | some a =>
        let pa := s.viewOf o.launch o.run a.pa
        let l1 := x.usesL1 a (s.heldBy o.place.core pa)
        if a.done || !s.orderFree o x a l1 || s.kindOf pa == .aperture || !s.coreFree o pa then s
        else
          let (d, good, s) := match s.kindOf pa with
            | .ram => s.ramRead o x a
            | .device => (BitVec.ofNat 256 (leNat ((List.range 32).map fun k =>
                if a.mask.getLsbD k then s.devByte (pa - deviceBase + k) (s.opSecure o) else 0)), true, s)
            | .host => (ext, true, s.send (.pcieRead (s.pcieOf pa) 32))
            | _ => (0, true, s)
          let (s, x) := s.scPerform x pa
          let x := x.setAtom i { a with data := d, done := true, bad := !good }
          (s.setOp { o with kind := .load x }).acquireOf o x
      | none => s
    | _ => s
  | none => s

def execAtomReadPerformed (op atom : Nat) (es : List SymErr) (ext : BitVec 256) (s : State) : Host.Outcome State Fault Refusal :=
  .next (atomRead op atom ext (s.strikes es))

/-! ## Writes -/

/-- The enabled bytes of an atom with their offsets from a base. -/
def AtomAcc.cells (a : AtomAcc) (base : Nat) : List (Nat × Byte) :=
  (List.range 32).filterMap fun k => if a.mask.getLsbD k then some (base + k, byteOf a.data.toNat k) else none

/-- Runs of adjacent bytes, each one posted write (R397). -/
def runsOf : List (Nat × Byte) → List (Nat × List Byte)
  | [] => []
  | (k, y) :: t =>
    match runsOf t with
    | (j, ys) :: rest => if k + 1 = j then (k, y :: ys) :: rest else (k, [y]) :: (j, ys) :: rest
    | [] => [(k, [y])]

/-- ATOM_WRITE_PERFORMED: a store writes one of its atoms. -/
def atomWrite (u i : Nat) (s : State) : State :=
  match s.op? u with
  | some o =>
    match o.kind with
    | .store x =>
      match x.atoms[i]? with
      | some a =>
        let pa := s.viewOf o.launch o.run a.pa
        if a.done || !s.orderFree o x a false || !s.coreFree o pa || s.kindOf pa == .aperture then s
        else
          let s := match s.kindOf pa with
            | .ram => s.coreStore o.place.core o.launch o.run (x.usesL1 a true) a.pa a.mask a.data
            | .device => s.devStore (a.cells (pa - deviceBase)) (s.opSecure o)
            | .host => (runsOf (a.cells pa)).foldl (fun s (r : Nat × List Byte) => s.send (.pcieWrite (s.pcieOf r.1) r.2)) s
            | _ => s
          let (s, x) := s.scPerform x pa
          let x := x.setAtom i { a with done := true }
          ((s.setOp { o with kind := .store x }).acquireOf o x).endStore o x
      | none => s
    | _ => s
  | none => s

def execAtomWritePerformed (op atom : Nat) (es : List SymErr) (s : State) : Host.Outcome State Fault Refusal :=
  .next (atomWrite op atom (s.strikes es))

/-! ## Atomics (R206 to R209) -/

/-- The new value of an atomic, none where it writes nothing, and its status. -/
def atomNew (k : AtomKind) (typ : Nat) (sat : Bool) (old src cmp : Nat) : Option Nat × BitVec 6 :=
  let w := typeBits typ
  let signed := isSigned typ
  let io := intOf signed w old
  let is := intOf signed w src
  match k with
  | .add => (some (wrapInt sat signed w (io + is)), 0)
  | .inc => (some (wrapInt sat signed w (io + 1)), 0)
  | .min => (some (if is < io then src else old), 0)
  | .max => (some (if io < is then src else old), 0)
  | .and => (some (old &&& src), 0)
  | .or => (some (old ||| src), 0)
  | .xor => (some (old ^^^ src), 0)
  | .xchg => (some src, 0)
  | .cas => (if old = cmp then some src else none, 0)
  | .fadd =>
    let f := if typ = 11 then f64 else f32
    let x := f.value old
    let y := f.value src
    let r := x.add 0 y
    let c := roundNum f rne sat r.1
    (some c.1, c.2 ||| r.2 ||| snanFlag x ||| snanFlag y)
  | .fmax => let r := minMax (if typ = 11 then f64 else f32) false true true old src; (some r.1, r.2)
  | .fmin => let r := minMax (if typ = 11 then f64 else f32) false true false old src; (some r.1, r.2)

/-- The lanes in one atom, in ascending order, each on the value that the lane before it left: the atom, the bytes written, the old
values and the status. -/
def atomLanes (k : AtomKind) (typ width : Nat) (sat : Bool) (base : Nat) (d : BitVec 256) :
    List AtomLane → BitVec 256 × BitVec 32 × List AtomLane × BitVec 6
  | [] => (d, 0, [], 0)
  | l :: rest =>
    if l.pa / 32 * 32 = base then
      let sh := l.pa % 32
      let old := d.toNat / 256 ^ sh % 256 ^ width
      let (new, fl) := atomNew k typ sat old (l.src.toNat % 256 ^ width) (l.cmp.toNat % 256 ^ width)
      let bytes : BitVec 32 := (BitVec.ofNat 32 (2 ^ width - 1)) <<< sh
      let (d', m) := match new with
        | some y => (mergeAtom d (BitVec.ofNat 256 y <<< (8 * sh)) bytes, bytes)
        | none => (d, 0)
      let (d'', m', ls, fl') := atomLanes k typ width sat base d' rest
      (d'', m ||| m', { l with old := BitVec.ofNat 64 old } :: ls, fl ||| fl')
    else
      let (d', m, ls, fl) := atomLanes k typ width sat base d rest
      (d', m, l :: ls, fl)

/-- R47: the lanes in an atom that cannot be read receive zero. -/
def noLanes (base : Nat) (ls : List AtomLane) : List AtomLane := ls.map fun l => if l.pa / 32 * 32 = base then { l with old := 0 } else l

/-- ATOMIC_PERFORMED: the lanes of one atom are read and written in one step of its write order. -/
def atomicPerform (u i : Nat) (s : State) : State :=
  match s.op? u with
  | some o =>
    match o.kind with
    | .atomic k x lanes sat fps =>
      match x.atoms[i]? with
      | some a =>
        let pa := s.viewOf o.launch o.run a.pa
        let core := o.place.core
        if a.done || !s.orderFree o x a false || !s.coreFree o pa then s
        else
          let host := s.kindOf pa == .host
          let s := if s.heldBy core pa then s.flushLine core (pa / 128) else s
          let (d, good, s) := if host then
              (BitVec.ofNat 256 (leNat ((List.range 32).map fun j => Config.freeByte (s.freeCtr + j))), true, s.tick 32)
            else s.homeRead o pa
          let (d', m, ls, fl) := atomLanes k x.typ x.width sat a.pa d lanes
          let ls := if good then ls else noLanes a.pa lanes
          let s :=
            if !good then s
            else if m = 0 then (if host then s else s.l1Update core pa (~~~ 0#32) d)
            else if host then (runsOf ({ a with mask := m, data := d' }.cells pa)).foldl (fun s r => s.send (.pcieWrite (s.pcieOf r.1) r.2)) s
            else (s.homeWrite o.who a.pa m d').l1Update core (s.viewOf o.launch o.run a.pa) (~~~ 0#32) d'
          let (s, x) := s.scPerform x pa
          let x := x.setAtom i { a with done := true }
          (s.setOp { o with kind := .atomic k x ls sat (if good then fps ||| fl else fps) }).acquireOf o x
      | none => s
    | _ => s
  | none => s

def execAtomicPerformed (op atom : Nat) (es : List SymErr) (s : State) : Host.Outcome State Fault Refusal :=
  .next (atomicPerform op atom (s.strikes es))

/-! ## Through the register aperture (R130, R160) -/

/-- The entry of a lane of an access in its atoms: the one that holds the lane's first byte. -/
def Access.laneAtom (x : Access) (lane : Nat) : Option (Nat × AtomAcc × LaneAcc) :=
  match x.lanes.find? fun l => l.lane == lane with
  | none => none
  | some l =>
    let pa := l.pas.headD 0
    (x.atoms.zipIdx.find? fun (a, _) => a.pa == pa / 32 * 32 && a.mask.getLsbD (pa % 32) && !a.done).map fun (a, i) => (i, a, l)

/-- The access of a lane of `n` bytes at an aperture address as a plain access to the place in memory that it is redirected to (R130). -/
def AtomAcc.redirected (a : AtomAcc) (pa q cc n : Nat) : AtomAcc :=
  ⟨q / 32 * 32, cc, BitVec.ofNat 32 ((2 ^ n - 1) * 2 ^ (q % 32)), BitVec.ofNat 256 (a.data.toNat / 256 ^ (pa % 32) % 256 ^ n * 256 ^ (q % 32)),
    false, false⟩

/-- Such an access to RAM may be performed: no earlier one of its band or core to that atom waits. -/
def State.redirectFree (s : State) (o : Op) (x : Access) (a : AtomAcc) (l1 : Bool) : Bool :=
  s.orderFree o x a l1 && s.coreFree o (s.viewOf o.launch o.run a.pa)

/-- The place in RAM to which an aperture address is redirected, with its class. -/
def State.apRam (s : State) (pa : Nat) : Option (Nat × Nat) := (s.apTarget pa).filter fun t => s.kindOf t.1 == .ram

/-- APERTURE_ACCESS: a lane of a load reads its register. -/
def apertureAccess (u lane : Nat) (s : State) : State :=
  match s.op? u with
  | some o =>
    match o.kind with
    | .load x =>
      match x.laneAtom lane with
      | some (i, a, l) =>
        let pa := l.pas.headD 0
        if s.kindOf pa != .aperture || !s.orderFree o x a false || !s.apOpen pa false then s
        else
          match s.apRam pa with
          | some (q, cc) =>
            let r := a.redirected pa q cc x.width
            let l1 := x.usesL1 r (s.heldBy o.place.core (s.viewOf o.launch o.run r.pa))
            if !s.redirectFree o x r l1 then s
            else
              let (d, good, s) := s.ramRead o x r
              let d := BitVec.ofNat 256 (d.toNat / 256 ^ (q % 32) % 256 ^ x.width * 256 ^ (pa % 32))
              let x := x.setAtom i { a with data := mergeAtom a.data d a.mask, done := true, bad := !good }
              (s.setOp { o with kind := .load x }).acquireOf o x
          | none =>
            let d := BitVec.ofNat 256 (s.apRead pa x.width) <<< (8 * (pa % 32))
            let x := x.setAtom i { a with data := mergeAtom a.data d a.mask, done := true }
            (s.setOp { o with kind := .load x }).acquireOf o x
      | none => s
    | _ => s
  | none => s

def execApertureAccess (op lane : Nat) (s : State) : Host.Outcome State Fault Refusal := .next (apertureAccess op lane s)

/-- APERTURE_STORE_DELIVERY: a lane of a store reaches its register. -/
def apertureStore (u lane : Nat) (s : State) : State :=
  match s.op? u with
  | some o =>
    match o.kind with
    | .store x =>
      match x.laneAtom lane with
      | some (i, a, l) =>
        let pa := l.pas.headD 0
        if s.kindOf pa != .aperture || !s.orderFree o x a false || !s.apOpen pa true then s
        else
          let y := x.setAtom i { a with done := true }
          let finish := fun (s : State) => ((s.setOp { o with kind := .store y }).acquireOf o y).endStore o y
          match s.apRam pa with
          | some (q, cc) =>
            let r := a.redirected pa q cc x.width
            if !s.redirectFree o x r false then s
            else finish (s.coreStore o.place.core o.launch o.run (x.usesL1 r true) r.pa r.mask r.data)
          | none => finish (s.apWrite pa ((List.range x.width).map fun k => byteOf a.data.toNat (pa % 32 + k)))
      | none => s
    | _ => s
  | none => s

def execApertureStoreDelivery (op lane : Nat) (s : State) : Host.Outcome State Fault Refusal := .next (apertureStore op lane s)

/-! ## Results (R198) -/

/-- A byte that a load read. -/
def Access.byteAt (x : Access) (pa : Nat) : Byte :=
  match x.atoms.find? fun a => a.pa == pa / 32 * 32 && a.mask.getLsbD (pa % 32) with
  | some a => byteOf a.data.toNat (pa % 32)
  | none => 0

/-- The element that a lane read: zero where an atom that it read is damaged (R47). -/
def Access.laneValue (x : Access) (l : LaneAcc) : Nat :=
  if x.atoms.any fun a => a.bad && l.pas.any fun pa => a.pa == pa / 32 * 32 && a.mask.getLsbD (pa % 32) then 0 else leNat (l.pas.map x.byteAt)

/-- Elements by lane as the destination takes them. -/
def destValue (d : Dest) (typ : Nat) (es : List (Nat × Nat)) : ArithVal :=
  let lanes : W32 := es.foldl (fun m e => m ||| (1#32 <<< e.1)) 0
  let at_ := fun (i : Nat) => ((es.find? fun e => e.1 == i).map Prod.snd).getD 0
  match d with
  | .tagS | .a _ | .m _ => .scalar (scalarImage typ (at_ 0))
  | .tagV true | .o _ true => .vec (VReg.ofFn fun i => BitVec.ofNat 32 (at_ i)) (VReg.ofFn fun i => BitVec.ofNat 32 (at_ i / 2 ^ 32)) lanes
  | _ => .vec (VReg.ofFn fun i => laneImage typ (if typeBits typ = 6 then at_ i % 64 else at_ i)) VReg.zero lanes

/-- R386: data that a load has written to m0 is compared too; a mismatch stops the band before its next word. -/
def State.landMask (s : State) (o : Op) (d : Dest) : State :=
  match d, s.band? o.band with
  | .m 0, some b => if s.shadowDiffers b.exec then s.takeTrap b (b.trapAt false 1 tMaskCheck 0 0 0) else s
  | _, _ => s

/-- A result is written; an sc access stays until its response (R124). -/
def State.endRead (s : State) (o : Op) (x : Access) (v : ArithVal) (fps : BitVec 6) : State :=
  let s := ((s.landDest o x.dest v).landMask o x.dest).setFps o.band fps
  if x.cls == 5 && !x.answered then
    (s.dropFlag o).setOp { o with flag := none, kind := .load { x with dest := .none } }
  else s.endOp o

/-- LOAD_DATA_RETURN: the data of a load, or the old values of an atomic, reach the registers. -/
def loadReturn (u : Nat) (s : State) : State :=
  match s.op? u with
  | some o =>
    match o.kind with
    | .load x => if x.undone then s else s.endRead o x (destValue x.dest x.typ (x.lanes.map fun l => (l.lane, x.laneValue l))) 0
    | .atomic _ x lanes _ fps =>
      if x.undone then s else s.endRead o x (destValue x.dest x.typ (lanes.map fun l => (l.lane, l.old.toNat))) fps
    | .localLoad d v => ((s.landDest o d v).landMask o d).endOp o
    | _ => s
  | none => s

def execLoadDataReturn (op : Nat) (s : State) : Host.Outcome State Fault Refusal := .next (loadReturn op s)

/-- SC_ACCESS_RESPONSE: the core's clock takes up what the response carries (R124). -/
def scResponse (u : Nat) (s : State) : State :=
  match s.op? u with
  | some o =>
    match o.kind.access? with
    | some x =>
      if x.cls != 5 || x.undone || x.answered then s
      else
        let core := o.place.core
        let c := clockOf s.scClock core
        let s : State := { s with scClock := clockSet s.scClock core ((if c.toNat < x.resp.toNat then x.resp else c) + 1) }
        let x := { x with answered := true }
        match o.kind with
        | .load _ => if o.flag.isNone && x.dest == .none then s.endOp o else s.setOp { o with kind := .load x }
        | .store _ => s.endOp o
        | .atomic k _ ls sat f => s.setOp { o with kind := .atomic k x ls sat f }
        | _ => s
    | none => s
  | none => s

def execScAccessResponse (op : Nat) (s : State) : Host.Outcome State Fault Refusal := .next (scResponse op s)

/-! ## Page walks (R60, R61) -/

/-- Words of the instruction that the band is at. -/
def Band.wordLen (b : Band) : Nat :=
  match b.nextWord with
  | .instr i => 1 + (litWords i.opnds).length
  | .refuse _ => 1

/-- The kind of access of a code (R369). -/
def accOfCode (k : Nat) : Acc := if k = 0 then .load else if k = 1 then .store else if k = 2 then .atomic else .fetch

/-- The context in which an agent translates for a root. -/
def State.agentCtx (s : State) (agent : Agent) (root : Nat) : Option Ctx :=
  (s.launches.find? fun l => l.queue == root).map fun l => l.ctx agent l.lr.priv

/-- A band whose walk now fails (R47, R60): the trap of its access. -/
def State.walkFailed (s : State) (b : Band) (va : W64) (kind lane : Nat) (malformed : Bool) : State :=
  let b' := { b with wait := none }
  let s := s.setBand b'
  if kind = 3 then s.takeTrap b' (s.fetchTrap b' tFetch va)
  else s.takeTrap b' (b'.trapAt false b'.wordLen FaultKind.absent.trapCode lane va ((⟨.absent, malformed, false⟩ : TrFault).s27 (accOfCode kind)))

/-- A walk has ended: a band that waits for an address that its TLB now holds goes on (misses of one leaf merge, R61). -/
def State.walkWakes (s : State) (b : Band) : Band :=
  match b.wait with
  | some (.walk v _ _) => if (s.tlbHit (s.bandCtx b) v.toNat).isSome then { b with wait := none, held := false } else b
  | _ => b

/-- PAGE_WALK_COMPLETE: a walk ends for its agent: the entry is held and the bands that waited go on, or it fails as they do. -/
def walkComplete (agent : Agent) (root : Nat) (va : W64) (s : State) : State :=
  let waiting := s.bands.filter fun b => match b.wait with
    | some (.walk v _ _) => v == va && (s.bandCtx b).agent == agent && (s.bandCtx b).root == root
    | _ => false
  let ctx := match waiting with
    | b :: _ => some (s.bandCtx b)
    | [] => s.agentCtx agent root
  match ctx with
  | none => s
  | some c =>
    match s.tlbHit c va.toNat, s.walk c va.toNat with
    | none, .error m => waiting.foldl (fun s b => match b.wait with | some (.walk v k lane) => s.walkFailed b v k lane m | _ => s) s
    | _, _ =>
      let s := s.tlbFill c va.toNat
      { s with bands := s.bands.map s.walkWakes }

def execPageWalkComplete (agent : Agent) (root : Nat) (va : W64) (es : List SymErr) (s : State) : Host.Outcome State Fault Refusal :=
  .next (walkComplete agent root va (s.strikes es))

/-! ## Version waits (R67, R204) -/

/-- The trap of a version wait whose limit has expired, unless the page's version now is good enough (R336). -/
def State.versionLapsed (s : State) (b : Band) : Option Trap :=
  match b.wait, s.bandLaunch b with
  | some (.version lane va set min since), some l =>
    let v := (s.currentOf set).map Prod.snd
    let good := match v, min with
      | some x, some m => verAtLeast x m
      | some _, none => true
      | none, _ => false
    let limit := b.timeLeft.getD (if l.lr.vwait = 0 then none else some (microseconds l.lr.vwait))
    if (match limit with | some n => decide (s.cycle < since + n) | none => true) || good then none
    else some (b.trapAt false b.wordLen tVersionWait lane va (match v with | some x => x.setWidth 64 | none => ~~~ 0#64))
  | _, _ => none

/-- VERSION_WAIT_TIMEOUT: the wait ends in its trap; a parked band's is taken once it is restored (R167). -/
def versionTimeout (p : Place) (s : State) : State :=
  match s.bandAt p with
  | some b =>
    match s.versionLapsed b with
    | none => s
    | some t =>
      if b.parked then s.setBand { b with trap := some t, wait := some .entryRegs, held := true }
      else (s.setBand { b with wait := none }).takeTrap { b with wait := none } t
  | none => s

def execVersionWaitTimeout (p : Place) (s : State) : Host.Outcome State Fault Refusal := .next (versionTimeout p s)

end Sys2Proof.Machine
end

