-- ==== Sys2Proof/Machine/Engines.lean ====
section
/-! DEFINITION. Copy engines: copies (R89 to R99, R268), range locks (R100), multicast (R102, R103, R269, R270), the Prism (R104 to
R106, R271), and the reactivation of YIELDC (R99, R305). -/

namespace Sys2Proof.Machine

/-! ## Queue entries and range locks (R89, R100) -/

def OpKind.isEngine : OpKind → Bool
  | .engine _ _ => true
  | _ => false

/-- Copy-queue entries that a workgroup's operations hold. -/
def State.entriesHeld (s : State) (wg : Nat) : Nat := (s.ops.filter fun o => o.wg == wg && o.kind.isEngine).length

def State.needEntry (s : State) (b : Band) : Try Unit :=
  match s.bandLaunch b with
  | some l => if l.lr.copies ≤ s.entriesHeld b.wg then .error (.wait .copyEntry) else .ok ()
  | none => illegalOperand

/-- Room for n more ranges in a core's table of 64. -/
def State.locksFree (s : State) (core n : Nat) : Bool := decide ((s.locks.filter fun l => l.core == core).length + n ≤ 64)

def State.needLocks (s : State) (core n : Nat) : Try Unit := if s.locksFree core n then .ok () else .error (.wait .entry)

def State.addLocks (s : State) (ls : List Lock) : State := { s with locks := s.locks ++ ls }
def State.dropLocks (s : State) (u : Nat) : State := { s with locks := s.locks.filter fun l => l.op != some u }

/-- A range of memory, by root, world and virtual address. -/
def memLock (core u : Nat) (dest : Bool) (c : Ctx) (lo n : Nat) : Lock := ⟨core, some u, [], dest, .mem, c.root, c.world, 0, lo, lo + n⟩
/-- A range of a window. -/
def locLock (core u : Nat) (dest : Bool) (space : Space) (slot lo n : Nat) : Lock := ⟨core, some u, [], dest, space, 0, false, slot, lo, lo + n⟩

/-! ## Slice descriptors (R91) -/

structure CopyDesc where
  srck : Nat
  dstk : Nat
  pub : Bool
  scope : Nat
  nrcv : Nat
  seq : BitVec 48
  src : W64
  dst : W64
  stamp : W64
  xb : Nat
  yn : Nat
  zn : Nat
  sys : Int
  szs : Int
  dys : Int
  dzs : Int
  aux : W64
  deriving DecidableEq, Repr

def wordsOf (bs : List Byte) (n : Nat) : List W64 := (List.range n).map fun i => BitVec.ofNat 64 (descField bs (8 * i) 8)

/-- A field of 32 bits as a signed number. -/
def sfld (w : W64) (lo : Nat) : Int := (w.extractLsb' lo 32).toInt

def parseCopy (ws : List W64) : CopyDesc :=
  let w := fun i => ws.getD i 0
  { srck := fld (w 0) 63 61, dstk := fld (w 0) 60 58, pub := (w 0).getLsbD 57, scope := fld (w 0) 56 54, nrcv := fld (w 0) 53 48
    seq := (w 0).extractLsb' 0 48, src := w 1, dst := w 2, stamp := w 3, xb := fld (w 4) 31 0, yn := fld (w 4) 47 32, zn := fld (w 4) 63 48
    sys := sfld (w 5) 0, szs := sfld (w 5) 32, dys := sfld (w 6) 0, dzs := sfld (w 6) 32, aux := w 7 }

def CopyDesc.isNull (d : CopyDesc) : Bool := d.srck == 7 && d.dstk == 7

/-- The kinds of one side: memory, a window, a tensor. -/
def kindSpace (k : Nat) : Option Space :=
  match k with
  | 1 => some .sp
  | 2 => some .ab
  | 3 => some .wb
  | 4 => some .cb
  | _ => none

/-- An address or offset of a kind breaks its rule: bits 63:57 of an address, 63:24 of an offset. -/
def badAddress (k : Nat) (a : W64) : Bool := if k = 0 ∨ k ≥ 5 then decide (2 ^ 57 ≤ a.toNat) else decide (2 ^ 24 ≤ a.toNat)

/-- R91, R92: a malformed COPY descriptor. A null slice is held to the fields that must be zero, and PUB = 1 to its kinds. -/
def CopyDesc.malformed (d : CopyDesc) : Bool :=
  let aux := if d.pub then decide (2 ^ 32 ≤ d.aux.toNat) else d.srck != 5 && d.dstk != 5 && d.aux != 0
  d.scope == 7 || d.nrcv != 0 || aux || (d.pub && (decide (1 < d.srck) || d.dstk != 0)) ||
    (!d.isNull &&
      (d.srck == 6 || d.srck == 7 || d.dstk == 6 || d.dstk == 7 || d.xb == 0 || decide (2 ^ 24 < d.xb)
        || badAddress d.srck d.src || badAddress d.dstk d.dst
        || (d.srck == 5 && decide (4 ≤ d.dstk)) || (d.dstk == 5 && decide (4 ≤ d.srck))))

/-- R269: a malformed COPYM descriptor. -/
def CopyDesc.badMulticast (d : CopyDesc) : Bool :=
  d.scope == 7 || d.pub || d.aux != 0 || decide (3 < d.srck) || d.dstk != 6 || d.xb == 0 || decide (2 ^ 24 < d.xb)
    || badAddress d.srck d.src || decide (2 ^ 57 ≤ d.dst.toNat) || d.dst.toNat % 32 != 0

/-- Least and greatest offset of a row (R92). -/
def rowLow (yn zn : Nat) (ys zs : Int) : Int := min 0 (yn * ys) + min 0 (zn * zs)
def rowHigh (yn zn : Nat) (ys zs : Int) : Int := max 0 (yn * ys) + max 0 (zn * zs)

/-- The bounding range of a dense side, as a start and a length; none when it starts below zero. -/
def CopyDesc.bounds (d : CopyDesc) (dst : Bool) : Int × Nat :=
  let (ys, zs, a) := if dst then (d.dys, d.dzs, d.dst) else (d.sys, d.szs, d.src)
  ((a.toNat : Int) + rowLow d.yn d.zn ys zs, (rowHigh d.yn d.zn ys zs - rowLow d.yn d.zn ys zs).toNat + d.xb)

/-- R77, R79, R164: a window side that an engine may not touch. -/
def State.badWindow (s : State) (w : Workgroup) (space : Space) (lo : Int) (n : Nat) : Bool :=
  space == .cb || decide (lo < 0) || decide ((s.spaceSize w space : Int) < lo + n)
    || (space == .sp && decide (lo < 2 * (s.lsView w).treg) && (s.lsView w).treg != 0)

/-- The space error of a slice (code 4). -/
def State.sliceSpace (s : State) (w : Workgroup) (d : CopyDesc) : Bool :=
  let bad := fun (k : Nat) (dst : Bool) => match kindSpace k with
    | some spc => s.badWindow w spc (d.bounds dst).1 (d.bounds dst).2
    | none => false
  bad d.srck false || bad d.dstk true

/-! ## Tensors (R94, R95) -/

structure Tensor where
  base : W64
  ext : List Nat
  str : List W64
  tile : List Nat
  esz : Nat
  fill : Nat
  fmt : Nat
  rest : List Byte
  deriving DecidableEq, Repr

def parseTensor (bs : List Byte) : Tensor where
  base := BitVec.ofNat 64 (descField bs 0 8)
  ext := (List.range 4).map fun i => descField bs (8 + 4 * i) 4
  str := (List.range 3).map fun i => BitVec.ofNat 64 (descField bs (24 + 8 * i) 8)
  tile := (List.range 4).map fun i => descField bs (48 + 2 * i) 2
  esz := descField bs 56 1
  fill := descField bs 57 1
  fmt := descField bs 58 1
  rest := (bs.drop 59).take 5

/-- Bits of an element. -/
def Tensor.bits (t : Tensor) : Nat := match t.esz with | 0 => 8 | 1 => 16 | 2 => 32 | 3 => 64 | _ => 4

/-- FMT is a float format of the element's size. -/
def Tensor.fmtOk (t : Tensor) : Bool :=
  match t.fmt with
  | 8 | 9 => t.esz == 1
  | 10 => t.esz == 2
  | 11 => t.esz == 3
  | 12 | 13 | 14 | 15 => t.esz == 0
  | _ => false

def Tensor.malformed (t : Tensor) (d : CopyDesc) : Bool :=
  let tile := fun i => t.tile.getD i 0
  t.ext.any (· == 0) || decide (4 < t.esz) || decide (1 < t.fill) || (t.esz == 4 && (t.fill == 1 || tile 0 % 2 == 0))
    || d.xb * 8 != (tile 0 + 1) * t.bits || d.yn != tile 1 || d.zn != tile 2 || tile 3 != 0 || (t.fill == 1 && !t.fmtOk)
    || t.rest.any (· != 0)

/-- The fill value, one element of whole bytes. -/
def Tensor.fillBytes (t : Tensor) : List Byte :=
  let x := if t.fill = 0 then 0 else match t.fmt with
    | 8 => 0x7E00 | 9 => 0x7FC0 | 10 => 0x7FC00000 | 11 => 0x7FF8000000000000 | 12 => 0x7E | 13 => 0x7F | _ => 0
  (List.range (max 1 (t.bits / 8))).map (byteOf x)

/-- Tile index Td. -/
def tileIdx (d : CopyDesc) (i : Nat) : Nat := fld d.aux (16 * i + 15) (16 * i)

/-- Elements of row (y, z) of the tile that are inside, from the row's first. -/
def Tensor.inRow (t : Tensor) (d : CopyDesc) (y z : Nat) : Nat :=
  let tile := fun i => t.tile.getD i 0 + 1
  let ext := fun i => t.ext.getD i 0
  if tileIdx d 1 * tile 1 + y < ext 1 ∧ tileIdx d 2 * tile 2 + z < ext 2 ∧ tileIdx d 3 < ext 3 then
    min (tile 0) (ext 0 - tileIdx d 0 * tile 0)
  else 0

/-- Address of the first element of a row. -/
def Tensor.rowAddr (t : Tensor) (d : CopyDesc) (y z : Nat) : W64 :=
  let tile := fun i => t.tile.getD i 0 + 1
  let str := fun i => t.str.getD i 0
  t.base + BitVec.ofNat 64 (tileIdx d 0 * tile 0 * t.bits / 8) + BitVec.ofNat 64 (tileIdx d 1 * tile 1 + y) * str 0
    + BitVec.ofNat 64 (tileIdx d 2 * tile 2 + z) * str 1 + BitVec.ofNat 64 (tileIdx d 3) * str 2

/-- The planes and rows of a slice. -/
def CopyDesc.rows (d : CopyDesc) : List (Nat × Nat) :=
  ((List.range (d.zn + 1)).map fun z => (List.range (d.yn + 1)).map fun y => (y, z)).flatten

/-- R97: PART and OOB. -/
def Tensor.tileStatus (t : Tensor) (d : CopyDesc) : W16 :=
  let k := (d.rows.map fun r => t.inRow d r.1 r.2).sum
  if k = 0 then 2 else if k < (t.tile.getD 0 0 + 1) * d.rows.length then 4 else 0

/-- The bounding range of a tile's inside rows in memory. -/
def Tensor.span (t : Tensor) (d : CopyDesc) : Option (Nat × Nat) :=
  let rs := (d.rows.filter fun r => 0 < t.inRow d r.1 r.2).map fun r =>
    ((t.rowAddr d r.1 r.2).toNat, (t.inRow d r.1 r.2 * t.bits + 7) / 8)
  match rs with
  | [] => none
  | r :: rest =>
    let lo := rest.foldl (fun m x => min m x.1) r.1
    let hi := rest.foldl (fun m x => max m (x.1 + x.2)) (r.1 + r.2)
    some (lo, hi - lo)

/-! ## Moves before translation -/

/-- One side of a move, by address. -/
inductive Spec where
  | va (a : W64)
  | sp (space : Space) (off : Nat)
  | fill (bs : List Byte)
  | rel (off : W64)
  deriving DecidableEq, Repr

/-- A move by address. -/
structure Want where
  src : Spec
  dst : Spec
  n : Nat
  half : Nat
  deriving DecidableEq, Repr

/-- A dense side at an offset from its start. -/
def denseAt (k : Nat) (a : W64) (o : Int) : Spec :=
  match kindSpace k with
  | some spc => .sp spc ((a.toNat : Int) + o).toNat
  | none => if k = 6 then .rel (BitVec.ofInt 64 o) else .va (a + BitVec.ofInt 64 o)

def CopyDesc.srcAt (d : CopyDesc) (r : Nat × Nat) (o : Nat) : Spec := denseAt d.srck d.src (r.2 * d.szs + r.1 * d.sys + o)
def CopyDesc.dstAt (d : CopyDesc) (r : Nat × Nat) (o : Nat) : Spec := denseAt d.dstk d.dst (r.2 * d.dzs + r.1 * d.dys + o)

/-- R95: the moves of a row of a source tile: what is inside, half a byte of it, and the fill. -/
def Tensor.fromRow (t : Tensor) (d : CopyDesc) (r : Nat × Nat) : List Want :=
  let k := t.inRow d r.1 r.2
  let a := t.rowAddr d r.1 r.2
  let n := k * t.bits / 8
  let h := if k * t.bits % 8 = 0 then 0 else 1
  let fill := t.fillBytes
  (if n = 0 then [] else [⟨.va a, d.dstAt r 0, n, 0⟩])
    ++ (if h = 0 then [] else [⟨.va (a + BitVec.ofNat 64 n), d.dstAt r n, 1, 2⟩])
    ++ (if d.xb ≤ n + h then [] else
      [⟨.fill ((List.range (d.xb - n - h)).map fun i => fill.getD (i % fill.length) 0), d.dstAt r (n + h), d.xb - n - h, 0⟩])

/-- The moves of a row of a destination tile. -/
def Tensor.toRow (t : Tensor) (d : CopyDesc) (r : Nat × Nat) : List Want :=
  let k := t.inRow d r.1 r.2
  let a := t.rowAddr d r.1 r.2
  let n := k * t.bits / 8
  (if n = 0 then [] else [⟨d.srcAt r 0, .va a, n, 0⟩])
    ++ if k * t.bits % 8 = 0 then [] else [⟨d.srcAt r n, .va (a + BitVec.ofNat 64 n), 1, 1⟩]

/-- R92: the moves of a slice. -/
def CopyDesc.wants (d : CopyDesc) (t : Option Tensor) : List Want :=
  if d.isNull then []
  else match t with
    | some t => (d.rows.map fun r => if d.srck = 5 then t.fromRow d r else t.toRow d r).flatten
    | none => d.rows.map fun r => ⟨d.srcAt r 0, d.dstAt r 0, d.xb, 0⟩

/-! ## Contexts and addresses of an engine -/

/-- The contexts in which a core's copy engine and its Prism translate for a band's operation (R61). -/
def Launch.engineCtx (l : Launch) (core : Nat) (priv : Bool) : Ctx := l.ctx (.copy core) priv
def Launch.prismCtx (l : Launch) (core : Nat) (priv : Bool) : Ctx := l.ctx (.prism core) priv

/-- R160: what stops an engine at a piece of the register aperture. -/
def State.apertureError (s : State) (c : Ctx) (migr : Bool) (p : Nat × Nat) : Option Nat :=
  if s.kindOf p.1 != .aperture then none
  else if p.1 % 4 ≠ 0 ∨ p.2 % 4 ≠ 0 then some 5
  else if s.apEmpty p.1 || migr then some 1
  else
    let secure := match s.apBand p.1 with
      | some b => (match s.bandLaunch b with | some l => l.lr.wrld | none => false)
      | none => false
    if secure && !c.world then some 3 else none

/-- A range of memory for an engine's access: its pieces, or the error code. -/
def State.engineRange (s : State) (c : Ctx) (migr : Bool) (a : Acc) (va : W64) (n : Nat) : Except Nat (List (Nat × Nat)) :=
  match s.enginePieces c a va n with
  | .error e => .error e
  | .ok ps => match ps.findSome? (s.apertureError c migr) with | some e => .error e | none => .ok ps

/-- Where a window's byte of a workgroup lies, its front half resolved (R81). -/
def State.locAt (s : State) (w : Workgroup) (space : Space) (o : Nat) : Side :=
  let v := s.lsView w
  .loc w.core v.carve w.slot space (if v.mirr && space == .sp && w.half then o + s.window w.core v.carve space / 2 else o)

/-- One side resolved. -/
def State.resolve (s : State) (c : Ctx) (migr : Bool) (w : Workgroup) (a : Acc) (n : Nat) : Spec → Except Nat Side
  | .va x => (s.engineRange c migr a x n).map .mem
  | .sp space o => .ok (s.locAt w space o)
  | .fill bs => .ok (.fill bs)
  | .rel o => .ok (.rel o)

/-- The moves whose two sides can be reached, and the error of the first that cannot. -/
def State.resolveAll (s : State) (c : Ctx) (migr : Bool) (w : Workgroup) (ws : List Want) : List Move' × Option Nat :=
  ws.foldl (fun (acc : List Move' × Option Nat) x =>
    match s.resolve c migr w .load x.n x.src, s.resolve c migr w .store x.n x.dst with
    | .ok a, .ok b => (acc.1 ++ [⟨a, b, x.n, x.half, none⟩], acc.2)
    | .error e, _ => (acc.1, some (acc.2.getD e))
    | _, .error e => (acc.1, some (acc.2.getD e))) ([], none)

/-! ## Reading and writing -/

/-- A byte as an engine reads it (R132), of the register aperture too (R160). -/
def State.engineByte (s : State) (o : Op) (pa _i : Nat) : Byte :=
  if s.kindOf (s.viewOf o.launch o.run pa) == .aperture then BitVec.ofNat 8 (s.apRead (s.viewOf o.launch o.run pa) 1)
  else s.coreByte o.place.core (o.launch, o.run) pa

/-- The damaged atoms that a side reads, each with whether its tag fails (R47, R49). -/
def State.sideBad (s : State) (o : Op) : Side → List (Nat × Bool)
  | .mem ps => (s.badPieces o.who ps).eraseDups
  | _ => []

/-- The bytes of a side with whether each is damaged. -/
def State.sideBytes (s : State) (o : Op) (n : Nat) : Side → List (Byte × Bool)
  | .mem ps =>
    let bad := (s.sideBad o (.mem ps)).map Prod.fst
    (pieceBytes ps).zipIdx.map fun (pa, i) => (s.engineByte o pa i, bad.contains (s.viewOf o.launch o.run pa / 32 * 32))
  | .loc core carve slot space off => (List.range n).map fun i => (s.lsByte (s.lsKey core carve slot space (off + i)), false)
  | .fill bs => bs.map fun x => (x, false)
  | .rel _ => []

/-! ### Parts of moves -/

/-- Pieces from their k-th byte on, and their first bytes. -/
def dropPieces (k : Nat) : List (Nat × Nat) → List (Nat × Nat)
  | [] => []
  | (a, n) :: t => if k = 0 then (a, n) :: t else if n ≤ k then dropPieces (k - n) t else (a + k, n - k) :: t
def takePieces (k : Nat) : List (Nat × Nat) → List (Nat × Nat)
  | [] => []
  | (a, n) :: t => if k = 0 then [] else if n ≤ k then (a, n) :: takePieces (k - n) t else [(a, k)]

/-- The `n` bytes of a side from its k-th. -/
def Side.cut (k n : Nat) : Side → Side
  | .mem ps => .mem (takePieces n (dropPieces k ps))
  | .loc core carve slot space off => .loc core carve slot space (off + k)
  | .fill bs => .fill ((bs.drop k).take n)
  | .rel off => .rel (off + BitVec.ofNat 64 k)

def Move'.cut (m : Move') (k n : Nat) : Move' := { m with src := m.src.cut k n, dst := m.dst.cut k n, n := n }

/-- What is left of a move without the `n` bytes from its k-th. -/
def Move'.without (m : Move') (k n : Nat) : List Move' := [m.cut 0 k, m.cut (k + n) (m.n - k - n)].filter fun x => x.n != 0

/-- The i-th of a list replaced by others. -/
def splice {α : Type} (l : List α) (i : Nat) (xs : List α) : List α := l.take i ++ xs ++ l.drop (i + 1)

/-- The own core's L1 takes over bytes that its engine wrote; bytes that it held dirty in a held region are dirty no more (DESIGN CHOICE,
log 35). -/
def State.l1Engine (s : State) (core pa : Nat) (mask : BitVec 32) (x : BitVec 256) : State :=
  match s.line? core (pa / 128) with
  | some l =>
    let k := pa / 32 % 4
    let m := mask &&& l.validOf k
    let l := { l with dirty := l.dirty &&& ~~~ (m.setWidth 128 <<< (32 * k)) }
    s.setLine (l.setAtom k m x none)
  | none => s

/-- Bytes written by an engine at physical addresses, each atom as one write; `bad` are those written poisoned. -/
def State.engineStore (s : State) (o : Op) (cells : List (Nat × Byte)) (bad : List Nat) : State :=
  let at_ := fun (k : PhysKind) => cells.filter fun c => s.kindOf c.1 == k
  let ram := atomsOf ((at_ .ram).map fun c => ((c.1, 0), c.2))
  let s1 := ram.foldl (fun s a =>
    (s.homeWrite o.who a.pa a.mask a.data).l1Engine o.place.core (s.viewOf o.launch o.run a.pa) a.mask a.data) s
  let s2 := (dedup (bad.map fun pa => pa / 32 * 32)).foldl (fun s a => if s.kindOf a == .ram then s.homePoison o.who a else s) s1
  let dev := (at_ .device).map fun c => (c.1 - deviceBase, c.2)
  let s3 := if dev.isEmpty then s2 else s2.devStore dev (s.opSecure o)
  let s4 := (runsOf (at_ .host)).foldl (fun s (r : Nat × List Byte) => s.send (.pcieWrite (s.pcieOf r.1) r.2)) s3
  (runsOf (at_ .aperture)).foldl (fun s (r : Nat × List Byte) => s.apWrite r.1 r.2) s4

/-- The byte that a move leaves: all of it, or its low four bits (R95). -/
def halfByte (half : Nat) (old new : Byte) : Byte :=
  if half = 1 then (old &&& 0xF0) ||| (new &&& 0x0F) else if half = 2 then new &&& 0x0F else new

/-- A move is made with the given bytes; `keep i` tells that byte i keeps its old value. -/
def State.putMove (s : State) (o : Op) (m : Move') (bs : List (Byte × Bool)) (keep : Nat → Bool) : State :=
  match m.dst with
  | .mem ps =>
    let xs := ((pieceBytes ps).zip bs).zipIdx.filter fun x => !keep x.2
    s.engineStore o (xs.map fun ((pa, x, _), i) => (pa, if m.half = 1 then halfByte 1 (s.engineByte o pa i) x else halfByte m.half 0 x))
      ((xs.filter fun x => x.1.2.2).map fun x => x.1.1)
  | .loc core carve slot space off =>
    bs.zipIdx.foldl (fun s (x, i) =>
      if keep i then s
      else
        let key := s.lsKey core carve slot space (off + i)
        s.setLs key (if x.2 then 0 else halfByte m.half (s.lsByte key) x.1)) s
  | _ => s

/-! ## Status and ends (R96 to R98) -/

def stPoisoned : W16 := 8
/-- ERR with an error code. -/
def stError (e : Nat) : W16 := 16 ||| BitVec.ofNat 16 (32 * e)
def addError (st : W16) (e : Nat) : W16 := if st.getLsbD 4 then st else st ||| stError e
def stPub (p : BitVec 2) : W16 := p.setWidth 16 <<< 8

def w64Cells (pa : Nat) (w : W64) : List (Nat × Byte) := (List.range 8).map fun i => (pa + i, byteOf w.toNat i)

/-- R99: bands that yielded on an operation go on once it has ended. -/
def Band.copyEnded (u scope : Nat) (b : Band) : Band :=
  match b.wait with
  | some (.yieldc v t pc hdr none) => if v = u then { b with wait := some (.yieldc v t pc hdr (some scope)) } else b
  | _ => b

def State.copyEnded (s : State) (u scope : Nat) : State :=
  { s with
    bands := s.bands.map (Band.copyEnded u scope)
    wgs := s.wgs.map fun w => { w with saved := w.saved.map (Band.copyEnded u scope) } }

/-- R96, R98: count word and stamp are written, locks and entry clear, an engine error is entered in FSUM. -/
def State.endEngine (s : State) (u : Nat) (stamp : Option StampSpec) (status : W16) (count nvme : Nat) : State :=
  match s.op? u with
  | none => s
  | some o =>
    let s := match stamp with
      | some st =>
        let s := s.engineStore o (w64Cells (st.pa + 8) (BitVec.ofNat 64 (count % 2 ^ 48 + nvme * 2 ^ 48))) []
        s.engineStore o (w64Cells st.pa (st.seq.setWidth 64 <<< 16 ||| status.setWidth 64)) []
      | none => s
    let s := if status.getLsbD 4 then (s.sumBit o.launch 0).snapshot (.fault 0) (s.lidOf o.launch) (s.queueOf o.launch) else s
    ((s.dropLocks u).dropOp u).copyEnded u (match stamp with | some st => st.scope.toNat | none => 0)

/-- R47: what the reads of damaged atoms leave: an event each, and a kill where the bytes went to a local store. -/
def State.damaged (s : State) (o : Op) (atoms : List (Nat × Bool)) (toLocal : Bool) : State :=
  atoms.foldl (fun s a =>
    let s := s.damageEvent o.launch a
    if toLocal then s.decideKill o.launch (if a.2 then .integrity else .memUncorrectable) else s) s

/-- What the reads of sides leave: errors corrected. -/
def State.touchSides (s : State) (o : Op) (xs : List Side) : State :=
  xs.foldl (fun s x => match x with | .mem ps => s.touchPieces o.who ps | _ => s) s

def Side.isLocal : Side → Bool
  | .loc .. => true
  | _ => false

/-- The moves of an operation, all sources read before anything is written. With `partly`, each destination byte keeps its old
value or takes the new one (R98, log 8). The state, the bytes moved, and whether a source was damaged. -/
def State.transfer (s : State) (o : Op) (ms : List Move') (partly : Bool) : State × Nat × Bool :=
  let reads := ms.map fun m => (m, s.sideBytes o m.n m.src)
  let bad := ms.map fun m => (m.dst.isLocal, s.sideBad o m.src)
  let base := s.freeCtr
  let (s1, moved, _) := reads.foldl (fun (acc : State × Nat × Nat) x =>
    let keep := fun i => partly && Config.freeBit (base + acc.2.2 + i)
    let kept := if partly then ((List.range x.1.n).filter keep).length else 0
    (acc.1.putMove o x.1 x.2 keep, acc.2.1 + x.1.n - kept, acc.2.2 + x.1.n)) (s.touchSides o (ms.map Move'.src), 0, 0)
  let toLocal := ((bad.filter Prod.fst).flatMap Prod.snd).eraseDups
  let toMem := ((bad.filter fun x => !x.1).flatMap Prod.snd).eraseDups.filter fun a => !toLocal.contains a
  let s2 := (s1.damaged o toLocal true).damaged o toMem false
  (if partly then s2.tick (ms.map Move'.n).sum else s2, moved, !(toLocal.isEmpty && toMem.isEmpty))

/-! ## COPY (R268) -/

/-- The stamp of a descriptor that has been read: aligned, and translated as a store of 16 bytes (R91, R96). -/
def State.stampOf (s : State) (b : Band) (va : W64) (seq : BitVec 48) (scope : Nat) : Try (Option StampSpec) := do
  if va = 0 then return none
  if va.toNat % 16 ≠ 0 then .error (.trap tMisalign 0 va 0)
  s.walkFirst (s.bandCtx b) .store 16 [(0, va)]
  let ts ← s.translateLanes (s.bandCtx b) .store false 16 [(0, va)]
  return some ⟨((ts.map fun l => l.bytes.map Prod.fst).flatten).headD 0, seq, BitVec.ofNat 3 scope⟩

/-- A tensor descriptor as the engine reads it: code 5 when it is unaligned. -/
def State.readTensor (s : State) (c : Ctx) (o : Op) (a : W64) : Except Nat Tensor :=
  if a.toNat % 64 ≠ 0 then .error 5
  else (s.enginePieces c .load a 64).map fun ps => parseTensor ((pieceBytes ps).zipIdx.map fun (pa, i) => s.engineByte o pa i)

def CopyDesc.tensorVa (d : CopyDesc) : Option W64 := if d.srck = 5 then some d.src else if d.dstk = 5 then some d.dst else none

/-- R100: the ranges a slice locks, none where it is malformed. A tensor's are those of its descriptor as it stands at issue. -/
def State.sliceLocks (s : State) (b : Band) (w : Workgroup) (u : Nat) (d : CopyDesc) : List Lock :=
  if d.isNull || d.malformed || s.sliceSpace w d then []
  else
    let c := s.bandCtx b
    let core := b.place.core
    let o : Op := ⟨u, b.launch, b.wg, b.uid, b.place, w.run, none, .engine (.stash [] 0 0 false) none⟩
    let side := fun (k : Nat) (dst : Bool) =>
      match kindSpace k with
      | some spc => [locLock core u dst spc w.slot (d.bounds dst).1.toNat (d.bounds dst).2]
      | none =>
        if k = 0 then [memLock core u dst c ((d.bounds dst).1 % (2 ^ 64 : Int)).toNat (d.bounds dst).2]
        else match d.tensorVa with
          | some a => (match s.readTensor { c with agent := .copy core } o a with
            | .ok t => if t.malformed d then [] else match t.span d with | some (lo, n) => [memLock core u dst c lo n] | none => []
            | .error _ => [])
          | none => []
    side d.dstk true ++ side d.srck false

/-- The copy of number n of a workgroup, while it has not started. -/
def State.copyOp? (s : State) (wg n : Nat) : Option Op :=
  s.ops.find? fun o => o.wg == wg && match o.kind with | .engine (.copy k _ none) _ => k == n | _ => false

/-- A slice joins its copy; the first one makes the operation. -/
def State.addSlice (s : State) (b : Band) (n : Nat) (sl : Slice) : State × Nat :=
  match s.copyOp? b.wg n with
  | some o =>
    match o.kind with
    | .engine (.copy k sls p) st => (s.setOp { o with kind := .engine (.copy k (sls ++ [sl]) p) st }, o.uid)
    | _ => (s, o.uid)
  | none => (s.startEngine b (.engine (.copy n [sl] none) none), s.nextUid)

/-- The slice is attached, its locks registered. -/
def copyAttach (b : Band) (desc : Option (List W64)) (stamp : Option StampSpec) (s : State) : Try State := do
  let n := b.copies + 1
  let w ← s.wgOf b
  b.flagReady false
  if (s.copyOp? b.wg n).isNone then s.needEntry b
  let sl : Slice := ⟨b.pos, s.nextUid, b.uid, b.place, b.privileged, desc, stamp⟩
  let (t, u) := s.addSlice b n sl
  let locks := match desc with | some ws => s.sliceLocks b w u (parseCopy ws) | none => []
  s.needLocks b.place.core locks.length
  return (t.addLocks locks).modBand b.uid fun c => { c with copies := n, lastCopy := some u }

def copyBody (m : MemRef) (b : Band) (s : State) : Try Fin' := do
  let ea ← s.effective b m 64
  if ea.e.toNat % 64 ≠ 0 then return .next ((← copyAttach b none none s).updateA b m ea)
  withDesc b ea.e 64 s fun bs s => do
    let ws := wordsOf bs 8
    let d := parseCopy ws
    let stamp ← s.stampOf b d.stamp d.seq d.scope
    return .next ((← copyAttach b (some ws) stamp s).updateA b m ea)

def execCopy (mem : MemRef) (s : State) : Host.Outcome State Fault Refusal := .next (issue (.copy mem) (copyBody mem) s)

/-- R92, R59: the page of a publication slice: a versioned one, whose leaf must allow stores but for VER. -/
def State.pubPage (s : State) (c : Ctx) (va : W64) : Except Nat Tr :=
  if 2 ^ 57 ≤ va.toNat then .error FaultKind.absent.code
  else
    match s.leafFor c va.toNat with
    | .error _ => .error FaultKind.absent.code
    | .ok (pte, bind) =>
      match s.checkLeaf c .load (pte ||| 4) bind va.toNat with
      | .error f => .error f.kind.code
      | .ok t => if pteW pte then .ok { t with pte := pte } else .error FaultKind.permission.code

/-- R92, R98: DST of a publication slice names no versioned page, or its rows leave the page: code 5, as a rule of the descriptor's fields
(DEDUCED, log 37). A page that has no leaf is a translation failure instead. -/
def State.pubForm (s : State) (c : Ctx) (d : CopyDesc) : Bool :=
  match s.leafFor c d.dst.toNat with
  | .error _ => false
  | .ok (pte, _) =>
    let start := (d.dst.toNat : Int) - pageOffset (pteSize pte) d.dst.toNat
    let (lo, n) := d.bounds true
    !pteVer pte || decide (lo < start) || decide (start + 2 ^ (12 + pteSize pte) < lo + n)

/-- The error that a slice's descriptors reveal (R98), with its tensor; the privilege of a publication first, then form, then space, then
the tensor (DESIGN CHOICE, log 37). -/
def State.sliceError (s : State) (l : Launch) (w : Workgroup) (o : Op) (sl : Slice) : Except Nat (CopyDesc × Option Tensor) :=
  match sl.desc with
  | none => .error 5
  | some ws =>
    let d := parseCopy ws
    if d.pub && !sl.priv then .error 2
    else if d.malformed then .error 5
    else if d.isNull then .ok (d, none)
    else if d.pub && s.pubForm (l.engineCtx w.core sl.priv) d then .error 5
    else if s.sliceSpace w d then .error 4
    else match d.tensorVa with
      | none => .ok (d, none)
      | some a =>
        match s.readTensor (l.engineCtx w.core sl.priv) o a with
        | .error e => .error e
        | .ok t => if t.malformed d then .error 5 else .ok (d, some t)

/-- Plans under way: the state (opens change version sets), the plan, the error of the first failing access, and whether an open waits. -/
structure Building where
  s : State
  plan : Plan
  err : Option Nat
  waits : Bool
  deriving DecidableEq, Repr

/-- R92: a publication slice: its page is opened by the copy, its payload goes to the incoming frame. A second slice that names the same
version of a page finds it incoming, and is a duplicate (R65). -/
def Building.publish (x : Building) (l : Launch) (w : Workgroup) (u : Nat) (sl : Slice) (d : CopyDesc) : Building :=
  let c := l.engineCtx w.core sl.priv
  match x.s.pubPage c d.dst with
  | .error e => { x with err := some (x.err.getD e) }
  | .ok t =>
    let size : Nat := 2 ^ (12 + pteSize t.pte)
    let off : Nat := pageOffset (pteSize t.pte) d.dst.toNat
    let set := setOf t.pte
    let ver := d.aux.setWidth 32
    let (r, s) := if x.plan.pubs.contains (set, ver) then (.duplicate, x.s) else x.s.openFor set ver size l.uid (.copy u)
    if r == .stale || r == .duplicate then
      { x with s := s, plan := { x.plan with status := if (x.plan.status &&& stPub 3) == 0 then x.plan.status ||| stPub r.status else x.plan.status } }
    else
      match r, (s.pub? set ver).bind Publication.slot with
      | .waits, _ => { x with s := s, waits := true }
      | _, none => { x with s := s, waits := true }
      | _, some j =>
        let frame := vsFrame s set j
        let ms := d.rows.map fun r =>
          let o := ((off : Int) + (r.2 * d.dzs + r.1 * d.dys)).toNat
          ((s.resolve c l.lr.migr w .load d.xb (d.srcAt r 0)).map fun a => (⟨a, .mem [(frame + o, d.xb)], d.xb, 0, some (set, ver)⟩ : Move'))
        let ok := ms.filterMap fun m => match m with | .ok y => some y | .error _ => none
        let e := ms.findSome? fun m => match m with | .error e => some e | .ok _ => none
        let plan := { x.plan with
          moves := x.plan.moves ++ ok, count := x.plan.count + d.xb * d.rows.length, pubs := x.plan.pubs ++ [(set, ver)] }
        { x with s := s, err := (match x.err with | some y => some y | none => e), plan := plan }

/-- A slice joins the plan. -/
def Building.slice (x : Building) (l : Launch) (w : Workgroup) (u : Nat) (sl : Slice) (d : CopyDesc) (t : Option Tensor) : Building :=
  if d.isNull then x
  else if d.pub then x.publish l w u sl d
  else
    let (ms, e) := x.s.resolveAll (l.engineCtx w.core sl.priv) l.lr.migr w (d.wants t)
    let st := x.plan.status ||| (match t with | some t => t.tileStatus d | none => 0)
    let plan := { x.plan with moves := x.plan.moves ++ ms, count := x.plan.count + d.xb * d.rows.length, status := st }
    { x with err := (match x.err with | some y => some y | none => e), plan := plan }

/-- Slices in position order. -/
def insertByPos (x : Slice) : List Slice → List Slice
  | [] => [x]
  | y :: t => if x.pos < y.pos then x :: y :: t else y :: insertByPos x t

/-- R338: an operation goes on while its workgroup is pre-empted, but what moves bytes of the windows waits until the workgroup has them
again (DESIGN CHOICE, log 35). -/
def Workgroup.serves (w : Workgroup) (windows : Bool) : Bool := w.resident || w.exited || !windows

/-- A descriptor moves bytes of a window. -/
def CopyDesc.local? (d : CopyDesc) : Bool := (kindSpace d.srck).isSome || (kindSpace d.dstk).isSome

/-- R90, R132: a copy may start: every band of its workgroup has supplied its slice or exited. Nested items that are not stamped yet are no
bands of it and hold nothing back (DESIGN CHOICE, log 35). -/
def State.copyReady (s : State) (w : Workgroup) (n : Nat) (sls : List Slice) : Bool :=
  w.serves (sls.any fun sl => (sl.desc.map parseCopy).any CopyDesc.local?)
    && (s.wgBands w.uid ++ w.saved).all (fun b => decide (n ≤ b.copies)) && sls.all fun sl => s.doneBelow sl.band sl.at_

/-- COPY_START: the descriptors are judged, tensors read, publications opened and addresses translated. Of several slices in error the one
lowest in the order of band positions gives the code (DESIGN CHOICE, log 37). -/
def copyStart (u : Nat) (s : State) : State :=
  match s.op? u with
  | some o =>
    match o.kind, s.launch? o.launch, s.wg? o.wg with
    | .engine (.copy n sls none) _, some l, some w =>
      if !s.copyReady w n sls then s
      else
        let sls := sls.foldl (fun acc x => insertByPos x acc) []
        let st : W16 := if w.exits.any fun k => decide (k < n) then 1 else 0
        let stamp := sls.findSome? Slice.stamp
        let seen := sls.map fun sl => (sl, s.sliceError l w o sl)
        let bad := seen.findSome? fun x => match x.2 with | .error e => some e | .ok _ => none
        match bad with
        | some e => s.setOp { o with kind := .engine (.copy n sls (some ⟨[], addError st e, 0, [], 0⟩)) stamp }
        | none =>
          let x := seen.foldl (fun (x : Building) y => match y.2 with | .ok (d, t) => x.slice l w u y.1 d t | .error _ => x)
            ⟨s, ⟨[], st, 0, [], 0⟩, none, false⟩
          if x.waits then x.s
          else
            let p := { x.plan with status := match x.err with | some e => addError x.plan.status e | none => x.plan.status }
            x.s.setOp { o with kind := .engine (.copy n sls (some p)) stamp }
    | _, _, _ => s
  | none => s

def execCopyStart (op : Nat) (s : State) : Host.Outcome State Fault Refusal := .next (copyStart op s)

def Move'.isLocal (m : Move') : Bool := m.src.isLocal || m.dst.isLocal

/-- The units of 4 bytes of the register aperture that a side meets. -/
def State.apUnits (s : State) : Side → List Nat
  | .mem ps => ps.flatMap fun p => if s.kindOf p.1 == .aperture then (List.range ((p.2 + 3) / 4)).map fun i => p.1 + 4 * i else []
  | _ => []

/-- Whether the aperture sides of an operation can be accessed now, what its stores allocate taken together (R160), and its windows. -/
def State.sidesOpen (s : State) (o : Op) (ms : List Move') : Bool :=
  (ms.flatMap fun m => s.apUnits m.src).all (fun a => s.apOpen a false) && s.apStores (ms.flatMap fun m => s.apUnits m.dst)
    && (s.wg? o.wg).all fun w => w.serves (ms.any Move'.isLocal)

/-- Whether a stamp's 16 bytes can be written now: in the register aperture they wait as other stores do (R160). -/
def State.stampOpen (s : State) (o : Op) (stamp : Option StampSpec) : Bool :=
  stamp.all fun st => s.apStores (s.apUnits (.mem [(s.viewOf o.launch o.run st.pa, 16)]))

/-- A copy's incoming frame of a version is abandoned (R65), if the copy has it still. -/
def State.abandonPub (s : State) (u set : Nat) (w : W32) : State :=
  match s.pub? set w with
  | some p =>
    if p.by_ = .copy u then
      let s := s.freeFrame p
      { s with pubs := s.pubs.filter fun x => !(x.set == set && x.ver == w) }
    else s
  | none => s

/-- The versions of a copy's plan that a newer open, or a kill, has abandoned (R359). -/
def State.plansGone (s : State) (u : Nat) (p : Plan) : List (Nat × W32) := p.pubs.filter fun x => s.pubGone (.copy u) x.1 x.2

/-- A move whose publication has been abandoned: its payload is not written. -/
def Move'.lost (m : Move') (gone : List (Nat × W32)) : Bool := m.pub.any gone.contains

/-- COPY_COMPLETE: what is left of the payload is performed, versions are closed, count word and stamp are written. A copy in engine error
publishes nothing: its incoming frames are abandoned, with PUBST 3 (DESIGN CHOICE, log 37). -/
def copyComplete (u : Nat) (s : State) : State :=
  match s.op? u with
  | some o =>
    match o.kind with
    | .engine (.copy _ _ (some p)) stamp =>
      let gone := s.plansGone u p
      let ms := p.moves.filter fun m => !m.lost gone
      if !s.sidesOpen o ms || !s.stampOpen o stamp then s
      else
        let partly := p.status.getLsbD 4
        let (s, moved, pois) := s.transfer o ms partly
        let st := p.status ||| (if pois then stPoisoned else 0)
        let st := if !gone.isEmpty || (partly && !p.pubs.isEmpty) then st ||| stPub 3 else st
        let s := (p.pubs.filter fun x => !gone.contains x).foldl (fun s x => if partly then s.abandonPub u x.1 x.2 else s.closePub x.1 x.2) s
        s.endEngine u stamp st (if partly || !gone.isEmpty then p.moved + moved else p.count) 0
    | _ => s
  | none => s

def execCopyComplete (op : Nat) (es : List SymErr) (s : State) : Host.Outcome State Fault Refusal := .next (copyComplete op (s.strikes es))

/-- A part of a started copy's payload is performed before its end (R133): `n` bytes from the k-th of a move. -/
def State.copyPart (s : State) (o : Op) (i k n : Nat) : State :=
  match o.kind with
  | .engine (.copy c sls (some p)) stamp =>
    match p.moves[i]? with
    | some m =>
      if n = 0 || decide (m.n < k + n) || m.lost (s.plansGone o.uid p) || !s.sidesOpen o [m.cut k n] then s
      else
        let (s, moved, pois) := s.transfer o [m.cut k n] false
        let p := { p with
          moves := splice p.moves i (m.without k n), moved := p.moved + moved
          status := p.status ||| (if pois then stPoisoned else 0) }
        s.setOp { o with kind := .engine (.copy c sls (some p)) stamp }
    | none => s
  | _ => s

/-! ### Publication events (R65) -/

/-- PUBLICATION_OPEN: the open of a copy that may start, or of a CAG, reaches the home controller ahead of its payload. -/
def State.opensPub (s : State) (l : Launch) (set : Nat) (w : W32) (size : Nat) (o : Op) : Option Publisher :=
  let fits := fun (t : Tr) => pteVer t.pte && setOf t.pte == set && 2 ^ (12 + pteSize t.pte) == size
  match o.kind, s.wg? o.wg with
  | .engine (.copy n sls none) _, some wg =>
    let mine := fun (sl : Slice) => match s.sliceError l wg o sl with
      | .ok (d, _) => d.pub && d.aux.setWidth 32 == w
          && match s.pubPage (l.engineCtx wg.core sl.priv) d.dst with | .ok t => fits t | .error _ => false
      | .error _ => false
    let clean := sls.all fun sl => match s.sliceError l wg o sl with | .ok _ => true | .error _ => false
    if s.copyReady wg n sls && clean && sls.any mine then some (.copy o.uid) else none
  | .cag rank ver _ nchk _ dst _ dl _ ended _ _, _ =>
    let mine := fun (c : Nat) => !dl.contains c
      && match s.translate (l.flumeCtx (flumeOf o.place.core)) .load (dst + BitVec.ofNat 64 (c * 65536)) with | .ok t => fits t | .error _ => false
    if ver == w && !(ended.any fun e => e.1 == l.here) && (List.range nchk).any mine then some (.rank rank) else none
  | _, _ => none

def publicationOpen (launch vs : Nat) (w : W32) (pageSize : Nat) (s : State) : State :=
  match s.launch? launch with
  | some l =>
    match (s.ops.filter fun o => o.launch == launch).findSome? (s.opensPub l vs w pageSize), s.pub? vs w with
    | some by_, none => (s.openPub vs w pageSize launch by_).2
    | _, _ => s
  | none => s

def execPublicationOpen (launch vs : Nat) (w : W32) (pageSize : Nat) (s : State) : Host.Outcome State Fault Refusal :=
  .next (publicationOpen launch vs w pageSize s)

/-- PUBLICATION_CLOSE: a version whose payload has been performed closes: all chunks of its page, or all of the copy's moves to it; the
copy's plan then names it no more. -/
def publicationClose (vs : Nat) (w : W32) (s : State) : State :=
  match s.pub? vs w with
  | some p =>
    match p.by_ with
    | .rank _ => if p.chunks.length * 65536 = p.size then s.closePub vs w else s
    | .copy u =>
      match s.op? u with
      | some o =>
        match o.kind with
        | .engine (.copy c sls (some q)) stamp =>
          if q.moves.all (fun m => m.pub != some (vs, w)) && !q.status.getLsbD 4 && q.pubs.contains (vs, w) then
            (s.closePub vs w).setOp { o with kind := .engine (.copy c sls (some { q with pubs := q.pubs.filter (· != (vs, w)) })) stamp }
          else s
        | _ => s
      | none => s
  | none => s

def execPublicationClose (vs : Nat) (w : W32) (s : State) : Host.Outcome State Fault Refusal := .next (publicationClose vs w s)

/-! ## COPYM and MACK (R102, R103) -/

def copymStart (b : Band) (desc : Option (List W64)) (stamp : Option StampSpec) (s : State) : Try State := do
  let w ← s.wgOf b
  b.flagReady false
  s.needEntry b
  let u := s.nextUid
  let locks := match desc with
    | some ws =>
      let d := parseCopy ws
      if d.badMulticast || s.sliceSpace w { d with dstk := 0 } then []
      else match kindSpace d.srck with
        | some spc => [locLock b.place.core u false spc w.slot (d.bounds false).1.toNat (d.bounds false).2]
        | none => [memLock b.place.core u false (s.bandCtx b) ((d.bounds false).1 % (2 ^ 64 : Int)).toNat (d.bounds false).2]
    | none => []
  s.needLocks b.place.core locks.length
  let sl : Slice := ⟨b.pos, u, b.uid, b.place, b.privileged, desc, stamp⟩
  let t := (s.startEngine b (.engine (.copym sl [] none 0 0) stamp)).addLocks locks
  return t.modBand b.uid fun c => { c with lastCopy := some u }

def copymBody (m : MemRef) (b : Band) (s : State) : Try Fin' := do
  let ea ← s.effective b m 64
  if ea.e.toNat % 64 ≠ 0 then return .next ((← copymStart b none none s).updateA b m ea)
  withDesc b ea.e 64 s fun bs s => do
    let ws := wordsOf bs 8
    let d := parseCopy ws
    let stamp ← s.stampOf b d.stamp d.seq d.scope
    return .next ((← copymStart b (some ws) stamp s).updateA b m ea)

def execCopym (mem : MemRef) (s : State) : Host.Outcome State Fault Refusal := .next (issue (.copym mem) (copymBody mem) s)

/-- R270: after the release, the flag of the core is set. -/
def execMack (n : BitVec 6) (s : State) : Host.Outcome State Fault Refusal :=
  .next (issue (.mack n) (fun b s => do
    holdUnless (s.accessesDone b)
    let x := (b.place.core, n.toNat)
    return .next (if s.rflags.contains x then s else { s with rflags := s.rflags ++ [x] })) s)

/-! Receivers. -/

def Receiver.kind (r : Receiver) : Nat := fld r.rctl 63 61
def Receiver.remote (r : Receiver) : Bool := r.rctl.getLsbD 60
def Receiver.member (r : Receiver) : Nat := fld r.rctl 59 50
def Receiver.core (r : Receiver) : Nat := fld r.rctl 49 42
def Receiver.slot (r : Receiver) : Nat := fld r.rctl 41 40
def Receiver.flag (r : Receiver) : Nat := fld r.rctl 39 34

/-- The device that a receiver of this pod is on. -/
def State.receiverDev (s : State) (r : Receiver) : Nat := podOf s.devid * 1024 + r.member
def State.receiverHere (s : State) (r : Receiver) : Bool := !r.remote || s.receiverDev r == s.devid

/-- R102: an entry of the list that breaks its rules, a stamp or an address of no legal form among them, which make code 5 (DESIGN CHOICE,
log 37). -/
def Receiver.malformed (r : Receiver) (rest : W64) : Bool :=
  decide (3 < r.kind) || fld r.rctl 33 0 != 0 || (!r.remote && r.member != 0) || decide (240 ≤ r.core) || rest != 0
    || badAddress r.kind r.rdst || r.rstamp.toNat % 16 != 0 || decide (2 ^ 57 ≤ r.rstamp.toNat)

/-- The launch's workgroup in a window slot of a core. -/
def State.wgAt (s : State) (launch core slot : Nat) : Option Workgroup :=
  s.wgs.find? fun w => w.launch == launch && w.resident && !w.exited && w.core == core && w.slot == slot

/-- A receiver here whose workgroup is pre-empted: what goes to its window waits (DESIGN CHOICE, log 35). -/
def State.receiverAway (s : State) (launch : Nat) (r : Receiver) : Bool :=
  (kindSpace r.kind).isSome && s.receiverHere r && (s.wgAt launch r.core r.slot).isNone
    && s.wgs.any fun w => w.launch == launch && !w.resident && !w.exited && w.core == r.core && w.slot == r.slot

/-- The bounding range of the payload at a receiver. -/
def receiverBounds (d : CopyDesc) (r : Receiver) : Int × Nat := ({ d with dst := r.rdst } : CopyDesc).bounds true

/-- A receiver of this device whose window cannot take the payload (code 4). -/
def State.badReceiver (s : State) (launch : Nat) (d : CopyDesc) (r : Receiver) : Bool :=
  match kindSpace r.kind with
  | none => false
  | some spc => s.receiverHere r && match s.wgAt launch r.core r.slot with
    | some w => s.badWindow w spc (receiverBounds d r).1 (receiverBounds d r).2
    | none => true

/-- The receiver list. -/
def State.readReceivers (s : State) (c : Ctx) (o : Op) (d : CopyDesc) : Except Nat (List (Receiver × W64)) :=
  (s.enginePieces c .load d.dst (32 * (d.nrcv + 1))).map fun ps =>
    let bs := (pieceBytes ps).zipIdx.map fun (pa, i) => s.engineByte o pa i
    (List.range (d.nrcv + 1)).map fun i =>
      let ws := wordsOf (bs.drop (32 * i)) 4
      (⟨ws.getD 0 0, ws.getD 1 0, ws.getD 2 0, false, []⟩, ws.getD 3 0)

/-- R103 step 2: destination locks at the receiving cores of this device. -/
def State.receiverLocks (s : State) (u : Nat) (d : CopyDesc) (rs : List Receiver) : List Lock :=
  rs.filterMap fun r => match kindSpace r.kind with
    | some spc => if s.receiverHere r then some (locLock r.core u true spc r.slot (receiverBounds d r).1.toNat (receiverBounds d r).2) else none
    | none => none

/-- R103: the receiving cores' tables have room for locks; while one has none, the COPYM waits with its flags as they are (DESIGN CHOICE,
log 37). -/
def lockRoom (s : State) (ls : List Lock) : Bool :=
  (dedup (ls.map Lock.core)).all fun c => s.locksFree c (ls.filter fun l => l.core == c).length

/-- The payload as runs at offsets from a receiver's address. -/
def State.payload (s : State) (o : Op) (ms : List Move') : List Run :=
  ms.filterMap fun m => match m.dst with
    | .rel off =>
      let bs := s.sideBytes o m.n m.src
      some ⟨off, bs.map Prod.fst, (bs.zipIdx.filter fun x => x.1.2).map Prod.snd⟩
    | _ => none

/-- The units of the aperture that runs of payload, as moves, and a stamp of a receiver meet can be written now (R160). -/
def State.runsOpen (s : State) (ms : List (Move' × Run)) (stamp : List (Nat × Nat)) : Bool :=
  s.apStores ((ms.flatMap fun m => s.apUnits m.1.dst) ++ s.apUnits (.mem stamp))

/-- Every receiver's flag is set: those of this device here, those of other devices as `away` tells (DESIGN CHOICE, log 10). -/
def State.flagsSet (s : State) (away : Bool) (rs : List Receiver) : Bool :=
  rs.all fun r => if s.receiverHere r then s.rflags.contains (r.core, r.flag) else away

/-- R103 step 2: the flags of receivers here are taken, and destination locks registered at their cores. -/
def State.takeFlags (s : State) (rs : List Receiver) (locks : List Lock) : State :=
  let used := (rs.filter s.receiverHere).map fun r => (r.core, r.flag)
  ({ s with rflags := s.rflags.filter fun f => !used.contains f } : State).addLocks locks

/-- The payload goes out to a receiver on another device. -/
def State.sendPayload (s : State) (u : Nat) (launch : Nat) (seq : BitVec 48) (st : W16) (runs : List Run) (x : Receiver × Nat) : State :=
  if s.receiverHere x.1 then s
  else
    let dev := s.receiverDev x.1
    let (s, ok) := s.sendTo dev (.copymPayload dev x.1.rctl x.1.rdst x.1.rstamp runs seq st)
    if ok then s
    else
      match s.op? u with
      | some o => (match o.kind with
        | .engine (.copym sl rs sent st n) stamp =>
          (s.post (s.eventFor 0x57 launch (dev % 2 ^ 21))).setOp
            { o with kind := .engine (.copym sl (rs.set x.2 { x.1 with acked := true }) sent (addError st 6) n) stamp }
        | _ => s)
      | none => s

/-- The sender's stamp, once every receiver has acknowledged or is lost. -/
def State.settleCopym (s : State) (u : Nat) : State :=
  match s.op? u with
  | some o =>
    match o.kind with
    | .engine (.copym _ rs (some _) st n) stamp => if rs.all Receiver.acked && s.stampOpen o stamp then s.endEngine u stamp st n 0 else s
    | _ => s
  | none => s

/-- COPYM_SEND of a COPYM of this device. -/
def copymSend (u : Nat) (away : Bool) (s : State) : State :=
  match s.op? u with
  | some o =>
    match o.kind, s.launch? o.launch, s.wg? o.wg with
    | .engine (.copym sl _ none _ _) stamp, some l, some w =>
      if !s.doneBelow o.band o.uid || !w.serves (((sl.desc.map parseCopy).any fun d => (kindSpace d.srck).isSome)) || !s.stampOpen o stamp then s
      else
        let fail := fun (e : Nat) => s.endEngine u stamp (stError e) 0 0
        match sl.desc with
        | none => fail 5
        | some ws =>
          let d := parseCopy ws
          let c := l.engineCtx w.core sl.priv
          if d.badMulticast then fail 5
          else if s.sliceSpace w { d with dstk := 0 } then fail 4
          else
            match s.readReceivers c o d with
            | .error e => fail e
            | .ok rs =>
              if rs.any fun r => r.1.malformed r.2 then fail 5
              else if rs.any fun r => !s.receiverAway o.launch r.1 && s.badReceiver o.launch d r.1 then fail 4
              else
                let rs := rs.map Prod.fst
                let locks := s.receiverLocks u d rs
                let (ms, e) := s.resolveAll c l.lr.migr w (d.wants none)
                if !s.flagsSet away rs || !lockRoom s locks || rs.any (s.receiverAway o.launch) || !s.sidesOpen o ms then s
                else
                  let s := s.takeFlags rs locks
                  match e with
                  | some e => s.endEngine u stamp (stError e) 0 0
                  | none =>
                    let runs := s.payload o ms
                    let bad := (ms.flatMap fun m => s.sideBad o m.src).eraseDups
                    let st : W16 := if bad.isEmpty then 0 else stPoisoned
                    let s := (s.touchSides o (ms.map Move'.src)).damaged o bad (rs.any fun r => (kindSpace r.kind).isSome)
                    let rs := rs.map fun r => { r with rest := runs }
                    let s := s.setOp { o with kind := .engine (.copym sl rs (some runs) st (d.xb * d.rows.length)) stamp }
                    (rs.zipIdx.foldl (fun s x => s.sendPayload u o.launch d.seq st runs x) s).settleCopym u
    | _, _, _ => s
  | none => s

/-- A COPYM of another device, for receivers here of this device's launch of its LID: once their flags are set and there is room, they are
taken and the locks registered. -/
def inboundSend (dev lid tag : Nat) (priv : Bool) (lo : Int) (n : Nat) (entries : List (W64 × W64 × W64)) (s : State) : State :=
  let rs : List Receiver := entries.map fun x => ⟨x.1, x.2.1, x.2.2, false, []⟩
  match s.byLid lid with
  | none => s
  | some l =>
    let locks := rs.filterMap fun r => (kindSpace r.kind).bind fun spc =>
      (s.wgAt l.uid r.core r.slot).map fun _ => locLock r.core s.nextUid true spc r.slot ((r.rdst.toNat : Int) + lo).toNat n
    if rs.isEmpty || s.inbound.any (fun x => x.dev == dev && x.tag == tag) || !(rs.all fun r => s.rflags.contains (r.core, r.flag))
      || !lockRoom s locks then s
    else
      let used := rs.map fun r => (r.core, r.flag)
      ({ s with
        rflags := s.rflags.filter fun f => !used.contains f, nextUid := s.nextUid + 1
        inbound := s.inbound ++ [⟨s.nextUid, dev, tag, l.uid, priv, lo, n, rs⟩] } : State).addLocks locks

def execCopymSend (src : CopymSrc) (s : State) : Host.Outcome State Fault Refusal :=
  .next (match src with
    | .own u away => copymSend u away s
    | .remote dev lid tag priv lo n entries => inboundSend dev lid tag priv lo n entries s)

/-- Runs of payload as moves at a receiver: in its window, whose workgroup must have room for the range, or in memory. -/
def State.receiverMoves (s : State) (c : Ctx) (l : Launch) (r : Receiver) (lo : Int) (n : Nat) (runs : List Run) : Except Nat (List (Move' × Run)) :=
  let at_ := fun (x : Run) => r.rdst + x.off
  match kindSpace r.kind with
  | some spc => match s.wgAt l.uid r.core r.slot with
    | some w =>
      if s.badWindow w spc ((r.rdst.toNat : Int) + lo) n then .error 4
      else .ok (runs.map fun x => (⟨.fill [], s.locAt w spc (at_ x).toNat, x.data.length, 0, none⟩, x))
    | none => .error 4
  | none => runs.mapM fun x => (s.engineRange c l.lr.migr .store (at_ x) x.data.length).map fun ps =>
      ((⟨.fill [], .mem ps, x.data.length, 0, none⟩ : Move'), x)

def State.putRuns (s : State) (o : Op) (ms : List (Move' × Run)) : State :=
  ms.foldl (fun s (m, x) => s.putMove o m (x.data.zipIdx.map fun (y, i) => (y, x.bad.contains i)) (fun _ => false)) s

/-- Whether a receiver of this device can take its payload and stamp now. -/
def State.receiveOpen (s : State) (l : Launch) (priv : Bool) (r : Receiver) (lo : Int) (n : Nat) (runs : List Run) : Bool :=
  let c := l.engineCtx r.core priv
  match s.receiverMoves c l r lo n runs with
  | .error _ => true
  | .ok ms => s.runsOpen ms (if r.rstamp = 0 then [] else match s.engineRange c l.lr.migr .store r.rstamp 16 with | .ok ps => ps | .error _ => [])

/-- The payload written at a receiver of this device, its count word and stamp after it; the error code where it cannot be. The stamp carries
the operation's status so far, the loss of another receiver among it (DESIGN CHOICE, log 37). -/
def State.receive (s : State) (o : Op) (l : Launch) (priv : Bool) (seq : BitVec 48) (r : Receiver) (lo : Int) (n : Nat) (runs : List Run)
    (st : W16) (count : Nat) : State × Option Nat :=
  let c := l.engineCtx r.core priv
  match s.receiverMoves c l r lo n runs with
  | .error e => (s, some e)
  | .ok ms =>
    let s := s.putRuns o ms
    if r.rstamp = 0 then (s, none)
    else
      match s.engineRange c l.lr.migr .store r.rstamp 16 with
      | .error e => (s, some e)
      | .ok ps =>
        let pa := (ps.map Prod.fst).headD 0
        let s := s.engineStore o (w64Cells (pa + 8) (BitVec.ofNat 64 (count % 2 ^ 48))) []
        (s.engineStore o (w64Cells pa (seq.setWidth 64 <<< 16 ||| st.setWidth 64)) [], none)

/-- The range of a COPYM's payload from a receiver's address. -/
def CopyDesc.spread (d : CopyDesc) : Int × Nat := ({ d with dst := 0 } : CopyDesc).bounds true

/-- COPYM_RECEIVER_ACK: a receiver of this device takes the payload and acknowledges; another device reports with an engine error code, 0
for none, or is lost (6). -/
def copymAck (u i : Nat) (code : Nat) (s : State) : State :=
  match s.op? u with
  | some o =>
    match o.kind, s.launch? o.launch with
    | .engine (.copym sl rs (some runs) st n) stamp, some l =>
      match rs[i]?, sl.desc with
      | some r, some ws =>
        let d := parseCopy ws
        if r.acked then s.settleCopym u
        else if s.receiverAway o.launch r
            || (s.receiverHere r && !s.receiveOpen l sl.priv r d.spread.1 d.spread.2 r.rest) then s
        else
          let (s, e) := if s.receiverHere r then s.receive o l sl.priv d.seq r d.spread.1 d.spread.2 r.rest st n
            else (s, if code = 0 then none else some code)
          let st := match e with | some e => addError st e | none => st
          (s.setOp { o with kind := .engine (.copym sl (rs.set i { r with acked := true, rest := [] }) (some runs) st n) stamp }).settleCopym u
      | _, _ => s
    | _, _ => s
  | none => s

/-- The payload of another device's COPYM arrives for a receiver here: it is written, its count word and stamp after it, and acknowledged.
The locks here clear once every receiver here has (DESIGN CHOICE, log 10). -/
def inboundPayload (dev tag i : Nat) (runs : List Run) (seq : BitVec 48) (st : W16) (count : Nat) (s : State) : State :=
  match s.inbound.find? fun x => x.dev == dev && x.tag == tag with
  | none => s
  | some x =>
    match x.recvs[i]?, s.launch? x.launch with
    | some r, some l =>
      if r.acked || s.receiverAway l.uid r || !s.receiveOpen l x.priv r x.lo x.n runs then s
      else
        let o : Op := ⟨x.uid, l.uid, 0, 0, ⟨r.core, 0, 0⟩, 0, none, .engine (.stash [] 0 0 false) none⟩
        let (s, e) := s.receive o l x.priv seq r x.lo x.n runs st count
        let s := s.reply l.lr.lid dev (.copymAck dev tag i (e.getD 0))
        let rs := x.recvs.set i { r with acked := true }
        let rest := s.inbound.filter fun y => y.uid != x.uid
        if rs.all Receiver.acked then ({ s with inbound := rest } : State).dropLocks x.uid else { s with inbound := rest ++ [{ x with recvs := rs }] }
    | _, _ => s

def execCopymReceiverAck (src : CopymOf) (idx : Nat) (reply : CopymReply) (s : State) : Host.Outcome State Fault Refusal :=
  .next (match src, reply with
    | .own u, .ended code => copymAck u idx code.toNat s
    | .remote dev tag, .payload runs seq st count => inboundPayload dev tag idx runs seq st count s
    | .own _, .payload .. => s
    | .remote _ _, .ended _ => s)

/-- A part of a receiver's payload is written before the rest (R133): `n` bytes from the k-th of its first run that is left. -/
def State.copymPart (s : State) (o : Op) (i k n : Nat) : State :=
  match o.kind, s.launch? o.launch with
  | .engine (.copym sl rs (some runs) st c) stamp, some l =>
    match rs[i]?, sl.desc with
    | some r, some ws =>
      match r.rest with
      | x :: rest =>
        let d := parseCopy ws
        let at_ := fun (x : Run) (k n : Nat) => Run.mk (x.off + BitVec.ofNat 64 k) ((x.data.drop k).take n)
          ((x.bad.filter fun j => decide (k ≤ j) && decide (j < k + n)).map (· - k))
        if n = 0 || decide (x.data.length < k + n) || !s.receiverHere r then s
        else
          match s.receiverMoves (l.engineCtx r.core sl.priv) l r d.spread.1 d.spread.2 [at_ x k n] with
          | .error _ => s
          | .ok ms =>
            if !s.runsOpen ms [] then s else
            let left := [at_ x 0 k, at_ x (k + n) (x.data.length - k - n)].filter fun y => !y.data.isEmpty
            (s.putRuns o ms).setOp { o with kind := .engine (.copym sl (rs.set i { r with rest := left ++ rest }) (some runs) st c) stamp }
      | [] => s
    | _, _ => s
  | _, _ => s

/-! ## STASH (R104 to R106, R271) -/

structure StashDesc where
  pk : Nat
  tk : Nat
  mode : Nat
  scope : Nat
  zero : Bool
  seq : BitVec 48
  pdst : W64
  tdst : W64
  ppitch : Nat
  tpitch : Nat
  stamp : W64
  pscl : W64
  tscl : W64
  deriving DecidableEq, Repr

def parseStash (bs : List Byte) : StashDesc :=
  let ctl := BitVec.ofNat 64 (descField bs 0 8)
  { pk := fld ctl 63 61, tk := fld ctl 60 58, mode := fld ctl 57 56, scope := fld ctl 55 53, zero := fld ctl 52 48 == 0 && zeroBytes bs 56 64
    seq := ctl.extractLsb' 0 48, pdst := BitVec.ofNat 64 (descField bs 8 8), tdst := BitVec.ofNat 64 (descField bs 16 8)
    ppitch := descField bs 24 4, tpitch := descField bs 28 4, stamp := BitVec.ofNat 64 (descField bs 32 8)
    pscl := BitVec.ofNat 64 (descField bs 40 8), tscl := BitVec.ofNat 64 (descField bs 48 8) }

/-- Bytes of a plain and of a transposed row, rows of the transposed tile, and bytes of a scale array. -/
def StashDesc.rowP (d : StashDesc) : Nat := if d.mode = 3 then 32 else 64
def StashDesc.rowT (d : StashDesc) : Nat := if d.mode = 0 then 64 else if d.mode = 3 then 16 else 32
def StashDesc.rowsT (d : StashDesc) : Nat := if d.mode = 0 then 32 else 64
def StashDesc.scales (d : StashDesc) : Nat := if d.mode = 3 then 128 else 64
/-- Source registers. -/
def StashDesc.regs (d : StashDesc) : Nat := if d.mode = 0 then 16 else 32

def StashDesc.malformed (d : StashDesc) : Bool :=
  !(d.pk == 0 || d.pk == 2) || !(d.tk == 0 || d.tk == 2) || !d.zero || d.scope == 7 || decide (d.ppitch < d.rowP) || decide (d.tpitch < d.rowT)

/-- Destination footprints: kind, start, bytes. -/
def StashDesc.footprints (d : StashDesc) : List (Nat × W64 × Nat) :=
  [(d.pk, d.pdst, 31 * d.ppitch + d.rowP), (d.tk, d.tdst, (d.rowsT - 1) * d.tpitch + d.rowT)]
    ++ if d.mode = 0 then [] else [(d.pk, d.pscl, d.scales), (d.tk, d.tscl, d.scales)]

/-- The error that the descriptor reveals: an address in memory with bits 63:57 set breaks its form, with nothing written (DESIGN CHOICE,
log 37). -/
def State.stashError (s : State) (w : Workgroup) (d : StashDesc) : Nat :=
  if d.malformed || d.footprints.any (fun f => f.1 == 0 && decide (2 ^ 57 ≤ f.2.1.toNat)) then 5
  else if d.footprints.any fun f => f.1 == 2 && s.badWindow w .ab f.2.1.toNat f.2.2 then 4
  else 0

/-- Element (i, j) of the source: register j / 2, lane i (R105). -/
def stashElem (rs : List VReg) (i j : Nat) : Nat := ((rs.getD (j / 2) VReg.zero).lane i).toNat / 2 ^ (16 * (j % 2)) % 2 ^ 16

/-- The block format of a mode (codes of R232). -/
def stashFmt (mode : Nat) : Nat := if mode = 1 then 1 else if mode = 2 then 0 else 5

/-- A row's codes as bytes (R16). -/
def packCodes (q : Nat) (cs : List Nat) : List Byte :=
  if q < 4 then cs.map (BitVec.ofNat 8) else (List.range (cs.length / 2)).map fun i => BitVec.ofNat 8 (cs.getD (2 * i) 0 + 16 * cs.getD (2 * i + 1) 0)

/-- R106: blocks of the plain tile (two of each row) and of the transposed one (one of each row). -/
def plainBlock (b : Band) (k : SrKey) (d : StashDesc) (rs : List VReg) (i h : Nat) : Quantised :=
  quantise (stashFmt d.mode) (fun e => roundOf b.rnd k i (32 * h + e))
    ((List.range 32).map fun e => (readNum bf16 b.ftz (stashElem rs i (32 * h + e))).1)
def transBlock (b : Band) (k : SrKey) (d : StashDesc) (rs : List VReg) (j : Nat) : Quantised :=
  quantise (stashFmt d.mode) (fun e => roundOf b.rnd k e (64 + j))
    ((List.range 32).map fun e => (readNum bf16 b.ftz (stashElem rs e j)).1)

/-- What the Prism writes, and the FPS bits (R105). -/
def stashWrites (b : Band) (k : SrKey) (d : StashDesc) (rs : List VReg) : List (Nat × W64 × List Byte) × BitVec 6 :=
  let p := fun (i : Nat) (x : List Byte) => (d.pk, d.pdst + BitVec.ofNat 64 (i * d.ppitch), x)
  let t := fun (i : Nat) (x : List Byte) => (d.tk, d.tdst + BitVec.ofNat 64 (i * d.tpitch), x)
  let two := fun (x : Nat) => [BitVec.ofNat 8 x, BitVec.ofNat 8 (x / 256)]
  if d.mode = 0 then
    ((List.range 32).map (fun i => p i (((List.range 32).map fun j => two (stashElem rs i j)).flatten))
      ++ (List.range 32).map fun j => t j (((List.range 32).map fun i => two (stashElem rs i j)).flatten), 0)
  else
    let q := stashFmt d.mode
    let ps := (List.range 32).map fun i => [plainBlock b k d rs i 0, plainBlock b k d rs i 1]
    let ts := (List.range 64).map fun j => transBlock b k d rs j
    let pb := ps.flatten
    let fl := (pb ++ ts).foldl (fun a x => a ||| x.fps) 0
    let src := (List.range 64).foldl (fun a j => (List.range 32).foldl (fun a i => a ||| (readNum bf16 b.ftz (stashElem rs i j)).2) a) 0
    let scl := fun (xs : List Quantised) => (xs.map fun x => BitVec.ofNat 8 x.c) ++ if d.mode = 3 then xs.map fun x => BitVec.ofNat 8 x.p else []
    (ps.zipIdx.map (fun (x, i) => p i (packCodes q (x.map Quantised.codes).flatten))
      ++ ts.zipIdx.map (fun (x, j) => t j (packCodes q x.codes)) ++ [(d.pk, d.pscl, scl pb), (d.tk, d.tscl, scl ts)], fl ||| src)

def stashBody (dst : Opnd) (m : MemRef) (b : Band) (s : State) : Try Fin' := do
  let vb ← vNum dst
  let ea ← s.effective b m 64
  if ea.e.toNat % 64 ≠ 0 then .error (.trap tMisalign 0 ea.e 0)
  withDesc b ea.e 64 s fun bs s => do
    let d := parseStash bs
    let stamp ← s.stampOf b d.stamp d.seq d.scope
    need (decide (vb + d.regs ≤ 64))
    allLanes (← s.lanesOf b)
    let w ← s.wgOf b
    let rs ← b.readBlock vb d.regs
    b.flagReady false
    s.needEntry b
    let u := s.nextUid
    let err := s.stashError w d
    let locks := if err ≠ 0 then [] else d.footprints.map fun f =>
      if f.1 = 2 then locLock b.place.core u true .ab w.slot f.2.1.toNat f.2.2 else memLock b.place.core u true (s.bandCtx b) f.2.1.toNat f.2.2
    s.needLocks b.place.core locks.length
    let (ws, fl) := if err = 0 then stashWrites b (s.srKey b) d rs else ([], 0)
    let t := ((s.startEngine b (.engine (.stash ws 0 err b.privileged) stamp)).addLocks locks).modBand b.uid fun c => { c with lastCopy := some u }
    return .next (((t.setFps b.uid fl).countSr b b.rnd).updateA b m ea)

def execStash (d : Opnd) (mem : MemRef) (s : State) : Host.Outcome State Fault Refusal := .next (issue (.stash d mem) (stashBody d mem) s)

/-- Bytes that the Prism still has to write, as moves; the error of the first that cannot be translated. -/
def State.stashMoves (s : State) (l : Launch) (w : Workgroup) (priv : Bool) (ws : List (Nat × W64 × List Byte)) : List Move' × Option Nat :=
  s.resolveAll (l.prismCtx w.core priv) l.lr.migr w
    (ws.map fun (k, a, bs) => (⟨.fill bs, if k = 2 then .sp .ab a.toNat else .va a, bs.length, 0⟩ : Want))

/-- STASH_COMPLETE: what is left of both tiles and the scales is written, translated as they are. -/
def stashComplete (u : Nat) (s : State) : State :=
  match s.op? u with
  | some o =>
    match o.kind, s.launch? o.launch, s.wg? o.wg with
    | .engine (.stash ws before err priv) stamp, some l, some w =>
      if !s.doneBelow o.band o.uid || !s.stampOpen o stamp then s
      else if err ≠ 0 then s.endEngine u stamp (stError err) 0 0
      else
        let (ms, e) := s.stashMoves l w priv ws
        if !s.sidesOpen o ms then s
        else
          let (s, moved, _) := s.transfer o ms e.isSome
          s.endEngine u stamp (match e with | some e => stError e | none => 0) (before + moved) 0
    | _, _, _ => s
  | none => s

/-- A part of what the Prism writes, before the rest (R133). -/
def State.stashPart (s : State) (o : Op) (i k n : Nat) : State :=
  match o.kind, s.launch? o.launch, s.wg? o.wg with
  | .engine (.stash ws before 0 priv) stamp, some l, some w =>
    match ws[i]? with
    | some (kd, a, bs) =>
      let at_ := fun (k n : Nat) => (kd, a + BitVec.ofNat 64 k, (bs.drop k).take n)
      let (ms, e) := s.stashMoves l w priv [at_ k n]
      if n = 0 || decide (bs.length < k + n) || e.isSome || !s.doneBelow o.band o.uid || !s.sidesOpen o ms then s
      else
        let left := [at_ 0 k, at_ (k + n) (bs.length - k - n)].filter fun x => !x.2.2.isEmpty
        (s.transfer o ms false).1.setOp { o with kind := .engine (.stash (splice ws i left) (before + n) 0 priv) stamp }
    | none => s
  | _, _, _ => s

/-- A part of an engine's payload is performed (R133, log 8). -/
def State.enginePart (s : State) (u i k n : Nat) : State :=
  match s.op? u with
  | some o =>
    match o.kind with
    | .engine (.copy _ _ _) _ => s.copyPart o i k n
    | .engine (.copym _ _ _ _ _) _ => s.copymPart o i k n
    | .engine (.stash ..) _ => s.stashPart o i k n
    | _ => s
  | none => s

def execStashComplete (op : Nat) (s : State) : Host.Outcome State Fault Refusal := .next (stashComplete op s)

/-! ## YIELDC (R99, R305) -/

/-- YIELDC_REACTIVATE: the band goes on at its continuation, as after an acquire at the stamp's scope (R73, R133). -/
def yieldcReactivate (p : Place) (s : State) : State :=
  match s.bandAt p with
  | some b =>
    match b.wait with
    | some (.yieldc u t pc hdr ended) =>
      if (s.op? u).isSome || b.parked then s
      else
        let b' := { b with wait := none, held := false }
        let s := (s.acquireAt b (ended.getD 0)).setBand b'
        if s.notHeader b' t then
          s.takeTrap b' { code := BitVec.ofNat 8 tIllegalTarget, lane := 0, s26 := t, s27 := 0, pc := pc, atHdr := false, hdr := hdr
                          skip := va57 (pc + 4) }
        else s
    | _ => s
  | none => s

def execYieldcReactivate (p : Place) (s : State) : Host.Outcome State Fault Refusal := .next (yieldcReactivate p s)

end Sys2Proof.Machine
end

