-- ==== Sys2Proof/Machine/Exchange.lean ====
section
/-! DEFINITION. Lane exchange, reduction, scan, search, distance and top-k (R237 to R243). All are arithmetic-class operations. -/

namespace Sys2Proof.Machine

/-! ## Exchange (R237) -/

/-- What an exchange moves: whole lanes, so that of a type narrower than 32 bits all 32 bits of a lane are moved as they stand (the
type they are moved under is n32); a 64-bit type moves the pair. -/
def movedTyp (typ : Nat) : Nat := if typeBits typ = 64 then typ else 6

/-- Whole lanes moved: lane i of the destination takes lane `idx i` of the source. -/
def exchange (i : Instr) (d a : Opnd) (idx : Band → State → Try (Nat → Nat)) : State → State :=
  issue i fun b s => do
    let lanes ← s.lanesOf b
    let x ← s.lanesSrc b (movedTyp b.typ) a
    let g ← idx b s
    return .next (← s.arithElems b (movedTyp b.typ) d (fun i => x (g i % 32)) lanes 0)

/-- R237: the lane numbers of VSHFL, of which bits 4:0 count: a vector source of MODE.TYPE (R179, R218), and lat's own lanes. -/
def State.laneNumbers (s : State) (b : Band) (o : Opnd) : Try (Nat → Nat) :=
  match o with
  | .lat => do
    let x ← b.readLat
    return fun i => (x.lane i).toNat
  | o => s.lanesSrc b b.typ o

def execVshfl (d a b : Opnd) (s : State) : Host.Outcome State Fault Refusal :=
  .next (exchange (.vshfl d a b) d a (fun bd s => s.laneNumbers bd b) s)
def execVbfly (d a : Opnd) (imm : BitVec 5) (s : State) : Host.Outcome State Fault Refusal :=
  .next (exchange (.vbfly d a imm) d a (fun _ _ => .ok fun i => i ^^^ imm.toNat) s)
def execVrot (d a : Opnd) (imm : BitVec 5) (s : State) : Host.Outcome State Fault Refusal :=
  .next (exchange (.vrot d a imm) d a (fun _ _ => .ok fun i => i + imm.toNat) s)

/-! ## Reduction and scan (R238, R239) -/

/-- Operations of R239: 0 add, 1 maximum, 2 minimum. -/
def absentInt (typ op : Nat) : Int :=
  if op = 0 then 0 else if op = 1 then intMin (isSigned typ) (typeBits typ) else intMax (isSigned typ) (typeBits typ)

def absentFloat (f : Fmt) (op : Nat) : Nat :=
  if op = 0 then f.signBit else f.withSign (op == 1) f.infCode

def combInt (op : Nat) (x y : Int) : Int := if op = 0 then x + y else if op = 1 then max x y else min x y

/-- One step of a float tree on (code, status) pairs; `rd` rounds a sum. Minima and maxima take NF from the final result alone. A
step's status goes with its value, so that of a step in a lane outside EXEC it is set where an enabled lane takes the value (DEDUCED,
log 29). -/
def combFloat (b : Band) (f : Fmt) (op : Nat) (rd : Rounding) (x y : Nat × BitVec 6) : Nat × BitVec 6 :=
  let r :=
    if op = 0 then
      let (u, fu) := readNum f b.ftz x.1
      let (v, fv) := readNum f b.ftz y.1
      let w := u.add b.rnd v
      finish f rd b.sat b.ftz (w.1, w.2 ||| fu ||| fv)
    else let m := minMax f b.ftz false (op == 1) x.1 y.1; (m.1, m.2 &&& ~~~ fNF)
  (r.1, r.2 ||| x.2 ||| y.2)

/-- A lane's first value: the enabled lane's element with FTZ and a signalling NaN's NV, else the absent value. Where no operation is
applied to it, it is the result as it stands, a NaN's payload included, as R239's pseudocode has it (DEDUCED, log 29). -/
def scanInit (b : Band) (f : Fmt) (op : Nat) (lanes : W32) (x : Nat → Nat) (i : Nat) : Nat × BitVec 6 :=
  if lanes.getLsbD i then
    let (c, fl) := if b.ftz then flushSrc f (x i) else (x i, 0)
    (c, fl ||| snanFlag (f.value c))
  else (absentFloat f op, 0)

/-- R33 rule 4: the tree of VREDADD, steps 16, 8, 4, 2, 1 numbered by e. -/
def redTree {α : Type} (comb : Nat → Nat → α → α → α) (z : α) : Nat → List α → α
  | 0, t => t.headD z
  | n + 1, t =>
    let d := 2 ^ n
    redTree comb z n ((List.range d).map fun i => comb (4 - n) i (t.getD i z) (t.getD (i + d) z))

/-- R239: the steps d = 1, 2, 4, 8, 16 numbered by e, all lanes at once. -/
def scanSteps {α : Type} (comb : Nat → Nat → α → α → α) (z : α) : List Nat → List α → List α
  | [], t => t
  | e :: es, t =>
    scanSteps comb z es ((List.range 32).map fun i =>
      if i < 2 ^ e then t.getD i z else comb e i (t.getD (i - 2 ^ e) z) (t.getD i z))

/-- NF for a float result that is an infinity or a NaN. -/
def nfOf (f : Fmt) (c : Nat) : BitVec 6 := if (f.value c).isNan || (f.value c).isInf then fNF else 0

/-- The result of a reduction and its status. -/
def reduceOf (b : Band) (k : SrKey) (op : Nat) (lanes : W32) (x : Nat → Nat) : Nat × BitVec 6 :=
  match fmtOf b.typ with
  | none =>
    let t := (List.range 32).map fun i => if lanes.getLsbD i then elemInt b.typ (x i) else absentInt b.typ op
    (narrow b b.typ (redTree (fun _ _ => combInt op) 0 5 t), 0)
  | some f =>
    let t := (List.range 32).map (scanInit b f op lanes x)
    let r := redTree (fun e i => combFloat b f op (roundOf b.rnd k i e)) (0, 0) 5 t
    (r.1, if lanes = 0 then 0 else r.2 ||| nfOf f r.1)

/-- R31: a float sum rounds under MODE.RND; integer sums, maxima and minima round nothing and do not count (DEDUCED, log 29). -/
def State.countSum (s : State) (b : Band) (op : Nat) : State := if op = 0 && isFloatType b.typ then s.countSr b b.rnd else s

def reduction (i : Instr) (op : Nat) (d a : Opnd) : State → State :=
  issue i fun b s => do
    let lanes ← s.lanesOf b
    let x ← s.lanesSrc b b.typ a
    let r := reduceOf b (s.srKey b) op lanes x
    let t ← match d with
      | .s n => s.arithS b n.val (scalarImage b.typ r.1) r.2
      | _ => s.arithElems b b.typ d (fun _ => r.1) lanes r.2
    return .next (t.countSum b op)

def execVredadd (d a : Opnd) (s : State) : Host.Outcome State Fault Refusal := .next (reduction (.vredadd d a) 0 d a s)
def execVredmax (d a : Opnd) (s : State) : Host.Outcome State Fault Refusal := .next (reduction (.vredmax d a) 1 d a s)
def execVredmin (d a : Opnd) (s : State) : Host.Outcome State Fault Refusal := .next (reduction (.vredmin d a) 2 d a s)

/-- A list moved up by one lane behind its absent value, for an exclusive scan. -/
def shiftUp {α : Type} (ex : Bool) (z : α) (t : List α) : List α := if ex then z :: t.take 31 else t

/-- R32, R239: an exclusive scan's lane meets the conditions of its own source and steps as well as those of the value it takes. -/
def ownStatus (t r : List (Nat × BitVec 6)) : List (Nat × BitVec 6) := (t.zip r).map fun x => (x.2.1, x.1.2 ||| x.2.2)

def scanOf (b : Band) (k : SrKey) (op : Nat) (ex : Bool) (lanes : W32) (x : Nat → Nat) : List (Nat × BitVec 6) :=
  match fmtOf b.typ with
  | none =>
    let t := (List.range 32).map fun i => if lanes.getLsbD i then elemInt b.typ (x i) else absentInt b.typ op
    (shiftUp ex (absentInt b.typ op) (scanSteps (fun _ _ => combInt op) 0 [0, 1, 2, 3, 4] t)).map fun v => (narrow b b.typ v, 0)
  | some f =>
    let t := (List.range 32).map (scanInit b f op lanes x)
    let r := scanSteps (fun e i => combFloat b f op (roundOf b.rnd k i e)) (0, 0) [0, 1, 2, 3, 4] t
    (ownStatus r (shiftUp ex (absentFloat f op, 0) r)).map fun v => (v.1, v.2 ||| nfOf f v.1)

def execVscan (d a : Opnd) (x : BitVec 1) (off : BitVec 2) (s : State) : Host.Outcome State Fault Refusal :=
  .next (issue (.vscan d a x off) (fun b s => do
    need (off != 3)
    let lanes ← s.lanesOf b
    let v ← s.lanesSrc b b.typ a
    let r := scanOf b (s.srKey b) off.toNat (x == 1) lanes v
    let g := fun i => r.getD i (0, 0)
    let t ← s.arithElems b b.typ d (fun i => (g i).1) lanes (orLanes lanes g)
    return .next (t.countSum b off.toNat)) s)

/-! ## VARGMAX (R240) -/

/-- The key that orders values: fkey, or the number. -/
def orderKey (typ x : Nat) : Int :=
  match fmtOf typ with
  | some f => (fkey f x : Nat)
  | none => elemInt typ x

/-- The better of two lanes: greater key, then lower payload, then lower lane (the first). -/
def argBest (key : Nat → Int) (pay : Nat → Nat) : List Nat → Option Nat
  | [] => none
  | i :: t =>
    match argBest key pay t with
    | none => some i
    | some j => if key i < key j ∨ (key i = key j ∧ pay j < pay i) then some j else some i

def execVargmax (d a b : Opnd) (s : State) : Host.Outcome State Fault Refusal :=
  .next (issue (.vargmax d a b) (fun bd s => do
    need (decide (typeBits bd.typ ≤ 32))
    let lanes ← s.lanesOf bd
    let x ← s.lanesSrc bd bd.typ a
    let p ← s.vecSrc bd 6 b
    let r : W64 :=
      match argBest (fun i => orderKey bd.typ (x i)) (fun i => (VReg.lane p i).toNat) (laneList lanes) with
      | none => ~~~ 0#64
      | some i => BitVec.ofNat 64 ((VReg.lane p i).toNat * 2 ^ 32 + x i)
    match d with
    | .s n => return .next (← s.arithS bd n.val r 0)
    | _ => illegalOperand) s)

/-! ## VDIST (R241) -/

/-- An exact sum of terms with their status: NV wherever a term or two infinities are invalid. -/
def exactSum (ts : List (Num × BitVec 6)) : Num × BitVec 6 :=
  let fl := ts.foldl (fun a t => a ||| t.2) 0
  let clash := ts.any (fun t => t.1 == .inf true) && ts.any (fun t => t.1 == .inf false)
  let r := ts.foldl (fun (a : Option Num) t => match a with | none => some t.1 | some x => some (x.add 0 t.1).1) none
  (r.getD (.fin false 0 0), fl ||| (if clash then fNV else 0))

/-- One term: (c - q)² or c × q. -/
def distTerm (inner : Bool) (c q : Num) : Num × BitVec 6 :=
  let fl := snanFlag c ||| snanFlag q
  if inner then let r := c.mul q; (r.1, r.2 ||| fl)
  else
    let d := c.add 0 q.negate
    let r := d.1.mul d.1
    (r.1, r.2 ||| d.2 ||| fl)

/-- Element e of a 32-byte chunk given by its bytes. -/
def chunkElem (e4 : Bool) (byte : Nat → Nat) (e : Nat) : Num :=
  if e4 then e4m3.value (byte e) else bf16.value (byte (2 * e) + 256 * byte (2 * e + 1))

def execVdist (d a : Opnd) (q : BitVec 2) (r : BitVec 3) (f m : BitVec 1) (s : State) : Host.Outcome State Fault Refusal :=
  .next (issue (.vdist d a q r f m) (fun b s => do
    let an ← vNum a
    need (decide (an ≤ 56))
    let lanes ← s.lanesOf b
    let cs ← b.readBlock an 8
    let qr ← s.readO b r.toNat
    let acc ← s.vecSrc b 10 d
    let n := if f == 1 then 32 else 16
    let g := fun i =>
      let cbyte := fun k => ((cs.getD (k / 4) VReg.zero).lane i).toNat / 256 ^ (k % 4) % 256
      let qbyte := fun k => VReg.byte qr (32 * q.toNat + k)
      let x := f32.value (VReg.lane acc i).toNat
      let ts := (List.range n).map fun e => distTerm (m == 1) (chunkElem (f == 1) cbyte e) (chunkElem (f == 1) qbyte e)
      finish f32 rne b.sat false (exactSum ((x, snanFlag x) :: ts))
    return .next (← s.floatDst b 10 d lanes true true g)) s)

/-! ## Top-k (R242, R243) -/

/-- An entry: score, identifier, 0 for the list and 1 for a candidate, lane. -/
structure Entry where
  score : Nat
  id : Nat
  src : Nat
  lane : Nat
  deriving DecidableEq, Repr

/-- The order of R242. -/
def Entry.before (smallest : Bool) (x y : Entry) : Bool :=
  let kx := fkey f32 x.score
  let ky := fkey f32 y.score
  if kx ≠ ky then (if smallest then decide (kx < ky) else decide (ky < kx))
  else if x.id ≠ y.id then decide (x.id < y.id)
  else if x.src ≠ y.src then decide (x.src < y.src)
  else decide (x.lane < y.lane)

def insertEntry (smallest : Bool) (x : Entry) : List Entry → List Entry
  | [] => [x]
  | y :: t => if y.before smallest x then y :: insertEntry smallest x t else x :: y :: t

def Entry.isNan (x : Entry) : Bool := (f32.value x.score).isNan

/-- The merged list's scores and identifiers. -/
def mergeTop (smallest : Bool) (k : Nat) (es : List Entry) : VReg × VReg :=
  let sorted := ((es.filter fun e => !e.isNan).foldr (insertEntry smallest) []).take k
  let empty : Entry := ⟨f32.withSign (!smallest) f32.infCode, 0xFFFFFFFF, 0, 0⟩
  (VReg.ofFn fun j => BitVec.ofNat 32 (sorted.getD j empty).score, VReg.ofFn fun j => BitVec.ofNat 32 (sorted.getD j empty).id)

def entriesOf (src : Nat) (lanes : List Nat) (x y : VReg) : List Entry :=
  lanes.map fun i => ⟨(x.lane i).toNat, (y.lane i).toNat, src, i⟩

/-- Two consecutive v registers written in all lanes when the operation completes. -/
def State.arithTwo (s : State) (b : Band) (n : Nat) (lo hi : VReg) (fps : BitVec 6) : Try State := do
  b.flagReady true
  s.alloc b 2 0
  return ((s.startOp b true (.arith (.tagV true) (.vec lo hi (~~~ 0#32)) fps)).awaitV b n s.nextUid 0).awaitV b (n + 1) s.nextUid 1

def topK (i : Instr) (d a : Opnd) (smallest merge : Bool) (k : Nat) : State → State :=
  issue i fun b s => do
    let dn ← vNum d
    let an ← vNum a
    need (decide (dn ≤ 62) && decide (an ≤ 62))
    let lanes ← s.lanesOf b
    let d0 ← b.readV dn
    let d1 ← b.readV (dn + 1)
    let a0 ← b.readV an
    let a1 ← b.readV (an + 1)
    let cand := entriesOf 1 (if merge then List.range k else laneList lanes) a0 a1
    let fl := if cand.any Entry.isNan then fNV else 0
    if !merge && lanes == 0 then
      b.flagReady true
      return .next (s.startOp b true (.arith .none (.vec VReg.zero VReg.zero 0) 0))
    else
      let r := mergeTop smallest k (entriesOf 0 (List.range k) d0 d1 ++ cand)
      return .next (← s.arithTwo b dn r.1 r.2 fl)

def execVtopk (d a : Opnd) (off : BitVec 1) (k : BitVec 5) (s : State) : Host.Outcome State Fault Refusal :=
  .next (topK (.vtopk d a off k) d a (off == 1) false (k.toNat + 1) s)
def execVtopkm (d a : Opnd) (off : BitVec 1) (k : BitVec 5) (s : State) : Host.Outcome State Fault Refusal :=
  .next (topK (.vtopkm d a off k) d a (off == 1) true (k.toNat + 1) s)

/-! ## Completion (R170) -/

/-- ARITH_RESULT_WRITTEN: the result of an arithmetic-class operation is written, its status set and its flag dropped. -/
def arithWritten (u : Nat) (s : State) : State :=
  match s.op? u with
  | some o =>
    match o.kind with
    | .arith d v fps => ((s.landDest o d v).setFps o.band fps).endOp o
    | _ => s
  | none => s

def execArithResultWritten (op : Nat) (s : State) : Host.Outcome State Fault Refusal := .next (arithWritten op s)

end Sys2Proof.Machine
end

