-- ==== Sys2Proof/Machine/Storage.lean ====
section
/-! DEFINITION. Storage loads (R107 to R109, R272), the storage window (R396), watch words (R111, R283), and peers that the transport
loses (R367). -/

namespace Sys2Proof.Machine

/-! ## STGLD (R108, R272) -/

def State.stgdrv (s : State) (n : Nat) : W64 := s.num (0xE0 + n)

structure StgDesc where
  cmd : Nat
  drive : Nat
  scope : Nat
  zero : Bool
  seq : BitVec 48
  slba : W64
  nlb : Nat
  buf : W64
  deriving DecidableEq, Repr

def parseStg (bs : List Byte) : StgDesc :=
  let ctl := BitVec.ofNat 64 (descField bs 0 8)
  { cmd := fld ctl 63 62, drive := fld ctl 61 57, scope := fld ctl 56 54, zero := fld ctl 53 48 == 0 && zeroBytes bs 20 24
    seq := ctl.extractLsb' 0 48, slba := BitVec.ofNat 64 (descField bs 8 8), nlb := descField bs 16 4, buf := BitVec.ofNat 64 (descField bs 24 8) }

/-- Bytes of a logical block of a drive. -/
def State.blockBytes (s : State) (drive : Nat) : Nat := if (s.stgdrv drive).getLsbD 61 then 4096 else 512

/-- Payload bytes of a command; a Flush moves none. -/
def StgDesc.bytes (d : StgDesc) (block : Nat) : Nat := if d.cmd = 2 then 0 else (d.nlb + 1) * block

def StgDesc.malformed (d : StgDesc) (block : Nat) : Bool :=
  d.cmd == 3 || d.scope == 7 || !d.zero || decide (2 ^ 21 < d.bytes block)

/-- The physical address of each 4 KiB piece that a buffer meets, translated at issue; the first failure is a precise trap. -/
def State.bufferPages (s : State) (b : Band) (a : Acc) (va : W64) (n : Nat) : Try (List Nat) := do
  let first := va - BitVec.ofNat 64 (va.toNat % 4096)
  let count := if n = 0 then 0 else (va.toNat % 4096 + n - 1) / 4096 + 1
  let vas := (List.range count).map fun i => (0, if i = 0 then va else first + BitVec.ofNat 64 (4096 * i))
  s.walkFirst (s.bandCtx b) a 1 vas
  let ts ← s.translateLanes (s.bandCtx b) a false 1 vas
  return (ts.map fun l => ((l.bytes.map Prod.fst).headD 0) / 4096 * 4096)

/-- The error that a command has at issue: form, a frame in secure memory, a drive that is not enabled, in that order where several hold,
and a buffer outside device memory breaks the form (R108, R109; DESIGN CHOICE, log 37). -/
def State.stgError (s : State) (d : StgDesc) (pages : List Nat) : Nat :=
  if d.malformed (s.blockBytes d.drive) || pages.any (fun p => s.kindOf p != .ram) then 5
  else if pages.any s.inSecure then 3
  else if !(s.stgdrv d.drive).getLsbD 63 then 6
  else 0

/-! Queue pairs. -/

def State.qpair (s : State) (j : Nat) : QPair := (s.qpairs.find? fun q => q.qp == j).getD ⟨j, 0, 0, true⟩
def State.setQpair (s : State) (q : QPair) : State := { s with qpairs := q :: s.qpairs.filter fun x => x.qp != q.qp }

/-- Bytes [off, off + n) of queue pair j's record (R107). -/
def State.qpRec (s : State) (j off n : Nat) : Nat := s.physRead (fld (s.num 0x100) 51 5 * 32 + 32 * j + off) n false
def State.sqBase (s : State) (j : Nat) : Nat := s.qpRec j 0 8
def State.cqBase (s : State) (j : Nat) : Nat := s.qpRec j 8 8
/-- Depths less one. -/
def State.sqd (s : State) (j : Nat) : Nat := s.qpRec j 16 2
def State.cqd (s : State) (j : Nat) : Nat := s.qpRec j 18 2

/-- Commands that hold a queue pair. -/
def State.onPair (s : State) (j : Nat) : Nat :=
  (s.ops.filter fun o => match o.kind with | .engine (.storage _ _ _ _ _ _ e q _) _ => e == 0 && q == j | _ => false).length

/-- The queue pairs of a drive, in round-robin order after the one chosen last, each with its place in the drive's range. -/
def State.pairsOf (s : State) (drive : Nat) : List (Nat × Nat) :=
  let d := s.stgdrv drive
  let n := fld d 53 48 + 1
  let next := assocGet s.rrPair drive
  (List.range n).map fun i => ((next + i) % n, (fld d 59 54 + (next + i) % n) % 64)

/-- The pair for a new command: the first with room. -/
def State.pairFor (s : State) (drive : Nat) : Option (Nat × Nat) := (s.pairsOf drive).find? fun j => decide (s.onPair j.2 < s.sqd j.2)

/-- Bytes of the buffer that are translated at issue: the payload's; the byte at BUF of a command that moves none or is malformed
(DESIGN CHOICE, log 35). -/
def StgDesc.reach (d : StgDesc) (block : Nat) : Nat := if d.malformed block then 1 else max 1 (d.bytes block)

def stgldBody (m : MemRef) (b : Band) (s : State) : Try Fin' := do
  s.notRedundant b
  let ea ← s.effective b m 32
  if ea.e.toNat % 32 ≠ 0 then .error (.trap tMisalign 0 ea.e 0)
  withDesc b ea.e 32 s fun bs s => do
    let d := parseStg bs
    let block := s.blockBytes d.drive
    if d.buf.toNat % block ≠ 0 then .error (.trap tMisalign 0 d.buf 0)
    let n := if d.malformed block then 0 else d.bytes block
    let pages ← s.bufferPages b (if d.cmd = 0 then .store else .load) d.buf (d.reach block)
    let stamp ← s.stampOf b (d.buf - 16) d.seq d.scope
    b.flagReady false
    s.needEntry b
    let err := s.stgError d pages
    let u := s.nextUid
    let locks := if n = 0 || err = 5 then [] else [memLock b.place.core u (d.cmd == 0) (s.bandCtx b) d.buf.toNat n]
    s.needLocks b.place.core locks.length
    let s := if d.cmd == 1 || d.cmd == 2 then s.externalEffect b.launch else s
    let start := fun (s : State) (q : Nat) =>
      let t := (s.startEngine b (.engine (.storage d.cmd d.drive d.slba d.nlb d.buf pages err q none) stamp)).addLocks locks
      (t.modBand b.uid fun c => { c with lastCopy := some u }).updateA b m ea
    if err ≠ 0 then return .next (start s 0)
    match s.pairFor d.drive with
    | none => .error (.wait .entry)
    | some (i, q) => return .next (start { s with rrPair := assocSet s.rrPair d.drive (i + 1) } q)

def execStgld (mem : MemRef) (s : State) : Host.Outcome State Fault Refusal := .next (issue (.stgld mem) (stgldBody mem) s)

/-! ## Submission (R396) -/

/-- Buffer slots in use. -/
def State.slotsUsed (s : State) : List Nat :=
  s.ops.filterMap fun o => match o.kind with | .engine (.storage _ _ _ _ _ _ _ _ (some (k, _, _))) _ => some k | _ => none

def State.freeSlot (s : State) : Option Nat := (List.range 8188).find? fun k => !s.slotsUsed.contains k

/-- Command numbers in use on a queue pair; the lowest free one is taken (PRESUMED, log 23). -/
def State.freeCid (s : State) (j : Nat) : Nat :=
  let used := s.ops.filterMap fun o => match o.kind with
    | .engine (.storage _ _ _ _ _ _ _ q (some (_, cid, _))) _ => if q = j then some cid else none
    | _ => none
  ((List.range (used.length + 1)).find? fun k => !used.contains k).getD 0

/-- Offset of buffer slot k in BAR4, and of its PRP list. -/
def slotOff (k : Nat) : Nat := 0x1000000 + k * 2 ^ 22
def prpOff (k : Nat) : Nat := 0x13FE000 + k * 2 ^ 22

/-- PRP1 and PRP2 of a command: bus addresses in the slot (R396); PRP2 is the second page of two, or the list of more. -/
def prps (bar : W64) (k : Nat) (buf : W64) (n : Nat) : W64 × W64 :=
  let o := buf.toNat % 4096
  let pages := if n = 0 then 0 else (o + n - 1) / 4096 + 1
  let at_ := fun (x : Nat) => bar + BitVec.ofNat 64 x
  if pages = 0 then (0, 0)
  else (at_ (slotOff k + o), if pages = 1 then 0 else if pages = 2 then at_ (slotOff k + 4096) else at_ (prpOff k))

/-- The 64-byte NVMe command as a number (PRESUMED, log 23). -/
def nvmeCommand (cmd cid nsid : Nat) (p : W64 × W64) (slba : W64) (nlb : Nat) : Nat :=
  let opc := if cmd = 0 then 2 else if cmd = 1 then 1 else 0
  opc + cid % 2 ^ 16 * 2 ^ 16 + nsid * 2 ^ 32 + p.1.toNat * 2 ^ 192 + p.2.toNat * 2 ^ 256
    + (if cmd = 2 then 0 else slba.toNat * 2 ^ 320 + nlb % 2 ^ 16 * 2 ^ 384)

/-- STORAGE_SLOT_ASSIGNED: a command takes the lowest free slot and enters its submission queue; one with an error ends. -/
def storageAssigned (u : Nat) (s : State) : State :=
  match s.op? u with
  | some o =>
    match o.kind with
    | .engine (.storage cmd drive slba nlb buf pages err j none) stamp =>
      if !s.doneBelow o.band o.uid then s
      else if err ≠ 0 then if s.stampOpen o stamp then s.endEngine u stamp (stError err) 0 0 else s
      else
        match s.freeSlot with
        | none => s
        | some k =>
          let q := s.qpair j
          let cid := s.freeCid j
          let depth := s.sqd j + 1
          let n := if cmd = 2 then 0 else (nlb + 1) * s.blockBytes drive
          let e := nvmeCommand cmd cid (fld (s.stgdrv drive) 31 0) (prps (BitVec.ofNat 64 (s.barAddr 4)) k buf n) slba nlb
          let tail := (q.tail + 1) % depth
          let s1 := (s.physStore (s.sqBase j + 64 * q.tail) 64 e false).setQpair { q with tail := tail }
          let s2 := s1.setOp { o with kind := .engine (.storage cmd drive slba nlb buf pages err j (some (k, cid, s.cycle))) stamp }
          if (s.stgdrv drive).getLsbD 62 then s2.post (s.eventFor 0x65 o.launch (j + tail * 2 ^ 16))
          else s2.send (.pcieWrite (BitVec.ofNat 64 (s.qpRec j 24 8)) ((List.range 4).map (byteOf tail)))
    | _ => s
  | none => s

def execStorageSlotAssigned (op : Nat) (s : State) : Host.Outcome State Fault Refusal := .next (storageAssigned op s)

/-! ## Completion (R109) -/

/-- A completion entry of a queue pair is new when its phase tag is the expected one. -/
def State.newEntry (s : State) (j : Nat) : Option Nat :=
  let q := s.qpair j
  let e := s.physRead (s.cqBase j + 16 * q.head) 16 false
  if (e / 2 ^ 112 % 2 == 1) == q.phase then some e else none

/-- A drive that a queue pair belongs to is host-assisted (R107). -/
def State.pairAssisted (s : State) (j : Nat) : Bool :=
  (List.range 32).any fun d => (s.stgdrv d).getLsbD 63 && (s.stgdrv d).getLsbD 62 && (s.pairsOf d).any fun p => p.2 == j

/-- The op that a completion entry names. -/
def State.storageOp (s : State) (j cid : Nat) : Option Op :=
  s.ops.find? fun o => match o.kind with
    | .engine (.storage _ _ _ _ _ _ _ q (some (_, c, _))) _ => q == j && c == cid
    | _ => false

/-- STORAGE_COMPLETION: the entry at the head is taken, the head doorbell rung, the command ended. -/
def storageCompletion (j : Nat) (s : State) : State :=
  match s.newEntry j with
  | none => s
  | some e =>
    let q := s.qpair j
    let cid := e / 2 ^ 96 % 2 ^ 16
    let status := e / 2 ^ 113 % 2 ^ 15
    let head := (q.head + 1) % (s.cqd j + 1)
    let op := s.storageOp j cid
    if op.any fun o => match o.kind with | .engine _ stamp => !s.stampOpen o stamp | _ => false then s
    else
    let hosta := match op with
      | some o => (match o.kind with | .engine (.storage _ d ..) _ => (s.stgdrv d).getLsbD 62 | _ => false)
      | none => s.pairAssisted j
    let s1 := s.setQpair { q with head := head, phase := if head = 0 then !q.phase else q.phase }
    let s2 := if hosta then s1
      else s1.send (.pcieWrite (BitVec.ofNat 64 (s.qpRec j 24 8 + s.qpRec j 20 4)) ((List.range 4).map (byteOf head)))
    match op with
    | none => s2
    | some o =>
      match o.kind with
      | .engine (.storage cmd drive _ nlb _ _ _ _ _) stamp =>
        if status ≠ 0 then s2.endEngine o.uid stamp (stError 7 ||| 1024) 0 status
        else s2.endEngine o.uid stamp 0 (if cmd = 2 then 0 else (nlb + 1) * s.blockBytes drive) 0
      | _ => s2

def execStorageCompletion (qp : Nat) (s : State) : Host.Outcome State Fault Refusal :=
  .next (if qp < 64 then storageCompletion qp s else s)

/-- R109, R405: no completion within the drive's timeout; 0 is none. -/
def storageTimeout (u : Nat) (s : State) : State :=
  match s.op? u with
  | some o =>
    match o.kind with
    | .engine (.storage _ drive _ _ _ _ _ _ (some (_, _, sent))) stamp =>
      let tmo := fld (s.reg (0x2300 + 8 * drive)) 31 0
      if tmo ≠ 0 && decide (sent + microseconds tmo ≤ s.cycle) && s.stampOpen o stamp then s.endEngine u stamp (stError 6) 0 0 else s
    | _ => s
  | none => s

def execStorageCommandTimeout (op : Nat) (s : State) : Host.Outcome State Fault Refusal := .next (storageTimeout op s)

/-! ## The window (R396) -/

/-- What a byte of BAR4 presents: a byte of memory, a byte of a PRP list, or nothing. -/
inductive WinByte where
  | mem (pa : Nat)
  | list (x : Byte)
  | none
  deriving DecidableEq, Repr

/-- The pages of the command that holds a buffer slot. -/
def State.slotPages (s : State) (k : Nat) : Option (List Nat) :=
  s.ops.findSome? fun o => match o.kind with
    | .engine (.storage _ _ _ _ _ pages _ _ (some (i, _, _))) _ => if i = k then some pages else Option.none
    | _ => Option.none

/-- Entry i of the PRP list of slot k: the pages after the first. -/
def prpEntry (bar k i pages : Nat) : Nat := if i + 1 < pages then bar + slotOff k + 4096 * (i + 1) else 0

def State.winByte (s : State) (off : Nat) : WinByte :=
  if off < 0x1000000 then
    let j := off / 2 ^ 18
    let o := off % 2 ^ 18
    if o < 64 * (s.sqd j + 1) ∧ o < 2 ^ 16 then .mem (s.sqBase j + o)
    else if 0x20000 ≤ o ∧ o < 0x20000 + 16 * (s.cqd j + 1) ∧ o < 0x24000 then .mem (s.cqBase j + (o - 0x20000))
    else .none
  else
    let k := (off - 0x1000000) / 2 ^ 22
    let o := (off - 0x1000000) % 2 ^ 22
    match s.slotPages k with
    | Option.none => .none
    | some pages =>
      if 2 ^ 22 - 8192 ≤ o then
        .list (byteOf (prpEntry (s.barAddr 4) k ((o - (2 ^ 22 - 8192)) / 8) (if 2 < pages.length then pages.length else 0)) (o % 8))
      else match pages[o / 4096]? with | some p => .mem (p + o % 4096) | Option.none => .none

/-- Bytes written from outside, untranslated and non-secure, at physical addresses of RAM (R51, R395, R396). -/
def State.outsideWrite (s : State) (cells : List (Nat × Byte)) : State :=
  (atomsOf (cells.map fun c => ((c.1, 0), c.2))).foldl (fun s a =>
    if s.kindOf a.pa != .ram then s
    else if s.inSecure a.pa then s.secureEvent a.pa
    else s.atomStore none a.pa a.mask a.data) s

/-- A byte read from outside: secure memory reads as zeros. -/
def State.outsideByte (s : State) (pa : Nat) : Byte := if s.kindOf pa == .ram then s.ramByte false pa else 0

/-- What a read from outside leaves: errors corrected, and the atoms that secure memory refuses, each reported. -/
def State.outsideRefused (s : State) (pas : List Nat) : State :=
  (dedup (pas.map fun pa => pa / 32 * 32)).foldl (fun s a => s.physTouch a 1 false) s

/-- The new value of an atomic request; none where nothing is written. -/
def PcieKind.newValue (k : PcieKind) (size data old : Nat) : Option Nat :=
  match k with
  | .fetchAdd => some ((old + data) % 256 ^ size)
  | .swap => some data
  | .cas c => if old = c then some data else none
  | _ => none

/-- An atomic request takes 4 or 8 bytes, a CAS also 16, naturally aligned (PRESUMED, log 24). -/
def PcieKind.atomicForm (k : PcieKind) (size at_ : Nat) : Bool :=
  (size == 4 || size == 8 || (size == 16 && match k with | .cas _ => true | _ => false)) && at_ % size == 0

/-- A request on RAM, plain at scope system, performed at the home (R112). -/
def State.outsideRam (s : State) (k : PcieKind) (size data : Nat) (pas : List Nat) : State :=
  let old := leNat (pas.map s.outsideByte)
  let put := fun (s : State) (x : Nat) => s.outsideWrite (pas.zipIdx.map fun (p, i) => (p, byteOf x i))
  match k with
  | .write => put s data
  | .read => (s.outsideRefused pas).send (.pcieData (some old))
  | k =>
    if !PcieKind.atomicForm k size (pas.headD 0) then s.send (.pcieData none)
    else if pas.any s.inSecure then (s.outsideRefused pas).send (.pcieData (some 0))
    else (match PcieKind.newValue k size data old with | some x => put s x | none => s.outsideRefused pas).send (.pcieData (some old))

/-- STORAGE_WINDOW_ACCESS: a drive or the host reads or writes BAR4, or acts on it atomically. -/
def windowAccess (kind : PcieKind) (off size data : Nat) (s : State) : State :=
  let bs := (List.range size).map fun i => s.winByte (off + i)
  let pas := bs.filterMap fun x => match x with | .mem pa => some pa | _ => none
  match kind with
  | .write => s.outsideWrite (bs.zipIdx.filterMap fun (x, i) => match x with | .mem pa => some (pa, byteOf data i) | _ => none)
  | .read =>
    if bs.any fun x => x == .none then s.send (.pcieData none)
    else
      let value := leNat (bs.map fun x => match x with | .mem pa => s.outsideByte pa | .list y => y | .none => 0)
      (s.outsideRefused pas).send (.pcieData (some value))
  | k => if pas.length = size then s.outsideRam k size data pas else s.send (.pcieData none)

def execStorageWindowAccess (kind : PcieKind) (off size data : Nat) (s : State) : Host.Outcome State Fault Refusal :=
  .next (if off + size ≤ 2 ^ 35 then windowAccess kind off size data s else s)

/-! ## WATCH (R111, R283) -/

/-- A page of class streaming is watched as a normal one is, R111 naming no trap for it, and the lowest free slot is given (DESIGN CHOICE,
log 37). -/
def watchBody (d : Opnd) (m : MemRef) (b : Band) (s : State) : Try Fin' := do
  s.notRedundant b
  let ea ← s.effective b m 8
  checkAlign 8 [(0, ea.e)]
  s.walkFirst (s.bandCtx b) .load 8 [(0, ea.e)]
  let ts ← s.translateLanes (s.bandCtx b) .load true 8 [(0, ea.e)]
  let x := ((ts.map LaneTr.bytes).flatten).headD (0, 0)
  if x.2 = 3 ∨ s.inSecure x.1 then .error (.trap FaultKind.permission.trapCode 0 ea.e (BitVec.ofNat 64 Acc.load.code))
  b.flagReady false
  match d with
  | .s n => do
    match (List.range 256).find? fun k => !(s.watches.any fun w => w.slot == k) with
    | none => return .next ((← s.writeS b n.val (~~~ 0#64)).updateA b m ea)
    | some k => do
      let t ← s.writeS b n.val (BitVec.ofNat 64 k)
      return .next (({ t with watches := t.watches ++ [Watch.mk k x.1 b.launch (s.word x.1) 0 true] } : State).updateA b m ea)
  | _ => illegalOperand

def execWatch (d : Opnd) (mem : MemRef) (s : State) : Host.Outcome State Fault Refusal := .next (issue (.watch d mem) (watchBody d mem) s)

/-! ## Peers lost (R367) -/

/-- Whether a receiver of a COPYM is on a device that is lost, and not acknowledged. -/
def State.awaits (s : State) (dev : Nat) (r : Receiver) : Bool := !r.acked && !s.receiverHere r && s.receiverDev r == dev

/-- An operation is a COPYM with such a receiver. -/
def State.copymTo (s : State) (dev : Nat) (o : Op) : Bool :=
  match o.kind with
  | .engine (.copym _ rs (some _) _ _) _ => rs.any (s.awaits dev)
  | _ => false

/-- Receivers of a COPYM on a device that is lost. -/
def State.copymLost (s : State) (o : Op) (dev : Nat) : State :=
  match o.kind with
  | .engine (.copym _ rs (some _) _ _) _ => rs.zipIdx.foldl (fun s (r, i) => if s.awaits dev r then copymAck o.uid i 6 s else s) s
  | _ => s

/-- What an operation of a launch loses with a device. -/
def State.opLost (s : State) (l : Launch) (dev : Nat) (o : Op) : State :=
  match o.kind, l.pg with
  | .crs c, some t => if c.owners.any fun w => !c.acked.contains w && !t.serves w && t.devOf w == dev then s.crsEnd o.uid 6 else s
  | .cscal _ _ _ _ pgrp _ _ _ _ _ _ late, some t =>
    (match l.group? pgrp with
      | some g => if t.devAt (t.closer g) = dev ∧ t.closer g ≠ t.here then s.scalarRecord o.uid (addErr (if late then stLate else 0) 6) 0 0 0 0 else s
      | none => s)
  | .cag _ _ pgrp _ _ _ _ _ _ _ _ _, some t =>
    (l.cagDevices pgrp).foldl (fun s p => if t.devAt p = dev ∧ p ≠ t.here then s.cagEnd o.uid p .unreachable else s) s
  | _, _ => s.copymLost o dev

/-- What a launch loses with a device, and the event (R344, R365); what that device has in progress here for it ends too. -/
def State.peerLost (s : State) (l : Launch) (dev : Nat) : State :=
  let s := (s.ops.filter fun o => o.launch == l.uid).foldl (fun s o => s.opLost l dev o) s
  let lost := fun (x : Inbound) => x.launch == l.uid && x.dev == dev
  let s := (s.inbound.filter lost).foldl (fun s x => s.dropLocks x.uid) s
  ({ s with
    inbound := s.inbound.filter fun x => !lost x
    cagsIn := s.cagsIn.filter fun x => !(x.launch == l.uid && x.dev == dev) } : State).post (s.eventFor 0x57 l.uid (dev % 2 ^ 21))

/-- PEER_UNREACHABLE: the transport declares a device lost, for the traffic of the launches of an identifier: those with a process-group table,
and those with a COPYM on its way there. -/
def peerUnreachable (lid : Nat) (dev : Nat) (s : State) : State :=
  if dev = s.devid then s
  else
    (s.launches.filter fun l => l.lr.lid.toNat == lid && (l.phase == .active || l.phase == .killing)
        && (l.pg.isSome || s.ops.any fun o => o.launch == l.uid && s.copymTo dev o)).foldl (fun s l => s.peerLost l dev) s

def execPeerUnreachable (lid : Nat) (dev : BitVec 21) (s : State) : Host.Outcome State Fault Refusal :=
  .next (peerUnreachable lid dev.toNat s)

end Sys2Proof.Machine
end

