-- ==== Sys2Proof/Machine/Launch.lean ====
section
/-! DEFINITION. Launch records and their checks (R319 to R327), dependences (R329), process-group tables (R323, R324), write-set tables
(R378), dispatch and activation, and the end of a launch (R343, R344). -/

namespace Sys2Proof.Machine

/-! ## The record (R325) -/

def parseDep (bs : List Byte) (off : Nat) : Dep :=
  let w := BitVec.ofNat 64 (descField bs off 8)
  ⟨w.getLsbD 63, fld w 61 60, BitVec.ofNat 64 (fld w 56 0), BitVec.ofNat 64 (descField bs (off + 8) 8)⟩

def parseLevel (bs : List Byte) (k : Nat) : Level :=
  let w := BitVec.ofNat 64 (descField bs (192 + 8 * k) 8)
  ⟨fld w 31 0, fld w 34 32, fld w 37 35⟩

def parseRec (bs : List Byte) : LaunchRec :=
  let f := fun (off n : Nat) => descField bs off n
  let w := fun (off : Nat) => BitVec.ofNat 64 (f off 8)
  let flags := BitVec.ofNat 16 (f 12 2)
  { prog := w 0, lid := BitVec.ofNat 32 (f 8 4)
    wrld := flags.getLsbD 0, migr := flags.getLsbD 1, mirr := flags.getLsbD 2, mdom := flags.getLsbD 3
    rply := f 12 2 / 2 ^ 4 % 4, redn := f 12 2 / 2 ^ 6 % 4, serial := flags.getLsbD 8, priv := flags.getLsbD 9
    carve := f 14 1, copies := f 15 1, frz := f 16 1 / 16, prio := f 17 1, queue := f 18 1, treg := f 20 4, regs := f 24 2
    nctx := f 26 2, vwait := f 28 4, spillb := w 32, spillsz := f 40 4, nest1 := f 44 2, nest2 := f 46 2, ctxb := w 48, pgt := w 56
    rlog := w 64, rlogn := f 72 4, wset := w 80, seed := w 88, cstamp := w 96, cseq := BitVec.ofNat 48 (f 104 6)
    dep0 := parseDep bs 112, dep1 := parseDep bs 128
    levels := (List.range (min 8 (f 16 1 % 16))).map (parseLevel bs) }

/-- Product of the counts of the levels that a test picks. -/
def countOf (ls : List Level) (sel : Level → Bool) : Nat := ((ls.filter sel).map Level.count).foldl (· * ·) 1

/-- The least scope of a domain (R319). -/
def minScope (dom : Nat) : Nat :=
  match dom with
  | 0 => 6 | 1 => 5 | 2 => 4 | 3 => 3 | 4 => 2 | 5 => 1 | 6 => 1 | _ => 0

/-- R319: levels that no launch may declare. -/
def badLevels (ls : List Level) : Bool :=
  let doms := ls.map Level.dom
  (doms.zip (doms.drop 1)).any (fun p => decide (p.2 < p.1)) || doms.getLast? != some 7 || (doms.dropLast).contains 7
    || decide (4 < countOf ls fun l => l.dom == 6) || decide (16 < countOf ls fun l => decide (6 ≤ l.dom))
    || decide (2 ^ 39 < countOf ls fun _ => true) || ls.any fun l => decide (l.scope < minScope l.dom)

def powerOfTwo (n : Nat) : Bool := n != 0 && 2 ^ Nat.log2 n == n

/-- R325, R329: fields that must be zero, and values outside their ranges. PROG is the address of a clause header, a multiple of 4 (R168:
DEDUCED, log 31). -/
def badFields (bs : List Byte) (r : LaunchRec) (queue : Nat) : Bool :=
  let f := fun (off n : Nat) => descField bs off n
  let dep := fun (off : Nat) => (BitVec.ofNat 64 (f off 8) : W64)
  let nlev := f 16 1 % 16
  decide (2 ^ 57 ≤ r.prog.toNat) || r.prog.toNat % 4 != 0 || decide (2 ^ 10 ≤ f 12 2) || r.rply == 3 || decide (2 ≤ r.redn) || decide (8 < r.carve)
    || r.copies == 0 || decide (16 < r.copies) || nlev == 0 || decide (8 < nlev) || decide (3 < r.prio) || r.queue != queue
    || f 19 1 != 0 || r.treg % 128 != 0 || (r.frz == 15 && r.treg != 0) || r.nctx == 0 || r.spillb.toNat % 8192 != 0
    || r.spillsz % 8192 != 0 || r.spillsz == 0 || decide (2 ^ 25 < r.spillsz) || r.ctxb.toNat % 2 ^ 22 != 0 || r.rlog.toNat % 16 != 0
    || !powerOfTwo r.rlogn || decide (r.rlogn < 2 ^ 10) || decide (2 ^ 28 < r.rlogn) || f 76 4 != 0 || r.cstamp.toNat % 8 != 0
    || f 110 2 != 0 || [112, 128].any (fun o => fld (dep o) 62 62 != 0 || fld (dep o) 59 57 != 0 || fld (dep o) 2 0 != 0)
    || f 147 1 != 0 || !zeroBytes bs 148 192
    || (List.range 8).any fun k =>
      let w : W64 := BitVec.ofNat 64 (f (192 + 8 * k) 8)
      if k < nlev then fld w 63 38 != 0 || decide (6 < fld w 37 35) || fld w 31 0 == 0 else w != 0

/-- R326, R382. -/
def badRecord (bs : List Byte) (r : LaunchRec) : Bool :=
  let occ := fun (k : Nat) => descField bs (144 + k) 1
  let spWindow := (carveMenu r.carve).sp * 65536 / carveSlots r.carve
  (r.frz != 15 && match r.levels[r.frz]? with | none => true | some l => decide (5 < l.dom))
    || (decide (r.carve < 8) && decide (spWindow / 2 < r.treg))
    || (r.mirr && !r.levels.any fun l => l.dom == if r.mdom then 3 else 4)
    || decide (r.copies < occ 0) || decide (32 < occ 1) || decide (64 < occ 2)
    || (r.redn == 1 && r.wset == 0)

/-- The status 0x01 of the record's own fields (R329). -/
def malformedRecord (bs : List Byte) (queue : Nat) : Bool :=
  let r := parseRec bs
  badFields bs r queue || badLevels r.levels || badRecord bs r

/-! ## Queues (R328) -/

def State.qctl (s : State) (q : Nat) : W64 := s.reg (32 * q)
def State.qptr (s : State) (q : Nat) : W64 := s.reg (32 * q + 8)
def State.qhead (s : State) (q : Nat) : Nat := fld (s.qptr q) 63 48
def State.qtail (s : State) (q : Nat) : Nat := fld (s.qptr q) 47 32

/-- Where record i of a queue lies. -/
def State.slotOf (s : State) (q i : Nat) : Nat := fld (s.qctl q) 51 8 * 256 + 256 * (i % 2 ^ max 1 (fld (s.qctl q) 3 0))

def State.advanceHead (s : State) (q : Nat) : State := s.setReg (32 * q + 8) (setFld (s.qptr q) 63 48 (s.qhead q + 1))

/-- Launches that are active (R329). -/
def Launch.isActive (l : Launch) : Bool := l.phase != .waiting
def State.activeCount (s : State) : Nat := (s.launches.filter Launch.isActive).length

/-! ## The command processor's reads and writes -/

/-- The command processor's translations, under the root that the launch latched (R54). -/
def Launch.cpCtx (l : Launch) : Ctx := l.ctx .command true

/-- n bytes at a virtual address, as the command processor reads them in the launch's world (R389); none where a page fails. -/
def State.cpRead (s : State) (l : Launch) (va : W64) (n : Nat) : Option (List Byte) :=
  match s.pieces l.cpCtx .load va n with
  | .error _ => none
  | .ok ps => some (ps.flatMap fun p => (List.range p.2).map (byteOf (s.physRead p.1 p.2 l.lr.wrld)))

/-- What reading such bytes leaves: errors corrected, and requests on PCIe (R397). -/
def State.cpTouch (s : State) (l : Launch) (va : W64) (n : Nat) : State :=
  match s.pieces l.cpCtx .load va n with
  | .error _ => s
  | .ok ps => ps.foldl (fun s p => s.physTouch p.1 p.2 l.lr.wrld) s

/-- Bytes written by the command processor at a physical address, whatever lies there. -/
def State.cpStore (s : State) (pa : Nat) (bs : List Byte) (secure : Bool) : State :=
  match s.kindOf pa with
  | .device => s.devStore (bs.zipIdx.map fun (x, i) => (pa - deviceBase + i, x)) secure
  | .aperture => s.postWrite (cellsAt pa bs.length (leNat bs)) secure
  | _ => s.writeFor none pa bs.length (leNat bs)

/-! ## Process groups (R323, R324) -/

def parseGroup (bs : List Byte) (g : Nat) : PGroup :=
  ⟨descField bs (64 + 16 * g) 4, descField bs (68 + 16 * g) 4, descField bs (72 + 16 * g) 4, descField bs (76 + 16 * g) 1⟩

/-- R323: a malformed table, by its first 1,088 bytes. -/
def badTable (bs : List Byte) : Bool :=
  let ndev := descField bs 0 4
  let ngrp := descField bs 5 1
  let n := ndev * (descField bs 4 1 + 1)
  ndev == 0 || decide (2 ^ 21 < ndev) || decide (15 < descField bs 4 1) || ngrp == 0 || decide (64 < ngrp) || !zeroBytes bs 6 64
    || (List.range ngrp).any fun g =>
      let x := parseGroup bs g
      x.stride == 0 || x.count == 0 || decide (6 < x.lead) || descField bs (77 + 16 * g) 3 != 0
        || decide (n < x.first + (x.count - 1) * x.stride + 1)

def noRepeat : List Nat → Bool
  | [] => true
  | x :: t => !t.contains x && noRepeat t

/-- The table of a launch; none refuses it. -/
def State.readTable (s : State) (l : Launch) : Option PGTable := do
  let bs ← s.cpRead l l.lr.pgt 1088
  if badTable bs then none
  else
    let ndev := descField bs 0 4
    let ds ← s.cpRead l (l.lr.pgt + 1088) (4 * ndev)
    let devs := (List.range ndev).map fun p => descField ds (4 * p) 4
    if devs.any (fun d => decide (2 ^ 21 ≤ d)) || !noRepeat devs then none
    else do
      let here ← devs.findIdx? fun d => d == s.devid
      return ⟨ndev, descField bs 4 1, (List.range (descField bs 5 1)).map (parseGroup bs), devs, here⟩

/-- R324: the launch with its table, or none for status 0x04. -/
def State.withTable (s : State) (l : Launch) : Option Launch :=
  let outer := fun (v : Level) => decide (v.dom < 2)
  if l.lr.pgt = 0 then (if l.lr.levels.any outer then none else some l)
  else
    match s.readTable l with
    | none => none
    | some t =>
      if countOf l.lr.levels outer ≠ t.ranks then none
      else if s.launches.any (fun x => x.isActive && x.pg.isSome && x.lr.lid == l.lr.lid) then none
      else some { l with pg := some t }

/-! ## Write sets (R378, R379) -/

/-- The physical granule of each page of an entry; none where a page fails or is versioned. -/
def State.entryGranules (s : State) (l : Launch) (va : W64) (n : Nat) : Option (List Nat) :=
  (List.range n).mapM fun i =>
    match s.translate l.cpCtx .store (va + BitVec.ofNat 64 (4096 * i)) with
    | .ok t => some t.pa
    | .error _ => none

/-- The frames that a leaf maps; of a versioned page those of its set (DEDUCED, log 31). -/
def State.framesOf (s : State) (e : W64) : List Nat :=
  if pteVer e then (List.range (vsN (vsCtl s (setOf e)))).map (vsFrame s (setOf e)) else [pteAddr e]

/-- Whether a table of a level maps a frame that meets the bytes from `lo` to `hi`. -/
def State.mapsInto (s : State) (lo hi : Nat) : List Nat → Nat → Bool
  | [], _ => false
  | level :: rest, table => (List.range 512).any fun i =>
    match s.tableEntry (table + 8 * i) with
    | none => false
    | some e =>
      pteV e && (if pteL e then !s.badLeaf level e && (s.framesOf e).any fun f => decide (f < hi) && decide (lo < f + 2 ^ (12 + pteSize e))
        else level != 0 && State.mapsInto s lo hi rest (pteAddr e))

/-- A snapshot pool that R378 refuses: outside the populated DDR-5 tier, within a secure region, or within a frame that a launch maps, the
new one among them. -/
def State.badPool (s : State) (l : Launch) (base n : Nat) : Bool :=
  let hi := base + 4096 * n + 8 * n
  base % 4096 != 0 || n == 0 || decide (base < ddrBase) || decide (ddrBase + s.ddrMiB * 2 ^ 20 < hi)
    || (List.range 64).any fun k =>
      let b := s.num k
      let lim := s.num (0x40 + k)
      b.getLsbD 63 && decide (fld b 51 16 ≤ fld lim 51 16) && decide (fld b 51 16 * 65536 < hi) && decide (base < (fld lim 51 16 + 1) * 65536)
    || (dedup ((l :: s.launches).map fun x => fld x.root 51 12 * 4096)).any fun root => s.mapsInto base hi [4, 3, 2, 1, 0] root

/-- Granules armed for the runs of a launch. -/
def armAll (pas : List Nat) (runs : Nat) : List Granule :=
  ((List.range runs).map fun r => pas.map fun pa => Granule.mk pa r true none).flatten

/-- R378: the launch with its write set armed, or none for status 0x01. -/
def State.withWriteSet (s : State) (l : Launch) : Option Launch :=
  if l.lr.wset = 0 then some l
  else do
    let h ← s.cpRead l l.lr.wset 32
    let n := descField h 0 4
    let base := descField h 8 8
    let frames := descField h 16 4
    if n = 0 ∨ 4096 < n ∨ !zeroBytes h 4 8 ∨ !zeroBytes h 20 32 ∨ s.badPool l base frames then none
    else
      let es ← s.cpRead l (l.lr.wset + 32) (16 * n)
      let entry := fun (e : Nat) => (BitVec.ofNat 64 (descField es (16 * e) 8), descField es (16 * e + 8) 4, descField es (16 * e + 12) 4)
      if (List.range n).any fun e =>
          let (va, k, z) := entry e
          va.toNat % 4096 != 0 || decide (2 ^ 57 ≤ va.toNat) || k == 0 || z != 0 then none
      else
        let gs ← (List.range n).mapM fun e => s.entryGranules l (entry e).1 (entry e).2.1
        return { l with granules := armAll (dedup (gs.flatten.map granuleOf)) l.runs, poolBase := base, poolN := frames }

/-! ## Dependences (R329) -/

/-- The waits of the dependences that are enabled, tested once; none where a word's translation faults (status 0x07). -/
def State.withDeps (s : State) (l : Launch) : Option Launch := do
  let ds ← ([l.lr.dep0, l.lr.dep1].filter Dep.en).mapM fun d =>
    match s.translate l.cpCtx .load d.va with
    | .ok t => some (DepWait.mk t.pa d.cond d.e (condMet d.cond (BitVec.ofNat 64 (s.physRead t.pa 8 l.lr.wrld)) d.e))
    | .error _ => none
  return { l with deps := ds }

/-! ## The end of a launch (R343, R344) -/

/-- R343: the stamp, or none where it cannot be written. -/
def State.writeStamp (s : State) (l : Launch) (status : Byte) : Option State :=
  if l.lr.cstamp = 0 then some s
  else if l.lr.cstamp.toNat % 8 ≠ 0 then none
  else
    match s.translate l.cpCtx .store l.lr.cstamp with
    | .error _ => none
    | .ok t => some (s.cpStore t.pa (w64Bytes (l.lr.cseq.setWidth 64 <<< 16 ||| status.setWidth 64)) l.lr.wrld)

/-- The completion record. -/
def Launch.record (l : Launch) (status : Byte) : Event where
  cls := status
  queue := l.queue
  lid := l.lr.lid
  count := BitVec.ofNat 16 l.replays
  fsum := l.fsum
  detail := BitVec.ofNat 128 (l.charged / 64 % 2 ^ 64 + l.wgRun % 2 ^ 32 * 2 ^ 64
    + (if l.fsum.getLsbD 6 then l.trapCode.toNat * 2 ^ 96 else 0))

/-- The stamp is written, or its failure noted, and the record posted. -/
def State.postEnd (s : State) (l : Launch) (status : Byte) : State :=
  match s.writeStamp l status with
  | some t => t.post (l.record status)
  | none => s.post ({ l with fsum := l.fsum ||| (1#16 <<< 10) }.record status)

/-- R111: the final posts of a launch's watch slots, which are then free. -/
def State.endWatches (s : State) (u : Nat) : State :=
  let mine := s.watches.filter fun w => w.launch == u
  let s := mine.foldl (fun s w => s.watchPost w.slot) s
  { s with watches := s.watches.filter fun w => w.launch != u }

/-- What the collectives and the Weir keep for a launch with a table goes with it (R418). -/
def State.endCollectives (s : State) (l : Launch) : State :=
  if l.pg.isNone then s
  else
    let lid := l.lr.lid.toNat
    { s with
      weir := s.weir.filter fun w => w.lid != lid
      closed := s.closed.filter fun c => c.key.lid != lid
      closedHere := s.closedHere.filter fun c => c.lid != lid
      drops := s.drops.filter fun d => d.lid != lid
      scalars := s.scalars.filter fun x => x.lid != lid
      norms := s.norms.filter fun n => n.lid != lid
      ringParts := s.ringParts.filter fun p => p.key.lid != lid
      stepClosed := s.stepClosed.filter fun p => p.1 != lid
      pastLids := insertAsc s.pastLids lid }

/-- The launch leaves the part: nothing of it remains but its record. -/
def State.dropLaunch (s : State) (u : Nat) : State :=
  { s with
    launches := s.launches.filter fun l => l.uid != u
    wgs := s.wgs.filter fun w => w.launch != u
    bands := s.bands.filter fun b => b.launch != u
    images := s.images.filter fun i => i.launch != u
    ops := s.ops.filter fun o => o.launch != u
    inbound := s.inbound.filter fun x => x.launch != u
    cagsIn := s.cagsIn.filter fun x => x.launch != u
    locks := s.locks.filter fun k => !(s.inbound.any fun x => x.launch == u && k.op == some x.uid) }

/-- R343: a launch completes with a status. -/
def State.complete (s : State) (u : Nat) (status : Byte) : State :=
  let s := s.endWatches u
  match s.launch? u with
  | none => s
  | some l => ((s.postEnd l status).endCollectives l).dropLaunch u

/-- R329: a refused launch: HEAD advances past it, and its stamp and record carry the status. -/
def State.refuse (s : State) (l : Launch) (status : Byte) : State := ((s.advanceHead l.queue).postEnd l status).dropLaunch l.uid

/-! ## Dispatch -/

/-- The checks in the order of R329: the launch as it waits, or the status that refuses it. -/
def State.checkLaunch (s : State) (bs : List Byte) (l : Launch) : Except (Byte) Launch :=
  if malformedRecord bs l.queue then .error 1
  else if !l.root.getLsbD 63 then .error 2
  else if (l.lr.priv && !(s.qctl l.queue).getLsbD 62) || l.lr.wrld != l.root.getLsbD 62 then .error 3
  else
    match s.withTable l with
    | none => .error 4
    | some l =>
      match s.withWriteSet l with
      | none => .error 1
      | some l =>
        match s.withDeps l with
        | none => .error 7
        | some l => .ok l

/-- The ranges that the command processor reads for a record whose own fields hold: the process-group table, the write-set table and the
dependence words. -/
def State.cpRanges (s : State) (l : Launch) : List (W64 × Nat) :=
  let size := fun (va : W64) => ((s.cpRead l va 4).map leNat).getD 0
  (if l.lr.pgt = 0 then [] else [(l.lr.pgt, 1088), (l.lr.pgt + 1088, 4 * min (2 ^ 21) (size l.lr.pgt))])
    ++ (if l.lr.wset = 0 then [] else [(l.lr.wset, 32), (l.lr.wset + 32, 16 * min 4096 (size l.lr.wset))])
    ++ ([l.lr.dep0, l.lr.dep1].filter Dep.en).map fun d => (d.va, 8)

/-- What those reads leave. -/
def State.cpReads (s : State) (bs : List Byte) (l : Launch) : State :=
  if malformedRecord bs l.queue || !l.root.getLsbD 63 then s
  else (s.cpRanges l).foldl (fun s r => s.cpTouch l r.1 r.2) s

/-- The launch that a record asks for, before its checks; SERIAL waits for the queue's previous launch, if it has not completed (R329). -/
def State.newLaunch (s : State) (q : Nat) (bs : List Byte) : Launch :=
  let lr := parseRec bs
  let lr := { lr with prio := min lr.prio (fld (s.qctl q) 59 58) }
  let prev := (s.lastRead.find? fun x => x.1 == q).map Prod.snd
  { mkLaunch s.nextUid q lr (s.num (0x80 + q)) none s.cycle with
    phase := .waiting, runs := if lr.redn = 1 then 2 else 1, after := if lr.serial then prev else none }

/-- The world in which the command processor reads a queue's records, before a launch gives it one: that of the queue's root (DEDUCED,
log 31). -/
def State.queueWorld (s : State) (q : Nat) : Bool := (s.num (0x80 + q)).getLsbD 62

/-- LAUNCH_DISPATCH: the record at HEAD of a queue is read and checked; no queue is served before BOOTSTAT.STATE is 2 (R406). -/
def launchDispatch (q : Nat) (s : State) : State :=
  if 64 ≤ q || fld (s.num 0x2000) 63 62 != 2 || s.qhead q = s.qtail q || !(s.qctl q).getLsbD 63 || decide (256 ≤ s.activeCount)
      || s.launches.any (fun l => l.queue == q && !l.isActive) then s
  else
    let pa := s.slotOf q (s.qhead q)
    if s.kindOf pa == .hole then { s with stray := some pa }
    else
      let bs := (List.range 256).map (byteOf (s.physRead pa 256 (s.queueWorld q)))
      let l := s.newLaunch q bs
      let gone := s.cancels.contains (q, s.qhead q)
      let s := { s.physTouch pa 256 (s.queueWorld q) with
        nextUid := s.nextUid + 1, cancels := s.cancels.erase (q, s.qhead q), lastRead := assocSet s.lastRead q s.nextUid }
      if gone then s.refuse l 0x0B
      else
        match s.checkLaunch bs l with
        | .error st => (s.cpReads bs l).refuse l st
        | .ok l => let s := s.cpReads bs l; { s with launches := s.launches ++ [l] }

def execLaunchDispatch (queue : Nat) (s : State) : Host.Outcome State Fault Refusal := .next (launchDispatch queue s)

/-- A dependence word whose translation now faults. -/
def State.depFault (s : State) (l : Launch) : Bool :=
  l.deps.any (fun d => !d.met) && ([l.lr.dep0, l.lr.dep1].filter Dep.en).any fun d =>
    match s.translate l.cpCtx .load d.va with | .ok _ => false | .error _ => true

/-- LAUNCH_ACTIVATE: the waiting launch of a queue becomes active once its dependences are met (R329), or is refused (R360). -/
def launchActivate (q : Nat) (s : State) : State :=
  match s.launches.find? fun l => l.queue == q && !l.isActive with
  | none => s
  | some l =>
    if s.depFault l then s.refuse l 7
    else if l.deps.any (fun d => !d.met) || (match l.after with | some u => (s.launch? u).isSome | none => false) then s
    else if s.weirFull l then s.refuse l 4
    else
      let l := { l with phase := .active, activatedAt := s.cycle, deps := [] }
      let s := (s.advanceHead q).setLaunch l
      (s.weirStart l).applyHeldFor l.lr.lid.toNat

def execLaunchActivate (queue : Nat) (s : State) : Host.Outcome State Fault Refusal := .next (launchActivate queue s)

/-- EVENT_RING_COALESCE_TIMEOUT: the oldest unread record has waited CTIME (R345). -/
def ringCoalesce (s : State) : State :=
  match s.evTimes with
  | some t :: rest =>
    let ct := fld (s.reg evrctl) 62 51
    if ct = 0 || s.cycle < t + microseconds ct then s else { s with evTimes := none :: rest }.interrupt 0
  | _ => s

def execEventRingCoalesceTimeout (s : State) : Host.Outcome State Fault Refusal := .next (ringCoalesce s)

/-- TRAP_ENTRY: a trap whose entry waited for registers is delivered, or kills the launch (R371, R376). -/
def trapEntry (p : Place) (s : State) : State :=
  match s.bandAt p with
  | none => s
  | some b =>
    match b.wait, b.trap with
    | some .entryRegs, some t =>
      if b.parked || b.stopping || s.beingKilled b.launch then s
      else if b.inHandler then s.trapKills b t.code false
      else s.enterTrap b t
    | _, _ => s

def execTrapEntry (p : Place) (s : State) : Host.Outcome State Fault Refusal := .next (trapEntry p s)

end Sys2Proof.Machine
end

