-- ==== Sys2Proof/Machine/Place.lean ====
section
/-! DEFINITION. The distributor: items and workgroups (R319 to R321), placement (R331 to R334), templates and stamping (R161, R162, R164,
R333), the replay log (R341, R342), and the end of bands and workgroups (R304, R306, R331). -/

namespace Sys2Proof.Machine

/-! ## Items and workgroups -/

/-- The indices of an item at the levels, outermost first: mixed radix (R320). -/
def digits : List Level → Nat → List Nat
  | [], _ => []
  | l :: rest, x => (x / countOf rest (fun _ => true) % max 1 l.count) :: digits rest x

/-- Workgroups of one rank, and bands of a workgroup. -/
def Launch.perRank (l : Launch) : Nat := countOf l.lr.levels fun v => decide (2 ≤ v.dom) && decide (v.dom ≤ 5)
def Launch.perWg (l : Launch) : Nat := countOf l.lr.levels fun v => decide (6 ≤ v.dom)

/-- The launch's workgroups on this device. -/
def Launch.wgNums (l : Launch) : List Nat :=
  match l.pg with
  | some t => (List.range ((t.rpd + 1) * l.perRank)).map (· + t.here * (t.rpd + 1) * l.perRank)
  | none => List.range l.perRank

/-- Workgroups beneath an instance of level k, and the instance that a workgroup lies in. -/
def Launch.beneath (l : Launch) (k : Nat) : Nat := countOf (l.lr.levels.drop (k + 1)) fun v => decide (v.dom ≤ 5)
def Launch.instAt (l : Launch) (k w : Nat) : Nat := w / max 1 (l.beneath k)
def Launch.tplInst (l : Launch) (w : Nat) : Nat := l.instAt l.lr.frz w
/-- The instances of the freeze level, ascending. -/
def Launch.insts (l : Launch) : List Nat := if l.lr.frz = 15 then [] else dedup (l.wgNums.map l.tplInst)

/-- The rank of a workgroup; a template whose instance spans several takes the lowest here. -/
def Launch.rankOf (l : Launch) (w : Nat) : Nat := if l.pg.isSome then w / max 1 l.perRank else 0
def Launch.tplRank (l : Launch) (inst : Nat) : Nat :=
  match l.wgNums.filter fun w => l.tplInst w == inst with
  | w :: _ => l.rankOf w
  | [] => 0

/-- R321: the quadrant of a position. -/
def Launch.quadOf (l : Launch) (pos : Nat) : Nat :=
  if l.lr.levels.any fun v => v.dom == 6 then pos / max 1 (countOf l.lr.levels fun v => v.dom == 7) else pos % 4
def Launch.quadList (l : Launch) (template : Bool) : List Nat := if template then [0] else (List.range l.perWg).map l.quadOf

def Launch.runList (l : Launch) : List Nat := List.range l.runs

/-! ## Which cores qualify (R76, R78, R89, R319, R332, R382, R384, R389) -/

def State.residents (s : State) (core : Nat) : List Workgroup := s.wgs.filter fun w => w.resident && w.core == core

/-- A band slot that is held, by a band or for one to be stamped. -/
def State.slotTaken (s : State) (p : Place) : Bool :=
  (s.bandAt p).isSome || s.wgs.any fun w => w.resident && !w.stamped && w.places.contains p

def State.lowestSlot (s : State) (core q : Nat) (used : List Place) : Option Place :=
  (((List.range 16).map fun k => Place.mk core q k).filter fun p => !s.slotTaken p && !used.contains p).head?

/-- Slots for the positions, each the lowest free one of its quadrant; `first` is the slot of position 0 under a replay. -/
def State.assign (s : State) (core : Nat) (quads : List Nat) (first : Option Nat) : Option (List Place) :=
  let init : Option (List Place) := match first, quads with
    | some k, q :: _ => if s.slotTaken ⟨core, q, k⟩ then none else some [⟨core, q, k⟩]
    | _, _ => some []
  match init with
  | none => none
  | some ps => (quads.drop ps.length).foldlM (fun ps q => (s.lowestSlot core q ps).map fun p => ps ++ [p]) ps

/-- R89: copy entries of a core that no reservation and no operation holds. -/
def State.entriesFree (s : State) (core : Nat) : Nat :=
  let reserved := ((s.residents core).map fun w => match s.launch? w.launch with | some l => l.lr.copies | none => 0).sum
  let stray := (s.ops.filter fun o => o.place.core == core && o.kind.isEngine && !(match s.wg? o.wg with | some w => w.resident | none => false)).length
  64 - reserved - stray

/-- The core meets R76 or R78 for a carve-out. -/
def State.carveFits (s : State) (core carve : Nat) : Bool :=
  let rs := s.residents core
  if carve = manualCarve then s.manual core && rs.isEmpty
  else !s.manual core && (rs.isEmpty || (s.coreCarve core == some carve && decide (rs.length < carveSlots carve)))

/-- The lowest free window. -/
def State.freeWindow (s : State) (core carve : Nat) : Option Nat :=
  (List.range (carveSlots carve)).find? fun k => !(s.residents core).any fun w => w.slot == k

/-- Registers that a workgroup of a launch asks of a quadrant: `regs` for each band sent there. -/
def State.poolFits (s : State) (core : Nat) (quads : List Nat) (regs : Nat) : Bool :=
  (List.range 4).all fun q =>
    let n := (quads.filter (· == q)).length
    n == 0 || decide (s.poolWith core q 0 0 + regs * n ≤ 2048)

/-- The instance of a domain that a core lies in. -/
def domOfCore (dom core : Nat) : Nat := if dom = 3 then core / 60 else if dom = 4 then core / 4 else core

/-- R319: workgroups beneath one instance of a level lie within one instance of its domain. -/
def State.pinned (s : State) (l : Launch) (run w core : Nat) : Bool :=
  let mates := s.wgs.filter fun x => x.launch == l.uid && x.run == run && !x.template && x.idx != w
  l.lr.levels.zipIdx.all fun (v, k) =>
    !(decide (3 ≤ v.dom) && decide (v.dom ≤ 5)) ||
      mates.all fun x => l.instAt k x.idx != l.instAt k w || domOfCore v.dom x.core == domOfCore v.dom core

/-- R332, without the slots. -/
def State.coreFits (s : State) (l : Launch) (run core : Nat) (template : Bool) : Bool :=
  s.coreInService core && !s.coreOnProbation core && s.coreSecure core == l.lr.wrld && s.carveFits core l.lr.carve
    && decide (l.lr.copies ≤ s.entriesFree core) && s.poolFits core (l.quadList template) l.lr.regs
    && (decide (l.lr.carve < manualCarve) || l.lr.treg == 0 || decide (2 * l.lr.treg ≤ s.window core manualCarve .sp))
    && l.runCores.all fun x => x.1 != core || x.2 == run

/-- Window slot and band slots for a workgroup on a core. -/
def State.fit (s : State) (l : Launch) (run core : Nat) (template : Bool) (w : Nat) : Option (Nat × List Place) :=
  if s.coreFits l run core template && (template || s.pinned l run w core) then do
    let k ← s.freeWindow core l.lr.carve
    let ps ← s.assign core (l.quadList template) none
    return (k, ps)
  else none

/-! ## The replay log (R341) -/

def logWord (order : Nat) (quads : List Nat) (kind wslot core slotb item : Nat) : Nat :=
  item % 2 ^ 39 + slotb % 16 * 2 ^ 64 + core % 256 * 2 ^ 68 + wslot % 4 * 2 ^ 76 + kind * 2 ^ 78
    + (quads.zipIdx.foldl (fun x q => x + q.1 % 4 * 4 ^ q.2) 0) * 2 ^ 80 + order % 2 ^ 16 * 2 ^ 112

/-- A placement is counted on its core and, under RPLY 1, entered in the log; the entry that wraps posts class 0x10. -/
def State.logPlacement (s : State) (u kind wslot : Nat) (places : List Place) (item : Nat) : State :=
  match s.launch? u, places with
  | some l, p :: _ =>
    let order := assocGet l.order p.core
    let s := s.modLaunch u fun l => { l with order := assocSet l.order p.core (order + 1) }
    if l.lr.rply ≠ 1 then s
    else
      let va := l.lr.rlog + BitVec.ofNat 64 (16 * (l.logn % l.lr.rlogn))
      let word := logWord order (places.map Place.quad) kind wslot p.core p.slot item
      let s := match s.pieces l.cpCtx .store va 16 with
        | .ok ps => s.writePieces none ps ((List.range 16).map (byteOf word))
        | .error _ => s
      let s := s.modLaunch u fun l => { l with logn := l.logn + 1 }
      if l.logn = l.lr.rlogn then s.post (mkEvent 0x10 l.lr.lid 0 0 l.queue) else s
  | _, _ => s

/-! ## Bands are made (R138, R162) -/

/-- The band of an item that starts at the kernel's first clause, or of a template. -/
def Launch.newBand (l : Launch) (uid : Nat) (w : Workgroup) (pos : Nat) (p : Place) (cycle : Nat) : Band :=
  let item := if w.template then w.idx else w.idx * l.perWg + pos
  { mkBand uid p l.uid w.uid pos item l.lr.prog l.lr.priv cycle with
    since := w.placedAt
    rank := if w.template then l.tplRank w.idx else l.rankOf w.idx
    lvls := if w.template then digits (l.lr.levels.take (l.lr.frz + 1)) w.idx else digits l.lr.levels item
    template := w.template }

/-- R162: the band takes the image's state. -/
def Band.stampFrom (i : Image) (b : Band) : Band :=
  { b with
    v := i.v, s := i.s, o := i.o, a := i.a, b := i.b, m := i.m, mode := i.mode, sig := i.sig
    hdr := i.next, pc := i.next, fdepth := i.depth, image := some i.uid, template := false }

/-- Bands of a workgroup at its places, made by `f`. -/
def State.makeBands (s : State) (l : Launch) (w : Workgroup) (f : Band → Band) : State :=
  let bs := w.places.zipIdx.map fun (p, pos) => f (l.newBand (s.nextUid + pos) w pos p s.cycle)
  { (s.modWg w.uid fun w => { w with stamped := true }) with bands := s.bands ++ bs, nextUid := s.nextUid + bs.length }

/-- R333, R164, R249: a workgroup is stamped from the image: its template region, its stage, its bands. -/
def State.stampWg (s : State) (l : Launch) (w : Workgroup) (i : Image) : State :=
  let s := s.writeSpace w .sp 0 i.region
  let s := s.modWg w.uid fun w => { w with current := i.current, filling := i.filling }
  s.makeBands l w (Band.stampFrom i)

/-- The image of an instance. -/
def State.instImage (s : State) (u inst run : Nat) : Option Image :=
  s.images.find? fun i => i.launch == u && i.depth == 1 && i.inst == inst && i.run == run

/-- A band was stamped from an image, or maps a name to a register of it. -/
def Band.uses (b : Band) (i : Image) : Bool :=
  b.image == some i.uid || b.vKinds.any (MapKind.ofImage i.uid) || b.sKinds.any (MapKind.ofImage i.uid)

/-- Some image, band or saved band uses an image. -/
def State.imageUsed (s : State) (i : Image) : Bool :=
  (s.bands ++ (s.wgs.map Workgroup.saved).flatten).any (fun b => b.uses i)
    || s.images.any fun j => j.uid != i.uid && (j.vKinds.any (MapKind.ofImage i.uid) || j.sKinds.any (MapKind.ofImage i.uid))

/-- R333: an image from which items are still to be stamped, on this launch's part. -/
def State.imageKept (s : State) (i : Image) : Bool :=
  match s.launch? i.launch with
  | none => false
  | some l =>
    if i.depth = 1 then
      l.wgNums.any (fun w => l.tplInst w == i.inst && !l.placed.contains (w, i.run))
        || s.wgs.any fun w => w.launch == l.uid && w.run == i.run && !w.template && !w.stamped && l.tplInst w.idx == i.inst
    else s.wgs.any fun w => w.nested.any fun n => n.image == i.uid

/-- Images whose items are all stamped keep only what items map to, and go with the last item (R163, R333). -/
def State.settleImages (s : State) : State :=
  let s : State := { s with images := s.images.map fun i => { i with keep := s.imageKept i } }
  { s with images := s.images.filter fun i => i.keep || s.imageUsed i }

/-! ## A workgroup is placed -/

/-- The lowest free context index (R334). -/
def Launch.freeCtx (l : Launch) : Option Nat :=
  if l.ctxUsed.length < l.lr.nctx then (List.range (l.ctxUsed.length + 1)).find? fun c => !l.ctxUsed.contains c else none

/-- A core takes part in a run (R382). -/
def Launch.onCore (l : Launch) (core run : Nat) : Launch :=
  { l with runCores := if l.runCores.contains (core, run) then l.runCores else l.runCores ++ [(core, run)] }

/-- The workgroup stands on its core: its windows are cleared (R76), the L1 is invalidated (R73), and its bands are made, or wait for
their image (R333). -/
def State.putWg (s : State) (l : Launch) (run idx : Nat) (template : Bool) (slot : Nat) (places : List Place) (ctx : Nat) : State :=
  let core := (places.headD ⟨0, 0, 0⟩).core
  let w := { mkWg s.nextUid l.uid idx core slot ctx s.cycle template with run := run, places := places }
  let s : State := { s with nextUid := s.nextUid + 1, wgs := s.wgs ++ [w] }
  let s := s.modLaunch l.uid fun l =>
    { l with
      ctxUsed := insertAsc l.ctxUsed ctx
      placed := if template then l.placed else l.placed ++ [(idx, run)]
      tplPlaced := if template then l.tplPlaced ++ [(idx, run)] else l.tplPlaced }.onCore core run
  let s := s.logPlacement l.uid (if template then 1 else 0) slot places (if template then idx else idx * l.perWg)
  let s := (s.invalidateL1 core).clearWindows w
  let s :=
    if template || l.lr.frz = 15 then s.makeBands l w id
    else
      match s.instImage l.uid (l.tplInst idx) run with
      | some i => if i.acked.contains core then s.stampWg l w i else s
      | none => s
  s.settleImages

/-- A workgroup goes to the first of some cores that qualifies. -/
def State.placeOn (s : State) (u run idx : Nat) (template : Bool) (cores : List Nat) : Option State := do
  let l ← s.launch? u
  let ctx ← l.freeCtx
  cores.findSome? fun core => (s.fit l run core template idx).map fun (k, ps) => s.putWg l run idx template k ps ctx

/-- The cores of each instance of a superstep domain: the dies, or the clusters. -/
def domCores (mdom : Bool) : List (List Nat) :=
  let size := if mdom then 60 else 4
  (List.range (240 / size)).map fun d => (List.range size).map (· + d * size)

/-- Workgroups put on some cores, those beneath one instance of a level that pins them on the first instance of its domain that takes them
all (R319; instances of unequal size go in their order: DESIGN CHOICE, log 31). `idx` gives a workgroup's number. -/
def State.putPinned (l : Launch) (put : State → List Nat → Nat → Option State) (idx : Nat → Nat) :
    List (Level × Nat) → List Nat → List Nat → State → Option State
  | [], cores, ws, s => ws.foldlM (fun s w => put s cores w) s
  | (v, k) :: rest, cores, ws, s =>
    (ws.map fun w => l.instAt k (idx w)).eraseDups.foldlM (fun s g =>
      (cores.map (domOfCore v.dom)).eraseDups.findSome? fun d =>
        State.putPinned l put idx rest (cores.filter fun c => domOfCore v.dom c == d) (ws.filter fun w => l.instAt k (idx w) == g) s) s

/-- The levels that pin workgroups here, outermost first. -/
def Launch.pins (l : Launch) : List (Level × Nat) := l.lr.levels.zipIdx.filter fun x => decide (3 ≤ x.1.dom) && decide (x.1.dom ≤ 5)

/-- Workgroups placed together, within one instance of the superstep domain (R81, R332). -/
def State.putTogether (s : State) (l : Launch) (put : State → List Nat → Nat → Option State) (idx : Nat → Nat) (ws : List Nat) : Option State :=
  (domCores l.lr.mdom).findSome? fun cores => State.putPinned l put idx l.pins cores ws s

/-! ## What the distributor may place next -/

inductive Unit' where
  | template (inst run : Nat)
  | fresh (ws : List Nat) (run : Nat)
  | resume (ws : List Nat)
  | logged (n : Nat)
  deriving DecidableEq, Repr

/-- Workgroups of a run still to be placed; those of an instance without an image are released unrun (R333). -/
def Launch.unplaced (l : Launch) (run : Nat) : List Nat :=
  l.wgNums.filter fun w => !l.placed.contains (w, run) && !(l.lr.frz != 15 && l.barren.contains (l.tplInst w, run))

/-- Whose template has been placed. -/
def Launch.hasTemplate (l : Launch) (run w : Nat) : Bool := l.lr.frz == 15 || l.tplPlaced.contains (l.tplInst w, run)

/-- The outermost level whose domain ties its workgroups to one place here (R319). -/
def Launch.pinLevel (l : Launch) : Option Nat := l.lr.levels.findIdx? fun v => decide (3 ≤ v.dom) && decide (v.dom ≤ 5)

/-- The instance whose workgroups are placed in ascending order (R332): of that level, and of the freeze level's template. -/
def Launch.pinInst (l : Launch) (w : Nat) : Nat := match l.pinLevel with | some k => l.instAt k w | none => 0
def Launch.orderKey (l : Launch) (w : Nat) : Nat × Nat := (if l.lr.frz = 15 then 0 else l.tplInst w, l.pinInst w)

/-- The first workgroup of each instance that has begun, and of the first that has not: the others that have not ask for no more. -/
def Launch.firsts (l : Launch) (run : Nat) (ws : List Nat) : List Nat :=
  let heads := (ws.map l.orderKey).eraseDups.filterMap fun k => ws.find? fun w => l.orderKey w == k
  let begun := fun (w : Nat) => l.placed.any fun x => x.2 == run && l.pinInst x.1 == l.pinInst w
  let fresh := heads.find? fun w => !begun w
  heads.filter fun w => begun w || some w == fresh

/-- R332, R333: an instance's workgroups in ascending item index; those of a superstep domain instance together (R81). -/
def Launch.freshUnits (l : Launch) (run : Nat) : List Unit' :=
  let ws := l.unplaced run
  let dom := fun (w : Nat) => w / max 1 (l.countsIn (if l.lr.mdom then 3 else 4) 5)
  if l.lr.mirr then
    ((dedup (ws.map dom)).map fun d => ws.filter fun w => dom w == d).filterMap fun g =>
      if g.all (l.hasTemplate run) then some (.fresh g run) else none
  else (l.firsts run (ws.filter (l.hasTemplate run))).map fun w => .fresh [w] run

def Launch.templateUnits (l : Launch) (run : Nat) : List Unit' :=
  (l.insts.filter fun i => !l.tplPlaced.contains (i, run)).map fun i => .template i run

/-- Pre-empted workgroups; those of a superstep domain instance together. -/
def State.resumeUnits (s : State) (l : Launch) : List Unit' :=
  let out := s.wgs.filter fun w => w.launch == l.uid && !w.resident && !w.exited
  if l.lr.mirr then (dedup (out.map l.domInst)).map fun d => .resume ((out.filter fun w => l.domInst w == d).map Workgroup.uid)
  else out.map fun w => .resume [w.uid]

/-- Something of the launch is still to be placed. -/
def State.pending (s : State) (l : Launch) : Bool :=
  l.runList.any (fun r => !(l.unplaced r).isEmpty || !(l.templateUnits r).isEmpty)
    || s.wgs.any fun w => w.launch == l.uid && !w.nested.isEmpty

/-- The log's entry n. -/
def State.logEntry (s : State) (l : Launch) (n : Nat) : Option Nat :=
  (s.cpRead l (l.lr.rlog + BitVec.ofNat 64 (16 * n)) 16).map leNat

def logKind (e : Nat) : Nat := e / 2 ^ 78 % 4
def logCore (e : Nat) : Nat := e / 2 ^ 68 % 256
def logQuad (e b : Nat) : Nat := e / 2 ^ 80 / 4 ^ b % 4

/-- R342: the next entry that is not of KIND 3, with its number; none where the log ends or cannot be read. -/
def State.logNext (s : State) (l : Launch) : Nat → Nat → Option (Nat × Nat)
  | 0, _ => none
  | fuel + 1, n =>
    if l.lr.rlogn ≤ n then none
    else
      match s.logEntry l n with
      | none => none
      | some e => if logKind e = 3 then State.logNext s l fuel (n + 1) else some (n, e)

/-- The run for which an entry's workgroup or template is still to be placed. -/
def State.logRun (l : Launch) (e : Nat) : Option Nat :=
  let item := e % 2 ^ 39
  match logKind e with
  | 0 => if item % max 1 l.perWg ≠ 0 then none
    else l.runList.find? fun r => (l.unplaced r).contains (item / max 1 l.perWg) && l.hasTemplate r (item / max 1 l.perWg)
  | 1 => l.runList.find? fun r => (l.templateUnits r).contains (.template item r)
  | _ => none

/-- An entry that cannot be followed: its core is out of service, or it names nothing that is still to be placed. -/
def State.badEntry (s : State) (l : Launch) (e : Nat) : Bool :=
  !s.coreInService (logCore e) ||
    (logKind e != 2 && ((State.logRun l e).isNone || (l.quadList (logKind e == 1)).zipIdx.any fun (q, b) => logQuad e b != q))

def State.logUnusable (s : State) (l : Launch) : Bool :=
  l.lr.rply == 2 && s.pending l && match s.logNext l l.lr.rlogn l.logn with
    | none => true
    | some (_, e) => s.badEntry l e

/-- The units of a launch in the order in which they are tried. -/
def State.units (s : State) (l : Launch) : List Unit' :=
  s.resumeUnits l ++
    if l.lr.rply = 2 then (if s.pending l then [.logged l.logn] else [])
    else (l.runList.map l.templateUnits).flatten ++ (l.runList.map l.freshUnits).flatten

/-! ## Nested items (R165, R333) -/

/-- Order of nested items: lowest parent position, then lowest extension index. -/
def Nested.before (a b : Nested) : Bool := decide (a.ppos < b.ppos) || (a.ppos == b.ppos && decide (a.xidx.toNat ≤ b.xidx.toNat))

def insertNested (n : Nested) : List Nested → List Nested
  | [] => [n]
  | x :: t => if n.before x then n :: x :: t else x :: insertNested n t

/-- A nested item takes a slot of its workgroup and the position that goes with it. -/
def State.stampNested (s : State) (w : Workgroup) (n : Nested) (p : Place) : State :=
  match s.launch? w.launch, s.image? n.image with
  | some l, some i =>
    let pos := (w.places.findIdx? (· == p)).getD 0
    let b := (l.newBand s.nextUid w pos p s.cycle).stampFrom i
    let b := { b with since := s.cycle, itemidx := n.itemidx, xidx := n.xidx, lvls := digits l.lr.levels n.itemidx }
    let s : State := { s with bands := s.bands ++ [b], nextUid := s.nextUid + 1 }
    let s := s.modWg w.uid fun w => { w with nested := w.nested.erase n }
    (s.logPlacement l.uid 2 w.slot [p] n.itemidx).settleImages
  | _, _ => s

/-- The first nested item that waits is stamped into a slot that a band has left; a replay follows its log instead. -/
def State.fillSlot (s : State) (u : Nat) (p : Place) : State :=
  match s.wg? u with
  | none => s
  | some w =>
    match w.nested, s.launch? w.launch with
    | n :: _, some l => if l.lr.rply = 2 then s else s.stampNested w n p
    | _, _ => s

/-! ## The end of bands and workgroups -/

def qdef (s : State) (q : Nat) : Int := ((s.reg (32 * q + 16)).extractLsb' 0 48).toInt
def State.setDef (s : State) (q : Nat) (x : Int) : State := s.setReg (32 * q + 16) ((BitVec.ofInt 48 x).setWidth 64)

/-- R331: cycles for which a workgroup has held its bands' slots: since its placement, stamped or not. -/
def State.heldTime (s : State) (w : Workgroup) : Nat :=
  if w.exited || !w.resident then 0
  else w.spent + (if w.stamped then ((s.wgBands w.uid).map fun b => s.cycle - b.since).sum else w.places.length * (s.cycle - w.placedAt))

/-- R331: band-slot cycles are charged to a launch and its queue. -/
def State.charge (s : State) (l : Launch) (n : Nat) : State :=
  (s.modLaunch l.uid fun l => { l with charged := l.charged + n }).setDef l.queue (qdef s l.queue - n)

/-- The time of a workgroup is charged, with that of its template the first time. -/
def State.chargeWg (s : State) (w : Workgroup) (n : Nat) : State :=
  match s.launch? w.launch with
  | none => s
  | some l =>
    if w.template then s.modLaunch l.uid fun l => { l with tplTime := assocSet l.tplTime w.idx (assocGet l.tplTime w.idx + n) }
    else
      let t := if l.lr.frz = 15 then 0 else assocGet l.tplTime (l.tplInst w.idx)
      (s.modLaunch l.uid fun l => { l with tplTime := l.tplTime.filter fun p => l.lr.frz == 15 || p.1 != l.tplInst w.idx }).charge l (n + t)

/-- The workgroups that stay resident with one until all have exited (R81): for a mirrored launch those of its domain instance. -/
def State.mates (s : State) (w : Workgroup) : List Workgroup :=
  match s.launch? w.launch with
  | some l => if l.lr.mirr then s.wgs.filter fun x => x.launch == w.launch && l.domInst x == l.domInst w else [w]
  | none => [w]

/-- The workgroup exits: its tokens and context index are free, and its window and entries once its mates have exited too (R81, R87, R331,
R334). -/
def State.wgExit (s : State) (w : Workgroup) : State :=
  let s := (s.freeTokensOf w.core w.slot).chargeWg w w.spent
  let out := (s.mates w).all fun x => x.uid == w.uid || x.exited
  let gone := if out then w.uid :: (s.mates w).map Workgroup.uid else []
  let s := s.modWg w.uid fun w => { w with exited := true, bars := [], overlays := [], tokens := [] }
  let s : State := { s with wgs := s.wgs.map fun x => if gone.contains x.uid then { x with resident := false } else x }
  (s.modLaunch w.launch fun l => { l with ctxUsed := l.ctxUsed.filter (· != w.ctx), wgRun := l.wgRun + 1 }).settleImages

/-- R333: workgroups of an instance that makes no image are released unrun. -/
def State.releaseInst (s : State) (u inst run : Nat) : State :=
  match s.launch? u with
  | none => s
  | some l =>
    let gone := s.wgs.filter fun w => w.launch == u && w.run == run && !w.template && !w.stamped && l.tplInst w.idx == inst
    let s : State := { s with wgs := s.wgs.filter fun w => !gone.any fun g => g.uid == w.uid }
    s.modLaunch u fun l =>
      { l with barren := l.barren ++ [(inst, run)], ctxUsed := l.ctxUsed.filter fun c => !gone.any fun g => g.ctx == c }

/-- R258: what an ended band's batches lock is free. -/
def State.dropHolder (s : State) (band : Nat) : State :=
  { s with locks := (s.locks.map fun l => { l with holders := l.holders.filter fun h => h.1 != band }).filter fun l =>
      l.op.isSome || !l.holders.isEmpty }

/-- The band ends (R306): what it holds is free, it leaves its barriers, its slot goes to a nested item, and with its last band the
workgroup exits. -/
def State.endBand (s : State) (b : Band) : State :=
  let s := match s.wg? b.wg, s.launch? b.launch with | some w, some l => s.endLateSwap b.launch (l.domInst w) | _, _ => s
  let s := ({ s with bands := s.bands.filter fun x => x.uid != b.uid } : State).dropHolder b.uid
  let s := s.modWg b.wg fun w =>
    { w with exits := w.exits ++ [b.copies], spent := w.spent + (s.cycle - b.since), overlays := w.overlays.filter fun o => o.band != b.uid }
  let s := ((s.fillSlot b.wg b.place).barsAfterExit b.wg).settleImages
  match s.wg? b.wg with
  | some w => if (s.wgBands w.uid).isEmpty && w.nested.isEmpty then s.wgExit w else s
  | none => s

/-- R306: everything EXIT holds the band for has ended. -/
def State.exitReady (s : State) (b : Band) : Bool :=
  b.batchLeft.all (fun x => x.2 == 0) && (!b.transferring || b.winFault.isSome) &&
    s.ops.all fun o => !(o.band == b.uid && match o.kind with
      | .load x => x.dest != .none || x.undone
      | .localLoad _ _ => true
      | .atomic _ x _ _ _ => x.dest != .none || x.undone
      | .store x => x.undone
      | .stm _ _ _ => true
      | _ => false)

def exitBody (b : Band) (s : State) : Try Fin' := do
  holdUnless (s.exitReady b)
  let t := s.endBand b
  return .gone (if b.template then
      match s.wg? b.wg with
      | some w => (t.releaseInst b.launch w.idx w.run).settleImages
      | none => t
    else t)

def execExit (s : State) : Host.Outcome State Fault Refusal := .next (issue .exit exitBody s)

/-! ## FREEZE (R161, R165) -/

def OpKind.isMma : OpKind → Bool
  | .mma .. => true
  | _ => false

/-- Every flag is zero, every batch complete, and no register waits for a result. -/
def State.freezeReady (s : State) (b : Band) : Bool :=
  b.f.toList.all (· == 0) && b.batchLeft.all (fun x => x.2 == 0) && b.v.toList.all (fun n => n.pend.isNone) && b.s.toList.all (fun n => n.pend.isNone)
    && s.ops.all fun o => !(o.band == b.uid && (o.kind.dest != .none || o.kind.isMma))

/-- A private name becomes a shared register of the image. -/
def MapKind.freeze (u n : Nat) : MapKind → MapKind
  | .priv => .shared u n
  | k => k

def State.capture (s : State) (b : Band) (w : Workgroup) : Image where
  uid := s.nextUid
  launch := b.launch
  inst := w.idx
  band := b.uid
  quads := if b.template then (match s.launch? b.launch with | some l => dedup (l.quadList false) | none => []) else dedup (w.places.map Place.quad)
  keep := true
  run := w.run
  depth := b.fdepth + 1
  v := Vector.ofFn fun i => { b.vName i.val with kind := (b.vName i.val).kind.freeze s.nextUid i.val }
  s := Vector.ofFn fun i => { b.sName i.val with kind := (b.sName i.val).kind.freeze s.nextUid i.val }
  o := b.o
  a := b.a
  b := b.b
  m := b.m
  mode := b.mode
  sig := sigNext b.sig (encodeWord .freeze) 0
  next := b.clauseEnd
  region := (List.range (s.lsView w).treg).map fun o =>
    s.spByte w b (if b.template then 0 else (s.lsView w).treg) o
  current := w.current
  filling := w.filling
  acked := if b.template then [] else [w.core]
  savedOn := []

/-- The nested items that a FREEZE at depth 1 or 2 makes. -/
def nestedOf (l : Launch) (b : Band) (img : Nat) : List Nested :=
  (List.range ((if b.fdepth = 1 then l.lr.nest1 else l.lr.nest2) + 1)).map fun k =>
    ⟨img, b.pos, b.itemidx, if b.fdepth = 1 then BitVec.ofNat 32 k else b.xidx ||| (BitVec.ofNat 32 k <<< 16)⟩

def freezeBody (b : Band) (s : State) : Try Fin' := do
  match s.bandLaunch b with
  | none => illegalState
  | some l => do
    if l.lr.frz = 15 ∨ b.depth ≠ 0 ∨ b.fdepth = 3 then illegalState
    holdUnless (s.freezeReady b && (b.template || s.accessesDone b))
    let w ← s.wgOf b
    let i := s.capture b w
    let s : State := { s with images := s.images ++ [i], nextUid := s.nextUid + 1 }
    let s := if b.template then s
      else s.modWg w.uid fun w => { w with nested := (nestedOf l b i.uid).foldl (fun ns n => insertNested n ns) w.nested }
    return .gone (s.endBand b)

def execFreeze (s : State) : Host.Outcome State Fault Refusal := .next (issue .freeze freezeBody s)

/-- R333: every store of the prologue is performed, those through STM too. -/
def State.prologueDone (s : State) (i : Image) : Bool :=
  s.ops.all fun o => !(o.band == i.band && match o.kind with
    | .stm _ _ _ => true
    | k => match k.access? with | some x => x.undone | none => false)

/-- Workgroups on a core that wait for an image. -/
def State.awaiting (s : State) (l : Launch) (i : Image) (core : Nat) : List Workgroup :=
  s.wgs.filter fun w => w.launch == l.uid && w.run == i.run && w.resident && !w.template && !w.stamped && w.core == core
    && l.tplInst w.idx == i.inst

/-- TEMPLATE_IMAGE_ACK: a core has the image of an instance, its L1 keeps no line from before the prologue's stores (R322), and it stamps the
workgroups assigned to it (R333). -/
def imageAck (u inst core : Nat) (s : State) : State :=
  match s.launch? u with
  | none => s
  | some l =>
    match s.images.find? fun i => i.launch == u && i.depth == 1 && i.inst == inst && !i.acked.contains core && !(s.awaiting l i core).isEmpty with
    | none => s
    | some i =>
      if !s.prologueDone i || !(i.quads.all fun q => decide (s.poolWith core q (i.vRegs [] []) (i.sRegs [] []).length ≤ 2048)) then s
      else
        let ws := s.awaiting l i core
        let s : State := { s with images := s.images.map fun x => if x.uid == i.uid then { x with acked := insertAsc x.acked core } else x }
        (ws.foldl (fun s w => s.stampWg l w i) (s.invalidateL1 core)).settleImages

def execTemplateImageAck (launch inst core : Nat) (s : State) : Host.Outcome State Fault Refusal := .next (imageAck launch inst core s)

end Sys2Proof.Machine
end

