-- ==== Sys2Proof/Machine/Preempt.lean ====
section
/-! DEFINITION. The distributor's choice by priority and deficit round-robin (R331, R342), pre-emption (R338, R340) and resumption (R339). -/

namespace Sys2Proof.Machine

/-! ## Pre-emption starts (R338, R340) -/

/-- The workgroups that are pre-empted with one: those of its superstep domain instance (R81, R338). -/
def State.together (s : State) (w : Workgroup) : List Workgroup :=
  match s.launch? w.launch with
  | some l => if l.lr.mirr then s.instWgs l.uid (l.domInst w) else [w]
  | none => [w]

/-- The bands of a workgroup and its domain instance stop before their next headers; `fixed` says that they return to their places. -/
def State.startPreempt (s : State) (w : Workgroup) (fixed : Bool) : State :=
  let us := (s.together w).map Workgroup.uid
  { s with
    wgs := s.wgs.map fun x => if us.contains x.uid then { x with preempting := true, fixed := fixed } else x
    bands := s.bands.map fun b => if us.contains b.wg then { b with stopping := true } else b }

/-- A band that has stopped: at a header, or at a word whose wait can be withdrawn; for a kill also one that stalls. -/
def Band.stopped (kill : Bool) (b : Band) : Bool :=
  b.parked || match b.wait with
    | some (.walk ..) | some (.done _) => false
    | some _ => true
    | none => b.halted || b.suspended || (b.stopping && b.atHeader) || (kill && b.stalled.isSome)

/-- R338: nothing of a band is in flight but engine and Flume operations. -/
def State.bandDrained (s : State) (b : Band) : Bool :=
  b.f.toList.all (· == 0) && b.batchLeft.all (fun x => x.2 == 0) && s.ops.all fun o => !(o.band == b.uid && match o.kind with
    | .engine _ _ | .crs .. | .cscal .. | .cag .. => false
    | .store x => x.undone
    | .load x => x.dest != .none || x.undone
    | .atomic _ x _ _ _ => x.dest != .none || x.undone
    | _ => true)

def State.saveReady (s : State) (w : Workgroup) : Bool := (s.wgBands w.uid).all fun b => b.stopped false && s.bandDrained b

/-- R266, R338: a wait that is withdrawn, with the time that it had left. -/
def Band.withdraw (s : State) (w : Workgroup) (vwait : Nat) (b : Band) : Band :=
  let left := fun (dl : Nat) => dl - s.cycle
  let bar := fun (k : Nat) => (w.bar? k).map fun x => x.deadline.map left
  match b.wait with
  | some (.acqrg _ _ dl) | some (.monitor _ _ _ dl) => { b with wait := none, timeLeft := some (some (left dl)) }
  | some (.bar k) => { b with wait := none, timeLeft := bar k }
  | some .swaph => { b with wait := none, timeLeft := bar swapBar }
  | some (.version _ _ _ _ since) =>
    let limit := b.timeLeft.getD (if vwait = 0 then none else some (microseconds vwait))
    { b with wait := none, timeLeft := some (limit.map fun n => left (since + n)) }
  | some .step | some .entry | some .copyEntry => { b with wait := none }
  | _ => b

/-! ## Saving (R334, R338) -/

def Launch.blockAt (l : Launch) (c : Nat) : W64 := l.lr.ctxb + BitVec.ofNat 64 (c * 2 ^ 22)

def saveSpaces : List Space := [.sp, .ab, .wb, .cb]

/-- The windows' bytes in the order of the context block; for a mirrored launch both halves. -/
def State.windowBytes (s : State) (w : Workgroup) : List Byte :=
  let v := s.lsView w
  (saveSpaces.map fun space => (List.range (s.window w.core v.carve space)).map fun o => s.lsByte (s.lsKey w.core v.carve w.slot space o)).flatten

/-- Bytes whose layout within their area the context table does not give (free values, log 20). -/
def openBytes (ctr off n : Nat) : List Byte := (List.range n).map fun i => Config.freeByte (ctr + off + i)

/-- The template's shared registers, in the layout of R159. -/
def Image.area (i : Image) : List (Nat × List Byte) :=
  (i.v.toList.zipIdx.map fun (n, k) => (128 * k, vregBytes n.val)) ++ i.s.toList.zipIdx.map fun (n, k) => (0x2000 + 8 * k, w64Bytes n.val)

/-- Parts of an area written, where the whole of it can be accessed. -/
def State.saveParts (s : State) (l : Launch) (run : Nat) (p : Place) (base : W64) (n : Nat) (parts : List (Nat × List Byte)) : Option State :=
  (s.areaPieces l p base n).toOption.map fun _ => s.writeParts l run p base parts

/-- The frames and the context of a band that is not parked, its wait withdrawn; a parked band's are there already. -/
def State.saveOne (s : State) (l : Launch) (w : Workgroup) (b : Band) : Option State :=
  if b.parked then some s else (s.spillAll l b).bind fun s => s.saveBand l (b.withdraw s w l.lr.vwait)

/-- The place that stands for a workgroup where its areas are translated. -/
def Workgroup.home (w : Workgroup) : Place := w.places.headD ⟨w.core, 0, 0⟩

/-- A core's template save area, and the place in it of an image's registers: the lowest of 64 that no other image holds (DESIGN CHOICE, log
20). -/
def Launch.tplArea (l : Launch) (core : Nat) : W64 := l.lr.ctxb + BitVec.ofNat 64 (l.lr.nctx * 2 ^ 22 + core * 2 ^ 20)
def State.tplPlace (s : State) (launch core : Nat) : Nat :=
  let used := (s.images.filter fun i => i.launch == launch).flatMap fun i => (i.savedOn.filter fun x => x.1 == core).map Prod.snd
  ((List.range 64).find? fun k => !used.contains k).getD 0

/-- R338, step 3: the template's shared registers are written once per core, unless they are already there. -/
def State.saveImage (s : State) (l : Launch) (w : Workgroup) (i : Image) : Option State :=
  if i.savedOn.any fun x => x.1 == w.core then some s
  else
    let k := s.tplPlace l.uid w.core
    (s.saveParts l w.run w.home (l.tplArea w.core + BitVec.ofNat 64 (k * 2 ^ 14)) 0x2200 i.area).map fun s =>
      { s with images := s.images.map fun x => if x.uid == i.uid then { x with savedOn := x.savedOn ++ [(w.core, k)] } else x }

def stageOff : W64 := 0x240000
def tokensOff : W64 := 0x250000

/-- R338: everything of a workgroup is written to its areas; none where one of them cannot be. A workgroup that has exited has nothing. -/
def State.saveAll (s : State) (l : Launch) (w : Workgroup) : Option State :=
  if w.exited then some s
  else do
    let bs := s.wgBands w.uid
    let s ← bs.foldlM (fun s b => s.saveOne l w b) s
    let s ← (s.images.filter fun i => i.launch == l.uid && bs.any fun b => b.uses i).foldlM (fun s i => s.saveImage l w i) s
    let bytes := s.windowBytes w
    let toks := s.tokens.filter fun t => t.core == w.core && t.slot == w.slot
    let base := l.blockAt w.ctx
    let s := s.modWg w.uid fun x => { x with savedCtr := s.freeCtr }
    let s ← s.saveParts l w.run w.home base bytes.length [(0, bytes)]
    let s ← s.saveParts l w.run w.home (base + stageOff) 0x10000 [(0, openBytes s.freeCtr 0 0x10000)]
    let s ← s.saveParts l w.run w.home (base + tokensOff) 0x1000 [(0, openBytes s.freeCtr 0x10000 (16 * toks.length))]
    return s.tick 0x11000

/-- The saved workgroup leaves its core. -/
def State.unplace (s : State) (w : Workgroup) (vwait : Nat) : State :=
  let toks := s.tokens.filter fun t => t.core == w.core && t.slot == w.slot
  let saved := (s.wgBands w.uid).map fun b => { b.withdraw s w vwait with held := false, stalled := none }
  let s := (s.freeTokensOf w.core w.slot).chargeWg w (s.heldTime w)
  let s : State := { s with bands := s.bands.filter fun b => b.wg != w.uid }
  s.modWg w.uid fun x =>
    { x with resident := false, preempting := false, saved := saved, tokens := toks, bars := [], spent := 0, placedAt := s.cycle }

/-- PREEMPT_SAVE: a workgroup whose bands have stopped is saved and its resources are free, with its domain instance. -/
def preemptSave (u : Nat) (s : State) : State :=
  match s.wg? u with
  | none => s
  | some w =>
    match s.launch? w.launch with
    | none => s
    | some l =>
      let ws := s.together w
      if !w.preempting || !w.resident || l.kills != [] || !ws.all s.saveReady then s
      else
        match ws.foldlM (fun s w => s.saveAll l w) s with
        | none => s.decideKill l.uid .save
        | some s => ws.foldl (fun s w => s.unplace ((s.wg? w.uid).getD w) l.lr.vwait) s

def execPreemptSave (wg : Nat) (s : State) : Host.Outcome State Fault Refusal := .next (preemptSave wg s)

/-! ## Resumption (R339) -/

/-- An area read back: none where it cannot be accessed or read. -/
def State.loadArea (s : State) (l : Launch) (w : Workgroup) (base : W64) (n : Nat) : Option (List Byte) :=
  match s.areaPieces l w.home base n with
  | .error _ => none
  | .ok ps =>
    let who := some (l.uid, w.run)
    if (s.badPieces who ps).isEmpty then some (readPieces s who ps) else none

/-- An area of open layout that stands as it was saved; one that was changed holds what the part makes of it, a free value (log 20). -/
def State.loadOpen (s : State) (l : Launch) (w : Workgroup) (at_ : W64) (off n : Nat) : Option Bool :=
  (s.loadArea l w (l.blockAt w.ctx + at_) n).map fun bs => bs == openBytes w.savedCtr off n

def freeNat (ctr k : Nat) : Nat := leNat (openBytes ctr (8 * k) 8)

/-- R87: the regions to acquire again. -/
def State.loadTokens (s : State) (l : Launch) (w : Workgroup) : Option (List Token) :=
  (s.loadOpen l w tokensOff 0x10000 (16 * w.tokens.length)).map fun same =>
    if same then w.tokens
    else w.tokens.zipIdx.map fun (t, i) => { t with pbase := freeNat s.freeCtr (2 * i), len := freeNat s.freeCtr (2 * i + 1) }

/-- R87: every recorded region can be acquired again, and is. -/
def State.takeTokens (s : State) (core slot : Nat) (ts : List Token) : Option State :=
  ts.foldlM (fun s t =>
    match s.tokenState core t.pbase t.len with
    | .free => some (s.takeToken core slot t.pbase t.len)
    | .mine => some s
    | _ => none) s

/-- The windows are read back from the context block. -/
def State.loadWindows (s : State) (l : Launch) (w : Workgroup) : Option State :=
  let v := s.lsView w
  let sizes := saveSpaces.map fun space => s.window w.core v.carve space
  (s.loadArea l w (l.blockAt w.ctx) sizes.sum).map fun bs =>
    let keys := ((saveSpaces.zip sizes).map fun (space, n) => (List.range n).map fun o => s.lsKey w.core v.carve w.slot space o).flatten
    (keys.zip bs).foldl (fun s x => s.setLs x.1 x.2) s

/-- A quarter and a generation buffer whose contents are free values. -/
def freeVReg (ctr : Nat) : VReg := vregOfBytes (openBytes ctr 0 128)
def Quarter.free (ctr : Nat) (q : Quarter) : Quarter :=
  { q with regs := q.regs.zipIdx.map fun (_, i) => freeVReg (ctr + 128 * i), scales := freeVReg (ctr + 0x3F00) }
def BBuf.free (ctr : Nat) (b : BBuf) : BBuf :=
  { b with quarters := b.quarters.zipIdx.map fun (q, i) => q.free (ctr + 0x4000 * i) }

/-- R249: the stage is read back. -/
def State.loadStage (s : State) (l : Launch) (w : Workgroup) : Option State :=
  (s.loadOpen l w stageOff 0 0x10000).map fun same =>
    if same then s
    else (s.modWg w.uid fun x =>
      { x with current := x.current.map (BBuf.free s.freeCtr), filling := x.filling.free (s.freeCtr + 0x10000) }).tick 0x20000

/-- The shared registers of an image with the contents of a save area. -/
def Band.reloadShared (b : Band) (u : Nat) (bs : List Byte) : Band :=
  { b with
    v := b.v.map fun n => match n.kind with
      | .shared x k => if x == u then { n with val := vregOfBytes (bs.drop (128 * k)) } else n
      | _ => n
    s := b.s.map fun n => match n.kind with
      | .shared x k => if x == u then { n with val := w64OfBytes (bs.drop (0x2000 + 8 * k)) } else n
      | _ => n }

/-- The shared registers that no band of the new core holds any more come back from the save area of the core that saved them. -/
def State.loadShared (s : State) (l : Launch) (w : Workgroup) (from_ : Nat) (bs : List Band) : Option (List Band) :=
  (s.images.filter fun i => bs.any fun b => b.uses i).foldlM (fun bs i =>
    if s.bands.any fun b => b.place.core == w.core && b.uses i then some bs
    else match i.savedOn.find? fun x => x.1 == from_ with
      | some (_, k) => (s.loadArea l w (l.tplArea from_ + BitVec.ofNat 64 (k * 2 ^ 14)) 0x2200).map fun x =>
          bs.map fun b => b.reloadShared i.uid x
      | none => some bs) bs

/-- A band continues at its header, or at the word whose wait was withdrawn. -/
def Band.resumed (c : Band) (p : Place) (cycle : Nat) : Band :=
  let c := c.refillNewest
  { c with
    place := p, parked := false, stopping := false, held := false, since := cycle, readyAt := cycle
    tried := c.tried.map fun x => (x.1, cycle)
    resume := if c.pc == c.hdr then c.resume else some c.pc
    pc := c.hdr, clause := none }

/-- The bands of a saved workgroup, read back, at their places. -/
def State.loadBands (s : State) (l : Launch) (w : Workgroup) (saved : List Band) : Option State :=
  saved.foldlM (fun s b => do
    let c ← s.loadBand l { b with place := w.places.getD b.pos b.place }
    return { s with bands := s.bands ++ [c.resumed (w.places.getD b.pos b.place) s.cycle] }) s

/-- Where a saved workgroup may go: its own place unless it may migrate, else as one placed afresh. -/
def State.resumeFit (s : State) (l : Launch) (cores : List Nat) (w : Workgroup) : Option (Nat × Nat × List Place) :=
  if l.lr.migr && !w.fixed then
    cores.findSome? fun core => (s.fit l w.run core w.template w.idx).map fun (k, ps) => (core, k, ps)
  else
    let ps := if w.stamped then w.saved.map fun b => b.place else w.places
    if s.coreFits l w.run w.core w.template && !((s.residents w.core).any fun x => x.slot == w.slot) && ps.all (fun p => !s.slotTaken p)
    then some (w.core, w.slot, w.places) else none

/-- The pools of a core hold what stands on it. -/
def State.poolsHold (s : State) (core : Nat) : Bool := (List.range 4).all fun q => decide (s.poolWith core q 0 0 ≤ 2048)

/-- A core holds the shared registers of the images that some bands use. -/
def State.shareImages (s : State) (bs : List Band) (core : Nat) : State :=
  { s with images := s.images.map fun i => if bs.any fun b => b.uses i then { i with acked := insertAsc i.acked core } else i }

/-- Started copies of a workgroup, and the locks of its operations and of its open batches (R258), follow it to its new window. -/
def Side.moved (core slot core' slot' : Nat) : Side → Side
  | .loc c v k spc o => if c = core ∧ k = slot then .loc core' v slot' spc o else .loc c v k spc o
  | x => x
def State.movePlans (s : State) (u core slot core' slot' : Nat) : State :=
  let f := fun (m : Move') => { m with src := m.src.moved core slot core' slot', dst := m.dst.moved core slot core' slot' }
  let mine := fun (x : Nat) => s.ops.any fun o => o.uid == x && o.wg == u
  let band := fun (h : Nat × Nat) => (s.wg? u).any fun w => w.saved.any fun b => b.uid == h.1
  { s with
    ops := s.ops.map fun o => if o.wg != u then o else match o.kind with
      | .engine (.copy n sls (some p)) st => { o with kind := .engine (.copy n sls (some { p with moves := p.moves.map f })) st }
      | _ => o
    locks := s.locks.map fun k =>
      if (k.op.any mine || k.holders.any band) && k.core == core && (k.space == .mem || k.slot == slot) then
        { k with core := core', slot := if k.space == .mem then k.slot else slot' }
      else k }

/-- A pre-empted workgroup stands again, on one of some cores: tokens, windows and stage, registers, in this order. None while it cannot be
placed; a fault of its areas kills its launch. -/
def State.resumeWg (s : State) (l : Launch) (cores : List Nat) (u : Nat) : Option State := do
  let w ← s.wg? u
  let (core, slot, places) ← s.resumeFit l cores w
  match s.loadTokens l w with
  | none => return s.decideKill l.uid .save
  | some ts => do
    let s ← s.takeTokens core slot ts
    let w' := { w with core := core, slot := slot, places := places, resident := true, saved := [], tokens := [], placedAt := s.cycle }
    let s := ((s.movePlans u w.core w.slot core slot).setWg w').invalidateL1 core
    let s := s.modLaunch l.uid fun l => l.onCore core w.run
    let s := s.logPlacement l.uid 3 slot places (if w.template then w.idx else w.idx * l.perWg)
    if !w.stamped then
      let s := s.clearWindows w'
      return match s.instImage l.uid (l.tplInst w.idx) w.run with
        | some i => if i.acked.contains core then s.stampWg l w' i else s
        | none => s
    else
      let r := do
        let s ← s.loadWindows l w'
        let s ← s.loadStage l w'
        let bs ← s.loadShared l w' w.core w.saved
        (s.shareImages bs core).loadBands l w' bs
      match r with
      | none => return s.decideKill l.uid .save
      | some t => if t.poolsHold core then return t else none

/-! ## The distributor's choice (R331) -/

/-- R342: the entry of the log is placed exactly as it stands. -/
def State.placeEntry (s : State) (u : Nat) : Option State := do
  let l ← s.launch? u
  let (n, e) ← s.logNext l l.lr.rlogn l.logn
  let core := logCore e
  let slotb := e / 2 ^ 64 % 16
  let t ← (if logKind e = 2 then do
      let w ← s.wgs.find? fun w => w.launch == u && w.resident && w.core == core && w.slot == e / 2 ^ 76 % 4
        && w.nested.any fun x => x.itemidx == e % 2 ^ 39
      let x ← w.nested.find? fun x => x.itemidx == e % 2 ^ 39
      let p : Place := ⟨core, logQuad e 0, slotb⟩
      if w.places.contains p && !s.slotTaken p then some (s.stampNested w x p) else none
    else do
      let r ← State.logRun l e
      let tpl := logKind e == 1
      let idx := if tpl then e % 2 ^ 39 else e % 2 ^ 39 / max 1 l.perWg
      let ctx ← l.freeCtx
      let k := e / 2 ^ 76 % 4
      if s.coreFits l r core tpl && (tpl || s.pinned l r idx core) && decide (k < carveSlots l.lr.carve)
          && !((s.residents core).any fun w => w.slot == k) then do
        let ps ← s.assign core (l.quadList tpl) (some slotb)
        some (s.putWg l r idx tpl k ps ctx)
      else none)
  return t.modLaunch u fun l => { l with logn := n + 1 }

/-- How many entries are placed at once: those of a superstep domain instance (R81). -/
def State.entriesTogether (s : State) (l : Launch) : Nat :=
  match s.logNext l l.lr.rlogn l.logn with
  | some (_, e) =>
    if l.lr.mirr && logKind e == 0 then
      let dom := fun (w : Nat) => w / max 1 (l.countsIn (if l.lr.mdom then 3 else 4) 5)
      match State.logRun l e with
      | some r => ((l.unplaced r).filter fun w => dom w == dom (e % 2 ^ 39 / max 1 l.perWg)).length
      | none => 1
    else 1
  | none => 1

/-- A unit is placed, if it can be. -/
def State.tryUnit (s : State) (l : Launch) : Unit' → Option State
  | .template i r => s.placeOn l.uid r i true (List.range 240)
  | .fresh ws r =>
    if l.lr.mirr then s.putTogether l (fun s cores w => s.placeOn l.uid r w false cores) id ws
    else ws.foldlM (fun s w => s.placeOn l.uid r w false (List.range 240)) s
  | .resume ws =>
    if l.lr.mirr && l.lr.migr then
      s.putTogether l (fun s cores u => s.resumeWg l cores u) (fun u => match s.wg? u with | some w => w.idx | none => 0) ws
    else ws.foldlM (fun s u => s.resumeWg l (List.range 240) u) s
  | .logged _ => (List.range (s.entriesTogether l)).foldlM (fun s _ => s.placeEntry l.uid) s

def Launch.places (l : Launch) : Bool := l.phase == .active && l.kills == []

/-- The first unit of a launch that can be placed, with the state that placing it leaves. -/
def State.placeable (s : State) (l : Launch) : Option (Unit' × State) :=
  if l.places then (s.units l).findSome? fun u => (s.tryUnit l u).map fun t => (u, t) else none

/-- Launches with something placeable, the oldest first. -/
def State.candidates (s : State) : List (Launch × Unit' × State) :=
  s.launches.filterMap fun l => (s.placeable l).map fun x => (l, x.1, x.2)

def State.quantum (s : State) (q : Nat) : Int := max 1 (fld (s.qptr q) 23 0)

/-- Rounds of 64 quanta that a queue needs to be above zero. -/
def State.rounds (s : State) (q : Nat) : Nat := ((-(qdef s q)) / (64 * s.quantum q)).toNat + 1

/-- A queue's DEF after n rounds. -/
def State.gain (s : State) (n : Nat) (q : Nat) : State :=
  s.setDef q (min (256 * s.quantum q) (qdef s q + 64 * s.quantum q * n))

/-- Queues with nothing placeable lose a positive DEF. -/
def State.dropDefs (s : State) (qs : List Nat) : State :=
  (List.range 64).foldl (fun s q => if !qs.contains q && decide (0 < qdef s q) then s.setDef q 0 else s) s

/-- The queue served next: the eligible one that follows the queue served last. -/
def nextQueue (last : Nat) (qs : List Nat) : Option Nat :=
  ((List.range 64).map fun i => (last + 1 + i) % 64).find? fun q => qs.contains q

/-- What the distributor places next: its queue, its launch and its unit; and the state with the deficits brought up to the service. -/
def State.choose (s : State) : Option (Nat × Launch × Unit') × State :=
  let cs := s.candidates
  let s := s.dropDefs (cs.map fun c => c.1.queue)
  match (cs.map fun c => c.1.lr.prio).max? with
  | none => (none, s)
  | some p =>
    let here := cs.filter fun c => c.1.lr.prio == p
    let qs := dedup (here.map fun c => c.1.queue)
    let s := if qs.any fun q => decide (0 < qdef s q) then s
      else match (qs.map s.rounds).min? with
        | some n => qs.foldl (fun t q => t.gain n q) s
        | none => s
    match nextQueue s.rrQueue (qs.filter fun q => decide (0 < qdef s q)) with
    | none => (none, s)
    | some q => ((here.find? fun c => c.1.queue == q).map fun c => (q, c.1, c.2.1), s)

/-- A unit is served. -/
def State.serve (s : State) (q : Nat) (l : Launch) (u : Unit') : State :=
  match s.tryUnit l u with
  | some t => { t with rrQueue := q }
  | none => s

/-- A launch whose replay log cannot be followed is killed (R342). -/
def State.badReplay (s : State) : Option Launch := s.launches.find? fun l => l.places && s.logUnusable l

/-- WORKGROUP_PLACE: the distributor's next placement, where that is not a resumption. -/
def workgroupPlace (s : State) : State :=
  match s.badReplay with
  | some l => s.decideKill l.uid .replayLog
  | none =>
    match s.choose with
    | (some (_, _, .resume _), _) => s
    | (some (q, l, u), t) => t.serve q l u
    | (none, t) => t

def execWorkgroupPlace (s : State) : Host.Outcome State Fault Refusal := .next (workgroupPlace s)

/-- WORKGROUP_RESUME: the distributor's next placement, where that is the resumption of this workgroup. -/
def workgroupResume (u : Nat) (s : State) : State :=
  match s.choose with
  | (some (q, l, .resume ws), t) => if ws.contains u then t.serve q l (.resume ws) else s
  | _ => s

def execWorkgroupResume (wg : Nat) (s : State) : Host.Outcome State Fault Refusal := .next (workgroupResume wg s)

/-! ## Pre-emption by the command processor (R340) -/

/-- Since when a unit waits. -/
def State.waitingSince (s : State) (l : Launch) : Unit' → Nat
  | .resume ws => ((ws.filterMap s.wg?).map Workgroup.placedAt).foldl max 0
  | _ => l.activatedAt

/-- A workgroup of a priority, of a queue that may pre-empt, has waited 65,536 cycles and cannot be placed. -/
def State.starved (s : State) (prio : Nat) : Bool :=
  s.launches.any fun l => l.places && l.lr.prio == prio && (s.qctl l.queue).getLsbD 61 && (s.placeable l).isNone
    && (s.units l).any fun u => decide (s.waitingSince l u + 65536 ≤ s.cycle)

/-- Resident workgroups below a priority that may be pre-empted, with their priority. -/
def State.victims (s : State) (prio : Nat) : List (Nat × Workgroup) :=
  s.wgs.filterMap fun w =>
    match s.launch? w.launch with
    | some l => if w.resident && l.places && decide (l.lr.prio < prio) && l.lr.rply != 2 then some (l.lr.prio, w) else none
    | none => none

/-- The most recently placed of the lowest priority. -/
def victim (vs : List (Nat × Workgroup)) : Option Workgroup :=
  (vs.foldl (fun best v =>
    match best with
    | none => some v
    | some b =>
      if v.1 < b.1 || (v.1 == b.1 && (b.2.placedAt < v.2.placedAt || (b.2.placedAt == v.2.placedAt && b.2.uid < v.2.uid))) then some v
      else some b) none).map Prod.snd

/-- PREEMPT_TIMER_EXPIRY: one workgroup is pre-empted, while none is being. -/
def preemptTimer (prio : Nat) (s : State) : State :=
  if s.wgs.any Workgroup.preempting || !s.starved prio then s
  else
    match victim (s.victims prio) with
    | some w => s.startPreempt w false
    | none => s

def execPreemptTimerExpiry (prio : Nat) (s : State) : Host.Outcome State Fault Refusal := .next (preemptTimer prio s)

end Sys2Proof.Machine
end

