-- ==== Sys2Proof/Machine/Kill.lean ====
section
/-! DEFINITION. Completion (R343), kills (R375 to R377), write sets, restores and replays (R379 to R381), redundant runs (R382 to R384). -/

namespace Sys2Proof.Machine

/-! ## Completion (R343) -/

/-- A norm partial of a launch that this device has sent, or is about to: its step has reached the step-closed point here. One whose step never
does is not waited for (DEDUCED, log 34). -/
def State.normDue (s : State) (l : Launch) (n : Norm) : Bool :=
  n.lid == l.lr.lid.toNat && !n.closed && (n.sent ||
    match l.pg, l.group? n.pgrp with
    | some t, some g => s.atClosedPoint l t g n.pgrp n.step
    | _, _ => false)

/-- An owner, closer or publication duty that the device holds for a launch (R418). -/
def State.duty (s : State) (l : Launch) : Bool :=
  let lid := l.lr.lid.toNat
  s.pubs.any (fun p => p.launch == l.uid) ||
    (l.pg.isSome && (s.reductions.any (fun r => r.key.lid == lid) || s.scalars.any (fun x => x.lid == lid && !x.closed)
      || s.norms.any fun n => s.normDue l n))

/-- Every workgroup has exited and every operation has ended. -/
def State.allEnded (s : State) (l : Launch) : Bool :=
  !s.pending l && s.wgs.all (fun w => w.launch != l.uid || w.exited) && s.ops.all (fun o => o.launch != l.uid) && !s.duty l

/-- LAUNCH_COMPLETE: the stamp and the record are written; redundant runs are compared first (R383). -/
def launchComplete (u : Nat) (s : State) : State :=
  match s.launch? u with
  | none => s
  | some l => if l.places && l.lr.redn != 1 && s.allEnded l then s.complete u 0 else s

def execLaunchComplete (launch : Nat) (s : State) : Host.Outcome State Fault Refusal := .next (launchComplete launch s)

/-! ## Kills (R375 to R377) -/

/-- The bit of FSUM that a fault sets. -/
def KillCause.bit : KillCause → Option Nat
  | .matrixSilent => some 2
  | .memUncorrectable => some 3
  | .integrity => some 4
  | .trap _ _ => some 6
  | .save => some 9
  | _ => none

def KillCause.replayable : KillCause → Bool
  | .matrixSilent => true
  | .memUncorrectable => true
  | .trap _ r => r
  | _ => false

def KillCause.status : KillCause → Byte
  | .replayLog => 0x06
  | .cancelled => 0x0B
  | _ => 0x08

/-- A fault joins FSUM; the code of the first trap is kept. -/
def Launch.addCause (l : Launch) (c : KillCause) : Launch :=
  { l with
    killed := l.killed + 1
    fsum := match KillCause.bit c with | some k => l.fsum ||| (1#16 <<< k) | none => l.fsum
    trapCode := match c with | .trap code _ => if l.trapCode = 0 then code else l.trapCode | _ => l.trapCode }

/-- A kill joins one under way: a fault changes neither the decision to replay nor its outcome (R376), and a cancelled launch completes
as one (R330). -/
def Launch.killMore (l : Launch) (c : KillCause) : Launch :=
  let l := l.addCause c
  if c = .cancelled then { l with status := KillCause.status c, replayable := false } else l

/-- The snapshot that a fault triggers (R387). -/
def State.faultSnap (s : State) (u : Nat) (c : KillCause) : State :=
  match KillCause.snapClass c with
  | some k => s.snapshot (.fault k) (s.lidOf u) (s.queueOf u)
  | none => s

/-- LAUNCH_KILL: the kills decided are entered in their order; the first stops every band and abandons the publications (R65, R376). -/
def launchKill (u : Nat) (c : KillCause) (s : State) : State :=
  match s.launch? u with
  | none => s
  | some l =>
    if l.kills[l.killed]? != some c then s
    else if l.phase == .killing then (s.setLaunch (l.killMore c)).faultSnap u c
    else
      let s := s.setLaunch { l.addCause c with phase := .killing, status := KillCause.status c, replayable := KillCause.replayable c }
      let s : State := { s with bands := s.bands.map fun b => if b.launch == u then { b with stopping := true } else b }
      (s.abandonPubs u).faultSnap u c

def execLaunchKill (launch : Nat) (cause : KillCause) (s : State) : Host.Outcome State Fault Refusal := .next (launchKill launch cause s)

/-- What is left of an engine operation waits for windows of a pre-empted workgroup, which a kill does not bring back. -/
def State.opAway (s : State) (o : Op) : Bool :=
  let gone := fun (windows : Bool) => match s.wg? o.wg with | some w => !w.serves windows | none => false
  match o.kind with
  | .engine (.copy _ _ (some p)) _ => gone (p.moves.any Move'.isLocal)
  | .engine (.stash ws _ _ _) _ => gone (ws.any fun x => x.1 == 2)
  | .engine (.copym _ rs _ _ _) _ => rs.any fun r => !r.acked && s.receiverAway o.launch r
  | _ => false

/-- A multicast that could be sent once the locks of other operations clear: nothing that its stopped bands would have to do is missing. -/
def State.copymOpen (s : State) (o : Op) : Bool := (copymSend o.uid true { s with locks := [] }).op? o.uid != some o

/-- What a killed launch waits for: stores, MMAs, engine and Flume operations. A copy or multicast that its stopped bands keep from
starting is abandoned (DEDUCED, log 21), and a load has nothing left to do. -/
def State.opHolds (s : State) (o : Op) : Bool :=
  match o.kind with
  | .store x => x.atoms.any fun a => !a.done && s.kindOf a.pa != .aperture
  | .atomic _ x _ _ _ => x.undone
  | .stm _ _ _ => true
  | .engine (.copy n sls none) _ => match s.wg? o.wg with | some w => s.copyReady w n sls | none => false
  | .engine (.copym _ _ none _ _) _ => s.copymOpen o
  | .engine _ _ => !s.opAway o
  | .mma .. | .crs .. | .cscal .. | .cag .. => true
  | _ => false

def State.killReady (s : State) (l : Launch) : Bool :=
  l.phase == .killing && l.killed == l.kills.length
    && s.bands.all (fun b => b.launch != l.uid || b.stopped true)
    && s.ops.all (fun o => o.launch != l.uid || !s.opHolds o) && !s.duty l

/-! ## Restores and replays (R380, R381) -/

/-- Granules whose copy a restore puts back; a redundant run's shadows are no copies of what was there (DEDUCED, log 21). -/
def Launch.saved (l : Launch) : List (Nat × Nat) :=
  if l.lr.redn = 1 then [] else l.granules.filterMap fun g => g.frame.map fun j => (g.pa, j)

/-- R380. -/
def State.restore (s : State) (l : Launch) : State :=
  (l.saved.foldl (fun s g => s.copyPage (l.poolBase + 4096 * g.2) g.1) s).sumBit l.uid 7

/-- R381, but for `RELMODE.HRPLY`. -/
def Launch.canRestore (l : Launch) : Bool :=
  l.replayable && l.status == 0x08 && l.lr.wset != 0 && !l.fsum.getLsbD 8 && decide (l.replays < 2)

/-- The launch as its record is dispatched again: the write set is armed afresh. -/
def Launch.again (l : Launch) (cycle : Nat) : Launch :=
  { l with
    phase := .active, activatedAt := cycle, status := 0, replayable := true, replays := l.replays + 1
    placed := [], tplPlaced := [], barren := [], ctxUsed := [], tplTime := [], logn := 0, order := []
    granules := armAll (dedup (l.granules.map Granule.pa)) (if l.lr.redn = 1 then 2 else 1), poolNext := 0
    runs := if l.lr.redn = 1 then 2 else 1, runCores := [], crsDone := [], kills := [], killed := 0, assisted := none }

/-- R377, step 3: tokens, slots, windows, registers, monitors, entries and context indices are free. -/
def State.clearLaunch (s : State) (l : Launch) : State :=
  let ws := s.wgs.filter fun w => w.launch == l.uid && w.resident
  let s := ws.foldl (fun s w =>
    if w.exited then s else (s.freeTokensOf w.core w.slot).chargeWg w (s.heldTime w)) s
  let bs := (s.bands.filter fun b => b.launch == l.uid) ++ (s.wgs.filter fun w => w.launch == l.uid).flatMap Workgroup.saved
  let s := bs.foldl (fun s b => s.dropHolder b.uid) s
  let mine := fun (u : Nat) => s.ops.any (fun o => o.uid == u && o.launch == l.uid) || s.inbound.any fun x => x.uid == u && x.launch == l.uid
  { s with
    locks := s.locks.filter fun k => match k.op with | some u => !mine u | none => true
    bands := s.bands.filter fun b => b.launch != l.uid
    wgs := s.wgs.filter fun w => w.launch != l.uid
    images := s.images.filter fun i => i.launch != l.uid
    ops := s.ops.filter fun o => o.launch != l.uid
    inbound := s.inbound.filter fun x => x.launch != l.uid
    launches := s.launches.map fun x =>
      if x.uid == l.uid then { x with ctxUsed := [], wgRun := x.wgRun + (ws.filter fun w => w.stamped && !w.exited).length } else x }

/-- The launch runs again: its stepping group starts afresh, and its watch slots are free. -/
def State.replay (s : State) (l : Launch) : State :=
  let l := l.again s.cycle
  let s : State := { s with weir := s.weir.filter (fun w => l.pg.isNone || w.lid != l.lr.lid.toNat), watches := s.watches.filter fun w => w.launch != l.uid }
  (s.setLaunch l).weirStart l

/-- The index of the lowest bit of FSUM that is set. -/
def lowestFault (w : W16) : Nat := ((List.range 16).find? fun i => w.getLsbD i).getD 0

/-- LAUNCH_KILL_COMPLETE: what the launch holds is released, it is restored where R381 allows, and replayed or completed. -/
def launchKillComplete (u : Nat) (s : State) : State :=
  match s.launch? u with
  | none => s
  | some l =>
    if !s.killReady l then s
    else
      let s := s.clearLaunch l
      if l.canRestore then
        let s := s.restore l
        match s.launch? u with
        | none => s
        | some l =>
          if l.assisted = some true then
            let detail : Nat := l.saved.length + lowestFault l.fsum * 2 ^ 32
            (s.post (s.eventFor 0x62 u detail)).complete u 0x08
          else s.replay l
      else s.complete u (if l.status == 0x08 && decide (2 ≤ l.replays) then 0x09 else l.status)

def execLaunchKillComplete (launch : Nat) (s : State) : Host.Outcome State Fault Refusal := .next (launchKillComplete launch s)

/-! ## Copies of granules (R379) -/

/-- A write of a run to a granule waits to be performed. -/
def State.granuleWanted (s : State) (u run pa : Nat) : Bool :=
  s.ops.any fun o => o.launch == u && o.run == run && match o.kind with
    | .store x | .atomic _ x _ _ _ => x.atoms.any fun a => !a.done && granuleOf a.pa == pa
    | .engine (.copy _ _ (some p)) _ => p.moves.any fun m => match m.dst with
      | .mem ps => ps.any fun q => decide (q.1 < pa + 4096) && decide (pa < q.1 + q.2)
      | _ => false
    | _ => false

/-- WRITESET_GRANULE_COPY: the copy of an armed granule that a write waits for is complete. A write that is performed with its granule
still armed makes the copy in the same step. -/
def granuleCopy (u pa : Nat) (s : State) : State :=
  match s.launch? u with
  | none => s
  | some l =>
    match l.granules.find? fun g => g.pa == pa && g.armed && s.granuleWanted u g.run pa with
    | some g => s.armWrite u g.run pa
    | none => s

def execWritesetGranuleCopy (launch granule : Nat) (s : State) : Host.Outcome State Fault Refusal := .next (granuleCopy launch granule s)

/-! ## Redundant runs (R383, R384) -/

/-- The image of a granule in a run. -/
def State.runImage (s : State) (l : Launch) (run pa : Nat) : Nat :=
  match l.granule? run pa with
  | some g => match g.frame with
    | some j => s.look (l.poolBase + 4096 * j) 4096
    | none => s.look pa 4096
  | none => s.look pa 4096

/-- Two runs agree in every granule that either wrote. -/
def State.runsAgree (s : State) (l : Launch) (a b : Nat) : Bool :=
  (dedup ((l.granules.filter fun g => g.frame.isSome && (g.run == a || g.run == b)).map Granule.pa)).all fun pa =>
    s.runImage l a pa == s.runImage l b pa

/-- A run's shadows written to memory. -/
def State.writeShadows (s : State) (l : Launch) (run : Nat) : State :=
  l.granules.foldl (fun s g =>
    if g.run = run then (match g.frame with | some j => s.copyPage (l.poolBase + 4096 * j) g.pa | none => s) else s) s

/-- R384: a core is placed on probation for a launch's divergence. -/
def State.probation (s : State) (u core : Nat) : State :=
  let k := 0x840 + core / 60
  (s.setNum k (s.num k ||| (1#64 <<< (core % 60)))).post (s.eventFor 0x64 u core)

/-- REDUNDANT_COMPARE: all runs placed so far have ended. -/
def redundantCompare (u : Nat) (s : State) : State :=
  match s.launch? u with
  | none => s
  | some l =>
    if !l.places || l.lr.redn != 1 || !s.allEnded l then s
    else if l.runs = 2 then
      if s.runsAgree l 0 1 then (s.writeShadows l 0).complete u 0
      else s.setLaunch { l with runs := 3, granules := l.granules ++ (dedup (l.granules.map Granule.pa)).map fun pa => ⟨pa, 2, true, none⟩ }
    else if s.runsAgree l 2 0 then (s.writeShadows l 0).complete u 0
    else if s.runsAgree l 2 1 then (s.writeShadows l 1).complete u 0
    else ((dedup (l.runCores.map Prod.fst)).foldl (fun s c => s.probation u c) s).complete u 0x0A

def execRedundantCompare (launch : Nat) (s : State) : Host.Outcome State Fault Refusal := .next (redundantCompare launch s)

end Sys2Proof.Machine
end

