-- ==== Sys2Proof/Machine/Host.lean ====
section
/-! DEFINITION. The host's side: commands (R400, R401), requests through BAR0 and BAR2 (R394, R395), reset and bring-up (R406),
attestation (R407), temperature and power (R409). -/

namespace Sys2Proof.Machine

/-! ## Host commands -/

def resDone : Nat := 0
def resNone : Nat := 1
def resState : Nat := 2
def resMalformed : Nat := 3

/-- R401: the command ends: RES is written, BUSY cleared, and vector 3 raised. -/
def State.endCommand (s : State) (res : Nat) : State :=
  ({ s with hcmd := none }.setReg 0x3010 (BitVec.ofNat 64 res)).interrupt 3

/-- A command of an operation code is being performed. -/
def whenCommand (op : Nat) (body : State → State × Nat) (s : State) : State :=
  if s.hcmd = some op then
    let (t, res) := body s
    t.endCommand res
  else s

def State.cmdLid (s : State) : Nat := fld (s.reg 0x3000) 63 32
def State.cmdQueue (s : State) : Nat := fld (s.reg 0x3000) 21 16

/-- The band that PLACE names; a core number above 59 names none. -/
def State.cmdBand (s : State) : Option Band :=
  let n := fld (s.reg 0x3000) 13 0
  if 60 ≤ n / 64 % 64 then none else s.bandAt (placeOfBits n)

/-- R330: a launch that has been read is refused while it waits, and killed once it is active. -/
def State.cancel (s : State) (l : Launch) : State := if l.isActive then s.decideKill l.uid .cancelled else s.refuse l 0x0B

/-- The launches of a queue that have been read, and the indices of its records that have not. -/
def State.readOf (s : State) (q : Nat) : List Launch := s.launches.filter fun l => l.queue == q

def State.unreadOf (s : State) (q : Nat) : List Nat :=
  let skip := if (s.readOf q).any fun l => !l.isActive then 1 else 0
  let n := (s.qtail q + 2 ^ 16 - s.qhead q) % 2 ^ 16
  ((List.range n).drop skip).map fun i => (s.qhead q + i) % 2 ^ 16

def State.recordLid (s : State) (q i : Nat) : Nat :=
  (parseRec ((List.range 256).map (byteOf (s.physRead (s.slotOf q i) 256 (s.queueWorld q))))).lid.toNat

/-- What reading a queue's records in order, up to the one of an identifier, leaves (R51). -/
def State.touchRecords (s : State) (q lid : Nat) : List Nat → State
  | [] => s
  | i :: is =>
    let t := s.physTouch (s.slotOf q i) 256 (s.queueWorld q)
    if s.recordLid q i == lid then t else State.touchRecords t q lid is

def State.cancelUnread (s : State) (q : Nat) (is : List Nat) : State :=
  { s with cancels := s.cancels ++ ((is.map fun i => (q, i)).filter fun x => !s.cancels.contains x) }

def cancelLaunch (s : State) : State × Nat :=
  let q := s.cmdQueue
  match (s.readOf q).find? fun l => l.lr.lid.toNat == s.cmdLid with
  | some l => (s.cancel l, resDone)
  | none =>
    let t := s.touchRecords q s.cmdLid (s.unreadOf q)
    match (s.unreadOf q).find? fun i => s.recordLid q i == s.cmdLid with
    | some i => (t.cancelUnread q [i], resDone)
    | none => (t, resNone)

def execHcmdCancelLaunch (s : State) : Host.Outcome State Fault Refusal := .next (whenCommand 1 cancelLaunch s)

/-- OP 2: in index order, the launches that have been read before the records that have not. -/
def cancelQueue (s : State) : State × Nat :=
  let q := s.cmdQueue
  let is := s.unreadOf q
  (((s.readOf q).foldl State.cancel s).cancelUnread q is, resDone)

def execHcmdCancelQueue (s : State) : Host.Outcome State Fault Refusal := .next (whenCommand 2 cancelQueue s)

/-- OP 3: every resident workgroup of the launch is pre-empted; under RPLY = 2 each keeps its place (R340). -/
def preemptLaunch (s : State) : State × Nat :=
  match s.launches.find? fun l => l.lr.lid.toNat == s.cmdLid && l.isActive with
  | none => (s, resNone)
  | some l =>
    ((s.wgs.filter fun w => w.launch == l.uid && w.resident && !w.exited && !w.preempting).foldl
      (fun s w => s.startPreempt w (l.lr.rply == 2)) s, resDone)

def execHcmdPreemptLaunch (s : State) : Host.Outcome State Fault Refusal := .next (whenCommand 3 preemptLaunch s)

/-- A command on the band that PLACE names, which must be in a state. -/
def onBand (ok : Band → Bool) (act : Band → State → State) (s : State) : State × Nat :=
  match s.cmdBand with
  | none => (s, resState)
  | some b => if ok b then (act b s, resDone) else (s, resState)

/-- OP 4: the band goes on at the header after HALT's clause. -/
def execHcmdResumeHalted (s : State) : Host.Outcome State Fault Refusal :=
  .next (whenCommand 4 (onBand Band.halted fun b s => s.setBand { b with halted := false, held := false }) s)

/-- OP 5: the launch of a halted or suspended band is killed, with status 0x08. -/
def execHcmdKillLaunch (s : State) : Host.Outcome State Fault Refusal :=
  .next (whenCommand 5 (onBand (fun b => b.halted || b.suspended) fun b s => s.decideKill b.launch .host) s)

/-- OP 6: the word is executed again; a window fault's transfer is retried first (R157). -/
def Band.unsuspend (b : Band) (t : Trap) : Band :=
  let c : Band := { b with trap := none, suspended := false, held := false }
  if t.code.toNat = tWinFault then c.restartTailrace else c

def execHcmdResumeSuspended (s : State) : Host.Outcome State Fault Refusal :=
  .next (whenCommand 6 (onBand Band.suspended fun b s => match b.trap with | some t => s.setBand (b.unsuspend t) | none => s) s)

/-- OP 7: the trap is delivered (R371); no handler is entered while the launch is being killed (R376). -/
def execHcmdDeliverTrap (s : State) : Host.Outcome State Fault Refusal :=
  .next (whenCommand 7 (onBand Band.suspended fun b s =>
    match b.trap with
    | some t =>
      let c := { b with suspended := false }
      if s.beingKilled b.launch then (s.setBand { c with trap := none }).deliverInKill { c with trap := none } t else s.enterTrap c t
    | none => s) s)

/-- OP 0 and 8 to 15, and a field that must be zero and is not. -/
def execHcmdMalformed (s : State) : Host.Outcome State Fault Refusal :=
  .next (match s.hcmd with
    | some op => if op = 0 ∨ 8 ≤ op then whenCommand op (fun s => (s, resMalformed)) s else s
    | none => s)

/-! ## Requests through BAR0 and BAR2 (R394, R395) -/

/-- R160: the aperture serves units of 4 or 8 bytes of a non-secure band that does not migrate; for others the request is not
supported, and no write is made (PRESUMED, log 24). One that its band cannot take now waits. -/
def State.outsideAperture (s : State) (a : PcieAccess) (pa : Nat) : State :=
  let served := (a.size == 4 || a.size == 8) && pa % a.size == 0 && !s.apEmpty pa && match s.apBand pa with
    | some b => !(s.bandCtx b).world
    | none => false
  match a.kind with
  | .write => if served && s.apOpen pa true then s.apWrite pa ((List.range a.size).map (byteOf a.data)) else s
  | .read => if !served then s.send (.pcieData none) else if s.apOpen pa false then s.send (.pcieData (some (s.apRead pa a.size))) else s
  | _ => s.send (.pcieData none)

/-- A request on the device-register range: an atomic one reads the registers and writes them (PRESUMED, log 24). -/
def State.outsideDevice (s : State) (a : PcieAccess) : State :=
  let old := s.devRead a.off a.size false
  let put := fun (s : State) (x : Nat) => s.devStore ((List.range a.size).map fun i => (a.off + i, byteOf x i)) false
  match a.kind with
  | .write => put s a.data
  | .read => s.send (.pcieData (some old))
  | k =>
    if !PcieKind.atomicForm k a.size a.off then s.send (.pcieData none)
    else (match PcieKind.newValue k a.size a.data old with | some x => put s x | none => s).send (.pcieData (some old))

/-- A byte of configuration space as it reads: the BAR registers from offset 0x10 on, and free bytes of registers that the spec does not
give (PRESUMED, log 24). -/
def State.configByte (s : State) (off : Nat) : Byte :=
  if 0x10 ≤ off ∧ off < 0x28 then byteOf (s.barReg ((off - 0x10) / 4)).toNat (off % 4) else Config.freeByte (s.freeCtr + off)

/-- Bytes written to configuration space: those of BAR registers take effect. -/
def State.configWrite (s : State) (cells : List (Nat × Byte)) : State :=
  (List.range 6).foldl (fun s k =>
    let mine := cells.filter fun c => decide (0x10 + 4 * k ≤ c.1) && decide (c.1 < 0x14 + 4 * k)
    s.writeBar k (mine.foldl (fun v c => v ||| ((c.2.setWidth 32 : W32) <<< (8 * (c.1 % 4)))) 0)
      (mine.foldl (fun v c => v ||| ((0xFF : W32) <<< (8 * (c.1 % 4)))) 0)) s

/-- PCIE_INBOUND_ACCESS: BAR0 is the device-register range, privileged and non-secure; BAR2 lies on HWIN.BASE; BAR4 is the storage window
(R395, R396). -/
def pcieAccess (a : PcieAccess) (s : State) : State :=
  let answer := fun (s : State) => match a.kind with | .write => s | _ => s.send (.pcieData none)
  if a.size = 0 then s
  else
    match a.space with
    | .bar0 => if 2 ^ 32 < a.off + a.size then s else s.outsideDevice a
    | .bar4 => if 2 ^ 35 < a.off + a.size then s else windowAccess a.kind a.off a.size a.data s
    | .config =>
      if 4096 < a.off + a.size then s
      else
        match a.kind with
        | .read => (s.tick 1).send (.pcieData (some (leNat ((List.range a.size).map fun i => s.configByte (a.off + i)))))
        | .write => s.configWrite ((List.range a.size).map fun i => (a.off + i, byteOf a.data i))
        | _ => answer s
    | .bar2 =>
      if 2 ^ 36 < a.off + a.size then s
      else
        let pa := fld (s.num 0x2010) 51 36 * 2 ^ 36 + a.off
        let pas := (List.range a.size).map fun i => pa + i
        if pas.all fun p => s.kindOf p == .ram then s.outsideRam a.kind a.size a.data pas
        else if pas.all fun p => s.kindOf p == .aperture then s.outsideAperture a pa
        else answer s

def execPcieInboundAccess (acc : PcieAccess) (s : State) : Host.Outcome State Fault Refusal := .next (pcieAccess acc s)

/-! ## Reset and bring-up (R406) -/

def bootstat : Nat := 0x2000
def State.bootState (s : State) : Nat := fld (s.num bootstat) 63 62

/-- The image is verified: Flaell starts, or the boot ROM stops with the failing check. -/
def State.verifyImage (s : State) (c : ImageCheck) : State :=
  match c with
  | .valid fver => s.setNum bootstat ((1#64 <<< 62) ||| fver.setWidth 64)
  | .invalid code => s.setNum bootstat ((3#64 <<< 62) ||| (code.setWidth 64 <<< 32))

/-- RESET: the machine is as after reset, and the boot ROM reads the flash; with no valid image there it asks for one by vector 2.
What has been sent, the model's counters and what is yet to move stay (DESIGN CHOICE, log 17). -/
def reset (flash : Option ImageCheck) (s : State) : State :=
  let t : State := { State.reset with sent := s.sent, keyGen := s.keyGen + 1, nextUid := s.nextUid, freeCtr := s.freeCtr, agenda := s.agenda }
  match flash with
  | some c => t.verifyImage c
  | none => t.interrupt 2

def execReset (flash : Option ImageCheck) (s : State) : Host.Outcome State Fault Refusal := .next (reset flash s)

/-- BOOT_MAILBOX_IMAGE: the boot ROM, while it runs, takes an image from the mailbox. -/
def execBootMailboxImage (check : ImageCheck) (s : State) : Host.Outcome State Fault Refusal :=
  .next (if s.bootState = 0 then s.verifyImage check else s)

def setNums (base : Nat) (ws : List W64) (s : State) : State := ws.zipIdx.foldl (fun s (w, k) => s.setNum (base + k) w) s

/-- Flaell's steps: capabilities, secure regions, worlds, MAN, and STATE. -/
def bringup (r : Bringup) (s : State) : State :=
  let fver := fld (s.num bootstat) 31 0
  if s.bootState ≠ 1 then s
  else if !r.trained then s.setNum bootstat (BitVec.ofNat 64 (3 * 2 ^ 62 + 6 * 2 ^ 32 + fver))
  else
    let s := setNums 0x2001 [r.capcore, r.capmem, r.caplink] s
    let s := setNums 0x2005 (r.caphbm.take 6) s
    let s := setNums 0x8C0 (r.worlds.take 4) s
    let s := setNums 0x40 (r.seclim.take 64) (setNums 0 (r.secbase.take 64) s)
    let s := (List.range 240).foldl (fun s c => s.setNum (0x1001 + 2 * c) (s.num (0x1001 + 2 * c) &&& ~~~ (1#64 <<< 63))) s
    s.setNum bootstat (BitVec.ofNat 64 (2 * 2 ^ 62 + fver))

def execBringupComplete (r : Bringup) (s : State) : Host.Outcome State Fault Refusal := .next (bringup r s)

/-! ## Attestation (R407) -/

def natBytes (n x : Nat) : List (BitVec 8) := (List.range n).map (byteOf x)

/-- ATTESTATION_REQUEST: the host writes the nonce at mailbox offset 0 and the word 1 at 0xFFF8. -/
def execAttestationRequest (nonce : BitVec 384) (s : State) : Host.Outcome State Fault Refusal :=
  .next (s.writeMailbox ((natBytes 48 nonce.toNat).zipIdx.map (fun (x, i) => (0x30000 + i, x))
    ++ (natBytes 8 1).zipIdx.map fun (x, i) => (0x3FFF8 + i, x)))

/-- What the report digests, in the order SECBASE0 to SECLIM63 by number, CWRLD0 to CWRLD3, rollback counter (log 14). -/
def State.digested (s : State) : List Byte :=
  ((List.range 0x80).flatMap fun k => natBytes 8 (s.num k).toNat) ++ ((List.range 4).flatMap fun k => natBytes 8 (s.num (0x8C0 + k)).toNat)
    ++ Config.rollback 0

/-- A number of 1 to n - 1 from one drawn, n the order of the base point. -/
def scalarOf (x : BitVec 384) : Nat := 1 + x.toNat % (p384Order - 1)

/-- The identity public key. -/
def identityKey : Nat × Nat := baseMul (scalarOf (Config.identityPrivate 0))

/-- Bytes 0 to 303 of a report. -/
def State.reportBody (s : State) (nonce : BitVec 384) : List Byte :=
  natBytes 16 (Config.serial 0).toNat ++ natBytes 48 nonce.toNat ++ sha384 (Config.bootRom 0)
    ++ sha384 (Config.flaellImage ((s.num bootstat).setWidth 32)) ++ sha384 s.digested
    ++ natBytes 48 identityKey.1 ++ natBytes 48 identityKey.2

/-- The signature r, s of a report's body, at the counter. -/
def State.reportSign (s : State) (body : List Byte) : List Byte :=
  let x := ecdsaSign (scalarOf (Config.identityPrivate 0)) (scalarOf (Config.signNonce s.freeCtr)) body
  natBytes 48 x.1 ++ natBytes 48 x.2

/-- ATTESTATION_REPORT: Flaell writes the signed report into the mailbox, from its first byte on, and raises vector 2. -/
def attestReport (s : State) : State :=
  match s.attest with
  | .idle => s
  | .pending nonce =>
    let body := s.reportBody nonce
    ({ s with mailbox := Mem.writeBytes s.mailbox 0 (body ++ s.reportSign body), attest := .idle }.tick 1).interrupt 2

def execAttestationReport (s : State) : Host.Outcome State Fault Refusal := .next (attestReport s)

/-! ## Temperature and power (R409) -/

def thermalState (tj : Nat) : Nat := if tj < 95 then 0 else if tj < 105 then 1 else if tj < 110 then 2 else 3

/-- TJ and TSTATE; state 3 raises vector 1, and the board controller removes power. -/
def State.setTj (s : State) (tj : Nat) : State :=
  let old := fld (s.num 0x2021) 25 24
  let new := thermalState tj
  let s := s.setNum 0x2021 (setFld (setFld (s.num 0x2021) 41 34 tj) 25 24 new)
  if new = 3 ∧ old ≠ 3 then (s.interrupt 1).send .powerOff else s

def execThermalStateChange (tj : BitVec 8) (s : State) : Host.Outcome State Fault Refusal := .next (s.setTj tj.toNat)

def execPowerTelemetryUpdate (pwr : BitVec 12) (thr : BitVec 10) (tj : BitVec 8) (tin : BitVec 8) (s : State) :
    Host.Outcome State Fault Refusal :=
  .next ((s.setNum 0x2021 (setFld (setFld (setFld (s.num 0x2021) 63 52 pwr.toNat) 51 42 thr.toNat) 33 26 tin.toNat)).setTj tj.toNat)

end Sys2Proof.Machine
end

