-- ==== Sys2Proof/Machine/Matrix.lean ====
section
/-! DEFINITION. Matrix instructions (R245 to R263): the B stage, MMA and its execution, batches, and the moves into and out of C. -/

namespace Sys2Proof.Machine

/-! ## Formats (R246) -/

def mxE4M3 : Nat := 0
def mxE5M2 : Nat := 1
def mxE3M2 : Nat := 2
def mxE2M3 : Nat := 3
def mxF4S : Nat := 4
def mxBF16 : Nat := 5
def mxF16 : Nat := 6
def mxI8 : Nat := 7
def mxE2M1 : Nat := 8

/-- Bits that an element takes in its container. -/
def mxBits (f : Nat) : Nat :=
  if f = mxF4S ∨ f = mxE2M1 then 4 else if f = mxBF16 ∨ f = mxF16 then 16 else 8

/-- Registers of a quarter of B: 64 rows of one column in a lane. -/
def mxRegs (f : Nat) : Nat := 64 * mxBits f / 32

/-- Whether block scales apply, and whether their bytes come in pairs that t or SEL chooses among. -/
def mxScaled (f : Nat) : Bool := f != mxBF16 && f != mxF16 && f != mxI8
def mxPaired (f : Nat) : Bool := mxScaled f && f != mxF4S

/-- The code of R232 that reads an element of a scaled format. -/
def mxBlock (f : Nat) : Nat :=
  if f = mxE4M3 then 1 else if f = mxE5M2 then 0 else if f = mxE3M2 then 2 else if f = mxE2M3 then 3 else if f = mxF4S then 5 else 4

/-- R251: bytes of a row of A, and of the tile. -/
def mxRow (f : Nat) : Nat := 64 * mxBits f / 8
def mxTile (f : Nat) : Nat := 32 * mxRow f

/-- The value of an element (R252): its code in its container and the word of its scale bytes, for block `k / 32`. -/
def mxValue (f : Nat) (sel : Bool) (code : Nat) (scales : W32) (k : Nat) : Num :=
  let byte := fun (i : Nat) => scales.toNat / 256 ^ i % 256
  let blk := k / 32
  if f = mxBF16 then bf16.value code
  else if f = mxF16 then f16.value code
  else if f = mxI8 then ofInt (intOf true 8 code) 0 false
  else if f = mxF4S then blockValue 5 code (byte (2 * blk)) (byte (2 * blk + 1))
  else
    let code := if f = mxE3M2 ∨ f = mxE2M3 then code % 64 else code
    blockValue (mxBlock f) code (byte ((if sel then 2 else 0) + blk)) 0

/-- Element k of consecutive containers that a word function holds, 32 bits a word. -/
def mxCode (f : Nat) (word : Nat → Nat) (k : Nat) : Nat :=
  let per := 32 / mxBits f
  word (k / per) / 2 ^ (mxBits f * (k % per)) % 2 ^ mxBits f

/-! ## The B stage (R247, R248) -/

/-- An MMA in flight that is bound to a workgroup's generation. -/
def OpKind.boundTo (k : OpKind) (gen : Nat) : Bool :=
  match k with
  | .mma _ g _ _ _ _ _ _ _ _ => g.gen == gen
  | _ => false

/-- R248 step 1: quarters of another format go. -/
def BBuf.only (g : BBuf) (f : Nat) : BBuf := if g.fmt = f then g else { g with fmt := f, quarters := [] }

/-- R248 step 3. -/
def BBuf.latch (g : BBuf) (x : Quarter) : BBuf := { g with quarters := x :: g.quarters.filter fun y => y.q != x.q }

/-- R248 steps 3 and 4; `gen` numbers the generation that may become current. -/
def Workgroup.latch (w : Workgroup) (x : Quarter) (gen : Nat) : Workgroup :=
  let g := w.filling.latch x
  if g.quarters.length = 4 then
    { w with
      current := some { g with gen := gen }
      filling := match w.current with | some c => { c with quarters := [] } | none => ⟨0, 0, []⟩ }
  else { w with filling := g }

def execBlatch (vb : Opnd) (t : BitVec 1) (q : BitVec 2) (f : BitVec 4) (s : State) : Host.Outcome State Fault Refusal :=
  .next (issue (.blatch vb t q f) (fun b s => do
    need (decide (f.toNat ≤ 8))
    need (t == 0 || mxPaired f.toNat)
    let n := mxRegs f.toNat
    let v ← vNum vb
    need (decide (v + n ≤ 63))
    allLanes (← s.lanesOf b)
    let rs ← b.readBlock v n
    let sc ← if mxScaled f.toNat then b.readV 63 else .ok VReg.zero
    let w ← s.wgOf b
    let w := { w with filling := w.filling.only f.toNat }
    if s.ops.any fun o => o.wg == w.uid && o.kind.boundTo w.filling.gen then return .waiting (s.setWg w)
    return .next { s.setWg (w.latch ⟨q.toNat, rs, sc, t == 1⟩ s.nextUid) with nextUid := s.nextUid + 1 }) s)

/-! ## Batches (R256 to R258) -/

def next16 (n : Nat) : Nat := (n + 1) % 2 ^ 16

/-- The number that the open batch will have. -/
def Band.openBatch (b : Band) : Nat := next16 b.batch

/-- Closed batches that are not complete. -/
def Band.closedLeft (b : Band) : List Nat := (b.batchLeft.filter fun x => x.1 != b.openBatch).map Prod.fst

/-- The batches from the oldest on that are complete. -/
def Band.batchesDone (b : Band) : List Nat := (b.batchLeft.takeWhile fun x => x.2 == 0 && x.1 != b.openBatch).map Prod.fst

/-- Complete batches leave, and their locks clear. -/
def State.settleBatches (s : State) (u : Nat) : State :=
  match s.band? u with
  | none => s
  | some b =>
    let done := b.batchesDone
    let s := s.setBand { b with batchLeft := b.batchLeft.drop done.length }
    { s with
      locks := (s.locks.map fun l => { l with holders := l.holders.filter fun h => !(h.1 == u && done.contains h.2) }).filter fun l =>
        l.op.isSome || !l.holders.isEmpty }

/-- One more or one fewer incomplete MMA of a batch. -/
def Band.countMma (b : Band) (n : Nat) (up : Bool) : Band :=
  if b.batchLeft.any fun x => x.1 == n then
    { b with batchLeft := b.batchLeft.map fun x => if x.1 = n then (n, if up then x.2 + 1 else x.2 - 1) else x }
  else { b with batchLeft := b.batchLeft ++ [(n, if up then 1 else 0)] }

def Band.closeBatch (b : Band) : Band :=
  let n := b.openBatch
  { b with
    batch := n
    batchLeft := if b.batchLeft.any fun x => x.1 == n then b.batchLeft else b.batchLeft ++ [(n, 0)] }

def execMfence (d : Opnd) (s : State) : Host.Outcome State Fault Refusal :=
  .next (issue (.mfence d) (fun b s => do
    holdUnless (decide (b.closedLeft.length < 16))
    let t ← match d with
      | .zero => .ok s
      | d => s.scalarDst b d (BitVec.ofNat 64 b.openBatch)
    return .next ((t.modBand b.uid Band.closeBatch).settleBatches b.uid)) s)

def execMwait (a : Opnd) (s : State) : Host.Outcome State Fault Refusal :=
  .next (issue (.mwait a) (fun b s => do
    let n := (← s.scalarSrc b false a).toNat % 2 ^ 16
    let ahead := (n + 2 ^ 16 - b.batch) % 2 ^ 16
    if 1 ≤ ahead ∧ ahead < 2 ^ 15 then illegalState
    holdUnless (!b.closedLeft.contains n)
    return .next s) s)

/-! ## MMA (R250 to R254) -/

/-- A C tile's bytes, and R258's entry: MMAs of one range share it. -/
def tileBytes : Nat := 16384

def Lock.sameTile (l : Lock) (core slot c : Nat) : Bool :=
  l.core == core && l.op.isNone && l.space == .cb && l.slot == slot && l.lo == c && l.hi == c + tileBytes

def State.lockTile (s : State) (b : Band) (slot c : Nat) : Try State :=
  let core := b.place.core
  let h := (b.uid, b.openBatch)
  if s.locks.any fun l => l.sameTile core slot c then
    .ok { s with locks := s.locks.map fun l =>
            if l.sameTile core slot c && !l.holders.contains h then { l with holders := l.holders ++ [h] } else l }
  else do
    s.needLocks core 1
    return s.addLocks [⟨core, none, [h], true, .cb, 0, false, slot, c, c + tileBytes⟩]

/-- The MMAs of a quadrant's array, in issue order. -/
def State.arrayQueue (s : State) (core quad : Nat) : List Op :=
  s.ops.filter fun o => o.place.core == core && o.place.quad == quad && o.kind.isMma

/-- R263's checks in their order, then R252's binding, R254's queue and R258's lock. -/
def mmaBody (f : Nat) (cbs abs : Opnd) (sel zero lrc lra : BitVec 1) (b : Band) (s : State) : Try Fin' := do
  need (sel == 0 || mxPaired f)
  allLanes (← s.lanesOf b)
  let c := (← s.scalarSrc b false cbs).toNat
  let a := (← s.scalarSrc b false abs).toNat
  if c % 512 ≠ 0 then .error (.trap tMisalign 0 (BitVec.ofNat 64 c) 0)
  if a % 128 ≠ 0 then .error (.trap tMisalign 0 (BitVec.ofNat 64 a) 0)
  let w ← s.wgOf b
  need (decide (c + tileBytes ≤ s.spaceSize w .cb) && decide (a + mxTile f ≤ s.spaceSize w .ab))
  match w.current with
  | none => .error (.word tMatrixState)
  | some g => do
    if g.fmt ≠ f then .error (.word tMatrixState)
    let sa ← b.readV 62
    if 16 ≤ (s.arrayQueue b.place.core b.place.quad).length then .error (.wait .entry)
    let s ← s.lockTile b w.slot c
    let s := s.startEngine b (.mma b.openBatch g a c sa (sel == 1) (zero == 1) false [] [])
    let free := fun (bit : BitVec 1) (o : Opnd) (x : Band) => if bit == 1 then x.freeName o else x
    return .next (s.modBand b.uid fun x => free lra abs (free lrc cbs (x.countMma b.openBatch true)))

def execMmaE4m3 (cbs abs : Opnd) (sel zero lrc lra : BitVec 1) (s : State) : Host.Outcome State Fault Refusal :=
  .next (issue (.mmaE4m3 cbs abs sel zero lrc lra) (mmaBody mxE4M3 cbs abs sel zero lrc lra) s)
def execMmaE5m2 (cbs abs : Opnd) (sel zero lrc lra : BitVec 1) (s : State) : Host.Outcome State Fault Refusal :=
  .next (issue (.mmaE5m2 cbs abs sel zero lrc lra) (mmaBody mxE5M2 cbs abs sel zero lrc lra) s)
def execMmaE3m2 (cbs abs : Opnd) (sel zero lrc lra : BitVec 1) (s : State) : Host.Outcome State Fault Refusal :=
  .next (issue (.mmaE3m2 cbs abs sel zero lrc lra) (mmaBody mxE3M2 cbs abs sel zero lrc lra) s)
def execMmaE2m3 (cbs abs : Opnd) (sel zero lrc lra : BitVec 1) (s : State) : Host.Outcome State Fault Refusal :=
  .next (issue (.mmaE2m3 cbs abs sel zero lrc lra) (mmaBody mxE2M3 cbs abs sel zero lrc lra) s)
def execMmaF4s (cbs abs : Opnd) (sel zero lrc lra : BitVec 1) (s : State) : Host.Outcome State Fault Refusal :=
  .next (issue (.mmaF4s cbs abs sel zero lrc lra) (mmaBody mxF4S cbs abs sel zero lrc lra) s)
def execMmaBf16 (cbs abs : Opnd) (sel zero lrc lra : BitVec 1) (s : State) : Host.Outcome State Fault Refusal :=
  .next (issue (.mmaBf16 cbs abs sel zero lrc lra) (mmaBody mxBF16 cbs abs sel zero lrc lra) s)
def execMmaF16 (cbs abs : Opnd) (sel zero lrc lra : BitVec 1) (s : State) : Host.Outcome State Fault Refusal :=
  .next (issue (.mmaF16 cbs abs sel zero lrc lra) (mmaBody mxF16 cbs abs sel zero lrc lra) s)
def execMmaI8 (cbs abs : Opnd) (sel zero lrc lra : BitVec 1) (s : State) : Host.Outcome State Fault Refusal :=
  .next (issue (.mmaI8 cbs abs sel zero lrc lra) (mmaBody mxI8 cbs abs sel zero lrc lra) s)
def execMmaE2m1 (cbs abs : Opnd) (sel zero lrc lra : BitVec 1) (s : State) : Host.Outcome State Fault Refusal :=
  .next (issue (.mmaE2m1 cbs abs sel zero lrc lra) (mmaBody mxE2M1 cbs abs sel zero lrc lra) s)

/-! ## Execution (R252 to R255) -/

/-- A word of an A tile, of the bytes that the MMA has read and those that it reads now. -/
def State.aWord (s : State) (w : Workgroup) (a : Nat) (got : List (Nat × Byte)) (off : Nat) : Nat :=
  if got.isEmpty then s.readSpace w .ab (a + off) 4
  else leNat ((List.range 4).map fun j => match got.find? fun x => x.1 == off + j with
    | some x => x.2
    | none => byteOf (s.readSpace w .ab (a + off + j) 1) 0)

/-- aval(i, k). -/
def State.aval (s : State) (w : Workgroup) (f a : Nat) (sel : Bool) (scales : VReg) (got : List (Nat × Byte)) (i k : Nat) : Num :=
  mxValue f sel (mxCode f (fun j => s.aWord w a got (i * mxRow f + 4 * j)) k) (scales.lane i) k

/-- bval(k, j). -/
def BBuf.bval (g : BBuf) (k j : Nat) : Num :=
  match g.quarters.find? fun x => x.q == j / 32 with
  | some x => mxValue g.fmt x.sel (mxCode g.fmt (fun r => ((x.regs.getD r VReg.zero).lane (j % 32)).toNat) k) (x.scales.lane (j % 32)) k
  | none => .fin false 0 0

/-- old + Σ row × column, exact, with R253's special values and signs of zero. -/
def dotSum (old : Option Num) (row col : List Num) : Num :=
  let terms := (row.zip col).map fun x => (x.1.mul x.2).1
  match old.toList ++ terms with
  | [] => .fin false 0 0
  | t :: ts => ts.foldl (fun x y => (x.add 0 y).1) t

/-- The FP32 written: one rounding, without saturation or flushing. -/
def dotFp32 (old : Option Num) (row col : List Num) : Nat := (roundNum f32 rne false (dotSum old row col)).1

def allFinite (xs : List Num) : Bool := xs.all fun x => !x.isNan && !x.isInf

/-- R255: some row or some column holds finite terms only, so that a comparison is made. -/
def compared (rows cols : List (List Num)) : Bool :=
  (rows.all allFinite && cols.any allFinite) || (rows.any allFinite && cols.all allFinite)

/-- The MMA leaves its array, and its batch counts it no more. -/
def State.endMma (s : State) (o : Op) (batch : Nat) : State :=
  ((s.endOp o).modBand o.band fun b => b.countMma batch false).settleBatches o.band

/-- The rows of an A tile and the columns of a B generation. -/
def State.aRows (s : State) (w : Workgroup) (f a : Nat) (sel : Bool) (scales : VReg) (got : List (Nat × Byte)) : List (List Num) :=
  (List.range 32).map fun i => (List.range 64).map fun k => s.aval w f a sel scales got i k
def BBuf.cols (g : BBuf) : List (List Num) := (List.range 128).map fun j => (List.range 64).map fun k => g.bval k j

/-- Element j of row i of C as the MMA leaves it. -/
def State.cElem (s : State) (w : Workgroup) (c : Nat) (zero : Bool) (row col : List Num) (i j : Nat) : List Byte :=
  laneBytes 4 (dotFp32 (if zero then none else some (f32.value (s.readSpace w .cb (c + 512 * i + 4 * j) 4))) row col)

/-- The tile is computed, and what has not been written of it is written unless the comparison failed; a second failure is the matrix
silent-error fault. An MMA that has written elements has passed its comparison. -/
def mmaComplete (u : Nat) (again mismatch : Bool) (s : State) : State :=
  match s.op? u with
  | none => s
  | some o =>
    match o.kind, s.wg? o.wg with
    | .mma batch g a c scales sel zero rerun got put, some w =>
      if rerun != again || ((s.arrayQueue o.place.core o.place.quad).head?.map Op.uid) != some u then s
      else
        let rows := s.aRows w g.fmt a sel scales got
        if mismatch && put.isEmpty && compared rows g.cols then
          if again then (s.endMma o batch).decideKill o.launch .matrixSilent
          else s.setOp { o with kind := .mma batch g a c scales sel zero true [] [] }
        else
          let t := rows.zipIdx.foldl (fun (t : State) (r : List Num × Nat) =>
            if put.isEmpty then
              t.writeSpace w .cb (c + 512 * r.2) ((g.cols.zipIdx.map fun (col, j) => t.cElem w c zero r.1 col r.2 j).flatten)
            else
              g.cols.zipIdx.foldl (fun (t : State) (x : List Num × Nat) =>
                if put.contains (128 * r.2 + x.2) then t
                else t.writeSpace w .cb (c + 512 * r.2 + 4 * x.2) (t.cElem w c zero r.1 x.1 r.2 x.2)) t) s
          t.endMma o batch
    | _, _ => s

/-- A part of an MMA that executes (R254): `n` bytes of its A tile are read (`i` = 0), or `n` elements of C, each as one read and one
write, once all of the tile has been read. -/
def State.mmaPart (s : State) (u i lo n : Nat) : State :=
  match s.op? u with
  | none => s
  | some o =>
    match o.kind, s.wg? o.wg with
    | .mma batch g a c scales sel zero rerun got put, some w =>
      if ((s.arrayQueue o.place.core o.place.quad).head?.map Op.uid) != some u then s
      else
        let read := fun (lo n : Nat) => ((List.range n).map (· + lo)).filterMap fun k =>
          if decide (k < mxTile g.fmt) && !(got.any fun x => x.1 == k) then some (k, byteOf (s.readSpace w .ab (a + k) 1) 0) else none
        if i = 0 then s.setOp { o with kind := .mma batch g a c scales sel zero rerun (got ++ read lo n) put }
        else
          let got := got ++ read 0 (mxTile g.fmt)
          let rows := s.aRows w g.fmt a sel scales got
          let new := ((List.range n).map (· + lo)).filter fun e => decide (e < 4096) && !put.contains e
          let t := new.foldl (fun (t : State) e =>
            t.writeSpace w .cb (c + 512 * (e / 128) + 4 * (e % 128)) (t.cElem w c zero (rows.getD (e / 128) []) (g.cols.getD (e % 128) []) (e / 128) (e % 128))) s
          t.setOp { o with kind := .mma batch g a c scales sel zero rerun got (put ++ new) }
    | _, _ => s

def execMmaExecuteComplete (op : Nat) (mismatch : Bool) (s : State) : Host.Outcome State Fault Refusal :=
  .next (mmaComplete op false mismatch s)
def execMmaRerunComplete (op : Nat) (mismatch : Bool) (s : State) : Host.Outcome State Fault Refusal :=
  .next (mmaComplete op true mismatch s)

/-! ## Reading and writing C (R259 to R262): typed-space accesses, in program order with the band's other accesses (R129) -/

/-- The checks of ACCZ, ACCLD and ACCRD on the rows of the enabled lanes, `n` bytes each. -/
def State.checkRows (s : State) (b : Band) (w : Workgroup) (align c n : Nat) (writes : Bool) (lanes : W32) : Try Unit := do
  if c % align ≠ 0 then .error (.trap tMisalign 0 (BitVec.ofNat 64 c) 0)
  let ls := laneList lanes
  let lo := ls.headD 0
  let hi := ls.getLastD 0
  need (decide (c + 512 * hi + n ≤ s.spaceSize w .cb))
  if s.locked b .cb w.slot writes (c + 512 * lo) (512 * (hi - lo) + n) then
    let i := (ls.find? fun i => s.locked b .cb w.slot writes (c + 512 * i) n).getD lo
    .error (.trap tRangeLock i (BitVec.ofNat 64 (c + 512 * i)) (BitVec.ofNat 64 Space.cb.code))

def execAccz (a : Opnd) (s : State) : Host.Outcome State Fault Refusal :=
  .next (issue (.accz a) (fun b s => do
    let lanes ← s.lanesOf b
    if lanes = 0 then return .next s
    let c := (← s.scalarSrc b false a).toNat
    let w ← s.wgOf b
    s.checkRows b w 512 c 512 true lanes
    holdUnless (s.accessesDone b)
    return .next ((laneList lanes).foldl (fun s i => s.writeSpace w .cb (c + 512 * i) (List.replicate 512 0)) s)) s)

/-- Registers of a block of 32 columns in a type of R15 (R260, R261), and the values that a lane of one of them holds. -/
def accPer (f : Nat) : Nat := if f = 10 then 1 else if f = 8 ∨ f = 9 then 2 else 4
def accRegs (f : Nat) : Nat := 32 / accPer f

/-- R260: an FP32 image of a source element. -/
def accWiden (f code : Nat) : Nat :=
  if f = 10 then code else (roundNum f32 rne false ((if f = 9 then bf16 else f16).value code)).1

def execAccld (d a : Opnd) (f : BitVec 4) (s : State) : Host.Outcome State Fault Refusal :=
  .next (issue (.accld d a f) (fun b s => do
    let f := f.toNat
    need (f == 8 || f == 9 || f == 10)
    let v ← vNum a
    need (decide (v + accRegs f ≤ 64))
    let lanes ← s.lanesOf b
    if lanes = 0 then return .next s
    let c := (← s.scalarSrc b false d).toNat
    let w ← s.wgOf b
    s.checkRows b w 128 c 128 true lanes
    holdUnless (s.accessesDone b)
    let rs ← b.readBlock v (accRegs f)
    let word := fun (i r : Nat) => ((rs.getD r VReg.zero).lane i).toNat
    let elem := fun (i t : Nat) => word i (t / accPer f) / 2 ^ (32 / accPer f * (t % accPer f)) % 2 ^ (32 / accPer f)
    return .next ((laneList lanes).foldl (fun s i =>
      s.writeSpace w .cb (c + 512 * i) (((List.range 32).map fun t => laneBytes 4 (accWiden f (elem i t))).flatten)) s)) s)

/-- R261: the accepted combinations. -/
def accAccepts (f : Nat) (conv : Bool) : Bool :=
  if conv then f == 10 || f == 8 || f == 9 || f == 0 || decide (12 ≤ f) else f == 10

def isSpecial32 (x : Nat) : Bool := (f32.value x).isNan || (f32.value x).isInf

def execAccrd (d a : Opnd) (k : BitVec 2) (m : BitVec 1) (f : BitVec 4) (s : State) : Host.Outcome State Fault Refusal :=
  .next (issue (.accrd d a k m f) (fun b s => do
    let f := f.toNat
    need (accAccepts f (m == 1))
    let v ← vNum d
    let n := accRegs f
    need (decide (v + n ≤ 64))
    let lanes ← s.lanesOf b
    if lanes = 0 then return .next (s.countSr b b.rnd)
    b.flagReady true
    let c := (← s.scalarSrc b false a).toNat
    let w ← s.wgOf b
    s.checkRows b w 128 c 128 false lanes
    holdUnless (s.accessesDone b)
    let (sc, cl) ← if m == 1 then b.scaleRegs k.toNat else .ok (.fin false 0 0, .fin false 0 0)
    for u in List.range n do b.partialReady (v + u) lanes
    s.alloc b n 0
    let key := s.srKey b
    let per := accPer f
    let value := fun (u i p : Nat) =>
      let x := s.readSpace w .cb (c + 512 * i + 4 * (per * u + p)) 4
      if m == 1 then
        let (y, fl) := readNum f32 b.ftz x
        let (z, g) := scaleClip y sc cl
        scvtTo f (roundOf b.rnd key i (per * u + p)) b.sat b.ftz (z, g ||| fl)
      else (x, if isSpecial32 x then fNF else 0)
    let word := fun (u i : Nat) => (List.range per).foldl (fun (x : Nat) (p : Nat) => x + (value u i p).1 * 2 ^ (32 / per * p)) 0
    let fps := (List.range n).foldl (fun (x : BitVec 6) u => x ||| orLanes lanes fun i =>
      (0, (List.range per).foldl (fun (x : BitVec 6) p => x ||| (value u i p).2) 0)) 0
    let t := s.startOp b true (.arith .tagBlock (.block ((List.range n).map fun u => VReg.ofFn fun i => BitVec.ofNat 32 (word u i)) lanes) fps)
    let t := (List.range n).foldl (fun (t : State) u => t.awaitV b (v + u) s.nextUid u) t
    return .next (t.countSr b b.rnd)) s)

end Sys2Proof.Machine
end

