-- ==== Sys2Proof/Machine/Transcend.lean ====
section
/-! DEFINITION. FEXP2, FLOG2, FSIN and FCOS (R226, R227): the exact value to some 390 bits or more and a sticky bit below them, which
is rounded once. No result of these functions lies nearer to a rounding boundary than that, as far as is known (UNVERIFIED, log 12). -/

namespace Sys2Proof.Machine

/-- π × 2^1600, rounded down. -/
def piFix : Nat := 0x3243f6a8885a308d313198a2e03707344a4093822299f31d0082efa98ec4e6c89452821e638d01377be5466cf34e90c6cc0ac29b7c97c50dd3f84d5b5b54709179216d5d98979fb1bd1310ba698dfb5ac2ffd72dbd01adfb7b8e1afed6a267e96ba7c9045f12c7f9924a19947b3916cf70801f2e2858efc16636920d871574e69a458fea3f4933d7e0d95748f728eb658718bcd5882154aee7b54a41dc25a59b59c30d5392af26013c5d1b023286085f0ca417918b8db38ef8e79dcb0603a180e6c9e0e8bb01e8a3e

/-- ln 2 × 2^480, rounded down. -/
def ln2Fix : Nat := 0xb17217f7d1cf79abc9e3b39803f2f6af40f343267298b62d8a0d175b8baafa2be7b876206debac98559552fb4afa1b10ed2eae35c138214427573b29

/-- The sum of y^n / n! from term n on, in units of 2^-f; `t` is term n. -/
def expSeries (f y : Nat) : Nat → Nat → Nat → Nat
  | 0, _, _ => 0
  | fuel + 1, n, t => if t = 0 then 0 else t + expSeries f y fuel (n + 1) (t * y / 2 ^ f / (n + 1))

/-- Alternating series with ratio -y2 / ((n + 1)(n + 2)): the even and the odd terms' sums. -/
def trigSeries (f y2 : Nat) : Nat → Nat → Nat → Nat × Nat
  | 0, _, _ => (0, 0)
  | fuel + 1, n, t =>
    if t = 0 then (0, 0)
    else
      let (p, q) := trigSeries f y2 fuel (n + 2) (t * y2 / 2 ^ f / ((n + 1) * (n + 2)))
      (t + q, p)

/-- sin and cos of r × 2^-f, for r below π/2. -/
def sinFix (f r : Nat) : Nat := let (p, q) := trigSeries f (r * r / 2 ^ f) 300 1 r; p - q
def cosFix (f r : Nat) : Nat := let (p, q) := trigSeries f (r * r / 2 ^ f) 300 0 (2 ^ f); p - q

/-- atanh of t × 2^-f: the sum of t^(2n+1) / (2n+1). -/
def atanhSeries (f t2 : Nat) : Nat → Nat → Nat → Nat
  | 0, _, _ => 0
  | fuel + 1, n, t => if t = 0 then 0 else t / n + atanhSeries f t2 fuel (n + 2) (t * t2 / 2 ^ f)

/-- A value just above, or just below, m × 2^e. -/
def justAbove (neg : Bool) (m : Nat) (e : Int) : Num := .fin neg (m * 2 ^ 256 + 1) (e - 256)
def justBelow (neg : Bool) (m : Nat) (e : Int) : Num := .fin neg (m * 2 ^ 256 - 1) (e - 256)

/-- The place of the leading bit. -/
def leading (m : Nat) (e : Int) : Int := (Nat.log2 m : Int) + e

/-- 2^a. Beyond 2^13 in magnitude the result lies beyond every format's range, and below 2^-200 it lies just beside 1. -/
def exp2Of (neg : Bool) (m : Nat) (e : Int) : Num :=
  if m = 0 then one
  else if 13 ≤ leading m e then (if neg then .fin false 1 (-8192) else .fin false 1 8192)
  else if leading m e < -200 then (if neg then justBelow false 1 0 else justAbove false 1 0)
  else
    let a : Int := scaled neg m (e + 480) 0
    let i := a / ((2 ^ 480 : Nat) : Int)
    let fr := (a % ((2 ^ 480 : Nat) : Int)).toNat
    if fr = 0 then .fin false 1 i
    else
      let x := expSeries 480 (fr * ln2Fix / 2 ^ 480) 200 0 (2 ^ 480)
      .fin false (2 * x + 1) (i - 481)

def Num.exp2 : Num → Num × BitVec 6
  | .nan _ => (.nan false, 0)
  | .inf neg => (if neg then .fin false 0 0 else .inf false, 0)
  | .fin neg m e => (exp2Of neg m e, 0)

/-- log2 of a positive m × 2^e. -/
def log2Of (m : Nat) (e : Int) : Num :=
  let k := Nat.log2 m
  if m = 2 ^ k then ofInt ((k : Int) + e) 0 false
  else
    -- y = m / 2^k in (1, 2); t = (y - 1) / (y + 1)
    let t := (m - 2 ^ k) * 2 ^ 480 / (m + 2 ^ k)
    let ln := 2 * atanhSeries 480 (t * t / 2 ^ 480) 300 1 t
    let v : Int := ((k : Int) + e) * ((2 ^ 480 : Nat) : Int) + ((ln * 2 ^ 480 / ln2Fix : Nat) : Int)
    if 0 ≤ v then .fin false (2 * v.toNat + 1) (-481) else .fin true (2 * v.natAbs - 1) (-481)

def Num.log2 : Num → Num × BitVec 6
  | .nan _ => (.nan false, 0)
  | .inf neg => if neg then (.nan false, fNV) else (.inf false, 0)
  | .fin neg m e =>
    if m = 0 then (.inf true, fDZ)
    else if neg then (.nan false, fNV)
    else (log2Of m e, 0)

/-- The quadrant of |x| and the rest below π/2, in units of 2^-1600. -/
def quadrant (m : Nat) (e : Int) : Nat × Nat :=
  let x := m * 2 ^ (e + 1600).toNat
  let h := piFix / 2
  (x / h % 4, x % h)

/-- A fixed-point result with the sticky bit of its irrational remainder. -/
def fixed (neg : Bool) (x : Nat) : Num := .fin neg (2 * x + 1) (-1601)

def Num.sin : Num → Num × BitVec 6
  | .nan _ => (.nan false, 0)
  | .inf _ => (.nan false, fNV)
  | .fin neg m e =>
    if m = 0 then (.fin neg 0 e, 0)
    else if leading m e < -200 then (justBelow neg m e, 0)
    else
      let (q, r) := quadrant m e
      let v := if q % 2 = 0 then sinFix 1600 r else cosFix 1600 r
      (fixed (neg != decide (2 ≤ q)) v, 0)

def Num.cos : Num → Num × BitVec 6
  | .nan _ => (.nan false, 0)
  | .inf _ => (.nan false, fNV)
  | .fin _ m e =>
    if m = 0 then (one, 0)
    else if leading m e < -200 then (justBelow false 1 0, 0)
    else
      let (q, r) := quadrant m e
      let v := if q % 2 = 0 then cosFix 1600 r else sinFix 1600 r
      (fixed (q == 1 || q == 2) v, 0)

def execFexp2 (d a : Opnd) (s : State) : Host.Outcome State Fault Refusal := .next (float1 (.fexp2 d a) true d a Num.exp2 s)
def execFlog2 (d a : Opnd) (s : State) : Host.Outcome State Fault Refusal := .next (float1 (.flog2 d a) true d a Num.log2 s)
def execFsin (d a : Opnd) (s : State) : Host.Outcome State Fault Refusal := .next (float1 (.fsin d a) true d a Num.sin s)
def execFcos (d a : Opnd) (s : State) : Host.Outcome State Fault Refusal := .next (float1 (.fcos d a) true d a Num.cos s)

end Sys2Proof.Machine
end

