-- ==== Sys2Proof/Machine/Dispatch.lean ====
section
/-! DEFINITION. One arm per constructor of Instr, each a direct call of its meaning. -/

namespace Sys2Proof.Machine

def exec (i : Instr) (s : State) : Host.Outcome State Fault Refusal :=
  match i with
  | .clauseHeader wait seta setb len => Sys2Proof.Machine.execClauseHeader wait seta setb len s
  | .nop => Sys2Proof.Machine.execNop s
  | .br off => Sys2Proof.Machine.execBr off s
  | .brz p off => Sys2Proof.Machine.execBrz p off s
  | .brnz p off => Sys2Proof.Machine.execBrnz p off s
  | .bzm p off => Sys2Proof.Machine.execBzm p off s
  | .bnzm p off => Sys2Proof.Machine.execBnzm p off s
  | .ballm p off => Sys2Proof.Machine.execBallm p off s
  | .call n off => Sys2Proof.Machine.execCall n off s
  | .calli n t => Sys2Proof.Machine.execCalli n t s
  | .ret => Sys2Proof.Machine.execRet s
  | .loop p off => Sys2Proof.Machine.execLoop p off s
  | .yield => Sys2Proof.Machine.execYield s
  | .yieldc off => Sys2Proof.Machine.execYieldc off s
  | .exit => Sys2Proof.Machine.execExit s
  | .trap imm => Sys2Proof.Machine.execTrap imm s
  | .jmpi t => Sys2Proof.Machine.execJmpi t s
  | .setmode imm => Sys2Proof.Machine.execSetmode imm s
  | .setmm imm => Sys2Proof.Machine.execSetmm imm s
  | .getmode d => Sys2Proof.Machine.execGetmode d s
  | .mand d a b => Sys2Proof.Machine.execMand d a b s
  | .mor d a b => Sys2Proof.Machine.execMor d a b s
  | .mxor d a b => Sys2Proof.Machine.execMxor d a b s
  | .mandn d a b => Sys2Proof.Machine.execMandn d a b s
  | .mnot d a => Sys2Proof.Machine.execMnot d a s
  | .mmov d a => Sys2Proof.Machine.execMmov d a s
  | .mpopc d a => Sys2Proof.Machine.execMpopc d a s
  | .mffs d a => Sys2Proof.Machine.execMffs d a s
  | .mseti d imm => Sys2Proof.Machine.execMseti d imm s
  | .mlane d a => Sys2Proof.Machine.execMlane d a s
  | .fpsget d => Sys2Proof.Machine.execFpsget d s
  | .fpsclr a imm => Sys2Proof.Machine.execFpsclr a imm s
  | .sget d imm => Sys2Proof.Machine.execSget d imm s
  | .sadd d a b => Sys2Proof.Machine.execSadd d a b s
  | .ssub d a b => Sys2Proof.Machine.execSsub d a b s
  | .smul d a b => Sys2Proof.Machine.execSmul d a b s
  | .smulh d a b => Sys2Proof.Machine.execSmulh d a b s
  | .smulhn d a b => Sys2Proof.Machine.execSmulhn d a b s
  | .sdiv d a b => Sys2Proof.Machine.execSdiv d a b s
  | .sdivn d a b => Sys2Proof.Machine.execSdivn d a b s
  | .smod d a b => Sys2Proof.Machine.execSmod d a b s
  | .sand d a b => Sys2Proof.Machine.execSand d a b s
  | .sor d a b => Sys2Proof.Machine.execSor d a b s
  | .sxor d a b => Sys2Proof.Machine.execSxor d a b s
  | .sshl d a b => Sys2Proof.Machine.execSshl d a b s
  | .sshr d a b => Sys2Proof.Machine.execSshr d a b s
  | .ssar d a b => Sys2Proof.Machine.execSsar d a b s
  | .smin d a b => Sys2Proof.Machine.execSmin d a b s
  | .smax d a b => Sys2Proof.Machine.execSmax d a b s
  | .sminn d a b => Sys2Proof.Machine.execSminn d a b s
  | .smaxn d a b => Sys2Proof.Machine.execSmaxn d a b s
  | .smov d a => Sys2Proof.Machine.execSmov d a s
  | .smovi d imm => Sys2Proof.Machine.execSmovi d imm s
  | .smovh d imm => Sys2Proof.Machine.execSmovh d imm s
  | .scmpeq d a b => Sys2Proof.Machine.execScmpeq d a b s
  | .scmplt d a b => Sys2Proof.Machine.execScmplt d a b s
  | .scmpltn d a b => Sys2Proof.Machine.execScmpltn d a b s
  | .spopc d a => Sys2Proof.Machine.execSpopc d a s
  | .sclz d a => Sys2Proof.Machine.execSclz d a s
  | .sbfx d a b => Sys2Proof.Machine.execSbfx d a b s
  | .sbfi d a b => Sys2Proof.Machine.execSbfi d a b s
  | .saddi d a imm => Sys2Proof.Machine.execSaddi d a imm s
  | .amov d a => Sys2Proof.Machine.execAmov d a s
  | .aadd d a b => Sys2Proof.Machine.execAadd d a b s
  | .bset d a b => Sys2Proof.Machine.execBset d a b s
  | .vadd d a b => Sys2Proof.Machine.execVadd d a b s
  | .vsub d a b => Sys2Proof.Machine.execVsub d a b s
  | .vmul d a b => Sys2Proof.Machine.execVmul d a b s
  | .vmulh d a b => Sys2Proof.Machine.execVmulh d a b s
  | .vmad d a b => Sys2Proof.Machine.execVmad d a b s
  | .vand d a b => Sys2Proof.Machine.execVand d a b s
  | .vor d a b => Sys2Proof.Machine.execVor d a b s
  | .vxor d a b => Sys2Proof.Machine.execVxor d a b s
  | .vnot d a => Sys2Proof.Machine.execVnot d a s
  | .vshl d a b => Sys2Proof.Machine.execVshl d a b s
  | .vshr d a b => Sys2Proof.Machine.execVshr d a b s
  | .vmin d a b => Sys2Proof.Machine.execVmin d a b s
  | .vmax d a b => Sys2Proof.Machine.execVmax d a b s
  | .vabs d a => Sys2Proof.Machine.execVabs d a s
  | .vneg d a => Sys2Proof.Machine.execVneg d a s
  | .vmov d a => Sys2Proof.Machine.execVmov d a s
  | .vmovi d imm => Sys2Proof.Machine.execVmovi d imm s
  | .vbcast d a b => Sys2Proof.Machine.execVbcast d a b s
  | .vceq d a b => Sys2Proof.Machine.execVceq d a b s
  | .vcne d a b => Sys2Proof.Machine.execVcne d a b s
  | .vclt d a b => Sys2Proof.Machine.execVclt d a b s
  | .vcle d a b => Sys2Proof.Machine.execVcle d a b s
  | .vcgt d a b => Sys2Proof.Machine.execVcgt d a b s
  | .vcge d a b => Sys2Proof.Machine.execVcge d a b s
  | .vsel d a b => Sys2Proof.Machine.execVsel d a b s
  | .vpopc d a => Sys2Proof.Machine.execVpopc d a s
  | .vclz d a => Sys2Proof.Machine.execVclz d a s
  | .vbfx d a b => Sys2Proof.Machine.execVbfx d a b s
  | .vidx d a b => Sys2Proof.Machine.execVidx d a b s
  | .vdot4 d a b => Sys2Proof.Machine.execVdot4 d a b s
  | .fadd d a b => Sys2Proof.Machine.execFadd d a b s
  | .fsub d a b => Sys2Proof.Machine.execFsub d a b s
  | .fmul d a b => Sys2Proof.Machine.execFmul d a b s
  | .ffma d a b => Sys2Proof.Machine.execFfma d a b s
  | .fmin d a b => Sys2Proof.Machine.execFmin d a b s
  | .fmax d a b => Sys2Proof.Machine.execFmax d a b s
  | .fminnum d a b => Sys2Proof.Machine.execFminnum d a b s
  | .fmaxnum d a b => Sys2Proof.Machine.execFmaxnum d a b s
  | .fabs d a => Sys2Proof.Machine.execFabs d a s
  | .fneg d a => Sys2Proof.Machine.execFneg d a s
  | .frcp d a => Sys2Proof.Machine.execFrcp d a s
  | .frsq d a => Sys2Proof.Machine.execFrsq d a s
  | .fsqrt d a => Sys2Proof.Machine.execFsqrt d a s
  | .fdiv d a b => Sys2Proof.Machine.execFdiv d a b s
  | .fexp2 d a => Sys2Proof.Machine.execFexp2 d a s
  | .flog2 d a => Sys2Proof.Machine.execFlog2 d a s
  | .fsin d a => Sys2Proof.Machine.execFsin d a s
  | .fcos d a => Sys2Proof.Machine.execFcos d a s
  | .frnd d a x r => Sys2Proof.Machine.execFrnd d a x r s
  | .fscale d a b => Sys2Proof.Machine.execFscale d a b s
  | .fclass d a => Sys2Proof.Machine.execFclass d a s
  | .fceq d a b => Sys2Proof.Machine.execFceq d a b s
  | .fclt d a b => Sys2Proof.Machine.execFclt d a b s
  | .fcle d a b => Sys2Proof.Machine.execFcle d a b s
  | .fcun d a b => Sys2Proof.Machine.execFcun d a b s
  | .fkey d a => Sys2Proof.Machine.execFkey d a s
  | .cvt d a t bit => Sys2Proof.Machine.execCvt d a t bit s
  | .qpack d a bit f => Sys2Proof.Machine.execQpack d a bit f s
  | .qunpack d a bit f => Sys2Proof.Machine.execQunpack d a bit f s
  | .qscale d a bit f => Sys2Proof.Machine.execQscale d a bit f s
  | .scvt d a k bit f => Sys2Proof.Machine.execScvt d a k bit f s
  | .vshfl d a b => Sys2Proof.Machine.execVshfl d a b s
  | .vbfly d a imm => Sys2Proof.Machine.execVbfly d a imm s
  | .vrot d a imm => Sys2Proof.Machine.execVrot d a imm s
  | .vredadd d a => Sys2Proof.Machine.execVredadd d a s
  | .vredmax d a => Sys2Proof.Machine.execVredmax d a s
  | .vredmin d a => Sys2Proof.Machine.execVredmin d a s
  | .vargmax d a b => Sys2Proof.Machine.execVargmax d a b s
  | .vscan d a x off => Sys2Proof.Machine.execVscan d a x off s
  | .vdist d a q r f m => Sys2Proof.Machine.execVdist d a q r f m s
  | .vtopk d a off k => Sys2Proof.Machine.execVtopk d a off k s
  | .vtopkm d a off k => Sys2Proof.Machine.execVtopkm d a off k s
  | .lds d mem => Sys2Proof.Machine.execLds d mem s
  | .sts d mem => Sys2Proof.Machine.execSts d mem s
  | .ldv d mem => Sys2Proof.Machine.execLdv d mem s
  | .stv d mem => Sys2Proof.Machine.execStv d mem s
  | .ldl d mem => Sys2Proof.Machine.execLdl d mem s
  | .stl d mem => Sys2Proof.Machine.execStl d mem s
  | .lda d mem => Sys2Proof.Machine.execLda d mem s
  | .sta d mem => Sys2Proof.Machine.execSta d mem s
  | .ldw d mem => Sys2Proof.Machine.execLdw d mem s
  | .stw d mem => Sys2Proof.Machine.execStw d mem s
  | .ldpar d mem => Sys2Proof.Machine.execLdpar d mem s
  | .stt d mem => Sys2Proof.Machine.execStt d mem s
  | .stm d mem => Sys2Proof.Machine.execStm d mem s
  | .pref mem => Sys2Proof.Machine.execPref mem s
  | .atadd d mem => Sys2Proof.Machine.execAtadd d mem s
  | .atmin d mem => Sys2Proof.Machine.execAtmin d mem s
  | .atmax d mem => Sys2Proof.Machine.execAtmax d mem s
  | .atand d mem => Sys2Proof.Machine.execAtand d mem s
  | .ator d mem => Sys2Proof.Machine.execAtor d mem s
  | .atxor d mem => Sys2Proof.Machine.execAtxor d mem s
  | .atxchg d mem => Sys2Proof.Machine.execAtxchg d mem s
  | .atcas d mem => Sys2Proof.Machine.execAtcas d mem s
  | .atinc d mem => Sys2Proof.Machine.execAtinc d mem s
  | .atfadd d mem => Sys2Proof.Machine.execAtfadd d mem s
  | .atfmax d mem => Sys2Proof.Machine.execAtfmax d mem s
  | .atfmin d mem => Sys2Proof.Machine.execAtfmin d mem s
  | .fence => Sys2Proof.Machine.execFence s
  | .fencea a b => Sys2Proof.Machine.execFencea a b s
  | .acqrg d a b => Sys2Proof.Machine.execAcqrg d a b s
  | .relrg d a b => Sys2Proof.Machine.execRelrg d a b s
  | .monarm k mem => Sys2Proof.Machine.execMonarm k mem s
  | .monwait d k b => Sys2Proof.Machine.execMonwait d k b s
  | .copy mem => Sys2Proof.Machine.execCopy mem s
  | .copym mem => Sys2Proof.Machine.execCopym mem s
  | .mack n => Sys2Proof.Machine.execMack n s
  | .stash d mem => Sys2Proof.Machine.execStash d mem s
  | .stgld mem => Sys2Proof.Machine.execStgld mem s
  | .crs mem => Sys2Proof.Machine.execCrs mem s
  | .cscal a b => Sys2Proof.Machine.execCscal a b s
  | .cag mem => Sys2Proof.Machine.execCag mem s
  | .step => Sys2Proof.Machine.execStep s
  | .steprd d a imm => Sys2Proof.Machine.execSteprd d a imm s
  | .gsget d j g x => Sys2Proof.Machine.execGsget d j g x s
  | .bar d a b => Sys2Proof.Machine.execBar d a b s
  | .swaph d a => Sys2Proof.Machine.execSwaph d a s
  | .watch d mem => Sys2Proof.Machine.execWatch d mem s
  | .blatch vb t q f => Sys2Proof.Machine.execBlatch vb t q f s
  | .mmaE4m3 cbs abs sel zero lrc lra => Sys2Proof.Machine.execMmaE4m3 cbs abs sel zero lrc lra s
  | .mmaE5m2 cbs abs sel zero lrc lra => Sys2Proof.Machine.execMmaE5m2 cbs abs sel zero lrc lra s
  | .mmaE3m2 cbs abs sel zero lrc lra => Sys2Proof.Machine.execMmaE3m2 cbs abs sel zero lrc lra s
  | .mmaE2m3 cbs abs sel zero lrc lra => Sys2Proof.Machine.execMmaE2m3 cbs abs sel zero lrc lra s
  | .mmaF4s cbs abs sel zero lrc lra => Sys2Proof.Machine.execMmaF4s cbs abs sel zero lrc lra s
  | .mmaBf16 cbs abs sel zero lrc lra => Sys2Proof.Machine.execMmaBf16 cbs abs sel zero lrc lra s
  | .mmaF16 cbs abs sel zero lrc lra => Sys2Proof.Machine.execMmaF16 cbs abs sel zero lrc lra s
  | .mmaI8 cbs abs sel zero lrc lra => Sys2Proof.Machine.execMmaI8 cbs abs sel zero lrc lra s
  | .mmaE2m1 cbs abs sel zero lrc lra => Sys2Proof.Machine.execMmaE2m1 cbs abs sel zero lrc lra s
  | .mfence d => Sys2Proof.Machine.execMfence d s
  | .mwait a => Sys2Proof.Machine.execMwait a s
  | .accz a => Sys2Proof.Machine.execAccz a s
  | .accrd d a k m f => Sys2Proof.Machine.execAccrd d a k m f s
  | .accld d a f => Sys2Proof.Machine.execAccld d a f s
  | .freeze => Sys2Proof.Machine.execFreeze s
  | .sigchk imm => Sys2Proof.Machine.execSigchk imm s
  | .sigclr => Sys2Proof.Machine.execSigclr s
  | .snap => Sys2Proof.Machine.execSnap s
  | .rft bit => Sys2Proof.Machine.execRft bit s
  | .mfsr d n => Sys2Proof.Machine.execMfsr d n s
  | .mtsr d n => Sys2Proof.Machine.execMtsr d n s
  | .wdepth d => Sys2Proof.Machine.execWdepth d s
  | .wsync => Sys2Proof.Machine.execWsync s
  | .free d a b => Sys2Proof.Machine.execFree d a b s
  | .tlbi a => Sys2Proof.Machine.execTlbi a s
  | .halt => Sys2Proof.Machine.execHalt s
  | .clauseFetch => Sys2Proof.Machine.execClauseFetch s
  | .atomWritePerformed op atom es => Sys2Proof.Machine.execAtomWritePerformed op atom es s
  | .atomReadPerformed op atom es ext => Sys2Proof.Machine.execAtomReadPerformed op atom es ext s
  | .celogFilterClear unit => Sys2Proof.Machine.execCelogFilterClear unit s
  | .scAccessResponse op => Sys2Proof.Machine.execScAccessResponse op s
  | .loadDataReturn op => Sys2Proof.Machine.execLoadDataReturn op s
  | .atomicPerformed op atom es => Sys2Proof.Machine.execAtomicPerformed op atom es s
  | .arithResultWritten op => Sys2Proof.Machine.execArithResultWritten op s
  | .pageWalkComplete agent root va es => Sys2Proof.Machine.execPageWalkComplete agent root va es s
  | .tlbiComplete op => Sys2Proof.Machine.execTlbiComplete op s
  | .publicationOpen launch vs w pageSize => Sys2Proof.Machine.execPublicationOpen launch vs w pageSize s
  | .publicationFrameTaken vs w => Sys2Proof.Machine.execPublicationFrameTaken vs w s
  | .publicationClose vs w => Sys2Proof.Machine.execPublicationClose vs w s
  | .versionAdvanceComplete vs => Sys2Proof.Machine.execVersionAdvanceComplete vs s
  | .versionWaitTimeout p => Sys2Proof.Machine.execVersionWaitTimeout p s
  | .acqrgTimeout p => Sys2Proof.Machine.execAcqrgTimeout p s
  | .relrgComplete op => Sys2Proof.Machine.execRelrgComplete op s
  | .stmPerformed at_ => Sys2Proof.Machine.execStmPerformed at_ s
  | .swaphSwap launch inst => Sys2Proof.Machine.execSwaphSwap launch inst s
  | .swaphTimeout launch inst => Sys2Proof.Machine.execSwaphTimeout launch inst s
  | .barTimeout wg bar => Sys2Proof.Machine.execBarTimeout wg bar s
  | .monwaitTimeout p => Sys2Proof.Machine.execMonwaitTimeout p s
  | .copyStart op => Sys2Proof.Machine.execCopyStart op s
  | .copyComplete op es => Sys2Proof.Machine.execCopyComplete op es s
  | .copymSend src => Sys2Proof.Machine.execCopymSend src s
  | .copymReceiverAck src idx reply => Sys2Proof.Machine.execCopymReceiverAck src idx reply s
  | .stashComplete op => Sys2Proof.Machine.execStashComplete op s
  | .storageSlotAssigned op => Sys2Proof.Machine.execStorageSlotAssigned op s
  | .storageCompletion qp => Sys2Proof.Machine.execStorageCompletion qp s
  | .storageCommandTimeout op => Sys2Proof.Machine.execStorageCommandTimeout op s
  | .storageWindowAccess kind off size data => Sys2Proof.Machine.execStorageWindowAccess kind off size data s
  | .watchPost slot => Sys2Proof.Machine.execWatchPost slot s
  | .yieldcReactivate p => Sys2Proof.Machine.execYieldcReactivate p s
  | .tailraceSpill p frame => Sys2Proof.Machine.execTailraceSpill p frame s
  | .frameSpilled p frame => Sys2Proof.Machine.execFrameSpilled p frame s
  | .tailraceRefillComplete p es => Sys2Proof.Machine.execTailraceRefillComplete p es s
  | .apertureAccess op lane => Sys2Proof.Machine.execApertureAccess op lane s
  | .apertureStoreDelivery op lane => Sys2Proof.Machine.execApertureStoreDelivery op lane s
  | .bandPark core quad => Sys2Proof.Machine.execBandPark core quad s
  | .bandRestore core quad => Sys2Proof.Machine.execBandRestore core quad s
  | .mmaExecuteComplete op mismatch => Sys2Proof.Machine.execMmaExecuteComplete op mismatch s
  | .mmaRerunComplete op mismatch => Sys2Proof.Machine.execMmaRerunComplete op mismatch s
  | .contributionArrival src => Sys2Proof.Machine.execContributionArrival src s
  | .quorumTimerExpiry key => Sys2Proof.Machine.execQuorumTimerExpiry key s
  | .ownerAckArrival op owner cls => Sys2Proof.Machine.execOwnerAckArrival op owner cls s
  | .ringHop m => Sys2Proof.Machine.execRingHop m s
  | .scalarContributionArrival src => Sys2Proof.Machine.execScalarContributionArrival src s
  | .scalarTimerExpiry lid pgrp step => Sys2Proof.Machine.execScalarTimerExpiry lid pgrp step s
  | .scalarResultArrival r => Sys2Proof.Machine.execScalarResultArrival r s
  | .cscalResultTimeout op => Sys2Proof.Machine.execCscalResultTimeout op s
  | .stepClosedPoint lid pgrp step => Sys2Proof.Machine.execStepClosedPoint lid pgrp step s
  | .normPartialArrival m => Sys2Proof.Machine.execNormPartialArrival m s
  | .cagChunkArrival src => Sys2Proof.Machine.execCagChunkArrival src s
  | .cagDeviceDone op pos out => Sys2Proof.Machine.execCagDeviceDone op pos out s
  | .heldMessageExpiry idx => Sys2Proof.Machine.execHeldMessageExpiry idx s
  | .weirStepMessage lid rank step => Sys2Proof.Machine.execWeirStepMessage lid rank step s
  | .weirHeartbeat => Sys2Proof.Machine.execWeirHeartbeat s
  | .podSummaryArrival lid pod step => Sys2Proof.Machine.execPodSummaryArrival lid pod step s
  | .weirSilenceTimeout lid isPod who => Sys2Proof.Machine.execWeirSilenceTimeout lid isPod who s
  | .linkLaneChange ethernet port lanes => Sys2Proof.Machine.execLinkLaneChange ethernet port lanes s
  | .peerUnreachable lid dev => Sys2Proof.Machine.execPeerUnreachable lid dev s
  | .queueDoorbell queue tail => Sys2Proof.Machine.execQueueDoorbell queue tail s
  | .launchDispatch queue => Sys2Proof.Machine.execLaunchDispatch queue s
  | .launchActivate queue => Sys2Proof.Machine.execLaunchActivate queue s
  | .workgroupPlace => Sys2Proof.Machine.execWorkgroupPlace s
  | .templateImageAck launch inst core => Sys2Proof.Machine.execTemplateImageAck launch inst core s
  | .preemptTimerExpiry prio => Sys2Proof.Machine.execPreemptTimerExpiry prio s
  | .preemptSave wg => Sys2Proof.Machine.execPreemptSave wg s
  | .workgroupResume wg => Sys2Proof.Machine.execWorkgroupResume wg s
  | .launchComplete launch => Sys2Proof.Machine.execLaunchComplete launch s
  | .eventRingCoalesceTimeout => Sys2Proof.Machine.execEventRingCoalesceTimeout s
  | .evrctlWrite v => Sys2Proof.Machine.execEvrctlWrite v s
  | .trapEntry p => Sys2Proof.Machine.execTrapEntry p s
  | .launchKill launch cause => Sys2Proof.Machine.execLaunchKill launch cause s
  | .launchKillComplete launch => Sys2Proof.Machine.execLaunchKillComplete launch s
  | .writesetGranuleCopy launch granule => Sys2Proof.Machine.execWritesetGranuleCopy launch granule s
  | .redundantCompare launch => Sys2Proof.Machine.execRedundantCompare launch s
  | .snapshotPin => Sys2Proof.Machine.execSnapshotPin s
  | .snapshotTimer => Sys2Proof.Machine.execSnapshotTimer s
  | .snapshotReadoutComplete => Sys2Proof.Machine.execSnapshotReadoutComplete s
  | .snapctlWrite v => Sys2Proof.Machine.execSnapctlWrite v s
  | .secregionWrite num v secure => Sys2Proof.Machine.execSecregionWrite num v secure s
  | .lsroleWrite num v => Sys2Proof.Machine.execLsroleWrite num v s
  | .gclrWrite v => Sys2Proof.Machine.execGclrWrite v s
  | .wmbaseWrite v => Sys2Proof.Machine.execWmbaseWrite v s
  | .ueptabWrite v => Sys2Proof.Machine.execUeptabWrite v s
  | .cwrldWrite die v secure => Sys2Proof.Machine.execCwrldWrite die v secure s
  | .registerWrite off v secure => Sys2Proof.Machine.execRegisterWrite off v secure s
  | .flmcmdNone v => Sys2Proof.Machine.execFlmcmdNone v s
  | .flmcmdCloseStep v => Sys2Proof.Machine.execFlmcmdCloseStep v s
  | .flmcmdDeclareSilent v => Sys2Proof.Machine.execFlmcmdDeclareSilent v s
  | .flmcmdRefused v => Sys2Proof.Machine.execFlmcmdRefused v s
  | .hcmdCancelLaunch => Sys2Proof.Machine.execHcmdCancelLaunch s
  | .hcmdCancelQueue => Sys2Proof.Machine.execHcmdCancelQueue s
  | .hcmdPreemptLaunch => Sys2Proof.Machine.execHcmdPreemptLaunch s
  | .hcmdResumeHalted => Sys2Proof.Machine.execHcmdResumeHalted s
  | .hcmdKillLaunch => Sys2Proof.Machine.execHcmdKillLaunch s
  | .hcmdResumeSuspended => Sys2Proof.Machine.execHcmdResumeSuspended s
  | .hcmdDeliverTrap => Sys2Proof.Machine.execHcmdDeliverTrap s
  | .hcmdMalformed => Sys2Proof.Machine.execHcmdMalformed s
  | .pcieInboundAccess acc => Sys2Proof.Machine.execPcieInboundAccess acc s
  | .reset flash => Sys2Proof.Machine.execReset flash s
  | .bootMailboxImage check => Sys2Proof.Machine.execBootMailboxImage check s
  | .bringupComplete r => Sys2Proof.Machine.execBringupComplete r s
  | .attestationRequest nonce => Sys2Proof.Machine.execAttestationRequest nonce s
  | .attestationReport => Sys2Proof.Machine.execAttestationReport s
  | .thermalStateChange tj => Sys2Proof.Machine.execThermalStateChange tj s
  | .powerTelemetryUpdate pwr thr tj tin => Sys2Proof.Machine.execPowerTelemetryUpdate pwr thr tj tin s

end Sys2Proof.Machine
end

