-- ==== Sys2Proof/Machine/Order.lean ====
section
/-! DEFINITION. What moves next: the agenda's next turn, or with an empty agenda an internal event or the band that has been ready longest
(DESIGN CHOICE, log 1); in a quadrant only the band that R335 names issues. -/

namespace Sys2Proof.Machine

/-! ## The band scheduler (R335) -/

/-- The band of a place issues its next word. -/
def issueAt (p : Place) (s : State) : Host.Outcome State Fault Refusal :=
  match s.bandAt p with
  | none => .next s
  | some b =>
    match b.nextWord with
    | .instr i => exec i { s with cur := p }
    | .refuse w => .next (refuseWord w { s with cur := p })

/-- A band that nothing known keeps from issuing, but flags that its header waits for. -/
def Band.ready (b : Band) : Bool := b.canIssue && !b.held && !(b.stopping && b.atHeader)

/-- The band is within a clause, or the flags that its header waits for are zero (R171); a header that cannot be fetched makes it trap. -/
def State.waitClear (s : State) (b : Band) : Bool :=
  let zero := fun (h : W32) => h.extractLsb' 24 8 != 0xFC || b.flagsClear (h.extractLsb' 12 12)
  match b.clause with
  | some c => !b.atHeader || zero c.header
  | none => b.resume.isSome || match s.fetchWord b b.hdr with
    | .ok (h, none) => zero h
    | _ => true

/-- R335: the band is ready. -/
def State.bandReady (s : State) (b : Band) : Bool := b.ready && s.waitClear b

/-- A band that stays at its word: held there, stalled, or waiting for a walk. -/
def Band.keptBack (b : Band) : Bool :=
  b.stalled.isSome || b.held && (b.canIssue || match b.wait with | some (.walk ..) => true | _ => false)

/-- The band of a place as an attempt to issue its word leaves it. -/
def State.attempt (s : State) (p : Place) : Option Band :=
  match issueAt p s with
  | .next t => t.bandAt p
  | _ => none

/-- The band of a place would issue its word now. -/
def State.goes (s : State) (p : Place) : Bool := (s.attempt p).all fun b => !b.keptBack

/-- Slots from the one after the slot that a quadrant issued last. -/
def State.turnOf (s : State) (p : Place) : Nat :=
  match s.lastIssued.find? fun x => x.1 == 4 * p.core + p.quad with
  | some x => (p.slot + 15 - x.2) % 16
  | none => p.slot

/-- A band comes before another of its quadrant: it has been ready longer, or as long and its turn is first. -/
def State.before (s : State) (b c : Band) : Bool :=
  decide (b.readyAt < c.readyAt) || (b.readyAt == c.readyAt && decide (s.turnOf b.place < s.turnOf c.place))

/-- A vector or matrix word: one that the power cap may withhold (R409). -/
def Instr.capped (i : Instr) : Bool :=
  let op := (encodeWord i).toNat / 2 ^ 24
  (decide (0x40 ≤ op) && decide (op ≤ 0xAA)) || (decide (0xE0 ≤ op) && decide (op ≤ 0xEE))

def Band.capped (b : Band) : Bool := match b.nextWord with | .instr i => Instr.capped i | .refuse _ => false

/-- The scheduler of the quadrant serves this place: no ready band that would issue comes before it, but one whose vector or matrix word the
power cap may withhold, which it does from no other word (R409; DEDUCED, log 40). The fetch of a clause is no issue of a word. -/
def State.mayIssue (s : State) (p : Place) : Bool :=
  match s.bandAt p with
  | none => false
  | some b => b.clause.isNone || s.bands.all fun c =>
      !(c.place.core == p.core && c.place.quad == p.quad && c.place != p && s.bandReady c && s.before c b && s.goes c.place)
        || (c.capped && !b.capped)

/-- The band that has been ready longest. -/
def oldest : List Band → Option Band
  | [] => none
  | b :: t =>
    match oldest t with
    | none => some b
    | some c => if b.readyAt ≤ c.readyAt then some b else some c

/-- An event of the package: its meaning (an instruction's own, as Dispatch calls it) at the arguments that it comes about with. -/
abbrev Occurrence := State → Host.Outcome State Fault Refusal

/-- Events of an operation in flight, as they come about when nothing fails and no other device is asked. Whether one is due now is
for its meaning to say; reads of host memory wait for their answer (DESIGN CHOICE, log 11). -/
def State.opEvents (s : State) (o : Op) : List Occurrence :=
  let u := o.uid
  let lanes := fun (x : Access) (f : Nat → Occurrence) => x.lanes.map fun l => f l.lane
  match o.kind with
  | .load x =>
    ((x.atoms.zipIdx.filter fun a => s.kindOf a.1.pa != .host).map fun a => execAtomReadPerformed u a.2 [] 0)
      ++ lanes x (execApertureAccess u) ++ [execLoadDataReturn u, execScAccessResponse u]
  | .store x =>
    ((List.range x.atoms.length).map fun i => execAtomWritePerformed u i []) ++ lanes x (execApertureStoreDelivery u)
      ++ [execScAccessResponse u]
  | .atomic _ x _ _ _ =>
    ((List.range x.atoms.length).map fun i => execAtomicPerformed u i []) ++ [execLoadDataReturn u, execScAccessResponse u]
  | .localLoad _ _ => [execLoadDataReturn u]
  | .arith _ _ _ => [execArithResultWritten u]
  | .stm _ _ cells => (dedup (cells.map fun x => x.1 / 32)).map fun k => execStmPerformed ⟨u, k⟩
  | .tlbi _ _ _ => [execTlbiComplete u]
  | .relrg _ _ _ _ => [execRelrgComplete u]
  | .mma .. => [execMmaExecuteComplete u false, execMmaRerunComplete u false]
  | .engine (.copy _ _ _) _ => [execCopyStart u, execCopyComplete u []]
  | .engine (.copym _ rs _ _ _) _ =>
    execCopymSend (.own u false) :: (rs.zipIdx.filter fun r => s.receiverHere r.1 || r.1.acked).map fun r => execCopymReceiverAck (.own u) r.2 (.ended 0)
  | .engine (.stash _ _ _ _) _ => [execStashComplete u]
  | .engine (.storage ..) _ => [execStorageSlotAssigned u, execStorageCommandTimeout u]
  | .crs c => (dedup c.owners).map fun w => execContributionArrival (.own u w)
  | .cscal .. => [execScalarContributionArrival (.own u), execCscalResultTimeout u]
  | .cag _ _ _ n _ _ _ _ _ _ _ _ => (List.range n).map fun k => execCagChunkArrival (.own u k)

def State.bandEvents (s : State) (b : Band) : List Occurrence :=
  let p := b.place
  (match b.wait with
    | some (.walk va _ _) => [execPageWalkComplete (s.bandCtx b).agent (s.bandCtx b).root va []]
    | some (.version ..) => [execVersionWaitTimeout p]
    | some (.acqrg ..) => [execAcqrgTimeout p]
    | some (.monitor ..) => [execMonwaitTimeout p]
    | some (.bar k) => [execBarTimeout b.wg k]
    | some .entryRegs => [execTrapEntry p]
    | some (.yieldc ..) => [execYieldcReactivate p]
    | _ => [])
    ++ (List.range b.depth).flatMap (fun d => [execTailraceSpill p (d + 1), execFrameSpilled p (d + 1)])
    ++ (if b.frames.any fun f => f.loc == .refilling then [execTailraceRefillComplete p []] else [])

def State.wgEvents (s : State) (w : Workgroup) : List Occurrence :=
  let inst := match s.launch? w.launch with | some l => l.domInst w | none => 0
  [execSwaphSwap w.launch inst, execSwaphTimeout w.launch inst, execPreemptSave w.uid, execWorkgroupResume w.uid]

def State.launchEvents (s : State) (l : Launch) : List Occurrence :=
  let cores := dedup ((s.wgs.filter fun w => w.launch == l.uid && w.resident).map Workgroup.core)
  (match l.kills[l.killed]? with | some c => [execLaunchKill l.uid c] | none => [])
    ++ (s.images.filter fun i => i.launch == l.uid).flatMap (fun i => cores.map fun c => execTemplateImageAck l.uid i.inst c)
    ++ [execLaunchKillComplete l.uid, execRedundantCompare l.uid, execLaunchComplete l.uid]

def State.quadEvents (s : State) : List Occurrence :=
  (dedup (s.bands.map fun b => 4 * b.place.core + b.place.quad)).flatMap fun k => [execBandPark (k / 4) (k % 4), execBandRestore (k / 4) (k % 4)]

/-- Step-closed points that a group may reach here (R353): of a launch's steps, and of those that have closed here. -/
def State.pointsHere (s : State) : List (Nat × Nat × W32) :=
  (s.launches.flatMap fun l => match l.pg with
    | some t => t.groups.zipIdx.flatMap fun (g, k) => (s.stepsHere l t g k).map fun st => (l.lr.lid.toNat, k, st)
    | none => []) ++ s.closed.map fun c => (c.key.lid, c.key.pgrp, c.key.step)

/-- Events of the package's engines, queues and timers. -/
def State.partEvents (s : State) : List Occurrence :=
  ((s.pubs.filter fun p => p.slot.isNone).map fun p => execPublicationFrameTaken p.set p.ver)
    ++ (s.advances.map fun a => execVersionAdvanceComplete a.set)
    ++ (s.reductions.map fun r => execQuorumTimerExpiry r.key)
    ++ (s.scalars.map fun x => execScalarTimerExpiry x.lid x.pgrp x.step)
    ++ (s.pointsHere.map fun x => execStepClosedPoint x.1 x.2.1 x.2.2)
    ++ ((List.range s.heldMsgs.length).map fun k => execHeldMessageExpiry k)
    ++ (s.weir.flatMap fun w => w.entries.map fun e => execWeirSilenceTimeout w.lid e.isPod e.who)
    ++ (s.watches.map fun w => execWatchPost w.slot)
    ++ (s.qpairs.map fun q => execStorageCompletion q.qp)
    ++ ((List.range 64).map fun q => execLaunchActivate q) ++ ((List.range 64).map fun q => execLaunchDispatch q)
    ++ [execWorkgroupPlace, execWeirHeartbeat, execEventRingCoalesceTimeout, execSnapshotTimer, execSnapshotReadoutComplete,
        execAttestationReport]
    ++ ((List.range 4).map fun p => execPreemptTimerExpiry p)
    ++ ((List.range 12).map fun k => execCelogFilterClear k) ++ ((List.range 10).map fun k => execCelogFilterClear (16 + k))

def commandEvents : List Occurrence :=
  [execHcmdCancelLaunch, execHcmdCancelQueue, execHcmdPreemptLaunch, execHcmdResumeHalted, execHcmdKillLaunch, execHcmdResumeSuspended,
    execHcmdDeliverTrap, execHcmdMalformed]

/-- Events that the package brings about by itself, the first first: none that the outside world brings. -/
def State.ownEvents (s : State) : List Occurrence :=
  s.ops.flatMap s.opEvents ++ s.bands.flatMap s.bandEvents ++ s.wgs.flatMap s.wgEvents ++ s.launches.flatMap s.launchEvents
    ++ s.quadEvents ++ (if s.hcmd.isSome then commandEvents else []) ++ s.partEvents

/-- A part of an operation is performed before its end: of an engine's payload (R133), of an MMA's operands and results (R254), or the read of
an atom of a contribution (R137). -/
def State.part (s : State) (op i lo n : Nat) : State :=
  match (s.op? op).map Op.kind with
  | some (.mma ..) => s.mmaPart op i lo n
  | some (.crs _) => (s.readSrcAtom op i).1
  | _ => s.enginePart op i lo n

/-- An event is due when it changes something. -/
def State.due (s : State) (f : Occurrence) : Bool :=
  match f s with
  | .next t => t != s
  | _ => true

/-- A band that is held at its word may try it again where the attempt would now come to something else; one that would issue becomes ready
now (R335). -/
def State.retry (s : State) (b : Band) : State :=
  let u := { b with held := false }
  match (s.setBand u).attempt b.place with
  | some c =>
    if c.held && c.wait == b.wait && c.stalled.isSome == b.stalled.isSome && c.suspended == b.suspended && c.trap == b.trap then s
    else s.setBand { u with readyAt := if c.keptBack then b.readyAt else s.cycle }
  | none => s.setBand { u with readyAt := s.cycle }

def State.release (s : State) : State := s.bands.foldl (fun s b => if b.held && b.canIssue then s.retry b else s) s

/-- Bands that an event has made ready: their ready time is now. -/
def State.noteReady (s t : State) : State :=
  { t with bands := t.bands.map fun b =>
      if t.bandReady b && !(s.bands.any fun c => c.uid == b.uid && s.bandReady c) then { b with readyAt := t.cycle } else b }

/-- Time passes. -/
def State.elapse (s : State) (n : Nat) : State := { s with cycle := s.cycle + n }

/-- A write that engines and records have posted reaches its registers (R398), or waits where the aperture cannot take it (R160). -/
def State.land (s : State) (e : List (Nat × Byte) × Bool) : State :=
  match e.1 with
  | [] => s
  | (pa, _) :: _ =>
    if s.kindOf pa != .aperture then s.devStore (e.1.map fun c => (c.1 - deviceBase, c.2)) e.2
    else if s.apStores (dedup (e.1.map fun c => c.1 / 4 * 4)) then s.apWrite pa (e.1.map Prod.snd)
    else { s with posted := s.posted ++ [e] }

def State.landPosted (s : State) : State := s.posted.foldl State.land { s with posted := [] }

/-- What was on its way when the next move begins: scalars have their slots (R142), posted writes have reached their registers (R398), and
chunks of other devices have their frames (R65). -/
def State.arrive (s : State) : State := s.assignSlots.landPosted.landChunks

/-- An unpopulated address that the step reached stops the machine (DEDUCED, log 4). -/
def settle : Host.Outcome State Fault Refusal → Host.Outcome State Fault Refusal
  | .next s => match s.stray with | some pa => .fault (.unpopulated pa) | none => .next s
  | r => r

/-- What an event or an issue leaves: bands that it has made ready, and held ones that may go on. -/
def after (s : State) : Host.Outcome State Fault Refusal → Host.Outcome State Fault Refusal
  | .next t => .next (s.noteReady t).release
  | r => r

/-- The quadrant's turn goes to the slot of a place, now. -/
def State.noteIssue (t : State) (p : Place) : State :=
  { t with lastIssued := assocSet t.lastIssued (4 * p.core + p.quad) p.slot, issuedAt := assocSet t.issuedAt (4 * p.core + p.quad) t.cycle }

/-- A band that has issued a word has had its quadrant's turn; one that is kept back, or has fetched its clause, has not. -/
def afterIssue (p : Place) (s : State) : Host.Outcome State Fault Refusal → Host.Outcome State Fault Refusal
  | .next t =>
    if (t.bandAt p).any Band.keptBack then .next t
    else after s (.next (if (s.bandAt p).any fun b => b.clause.isNone then t else t.noteIssue p))
  | r => r

/-- An error in the shadow unit stands for one issue or event (R386). -/
def withUpset (err : W32) (f : Occurrence) (s : State) : Host.Outcome State Fault Refusal :=
  match f { s with upset := err } with
  | .next t => .next { t with upset := 0 }
  | r => r

/-- The band of a place issues, if the scheduler serves it. -/
def serve (p : Place) (err : W32) (s : State) : Host.Outcome State Fault Refusal :=
  if s.mayIssue p then afterIssue p s (withUpset err (issueAt p) s) else .next s

/-- An event that a message from another device brings about (R408). -/
def Instr.onLink : Instr → Bool
  | .contributionArrival (.remote ..) | .scalarContributionArrival (.remote ..) | .cagChunkArrival (.remote ..) | .copymSend (.remote ..)
  | .copymReceiverAck (.remote ..) .. | .ownerAckArrival .. | .ringHop .. | .scalarResultArrival .. | .normPartialArrival ..
  | .cagDeviceDone .. | .weirStepMessage .. | .podSummaryArrival .. => true
  | _ => false

/-- The answer of a receiver of this device's COPYM comes from another device. -/
def State.ackFar (s : State) (i : Instr) : Bool :=
  match i with
  | .copymReceiverAck (.own u) k _ =>
    match (s.op? u).map Op.kind with
    | some (.engine (.copym _ rs _ _ _) _) => (rs[k]?).any fun r => !s.receiverHere r
    | _ => false
  | _ => false

/-- A link has carried the message of an event. -/
def State.carry (s : State) (i : Instr) : State := if Instr.onLink i || s.ackFar i then { s with carried := s.carried + 1 } else s

/-- A move is carried out. -/
def run (m : Move) (s : State) : Host.Outcome State Fault Refusal :=
  match m with
  | .issue p => serve p 0 s
  | .event i => after s (exec i (s.carry i))
  | .strike atom sym err => .next (s.strike atom sym err)
  | .upsetIssue p err => serve p err s
  | .upsetEvent i err => after s (withUpset err (exec i) (s.carry i))
  | .part op i lo n => after s (.next (s.part op i lo n))

/-- With an empty agenda: the first event that is due, else the band that has been ready longest, else nothing moves. -/
def defaultRun (s : State) : Host.Outcome State Fault Refusal :=
  match s.ownEvents.find? s.due with
  | some f => after s (f s)
  | none =>
    match oldest (s.bands.filter fun b => s.bandReady b && s.mayIssue b.place) with
    | some b => run (.issue b.place) s
    | none => .next s

end Sys2Proof.Machine
end

