-- ==== Sys2Proof/Machine/Step.lean ====
section
/-! DEFINITION. One step, and a word laid where the next step fetches it. -/

namespace Sys2Proof.Machine

/-- A move is made as time passes, after what was on its way has arrived. -/
def step (s : State) : Host.Outcome State Fault Refusal :=
  match s.agenda with
  | t :: rest => settle (run t.move (({ s with agenda := rest } : State).elapse (1 + t.elapsed)).arrive)
  | [] => settle (defaultRun (s.elapse 1).arrive)

/-- The state with a word of the opcode table standing as the next word of a band, whose turn is next. -/
def State.withFetchWord (s : State) (_nbits w : Nat) : State :=
  let t := s.stage s.cur
  { t with
    bands := t.bands.map fun b => if b.place == s.cur then b.withWord w else b
    agenda := [⟨0, .issue s.cur⟩] }

end Sys2Proof.Machine
end

