-- ==== Sys2Proof/Safety.lean ====
section
/-! DEFINITION. What counts as a safe run: the machine neither stops nor breaks the form of its data. -/

namespace Sys2Proof

/-- The invariant of the state's data: the memories and the written registers in canonical form. -/
def Machine.State.wf (s : Machine.State) : Bool :=
  Machine.Mem.wf s.mem && Machine.Mem.wf s.ls && Machine.Mem.wf s.mailbox && Machine.regsWf s.regs

/-- A step that goes on to a well-formed state. -/
def SafeStep (s : Machine.State) : Prop := ∃ t, Machine.step s = .next t ∧ t.wf = true

end Sys2Proof
end

