-- ==== Sys2Proof/Stated.lean ====
section
/-! DEFINITION. The vocabulary of the statements: a band that stands at a word, the state in which the word acts, the state once it
has issued, and what the rules say of each family's results. -/

namespace Sys2Proof.Stated

open Sys2Proof Sys2Proof.Machine

/-- How many words an instruction takes, its literal among them (R168). -/
def len (i : Instr) : Nat := 1 + (litWords i.opnds).length

/-- A word that passes the checks made before its operands are read (R172, R177, R184). -/
structure Legal (i : Instr) (b : Band) : Prop where
  last : Instr.isControl i = true → b.lastWord (len i) = true
  priv : Instr.isPrivileged i = true → b.privileged = true
  form : i.wellFormed = true

/-- Band `b`, whose turn it is, may issue and stands at the legal word `i`; no error has arisen in the shadow unit (R386). -/
structure Stands (i : Instr) (b : Band) (s : State) : Prop extends Legal i b where
  here : s.bandAt s.cur = some b
  may : b.canIssue = true
  sound : s.upset = 0

/-- The state that a word acts on: lat is valid no longer (R148). -/
def acting (b : Band) (s : State) : State := s.setBand { b with latValid := false }

/-- A word has issued with effect `t`: the signature, the ready time and the end of a wait (R335, R385), then the next word (R173). -/
def past (i : Instr) (b : Band) (s t : State) : State :=
  t.modBand b.uid fun c => (c.advance (len i)).issued b.inHandler i s.cycle

/-- A word has issued with effect `t`, and control goes to the header at `a`. -/
def gone (i : Instr) (b : Band) (s t : State) (a : W64) : State :=
  t.modBand b.uid fun c => (c.issued b.inHandler i s.cycle).goto a

/-- A word is held: nothing has changed but that it has been tried (R67, R204), and waits for no register. -/
def heldAt (i : Instr) (b : Band) (s : State) : State := s.setBand { b with held := true, stalled := none, tried := b.firstTry i s.cycle }

/-- A scalar or address register written. -/
def put (b : Band) (d : Opnd) (x : W64) (t : State) : State :=
  match d with
  | .s n => t.putS b n.val x
  | .a n => t.putA b n.val x
  | _ => t

/-- Its destination can be written at once: a slot of the pool for an s register (R142), no load outstanding to an a register (R147). -/
def putReady (b : Band) (d : Opnd) (t : State) : Bool :=
  match d with
  | .s _ => t.canAlloc b 0 1
  | .a n => !t.regPending b none (some n.val) none
  | _ => false

/-- A 64-bit signed result under SAT (R26). -/
def sat64 (sat : Bool) (x : Int) : W64 := BitVec.ofInt 64 (if sat then max (-(2 ^ 63)) (min (2 ^ 63 - 1) x) else x)

/-- R288, R290, R292: the scalar instructions whose result is there at once: destination, whether sources are signed, sources, and the
result as a function of SAT and the sources. -/
def scalarRule : Instr → Option (Opnd × Bool × Opnd × Opnd × (Bool → W64 → W64 → W64))
  | .sadd d a b => some (d, true, a, b, fun sat x y => sat64 sat (x.toInt + y.toInt))
  | .ssub d a b => some (d, true, a, b, fun sat x y => sat64 sat (x.toInt - y.toInt))
  | .smul d a b => some (d, true, a, b, fun sat x y => sat64 sat (x.toInt * y.toInt))
  | .smulh d a b => some (d, true, a, b, fun _ x y => ((x.signExtend 128 * y.signExtend 128) >>> 64).setWidth 64)
  | .smulhn d a b => some (d, false, a, b, fun _ x y => ((x.setWidth 128 * y.setWidth 128) >>> 64).setWidth 64)
  | .sand d a b => some (d, false, a, b, fun _ x y => x &&& y)
  | .sor d a b => some (d, false, a, b, fun _ x y => x ||| y)
  | .sxor d a b => some (d, false, a, b, fun _ x y => x ^^^ y)
  | .sshl d a b => some (d, false, a, b, fun _ x y => x <<< y)
  | .sshr d a b => some (d, false, a, b, fun _ x y => x >>> y)
  | .ssar d a b => some (d, true, a, b, fun _ x y => x.sshiftRight y.toNat)
  | .smin d a b => some (d, true, a, b, fun _ x y => if x.toInt ≤ y.toInt then x else y)
  | .smax d a b => some (d, true, a, b, fun _ x y => if y.toInt ≤ x.toInt then x else y)
  | .sminn d a b => some (d, false, a, b, fun _ x y => if x ≤ y then x else y)
  | .smaxn d a b => some (d, false, a, b, fun _ x y => if y ≤ x then x else y)
  | .smov d a => some (d, false, a, .zero, fun _ x _ => x)
  | .scmpeq d a b => some (d, false, a, b, fun _ x y => if x = y then 1 else 0)
  | .scmplt d a b => some (d, true, a, b, fun _ x y => if x.toInt < y.toInt then 1 else 0)
  | .scmpltn d a b => some (d, false, a, b, fun _ x y => if x < y then 1 else 0)
  | .spopc d a => some (d, false, a, .zero, fun _ x _ => BitVec.ofNat 64 ((List.range 64).countP x.getLsbD))
  | .sclz d a => some (d, false, a, .zero, fun _ x _ => BitVec.ofNat 64 (leadingZeros 64 x.toNat))
  | .sbfx d a b => some (d, false, a, b, fun _ x y => BitVec.ofNat 64 (bitField 64 x.toNat (fld y 5 0) (fld y 14 8) (y.getLsbD 15)))
  | .amov d a => some (d, false, a, .zero, fun _ x _ => x)
  | .aadd d a b => some (d, true, a, b, fun _ x y => x + y)
  | _ => none

/-- With its sources read, some lane enabled and its destination writable, the destination takes the result; with no lane
enabled nothing is written. Either way the band goes on, and nothing else changes. -/
def ScalarResults : Prop :=
  ∀ (i : Instr) (s : State) (b : Band) (d a c : Opnd) (signed : Bool) (f : Bool → W64 → W64 → W64) (x y : W64) (l : W32),
    scalarRule i = some (d, signed, a, c, f) → Stands i b s →
    (acting b s).scalarSrc b signed a = .ok x → (acting b s).scalarSrc b signed c = .ok y → (acting b s).lanesOf b = .ok l →
    (l = 0 ∨ putReady b d (acting b s) = true) →
    exec i s = .next (past i b s (if l = 0 then acting b s else put b d (f b.sat x y) (acting b s)))

/-- R289: quotient and remainder. -/
def divRule : Instr → Option (Fin 64 × Bool × Opnd × Opnd × (Bool → W64 → W64 → W64))
  | .sdiv (.s n) a b => some (n, true, a, b, fun sat x y => if y = 0 then ~~~ 0#64 else sat64 sat (x.toInt.tdiv y.toInt))
  | .sdivn (.s n) a b => some (n, false, a, b, fun _ x y => if y = 0 then ~~~ 0#64 else x / y)
  | .smod (.s n) a b => some (n, true, a, b, fun _ x y => if y = 0 then x else BitVec.ofInt 64 (x.toInt.tmod y.toInt))
  | _ => none

/-- An arithmetic-class word with a scalar result has issued: an operation of the band is under way with that result, its name awaits
the operation, and the clause's arithmetic flag counts it (R145, R170). -/
def arithScalar (b : Band) (n : Fin 64) (x : W64) (fps : BitVec 6) (t : State) : State :=
  (t.startOp b true (.arith .tagS (.scalar x) fps)).awaitS b n.val t.nextUid 0

/-- R170: the flag that counts the operation is below 63, or the clause names none. -/
def flagFree (b : Band) (arith : Bool) : Bool :=
  match b.flagOf arith with
  | none => true
  | some k => b.f.toArray.getD k 0 != 63

/-- R289: SDIV, SDIVN and SMOD, which never trap on zero, start an operation that holds the quotient or the remainder. -/
def ScalarDivisionsStartWithTheirResult : Prop :=
  ∀ (i : Instr) (s : State) (b : Band) (n : Fin 64) (a c : Opnd) (signed : Bool) (f : Bool → W64 → W64 → W64) (x y : W64) (l : W32),
    divRule i = some (n, signed, a, c, f) → Stands i b s →
    (acting b s).scalarSrc b signed a = .ok x → (acting b s).scalarSrc b signed c = .ok y → (acting b s).lanesOf b = .ok l →
    (l = 0 ∨ flagFree b true = true ∧ (acting b s).canAlloc b 0 1 = true) →
    exec i s = .next (past i b s (if l = 0 then acting b s else arithScalar b n (f b.sat x y) 0 (acting b s)))

/-- R290, R291: the scalar instructions with an immediate, or that keep part of their destination; `v` is the value they write. -/
inductive ScalarImm : Instr → Band → State → Opnd → W64 → Prop where
  | smovi (d : Opnd) (imm : BitVec 16) (b : Band) (s : State) : ScalarImm (.smovi d imm) b s d (imm.signExtend 64)
  | smovh (d : Opnd) (imm : BitVec 16) (b : Band) (s : State) (x : W64) (h : s.scalarSrc b false d = .ok x) :
      ScalarImm (.smovh d imm) b s d ((x <<< 16) ||| imm.setWidth 64)
  | saddi (d a : Opnd) (imm : BitVec 8) (b : Band) (s : State) (x : W64) (h : s.scalarSrc b true a = .ok x) :
      ScalarImm (.saddi d a imm) b s d (sat64 b.sat (x.toInt + imm.toInt))
  | sbfi (d a c : Opnd) (b : Band) (s : State) (x y z : W64) (hx : s.scalarSrc b false a = .ok x) (hy : s.scalarSrc b false c = .ok y)
      (hz : s.scalarSrc b false d = .ok z) : ScalarImm (.sbfi d a c) b s d (sbfiOf z x (fld y 5 0) (fld y 14 8))

/-- R290, R291: the instructions with an immediate and SBFI write their value where a lane is enabled. -/
def ScalarImmediateResults : Prop :=
  ∀ (i : Instr) (s : State) (b : Band) (d : Opnd) (v : W64) (l : W32),
    ScalarImm i b (acting b s) d v → Stands i b s → (acting b s).lanesOf b = .ok l → (l = 0 ∨ putReady b d (acting b s) = true) →
    exec i s = .next (past i b s (if l = 0 then acting b s else put b d v (acting b s)))

/-- R292: BSET writes the base and the length of a modulo buffer, from two scalar sources or from another buffer register. -/
def BufferRegisterResults : Prop :=
  ∀ (s : State) (b : Band) (n : Fin 8) (a c : Opnd) (x y : W64) (l : W32),
    Stands (.bset (.b n) a c) b s → (acting b s).lanesOf b = .ok l →
    ((∃ k, a = .b k ∧ c = .v 0 ∧ (x, y) = b.b.toArray.getD k.val (0, 0)) ∨
      a.isB = false ∧ (acting b s).scalarSrc b false a = .ok x ∧ (acting b s).scalarSrc b false c = .ok y) →
    exec (.bset (.b n) a c) s = .next (past (.bset (.b n) a c) b s
      (if l = 0 then acting b s else (acting b s).modBand b.uid fun e => { e with b := e.b.setIfInBounds n.val (x, y) }))

/-- R293, R294, R296: words that write a mask register whatever EXEC holds: the destination and the value. -/
inductive MaskWord : Instr → Band → State → Fin 16 → W32 → Prop where
  | mand (n : Fin 16) (a c : Opnd) (b : Band) (s : State) (x y : W32) (hx : s.maskSrc b a = .ok x) (hy : s.maskSrc b c = .ok y) :
      MaskWord (.mand (.m n) a c) b s n (x &&& y)
  | mor (n : Fin 16) (a c : Opnd) (b : Band) (s : State) (x y : W32) (hx : s.maskSrc b a = .ok x) (hy : s.maskSrc b c = .ok y) :
      MaskWord (.mor (.m n) a c) b s n (x ||| y)
  | mxor (n : Fin 16) (a c : Opnd) (b : Band) (s : State) (x y : W32) (hx : s.maskSrc b a = .ok x) (hy : s.maskSrc b c = .ok y) :
      MaskWord (.mxor (.m n) a c) b s n (x ^^^ y)
  | mandn (n : Fin 16) (a c : Opnd) (b : Band) (s : State) (x y : W32) (hx : s.maskSrc b a = .ok x) (hy : s.maskSrc b c = .ok y) :
      MaskWord (.mandn (.m n) a c) b s n (x &&& ~~~ y)
  | mnot (n : Fin 16) (a : Opnd) (b : Band) (s : State) (x : W32) (hx : s.maskSrc b a = .ok x) : MaskWord (.mnot (.m n) a) b s n (~~~ x)
  | mmov (n : Fin 16) (a : Opnd) (b : Band) (s : State) (x : W32) (hx : s.maskSrc b a = .ok x) : MaskWord (.mmov (.m n) a) b s n x
  | mseti (n : Fin 16) (imm : W32) (b : Band) (s : State) : MaskWord (.mseti (.m n) imm) b s n imm
  | mlane (n : Fin 16) (a : Opnd) (b : Band) (s : State) (x : W64) (hx : s.scalarSrc b false a = .ok x) :
      MaskWord (.mlane (.m n) a) b s n (if x.toNat < 32 then 1#32 <<< x.toNat else 0)

/-- R293, R294: the words that write a mask register write all of it, whatever EXEC holds. -/
def MaskResults : Prop :=
  ∀ (i : Instr) (s : State) (b : Band) (n : Fin 16) (v : W32),
    MaskWord i b (acting b s) n v → Stands i b s → (acting b s).regPending b none none (some n.val) = false →
    exec i s = .next (past i b s ((acting b s).putM b n.val v))

/-- R140, R294, R297, R312: words that read the band's own state into a scalar or address register, whatever EXEC holds. -/
inductive StateWord : Instr → Band → State → Opnd → W64 → Prop where
  | mmovS (n : Fin 64) (a : Opnd) (b : Band) (s : State) (x : W32) (hx : s.maskSrc b a = .ok x) :
      StateWord (.mmov (.s n) a) b s (.s n) (x.setWidth 64)
  | mpopc (d a : Opnd) (b : Band) (s : State) (x : W32) (hx : s.maskSrc b a = .ok x) :
      StateWord (.mpopc d a) b s d (BitVec.ofNat 64 ((List.range 32).countP x.getLsbD))
  | mffs (d a : Opnd) (b : Band) (s : State) (x : W32) (hx : s.maskSrc b a = .ok x) :
      StateWord (.mffs d a) b s d (BitVec.ofNat 64 (((List.range 32).find? x.getLsbD).getD 32))
  | getmode (d : Opnd) (b : Band) (s : State) : StateWord (.getmode d) b s d (b.mode.setWidth 64)
  | sget (d : Opnd) (k : BitVec 8) (b : Band) (s : State) : StateWord (.sget d k) b s d (s.special b k.toNat)
  | fpsget (d : Opnd) (b : Band) (s : State) (h : s.arithDone b = true) : StateWord (.fpsget d) b s d (b.fps.setWidth 64)
  | wdepth (d : Opnd) (b : Band) (s : State) : StateWord (.wdepth d) b s d (BitVec.ofNat 64 b.depth)

/-- R294, R296, R297, R298, R312: the words that read the band's own state write it into a scalar or address register. -/
def StateReadResults : Prop :=
  ∀ (i : Instr) (s : State) (b : Band) (d : Opnd) (v : W64),
    StateWord i b (acting b s) d v → Stands i b s → putReady b d (acting b s) = true →
    exec i s = .next (past i b s (put b d v (acting b s)))

/-- R182, R295: MODE as SETMODE and SETMM write it, unless the value is refused. -/
def newMode : Instr → W32 → Option W32
  | .setmode imm, m => some ((m &&& 0xFFFF0000) ||| ((imm &&& 0x1FFF).setWidth 32))
  | .setmm imm, m => some ((m &&& 0x0000FFFF) ||| (imm.setWidth 32 <<< 16))
  | _, _ => none

/-- R182, R296: SETMODE and SETMM write their half of MODE, or take the illegal-operand trap where the new MODE is refused. -/
def ModeWrites : Prop :=
  ∀ (i : Instr) (s : State) (b : Band) (m : W32), newMode i b.mode = some m → Stands i b s →
    (modeRefused m = false → exec i s = .next (past i b s ((acting b s).modBand b.uid fun c => { c with mode := m }))) ∧
    (modeRefused m = true → exec i s = .next (s.takeTrap b (b.trapAt false 1 0x02 0 ((encodeWord i).setWidth 64) 0)))

/-- R144, R163, R297, R313, R373: words that change the band's own registers and flags otherwise: FPSCLR clears what its immediate or
its register names, SIGCLR clears the signature but in a handler, FREE unmaps names. -/
inductive BandWord : Instr → Band → State → (Band → Band) → Prop where
  | fpsclrZ (imm : BitVec 6) (b : Band) (s : State) (h : s.arithDone b = true) :
      BandWord (.fpsclr .zero imm) b s fun c => { c with fps := b.fps &&& ~~~ (imm.setWidth 32) }
  | fpsclrS (n : Fin 64) (imm : BitVec 6) (b : Band) (s : State) (x : W64) (h : s.arithDone b = true) (hx : b.readS n.val = .ok x) :
      BandWord (.fpsclr (.s n) imm) b s fun c => { c with fps := b.fps &&& ~~~ ((imm ||| x.setWidth 6).setWidth 32) }
  | sigclr (b : Band) (s : State) : BandWord .sigclr b s fun c => { c with sig := if b.inHandler then b.sig else 0 }
  | free (d a e : Opnd) (b : Band) (s : State) : BandWord (.free d a e) b s fun c => ((c.freeName d).freeName a).freeName e
  | nop (b : Band) (s : State) : BandWord .nop b s id
  | yield (b : Band) (s : State) : BandWord .yield b s id
  | halt (b : Band) (s : State) : BandWord .halt b s fun c => { c with halted := true }
  | wsync (b : Band) (s : State) (h : b.transferring = false) (hf : b.winFault = none) : BandWord .wsync b s id
  | sigchk (imm : W32) (b : Band) (s : State) (h : b.inHandler = true ∨ b.sig = imm) : BandWord (.sigchk imm) b s id

/-- R144, R163, R297, R304, R311, R313: FPSCLR, SIGCLR, FREE and their like change the band's own registers and nothing else; NOP and YIELD change none. -/
def BandStateResults : Prop :=
  ∀ (i : Instr) (s : State) (b : Band) (f : Band → Band), BandWord i b (acting b s) f → Stands i b s →
    exec i s = .next (past i b s ((acting b s).modBand b.uid f))

/-- R176, R299: the branches: their offset, and whether they are taken. -/
inductive Branch : Instr → Band → State → W64 → Bool → Prop where
  | br (off : BitVec 24) (b : Band) (s : State) : Branch (.br off) b s (off.signExtend 64) true
  | brz (p : Opnd) (off : BitVec 16) (b : Band) (s : State) (x : W64) (h : s.testReg b p = .ok x) :
      Branch (.brz p off) b s (off.signExtend 64) (decide (x = 0))
  | brnz (p : Opnd) (off : BitVec 16) (b : Band) (s : State) (x : W64) (h : s.testReg b p = .ok x) :
      Branch (.brnz p off) b s (off.signExtend 64) (decide (x ≠ 0))
  | bzm (p : Opnd) (off : BitVec 16) (b : Band) (s : State) (x : W32) (h : s.testMask b p = .ok x) :
      Branch (.bzm p off) b s (off.signExtend 64) (decide (x = 0))
  | bnzm (p : Opnd) (off : BitVec 16) (b : Band) (s : State) (x : W32) (h : s.testMask b p = .ok x) :
      Branch (.bnzm p off) b s (off.signExtend 64) (decide (x ≠ 0))
  | ballm (p : Opnd) (off : BitVec 16) (b : Band) (s : State) (x : W32) (h : s.testMask b p = .ok x) :
      Branch (.ballm p off) b s (off.signExtend 64) (decide (x = 0xFFFFFFFF))

/-- The address that a branch or loop with word offset `off` names, modulo 2^57 (R168, R176). -/
def targetOf (b : Band) (off : W64) : W64 := va57 (b.pc + 4 * (1 + off))

/-- R176, R299: a branch that is taken goes to the header that its offset names, or takes the illegal-target trap where no header is there; one that is not goes on. -/
def BranchResults : Prop :=
  ∀ (i : Instr) (s : State) (b : Band) (off : W64) (taken : Bool), Branch i b (acting b s) off taken → Stands i b s →
    (taken = false → exec i s = .next (past i b s (acting b s))) ∧
    (taken = true → (acting b s).notHeader b (targetOf b off) = false → exec i s = .next (gone i b s (acting b s) (targetOf b off))) ∧
    (taken = true → (acting b s).notHeader b (targetOf b off) = true →
      exec i s = .next (s.takeTrap b (b.trapAt true 1 0x03 0 (targetOf b off) 0)))

/-- R300, R173: LOOP counts down in its register and is taken until the count is zero; taken to a target that is no header it takes the
illegal-target trap and counts nothing. -/
def LoopCountsDown : Prop :=
  ∀ (s : State) (b : Band) (n : Fin 64) (off : BitVec 16) (x : W64),
    Stands (.loop (.s n) off) b s → b.readS n.val = .ok x → (acting b s).canAlloc b 0 1 = true →
    (x = 1 → exec (.loop (.s n) off) s = .next (past (.loop (.s n) off) b s ((acting b s).putS b n.val 0))) ∧
    (x ≠ 1 → (acting b s).notHeader b (targetOf b (off.signExtend 64)) = false →
      exec (.loop (.s n) off) s =
        .next (gone (.loop (.s n) off) b s ((acting b s).putS b n.val (x - 1)) (targetOf b (off.signExtend 64)))) ∧
    (x ≠ 1 → (acting b s).notHeader b (targetOf b (off.signExtend 64)) = true →
      exec (.loop (.s n) off) s = .next (s.takeTrap b (b.trapAt true 1 0x03 0 (targetOf b (off.signExtend 64)) 0)))

/-- R301, R302: calls: the callee's target and slide. -/
inductive Call : Instr → Band → State → BitVec 8 → W64 → Prop where
  | call (n : BitVec 8) (off : BitVec 16) (b : Band) (s : State) (h : s.notHeader b (targetOf b (off.signExtend 64)) = false) :
      Call (.call n off) b s n (targetOf b (off.signExtend 64))
  | calli (n : BitVec 8) (p : Opnd) (b : Band) (s : State) (x : W64) (hx : s.testReg b p = .ok x)
      (ha : x.toNat % 4 = 0) (hb : x.toNat < 2 ^ 57) (h : s.notHeader b (va57 x) = false) : Call (.calli n p) b s n x

/-- R149, R151: with no recorded window fault and room in the spill area, the window slides by N with the return address at the next
header, and control goes to the target; without room the window-overflow trap is taken. R157: a transfer that is being tried again comes
first. -/
def CallResults : Prop :=
  ∀ (i : Instr) (s : State) (b : Band) (n : BitVec 8) (t : W64), Call i b (acting b s) n t → Stands i b s → b.winFault = none →
    (b.retrying ≠ none → exec i s = .next (heldAt i b s)) ∧
    (b.retrying = none → (b.depth + 2) * 8192 ≤ (acting b s).spillSize b →
      exec i s = .next (gone i b s ((acting b s).modBand b.uid fun c => c.slide n.toNat b.clauseEnd) t)) ∧
    (b.retrying = none → (acting b s).spillSize b < (b.depth + 2) * 8192 →
      exec i s = .next (s.takeTrap b (b.trapAt true (len i) 0x20 0 (BitVec.ofNat 64 b.depth) (BitVec.ofNat 64 ((acting b s).spillSize b)))))

/-- R152, R303: RET with a resident newest frame slides the window back and goes to the return address; with no frame it takes the
illegal-state trap. R157: it waits for its frame, and for a transfer that is being tried again. -/
def ReturnResults : Prop :=
  ∀ (s : State) (b : Band), Stands .ret b s →
    (∀ f rest, b.frames = f :: rest → b.winFault = none → f.loc ≠ .resident ∨ b.retrying ≠ none → exec .ret s = .next (heldAt .ret b s)) ∧
    (∀ f rest, b.frames = f :: rest → b.winFault = none → f.loc = .resident → b.retrying = none → f.retpc.toNat % 4 = 0 → f.retpc.toNat < 2 ^ 57 →
      (acting b s).notHeader b (va57 f.retpc) = false →
      exec .ret s = .next (gone .ret b s ((acting b s).modBand b.uid fun c => c.unslide.refillNewest) f.retpc)) ∧
    (b.frames = [] → exec .ret s = .next (s.takeTrap b (b.trapAt true 1 0x23 0 ((encodeWord .ret).setWidth 64) 0)))

/-- R302: JMPI goes to the header that its register names. -/
def IndirectJumpResults : Prop :=
  ∀ (s : State) (b : Band) (p : Opnd) (x : W64), Stands (.jmpi p) b s → (acting b s).testReg b p = .ok x →
    (x.toNat % 4 = 0 → x.toNat < 2 ^ 57 → (acting b s).notHeader b (va57 x) = false →
      exec (.jmpi p) s = .next (gone (.jmpi p) b s (acting b s) x)) ∧
    (x.toNat % 4 ≠ 0 ∨ 2 ^ 57 ≤ x.toNat → exec (.jmpi p) s = .next (s.takeTrap b (b.trapAt true 1 0x03 0 x 0)))

/-- R371, R372: the trap state that s24 to s31 hold at a handler's entry. -/
def trapState (b : Band) (t : Trap) : List W64 :=
  [t.code.setWidth 64 + BitVec.ofNat 64 (256 * (t.lane % 32)) + (if b.latValid then 0x2000 else 0) + (if t.atHdr then 0x4000 else 0),
    t.pc, t.s26, t.s27, t.hdr, t.skip, b.exec.setWidth 64, b.mode.setWidth 64]

/-- R371: a trap that is taken outside a handler, with a valid handler and registers for it, pushes a frame as CALL with slide 16 does,
writes the trap state into s24 to s31 and lat into v63, sets EXEC to all ones and MODE to zero, and goes to the handler's header;
the rest of the package is as the plain load of the handler's entry leaves it. -/
def TrapEntersHandler : Prop :=
  ∀ (s : State) (b : Band) (t : Trap) (h : W64) (p : Bool) (l : Launch), s.upset = 0 →
    s.launch? b.launch = some l → l.kills = [] → b.inHandler = false → t.code ≠ 0x28 → t.code ≠ 0x29 →
    s.hostAssisted t.code.toNat = false → s.handler b t.code.toNat = .entry h p → s.canAlloc b 1 8 = true →
    ∃ c, s.takeTrap b t = (s.handlerTouch b t.code.toNat).setBand c ∧
      c.frames = ⟨t.pc, 16, b.v.toList.take 16, b.s.toList.take 8, .resident⟩ :: b.frames ∧
      (∀ k, k < 8 → c.sName (24 + k) = .ofVal ((trapState b t).getD k 0)) ∧
      c.vName 63 = ⟨b.lat, .priv, none⟩ ∧ (∀ k, k < 48 → c.vName k = b.vName (k + 16)) ∧
      (∀ k, k < 24 → c.sName k = b.sName (k + 8)) ∧ (∀ k, 32 ≤ k → c.sName k = b.sName k) ∧
      c.exec = 0xFFFFFFFF ∧ (∀ k, 0 < k → k < 16 → c.m.toArray.getD k 0 = b.m.toArray.getD k 0) ∧ c.mode = 0 ∧ c.latValid = false ∧
      c.inHandler = true ∧ c.privileged = (p || l.lr.priv) ∧ c.hdr = va57 h ∧ c.pc = va57 h ∧ c.clause = none ∧
      c.o = b.o ∧ c.a = b.a ∧ c.b = b.b ∧ c.f = b.f ∧ c.fps = b.fps ∧ c.sig = b.sig ∧ c.srseq = b.srseq ∧ c.uid = b.uid

/-- R371, R373, R376: a trap without a valid handler, and any trap in a handler, kills the launch with the trap's code; so do the
signature and mask-check traps, whose kill is a silent error's. A handler's entry that is damaged is consumed (R47). The band goes no
further. -/
def TrapWithoutHandlerKills : Prop :=
  ∀ (s : State) (b : Band) (t : Trap) (l : Launch), s.launch? b.launch = some l → l.kills = [] →
    (b.inHandler = true → s.takeTrap b t = (s.decideKill b.launch (.trap t.code false)).stopAt b.uid) ∧
    (b.inHandler = false → t.code ≠ 0x28 → t.code ≠ 0x29 → s.hostAssisted t.code.toNat = false →
      (s.handler b t.code.toNat = .absent →
        s.takeTrap b t = ((s.handlerTouch b t.code.toNat).decideKill b.launch (.trap t.code false)).stopAt b.uid) ∧
      (∀ ds, s.handler b t.code.toNat = .damaged ds →
        s.takeTrap b t = ((s.consumeAll b ds).decideKill b.launch (.trap t.code false)).stopAt b.uid)) ∧
    (b.inHandler = false → t.code = 0x28 ∨ t.code = 0x29 →
      s.takeTrap b t = (s.decideKill b.launch (.trap t.code true)).stopAt b.uid)

/-- R391, R392: in host-assisted mode a page fault of translation, and a window fault, suspends the band at its word instead and
reports it to the host. -/
def HostAssistedTrapSuspends : Prop :=
  ∀ (s : State) (b : Band) (t : Trap) (l : Launch), s.launch? b.launch = some l → l.kills = [] → b.inHandler = false →
    ((s.num 0x844).getLsbD 63 = true ∧ (t.code = 0x11 ∨ t.code = 0x12 ∨ t.code = 0x13 ∨ t.code = 0x18 ∨ t.code = 0x19) ∨
      (s.num 0x844).getLsbD 62 = true ∧ t.code = 0x21) →
    s.takeTrap b t =
      (s.setBand { b with trap := some t, suspended := true, wait := none, tried := none, stalled := none, held := true }).post
        (s.suspendEvent b t)

/-- R386: MSETI of m0 whose 32 bits the shadow unit forms with another residue modulo 255 issues, and the mask-check trap kills the launch
before the band's next word. -/
def MaskCheckKills : Prop :=
  ∀ (s : State) (b : Band) (imm : W32) (l : Launch), Legal (.mseti (.m 0) imm) b → s.bandAt s.cur = some b → b.canIssue = true →
    s.launch? b.launch = some l → l.kills = [] → b.inHandler = false → (acting b s).regPending b none none (some 0) = false →
    imm.toNat % 255 ≠ (imm ^^^ s.upset).toNat % 255 →
    exec (.mseti (.m 0) imm) s =
      .next (((past (.mseti (.m 0) imm) b s ((acting b s).putM b 0 imm)).decideKill b.launch (.trap 0x29 true)).stopAt b.uid)

/-! ## Vector words -/

/-- A name that a word writes in some lanes only must not await a result (R143, log 18). -/
def keeps (b : Band) (n : Nat) (lanes : W32) : Bool := !((b.vName n).pend.isSome && lanes != ~~~ 0#32)

/-- Whether a word's elements of a type can be written to its destination at once: a pair of a 64-bit type begins at an even register
(R16), names are not waited for and the pool has room (R142), and no load of an o register is outstanding (R147). -/
def vputReady (b : Band) (typ : Nat) (d : Opnd) (lanes : W32) (t : State) : Bool :=
  let two := typeBits typ == 64
  match d with
  | .v n => (!two || n.val % 2 == 0) && (lanes == 0 ||
      keeps b n.val lanes && (!two || keeps b (n.val + 1) lanes) && t.canAlloc b (if two then 2 else 1) 0)
  | .o n => (!two || n.val % 2 == 0) && (lanes == 0 ||
      !t.regPending b (some n.val) none none && (!two || !t.regPending b (some (n.val + 1)) none none))
  | _ => false

/-- R148: lat takes the whole value of the register written, which must not await a result where no lane is enabled. -/
def wholeThere (b : Band) (typ : Nat) (d : Opnd) (lanes : W32) (t : State) : Bool :=
  typeBits typ == 64 || lanes != 0 || match d with
    | .v n => (b.vName n.val).pend.isNone
    | .o n => !t.regPending b (some n.val) none none
    | _ => true

/-- One register of a destination in the enabled lanes, the other lanes as they were (R143). -/
def put1 (b : Band) (d : Opnd) (k : Nat) (x : VReg) (lanes : W32) (t : State) : State :=
  match d with
  | .v n => t.putV b (n.val + k) x lanes
  | .o n => t.putO b (n.val + k) x lanes
  | _ => t

/-- Elements of a type written to a destination in the enabled lanes: extended to 32 bits in one register, or as a pair (R16). A vector
ALU word of one register puts its whole new value into lat (R148). -/
def vput (b : Band) (typ : Nat) (d : Opnd) (g : Nat → Nat) (lanes : W32) (alu : Bool) (t : State) : State :=
  if typeBits typ = 64 then
    if lanes = 0 then t
    else put1 b d 1 (VReg.ofFn fun k => BitVec.ofNat 32 (g k / 2 ^ 32)) lanes (put1 b d 0 (VReg.ofFn fun k => BitVec.ofNat 32 (g k)) lanes t)
  else
    let t := if lanes = 0 then t else put1 b d 0 (VReg.ofFn fun k => laneImage typ (g k)) lanes t
    if alu then t.latFrom b d else t

/-- R222 to R224: words with two sources of the type, or one (its second is zero): destination, sources, whether only integer types are
accepted, and a lane's element from its number and its sources. -/
def lane2 : Instr → Option (Opnd × Opnd × Opnd × Bool × (Band → Nat → Nat → Nat → Nat))
  | .vadd d a c => some (d, a, c, true, fun b _ x y => narrow b b.typ (elemInt b.typ x + elemInt b.typ y))
  | .vsub d a c => some (d, a, c, true, fun b _ x y => narrow b b.typ (elemInt b.typ x - elemInt b.typ y))
  | .vmul d a c => some (d, a, c, true, fun b _ x y => narrow b b.typ (elemInt b.typ x * elemInt b.typ y))
  | .vmulh d a c => some (d, a, c, true, fun b _ x y => mulHigh b.typ x y)
  | .vand d a c => some (d, a, c, false, fun _ _ x y => x &&& y)
  | .vor d a c => some (d, a, c, false, fun _ _ x y => x ||| y)
  | .vxor d a c => some (d, a, c, false, fun _ _ x y => x ^^^ y)
  | .vnot d a => some (d, a, .zero, false, fun b _ x _ => 2 ^ typeBits b.typ - 1 - x)
  | .vmin d a c => some (d, a, c, true, fun b _ x y => if elemInt b.typ x ≤ elemInt b.typ y then x else y)
  | .vmax d a c => some (d, a, c, true, fun b _ x y => if elemInt b.typ y ≤ elemInt b.typ x then x else y)
  | .vabs d a => some (d, a, .zero, true, fun b _ x _ => narrow b b.typ |elemInt b.typ x|)
  | .vneg d a => some (d, a, .zero, true, fun b _ x _ => narrow b b.typ (-elemInt b.typ x))
  | .vmov d a => some (d, a, .zero, false, fun _ _ x _ => x)
  | .vpopc d a => some (d, a, .zero, false, fun b _ x _ => (List.range (typeBits b.typ)).countP x.testBit)
  | .vclz d a => some (d, a, .zero, false, fun b _ x _ => leadingZeros (typeBits b.typ) x)
  | .vidx d a c => some (d, a, c, true, fun b k x y => narrow b b.typ (elemInt b.typ x + k * elemInt b.typ y))
  | _ => none

/-- R222, R223: words whose second source is a count or a field descriptor in bits 31:0 of each lane. -/
def laneShift : Instr → Option (Opnd × Opnd × Opnd × (Nat → Nat → Nat → Nat))
  | .vshl d a c => some (d, a, c, shiftLeft)
  | .vshr d a c => some (d, a, c, shiftRight)
  | .vbfx d a c => some (d, a, c, fun t x f => if f / 2 ^ 8 % 128 = 0 then 0 else fieldOf t x f)
  | _ => none

/-- R229: float words on bits: FCLASS and FKEY among them (FKEY not of FP64). -/
def laneBits : Instr → Option (Opnd × Opnd × Bool × (Fmt → Nat → Nat))
  | .fabs d a => some (d, a, true, fun f x => x % f.signBit)
  | .fneg d a => some (d, a, true, fun f x => if f.signBit ≤ x then x - f.signBit else x + f.signBit)
  | .fclass d a => some (d, a, true, classOf)
  | .fkey d a => some (d, a, false, fkey)
  | _ => none

/-- A word computes `g k` for lane k of its destination, an element of MODE's type. -/
inductive LaneWord : Instr → Band → State → Opnd → (Nat → Nat) → Prop where
  | two (i : Instr) (b : Band) (s : State) (d a c : Opnd) (ints : Bool) (f : Band → Nat → Nat → Nat → Nat) (x y : Nat → Nat)
      (hi : lane2 i = some (d, a, c, ints, f)) (ht : ints = true → b.typ < 8)
      (hx : s.lanesSrc b b.typ a = .ok x) (hy : s.lanesSrc b b.typ c = .ok y) : LaneWord i b s d fun k => f b k (x k) (y k)
  | shift (i : Instr) (b : Band) (s : State) (d a c : Opnd) (f : Nat → Nat → Nat → Nat) (x n : Nat → Nat)
      (hi : laneShift i = some (d, a, c, f)) (ht : b.typ < 8) (hx : s.lanesSrc b b.typ a = .ok x) (hn : s.countSrc b b.typ c = .ok n) :
      LaneWord i b s d fun k => f b.typ (x k) (n k)
  | bits (i : Instr) (b : Band) (s : State) (d a : Opnd) (wide : Bool) (f : Fmt → Nat → Nat) (ft : Fmt) (x : Nat → Nat)
      (hi : laneBits i = some (d, a, wide, f)) (ht : 8 ≤ b.typ) (hf : fmtOf b.typ = some ft) (hw : wide = true ∨ b.typ ≠ 11)
      (hx : s.lanesSrc b b.typ a = .ok x) : LaneWord i b s d fun k => f ft (x k)
  | vmad (b : Band) (s : State) (d a c : Opnd) (x y z : Nat → Nat) (ht : b.typ < 8) (hx : s.lanesSrc b b.typ a = .ok x)
      (hy : s.lanesSrc b b.typ c = .ok y) (hz : s.lanesSrc b b.typ d = .ok z) :
      LaneWord (.vmad d a c) b s d fun k => narrow b b.typ (elemInt b.typ (z k) + elemInt b.typ (x k) * elemInt b.typ (y k))
  | vdot4 (b : Band) (s : State) (d a c : Opnd) (x y z : Nat → Nat) (ht : b.typ = 2 ∨ b.typ = 6) (hx : s.lanesSrc b b.typ a = .ok x)
      (hy : s.lanesSrc b b.typ c = .ok y) (hz : s.lanesSrc b b.typ d = .ok z) :
      LaneWord (.vdot4 d a c) b s d fun k => narrow b b.typ (elemInt b.typ (z k) + dot4 (decide (b.typ = 2)) (x k) (y k))
  | vmovi (b : Band) (s : State) (d : Opnd) (imm : BitVec 16) : LaneWord (.vmovi d imm) b s d fun _ => moviBits b.typ imm
  | vbcast (b : Band) (s : State) (d a c : Opnd) (x : Nat → Nat) (n : W64) (hx : s.lanesSrc b b.typ a = .ok x)
      (hn : s.scalarSrc b false c = .ok n) : LaneWord (.vbcast d a c) b s d fun _ => x (n.toNat % 32)

/-- The vector ALU words write the enabled lanes of their destination, keep the others, and put a single register's whole value
into lat. -/
def VectorAluResults : Prop :=
  ∀ (i : Instr) (s : State) (b : Band) (d : Opnd) (g : Nat → Nat) (l : W32), LaneWord i b (acting b s) d g → Stands i b s →
    (acting b s).lanesOf b = .ok l → vputReady b b.typ d l (acting b s) = true → wholeThere b b.typ d l (acting b s) = true →
    exec i s = .next (past i b s (vput b b.typ d g l true (acting b s)))

/-- R224: VSEL writes every lane: an enabled lane from A, another from B. -/
def VectorSelectResults : Prop :=
  ∀ (s : State) (b : Band) (d a c : Opnd) (x y : Nat → Nat) (l : W32), Stands (.vsel d a c) b s →
    (acting b s).lanesSrc b b.typ a = .ok x → (acting b s).lanesSrc b b.typ c = .ok y → (acting b s).lanesOf b = .ok l →
    vputReady b b.typ d (~~~ 0#32) (acting b s) = true →
    exec (.vsel d a c) s = .next (past (.vsel d a c) b s
      (vput b b.typ d (fun k => if l.getLsbD k then x k else y k) (~~~ 0#32) true (acting b s)))

/-- R225: integer comparisons. -/
def intCompare : Instr → Option (Opnd × Opnd × Opnd × (Int → Int → Bool))
  | .vceq d a c => some (d, a, c, fun x y => x = y)
  | .vcne d a c => some (d, a, c, fun x y => x ≠ y)
  | .vclt d a c => some (d, a, c, fun x y => x < y)
  | .vcle d a c => some (d, a, c, fun x y => x ≤ y)
  | .vcgt d a c => some (d, a, c, fun x y => x > y)
  | .vcge d a c => some (d, a, c, fun x y => x ≥ y)
  | _ => none

/-- R230: float comparisons: whether any NaN is invalid, and the relation. -/
def floatCompare : Instr → Option (Opnd × Opnd × Opnd × Bool × (Machine.Num → Machine.Num → Bool))
  | .fceq d a c => some (d, a, c, false, fun x y => !x.isNan && !y.isNan && x.cmp y == .eq)
  | .fclt d a c => some (d, a, c, true, fun x y => !x.isNan && !y.isNan && x.cmp y == .lt)
  | .fcle d a c => some (d, a, c, true, fun x y => !x.isNan && !y.isNan && x.cmp y != .gt)
  | .fcun d a c => some (d, a, c, false, fun x y => x.isNan || y.isNan)
  | _ => none

/-- A mask with its bits of the enabled lanes replaced. -/
def newMask (old lanes : W32) (p : Nat → Bool) : W32 := BitVec.ofFnLE fun (k : Fin 32) => if lanes.getLsbD k then p k else old.getLsbD k

/-- Comparisons replace the mask's bits of the enabled lanes and keep the others; a float comparison adds its status to FPS. -/
def ComparisonResults : Prop :=
  ∀ (i : Instr) (s : State) (b : Band) (n : Fin 16) (a c : Opnd) (x y : Nat → Nat) (l old : W32), Stands i b s →
    (acting b s).lanesSrc b b.typ a = .ok x → (acting b s).lanesSrc b b.typ c = .ok y → (acting b s).lanesOf b = .ok l →
    (acting b s).readM b n.val = .ok old →
    (∀ p, intCompare i = some (.m n, a, c, p) → b.typ < 8 →
      exec i s = .next (past i b s ((acting b s).putM b n.val (newMask old l fun k => p (elemInt b.typ (x k)) (elemInt b.typ (y k)))))) ∧
    (∀ any p f, floatCompare i = some (.m n, a, c, any, p) → 8 ≤ b.typ → fmtOf b.typ = some f →
      exec i s = .next (past i b s (((acting b s).putM b n.val
        (newMask old l fun k => p (readNum f b.ftz (x k)).1 (readNum f b.ftz (y k)).1)).setFps b.uid
        (orLanes l fun k =>
          let u := readNum f b.ftz (x k)
          let v := readNum f b.ftz (y k)
          (0, u.2 ||| v.2 ||| snanFlag u.1 ||| snanFlag v.1 ||| (if any && (u.1.isNan || v.1.isNan) then fNV else 0))))))

/-! ## Words with rounding, and arithmetic-class words (R170) -/

/-- R226, R227: float words of two sources or one: whether they are arithmetic-class, and the exact result with its status. -/
def float2Rule : Instr → Option (Opnd × Opnd × Opnd × Bool × (Nat → Machine.Num → Machine.Num → Machine.Num × BitVec 6))
  | .fadd d a c => some (d, a, c, false, Machine.Num.add)
  | .fsub d a c => some (d, a, c, false, fun m x y => x.add m y.negate)
  | .fmul d a c => some (d, a, c, false, fun _ x y => x.mul y)
  | .fdiv d a c => some (d, a, c, true, fun _ x y => x.div y)
  | _ => none

def float1Rule : Instr → Option (Opnd × Opnd × (Machine.Num → Machine.Num × BitVec 6))
  | .frcp d a => some (d, a, fun x => (Machine.Num.fin false 1 0).div x)
  | .frsq d a => some (d, a, Machine.Num.rsqrt)
  | .fsqrt d a => some (d, a, Machine.Num.sqrt)
  | .fexp2 d a => some (d, a, Machine.Num.exp2)
  | .flog2 d a => some (d, a, Machine.Num.log2)
  | .fsin d a => some (d, a, Machine.Num.sin)
  | .fcos d a => some (d, a, Machine.Num.cos)
  | _ => none

/-- R37, R229: minima and maxima: whether a NaN gives way to a number, and whether the maximum is wanted. -/
def minMaxRule : Instr → Option (Opnd × Opnd × Opnd × Bool × Bool)
  | .fmin d a c => some (d, a, c, false, false)
  | .fmax d a c => some (d, a, c, false, true)
  | .fminnum d a c => some (d, a, c, true, false)
  | .fmaxnum d a c => some (d, a, c, true, true)
  | _ => none

/-- R27 to R32: an exact result rounded under MODE in a lane, and its status. -/
def rounded (s : State) (b : Band) (f : Fmt) (lane : Nat) (x : Machine.Num × BitVec 6) : Nat × BitVec 6 :=
  finish f (roundOf b.rnd (s.srKey b) lane 0) b.sat b.ftz x

/-- How a word with status ends: as an ALU word, with or without lat, or as an arithmetic-class one. -/
inductive Ends where
  | alu
  | plain
  | arith
  deriving DecidableEq, Repr

/-- A word computes for lane k the element and the status `g k`, of type `typ`, rounding under mode `rnd` (5 counts a draw of R31). -/
inductive FloatWord : Instr → Band → State → Nat → Opnd → Ends → Nat → (Nat → Nat × BitVec 6) → Prop where
  | two (i : Instr) (b : Band) (s : State) (d a c : Opnd) (ar : Bool) (op : Nat → Machine.Num → Machine.Num → Machine.Num × BitVec 6) (f : Fmt)
      (x y : Nat → Machine.Num × BitVec 6) (hi : float2Rule i = some (d, a, c, ar, op)) (ht : 8 ≤ b.typ) (hf : fmtOf b.typ = some f)
      (hx : s.numSrc b f a = .ok x) (hy : s.numSrc b f c = .ok y) :
      FloatWord i b s b.typ d (if ar then .arith else .alu) b.rnd fun k =>
        rounded s b f k ((op b.rnd (x k).1 (y k).1).1, (op b.rnd (x k).1 (y k).1).2 ||| (x k).2 ||| (y k).2)
  | one (i : Instr) (b : Band) (s : State) (d a : Opnd) (op : Machine.Num → Machine.Num × BitVec 6) (f : Fmt) (x : Nat → Machine.Num × BitVec 6)
      (hi : float1Rule i = some (d, a, op)) (ht : 8 ≤ b.typ) (hf : fmtOf b.typ = some f) (hx : s.numSrc b f a = .ok x) :
      FloatWord i b s b.typ d .arith b.rnd fun k => rounded s b f k ((op (x k).1).1, (op (x k).1).2 ||| (x k).2)
  | ffma (b : Band) (s : State) (d a c : Opnd) (f : Fmt) (x y z : Nat → Machine.Num × BitVec 6) (ht : 8 ≤ b.typ) (hf : fmtOf b.typ = some f)
      (hx : s.numSrc b f a = .ok x) (hy : s.numSrc b f c = .ok y) (hz : s.numSrc b f d = .ok z) :
      FloatWord (.ffma d a c) b s b.typ d .alu b.rnd fun k =>
        rounded s b f k ((Machine.Num.fma b.rnd (x k).1 (y k).1 (z k).1).1,
          (Machine.Num.fma b.rnd (x k).1 (y k).1 (z k).1).2 ||| (x k).2 ||| (y k).2 ||| (z k).2)
  | fscale (b : Band) (s : State) (d a c : Opnd) (f : Fmt) (x : Nat → Machine.Num × BitVec 6) (n : Nat → Nat) (ht : 8 ≤ b.typ)
      (hf : fmtOf b.typ = some f) (hx : s.numSrc b f a = .ok x) (hn : s.countSrc b b.typ c = .ok n) :
      FloatWord (.fscale d a c) b s b.typ d .alu b.rnd fun k => rounded s b f k ((x k).1.scale (BitVec.ofNat 32 (n k)).toInt, (x k).2)
  | minMax (i : Instr) (b : Band) (s : State) (d a c : Opnd) (num big : Bool) (f : Fmt) (x y : Nat → Nat)
      (hi : minMaxRule i = some (d, a, c, num, big)) (ht : 8 ≤ b.typ) (hf : fmtOf b.typ = some f)
      (hx : s.lanesSrc b b.typ a = .ok x) (hy : s.lanesSrc b b.typ c = .ok y) :
      FloatWord i b s b.typ d .alu 0 fun k => minMax f b.ftz num big (x k) (y k)
  | frnd (b : Band) (s : State) (d a : Opnd) (e : BitVec 1) (r : BitVec 3) (f : Fmt) (x : Nat → Nat) (ht : 8 ≤ b.typ)
      (hf : fmtOf b.typ = some f) (hr : r ≠ 6) (hx : s.lanesSrc b b.typ a = .ok x) :
      FloatWord (.frnd d a e r) b s b.typ d .alu (if r = 7 then b.rnd else r.toNat) fun k =>
        frndOf f b.ftz (e == 1) (roundOf (if r = 7 then b.rnd else r.toNat) (s.srKey b) k 0) (x k)
  | cvt (b : Band) (s : State) (d a : Opnd) (t u : BitVec 4) (x : Nat → Nat) (hx : s.lanesSrc b u.toNat a = .ok x) :
      FloatWord (.cvt d a t u) b s t.toNat d .alu b.rnd fun k =>
        convert u.toNat t.toNat (roundOf b.rnd (s.srKey b) k 0) b.sat b.ftz (x k)
  | scvt (b : Band) (s : State) (d a : Opnd) (k : BitVec 2) (u : BitVec 1) (t : BitVec 4) (x : Nat → Nat) (sc cl : Machine.Num)
      (ht : scvtDst t.toNat = true) (hx : s.lanesSrc b (if u = 1 then 9 else 10) a = .ok x) (hs : b.scaleRegs k.toNat = .ok (sc, cl)) :
      FloatWord (.scvt d a k u t) b s t.toNat d .plain b.rnd fun n =>
        scvtTo t.toNat (roundOf b.rnd (s.srKey b) n 0) b.sat b.ftz
          ((scaleClip (readNum (if u = 1 then bf16 else f32) b.ftz (x n)).1 sc cl).1,
            (scaleClip (readNum (if u = 1 then bf16 else f32) b.ftz (x n)).1 sc cl).2 ||| (readNum (if u = 1 then bf16 else f32) b.ftz (x n)).2)

/-- An arithmetic-class operation starts: the flag counts it and it carries its result; a v destination awaits it (R145, R170). -/
def arithPut (b : Band) (typ : Nat) (d : Opnd) (g : Nat → Nat) (lanes : W32) (fps : BitVec 6) (t : State) : State :=
  let two := typeBits typ == 64
  let lo := VReg.ofFn fun k => if two then BitVec.ofNat 32 (g k) else laneImage typ (g k)
  let hi := if two then VReg.ofFn fun k => BitVec.ofNat 32 (g k / 2 ^ 32) else VReg.zero
  let go := fun (dest : Dest) => t.startOp b true (.arith dest (.vec lo hi lanes) fps)
  if lanes = 0 then go .none
  else
    match d with
    | .v n =>
      let u := (go (.tagV two)).awaitV b n.val t.nextUid 0
      if two then u.awaitV b (n.val + 1) t.nextUid 1 else u
    | .o n => go (.o n.val two)
    | _ => t

/-- R237 to R239: lane exchange, scan and reduction into vector registers: an arithmetic-class operation starts with the elements `g` and
the status `fl`. -/
inductive ArithWord : Instr → Band → State → Opnd → Nat → W32 → Nat → (Nat → Nat) → BitVec 6 → Prop where
  | vshfl (b : Band) (s : State) (d a c : Opnd) (l : W32) (x n : Nat → Nat) (hx : s.lanesSrc b (movedTyp b.typ) a = .ok x)
      (hn : s.laneNumbers b c = .ok n) : ArithWord (.vshfl d a c) b s d (movedTyp b.typ) l 0 (fun k => x (n k % 32)) 0
  | vbfly (b : Band) (s : State) (d a : Opnd) (imm : BitVec 5) (l : W32) (x : Nat → Nat)
      (hx : s.lanesSrc b (movedTyp b.typ) a = .ok x) : ArithWord (.vbfly d a imm) b s d (movedTyp b.typ) l 0 (fun k => x ((k ^^^ imm.toNat) % 32)) 0
  | vrot (b : Band) (s : State) (d a : Opnd) (imm : BitVec 5) (l : W32) (x : Nat → Nat)
      (hx : s.lanesSrc b (movedTyp b.typ) a = .ok x) : ArithWord (.vrot d a imm) b s d (movedTyp b.typ) l 0 (fun k => x ((k + imm.toNat) % 32)) 0
  | vscan (b : Band) (s : State) (d a : Opnd) (e : BitVec 1) (op : BitVec 2) (l : W32) (x : Nat → Nat) (ho : op ≠ 3)
      (hx : s.lanesSrc b b.typ a = .ok x) :
      ArithWord (.vscan d a e op) b s d b.typ l (if op = 0 ∧ 8 ≤ b.typ then b.rnd else 0)
        (fun k => ((scanOf b (s.srKey b) op.toNat (e == 1) l x).getD k (0, 0)).1)
        (orLanes l fun k => (scanOf b (s.srKey b) op.toNat (e == 1) l x).getD k (0, 0))
  | vred (i : Instr) (op : Nat) (b : Band) (s : State) (d a : Opnd) (l : W32) (x : Nat → Nat)
      (hi : i = .vredadd d a ∧ op = 0 ∨ i = .vredmax d a ∧ op = 1 ∨ i = .vredmin d a ∧ op = 2) (hd : d.isS = false)
      (hx : s.lanesSrc b b.typ a = .ok x) :
      ArithWord i b s d b.typ l (if op = 0 ∧ 8 ≤ b.typ then b.rnd else 0) (fun _ => (reduceOf b (s.srKey b) op l x).1)
        (reduceOf b (s.srKey b) op l x).2

/-- R237 to R239: the exchanges, scans and reductions over the lanes, with their results by lane. That float additions advance the
stochastic-rounding count, that the status of a scan step goes with the value that the step makes, and how VSHFL reads its B operand are the
model's readings (DEDUCED, log 29). -/
def ExchangeScanAndReductionResults : Prop :=
  ∀ (i : Instr) (s : State) (b : Band) (d : Opnd) (typ rnd : Nat) (g : Nat → Nat) (fl : BitVec 6) (l : W32),
    ArithWord i b (acting b s) d typ l rnd g fl → Stands i b s → (acting b s).lanesOf b = .ok l →
    vputReady b typ d l (acting b s) = true → flagFree b true = true →
    exec i s = .next (past i b s ((arithPut b typ d g l fl (acting b s)).countSr b rnd))

/-- R238, R240: reductions into a scalar register, and VARGMAX: the greatest key, then the lowest payload and lane; all ones where
no lane is enabled. -/
def ScalarReductionResults : Prop :=
  ∀ (s : State) (b : Band) (n : Fin 64) (a c : Opnd) (x : Nat → Nat) (l : W32), (acting b s).lanesOf b = .ok l →
    (acting b s).lanesSrc b b.typ a = .ok x → flagFree b true = true → (acting b s).canAlloc b 0 1 = true →
    (∀ i op, i = .vredadd (.s n) a ∧ op = 0 ∨ i = .vredmax (.s n) a ∧ op = 1 ∨ i = .vredmin (.s n) a ∧ op = 2 → Stands i b s →
      exec i s = .next (past i b s ((arithScalar b n (scalarImage b.typ (reduceOf b ((acting b s).srKey b) op l x).1)
        (reduceOf b ((acting b s).srKey b) op l x).2 (acting b s)).countSum b op))) ∧
    (∀ p, (acting b s).vecSrc b 6 c = .ok p → typeBits b.typ ≤ 32 → Stands (.vargmax (.s n) a c) b s →
      exec (.vargmax (.s n) a c) s = .next (past (.vargmax (.s n) a c) b s (arithScalar b n
        (match argBest (fun k => orderKey b.typ (x k)) (fun k => (p.lane k).toNat) (laneList l) with
          | none => ~~~ 0#64
          | some k => BitVec.ofNat 64 ((p.lane k).toNat * 2 ^ 32 + x k)) 0 (acting b s))))

/-- R241: VDIST adds to the accumulator of each enabled lane the squared distance, or the inner product, of 32 bytes of eight
registers with a quarter of an o register, rounded once. -/
def distOf (b : Band) (cs : List VReg) (qr acc : VReg) (q : BitVec 2) (f m : BitVec 1) (k : Nat) : Nat × BitVec 6 :=
  finish f32 rne b.sat false (exactSum ((f32.value (acc.lane k).toNat, snanFlag (f32.value (acc.lane k).toNat)) ::
    (List.range (if f = 1 then 32 else 16)).map fun e => distTerm (m == 1)
      (chunkElem (f == 1) (fun n => ((cs.getD (n / 4) VReg.zero).lane k).toNat / 256 ^ (n % 4) % 256) e)
      (chunkElem (f == 1) (fun n => VReg.byte qr (32 * q.toNat + n)) e)))

/-- R241: the distance words, each group of lanes with its exact sum rounded once. -/
def DistanceResults : Prop :=
  ∀ (s : State) (b : Band) (d : Opnd) (n : Fin 64) (q : BitVec 2) (r : BitVec 3) (f m : BitVec 1) (cs : List VReg) (qr acc : VReg) (l : W32),
    Stands (.vdist d (.v n) q r f m) b s → n.val ≤ 56 → (acting b s).lanesOf b = .ok l → b.readBlock n.val 8 = .ok cs →
    (acting b s).readO b r.toNat = .ok qr → (acting b s).vecSrc b 10 d = .ok acc → vputReady b 10 d l (acting b s) = true →
    flagFree b true = true →
    exec (.vdist d (.v n) q r f m) s = .next (past (.vdist d (.v n) q r f m) b s
      (arithPut b 10 d (fun k => (distOf b cs qr acc q f m k).1) l (orLanes l (distOf b cs qr acc q f m)) (acting b s)))

/-- R242, R243: the top-k words merge the candidates into the sorted list of d and d + 1; VTOPK with no lane enabled writes nothing. -/
def TopKResults : Prop :=
  ∀ (i : Instr) (s : State) (b : Band) (n m : Fin 64) (off : BitVec 1) (k : BitVec 5) (merge : Bool) (d0 d1 a0 a1 : VReg) (l : W32),
    (i = .vtopk (.v n) (.v m) off k ∧ merge = false ∨ i = .vtopkm (.v n) (.v m) off k ∧ merge = true) → Stands i b s →
    n.val ≤ 62 → m.val ≤ 62 → (acting b s).lanesOf b = .ok l → b.readV n.val = .ok d0 → b.readV (n.val + 1) = .ok d1 →
    b.readV m.val = .ok a0 → b.readV (m.val + 1) = .ok a1 → flagFree b true = true → (acting b s).canAlloc b 2 0 = true →
    let cand := entriesOf 1 (if merge then List.range (k.toNat + 1) else laneList l) a0 a1
    let r := mergeTop (off == 1) (k.toNat + 1) (entriesOf 0 (List.range (k.toNat + 1)) d0 d1 ++ cand)
    exec i s = .next (past i b s (
      if merge = false ∧ l = 0 then (acting b s).startOp b true (.arith .none (.vec VReg.zero VReg.zero 0) 0)
      else
        (((acting b s).startOp b true (.arith (.tagV true) (.vec r.1 r.2 (~~~ 0#32)) (if cand.any Entry.isNan then fNV else 0))).awaitV
          b n.val s.nextUid 0).awaitV b (n.val + 1) s.nextUid 1))

/-- R232 to R235: the block words, all lanes enabled: QPACK quantises blocks into an image and its scales, QUNPACK turns an image back
into blocks, QSCALE gives one block's scale and special bytes. -/
def blocksOf (s : State) (b : Band) (x : BitVec 1) (f : BitVec 3) (rs : List VReg) : List Quantised :=
  rs.zipIdx.map fun r =>
    let src := blockOf (x == 1) b.ftz r.1
    let q := quantise f.toNat (fun e => roundOf b.rnd (s.srKey b) (codePlace f.toNat r.2 e).1 (codePlace f.toNat r.2 e).2) src.1
    { q with fps := q.fps ||| src.2 }

def unpacked (s : State) (b : Band) (x : BitVec 1) (f : BitVec 3) (img sc : VReg) (j e : Nat) : Nat × BitVec 6 :=
  finish (if x = 1 then bf16 else f32) (roundOf b.rnd (s.srKey b) e j) b.sat b.ftz
    (blockValue f.toNat (if f.toNat < 4 then VReg.byte img (32 * j + e) else VReg.byte img (16 * j + e / 2) / 16 ^ (e % 2) % 16)
      ((sc.lane j).toNat % 256) ((sc.lane j).toNat / 256 % 256), 0)

def putBlock (b : Band) (d : Nat) (rs : List VReg) (t : State) : State :=
  rs.zipIdx.foldl (fun t r => t.putV b (d + r.2) r.1 (~~~ 0#32)) t

/-! ## Memory -/

/-- What a memory word needs before its lanes are translated: the enabled lanes `l`, its index register, its effective address (R180),
room in its flag (R139), no sc access of the band unanswered (R124) where `mem` says it is one of memory. -/
structure Addressed (b : Band) (s : State) (m : MemRef) (size : Nat) (mem : Bool) (l : W32) (ea : Ea) : Prop where
  lanes : s.lanesOf b = .ok l
  some : l ≠ 0
  index : b.indexReady m = .ok ()
  addr : s.effective b m size = .ok ea
  flag : flagFree b false = true
  sc : mem = true → s.scReady b b.cls = .ok ()

/-- The lanes of an access of `w` bytes of memory are translated without a miss, aligned, not locked, and not refused by what lies
there (R60, R100, R160, R197). -/
structure Reached (b : Band) (s : State) (acc : Acc) (strict dest : Bool) (w : Nat) (ls : List (Nat × W64)) (ts : List LaneTr) : Prop where
  align : (if b.cls = 0 ∧ strict = false then .ok () else checkAlign w ls) = .ok ()
  walk : s.walkFirst (s.bandCtx b) acc w ls = .ok ()
  trans : s.translateLanes (s.bandCtx b) acc strict w ls = .ok ts
  device : strict = false → s.checkDevice w ts = .ok ()
  locks : s.checkLocks b .mem 0 dest w ls = .ok ()
  aperture : strict = false → s.checkAperture b ts = .ok ()

/-- The access that a word starts: its lanes with their bytes, its atoms with what it stores, MODE's class and scope, and its sc clock. -/
def accessOf (s : State) (b : Band) (typ w : Nat) (ts : List LaneTr) (data : Nat → Nat) (dest : Dest) : Access :=
  ⟨ts.map fun t => ⟨t.lane, t.va, t.bytes.map Prod.fst⟩, s.atomsFor (ts.map fun t => (t, data t.lane)), typ, w, b.cls, b.scope, dest,
    (s.scIssue b.place.core b.cls).2, 0, false⟩

/-- R170, R198, R199: a load or store of memory, once its lanes are reached, starts an operation that holds the access and that the
clause's memory flag counts; a load's destination awaits it; the address register takes its update (R180). An acq_rel or sc store at
scope 2 or wider first empties its core's L1 of what need not stay (R73). With no lane enabled only that update happens (R195). LDPAR waits for a version as far as the minimum in s(56 + BREG) (R67, R204). -/
def MemoryAccessesStart : Prop :=
  ∀ (i : Instr) (s : State) (b : Band) (d : Opnd) (m : MemRef) (l : W32) (ea : Ea) (ts : List LaneTr), Stands i b s →
    let t := acting b s
    let w := (elemOf b d).2
    let vec := isVectorOpnd d
    (∀ (par : Bool) (min : Option W32) (since : Nat) (dest : Dest) (await : State → State),
      (i = .lds d m ∧ par = false ∨ i = .ldv d m ∧ par = false ∨ i = .ldpar d m ∧ par = true) →
      (vec = true → needEven d w = .ok ()) →
      Addressed b t (if par then { m with breg := 0 } else m) (if vec then 32 * w else w) true l ea →
      b.versionMin t.cycle m par = .ok (min, since) → Reached b t .load false false w (b.memLanes (if par then { m with breg := 0 } else m) ea w vec l) ts →
      versionShort min ts = none → t.loadDest b d (vec && w == 8) (if vec then l else 1) = .ok (dest, await) →
      exec i s = .next (past i b s
        ((await (((t.scIssue b.place.core b.cls).1).startOp b false (.load (accessOf t b (elemOf b d).1 w ts (fun _ => 0) dest)))).updateA b
          (if par then { m with breg := 0 } else m) ea))) ∧
    (∀ (vec : Bool) (data : Nat → Nat), (i = .sts d m ∧ vec = false ∨ i = .stv d m ∧ vec = true) →
      (if vec then t.lanesSrc b (elemOf b d).1 d = .ok data else ∃ x, t.storeScalar b (elemOf b d).1 d = .ok x ∧ data = fun _ => x) →
      Addressed b t m (if vec then 32 * w else w) true l ea → Reached b t .store false true w (b.memLanes m ea w vec l) ts →
      let u := (t.scIssue b.place.core b.cls).1
      let u := if (b.cls = 4 ∨ b.cls = 5) ∧ 2 ≤ b.scope.toNat then u.invalidateL1 b.place.core else u
      exec i s = .next (past i b s ((u.startOp b false (.store (accessOf t b (elemOf b d).1 w ts data .none))).updateA b m ea))) ∧
    (i = .lds d m ∨ i = .ldv d m → (vec = true → needEven d w = .ok ()) → t.lanesOf b = .ok 0 → b.indexReady m = .ok () →
      t.effective b m (if vec then 32 * w else w) = .ok ea → exec i s = .next (past i b s (t.updateA b m ea)))

/-- R206: the atomics. -/
def atomRule : Instr → Option (Opnd × MemRef × AtomKind)
  | .atadd d m => some (d, m, .add)
  | .atmin d m => some (d, m, .min)
  | .atmax d m => some (d, m, .max)
  | .atand d m => some (d, m, .and)
  | .ator d m => some (d, m, .or)
  | .atxor d m => some (d, m, .xor)
  | .atxchg d m => some (d, m, .xchg)
  | .atcas d m => some (d, m, .cas)
  | .atinc d m => some (d, m, .inc)
  | .atfadd d m => some (d, m, .fadd)
  | .atfmax d m => some (d, m, .fmax)
  | .atfmin d m => some (d, m, .fmin)
  | _ => none

/-- R206, R207: an atomic of a type that its entry accepts starts an operation with one element for each enabled lane, its source and
compare value; a register destination awaits the old values. -/
def AtomicsStart : Prop :=
  ∀ (i : Instr) (s : State) (b : Band) (d : Opnd) (m : MemRef) (k : AtomKind) (src : Nat → W64 × W64) (l : W32) (ea : Ea)
    (ts : List LaneTr) (dest : Dest) (await : State → State),
    atomRule i = some (d, m, k) → Stands i b s → k.accepts b.typ = true →
    let t := acting b s
    let w := typeBits b.typ / 8
    let vec := atomVector d m
    (vec = true → needEven d w = .ok ()) → t.atomSrc b k b.typ w d = .ok src →
    Addressed b t m (if vec then 32 * w else w) true l ea → Reached b t .atomic true true w (b.memLanes m ea w vec l) ts →
    t.atomDest b d w (if vec then l else 1) = .ok (dest, await) →
    exec i s = .next (past i b s
      ((await (((t.scIssue b.place.core b.cls).1).startOp b false
        (.atomic k (accessOf t b b.typ w ts (fun _ => 0) dest)
          (ts.map fun x => ⟨x.lane, (x.bytes.map Prod.fst).headD 0, (src x.lane).1, (src x.lane).2, 0⟩) b.sat 0))).updateA b m ea))

/-- R200, R202: the spaces of the typed loads and stores, and whether STT's region is meant. -/
def spaceLoadRule : Instr → Option (Opnd × MemRef × Space)
  | .ldl d m => some (d, m, .sp)
  | .lda d m => some (d, m, .ab)
  | .ldw d m => some (d, m, .wb)
  | _ => none

def spaceStoreRule : Instr → Option (Opnd × MemRef × Space × Bool)
  | .stl d m => some (d, m, .sp, false)
  | .sta d m => some (d, m, .ab, false)
  | .stw d m => some (d, m, .wb, false)
  | .stt d m => some (d, m, .sp, true)
  | _ => none

/-- R82, R203: STM to a workgroup of its own superstep instance starts a store of its bytes at the target's back half; a target that is
none drops the store and reports it in FSUM. -/
def MirrorStoresStart : Prop :=
  ∀ (s : State) (b : Band) (d : Opnd) (m : MemRef) (data : Nat → Nat) (l : W32) (ea : Ea) (wg : Workgroup), Stands (.stm d m) b s →
    let t := acting b s
    let vec := storeVector d
    let w := if vec then 4 else 8
    let offs := if vec then (laneList l).map fun k => (k, ea.e.toNat % 2 ^ 32 + 4 * k) else [(0, ea.e.toNat % 2 ^ 32)]
    t.wg? b.wg = some wg → t.rawData b d = .ok data → t.lanesOf b = .ok l → l ≠ 0 → t.effective b m (if vec then 128 else 8) = .ok ea →
    flagFree b false = true → (t.lsView wg).mirr = true → ea.e.toNat < 2 ^ 42 →
    (∀ x ∈ offs, x.2 < t.window wg.core (t.lsView wg).carve .sp / 2 ∧ x.2 % w = 0) →
    exec (.stm d m) s = .next (past (.stm d m) b s
      ((if (t.stmTarget wg (fld ea.e 39 32) (fld ea.e 41 40)).isSome then
        t.startOp b false (.stm (fld ea.e 39 32) (fld ea.e 41 40)
          (offs.map fun x => (laneBytes w (data x.1)).zipIdx.map fun y => (x.2 + y.2, y.1)).flatten)
      else t.sumBit b.launch mirrorFaultBit).updateA b m ea))

/-- R205: PREF never traps: each enabled lane's line is taken into the L1 unless something drops it. -/
def PrefetchCompletes : Prop :=
  ∀ (s : State) (b : Band) (m : MemRef) (l : W32) (ea : Ea), Stands (.pref m) b s → (acting b s).lanesOf b = .ok l →
    b.indexReady m = .ok () → (acting b s).effective b m 128 = .ok ea →
    exec (.pref m) s = .next (past (.pref m) b s
      (((b.memLanes m ea 128 (m.amode == .lanes) l).foldl (State.prefLane b) (acting b s)).updateA b m ea))

/-! ## Ordering, tokens, monitors and barriers -/

/-- A status written to an s register, or nowhere. -/
def putStatus (b : Band) (d : Opnd) (x : W64) (t : State) : State :=
  match d with
  | .s n => t.putS b n.val x
  | _ => t

def statusReady (b : Band) (d : Opnd) (t : State) : Prop := d = .zero ∨ ∃ n, d = .s n ∧ t.canAlloc b 0 1 = true

/-- A word that does not come about from the end of a wait. -/
def freshly (b : Band) : Prop := ∀ st, b.wait ≠ some (.done st)

/-- The band is held at its word with a wait. -/
def waits (b : Band) (w : Wait) (t : State) : State :=
  (t.modBand b.uid fun c => { c with wait := some w, held := true }).modBand b.uid fun c => { c with held := true }

/-- Every band of some that waits in some way is released with a status, which its word takes when it issues next. -/
def released (p : Band → Bool) (st : W64) (t : State) : State :=
  { t with bands := t.bands.map fun c => if p c then { c with wait := some (.done st), held := false } else c }

/-- R73, R126, R127: a fence goes on once the band's earlier accesses, of its range, are performed; at scope 2 or wider the core's L1 lines
that need not stay are dropped. Until then it is held. A FENCEA of no bytes does nothing. -/
def FencesComplete : Prop :=
  ∀ (s : State) (b : Band),
    (Stands .fence b s →
      ((acting b s).accessesDone b = true → exec .fence s = .next (past .fence b s ((acting b s).acquireAt b b.scope.toNat))) ∧
      ((acting b s).accessesDone b = false → exec .fence s = .next (heldAt .fence b s))) ∧
    (∀ a c base n, Stands (.fencea a c) b s → (acting b s).scalarSrc b false a = .ok base → (acting b s).scalarSrc b false c = .ok n →
      base.toNat < 2 ^ 57 → base.toNat + n.toNat ≤ 2 ^ 57 →
      (n ≠ 0 → (acting b s).rangeDone b base.toNat (base.toNat + n.toNat) = true) →
      exec (.fencea a c) s = .next (past (.fencea a c) b s (if n = 0 then acting b s else (acting b s).acquireAt b b.scope.toNat)))

/-- R85: what an ACQRG of `n` 64 KiB units at `p` meets on its die: its own core's very entry (1), another entry of its core in the way
(3), another core's (2), a full table of 4,096 entries (4), or none (0). -/
def tokenStatus (s : State) (core p n : Nat) : W64 :=
  let table := s.tokens.filter fun t => t.core / 60 == core / 60
  if table.any fun t => t.core == core && t.pbase == p && t.len == n then 1
  else if table.any fun t => t.core == core && decide (t.pbase < p + n) && decide (p < t.pbase + t.len) then 3
  else if table.any fun t => t.core != core && decide (t.pbase < p + n) && decide (p < t.pbase + t.len) then 2
  else if 4096 ≤ table.length then 4
  else 0

/-- What an ACQRG that succeeds leaves: a new entry and the region's lines out of the L1; with an entry it already holds, an acquire. -/
def tokenTaken (s : State) (core slot p n : Nat) : State :=
  match tokenStatus s core p n with
  | 0 => (({ s with tokens := s.tokens ++ [⟨core, slot, p, n⟩] } : State).dropRegion core p n).invalidateL1 core
  | 1 => s.invalidateL1 core
  | _ => s

def slotOf (s : State) (b : Band) : Nat := match s.wg? b.wg with | some w => w.slot | none => 0

/-- R85: ACQRG takes an entry, or gives the status that says why not, or waits where its descriptor lets it; once its wait has ended it
writes the status of that end and goes on. -/
def AcquireRegionResults : Prop :=
  (∀ (s : State) (b : Band) (d a e : Opnd) (desc : W64) (p n : Nat), Stands (.acqrg d a e) b s → freshly b →
    (acting b s).scalarSrc b false e = .ok desc → (acting b s).regionOf b a desc = .ok (p, n) → flagFree b false = true →
    let st := tokenStatus s b.place.core p n
    let t := tokenTaken (acting b s) b.place.core (slotOf s b) p n
    ((st = 0 ∨ st = 1 ∨ st = 3 ∨ fld desc 63 32 = 0) → statusReady b d t →
      exec (.acqrg d a e) s = .next (past (.acqrg d a e) b s (putStatus b d st t))) ∧
    (st = 2 ∨ st = 4 → fld desc 63 32 ≠ 0 →
      exec (.acqrg d a e) s = .next ((waits b (.acqrg p n (s.cycle + b.timeLeft.join.getD (1024 * fld desc 63 32))) (acting b s))))) ∧
  (∀ (s : State) (b : Band) (d a e : Opnd) (st : W64), Stands (.acqrg d a e) b s → b.wait = some (.done st) → statusReady b d (acting b s) →
    exec (.acqrg d a e) s = .next (past (.acqrg d a e) b s (putStatus b d st (acting b s))))

/-- R85, R336: at its deadline an ACQRG that still waits, once those that can be served have been, ends with status 2, or 4 where the table
is full; before it nothing happens. R85 says of status 4 that the table was full throughout; the model judges by the table as it is at the
deadline (DESIGN CHOICE, log 36). -/
def AcquireTimeoutEndsWait : Prop :=
  ∀ (s : State) (b : Band) (q : Place) (p n dl : Nat), s.bandAt q = some b → b.wait = some (.acqrg p n dl) →
    (dl ≤ s.cycle → exec (.acqrgTimeout q) s = .next (s.wakeTokens.modBand b.uid fun c =>
      match c.wait with
      | some (.acqrg _ _ _) => { c with wait := some (.done (if tokenStatus s.wakeTokens b.place.core p n = 4 then 4 else 2)), held := false }
      | _ => c)) ∧
    (s.cycle < dl → exec (.acqrgTimeout q) s = .next s)

/-- R86: a RELRG of an entry that the core holds starts its release, which its status awaits, and one of another region is status 5 at
once; the release, once the band's earlier accesses are performed, writes the region's dirty bytes back, frees the entry, serves
waiting ACQRGs and gives status 0. -/
def ReleaseRegionResults : Prop :=
  (∀ (s : State) (b : Band) (d a e : Opnd) (desc : W64) (p n : Nat), Stands (.relrg d a e) b s →
    (acting b s).scalarSrc b false e = .ok desc → (acting b s).regionOf b a desc = .ok (p, n) → flagFree b false = true →
    statusReady b d (acting b s) →
    exec (.relrg d a e) s = .next (past (.relrg d a e) b s (
      if s.holdsToken b.place.core p n then
        match d with
        | .s k => ((acting b s).startOp b false (.relrg b.place.core p n .tagS)).awaitS b k.val s.nextUid 0
        | _ => (acting b s).startOp b false (.relrg b.place.core p n .none)
      else putStatus b d 5 (acting b s)))) ∧
  (∀ (s : State) (o : Op) (core p n : Nat) (dest : Dest), s.op? o.uid = some o → o.kind = .relrg core p n dest →
    s.doneBelow o.band o.uid = true → s.holdsToken core p n = true →
    ∃ t, exec (.relrgComplete o.uid) s = .next t ∧
      t = (((({ s.releaseRegion core p n with tokens := (s.releaseRegion core p n).tokens.filter fun x =>
        !(x.core == core && x.pbase == p && x.len == n) } : State).wakeTokens).landDest o dest (.scalar 0)).dropFlag o).dropOp o.uid)

/-- The deadline of a BAR or SWAPH of `n` units of 1,024 cycles, none for 0; one that was withdrawn keeps the time it had left (R266). -/
def deadlineOf (b : Band) (cycle n : Nat) : Option Nat :=
  match b.timeLeft with
  | some left => left.map (cycle + ·)
  | none => if n = 0 then none else some (cycle + 1024 * n)

/-- R281: the last arrival at a barrier releases every band that waits there and goes on, all with status 0; an earlier one waits; an
instance that is not complete at its deadline releases its bands with status 1, and an arrival after it begins another. A BAR that has been
released writes its status and goes on. -/
def BarrierResults : Prop :=
  (∀ (s : State) (b : Band) (d a : Opnd) (k : BitVec 2) (w : Workgroup) (n : W64), Stands (.bar d a k) b s → freshly b →
    (acting b s).scalarSrc b false a = .ok n → (acting b s).accessesDone b = true →
    let u := (acting b s).endLateBar b.wg k.toNat
    u.wg? b.wg = some w →
    let inst := w.arrive k.toNat b.pos (deadlineOf b s.cycle (fld n 31 0))
    let free := released (fun c => c.wg == w.uid && c.wait == some (.bar k.toNat)) 0
      (u.modWg w.uid fun x => { x with bars := x.bars.filter fun y => y.b != k.toNat })
    ((∀ c ∈ u.bands, c.wg = w.uid → c.pos ∈ inst.arrived) → statusReady b d free →
      exec (.bar d a k) s = .next (past (.bar d a k) b s (putStatus b d 0 free))) ∧
    ((∃ c ∈ u.bands, c.wg = w.uid ∧ c.pos ∉ inst.arrived) →
      exec (.bar d a k) s = .next (waits b (.bar k.toNat) (u.setWg (w.setBar inst))))) ∧
  (∀ (s : State) (b : Band) (d a : Opnd) (k : BitVec 2) (st : W64), Stands (.bar d a k) b s → b.wait = some (.done st) →
    statusReady b d (acting b s) → exec (.bar d a k) s = .next (past (.bar d a k) b s (putStatus b d st (acting b s)))) ∧
  (∀ (s : State) (wg k : Nat) (w : Workgroup) (x : BarInst), s.wg? wg = some w → w.bar? k = some x →
    s.endLateBar wg k = if (∃ dl, x.deadline = some dl ∧ dl < s.cycle) then released (fun c => c.wg == wg && c.wait == some (.bar k)) 1
      (s.modWg wg fun x => { x with bars := x.bars.filter fun y => y.b != k }) else s) ∧
  (∀ (s : State) (wg k dl : Nat) (w : Workgroup) (ps : List Nat), s.wg? wg = some w → w.bar? k = some ⟨k, some dl, ps⟩ → dl ≤ s.cycle →
    exec (.barTimeout wg k) s = .next (released (fun c => c.wg == wg && c.wait == some (.bar k)) 1
      (s.modWg wg fun x => { x with bars := x.bars.filter fun y => y.b != k })))

/-- R83, R282: SWAPH, once the band's earlier accesses to memory are performed (its STMs need not be), waits at the superstep barrier; once every band of the instance waits and its mirror stores have landed, the
halves of its workgroups are exchanged and all go on with status 0; at the deadline of an incomplete one they go on with status 1,
the halves as they were. A SWAPH that has been released writes its status and goes on. -/
def SuperstepResults : Prop :=
  (∀ (s : State) (b : Band) (d a : Opnd) (w : Workgroup) (l : Launch) (n : W64), Stands (.swaph d a) b s → freshly b →
    (acting b s).wg? b.wg = some w → (acting b s).bandLaunch b = some l → l.lr.mirr = true → (acting b s).scalarSrc b false a = .ok n →
    (acting b s).memoryDone b = true →
    (∀ dl, (acting b s).swapDeadline b.launch (l.domInst w) = some (some dl) → s.cycle ≤ dl) →
    exec (.swaph d a) s = .next (waits b .swaph ((acting b s).setWg (w.setBar (w.arrive 4 b.pos
      (((acting b s).swapDeadline b.launch (l.domInst w)).getD (deadlineOf b s.cycle (fld n 31 0)))))))) ∧
  (∀ (s : State) (b : Band) (d a : Opnd) (w : Workgroup) (l : Launch) (st : W64), Stands (.swaph d a) b s → b.wait = some (.done st) →
    (acting b s).wg? b.wg = some w → (acting b s).bandLaunch b = some l → l.lr.mirr = true → statusReady b d (acting b s) →
    exec (.swaph d a) s = .next (past (.swaph d a) b s (putStatus b d st (acting b s)))) ∧
  (∀ (s : State) (u k : Nat), s.allSwapped u k = true → s.stmsDone u k = true →
    ∃ t, exec (.swaphSwap u k) s = .next t ∧
      t.wgs = s.wgs.map (fun w =>
        if (s.instWgs u k).any fun x => x.uid == w.uid then
          { w with half := !w.half, bars := w.bars.filter fun y => y.b != 4 } else w) ∧
      t.bands = (released (fun c => (s.instWgs u k).any (fun x => x.uid == c.wg) && c.wait == some .swaph) 0 s).bands) ∧
  (∀ (s : State) (u k dl : Nat), s.swapDeadline u k = some (some dl) → dl ≤ s.cycle → s.allSwapped u k = false →
    ∃ t, exec (.swaphTimeout u k) s = .next t ∧
      t.wgs = s.wgs.map (fun w =>
        if (s.instWgs u k).any fun x => x.uid == w.uid then { w with bars := w.bars.filter fun y => y.b != 4 } else w) ∧
      t.bands = (released (fun c => (s.instWgs u k).any (fun x => x.uid == c.wg) && c.wait == some .swaph) 1 s).bands)

/-- R62: TLBI drops the entries of the holders in its domain that match at once, and its operation ends once no access in its scope that
was translated before it is still to be performed; until then it stays. -/
def TlbInvalidationResults : Prop :=
  (∀ (s : State) (b : Band) (a : Opnd) (desc : W64) (l : Launch), Stands (.tlbi a) b s → (acting b s).scalarSrc b false a = .ok desc →
    desc.getLsbD 58 = false → fld desc 51 49 = 0 → flagFree b false = true → (acting b s).bandLaunch b = some l →
    let goes := fun (e : TlbEntry) => tlbReached (fld desc 63 62) b.place.core e.agent
      && tlbMatch desc l.lr.wrld e.world e.root e.vbase (2 ^ (12 + e.k))
    let leaves := fun (e : WalkEntry) => (fld desc 63 62 == 3 || e.die == b.place.core / 60)
      && tlbMatch desc l.lr.wrld e.world e.root (e.tag * 2 ^ levelShift e.level) (2 ^ levelShift e.level)
    exec (.tlbi a) s = .next (past (.tlbi a) b s
      (({ acting b s with tlb := s.tlb.filter fun e => !goes e, wcache := s.wcache.filter fun e => !leaves e } : State).startOp b false
        (.tlbi desc ((s.tlb.filter goes).filterMap TlbEntry.frame) s.nextUid)))) ∧
  (∀ (s : State) (o : Op) (desc : W64) (frames : List (Nat × Nat)) (n : Nat), s.op? o.uid = some o → o.kind = .tlbi desc frames n →
    (∀ x ∈ s.ops, x.uid < n → State.tlbiWaits (fld desc 63 62) o.place.core frames x = false) →
    (∀ l ∈ s.l1, State.tlbiDirty (fld desc 63 62) o.place.core frames l = false) →
    exec (.tlbiComplete o.uid) s = .next ((s.dropFlag o).dropOp o.uid)) ∧
  (∀ (s : State) (o x : Op) (desc : W64) (frames : List (Nat × Nat)) (n : Nat), s.op? o.uid = some o → o.kind = .tlbi desc frames n →
    x ∈ s.ops → x.uid < n → State.tlbiWaits (fld desc 63 62) o.place.core frames x = true → exec (.tlbiComplete o.uid) s = .next s)

/-! ## The matrix unit -/

/-- R248: the stage after a quarter of format `f` is latched: quarters of another format go, the quarter takes its place, and the
fourth makes the stage the current B, numbered `gen`, the former one being emptied for the next. -/
def staged (w : Workgroup) (f : Nat) (x : Quarter) (gen : Nat) : Workgroup :=
  let kept := if w.filling.fmt = f then w.filling.quarters else []
  let g := if w.filling.fmt = f then w.filling else { w.filling with fmt := f, quarters := [] }
  let qs := x :: kept.filter fun y => y.q != x.q
  if qs.length = 4 then
    { w with
      current := some { g with quarters := qs, gen := gen }
      filling := match w.current with | some c => { c with quarters := [] } | none => ⟨0, 0, []⟩ }
  else { w with filling := { g with quarters := qs } }

/-- R247, R248: BLATCH reads a quarter of B from consecutive registers, with the scales in v63 where the format has them, and takes
effect at once unless an MMA in flight still uses the registers it fills. -/
def LatchResults : Prop :=
  ∀ (s : State) (b : Band) (v : Fin 64) (t : BitVec 1) (q : BitVec 2) (f : BitVec 4) (rs : List VReg) (sc : VReg) (w : Workgroup),
    Stands (.blatch (.v v) t q f) b s → f.toNat ≤ 8 → (t = 1 → mxPaired f.toNat = true) → v.val + mxRegs f.toNat ≤ 63 →
    (acting b s).lanesOf b = .ok (~~~ 0#32) → b.readBlock v.val (mxRegs f.toNat) = .ok rs →
    (if mxScaled f.toNat then b.readV 63 = .ok sc else sc = VReg.zero) → (acting b s).wg? b.wg = some w →
    (∀ o ∈ s.ops, o.wg = w.uid → o.kind.boundTo w.filling.gen = false) →
    exec (.blatch (.v v) t q f) s = .next (past (.blatch (.v v) t q f) b s
      { (acting b s).setWg (staged w f.toNat ⟨q.toNat, rs, sc, t == 1⟩ s.nextUid) with nextUid := s.nextUid + 1 })

/-- The nine MMA words: the format, C and A, and the bits of the fourth operand. -/
def mmaOf : Instr → Option (Nat × Opnd × Opnd × BitVec 1 × BitVec 1 × BitVec 1 × BitVec 1)
  | .mmaE4m3 c a sel z lc la => some (0, c, a, sel, z, lc, la)
  | .mmaE5m2 c a sel z lc la => some (1, c, a, sel, z, lc, la)
  | .mmaE3m2 c a sel z lc la => some (2, c, a, sel, z, lc, la)
  | .mmaE2m3 c a sel z lc la => some (3, c, a, sel, z, lc, la)
  | .mmaF4s c a sel z lc la => some (4, c, a, sel, z, lc, la)
  | .mmaBf16 c a sel z lc la => some (5, c, a, sel, z, lc, la)
  | .mmaF16 c a sel z lc la => some (6, c, a, sel, z, lc, la)
  | .mmaI8 c a sel z lc la => some (7, c, a, sel, z, lc, la)
  | .mmaE2m1 c a sel z lc la => some (8, c, a, sel, z, lc, la)
  | _ => none

/-- R250 to R258: an MMA whose tiles lie in CB and AB and whose format is the current B's joins its quadrant's array, bound to that B
and to the scales in v62; its C tile is locked for the open batch, which counts it; the last uses of its address registers free them. -/
def MmaStarts : Prop :=
  ∀ (i : Instr) (s t : State) (b : Band) (f : Nat) (cb ab : Opnd) (sel z lc la : BitVec 1) (c a : W64) (w : Workgroup) (g : BBuf) (sa : VReg),
    mmaOf i = some (f, cb, ab, sel, z, lc, la) → Stands i b s → (sel = 1 → mxPaired f = true) →
    (acting b s).lanesOf b = .ok (~~~ 0#32) → (acting b s).scalarSrc b false cb = .ok c → (acting b s).scalarSrc b false ab = .ok a →
    c.toNat % 512 = 0 → a.toNat % 128 = 0 → (acting b s).wg? b.wg = some w → c.toNat + 16384 ≤ (acting b s).spaceSize w .cb →
    a.toNat + 32 * (64 * mxBits f / 8) ≤ (acting b s).spaceSize w .ab → w.current = some g → g.fmt = f → b.readV 62 = .ok sa →
    (s.arrayQueue b.place.core b.place.quad).length < 16 → (acting b s).lockTile b w.slot c.toNat = .ok t →
    exec i s = .next (past i b s
      ((t.startEngine b (.mma b.openBatch g a.toNat c.toNat sa (sel == 1) (z == 1) false [] [])).modBand b.uid fun x =>
        let x := x.countMma b.openBatch true
        let x := if lc = 1 then x.freeName cb else x
        if la = 1 then x.freeName ab else x))

/-- R256, R257: MFENCE closes the open batch and gives its number, 65,535 being followed by 0; MWAIT goes on once the batch it names
is complete, and a number of a batch not yet closed is illegal. -/
def BatchResults : Prop :=
  (∀ (s : State) (b : Band) (d : Opnd), Stands (.mfence d) b s → b.closedLeft.length < 16 → statusReady b d (acting b s) →
    exec (.mfence d) s = .next (past (.mfence d) b s
      (((putStatus b d (BitVec.ofNat 64 ((b.batch + 1) % 65536)) (acting b s)).modBand b.uid Band.closeBatch).settleBatches b.uid))) ∧
  (∀ (s : State) (b : Band) (a : Opnd) (n : W64), Stands (.mwait a) b s → (acting b s).scalarSrc b false a = .ok n →
    let ahead := (n.toNat % 65536 + 65536 - b.batch) % 65536
    (ahead = 0 ∨ 32768 ≤ ahead → n.toNat % 65536 ∉ b.closedLeft → exec (.mwait a) s = .next (past (.mwait a) b s (acting b s))) ∧
    (ahead = 0 ∨ 32768 ≤ ahead → n.toNat % 65536 ∈ b.closedLeft → exec (.mwait a) s = .next (heldAt (.mwait a) b s)) ∧
    (1 ≤ ahead → ahead < 32768 → exec (.mwait a) s = .next
      (s.takeTrap b (b.trapAt false (len (.mwait a)) 0x23 0 ((encodeWord (.mwait a)).setWidth 64) 0))))

/-- R252, R253, R258: an MMA at the head of its array whose comparison holds writes C(i, j) := old + Σ A(i, k) × B(k, j), with one
rounding; it ends, its batch counts it no more, and a batch that this completes gives up its locks. A first mismatch runs it once
more; a second ends it and decides the kill for a matrix silent error. `got` are the bytes of A that it has read before (R254). -/
def MmaExecutionResults : Prop :=
  ∀ (s : State) (o : Op) (w : Workgroup) (batch a c : Nat) (g : BBuf) (sa : VReg) (sel zero rerun mismatch : Bool) (got : List (Nat × Byte)),
    s.op? o.uid = some o → o.kind = .mma batch g a c sa sel zero rerun got [] → s.wg? o.wg = some w →
    ((s.arrayQueue o.place.core o.place.quad).head?).map Op.uid = some o.uid →
    let ev := if rerun then Instr.mmaRerunComplete o.uid mismatch else Instr.mmaExecuteComplete o.uid mismatch
    let row := fun i => (List.range 64).map fun k => s.aval w g.fmt a sel sa got i k
    let col := fun j => (List.range 64).map fun k => g.bval k j
    let differ := mismatch && compared ((List.range 32).map row) ((List.range 128).map col)
    (differ = false → ∃ t, exec ev s = .next (t.endMma o batch) ∧ t.bands = s.bands ∧ t.mem = s.mem ∧ t.ops = s.ops ∧
      t = (List.range 32).foldl (fun (t : State) i => t.writeSpace w .cb (c + 512 * i) (((List.range 128).map fun j =>
        laneBytes 4 (dotFp32 (if zero then none else some (f32.value (t.readSpace w .cb (c + 512 * i + 4 * j) 4))) (row i) (col j))).flatten)) s) ∧
    (differ = true → rerun = false → exec ev s = .next (s.setOp { o with kind := .mma batch g a c sa sel zero true [] [] })) ∧
    (differ = true → rerun = true → exec ev s = .next ((s.endMma o batch).decideKill o.launch .matrixSilent))

/-- R236, R261: the value at position `p` of lane `i` of register `u` that ACCRD reads of the column group at `c`, and its status: the FP32
bits of C, or C scaled, clipped and converted with one rounding. -/
def accValue (s : State) (b : Band) (w : Workgroup) (c f : Nat) (conv : Bool) (sc cl : Machine.Num) (u i p : Nat) : Nat × BitVec 6 :=
  let t := accPer f * u + p
  let x := s.readSpace w .cb (c + 512 * i + 4 * t) 4
  let y := readNum f32 b.ftz x
  let z := scaleClip y.1 sc cl
  if conv then scvtTo f (roundOf b.rnd (s.srKey b) i t) b.sat b.ftz (z.1, z.2 ||| y.2)
  else (x, if (f32.value x).isNan || (f32.value x).isInf then fNF else 0)

/-- R261: the values of a lane of a register, side by side, and the status of all the registers. -/
def accPacked (f : Nat) (g : Nat → Nat) : Nat := (List.range (accPer f)).foldl (fun x p => x + g p * 2 ^ (32 / accPer f * p)) 0

def accStatus (f : Nat) (lanes : W32) (value : Nat → Nat → Nat → Nat × BitVec 6) : BitVec 6 :=
  (List.range (accRegs f)).foldl (fun x u => x ||| orLanes lanes fun i =>
    (0, (List.range (accPer f)).foldl (fun y p => y ||| (value u i p).2) 0)) 0

/-! ## Copy engines -/

/-- The bytes of a descriptor of `n` bytes as the band reads it by plain loads, none of them damaged and no access that must come first
outstanding, and the state that the read leaves (R47, R72, R265). -/
def Described (b : Band) (e : W64) (n : Nat) (s : State) (bs : List Byte) (t : State) : Prop :=
  ∃ pas, s.descPas b e n = .ok pas ∧ s.readNow b true (pas.map fun x => s.viewOf b.launch (s.runOf b.wg) x.1) = true ∧
    (∀ x ∈ pas, s.readBad b x.1 = none) ∧ bs = pas.map (fun x => s.peekByte b x.1) ∧ t = s.plainTouch b pas

/-- R91, R98: what COPY and COPYM take from their descriptor: its eight words and its stamp; nothing where it is not aligned to 64. -/
def CopyRead (b : Band) (s : State) (e : W64) (desc : Option (List W64)) (stamp : Option StampSpec) (t : State) : Prop :=
  (e.toNat % 64 ≠ 0 ∧ desc = none ∧ stamp = none ∧ t = s) ∨
    (e.toNat % 64 = 0 ∧ ∃ bs, Described b e 64 s bs t ∧ desc = some (wordsOf bs 8) ∧
      t.stampOf b (parseCopy (wordsOf bs 8)).stamp (parseCopy (wordsOf bs 8)).seq (parseCopy (wordsOf bs 8)).scope = .ok stamp)

/-- R89, R90, R100, R268: COPY attaches a slice to its workgroup's copy of the band's next number, the first slice taking one of the
launch's queue entries, and locks the slice's ranges. -/
def CopyWordAttachesSlice : Prop :=
  ∀ (s t : State) (b : Band) (m : MemRef) (ea : Ea) (desc : Option (List W64)) (stamp : Option StampSpec) (w : Workgroup) (l : Launch),
    Stands (.copy m) b s → (acting b s).effective b m 64 = .ok ea → CopyRead b (acting b s) ea.e desc stamp t → t.wg? b.wg = some w →
    flagFree b false = true → t.bandLaunch b = some l → (t.copyOp? b.wg (b.copies + 1) = none → t.entriesHeld b.wg < l.lr.copies) →
    let x := t.addSlice b (b.copies + 1) ⟨b.pos, t.nextUid, b.uid, b.place, b.privileged, desc, stamp⟩
    let locks := match desc with | some ws => t.sliceLocks b w x.2 (parseCopy ws) | none => []
    (t.locks.filter fun y => y.core == b.place.core).length + locks.length ≤ 64 →
    exec (.copy m) s = .next (past (.copy m) b s
      (((x.1.addLocks locks).modBand b.uid fun c => { c with copies := b.copies + 1, lastCopy := some x.2 }).updateA b m ea))

/-- The range of a COPYM's source that is locked (R100). -/
def sourceLock (b : Band) (w : Workgroup) (s : State) (d : CopyDesc) : List Lock :=
  if d.badMulticast || s.sliceSpace w { d with dstk := 0 } then []
  else match kindSpace d.srck with
    | some spc => [locLock b.place.core s.nextUid false spc w.slot (d.bounds false).1.toNat (d.bounds false).2]
    | none => [memLock b.place.core s.nextUid false (s.bandCtx b) ((d.bounds false).1 % (2 ^ 64 : Int)).toNat (d.bounds false).2]

/-- R103, R269, R270: COPYM starts a multicast and locks its source; MACK, the band's accesses being performed, sets its core's flag. -/
def MulticastWordResults : Prop :=
  (∀ (s t : State) (b : Band) (m : MemRef) (ea : Ea) (desc : Option (List W64)) (stamp : Option StampSpec) (w : Workgroup) (l : Launch),
    Stands (.copym m) b s → (acting b s).effective b m 64 = .ok ea → CopyRead b (acting b s) ea.e desc stamp t → t.wg? b.wg = some w →
    flagFree b false = true → t.bandLaunch b = some l → t.entriesHeld b.wg < l.lr.copies →
    let locks := match desc with | some ws => sourceLock b w t (parseCopy ws) | none => []
    (t.locks.filter fun y => y.core == b.place.core).length + locks.length ≤ 64 →
    exec (.copym m) s = .next (past (.copym m) b s
      ((((t.startEngine b (.engine (.copym ⟨b.pos, t.nextUid, b.uid, b.place, b.privileged, desc, stamp⟩ [] none 0 0) stamp)).addLocks
        locks).modBand b.uid fun c => { c with lastCopy := some t.nextUid }).updateA b m ea))) ∧
  (∀ (s : State) (b : Band) (n : BitVec 6), Stands (.mack n) b s → (acting b s).accessesDone b = true →
    ∃ t, exec (.mack n) s = .next (past (.mack n) b s t) ∧ t = { acting b s with rflags := t.rflags } ∧
      ∀ c k, (c, k) ∈ t.rflags ↔ (c, k) ∈ s.rflags ∨ c = b.place.core ∧ k = n.toNat)

/-- R104 to R106, R271: STASH reads its descriptor and its whole source, the lanes all enabled, locks both tiles and the scales, and
starts an operation that holds the bytes to be written; the status of the conversion goes to FPS at once. -/
def StashWordStarts : Prop :=
  ∀ (s t : State) (b : Band) (v : Fin 64) (m : MemRef) (ea : Ea) (bs : List Byte) (stamp : Option StampSpec) (w : Workgroup) (l : Launch) (rs : List VReg),
    Stands (.stash (.v v) m) b s → (acting b s).effective b m 64 = .ok ea → ea.e.toNat % 64 = 0 → Described b ea.e 64 (acting b s) bs t →
    let d := parseStash bs
    t.stampOf b d.stamp d.seq d.scope = .ok stamp → v.val + d.regs ≤ 64 → t.lanesOf b = .ok (~~~ 0#32) →
    t.wg? b.wg = some w → b.readBlock v.val d.regs = .ok rs → flagFree b false = true → t.bandLaunch b = some l →
    t.entriesHeld b.wg < l.lr.copies →
    let err := t.stashError w d
    let locks := if err ≠ 0 then [] else d.footprints.map fun f =>
      if f.1 = 2 then locLock b.place.core t.nextUid true .ab w.slot f.2.1.toNat f.2.2
      else memLock b.place.core t.nextUid true (t.bandCtx b) f.2.1.toNat f.2.2
    (t.locks.filter fun y => y.core == b.place.core).length + locks.length ≤ 64 →
    let out := if err = 0 then stashWrites b (t.srKey b) d rs else ([], 0)
    exec (.stash (.v v) m) s = .next (past (.stash (.v v) m) b s
      (((((t.startEngine b (.engine (.stash out.1 0 err b.privileged) stamp)).addLocks locks).modBand b.uid fun c =>
        { c with lastCopy := some t.nextUid }).setFps b.uid out.2).countSr b b.rnd |>.updateA b m ea))

/-- R90, R92, R98: a copy of one slice that may start has its moves planned, with the bytes they count and the status bits known so far;
one whose descriptor shows an error is planned without moves, and so is one of a null slice. Which error is shown where several apply is
the model's choice (log 37). -/
def CopyStartPlans : Prop :=
  ∀ (s : State) (o : Op) (n : Nat) (sl : Slice) (st : Option StampSpec) (l : Launch) (w : Workgroup), s.op? o.uid = some o →
    o.kind = .engine (.copy n [sl] none) st → s.launch? o.launch = some l → s.wg? o.wg = some w → s.copyReady w n [sl] = true →
    let late : W16 := if w.exits.any fun k => decide (k < n) then 1 else 0
    let plan := fun (p : Plan) => (Host.Outcome.next (s.setOp { o with kind := .engine (.copy n [sl] (some p)) sl.stamp }) : Host.Outcome State Fault Refusal)
    (∀ e, s.sliceError l w o sl = .error e → exec (.copyStart o.uid) s = plan ⟨[], addError late e, 0, [], 0⟩) ∧
    (∀ d t, s.sliceError l w o sl = .ok (d, t) → d.pub = false → d.isNull = false →
      let x := s.resolveAll (l.engineCtx w.core sl.priv) l.lr.migr w (d.wants t)
      let status := late ||| (match t with | some t => t.tileStatus d | none => 0)
      exec (.copyStart o.uid) s =
        plan ⟨x.1, (match x.2 with | some e => addError status e | none => status), d.xb * d.rows.length, [], 0⟩) ∧
    (∀ d t, s.sliceError l w o sl = .ok (d, t) → d.isNull = true → exec (.copyStart o.uid) s = plan ⟨[], late, 0, [], 0⟩)

/-- R96, R97, R100: a planned copy ends: what is left of it is read, then written, the versions that it published are closed, then the
count word and the stamp are stored, the locks and the entry are free, and bands that yielded on it may go on. A version that a newer open
has abandoned takes no more payload and makes PUBST 3 (R92, R359). After an error the count is that of the bytes moved, each byte left
being moved or not (DESIGN CHOICE, log 8). s has the errors that the event is the first to find (log 5).
R133: a part of it that is performed before, `n` bytes from the k-th of move i, leaves the rest to be moved. -/
def CopyCompletes : Prop :=
  (∀ (s₀ s : State) (es : List SymErr) (o : Op) (n : Nat) (sls : List Slice) (p : Plan) (st : Option StampSpec), s₀.strikes es = s →
    s.op? o.uid = some o → o.kind = .engine (.copy n sls (some p)) st →
    let gone := p.pubs.filter fun x => s.pubGone (.copy o.uid) x.1 x.2
    let left := p.moves.filter fun m => !m.pub.any gone.contains
    s.sidesOpen o left = true → s.stampOpen o st = true →
    (p.status.getLsbD 4 = false →
      let x := s.transfer o left false
      let status := p.status ||| (if x.2.2 then 8 else 0)
      let t := (p.pubs.filter fun y => !gone.contains y).foldl (fun u y => u.closePub y.1 y.2) x.1
      (gone = [] → exec (.copyComplete o.uid es) s₀ = .next (t.endEngine o.uid st status p.count 0)) ∧
      (gone ≠ [] → exec (.copyComplete o.uid es) s₀ = .next (t.endEngine o.uid st (status ||| 0x300) (p.moved + x.2.1) 0))) ∧
    (p.status.getLsbD 4 = true → p.pubs = [] →
      let x := s.transfer o left true
      exec (.copyComplete o.uid es) s₀ = .next (x.1.endEngine o.uid st (p.status ||| (if x.2.2 then 8 else 0)) (p.moved + x.2.1) 0))) ∧
  (∀ (s : State) (o : Op) (c : Nat) (sls : List Slice) (p : Plan) (st : Option StampSpec) (m : Move') (i k n : Nat), s.op? o.uid = some o →
    o.kind = .engine (.copy c sls (some p)) st → p.pubs = [] → p.moves[i]? = some m → 0 < n → k + n ≤ m.n → s.sidesOpen o [m.cut k n] = true →
    let x := s.transfer o [m.cut k n] false
    s.enginePart o.uid i k n = x.1.setOp { o with kind := .engine (.copy c sls (some { p with
      moves := p.moves.take i ++ m.without k n ++ p.moves.drop (i + 1), moved := p.moved + x.2.1
      status := p.status ||| (if x.2.2 then 8 else 0) })) st })

/-- R102, R103: a multicast whose receivers are all on this device, their flags set, uses the flags, locks the destinations and holds the
payload for them; a receiver that acknowledges is marked, the code that another device reports with it is the operation's error, and the
last one ends the operation with its stamp. That a COPYM waits for room in the receiving cores' lock tables is the model's choice (log 37). -/
def MulticastEventResults : Prop :=
  (∀ (s : State) (o : Op) (sl : Slice) (ws : List W64) (k : W16) (n0 : Nat) (st : Option StampSpec) (l : Launch) (w : Workgroup) (away : Bool)
    (rs : List (Receiver × W64)) (ms : List Move'), s.op? o.uid = some o → o.kind = .engine (.copym sl [] none k n0) st →
    s.launch? o.launch = some l → s.wg? o.wg = some w → sl.desc = some ws → s.doneBelow o.band o.uid = true → (w.resident || w.exited) = true →
    let d := parseCopy ws
    let here := rs.map Prod.fst
    let used := here.map fun r => (r.core, r.flag)
    let t := State.addLocks { s with rflags := s.rflags.filter fun f => !used.contains f } (s.receiverLocks o.uid d here)
    d.badMulticast = false → s.sliceSpace w { d with dstk := 0 } = false → s.readReceivers (l.engineCtx w.core sl.priv) o d = .ok rs →
    (∀ r ∈ rs, r.1.malformed r.2 = false ∧ s.badReceiver o.launch d r.1 = false ∧ s.receiverHere r.1 = true ∧ s.receiverAway o.launch r.1 = false) →
    s.flagsSet away here = true → lockRoom s (s.receiverLocks o.uid d here) = true → s.stampOpen o st = true → s.sidesOpen o ms = true →
    s.resolveAll (l.engineCtx w.core sl.priv) l.lr.migr w (d.wants none) = (ms, none) → (∀ m ∈ ms, t.sideBad o m.src = []) →
    exec (.copymSend (.own o.uid away)) s = .next ((t.touchSides o (ms.map Move'.src)).setOp
      { o with kind := .engine (.copym sl (here.map fun r => { r with rest := t.payload o ms }) (some (t.payload o ms)) 0 (d.xb * d.rows.length)) st })) ∧
  (∀ (s : State) (o : Op) (i : Nat) (sl : Slice) (ws : List W64) (rs : List Receiver) (runs : List Run) (k : W16) (n : Nat)
    (st : Option StampSpec) (l : Launch) (r : Receiver) (code : BitVec 3), s.op? o.uid = some o → s.launch? o.launch = some l →
    o.kind = .engine (.copym sl rs (some runs) k n) st → sl.desc = some ws → rs[i]? = some r → r.acked = false → s.receiverAway o.launch r = false →
    let d := parseCopy ws
    (s.receiverHere r = true → s.receiveOpen l sl.priv r d.spread.1 d.spread.2 r.rest = true) →
    let x := if s.receiverHere r then s.receive o l sl.priv d.seq r d.spread.1 d.spread.2 r.rest k n
      else (s, if code = 0 then none else some code.toNat)
    let k' := match x.2 with | some e => addError k e | none => k
    let t := x.1.setOp { o with kind := .engine (.copym sl (rs.set i { r with acked := true, rest := [] }) (some runs) k' n) st }
    exec (.copymReceiverAck (.own o.uid) i (.ended code)) s = .next (t.settleCopym o.uid))

/-- R104: a stash whose descriptor is sound, the band's earlier operations being done, writes what is left of both tiles and the scales and
ends; `before` are the bytes of the parts that it has written. -/
def StashCompletes : Prop :=
  ∀ (s : State) (o : Op) (ws : List (Nat × W64 × List Byte)) (before err : Nat) (priv : Bool) (st : Option StampSpec) (l : Launch)
    (w : Workgroup), s.op? o.uid = some o → o.kind = .engine (.stash ws before err priv) st → s.launch? o.launch = some l → s.wg? o.wg = some w →
    s.doneBelow o.band o.uid = true → s.stampOpen o st = true →
    (err ≠ 0 → exec (.stashComplete o.uid) s = .next (s.endEngine o.uid st (stError err) 0 0)) ∧
    (∀ ms, err = 0 →
      s.resolveAll (l.prismCtx w.core priv) l.lr.migr w
        (ws.map fun x => ⟨.fill x.2.2, if x.1 = 2 then .sp .ab x.2.1.toNat else .va x.2.1, x.2.2.length, 0⟩) = (ms, none) →
      s.sidesOpen o ms = true →
      let x := s.transfer o ms false
      exec (.stashComplete o.uid) s = .next (x.1.endEngine o.uid st 0 (before + x.2.1) 0))

/-- R99, R305: YIELDC with a copy in flight leaves the ready set with its target; with none it goes to the target at once. The band
comes back once that operation has ended, as after an acquire at the stamp's scope. -/
def YieldUntilCopyResults : Prop :=
  (∀ (s : State) (b : Band) (off : BitVec 24), Stands (.yieldc off) b s →
    (∀ u, b.lastCopy = some u → ((acting b s).op? u).isSome = true →
      exec (.yieldc off) s = .next ((acting b s).modBand b.uid fun c =>
        { (c.issued b.inHandler (.yieldc off) s.cycle).goto (targetOf b (off.signExtend 64)) with
          wait := some (.yieldc u (targetOf b (off.signExtend 64)) b.pc b.hdr none) })) ∧
    (b.lastCopy = none ∨ (∃ u, b.lastCopy = some u ∧ (acting b s).op? u = none) → (acting b s).notHeader b (targetOf b (off.signExtend 64)) = false →
      exec (.yieldc off) s = .next (gone (.yieldc off) b s (acting b s) (targetOf b (off.signExtend 64))))) ∧
  (∀ (s : State) (b : Band) (q : Place) (u : Nat) (t pc hdr : W64) (ended : Option Nat), s.bandAt q = some b →
    b.wait = some (.yieldc u t pc hdr ended) → s.op? u = none → b.parked = false →
    let b' := { b with wait := none, held := false }
    let r := (s.acquireAt b (ended.getD 0)).setBand b'
    r.notHeader b' t = false → exec (.yieldcReactivate q) s = .next r)

/-! ## Storage -/

/-- What a command of a storage load leaves at issue, `u` being the state it was read in: its operation holds the pieces of its buffer, the
error known so far and its queue pair, its buffer is locked, and the band's most recent operation is this one. -/
def storageStarted (b : Band) (u t : State) (d : StgDesc) (n : Nat) (pages : List Nat) (err pair : Nat) (stamp : Option StampSpec) : State :=
  ((t.startEngine b (.engine (.storage d.cmd d.drive d.slba d.nlb d.buf pages err pair none) stamp)).addLocks
    (if n = 0 || err = 5 then [] else [memLock b.place.core u.nextUid (d.cmd == 0) (u.bandCtx b) d.buf.toNat n])).modBand b.uid
    fun c => { c with lastCopy := some u.nextUid }

/-- R108, R272, R283: STGLD with its buffer translated starts its command on its drive's next queue pair in turn; writes and flushes are an external
effect. A descriptor in error starts a command that will end with the error. WATCH watches a word in the lowest free slot of 256, whose
number it gives, or gives all ones where none is free. Both are refused to a redundant run. What a Flush or a malformed descriptor reaches at
BUF, and the order of the errors, are the model's choices (logs 35 and 37), and so is the slot (log 37). -/
def StorageAndWatchWordResults : Prop :=
  (∀ (s u : State) (b : Band) (m : MemRef) (ea : Ea) (bs : List Byte) (l : Launch) (pages : List Nat) (stamp : Option StampSpec),
    Stands (.stgld m) b s → (acting b s).bandLaunch b = some l → l.lr.redn ≠ 1 → (acting b s).effective b m 32 = .ok ea → ea.e.toNat % 32 = 0 →
    Described b ea.e 32 (acting b s) bs u →
    let d := parseStg bs
    let block := u.blockBytes d.drive
    let n := if d.malformed block then 0 else d.bytes block
    d.buf.toNat % block = 0 → u.bufferPages b (if d.cmd = 0 then .store else .load) d.buf (d.reach block) = .ok pages →
    u.stampOf b (d.buf - 16) d.seq d.scope = .ok stamp → flagFree b false = true → u.bandLaunch b = some l →
    u.entriesHeld b.wg < l.lr.copies → (u.locks.filter fun y => y.core == b.place.core).length < 64 →
    let err := u.stgError d pages
    let t := if d.cmd == 1 || d.cmd == 2 then u.externalEffect b.launch else u
    (∀ k q, err = 0 → t.pairFor d.drive = some (k, q) →
      exec (.stgld m) s = .next (past (.stgld m) b s
        ((storageStarted b u { t with rrPair := assocSet t.rrPair d.drive (k + 1) } d n pages 0 q stamp).updateA b m ea))) ∧
    (err ≠ 0 → exec (.stgld m) s = .next (past (.stgld m) b s ((storageStarted b u t d n pages err 0 stamp).updateA b m ea)))) ∧
  (∀ (s : State) (b : Band) (n : Fin 64) (m : MemRef) (ea : Ea) (l : Launch) (x : LaneTr) (pa page : Nat), Stands (.watch (.s n) m) b s →
    (acting b s).bandLaunch b = some l → l.lr.redn ≠ 1 → (acting b s).effective b m 8 = .ok ea → ea.e.toNat % 8 = 0 →
    (acting b s).walkFirst ((acting b s).bandCtx b) .load 8 [(0, ea.e)] = .ok () →
    (acting b s).translateLanes ((acting b s).bandCtx b) .load true 8 [(0, ea.e)] = .ok [x] → x.bytes.head? = some (pa, page) → page ≠ 3 →
    s.inSecure pa = false → flagFree b false = true → (acting b s).canAlloc b 0 1 = true →
    ((∀ k, k < 256 → ∃ w ∈ s.watches, w.slot = k) →
      exec (.watch (.s n) m) s = .next (past (.watch (.s n) m) b s (((acting b s).putS b n.val (~~~ 0)).updateA b m ea))) ∧
    (∀ k, k < 256 → (∀ w ∈ s.watches, w.slot ≠ k) → (∀ j, j < k → ∃ w ∈ s.watches, w.slot = j) →
      let t := (acting b s).putS b n.val (BitVec.ofNat 64 k)
      exec (.watch (.s n) m) s = .next (past (.watch (.s n) m) b s
        (({ t with watches := s.watches ++ [⟨k, pa, b.launch, s.word pa, 0, true⟩] } : State).updateA b m ea))))

/-- R396, R109: a command whose band's earlier operations are done takes the lowest free slot and enters its submission queue, whose tail moves;
one in error ends. A new completion entry moves the head, whose doorbell is rung, and ends its command; a drive's timeout ends it with
code 6. The bytes of the entry, the command's number and the queue's pointers and phase are NVMe's (PRESUMED, log 23), and the bus address
that the PRP entries name is that of BAR4 as the host has written it. -/
def StorageCommandResults : Prop :=
  (∀ (s : State) (o : Op) (cmd drive nlb err j : Nat) (slba buf : W64) (pages : List Nat) (st : Option StampSpec), s.op? o.uid = some o →
    o.kind = .engine (.storage cmd drive slba nlb buf pages err j none) st → s.doneBelow o.band o.uid = true →
    (err ≠ 0 → s.stampOpen o st = true → exec (.storageSlotAssigned o.uid) s = .next (s.endEngine o.uid st (stError err) 0 0)) ∧
    (∀ k, err = 0 → s.freeSlot = some k →
      let q := s.qpair j
      let tail := (q.tail + 1) % (s.sqd j + 1)
      let n := if cmd = 2 then 0 else (nlb + 1) * s.blockBytes drive
      let e := nvmeCommand cmd (s.freeCid j) (fld (s.stgdrv drive) 31 0) (prps (BitVec.ofNat 64 (s.barAddr 4)) k buf n) slba nlb
      let t := ((s.physStore (s.sqBase j + 64 * q.tail) 64 e false).setQpair { q with tail := tail }).setOp
        { o with kind := .engine (.storage cmd drive slba nlb buf pages 0 j (some (k, s.freeCid j, s.cycle))) st }
      exec (.storageSlotAssigned o.uid) s = .next
        (if (s.stgdrv drive).getLsbD 62 then t.post (s.eventFor 0x65 o.launch (j + tail * 2 ^ 16))
          else t.send (.pcieWrite (BitVec.ofNat 64 (s.qpRec j 24 8)) ((List.range 4).map (byteOf tail)))))) ∧
  (∀ (s : State) (j e : Nat) (o : Op) (cmd drive nlb err : Nat) (slba buf : W64) (pages : List Nat) (x : Nat × Nat × Nat)
    (st : Option StampSpec), j < 64 → s.newEntry j = some e → s.storageOp j (e / 2 ^ 96 % 2 ^ 16) = some o →
    o.kind = .engine (.storage cmd drive slba nlb buf pages err j (some x)) st → (s.stgdrv drive).getLsbD 62 = false → s.stampOpen o st = true →
    let q := s.qpair j
    let head := (q.head + 1) % (s.cqd j + 1)
    let status := e / 2 ^ 113 % 2 ^ 15
    let t := (s.setQpair { q with head := head, phase := if head = 0 then !q.phase else q.phase }).send
      (.pcieWrite (BitVec.ofNat 64 (s.qpRec j 24 8 + s.qpRec j 20 4)) ((List.range 4).map (byteOf head)))
    exec (.storageCompletion j) s = .next
      (if status = 0 then t.endEngine o.uid st 0 (if cmd = 2 then 0 else (nlb + 1) * s.blockBytes drive) 0
        else t.endEngine o.uid st (stError 7 ||| 1024) 0 status)) ∧
  (∀ (s : State) (o : Op) (cmd drive nlb err j k cid at_ : Nat) (slba buf : W64) (pages : List Nat) (st : Option StampSpec),
    s.op? o.uid = some o → o.kind = .engine (.storage cmd drive slba nlb buf pages err j (some (k, cid, at_))) st →
    fld (s.reg (0x2300 + 8 * drive)) 31 0 ≠ 0 → at_ + microseconds (fld (s.reg (0x2300 + 8 * drive)) 31 0) ≤ s.cycle → s.stampOpen o st = true →
    exec (.storageCommandTimeout o.uid) s = .next (s.endEngine o.uid st (stError 6) 0 0))

/-- R396: the storage window's bytes: a write changes the bytes of memory that it presents and no other; a read that meets a byte
that is nothing is unsupported; any other read gives the bytes, a byte of secure memory as zero, and reports what it was refused. An atomic
acts on memory alone (its form PRESUMED, log 24). -/
def StorageWindowResults : Prop :=
  ∀ (s : State) (off size data : Nat), off + size ≤ 2 ^ 35 →
    let bs := (List.range size).map fun i => s.winByte (off + i)
    let pas := bs.filterMap fun x => match x with | .mem pa => some pa | _ => none
    exec (.storageWindowAccess .write off size data) s = .next (s.outsideWrite (bs.zipIdx.filterMap fun x =>
      match x.1 with | .mem pa => some (pa, byteOf data x.2) | _ => none)) ∧
    (WinByte.none ∈ bs → exec (.storageWindowAccess .read off size data) s = .next (s.send (.pcieData none))) ∧
    (WinByte.none ∉ bs →
      exec (.storageWindowAccess .read off size data) s = .next ((s.outsideRefused pas).send (.pcieData (some (leNat (bs.map fun x =>
          match x with | .mem pa => s.outsideByte pa | .list y => y | .none => 0)))))) ∧
    (pas.length = size → size = 4 ∨ size = 8 → pas.headD 0 % size = 0 → (∀ p ∈ pas, s.inSecure p = false) →
      exec (.storageWindowAccess .swap off size data) s = .next ((s.outsideWrite (pas.zipIdx.map fun x => (x.1, byteOf data x.2))).send
        (.pcieData (some (leNat (pas.map s.outsideByte)))))) ∧
    (pas.length ≠ size → exec (.storageWindowAccess .swap off size data) s = .next (s.send (.pcieData none))) ∧
    (∀ pa, s.kindOf pa = .ram → s.inSecure pa = true → s.outsideByte pa = 0)

/-! ## Collectives -/

/-- R274: CRS hands its bucket to a Flume once the band's accesses are performed, a slot of its workgroup's 32 is free, and the record's
address can be stored to. R280: GSGET starts an arithmetic-class operation with the value of a slot of a g register, empty reading as
zero with 16 in the second register. -/
def ReduceAndNormWordResults : Prop :=
  (∀ (s u : State) (b : Band) (m : MemRef) (ea : Ea) (bs : List Byte) (l : Launch) (t : PGTable) (g : PGroup), Stands (.crs m) b s →
    (acting b s).bandLaunch b = some l → l.lr.redn ≠ 1 → (acting b s).effective b m 64 = .ok ea → ea.e.toNat % 64 = 0 →
    Described b ea.e 64 (acting b s) bs u → u.bandLaunch b = some l → l.pg = some t → l.group? (parseBucket bs).pgrp = some g →
    (parseBucket bs).ok g b.rank = true → zeroBytes bs 49 64 = true → u.checkStore b (parseBucket bs).recVa 32 = .ok () →
    flagFree b false = true → u.slotsHeld b.wg < 32 → u.accessesDone b = true →
    exec (.crs m) s = .next (past (.crs m) b s (((u.noteRecord (u.bandCtx b) (parseBucket bs).recVa).submitCrs b l t g (parseBucket bs)).updateA b m ea))) ∧
  (∀ (s : State) (b : Band) (n : Fin 64) (j : BitVec 3) (g : BitVec 1) (x : BitVec 6), Stands (.gsget (.s n) j g x) b s →
    n.val % 2 = 0 → j.toNat ≤ 5 → flagFree b true = true → (acting b s).canAlloc b 0 2 = true →
    let v := gsValue (((acting b s).gOf x.toNat).pick (g == 1)) j.toNat
    exec (.gsget (.s n) j g x) s = .next (past (.gsget (.s n) j g x) b s
      (((((acting b s).invalidateL1 b.place.core).startOp b true (.arith .tagS2 (.pair v.1 v.2.1) v.2.2)).awaitS b n.val s.nextUid 0).awaitS b
        (n.val + 1) s.nextUid 1)))

/-- R349, R350, R351: what reaches an owner is classed once: the contribution of a CRS of this device with the elements that the owner owns,
each atom of the source read once (R137), or an error that ends the rank's part; of another device's for an active launch; that device is
told the class. A step that the arrival brings to its quorum closes. -/
def ContributionResults : Prop :=
  (∀ (s u : State) (o : Op) (owner : Nat) (c : CrsOp) (l : Launch) (t : PGTable) (err : Option Nat), s.op? o.uid = some o → o.kind = .crs c →
    s.launch? o.launch = some l → l.pg = some t → owner ∈ c.owners → owner ∉ c.acked → t.serves owner = true →
    let ix := c.b.indices c.owners owner
    s.readSrc o.uid c.b ix = (u, err) →
    let key : StepKey := ⟨l.lr.lid.toNat, c.b.pgrp, c.b.bid, c.b.stepn⟩
    let x := u.contribute key owner c.rank c.b.fields (u.elemsRead o.uid ix)
    (err = none → exec (.contributionArrival (.own o.uid owner)) s = .next ((x.2.ackCrs o.uid owner x.1).checkQuorum key owner)) ∧
    (∀ e, err = some e → exec (.contributionArrival (.own o.uid owner)) s = .next (u.crsEnd o.uid e))) ∧
  (∀ (s : State) (owner : Nat) (m : ContribMsg) (l : Launch), s.byLid m.key.lid = some l →
    let x := s.contribute m.key owner m.rank (contribFields m) m.elems
    exec (.contributionArrival (.remote owner m)) s = .next
      ((x.2.reply (BitVec.ofNat 32 m.key.lid) m.dev (.ack m.rank m.key x.1)).checkQuorum m.key owner))

/-- R351: the timer of an open step, when it has run out, closes the step, or asks the host where HOSTQ is set. R353: a rank's step at the
closed point is reported. R354: a hop that is not at the owner goes on. R357, R358: a norm's last partial closes it, this device's own being
sent at once where its step was closed before the norm was known here (DEDUCED, log 34); GCLR empties. -/
def FlumeEventResults : Prop :=
  (∀ (s : State) (k : StepKey) (r : Reduction), (s.reductions.filter fun x => x.key == k && decide (x.deadline ≤ s.cycle)) = [r] →
    exec (.quorumTimerExpiry k) s = .next
      (if (s.reg 0x2108).getLsbD 62 then
        if r.expired then s
        else (s.setReduction { r with expired := true }).post (s.eventOf 0x55 (BitVec.ofNat 32 k.lid) (stepDetail k) r.non)
      else s.closeStep r stTimer)) ∧
  (∀ (s : State) (o : Op) (owner : Nat) (c : AckClass) (x : CrsOp) (l : Launch) (t : PGTable), s.op? o.uid = some o → o.kind = .crs x →
    s.launch? o.launch = some l → l.pg = some t → t.serves owner = false → (∀ lid, c ≠ .fault lid) →
    exec (.ownerAckArrival o.uid owner c) s = .next (s.ackCrs o.uid owner c)) ∧
  (∀ (s : State) (op owner lid : Nat) (l : Launch), s.byLid lid = some l →
    exec (.ownerAckArrival op owner (.fault lid)) s = .next (s.sumBit l.uid 5)) ∧
  (∀ (s : State) (lid pgrp : Nat) (st : W32) (l : Launch) (t : PGTable) (g : PGroup), s.byLid lid = some l → l.pg = some t → l.group? pgrp = some g →
    (lid, pgrp, st) ∉ s.stepClosed → s.atClosedPoint l t g pgrp st = true →
    ∃ u, exec (.stepClosedPoint lid pgrp st) s = .next u ∧ u.stepClosed = s.stepClosed ++ [(lid, pgrp, st)] ∧
      ∀ n ∈ u.norms, n.lid = lid → n.pgrp = pgrp → n.step = st → n.sent = true) ∧
  (∀ (s : State) (m : RingMsg) (l : Launch) (t : PGTable), s.byLid m.key.lid = some l → l.pg = some t → t.serves m.owner = false →
    (s.ringJoin m).1.folded ≠ [] →
    exec (.ringHop m) s = .next ((s.ringJoin m).2.send (.ring (s.ringJoin m).1))) ∧
  (∀ (s : State) (m : NormMsg) (l : Launch), s.byLid m.lid = some l →
    let n := s.normOf m.lid m.pgrp m.step m.j
    (n.closed = true ∨ (∃ x ∈ n.got, x.dev = m.dev) → exec (.normPartialArrival m) s = .next s) ∧
    (n.closed = false → (∀ x ∈ n.got, x.dev ≠ m.dev) →
      (n.sent = true ∨ (n.lid, n.pgrp, n.step) ∉ s.stepClosed → exec (.normPartialArrival m) s =
        .next ((s.setNorm { n with got := n.got ++ [m] }).closeNorm { n with got := n.got ++ [m] })) ∧
      (n.sent = false → (n.lid, n.pgrp, n.step) ∈ s.stepClosed → exec (.normPartialArrival m) s =
        .next (s.sendNorm { n with got := n.got ++ [m] })))) ∧
  (∀ (s : State) (v : W64), ∃ t, exec (.gclrWrite v) s = .next t ∧ t = { s with gregs := t.gregs } ∧
    ∀ j, t.gOf j = if v.getLsbD j then ⟨j, none, none⟩ else s.gOf j)

/-- R276, R356: CSCAL hands its scalar to the closer; R277: CAG hands a publication to the Flume. Both need the band's accesses performed and a
free slot of the workgroup's 32. -/
def ScalarAndGatherWordResults : Prop :=
  (∀ (s u : State) (b : Band) (a p : Opnd) (v e : W64) (bs : List Byte) (l : Launch) (t : PGTable) (g : PGroup), Stands (.cscal a p) b s →
    (acting b s).bandLaunch b = some l → l.lr.redn ≠ 1 → (acting b s).scalarSrc b false a = .ok v → (acting b s).scalarSrc b false p = .ok e →
    e.toNat % 32 = 0 → Described b e 32 (acting b s) bs u → u.bandLaunch b = some l → l.pg = some t →
    l.group? (parseScalar bs).pgrp = some g → (parseScalar bs).ok g b.rank = true → zeroBytes bs 24 32 = true →
    u.checkStore b (parseScalar bs).recVa 32 = .ok () → flagFree b false = true → u.slotsHeld b.wg < 32 → u.accessesDone b = true →
    exec (.cscal a p) s = .next (past (.cscal a p) b s
      ((u.noteRecord (u.bandCtx b) (parseScalar bs).recVa).submitScalar b l t g (parseScalar bs) v))) ∧
  (∀ (s u : State) (b : Band) (m : MemRef) (ea : Ea) (bs : List Byte) (l : Launch), Stands (.cag m) b s →
    (acting b s).bandLaunch b = some l → l.lr.redn ≠ 1 → (l.pg.isSome || b.privileged) = true → (acting b s).effective b m 64 = .ok ea →
    ea.e.toNat % 64 = 0 → Described b ea.e 64 (acting b s) bs u → (parseCag bs).ok = true → zeroBytes bs 32 64 = true →
    (l.pg = none → (parseCag bs).pgrp = 0) → (l.pg.isSome = true → ∃ g, l.group? (parseCag bs).pgrp = some g ∧ g.has b.rank = true) →
    u.checkStore b (parseCag bs).recVa 32 = .ok () →
    u.walkFirst (u.bandCtx b) .load 1 [(0, (parseCag bs).dst)] = .ok () →
    u.versionedPage (u.bandCtx b) (parseCag bs).dst = true → flagFree b false = true →
    u.slotsHeld b.wg < 32 → u.accessesDone b = true →
    exec (.cag m) s = .next (past (.cag m) b s
      (((u.noteRecord (u.bandCtx b) (parseCag bs).recVa).submitCag b l (parseCag bs)).updateA b m ea)))

/-- R356: a scalar arrives at the closer; its step's timer, when it has run out, closes it or asks the host; the closer's result is
recorded; without one in twice TIMER the record holds code 6. R277: a chunk is laid into its incoming frame, or kept until that has been
taken; a failure ends the CAG here, and nothing more of it is written; a device's end is noted. Which Flume of a device acts for a delivery
is a free choice (DESIGN CHOICE, log 34), and that a chunk whose open waits is kept is the model's (log 38). -/
def ScalarAndGatherEventResults : Prop :=
  (∀ (s : State) (o : Op) (rank opc typ pgrp q tm at_ : Nat) (st : W32) (recVa v : W64) (late : Bool) (l : Launch) (t : PGTable) (g : PGroup),
    s.op? o.uid = some o → o.kind = .cscal rank st opc typ pgrp q tm recVa v at_ false late → s.launch? o.launch = some l → l.pg = some t →
    l.group? pgrp = some g → t.closer g = t.here →
    exec (.scalarContributionArrival (.own o.uid)) s =
      .next ((s.setOp { o with kind := .cscal rank st opc typ pgrp q tm recVa v at_ true late }).scalarArrive
        ⟨l.lr.lid.toNat, pgrp, st, s.devid, o.uid, rank, opc, typ, q, tm, v⟩)) ∧
  (∀ (s : State) (m : ScalarMsg) (l : Launch), s.byLid m.lid = some l →
    exec (.scalarContributionArrival (.remote m)) s = .next (s.scalarArrive m)) ∧
  (∀ (s : State) (lid pgrp : Nat) (st : W32) (x : ScalarStep), s.scalarStep? lid pgrp st = some x → x.closed = false → x.deadline ≤ s.cycle →
    ((s.reg 0x2108).getLsbD 62 = false → exec (.scalarTimerExpiry lid pgrp st) s = .next (s.closeScalar x stTimer)) ∧
    ((s.reg 0x2108).getLsbD 62 = true → x.expired = false → exec (.scalarTimerExpiry lid pgrp st) s =
      .next ((s.setScalar { x with expired := true }).post
        (s.eventOf 0x55 (BitVec.ofNat 32 lid) (stepDetail ⟨lid, pgrp, 0, st⟩) x.vals.length)))) ∧
  (∀ (s : State) (r : ScalarResult) (o : Op) (opc typ q tm at_ : Nat) (recVa v : W64) (sent late : Bool), s.op? r.tag = some o →
    o.kind = .cscal r.rank r.step opc typ r.pgrp q tm recVa v at_ sent late →
    exec (.scalarResultArrival r) s = .next (s.scalarRecord r.tag r.status r.non r.nlate r.ndrop r.result)) ∧
  (∀ (s : State) (o : Op) (rank opc typ pgrp q tm at_ : Nat) (st : W32) (recVa v : W64) (sent late : Bool), s.op? o.uid = some o →
    o.kind = .cscal rank st opc typ pgrp q tm recVa v at_ sent late → at_ + 2 * microseconds tm ≤ s.cycle →
    exec (.cscalResultTimeout o.uid) s = .next (s.scalarRecord o.uid (addErr (if late then stLate else 0) 6) 0 0 0 0)) ∧
  (∀ (s : State) (dev tag lid rank nchk chunk : Nat) (w : W32) (dst : W64) (data : Nat) (bad : List Nat) (l l' : Launch), s.byLid lid = some l →
    let x := (s.cagIn? dev tag).getD ⟨dev, tag, l.uid, rank, w, nchk, [], [], [], none, false⟩
    let y : CagIn := { x with held := x.held.filter fun z => z.chunk != chunk }
    let d := (s.tick 1).deliver l' s.someFlume x.rank x.ver dst data bad
    s.launch? x.launch = some l' →
    (x.ended = true ∨ chunk ∈ x.got → exec (.cagChunkArrival (.remote dev tag lid rank nchk chunk w dst data bad)) s = .next s) ∧
    (x.ended = false → chunk ∉ x.got → s.chunkGone l' s.someFlume x.rank x.ver dst x.sets = false →
      (d.2 = .waits → exec (.cagChunkArrival (.remote dev tag lid rank nchk chunk w dst data bad)) s =
        .next (d.1.setCagIn { y with held := y.held ++ [⟨chunk, dst, data, bad⟩] })) ∧
      (∀ e, d.2 = .failed e → exec (.cagChunkArrival (.remote dev tag lid rank nchk chunk w dst data bad)) s =
        .next (d.1.endCagIn y l'.lr.lid (.failed (BitVec.ofNat 3 e)))) ∧
      (∀ set closed, d.2 = .taken set closed → x.got.length + 1 < x.nchk → (∀ k ∈ x.got, k < chunk) →
        exec (.cagChunkArrival (.remote dev tag lid rank nchk chunk w dst data bad)) s =
          .next (d.1.setCagIn { y with got := x.got ++ [chunk], sets := d.2.sets x.sets })))) ∧
  (∀ (s : State) (o : Op) (pos : Nat) (out : CagOutcome) (l : Launch), s.op? o.uid = some o → s.launch? o.launch = some l → pos ≠ l.here →
    exec (.cagDeviceDone o.uid pos out) s = .next (s.cagEnd o.uid pos out))

/-- R278, R279: STEP advances its rank's own entry by one, unless that would lead the floor by more than the lead, when it waits; STEPRD
starts an operation with the value that its selector reads. -/
def StepWordResults : Prop :=
  (∀ (s : State) (b : Band) (l : Launch) (t : PGTable) (g : PGroup) (w : WeirGroup) (e : WeirEntry), Stands .step b s →
    (acting b s).bandLaunch b = some l → l.pg = some t → l.group? 0 = some g → s.weirOf l.lr.lid.toNat = some w → w.rank? b.rank = some e →
    (verNewer (e.step + 1) (w.floor + BitVec.ofNat 32 w.lead) = false →
      exec .step s = .next (past .step b s
        ((((acting b s).setWeir (w.put { e with step := e.step + 1, taken := e.taken + 1 })).sendSteps t g l.lr.lid.toNat
          [{ e with step := e.step + 1, taken := e.taken + 1 }]).retrySteps))) ∧
    (verNewer (e.step + 1) (w.floor + BitVec.ofNat 32 w.lead) = true →
      exec .step s = .next (s.setBand { b with wait := some .step, held := true, stalled := none, tried := b.firstTry .step s.cycle }))) ∧
  (∀ (s : State) (b : Band) (n : Fin 64) (a : Opnd) (imm : BitVec 8) (l : Launch) (t : PGTable) (g : PGroup) (w : WeirGroup) (arg : Nat) (x : W64),
    Stands (.steprd (.s n) a imm) b s → (acting b s).bandLaunch b = some l → l.pg = some t → l.group? 0 = some g →
    s.weirOf l.lr.lid.toNat = some w → (3 ≤ imm.toNat → (acting b s).stepArg b a = .ok arg) → (imm.toNat < 3 → arg = 0) →
    weirRead b imm.toNat t g w arg = .ok x → flagFree b true = true → (acting b s).canAlloc b 0 1 = true →
    exec (.steprd (.s n) a imm) s = .next (past (.steprd (.s n) a imm) b s
      (((acting b s).startOp b true (.arith .tagS (.scalar x) 0)).awaitS b n.val s.nextUid 0)))

/-- R361, R362, R364, R366, R418: steps and summaries of others are heard; silence is reported and taken, or left to the host; messages held
too long go; the write of FLMCMD1 closes steps, declares a rank silent, is refused, or does nothing; a lane change is reported. That a
scalar step is bucket 0 in FLMCMD and in the class 0x55 event, and that a held contribution which goes is acknowledged as dropped, are the
model's readings (DEDUCED, log 34); that CAPLINK shows the new lanes is its choice, which R366 does not state (DESIGN CHOICE, log 34). -/
def WeirEventResults : Prop :=
  (∀ (s : State) (lid rank : Nat) (st : W32) (l : Launch) (t : PGTable) (w : WeirGroup) (e : WeirEntry), s.byLid lid = some l → l.pg = some t →
    s.weirOf lid = some w → w.rank? rank = some e → t.serves rank = false →
    exec (.weirStepMessage lid rank st) s = .next (s.hear w e st)) ∧
  (∀ (s : State) (w : WeirGroup) (e : WeirEntry) (st : W32), e.silent = false →
    (s.hear w e st).weir = s.weir.map fun x => if x.lid = w.lid then
      w.put { e with step := if e.isPod || verNewer st e.step then st else e.step, heard := s.cycle, asked := false } else x) ∧
  (∀ (s : State) (lid pod : Nat) (st : W32) (l : Launch) (t : PGTable) (g : PGroup) (w : WeirGroup) (e : WeirEntry), s.byLid lid = some l →
    s.weirOf lid = some w → (w.entries.find? fun e => e.isPod && e.who == pod) = some e → l.pg = some t → l.group? 0 = some g →
    State.podLeader t g w (podOf (t.devAt t.here)) ≠ some t.here → exec (.podSummaryArrival lid pod st) s = .next (s.hear w e st)) ∧
  (∀ (s : State), (∀ w ∈ s.weir, s.cycle < w.beatAt + s.hbeat) → exec .weirHeartbeat s = .next s) ∧
  (∀ (s : State) (w : WeirGroup) (l : Launch) (t : PGTable) (g : PGroup), s.weir = [w] → w.beatAt + s.hbeat ≤ s.cycle → s.byLid w.lid = some l →
    l.pg = some t → l.group? 0 = some g →
    let u := (s.setWeir { w with beatAt := s.cycle }).sendSteps t g w.lid (w.entries.filter fun e => !e.isPod && t.serves e.who)
    exec .weirHeartbeat s = .next
      (if State.podLeader t g w (podOf (t.devAt t.here)) = some t.here then u.sendSummary t g w else u)) ∧
  (∀ (s : State) (lid who : Nat) (isPod : Bool) (l : Launch) (t : PGTable) (w : WeirGroup) (e : WeirEntry), s.byLid lid = some l → l.pg = some t →
    s.weirOf lid = some w → (w.entries.find? fun e => e.isPod == isPod && e.who == who) = some e → (isPod = true ∨ t.serves who = false) →
    e.silent = false → e.asked = false → max l.activatedAt e.heard + s.siltmo ≤ s.cycle →
    let u := s.post (s.eventOf 0x51 (BitVec.ofNat 32 lid) (weirDetail e))
    exec (.weirSilenceTimeout lid isPod who) s =
      .next (if u.hosts then u.setWeir (w.put { e with asked := true }) else u.silence w e)) ∧
  (∀ (s : State) (i : Nat) (h : Held), s.heldMsgs[i]? = some h → h.arrived + s.siltmo ≤ s.cycle →
    let t : State := { s with heldMsgs := s.heldMsgs.eraseIdx i }
    exec (.heldMessageExpiry i) s = .next (match h.msg with
      | .contribution _ m => t.reply (BitVec.ofNat 32 m.key.lid) m.dev (.ack m.rank m.key .dropped)
      | .ring m => t.ackRing m .dropped
      | .scalar m => t.reply (BitVec.ofNat 32 m.lid) m.dev (.ack m.rank ⟨m.lid, m.pgrp, 0, m.step⟩ .dropped)
      | _ => t)) ∧
  (∀ (s : State) (v : W64), exec (.flmcmdNone v) s = .next s ∧
    (s.flmcmd v = .refused → exec (.flmcmdRefused v) s =
      .next (s.post (s.eventOf 0x5F (BitVec.ofNat 32 (fld v 31 0)) ((s.reg 0x2110).toNat + v.toNat * 2 ^ 64)))) ∧
    (∀ w e, s.flmcmd v = .silent w e → exec (.flmcmdDeclareSilent v) s = .next (s.silence w e)) ∧
    (∀ rs xs, s.flmcmd v = .close rs xs → exec (.flmcmdCloseStep v) s =
      .next (xs.foldl (fun s x => s.closeScalar x 0) (rs.foldl (fun s r => s.closeStep r 0) s)))) ∧
  (∀ (s : State) (eth : Bool) (port lanes : Nat), exec (.linkLaneChange eth port lanes) s = .next
    ((if eth || decide (18 ≤ port) then s
      else s.setNum 0x2003 (setFld (s.num 0x2003) (2 * port + 1) (2 * port) (min lanes 3))).post
      (mkEvent 0x56 0 (port % 32 + (if eth then 32 else 0) + lanes % 8 * 64)))) ∧
  (∀ (s : State) (lid : Nat) (dev : BitVec 21) (l : Launch), dev.toNat ≠ s.devid →
    (s.launches.filter fun l => l.lr.lid.toNat == lid && (l.phase == .active || l.phase == .killing)
      && (l.pg.isSome || s.ops.any fun o => o.launch == l.uid && s.copymTo dev.toNat o)) = [l] →
    (∀ o ∈ s.ops, o.launch ≠ l.uid) → (∀ x ∈ s.inbound, x.launch ≠ l.uid) →
    exec (.peerUnreachable lid dev) s = .next
      (({ s with cagsIn := s.cagsIn.filter fun x => !(x.launch == l.uid && x.dev == dev.toNat) } : State).post
        (s.eventFor 0x57 l.uid (dev.toNat % 2 ^ 21))))

/-! ## Fetching, performing and landing -/

/-- R168, R173, R174: the clause at the band's header is fetched whole, unless a store through the register aperture waits for the band
(R160): its header and the words that its length counts, none of them damaged; a word that is no header is an illegal target, and a page that
fails is a fetch trap, or a clause-straddle trap where it is not the header's; a header that is damaged is consumed (R47). A band that RFT
returned into the middle of the clause goes on at its word, and takes an illegal target where the clause has none there (R374; DEDUCED,
log 32). -/
def ClauseFetchResults : Prop :=
  ∀ (s : State) (b : Band), s.bandAt s.cur = some b → b.clause = none → b.canIssue = true → b.stopping = false → s.apAwaits b.place = false →
    b.hdr.toNat < 2 ^ 57 → s.missing (s.bandCtx b) b.hdr = false →
    (∀ (h : W32) (ws : List (W32 × Option (Nat × KillCause))), s.fetchWord b b.hdr = .ok (h, none) → h.extractLsb' 24 8 = 0xFC →
      s.fetchWords b ((h.extractLsb' 0 4).toNat + 1) (va57 (b.hdr + 4)) = .ok ws → (∀ x ∈ ws, x.2 = none) →
      let c : Clause := ⟨h, ws.map Prod.fst⟩
      let t := s.fetchScrub b b.hdr (1 + ws.length)
      (b.resume = none → exec .clauseFetch s = .next (t.setBand { b with clause := some c, pc := b.hdr })) ∧
      (∀ r, b.resume = some r → c.holds b.hdr r = true →
        exec .clauseFetch s = .next (t.setBand { b with clause := some c, pc := r, resume := none })) ∧
      (∀ r, b.resume = some r → c.holds b.hdr r = false → r ≠ va57 (b.hdr + 4 * BitVec.ofNat 64 (1 + ws.length)) →
        exec .clauseFetch s = .next (s.takeTrap b { s.fetchTrap b 0x03 b.hdr with s26 := r }))) ∧
    (∀ (h : W32) (pa : Nat) (c : KillCause), s.fetchWord b b.hdr = .ok (h, some (pa, c)) →
      exec .clauseFetch s = .next ((s.consume b pa c).stopAt b.uid)) ∧
    (∀ (h : W32), s.fetchWord b b.hdr = .ok (h, none) → h.extractLsb' 24 8 ≠ 0xFC →
      exec .clauseFetch s = .next (s.takeTrap b { s.fetchTrap b 0x03 b.hdr with s26 := b.hdr })) ∧
    (∀ f, s.fetchWord b b.hdr = .error f → exec .clauseFetch s = .next (s.takeTrap b (s.fetchTrap b 0x18 b.hdr))) ∧
    (∀ (h : W32) (va : W64) (f : TrFault), s.fetchWord b b.hdr = .ok (h, none) → h.extractLsb' 24 8 = 0xFC →
      s.fetchWords b ((h.extractLsb' 0 4).toNat + 1) (va57 (b.hdr + 4)) = .error (va, f) →
      exec .clauseFetch s = .next (s.takeTrap b (s.fetchTrap b 0x19 va)))

/-- R169, R171, R172: a header whose masked flags are all zero issues and the clause's first word follows; with one that is not zero the
band waits at the header; a reserved flag number is an illegal operand; a header word within a clause is an illegal instruction. -/
def ClauseHeaderResults : Prop :=
  ∀ (s : State) (b : Band) (wait : BitVec 12) (sa sb n : BitVec 4), s.bandAt s.cur = some b → b.canIssue = true → s.apAwaits b.place = false →
    let i : Instr := .clauseHeader wait sa sb n
    let trap := fun (code : Nat) => (Host.Outcome.next (s.takeTrap b (b.trapAt false 1 code 0 ((encodeWord i).setWidth 64) 0)) : Host.Outcome State Fault Refusal)
    let legal := sa ∉ [0xC, 0xD, 0xE] ∧ sb ∉ [0xC, 0xD, 0xE]
    let clear := ∀ k, k < 12 → wait.getLsbD k = true → b.f.toArray.getD k 0 = 0
    (b.atHeader = false ∨ b.clause = none → exec i s = trap 0x01) ∧
    (b.atHeader = true → b.clause.isSome = true → b.stopping = false →
      (¬ legal → exec i s = trap 0x02) ∧
      (legal → ¬ clear → exec i s = .next (s.setBand { b with held := true })) ∧
      (legal → clear → exec i s =
        .next (s.setBand { (({ b with pc := va57 (b.pc + 4) } : Band).issued b.inHandler i s.cycle) with latValid := false })))

/-- The result of an arithmetic-class operation lands, its status joins FPS and its flag falls. A load's data, an atomic's old values and a local load's
land in the same way, once every atom is performed; an sc access then stays, counted by no flag, until its response comes (R124). -/
def ResultsLand : Prop :=
  (∀ (s : State) (o : Op) (d : Dest) (v : ArithVal) (fps : BitVec 6), s.op? o.uid = some o → o.kind = .arith d v fps →
    exec (.arithResultWritten o.uid) s = .next (((s.landDest o d v).setFps o.band fps).endOp o)) ∧
  (∀ (s : State) (o : Op) (x : Access), s.op? o.uid = some o → o.kind = .load x → x.undone = false → s.upset = 0 →
    let t := (s.landDest o x.dest (destValue x.dest x.typ (x.lanes.map fun l => (l.lane, x.laneValue l)))).setFps o.band 0
    (x.cls ≠ 5 ∨ x.answered = true → exec (.loadDataReturn o.uid) s = .next (t.endOp o)) ∧
    (x.cls = 5 → x.answered = false → exec (.loadDataReturn o.uid) s =
      .next ((t.dropFlag o).setOp { o with flag := none, kind := .load { x with dest := .none } }))) ∧
  (∀ (s : State) (o : Op) (k : AtomKind) (x : Access) (ls : List AtomLane) (sat : Bool) (fps : BitVec 6), s.op? o.uid = some o →
    o.kind = .atomic k x ls sat fps → x.undone = false → s.upset = 0 →
    let t := (s.landDest o x.dest (destValue x.dest x.typ (ls.map fun l => (l.lane, l.old.toNat)))).setFps o.band fps
    (x.cls ≠ 5 ∨ x.answered = true → exec (.loadDataReturn o.uid) s = .next (t.endOp o)) ∧
    (x.cls = 5 → x.answered = false → exec (.loadDataReturn o.uid) s =
      .next ((t.dropFlag o).setOp { o with flag := none, kind := .load { x with dest := .none } }))) ∧
  (∀ (s : State) (o : Op) (d : Dest) (v : ArithVal), s.op? o.uid = some o → o.kind = .localLoad d v → s.upset = 0 →
    exec (.loadDataReturn o.uid) s = .next ((s.landDest o d v).endOp o)) ∧
  (∀ (s : State) (o : Op) (d : Dest) (x : W64) (b : Band) (n : Nat), s.band? o.band = some b → d = .tagS →
    (b.sName n).pend = some ⟨o.uid, 0⟩ → n < 64 →
    ∃ c, (s.landDest o d (.scalar x)).band? o.band = some c ∧ c.sName n = { b.sName n with val := x, pend := none })

/-- R118 to R124, R206 to R209: a load's atom of RAM is read, a store's written and an atomic's read and written in one step, when no earlier access
of the band must come first and no earlier store of the core waits there; s has the errors that the event is the first to find (log 5). In a
region that the core holds a store that uses the L1 stays in it (R74), and what does not use it first sends the line home. The lanes of an
atomic whose atom is damaged receive zero (R47). An sc access takes its channel's clock (R124). -/
def AtomsPerformed : Prop :=
  (∀ (s₀ s : State) (es : List SymErr) (o : Op) (x : Access) (i : Nat) (a : AtomAcc) (ext : BitVec 256), s.op? o.uid = some o → o.kind = .load x →
    x.atoms[i]? = some a → a.done = false →
    let pa := s.viewOf o.launch o.run a.pa
    s.orderFree o x a (x.usesL1 a (s.heldBy o.place.core pa)) = true → s.kindOf pa = .ram → s.coreFree o pa = true →
    let r := s.ramRead o x a
    let p := r.2.2.scPerform x pa
    let y := p.2.setAtom i { a with data := r.1, done := true, bad := !r.2.1 }
    s₀.strikes es = s → exec (.atomReadPerformed o.uid i es ext) s₀ = .next ((p.1.setOp { o with kind := .load y }).acquireOf o y)) ∧
  (∀ (s : State) (o : Op) (x : Access) (a : AtomAcc), (x.cls = 1 ∨ x.cls = 5) → s.heldBy o.place.core (s.viewOf o.launch o.run a.pa) = false →
    s.readOut (s.viewOf o.launch o.run a.pa) = .ok → (s.ramRead o x a).1 = s.atom (s.viewOf o.launch o.run a.pa)) ∧
  (∀ (s₀ s : State) (es : List SymErr) (o : Op) (x : Access) (i : Nat) (a : AtomAcc), s.op? o.uid = some o → o.kind = .store x →
    x.atoms[i]? = some a → a.done = false → s.orderFree o x a false = true → s.coreFree o (s.viewOf o.launch o.run a.pa) = true →
    s.kindOf (s.viewOf o.launch o.run a.pa) = .ram → s₀.strikes es = s →
    let pa := s.viewOf o.launch o.run a.pa
    let held := s.heldBy o.place.core pa
    let f := if held then s.flushLine o.place.core (pa / 128) else s
    let m := s.armWrite o.launch o.run a.pa
    let t := if held && x.usesL1 a true then m.l1Put o.place.core (m.viewOf o.launch o.run a.pa) a.mask a.data (some o.launch) false
      else (f.homeWrite o.who a.pa a.mask a.data).l1Update o.place.core (f.viewOf o.launch o.run a.pa) a.mask a.data
    let p := t.scPerform x pa
    let y := p.2.setAtom i { a with done := true }
    exec (.atomWritePerformed o.uid i es) s₀ = .next (((p.1.setOp { o with kind := .store y }).acquireOf o y).endStore o y)) ∧
  (∀ (s₀ s : State) (es : List SymErr) (o : Op) (k : AtomKind) (x : Access) (ls : List AtomLane) (sat : Bool) (fps : BitVec 6) (i : Nat) (a : AtomAcc),
    s.op? o.uid = some o → o.kind = .atomic k x ls sat fps → x.atoms[i]? = some a → a.done = false → s.orderFree o x a false = true →
    s.coreFree o (s.viewOf o.launch o.run a.pa) = true → s.kindOf (s.viewOf o.launch o.run a.pa) = .ram → s₀.strikes es = s →
    let pa := s.viewOf o.launch o.run a.pa
    let f := if s.heldBy o.place.core pa then s.flushLine o.place.core (pa / 128) else s
    (f.readOut pa = .ok →
      let r := atomLanes k x.typ x.width sat a.pa (f.atom pa) ls
      let t := f.scrub pa
      let t := if r.2.1 = 0 then t.l1Update o.place.core pa (~~~ 0#32) (f.atom pa) else
        (t.homeWrite o.who a.pa r.2.1 r.1).l1Update o.place.core (t.viewOf o.launch o.run a.pa) (~~~ 0#32) r.1
      let p := t.scPerform x pa
      let y := p.2.setAtom i { a with done := true }
      exec (.atomicPerformed o.uid i es) s₀ = .next ((p.1.setOp { o with kind := .atomic k y r.2.2.1 sat (fps ||| r.2.2.2) }).acquireOf o y)) ∧
    (∀ tag : Bool, f.readOut pa = (if tag then .tag else .bad) →
      let p := (f.consumeBy o pa tag).scPerform x pa
      let y := p.2.setAtom i { a with done := true }
      let ms := ls.map fun l => if l.pa / 32 * 32 = a.pa then { l with old := 0 } else l
      exec (.atomicPerformed o.uid i es) s₀ = .next ((p.1.setOp { o with kind := .atomic k y ms sat fps }).acquireOf o y)))

/-- R124: the response of an sc access lifts the core's clock above what it carries. R82: an atom of a mirror store lands in
the back half of its target and nowhere else, and the store ends with its last atom. -/
def ResponseAndMirrorResults : Prop :=
  (∀ (s : State) (o : Op) (x : Access), s.op? o.uid = some o → o.kind = .store x → x.cls = 5 → x.undone = false → x.answered = false →
    let c := clockOf s.scClock o.place.core
    let t : State := { s with scClock := clockSet s.scClock o.place.core ((if c.toNat < x.resp.toNat then x.resp else c) + 1) }
    exec (.scAccessResponse o.uid) s = .next (t.endOp o)) ∧
  (∀ (s : State) (o : Op) (x : Access), s.op? o.uid = some o → o.kind = .load x → x.cls = 5 → x.undone = false → x.answered = false →
    (o.flag ≠ none ∨ x.dest ≠ .none) →
    let c := clockOf s.scClock o.place.core
    let t : State := { s with scClock := clockSet s.scClock o.place.core ((if c.toNat < x.resp.toNat then x.resp else c) + 1) }
    exec (.scAccessResponse o.uid) s = .next (t.setOp { o with kind := .load { x with answered := true } })) ∧
  (∀ (s : State) (o : Op) (x : Access), s.op? o.uid = some o → o.kind = .load x → x.cls = 5 → x.undone = false → x.answered = false →
    o.flag = none → x.dest = .none →
    let c := clockOf s.scClock o.place.core
    let t : State := { s with scClock := clockSet s.scClock o.place.core ((if c.toNat < x.resp.toNat then x.resp else c) + 1) }
    exec (.scAccessResponse o.uid) s = .next (t.endOp o)) ∧
  (∀ (s : State) (o : Op) (k : AtomKind) (x : Access) (ls : List AtomLane) (sat : Bool) (fps : BitVec 6), s.op? o.uid = some o →
    o.kind = .atomic k x ls sat fps → x.cls = 5 → x.undone = false → x.answered = false →
    let c := clockOf s.scClock o.place.core
    let t : State := { s with scClock := clockSet s.scClock o.place.core ((if c.toNat < x.resp.toNat then x.resp else c) + 1) }
    exec (.scAccessResponse o.uid) s = .next (t.setOp { o with kind := .atomic k { x with answered := true } ls sat fps })) ∧
  (∀ (s : State) (o : Op) (core slot atom : Nat) (cells : List (Nat × Byte)) (w u : Workgroup), s.op? o.uid = some o →
    o.kind = .stm core slot cells → s.wg? o.wg = some w → s.stmTarget w core slot = some u → (∃ x ∈ cells, x.1 / 32 = atom) →
    s.stmFree o core slot atom = true →
    let rest := cells.filter fun x => x.1 / 32 != atom
    let t := (cells.filter fun x => x.1 / 32 == atom).foldl (fun s x => s.setLs (s.backKey u x.1) x.2) s
    exec (.stmPerformed ⟨o.uid, atom⟩) s = .next (if rest = [] then t.endOp o else t.setOp { o with kind := .stm core slot rest }) ∧
      t = { s with ls := t.ls })

/-- R65, R66, R359: an open newer than current and of no frame's version takes a free or recycled frame, or waits for one; a close makes its
frame complete, and current when it is newer; the advance ends once no access bound to the old frame is to be performed, and the page is
then bound to the frame and version that it made current, one advance after the other. A set whose words cannot be read gives no frame and
no current version (log 38). -/
def PublicationResults : Prop :=
  (∀ (s : State) (l : Launch) (u set size : Nat) (w : W32) (p : Publisher), s.launch? u = some l →
    ((s.ops.filter fun o => o.launch == u).findSome? (s.opensPub l set w size)) = some p → s.pub? set w = none →
    (∀ r, s.openRefused set w = some r → exec (.publicationOpen u set w size) s = .next s) ∧
    (s.openRefused set w = none → exec (.publicationOpen u set w size) s = .next (((s.abandonOlder set w).takeFrame set w size u p).2))) ∧
  (∀ (s : State) (set size u : Nat) (w : W32) (p : Publisher),
    (s.unreadSet set = true ∨ s.frameFor set = none →
      ((s.takeFrame set w size u p).2).pub? set w = some ⟨set, w, none, size, u, p, []⟩) ∧
    (∀ j, s.unreadSet set = false → s.frameFor set = some j →
      ((s.takeFrame set w size u p).2).pub? set w = some ⟨set, w, some j, size, u, p, []⟩)) ∧
  (∀ (s : State) (p : Publication), s.pub? p.set p.ver = some p → p.slot = none →
    exec (.publicationFrameTaken p.set p.ver) s = .next (s.takeFrame p.set p.ver p.size p.launch p.by_).2) ∧
  (∀ (s : State) (p : Publication) (r : Nat), s.pub? p.set p.ver = some p → p.by_ = .rank r →
    p.chunks.length * 65536 = p.size → exec (.publicationClose p.set p.ver) s = .next (s.closePub p.set p.ver)) ∧
  (∀ (s : State) (p : Publication) (o : Op) (c : Nat) (sls : List Slice) (q : Plan) (st : Option StampSpec), s.pub? p.set p.ver = some p →
    p.by_ = .copy o.uid → s.op? o.uid = some o → o.kind = .engine (.copy c sls (some q)) st →
    (∀ m ∈ q.moves, m.pub ≠ some (p.set, p.ver)) → q.status.getLsbD 4 = false → q.pubs.contains (p.set, p.ver) = true →
    exec (.publicationClose p.set p.ver) s = .next ((s.closePub p.set p.ver).setOp
      { o with kind := .engine (.copy c sls (some { q with pubs := q.pubs.filter (· != (p.set, p.ver)) })) st })) ∧
  (∀ (s : State) (p : Publication) (j : Nat), s.pub? p.set p.ver = some p → p.slot = some j → s.unreadSet p.set = false →
    let c := vsCtl s p.set
    let c' := ctlSetState c j 2 ||| (1#64 <<< 12)
    let t : State := { s with pubs := s.pubs.filter fun x => !(x.set == p.set && x.ver == p.ver) }
    (framesIn c 2 = [] ∨ vsValid c = false ∨ verNewer p.ver (vsVer s p.set (vsCur c)) = true →
      let v := t.setCtl p.launch p.set (setFld c' 1 0 j)
      s.closePub p.set p.ver = ({ v with
        advances := s.advances ++ [⟨p.set, if vsValid c then some (vsFrame s p.set (vsCur c)) else none, vsFrame s p.set j, p.ver, p.size⟩] } : State)) ∧
    (framesIn c 2 ≠ [] → vsValid c = true → verNewer p.ver (vsVer s p.set (vsCur c)) = false →
      s.closePub p.set p.ver = t.setCtl p.launch p.set c')) ∧
  (∀ (s : State) (vs : Nat) (a : Advance), (s.advances.find? fun x => x.set == vs) = some a →
    (s.advanceReady a = true → ∃ t, exec (.versionAdvanceComplete vs) s = .next t ∧ t.advances = s.advances.erase a ∧ t.mem = s.mem ∧
      ∀ e ∈ t.tlb, ∀ b, e.bind = some b → b.set = vs → b.cur = some (a.frame, a.ver)) ∧
    (s.advanceReady a = false → exec (.versionAdvanceComplete vs) s = .next s))

/-- R110, R111: a watch that has changed posts its value and its count once, while EN is 1. -/
def WatchPostResults : Prop :=
  ∀ (s : State) (w : Watch), (s.watches.find? fun x => x.slot == w.slot) = some w →
    (w.pending = true → s.wmbase.getLsbD 0 = true →
      exec (.watchPost w.slot) s = .next (((s.postWatch w).setWatch { w with pending := false }).sumBit w.launch 8)) ∧
    (w.pending = false ∨ s.wmbase.getLsbD 0 = false → exec (.watchPost w.slot) s = .next s)

/-- R388: the status of a snapshot that trigger `t` latches. -/
def snapStatus (t : Trigger) (s : State) : W64 :=
  (1#64 <<< 63) ||| t.bits ||| (if Trigger.timer.enabled s.snapctl && (s.num 0x881 == BitVec.ofNat 64 s.cycle) then Trigger.timer.bits else 0) |||
    BitVec.ofNat 64 (s.cycle / 16 % 2 ^ 32)

/-- R387, R388, R393: a trigger that is armed and enabled latches a snapshot: ARM falls and the status shows its sources, and under HOSTR the
host is told; one that is not leaves the machine as it is, but for a source that fires in the cycle of the latch, which joins the status. A
read-out stores its blocks at SNAPBUF, counts them in NBLK and is reported, each event naming the launch of the fault or SNAP. Software writes
SNAPCTL's fields, ARM only while VALID is 0. How many blocks there are and what their words hold are free values (log 13). -/
def SnapshotResults : Prop :=
  (∀ (s : State) (t : Trigger) (lid : W32) (q : Nat),
    (t.enabled s.snapctl = false ∨ s.snapctl.getLsbD 63 = false ∧
      ((s.num 0x883).getLsbD 63 = false ∨ ∀ x, s.snapAt = some x → x.cycle ≠ s.cycle) → s.snapshot t lid q = s) ∧
    (∀ x, t.enabled s.snapctl = true → s.snapctl.getLsbD 63 = false → (s.num 0x883).getLsbD 63 = true → s.snapAt = some x → x.cycle = s.cycle →
      s.snapshot t lid q = s.setNum 0x883 (s.num 0x883 ||| t.bits)) ∧
    (t.enabled s.snapctl = true → s.snapctl.getLsbD 63 = true →
      let host := s.snapctl.getLsbD 62
      let u : State := { ((s.setNum 0x880 (s.snapctl &&& ~~~ (1#64 <<< 63))).setNum 0x883 (snapStatus t s)).tick 1 with
        snap := s.snapRecords, snapping := !host, snapAt := some ⟨s.cycle, lid, q⟩ }
      s.snapshot t lid q = if host then u.post (mkEvent 0x63 lid (u.num 0x883).toNat 0 q) else u)) ∧
  (∀ (s : State) (b : Band), Stands .snap b s → exec .snap s =
    .next (past .snap b s ((acting b s).snapshot .snap ((acting b s).lidOf b.launch) ((acting b s).queueOf b.launch)))) ∧
  (∀ (s : State), exec .snapshotPin s = .next (s.snapshot .pin 0 0)) ∧
  (∀ (s : State), (s.num 0x881 = BitVec.ofNat 64 s.cycle → exec .snapshotTimer s = .next (s.snapshot .timer 0 0)) ∧
    (s.num 0x881 ≠ BitVec.ofNat 64 s.cycle → exec .snapshotTimer s = .next s)) ∧
  (∀ (s : State), s.snapping = false → exec .snapshotReadoutComplete s = .next s) ∧
  (∀ (s : State), s.snapping = true →
    let stored := s.snap.zipIdx.foldl (fun (u : State) x =>
      u.physStore (fld (s.num 0x882) 51 20 * 2 ^ 20 + 1024 * x.2) x.1.bytes.length (leNat x.1.bytes) false) s
    let u : State := { stored.setNum 0x883 (setFld (stored.num 0x883) 47 32 stored.snap.length) with snapping := false }
    exec .snapshotReadoutComplete s = .next (u.post (match u.snapAt with
      | some x => mkEvent 0x63 x.lid ((u.num 0x883).toNat + 2 ^ 64) 0 x.queue
      | none => mkEvent 0x63 0 ((u.num 0x883).toNat + 2 ^ 64)))) ∧
  (∀ (s : State) (v : W64), regsWf s.regs = true →
    let fields := bitsMask 63 62 ||| bitsMask 39 36 ||| bitsMask 21 16
    let written := if (s.num 0x883).getLsbD 63 then fields &&& ~~~ (1#64 <<< 63) else fields
    ∃ t, exec (.snapctlWrite v) s = .next t ∧ t = { s with regs := t.regs } ∧ t.snapctl = (s.snapctl &&& ~~~ written) ||| (v &&& written))

/-! ## Launches, workgroups and bands -/

/-- R306, R161, R165: EXIT waits for what the band still has in flight and then ends the band, and a template that made no image releases its
workgroups; FREEZE at window depth 0, once it may act, makes the band's registers an image and ends the band; it is illegal where the launch
has no template or has frozen thrice. -/
def ExitAndFreezeResults : Prop :=
  (∀ (s : State) (b : Band), Stands .exit b s →
    ((acting b s).exitReady b = false → exec .exit s = .next (heldAt .exit b s)) ∧
    ((acting b s).exitReady b = true → b.template = false → exec .exit s = .next ((acting b s).endBand b)) ∧
    (∀ w, (acting b s).exitReady b = true → b.template = true → (acting b s).wg? b.wg = some w →
      exec .exit s = .next ((((acting b s).endBand b).releaseInst b.launch w.idx w.run).settleImages))) ∧
  (∀ (s : State) (b : Band) (l : Launch), Stands .freeze b s → (acting b s).bandLaunch b = some l →
    (l.lr.frz = 15 ∨ b.depth ≠ 0 ∨ b.fdepth = 3 →
      exec .freeze s = .next (s.takeTrap b (b.trapAt true 1 0x23 0 ((encodeWord .freeze).setWidth 64) 0))) ∧
    (∀ w, l.lr.frz ≠ 15 → b.depth = 0 → b.fdepth ≠ 3 → (acting b s).freezeReady b = true →
      (b.template = true ∨ (acting b s).accessesDone b = true) → (acting b s).wg? b.wg = some w →
      let i := (acting b s).capture b w
      let t : State := { acting b s with images := s.images ++ [i], nextUid := s.nextUid + 1 }
      let t := if b.template then t
        else t.modWg w.uid fun w => { w with nested := (nestedOf l b i.uid).foldl (fun ns n => insertNested n ns) w.nested }
      exec .freeze s = .next (t.endBand b)))

/-- R333, R322: a core that holds an instance's image, once the prologue's stores are performed, keeps no clean line from before them and stamps
the workgroups assigned to it; the image is that core's from then on. -/
def TemplateImageAckResults : Prop :=
  ∀ (s : State) (l : Launch) (i : Image) (inst core : Nat), s.launch? l.uid = some l →
    (s.images.find? fun x => x.launch == l.uid && x.depth == 1 && x.inst == inst && !x.acked.contains core && !(s.awaiting l x core).isEmpty)
      = some i →
    s.prologueDone i = true → (∀ q ∈ i.quads, s.poolWith core q (i.vRegs [] []) (i.sRegs [] []).length ≤ 2048) →
    let t : State := { s with images := s.images.map fun x => if x.uid = i.uid then { x with acked := insertAsc x.acked core } else x }
    exec (.templateImageAck l.uid inst core) s =
      .next ((s.awaiting l i core).foldl (fun s w => s.stampWg l w i) (t.invalidateL1 core)).settleImages

/-- R343, R375 to R377: a launch that has ended completes with status 0, unless its runs are to be compared; a kill that is decided stops the
launch's bands and abandons its publications; once all is at rest the launch is restored and run again where it may be, and else it
completes with its status, 9 when it has been replayed twice. A completed launch leaves nothing behind. -/
def LaunchEndResults : Prop :=
  (∀ (s : State) (l : Launch), s.launch? l.uid = some l →
    (l.places = true → l.lr.redn ≠ 1 → s.allEnded l = true → exec (.launchComplete l.uid) s = .next (s.complete l.uid 0)) ∧
    (s.allEnded l = false → exec (.launchComplete l.uid) s = .next s)) ∧
  (∀ (s : State) (l : Launch) (c : KillCause), s.launch? l.uid = some l → l.kills[l.killed]? = some c →
    (l.phase = .killing → exec (.launchKill l.uid c) s = .next ((s.setLaunch (l.killMore c)).faultSnap l.uid c)) ∧
    (l.phase ≠ .killing → ∃ t, exec (.launchKill l.uid c) s = .next t ∧
      (∀ b ∈ t.bands, b.launch = l.uid → b.stopping = true) ∧ (∀ p ∈ t.pubs, p.launch ≠ l.uid))) ∧
  (∀ (s : State) (l : Launch), s.launch? l.uid = some l → s.killReady l = true → l.canRestore = false →
    exec (.launchKillComplete l.uid) s =
      .next ((s.clearLaunch l).complete l.uid (if l.status = 0x08 ∧ 2 ≤ l.replays then 0x09 else l.status))) ∧
  (∀ (s : State) (l l' : Launch), s.launch? l.uid = some l → s.killReady l = true → l.canRestore = true →
    ((s.clearLaunch l).restore l).launch? l.uid = some l' →
    let t := (s.clearLaunch l).restore l
    exec (.launchKillComplete l.uid) s = .next
      (if l'.assisted = some true then
        (t.post (t.eventFor 0x62 l.uid (l'.saved.length + lowestFault l'.fsum * 2 ^ 32))).complete l.uid 0x08
      else t.replay l')) ∧
  (∀ (s : State) (u : Nat) (st : Byte), (s.complete u st).launch? u = none ∧
    ((s.endWatches u).launch? u ≠ none →
      (∀ w ∈ (s.complete u st).wgs, w.launch ≠ u) ∧ (∀ b ∈ (s.complete u st).bands, b.launch ≠ u) ∧ ∀ o ∈ (s.complete u st).ops, o.launch ≠ u))

/-- R379, R383, R384: the copy of an armed granule that a write waits for is made; of a redundant launch's two runs that agree the first is written
and the launch completes, and two that differ are followed by a third; a third that agrees with neither puts their cores on probation. -/
def WriteSetAndRedundancyResults : Prop :=
  (∀ (s : State) (l : Launch) (g : Granule), s.launch? l.uid = some l →
    (l.granules.find? fun x => x.pa == g.pa && x.armed && s.granuleWanted l.uid x.run g.pa) = some g →
    exec (.writesetGranuleCopy l.uid g.pa) s = .next (s.armWrite l.uid g.run g.pa)) ∧
  (∀ (s : State) (l : Launch), s.launch? l.uid = some l → l.places = true → l.lr.redn = 1 → s.allEnded l = true →
    (l.runs = 2 → s.runsAgree l 0 1 = true → exec (.redundantCompare l.uid) s = .next ((s.writeShadows l 0).complete l.uid 0)) ∧
    (l.runs = 2 → s.runsAgree l 0 1 = false → ∃ l', exec (.redundantCompare l.uid) s = .next (s.setLaunch l') ∧ l'.runs = 3 ∧ l'.uid = l.uid) ∧
    (l.runs = 3 → s.runsAgree l 2 0 = true → exec (.redundantCompare l.uid) s = .next ((s.writeShadows l 0).complete l.uid 0)) ∧
    (l.runs = 3 → s.runsAgree l 2 0 = false → s.runsAgree l 2 1 = true →
      exec (.redundantCompare l.uid) s = .next ((s.writeShadows l 1).complete l.uid 0)) ∧
    (l.runs = 3 → s.runsAgree l 2 0 = false → s.runsAgree l 2 1 = false → exec (.redundantCompare l.uid) s =
      .next (((dedup (l.runCores.map Prod.fst)).foldl (fun s c => s.probation l.uid c) s).complete l.uid 0x0A)))

/-- R371, R373, R376: a trap whose entry waited for registers is entered once its band may go on; one of a band in a handler kills. -/
def DelayedTrapEntry : Prop :=
  ∀ (s : State) (b : Band) (t : Trap) (q : Place) (l : Launch), s.bandAt q = some b → b.wait = some .entryRegs → b.trap = some t → b.parked = false →
    b.stopping = false → s.launch? b.launch = some l → l.kills = [] →
    (b.inHandler = false → exec (.trapEntry q) s = .next (s.enterTrap b t)) ∧
    (b.inHandler = true → exec (.trapEntry q) s = .next ((s.decideKill b.launch (.trap t.code false)).stopAt b.uid))

/-! ## Frames, parking and the register aperture -/

/-- R154 to R157: a resident frame below the newest one starts to be spilled when the quadrant wants registers; its spill, which waits for the
band's earlier accesses to the slot, ends with its image stored there as the band's plain stores; a frame that is refilled holds what plain
loads of its slot find, once the pool has room, and the band consumes what is damaged. A slot that cannot be reached is a window fault that
the band records, and a transfer that was tried again has come to its end; a refill's s has the errors that it is the first to find (log 5). -/
def WindowTransferResults : Prop :=
  (∀ (s : State) (b : Band) (q : Place) (d : Nat) (f : Frame) (l : Launch), s.bandAt q = some b → b.frame? d = some f → s.bandLaunch b = some l →
    b.parked = false → d < b.depth → f.loc = .resident → b.winFault = none → s.spillWanted q = true →
    (∀ ps, s.slotPieces l q (s.frameSlot b d) = .ok ps →
      exec (.tailraceSpill q d) s = .next (s.setBand (b.setFrame d { f with loc := .spilling }))) ∧
    (∀ va x, s.slotPieces l q (s.frameSlot b d) = .error (va, x) →
      exec (.tailraceSpill q d) s = .next (s.setBand (b.recordFault va d x.kind.code)))) ∧
  (∀ (s : State) (b : Band) (q : Place) (d : Nat) (f : Frame) (l : Launch), s.bandAt q = some b → b.frame? d = some f →
    s.bandLaunch b = some l → f.loc = .spilling → f.settled = true →
    (∀ ps, s.slotPieces l q (s.frameSlot b d) = .ok ps →
      let free := s.readNow b false (ps.flatMap fun x => (atomsOfRun x.1 x.2).map (s.viewOf b.launch (s.runOf b.wg)))
      (free = true → exec (.frameSpilled q d) s = .next ((s.spillFrame b (s.withClass (l.areaCtx q) (s.frameSlot b d) ps) f).modBand b.uid
        fun c => ((c.setFrame d { f with loc := .spilled }).refillNewest).endRetry d)) ∧
      (free = false → exec (.frameSpilled q d) s = .next s)) ∧
    (∀ va x, s.slotPieces l q (s.frameSlot b d) = .error (va, x) →
      exec (.frameSpilled q d) s = .next (s.setBand (((b.setFrame d { f with loc := .resident }).recordFault va d x.kind.code).endRetry d)))) ∧
  (∀ (s₀ s : State) (es : List SymErr) (b : Band) (q : Place) (d : Nat) (f : Frame) (l : Launch), s.bandAt q = some b →
    b.refilling? = some (d, f) → s.bandLaunch b = some l → b.parked = false → b.winFault = none → s₀.strikes es = s →
    (∀ va x, s.slotPieces l b.place (s.frameSlot b d) = .error (va, x) → exec (.tailraceRefillComplete q es) s₀ =
      .next (s.setBand (((b.setFrame d { f with loc := .spilled }).recordFault va d x.kind.code).endRetry d))) ∧
    (∀ ps, s.slotPieces l b.place (s.frameSlot b d) = .ok ps →
      let pas := f.used (s.withClass (l.areaCtx b.place) (s.frameSlot b d) ps)
      let refilled := fun (g : Frame) => (s.plainTouch b pas).setBand ((b.setFrame d g).endRetry d)
      (s.plainRead b pas = .hold → exec (.tailraceRefillComplete q es) s₀ = .next s) ∧
      (∀ bs, s.plainRead b pas = .bytes bs → s.canAlloc b (vPriv (f.refill bs).hv) (sPriv (f.refill bs).hs) = true →
        exec (.tailraceRefillComplete q es) s₀ = .next (refilled (f.refill bs))) ∧
      (∀ ds bs, s.plainRead b pas = .damaged ds bs → s.canAlloc b (vPriv (f.refill bs).hv) (sPriv (f.refill bs).hs) = true →
        exec (.tailraceRefillComplete q es) s₀ = .next ((refilled (f.refill bs)).consumeAll b ds))))

/-- R166, R167: in a deadlocked quadrant the band of the highest item, not of the lowest, is saved and parked, its frames in the spill area
(DESIGN CHOICE, log 32); with no band stalled the parked band of the lowest item is restored, with its newest frame, once the pool can hold
them. That a band is parked only once its results have landed, that its flags count on meanwhile, and that FPS is cleared at parking and
joined at the restore are the model's readings (DEDUCED, log 32). -/
def ParkingResults : Prop :=
  (∀ (s : State) (core quad : Nat) (b : Band) (l : Launch) (t u : State), s.deadlocked core quad = true →
    highestItem ((s.quadBands core quad).filter fun b => !b.template && some b.uid != (lowestItem (s.quadBands core quad)).map Band.uid) = some b →
    s.bandLaunch b = some l → s.landing b = false → s.spillAll l b = some t → t.saveBand l b = some u →
    exec (.bandPark core quad) s = .next (u.modBand b.uid fun c => { c with parked := true, stalled := none, fps := 0 })) ∧
  (∀ (s : State) (core quad : Nat), s.deadlocked core quad = false → exec (.bandPark core quad) s = .next s) ∧
  (∀ (s : State) (core quad : Nat) (b c : Band) (l : Launch), (∀ x ∈ s.quadBands core quad, x.stalled = none) →
    lowestItem (s.bands.filter fun b => b.place.core == core && b.place.quad == quad && b.parked) = some b → s.bandLaunch b = some l →
    s.loadBand l b = some c → c.frames = [] → s.canAlloc b (vPriv c.v.toList) (sPriv c.s.toList) = true →
    exec (.bandRestore core quad) s = .next (s.setBand
      (({ c with parked := false, held := false, readyAt := s.cycle, f := b.f, fps := c.fps ||| b.fps } : Band).rejoin s.cycle)).wakeTokens) ∧
  (∀ (s : State) (core quad : Nat) (b c : Band) (l : Launch) (f g : Frame) (rest : List Frame) (pas : List (Nat × Nat)) (ds : List (Nat × KillCause)),
    (∀ x ∈ s.quadBands core quad, x.stalled = none) →
    lowestItem (s.bands.filter fun b => b.place.core == core && b.place.quad == quad && b.parked) = some b → s.bandLaunch b = some l →
    s.loadBand l b = some c → c.frames = f :: rest → f.loc = .spilled → c.winFault = none →
    let c' := ({ c with parked := false, held := false, readyAt := s.cycle, f := b.f, fps := c.fps ||| b.fps } : Band).rejoin s.cycle
    s.readSlot l c' c'.depth f = .frame g pas ds →
    s.canAlloc b (vPriv c.v.toList + vPriv g.hv) (sPriv c.s.toList + sPriv g.hs) = true →
    exec (.bandRestore core quad) s =
      .next (((s.plainTouch b pas).setBand { c' with frames := g :: rest }).consumeAll b ds).wakeTokens)

/-! ## Registers and the host -/

/-- R315, R78: MFSR reads a register as a reader of the band's world sees it; MTSR writes one under its access codes; a number of no register is an
illegal operand, and so is a reserved role; the roles of a core that is not idle are an illegal state. -/
def RegisterWordResults : Prop :=
  (∀ (s : State) (b : Band) (d : Opnd) (n : BitVec 16), Stands (.mfsr d n) b s →
    ((numSpec n.toNat).isSome = true → putReady b d (acting b s) = true → exec (.mfsr d n) s = .next (past (.mfsr d n) b s
      (put b d ((acting b s).readReg (numOff n.toNat) ((acting b s).bandSecure b)) (acting b s)))) ∧
    (numSpec n.toNat = none → exec (.mfsr d n) s = .next (s.takeTrap b (b.trapAt false (len (.mfsr d n)) 0x02 0 ((encodeWord (.mfsr d n)).setWidth 64) 0)))) ∧
  (∀ (s : State) (b : Band) (k : Fin 64) (n : BitVec 16) (v : W64), Stands (.mtsr (.s k) n) b s → b.readS k.val = .ok v →
    let trap := fun (code : Nat) => (Host.Outcome.next (s.takeTrap b (b.trapAt false (len (.mtsr (.s k) n)) code 0
      ((encodeWord (.mtsr (.s k) n)).setWidth 64) 0)) : Host.Outcome State Fault Refusal)
    let role := 0x1000 ≤ n.toNat ∧ n.toNat < 0x11E0
    (numSpec n.toNat = none → exec (.mtsr (.s k) n) s = trap 0x02) ∧
    ((numSpec n.toNat).isSome = true → role → badRole v = true → exec (.mtsr (.s k) n) s = trap 0x02) ∧
    ((numSpec n.toNat).isSome = true → role → badRole v = false → (acting b s).coreIdle ((n.toNat - 0x1000) / 2) = false →
      exec (.mtsr (.s k) n) s = trap 0x23) ∧
    ((numSpec n.toNat).isSome = true → (role → badRole v = false ∧ (acting b s).coreIdle ((n.toNat - 0x1000) / 2) = true) →
      exec (.mtsr (.s k) n) s = .next (past (.mtsr (.s k) n) b s ((acting b s).writeReg (numOff n.toNat) v (~~~ 0) ((acting b s).bandSecure b)))))

/-- R4, R328, R345, R364, R389, R404: the events that write registers: TAIL moves unless the ring would overflow; a corrected-error filter is cleared when its
period is over; the others write their register as a store to it does, with its effect. -/
def RegisterEventResults : Prop :=
  (∀ (s : State) (off : Nat) (v : W64) (secure : Bool), exec (.registerWrite off v secure) s = .next (s.writeReg off v (~~~ 0) secure)) ∧
  (∀ (s : State) (num : Nat) (v : W64) (secure : Bool), num < 0x80 →
    exec (.secregionWrite num v secure) s = .next (s.writeReg (numOff num) v (~~~ 0) secure)) ∧
  (∀ (s : State) (num : Nat) (v : W64) (secure : Bool) (r : RegSpec), num < 0x80 → numSpec num = some r → regSpec (numOff num) = some r →
    (s.num (num % 0x40)).getLsbD 62 = true → exec (.secregionWrite num v secure) s = .next s) ∧
  (∀ (s : State) (die : Nat) (v : W64) (secure : Bool), die < 4 →
    exec (.cwrldWrite die v secure) s = .next (s.writeReg (numOff (0x8C0 + die)) v (~~~ 0) secure)) ∧
  (∀ (s : State) (num : Nat) (v : W64), 0x1000 ≤ num → num < 0x11E0 →
    (s.coreIdle ((num - 0x1000) / 2) = false ∨ badRole v = true → exec (.lsroleWrite num v) s = .next s) ∧
    (s.coreIdle ((num - 0x1000) / 2) = true → badRole v = false → exec (.lsroleWrite num v) s = .next (s.writeLsrole num v))) ∧
  (∀ (s : State) (v : W64), exec (.wmbaseWrite v) s = .next (s.writeWmbase v) ∧ exec (.evrctlWrite v) s = .next (s.writeEvrctl v)) ∧
  (∀ (s : State) (v : W64), regsWf s.regs = true →
    ∃ t, exec (.ueptabWrite v) s = .next t ∧ t.endpoints = [] ∧ t.reg 0x2200 = v &&& bitsMask 63 5 ∧ t.mem = s.mem) ∧
  (∀ (s : State) (q : Nat) (tail : W16), q < 64 →
    let p := s.reg (32 * q + 8)
    let n := 2 ^ max 1 (fld (s.reg (32 * q)) 3 0)
    ((tail.toNat + 65536 - fld p 63 48) % 65536 ≤ n → exec (.queueDoorbell q tail) s = .next (s.setReg (32 * q + 8) (setFld p 47 32 tail.toNat))) ∧
    (n < (tail.toNat + 65536 - fld p 63 48) % 65536 → exec (.queueDoorbell q tail) s = .next (s.post (mkEvent 0x11 0 0 0 q)))) ∧
  (∀ (s : State) (unit : Nat), fld (s.celogCtl unit) 55 32 ≠ 0 →
    (s.celogOf unit).since + microseconds (1000 * fld (s.celogCtl unit) 55 32) ≤ s.cycle →
    exec (.celogFilterClear unit) s = .next (s.setCelog ⟨unit, [], [], [], s.cycle⟩)) ∧
  (∀ (s : State) (t : Nat) (rest : List (Option Nat)), s.evTimes = some t :: rest → fld (s.reg evrctl) 62 51 ≠ 0 →
    t + microseconds (fld (s.reg evrctl) 62 51) ≤ s.cycle →
    exec .eventRingCoalesceTimeout s = .next (({ s with evTimes := none :: rest } : State).interrupt 0))

/-- A command ends: HSTAT holds its result, nothing is being performed, and vector 3 is raised (R401). -/
def commandDone (t : State) (res : Nat) : State := (({ t with hcmd := none } : State).setReg 0x3010 (BitVec.ofNat 64 res)).interrupt 3

/-- R406: reset leaves the state after reset; a valid image starts Flaell, and with none vector 2 is pending; an image from the mailbox is
taken while the boot ROM runs; bring-up that ends well sets STATE to 2, and memory training that fails stops it with code 6. That RAM is
then as after power-on (logs 3 and 17), and that vectors are masked after reset, vector 2 among them (PRESUMED, log 22), are the model's
choices. -/
def BootResults : Prop :=
  (∀ (s : State) (flash : Option ImageCheck), ∃ t, exec (.reset flash) s = .next t ∧ t.mem = State.reset.mem ∧ t.bands = State.reset.bands ∧
    t.launches = State.reset.launches ∧ t.ops = State.reset.ops ∧ t.tlb = State.reset.tlb ∧ t.l1 = State.reset.l1 ∧ t.ls = State.reset.ls ∧
    (flash = none → t.regs = State.reset.regs ∧ t.msixPending.getLsbD 2 = true) ∧ (∀ v, flash = some (.valid v) → fld (t.num 0x2000) 63 62 = 1)) ∧
  (∀ (s : State) (v : W32), fld (s.num 0x2000) 63 62 = 0 → exec (.bootMailboxImage (.valid v)) s =
    .next (s.setNum 0x2000 ((1#64 <<< 62) ||| v.setWidth 64))) ∧
  (∀ (s : State) (c : ImageCheck), fld (s.num 0x2000) 63 62 ≠ 0 → exec (.bootMailboxImage c) s = .next s) ∧
  (∀ (s : State) (r : Bringup), fld (s.num 0x2000) 63 62 = 1 → r.trained = true →
    ∃ t, exec (.bringupComplete r) s = .next t ∧ fld (t.num 0x2000) 63 62 = 2 ∧ t.mem = s.mem ∧ t.bands = s.bands) ∧
  (∀ (s : State) (r : Bringup), fld (s.num 0x2000) 63 62 = 1 → r.trained = false →
    ∃ t, exec (.bringupComplete r) s = .next t ∧ fld (t.num 0x2000) 63 62 = 3 ∧ fld (t.num 0x2000) 47 32 = 6 ∧ t.mem = s.mem) ∧
  (∀ (s : State) (r : Bringup), fld (s.num 0x2000) 63 62 ≠ 1 → exec (.bringupComplete r) s = .next s)

/-- R407, R409: a request of Flaell's report, none being pending, is noted with its nonce; the report then stands in the mailbox, from its
first byte on (DESIGN CHOICE, log 14), and vector 2 is raised. TJ's state follows its bounds, and state 3, newly reached, raises vector 1
and ends the power. -/
def AttestationAndThermalResults : Prop :=
  (∀ (s : State) (nonce : BitVec 384), s.attest = .idle → fld (s.num 0x2000) 63 62 = 2 → Mem.wf s.mailbox = true →
    ∃ t, exec (.attestationRequest nonce) s = .next t ∧ t.attest = .pending nonce ∧ t.mem = s.mem ∧ t.regs = s.regs) ∧
  (∀ (s : State) (nonce : BitVec 384), s.attest = .pending nonce →
    ∃ t, exec .attestationReport s = .next t ∧ t.attest = .idle ∧ t.mem = s.mem ∧
      t.mailbox = Mem.writeBytes s.mailbox 0 (s.reportBody nonce ++ s.reportSign (s.reportBody nonce))) ∧
  (∀ (s : State) (tj : BitVec 8),
    let new := if tj.toNat < 95 then 0 else if tj.toNat < 105 then 1 else if tj.toNat < 110 then 2 else 3
    let t := s.setNum 0x2021 (setFld (setFld (s.num 0x2021) 41 34 tj.toNat) 25 24 new)
    exec (.thermalStateChange tj) s = .next
      (if new = 3 ∧ fld (s.num 0x2021) 25 24 ≠ 3 then (t.interrupt 1).send .powerOff else t)) ∧
  (∀ (s : State) (pwr : BitVec 12) (thr : BitVec 10) (tj tin : BitVec 8), exec (.powerTelemetryUpdate pwr thr tj tin) s =
    exec (.thermalStateChange tj) (s.setNum 0x2021 (setFld (setFld (setFld (s.num 0x2021) 63 52 pwr.toNat) 51 42 thr.toNat) 33 26 tin.toNat)))

/-! ## Completion: the words that start an operation -/

/-- A word completes: from `s` it issues with an effect `t` of which `p` holds, no trap being taken, and the band goes on to the next word. -/
def Completes (i : Instr) (b : Band) (s : State) (p : State → Prop) : Prop := ∃ t, exec i s = .next (past i b s t) ∧ p t

/-- The operation that a word of the band starts, counted by a flag or by none. -/
def newOp (b : Band) (s : State) (fl : Option Nat) (k : OpKind) : Op := ⟨s.nextUid, b.launch, b.wg, b.uid, b.place, s.runOf b.wg, fl, k⟩

/-- The register that a load writes can be taken: a name is not awaited in part and the pool has room (R142, R143, R146); no load of another
register is outstanding (R147). -/
def loadReady (b : Band) (d : Opnd) (pair : Bool) (lanes : W32) (t : State) : Bool :=
  match d with
  | .v n => keeps b n.val lanes && (!pair || keeps b (n.val + 1) lanes) && t.canAlloc b (if pair then 2 else 1) 0
  | .o n => !t.regPending b (some n.val) none none && (!pair || !t.regPending b (some (n.val + 1)) none none)
  | .s _ => t.canAlloc b 0 1
  | .a n => !t.regPending b none (some n.val) none
  | .m n => !t.regPending b none none (some n.val)
  | _ => false

/-- The names of a destination await an operation, part by part (R145). -/
def Awaiting (b : Band) (d : Opnd) (pair : Bool) (op : Nat) (t : State) : Prop :=
  ∀ c, t.band? b.uid = some c → match d with
    | .v n => (c.vName n.val).pend = some ⟨op, 0⟩ ∧ (pair = true → (c.vName (n.val + 1)).pend = some ⟨op, 1⟩)
    | .s n => (c.sName n.val).pend = some ⟨op, 0⟩
    | _ => True

/-- What an access of memory covers: the lanes with their bytes, none of its atoms performed yet, under MODE's class and scope. -/
def Covers (b : Band) (typ w : Nat) (ts : List LaneTr) (data : Nat → Nat) (s : State) (x : Access) : Prop :=
  x.lanes = ts.map (fun y => ⟨y.lane, y.va, y.bytes.map Prod.fst⟩) ∧ x.atoms = s.atomsFor (ts.map fun y => (y, data y.lane)) ∧ x.typ = typ ∧
    x.width = w ∧ x.cls = b.cls ∧ x.scope = b.scope ∧ x.answered = false

/-- R195 to R199: LDS, LDV, LDPAR, STS and STV complete for every operand form: with a lane enabled, an address whose lanes are translated,
permitted, aligned and not locked, a flag below 63, no sc access unanswered, and the register that a load writes free to be taken, or what a
store stores there to be read. The access is under way, its flag counts it, a load's names await it, and memory is as it was. -/
def LoadsAndStoresComplete : Prop :=
  ∀ (i : Instr) (s : State) (b : Band) (d : Opnd) (m : MemRef) (l : W32) (ea : Ea) (ts : List LaneTr), Stands i b s →
    let t := acting b s
    let typ := (elemOf b d).1
    let w := (elemOf b d).2
    let vec := isVectorOpnd d
    (∀ par : Bool, (i = .lds d m ∧ par = false ∨ i = .ldv d m ∧ par = false ∨ i = .ldpar d m ∧ par = true) →
      let m' := if par then { m with breg := 0 } else m
      (vec = true → needEven d w = .ok ()) → Addressed b t m' (if vec then 32 * w else w) true l ea →
      Reached b t .load false false w (b.memLanes m' ea w vec l) ts →
      (∃ min since, b.versionMin t.cycle m par = .ok (min, since) ∧ versionShort min ts = none) →
      loadReady b d (vec && w == 8) (if vec then l else 1) t = true →
      Completes i b s fun u => u.mem = s.mem ∧ Awaiting b d (vec && w == 8) s.nextUid u ∧
        ∃ x, u.ops = s.ops ++ [newOp b s (b.flagOf false) (.load x)] ∧ Covers b typ w ts (fun _ => 0) t x) ∧
    (∀ (many : Bool) (data : Nat → Nat),
      (i = .sts d m ∧ many = false ∧ (∃ x, t.storeScalar b typ d = .ok x ∧ data = fun _ => x) ∨
        i = .stv d m ∧ many = true ∧ t.lanesSrc b typ d = .ok data) →
      Addressed b t m (if many then 32 * w else w) true l ea → Reached b t .store false true w (b.memLanes m ea w many l) ts →
      Completes i b s fun u => u.mem = s.mem ∧ ∃ x, u.ops = s.ops ++ [newOp b s (b.flagOf false) (.store x)] ∧ Covers b typ w ts data t x)

/-- R206 to R209, R217: the twelve atomics complete on the types that their entries accept, wherever their lanes are translated, permitted,
aligned and not locked: one element for each lane is under way with its source and its compare value, and a register destination awaits
the old values. -/
def AtomicsComplete : Prop :=
  ∀ (i : Instr) (s : State) (b : Band) (d : Opnd) (m : MemRef) (k : AtomKind) (src : Nat → W64 × W64) (l : W32) (ea : Ea) (ts : List LaneTr),
    atomRule i = some (d, m, k) → Stands i b s → k.accepts b.typ = true →
    let t := acting b s
    let w := typeBits b.typ / 8
    let vec := atomVector d m
    let pair := d.isV && w == 8
    (vec = true → needEven d w = .ok ()) → t.atomSrc b k b.typ w d = .ok src → Addressed b t m (if vec then 32 * w else w) true l ea →
    Reached b t .atomic true true w (b.memLanes m ea w vec l) ts →
    ((d.isV || d.isS) = true → loadReady b d pair (if vec then l else 1) t = true) →
    Completes i b s fun u => u.mem = s.mem ∧ Awaiting b d pair s.nextUid u ∧
      ∃ x, u.ops = s.ops ++ [newOp b s (b.flagOf false) (.atomic k x
        (ts.map fun y => ⟨y.lane, (y.bytes.map Prod.fst).headD 0, (src y.lane).1, (src y.lane).2, 0⟩) b.sat 0)] ∧ Covers b b.typ w ts (fun _ => 0) t x

/-- R82, R203: STM completes in a mirrored workgroup for every offset below S/2 that is a multiple of its width: its store to the target of its own
superstep instance is under way, counted by the band's flag; one to no target is dropped and shows in FSUM. -/
def MirrorStoreCompletes : Prop :=
  ∀ (s : State) (b : Band) (d : Opnd) (m : MemRef) (data : Nat → Nat) (l : W32) (ea : Ea) (wg : Workgroup), Stands (.stm d m) b s →
    let t := acting b s
    let vec := storeVector d
    let w := if vec then 4 else 8
    let offs := if vec then (laneList l).map fun k => (k, ea.e.toNat % 2 ^ 32 + 4 * k) else [(0, ea.e.toNat % 2 ^ 32)]
    t.wg? b.wg = some wg → t.rawData b d = .ok data → t.lanesOf b = .ok l → l ≠ 0 → t.effective b m (if vec then 128 else 8) = .ok ea →
    flagFree b false = true → (t.lsView wg).mirr = true → ea.e.toNat < 2 ^ 42 →
    (∀ x ∈ offs, x.2 < t.window wg.core (t.lsView wg).carve .sp / 2 ∧ x.2 % w = 0) →
    Completes (.stm d m) b s fun u => u.mem = s.mem ∧ u.ls = s.ls ∧
      ((t.stmTarget wg (fld ea.e 39 32) (fld ea.e 41 40)).isSome = true →
        u.ops = s.ops ++ [newOp b s (b.flagOf false) (.stm (fld ea.e 39 32) (fld ea.e 41 40)
          (offs.map fun x => (laneBytes w (data x.1)).zipIdx.map fun y => (x.2 + y.2, y.1)).flatten)]) ∧
      (t.stmTarget wg (fld ea.e 39 32) (fld ea.e 41 40) = none →
        u.ops = s.ops ∧ ∀ c ∈ u.launches, c.uid = b.launch → c.fsum.getLsbD mirrorFaultBit = true)

/-- R205: PREF completes whatever its lanes reach; of one address in cached RAM that can be read, is not locked and whose line has room, the bytes
are in the core's L1 afterwards. -/
def PrefetchReachesTheL1 : Prop :=
  ∀ (s : State) (b : Band) (m : MemRef) (l : W32) (ea : Ea), Stands (.pref m) b s →
    let t := acting b s
    t.lanesOf b = .ok l → b.indexReady m = .ok () → t.effective b m 128 = .ok ea →
    Completes (.pref m) b s fun u => ∀ x, m.amode ≠ .lanes → l ≠ 0 → t.translate (t.bandCtx b) .load ea.e = .ok x →
      let pa := t.viewOf b.launch (t.runOf b.wg) x.pa
      t.kindOf pa = .ram → cachedClass x.cc = true → t.locked b .mem 0 false (ea.e.toNat / 128 * 128) 128 = false →
      (∀ v, x.bind = some v → v.cur ≠ none) → t.errs = [] → t.readOut (pa / 32 * 32) = .ok →
      ((t.line? b.place.core (pa / 128)).isSome = true ∨
        (t.l1.filter fun y => y.core == b.place.core && y.line % 128 == pa / 128 % 128).length < t.l1Ways b.place.core) →
      (u.l1Hit b.place.core pa (~~~ 0#32)).isSome = true

/-- R250 to R258: the nine MMA words complete: their tiles lie in CB and AB, their format is the current B's, their array has an entry and their C
tile is locked already or a lock of the core's 64 is free. The MMA is in its array, bound to that B, and its C tile is locked for the
band's open batch. -/
def MmaWordsComplete : Prop :=
  ∀ (i : Instr) (s : State) (b : Band) (f : Nat) (cb ab : Opnd) (sel z lc la : BitVec 1) (c a : W64) (w : Workgroup) (g : BBuf) (sa : VReg),
    mmaOf i = some (f, cb, ab, sel, z, lc, la) → Stands i b s → (sel = 1 → mxPaired f = true) →
    (acting b s).lanesOf b = .ok (~~~ 0#32) → (acting b s).scalarSrc b false cb = .ok c → (acting b s).scalarSrc b false ab = .ok a →
    c.toNat % 512 = 0 → a.toNat % 128 = 0 → (acting b s).wg? b.wg = some w → c.toNat + 16384 ≤ (acting b s).spaceSize w .cb →
    a.toNat + 32 * (64 * mxBits f / 8) ≤ (acting b s).spaceSize w .ab → w.current = some g → g.fmt = f → b.readV 62 = .ok sa →
    (s.arrayQueue b.place.core b.place.quad).length < 16 →
    ((∃ k ∈ s.locks, k.sameTile b.place.core w.slot c.toNat = true) ∨ (s.locks.filter fun k => k.core == b.place.core).length < 64) →
    Completes i b s fun u => u.mem = s.mem ∧
      u.ops = s.ops ++ [newOp b s none (.mma b.openBatch g a.toNat c.toNat sa (sel == 1) (z == 1) false [] [])] ∧
      ∃ k ∈ u.locks, k.sameTile b.place.core w.slot c.toNat = true ∧ (b.uid, b.openBatch) ∈ k.holders

/-- R252 to R255: the MMA at the head of its array completes, on its first run or on its second, where its comparison holds: memory is as it was
and the MMA is under way no longer. -/
def MmaExecutionCompletes : Prop :=
  ∀ (s : State) (o : Op) (w : Workgroup) (batch a c : Nat) (g : BBuf) (sa : VReg) (sel zero rerun : Bool) (got : List (Nat × Byte)),
    s.op? o.uid = some o → o.kind = .mma batch g a c sa sel zero rerun got [] → s.wg? o.wg = some w →
    ((s.arrayQueue o.place.core o.place.quad).head?).map Op.uid = some o.uid →
    ∃ t, exec (if rerun then .mmaRerunComplete o.uid false else .mmaExecuteComplete o.uid false) s = .next t ∧ t.op? o.uid = none ∧ t.mem = s.mem

/-- R89, R90, R268: COPY completes: its slice is attached to its workgroup's copy of the band's next number, not yet started, which becomes the
band's most recent operation. -/
def CopyWordCompletes : Prop :=
  ∀ (s t : State) (b : Band) (m : MemRef) (ea : Ea) (desc : Option (List W64)) (stamp : Option StampSpec) (w : Workgroup) (l : Launch),
    Stands (.copy m) b s → (acting b s).effective b m 64 = .ok ea → CopyRead b (acting b s) ea.e desc stamp t → t.wg? b.wg = some w →
    flagFree b false = true → t.bandLaunch b = some l → (t.copyOp? b.wg (b.copies + 1) = none → t.entriesHeld b.wg < l.lr.copies) →
    (∀ ws op, desc = some ws →
      (t.locks.filter fun y => y.core == b.place.core).length + (t.sliceLocks b w op (parseCopy ws)).length ≤ 64) →
    (t.locks.filter fun y => y.core == b.place.core).length ≤ 64 →
    Completes (.copy m) b s fun u => ∃ o ∈ u.ops, o.wg = b.wg ∧
      (∃ sls st, o.kind = .engine (.copy (b.copies + 1) sls none) st ∧ ⟨b.pos, t.nextUid, b.uid, b.place, b.privileged, desc, stamp⟩ ∈ sls) ∧
      ∀ c, u.band? b.uid = some c → c.copies = b.copies + 1 ∧ c.lastCopy = some o.uid

/-- R103, R269, R270: COPYM completes: its multicast is under way and is the band's most recent operation. MACK completes once the band's accesses
are performed: its core's flag is set. -/
def MulticastWordsComplete : Prop :=
  (∀ (s t : State) (b : Band) (m : MemRef) (ea : Ea) (desc : Option (List W64)) (stamp : Option StampSpec) (w : Workgroup) (l : Launch),
    Stands (.copym m) b s → (acting b s).effective b m 64 = .ok ea → CopyRead b (acting b s) ea.e desc stamp t → t.wg? b.wg = some w →
    flagFree b false = true → t.bandLaunch b = some l → t.entriesHeld b.wg < l.lr.copies →
    (t.locks.filter fun y => y.core == b.place.core).length < 64 →
    Completes (.copym m) b s fun u =>
      u.ops = t.ops ++ [newOp b t none (.engine (.copym ⟨b.pos, t.nextUid, b.uid, b.place, b.privileged, desc, stamp⟩ [] none 0 0) stamp)] ∧
      ∀ c, u.band? b.uid = some c → c.lastCopy = some t.nextUid) ∧
  (∀ (s : State) (b : Band) (n : BitVec 6), Stands (.mack n) b s → (acting b s).accessesDone b = true →
    Completes (.mack n) b s fun u => u.mem = s.mem ∧ u.ops = s.ops ∧ (b.place.core, n.toNat) ∈ u.rflags)

/-- R104 to R106, R271: STASH completes: the bytes that its lanes convert to are under way to both tiles and the scales, and are the band's most
recent operation; a descriptor in error makes one that writes nothing and ends with that error. -/
def StashWordCompletes : Prop :=
  ∀ (s t : State) (b : Band) (v : Fin 64) (m : MemRef) (ea : Ea) (bs : List Byte) (stamp : Option StampSpec) (w : Workgroup) (l : Launch) (rs : List VReg),
    Stands (.stash (.v v) m) b s → (acting b s).effective b m 64 = .ok ea → ea.e.toNat % 64 = 0 → Described b ea.e 64 (acting b s) bs t →
    let d := parseStash bs
    t.stampOf b d.stamp d.seq d.scope = .ok stamp → v.val + d.regs ≤ 64 → t.lanesOf b = .ok (~~~ 0#32) →
    t.wg? b.wg = some w → b.readBlock v.val d.regs = .ok rs → flagFree b false = true → t.bandLaunch b = some l →
    t.entriesHeld b.wg < l.lr.copies → (t.locks.filter fun y => y.core == b.place.core).length + d.footprints.length ≤ 64 →
    let err := t.stashError w d
    let out := if err = 0 then (stashWrites b (t.srKey b) d rs).1 else []
    Completes (.stash (.v v) m) b s fun u => u.ops = t.ops ++ [newOp b t none (.engine (.stash out 0 err b.privileged) stamp)] ∧
      ∀ c, u.band? b.uid = some c → c.lastCopy = some t.nextUid

/-- R99, R305: YIELDC completes: with its band's most recent operation under way the band leaves the ready set until that has ended, with its
target; without one it goes to its target, which is a header. -/
def YieldCompletes : Prop :=
  ∀ (s : State) (b : Band) (off : BitVec 24), Stands (.yieldc off) b s →
    let target := targetOf b (off.signExtend 64)
    (∀ u, b.lastCopy = some u → ((acting b s).op? u).isSome = true →
      ∃ t, exec (.yieldc off) s = .next t ∧ t.ops = s.ops ∧ t.mem = s.mem ∧
        ∀ c, t.band? b.uid = some c → c.wait = some (.yieldc u target b.pc b.hdr none) ∧ c.hdr = target) ∧
    ((∀ u, b.lastCopy = some u → (acting b s).op? u = none) → (acting b s).notHeader b target = false →
      ∃ t, exec (.yieldc off) s = .next t ∧ t.ops = s.ops ∧ t.mem = s.mem ∧
        ∀ c, t.band? b.uid = some c → c.wait = none ∧ c.hdr = target)

/-- R274, R280: CRS completes: of a bucket that its rank has not handed over before, whose elements lie with owners of this device, the reduction
is under way with those owners. GSGET completes: its two registers await the value of the slot and its status. -/
def ReduceAndNormWordsComplete : Prop :=
  (∀ (s v : State) (b : Band) (m : MemRef) (ea : Ea) (bs : List Byte) (l : Launch) (t : PGTable) (g : PGroup), Stands (.crs m) b s →
    (acting b s).bandLaunch b = some l → l.lr.redn ≠ 1 → (acting b s).effective b m 64 = .ok ea → ea.e.toNat % 64 = 0 →
    Described b ea.e 64 (acting b s) bs v → v.bandLaunch b = some l → l.pg = some t →
    let k := parseBucket bs
    l.group? k.pgrp = some g → k.ok g b.rank = true → zeroBytes bs 49 64 = true → v.checkStore b k.recVa 32 = .ok () →
    flagFree b false = true → v.slotsHeld b.wg < 32 → v.accessesDone b = true →
    Completes (.crs m) b s fun u => ∀ os, (b.rank, k.pgrp, k.bid, k.stepn) ∉ l.crsDone → k.normg < 128 →
      ((v.noteRecord (v.bandCtx b) k.recVa).externalEffect l.uid |>.modLaunch l.uid fun x =>
        { x with crsDone := x.crsDone ++ [(b.rank, k.pgrp, k.bid, k.stepn)] }).pageOwners l b.place.core g k = .ok os →
      (∀ w ∈ os, t.serves w = true) →
      u.ops = v.ops ++ [newOp b v none (.crs ⟨b.rank, k, os, [], [], [], 0, false, []⟩)]) ∧
  (∀ (s : State) (b : Band) (n : Fin 64) (j : BitVec 3) (g : BitVec 1) (x : BitVec 6), Stands (.gsget (.s n) j g x) b s →
    n.val % 2 = 0 → j.toNat ≤ 5 → flagFree b true = true → (acting b s).canAlloc b 0 2 = true →
    let v := gsValue (((acting b s).gOf x.toNat).pick (g == 1)) j.toNat
    Completes (.gsget (.s n) j g x) b s fun u => u.ops = s.ops ++ [newOp b s (b.flagOf true) (.arith .tagS2 (.pair v.1 v.2.1) v.2.2)] ∧
      ∀ c, u.band? b.uid = some c → (c.sName n.val).pend = some ⟨s.nextUid, 0⟩ ∧ (c.sName (n.val + 1)).pend = some ⟨s.nextUid, 1⟩)

/-- R276, R277: CSCAL completes: where this device is the closer, its scalar is under way. CAG completes: where none of its devices is silent, its
publication is under way. -/
def ScalarAndGatherWordsComplete : Prop :=
  (∀ (s v : State) (b : Band) (a p : Opnd) (x e : W64) (bs : List Byte) (l : Launch) (t : PGTable) (g : PGroup), Stands (.cscal a p) b s →
    (acting b s).bandLaunch b = some l → l.lr.redn ≠ 1 → (acting b s).scalarSrc b false a = .ok x → (acting b s).scalarSrc b false p = .ok e →
    e.toNat % 32 = 0 → Described b e 32 (acting b s) bs v → v.bandLaunch b = some l → l.pg = some t →
    let d := parseScalar bs
    l.group? d.pgrp = some g → d.ok g b.rank = true → zeroBytes bs 24 32 = true → v.checkStore b d.recVa 32 = .ok () →
    flagFree b false = true → v.slotsHeld b.wg < 32 → v.accessesDone b = true →
    Completes (.cscal a p) b s fun u => t.closer g = t.here → u.ops = v.ops ++ [newOp b v none
      (.cscal b.rank d.stepn d.opc d.typ d.pgrp d.quorum d.timer d.recVa x v.cycle false false)]) ∧
  (∀ (s v : State) (b : Band) (m : MemRef) (ea : Ea) (bs : List Byte) (l : Launch), Stands (.cag m) b s →
    (acting b s).bandLaunch b = some l → l.lr.redn ≠ 1 → (l.pg.isSome || b.privileged) = true → (acting b s).effective b m 64 = .ok ea →
    ea.e.toNat % 64 = 0 → Described b ea.e 64 (acting b s) bs v →
    let d := parseCag bs
    d.ok = true → zeroBytes bs 32 64 = true → (l.pg = none → d.pgrp = 0) →
    (l.pg.isSome = true → ∃ g, l.group? d.pgrp = some g ∧ g.has b.rank = true) → v.checkStore b d.recVa 32 = .ok () →
    v.walkFirst (v.bandCtx b) .load 1 [(0, d.dst)] = .ok () → v.versionedPage (v.bandCtx b) d.dst = true → flagFree b false = true →
    v.slotsHeld b.wg < 32 → v.accessesDone b = true →
    Completes (.cag m) b s fun u => (∀ q ∈ l.cagDevices d.pgrp, q = l.here) → u.ops = v.ops ++ [newOp b v none
      (.cag b.rank d.ver d.pgrp (d.nchk + 1) d.src d.dst d.recVa [] [] [] none 0)])

/-- R278, R279: STEP completes where it would not lead the floor by more than the lead: its rank's own entry counts one step more. STEPRD
completes: its register awaits what its selector reads. -/
def StepWordsComplete : Prop :=
  (∀ (s : State) (b : Band) (l : Launch) (t : PGTable) (g : PGroup) (w : WeirGroup) (e : WeirEntry), Stands .step b s →
    (acting b s).bandLaunch b = some l → l.pg = some t → l.group? 0 = some g → s.weirOf l.lr.lid.toNat = some w → w.rank? b.rank = some e →
    verNewer (e.step + 1) (w.floor + BitVec.ofNat 32 w.lead) = false →
    Completes .step b s fun u => ∃ w', u.weirOf l.lr.lid.toNat = some w' ∧ w'.rank? b.rank = some { e with step := e.step + 1, taken := e.taken + 1 }) ∧
  (∀ (s : State) (b : Band) (n : Fin 64) (a : Opnd) (imm : BitVec 8) (l : Launch) (t : PGTable) (g : PGroup) (w : WeirGroup) (arg : Nat) (x : W64),
    Stands (.steprd (.s n) a imm) b s → (acting b s).bandLaunch b = some l → l.pg = some t → l.group? 0 = some g →
    s.weirOf l.lr.lid.toNat = some w → (3 ≤ imm.toNat → (acting b s).stepArg b a = .ok arg) → (imm.toNat < 3 → arg = 0) →
    weirRead b imm.toNat t g w arg = .ok x → flagFree b true = true → (acting b s).canAlloc b 0 1 = true →
    Completes (.steprd (.s n) a imm) b s fun u => u.ops = s.ops ++ [newOp b s (b.flagOf true) (.arith .tagS (.scalar x) 0)] ∧
      ∀ c, u.band? b.uid = some c → (c.sName n.val).pend = some ⟨s.nextUid, 0⟩)

/-! ## What a word leaves as it is -/

/-- Nothing but band `b` has changed. -/
def onlyBand (b : Band) (s t : State) : Prop :=
  t = { s with bands := t.bands } ∧ ∀ c ∈ t.bands, c.uid ≠ b.uid → c ∈ s.bands

end Sys2Proof.Stated
end

