-- ==== Sys2Proof/Certificates/Slice0/Obligations.lean ====
section
/-! DEFINITION. The statements for the provers. -/

open Sys2Proof Sys2Proof.Machine Sys2Proof.Stated

/-- The scalar instructions write their exact results, wrapped or clamped once, and only where a lane is enabled: ScalarResults,
ScalarImmediateResults, ScalarDivisionsStartWithTheirResult, BufferRegisterResults. -/
def Obligations.ScalarWordResults : Prop := ScalarResults ∧ ScalarImmediateResults ∧ ScalarDivisionsStartWithTheirResult ∧ BufferRegisterResults

/-- Mask, mode and band-state instructions write their register whatever EXEC holds: MaskResults, StateReadResults, ModeWrites,
BandStateResults. -/
def Obligations.MaskAndModeWordResults : Prop := MaskResults ∧ StateReadResults ∧ ModeWrites ∧ BandStateResults

/-- Branches and LOOP go to PC + 4 × (1 + offset) where taken and on to the next header where not: BranchResults, LoopCountsDown. -/
def Obligations.BranchAndLoopResults : Prop := BranchResults ∧ LoopCountsDown

/-- Calls slide the window or overflow, RET slides it back, JMPI goes where its register names: CallResults, ReturnResults,
IndirectJumpResults. -/
def Obligations.CallAndReturnResults : Prop := CallResults ∧ ReturnResults ∧ IndirectJumpResults

/-- Taking a trap: the frame, the saved words, EXEC, MODE and the handler; or a kill; or a suspension; and the mask unit's check:
TrapEntersHandler, TrapWithoutHandlerKills, HostAssistedTrapSuspends, DelayedTrapEntry, MaskCheckKills. -/
def Obligations.TrapEntry : Prop :=
  TrapEntersHandler ∧ TrapWithoutHandlerKills ∧ HostAssistedTrapSuspends ∧ DelayedTrapEntry ∧ MaskCheckKills

/-- R172, R177, R184, R335: for every instruction word but a clause header: nothing happens where no band may issue; a control word
that is not the last of its clause is an illegal instruction, then a privileged word in an unprivileged band is refused, then a
malformed word is an illegal operand; each trap reports the word and changes nothing else. -/
def Obligations.WordChecks : Prop :=
  ∀ (i : Instr) (s : State), i.hasWord = true → (∀ w x y n, i ≠ .clauseHeader w x y n) →
    (s.bandAt s.cur = none → exec i s = .next s) ∧
    ∀ b, s.bandAt s.cur = some b →
      (b.canIssue = false → exec i s = .next s) ∧
      (b.canIssue = true → Instr.isControl i = true → b.lastWord (len i) = false →
        exec i s = .next (s.takeTrap b (b.trapAt true (len i) 0x01 0 ((encodeWord i).setWidth 64) 0))) ∧
      (b.canIssue = true → (Instr.isControl i = true → b.lastWord (len i) = true) → Instr.isPrivileged i = true → b.privileged = false →
        exec i s = .next (s.takeTrap b (b.trapAt (Instr.isControl i) (len i) 0x04 0 ((encodeWord i).setWidth 64) 0))) ∧
      (b.canIssue = true → (Instr.isControl i = true → b.lastWord (len i) = true) → (Instr.isPrivileged i = true → b.privileged = true) →
        i.wellFormed = false →
        exec i s = .next (s.takeTrap b (b.trapAt (Instr.isControl i) (len i) 0x02 0 ((encodeWord i).setWidth 64) 0)))

/-- R307: TRAP takes the software trap with its immediate in s26. -/
def Obligations.SoftwareTrap : Prop :=
  ∀ (s : State) (b : Band) (imm : BitVec 16), Stands (.trap imm) b s →
    exec (.trap imm) s = .next (s.takeTrap b (b.trapAt true 1 0x30 0 (imm.setWidth 64) 0))

/-- R308, R374: RFT in a handler, with the saved words in s24 to s31 and v63 in order, no load of m0 outstanding (R147) and the newest frame
resident: MODE and EXEC come back from s31 and s30, MODE's reserved bits zero (R181), the window slides back (R152), and execution resumes:
without S at the trapped word (its clause fetched again), with lat restored, or with S at the skip address, in the clause if it lies there
and else at the header it names, a multiple of 4 below 2^57. A retry after a window fault starts the Tailrace again (R157). That a clause
which cannot be read now is left to the fetch at the word itself is the model's reading (DEDUCED, log 32). -/
def Obligations.ReturnFromTrap : Prop :=
  ∀ (s : State) (b : Band) (k : BitVec 1) (f : Frame) (rest : List Frame) (x24 x25 x28 x29 x30 x31 : W64) (lat : VReg) (l : Launch)
    (r : Refetched), Stands (.rft k) b s → b.inHandler = true → (acting b s).launch? b.launch = some l →
    b.readS 24 = .ok x24 → b.readS 25 = .ok x25 → b.readS 28 = .ok x28 → b.readS 29 = .ok x29 → b.readS 30 = .ok x30 →
    b.readS 31 = .ok x31 → b.readV 63 = .ok lat → (acting b s).regPending b none none (some 0) = false → b.frames = f :: rest →
    f.loc = .resident → modeRefused (x31.setWidth 32) = false → (acting b s).refetch b x28 = r →
    (if x24.getLsbD 14 then x25 = x28 ∧ k = 0 else r.hasWord x28 x25 = true) →
    let inClause := x24.getLsbD 14 = false ∧ (k = 0 ∨ r.holds x28 x29 = true)
    ∀ h : W64, (inClause ∨ k = 0 → h = x28) → (¬ inClause → k = 1 → h = x29) → h.toNat % 4 = 0 → h.toNat < 2 ^ 57 →
    ∃ c : Band,
      (inClause → exec (.rft k) s = .next (((acting b s).modBand b.uid fun _ => c).modBand b.uid fun c =>
        (c.issued true (.rft k) s.cycle).gotoWithin h (if k = 0 then x25 else x29))) ∧
      (¬ inClause → exec (.rft k) s = .next (((acting b s).modBand b.uid fun _ => c).modBand b.uid fun c =>
        (c.issued true (.rft k) s.cycle).goto h)) ∧
      c.mode = x31.setWidth 32 &&& ~~~ 0xE000#32 ∧ c.exec = x30.setWidth 32 ∧ c.inHandler = false ∧ c.privileged = l.lr.priv ∧
      c.latValid = (decide (k = 0) && x24.getLsbD 13) ∧ (k = 0 → c.lat = lat) ∧ c.frames.length = rest.length ∧
      (∀ n, n < f.slide → n < 64 → c.vName n = f.hv.getD n VName.zero) ∧
      (∀ n, f.slide ≤ n → n < 64 → c.vName n = b.vName (n - f.slide)) ∧
      (∀ n, n < f.slide / 2 → n < 32 → c.sName n = f.hs.getD n SName.zero) ∧
      (∀ n, f.slide / 2 ≤ n → n < 32 → c.sName n = b.sName (n - f.slide / 2)) ∧ (∀ n, 32 ≤ n → n < 64 → c.sName n = b.sName n) ∧
      (∀ n, 0 < n → n < 16 → c.m.toArray.getD n 0 = b.m.toArray.getD n 0) ∧
      c.a = b.a ∧ c.b = b.b ∧ c.o = b.o ∧ c.f = b.f ∧ c.fps = b.fps ∧ c.sig = b.sig ∧ c.srseq = b.srseq ∧
      c.winFault = if k = 0 ∧ x24.extractLsb' 0 8 = 0x21 then none else b.winFault

/-! ## Vector words -/

/-- Vector ALU, select and comparison words write the enabled lanes, and lat or the mask: VectorAluResults, VectorSelectResults,
ComparisonResults. -/
def Obligations.VectorWordResults : Prop := VectorAluResults ∧ VectorSelectResults ∧ ComparisonResults

/-! ## Words with rounding, and arithmetic-class words (R170) -/

/-- The float words, CVT and SCVT: ALU words write at once and add the enabled lanes' status to FPS; arithmetic-class words start an
operation that will. A word that rounds stochastically advances the band's count by one. -/
def Obligations.FloatResults : Prop :=
  ∀ (i : Instr) (s : State) (b : Band) (typ : Nat) (d : Opnd) (e : Ends) (rnd : Nat) (g : Nat → Nat × BitVec 6) (l : W32),
    FloatWord i b (acting b s) typ d e rnd g → Stands i b s → (acting b s).lanesOf b = .ok l → vputReady b typ d l (acting b s) = true →
    (e = .arith → flagFree b true = true) → (e = .alu → wholeThere b typ d l (acting b s) = true) →
    exec i s = .next (past i b s ((match e with
      | .alu => (vput b typ d (fun k => (g k).1) l true (acting b s)).setFps b.uid (orLanes l g)
      | .plain => (vput b typ d (fun k => (g k).1) l false (acting b s)).setFps b.uid (orLanes l g)
      | .arith => arithPut b typ d (fun k => (g k).1) l (orLanes l g) (acting b s)).countSr b rnd))

/-- Exchanges, scans, reductions, distances and top-k words give their results by lane: ExchangeScanAndReductionResults,
ScalarReductionResults, DistanceResults, TopKResults. -/
def Obligations.CrossLaneWordResults : Prop := ExchangeScanAndReductionResults ∧ ScalarReductionResults ∧ DistanceResults ∧ TopKResults

/-- R232 to R235: QPACK, QUNPACK and QSCALE: the conversions into and out of the block formats, with all lanes enabled. That QSCALE's source
may be a v or an o register (log 26), and that QPACK and QSCALE set no UF for F4S (log 29), are the model's readings (DEDUCED). -/
def Obligations.BlockFormatResults : Prop :=
  ∀ (s : State) (b : Band) (d a : Fin 64) (x : BitVec 1) (f : BitVec 3), (acting b s).lanesOf b = .ok (~~~ 0#32) → f.toNat < 6 →
    (∀ rs, Stands (.qpack (.v d) (.v a) x f) b s → a.val + blockRegs f.toNat ≤ 64 → d.val ≤ 62 →
      b.readBlock a.val (blockRegs f.toNat) = .ok rs → (acting b s).canAlloc b 2 0 = true →
      let qs := blocksOf (acting b s) b x f rs
      let codes := (qs.map Quantised.codes).flatten
      exec (.qpack (.v d) (.v a) x f) s = .next (past (.qpack (.v d) (.v a) x f) b s
        (((putBlock b d.val
            [VReg.ofBytes fun i => if f.toNat < 4 then codes.getD i 0 else codes.getD (2 * i) 0 + 16 * codes.getD (2 * i + 1) 0,
             VReg.ofFn fun j => match qs[j]? with | some q => BitVec.ofNat 32 (q.c + 256 * q.p) | none => 0] (acting b s)).setFps b.uid
          (qs.foldl (fun m q => m ||| q.fps) 0)).countSr b b.rnd))) ∧
    (∀ img sc, Stands (.qunpack (.v d) (.v a) x f) b s → a.val ≤ 62 → d.val + blockRegs f.toNat ≤ 64 →
      b.readV a.val = .ok img → b.readV (a.val + 1) = .ok sc → (acting b s).canAlloc b (blockRegs f.toNat) 0 = true →
      let value := unpacked (acting b s) b x f img sc
      exec (.qunpack (.v d) (.v a) x f) s = .next (past (.qunpack (.v d) (.v a) x f) b s
        (((putBlock b d.val ((List.range (blockRegs f.toNat)).map fun j => VReg.ofFn fun e => BitVec.ofNat 32 (value j e).1)
            (acting b s)).setFps b.uid
          ((List.range (blockRegs f.toNat)).foldl (fun m j => m ||| orLanes (~~~ 0#32) (value j)) 0)).countSr b b.rnd))) ∧
    (∀ (e c : Opnd) (r : VReg), Stands (.qscale e c x f) b s → (acting b s).blockReg b c = .ok r →
      vputReady b 10 e (~~~ 0#32) (acting b s) = true →
      let src := blockOf (x == 1) b.ftz r
      let q := quantise f.toNat (fun _ => ⟨if b.rnd = 5 then 0 else b.rnd, 0⟩) src.1
      exec (.qscale e c x f) s = .next (past (.qscale e c x f) b s
        ((vput b 10 e (fun _ => q.c + 256 * q.p) (~~~ 0#32) false (acting b s)).setFps b.uid (q.fps &&& (fNF ||| fNV) ||| src.2))))

/-! ## Memory -/

/-- Loads, stores, atomics, mirror stores and prefetches complete, their operation under way on the lanes they reach: MemoryAccessesStart, AtomicsStart,
MirrorStoresStart, PrefetchCompletes. -/
def Obligations.MemoryWordsStart : Prop := MemoryAccessesStart ∧ AtomicsStart ∧ MirrorStoresStart ∧ PrefetchCompletes

/-- R80, R200, R164: typed-space words with aligned offsets inside the window, not locked: a load reads the window's bytes as it issues
and its destination awaits them; a store writes them as it issues, an item's store to the template region through overlay lines. Both issue
once the band's earlier accesses are performed (R129) and the clause's memory flag has room (R139, R170). -/
def Obligations.TypedSpaceResults : Prop :=
  ∀ (i : Instr) (s : State) (b : Band) (d : Opnd) (m : MemRef) (sp : Space) (l : W32) (ea : Ea) (wg : Workgroup), Stands i b s →
    let t := acting b s
    t.wg? b.wg = some wg →
    (∀ dest await, spaceLoadRule i = some (d, m, sp) →
      let vec := isVectorOpnd d
      let w := if vec then 4 else 8
      let ls := b.memLanes m ea w vec l
      Addressed b t m (if vec then 128 else 8) false l ea → checkAlign w ls = .ok () → t.checkOffsets wg sp w ls = .ok () →
      t.checkLocks b sp wg.slot false w ls = .ok () → t.accessesDone b = true →
      t.loadDest b d false (if vec then l else 1) = .ok (dest, await) →
      exec i s = .next (past i b s ((await (t.startOp b false (.localLoad dest (localValue vec l (ls.map fun x =>
        (x.1, if sp = .sp then t.readSp wg b (if b.template then 0 else (t.lsView wg).treg) x.2.toNat w
          else t.readSpace wg sp x.2.toNat w)))))).updateA b m ea))) ∧
    (∀ region data wg' lines, spaceStoreRule i = some (d, m, sp, region) →
      let vec := storeVector d
      let w := if vec then 4 else 8
      let ls := b.memLanes m ea w vec l
      let treg := if b.template ∨ sp ≠ .sp then 0 else (t.lsView wg).treg
      t.rawData b d = .ok data → t.lanesOf b = .ok l → l ≠ 0 → b.indexReady m = .ok () →
      t.effective b m (if vec then 128 else 8) = .ok ea → checkAlign w ls = .ok () →
      (if region then (∃ x, t.bandLaunch b = some x ∧ x.lr.frz ≠ 15) ∧ ∀ x ∈ ls, x.2.toNat + w ≤ (t.lsView wg).treg
        else t.checkOffsets wg sp w ls = .ok ()) →
      flagFree b false = true → t.checkLocks b sp wg.slot true w ls = .ok () → t.accessesDone b = true →
      takeOverlays b.uid treg ls wg = .ok (wg', lines) →
      exec i s = .next (past i b s
        ((((lines.foldl (fun u x => u.copyLine wg b treg x) t).setWg wg').storeLanes wg' sp b.uid treg w data ls).updateA b m ea)))

/-! ## Ordering, tokens, monitors and barriers -/

/-- Fences wait for earlier accesses and acquire; TLBI drops entries and ends when older accesses have: FencesComplete,
TlbInvalidationResults. -/
def Obligations.FenceAndInvalidationResults : Prop := FencesComplete ∧ TlbInvalidationResults

/-- ACQRG and RELRG: statuses, entries, waits and their end: AcquireRegionResults, AcquireTimeoutEndsWait, ReleaseRegionResults. -/
def Obligations.RegionTokenResults : Prop := AcquireRegionResults ∧ AcquireTimeoutEndsWait ∧ ReleaseRegionResults

/-- R214, R215: MONARM arms a monitor of the band on the word that its address reaches, in place of one of the same number; MONWAIT on
an armed monitor, once what must precede its read is performed, disarms it with status 0 where the word meets its condition, with status 1 for
a single test that fails, and otherwise waits to its deadline; the deadline ends the wait with 1, or 0 where the word of a band that is not
parked meets it by then (R216). A MONWAIT that ends leaves nothing older than what it read in its core's L1 (R120). -/
def Obligations.MonitorResults : Prop :=
  (∀ (s : State) (b : Band) (k : BitVec 2) (m : MemRef) (ea : Ea) (x : LaneTr), Stands (.monarm k m) b s →
    (acting b s).effective b m 8 = .ok ea → flagFree b false = true → ea.e.toNat % 8 = 0 →
    (acting b s).walkFirst ((acting b s).bandCtx b) .load 8 [(0, ea.e)] = .ok () →
    (acting b s).translateLanes ((acting b s).bandCtx b) .load true 8 [(0, ea.e)] = .ok [x] →
    ((b.monitor? k.toNat).isSome ∨ (acting b s).monitorsOf b.place.core < 64) →
    exec (.monarm k m) s = .next (past (.monarm k m) b s (((acting b s).modBand b.uid fun c =>
      { c with monitors := (c.monitors.filter fun y => y.k != k.toNat) ++ [⟨k.toNat, (x.bytes.map Prod.fst).headD 0⟩] }).updateA b m ea))) ∧
  (∀ (s : State) (b : Band) (k : BitVec 2) (d : Opnd) (n : Fin 64) (e ctl : W64) (mon : Monitor), Stands (.monwait d k (.s n)) b s →
    freshly b → b.readS n.val = .ok e → b.readS (n.val + 1) = .ok ctl → fld ctl 63 60 ≤ 3 → fld ctl 59 32 = 0 →
    b.monitor? k.toNat = some mon →
    let pa := (acting b s).monPa b mon
    (acting b s).readNow b false [pa] = true → (acting b s).readOut (pa / 32 * 32) = .ok →
    let u := (acting b s).scrub (pa / 32 * 32)
    u.readOut (u.monPa b mon / 32 * 32) = .ok →
    let v := u.l1Update b.place.core (u.monPa b mon) (~~~ 0#32) (u.atom (u.monPa b mon / 32 * 32))
    let off := v.modBand b.uid fun c => { c with monitors := c.monitors.filter fun y => y.k != k.toNat }
    let acq := off.acquireAt b (if v.isRecord (v.monPa b mon) then 5 else b.scope.toNat)
    (condMet (fld ctl 63 60) (u.word pa) e = true → statusReady b d acq →
      exec (.monwait d k (.s n)) s = .next (past (.monwait d k (.s n)) b s (putStatus b d 0 acq))) ∧
    (condMet (fld ctl 63 60) (u.word pa) e = false → fld ctl 31 0 = 0 → statusReady b d off →
      exec (.monwait d k (.s n)) s = .next (past (.monwait d k (.s n)) b s (putStatus b d 1 off))) ∧
    (condMet (fld ctl 63 60) (u.word pa) e = false → fld ctl 31 0 ≠ 0 →
      exec (.monwait d k (.s n)) s = .next
        (waits b (.monitor k.toNat (fld ctl 63 60) e (u.cycle + b.timeLeft.join.getD (1024 * fld ctl 31 0))) u))) ∧
  (∀ (s : State) (b : Band) (k : BitVec 2) (d : Opnd) (n : Fin 64) (st : W64) (mon : Monitor), Stands (.monwait d k (.s n)) b s →
    b.wait = some (.done st) → b.monitor? k.toNat = some mon →
    let u := acting b s
    u.readOut (u.monPa b mon / 32 * 32) = .ok →
    let v := u.l1Update b.place.core (u.monPa b mon) (~~~ 0#32) (u.atom (u.monPa b mon / 32 * 32))
    let off := v.modBand b.uid fun c => { c with monitors := c.monitors.filter fun y => y.k != k.toNat }
    let t := if st = 0 then off.acquireAt b (if v.isRecord (v.monPa b mon) then 5 else b.scope.toNat) else off
    statusReady b d t → exec (.monwait d k (.s n)) s = .next (past (.monwait d k (.s n)) b s (putStatus b d st t))) ∧
  (∀ (s : State) (b : Band) (q : Place) (k cond dl : Nat) (e : W64) (mon : Monitor), s.bandAt q = some b →
    b.wait = some (.monitor k cond e dl) → b.monitor? k = some mon → dl ≤ s.cycle →
    exec (.monwaitTimeout q) s = .next (s.modBand b.uid fun c =>
      { c with wait := some (.done (if b.parked = false ∧ condMet cond (s.word (s.monPa b mon)) e = true then 0 else 1)), held := false }))

/-- Barriers and superstep barriers: arrival, release and deadline: BarrierResults, SuperstepResults. -/
def Obligations.BarrierAndSuperstepResults : Prop := BarrierResults ∧ SuperstepResults

/-! ## The matrix unit -/

/-- BLATCH latches B; MFENCE and MWAIT number and await batches: LatchResults, BatchResults. -/
def Obligations.LatchAndBatchResults : Prop := LatchResults ∧ BatchResults

/-- An MMA word completes; its MMA is computed with one rounding, checked, and ends or kills: MmaStarts, MmaExecutionResults. -/
def Obligations.MmaResults : Prop := MmaStarts ∧ MmaExecutionResults

/-- R259 to R262: ACCZ, ACCLD and ACCRD act on the C rows of the enabled lanes, which lie in CB at their alignment and meet no lock, once the
band's earlier accesses are performed (R129), and are held until then. ACCZ writes zero to a row's 512 bytes, ACCLD 32 FP32 values; ACCRD
starts an operation that holds its block of registers, raw or each value scaled, clipped and converted with one rounding (R236, R261), which
await it. With no lane enabled nothing moves. -/
def Obligations.AccumulatorMoves : Prop :=
  (∀ (s : State) (b : Band) (a : Opnd) (l : W32) (c : W64) (w : Workgroup), Stands (.accz a) b s → (acting b s).lanesOf b = .ok l →
    (l = 0 → exec (.accz a) s = .next (past (.accz a) b s (acting b s))) ∧
    (l ≠ 0 → (acting b s).scalarSrc b false a = .ok c → (acting b s).wg? b.wg = some w →
      (acting b s).checkRows b w 512 c.toNat 512 true l = .ok () →
      ((acting b s).accessesDone b = false → exec (.accz a) s = .next (heldAt (.accz a) b s)) ∧
      ((acting b s).accessesDone b = true → exec (.accz a) s = .next (past (.accz a) b s
        ((laneList l).foldl (fun t i => t.writeSpace w .cb (c.toNat + 512 * i) (List.replicate 512 0)) (acting b s)))))) ∧
  (∀ (s : State) (b : Band) (a : Opnd) (v : Fin 64) (f : BitVec 4) (l : W32) (c : W64) (w : Workgroup) (rs : List VReg),
    Stands (.accld a (.v v) f) b s → (f = 8 ∨ f = 9 ∨ f = 10) → v.val + accRegs f.toNat ≤ 64 → (acting b s).lanesOf b = .ok l →
    (l = 0 → exec (.accld a (.v v) f) s = .next (past (.accld a (.v v) f) b s (acting b s))) ∧
    (l ≠ 0 → (acting b s).scalarSrc b false a = .ok c → (acting b s).wg? b.wg = some w →
      (acting b s).checkRows b w 128 c.toNat 128 true l = .ok () →
      ((acting b s).accessesDone b = false → exec (.accld a (.v v) f) s = .next (heldAt (.accld a (.v v) f) b s)) ∧
      ((acting b s).accessesDone b = true → b.readBlock v.val (accRegs f.toNat) = .ok rs →
        let per := accPer f.toNat
        let elem := fun i t => ((rs.getD (t / per) VReg.zero).lane i).toNat / 2 ^ (32 / per * (t % per)) % 2 ^ (32 / per)
        exec (.accld a (.v v) f) s = .next (past (.accld a (.v v) f) b s
          ((laneList l).foldl (fun t i => t.writeSpace w .cb (c.toNat + 512 * i)
            (((List.range 32).map fun t => laneBytes 4 (accWiden f.toNat (elem i t))).flatten)) (acting b s)))))) ∧
  (∀ (s : State) (b : Band) (v : Fin 64) (a : Opnd) (k : BitVec 2) (x : BitVec 1) (f : BitVec 4) (l : W32), Stands (.accrd (.v v) a k x f) b s →
    accAccepts f.toNat (x == 1) = true → v.val + accRegs f.toNat ≤ 64 → (acting b s).lanesOf b = .ok l →
    (l = 0 → exec (.accrd (.v v) a k x f) s = .next (past (.accrd (.v v) a k x f) b s ((acting b s).countSr b b.rnd))) ∧
    ∀ (c : W64) (w : Workgroup) (sc cl : Machine.Num), l ≠ 0 → flagFree b true = true → (acting b s).scalarSrc b false a = .ok c →
      (acting b s).wg? b.wg = some w → (acting b s).checkRows b w 128 c.toNat 128 false l = .ok () →
      ((acting b s).accessesDone b = false → exec (.accrd (.v v) a k x f) s = .next (heldAt (.accrd (.v v) a k x f) b s)) ∧
      ((acting b s).accessesDone b = true → (x = 1 → b.scaleRegs k.toNat = .ok (sc, cl)) →
        (∀ u, u < accRegs f.toNat → b.partialReady (v.val + u) l = .ok ()) → (acting b s).canAlloc b (accRegs f.toNat) 0 = true →
        let value := accValue (acting b s) b w c.toNat f.toNat (x == 1) sc cl
        let rs := (List.range (accRegs f.toNat)).map fun u => VReg.ofFn fun i => BitVec.ofNat 32 (accPacked f.toNat fun p => (value u i p).1)
        exec (.accrd (.v v) a k x f) s = .next (past (.accrd (.v v) a k x f) b s
          (((List.range (accRegs f.toNat)).foldl (fun (t : State) u => t.awaitV b (v.val + u) s.nextUid u)
            ((acting b s).startOp b true (.arith .tagBlock (.block rs l) (accStatus f.toNat l value)))).countSr b b.rnd))))

/-! ## Copy engines -/

/-- COPY, COPYM, MACK, STASH and YIELDC complete, attach, start and wait: CopyWordAttachesSlice, MulticastWordResults, StashWordStarts,
YieldUntilCopyResults. -/
def Obligations.EngineWordsStart : Prop := CopyWordAttachesSlice ∧ MulticastWordResults ∧ StashWordStarts ∧ YieldUntilCopyResults

/-- Copies, multicasts and stashes: planned, performed in parts, acknowledged, ended with count and stamp: CopyStartPlans, CopyCompletes,
MulticastEventResults, StashCompletes. -/
def Obligations.EngineOperationResults : Prop := CopyStartPlans ∧ CopyCompletes ∧ MulticastEventResults ∧ StashCompletes

/-! ## Storage -/

/-- Storage commands, watches and the storage window: StorageAndWatchWordResults, StorageCommandResults, StorageWindowResults. -/
def Obligations.StorageResults : Prop := StorageAndWatchWordResults ∧ StorageCommandResults ∧ StorageWindowResults

/-! ## Collectives -/

/-- CRS, GSGET, CSCAL, CAG, STEP and STEPRD complete, hand over, read and wait: ReduceAndNormWordResults, ScalarAndGatherWordResults,
StepWordResults. -/
def Obligations.CollectiveWordResults : Prop := ReduceAndNormWordResults ∧ ScalarAndGatherWordResults ∧ StepWordResults

/-- Contributions, hops, acknowledgements, quorum timers and norms at the Flume: ContributionResults, FlumeEventResults. -/
def Obligations.ReductionResults : Prop := ContributionResults ∧ FlumeEventResults

/-- R34, R35, R349: an accumulator takes two elements in either order to the same value; its side bits are the same too where bit 0 (V) is
clear after both orders. -/
def Obligations.AccumulationOrderIrrelevant : Prop :=
  ∀ (v : Int) (sd : BitVec 4) (w w' : Nat) (x y : Machine.Num),
    let a := x320Add v sd w x
    let b := x320Add v sd w' y
    let p := x320Add a.1 a.2 w' y
    let q := x320Add b.1 b.2 w x
    p.1 = q.1 ∧ (p.2.getLsbD 0 = false → q.2.getLsbD 0 = false → p.2 = q.2)

/-- Scalar and gather arrivals at the Flume, and what the Weir hears, counts silent and releases: ScalarAndGatherEventResults,
WeirEventResults. -/
def Obligations.GatherAndWeirResults : Prop := ScalarAndGatherEventResults ∧ WeirEventResults

/-! ## Fetching, performing and landing -/

/-- A clause is fetched whole and its header issues once its masked flags are zero: ClauseFetchResults, ClauseHeaderResults. -/
def Obligations.ClauseResults : Prop := ClauseFetchResults ∧ ClauseHeaderResults

/-- Atoms are read, written or both in one step, and results land in their registers: AtomsPerformed, ResultsLand,
ResponseAndMirrorResults. -/
def Obligations.AccessesPerformAndLand : Prop := AtomsPerformed ∧ ResultsLand ∧ ResponseAndMirrorResults

/-- R60, R61: a walk that ends well fills its agent's holder, and every band that waits for an address which its TLB now holds tries again; one
that finds no leaf is the trap of the access that waited; s has the errors that the walk is the first to find (log 5). R67, R204, R336: a
version wait ends when VWAIT, or what a pre-emption left of it, has run out, unless the version current by then is good enough; its trap
holds the version that is current, or all ones where none is. A parked band takes that trap once it is restored (R167; DEDUCED, log 32). -/
def Obligations.WalkAndVersionWaitEnds : Prop :=
  (∀ (s₀ s : State) (es : List SymErr) (agent : Agent) (root : Nat) (va : W64) (b : Band) (rest : List Band) (k lane : Nat), s₀.strikes es = s →
    (s.bands.filter fun x => match x.wait with
      | some (.walk v _ _) => v == va && (s.bandCtx x).agent == agent && (s.bandCtx x).root == root
      | _ => false) = b :: rest →
    b.wait = some (.walk va k lane) →
    let c := s.bandCtx b
    (∀ pte, s.tlbHit c va.toNat = none → s.walk c va.toNat = .ok pte →
      let u := s.tlbFill c va.toNat
      exec (.pageWalkComplete agent root va es) s₀ = .next { u with bands := u.bands.map u.walkWakes } ∧
        (u.tlbHit c va.toNat).map TlbEntry.pte = some pte) ∧
    (∀ t, s.tlbHit c va.toNat = some t → exec (.pageWalkComplete agent root va es) s₀ =
      .next { s.tlbFill c va.toNat with bands := (s.tlbFill c va.toNat).bands.map (s.tlbFill c va.toNat).walkWakes }) ∧
    (∀ m, s.tlbHit c va.toNat = none → s.walk c va.toNat = .error m → rest = [] →
      exec (.pageWalkComplete agent root va es) s₀ = .next (s.walkFailed b va k lane m))) ∧
  (∀ (s : State) (b : Band) (v : W64) (k lane : Nat), b.wait = some (.walk v k lane) → (s.tlbHit (s.bandCtx b) v.toNat).isSome = true →
    s.walkWakes b = { b with wait := none, held := false }) ∧
  (∀ (s : State) (b : Band) (q : Place) (l : Launch) (lane since v : Nat) (va : W64) (min cur : Option W32), s.bandAt q = some b →
    b.wait = some (.version lane va v min since) → s.bandLaunch b = some l → (s.currentOf v).map Prod.snd = cur →
    let limit := b.timeLeft.getD (if l.lr.vwait = 0 then none else some (microseconds l.lr.vwait))
    let good := match cur, min with
      | some x, some m => verAtLeast x m
      | some _, none => true
      | none, _ => false
    let bound := match cur with | some x => x.setWidth 64 | none => ~~~ 0#64
    let b' := { b with wait := none }
    let trap := b'.trapAt false b'.wordLen 0x15 lane va bound
    (good = true ∨ limit = none → exec (.versionWaitTimeout q) s = .next s) ∧
    ∀ n, limit = some n →
      (s.cycle < since + n → exec (.versionWaitTimeout q) s = .next s) ∧
      (good = false → since + n ≤ s.cycle →
        (b.parked = false → exec (.versionWaitTimeout q) s = .next ((s.setBand b').takeTrap b' trap)) ∧
        (b.parked = true → exec (.versionWaitTimeout q) s =
          .next (s.setBand { b with trap := some trap, wait := some .entryRegs, held := true }))))

/-- Publications open, close and advance; watches post; snapshots latch and read out: PublicationResults, WatchPostResults,
SnapshotResults. -/
def Obligations.PublicationWatchAndSnapshotResults : Prop := PublicationResults ∧ WatchPostResults ∧ SnapshotResults

/-! ## Launches, workgroups and bands -/

/-- EXIT and FREEZE end a band; a core with the image stamps its workgroups: ExitAndFreezeResults, TemplateImageAckResults. -/
def Obligations.BandEndAndStampResults : Prop := ExitAndFreezeResults ∧ TemplateImageAckResults

/-- R329, R360: the record at HEAD of a queue that is served is read and checked, and its launch waits or is refused with a status; a waiting
launch whose dependences are met becomes active, and HEAD advances. Nothing is read from a queue that is empty or disabled. -/
def Obligations.LaunchDispatchAndActivation : Prop :=
  (∀ (s : State) (q : Nat), q < 64 → fld (s.num 0x2000) 63 62 = 2 → s.qhead q ≠ s.qtail q → (s.qctl q).getLsbD 63 = true → s.activeCount < 256 →
    (∀ l ∈ s.launches, l.queue = q → l.isActive = true) → s.kindOf (s.slotOf q (s.qhead q)) ≠ .hole →
    let bs := (List.range 256).map (byteOf (s.physRead (s.slotOf q (s.qhead q)) 256 (s.queueWorld q)))
    let l := s.newLaunch q bs
    let t : State := { s.physTouch (s.slotOf q (s.qhead q)) 256 (s.queueWorld q) with
      nextUid := s.nextUid + 1, cancels := s.cancels.erase (q, s.qhead q), lastRead := assocSet s.lastRead q s.nextUid }
    ((q, s.qhead q) ∈ s.cancels → exec (.launchDispatch q) s = .next (t.refuse l 0x0B)) ∧
    (∀ st, (q, s.qhead q) ∉ s.cancels → t.checkLaunch bs l = .error st → exec (.launchDispatch q) s = .next ((t.cpReads bs l).refuse l st)) ∧
    (∀ l', (q, s.qhead q) ∉ s.cancels → t.checkLaunch bs l = .ok l' →
      let u := t.cpReads bs l'
      exec (.launchDispatch q) s = .next { u with launches := u.launches ++ [l'] })) ∧
  (∀ (s : State) (q : Nat), (s.qhead q = s.qtail q ∨ (s.qctl q).getLsbD 63 = false ∨ fld (s.num 0x2000) 63 62 ≠ 2) →
    exec (.launchDispatch q) s = .next s) ∧
  (∀ (s : State) (q : Nat) (l : Launch), (s.launches.find? fun l => l.queue == q && !l.isActive) = some l →
    (s.depFault l = true → exec (.launchActivate q) s = .next (s.refuse l 7)) ∧
    (s.depFault l = false → (∀ d ∈ l.deps, d.met = true) → (∀ u, l.after = some u → s.launch? u = none) →
      (s.weirFull l = true → exec (.launchActivate q) s = .next (s.refuse l 4)) ∧
      (s.weirFull l = false →
        let l' := { l with phase := .active, activatedAt := s.cycle, deps := [] }
        exec (.launchActivate q) s = .next ((((s.advanceHead q).setLaunch l').weirStart l').applyHeldFor l'.lr.lid.toNat))))

/-- Launches complete, are killed, restored, replayed, and redundant runs compared: LaunchEndResults, WriteSetAndRedundancyResults. -/
def Obligations.LaunchEndAndRedundancyResults : Prop := LaunchEndResults ∧ WriteSetAndRedundancyResults

/-- R338 to R342: a pre-empted workgroup whose bands have stopped and that moves nothing is saved and leaves its core; the distributor's choice is
placed, or resumed; the timer pre-empts the most recently placed workgroup of the lowest priority below a starved one. -/
def Obligations.PlacementAndPreemptionResults : Prop :=
  (∀ (s : State) (w : Workgroup) (l : Launch), s.wg? w.uid = some w → s.launch? w.launch = some l → w.preempting = true → w.resident = true →
    l.kills = [] → (∀ x ∈ s.together w, s.saveReady x = true) →
    (∀ t, (s.together w).foldlM (fun s w => s.saveAll l w) s = some t → exec (.preemptSave w.uid) s =
      .next ((s.together w).foldl (fun s w => s.unplace ((s.wg? w.uid).getD w) l.lr.vwait) t)) ∧
    ((s.together w).foldlM (fun s w => s.saveAll l w) s = none → exec (.preemptSave w.uid) s = .next (s.decideKill l.uid .save))) ∧
  (∀ (s : State), s.badReplay = none →
    (∀ q l u t, s.choose = (some (q, l, u), t) → (∀ ws, u ≠ .resume ws) → exec .workgroupPlace s = .next (t.serve q l u)) ∧
    (∀ t, s.choose = (none, t) → exec .workgroupPlace s = .next t)) ∧
  (∀ (s : State) (l : Launch), s.badReplay = some l → exec .workgroupPlace s = .next (s.decideKill l.uid .replayLog)) ∧
  (∀ (s t : State) (q u : Nat) (l : Launch) (ws : List Nat), s.choose = (some (q, l, .resume ws), t) → u ∈ ws →
    exec (.workgroupResume u) s = .next (t.serve q l (.resume ws))) ∧
  (∀ (s : State) (prio : Nat) (w : Workgroup), (∀ x ∈ s.wgs, x.preempting = false) → s.starved prio = true → victim (s.victims prio) = some w →
    exec (.preemptTimerExpiry prio) s = .next (s.startPreempt w false)) ∧
  (∀ (s : State) (w : Workgroup) (fixed : Bool), ∀ b ∈ (s.startPreempt w fixed).bands, b.wg ∈ (s.together w).map Workgroup.uid → b.stopping = true)

/-! ## Frames, parking and the register aperture -/

/-- Frames spill and refill, and a deadlocked quadrant parks a band: WindowTransferResults, ParkingResults. -/
def Obligations.WindowAndParkingResults : Prop := WindowTransferResults ∧ ParkingResults

/-- R130, R160: a lane of a load reads its register of the target band, and a lane of a store writes it, between two of the target's clauses and in the order of
the issuing band's accesses. The access to a register that has been spilled is a plain one to the place where it lies (R120), in order with
the others of its band and core there. -/
def Obligations.ApertureResults : Prop :=
  (∀ (s : State) (o : Op) (x : Access) (lane i : Nat) (a : AtomAcc) (l : LaneAcc), s.op? o.uid = some o → o.kind = .load x →
    x.laneAtom lane = some (i, a, l) → s.kindOf (l.pas.headD 0) = .aperture → s.orderFree o x a false = true → s.apOpen (l.pas.headD 0) false = true →
    let pa := l.pas.headD 0
    let got := fun (d : BitVec 256) (bad : Bool) => x.setAtom i { a with data := mergeAtom a.data d a.mask, done := true, bad := bad }
    (s.apRam pa = none →
      let y := got (BitVec.ofNat 256 (s.apRead pa x.width) <<< (8 * (pa % 32))) a.bad
      exec (.apertureAccess o.uid lane) s = .next ((s.setOp { o with kind := .load y }).acquireOf o y)) ∧
    ∀ q cc, s.apRam pa = some (q, cc) →
      let r := a.redirected pa q cc x.width
      let free := s.redirectFree o x r (x.usesL1 r (s.heldBy o.place.core (s.viewOf o.launch o.run r.pa)))
      let w := s.ramRead o x r
      let y := got (BitVec.ofNat 256 (w.1.toNat / 256 ^ (q % 32) % 256 ^ x.width * 256 ^ (pa % 32))) (!w.2.1)
      (free = false → exec (.apertureAccess o.uid lane) s = .next s) ∧
      (free = true → exec (.apertureAccess o.uid lane) s = .next ((w.2.2.setOp { o with kind := .load y }).acquireOf o y))) ∧
  (∀ (s : State) (o : Op) (x : Access) (lane i : Nat) (a : AtomAcc) (l : LaneAcc), s.op? o.uid = some o → o.kind = .store x →
    x.laneAtom lane = some (i, a, l) → s.kindOf (l.pas.headD 0) = .aperture → s.orderFree o x a false = true → s.apOpen (l.pas.headD 0) true = true →
    let pa := l.pas.headD 0
    let y := x.setAtom i { a with done := true }
    let finish := fun (t : State) => ((t.setOp { o with kind := .store y }).acquireOf o y).endStore o y
    (s.apRam pa = none → exec (.apertureStoreDelivery o.uid lane) s =
      .next (finish (s.apWrite pa ((List.range x.width).map fun k => byteOf a.data.toNat (pa % 32 + k))))) ∧
    ∀ q cc, s.apRam pa = some (q, cc) →
      let r := a.redirected pa q cc x.width
      (s.redirectFree o x r false = false → exec (.apertureStoreDelivery o.uid lane) s = .next s) ∧
      (s.redirectFree o x r false = true → exec (.apertureStoreDelivery o.uid lane) s =
        .next (finish (s.coreStore o.place.core o.launch o.run (x.usesL1 r true) r.pa r.mask r.data)))) ∧
  (∀ (s : State) (pa : Nat) (b : Band), s.apBand pa = some b → s.apOpen pa true = true → s.apRedirect b pa = none →
    b.parked = true ∨ b.atHeader = true)

/-! ## Registers and the host -/

/-- MFSR, MTSR and the writes of registers with their effects: RegisterWordResults, RegisterEventResults. -/
def Obligations.RegisterResults : Prop := RegisterWordResults ∧ RegisterEventResults

/-- R400, R401: the host's commands, each of them with the result that it leaves: 0 when it was done, 1 where there is no such launch, 2 where PLACE names no
band in the state it asks, 3 when it is malformed. CANCEL reaches records that have not been read, which it reads in their order (R51). Result 0
of a CANCEL on an empty queue, and of an identifier's launches the first active one for PREEMPT, are the model's readings (DEDUCED, log 25).
A trap is delivered, or, where its launch is being killed, joins the kill (R376). -/
def Obligations.HostCommandResults : Prop :=
  (∀ (s : State), s.hcmd = some 1 →
    (∀ l, ((s.readOf s.cmdQueue).find? fun l => l.lr.lid.toNat == s.cmdLid) = some l →
      exec .hcmdCancelLaunch s = .next (commandDone (if l.isActive then s.decideKill l.uid .cancelled else s.refuse l 0x0B) 0)) ∧
    ((∀ l ∈ s.readOf s.cmdQueue, l.lr.lid.toNat ≠ s.cmdLid) →
      let t := s.touchRecords s.cmdQueue s.cmdLid (s.unreadOf s.cmdQueue)
      (∀ i, ((s.unreadOf s.cmdQueue).find? fun i => s.recordLid s.cmdQueue i == s.cmdLid) = some i →
        exec .hcmdCancelLaunch s = .next (commandDone (t.cancelUnread s.cmdQueue [i]) 0)) ∧
      ((∀ i ∈ s.unreadOf s.cmdQueue, s.recordLid s.cmdQueue i ≠ s.cmdLid) → exec .hcmdCancelLaunch s = .next (commandDone t 1)))) ∧
  (∀ (s : State), s.hcmd = some 2 → exec .hcmdCancelQueue s =
    .next (commandDone (((s.readOf s.cmdQueue).foldl State.cancel s).cancelUnread s.cmdQueue (s.unreadOf s.cmdQueue)) 0)) ∧
  (∀ (s : State), s.hcmd = some 3 →
    ((∀ l ∈ s.launches, l.lr.lid.toNat = s.cmdLid → l.isActive = false) → exec .hcmdPreemptLaunch s = .next (commandDone s 1)) ∧
    (∀ l, (s.launches.find? fun l => l.lr.lid.toNat == s.cmdLid && l.isActive) = some l →
      exec .hcmdPreemptLaunch s = .next (commandDone ((s.wgs.filter fun w => w.launch == l.uid && w.resident && !w.exited && !w.preempting).foldl
        (fun s w => s.startPreempt w (l.lr.rply == 2)) s) 0))) ∧
  (∀ (s : State) (b : Band), s.cmdBand = some b →
    (s.hcmd = some 4 → exec .hcmdResumeHalted s =
      .next (if b.halted then commandDone (s.setBand { b with halted := false, held := false }) 0 else commandDone s 2)) ∧
    (s.hcmd = some 5 → exec .hcmdKillLaunch s =
      .next (if b.halted || b.suspended then commandDone (s.decideKill b.launch .host) 0 else commandDone s 2)) ∧
    (∀ t, s.hcmd = some 6 → b.suspended = true → b.trap = some t → exec .hcmdResumeSuspended s = .next (commandDone (s.setBand (b.unsuspend t)) 0)) ∧
    (∀ t, s.hcmd = some 7 → b.suspended = true → b.trap = some t →
      (s.beingKilled b.launch = false → exec .hcmdDeliverTrap s = .next (commandDone (s.enterTrap { b with suspended := false } t) 0)) ∧
      (s.beingKilled b.launch = true →
        let c := { b with suspended := false, trap := none }
        exec .hcmdDeliverTrap s = .next (commandDone ((s.setBand c).deliverInKill c t) 0))) ∧
    (b.suspended = false → (s.hcmd = some 6 → exec .hcmdResumeSuspended s = .next (commandDone s 2)) ∧
      (s.hcmd = some 7 → exec .hcmdDeliverTrap s = .next (commandDone s 2)))) ∧
  (∀ (s : State), s.cmdBand = none →
    (s.hcmd = some 4 → exec .hcmdResumeHalted s = .next (commandDone s 2)) ∧ (s.hcmd = some 5 → exec .hcmdKillLaunch s = .next (commandDone s 2)) ∧
    (s.hcmd = some 6 → exec .hcmdResumeSuspended s = .next (commandDone s 2)) ∧ (s.hcmd = some 7 → exec .hcmdDeliverTrap s = .next (commandDone s 2))) ∧
  (∀ (s : State) (op : Nat), s.hcmd = some op → (op = 0 ∨ 8 ≤ op → exec .hcmdMalformed s = .next (commandDone s 3)) ∧
    (1 ≤ op → op < 8 → exec .hcmdMalformed s = .next s))

/-- R394, R395: a host read of a device register answers with its bytes; a write stores them; a read of RAM through BAR2 answers with what lies
there, secure memory reading as zeros, and a plain write stores its bytes. An atomic request (FetchAdd, Swap, CAS) of 4 or 8 bytes, a CAS
also of 16, aligned, answers with the old value and leaves the new one where it has one: their forms are the model's own, as is that BAR
registers stand in configuration space from 0x10 on (PRESUMED, log 24). BAR4 is the storage window (R396). -/
def Obligations.InboundAccessResults : Prop :=
  (∀ (s : State) (a : PcieAccess), a.size ≠ 0 → a.space = .bar0 → a.off + a.size ≤ 2 ^ 32 →
    let old := s.devRead a.off a.size false
    let put := fun (x : Nat) => s.devStore ((List.range a.size).map fun i => (a.off + i, byteOf x i)) false
    (a.kind = .read → exec (.pcieInboundAccess a) s = .next (s.send (.pcieData (some old)))) ∧
    (a.kind = .write → exec (.pcieInboundAccess a) s = .next (put a.data)) ∧
    (∀ x, PcieKind.newValue a.kind a.size a.data old = some x → PcieKind.atomicForm a.kind a.size a.off = true →
      exec (.pcieInboundAccess a) s = .next ((put x).send (.pcieData (some old))))) ∧
  (∀ (s : State) (a : PcieAccess), a.size ≠ 0 → a.space = .bar2 → a.off + a.size ≤ 2 ^ 36 →
    let base := fld (s.num 0x2010) 51 36 * 2 ^ 36 + a.off
    let pas := (List.range a.size).map fun i => base + i
    (∀ p ∈ pas, s.kindOf p = .ram) →
    let old := leNat (pas.map s.outsideByte)
    let put := fun (x : Nat) => s.outsideWrite (pas.zipIdx.map fun y => (y.1, byteOf x y.2))
    (a.kind = .write → exec (.pcieInboundAccess a) s = .next (put a.data)) ∧
    (a.kind = .read → exec (.pcieInboundAccess a) s = .next ((s.outsideRefused pas).send (.pcieData (some old)))) ∧
    (∀ x, PcieKind.newValue a.kind a.size a.data old = some x → PcieKind.atomicForm a.kind a.size base = true →
      (∀ p ∈ pas, s.inSecure p = false) → exec (.pcieInboundAccess a) s = .next ((put x).send (.pcieData (some old)))) ∧
    (a.kind = .swap → a.size = 4 ∨ a.size = 8 → base % a.size = 0 → (∀ p ∈ pas, s.inSecure p = false) →
      exec (.pcieInboundAccess a) s = .next ((put a.data).send (.pcieData (some old))))) ∧
  (∀ (s : State) (a : PcieAccess), a.size ≠ 0 → a.space = .bar4 → a.off + a.size ≤ 2 ^ 35 →
    exec (.pcieInboundAccess a) s = exec (.storageWindowAccess a.kind a.off a.size a.data) s) ∧
  (∀ (s : State) (k : Nat), k < 6 →
    exec (.pcieInboundAccess ⟨.config, .read, 0x10 + 4 * k, 4, 0⟩) s = .next ((s.tick 1).send (.pcieData (some (s.barReg k).toNat)))) ∧
  (∀ (s : State) (pa : Nat), s.inSecure pa = true → s.outsideByte pa = 0)

/-- Reset, boot, bring-up, attestation and temperature: BootResults, AttestationAndThermalResults. -/
def Obligations.BootAndTelemetryResults : Prop := BootResults ∧ AttestationAndThermalResults

/-! ## Words, steps and the form of the data -/

/-- R168, R175, R178, R183: decoding the words of a well-formed instruction gives the instruction, every operand and field with it, and leaves the words
that follow. -/
def Obligations.DecodeOfEncode : Prop :=
  ∀ (i : Instr) (rest : List W32), i.wellFormed = true → i.hasWord = true → decode (encode i ++ rest) = .ok (i, rest)

/-- R168, R175, R177, R183: a word that decodes is the encoding of what it decodes to: no bit of a word is dropped, and no two words are one
instruction. -/
def Obligations.EncodeOfDecode : Prop :=
  ∀ (ws : List W32) (i : Instr) (rest : List W32), decode ws = .ok (i, rest) → encode i ++ rest = ws ∧ i.hasWord = true

/-- R175, R176, R178, R183: words written out from the opcode table and the entries. -/
def Obligations.EncodedWords : Prop :=
  decodeTableWord 32 0x204142D5 = some (.sadd (.s 1) (.s 2) (.int 21)) ∧
  decodeTableWord 32 0x0A43FFF9 = some (.loop (.s 3) 0xFFF9) ∧
  decodeTableWord 32 0x07100003 = some (.call 16 3) ∧
  decodeTableWord 64 0x3FC000007207B0B2 = some (.fmul (.v 7) .lat (.lit 0x3FC00000)) ∧
  decodeTableWord 32 0xC4453000 = some (.ator (.s 5) (memRefOf 0xC4453000)) ∧
  decodeTableWord 32 0xFB000000 = some .halt ∧
  decodeTableWord 32 0x0000 = some .nop ∧
  decodeTableWord 32 0x60000000 = none

/-- R335, R173, R177: the turn of a band that its quadrant's scheduler serves runs the instruction that its clause's words decode to, at the
band's place; a band with no clause fetches one; words that decode to nothing are refused; the turn of a band that is not served passes. The
turn of an event runs the event; and with nothing to come the first event that is due happens, else the band that has been ready longest of those
served has the turn. What issues or happens leaves the bands that it made ready noted, and held ones tried again; a band that stays at its word
leaves nothing else. The agenda's turns, own events before the oldest ready band of the whole package, and words tried again after any event
are the model's choice (DESIGN CHOICE, log 1). -/
def Obligations.StepRunsDecodedInstruction : Prop :=
  (∀ (s : State) (e : Nat) (p : Place) (rest : List Turn), s.agenda = ⟨e, .issue p⟩ :: rest →
    let t := (({ s with agenda := rest } : State).elapse (1 + e)).arrive
    let u : State := { t with cur := p, upset := 0 }
    (t.mayIssue p = false → step s = settle (.next t)) ∧
    ∀ b, t.bandAt p = some b → t.mayIssue p = true →
      (∀ v, b.clause = none → exec .clauseFetch u = .next v → step s = settle (afterIssue p t (.next { v with upset := 0 }))) ∧
      (∀ (v : State) (c : Clause) (i : Instr) (more : List W32), b.clause = some c → decode (c.from b.hdr b.pc) = .ok (i, more) →
        exec i u = .next v → step s = settle (afterIssue p t (.next { v with upset := 0 }))) ∧
      (∀ (c : Clause) (w : W32) (more : List W32) (x : DecodeError), b.clause = some c → c.from b.hdr b.pc = w :: more →
        decode (w :: more) = .error x → step s = settle (afterIssue p t (.next { refuseWord w u with upset := 0 })))) ∧
  (∀ (s : State) (e : Nat) (i : Instr) (rest : List Turn), s.agenda = ⟨e, .event i⟩ :: rest →
    let t := (({ s with agenda := rest } : State).elapse (1 + e)).arrive
    step s = settle (after t (exec i (t.carry i)))) ∧
  (∀ (s : State), s.agenda = [] →
    let t := (s.elapse 1).arrive
    (∀ f, t.ownEvents.find? t.due = some f → step s = settle (after t (f t))) ∧
    (∀ b, (∀ f ∈ t.ownEvents, t.due f = false) → oldest (t.bands.filter fun b => t.bandReady b && t.mayIssue b.place) = some b →
      step s = settle (run (.issue b.place) t))) ∧
  (∀ (t : State), t.stray = none → settle (.next t) = .next t) ∧
  (∀ (t v : State) (p : Place) (b : Band), v.bandAt p = some b →
    (b.keptBack = true → afterIssue p t (.next v) = .next v) ∧
    (b.keptBack = false → afterIssue p t (.next v) =
      .next (t.noteReady (if (t.bandAt p).any (fun c => c.clause.isNone) then v else v.noteIssue p)).release))

/-- R39: a step that reached an unpopulated address stops with it (DEDUCED, log 4), and one that did not goes on: no instruction and no event ends in another
stop. -/
def Obligations.StopsOnlyAtUnpopulatedAddresses : Prop :=
  ∀ (s : State), (∃ t, step s = .next t ∧ t.stray = none) ∨ (∃ pa, step s = .fault (.unpopulated pa))

/-- The data of a state in canonical form stay in it, whatever the step. -/
def Obligations.StepKeepsForm : Prop :=
  ∀ (s t : State), s.wf = true → step s = .next t → t.wf = true

/-- The state after reset has its data in canonical form. -/
def Obligations.ResetHasForm : Prop := State.reset.wf = true

/-- R2: bytes of RAM, of the local stores and of registers read as they were last written and as they were where nothing was written; the
form is kept, and two memories in the form that read alike are equal. -/
def Obligations.MemoryReadsBack : Prop :=
  (∀ (s : State) (pa n x c : Nat), Mem.wf s.mem = true → Mem.wf (s.ramStore pa n x).mem = true ∧
    Mem.get (s.ramStore pa n x).mem c = if pa ≤ c ∧ c < pa + n then byteOf x (c - pa) else Mem.get s.mem c) ∧
  (∀ (s : State) (key k : Nat) (y : Byte), Mem.wf s.ls = true → Mem.wf (s.setLs key y).ls = true ∧
    (s.setLs key y).lsByte k = if k = key then y else s.lsByte k) ∧
  (∀ (s : State) (a b : Nat) (v : W64), regsWf s.regs = true → regsWf (s.setReg a v).regs = true ∧
    (s.setReg a v).reg b = if b = a then v else s.reg b) ∧
  (∀ (m n : List Host.Cell), Mem.wf m = true → Mem.wf n = true → (∀ a, Mem.get m a = Mem.get n a) → m = n)

/-- R4, R124, R358: reset clears the g registers and the sc clocks, no band and no launch is there, and a register holds the reset value of
its field map. Where the spec gives a register no reset value, the map's is the model's choice: CAPCORE, CAPMEM, CAPLINK, CAPHBM and what
else starts empty (log 3), LNKFLIT (log 15), the MSI-X table (PRESUMED, log 22). -/
def Obligations.ResetState : Prop :=
  State.reset.gregs = [] ∧ (∀ k, clockOf State.reset.scClock k = 0 ∧ clockOf State.reset.chClock k = 0) ∧
  State.reset.bands = [] ∧ State.reset.launches = [] ∧ State.reset.ops = [] ∧ State.reset.cycle = 0 ∧
  (∀ off r, regSpec off = some r → State.reset.reg off = r.reset) ∧
  fld (State.reset.num 0x2000) 63 62 = 0 ∧ (∀ n, n < 64 → (State.reset.num n).getLsbD 63 = false ∧ (State.reset.num n).getLsbD 62 = false) ∧
  (∀ u, u ≤ 11 ∨ (16 ≤ u ∧ u ≤ 25) → fld (State.reset.celogCtl u) 55 32 = 3600000) ∧
  (∀ c, c < 240 → State.reset.manual c = true)

/-! ## What a word leaves as it is -/

/-- The frame of the words whose next state puts one scalar or address register (ScalarResults and its like): no memory, special register,
operation or other band changes, and of the band no register but the destination, no flag and no status. -/
def Obligations.ScalarResultFrame : Prop :=
  ∀ (i : Instr) (b : Band) (d : Opnd) (x : W64) (s : State),
    let t := past i b s (put b d x (acting b s))
    onlyBand b s t ∧ ∀ c ∈ t.bands, c.uid = b.uid →
      c.v = b.v ∧ c.o = b.o ∧ c.m = b.m ∧ c.b = b.b ∧ c.f = b.f ∧ c.mode = b.mode ∧ c.fps = b.fps ∧ c.frames = b.frames ∧ c.srseq = b.srseq ∧
      c.lat = b.lat ∧ c.inHandler = b.inHandler ∧ c.privileged = b.privileged ∧
      (∀ k : Fin 64, c.sName k.val = if d = .s k then .ofVal x else b.sName k.val) ∧
      (∀ k : Fin 16, c.a[k] = if d = .a k then x else b.a[k])

/-- The frame of the vector words: nothing but the destination register, or pair, in its enabled lanes, and lat, which only a vector ALU word
of one register writes (R148). -/
def Obligations.VectorResultFrame : Prop :=
  ∀ (i : Instr) (b : Band) (typ : Nat) (d : Opnd) (g : Nat → Nat) (lanes : W32) (alu : Bool) (s : State),
    let t := past i b s (vput b typ d g lanes alu (acting b s))
    onlyBand b s t ∧ ∀ c ∈ t.bands, c.uid = b.uid →
      c.s = b.s ∧ c.a = b.a ∧ c.m = b.m ∧ c.b = b.b ∧ c.f = b.f ∧ c.mode = b.mode ∧ c.fps = b.fps ∧ c.frames = b.frames ∧ c.srseq = b.srseq ∧
      c.inHandler = b.inHandler ∧ c.privileged = b.privileged ∧ (alu = false ∨ typeBits typ = 64 → c.lat = b.lat) ∧
      (∀ k : Fin 64, (∀ n : Fin 64, d = .v n → k ≠ n ∧ (typeBits typ = 64 → k.val ≠ n.val + 1)) → c.vName k.val = b.vName k.val) ∧
      (∀ k : Fin 8, (∀ n : Fin 8, d = .o n → k ≠ n ∧ (typeBits typ = 64 → k.val ≠ n.val + 1)) → c.o[k] = b.o[k]) ∧
      (∀ l, l < 32 → lanes.getLsbD l = false →
        (∀ k : Fin 64, (c.vName k.val).val.lane l = (b.vName k.val).val.lane l) ∧ ∀ k : Fin 8, c.o[k].lane l = b.o[k].lane l) ∧
      (∀ n : Fin 64, d = .v n → c.o = b.o) ∧ (∀ n : Fin 8, d = .o n → c.v = b.v) ∧
      ((∀ n : Fin 64, d ≠ .v n) → (∀ n : Fin 8, d ≠ .o n) → c.lat = b.lat)

/-- The frame of the results that land later: nothing but the destination of the operation's band, in the lanes that the result has, and a
window's frames keep all but the hidden registers that await it. -/
def Obligations.LandingFrame : Prop :=
  ∀ (s : State) (o : Op) (d : Dest) (v : ArithVal) (b : Band), s.band? o.band = some b →
    let t := s.landDest o d v
    t = { s with bands := t.bands } ∧ (∀ c ∈ t.bands, c.uid ≠ o.band → c ∈ s.bands) ∧
    ∃ c, t.band? o.band = some c ∧ c.b = b.b ∧ c.f = b.f ∧ c.mode = b.mode ∧ c.fps = b.fps ∧ c.pc = b.pc ∧ c.hdr = b.hdr ∧ c.lat = b.lat ∧
      c.srseq = b.srseq ∧ c.sig = b.sig ∧ c.inHandler = b.inHandler ∧ c.privileged = b.privileged ∧ c.winFault = b.winFault ∧
      ((∀ n, d ≠ .a n) → c.a = b.a) ∧ ((∀ n, d ≠ .m n) → c.m = b.m) ∧ ((∀ n p, d ≠ .o n p) → c.o = b.o) ∧
      (∀ (n : Nat) (k : Fin 16), d = .a n → k.val ≠ n → c.a[k] = b.a[k]) ∧
      (∀ (n : Nat) (k : Fin 16), d = .m n → k.val ≠ n → c.m[k] = b.m[k]) ∧
      (∀ (n : Nat) (p : Bool) (k : Fin 8), d = .o n p → k.val ≠ n → (p = true → k.val ≠ n + 1) → c.o[k] = b.o[k]) ∧
      (∀ (lo hi : VReg) (lanes : W32) (l : Nat), v = .vec lo hi lanes → l < 32 → lanes.getLsbD l = false →
        (∀ k : Fin 64, (c.vName k.val).val.lane l = (b.vName k.val).val.lane l) ∧ ∀ k : Fin 8, c.o[k].lane l = b.o[k].lane l) ∧
      (d ≠ .tagS → d ≠ .tagS2 → c.s = b.s) ∧ ((∀ p, d ≠ .tagV p) → d ≠ .tagBlock → c.v = b.v) ∧
      (∀ n, (∀ k, (b.vName n).pend ≠ some ⟨o.uid, k⟩) → c.vName n = b.vName n) ∧
      (∀ n, (∀ k, (b.sName n).pend ≠ some ⟨o.uid, k⟩) → c.sName n = b.sName n) ∧
      c.frames.length = b.frames.length ∧ ∀ (i : Nat) (f : Frame), b.frames[i]? = some f → ∃ h, c.frames[i]? = some h ∧
        h.retpc = f.retpc ∧ h.slide = f.slide ∧ h.loc = f.loc ∧ h.hv.length = f.hv.length ∧ h.hs.length = f.hs.length ∧
        (∀ (n : Nat) (x : VName), f.hv[n]? = some x → (∀ k, x.pend ≠ some ⟨o.uid, k⟩) → h.hv[n]? = some x) ∧
        (∀ (n : Nat) (x : SName), f.hs[n]? = some x → (∀ k, x.pend ≠ some ⟨o.uid, k⟩) → h.hs[n]? = some x)

/-- The frame of memory accesses, of every class and of launches with armed granules: a store's atom performed at its home changes what the bytes
that its mask enables read as and no other byte of memory, and one performed in the L1, which its core's region gives it, none but those that
a replaced line's write-back writes; an atomic changes none outside its atom; a load changes none but by such a write-back. The copy of an
armed granule (R379) changes one frame of the launch's pool and its entry, and a line's write-back its dirty bytes. There is no error to
correct in what is read, whose report would be a store of its own (R52); s has the errors that the event is the first to find (log 5). The
atoms of accesses lie at multiples of 32. -/
def Obligations.MemoryFrame : Prop :=
  (∀ (s₀ s : State) (es : List SymErr) (o : Op) (x : Access) (i : Nat) (a : AtomAcc), s₀.strikes es = s → s.op? o.uid = some o → o.kind = .store x →
    x.atoms[i]? = some a → a.done = false → a.mask ≠ 0 → s.orderFree o x a false = true → s.coreFree o (s.viewOf o.launch o.run a.pa) = true →
    s.kindOf (s.viewOf o.launch o.run a.pa) = .ram →
    let core := o.place.core
    let held := s.heldBy core (s.viewOf o.launch o.run a.pa)
    (held && x.usesL1 a true = false →
      let f := if held then s.flushLine core (s.viewOf o.launch o.run a.pa / 128) else s
      let m := f.armWrite o.launch o.run a.pa
      let pa := m.viewOf o.launch o.run a.pa
      Mem.wf m.mem = true → pa % 32 = 0 → m.readOut pa = .ok → (∀ q ∈ m.checked pa, ∀ e ∈ m.errs, e.atom ≠ q) →
      ∃ t, exec (.atomWritePerformed o.uid i es) s₀ = .next t ∧ ∀ c, t.seen c =
        if pa ≤ c ∧ c < pa + 32 ∧ a.mask.getLsbD (c - pa) = true then byteOf a.data.toNat (c - pa) else m.seen c) ∧
    (held && x.usesL1 a true = true →
      let m := s.armWrite o.launch o.run a.pa
      ∃ t, exec (.atomWritePerformed o.uid i es) s₀ = .next t ∧
        ((∀ c, t.seen c = m.seen c) ∨ ∃ v, ∀ c, t.seen c = (m.flushLine core v).seen c))) ∧
  (∀ (s₀ s : State) (es : List SymErr) (o : Op) (k : AtomKind) (x : Access) (ls : List AtomLane) (sat : Bool) (fps : BitVec 6) (i : Nat) (a : AtomAcc),
    s₀.strikes es = s → s.op? o.uid = some o → o.kind = .atomic k x ls sat fps → x.atoms[i]? = some a →
    s.kindOf (s.viewOf o.launch o.run a.pa) = .ram →
    let pa₀ := s.viewOf o.launch o.run a.pa
    let f := if s.heldBy o.place.core pa₀ then s.flushLine o.place.core (pa₀ / 128) else s
    let m := f.armWrite o.launch o.run a.pa
    let pa := m.viewOf o.launch o.run a.pa
    f.readOut pa₀ = .ok → (∀ q ∈ f.checked pa₀, ∀ e ∈ f.errs, e.atom ≠ q) →
    Mem.wf m.mem = true → pa % 32 = 0 → m.readOut pa = .ok → (∀ q ∈ m.checked pa, ∀ e ∈ m.errs, e.atom ≠ q) →
    ∃ t, exec (.atomicPerformed o.uid i es) s₀ = .next t ∧
      (t = s ∨ (∀ c, t.seen c = f.seen c) ∨ ∀ c, c < pa ∨ pa + 32 ≤ c → t.seen c = m.seen c)) ∧
  (∀ (s₀ s : State) (es : List SymErr) (o : Op) (x : Access) (i : Nat) (a : AtomAcc) (ext : BitVec 256), s₀.strikes es = s → s.errs = [] →
    s.op? o.uid = some o → o.kind = .load x → x.atoms[i]? = some a → s.kindOf (s.viewOf o.launch o.run a.pa) = .ram →
    let core := o.place.core
    let pa := s.viewOf o.launch o.run a.pa
    let l1 := x.usesL1 a (s.heldBy core pa)
    let f := if s.heldBy core pa && !l1 then s.flushLine core (pa / 128) else s
    f.readOut pa = .ok →
    ∃ t, exec (.atomReadPerformed o.uid i es ext) s₀ = .next t ∧ (l1 = false → t = s ∨ t.mem = f.mem) ∧
      (l1 = true → (∀ c, t.seen c = s.seen c) ∨ ∃ v, ∀ c, t.seen c = (s.flushLine core v).seen c)) ∧
  (∀ (s : State) (u run pa : Nat) (l : Launch), s.launch? u = some l →
    ((∀ g, l.granule? run pa = some g → g.armed = false) → s.armWrite u run pa = s) ∧
    ∀ g, l.granule? run pa = some g → g.armed = true →
      (l.poolN ≤ l.poolNext → (s.armWrite u run pa).mem = s.mem) ∧
      (l.poolNext < l.poolN → l.poolBase % 4096 = 0 → Mem.wf s.mem = true →
        let fr := l.poolBase + 4096 * l.poolNext
        let e := l.poolBase + 4096 * l.poolN + 8 * l.poolNext
        let k := s.copyPage g.pa fr
        k.readOut (e / 32 * 32) = .ok → (∀ q ∈ k.checked (e / 32 * 32), ∀ x ∈ k.errs, x.atom ≠ q) →
        ∀ c, (c < fr ∨ fr + 4096 ≤ c) → (c < e ∨ e + 8 ≤ c) → (s.armWrite u run pa).seen c = s.seen c)) ∧
  (∀ (s : State) (core line : Nat) (l : L1Line), s.line? core line = some l → Mem.wf s.mem = true → s.errs = [] →
    (∀ k, k < 4 → 128 * line + 32 * k ∉ s.poison ∧ (s.inSecure (128 * line + 32 * k) = true → 128 * line + 32 * k ∈ s.sealed)) →
    ∀ c, (s.flushLine core line).seen c =
      if c / 128 = line ∧ l.dirty.getLsbD (c % 128) = true then byteOf l.data.toNat (c % 128) else s.seen c) ∧
  (∀ (cells : List ((Nat × Nat) × Byte)), ∀ a ∈ atomsOf cells, a.pa % 32 = 0)

/-- R17, R20, R21, R27, R38: a finite value of a format, rounded to the format, is its own code, and exact; keys order the codes as their values, -0 below +0; values of the
6-bit and 4-bit tables. -/
def Obligations.FormatValues : Prop :=
  (∀ f ∈ [f64, f32, f16, bf16, e5m2, e4m3, e3m2, e2m3, e2m1], ∀ (c : Nat) (sat neg : Bool) (m : Nat) (e : Int), c < 2 ^ f.width →
    f.value c = .fin neg m e → roundNum f rne sat (f.value c) = (c, 0)) ∧
  (∀ f ∈ [f64, f32, f16, bf16, e5m2, e4m3, e3m2, e2m3, e2m1], ∀ c d : Nat, c < 2 ^ f.width → d < 2 ^ f.width → (f.value c).isNan = false →
    (f.value d).isNan = false → (fkey f c < fkey f d ↔ (f.value c).below (f.value d) = true)) ∧
  e3m2.value 0x1F = .fin false 7 2 ∧ e3m2.value 0x21 = .fin true 1 (-4) ∧ e2m3.value 0x1F = .fin false 15 (-1) ∧ e2m1.value 0x7 = .fin false 3 1

/-! ## Completion -/

/-- LDS, LDV, LDPAR, STS and STV complete: LoadsAndStoresComplete. -/
def Obligations.LoadAndStoreWordsComplete : Prop := LoadsAndStoresComplete

/-- The atomics, STM and PREF complete: AtomicsComplete, MirrorStoreCompletes, PrefetchReachesTheL1. -/
def Obligations.AtomicMirrorAndPrefetchWordsComplete : Prop := AtomicsComplete ∧ MirrorStoreCompletes ∧ PrefetchReachesTheL1

/-- The nine MMA words complete, and so do the executions of what they start: MmaWordsComplete, MmaExecutionCompletes. -/
def Obligations.MatrixWordsComplete : Prop := MmaWordsComplete ∧ MmaExecutionCompletes

/-- COPY, COPYM, MACK, STASH, YIELDC, CRS, GSGET, CSCAL, CAG, STEP and STEPRD complete: CopyWordCompletes, MulticastWordsComplete,
StashWordCompletes, YieldCompletes, ReduceAndNormWordsComplete, ScalarAndGatherWordsComplete, StepWordsComplete. -/
def Obligations.EngineAndCollectiveWordsComplete : Prop :=
  CopyWordCompletes ∧ MulticastWordsComplete ∧ StashWordCompletes ∧ YieldCompletes ∧ ReduceAndNormWordsComplete ∧
    ScalarAndGatherWordsComplete ∧ StepWordsComplete
end

