-- ==== Sys2Proof/Laws/Encoding.lean ====
section
/-! SUPPORT. Fields of words, operand codes and memory references read back; what a row of the opcode map gives for decoding. -/

namespace Sys2Proof
theorem field_lo {n m lo len : Nat} (a : BitVec n) (b : BitVec m) (h : lo + len ≤ m) :
    (a ++ b).extractLsb' lo len = b.extractLsb' lo len := by
  ext i hi
  simp only [BitVec.getElem_extractLsb', BitVec.getLsbD_append]
  split
  · rfl
  · omega

theorem field_hi {n m lo len : Nat} (a : BitVec n) (b : BitVec m) (h : m ≤ lo) :
    (a ++ b).extractLsb' lo len = a.extractLsb' (lo - m) len := by
  ext i hi
  simp only [BitVec.getElem_extractLsb', BitVec.getLsbD_append]
  split
  · omega
  · congr 1; omega

theorem field_all {n : Nat} (a : BitVec n) : a.extractLsb' 0 n = a := by
  ext i hi
  simp

theorem amodeOf_bits (m : AMode) : amodeOf m.bits = m := by cases m <;> rfl

theorem field16 {n lo len : Nat} (x : BitVec n) (z : BitVec 16) (h : lo + len ≤ 16) :
    (x ++ z).extractLsb' lo len = z.extractLsb' lo len := field_lo _ _ h

theorem memRefOf_bits (x y : BitVec 8) (m : MemRef) : memRefOf (x ++ y ++ m.bits) = m := by
  obtain ⟨a, am, b, i⟩ := m
  unfold memRefOf
  rw [field16 (x ++ y) _ (by decide), field16 (x ++ y) _ (by decide), field16 (x ++ y) _ (by decide), field16 (x ++ y) _ (by decide)]
  have e : MemRef.bits ⟨a, am, b, i⟩ = a ++ am.bits ++ b ++ i := rfl
  rw [e]
  simp (disch := decide) only [field_hi, field_lo, field_all, Nat.reduceSub, amodeOf_bits]

theorem memRefOf_bits6 (x : BitVec 8) (y : BitVec 6) (k : BitVec 2) (m : MemRef) : memRefOf (x ++ y ++ k ++ m.bits) = m := by
  obtain ⟨a, am, b, i⟩ := m
  unfold memRefOf
  rw [field16 (x ++ y ++ k) _ (by decide), field16 (x ++ y ++ k) _ (by decide), field16 (x ++ y ++ k) _ (by decide), field16 (x ++ y ++ k) _ (by decide)]
  have e : MemRef.bits ⟨a, am, b, i⟩ = a ++ am.bits ++ b ++ i := rfl
  rw [e]
  simp (disch := decide) only [field_hi, field_lo, field_all, Nat.reduceSub, amodeOf_bits]

theorem nibble_hi {w : W32} {x y : BitVec 4} (h : w.extractLsb' 24 8 = x ++ y) : w.extractLsb' 28 4 = x := by
  have : w.extractLsb' 28 4 = (w.extractLsb' 24 8).extractLsb' 4 4 := by
    ext i hi; simp [show 4 + i < 8 by omega, show 28 + i = 24 + (4 + i) by omega]
  rw [this, h]; exact (field_hi _ _ (by decide)).trans (field_all _)

theorem nibble_lo {w : W32} {x y : BitVec 4} (h : w.extractLsb' 24 8 = x ++ y) : w.extractLsb' 24 4 = y := by
  have : w.extractLsb' 24 4 = (w.extractLsb' 24 8).extractLsb' 0 4 := by ext i hi; simp [show i < 8 by omega]
  rw [this, h]; exact (field_lo _ _ (by decide)).trans (field_all _)
theorem row0 {l : W32} (w : W32) (k : Nat) (h : w.extractLsb' 24 8 = 0#4 ++ BitVec.ofNat 4 k) (hk : k < 16 := by decide) : rowOf w l = rows0 k w l := by
  have h1 : w.extractLsb' 28 4 = 0#4 := nibble_hi h
  have h2 : (w.extractLsb' 24 4).toNat = k := by rw [nibble_lo h]; exact Nat.mod_eq_of_lt hk
  unfold rowOf; rw [h1, h2]; rfl

theorem row1 {l : W32} (w : W32) (k : Nat) (h : w.extractLsb' 24 8 = 1#4 ++ BitVec.ofNat 4 k) (hk : k < 16 := by decide) : rowOf w l = rows1 k w l := by
  have h1 : w.extractLsb' 28 4 = 1#4 := nibble_hi h
  have h2 : (w.extractLsb' 24 4).toNat = k := by rw [nibble_lo h]; exact Nat.mod_eq_of_lt hk
  unfold rowOf; rw [h1, h2]; rfl

theorem row2 {l : W32} (w : W32) (k : Nat) (h : w.extractLsb' 24 8 = 2#4 ++ BitVec.ofNat 4 k) (hk : k < 16 := by decide) : rowOf w l = rows2 k w l := by
  have h1 : w.extractLsb' 28 4 = 2#4 := nibble_hi h
  have h2 : (w.extractLsb' 24 4).toNat = k := by rw [nibble_lo h]; exact Nat.mod_eq_of_lt hk
  unfold rowOf; rw [h1, h2]; rfl

theorem row3 {l : W32} (w : W32) (k : Nat) (h : w.extractLsb' 24 8 = 3#4 ++ BitVec.ofNat 4 k) (hk : k < 16 := by decide) : rowOf w l = rows3 k w l := by
  have h1 : w.extractLsb' 28 4 = 3#4 := nibble_hi h
  have h2 : (w.extractLsb' 24 4).toNat = k := by rw [nibble_lo h]; exact Nat.mod_eq_of_lt hk
  unfold rowOf; rw [h1, h2]; rfl

theorem row4 {l : W32} (w : W32) (k : Nat) (h : w.extractLsb' 24 8 = 4#4 ++ BitVec.ofNat 4 k) (hk : k < 16 := by decide) : rowOf w l = rows4 k w l := by
  have h1 : w.extractLsb' 28 4 = 4#4 := nibble_hi h
  have h2 : (w.extractLsb' 24 4).toNat = k := by rw [nibble_lo h]; exact Nat.mod_eq_of_lt hk
  unfold rowOf; rw [h1, h2]; rfl

theorem row5 {l : W32} (w : W32) (k : Nat) (h : w.extractLsb' 24 8 = 5#4 ++ BitVec.ofNat 4 k) (hk : k < 16 := by decide) : rowOf w l = rows5 k w l := by
  have h1 : w.extractLsb' 28 4 = 5#4 := nibble_hi h
  have h2 : (w.extractLsb' 24 4).toNat = k := by rw [nibble_lo h]; exact Nat.mod_eq_of_lt hk
  unfold rowOf; rw [h1, h2]; rfl

theorem row7 {l : W32} (w : W32) (k : Nat) (h : w.extractLsb' 24 8 = 7#4 ++ BitVec.ofNat 4 k) (hk : k < 16 := by decide) : rowOf w l = rows7 k w l := by
  have h1 : w.extractLsb' 28 4 = 7#4 := nibble_hi h
  have h2 : (w.extractLsb' 24 4).toNat = k := by rw [nibble_lo h]; exact Nat.mod_eq_of_lt hk
  unfold rowOf; rw [h1, h2]; rfl

theorem row8 {l : W32} (w : W32) (k : Nat) (h : w.extractLsb' 24 8 = 8#4 ++ BitVec.ofNat 4 k) (hk : k < 16 := by decide) : rowOf w l = rows8 k w l := by
  have h1 : w.extractLsb' 28 4 = 8#4 := nibble_hi h
  have h2 : (w.extractLsb' 24 4).toNat = k := by rw [nibble_lo h]; exact Nat.mod_eq_of_lt hk
  unfold rowOf; rw [h1, h2]; rfl

theorem rowA {l : W32} (w : W32) (k : Nat) (h : w.extractLsb' 24 8 = 10#4 ++ BitVec.ofNat 4 k) (hk : k < 16 := by decide) : rowOf w l = rowsA k w l := by
  have h1 : w.extractLsb' 28 4 = 10#4 := nibble_hi h
  have h2 : (w.extractLsb' 24 4).toNat = k := by rw [nibble_lo h]; exact Nat.mod_eq_of_lt hk
  unfold rowOf; rw [h1, h2]; rfl

theorem rowB {l : W32} (w : W32) (k : Nat) (h : w.extractLsb' 24 8 = 11#4 ++ BitVec.ofNat 4 k) (hk : k < 16 := by decide) : rowOf w l = rowsB k w l := by
  have h1 : w.extractLsb' 28 4 = 11#4 := nibble_hi h
  have h2 : (w.extractLsb' 24 4).toNat = k := by rw [nibble_lo h]; exact Nat.mod_eq_of_lt hk
  unfold rowOf; rw [h1, h2]; rfl

theorem rowC {l : W32} (w : W32) (k : Nat) (h : w.extractLsb' 24 8 = 12#4 ++ BitVec.ofNat 4 k) (hk : k < 16 := by decide) : rowOf w l = rowsC k w l := by
  have h1 : w.extractLsb' 28 4 = 12#4 := nibble_hi h
  have h2 : (w.extractLsb' 24 4).toNat = k := by rw [nibble_lo h]; exact Nat.mod_eq_of_lt hk
  unfold rowOf; rw [h1, h2]; rfl

theorem rowD {l : W32} (w : W32) (k : Nat) (h : w.extractLsb' 24 8 = 13#4 ++ BitVec.ofNat 4 k) (hk : k < 16 := by decide) : rowOf w l = rowsD k w l := by
  have h1 : w.extractLsb' 28 4 = 13#4 := nibble_hi h
  have h2 : (w.extractLsb' 24 4).toNat = k := by rw [nibble_lo h]; exact Nat.mod_eq_of_lt hk
  unfold rowOf; rw [h1, h2]; rfl

theorem rowE {l : W32} (w : W32) (k : Nat) (h : w.extractLsb' 24 8 = 14#4 ++ BitVec.ofNat 4 k) (hk : k < 16 := by decide) : rowOf w l = rowsE k w l := by
  have h1 : w.extractLsb' 28 4 = 14#4 := nibble_hi h
  have h2 : (w.extractLsb' 24 4).toNat = k := by rw [nibble_lo h]; exact Nat.mod_eq_of_lt hk
  unfold rowOf; rw [h1, h2]; rfl

theorem rowF {l : W32} (w : W32) (k : Nat) (h : w.extractLsb' 24 8 = 15#4 ++ BitVec.ofNat 4 k) (hk : k < 16 := by decide) : rowOf w l = rowsF k w l := by
  have h1 : w.extractLsb' 28 4 = 15#4 := nibble_hi h
  have h2 : (w.extractLsb' 24 4).toNat = k := by rw [nibble_lo h]; exact Nat.mod_eq_of_lt hk
  unfold rowOf; rw [h1, h2]; rfl


/-- An operand without a literal, its code read back, is no literal code. -/
def Opnd.readsBack (o : Opnd) : Bool := o.code != 0xB2 && opndOf o.code 0 == o

theorem readsBack_v : ∀ n, (Opnd.v n).readsBack = true := by decide
theorem readsBack_s : ∀ n, (Opnd.s n).readsBack = true := by decide
theorem readsBack_o : ∀ n, (Opnd.o n).readsBack = true := by decide
theorem readsBack_a : ∀ n, (Opnd.a n).readsBack = true := by decide
theorem readsBack_m : ∀ n, (Opnd.m n).readsBack = true := by decide
theorem readsBack_b : ∀ n, (Opnd.b n).readsBack = true := by decide
theorem readsBack_int : ∀ n, (Opnd.int n).readsBack = true := by decide
theorem readsBack_flt : ∀ n, (Opnd.flt n).readsBack = true := by decide
set_option maxRecDepth 20000 in
theorem readsBack_reserved : ∀ c : Fin 256, (Opnd.reserved ⟨c⟩).codeOk = true → (Opnd.reserved ⟨c⟩).readsBack = true := by decide

theorem Opnd.readsBack_of {o : Opnd} (h : o.codeOk = true) (hl : o.isLit = false) : o.readsBack = true := by
  cases o with
  | v n => exact readsBack_v n
  | s n => exact readsBack_s n
  | o n => exact readsBack_o n
  | a n => exact readsBack_a n
  | m n => exact readsBack_m n
  | b n => exact readsBack_b n
  | int n => exact readsBack_int n
  | flt n => exact readsBack_flt n
  | reserved c => exact readsBack_reserved c.toFin h
  | lit w => exact Bool.noConfusion (show true = false from hl)
  | lat | zero | lid => rfl

theorem opndOf_other {c : BitVec 8} (h : c ≠ 0xB2) (l : W32) : opndOf c l = opndOf c 0 := by
  have h : ¬ c.toNat = 178 := fun e => h (BitVec.eq_of_toNat_eq e)
  unfold opndOf
  simp only [h, if_false]

theorem opndOf_code {o : Opnd} (h : o.codeOk = true) {l : W32} (hl : ∀ w, o = .lit w → w = l) : opndOf o.code l = o := by
  cases ho : o.isLit with
  | true =>
    cases o with
    | lit w => rw [hl w rfl]; rfl
    | _ => exact Bool.noConfusion (show false = true from ho)
  | false =>
    have := Opnd.readsBack_of h ho
    simp only [Opnd.readsBack, Bool.and_eq_true, bne_iff_ne, beq_iff_eq] at this
    rw [opndOf_other this.1, this.2]

theorem filter_codes (os : List Opnd) (h : os.all Opnd.codeOk = true) : ((os.map Opnd.code).filter (· == 0xB2)).length = (litWords os).length := by
  induction os with
  | nil => rfl
  | cons o t ih =>
    simp only [List.all_cons, Bool.and_eq_true] at h
    have ih := ih h.2
    have key : (o.code == 0xB2) = o.isLit := by
      cases ho : o.isLit with
      | true => cases o <;> first | rfl | exact Bool.noConfusion (show false = true from ho)
      | false =>
        have := Opnd.readsBack_of h.1 ho
        simp only [Opnd.readsBack, Bool.and_eq_true, bne_iff_ne] at this
        simpa using this.1
    cases o <;> simp_all [litWords, Opnd.isLit]
theorem litWords_one (os : List Opnd) (w : W32) (h : litWords os = [w]) : ∀ v, Opnd.lit v ∈ os → v = w := by
  induction os with
  | nil => intro v hv; cases hv
  | cons o t ih =>
    intro v hv
    cases o with
    | lit x =>
      simp only [litWords, List.cons.injEq] at h
      rcases List.mem_cons.1 hv with e | e
      · injection e with e; rw [e, h.1]
      · exfalso
        have : ∀ (t : List Opnd), Opnd.lit v ∈ t → litWords t ≠ [] := by
          intro t; induction t with
          | nil => intro h; cases h
          | cons a t ih => intro h; cases a <;> simp_all [litWords]
        exact this t e h.2
    | _ => exact ih (by simpa [litWords] using h) v (by simpa using hv)
theorem litWords_nil (os : List Opnd) (h : litWords os = []) : ∀ v, Opnd.lit v ∉ os := by
  induction os with
  | nil => intro v hv; cases hv
  | cons o t ih => intro v hv; cases o <;> simp_all [litWords]
theorem litWords_length (os : List Opnd) : (litWords os).length = (os.filter Opnd.isLit).length := by
  induction os with
  | nil => rfl
  | cons o t ih => cases o <;> simp_all [litWords, Opnd.isLit, List.filter_cons]
theorem lit_of {w l : W32} (h : opndOf (Opnd.lit w).code l = .lit w) : l = w := by
  injection h

theorem of_row {i : Instr}
    (h : ∀ l, ∃ r, rowOf (encodeWord i) l = some r ∧ r.fixed = true ∧ r.codes = i.opnds.map Opnd.code ∧
      ((∀ o ∈ i.opnds, opndOf o.code l = o) → r.instr = i)) :
    i.hasWord = true → i.encodable = true → ∀ rest, decode (encode i ++ rest) = .ok (i, rest) := by
  intro _ he rest
  simp only [Instr.encodable, Bool.and_eq_true, oneLiteral, decide_eq_true_eq] at he
  obtain ⟨hc, h1⟩ := he
  have hn := filter_codes i.opnds hc
  rw [← litWords_length] at h1
  have hk : ∀ l, (∀ w, Opnd.lit w ∈ i.opnds → w = l) → ∀ o ∈ i.opnds, opndOf o.code l = o := by
    intro l hl o ho
    exact opndOf_code (List.all_eq_true.1 hc o ho) (fun w e => hl w (e ▸ ho))
  match hlw : litWords i.opnds, h1 with
  | [], _ =>
    obtain ⟨r, hr, hf, hcs, hi⟩ := h (rest.headD 0)
    have hi := hi (hk _ (fun w hw => absurd hw (litWords_nil _ hlw w)))
    simp only [encode, hlw, List.cons_append, List.nil_append, decode, hr, hf, hcs, hn, List.length_nil, hi]
    rfl
  | [w], _ =>
    obtain ⟨r, hr, hf, hcs, hi⟩ := h w
    have hi := hi (hk _ (litWords_one _ w hlw))
    simp only [encode, hlw, List.cons_append, List.nil_append, decode, List.headD_cons, hr, hf, hcs, hn, List.length_cons, List.length_nil, hi]
    rfl
end Sys2Proof
end

