-- ==== Sys2Proof/Laws/Mem.lean ====
section
/-! SUPPORT. The byte memories and the written registers: reads after writes, and the canonical form that every operation over them
keeps. -/

namespace Sys2Proof.Laws

open Sys2Proof Sys2Proof.Machine

/-! ## Cells -/

theorem above_mono {m : List Host.Cell} : ∀ {lo hi : Nat}, Mem.above hi m = true → lo ≤ hi → Mem.above lo m = true := by
  cases m with
  | nil => intros; rfl
  | cons c t =>
    obtain ⟨k, b⟩ := c
    intro lo hi h hl
    simp only [Mem.above, Bool.and_eq_true, decide_eq_true_eq] at h ⊢
    exact ⟨⟨by omega, h.1.2⟩, h.2⟩

/-- An address below every cell reads as zero. -/
theorem get_below {m : List Host.Cell} : ∀ {lo a : Nat}, Mem.above lo m = true → a < lo → Mem.get m a = 0 := by
  induction m with
  | nil => intros; rfl
  | cons c t ih =>
    obtain ⟨k, b⟩ := c
    intro lo a h hl
    simp only [Mem.above, Bool.and_eq_true, decide_eq_true_eq] at h
    rw [Mem.get, if_neg (by omega)]
    exact ih h.2 (by omega)

/-- Writing keeps every cell above a bound that the address meets. -/
theorem above_set {m : List Host.Cell} : ∀ {lo : Nat} (a : Nat) (x : Byte), Mem.above lo m = true → lo ≤ a →
    Mem.above lo (Mem.set m a x) = true := by
  induction m with
  | nil =>
    intro lo a x _ hl
    rw [Mem.set]
    by_cases hx : x = 0
    · rw [if_pos hx]; rfl
    · rw [if_neg hx]; simp only [Mem.above, Bool.and_true, Bool.and_eq_true, decide_eq_true_eq, bne_iff_ne]; exact ⟨hl, hx⟩
  | cons c t ih =>
    obtain ⟨k, b⟩ := c
    intro lo a x h hl
    have h' := h
    simp only [Mem.above, Bool.and_eq_true, decide_eq_true_eq, bne_iff_ne] at h'
    obtain ⟨⟨h1, h2⟩, h3⟩ := h'
    by_cases hk : k < a
    · rw [Mem.set, if_pos hk]
      simp only [Mem.above, Bool.and_eq_true, decide_eq_true_eq, bne_iff_ne]
      exact ⟨⟨h1, h2⟩, ih a x h3 (by omega)⟩
    · rw [Mem.set, if_neg hk]
      by_cases he : k = a
      · subst he
        rw [if_pos rfl]
        by_cases hx : x = 0
        · rw [if_pos hx]; exact above_mono h3 (by omega)
        · rw [if_neg hx]; simp only [Mem.above, Bool.and_eq_true, decide_eq_true_eq, bne_iff_ne]; exact ⟨⟨h1, hx⟩, h3⟩
      · rw [if_neg he]
        by_cases hx : x = 0
        · rw [if_pos hx]; exact h
        · rw [if_neg hx]
          simp only [Mem.above, Bool.and_eq_true, decide_eq_true_eq, bne_iff_ne]
          exact ⟨⟨hl, hx⟩, ⟨by omega, h2⟩, h3⟩

/-- What a byte reads as after one byte is written. -/
theorem get_set {m : List Host.Cell} : ∀ {lo : Nat} (a b : Nat) (x : Byte), Mem.above lo m = true →
    Mem.get (Mem.set m a x) b = if b = a then x else Mem.get m b := by
  induction m with
  | nil =>
    intro lo a b x _
    rw [Mem.set]
    by_cases hb : b = a
    · subst hb
      by_cases hx : x = 0
      · rw [if_pos hx, if_pos rfl, hx]; rfl
      · rw [if_neg hx, if_pos rfl, Mem.get, if_pos rfl]
    · rw [if_neg hb]
      by_cases hx : x = 0
      · rw [if_pos hx]
      · rw [if_neg hx]; simp only [Mem.get]; rw [if_neg (Ne.symm hb)]
  | cons c t ih =>
    obtain ⟨k, y⟩ := c
    intro lo a b x h
    simp only [Mem.above, Bool.and_eq_true, decide_eq_true_eq, bne_iff_ne] at h
    obtain ⟨⟨h1, h2⟩, h3⟩ := h
    have hz : ∀ {c}, c ≤ k → Mem.get t c = 0 := fun hc => get_below h3 (by omega)
    by_cases hk : k < a
    · rw [Mem.set, if_pos hk, Mem.get, Mem.get, ih a b x h3]
      by_cases hb : k = b
      · rw [if_pos hb, if_pos hb, if_neg (by omega)]
      · rw [if_neg hb, if_neg hb]
    · rw [Mem.set, if_neg hk]
      by_cases he : k = a
      · subst he
        rw [if_pos rfl]
        by_cases hb : b = k
        · subst hb
          rw [if_pos rfl]
          by_cases hx : x = 0
          · rw [if_pos hx, hz (Nat.le_refl _), hx]
          · rw [if_neg hx, Mem.get, if_pos rfl]
        · rw [if_neg hb, Mem.get, if_neg (Ne.symm hb)]
          by_cases hx : x = 0
          · rw [if_pos hx]
          · rw [if_neg hx, Mem.get, if_neg (Ne.symm hb)]
      · rw [if_neg he]
        by_cases hx : x = 0
        · rw [if_pos hx]
          by_cases hb : b = a
          · subst hb; rw [if_pos rfl, hx, Mem.get, if_neg he]; exact hz (by omega)
          · rw [if_neg hb]
        · rw [if_neg hx, Mem.get]
          by_cases hb : b = a
          · rw [if_pos hb.symm, if_pos hb]
          · rw [if_neg (Ne.symm hb), if_neg hb]

theorem set_wf {m : List Host.Cell} (h : Mem.wf m = true) (a : Nat) (x : Byte) : Mem.wf (Mem.set m a x) = true :=
  above_set a x h (Nat.zero_le _)

theorem get_set_wf {m : List Host.Cell} (h : Mem.wf m = true) (a b : Nat) (x : Byte) :
    Mem.get (Mem.set m a x) b = if b = a then x else Mem.get m b := get_set a b x h

theorem write_wf : ∀ (n : Nat) {m : List Host.Cell} (a x : Nat), Mem.wf m = true → Mem.wf (Mem.write m a n x) = true
  | 0, _, _, _, h => h
  | n + 1, _, a, x, h => write_wf n (a + 1) (x / 256) (set_wf h a _)

theorem writeBytes_wf : ∀ (bs : List Byte) {m : List Host.Cell} (a : Nat), Mem.wf m = true → Mem.wf (Mem.writeBytes m a bs) = true
  | [], _, _, h => h
  | b :: bs, _, a, h => writeBytes_wf bs (a + 1) (set_wf h a b)

/-- Writing nowhere near an address leaves it. -/
theorem get_write_other : ∀ (n : Nat) {m : List Host.Cell} (a x c : Nat), Mem.wf m = true → c < a ∨ a + n ≤ c →
    Mem.get (Mem.write m a n x) c = Mem.get m c
  | 0, _, _, _, _, _, _ => rfl
  | n + 1, m, a, x, c, h, hc => by
    rw [Mem.write, get_write_other n (a + 1) (x / 256) c (set_wf h a _) (by omega), get_set_wf h, if_neg (by omega)]

/-- The bytes written are the number's, in little-endian order (R2). -/
theorem get_write_same : ∀ (n : Nat) {m : List Host.Cell} (a x i : Nat), Mem.wf m = true → i < n →
    Mem.get (Mem.write m a n x) (a + i) = byteOf x i
  | 0, _, _, _, _, _, hi => absurd hi (Nat.not_lt_zero _)
  | n + 1, m, a, x, 0, h, _ => by
    rw [Mem.write, get_write_other n (a + 1) (x / 256) (a + 0) (set_wf h a _) (by omega), get_set_wf h]
    simp [byteOf]
  | n + 1, m, a, x, i + 1, h, hi => by
    rw [Mem.write, show a + (i + 1) = (a + 1) + i by omega, get_write_same n (a + 1) (x / 256) i (set_wf h a _) (by omega)]
    simp only [byteOf, Nat.pow_succ, Nat.div_div_eq_div_mul, Nat.mul_comm]

theorem foldl_set_wf {α : Type} (f : α → Nat × Byte) : ∀ (l : List α) {m : List Host.Cell}, Mem.wf m = true →
    Mem.wf (l.foldl (fun m c => Mem.set m (f c).1 (f c).2) m) = true
  | [], _, h => h
  | c :: l, _, h => foldl_set_wf f l (set_wf h _ _)

/-- Dropping cells keeps the form. -/
theorem above_filter (p : Host.Cell → Bool) : ∀ (m : List Host.Cell) {lo : Nat}, Mem.above lo m = true → Mem.above lo (m.filter p) = true
  | [], _, _ => rfl
  | (k, b) :: t, lo, h => by
    simp only [Mem.above, Bool.and_eq_true, decide_eq_true_eq, bne_iff_ne] at h
    rw [List.filter_cons]
    split
    · simp only [Mem.above, Bool.and_eq_true, decide_eq_true_eq, bne_iff_ne]; exact ⟨h.1, above_filter p t h.2⟩
    · exact above_mono (above_filter p t h.2) (by omega)

theorem filter_wf (p : Host.Cell → Bool) {m : List Host.Cell} (h : Mem.wf m = true) : Mem.wf (m.filter p) = true := above_filter p m h

/-! ## The registers -/

theorem regsAbove_mono {l : List (Nat × W64)} : ∀ {lo hi : Nat}, regsAbove hi l = true → lo ≤ hi → regsAbove lo l = true := by
  cases l with
  | nil => intros; rfl
  | cons c t =>
    obtain ⟨k, b⟩ := c
    intro lo hi h hl
    simp only [regsAbove, Bool.and_eq_true, decide_eq_true_eq] at h ⊢
    exact ⟨⟨by omega, h.1.2⟩, h.2⟩

theorem lookup_below {l : List (Nat × W64)} : ∀ {lo a : Nat}, regsAbove lo l = true → a < lo → lookupReg l a = none := by
  induction l with
  | nil => intros; rfl
  | cons c t ih =>
    obtain ⟨k, b⟩ := c
    intro lo a h hl
    simp only [regsAbove, Bool.and_eq_true, decide_eq_true_eq] at h
    rw [lookupReg, if_neg (by omega)]
    exact ih h.2 (by omega)

theorem assocPut_cons (k : Nat) (x : W64) (t : List (Nat × W64)) (a : Nat) (w : Option W64) : assocPut ((k, x) :: t) a w =
    if k < a then (k, x) :: assocPut t a w
    else if k = a then (match w with | some y => (a, y) :: t | none => t)
    else (match w with | some y => (a, y) :: (k, x) :: t | none => (k, x) :: t) := by cases w <;> rfl

theorem regsAbove_put {l : List (Nat × W64)} : ∀ {lo : Nat} (a : Nat) (w : W64), regsAbove lo l = true → lo ≤ a →
    regsAbove lo (assocPut l a (if w = resetOf a then none else some w)) = true := by
  induction l with
  | nil => intro lo a w _ hl; by_cases hx : w = resetOf a <;> simp [assocPut, regsAbove, hx, hl]
  | cons c t ih =>
    obtain ⟨k, b⟩ := c
    intro lo a w h hl
    have h' := h
    simp only [regsAbove, Bool.and_eq_true, decide_eq_true_eq, bne_iff_ne] at h'
    obtain ⟨⟨h1, h2⟩, h3⟩ := h'
    rw [assocPut_cons]
    by_cases hk : k < a
    · rw [if_pos hk]
      simp only [regsAbove, Bool.and_eq_true, decide_eq_true_eq, bne_iff_ne]
      exact ⟨⟨h1, h2⟩, ih a w h3 (by omega)⟩
    · rw [if_neg hk]
      by_cases he : k = a
      · subst he
        rw [if_pos rfl]
        by_cases hx : w = resetOf k
        · rw [if_pos hx]; exact regsAbove_mono h3 (by omega)
        · rw [if_neg hx]; simp [regsAbove, h1, hx, h3]
      · rw [if_neg he]
        by_cases hx : w = resetOf a
        · rw [if_pos hx]; exact h
        · rw [if_neg hx]
          simp only [regsAbove, Bool.and_eq_true, decide_eq_true_eq, bne_iff_ne]
          exact ⟨⟨hl, hx⟩, ⟨by omega, h2⟩, h3⟩

theorem lookup_put {l : List (Nat × W64)} : ∀ {lo : Nat} (a b : Nat) (o : Option W64), regsAbove lo l = true →
    lookupReg (assocPut l a o) b = if b = a then o else lookupReg l b := by
  induction l with
  | nil =>
    intro lo a b o _
    cases o with
    | none => by_cases hb : b = a <;> simp [assocPut, lookupReg, hb]
    | some w =>
      by_cases hb : b = a
      · subst hb; simp [assocPut, lookupReg]
      · simp [assocPut, lookupReg, hb, Ne.symm hb]
  | cons c t ih =>
    obtain ⟨k, y⟩ := c
    intro lo a b o h
    simp only [regsAbove, Bool.and_eq_true, decide_eq_true_eq, bne_iff_ne] at h
    obtain ⟨⟨h1, h2⟩, h3⟩ := h
    have hz : ∀ {c}, c ≤ k → lookupReg t c = none := fun hc => lookup_below h3 (by omega)
    rw [assocPut_cons]
    by_cases hk : k < a
    · rw [if_pos hk, lookupReg, lookupReg, ih a b o h3]
      by_cases hb : k = b
      · rw [if_pos hb, if_pos hb, if_neg (by omega)]
      · rw [if_neg hb, if_neg hb]
    · rw [if_neg hk]
      by_cases he : k = a
      · subst he
        rw [if_pos rfl]
        by_cases hb : b = k
        · subst hb
          rw [if_pos rfl]
          cases o with
          | none => exact hz (Nat.le_refl _)
          | some w => simp [lookupReg]
        · rw [if_neg hb, lookupReg, if_neg (Ne.symm hb)]
          cases o with
          | none => rfl
          | some w => simp only [lookupReg]; rw [if_neg (Ne.symm hb)]
      · rw [if_neg he]
        by_cases hb : b = a
        · subst hb
          rw [if_pos rfl]
          cases o with
          | none => simp only [lookupReg]; rw [if_neg he]; exact hz (by omega)
          | some w => simp [lookupReg]
        · rw [if_neg hb]
          cases o with
          | none => rfl
          | some w => simp only [lookupReg]; rw [if_neg (Ne.symm hb)]

theorem setReg_wf {s : State} (h : regsWf s.regs = true) (off : Nat) (w : W64) : regsWf (s.setReg off w).regs = true :=
  regsAbove_put off w h (Nat.zero_le _)

/-- A register holds what was written to it, and every other register what it held. -/
theorem reg_setReg {s : State} (h : regsWf s.regs = true) (a b : Nat) (w : W64) :
    (s.setReg a w).reg b = if b = a then w else s.reg b := by
  simp only [State.reg, State.setReg]
  rw [lookup_put a b _ h]
  by_cases hb : b = a
  · subst hb
    rw [if_pos rfl, if_pos rfl]
    by_cases hw : w = resetOf b
    · rw [if_pos hw, hw]; rfl
    · rw [if_neg hw]; rfl
  · rw [if_neg hb, if_neg hb]

theorem num_setNum {s : State} (h : regsWf s.regs = true) (a b : Nat) (w : W64) :
    (s.setNum a w).num b = if b = a then w else s.num b := by
  simp only [State.num, State.setNum]
  rw [reg_setReg h]
  by_cases hb : b = a
  · subst hb; simp
  · rw [if_neg hb, if_neg (by simp only [numOff]; omega)]

end Sys2Proof.Laws
end

