-- ==== Sys2Proof/Laws/State.lean ====
section
/-! SUPPORT. What the updates of a state leave as it is, field by field, so that no proof need open a record. -/

set_option Elab.async false

namespace Sys2Proof.Laws

open Sys2Proof Sys2Proof.Machine

/-! ### State.setBand -/

@[simp] theorem setBand_cycle (s : State) (b : Band) : (s.setBand b).cycle = s.cycle := rfl
@[simp] theorem setBand_mem (s : State) (b : Band) : (s.setBand b).mem = s.mem := rfl
@[simp] theorem setBand_poison (s : State) (b : Band) : (s.setBand b).poison = s.poison := rfl
@[simp] theorem setBand_errs (s : State) (b : Band) : (s.setBand b).errs = s.errs := rfl
@[simp] theorem setBand_sealed (s : State) (b : Band) : (s.setBand b).sealed = s.sealed := rfl
@[simp] theorem setBand_keyGen (s : State) (b : Band) : (s.setBand b).keyGen = s.keyGen := rfl
@[simp] theorem setBand_ls (s : State) (b : Band) : (s.setBand b).ls = s.ls := rfl
@[simp] theorem setBand_regs (s : State) (b : Band) : (s.setBand b).regs = s.regs := rfl
@[simp] theorem setBand_mailbox (s : State) (b : Band) : (s.setBand b).mailbox = s.mailbox := rfl
@[simp] theorem setBand_bars (s : State) (b : Band) : (s.setBand b).bars = s.bars := rfl
@[simp] theorem setBand_posted (s : State) (b : Band) : (s.setBand b).posted = s.posted := rfl
@[simp] theorem setBand_carried (s : State) (b : Band) : (s.setBand b).carried = s.carried := rfl
@[simp] theorem setBand_tlb (s : State) (b : Band) : (s.setBand b).tlb = s.tlb := rfl
@[simp] theorem setBand_wcache (s : State) (b : Band) : (s.setBand b).wcache = s.wcache := rfl
@[simp] theorem setBand_l1 (s : State) (b : Band) : (s.setBand b).l1 = s.l1 := rfl
@[simp] theorem setBand_scClock (s : State) (b : Band) : (s.setBand b).scClock = s.scClock := rfl
@[simp] theorem setBand_chClock (s : State) (b : Band) : (s.setBand b).chClock = s.chClock := rfl
@[simp] theorem setBand_tokens (s : State) (b : Band) : (s.setBand b).tokens = s.tokens := rfl
@[simp] theorem setBand_locks (s : State) (b : Band) : (s.setBand b).locks = s.locks := rfl
@[simp] theorem setBand_rflags (s : State) (b : Band) : (s.setBand b).rflags = s.rflags := rfl
@[simp] theorem setBand_inbound (s : State) (b : Band) : (s.setBand b).inbound = s.inbound := rfl
@[simp] theorem setBand_gregs (s : State) (b : Band) : (s.setBand b).gregs = s.gregs := rfl
@[simp] theorem setBand_watches (s : State) (b : Band) : (s.setBand b).watches = s.watches := rfl
@[simp] theorem setBand_celog (s : State) (b : Band) : (s.setBand b).celog = s.celog := rfl
@[simp] theorem setBand_pubs (s : State) (b : Band) : (s.setBand b).pubs = s.pubs := rfl
@[simp] theorem setBand_cagsIn (s : State) (b : Band) : (s.setBand b).cagsIn = s.cagsIn := rfl
@[simp] theorem setBand_advances (s : State) (b : Band) : (s.setBand b).advances = s.advances := rfl
@[simp] theorem setBand_wgs (s : State) (b : Band) : (s.setBand b).wgs = s.wgs := rfl
@[simp] theorem setBand_images (s : State) (b : Band) : (s.setBand b).images = s.images := rfl
@[simp] theorem setBand_launches (s : State) (b : Band) : (s.setBand b).launches = s.launches := rfl
@[simp] theorem setBand_pastLids (s : State) (b : Band) : (s.setBand b).pastLids = s.pastLids := rfl
@[simp] theorem setBand_ops (s : State) (b : Band) : (s.setBand b).ops = s.ops := rfl
@[simp] theorem setBand_evBuf (s : State) (b : Band) : (s.setBand b).evBuf = s.evBuf := rfl
@[simp] theorem setBand_evHeld (s : State) (b : Band) : (s.setBand b).evHeld = s.evHeld := rfl
@[simp] theorem setBand_evGap (s : State) (b : Band) : (s.setBand b).evGap = s.evGap := rfl
@[simp] theorem setBand_evTimes (s : State) (b : Band) : (s.setBand b).evTimes = s.evTimes := rfl
@[simp] theorem setBand_sent (s : State) (b : Band) : (s.setBand b).sent = s.sent := rfl
@[simp] theorem setBand_msixPending (s : State) (b : Band) : (s.setBand b).msixPending = s.msixPending := rfl
@[simp] theorem setBand_lastRead (s : State) (b : Band) : (s.setBand b).lastRead = s.lastRead := rfl
@[simp] theorem setBand_rrQueue (s : State) (b : Band) : (s.setBand b).rrQueue = s.rrQueue := rfl
@[simp] theorem setBand_qpairs (s : State) (b : Band) : (s.setBand b).qpairs = s.qpairs := rfl
@[simp] theorem setBand_rrPair (s : State) (b : Band) : (s.setBand b).rrPair = s.rrPair := rfl
@[simp] theorem setBand_snap (s : State) (b : Band) : (s.setBand b).snap = s.snap := rfl
@[simp] theorem setBand_snapping (s : State) (b : Band) : (s.setBand b).snapping = s.snapping := rfl
@[simp] theorem setBand_snapAt (s : State) (b : Band) : (s.setBand b).snapAt = s.snapAt := rfl
@[simp] theorem setBand_hcmd (s : State) (b : Band) : (s.setBand b).hcmd = s.hcmd := rfl
@[simp] theorem setBand_cancels (s : State) (b : Band) : (s.setBand b).cancels = s.cancels := rfl
@[simp] theorem setBand_attest (s : State) (b : Band) : (s.setBand b).attest = s.attest := rfl
@[simp] theorem setBand_reductions (s : State) (b : Band) : (s.setBand b).reductions = s.reductions := rfl
@[simp] theorem setBand_ringParts (s : State) (b : Band) : (s.setBand b).ringParts = s.ringParts := rfl
@[simp] theorem setBand_closed (s : State) (b : Band) : (s.setBand b).closed = s.closed := rfl
@[simp] theorem setBand_drops (s : State) (b : Band) : (s.setBand b).drops = s.drops := rfl
@[simp] theorem setBand_scalars (s : State) (b : Band) : (s.setBand b).scalars = s.scalars := rfl
@[simp] theorem setBand_norms (s : State) (b : Band) : (s.setBand b).norms = s.norms := rfl
@[simp] theorem setBand_stepClosed (s : State) (b : Band) : (s.setBand b).stepClosed = s.stepClosed := rfl
@[simp] theorem setBand_closedHere (s : State) (b : Band) : (s.setBand b).closedHere = s.closedHere := rfl
@[simp] theorem setBand_heldMsgs (s : State) (b : Band) : (s.setBand b).heldMsgs = s.heldMsgs := rfl
@[simp] theorem setBand_weir (s : State) (b : Band) : (s.setBand b).weir = s.weir := rfl
@[simp] theorem setBand_endpoints (s : State) (b : Band) : (s.setBand b).endpoints = s.endpoints := rfl
@[simp] theorem setBand_upset (s : State) (b : Band) : (s.setBand b).upset = s.upset := rfl
@[simp] theorem setBand_heldSlots (s : State) (b : Band) : (s.setBand b).heldSlots = s.heldSlots := rfl
@[simp] theorem setBand_lastIssued (s : State) (b : Band) : (s.setBand b).lastIssued = s.lastIssued := rfl
@[simp] theorem setBand_issuedAt (s : State) (b : Band) : (s.setBand b).issuedAt = s.issuedAt := rfl
@[simp] theorem setBand_records (s : State) (b : Band) : (s.setBand b).records = s.records := rfl
@[simp] theorem setBand_nextUid (s : State) (b : Band) : (s.setBand b).nextUid = s.nextUid := rfl
@[simp] theorem setBand_freeCtr (s : State) (b : Band) : (s.setBand b).freeCtr = s.freeCtr := rfl
@[simp] theorem setBand_stray (s : State) (b : Band) : (s.setBand b).stray = s.stray := rfl
@[simp] theorem setBand_cur (s : State) (b : Band) : (s.setBand b).cur = s.cur := rfl
@[simp] theorem setBand_agenda (s : State) (b : Band) : (s.setBand b).agenda = s.agenda := rfl

/-! ### State.modBand -/

@[simp] theorem modBand_cycle (s : State) (u : Nat) (f : Band → Band) : (s.modBand u f).cycle = s.cycle := rfl
@[simp] theorem modBand_mem (s : State) (u : Nat) (f : Band → Band) : (s.modBand u f).mem = s.mem := rfl
@[simp] theorem modBand_poison (s : State) (u : Nat) (f : Band → Band) : (s.modBand u f).poison = s.poison := rfl
@[simp] theorem modBand_errs (s : State) (u : Nat) (f : Band → Band) : (s.modBand u f).errs = s.errs := rfl
@[simp] theorem modBand_sealed (s : State) (u : Nat) (f : Band → Band) : (s.modBand u f).sealed = s.sealed := rfl
@[simp] theorem modBand_keyGen (s : State) (u : Nat) (f : Band → Band) : (s.modBand u f).keyGen = s.keyGen := rfl
@[simp] theorem modBand_ls (s : State) (u : Nat) (f : Band → Band) : (s.modBand u f).ls = s.ls := rfl
@[simp] theorem modBand_regs (s : State) (u : Nat) (f : Band → Band) : (s.modBand u f).regs = s.regs := rfl
@[simp] theorem modBand_mailbox (s : State) (u : Nat) (f : Band → Band) : (s.modBand u f).mailbox = s.mailbox := rfl
@[simp] theorem modBand_bars (s : State) (u : Nat) (f : Band → Band) : (s.modBand u f).bars = s.bars := rfl
@[simp] theorem modBand_posted (s : State) (u : Nat) (f : Band → Band) : (s.modBand u f).posted = s.posted := rfl
@[simp] theorem modBand_carried (s : State) (u : Nat) (f : Band → Band) : (s.modBand u f).carried = s.carried := rfl
@[simp] theorem modBand_tlb (s : State) (u : Nat) (f : Band → Band) : (s.modBand u f).tlb = s.tlb := rfl
@[simp] theorem modBand_wcache (s : State) (u : Nat) (f : Band → Band) : (s.modBand u f).wcache = s.wcache := rfl
@[simp] theorem modBand_l1 (s : State) (u : Nat) (f : Band → Band) : (s.modBand u f).l1 = s.l1 := rfl
@[simp] theorem modBand_scClock (s : State) (u : Nat) (f : Band → Band) : (s.modBand u f).scClock = s.scClock := rfl
@[simp] theorem modBand_chClock (s : State) (u : Nat) (f : Band → Band) : (s.modBand u f).chClock = s.chClock := rfl
@[simp] theorem modBand_tokens (s : State) (u : Nat) (f : Band → Band) : (s.modBand u f).tokens = s.tokens := rfl
@[simp] theorem modBand_locks (s : State) (u : Nat) (f : Band → Band) : (s.modBand u f).locks = s.locks := rfl
@[simp] theorem modBand_rflags (s : State) (u : Nat) (f : Band → Band) : (s.modBand u f).rflags = s.rflags := rfl
@[simp] theorem modBand_inbound (s : State) (u : Nat) (f : Band → Band) : (s.modBand u f).inbound = s.inbound := rfl
@[simp] theorem modBand_gregs (s : State) (u : Nat) (f : Band → Band) : (s.modBand u f).gregs = s.gregs := rfl
@[simp] theorem modBand_watches (s : State) (u : Nat) (f : Band → Band) : (s.modBand u f).watches = s.watches := rfl
@[simp] theorem modBand_celog (s : State) (u : Nat) (f : Band → Band) : (s.modBand u f).celog = s.celog := rfl
@[simp] theorem modBand_pubs (s : State) (u : Nat) (f : Band → Band) : (s.modBand u f).pubs = s.pubs := rfl
@[simp] theorem modBand_cagsIn (s : State) (u : Nat) (f : Band → Band) : (s.modBand u f).cagsIn = s.cagsIn := rfl
@[simp] theorem modBand_advances (s : State) (u : Nat) (f : Band → Band) : (s.modBand u f).advances = s.advances := rfl
@[simp] theorem modBand_wgs (s : State) (u : Nat) (f : Band → Band) : (s.modBand u f).wgs = s.wgs := rfl
@[simp] theorem modBand_images (s : State) (u : Nat) (f : Band → Band) : (s.modBand u f).images = s.images := rfl
@[simp] theorem modBand_launches (s : State) (u : Nat) (f : Band → Band) : (s.modBand u f).launches = s.launches := rfl
@[simp] theorem modBand_pastLids (s : State) (u : Nat) (f : Band → Band) : (s.modBand u f).pastLids = s.pastLids := rfl
@[simp] theorem modBand_ops (s : State) (u : Nat) (f : Band → Band) : (s.modBand u f).ops = s.ops := rfl
@[simp] theorem modBand_evBuf (s : State) (u : Nat) (f : Band → Band) : (s.modBand u f).evBuf = s.evBuf := rfl
@[simp] theorem modBand_evHeld (s : State) (u : Nat) (f : Band → Band) : (s.modBand u f).evHeld = s.evHeld := rfl
@[simp] theorem modBand_evGap (s : State) (u : Nat) (f : Band → Band) : (s.modBand u f).evGap = s.evGap := rfl
@[simp] theorem modBand_evTimes (s : State) (u : Nat) (f : Band → Band) : (s.modBand u f).evTimes = s.evTimes := rfl
@[simp] theorem modBand_sent (s : State) (u : Nat) (f : Band → Band) : (s.modBand u f).sent = s.sent := rfl
@[simp] theorem modBand_msixPending (s : State) (u : Nat) (f : Band → Band) : (s.modBand u f).msixPending = s.msixPending := rfl
@[simp] theorem modBand_lastRead (s : State) (u : Nat) (f : Band → Band) : (s.modBand u f).lastRead = s.lastRead := rfl
@[simp] theorem modBand_rrQueue (s : State) (u : Nat) (f : Band → Band) : (s.modBand u f).rrQueue = s.rrQueue := rfl
@[simp] theorem modBand_qpairs (s : State) (u : Nat) (f : Band → Band) : (s.modBand u f).qpairs = s.qpairs := rfl
@[simp] theorem modBand_rrPair (s : State) (u : Nat) (f : Band → Band) : (s.modBand u f).rrPair = s.rrPair := rfl
@[simp] theorem modBand_snap (s : State) (u : Nat) (f : Band → Band) : (s.modBand u f).snap = s.snap := rfl
@[simp] theorem modBand_snapping (s : State) (u : Nat) (f : Band → Band) : (s.modBand u f).snapping = s.snapping := rfl
@[simp] theorem modBand_snapAt (s : State) (u : Nat) (f : Band → Band) : (s.modBand u f).snapAt = s.snapAt := rfl
@[simp] theorem modBand_hcmd (s : State) (u : Nat) (f : Band → Band) : (s.modBand u f).hcmd = s.hcmd := rfl
@[simp] theorem modBand_cancels (s : State) (u : Nat) (f : Band → Band) : (s.modBand u f).cancels = s.cancels := rfl
@[simp] theorem modBand_attest (s : State) (u : Nat) (f : Band → Band) : (s.modBand u f).attest = s.attest := rfl
@[simp] theorem modBand_reductions (s : State) (u : Nat) (f : Band → Band) : (s.modBand u f).reductions = s.reductions := rfl
@[simp] theorem modBand_ringParts (s : State) (u : Nat) (f : Band → Band) : (s.modBand u f).ringParts = s.ringParts := rfl
@[simp] theorem modBand_closed (s : State) (u : Nat) (f : Band → Band) : (s.modBand u f).closed = s.closed := rfl
@[simp] theorem modBand_drops (s : State) (u : Nat) (f : Band → Band) : (s.modBand u f).drops = s.drops := rfl
@[simp] theorem modBand_scalars (s : State) (u : Nat) (f : Band → Band) : (s.modBand u f).scalars = s.scalars := rfl
@[simp] theorem modBand_norms (s : State) (u : Nat) (f : Band → Band) : (s.modBand u f).norms = s.norms := rfl
@[simp] theorem modBand_stepClosed (s : State) (u : Nat) (f : Band → Band) : (s.modBand u f).stepClosed = s.stepClosed := rfl
@[simp] theorem modBand_closedHere (s : State) (u : Nat) (f : Band → Band) : (s.modBand u f).closedHere = s.closedHere := rfl
@[simp] theorem modBand_heldMsgs (s : State) (u : Nat) (f : Band → Band) : (s.modBand u f).heldMsgs = s.heldMsgs := rfl
@[simp] theorem modBand_weir (s : State) (u : Nat) (f : Band → Band) : (s.modBand u f).weir = s.weir := rfl
@[simp] theorem modBand_endpoints (s : State) (u : Nat) (f : Band → Band) : (s.modBand u f).endpoints = s.endpoints := rfl
@[simp] theorem modBand_upset (s : State) (u : Nat) (f : Band → Band) : (s.modBand u f).upset = s.upset := rfl
@[simp] theorem modBand_heldSlots (s : State) (u : Nat) (f : Band → Band) : (s.modBand u f).heldSlots = s.heldSlots := rfl
@[simp] theorem modBand_lastIssued (s : State) (u : Nat) (f : Band → Band) : (s.modBand u f).lastIssued = s.lastIssued := rfl
@[simp] theorem modBand_issuedAt (s : State) (u : Nat) (f : Band → Band) : (s.modBand u f).issuedAt = s.issuedAt := rfl
@[simp] theorem modBand_records (s : State) (u : Nat) (f : Band → Band) : (s.modBand u f).records = s.records := rfl
@[simp] theorem modBand_nextUid (s : State) (u : Nat) (f : Band → Band) : (s.modBand u f).nextUid = s.nextUid := rfl
@[simp] theorem modBand_freeCtr (s : State) (u : Nat) (f : Band → Band) : (s.modBand u f).freeCtr = s.freeCtr := rfl
@[simp] theorem modBand_stray (s : State) (u : Nat) (f : Band → Band) : (s.modBand u f).stray = s.stray := rfl
@[simp] theorem modBand_cur (s : State) (u : Nat) (f : Band → Band) : (s.modBand u f).cur = s.cur := rfl
@[simp] theorem modBand_agenda (s : State) (u : Nat) (f : Band → Band) : (s.modBand u f).agenda = s.agenda := rfl

/-! ### State.modLaunch -/

@[simp] theorem modLaunch_cycle (s : State) (u : Nat) (f : Launch → Launch) : (s.modLaunch u f).cycle = s.cycle := rfl
@[simp] theorem modLaunch_mem (s : State) (u : Nat) (f : Launch → Launch) : (s.modLaunch u f).mem = s.mem := rfl
@[simp] theorem modLaunch_poison (s : State) (u : Nat) (f : Launch → Launch) : (s.modLaunch u f).poison = s.poison := rfl
@[simp] theorem modLaunch_errs (s : State) (u : Nat) (f : Launch → Launch) : (s.modLaunch u f).errs = s.errs := rfl
@[simp] theorem modLaunch_sealed (s : State) (u : Nat) (f : Launch → Launch) : (s.modLaunch u f).sealed = s.sealed := rfl
@[simp] theorem modLaunch_keyGen (s : State) (u : Nat) (f : Launch → Launch) : (s.modLaunch u f).keyGen = s.keyGen := rfl
@[simp] theorem modLaunch_ls (s : State) (u : Nat) (f : Launch → Launch) : (s.modLaunch u f).ls = s.ls := rfl
@[simp] theorem modLaunch_regs (s : State) (u : Nat) (f : Launch → Launch) : (s.modLaunch u f).regs = s.regs := rfl
@[simp] theorem modLaunch_mailbox (s : State) (u : Nat) (f : Launch → Launch) : (s.modLaunch u f).mailbox = s.mailbox := rfl
@[simp] theorem modLaunch_bars (s : State) (u : Nat) (f : Launch → Launch) : (s.modLaunch u f).bars = s.bars := rfl
@[simp] theorem modLaunch_posted (s : State) (u : Nat) (f : Launch → Launch) : (s.modLaunch u f).posted = s.posted := rfl
@[simp] theorem modLaunch_carried (s : State) (u : Nat) (f : Launch → Launch) : (s.modLaunch u f).carried = s.carried := rfl
@[simp] theorem modLaunch_tlb (s : State) (u : Nat) (f : Launch → Launch) : (s.modLaunch u f).tlb = s.tlb := rfl
@[simp] theorem modLaunch_wcache (s : State) (u : Nat) (f : Launch → Launch) : (s.modLaunch u f).wcache = s.wcache := rfl
@[simp] theorem modLaunch_l1 (s : State) (u : Nat) (f : Launch → Launch) : (s.modLaunch u f).l1 = s.l1 := rfl
@[simp] theorem modLaunch_scClock (s : State) (u : Nat) (f : Launch → Launch) : (s.modLaunch u f).scClock = s.scClock := rfl
@[simp] theorem modLaunch_chClock (s : State) (u : Nat) (f : Launch → Launch) : (s.modLaunch u f).chClock = s.chClock := rfl
@[simp] theorem modLaunch_tokens (s : State) (u : Nat) (f : Launch → Launch) : (s.modLaunch u f).tokens = s.tokens := rfl
@[simp] theorem modLaunch_locks (s : State) (u : Nat) (f : Launch → Launch) : (s.modLaunch u f).locks = s.locks := rfl
@[simp] theorem modLaunch_rflags (s : State) (u : Nat) (f : Launch → Launch) : (s.modLaunch u f).rflags = s.rflags := rfl
@[simp] theorem modLaunch_inbound (s : State) (u : Nat) (f : Launch → Launch) : (s.modLaunch u f).inbound = s.inbound := rfl
@[simp] theorem modLaunch_gregs (s : State) (u : Nat) (f : Launch → Launch) : (s.modLaunch u f).gregs = s.gregs := rfl
@[simp] theorem modLaunch_watches (s : State) (u : Nat) (f : Launch → Launch) : (s.modLaunch u f).watches = s.watches := rfl
@[simp] theorem modLaunch_celog (s : State) (u : Nat) (f : Launch → Launch) : (s.modLaunch u f).celog = s.celog := rfl
@[simp] theorem modLaunch_pubs (s : State) (u : Nat) (f : Launch → Launch) : (s.modLaunch u f).pubs = s.pubs := rfl
@[simp] theorem modLaunch_cagsIn (s : State) (u : Nat) (f : Launch → Launch) : (s.modLaunch u f).cagsIn = s.cagsIn := rfl
@[simp] theorem modLaunch_advances (s : State) (u : Nat) (f : Launch → Launch) : (s.modLaunch u f).advances = s.advances := rfl
@[simp] theorem modLaunch_bands (s : State) (u : Nat) (f : Launch → Launch) : (s.modLaunch u f).bands = s.bands := rfl
@[simp] theorem modLaunch_wgs (s : State) (u : Nat) (f : Launch → Launch) : (s.modLaunch u f).wgs = s.wgs := rfl
@[simp] theorem modLaunch_images (s : State) (u : Nat) (f : Launch → Launch) : (s.modLaunch u f).images = s.images := rfl
@[simp] theorem modLaunch_pastLids (s : State) (u : Nat) (f : Launch → Launch) : (s.modLaunch u f).pastLids = s.pastLids := rfl
@[simp] theorem modLaunch_ops (s : State) (u : Nat) (f : Launch → Launch) : (s.modLaunch u f).ops = s.ops := rfl
@[simp] theorem modLaunch_evBuf (s : State) (u : Nat) (f : Launch → Launch) : (s.modLaunch u f).evBuf = s.evBuf := rfl
@[simp] theorem modLaunch_evHeld (s : State) (u : Nat) (f : Launch → Launch) : (s.modLaunch u f).evHeld = s.evHeld := rfl
@[simp] theorem modLaunch_evGap (s : State) (u : Nat) (f : Launch → Launch) : (s.modLaunch u f).evGap = s.evGap := rfl
@[simp] theorem modLaunch_evTimes (s : State) (u : Nat) (f : Launch → Launch) : (s.modLaunch u f).evTimes = s.evTimes := rfl
@[simp] theorem modLaunch_sent (s : State) (u : Nat) (f : Launch → Launch) : (s.modLaunch u f).sent = s.sent := rfl
@[simp] theorem modLaunch_msixPending (s : State) (u : Nat) (f : Launch → Launch) : (s.modLaunch u f).msixPending = s.msixPending := rfl
@[simp] theorem modLaunch_lastRead (s : State) (u : Nat) (f : Launch → Launch) : (s.modLaunch u f).lastRead = s.lastRead := rfl
@[simp] theorem modLaunch_rrQueue (s : State) (u : Nat) (f : Launch → Launch) : (s.modLaunch u f).rrQueue = s.rrQueue := rfl
@[simp] theorem modLaunch_qpairs (s : State) (u : Nat) (f : Launch → Launch) : (s.modLaunch u f).qpairs = s.qpairs := rfl
@[simp] theorem modLaunch_rrPair (s : State) (u : Nat) (f : Launch → Launch) : (s.modLaunch u f).rrPair = s.rrPair := rfl
@[simp] theorem modLaunch_snap (s : State) (u : Nat) (f : Launch → Launch) : (s.modLaunch u f).snap = s.snap := rfl
@[simp] theorem modLaunch_snapping (s : State) (u : Nat) (f : Launch → Launch) : (s.modLaunch u f).snapping = s.snapping := rfl
@[simp] theorem modLaunch_snapAt (s : State) (u : Nat) (f : Launch → Launch) : (s.modLaunch u f).snapAt = s.snapAt := rfl
@[simp] theorem modLaunch_hcmd (s : State) (u : Nat) (f : Launch → Launch) : (s.modLaunch u f).hcmd = s.hcmd := rfl
@[simp] theorem modLaunch_cancels (s : State) (u : Nat) (f : Launch → Launch) : (s.modLaunch u f).cancels = s.cancels := rfl
@[simp] theorem modLaunch_attest (s : State) (u : Nat) (f : Launch → Launch) : (s.modLaunch u f).attest = s.attest := rfl
@[simp] theorem modLaunch_reductions (s : State) (u : Nat) (f : Launch → Launch) : (s.modLaunch u f).reductions = s.reductions := rfl
@[simp] theorem modLaunch_ringParts (s : State) (u : Nat) (f : Launch → Launch) : (s.modLaunch u f).ringParts = s.ringParts := rfl
@[simp] theorem modLaunch_closed (s : State) (u : Nat) (f : Launch → Launch) : (s.modLaunch u f).closed = s.closed := rfl
@[simp] theorem modLaunch_drops (s : State) (u : Nat) (f : Launch → Launch) : (s.modLaunch u f).drops = s.drops := rfl
@[simp] theorem modLaunch_scalars (s : State) (u : Nat) (f : Launch → Launch) : (s.modLaunch u f).scalars = s.scalars := rfl
@[simp] theorem modLaunch_norms (s : State) (u : Nat) (f : Launch → Launch) : (s.modLaunch u f).norms = s.norms := rfl
@[simp] theorem modLaunch_stepClosed (s : State) (u : Nat) (f : Launch → Launch) : (s.modLaunch u f).stepClosed = s.stepClosed := rfl
@[simp] theorem modLaunch_closedHere (s : State) (u : Nat) (f : Launch → Launch) : (s.modLaunch u f).closedHere = s.closedHere := rfl
@[simp] theorem modLaunch_heldMsgs (s : State) (u : Nat) (f : Launch → Launch) : (s.modLaunch u f).heldMsgs = s.heldMsgs := rfl
@[simp] theorem modLaunch_weir (s : State) (u : Nat) (f : Launch → Launch) : (s.modLaunch u f).weir = s.weir := rfl
@[simp] theorem modLaunch_endpoints (s : State) (u : Nat) (f : Launch → Launch) : (s.modLaunch u f).endpoints = s.endpoints := rfl
@[simp] theorem modLaunch_upset (s : State) (u : Nat) (f : Launch → Launch) : (s.modLaunch u f).upset = s.upset := rfl
@[simp] theorem modLaunch_heldSlots (s : State) (u : Nat) (f : Launch → Launch) : (s.modLaunch u f).heldSlots = s.heldSlots := rfl
@[simp] theorem modLaunch_lastIssued (s : State) (u : Nat) (f : Launch → Launch) : (s.modLaunch u f).lastIssued = s.lastIssued := rfl
@[simp] theorem modLaunch_issuedAt (s : State) (u : Nat) (f : Launch → Launch) : (s.modLaunch u f).issuedAt = s.issuedAt := rfl
@[simp] theorem modLaunch_records (s : State) (u : Nat) (f : Launch → Launch) : (s.modLaunch u f).records = s.records := rfl
@[simp] theorem modLaunch_nextUid (s : State) (u : Nat) (f : Launch → Launch) : (s.modLaunch u f).nextUid = s.nextUid := rfl
@[simp] theorem modLaunch_freeCtr (s : State) (u : Nat) (f : Launch → Launch) : (s.modLaunch u f).freeCtr = s.freeCtr := rfl
@[simp] theorem modLaunch_stray (s : State) (u : Nat) (f : Launch → Launch) : (s.modLaunch u f).stray = s.stray := rfl
@[simp] theorem modLaunch_cur (s : State) (u : Nat) (f : Launch → Launch) : (s.modLaunch u f).cur = s.cur := rfl
@[simp] theorem modLaunch_agenda (s : State) (u : Nat) (f : Launch → Launch) : (s.modLaunch u f).agenda = s.agenda := rfl

/-! ### State.modWg -/

@[simp] theorem modWg_cycle (s : State) (u : Nat) (f : Workgroup → Workgroup) : (s.modWg u f).cycle = s.cycle := rfl
@[simp] theorem modWg_mem (s : State) (u : Nat) (f : Workgroup → Workgroup) : (s.modWg u f).mem = s.mem := rfl
@[simp] theorem modWg_poison (s : State) (u : Nat) (f : Workgroup → Workgroup) : (s.modWg u f).poison = s.poison := rfl
@[simp] theorem modWg_errs (s : State) (u : Nat) (f : Workgroup → Workgroup) : (s.modWg u f).errs = s.errs := rfl
@[simp] theorem modWg_sealed (s : State) (u : Nat) (f : Workgroup → Workgroup) : (s.modWg u f).sealed = s.sealed := rfl
@[simp] theorem modWg_keyGen (s : State) (u : Nat) (f : Workgroup → Workgroup) : (s.modWg u f).keyGen = s.keyGen := rfl
@[simp] theorem modWg_ls (s : State) (u : Nat) (f : Workgroup → Workgroup) : (s.modWg u f).ls = s.ls := rfl
@[simp] theorem modWg_regs (s : State) (u : Nat) (f : Workgroup → Workgroup) : (s.modWg u f).regs = s.regs := rfl
@[simp] theorem modWg_mailbox (s : State) (u : Nat) (f : Workgroup → Workgroup) : (s.modWg u f).mailbox = s.mailbox := rfl
@[simp] theorem modWg_bars (s : State) (u : Nat) (f : Workgroup → Workgroup) : (s.modWg u f).bars = s.bars := rfl
@[simp] theorem modWg_posted (s : State) (u : Nat) (f : Workgroup → Workgroup) : (s.modWg u f).posted = s.posted := rfl
@[simp] theorem modWg_carried (s : State) (u : Nat) (f : Workgroup → Workgroup) : (s.modWg u f).carried = s.carried := rfl
@[simp] theorem modWg_tlb (s : State) (u : Nat) (f : Workgroup → Workgroup) : (s.modWg u f).tlb = s.tlb := rfl
@[simp] theorem modWg_wcache (s : State) (u : Nat) (f : Workgroup → Workgroup) : (s.modWg u f).wcache = s.wcache := rfl
@[simp] theorem modWg_l1 (s : State) (u : Nat) (f : Workgroup → Workgroup) : (s.modWg u f).l1 = s.l1 := rfl
@[simp] theorem modWg_scClock (s : State) (u : Nat) (f : Workgroup → Workgroup) : (s.modWg u f).scClock = s.scClock := rfl
@[simp] theorem modWg_chClock (s : State) (u : Nat) (f : Workgroup → Workgroup) : (s.modWg u f).chClock = s.chClock := rfl
@[simp] theorem modWg_tokens (s : State) (u : Nat) (f : Workgroup → Workgroup) : (s.modWg u f).tokens = s.tokens := rfl
@[simp] theorem modWg_locks (s : State) (u : Nat) (f : Workgroup → Workgroup) : (s.modWg u f).locks = s.locks := rfl
@[simp] theorem modWg_rflags (s : State) (u : Nat) (f : Workgroup → Workgroup) : (s.modWg u f).rflags = s.rflags := rfl
@[simp] theorem modWg_inbound (s : State) (u : Nat) (f : Workgroup → Workgroup) : (s.modWg u f).inbound = s.inbound := rfl
@[simp] theorem modWg_gregs (s : State) (u : Nat) (f : Workgroup → Workgroup) : (s.modWg u f).gregs = s.gregs := rfl
@[simp] theorem modWg_watches (s : State) (u : Nat) (f : Workgroup → Workgroup) : (s.modWg u f).watches = s.watches := rfl
@[simp] theorem modWg_celog (s : State) (u : Nat) (f : Workgroup → Workgroup) : (s.modWg u f).celog = s.celog := rfl
@[simp] theorem modWg_pubs (s : State) (u : Nat) (f : Workgroup → Workgroup) : (s.modWg u f).pubs = s.pubs := rfl
@[simp] theorem modWg_cagsIn (s : State) (u : Nat) (f : Workgroup → Workgroup) : (s.modWg u f).cagsIn = s.cagsIn := rfl
@[simp] theorem modWg_advances (s : State) (u : Nat) (f : Workgroup → Workgroup) : (s.modWg u f).advances = s.advances := rfl
@[simp] theorem modWg_bands (s : State) (u : Nat) (f : Workgroup → Workgroup) : (s.modWg u f).bands = s.bands := rfl
@[simp] theorem modWg_images (s : State) (u : Nat) (f : Workgroup → Workgroup) : (s.modWg u f).images = s.images := rfl
@[simp] theorem modWg_launches (s : State) (u : Nat) (f : Workgroup → Workgroup) : (s.modWg u f).launches = s.launches := rfl
@[simp] theorem modWg_pastLids (s : State) (u : Nat) (f : Workgroup → Workgroup) : (s.modWg u f).pastLids = s.pastLids := rfl
@[simp] theorem modWg_ops (s : State) (u : Nat) (f : Workgroup → Workgroup) : (s.modWg u f).ops = s.ops := rfl
@[simp] theorem modWg_evBuf (s : State) (u : Nat) (f : Workgroup → Workgroup) : (s.modWg u f).evBuf = s.evBuf := rfl
@[simp] theorem modWg_evHeld (s : State) (u : Nat) (f : Workgroup → Workgroup) : (s.modWg u f).evHeld = s.evHeld := rfl
@[simp] theorem modWg_evGap (s : State) (u : Nat) (f : Workgroup → Workgroup) : (s.modWg u f).evGap = s.evGap := rfl
@[simp] theorem modWg_evTimes (s : State) (u : Nat) (f : Workgroup → Workgroup) : (s.modWg u f).evTimes = s.evTimes := rfl
@[simp] theorem modWg_sent (s : State) (u : Nat) (f : Workgroup → Workgroup) : (s.modWg u f).sent = s.sent := rfl
@[simp] theorem modWg_msixPending (s : State) (u : Nat) (f : Workgroup → Workgroup) : (s.modWg u f).msixPending = s.msixPending := rfl
@[simp] theorem modWg_lastRead (s : State) (u : Nat) (f : Workgroup → Workgroup) : (s.modWg u f).lastRead = s.lastRead := rfl
@[simp] theorem modWg_rrQueue (s : State) (u : Nat) (f : Workgroup → Workgroup) : (s.modWg u f).rrQueue = s.rrQueue := rfl
@[simp] theorem modWg_qpairs (s : State) (u : Nat) (f : Workgroup → Workgroup) : (s.modWg u f).qpairs = s.qpairs := rfl
@[simp] theorem modWg_rrPair (s : State) (u : Nat) (f : Workgroup → Workgroup) : (s.modWg u f).rrPair = s.rrPair := rfl
@[simp] theorem modWg_snap (s : State) (u : Nat) (f : Workgroup → Workgroup) : (s.modWg u f).snap = s.snap := rfl
@[simp] theorem modWg_snapping (s : State) (u : Nat) (f : Workgroup → Workgroup) : (s.modWg u f).snapping = s.snapping := rfl
@[simp] theorem modWg_snapAt (s : State) (u : Nat) (f : Workgroup → Workgroup) : (s.modWg u f).snapAt = s.snapAt := rfl
@[simp] theorem modWg_hcmd (s : State) (u : Nat) (f : Workgroup → Workgroup) : (s.modWg u f).hcmd = s.hcmd := rfl
@[simp] theorem modWg_cancels (s : State) (u : Nat) (f : Workgroup → Workgroup) : (s.modWg u f).cancels = s.cancels := rfl
@[simp] theorem modWg_attest (s : State) (u : Nat) (f : Workgroup → Workgroup) : (s.modWg u f).attest = s.attest := rfl
@[simp] theorem modWg_reductions (s : State) (u : Nat) (f : Workgroup → Workgroup) : (s.modWg u f).reductions = s.reductions := rfl
@[simp] theorem modWg_ringParts (s : State) (u : Nat) (f : Workgroup → Workgroup) : (s.modWg u f).ringParts = s.ringParts := rfl
@[simp] theorem modWg_closed (s : State) (u : Nat) (f : Workgroup → Workgroup) : (s.modWg u f).closed = s.closed := rfl
@[simp] theorem modWg_drops (s : State) (u : Nat) (f : Workgroup → Workgroup) : (s.modWg u f).drops = s.drops := rfl
@[simp] theorem modWg_scalars (s : State) (u : Nat) (f : Workgroup → Workgroup) : (s.modWg u f).scalars = s.scalars := rfl
@[simp] theorem modWg_norms (s : State) (u : Nat) (f : Workgroup → Workgroup) : (s.modWg u f).norms = s.norms := rfl
@[simp] theorem modWg_stepClosed (s : State) (u : Nat) (f : Workgroup → Workgroup) : (s.modWg u f).stepClosed = s.stepClosed := rfl
@[simp] theorem modWg_closedHere (s : State) (u : Nat) (f : Workgroup → Workgroup) : (s.modWg u f).closedHere = s.closedHere := rfl
@[simp] theorem modWg_heldMsgs (s : State) (u : Nat) (f : Workgroup → Workgroup) : (s.modWg u f).heldMsgs = s.heldMsgs := rfl
@[simp] theorem modWg_weir (s : State) (u : Nat) (f : Workgroup → Workgroup) : (s.modWg u f).weir = s.weir := rfl
@[simp] theorem modWg_endpoints (s : State) (u : Nat) (f : Workgroup → Workgroup) : (s.modWg u f).endpoints = s.endpoints := rfl
@[simp] theorem modWg_upset (s : State) (u : Nat) (f : Workgroup → Workgroup) : (s.modWg u f).upset = s.upset := rfl
@[simp] theorem modWg_heldSlots (s : State) (u : Nat) (f : Workgroup → Workgroup) : (s.modWg u f).heldSlots = s.heldSlots := rfl
@[simp] theorem modWg_lastIssued (s : State) (u : Nat) (f : Workgroup → Workgroup) : (s.modWg u f).lastIssued = s.lastIssued := rfl
@[simp] theorem modWg_issuedAt (s : State) (u : Nat) (f : Workgroup → Workgroup) : (s.modWg u f).issuedAt = s.issuedAt := rfl
@[simp] theorem modWg_records (s : State) (u : Nat) (f : Workgroup → Workgroup) : (s.modWg u f).records = s.records := rfl
@[simp] theorem modWg_nextUid (s : State) (u : Nat) (f : Workgroup → Workgroup) : (s.modWg u f).nextUid = s.nextUid := rfl
@[simp] theorem modWg_freeCtr (s : State) (u : Nat) (f : Workgroup → Workgroup) : (s.modWg u f).freeCtr = s.freeCtr := rfl
@[simp] theorem modWg_stray (s : State) (u : Nat) (f : Workgroup → Workgroup) : (s.modWg u f).stray = s.stray := rfl
@[simp] theorem modWg_cur (s : State) (u : Nat) (f : Workgroup → Workgroup) : (s.modWg u f).cur = s.cur := rfl
@[simp] theorem modWg_agenda (s : State) (u : Nat) (f : Workgroup → Workgroup) : (s.modWg u f).agenda = s.agenda := rfl

/-! ### State.setLaunch -/

@[simp] theorem setLaunch_cycle (s : State) (l : Launch) : (s.setLaunch l).cycle = s.cycle := rfl
@[simp] theorem setLaunch_mem (s : State) (l : Launch) : (s.setLaunch l).mem = s.mem := rfl
@[simp] theorem setLaunch_poison (s : State) (l : Launch) : (s.setLaunch l).poison = s.poison := rfl
@[simp] theorem setLaunch_errs (s : State) (l : Launch) : (s.setLaunch l).errs = s.errs := rfl
@[simp] theorem setLaunch_sealed (s : State) (l : Launch) : (s.setLaunch l).sealed = s.sealed := rfl
@[simp] theorem setLaunch_keyGen (s : State) (l : Launch) : (s.setLaunch l).keyGen = s.keyGen := rfl
@[simp] theorem setLaunch_ls (s : State) (l : Launch) : (s.setLaunch l).ls = s.ls := rfl
@[simp] theorem setLaunch_regs (s : State) (l : Launch) : (s.setLaunch l).regs = s.regs := rfl
@[simp] theorem setLaunch_mailbox (s : State) (l : Launch) : (s.setLaunch l).mailbox = s.mailbox := rfl
@[simp] theorem setLaunch_bars (s : State) (l : Launch) : (s.setLaunch l).bars = s.bars := rfl
@[simp] theorem setLaunch_posted (s : State) (l : Launch) : (s.setLaunch l).posted = s.posted := rfl
@[simp] theorem setLaunch_carried (s : State) (l : Launch) : (s.setLaunch l).carried = s.carried := rfl
@[simp] theorem setLaunch_tlb (s : State) (l : Launch) : (s.setLaunch l).tlb = s.tlb := rfl
@[simp] theorem setLaunch_wcache (s : State) (l : Launch) : (s.setLaunch l).wcache = s.wcache := rfl
@[simp] theorem setLaunch_l1 (s : State) (l : Launch) : (s.setLaunch l).l1 = s.l1 := rfl
@[simp] theorem setLaunch_scClock (s : State) (l : Launch) : (s.setLaunch l).scClock = s.scClock := rfl
@[simp] theorem setLaunch_chClock (s : State) (l : Launch) : (s.setLaunch l).chClock = s.chClock := rfl
@[simp] theorem setLaunch_tokens (s : State) (l : Launch) : (s.setLaunch l).tokens = s.tokens := rfl
@[simp] theorem setLaunch_locks (s : State) (l : Launch) : (s.setLaunch l).locks = s.locks := rfl
@[simp] theorem setLaunch_rflags (s : State) (l : Launch) : (s.setLaunch l).rflags = s.rflags := rfl
@[simp] theorem setLaunch_inbound (s : State) (l : Launch) : (s.setLaunch l).inbound = s.inbound := rfl
@[simp] theorem setLaunch_gregs (s : State) (l : Launch) : (s.setLaunch l).gregs = s.gregs := rfl
@[simp] theorem setLaunch_watches (s : State) (l : Launch) : (s.setLaunch l).watches = s.watches := rfl
@[simp] theorem setLaunch_celog (s : State) (l : Launch) : (s.setLaunch l).celog = s.celog := rfl
@[simp] theorem setLaunch_pubs (s : State) (l : Launch) : (s.setLaunch l).pubs = s.pubs := rfl
@[simp] theorem setLaunch_cagsIn (s : State) (l : Launch) : (s.setLaunch l).cagsIn = s.cagsIn := rfl
@[simp] theorem setLaunch_advances (s : State) (l : Launch) : (s.setLaunch l).advances = s.advances := rfl
@[simp] theorem setLaunch_bands (s : State) (l : Launch) : (s.setLaunch l).bands = s.bands := rfl
@[simp] theorem setLaunch_wgs (s : State) (l : Launch) : (s.setLaunch l).wgs = s.wgs := rfl
@[simp] theorem setLaunch_images (s : State) (l : Launch) : (s.setLaunch l).images = s.images := rfl
@[simp] theorem setLaunch_pastLids (s : State) (l : Launch) : (s.setLaunch l).pastLids = s.pastLids := rfl
@[simp] theorem setLaunch_ops (s : State) (l : Launch) : (s.setLaunch l).ops = s.ops := rfl
@[simp] theorem setLaunch_evBuf (s : State) (l : Launch) : (s.setLaunch l).evBuf = s.evBuf := rfl
@[simp] theorem setLaunch_evHeld (s : State) (l : Launch) : (s.setLaunch l).evHeld = s.evHeld := rfl
@[simp] theorem setLaunch_evGap (s : State) (l : Launch) : (s.setLaunch l).evGap = s.evGap := rfl
@[simp] theorem setLaunch_evTimes (s : State) (l : Launch) : (s.setLaunch l).evTimes = s.evTimes := rfl
@[simp] theorem setLaunch_sent (s : State) (l : Launch) : (s.setLaunch l).sent = s.sent := rfl
@[simp] theorem setLaunch_msixPending (s : State) (l : Launch) : (s.setLaunch l).msixPending = s.msixPending := rfl
@[simp] theorem setLaunch_lastRead (s : State) (l : Launch) : (s.setLaunch l).lastRead = s.lastRead := rfl
@[simp] theorem setLaunch_rrQueue (s : State) (l : Launch) : (s.setLaunch l).rrQueue = s.rrQueue := rfl
@[simp] theorem setLaunch_qpairs (s : State) (l : Launch) : (s.setLaunch l).qpairs = s.qpairs := rfl
@[simp] theorem setLaunch_rrPair (s : State) (l : Launch) : (s.setLaunch l).rrPair = s.rrPair := rfl
@[simp] theorem setLaunch_snap (s : State) (l : Launch) : (s.setLaunch l).snap = s.snap := rfl
@[simp] theorem setLaunch_snapping (s : State) (l : Launch) : (s.setLaunch l).snapping = s.snapping := rfl
@[simp] theorem setLaunch_snapAt (s : State) (l : Launch) : (s.setLaunch l).snapAt = s.snapAt := rfl
@[simp] theorem setLaunch_hcmd (s : State) (l : Launch) : (s.setLaunch l).hcmd = s.hcmd := rfl
@[simp] theorem setLaunch_cancels (s : State) (l : Launch) : (s.setLaunch l).cancels = s.cancels := rfl
@[simp] theorem setLaunch_attest (s : State) (l : Launch) : (s.setLaunch l).attest = s.attest := rfl
@[simp] theorem setLaunch_reductions (s : State) (l : Launch) : (s.setLaunch l).reductions = s.reductions := rfl
@[simp] theorem setLaunch_ringParts (s : State) (l : Launch) : (s.setLaunch l).ringParts = s.ringParts := rfl
@[simp] theorem setLaunch_closed (s : State) (l : Launch) : (s.setLaunch l).closed = s.closed := rfl
@[simp] theorem setLaunch_drops (s : State) (l : Launch) : (s.setLaunch l).drops = s.drops := rfl
@[simp] theorem setLaunch_scalars (s : State) (l : Launch) : (s.setLaunch l).scalars = s.scalars := rfl
@[simp] theorem setLaunch_norms (s : State) (l : Launch) : (s.setLaunch l).norms = s.norms := rfl
@[simp] theorem setLaunch_stepClosed (s : State) (l : Launch) : (s.setLaunch l).stepClosed = s.stepClosed := rfl
@[simp] theorem setLaunch_closedHere (s : State) (l : Launch) : (s.setLaunch l).closedHere = s.closedHere := rfl
@[simp] theorem setLaunch_heldMsgs (s : State) (l : Launch) : (s.setLaunch l).heldMsgs = s.heldMsgs := rfl
@[simp] theorem setLaunch_weir (s : State) (l : Launch) : (s.setLaunch l).weir = s.weir := rfl
@[simp] theorem setLaunch_endpoints (s : State) (l : Launch) : (s.setLaunch l).endpoints = s.endpoints := rfl
@[simp] theorem setLaunch_upset (s : State) (l : Launch) : (s.setLaunch l).upset = s.upset := rfl
@[simp] theorem setLaunch_heldSlots (s : State) (l : Launch) : (s.setLaunch l).heldSlots = s.heldSlots := rfl
@[simp] theorem setLaunch_lastIssued (s : State) (l : Launch) : (s.setLaunch l).lastIssued = s.lastIssued := rfl
@[simp] theorem setLaunch_issuedAt (s : State) (l : Launch) : (s.setLaunch l).issuedAt = s.issuedAt := rfl
@[simp] theorem setLaunch_records (s : State) (l : Launch) : (s.setLaunch l).records = s.records := rfl
@[simp] theorem setLaunch_nextUid (s : State) (l : Launch) : (s.setLaunch l).nextUid = s.nextUid := rfl
@[simp] theorem setLaunch_freeCtr (s : State) (l : Launch) : (s.setLaunch l).freeCtr = s.freeCtr := rfl
@[simp] theorem setLaunch_stray (s : State) (l : Launch) : (s.setLaunch l).stray = s.stray := rfl
@[simp] theorem setLaunch_cur (s : State) (l : Launch) : (s.setLaunch l).cur = s.cur := rfl
@[simp] theorem setLaunch_agenda (s : State) (l : Launch) : (s.setLaunch l).agenda = s.agenda := rfl

/-! ### State.setWg -/

@[simp] theorem setWg_cycle (s : State) (w : Workgroup) : (s.setWg w).cycle = s.cycle := rfl
@[simp] theorem setWg_mem (s : State) (w : Workgroup) : (s.setWg w).mem = s.mem := rfl
@[simp] theorem setWg_poison (s : State) (w : Workgroup) : (s.setWg w).poison = s.poison := rfl
@[simp] theorem setWg_errs (s : State) (w : Workgroup) : (s.setWg w).errs = s.errs := rfl
@[simp] theorem setWg_sealed (s : State) (w : Workgroup) : (s.setWg w).sealed = s.sealed := rfl
@[simp] theorem setWg_keyGen (s : State) (w : Workgroup) : (s.setWg w).keyGen = s.keyGen := rfl
@[simp] theorem setWg_ls (s : State) (w : Workgroup) : (s.setWg w).ls = s.ls := rfl
@[simp] theorem setWg_regs (s : State) (w : Workgroup) : (s.setWg w).regs = s.regs := rfl
@[simp] theorem setWg_mailbox (s : State) (w : Workgroup) : (s.setWg w).mailbox = s.mailbox := rfl
@[simp] theorem setWg_bars (s : State) (w : Workgroup) : (s.setWg w).bars = s.bars := rfl
@[simp] theorem setWg_posted (s : State) (w : Workgroup) : (s.setWg w).posted = s.posted := rfl
@[simp] theorem setWg_carried (s : State) (w : Workgroup) : (s.setWg w).carried = s.carried := rfl
@[simp] theorem setWg_tlb (s : State) (w : Workgroup) : (s.setWg w).tlb = s.tlb := rfl
@[simp] theorem setWg_wcache (s : State) (w : Workgroup) : (s.setWg w).wcache = s.wcache := rfl
@[simp] theorem setWg_l1 (s : State) (w : Workgroup) : (s.setWg w).l1 = s.l1 := rfl
@[simp] theorem setWg_scClock (s : State) (w : Workgroup) : (s.setWg w).scClock = s.scClock := rfl
@[simp] theorem setWg_chClock (s : State) (w : Workgroup) : (s.setWg w).chClock = s.chClock := rfl
@[simp] theorem setWg_tokens (s : State) (w : Workgroup) : (s.setWg w).tokens = s.tokens := rfl
@[simp] theorem setWg_locks (s : State) (w : Workgroup) : (s.setWg w).locks = s.locks := rfl
@[simp] theorem setWg_rflags (s : State) (w : Workgroup) : (s.setWg w).rflags = s.rflags := rfl
@[simp] theorem setWg_inbound (s : State) (w : Workgroup) : (s.setWg w).inbound = s.inbound := rfl
@[simp] theorem setWg_gregs (s : State) (w : Workgroup) : (s.setWg w).gregs = s.gregs := rfl
@[simp] theorem setWg_watches (s : State) (w : Workgroup) : (s.setWg w).watches = s.watches := rfl
@[simp] theorem setWg_celog (s : State) (w : Workgroup) : (s.setWg w).celog = s.celog := rfl
@[simp] theorem setWg_pubs (s : State) (w : Workgroup) : (s.setWg w).pubs = s.pubs := rfl
@[simp] theorem setWg_cagsIn (s : State) (w : Workgroup) : (s.setWg w).cagsIn = s.cagsIn := rfl
@[simp] theorem setWg_advances (s : State) (w : Workgroup) : (s.setWg w).advances = s.advances := rfl
@[simp] theorem setWg_bands (s : State) (w : Workgroup) : (s.setWg w).bands = s.bands := rfl
@[simp] theorem setWg_images (s : State) (w : Workgroup) : (s.setWg w).images = s.images := rfl
@[simp] theorem setWg_launches (s : State) (w : Workgroup) : (s.setWg w).launches = s.launches := rfl
@[simp] theorem setWg_pastLids (s : State) (w : Workgroup) : (s.setWg w).pastLids = s.pastLids := rfl
@[simp] theorem setWg_ops (s : State) (w : Workgroup) : (s.setWg w).ops = s.ops := rfl
@[simp] theorem setWg_evBuf (s : State) (w : Workgroup) : (s.setWg w).evBuf = s.evBuf := rfl
@[simp] theorem setWg_evHeld (s : State) (w : Workgroup) : (s.setWg w).evHeld = s.evHeld := rfl
@[simp] theorem setWg_evGap (s : State) (w : Workgroup) : (s.setWg w).evGap = s.evGap := rfl
@[simp] theorem setWg_evTimes (s : State) (w : Workgroup) : (s.setWg w).evTimes = s.evTimes := rfl
@[simp] theorem setWg_sent (s : State) (w : Workgroup) : (s.setWg w).sent = s.sent := rfl
@[simp] theorem setWg_msixPending (s : State) (w : Workgroup) : (s.setWg w).msixPending = s.msixPending := rfl
@[simp] theorem setWg_lastRead (s : State) (w : Workgroup) : (s.setWg w).lastRead = s.lastRead := rfl
@[simp] theorem setWg_rrQueue (s : State) (w : Workgroup) : (s.setWg w).rrQueue = s.rrQueue := rfl
@[simp] theorem setWg_qpairs (s : State) (w : Workgroup) : (s.setWg w).qpairs = s.qpairs := rfl
@[simp] theorem setWg_rrPair (s : State) (w : Workgroup) : (s.setWg w).rrPair = s.rrPair := rfl
@[simp] theorem setWg_snap (s : State) (w : Workgroup) : (s.setWg w).snap = s.snap := rfl
@[simp] theorem setWg_snapping (s : State) (w : Workgroup) : (s.setWg w).snapping = s.snapping := rfl
@[simp] theorem setWg_snapAt (s : State) (w : Workgroup) : (s.setWg w).snapAt = s.snapAt := rfl
@[simp] theorem setWg_hcmd (s : State) (w : Workgroup) : (s.setWg w).hcmd = s.hcmd := rfl
@[simp] theorem setWg_cancels (s : State) (w : Workgroup) : (s.setWg w).cancels = s.cancels := rfl
@[simp] theorem setWg_attest (s : State) (w : Workgroup) : (s.setWg w).attest = s.attest := rfl
@[simp] theorem setWg_reductions (s : State) (w : Workgroup) : (s.setWg w).reductions = s.reductions := rfl
@[simp] theorem setWg_ringParts (s : State) (w : Workgroup) : (s.setWg w).ringParts = s.ringParts := rfl
@[simp] theorem setWg_closed (s : State) (w : Workgroup) : (s.setWg w).closed = s.closed := rfl
@[simp] theorem setWg_drops (s : State) (w : Workgroup) : (s.setWg w).drops = s.drops := rfl
@[simp] theorem setWg_scalars (s : State) (w : Workgroup) : (s.setWg w).scalars = s.scalars := rfl
@[simp] theorem setWg_norms (s : State) (w : Workgroup) : (s.setWg w).norms = s.norms := rfl
@[simp] theorem setWg_stepClosed (s : State) (w : Workgroup) : (s.setWg w).stepClosed = s.stepClosed := rfl
@[simp] theorem setWg_closedHere (s : State) (w : Workgroup) : (s.setWg w).closedHere = s.closedHere := rfl
@[simp] theorem setWg_heldMsgs (s : State) (w : Workgroup) : (s.setWg w).heldMsgs = s.heldMsgs := rfl
@[simp] theorem setWg_weir (s : State) (w : Workgroup) : (s.setWg w).weir = s.weir := rfl
@[simp] theorem setWg_endpoints (s : State) (w : Workgroup) : (s.setWg w).endpoints = s.endpoints := rfl
@[simp] theorem setWg_upset (s : State) (w : Workgroup) : (s.setWg w).upset = s.upset := rfl
@[simp] theorem setWg_heldSlots (s : State) (w : Workgroup) : (s.setWg w).heldSlots = s.heldSlots := rfl
@[simp] theorem setWg_lastIssued (s : State) (w : Workgroup) : (s.setWg w).lastIssued = s.lastIssued := rfl
@[simp] theorem setWg_issuedAt (s : State) (w : Workgroup) : (s.setWg w).issuedAt = s.issuedAt := rfl
@[simp] theorem setWg_records (s : State) (w : Workgroup) : (s.setWg w).records = s.records := rfl
@[simp] theorem setWg_nextUid (s : State) (w : Workgroup) : (s.setWg w).nextUid = s.nextUid := rfl
@[simp] theorem setWg_freeCtr (s : State) (w : Workgroup) : (s.setWg w).freeCtr = s.freeCtr := rfl
@[simp] theorem setWg_stray (s : State) (w : Workgroup) : (s.setWg w).stray = s.stray := rfl
@[simp] theorem setWg_cur (s : State) (w : Workgroup) : (s.setWg w).cur = s.cur := rfl
@[simp] theorem setWg_agenda (s : State) (w : Workgroup) : (s.setWg w).agenda = s.agenda := rfl

/-! ### State.dropOp -/

@[simp] theorem dropOp_cycle (s : State) (u : Nat) : (s.dropOp u).cycle = s.cycle := rfl
@[simp] theorem dropOp_mem (s : State) (u : Nat) : (s.dropOp u).mem = s.mem := rfl
@[simp] theorem dropOp_poison (s : State) (u : Nat) : (s.dropOp u).poison = s.poison := rfl
@[simp] theorem dropOp_errs (s : State) (u : Nat) : (s.dropOp u).errs = s.errs := rfl
@[simp] theorem dropOp_sealed (s : State) (u : Nat) : (s.dropOp u).sealed = s.sealed := rfl
@[simp] theorem dropOp_keyGen (s : State) (u : Nat) : (s.dropOp u).keyGen = s.keyGen := rfl
@[simp] theorem dropOp_ls (s : State) (u : Nat) : (s.dropOp u).ls = s.ls := rfl
@[simp] theorem dropOp_regs (s : State) (u : Nat) : (s.dropOp u).regs = s.regs := rfl
@[simp] theorem dropOp_mailbox (s : State) (u : Nat) : (s.dropOp u).mailbox = s.mailbox := rfl
@[simp] theorem dropOp_bars (s : State) (u : Nat) : (s.dropOp u).bars = s.bars := rfl
@[simp] theorem dropOp_posted (s : State) (u : Nat) : (s.dropOp u).posted = s.posted := rfl
@[simp] theorem dropOp_carried (s : State) (u : Nat) : (s.dropOp u).carried = s.carried := rfl
@[simp] theorem dropOp_tlb (s : State) (u : Nat) : (s.dropOp u).tlb = s.tlb := rfl
@[simp] theorem dropOp_wcache (s : State) (u : Nat) : (s.dropOp u).wcache = s.wcache := rfl
@[simp] theorem dropOp_l1 (s : State) (u : Nat) : (s.dropOp u).l1 = s.l1 := rfl
@[simp] theorem dropOp_scClock (s : State) (u : Nat) : (s.dropOp u).scClock = s.scClock := rfl
@[simp] theorem dropOp_chClock (s : State) (u : Nat) : (s.dropOp u).chClock = s.chClock := rfl
@[simp] theorem dropOp_tokens (s : State) (u : Nat) : (s.dropOp u).tokens = s.tokens := rfl
@[simp] theorem dropOp_locks (s : State) (u : Nat) : (s.dropOp u).locks = s.locks := rfl
@[simp] theorem dropOp_rflags (s : State) (u : Nat) : (s.dropOp u).rflags = s.rflags := rfl
@[simp] theorem dropOp_inbound (s : State) (u : Nat) : (s.dropOp u).inbound = s.inbound := rfl
@[simp] theorem dropOp_gregs (s : State) (u : Nat) : (s.dropOp u).gregs = s.gregs := rfl
@[simp] theorem dropOp_watches (s : State) (u : Nat) : (s.dropOp u).watches = s.watches := rfl
@[simp] theorem dropOp_celog (s : State) (u : Nat) : (s.dropOp u).celog = s.celog := rfl
@[simp] theorem dropOp_pubs (s : State) (u : Nat) : (s.dropOp u).pubs = s.pubs := rfl
@[simp] theorem dropOp_cagsIn (s : State) (u : Nat) : (s.dropOp u).cagsIn = s.cagsIn := rfl
@[simp] theorem dropOp_advances (s : State) (u : Nat) : (s.dropOp u).advances = s.advances := rfl
@[simp] theorem dropOp_bands (s : State) (u : Nat) : (s.dropOp u).bands = s.bands := rfl
@[simp] theorem dropOp_wgs (s : State) (u : Nat) : (s.dropOp u).wgs = s.wgs := rfl
@[simp] theorem dropOp_images (s : State) (u : Nat) : (s.dropOp u).images = s.images := rfl
@[simp] theorem dropOp_launches (s : State) (u : Nat) : (s.dropOp u).launches = s.launches := rfl
@[simp] theorem dropOp_pastLids (s : State) (u : Nat) : (s.dropOp u).pastLids = s.pastLids := rfl
@[simp] theorem dropOp_evBuf (s : State) (u : Nat) : (s.dropOp u).evBuf = s.evBuf := rfl
@[simp] theorem dropOp_evHeld (s : State) (u : Nat) : (s.dropOp u).evHeld = s.evHeld := rfl
@[simp] theorem dropOp_evGap (s : State) (u : Nat) : (s.dropOp u).evGap = s.evGap := rfl
@[simp] theorem dropOp_evTimes (s : State) (u : Nat) : (s.dropOp u).evTimes = s.evTimes := rfl
@[simp] theorem dropOp_sent (s : State) (u : Nat) : (s.dropOp u).sent = s.sent := rfl
@[simp] theorem dropOp_msixPending (s : State) (u : Nat) : (s.dropOp u).msixPending = s.msixPending := rfl
@[simp] theorem dropOp_lastRead (s : State) (u : Nat) : (s.dropOp u).lastRead = s.lastRead := rfl
@[simp] theorem dropOp_rrQueue (s : State) (u : Nat) : (s.dropOp u).rrQueue = s.rrQueue := rfl
@[simp] theorem dropOp_qpairs (s : State) (u : Nat) : (s.dropOp u).qpairs = s.qpairs := rfl
@[simp] theorem dropOp_rrPair (s : State) (u : Nat) : (s.dropOp u).rrPair = s.rrPair := rfl
@[simp] theorem dropOp_snap (s : State) (u : Nat) : (s.dropOp u).snap = s.snap := rfl
@[simp] theorem dropOp_snapping (s : State) (u : Nat) : (s.dropOp u).snapping = s.snapping := rfl
@[simp] theorem dropOp_snapAt (s : State) (u : Nat) : (s.dropOp u).snapAt = s.snapAt := rfl
@[simp] theorem dropOp_hcmd (s : State) (u : Nat) : (s.dropOp u).hcmd = s.hcmd := rfl
@[simp] theorem dropOp_cancels (s : State) (u : Nat) : (s.dropOp u).cancels = s.cancels := rfl
@[simp] theorem dropOp_attest (s : State) (u : Nat) : (s.dropOp u).attest = s.attest := rfl
@[simp] theorem dropOp_reductions (s : State) (u : Nat) : (s.dropOp u).reductions = s.reductions := rfl
@[simp] theorem dropOp_ringParts (s : State) (u : Nat) : (s.dropOp u).ringParts = s.ringParts := rfl
@[simp] theorem dropOp_closed (s : State) (u : Nat) : (s.dropOp u).closed = s.closed := rfl
@[simp] theorem dropOp_drops (s : State) (u : Nat) : (s.dropOp u).drops = s.drops := rfl
@[simp] theorem dropOp_scalars (s : State) (u : Nat) : (s.dropOp u).scalars = s.scalars := rfl
@[simp] theorem dropOp_norms (s : State) (u : Nat) : (s.dropOp u).norms = s.norms := rfl
@[simp] theorem dropOp_stepClosed (s : State) (u : Nat) : (s.dropOp u).stepClosed = s.stepClosed := rfl
@[simp] theorem dropOp_closedHere (s : State) (u : Nat) : (s.dropOp u).closedHere = s.closedHere := rfl
@[simp] theorem dropOp_heldMsgs (s : State) (u : Nat) : (s.dropOp u).heldMsgs = s.heldMsgs := rfl
@[simp] theorem dropOp_weir (s : State) (u : Nat) : (s.dropOp u).weir = s.weir := rfl
@[simp] theorem dropOp_endpoints (s : State) (u : Nat) : (s.dropOp u).endpoints = s.endpoints := rfl
@[simp] theorem dropOp_upset (s : State) (u : Nat) : (s.dropOp u).upset = s.upset := rfl
@[simp] theorem dropOp_heldSlots (s : State) (u : Nat) : (s.dropOp u).heldSlots = s.heldSlots := rfl
@[simp] theorem dropOp_lastIssued (s : State) (u : Nat) : (s.dropOp u).lastIssued = s.lastIssued := rfl
@[simp] theorem dropOp_issuedAt (s : State) (u : Nat) : (s.dropOp u).issuedAt = s.issuedAt := rfl
@[simp] theorem dropOp_records (s : State) (u : Nat) : (s.dropOp u).records = s.records := rfl
@[simp] theorem dropOp_nextUid (s : State) (u : Nat) : (s.dropOp u).nextUid = s.nextUid := rfl
@[simp] theorem dropOp_freeCtr (s : State) (u : Nat) : (s.dropOp u).freeCtr = s.freeCtr := rfl
@[simp] theorem dropOp_stray (s : State) (u : Nat) : (s.dropOp u).stray = s.stray := rfl
@[simp] theorem dropOp_cur (s : State) (u : Nat) : (s.dropOp u).cur = s.cur := rfl
@[simp] theorem dropOp_agenda (s : State) (u : Nat) : (s.dropOp u).agenda = s.agenda := rfl

/-! ### State.addOp -/

@[simp] theorem addOp_cycle (s : State) (o : Op) : (s.addOp o).cycle = s.cycle := rfl
@[simp] theorem addOp_mem (s : State) (o : Op) : (s.addOp o).mem = s.mem := rfl
@[simp] theorem addOp_poison (s : State) (o : Op) : (s.addOp o).poison = s.poison := rfl
@[simp] theorem addOp_errs (s : State) (o : Op) : (s.addOp o).errs = s.errs := rfl
@[simp] theorem addOp_sealed (s : State) (o : Op) : (s.addOp o).sealed = s.sealed := rfl
@[simp] theorem addOp_keyGen (s : State) (o : Op) : (s.addOp o).keyGen = s.keyGen := rfl
@[simp] theorem addOp_ls (s : State) (o : Op) : (s.addOp o).ls = s.ls := rfl
@[simp] theorem addOp_regs (s : State) (o : Op) : (s.addOp o).regs = s.regs := rfl
@[simp] theorem addOp_mailbox (s : State) (o : Op) : (s.addOp o).mailbox = s.mailbox := rfl
@[simp] theorem addOp_bars (s : State) (o : Op) : (s.addOp o).bars = s.bars := rfl
@[simp] theorem addOp_posted (s : State) (o : Op) : (s.addOp o).posted = s.posted := rfl
@[simp] theorem addOp_carried (s : State) (o : Op) : (s.addOp o).carried = s.carried := rfl
@[simp] theorem addOp_tlb (s : State) (o : Op) : (s.addOp o).tlb = s.tlb := rfl
@[simp] theorem addOp_wcache (s : State) (o : Op) : (s.addOp o).wcache = s.wcache := rfl
@[simp] theorem addOp_l1 (s : State) (o : Op) : (s.addOp o).l1 = s.l1 := rfl
@[simp] theorem addOp_scClock (s : State) (o : Op) : (s.addOp o).scClock = s.scClock := rfl
@[simp] theorem addOp_chClock (s : State) (o : Op) : (s.addOp o).chClock = s.chClock := rfl
@[simp] theorem addOp_tokens (s : State) (o : Op) : (s.addOp o).tokens = s.tokens := rfl
@[simp] theorem addOp_locks (s : State) (o : Op) : (s.addOp o).locks = s.locks := rfl
@[simp] theorem addOp_rflags (s : State) (o : Op) : (s.addOp o).rflags = s.rflags := rfl
@[simp] theorem addOp_inbound (s : State) (o : Op) : (s.addOp o).inbound = s.inbound := rfl
@[simp] theorem addOp_gregs (s : State) (o : Op) : (s.addOp o).gregs = s.gregs := rfl
@[simp] theorem addOp_watches (s : State) (o : Op) : (s.addOp o).watches = s.watches := rfl
@[simp] theorem addOp_celog (s : State) (o : Op) : (s.addOp o).celog = s.celog := rfl
@[simp] theorem addOp_pubs (s : State) (o : Op) : (s.addOp o).pubs = s.pubs := rfl
@[simp] theorem addOp_cagsIn (s : State) (o : Op) : (s.addOp o).cagsIn = s.cagsIn := rfl
@[simp] theorem addOp_advances (s : State) (o : Op) : (s.addOp o).advances = s.advances := rfl
@[simp] theorem addOp_bands (s : State) (o : Op) : (s.addOp o).bands = s.bands := rfl
@[simp] theorem addOp_wgs (s : State) (o : Op) : (s.addOp o).wgs = s.wgs := rfl
@[simp] theorem addOp_images (s : State) (o : Op) : (s.addOp o).images = s.images := rfl
@[simp] theorem addOp_launches (s : State) (o : Op) : (s.addOp o).launches = s.launches := rfl
@[simp] theorem addOp_pastLids (s : State) (o : Op) : (s.addOp o).pastLids = s.pastLids := rfl
@[simp] theorem addOp_evBuf (s : State) (o : Op) : (s.addOp o).evBuf = s.evBuf := rfl
@[simp] theorem addOp_evHeld (s : State) (o : Op) : (s.addOp o).evHeld = s.evHeld := rfl
@[simp] theorem addOp_evGap (s : State) (o : Op) : (s.addOp o).evGap = s.evGap := rfl
@[simp] theorem addOp_evTimes (s : State) (o : Op) : (s.addOp o).evTimes = s.evTimes := rfl
@[simp] theorem addOp_sent (s : State) (o : Op) : (s.addOp o).sent = s.sent := rfl
@[simp] theorem addOp_msixPending (s : State) (o : Op) : (s.addOp o).msixPending = s.msixPending := rfl
@[simp] theorem addOp_lastRead (s : State) (o : Op) : (s.addOp o).lastRead = s.lastRead := rfl
@[simp] theorem addOp_rrQueue (s : State) (o : Op) : (s.addOp o).rrQueue = s.rrQueue := rfl
@[simp] theorem addOp_qpairs (s : State) (o : Op) : (s.addOp o).qpairs = s.qpairs := rfl
@[simp] theorem addOp_rrPair (s : State) (o : Op) : (s.addOp o).rrPair = s.rrPair := rfl
@[simp] theorem addOp_snap (s : State) (o : Op) : (s.addOp o).snap = s.snap := rfl
@[simp] theorem addOp_snapping (s : State) (o : Op) : (s.addOp o).snapping = s.snapping := rfl
@[simp] theorem addOp_snapAt (s : State) (o : Op) : (s.addOp o).snapAt = s.snapAt := rfl
@[simp] theorem addOp_hcmd (s : State) (o : Op) : (s.addOp o).hcmd = s.hcmd := rfl
@[simp] theorem addOp_cancels (s : State) (o : Op) : (s.addOp o).cancels = s.cancels := rfl
@[simp] theorem addOp_attest (s : State) (o : Op) : (s.addOp o).attest = s.attest := rfl
@[simp] theorem addOp_reductions (s : State) (o : Op) : (s.addOp o).reductions = s.reductions := rfl
@[simp] theorem addOp_ringParts (s : State) (o : Op) : (s.addOp o).ringParts = s.ringParts := rfl
@[simp] theorem addOp_closed (s : State) (o : Op) : (s.addOp o).closed = s.closed := rfl
@[simp] theorem addOp_drops (s : State) (o : Op) : (s.addOp o).drops = s.drops := rfl
@[simp] theorem addOp_scalars (s : State) (o : Op) : (s.addOp o).scalars = s.scalars := rfl
@[simp] theorem addOp_norms (s : State) (o : Op) : (s.addOp o).norms = s.norms := rfl
@[simp] theorem addOp_stepClosed (s : State) (o : Op) : (s.addOp o).stepClosed = s.stepClosed := rfl
@[simp] theorem addOp_closedHere (s : State) (o : Op) : (s.addOp o).closedHere = s.closedHere := rfl
@[simp] theorem addOp_heldMsgs (s : State) (o : Op) : (s.addOp o).heldMsgs = s.heldMsgs := rfl
@[simp] theorem addOp_weir (s : State) (o : Op) : (s.addOp o).weir = s.weir := rfl
@[simp] theorem addOp_endpoints (s : State) (o : Op) : (s.addOp o).endpoints = s.endpoints := rfl
@[simp] theorem addOp_upset (s : State) (o : Op) : (s.addOp o).upset = s.upset := rfl
@[simp] theorem addOp_heldSlots (s : State) (o : Op) : (s.addOp o).heldSlots = s.heldSlots := rfl
@[simp] theorem addOp_lastIssued (s : State) (o : Op) : (s.addOp o).lastIssued = s.lastIssued := rfl
@[simp] theorem addOp_issuedAt (s : State) (o : Op) : (s.addOp o).issuedAt = s.issuedAt := rfl
@[simp] theorem addOp_records (s : State) (o : Op) : (s.addOp o).records = s.records := rfl
@[simp] theorem addOp_nextUid (s : State) (o : Op) : (s.addOp o).nextUid = s.nextUid := rfl
@[simp] theorem addOp_freeCtr (s : State) (o : Op) : (s.addOp o).freeCtr = s.freeCtr := rfl
@[simp] theorem addOp_stray (s : State) (o : Op) : (s.addOp o).stray = s.stray := rfl
@[simp] theorem addOp_cur (s : State) (o : Op) : (s.addOp o).cur = s.cur := rfl
@[simp] theorem addOp_agenda (s : State) (o : Op) : (s.addOp o).agenda = s.agenda := rfl

/-! ### State.setOp -/

@[simp] theorem setOp_cycle (s : State) (o : Op) : (s.setOp o).cycle = s.cycle := rfl
@[simp] theorem setOp_mem (s : State) (o : Op) : (s.setOp o).mem = s.mem := rfl
@[simp] theorem setOp_poison (s : State) (o : Op) : (s.setOp o).poison = s.poison := rfl
@[simp] theorem setOp_errs (s : State) (o : Op) : (s.setOp o).errs = s.errs := rfl
@[simp] theorem setOp_sealed (s : State) (o : Op) : (s.setOp o).sealed = s.sealed := rfl
@[simp] theorem setOp_keyGen (s : State) (o : Op) : (s.setOp o).keyGen = s.keyGen := rfl
@[simp] theorem setOp_ls (s : State) (o : Op) : (s.setOp o).ls = s.ls := rfl
@[simp] theorem setOp_regs (s : State) (o : Op) : (s.setOp o).regs = s.regs := rfl
@[simp] theorem setOp_mailbox (s : State) (o : Op) : (s.setOp o).mailbox = s.mailbox := rfl
@[simp] theorem setOp_bars (s : State) (o : Op) : (s.setOp o).bars = s.bars := rfl
@[simp] theorem setOp_posted (s : State) (o : Op) : (s.setOp o).posted = s.posted := rfl
@[simp] theorem setOp_carried (s : State) (o : Op) : (s.setOp o).carried = s.carried := rfl
@[simp] theorem setOp_tlb (s : State) (o : Op) : (s.setOp o).tlb = s.tlb := rfl
@[simp] theorem setOp_wcache (s : State) (o : Op) : (s.setOp o).wcache = s.wcache := rfl
@[simp] theorem setOp_l1 (s : State) (o : Op) : (s.setOp o).l1 = s.l1 := rfl
@[simp] theorem setOp_scClock (s : State) (o : Op) : (s.setOp o).scClock = s.scClock := rfl
@[simp] theorem setOp_chClock (s : State) (o : Op) : (s.setOp o).chClock = s.chClock := rfl
@[simp] theorem setOp_tokens (s : State) (o : Op) : (s.setOp o).tokens = s.tokens := rfl
@[simp] theorem setOp_locks (s : State) (o : Op) : (s.setOp o).locks = s.locks := rfl
@[simp] theorem setOp_rflags (s : State) (o : Op) : (s.setOp o).rflags = s.rflags := rfl
@[simp] theorem setOp_inbound (s : State) (o : Op) : (s.setOp o).inbound = s.inbound := rfl
@[simp] theorem setOp_gregs (s : State) (o : Op) : (s.setOp o).gregs = s.gregs := rfl
@[simp] theorem setOp_watches (s : State) (o : Op) : (s.setOp o).watches = s.watches := rfl
@[simp] theorem setOp_celog (s : State) (o : Op) : (s.setOp o).celog = s.celog := rfl
@[simp] theorem setOp_pubs (s : State) (o : Op) : (s.setOp o).pubs = s.pubs := rfl
@[simp] theorem setOp_cagsIn (s : State) (o : Op) : (s.setOp o).cagsIn = s.cagsIn := rfl
@[simp] theorem setOp_advances (s : State) (o : Op) : (s.setOp o).advances = s.advances := rfl
@[simp] theorem setOp_bands (s : State) (o : Op) : (s.setOp o).bands = s.bands := rfl
@[simp] theorem setOp_wgs (s : State) (o : Op) : (s.setOp o).wgs = s.wgs := rfl
@[simp] theorem setOp_images (s : State) (o : Op) : (s.setOp o).images = s.images := rfl
@[simp] theorem setOp_launches (s : State) (o : Op) : (s.setOp o).launches = s.launches := rfl
@[simp] theorem setOp_pastLids (s : State) (o : Op) : (s.setOp o).pastLids = s.pastLids := rfl
@[simp] theorem setOp_evBuf (s : State) (o : Op) : (s.setOp o).evBuf = s.evBuf := rfl
@[simp] theorem setOp_evHeld (s : State) (o : Op) : (s.setOp o).evHeld = s.evHeld := rfl
@[simp] theorem setOp_evGap (s : State) (o : Op) : (s.setOp o).evGap = s.evGap := rfl
@[simp] theorem setOp_evTimes (s : State) (o : Op) : (s.setOp o).evTimes = s.evTimes := rfl
@[simp] theorem setOp_sent (s : State) (o : Op) : (s.setOp o).sent = s.sent := rfl
@[simp] theorem setOp_msixPending (s : State) (o : Op) : (s.setOp o).msixPending = s.msixPending := rfl
@[simp] theorem setOp_lastRead (s : State) (o : Op) : (s.setOp o).lastRead = s.lastRead := rfl
@[simp] theorem setOp_rrQueue (s : State) (o : Op) : (s.setOp o).rrQueue = s.rrQueue := rfl
@[simp] theorem setOp_qpairs (s : State) (o : Op) : (s.setOp o).qpairs = s.qpairs := rfl
@[simp] theorem setOp_rrPair (s : State) (o : Op) : (s.setOp o).rrPair = s.rrPair := rfl
@[simp] theorem setOp_snap (s : State) (o : Op) : (s.setOp o).snap = s.snap := rfl
@[simp] theorem setOp_snapping (s : State) (o : Op) : (s.setOp o).snapping = s.snapping := rfl
@[simp] theorem setOp_snapAt (s : State) (o : Op) : (s.setOp o).snapAt = s.snapAt := rfl
@[simp] theorem setOp_hcmd (s : State) (o : Op) : (s.setOp o).hcmd = s.hcmd := rfl
@[simp] theorem setOp_cancels (s : State) (o : Op) : (s.setOp o).cancels = s.cancels := rfl
@[simp] theorem setOp_attest (s : State) (o : Op) : (s.setOp o).attest = s.attest := rfl
@[simp] theorem setOp_reductions (s : State) (o : Op) : (s.setOp o).reductions = s.reductions := rfl
@[simp] theorem setOp_ringParts (s : State) (o : Op) : (s.setOp o).ringParts = s.ringParts := rfl
@[simp] theorem setOp_closed (s : State) (o : Op) : (s.setOp o).closed = s.closed := rfl
@[simp] theorem setOp_drops (s : State) (o : Op) : (s.setOp o).drops = s.drops := rfl
@[simp] theorem setOp_scalars (s : State) (o : Op) : (s.setOp o).scalars = s.scalars := rfl
@[simp] theorem setOp_norms (s : State) (o : Op) : (s.setOp o).norms = s.norms := rfl
@[simp] theorem setOp_stepClosed (s : State) (o : Op) : (s.setOp o).stepClosed = s.stepClosed := rfl
@[simp] theorem setOp_closedHere (s : State) (o : Op) : (s.setOp o).closedHere = s.closedHere := rfl
@[simp] theorem setOp_heldMsgs (s : State) (o : Op) : (s.setOp o).heldMsgs = s.heldMsgs := rfl
@[simp] theorem setOp_weir (s : State) (o : Op) : (s.setOp o).weir = s.weir := rfl
@[simp] theorem setOp_endpoints (s : State) (o : Op) : (s.setOp o).endpoints = s.endpoints := rfl
@[simp] theorem setOp_upset (s : State) (o : Op) : (s.setOp o).upset = s.upset := rfl
@[simp] theorem setOp_heldSlots (s : State) (o : Op) : (s.setOp o).heldSlots = s.heldSlots := rfl
@[simp] theorem setOp_lastIssued (s : State) (o : Op) : (s.setOp o).lastIssued = s.lastIssued := rfl
@[simp] theorem setOp_issuedAt (s : State) (o : Op) : (s.setOp o).issuedAt = s.issuedAt := rfl
@[simp] theorem setOp_records (s : State) (o : Op) : (s.setOp o).records = s.records := rfl
@[simp] theorem setOp_nextUid (s : State) (o : Op) : (s.setOp o).nextUid = s.nextUid := rfl
@[simp] theorem setOp_freeCtr (s : State) (o : Op) : (s.setOp o).freeCtr = s.freeCtr := rfl
@[simp] theorem setOp_stray (s : State) (o : Op) : (s.setOp o).stray = s.stray := rfl
@[simp] theorem setOp_cur (s : State) (o : Op) : (s.setOp o).cur = s.cur := rfl
@[simp] theorem setOp_agenda (s : State) (o : Op) : (s.setOp o).agenda = s.agenda := rfl

/-! ### State.setReg -/

@[simp] theorem setReg_cycle (s : State) (k : Nat) (w : W64) : (s.setReg k w).cycle = s.cycle := rfl
@[simp] theorem setReg_mem (s : State) (k : Nat) (w : W64) : (s.setReg k w).mem = s.mem := rfl
@[simp] theorem setReg_poison (s : State) (k : Nat) (w : W64) : (s.setReg k w).poison = s.poison := rfl
@[simp] theorem setReg_errs (s : State) (k : Nat) (w : W64) : (s.setReg k w).errs = s.errs := rfl
@[simp] theorem setReg_sealed (s : State) (k : Nat) (w : W64) : (s.setReg k w).sealed = s.sealed := rfl
@[simp] theorem setReg_keyGen (s : State) (k : Nat) (w : W64) : (s.setReg k w).keyGen = s.keyGen := rfl
@[simp] theorem setReg_ls (s : State) (k : Nat) (w : W64) : (s.setReg k w).ls = s.ls := rfl
@[simp] theorem setReg_mailbox (s : State) (k : Nat) (w : W64) : (s.setReg k w).mailbox = s.mailbox := rfl
@[simp] theorem setReg_bars (s : State) (k : Nat) (w : W64) : (s.setReg k w).bars = s.bars := rfl
@[simp] theorem setReg_posted (s : State) (k : Nat) (w : W64) : (s.setReg k w).posted = s.posted := rfl
@[simp] theorem setReg_carried (s : State) (k : Nat) (w : W64) : (s.setReg k w).carried = s.carried := rfl
@[simp] theorem setReg_tlb (s : State) (k : Nat) (w : W64) : (s.setReg k w).tlb = s.tlb := rfl
@[simp] theorem setReg_wcache (s : State) (k : Nat) (w : W64) : (s.setReg k w).wcache = s.wcache := rfl
@[simp] theorem setReg_l1 (s : State) (k : Nat) (w : W64) : (s.setReg k w).l1 = s.l1 := rfl
@[simp] theorem setReg_scClock (s : State) (k : Nat) (w : W64) : (s.setReg k w).scClock = s.scClock := rfl
@[simp] theorem setReg_chClock (s : State) (k : Nat) (w : W64) : (s.setReg k w).chClock = s.chClock := rfl
@[simp] theorem setReg_tokens (s : State) (k : Nat) (w : W64) : (s.setReg k w).tokens = s.tokens := rfl
@[simp] theorem setReg_locks (s : State) (k : Nat) (w : W64) : (s.setReg k w).locks = s.locks := rfl
@[simp] theorem setReg_rflags (s : State) (k : Nat) (w : W64) : (s.setReg k w).rflags = s.rflags := rfl
@[simp] theorem setReg_inbound (s : State) (k : Nat) (w : W64) : (s.setReg k w).inbound = s.inbound := rfl
@[simp] theorem setReg_gregs (s : State) (k : Nat) (w : W64) : (s.setReg k w).gregs = s.gregs := rfl
@[simp] theorem setReg_watches (s : State) (k : Nat) (w : W64) : (s.setReg k w).watches = s.watches := rfl
@[simp] theorem setReg_celog (s : State) (k : Nat) (w : W64) : (s.setReg k w).celog = s.celog := rfl
@[simp] theorem setReg_pubs (s : State) (k : Nat) (w : W64) : (s.setReg k w).pubs = s.pubs := rfl
@[simp] theorem setReg_cagsIn (s : State) (k : Nat) (w : W64) : (s.setReg k w).cagsIn = s.cagsIn := rfl
@[simp] theorem setReg_advances (s : State) (k : Nat) (w : W64) : (s.setReg k w).advances = s.advances := rfl
@[simp] theorem setReg_bands (s : State) (k : Nat) (w : W64) : (s.setReg k w).bands = s.bands := rfl
@[simp] theorem setReg_wgs (s : State) (k : Nat) (w : W64) : (s.setReg k w).wgs = s.wgs := rfl
@[simp] theorem setReg_images (s : State) (k : Nat) (w : W64) : (s.setReg k w).images = s.images := rfl
@[simp] theorem setReg_launches (s : State) (k : Nat) (w : W64) : (s.setReg k w).launches = s.launches := rfl
@[simp] theorem setReg_pastLids (s : State) (k : Nat) (w : W64) : (s.setReg k w).pastLids = s.pastLids := rfl
@[simp] theorem setReg_ops (s : State) (k : Nat) (w : W64) : (s.setReg k w).ops = s.ops := rfl
@[simp] theorem setReg_evBuf (s : State) (k : Nat) (w : W64) : (s.setReg k w).evBuf = s.evBuf := rfl
@[simp] theorem setReg_evHeld (s : State) (k : Nat) (w : W64) : (s.setReg k w).evHeld = s.evHeld := rfl
@[simp] theorem setReg_evGap (s : State) (k : Nat) (w : W64) : (s.setReg k w).evGap = s.evGap := rfl
@[simp] theorem setReg_evTimes (s : State) (k : Nat) (w : W64) : (s.setReg k w).evTimes = s.evTimes := rfl
@[simp] theorem setReg_sent (s : State) (k : Nat) (w : W64) : (s.setReg k w).sent = s.sent := rfl
@[simp] theorem setReg_msixPending (s : State) (k : Nat) (w : W64) : (s.setReg k w).msixPending = s.msixPending := rfl
@[simp] theorem setReg_lastRead (s : State) (k : Nat) (w : W64) : (s.setReg k w).lastRead = s.lastRead := rfl
@[simp] theorem setReg_rrQueue (s : State) (k : Nat) (w : W64) : (s.setReg k w).rrQueue = s.rrQueue := rfl
@[simp] theorem setReg_qpairs (s : State) (k : Nat) (w : W64) : (s.setReg k w).qpairs = s.qpairs := rfl
@[simp] theorem setReg_rrPair (s : State) (k : Nat) (w : W64) : (s.setReg k w).rrPair = s.rrPair := rfl
@[simp] theorem setReg_snap (s : State) (k : Nat) (w : W64) : (s.setReg k w).snap = s.snap := rfl
@[simp] theorem setReg_snapping (s : State) (k : Nat) (w : W64) : (s.setReg k w).snapping = s.snapping := rfl
@[simp] theorem setReg_snapAt (s : State) (k : Nat) (w : W64) : (s.setReg k w).snapAt = s.snapAt := rfl
@[simp] theorem setReg_hcmd (s : State) (k : Nat) (w : W64) : (s.setReg k w).hcmd = s.hcmd := rfl
@[simp] theorem setReg_cancels (s : State) (k : Nat) (w : W64) : (s.setReg k w).cancels = s.cancels := rfl
@[simp] theorem setReg_attest (s : State) (k : Nat) (w : W64) : (s.setReg k w).attest = s.attest := rfl
@[simp] theorem setReg_reductions (s : State) (k : Nat) (w : W64) : (s.setReg k w).reductions = s.reductions := rfl
@[simp] theorem setReg_ringParts (s : State) (k : Nat) (w : W64) : (s.setReg k w).ringParts = s.ringParts := rfl
@[simp] theorem setReg_closed (s : State) (k : Nat) (w : W64) : (s.setReg k w).closed = s.closed := rfl
@[simp] theorem setReg_drops (s : State) (k : Nat) (w : W64) : (s.setReg k w).drops = s.drops := rfl
@[simp] theorem setReg_scalars (s : State) (k : Nat) (w : W64) : (s.setReg k w).scalars = s.scalars := rfl
@[simp] theorem setReg_norms (s : State) (k : Nat) (w : W64) : (s.setReg k w).norms = s.norms := rfl
@[simp] theorem setReg_stepClosed (s : State) (k : Nat) (w : W64) : (s.setReg k w).stepClosed = s.stepClosed := rfl
@[simp] theorem setReg_closedHere (s : State) (k : Nat) (w : W64) : (s.setReg k w).closedHere = s.closedHere := rfl
@[simp] theorem setReg_heldMsgs (s : State) (k : Nat) (w : W64) : (s.setReg k w).heldMsgs = s.heldMsgs := rfl
@[simp] theorem setReg_weir (s : State) (k : Nat) (w : W64) : (s.setReg k w).weir = s.weir := rfl
@[simp] theorem setReg_endpoints (s : State) (k : Nat) (w : W64) : (s.setReg k w).endpoints = s.endpoints := rfl
@[simp] theorem setReg_upset (s : State) (k : Nat) (w : W64) : (s.setReg k w).upset = s.upset := rfl
@[simp] theorem setReg_heldSlots (s : State) (k : Nat) (w : W64) : (s.setReg k w).heldSlots = s.heldSlots := rfl
@[simp] theorem setReg_lastIssued (s : State) (k : Nat) (w : W64) : (s.setReg k w).lastIssued = s.lastIssued := rfl
@[simp] theorem setReg_issuedAt (s : State) (k : Nat) (w : W64) : (s.setReg k w).issuedAt = s.issuedAt := rfl
@[simp] theorem setReg_records (s : State) (k : Nat) (w : W64) : (s.setReg k w).records = s.records := rfl
@[simp] theorem setReg_nextUid (s : State) (k : Nat) (w : W64) : (s.setReg k w).nextUid = s.nextUid := rfl
@[simp] theorem setReg_freeCtr (s : State) (k : Nat) (w : W64) : (s.setReg k w).freeCtr = s.freeCtr := rfl
@[simp] theorem setReg_stray (s : State) (k : Nat) (w : W64) : (s.setReg k w).stray = s.stray := rfl
@[simp] theorem setReg_cur (s : State) (k : Nat) (w : W64) : (s.setReg k w).cur = s.cur := rfl
@[simp] theorem setReg_agenda (s : State) (k : Nat) (w : W64) : (s.setReg k w).agenda = s.agenda := rfl

/-! ### State.setLs -/

@[simp] theorem setLs_cycle (s : State) (k : Nat) (x : Byte) : (s.setLs k x).cycle = s.cycle := rfl
@[simp] theorem setLs_mem (s : State) (k : Nat) (x : Byte) : (s.setLs k x).mem = s.mem := rfl
@[simp] theorem setLs_poison (s : State) (k : Nat) (x : Byte) : (s.setLs k x).poison = s.poison := rfl
@[simp] theorem setLs_errs (s : State) (k : Nat) (x : Byte) : (s.setLs k x).errs = s.errs := rfl
@[simp] theorem setLs_sealed (s : State) (k : Nat) (x : Byte) : (s.setLs k x).sealed = s.sealed := rfl
@[simp] theorem setLs_keyGen (s : State) (k : Nat) (x : Byte) : (s.setLs k x).keyGen = s.keyGen := rfl
@[simp] theorem setLs_regs (s : State) (k : Nat) (x : Byte) : (s.setLs k x).regs = s.regs := rfl
@[simp] theorem setLs_mailbox (s : State) (k : Nat) (x : Byte) : (s.setLs k x).mailbox = s.mailbox := rfl
@[simp] theorem setLs_bars (s : State) (k : Nat) (x : Byte) : (s.setLs k x).bars = s.bars := rfl
@[simp] theorem setLs_posted (s : State) (k : Nat) (x : Byte) : (s.setLs k x).posted = s.posted := rfl
@[simp] theorem setLs_carried (s : State) (k : Nat) (x : Byte) : (s.setLs k x).carried = s.carried := rfl
@[simp] theorem setLs_tlb (s : State) (k : Nat) (x : Byte) : (s.setLs k x).tlb = s.tlb := rfl
@[simp] theorem setLs_wcache (s : State) (k : Nat) (x : Byte) : (s.setLs k x).wcache = s.wcache := rfl
@[simp] theorem setLs_l1 (s : State) (k : Nat) (x : Byte) : (s.setLs k x).l1 = s.l1 := rfl
@[simp] theorem setLs_scClock (s : State) (k : Nat) (x : Byte) : (s.setLs k x).scClock = s.scClock := rfl
@[simp] theorem setLs_chClock (s : State) (k : Nat) (x : Byte) : (s.setLs k x).chClock = s.chClock := rfl
@[simp] theorem setLs_tokens (s : State) (k : Nat) (x : Byte) : (s.setLs k x).tokens = s.tokens := rfl
@[simp] theorem setLs_locks (s : State) (k : Nat) (x : Byte) : (s.setLs k x).locks = s.locks := rfl
@[simp] theorem setLs_rflags (s : State) (k : Nat) (x : Byte) : (s.setLs k x).rflags = s.rflags := rfl
@[simp] theorem setLs_inbound (s : State) (k : Nat) (x : Byte) : (s.setLs k x).inbound = s.inbound := rfl
@[simp] theorem setLs_gregs (s : State) (k : Nat) (x : Byte) : (s.setLs k x).gregs = s.gregs := rfl
@[simp] theorem setLs_watches (s : State) (k : Nat) (x : Byte) : (s.setLs k x).watches = s.watches := rfl
@[simp] theorem setLs_celog (s : State) (k : Nat) (x : Byte) : (s.setLs k x).celog = s.celog := rfl
@[simp] theorem setLs_pubs (s : State) (k : Nat) (x : Byte) : (s.setLs k x).pubs = s.pubs := rfl
@[simp] theorem setLs_cagsIn (s : State) (k : Nat) (x : Byte) : (s.setLs k x).cagsIn = s.cagsIn := rfl
@[simp] theorem setLs_advances (s : State) (k : Nat) (x : Byte) : (s.setLs k x).advances = s.advances := rfl
@[simp] theorem setLs_bands (s : State) (k : Nat) (x : Byte) : (s.setLs k x).bands = s.bands := rfl
@[simp] theorem setLs_wgs (s : State) (k : Nat) (x : Byte) : (s.setLs k x).wgs = s.wgs := rfl
@[simp] theorem setLs_images (s : State) (k : Nat) (x : Byte) : (s.setLs k x).images = s.images := rfl
@[simp] theorem setLs_launches (s : State) (k : Nat) (x : Byte) : (s.setLs k x).launches = s.launches := rfl
@[simp] theorem setLs_pastLids (s : State) (k : Nat) (x : Byte) : (s.setLs k x).pastLids = s.pastLids := rfl
@[simp] theorem setLs_ops (s : State) (k : Nat) (x : Byte) : (s.setLs k x).ops = s.ops := rfl
@[simp] theorem setLs_evBuf (s : State) (k : Nat) (x : Byte) : (s.setLs k x).evBuf = s.evBuf := rfl
@[simp] theorem setLs_evHeld (s : State) (k : Nat) (x : Byte) : (s.setLs k x).evHeld = s.evHeld := rfl
@[simp] theorem setLs_evGap (s : State) (k : Nat) (x : Byte) : (s.setLs k x).evGap = s.evGap := rfl
@[simp] theorem setLs_evTimes (s : State) (k : Nat) (x : Byte) : (s.setLs k x).evTimes = s.evTimes := rfl
@[simp] theorem setLs_sent (s : State) (k : Nat) (x : Byte) : (s.setLs k x).sent = s.sent := rfl
@[simp] theorem setLs_msixPending (s : State) (k : Nat) (x : Byte) : (s.setLs k x).msixPending = s.msixPending := rfl
@[simp] theorem setLs_lastRead (s : State) (k : Nat) (x : Byte) : (s.setLs k x).lastRead = s.lastRead := rfl
@[simp] theorem setLs_rrQueue (s : State) (k : Nat) (x : Byte) : (s.setLs k x).rrQueue = s.rrQueue := rfl
@[simp] theorem setLs_qpairs (s : State) (k : Nat) (x : Byte) : (s.setLs k x).qpairs = s.qpairs := rfl
@[simp] theorem setLs_rrPair (s : State) (k : Nat) (x : Byte) : (s.setLs k x).rrPair = s.rrPair := rfl
@[simp] theorem setLs_snap (s : State) (k : Nat) (x : Byte) : (s.setLs k x).snap = s.snap := rfl
@[simp] theorem setLs_snapping (s : State) (k : Nat) (x : Byte) : (s.setLs k x).snapping = s.snapping := rfl
@[simp] theorem setLs_snapAt (s : State) (k : Nat) (x : Byte) : (s.setLs k x).snapAt = s.snapAt := rfl
@[simp] theorem setLs_hcmd (s : State) (k : Nat) (x : Byte) : (s.setLs k x).hcmd = s.hcmd := rfl
@[simp] theorem setLs_cancels (s : State) (k : Nat) (x : Byte) : (s.setLs k x).cancels = s.cancels := rfl
@[simp] theorem setLs_attest (s : State) (k : Nat) (x : Byte) : (s.setLs k x).attest = s.attest := rfl
@[simp] theorem setLs_reductions (s : State) (k : Nat) (x : Byte) : (s.setLs k x).reductions = s.reductions := rfl
@[simp] theorem setLs_ringParts (s : State) (k : Nat) (x : Byte) : (s.setLs k x).ringParts = s.ringParts := rfl
@[simp] theorem setLs_closed (s : State) (k : Nat) (x : Byte) : (s.setLs k x).closed = s.closed := rfl
@[simp] theorem setLs_drops (s : State) (k : Nat) (x : Byte) : (s.setLs k x).drops = s.drops := rfl
@[simp] theorem setLs_scalars (s : State) (k : Nat) (x : Byte) : (s.setLs k x).scalars = s.scalars := rfl
@[simp] theorem setLs_norms (s : State) (k : Nat) (x : Byte) : (s.setLs k x).norms = s.norms := rfl
@[simp] theorem setLs_stepClosed (s : State) (k : Nat) (x : Byte) : (s.setLs k x).stepClosed = s.stepClosed := rfl
@[simp] theorem setLs_closedHere (s : State) (k : Nat) (x : Byte) : (s.setLs k x).closedHere = s.closedHere := rfl
@[simp] theorem setLs_heldMsgs (s : State) (k : Nat) (x : Byte) : (s.setLs k x).heldMsgs = s.heldMsgs := rfl
@[simp] theorem setLs_weir (s : State) (k : Nat) (x : Byte) : (s.setLs k x).weir = s.weir := rfl
@[simp] theorem setLs_endpoints (s : State) (k : Nat) (x : Byte) : (s.setLs k x).endpoints = s.endpoints := rfl
@[simp] theorem setLs_upset (s : State) (k : Nat) (x : Byte) : (s.setLs k x).upset = s.upset := rfl
@[simp] theorem setLs_heldSlots (s : State) (k : Nat) (x : Byte) : (s.setLs k x).heldSlots = s.heldSlots := rfl
@[simp] theorem setLs_lastIssued (s : State) (k : Nat) (x : Byte) : (s.setLs k x).lastIssued = s.lastIssued := rfl
@[simp] theorem setLs_issuedAt (s : State) (k : Nat) (x : Byte) : (s.setLs k x).issuedAt = s.issuedAt := rfl
@[simp] theorem setLs_records (s : State) (k : Nat) (x : Byte) : (s.setLs k x).records = s.records := rfl
@[simp] theorem setLs_nextUid (s : State) (k : Nat) (x : Byte) : (s.setLs k x).nextUid = s.nextUid := rfl
@[simp] theorem setLs_freeCtr (s : State) (k : Nat) (x : Byte) : (s.setLs k x).freeCtr = s.freeCtr := rfl
@[simp] theorem setLs_stray (s : State) (k : Nat) (x : Byte) : (s.setLs k x).stray = s.stray := rfl
@[simp] theorem setLs_cur (s : State) (k : Nat) (x : Byte) : (s.setLs k x).cur = s.cur := rfl
@[simp] theorem setLs_agenda (s : State) (k : Nat) (x : Byte) : (s.setLs k x).agenda = s.agenda := rfl

/-! ### State.send -/

@[simp] theorem send_cycle (s : State) (x : Sent) : (s.send x).cycle = s.cycle := rfl
@[simp] theorem send_mem (s : State) (x : Sent) : (s.send x).mem = s.mem := rfl
@[simp] theorem send_poison (s : State) (x : Sent) : (s.send x).poison = s.poison := rfl
@[simp] theorem send_errs (s : State) (x : Sent) : (s.send x).errs = s.errs := rfl
@[simp] theorem send_sealed (s : State) (x : Sent) : (s.send x).sealed = s.sealed := rfl
@[simp] theorem send_keyGen (s : State) (x : Sent) : (s.send x).keyGen = s.keyGen := rfl
@[simp] theorem send_ls (s : State) (x : Sent) : (s.send x).ls = s.ls := rfl
@[simp] theorem send_regs (s : State) (x : Sent) : (s.send x).regs = s.regs := rfl
@[simp] theorem send_mailbox (s : State) (x : Sent) : (s.send x).mailbox = s.mailbox := rfl
@[simp] theorem send_bars (s : State) (x : Sent) : (s.send x).bars = s.bars := rfl
@[simp] theorem send_posted (s : State) (x : Sent) : (s.send x).posted = s.posted := rfl
@[simp] theorem send_carried (s : State) (x : Sent) : (s.send x).carried = s.carried := rfl
@[simp] theorem send_tlb (s : State) (x : Sent) : (s.send x).tlb = s.tlb := rfl
@[simp] theorem send_wcache (s : State) (x : Sent) : (s.send x).wcache = s.wcache := rfl
@[simp] theorem send_l1 (s : State) (x : Sent) : (s.send x).l1 = s.l1 := rfl
@[simp] theorem send_scClock (s : State) (x : Sent) : (s.send x).scClock = s.scClock := rfl
@[simp] theorem send_chClock (s : State) (x : Sent) : (s.send x).chClock = s.chClock := rfl
@[simp] theorem send_tokens (s : State) (x : Sent) : (s.send x).tokens = s.tokens := rfl
@[simp] theorem send_locks (s : State) (x : Sent) : (s.send x).locks = s.locks := rfl
@[simp] theorem send_rflags (s : State) (x : Sent) : (s.send x).rflags = s.rflags := rfl
@[simp] theorem send_inbound (s : State) (x : Sent) : (s.send x).inbound = s.inbound := rfl
@[simp] theorem send_gregs (s : State) (x : Sent) : (s.send x).gregs = s.gregs := rfl
@[simp] theorem send_watches (s : State) (x : Sent) : (s.send x).watches = s.watches := rfl
@[simp] theorem send_celog (s : State) (x : Sent) : (s.send x).celog = s.celog := rfl
@[simp] theorem send_pubs (s : State) (x : Sent) : (s.send x).pubs = s.pubs := rfl
@[simp] theorem send_cagsIn (s : State) (x : Sent) : (s.send x).cagsIn = s.cagsIn := rfl
@[simp] theorem send_advances (s : State) (x : Sent) : (s.send x).advances = s.advances := rfl
@[simp] theorem send_bands (s : State) (x : Sent) : (s.send x).bands = s.bands := rfl
@[simp] theorem send_wgs (s : State) (x : Sent) : (s.send x).wgs = s.wgs := rfl
@[simp] theorem send_images (s : State) (x : Sent) : (s.send x).images = s.images := rfl
@[simp] theorem send_launches (s : State) (x : Sent) : (s.send x).launches = s.launches := rfl
@[simp] theorem send_pastLids (s : State) (x : Sent) : (s.send x).pastLids = s.pastLids := rfl
@[simp] theorem send_ops (s : State) (x : Sent) : (s.send x).ops = s.ops := rfl
@[simp] theorem send_evBuf (s : State) (x : Sent) : (s.send x).evBuf = s.evBuf := rfl
@[simp] theorem send_evHeld (s : State) (x : Sent) : (s.send x).evHeld = s.evHeld := rfl
@[simp] theorem send_evGap (s : State) (x : Sent) : (s.send x).evGap = s.evGap := rfl
@[simp] theorem send_evTimes (s : State) (x : Sent) : (s.send x).evTimes = s.evTimes := rfl
@[simp] theorem send_msixPending (s : State) (x : Sent) : (s.send x).msixPending = s.msixPending := rfl
@[simp] theorem send_lastRead (s : State) (x : Sent) : (s.send x).lastRead = s.lastRead := rfl
@[simp] theorem send_rrQueue (s : State) (x : Sent) : (s.send x).rrQueue = s.rrQueue := rfl
@[simp] theorem send_qpairs (s : State) (x : Sent) : (s.send x).qpairs = s.qpairs := rfl
@[simp] theorem send_rrPair (s : State) (x : Sent) : (s.send x).rrPair = s.rrPair := rfl
@[simp] theorem send_snap (s : State) (x : Sent) : (s.send x).snap = s.snap := rfl
@[simp] theorem send_snapping (s : State) (x : Sent) : (s.send x).snapping = s.snapping := rfl
@[simp] theorem send_snapAt (s : State) (x : Sent) : (s.send x).snapAt = s.snapAt := rfl
@[simp] theorem send_hcmd (s : State) (x : Sent) : (s.send x).hcmd = s.hcmd := rfl
@[simp] theorem send_cancels (s : State) (x : Sent) : (s.send x).cancels = s.cancels := rfl
@[simp] theorem send_attest (s : State) (x : Sent) : (s.send x).attest = s.attest := rfl
@[simp] theorem send_reductions (s : State) (x : Sent) : (s.send x).reductions = s.reductions := rfl
@[simp] theorem send_ringParts (s : State) (x : Sent) : (s.send x).ringParts = s.ringParts := rfl
@[simp] theorem send_closed (s : State) (x : Sent) : (s.send x).closed = s.closed := rfl
@[simp] theorem send_drops (s : State) (x : Sent) : (s.send x).drops = s.drops := rfl
@[simp] theorem send_scalars (s : State) (x : Sent) : (s.send x).scalars = s.scalars := rfl
@[simp] theorem send_norms (s : State) (x : Sent) : (s.send x).norms = s.norms := rfl
@[simp] theorem send_stepClosed (s : State) (x : Sent) : (s.send x).stepClosed = s.stepClosed := rfl
@[simp] theorem send_closedHere (s : State) (x : Sent) : (s.send x).closedHere = s.closedHere := rfl
@[simp] theorem send_heldMsgs (s : State) (x : Sent) : (s.send x).heldMsgs = s.heldMsgs := rfl
@[simp] theorem send_weir (s : State) (x : Sent) : (s.send x).weir = s.weir := rfl
@[simp] theorem send_endpoints (s : State) (x : Sent) : (s.send x).endpoints = s.endpoints := rfl
@[simp] theorem send_upset (s : State) (x : Sent) : (s.send x).upset = s.upset := rfl
@[simp] theorem send_heldSlots (s : State) (x : Sent) : (s.send x).heldSlots = s.heldSlots := rfl
@[simp] theorem send_lastIssued (s : State) (x : Sent) : (s.send x).lastIssued = s.lastIssued := rfl
@[simp] theorem send_issuedAt (s : State) (x : Sent) : (s.send x).issuedAt = s.issuedAt := rfl
@[simp] theorem send_records (s : State) (x : Sent) : (s.send x).records = s.records := rfl
@[simp] theorem send_nextUid (s : State) (x : Sent) : (s.send x).nextUid = s.nextUid := rfl
@[simp] theorem send_freeCtr (s : State) (x : Sent) : (s.send x).freeCtr = s.freeCtr := rfl
@[simp] theorem send_stray (s : State) (x : Sent) : (s.send x).stray = s.stray := rfl
@[simp] theorem send_cur (s : State) (x : Sent) : (s.send x).cur = s.cur := rfl
@[simp] theorem send_agenda (s : State) (x : Sent) : (s.send x).agenda = s.agenda := rfl

/-! ### State.tick -/

@[simp] theorem tick_cycle (s : State) (n : Nat) : (s.tick n).cycle = s.cycle := rfl
@[simp] theorem tick_mem (s : State) (n : Nat) : (s.tick n).mem = s.mem := rfl
@[simp] theorem tick_poison (s : State) (n : Nat) : (s.tick n).poison = s.poison := rfl
@[simp] theorem tick_errs (s : State) (n : Nat) : (s.tick n).errs = s.errs := rfl
@[simp] theorem tick_sealed (s : State) (n : Nat) : (s.tick n).sealed = s.sealed := rfl
@[simp] theorem tick_keyGen (s : State) (n : Nat) : (s.tick n).keyGen = s.keyGen := rfl
@[simp] theorem tick_ls (s : State) (n : Nat) : (s.tick n).ls = s.ls := rfl
@[simp] theorem tick_regs (s : State) (n : Nat) : (s.tick n).regs = s.regs := rfl
@[simp] theorem tick_mailbox (s : State) (n : Nat) : (s.tick n).mailbox = s.mailbox := rfl
@[simp] theorem tick_bars (s : State) (n : Nat) : (s.tick n).bars = s.bars := rfl
@[simp] theorem tick_posted (s : State) (n : Nat) : (s.tick n).posted = s.posted := rfl
@[simp] theorem tick_carried (s : State) (n : Nat) : (s.tick n).carried = s.carried := rfl
@[simp] theorem tick_tlb (s : State) (n : Nat) : (s.tick n).tlb = s.tlb := rfl
@[simp] theorem tick_wcache (s : State) (n : Nat) : (s.tick n).wcache = s.wcache := rfl
@[simp] theorem tick_l1 (s : State) (n : Nat) : (s.tick n).l1 = s.l1 := rfl
@[simp] theorem tick_scClock (s : State) (n : Nat) : (s.tick n).scClock = s.scClock := rfl
@[simp] theorem tick_chClock (s : State) (n : Nat) : (s.tick n).chClock = s.chClock := rfl
@[simp] theorem tick_tokens (s : State) (n : Nat) : (s.tick n).tokens = s.tokens := rfl
@[simp] theorem tick_locks (s : State) (n : Nat) : (s.tick n).locks = s.locks := rfl
@[simp] theorem tick_rflags (s : State) (n : Nat) : (s.tick n).rflags = s.rflags := rfl
@[simp] theorem tick_inbound (s : State) (n : Nat) : (s.tick n).inbound = s.inbound := rfl
@[simp] theorem tick_gregs (s : State) (n : Nat) : (s.tick n).gregs = s.gregs := rfl
@[simp] theorem tick_watches (s : State) (n : Nat) : (s.tick n).watches = s.watches := rfl
@[simp] theorem tick_celog (s : State) (n : Nat) : (s.tick n).celog = s.celog := rfl
@[simp] theorem tick_pubs (s : State) (n : Nat) : (s.tick n).pubs = s.pubs := rfl
@[simp] theorem tick_cagsIn (s : State) (n : Nat) : (s.tick n).cagsIn = s.cagsIn := rfl
@[simp] theorem tick_advances (s : State) (n : Nat) : (s.tick n).advances = s.advances := rfl
@[simp] theorem tick_bands (s : State) (n : Nat) : (s.tick n).bands = s.bands := rfl
@[simp] theorem tick_wgs (s : State) (n : Nat) : (s.tick n).wgs = s.wgs := rfl
@[simp] theorem tick_images (s : State) (n : Nat) : (s.tick n).images = s.images := rfl
@[simp] theorem tick_launches (s : State) (n : Nat) : (s.tick n).launches = s.launches := rfl
@[simp] theorem tick_pastLids (s : State) (n : Nat) : (s.tick n).pastLids = s.pastLids := rfl
@[simp] theorem tick_ops (s : State) (n : Nat) : (s.tick n).ops = s.ops := rfl
@[simp] theorem tick_evBuf (s : State) (n : Nat) : (s.tick n).evBuf = s.evBuf := rfl
@[simp] theorem tick_evHeld (s : State) (n : Nat) : (s.tick n).evHeld = s.evHeld := rfl
@[simp] theorem tick_evGap (s : State) (n : Nat) : (s.tick n).evGap = s.evGap := rfl
@[simp] theorem tick_evTimes (s : State) (n : Nat) : (s.tick n).evTimes = s.evTimes := rfl
@[simp] theorem tick_sent (s : State) (n : Nat) : (s.tick n).sent = s.sent := rfl
@[simp] theorem tick_msixPending (s : State) (n : Nat) : (s.tick n).msixPending = s.msixPending := rfl
@[simp] theorem tick_lastRead (s : State) (n : Nat) : (s.tick n).lastRead = s.lastRead := rfl
@[simp] theorem tick_rrQueue (s : State) (n : Nat) : (s.tick n).rrQueue = s.rrQueue := rfl
@[simp] theorem tick_qpairs (s : State) (n : Nat) : (s.tick n).qpairs = s.qpairs := rfl
@[simp] theorem tick_rrPair (s : State) (n : Nat) : (s.tick n).rrPair = s.rrPair := rfl
@[simp] theorem tick_snap (s : State) (n : Nat) : (s.tick n).snap = s.snap := rfl
@[simp] theorem tick_snapping (s : State) (n : Nat) : (s.tick n).snapping = s.snapping := rfl
@[simp] theorem tick_snapAt (s : State) (n : Nat) : (s.tick n).snapAt = s.snapAt := rfl
@[simp] theorem tick_hcmd (s : State) (n : Nat) : (s.tick n).hcmd = s.hcmd := rfl
@[simp] theorem tick_cancels (s : State) (n : Nat) : (s.tick n).cancels = s.cancels := rfl
@[simp] theorem tick_attest (s : State) (n : Nat) : (s.tick n).attest = s.attest := rfl
@[simp] theorem tick_reductions (s : State) (n : Nat) : (s.tick n).reductions = s.reductions := rfl
@[simp] theorem tick_ringParts (s : State) (n : Nat) : (s.tick n).ringParts = s.ringParts := rfl
@[simp] theorem tick_closed (s : State) (n : Nat) : (s.tick n).closed = s.closed := rfl
@[simp] theorem tick_drops (s : State) (n : Nat) : (s.tick n).drops = s.drops := rfl
@[simp] theorem tick_scalars (s : State) (n : Nat) : (s.tick n).scalars = s.scalars := rfl
@[simp] theorem tick_norms (s : State) (n : Nat) : (s.tick n).norms = s.norms := rfl
@[simp] theorem tick_stepClosed (s : State) (n : Nat) : (s.tick n).stepClosed = s.stepClosed := rfl
@[simp] theorem tick_closedHere (s : State) (n : Nat) : (s.tick n).closedHere = s.closedHere := rfl
@[simp] theorem tick_heldMsgs (s : State) (n : Nat) : (s.tick n).heldMsgs = s.heldMsgs := rfl
@[simp] theorem tick_weir (s : State) (n : Nat) : (s.tick n).weir = s.weir := rfl
@[simp] theorem tick_endpoints (s : State) (n : Nat) : (s.tick n).endpoints = s.endpoints := rfl
@[simp] theorem tick_upset (s : State) (n : Nat) : (s.tick n).upset = s.upset := rfl
@[simp] theorem tick_heldSlots (s : State) (n : Nat) : (s.tick n).heldSlots = s.heldSlots := rfl
@[simp] theorem tick_lastIssued (s : State) (n : Nat) : (s.tick n).lastIssued = s.lastIssued := rfl
@[simp] theorem tick_issuedAt (s : State) (n : Nat) : (s.tick n).issuedAt = s.issuedAt := rfl
@[simp] theorem tick_records (s : State) (n : Nat) : (s.tick n).records = s.records := rfl
@[simp] theorem tick_nextUid (s : State) (n : Nat) : (s.tick n).nextUid = s.nextUid := rfl
@[simp] theorem tick_stray (s : State) (n : Nat) : (s.tick n).stray = s.stray := rfl
@[simp] theorem tick_cur (s : State) (n : Nat) : (s.tick n).cur = s.cur := rfl
@[simp] theorem tick_agenda (s : State) (n : Nat) : (s.tick n).agenda = s.agenda := rfl

/-! ### State.wake -/

@[simp] theorem wake_cycle (s : State) (pa : Nat) : (s.wake pa).cycle = s.cycle := rfl
@[simp] theorem wake_mem (s : State) (pa : Nat) : (s.wake pa).mem = s.mem := rfl
@[simp] theorem wake_poison (s : State) (pa : Nat) : (s.wake pa).poison = s.poison := rfl
@[simp] theorem wake_errs (s : State) (pa : Nat) : (s.wake pa).errs = s.errs := rfl
@[simp] theorem wake_sealed (s : State) (pa : Nat) : (s.wake pa).sealed = s.sealed := rfl
@[simp] theorem wake_keyGen (s : State) (pa : Nat) : (s.wake pa).keyGen = s.keyGen := rfl
@[simp] theorem wake_ls (s : State) (pa : Nat) : (s.wake pa).ls = s.ls := rfl
@[simp] theorem wake_regs (s : State) (pa : Nat) : (s.wake pa).regs = s.regs := rfl
@[simp] theorem wake_mailbox (s : State) (pa : Nat) : (s.wake pa).mailbox = s.mailbox := rfl
@[simp] theorem wake_bars (s : State) (pa : Nat) : (s.wake pa).bars = s.bars := rfl
@[simp] theorem wake_posted (s : State) (pa : Nat) : (s.wake pa).posted = s.posted := rfl
@[simp] theorem wake_carried (s : State) (pa : Nat) : (s.wake pa).carried = s.carried := rfl
@[simp] theorem wake_tlb (s : State) (pa : Nat) : (s.wake pa).tlb = s.tlb := rfl
@[simp] theorem wake_wcache (s : State) (pa : Nat) : (s.wake pa).wcache = s.wcache := rfl
@[simp] theorem wake_l1 (s : State) (pa : Nat) : (s.wake pa).l1 = s.l1 := rfl
@[simp] theorem wake_scClock (s : State) (pa : Nat) : (s.wake pa).scClock = s.scClock := rfl
@[simp] theorem wake_chClock (s : State) (pa : Nat) : (s.wake pa).chClock = s.chClock := rfl
@[simp] theorem wake_tokens (s : State) (pa : Nat) : (s.wake pa).tokens = s.tokens := rfl
@[simp] theorem wake_locks (s : State) (pa : Nat) : (s.wake pa).locks = s.locks := rfl
@[simp] theorem wake_rflags (s : State) (pa : Nat) : (s.wake pa).rflags = s.rflags := rfl
@[simp] theorem wake_inbound (s : State) (pa : Nat) : (s.wake pa).inbound = s.inbound := rfl
@[simp] theorem wake_gregs (s : State) (pa : Nat) : (s.wake pa).gregs = s.gregs := rfl
@[simp] theorem wake_celog (s : State) (pa : Nat) : (s.wake pa).celog = s.celog := rfl
@[simp] theorem wake_pubs (s : State) (pa : Nat) : (s.wake pa).pubs = s.pubs := rfl
@[simp] theorem wake_cagsIn (s : State) (pa : Nat) : (s.wake pa).cagsIn = s.cagsIn := rfl
@[simp] theorem wake_advances (s : State) (pa : Nat) : (s.wake pa).advances = s.advances := rfl
@[simp] theorem wake_wgs (s : State) (pa : Nat) : (s.wake pa).wgs = s.wgs := rfl
@[simp] theorem wake_images (s : State) (pa : Nat) : (s.wake pa).images = s.images := rfl
@[simp] theorem wake_pastLids (s : State) (pa : Nat) : (s.wake pa).pastLids = s.pastLids := rfl
@[simp] theorem wake_ops (s : State) (pa : Nat) : (s.wake pa).ops = s.ops := rfl
@[simp] theorem wake_evBuf (s : State) (pa : Nat) : (s.wake pa).evBuf = s.evBuf := rfl
@[simp] theorem wake_evHeld (s : State) (pa : Nat) : (s.wake pa).evHeld = s.evHeld := rfl
@[simp] theorem wake_evGap (s : State) (pa : Nat) : (s.wake pa).evGap = s.evGap := rfl
@[simp] theorem wake_evTimes (s : State) (pa : Nat) : (s.wake pa).evTimes = s.evTimes := rfl
@[simp] theorem wake_sent (s : State) (pa : Nat) : (s.wake pa).sent = s.sent := rfl
@[simp] theorem wake_msixPending (s : State) (pa : Nat) : (s.wake pa).msixPending = s.msixPending := rfl
@[simp] theorem wake_lastRead (s : State) (pa : Nat) : (s.wake pa).lastRead = s.lastRead := rfl
@[simp] theorem wake_rrQueue (s : State) (pa : Nat) : (s.wake pa).rrQueue = s.rrQueue := rfl
@[simp] theorem wake_qpairs (s : State) (pa : Nat) : (s.wake pa).qpairs = s.qpairs := rfl
@[simp] theorem wake_rrPair (s : State) (pa : Nat) : (s.wake pa).rrPair = s.rrPair := rfl
@[simp] theorem wake_snap (s : State) (pa : Nat) : (s.wake pa).snap = s.snap := rfl
@[simp] theorem wake_snapping (s : State) (pa : Nat) : (s.wake pa).snapping = s.snapping := rfl
@[simp] theorem wake_snapAt (s : State) (pa : Nat) : (s.wake pa).snapAt = s.snapAt := rfl
@[simp] theorem wake_hcmd (s : State) (pa : Nat) : (s.wake pa).hcmd = s.hcmd := rfl
@[simp] theorem wake_cancels (s : State) (pa : Nat) : (s.wake pa).cancels = s.cancels := rfl
@[simp] theorem wake_attest (s : State) (pa : Nat) : (s.wake pa).attest = s.attest := rfl
@[simp] theorem wake_reductions (s : State) (pa : Nat) : (s.wake pa).reductions = s.reductions := rfl
@[simp] theorem wake_ringParts (s : State) (pa : Nat) : (s.wake pa).ringParts = s.ringParts := rfl
@[simp] theorem wake_closed (s : State) (pa : Nat) : (s.wake pa).closed = s.closed := rfl
@[simp] theorem wake_drops (s : State) (pa : Nat) : (s.wake pa).drops = s.drops := rfl
@[simp] theorem wake_scalars (s : State) (pa : Nat) : (s.wake pa).scalars = s.scalars := rfl
@[simp] theorem wake_norms (s : State) (pa : Nat) : (s.wake pa).norms = s.norms := rfl
@[simp] theorem wake_stepClosed (s : State) (pa : Nat) : (s.wake pa).stepClosed = s.stepClosed := rfl
@[simp] theorem wake_closedHere (s : State) (pa : Nat) : (s.wake pa).closedHere = s.closedHere := rfl
@[simp] theorem wake_heldMsgs (s : State) (pa : Nat) : (s.wake pa).heldMsgs = s.heldMsgs := rfl
@[simp] theorem wake_weir (s : State) (pa : Nat) : (s.wake pa).weir = s.weir := rfl
@[simp] theorem wake_endpoints (s : State) (pa : Nat) : (s.wake pa).endpoints = s.endpoints := rfl
@[simp] theorem wake_upset (s : State) (pa : Nat) : (s.wake pa).upset = s.upset := rfl
@[simp] theorem wake_heldSlots (s : State) (pa : Nat) : (s.wake pa).heldSlots = s.heldSlots := rfl
@[simp] theorem wake_lastIssued (s : State) (pa : Nat) : (s.wake pa).lastIssued = s.lastIssued := rfl
@[simp] theorem wake_issuedAt (s : State) (pa : Nat) : (s.wake pa).issuedAt = s.issuedAt := rfl
@[simp] theorem wake_records (s : State) (pa : Nat) : (s.wake pa).records = s.records := rfl
@[simp] theorem wake_nextUid (s : State) (pa : Nat) : (s.wake pa).nextUid = s.nextUid := rfl
@[simp] theorem wake_freeCtr (s : State) (pa : Nat) : (s.wake pa).freeCtr = s.freeCtr := rfl
@[simp] theorem wake_stray (s : State) (pa : Nat) : (s.wake pa).stray = s.stray := rfl
@[simp] theorem wake_cur (s : State) (pa : Nat) : (s.wake pa).cur = s.cur := rfl
@[simp] theorem wake_agenda (s : State) (pa : Nat) : (s.wake pa).agenda = s.agenda := rfl

/-! ### State.elapse -/

@[simp] theorem elapse_mem (s : State) (n : Nat) : (s.elapse n).mem = s.mem := rfl
@[simp] theorem elapse_poison (s : State) (n : Nat) : (s.elapse n).poison = s.poison := rfl
@[simp] theorem elapse_errs (s : State) (n : Nat) : (s.elapse n).errs = s.errs := rfl
@[simp] theorem elapse_sealed (s : State) (n : Nat) : (s.elapse n).sealed = s.sealed := rfl
@[simp] theorem elapse_keyGen (s : State) (n : Nat) : (s.elapse n).keyGen = s.keyGen := rfl
@[simp] theorem elapse_ls (s : State) (n : Nat) : (s.elapse n).ls = s.ls := rfl
@[simp] theorem elapse_regs (s : State) (n : Nat) : (s.elapse n).regs = s.regs := rfl
@[simp] theorem elapse_mailbox (s : State) (n : Nat) : (s.elapse n).mailbox = s.mailbox := rfl
@[simp] theorem elapse_bars (s : State) (n : Nat) : (s.elapse n).bars = s.bars := rfl
@[simp] theorem elapse_posted (s : State) (n : Nat) : (s.elapse n).posted = s.posted := rfl
@[simp] theorem elapse_carried (s : State) (n : Nat) : (s.elapse n).carried = s.carried := rfl
@[simp] theorem elapse_tlb (s : State) (n : Nat) : (s.elapse n).tlb = s.tlb := rfl
@[simp] theorem elapse_wcache (s : State) (n : Nat) : (s.elapse n).wcache = s.wcache := rfl
@[simp] theorem elapse_l1 (s : State) (n : Nat) : (s.elapse n).l1 = s.l1 := rfl
@[simp] theorem elapse_scClock (s : State) (n : Nat) : (s.elapse n).scClock = s.scClock := rfl
@[simp] theorem elapse_chClock (s : State) (n : Nat) : (s.elapse n).chClock = s.chClock := rfl
@[simp] theorem elapse_tokens (s : State) (n : Nat) : (s.elapse n).tokens = s.tokens := rfl
@[simp] theorem elapse_locks (s : State) (n : Nat) : (s.elapse n).locks = s.locks := rfl
@[simp] theorem elapse_rflags (s : State) (n : Nat) : (s.elapse n).rflags = s.rflags := rfl
@[simp] theorem elapse_inbound (s : State) (n : Nat) : (s.elapse n).inbound = s.inbound := rfl
@[simp] theorem elapse_gregs (s : State) (n : Nat) : (s.elapse n).gregs = s.gregs := rfl
@[simp] theorem elapse_watches (s : State) (n : Nat) : (s.elapse n).watches = s.watches := rfl
@[simp] theorem elapse_celog (s : State) (n : Nat) : (s.elapse n).celog = s.celog := rfl
@[simp] theorem elapse_pubs (s : State) (n : Nat) : (s.elapse n).pubs = s.pubs := rfl
@[simp] theorem elapse_cagsIn (s : State) (n : Nat) : (s.elapse n).cagsIn = s.cagsIn := rfl
@[simp] theorem elapse_advances (s : State) (n : Nat) : (s.elapse n).advances = s.advances := rfl
@[simp] theorem elapse_bands (s : State) (n : Nat) : (s.elapse n).bands = s.bands := rfl
@[simp] theorem elapse_wgs (s : State) (n : Nat) : (s.elapse n).wgs = s.wgs := rfl
@[simp] theorem elapse_images (s : State) (n : Nat) : (s.elapse n).images = s.images := rfl
@[simp] theorem elapse_launches (s : State) (n : Nat) : (s.elapse n).launches = s.launches := rfl
@[simp] theorem elapse_pastLids (s : State) (n : Nat) : (s.elapse n).pastLids = s.pastLids := rfl
@[simp] theorem elapse_ops (s : State) (n : Nat) : (s.elapse n).ops = s.ops := rfl
@[simp] theorem elapse_evBuf (s : State) (n : Nat) : (s.elapse n).evBuf = s.evBuf := rfl
@[simp] theorem elapse_evHeld (s : State) (n : Nat) : (s.elapse n).evHeld = s.evHeld := rfl
@[simp] theorem elapse_evGap (s : State) (n : Nat) : (s.elapse n).evGap = s.evGap := rfl
@[simp] theorem elapse_evTimes (s : State) (n : Nat) : (s.elapse n).evTimes = s.evTimes := rfl
@[simp] theorem elapse_sent (s : State) (n : Nat) : (s.elapse n).sent = s.sent := rfl
@[simp] theorem elapse_msixPending (s : State) (n : Nat) : (s.elapse n).msixPending = s.msixPending := rfl
@[simp] theorem elapse_lastRead (s : State) (n : Nat) : (s.elapse n).lastRead = s.lastRead := rfl
@[simp] theorem elapse_rrQueue (s : State) (n : Nat) : (s.elapse n).rrQueue = s.rrQueue := rfl
@[simp] theorem elapse_qpairs (s : State) (n : Nat) : (s.elapse n).qpairs = s.qpairs := rfl
@[simp] theorem elapse_rrPair (s : State) (n : Nat) : (s.elapse n).rrPair = s.rrPair := rfl
@[simp] theorem elapse_snap (s : State) (n : Nat) : (s.elapse n).snap = s.snap := rfl
@[simp] theorem elapse_snapping (s : State) (n : Nat) : (s.elapse n).snapping = s.snapping := rfl
@[simp] theorem elapse_snapAt (s : State) (n : Nat) : (s.elapse n).snapAt = s.snapAt := rfl
@[simp] theorem elapse_hcmd (s : State) (n : Nat) : (s.elapse n).hcmd = s.hcmd := rfl
@[simp] theorem elapse_cancels (s : State) (n : Nat) : (s.elapse n).cancels = s.cancels := rfl
@[simp] theorem elapse_attest (s : State) (n : Nat) : (s.elapse n).attest = s.attest := rfl
@[simp] theorem elapse_reductions (s : State) (n : Nat) : (s.elapse n).reductions = s.reductions := rfl
@[simp] theorem elapse_ringParts (s : State) (n : Nat) : (s.elapse n).ringParts = s.ringParts := rfl
@[simp] theorem elapse_closed (s : State) (n : Nat) : (s.elapse n).closed = s.closed := rfl
@[simp] theorem elapse_drops (s : State) (n : Nat) : (s.elapse n).drops = s.drops := rfl
@[simp] theorem elapse_scalars (s : State) (n : Nat) : (s.elapse n).scalars = s.scalars := rfl
@[simp] theorem elapse_norms (s : State) (n : Nat) : (s.elapse n).norms = s.norms := rfl
@[simp] theorem elapse_stepClosed (s : State) (n : Nat) : (s.elapse n).stepClosed = s.stepClosed := rfl
@[simp] theorem elapse_closedHere (s : State) (n : Nat) : (s.elapse n).closedHere = s.closedHere := rfl
@[simp] theorem elapse_heldMsgs (s : State) (n : Nat) : (s.elapse n).heldMsgs = s.heldMsgs := rfl
@[simp] theorem elapse_weir (s : State) (n : Nat) : (s.elapse n).weir = s.weir := rfl
@[simp] theorem elapse_endpoints (s : State) (n : Nat) : (s.elapse n).endpoints = s.endpoints := rfl
@[simp] theorem elapse_upset (s : State) (n : Nat) : (s.elapse n).upset = s.upset := rfl
@[simp] theorem elapse_heldSlots (s : State) (n : Nat) : (s.elapse n).heldSlots = s.heldSlots := rfl
@[simp] theorem elapse_lastIssued (s : State) (n : Nat) : (s.elapse n).lastIssued = s.lastIssued := rfl
@[simp] theorem elapse_issuedAt (s : State) (n : Nat) : (s.elapse n).issuedAt = s.issuedAt := rfl
@[simp] theorem elapse_records (s : State) (n : Nat) : (s.elapse n).records = s.records := rfl
@[simp] theorem elapse_nextUid (s : State) (n : Nat) : (s.elapse n).nextUid = s.nextUid := rfl
@[simp] theorem elapse_freeCtr (s : State) (n : Nat) : (s.elapse n).freeCtr = s.freeCtr := rfl
@[simp] theorem elapse_stray (s : State) (n : Nat) : (s.elapse n).stray = s.stray := rfl
@[simp] theorem elapse_cur (s : State) (n : Nat) : (s.elapse n).cur = s.cur := rfl
@[simp] theorem elapse_agenda (s : State) (n : Nat) : (s.elapse n).agenda = s.agenda := rfl

/-! ### Band.issued -/

@[simp] theorem issued_uid (b : Band) (h : Bool) (i : Instr) (c : Nat) : (b.issued h i c).uid = b.uid := rfl
@[simp] theorem issued_place (b : Band) (h : Bool) (i : Instr) (c : Nat) : (b.issued h i c).place = b.place := rfl
@[simp] theorem issued_launch (b : Band) (h : Bool) (i : Instr) (c : Nat) : (b.issued h i c).launch = b.launch := rfl
@[simp] theorem issued_wg (b : Band) (h : Bool) (i : Instr) (c : Nat) : (b.issued h i c).wg = b.wg := rfl
@[simp] theorem issued_pos (b : Band) (h : Bool) (i : Instr) (c : Nat) : (b.issued h i c).pos = b.pos := rfl
@[simp] theorem issued_itemidx (b : Band) (h : Bool) (i : Instr) (c : Nat) : (b.issued h i c).itemidx = b.itemidx := rfl
@[simp] theorem issued_xidx (b : Band) (h : Bool) (i : Instr) (c : Nat) : (b.issued h i c).xidx = b.xidx := rfl
@[simp] theorem issued_fdepth (b : Band) (h : Bool) (i : Instr) (c : Nat) : (b.issued h i c).fdepth = b.fdepth := rfl
@[simp] theorem issued_rank (b : Band) (h : Bool) (i : Instr) (c : Nat) : (b.issued h i c).rank = b.rank := rfl
@[simp] theorem issued_lvls (b : Band) (h : Bool) (i : Instr) (c : Nat) : (b.issued h i c).lvls = b.lvls := rfl
@[simp] theorem issued_image (b : Band) (h : Bool) (i : Instr) (c : Nat) : (b.issued h i c).image = b.image := rfl
@[simp] theorem issued_template (b : Band) (h : Bool) (i : Instr) (c : Nat) : (b.issued h i c).template = b.template := rfl
@[simp] theorem issued_v (b : Band) (h : Bool) (i : Instr) (c : Nat) : (b.issued h i c).v = b.v := rfl
@[simp] theorem issued_s (b : Band) (h : Bool) (i : Instr) (c : Nat) : (b.issued h i c).s = b.s := rfl
@[simp] theorem issued_o (b : Band) (h : Bool) (i : Instr) (c : Nat) : (b.issued h i c).o = b.o := rfl
@[simp] theorem issued_lat (b : Band) (h : Bool) (i : Instr) (c : Nat) : (b.issued h i c).lat = b.lat := rfl
@[simp] theorem issued_latValid (b : Band) (h : Bool) (i : Instr) (c : Nat) : (b.issued h i c).latValid = b.latValid := rfl
@[simp] theorem issued_a (b : Band) (h : Bool) (i : Instr) (c : Nat) : (b.issued h i c).a = b.a := rfl
@[simp] theorem issued_b (b : Band) (h : Bool) (i : Instr) (c : Nat) : (b.issued h i c).b = b.b := rfl
@[simp] theorem issued_m (b : Band) (h : Bool) (i : Instr) (c : Nat) : (b.issued h i c).m = b.m := rfl
@[simp] theorem issued_f (b : Band) (h : Bool) (i : Instr) (c : Nat) : (b.issued h i c).f = b.f := rfl
@[simp] theorem issued_mode (b : Band) (h : Bool) (i : Instr) (c : Nat) : (b.issued h i c).mode = b.mode := rfl
@[simp] theorem issued_fps (b : Band) (h : Bool) (i : Instr) (c : Nat) : (b.issued h i c).fps = b.fps := rfl
@[simp] theorem issued_srseq (b : Band) (h : Bool) (i : Instr) (c : Nat) : (b.issued h i c).srseq = b.srseq := rfl
@[simp] theorem issued_hdr (b : Band) (h : Bool) (i : Instr) (c : Nat) : (b.issued h i c).hdr = b.hdr := rfl
@[simp] theorem issued_pc (b : Band) (h : Bool) (i : Instr) (c : Nat) : (b.issued h i c).pc = b.pc := rfl
@[simp] theorem issued_clause (b : Band) (h : Bool) (i : Instr) (c : Nat) : (b.issued h i c).clause = b.clause := rfl
@[simp] theorem issued_resume (b : Band) (h : Bool) (i : Instr) (c : Nat) : (b.issued h i c).resume = b.resume := rfl
@[simp] theorem issued_frames (b : Band) (h : Bool) (i : Instr) (c : Nat) : (b.issued h i c).frames = b.frames := rfl
@[simp] theorem issued_inHandler (b : Band) (h : Bool) (i : Instr) (c : Nat) : (b.issued h i c).inHandler = b.inHandler := rfl
@[simp] theorem issued_privileged (b : Band) (h : Bool) (i : Instr) (c : Nat) : (b.issued h i c).privileged = b.privileged := rfl
@[simp] theorem issued_winFault (b : Band) (h : Bool) (i : Instr) (c : Nat) : (b.issued h i c).winFault = b.winFault := rfl
@[simp] theorem issued_retrying (b : Band) (h : Bool) (i : Instr) (c : Nat) : (b.issued h i c).retrying = b.retrying := rfl
@[simp] theorem issued_batch (b : Band) (h : Bool) (i : Instr) (c : Nat) : (b.issued h i c).batch = b.batch := rfl
@[simp] theorem issued_batchLeft (b : Band) (h : Bool) (i : Instr) (c : Nat) : (b.issued h i c).batchLeft = b.batchLeft := rfl
@[simp] theorem issued_monitors (b : Band) (h : Bool) (i : Instr) (c : Nat) : (b.issued h i c).monitors = b.monitors := rfl
@[simp] theorem issued_trap (b : Band) (h : Bool) (i : Instr) (c : Nat) : (b.issued h i c).trap = b.trap := rfl
@[simp] theorem issued_suspended (b : Band) (h : Bool) (i : Instr) (c : Nat) : (b.issued h i c).suspended = b.suspended := rfl
@[simp] theorem issued_halted (b : Band) (h : Bool) (i : Instr) (c : Nat) : (b.issued h i c).halted = b.halted := rfl
@[simp] theorem issued_parked (b : Band) (h : Bool) (i : Instr) (c : Nat) : (b.issued h i c).parked = b.parked := rfl
@[simp] theorem issued_stopping (b : Band) (h : Bool) (i : Instr) (c : Nat) : (b.issued h i c).stopping = b.stopping := rfl
@[simp] theorem issued_copies (b : Band) (h : Bool) (i : Instr) (c : Nat) : (b.issued h i c).copies = b.copies := rfl
@[simp] theorem issued_lastCopy (b : Band) (h : Bool) (i : Instr) (c : Nat) : (b.issued h i c).lastCopy = b.lastCopy := rfl
@[simp] theorem issued_since (b : Band) (h : Bool) (i : Instr) (c : Nat) : (b.issued h i c).since = b.since := rfl

/-! ### Band.goto -/

@[simp] theorem goto_uid (b : Band) (t : W64) : (b.goto t).uid = b.uid := rfl
@[simp] theorem goto_place (b : Band) (t : W64) : (b.goto t).place = b.place := rfl
@[simp] theorem goto_launch (b : Band) (t : W64) : (b.goto t).launch = b.launch := rfl
@[simp] theorem goto_wg (b : Band) (t : W64) : (b.goto t).wg = b.wg := rfl
@[simp] theorem goto_pos (b : Band) (t : W64) : (b.goto t).pos = b.pos := rfl
@[simp] theorem goto_itemidx (b : Band) (t : W64) : (b.goto t).itemidx = b.itemidx := rfl
@[simp] theorem goto_xidx (b : Band) (t : W64) : (b.goto t).xidx = b.xidx := rfl
@[simp] theorem goto_fdepth (b : Band) (t : W64) : (b.goto t).fdepth = b.fdepth := rfl
@[simp] theorem goto_rank (b : Band) (t : W64) : (b.goto t).rank = b.rank := rfl
@[simp] theorem goto_lvls (b : Band) (t : W64) : (b.goto t).lvls = b.lvls := rfl
@[simp] theorem goto_image (b : Band) (t : W64) : (b.goto t).image = b.image := rfl
@[simp] theorem goto_template (b : Band) (t : W64) : (b.goto t).template = b.template := rfl
@[simp] theorem goto_v (b : Band) (t : W64) : (b.goto t).v = b.v := rfl
@[simp] theorem goto_s (b : Band) (t : W64) : (b.goto t).s = b.s := rfl
@[simp] theorem goto_o (b : Band) (t : W64) : (b.goto t).o = b.o := rfl
@[simp] theorem goto_lat (b : Band) (t : W64) : (b.goto t).lat = b.lat := rfl
@[simp] theorem goto_a (b : Band) (t : W64) : (b.goto t).a = b.a := rfl
@[simp] theorem goto_b (b : Band) (t : W64) : (b.goto t).b = b.b := rfl
@[simp] theorem goto_m (b : Band) (t : W64) : (b.goto t).m = b.m := rfl
@[simp] theorem goto_f (b : Band) (t : W64) : (b.goto t).f = b.f := rfl
@[simp] theorem goto_mode (b : Band) (t : W64) : (b.goto t).mode = b.mode := rfl
@[simp] theorem goto_fps (b : Band) (t : W64) : (b.goto t).fps = b.fps := rfl
@[simp] theorem goto_sig (b : Band) (t : W64) : (b.goto t).sig = b.sig := rfl
@[simp] theorem goto_srseq (b : Band) (t : W64) : (b.goto t).srseq = b.srseq := rfl
@[simp] theorem goto_frames (b : Band) (t : W64) : (b.goto t).frames = b.frames := rfl
@[simp] theorem goto_inHandler (b : Band) (t : W64) : (b.goto t).inHandler = b.inHandler := rfl
@[simp] theorem goto_privileged (b : Band) (t : W64) : (b.goto t).privileged = b.privileged := rfl
@[simp] theorem goto_winFault (b : Band) (t : W64) : (b.goto t).winFault = b.winFault := rfl
@[simp] theorem goto_retrying (b : Band) (t : W64) : (b.goto t).retrying = b.retrying := rfl
@[simp] theorem goto_batch (b : Band) (t : W64) : (b.goto t).batch = b.batch := rfl
@[simp] theorem goto_batchLeft (b : Band) (t : W64) : (b.goto t).batchLeft = b.batchLeft := rfl
@[simp] theorem goto_monitors (b : Band) (t : W64) : (b.goto t).monitors = b.monitors := rfl
@[simp] theorem goto_trap (b : Band) (t : W64) : (b.goto t).trap = b.trap := rfl
@[simp] theorem goto_suspended (b : Band) (t : W64) : (b.goto t).suspended = b.suspended := rfl
@[simp] theorem goto_halted (b : Band) (t : W64) : (b.goto t).halted = b.halted := rfl
@[simp] theorem goto_parked (b : Band) (t : W64) : (b.goto t).parked = b.parked := rfl
@[simp] theorem goto_stopping (b : Band) (t : W64) : (b.goto t).stopping = b.stopping := rfl
@[simp] theorem goto_wait (b : Band) (t : W64) : (b.goto t).wait = b.wait := rfl
@[simp] theorem goto_timeLeft (b : Band) (t : W64) : (b.goto t).timeLeft = b.timeLeft := rfl
@[simp] theorem goto_held (b : Band) (t : W64) : (b.goto t).held = b.held := rfl
@[simp] theorem goto_tried (b : Band) (t : W64) : (b.goto t).tried = b.tried := rfl
@[simp] theorem goto_stalled (b : Band) (t : W64) : (b.goto t).stalled = b.stalled := rfl
@[simp] theorem goto_copies (b : Band) (t : W64) : (b.goto t).copies = b.copies := rfl
@[simp] theorem goto_lastCopy (b : Band) (t : W64) : (b.goto t).lastCopy = b.lastCopy := rfl
@[simp] theorem goto_readyAt (b : Band) (t : W64) : (b.goto t).readyAt = b.readyAt := rfl
@[simp] theorem goto_since (b : Band) (t : W64) : (b.goto t).since = b.since := rfl

/-! ### Band.setSName -/

@[simp] theorem setSName_uid (b : Band) (n : Nat) (x : SName) : (b.setSName n x).uid = b.uid := rfl
@[simp] theorem setSName_place (b : Band) (n : Nat) (x : SName) : (b.setSName n x).place = b.place := rfl
@[simp] theorem setSName_launch (b : Band) (n : Nat) (x : SName) : (b.setSName n x).launch = b.launch := rfl
@[simp] theorem setSName_wg (b : Band) (n : Nat) (x : SName) : (b.setSName n x).wg = b.wg := rfl
@[simp] theorem setSName_pos (b : Band) (n : Nat) (x : SName) : (b.setSName n x).pos = b.pos := rfl
@[simp] theorem setSName_itemidx (b : Band) (n : Nat) (x : SName) : (b.setSName n x).itemidx = b.itemidx := rfl
@[simp] theorem setSName_xidx (b : Band) (n : Nat) (x : SName) : (b.setSName n x).xidx = b.xidx := rfl
@[simp] theorem setSName_fdepth (b : Band) (n : Nat) (x : SName) : (b.setSName n x).fdepth = b.fdepth := rfl
@[simp] theorem setSName_rank (b : Band) (n : Nat) (x : SName) : (b.setSName n x).rank = b.rank := rfl
@[simp] theorem setSName_lvls (b : Band) (n : Nat) (x : SName) : (b.setSName n x).lvls = b.lvls := rfl
@[simp] theorem setSName_image (b : Band) (n : Nat) (x : SName) : (b.setSName n x).image = b.image := rfl
@[simp] theorem setSName_template (b : Band) (n : Nat) (x : SName) : (b.setSName n x).template = b.template := rfl
@[simp] theorem setSName_v (b : Band) (n : Nat) (x : SName) : (b.setSName n x).v = b.v := rfl
@[simp] theorem setSName_o (b : Band) (n : Nat) (x : SName) : (b.setSName n x).o = b.o := rfl
@[simp] theorem setSName_lat (b : Band) (n : Nat) (x : SName) : (b.setSName n x).lat = b.lat := rfl
@[simp] theorem setSName_latValid (b : Band) (n : Nat) (x : SName) : (b.setSName n x).latValid = b.latValid := rfl
@[simp] theorem setSName_a (b : Band) (n : Nat) (x : SName) : (b.setSName n x).a = b.a := rfl
@[simp] theorem setSName_b (b : Band) (n : Nat) (x : SName) : (b.setSName n x).b = b.b := rfl
@[simp] theorem setSName_m (b : Band) (n : Nat) (x : SName) : (b.setSName n x).m = b.m := rfl
@[simp] theorem setSName_f (b : Band) (n : Nat) (x : SName) : (b.setSName n x).f = b.f := rfl
@[simp] theorem setSName_mode (b : Band) (n : Nat) (x : SName) : (b.setSName n x).mode = b.mode := rfl
@[simp] theorem setSName_fps (b : Band) (n : Nat) (x : SName) : (b.setSName n x).fps = b.fps := rfl
@[simp] theorem setSName_sig (b : Band) (n : Nat) (x : SName) : (b.setSName n x).sig = b.sig := rfl
@[simp] theorem setSName_srseq (b : Band) (n : Nat) (x : SName) : (b.setSName n x).srseq = b.srseq := rfl
@[simp] theorem setSName_hdr (b : Band) (n : Nat) (x : SName) : (b.setSName n x).hdr = b.hdr := rfl
@[simp] theorem setSName_pc (b : Band) (n : Nat) (x : SName) : (b.setSName n x).pc = b.pc := rfl
@[simp] theorem setSName_clause (b : Band) (n : Nat) (x : SName) : (b.setSName n x).clause = b.clause := rfl
@[simp] theorem setSName_resume (b : Band) (n : Nat) (x : SName) : (b.setSName n x).resume = b.resume := rfl
@[simp] theorem setSName_frames (b : Band) (n : Nat) (x : SName) : (b.setSName n x).frames = b.frames := rfl
@[simp] theorem setSName_inHandler (b : Band) (n : Nat) (x : SName) : (b.setSName n x).inHandler = b.inHandler := rfl
@[simp] theorem setSName_privileged (b : Band) (n : Nat) (x : SName) : (b.setSName n x).privileged = b.privileged := rfl
@[simp] theorem setSName_winFault (b : Band) (n : Nat) (x : SName) : (b.setSName n x).winFault = b.winFault := rfl
@[simp] theorem setSName_retrying (b : Band) (n : Nat) (x : SName) : (b.setSName n x).retrying = b.retrying := rfl
@[simp] theorem setSName_batch (b : Band) (n : Nat) (x : SName) : (b.setSName n x).batch = b.batch := rfl
@[simp] theorem setSName_batchLeft (b : Band) (n : Nat) (x : SName) : (b.setSName n x).batchLeft = b.batchLeft := rfl
@[simp] theorem setSName_monitors (b : Band) (n : Nat) (x : SName) : (b.setSName n x).monitors = b.monitors := rfl
@[simp] theorem setSName_trap (b : Band) (n : Nat) (x : SName) : (b.setSName n x).trap = b.trap := rfl
@[simp] theorem setSName_suspended (b : Band) (n : Nat) (x : SName) : (b.setSName n x).suspended = b.suspended := rfl
@[simp] theorem setSName_halted (b : Band) (n : Nat) (x : SName) : (b.setSName n x).halted = b.halted := rfl
@[simp] theorem setSName_parked (b : Band) (n : Nat) (x : SName) : (b.setSName n x).parked = b.parked := rfl
@[simp] theorem setSName_stopping (b : Band) (n : Nat) (x : SName) : (b.setSName n x).stopping = b.stopping := rfl
@[simp] theorem setSName_wait (b : Band) (n : Nat) (x : SName) : (b.setSName n x).wait = b.wait := rfl
@[simp] theorem setSName_timeLeft (b : Band) (n : Nat) (x : SName) : (b.setSName n x).timeLeft = b.timeLeft := rfl
@[simp] theorem setSName_held (b : Band) (n : Nat) (x : SName) : (b.setSName n x).held = b.held := rfl
@[simp] theorem setSName_tried (b : Band) (n : Nat) (x : SName) : (b.setSName n x).tried = b.tried := rfl
@[simp] theorem setSName_stalled (b : Band) (n : Nat) (x : SName) : (b.setSName n x).stalled = b.stalled := rfl
@[simp] theorem setSName_copies (b : Band) (n : Nat) (x : SName) : (b.setSName n x).copies = b.copies := rfl
@[simp] theorem setSName_lastCopy (b : Band) (n : Nat) (x : SName) : (b.setSName n x).lastCopy = b.lastCopy := rfl
@[simp] theorem setSName_readyAt (b : Band) (n : Nat) (x : SName) : (b.setSName n x).readyAt = b.readyAt := rfl
@[simp] theorem setSName_since (b : Band) (n : Nat) (x : SName) : (b.setSName n x).since = b.since := rfl

/-! ### Band.setVName -/

@[simp] theorem setVName_uid (b : Band) (n : Nat) (x : VName) : (b.setVName n x).uid = b.uid := rfl
@[simp] theorem setVName_place (b : Band) (n : Nat) (x : VName) : (b.setVName n x).place = b.place := rfl
@[simp] theorem setVName_launch (b : Band) (n : Nat) (x : VName) : (b.setVName n x).launch = b.launch := rfl
@[simp] theorem setVName_wg (b : Band) (n : Nat) (x : VName) : (b.setVName n x).wg = b.wg := rfl
@[simp] theorem setVName_pos (b : Band) (n : Nat) (x : VName) : (b.setVName n x).pos = b.pos := rfl
@[simp] theorem setVName_itemidx (b : Band) (n : Nat) (x : VName) : (b.setVName n x).itemidx = b.itemidx := rfl
@[simp] theorem setVName_xidx (b : Band) (n : Nat) (x : VName) : (b.setVName n x).xidx = b.xidx := rfl
@[simp] theorem setVName_fdepth (b : Band) (n : Nat) (x : VName) : (b.setVName n x).fdepth = b.fdepth := rfl
@[simp] theorem setVName_rank (b : Band) (n : Nat) (x : VName) : (b.setVName n x).rank = b.rank := rfl
@[simp] theorem setVName_lvls (b : Band) (n : Nat) (x : VName) : (b.setVName n x).lvls = b.lvls := rfl
@[simp] theorem setVName_image (b : Band) (n : Nat) (x : VName) : (b.setVName n x).image = b.image := rfl
@[simp] theorem setVName_template (b : Band) (n : Nat) (x : VName) : (b.setVName n x).template = b.template := rfl
@[simp] theorem setVName_s (b : Band) (n : Nat) (x : VName) : (b.setVName n x).s = b.s := rfl
@[simp] theorem setVName_o (b : Band) (n : Nat) (x : VName) : (b.setVName n x).o = b.o := rfl
@[simp] theorem setVName_lat (b : Band) (n : Nat) (x : VName) : (b.setVName n x).lat = b.lat := rfl
@[simp] theorem setVName_latValid (b : Band) (n : Nat) (x : VName) : (b.setVName n x).latValid = b.latValid := rfl
@[simp] theorem setVName_a (b : Band) (n : Nat) (x : VName) : (b.setVName n x).a = b.a := rfl
@[simp] theorem setVName_b (b : Band) (n : Nat) (x : VName) : (b.setVName n x).b = b.b := rfl
@[simp] theorem setVName_m (b : Band) (n : Nat) (x : VName) : (b.setVName n x).m = b.m := rfl
@[simp] theorem setVName_f (b : Band) (n : Nat) (x : VName) : (b.setVName n x).f = b.f := rfl
@[simp] theorem setVName_mode (b : Band) (n : Nat) (x : VName) : (b.setVName n x).mode = b.mode := rfl
@[simp] theorem setVName_fps (b : Band) (n : Nat) (x : VName) : (b.setVName n x).fps = b.fps := rfl
@[simp] theorem setVName_sig (b : Band) (n : Nat) (x : VName) : (b.setVName n x).sig = b.sig := rfl
@[simp] theorem setVName_srseq (b : Band) (n : Nat) (x : VName) : (b.setVName n x).srseq = b.srseq := rfl
@[simp] theorem setVName_hdr (b : Band) (n : Nat) (x : VName) : (b.setVName n x).hdr = b.hdr := rfl
@[simp] theorem setVName_pc (b : Band) (n : Nat) (x : VName) : (b.setVName n x).pc = b.pc := rfl
@[simp] theorem setVName_clause (b : Band) (n : Nat) (x : VName) : (b.setVName n x).clause = b.clause := rfl
@[simp] theorem setVName_resume (b : Band) (n : Nat) (x : VName) : (b.setVName n x).resume = b.resume := rfl
@[simp] theorem setVName_frames (b : Band) (n : Nat) (x : VName) : (b.setVName n x).frames = b.frames := rfl
@[simp] theorem setVName_inHandler (b : Band) (n : Nat) (x : VName) : (b.setVName n x).inHandler = b.inHandler := rfl
@[simp] theorem setVName_privileged (b : Band) (n : Nat) (x : VName) : (b.setVName n x).privileged = b.privileged := rfl
@[simp] theorem setVName_winFault (b : Band) (n : Nat) (x : VName) : (b.setVName n x).winFault = b.winFault := rfl
@[simp] theorem setVName_retrying (b : Band) (n : Nat) (x : VName) : (b.setVName n x).retrying = b.retrying := rfl
@[simp] theorem setVName_batch (b : Band) (n : Nat) (x : VName) : (b.setVName n x).batch = b.batch := rfl
@[simp] theorem setVName_batchLeft (b : Band) (n : Nat) (x : VName) : (b.setVName n x).batchLeft = b.batchLeft := rfl
@[simp] theorem setVName_monitors (b : Band) (n : Nat) (x : VName) : (b.setVName n x).monitors = b.monitors := rfl
@[simp] theorem setVName_trap (b : Band) (n : Nat) (x : VName) : (b.setVName n x).trap = b.trap := rfl
@[simp] theorem setVName_suspended (b : Band) (n : Nat) (x : VName) : (b.setVName n x).suspended = b.suspended := rfl
@[simp] theorem setVName_halted (b : Band) (n : Nat) (x : VName) : (b.setVName n x).halted = b.halted := rfl
@[simp] theorem setVName_parked (b : Band) (n : Nat) (x : VName) : (b.setVName n x).parked = b.parked := rfl
@[simp] theorem setVName_stopping (b : Band) (n : Nat) (x : VName) : (b.setVName n x).stopping = b.stopping := rfl
@[simp] theorem setVName_wait (b : Band) (n : Nat) (x : VName) : (b.setVName n x).wait = b.wait := rfl
@[simp] theorem setVName_timeLeft (b : Band) (n : Nat) (x : VName) : (b.setVName n x).timeLeft = b.timeLeft := rfl
@[simp] theorem setVName_held (b : Band) (n : Nat) (x : VName) : (b.setVName n x).held = b.held := rfl
@[simp] theorem setVName_tried (b : Band) (n : Nat) (x : VName) : (b.setVName n x).tried = b.tried := rfl
@[simp] theorem setVName_stalled (b : Band) (n : Nat) (x : VName) : (b.setVName n x).stalled = b.stalled := rfl
@[simp] theorem setVName_copies (b : Band) (n : Nat) (x : VName) : (b.setVName n x).copies = b.copies := rfl
@[simp] theorem setVName_lastCopy (b : Band) (n : Nat) (x : VName) : (b.setVName n x).lastCopy = b.lastCopy := rfl
@[simp] theorem setVName_readyAt (b : Band) (n : Nat) (x : VName) : (b.setVName n x).readyAt = b.readyAt := rfl
@[simp] theorem setVName_since (b : Band) (n : Nat) (x : VName) : (b.setVName n x).since = b.since := rfl

/-! ### State.release and State.assignSlots -/

/-- A fold of updates of the bands is one. -/
theorem foldl_bands (f : State → Band → State) (h : ∀ s b, ∃ bs, f s b = { s with bands := bs }) :
    ∀ (l : List Band) (s : State), ∃ bs, l.foldl f s = { s with bands := bs }
  | [], s => ⟨s.bands, rfl⟩
  | b :: l, s => by
    obtain ⟨_, e⟩ := h s b
    obtain ⟨cs, e'⟩ := foldl_bands f h l (f s b)
    exact ⟨cs, by rw [List.foldl_cons, e', e]⟩

theorem retry_eq (s : State) (b : Band) : ∃ bs, s.retry b = { s with bands := bs } := by
  unfold State.retry
  dsimp only
  split
  · split
    · exact ⟨s.bands, rfl⟩
    · exact ⟨_, rfl⟩
  · exact ⟨_, rfl⟩

/-- A release changes the bands alone. -/
theorem release_eq (s : State) : ∃ bs, s.release = { s with bands := bs } :=
  foldl_bands _ (fun s b => by
    by_cases h : (b.held && b.canIssue) = true
    · rw [if_pos h]; exact retry_eq s b
    · rw [if_neg h]; exact ⟨s.bands, rfl⟩) _ _

/-- What holds from a state to the next at each element of a list holds over the list. -/
theorem foldl_rel {α : Type} (R : State → State → Prop) (refl : ∀ s, R s s) (trans : ∀ s t u, R s t → R t u → R s u) (f : State → α → State)
    (h : ∀ s a, R s (f s a)) : ∀ (l : List α) (s : State), R s (l.foldl f s)
  | [], s => refl s
  | a :: l, s => trans _ _ _ (h s a) (foldl_rel R refl trans f h l (f s a))

/-- A state that differs in its bands and held slots alone. -/
def SlotsOnly (s t : State) : Prop := ∃ bs hs, t = { s with bands := bs, heldSlots := hs }

theorem slotsOnly_refl (s : State) : SlotsOnly s s := ⟨s.bands, s.heldSlots, rfl⟩

theorem slotsOnly_trans (s t u : State) : SlotsOnly s t → SlotsOnly t u → SlotsOnly s u
  | ⟨_, _, h⟩, ⟨bs, hs, h'⟩ => ⟨bs, hs, by rw [h', h]⟩

theorem holdShared_slots (s : State) (core quad : Nat) (x : Nat × Nat) : SlotsOnly s (s.holdShared core quad x) := by
  unfold State.holdShared
  split
  · exact slotsOnly_refl s
  · exact ⟨s.bands, _, rfl⟩

theorem slotShared_slots (s : State) : SlotsOnly s s.slotShared :=
  foldl_rel SlotsOnly slotsOnly_refl slotsOnly_trans _ (fun _ _ => foldl_rel SlotsOnly slotsOnly_refl slotsOnly_trans _
    (fun _ _ => foldl_rel SlotsOnly slotsOnly_refl slotsOnly_trans _ (fun _ _ => holdShared_slots _ _ _ _) _ _) _ _) _ _

theorem slotNames_slots (s : State) : SlotsOnly s s.slotNames :=
  foldl_rel SlotsOnly slotsOnly_refl slotsOnly_trans _ (fun s b => by
    split
    · exact slotsOnly_refl s
    · exact ⟨_, s.heldSlots, rfl⟩) _ _

/-- New slots change the bands and the held slots alone. -/
theorem assignSlots_eq (s : State) : ∃ bs hs, s.assignSlots = { s with bands := bs, heldSlots := hs } :=
  slotsOnly_trans s _ _ (slotsOnly_trans s _ _ (slotsOnly_trans s _ _ ⟨s.bands, _, rfl⟩ (slotShared_slots _)) (slotNames_slots _)) ⟨_, _, rfl⟩

@[simp] theorem release_cycle (s : State) : (s.release).cycle = s.cycle := by obtain ⟨_, h⟩ := release_eq s; rw [h]
@[simp] theorem release_mem (s : State) : (s.release).mem = s.mem := by obtain ⟨_, h⟩ := release_eq s; rw [h]
@[simp] theorem release_poison (s : State) : (s.release).poison = s.poison := by obtain ⟨_, h⟩ := release_eq s; rw [h]
@[simp] theorem release_errs (s : State) : (s.release).errs = s.errs := by obtain ⟨_, h⟩ := release_eq s; rw [h]
@[simp] theorem release_sealed (s : State) : (s.release).sealed = s.sealed := by obtain ⟨_, h⟩ := release_eq s; rw [h]
@[simp] theorem release_keyGen (s : State) : (s.release).keyGen = s.keyGen := by obtain ⟨_, h⟩ := release_eq s; rw [h]
@[simp] theorem release_ls (s : State) : (s.release).ls = s.ls := by obtain ⟨_, h⟩ := release_eq s; rw [h]
@[simp] theorem release_regs (s : State) : (s.release).regs = s.regs := by obtain ⟨_, h⟩ := release_eq s; rw [h]
@[simp] theorem release_mailbox (s : State) : (s.release).mailbox = s.mailbox := by obtain ⟨_, h⟩ := release_eq s; rw [h]
@[simp] theorem release_bars (s : State) : (s.release).bars = s.bars := by obtain ⟨_, h⟩ := release_eq s; rw [h]
@[simp] theorem release_posted (s : State) : (s.release).posted = s.posted := by obtain ⟨_, h⟩ := release_eq s; rw [h]
@[simp] theorem release_carried (s : State) : (s.release).carried = s.carried := by obtain ⟨_, h⟩ := release_eq s; rw [h]
@[simp] theorem release_tlb (s : State) : (s.release).tlb = s.tlb := by obtain ⟨_, h⟩ := release_eq s; rw [h]
@[simp] theorem release_wcache (s : State) : (s.release).wcache = s.wcache := by obtain ⟨_, h⟩ := release_eq s; rw [h]
@[simp] theorem release_l1 (s : State) : (s.release).l1 = s.l1 := by obtain ⟨_, h⟩ := release_eq s; rw [h]
@[simp] theorem release_scClock (s : State) : (s.release).scClock = s.scClock := by obtain ⟨_, h⟩ := release_eq s; rw [h]
@[simp] theorem release_chClock (s : State) : (s.release).chClock = s.chClock := by obtain ⟨_, h⟩ := release_eq s; rw [h]
@[simp] theorem release_tokens (s : State) : (s.release).tokens = s.tokens := by obtain ⟨_, h⟩ := release_eq s; rw [h]
@[simp] theorem release_locks (s : State) : (s.release).locks = s.locks := by obtain ⟨_, h⟩ := release_eq s; rw [h]
@[simp] theorem release_rflags (s : State) : (s.release).rflags = s.rflags := by obtain ⟨_, h⟩ := release_eq s; rw [h]
@[simp] theorem release_inbound (s : State) : (s.release).inbound = s.inbound := by obtain ⟨_, h⟩ := release_eq s; rw [h]
@[simp] theorem release_gregs (s : State) : (s.release).gregs = s.gregs := by obtain ⟨_, h⟩ := release_eq s; rw [h]
@[simp] theorem release_watches (s : State) : (s.release).watches = s.watches := by obtain ⟨_, h⟩ := release_eq s; rw [h]
@[simp] theorem release_celog (s : State) : (s.release).celog = s.celog := by obtain ⟨_, h⟩ := release_eq s; rw [h]
@[simp] theorem release_pubs (s : State) : (s.release).pubs = s.pubs := by obtain ⟨_, h⟩ := release_eq s; rw [h]
@[simp] theorem release_cagsIn (s : State) : (s.release).cagsIn = s.cagsIn := by obtain ⟨_, h⟩ := release_eq s; rw [h]
@[simp] theorem release_advances (s : State) : (s.release).advances = s.advances := by obtain ⟨_, h⟩ := release_eq s; rw [h]
@[simp] theorem release_wgs (s : State) : (s.release).wgs = s.wgs := by obtain ⟨_, h⟩ := release_eq s; rw [h]
@[simp] theorem release_images (s : State) : (s.release).images = s.images := by obtain ⟨_, h⟩ := release_eq s; rw [h]
@[simp] theorem release_launches (s : State) : (s.release).launches = s.launches := by obtain ⟨_, h⟩ := release_eq s; rw [h]
@[simp] theorem release_pastLids (s : State) : (s.release).pastLids = s.pastLids := by obtain ⟨_, h⟩ := release_eq s; rw [h]
@[simp] theorem release_ops (s : State) : (s.release).ops = s.ops := by obtain ⟨_, h⟩ := release_eq s; rw [h]
@[simp] theorem release_evBuf (s : State) : (s.release).evBuf = s.evBuf := by obtain ⟨_, h⟩ := release_eq s; rw [h]
@[simp] theorem release_evHeld (s : State) : (s.release).evHeld = s.evHeld := by obtain ⟨_, h⟩ := release_eq s; rw [h]
@[simp] theorem release_evGap (s : State) : (s.release).evGap = s.evGap := by obtain ⟨_, h⟩ := release_eq s; rw [h]
@[simp] theorem release_evTimes (s : State) : (s.release).evTimes = s.evTimes := by obtain ⟨_, h⟩ := release_eq s; rw [h]
@[simp] theorem release_sent (s : State) : (s.release).sent = s.sent := by obtain ⟨_, h⟩ := release_eq s; rw [h]
@[simp] theorem release_msixPending (s : State) : (s.release).msixPending = s.msixPending := by obtain ⟨_, h⟩ := release_eq s; rw [h]
@[simp] theorem release_lastRead (s : State) : (s.release).lastRead = s.lastRead := by obtain ⟨_, h⟩ := release_eq s; rw [h]
@[simp] theorem release_rrQueue (s : State) : (s.release).rrQueue = s.rrQueue := by obtain ⟨_, h⟩ := release_eq s; rw [h]
@[simp] theorem release_qpairs (s : State) : (s.release).qpairs = s.qpairs := by obtain ⟨_, h⟩ := release_eq s; rw [h]
@[simp] theorem release_rrPair (s : State) : (s.release).rrPair = s.rrPair := by obtain ⟨_, h⟩ := release_eq s; rw [h]
@[simp] theorem release_snap (s : State) : (s.release).snap = s.snap := by obtain ⟨_, h⟩ := release_eq s; rw [h]
@[simp] theorem release_snapping (s : State) : (s.release).snapping = s.snapping := by obtain ⟨_, h⟩ := release_eq s; rw [h]
@[simp] theorem release_snapAt (s : State) : (s.release).snapAt = s.snapAt := by obtain ⟨_, h⟩ := release_eq s; rw [h]
@[simp] theorem release_hcmd (s : State) : (s.release).hcmd = s.hcmd := by obtain ⟨_, h⟩ := release_eq s; rw [h]
@[simp] theorem release_cancels (s : State) : (s.release).cancels = s.cancels := by obtain ⟨_, h⟩ := release_eq s; rw [h]
@[simp] theorem release_attest (s : State) : (s.release).attest = s.attest := by obtain ⟨_, h⟩ := release_eq s; rw [h]
@[simp] theorem release_reductions (s : State) : (s.release).reductions = s.reductions := by obtain ⟨_, h⟩ := release_eq s; rw [h]
@[simp] theorem release_ringParts (s : State) : (s.release).ringParts = s.ringParts := by obtain ⟨_, h⟩ := release_eq s; rw [h]
@[simp] theorem release_closed (s : State) : (s.release).closed = s.closed := by obtain ⟨_, h⟩ := release_eq s; rw [h]
@[simp] theorem release_drops (s : State) : (s.release).drops = s.drops := by obtain ⟨_, h⟩ := release_eq s; rw [h]
@[simp] theorem release_scalars (s : State) : (s.release).scalars = s.scalars := by obtain ⟨_, h⟩ := release_eq s; rw [h]
@[simp] theorem release_norms (s : State) : (s.release).norms = s.norms := by obtain ⟨_, h⟩ := release_eq s; rw [h]
@[simp] theorem release_stepClosed (s : State) : (s.release).stepClosed = s.stepClosed := by obtain ⟨_, h⟩ := release_eq s; rw [h]
@[simp] theorem release_closedHere (s : State) : (s.release).closedHere = s.closedHere := by obtain ⟨_, h⟩ := release_eq s; rw [h]
@[simp] theorem release_heldMsgs (s : State) : (s.release).heldMsgs = s.heldMsgs := by obtain ⟨_, h⟩ := release_eq s; rw [h]
@[simp] theorem release_weir (s : State) : (s.release).weir = s.weir := by obtain ⟨_, h⟩ := release_eq s; rw [h]
@[simp] theorem release_endpoints (s : State) : (s.release).endpoints = s.endpoints := by obtain ⟨_, h⟩ := release_eq s; rw [h]
@[simp] theorem release_upset (s : State) : (s.release).upset = s.upset := by obtain ⟨_, h⟩ := release_eq s; rw [h]
@[simp] theorem release_heldSlots (s : State) : (s.release).heldSlots = s.heldSlots := by obtain ⟨_, h⟩ := release_eq s; rw [h]
@[simp] theorem release_lastIssued (s : State) : (s.release).lastIssued = s.lastIssued := by obtain ⟨_, h⟩ := release_eq s; rw [h]
@[simp] theorem release_issuedAt (s : State) : (s.release).issuedAt = s.issuedAt := by obtain ⟨_, h⟩ := release_eq s; rw [h]
@[simp] theorem release_records (s : State) : (s.release).records = s.records := by obtain ⟨_, h⟩ := release_eq s; rw [h]
@[simp] theorem release_nextUid (s : State) : (s.release).nextUid = s.nextUid := by obtain ⟨_, h⟩ := release_eq s; rw [h]
@[simp] theorem release_freeCtr (s : State) : (s.release).freeCtr = s.freeCtr := by obtain ⟨_, h⟩ := release_eq s; rw [h]
@[simp] theorem release_stray (s : State) : (s.release).stray = s.stray := by obtain ⟨_, h⟩ := release_eq s; rw [h]
@[simp] theorem release_cur (s : State) : (s.release).cur = s.cur := by obtain ⟨_, h⟩ := release_eq s; rw [h]
@[simp] theorem release_agenda (s : State) : (s.release).agenda = s.agenda := by obtain ⟨_, h⟩ := release_eq s; rw [h]

@[simp] theorem assignSlots_cycle (s : State) : (s.assignSlots).cycle = s.cycle := by obtain ⟨_, _, h⟩ := assignSlots_eq s; rw [h]
@[simp] theorem assignSlots_mem (s : State) : (s.assignSlots).mem = s.mem := by obtain ⟨_, _, h⟩ := assignSlots_eq s; rw [h]
@[simp] theorem assignSlots_poison (s : State) : (s.assignSlots).poison = s.poison := by obtain ⟨_, _, h⟩ := assignSlots_eq s; rw [h]
@[simp] theorem assignSlots_errs (s : State) : (s.assignSlots).errs = s.errs := by obtain ⟨_, _, h⟩ := assignSlots_eq s; rw [h]
@[simp] theorem assignSlots_sealed (s : State) : (s.assignSlots).sealed = s.sealed := by obtain ⟨_, _, h⟩ := assignSlots_eq s; rw [h]
@[simp] theorem assignSlots_keyGen (s : State) : (s.assignSlots).keyGen = s.keyGen := by obtain ⟨_, _, h⟩ := assignSlots_eq s; rw [h]
@[simp] theorem assignSlots_ls (s : State) : (s.assignSlots).ls = s.ls := by obtain ⟨_, _, h⟩ := assignSlots_eq s; rw [h]
@[simp] theorem assignSlots_regs (s : State) : (s.assignSlots).regs = s.regs := by obtain ⟨_, _, h⟩ := assignSlots_eq s; rw [h]
@[simp] theorem assignSlots_mailbox (s : State) : (s.assignSlots).mailbox = s.mailbox := by obtain ⟨_, _, h⟩ := assignSlots_eq s; rw [h]
@[simp] theorem assignSlots_bars (s : State) : (s.assignSlots).bars = s.bars := by obtain ⟨_, _, h⟩ := assignSlots_eq s; rw [h]
@[simp] theorem assignSlots_posted (s : State) : (s.assignSlots).posted = s.posted := by obtain ⟨_, _, h⟩ := assignSlots_eq s; rw [h]
@[simp] theorem assignSlots_carried (s : State) : (s.assignSlots).carried = s.carried := by obtain ⟨_, _, h⟩ := assignSlots_eq s; rw [h]
@[simp] theorem assignSlots_tlb (s : State) : (s.assignSlots).tlb = s.tlb := by obtain ⟨_, _, h⟩ := assignSlots_eq s; rw [h]
@[simp] theorem assignSlots_wcache (s : State) : (s.assignSlots).wcache = s.wcache := by obtain ⟨_, _, h⟩ := assignSlots_eq s; rw [h]
@[simp] theorem assignSlots_l1 (s : State) : (s.assignSlots).l1 = s.l1 := by obtain ⟨_, _, h⟩ := assignSlots_eq s; rw [h]
@[simp] theorem assignSlots_scClock (s : State) : (s.assignSlots).scClock = s.scClock := by obtain ⟨_, _, h⟩ := assignSlots_eq s; rw [h]
@[simp] theorem assignSlots_chClock (s : State) : (s.assignSlots).chClock = s.chClock := by obtain ⟨_, _, h⟩ := assignSlots_eq s; rw [h]
@[simp] theorem assignSlots_tokens (s : State) : (s.assignSlots).tokens = s.tokens := by obtain ⟨_, _, h⟩ := assignSlots_eq s; rw [h]
@[simp] theorem assignSlots_locks (s : State) : (s.assignSlots).locks = s.locks := by obtain ⟨_, _, h⟩ := assignSlots_eq s; rw [h]
@[simp] theorem assignSlots_rflags (s : State) : (s.assignSlots).rflags = s.rflags := by obtain ⟨_, _, h⟩ := assignSlots_eq s; rw [h]
@[simp] theorem assignSlots_inbound (s : State) : (s.assignSlots).inbound = s.inbound := by obtain ⟨_, _, h⟩ := assignSlots_eq s; rw [h]
@[simp] theorem assignSlots_gregs (s : State) : (s.assignSlots).gregs = s.gregs := by obtain ⟨_, _, h⟩ := assignSlots_eq s; rw [h]
@[simp] theorem assignSlots_watches (s : State) : (s.assignSlots).watches = s.watches := by obtain ⟨_, _, h⟩ := assignSlots_eq s; rw [h]
@[simp] theorem assignSlots_celog (s : State) : (s.assignSlots).celog = s.celog := by obtain ⟨_, _, h⟩ := assignSlots_eq s; rw [h]
@[simp] theorem assignSlots_pubs (s : State) : (s.assignSlots).pubs = s.pubs := by obtain ⟨_, _, h⟩ := assignSlots_eq s; rw [h]
@[simp] theorem assignSlots_cagsIn (s : State) : (s.assignSlots).cagsIn = s.cagsIn := by obtain ⟨_, _, h⟩ := assignSlots_eq s; rw [h]
@[simp] theorem assignSlots_advances (s : State) : (s.assignSlots).advances = s.advances := by obtain ⟨_, _, h⟩ := assignSlots_eq s; rw [h]
@[simp] theorem assignSlots_wgs (s : State) : (s.assignSlots).wgs = s.wgs := by obtain ⟨_, _, h⟩ := assignSlots_eq s; rw [h]
@[simp] theorem assignSlots_images (s : State) : (s.assignSlots).images = s.images := by obtain ⟨_, _, h⟩ := assignSlots_eq s; rw [h]
@[simp] theorem assignSlots_launches (s : State) : (s.assignSlots).launches = s.launches := by obtain ⟨_, _, h⟩ := assignSlots_eq s; rw [h]
@[simp] theorem assignSlots_pastLids (s : State) : (s.assignSlots).pastLids = s.pastLids := by obtain ⟨_, _, h⟩ := assignSlots_eq s; rw [h]
@[simp] theorem assignSlots_ops (s : State) : (s.assignSlots).ops = s.ops := by obtain ⟨_, _, h⟩ := assignSlots_eq s; rw [h]
@[simp] theorem assignSlots_evBuf (s : State) : (s.assignSlots).evBuf = s.evBuf := by obtain ⟨_, _, h⟩ := assignSlots_eq s; rw [h]
@[simp] theorem assignSlots_evHeld (s : State) : (s.assignSlots).evHeld = s.evHeld := by obtain ⟨_, _, h⟩ := assignSlots_eq s; rw [h]
@[simp] theorem assignSlots_evGap (s : State) : (s.assignSlots).evGap = s.evGap := by obtain ⟨_, _, h⟩ := assignSlots_eq s; rw [h]
@[simp] theorem assignSlots_evTimes (s : State) : (s.assignSlots).evTimes = s.evTimes := by obtain ⟨_, _, h⟩ := assignSlots_eq s; rw [h]
@[simp] theorem assignSlots_sent (s : State) : (s.assignSlots).sent = s.sent := by obtain ⟨_, _, h⟩ := assignSlots_eq s; rw [h]
@[simp] theorem assignSlots_msixPending (s : State) : (s.assignSlots).msixPending = s.msixPending := by obtain ⟨_, _, h⟩ := assignSlots_eq s; rw [h]
@[simp] theorem assignSlots_lastRead (s : State) : (s.assignSlots).lastRead = s.lastRead := by obtain ⟨_, _, h⟩ := assignSlots_eq s; rw [h]
@[simp] theorem assignSlots_rrQueue (s : State) : (s.assignSlots).rrQueue = s.rrQueue := by obtain ⟨_, _, h⟩ := assignSlots_eq s; rw [h]
@[simp] theorem assignSlots_qpairs (s : State) : (s.assignSlots).qpairs = s.qpairs := by obtain ⟨_, _, h⟩ := assignSlots_eq s; rw [h]
@[simp] theorem assignSlots_rrPair (s : State) : (s.assignSlots).rrPair = s.rrPair := by obtain ⟨_, _, h⟩ := assignSlots_eq s; rw [h]
@[simp] theorem assignSlots_snap (s : State) : (s.assignSlots).snap = s.snap := by obtain ⟨_, _, h⟩ := assignSlots_eq s; rw [h]
@[simp] theorem assignSlots_snapping (s : State) : (s.assignSlots).snapping = s.snapping := by obtain ⟨_, _, h⟩ := assignSlots_eq s; rw [h]
@[simp] theorem assignSlots_snapAt (s : State) : (s.assignSlots).snapAt = s.snapAt := by obtain ⟨_, _, h⟩ := assignSlots_eq s; rw [h]
@[simp] theorem assignSlots_hcmd (s : State) : (s.assignSlots).hcmd = s.hcmd := by obtain ⟨_, _, h⟩ := assignSlots_eq s; rw [h]
@[simp] theorem assignSlots_cancels (s : State) : (s.assignSlots).cancels = s.cancels := by obtain ⟨_, _, h⟩ := assignSlots_eq s; rw [h]
@[simp] theorem assignSlots_attest (s : State) : (s.assignSlots).attest = s.attest := by obtain ⟨_, _, h⟩ := assignSlots_eq s; rw [h]
@[simp] theorem assignSlots_reductions (s : State) : (s.assignSlots).reductions = s.reductions := by obtain ⟨_, _, h⟩ := assignSlots_eq s; rw [h]
@[simp] theorem assignSlots_ringParts (s : State) : (s.assignSlots).ringParts = s.ringParts := by obtain ⟨_, _, h⟩ := assignSlots_eq s; rw [h]
@[simp] theorem assignSlots_closed (s : State) : (s.assignSlots).closed = s.closed := by obtain ⟨_, _, h⟩ := assignSlots_eq s; rw [h]
@[simp] theorem assignSlots_drops (s : State) : (s.assignSlots).drops = s.drops := by obtain ⟨_, _, h⟩ := assignSlots_eq s; rw [h]
@[simp] theorem assignSlots_scalars (s : State) : (s.assignSlots).scalars = s.scalars := by obtain ⟨_, _, h⟩ := assignSlots_eq s; rw [h]
@[simp] theorem assignSlots_norms (s : State) : (s.assignSlots).norms = s.norms := by obtain ⟨_, _, h⟩ := assignSlots_eq s; rw [h]
@[simp] theorem assignSlots_stepClosed (s : State) : (s.assignSlots).stepClosed = s.stepClosed := by obtain ⟨_, _, h⟩ := assignSlots_eq s; rw [h]
@[simp] theorem assignSlots_closedHere (s : State) : (s.assignSlots).closedHere = s.closedHere := by obtain ⟨_, _, h⟩ := assignSlots_eq s; rw [h]
@[simp] theorem assignSlots_heldMsgs (s : State) : (s.assignSlots).heldMsgs = s.heldMsgs := by obtain ⟨_, _, h⟩ := assignSlots_eq s; rw [h]
@[simp] theorem assignSlots_weir (s : State) : (s.assignSlots).weir = s.weir := by obtain ⟨_, _, h⟩ := assignSlots_eq s; rw [h]
@[simp] theorem assignSlots_endpoints (s : State) : (s.assignSlots).endpoints = s.endpoints := by obtain ⟨_, _, h⟩ := assignSlots_eq s; rw [h]
@[simp] theorem assignSlots_upset (s : State) : (s.assignSlots).upset = s.upset := by obtain ⟨_, _, h⟩ := assignSlots_eq s; rw [h]
@[simp] theorem assignSlots_lastIssued (s : State) : (s.assignSlots).lastIssued = s.lastIssued := by obtain ⟨_, _, h⟩ := assignSlots_eq s; rw [h]
@[simp] theorem assignSlots_issuedAt (s : State) : (s.assignSlots).issuedAt = s.issuedAt := by obtain ⟨_, _, h⟩ := assignSlots_eq s; rw [h]
@[simp] theorem assignSlots_records (s : State) : (s.assignSlots).records = s.records := by obtain ⟨_, _, h⟩ := assignSlots_eq s; rw [h]
@[simp] theorem assignSlots_nextUid (s : State) : (s.assignSlots).nextUid = s.nextUid := by obtain ⟨_, _, h⟩ := assignSlots_eq s; rw [h]
@[simp] theorem assignSlots_freeCtr (s : State) : (s.assignSlots).freeCtr = s.freeCtr := by obtain ⟨_, _, h⟩ := assignSlots_eq s; rw [h]
@[simp] theorem assignSlots_stray (s : State) : (s.assignSlots).stray = s.stray := by obtain ⟨_, _, h⟩ := assignSlots_eq s; rw [h]
@[simp] theorem assignSlots_cur (s : State) : (s.assignSlots).cur = s.cur := by obtain ⟨_, _, h⟩ := assignSlots_eq s; rw [h]
@[simp] theorem assignSlots_agenda (s : State) : (s.assignSlots).agenda = s.agenda := by obtain ⟨_, _, h⟩ := assignSlots_eq s; rw [h]

end Sys2Proof.Laws
end

