-- ==== Sys2Proof/Laws/Form.lean ====
section
/-! SUPPORT. The operations over memory, local stores and registers keep the canonical form of the state's data. -/

namespace Sys2Proof.Laws

open Sys2Proof Sys2Proof.Machine

theorem wf_iff (s : State) : s.wf = true ↔
    Mem.wf s.mem = true ∧ Mem.wf s.ls = true ∧ Mem.wf s.mailbox = true ∧ regsWf s.regs = true := by
  simp [State.wf, Bool.and_eq_true, and_assoc]

/-- A state with the same four lists is in the form when the other is. -/
theorem wf_of {s t : State} (h : s.wf = true) (h1 : t.mem = s.mem) (h2 : t.ls = s.ls) (h3 : t.mailbox = s.mailbox) (h4 : t.regs = s.regs) :
    t.wf = true := by rw [wf_iff] at h ⊢; rw [h1, h2, h3, h4]; exact h

theorem wake_wf {s : State} (h : s.wf = true) (pa : Nat) : (s.wake pa).wf = true := wf_of h rfl rfl rfl rfl

theorem foldl_wf {α : Type} {f : State → α → State} (hf : ∀ s x, s.wf = true → (f s x).wf = true) :
    ∀ (l : List α) {s : State}, s.wf = true → (l.foldl f s).wf = true
  | [], _, h => h
  | x :: l, _, h => foldl_wf hf l (hf _ x h)

theorem setReg_form {s : State} (h : s.wf = true) (off : Nat) (w : W64) : (s.setReg off w).wf = true := by
  rw [wf_iff] at h ⊢; exact ⟨h.1, h.2.1, h.2.2.1, setReg_wf h.2.2.2 off w⟩

theorem setNum_form {s : State} (h : s.wf = true) (k : Nat) (w : W64) : (s.setNum k w).wf = true := setReg_form h _ w

theorem setLs_form {s : State} (h : s.wf = true) (key : Nat) (x : Byte) : (s.setLs key x).wf = true := by
  rw [wf_iff] at h ⊢; exact ⟨h.1, set_wf h.2.1 key x, h.2.2.1, h.2.2.2⟩

theorem writeSpace_form {s : State} (h : s.wf = true) (w : Workgroup) (k : Space) (o : Nat) (bs : List Byte) :
    (s.writeSpace w k o bs).wf = true := by
  rw [State.writeSpace]; exact foldl_wf (fun _ _ h => setLs_form h _ _) _ h

theorem clearWindows_form {s : State} (h : s.wf = true) (w : Workgroup) : (s.clearWindows w).wf = true := by
  rw [wf_iff] at h ⊢; exact ⟨h.1, filter_wf _ h.2.1, h.2.2.1, h.2.2.2⟩

theorem putCells_form {s : State} (h : s.wf = true) (pa n x : Nat) : (s.putCells pa n x).wf = true := by
  rw [wf_iff] at h ⊢; exact ⟨write_wf n pa x h.1, h.2.1, h.2.2.1, h.2.2.2⟩

theorem ramStore_form {s : State} (h : s.wf = true) (pa n x : Nat) : (s.ramStore pa n x).wf = true := by
  rw [State.ramStore]
  by_cases hn : n = 0
  · simpa [hn] using h
  · simp only [hn, if_false]; exact foldl_wf (fun _ _ h => wake_wf h _) _ (putCells_form h _ _ _)

theorem send_form {s : State} (h : s.wf = true) (x : Sent) : (s.send x).wf = true := wf_of h rfl rfl rfl rfl

theorem interrupt_form {s : State} (h : s.wf = true) (v : Nat) : (s.interrupt v).wf = true := by
  rw [State.interrupt]; split
  · exact wf_of h rfl rfl rfl rfl
  · exact send_form h _

theorem stray_form {s : State} (h : s.wf = true) (p : Option Nat) : ({ s with stray := p } : State).wf = true := by
  rw [wf_iff] at h ⊢; exact h

theorem event_form {s : State} (h : s.wf = true) (g : Bool) (ts : List (Option Nat)) (b k : List Event) :
    ({ s with evGap := g, evTimes := ts, evBuf := b, evHeld := k } : State).wf = true := by rw [wf_iff] at h ⊢; exact h

theorem ringWrite_form {s : State} (h : s.wf = true) (e : Event) : (s.ringWrite e).wf = true := by
  unfold State.ringWrite
  extract_lets p base pa x s1 s2 s3
  have h1 : s1.wf = true := by
    unfold s1
    split
    · split
      · exact h
      · exact ramStore_form h _ _ _
    · exact send_form h _
    · exact stray_form h _
    · exact h
  have h3 : s3.wf = true := setReg_form (event_form h1 _ _ _ _) _ _
  split
  · exact interrupt_form h3 _
  · exact h3

theorem ringDrain_form : ∀ (n : Nat) {s : State}, s.wf = true → (State.ringDrain n s).wf = true
  | 0, _, h => h
  | n + 1, s, h => by
    rw [State.ringDrain]
    split
    · exact h
    · split
      · exact ringDrain_form n (ringWrite_form (event_form h _ _ _ _) _)
      · split
        · exact ringDrain_form n (ringWrite_form (event_form h _ _ _ _) _)
        · exact h

theorem drain_form {s : State} (h : s.wf = true) : s.drain.wf = true := ringDrain_form _ h

theorem post_form {s : State} (h : s.wf = true) (e : Event) : (s.post e).wf = true := by
  rw [State.post]; split
  · exact drain_form (event_form h _ _ _ _)
  · split
    · exact event_form h _ _ _ _
    · split
      · exact drain_form (event_form h _ _ _ _)
      · exact event_form h _ _ _ _

theorem memEvent_form {s : State} (h : s.wf = true) (cls pa : Nat) (l : Option Nat) (ie : Bool) : (s.memEvent cls pa l ie).wf = true := by
  unfold State.memEvent; exact post_form h _

theorem secureEvent_form {s : State} (h : s.wf = true) (pa : Nat) : (s.secureEvent pa).wf = true := post_form h _

theorem setCelog_form {s : State} (h : s.wf = true) (c : CeLog) : (s.setCelog c).wf = true := wf_of h rfl rfl rfl rfl

theorem correctedError_form {s : State} (h : s.wf = true) (pa sym : Nat) : (s.correctedError pa sym).wf = true := by
  unfold State.correctedError
  dsimp only
  repeat' split
  all_goals first | exact h | exact post_form h _ | exact post_form (setCelog_form h _) _

theorem errs_form {s : State} (h : s.wf = true) (es : List SymErr) : ({ s with errs := es } : State).wf = true := by
  rw [wf_iff] at h ⊢; exact h

theorem scrub_form {s : State} (h : s.wf = true) (atom : Nat) : (s.scrub atom).wf = true := by
  unfold State.scrub
  split
  · exact h
  · refine foldl_wf (fun t q ht => ?_) _ h
    split
    · exact correctedError_form (errs_form ht _) _ _
    · exact ht

theorem resealMate_form {s : State} (h : s.wf = true) (atom : Nat) : (s.resealMate atom).wf = true := by
  unfold State.resealMate
  extract_lets mate
  split
  · exact putCells_form h _ _ _
  · exact h

/-- A write with byte enables keeps the form. -/
theorem atomStore_form {s : State} (h : s.wf = true) (l : Option Nat) (pa : Nat) (mask : BitVec 32) (data : BitVec 256) :
    (s.atomStore l pa mask data).wf = true := by
  unfold State.atomStore
  repeat' split
  all_goals first | exact h | exact ramStore_form h _ _ _ | exact ramStore_form (resealMate_form (scrub_form h _) _) _ _ _ | exact memEvent_form h _ _ _ _

theorem eachAtom_form {s : State} (h : s.wf = true) (pa n x : Nat) {put : State → Nat → BitVec 32 → BitVec 256 → State}
    (hp : ∀ t a m d, t.wf = true → (put t a m d).wf = true) : (s.eachAtom pa n x put).wf = true := by
  unfold State.eachAtom
  split
  · exact h
  · exact foldl_wf (fun t _ ht => hp t _ _ _ ht) _ h

theorem storeAt_form {s : State} (h : s.wf = true) (l : Option Nat) (pa n x : Nat) : (s.storeAt l pa n x).wf = true :=
  eachAtom_form h _ _ _ fun _ _ _ _ ht => atomStore_form ht _ _ _ _

theorem physStore_form {s : State} (h : s.wf = true) (pa n x : Nat) (w : Bool) : (s.physStore pa n x w).wf = true := by
  unfold State.physStore
  split
  · refine eachAtom_form h _ _ _ fun t a m d ht => ?_
    split
    · exact secureEvent_form ht _
    · exact atomStore_form ht _ _ _ _
  · exact send_form h _
  · exact stray_form h _
  · exact h

end Sys2Proof.Laws
end

