-- ==== Sys2Proof/Laws/Issue.lean ====
section
/-! SUPPORT. What the shared operations of an instruction word can do: the issue of a legal word, by how its meaning ends, and the
destinations. -/

set_option Elab.async false

namespace Sys2Proof.Laws

open Sys2Proof Sys2Proof.Machine Sys2Proof.Stated

/-- A legal word of the band whose turn it is does what its meaning answers. -/
theorem issue_legal {i : Instr} {b : Band} {s : State} (body : Band → State → Try Fin') (h : Stands i b s) :
    issue i body s =
      match body b (acting b s) with
      | .error (.word code) => s.takeTrap b (b.trapAt (Instr.isControl i) (len i) code 0 ((encodeWord i).setWidth 64)
          (if code = tConvergence then b.exec.setWidth 64 else 0))
      | .error (.lane code lane) => s.takeTrap b (b.trapAt (Instr.isControl i) (len i) code lane ((encodeWord i).setWidth 64) 0)
      | .error (.trap code lane x y) => s.takeTrap b (b.trapAt (Instr.isControl i) (len i) code lane x y)
      | .error .hold => heldAt i b s
      | .error (.wait v) => s.setBand { b with wait := some v, held := true, stalled := none, tried := b.firstTry i s.cycle }
      | .error (.stall nv ns) =>
        s.setBand { b with stalled := some (b.stallFrom s.cycle nv ns), held := true, tried := b.firstTry i s.cycle }
      | .ok (.next t) => past i b s t
      | .ok (.jump t a none) => gone i b s t a
      | .ok (.jump t a (some r)) => t.modBand b.uid fun c => (c.issued b.inHandler i s.cycle).gotoWithin a r
      | .ok (.leave t a v) => t.modBand b.uid fun c => { (c.issued b.inHandler i s.cycle).goto a with wait := some v }
      | .ok (.gone t) => t
      | .ok (.waiting t) => t.modBand b.uid fun c => { c with held := true } := by
  have h1 := h.last; have h2 := h.priv
  have e1 : (Instr.isControl i && !b.lastWord (1 + (litWords i.opnds).length)) = false := by
    cases hc : Instr.isControl i <;> simp_all [len]
  have e2 : (Instr.isPrivileged i && !b.privileged) = false := by
    cases hc : Instr.isPrivileged i <;> simp_all
  have hs := h.sound
  unfold issue State.shadowed
  simp only [h.here, h.may, h.form, e1, e2, Bool.not_true, Bool.false_eq_true, if_false, hs, if_true]
  rfl

theorem issue_ok {i : Instr} {b : Band} {s t : State} {body : Band → State → Try Fin'} (h : Stands i b s)
    (hb : body b (acting b s) = .ok (.next t)) : issue i body s = past i b s t := by rw [issue_legal body h, hb]

theorem issue_err {i : Instr} {b : Band} {s : State} {body : Band → State → Try Fin'} (h : Stands i b s) (c l : Nat) (x y : W64)
    (hb : body b (acting b s) = .error (.trap c l x y)) : issue i body s = s.takeTrap b (b.trapAt (Instr.isControl i) (len i) c l x y) := by
  rw [issue_legal body h, hb]

theorem issue_word {i : Instr} {b : Band} {s : State} {body : Band → State → Try Fin'} (h : Stands i b s) (c : Nat)
    (hb : body b (acting b s) = .error (.word c)) : issue i body s =
      s.takeTrap b (b.trapAt (Instr.isControl i) (len i) c 0 ((encodeWord i).setWidth 64)
        (if c = tConvergence then b.exec.setWidth 64 else 0)) := by rw [issue_legal body h, hb]

theorem issue_hold {i : Instr} {b : Band} {s : State} {body : Band → State → Try Fin'} (h : Stands i b s)
    (hb : body b (acting b s) = .error .hold) : issue i body s = heldAt i b s := by rw [issue_legal body h, hb]

theorem issue_jump {i : Instr} {b : Band} {s t : State} {a : W64} {body : Band → State → Try Fin'} (h : Stands i b s)
    (hb : body b (acting b s) = .ok (.jump t a none)) : issue i body s = gone i b s t a := by
  rw [issue_legal body h, hb]

theorem issue_wait {i : Instr} {b : Band} {s t : State} {body : Band → State → Try Fin'} (h : Stands i b s)
    (hb : body b (acting b s) = .ok (.waiting t)) : issue i body s = t.modBand b.uid fun c => { c with held := true } := by
  rw [issue_legal body h, hb]

theorem issue_gone {i : Instr} {b : Band} {s t : State} {body : Band → State → Try Fin'} (h : Stands i b s)
    (hb : body b (acting b s) = .ok (.gone t)) : issue i body s = t := by rw [issue_legal body h, hb]

theorem next_eq {s t : State} (h : s = t) : (Host.Outcome.next s : Host.Outcome State Fault Refusal) = .next t := congrArg _ h

theorem flag_ok {b : Band} {a : Bool} (h : flagFree b a = true) : b.flagReady a = .ok () := by
  unfold flagFree at h; unfold Band.flagReady; split <;> simp_all [holdUnless]

theorem scalarDst_put {s : State} {b : Band} {d : Opnd} {x : W64} (h : putReady b d s = true) : s.scalarDst b d x = .ok (put b d x s) := by
  cases d <;> simp_all [putReady, put, State.scalarDst, State.writeS, State.writeA, State.alloc, State.aReady, holdUnless]

theorem whenEnabled_put {s : State} {b : Band} {d : Opnd} {x : W64} {l : W32} (hl : s.lanesOf b = .ok l)
    (h : l = 0 ∨ putReady b d s = true) :
    whenEnabled s b (s.scalarDst b d x) = .ok (.next (if l = 0 then s else put b d x s)) := by
  unfold whenEnabled
  rw [hl]
  by_cases h0 : l = 0
  · simp [h0, Bind.bind, Except.bind, Pure.pure, Except.pure]
  · rw [scalarDst_put (h.resolve_left h0), if_neg h0]
    show (if l = 0 then _ else _) = _
    rw [if_neg h0]; rfl

theorem scalarOp_put {i : Instr} {s : State} {b : Band} {d a c : Opnd} {sg : Bool} {f : Band → W64 → W64 → W64} {x y : W64} {l : W32}
    (h : Stands i b s) (hx : (acting b s).scalarSrc b sg a = .ok x) (hy : (acting b s).scalarSrc b sg c = .ok y)
    (hl : (acting b s).lanesOf b = .ok l) (hd : l = 0 ∨ putReady b d (acting b s) = true) :
    scalarOp i sg d a c f s = past i b s (if l = 0 then acting b s else put b d (f b x y) (acting b s)) := by
  refine issue_ok h ?_
  rw [← whenEnabled_put hl hd]
  simp [hx, hy, Bind.bind, Except.bind]

theorem scalarOp1_put {i : Instr} {s : State} {b : Band} {d a : Opnd} {sg : Bool} {f : Band → W64 → W64} {x : W64} {l : W32}
    (h : Stands i b s) (hx : (acting b s).scalarSrc b sg a = .ok x) (hl : (acting b s).lanesOf b = .ok l)
    (hd : l = 0 ∨ putReady b d (acting b s) = true) :
    scalarOp1 i sg d a f s = past i b s (if l = 0 then acting b s else put b d (f b x) (acting b s)) := by
  refine issue_ok h ?_
  rw [← whenEnabled_put hl hd]
  simp [hx, Bind.bind, Except.bind]

theorem narrow64_eq (b : Band) (x : Int) : narrow64 b x = sat64 b.sat x := by
  unfold narrow64 sat64 wrapInt
  apply BitVec.eq_of_toNat_eq
  simp only [BitVec.toNat_ofNat, BitVec.toNat_ofInt, intMin, intMax]
  split <;> norm_num <;> omega

theorem vecDst_put {b : Band} {typ : Nat} {d : Opnd} {x : VReg} {l : W32} {t : State} (hw : typeBits typ ≠ 64)
    (h : vputReady b typ d l t = true) : t.vecDst b d x l = .ok (if l = 0 then t else put1 b d 0 x l t) := by
  have hw2 : (typeBits typ == 64) = false := by simpa using hw
  cases d <;> simp only [vputReady, hw2, Bool.not_false, Bool.true_or, Bool.true_and, Bool.and_true, Bool.and_eq_true, Bool.or_eq_true,
      Bool.false_eq_true, if_false] at h <;>
    by_cases h0 : l = 0 <;> simp_all [State.vecDst, State.writeV, State.writeO, put1, keeps, Band.partialReady, holdUnless,
      State.alloc, State.oReady, Bind.bind, Except.bind, Pure.pure, Except.pure]

theorem wholeReady_ok {b : Band} {typ : Nat} {d : Opnd} {l : W32} {t : State} (hw : typeBits typ ≠ 64)
    (h : wholeThere b typ d l t = true) : t.wholeReady b d l = .ok () := by
  have hw2 : (typeBits typ == 64) = false := by simpa using hw
  unfold State.wholeReady
  by_cases h0 : l = 0
  · subst h0
    cases d <;> simp_all [wholeThere, holdUnless, State.oReady]
  · rw [if_pos h0]

theorem elemDst_put {b : Band} {typ : Nat} {d : Opnd} {g : Nat → Nat} {l : W32} {t : State} {alu : Bool} (h : vputReady b typ d l t = true)
    (ha : alu = true → wholeThere b typ d l t = true) : t.elemDst b typ d g l alu = .ok (vput b typ d g l alu t) := by
  unfold State.elemDst vput
  by_cases hw : typeBits typ = 64
  · simp only [hw, if_true]
    cases d <;> simp only [vputReady, hw, beq_self_eq_true, Bool.not_true, Bool.false_or, Bool.and_eq_true, Bool.or_eq_true, reduceCtorEq,
        if_true] at h <;>
      by_cases h0 : l = 0 <;> simp_all [State.pairDst, need, put1, keeps, Band.partialReady, holdUnless, State.alloc, State.oReady,
        Bind.bind, Except.bind, Pure.pure, Except.pure]
  · simp only [hw, if_false, vecDst_put hw h]
    cases alu
    · rfl
    · simp [wholeReady_ok hw (ha rfl), Bind.bind, Except.bind, Pure.pure, Except.pure]

theorem arithElems_put {b : Band} {typ : Nat} {d : Opnd} {g : Nat → Nat} {l : W32} {fl : BitVec 6} {t : State}
    (h : vputReady b typ d l t = true) (hf : flagFree b true = true) : t.arithElems b typ d g l fl = .ok (arithPut b typ d g l fl t) := by
  have hf' := flag_ok hf
  unfold State.arithElems arithPut
  by_cases hw : typeBits typ = 64
  · simp only [hw, if_true]
    cases d <;> simp only [vputReady, hw, beq_self_eq_true, Bool.not_true, Bool.false_or, Bool.and_eq_true, Bool.or_eq_true, reduceCtorEq,
        if_true] at h <;>
      by_cases h0 : l = 0 <;> simp_all [State.arithPair, need, keeps, Band.partialReady, holdUnless, State.alloc, State.oReady,
        Bind.bind, Except.bind, Pure.pure, Except.pure]
  · have hw2 : (typeBits typ == 64) = false := by simpa using hw
    simp only [hw, hw2, if_false, Bool.false_eq_true]
    cases d <;> simp only [vputReady, hw2, Bool.not_false, Bool.true_or, Bool.true_and, Bool.and_true, Bool.and_eq_true, Bool.or_eq_true,
        Bool.false_eq_true, if_false] at h <;>
      by_cases h0 : l = 0 <;> simp_all [State.arithV, keeps, Band.partialReady, holdUnless, State.alloc, State.oReady, Bind.bind,
        Except.bind, Pure.pure, Except.pure]

end Sys2Proof.Laws
end

