-- ==== Sys2Proof/Laws/PerInstr.lean ====
section
/-! SUPPORT. Per instruction: decoding what is encoded (R168, R175, R178, R180, R183). Generated from the fields of
spec/opcode_table.json, as the encoder is. -/

set_option linter.unusedSimpArgs false
set_option Elab.async false

namespace Sys2Proof.Laws.RoundTrip

/-- The words of an instruction that has a word of its own decode to it, whatever follows. -/
def Statement (i : Instr) : Prop := i.hasWord = true → i.encodable = true → ∀ rest, decode (encode i ++ rest) = .ok (i, rest)


theorem clauseHeader (wait : BitVec 12) (seta : BitVec 4) (setb : BitVec 4) (len : BitVec 4) : Statement (.clauseHeader wait seta setb len) :=
  of_row fun l => ⟨⟨true, [], .clauseHeader wait seta setb len⟩,
    (rowF (0xFC#8 ++ wait ++ seta ++ setb ++ len) 12 (by simp (disch := decide) only [field_hi, field_lo]; rfl)).trans (by change some (Row.mk _ _ _) = _; simp (disch := decide) only [field_hi, field_lo, field_all, Nat.reduceSub, Nat.sub_self]),
    rfl, rfl, fun _ => rfl⟩

theorem nop : Statement .nop :=
  of_row fun l => ⟨⟨true, [], .nop⟩,
    (row0 (0x00#8 ++ 0#24) 0 (by simp (disch := decide) only [field_hi, field_lo]; rfl)).trans (by change some (Row.mk _ _ _) = _; simp (disch := decide) only [field_hi, field_lo, field_all, Nat.reduceSub, Nat.sub_self]; rfl),
    rfl, rfl, fun _ => rfl⟩

theorem br (off : BitVec 24) : Statement (.br off) :=
  of_row fun l => ⟨⟨true, [], .br off⟩,
    (row0 (0x01#8 ++ off) 1 (by simp (disch := decide) only [field_hi, field_lo]; rfl)).trans (by change some (Row.mk _ _ _) = _; simp (disch := decide) only [field_hi, field_lo, field_all, Nat.reduceSub, Nat.sub_self]),
    rfl, rfl, fun _ => rfl⟩

theorem brz (p : Opnd) (off : BitVec 16) : Statement (.brz p off) :=
  of_row fun l => ⟨⟨true, [p.code], .brz (opndOf p.code l) off⟩,
    (row0 (0x02#8 ++ p.code ++ off) 2 (by simp (disch := decide) only [field_hi, field_lo]; rfl)).trans (by change some (Row.mk _ _ _) = _; simp (disch := decide) only [field_hi, field_lo, field_all, Nat.reduceSub, Nat.sub_self]),
    rfl, rfl, fun h => by rw [h p (.head _)]⟩

theorem brnz (p : Opnd) (off : BitVec 16) : Statement (.brnz p off) :=
  of_row fun l => ⟨⟨true, [p.code], .brnz (opndOf p.code l) off⟩,
    (row0 (0x03#8 ++ p.code ++ off) 3 (by simp (disch := decide) only [field_hi, field_lo]; rfl)).trans (by change some (Row.mk _ _ _) = _; simp (disch := decide) only [field_hi, field_lo, field_all, Nat.reduceSub, Nat.sub_self]),
    rfl, rfl, fun h => by rw [h p (.head _)]⟩

theorem bzm (p : Opnd) (off : BitVec 16) : Statement (.bzm p off) :=
  of_row fun l => ⟨⟨true, [p.code], .bzm (opndOf p.code l) off⟩,
    (row0 (0x04#8 ++ p.code ++ off) 4 (by simp (disch := decide) only [field_hi, field_lo]; rfl)).trans (by change some (Row.mk _ _ _) = _; simp (disch := decide) only [field_hi, field_lo, field_all, Nat.reduceSub, Nat.sub_self]),
    rfl, rfl, fun h => by rw [h p (.head _)]⟩

theorem bnzm (p : Opnd) (off : BitVec 16) : Statement (.bnzm p off) :=
  of_row fun l => ⟨⟨true, [p.code], .bnzm (opndOf p.code l) off⟩,
    (row0 (0x05#8 ++ p.code ++ off) 5 (by simp (disch := decide) only [field_hi, field_lo]; rfl)).trans (by change some (Row.mk _ _ _) = _; simp (disch := decide) only [field_hi, field_lo, field_all, Nat.reduceSub, Nat.sub_self]),
    rfl, rfl, fun h => by rw [h p (.head _)]⟩

theorem ballm (p : Opnd) (off : BitVec 16) : Statement (.ballm p off) :=
  of_row fun l => ⟨⟨true, [p.code], .ballm (opndOf p.code l) off⟩,
    (row0 (0x06#8 ++ p.code ++ off) 6 (by simp (disch := decide) only [field_hi, field_lo]; rfl)).trans (by change some (Row.mk _ _ _) = _; simp (disch := decide) only [field_hi, field_lo, field_all, Nat.reduceSub, Nat.sub_self]),
    rfl, rfl, fun h => by rw [h p (.head _)]⟩

theorem call (n : BitVec 8) (off : BitVec 16) : Statement (.call n off) :=
  of_row fun l => ⟨⟨true, [], .call n off⟩,
    (row0 (0x07#8 ++ n ++ off) 7 (by simp (disch := decide) only [field_hi, field_lo]; rfl)).trans (by change some (Row.mk _ _ _) = _; simp (disch := decide) only [field_hi, field_lo, field_all, Nat.reduceSub, Nat.sub_self]),
    rfl, rfl, fun _ => rfl⟩

theorem calli (n : BitVec 8) (t : Opnd) : Statement (.calli n t) :=
  of_row fun l => ⟨⟨true, [t.code], .calli n (opndOf t.code l)⟩,
    (row0 (0x08#8 ++ n ++ t.code ++ 0#8) 8 (by simp (disch := decide) only [field_hi, field_lo]; rfl)).trans (by change some (Row.mk _ _ _) = _; simp (disch := decide) only [field_hi, field_lo, field_all, Nat.reduceSub, Nat.sub_self]; rfl),
    rfl, rfl, fun h => by rw [h t (.head _)]⟩

theorem ret : Statement .ret :=
  of_row fun l => ⟨⟨true, [], .ret⟩,
    (row0 (0x09#8 ++ 0#24) 9 (by simp (disch := decide) only [field_hi, field_lo]; rfl)).trans (by change some (Row.mk _ _ _) = _; simp (disch := decide) only [field_hi, field_lo, field_all, Nat.reduceSub, Nat.sub_self]; rfl),
    rfl, rfl, fun _ => rfl⟩

theorem loop (p : Opnd) (off : BitVec 16) : Statement (.loop p off) :=
  of_row fun l => ⟨⟨true, [p.code], .loop (opndOf p.code l) off⟩,
    (row0 (0x0A#8 ++ p.code ++ off) 10 (by simp (disch := decide) only [field_hi, field_lo]; rfl)).trans (by change some (Row.mk _ _ _) = _; simp (disch := decide) only [field_hi, field_lo, field_all, Nat.reduceSub, Nat.sub_self]),
    rfl, rfl, fun h => by rw [h p (.head _)]⟩

theorem yield : Statement .yield :=
  of_row fun l => ⟨⟨true, [], .yield⟩,
    (row0 (0x0B#8 ++ 0#24) 11 (by simp (disch := decide) only [field_hi, field_lo]; rfl)).trans (by change some (Row.mk _ _ _) = _; simp (disch := decide) only [field_hi, field_lo, field_all, Nat.reduceSub, Nat.sub_self]; rfl),
    rfl, rfl, fun _ => rfl⟩

theorem yieldc (off : BitVec 24) : Statement (.yieldc off) :=
  of_row fun l => ⟨⟨true, [], .yieldc off⟩,
    (row0 (0x0C#8 ++ off) 12 (by simp (disch := decide) only [field_hi, field_lo]; rfl)).trans (by change some (Row.mk _ _ _) = _; simp (disch := decide) only [field_hi, field_lo, field_all, Nat.reduceSub, Nat.sub_self]),
    rfl, rfl, fun _ => rfl⟩

theorem exit : Statement .exit :=
  of_row fun l => ⟨⟨true, [], .exit⟩,
    (row0 (0x0D#8 ++ 0#24) 13 (by simp (disch := decide) only [field_hi, field_lo]; rfl)).trans (by change some (Row.mk _ _ _) = _; simp (disch := decide) only [field_hi, field_lo, field_all, Nat.reduceSub, Nat.sub_self]; rfl),
    rfl, rfl, fun _ => rfl⟩

theorem trap (imm : BitVec 16) : Statement (.trap imm) :=
  of_row fun l => ⟨⟨true, [], .trap imm⟩,
    (row0 (0x0E#8 ++ 0#8 ++ imm) 14 (by simp (disch := decide) only [field_hi, field_lo]; rfl)).trans (by change some (Row.mk _ _ _) = _; simp (disch := decide) only [field_hi, field_lo, field_all, Nat.reduceSub, Nat.sub_self]; rfl),
    rfl, rfl, fun _ => rfl⟩

theorem jmpi (t : Opnd) : Statement (.jmpi t) :=
  of_row fun l => ⟨⟨true, [t.code], .jmpi (opndOf t.code l)⟩,
    (row0 (0x0F#8 ++ 0#8 ++ t.code ++ 0#8) 15 (by simp (disch := decide) only [field_hi, field_lo]; rfl)).trans (by change some (Row.mk _ _ _) = _; simp (disch := decide) only [field_hi, field_lo, field_all, Nat.reduceSub, Nat.sub_self]; rfl),
    rfl, rfl, fun h => by rw [h t (.head _)]⟩

theorem setmode (imm : BitVec 16) : Statement (.setmode imm) :=
  of_row fun l => ⟨⟨true, [], .setmode imm⟩,
    (row1 (0x10#8 ++ 0#8 ++ imm) 0 (by simp (disch := decide) only [field_hi, field_lo]; rfl)).trans (by change some (Row.mk _ _ _) = _; simp (disch := decide) only [field_hi, field_lo, field_all, Nat.reduceSub, Nat.sub_self]; rfl),
    rfl, rfl, fun _ => rfl⟩

theorem setmm (imm : BitVec 16) : Statement (.setmm imm) :=
  of_row fun l => ⟨⟨true, [], .setmm imm⟩,
    (row1 (0x11#8 ++ 0#8 ++ imm) 1 (by simp (disch := decide) only [field_hi, field_lo]; rfl)).trans (by change some (Row.mk _ _ _) = _; simp (disch := decide) only [field_hi, field_lo, field_all, Nat.reduceSub, Nat.sub_self]; rfl),
    rfl, rfl, fun _ => rfl⟩

theorem getmode (d : Opnd) : Statement (.getmode d) :=
  of_row fun l => ⟨⟨true, [d.code], .getmode (opndOf d.code l)⟩,
    (row1 (0x12#8 ++ d.code ++ 0#16) 2 (by simp (disch := decide) only [field_hi, field_lo]; rfl)).trans (by change some (Row.mk _ _ _) = _; simp (disch := decide) only [field_hi, field_lo, field_all, Nat.reduceSub, Nat.sub_self]; rfl),
    rfl, rfl, fun h => by rw [h d (.head _)]⟩

theorem mand (d : Opnd) (a : Opnd) (b : Opnd) : Statement (.mand d a b) :=
  of_row fun l => ⟨⟨true, [d.code, a.code, b.code], .mand (opndOf d.code l) (opndOf a.code l) (opndOf b.code l)⟩,
    (row1 (0x13#8 ++ d.code ++ a.code ++ b.code) 3 (by simp (disch := decide) only [field_hi, field_lo]; rfl)).trans (by change some (Row.mk _ _ _) = _; simp (disch := decide) only [field_hi, field_lo, field_all, Nat.reduceSub, Nat.sub_self]),
    rfl, rfl, fun h => by rw [h d (.head _), h a (.tail _ (.head _)), h b (.tail _ (.tail _ (.head _)))]⟩

theorem mor (d : Opnd) (a : Opnd) (b : Opnd) : Statement (.mor d a b) :=
  of_row fun l => ⟨⟨true, [d.code, a.code, b.code], .mor (opndOf d.code l) (opndOf a.code l) (opndOf b.code l)⟩,
    (row1 (0x14#8 ++ d.code ++ a.code ++ b.code) 4 (by simp (disch := decide) only [field_hi, field_lo]; rfl)).trans (by change some (Row.mk _ _ _) = _; simp (disch := decide) only [field_hi, field_lo, field_all, Nat.reduceSub, Nat.sub_self]),
    rfl, rfl, fun h => by rw [h d (.head _), h a (.tail _ (.head _)), h b (.tail _ (.tail _ (.head _)))]⟩

theorem mxor (d : Opnd) (a : Opnd) (b : Opnd) : Statement (.mxor d a b) :=
  of_row fun l => ⟨⟨true, [d.code, a.code, b.code], .mxor (opndOf d.code l) (opndOf a.code l) (opndOf b.code l)⟩,
    (row1 (0x15#8 ++ d.code ++ a.code ++ b.code) 5 (by simp (disch := decide) only [field_hi, field_lo]; rfl)).trans (by change some (Row.mk _ _ _) = _; simp (disch := decide) only [field_hi, field_lo, field_all, Nat.reduceSub, Nat.sub_self]),
    rfl, rfl, fun h => by rw [h d (.head _), h a (.tail _ (.head _)), h b (.tail _ (.tail _ (.head _)))]⟩

theorem mandn (d : Opnd) (a : Opnd) (b : Opnd) : Statement (.mandn d a b) :=
  of_row fun l => ⟨⟨true, [d.code, a.code, b.code], .mandn (opndOf d.code l) (opndOf a.code l) (opndOf b.code l)⟩,
    (row1 (0x16#8 ++ d.code ++ a.code ++ b.code) 6 (by simp (disch := decide) only [field_hi, field_lo]; rfl)).trans (by change some (Row.mk _ _ _) = _; simp (disch := decide) only [field_hi, field_lo, field_all, Nat.reduceSub, Nat.sub_self]),
    rfl, rfl, fun h => by rw [h d (.head _), h a (.tail _ (.head _)), h b (.tail _ (.tail _ (.head _)))]⟩

theorem mnot (d : Opnd) (a : Opnd) : Statement (.mnot d a) :=
  of_row fun l => ⟨⟨true, [d.code, a.code], .mnot (opndOf d.code l) (opndOf a.code l)⟩,
    (row1 (0x17#8 ++ d.code ++ a.code ++ 0#8) 7 (by simp (disch := decide) only [field_hi, field_lo]; rfl)).trans (by change some (Row.mk _ _ _) = _; simp (disch := decide) only [field_hi, field_lo, field_all, Nat.reduceSub, Nat.sub_self]; rfl),
    rfl, rfl, fun h => by rw [h d (.head _), h a (.tail _ (.head _))]⟩

theorem mmov (d : Opnd) (a : Opnd) : Statement (.mmov d a) :=
  of_row fun l => ⟨⟨true, [d.code, a.code], .mmov (opndOf d.code l) (opndOf a.code l)⟩,
    (row1 (0x18#8 ++ d.code ++ a.code ++ 0#8) 8 (by simp (disch := decide) only [field_hi, field_lo]; rfl)).trans (by change some (Row.mk _ _ _) = _; simp (disch := decide) only [field_hi, field_lo, field_all, Nat.reduceSub, Nat.sub_self]; rfl),
    rfl, rfl, fun h => by rw [h d (.head _), h a (.tail _ (.head _))]⟩

theorem mpopc (d : Opnd) (a : Opnd) : Statement (.mpopc d a) :=
  of_row fun l => ⟨⟨true, [d.code, a.code], .mpopc (opndOf d.code l) (opndOf a.code l)⟩,
    (row1 (0x19#8 ++ d.code ++ a.code ++ 0#8) 9 (by simp (disch := decide) only [field_hi, field_lo]; rfl)).trans (by change some (Row.mk _ _ _) = _; simp (disch := decide) only [field_hi, field_lo, field_all, Nat.reduceSub, Nat.sub_self]; rfl),
    rfl, rfl, fun h => by rw [h d (.head _), h a (.tail _ (.head _))]⟩

theorem mffs (d : Opnd) (a : Opnd) : Statement (.mffs d a) :=
  of_row fun l => ⟨⟨true, [d.code, a.code], .mffs (opndOf d.code l) (opndOf a.code l)⟩,
    (row1 (0x1A#8 ++ d.code ++ a.code ++ 0#8) 10 (by simp (disch := decide) only [field_hi, field_lo]; rfl)).trans (by change some (Row.mk _ _ _) = _; simp (disch := decide) only [field_hi, field_lo, field_all, Nat.reduceSub, Nat.sub_self]; rfl),
    rfl, rfl, fun h => by rw [h d (.head _), h a (.tail _ (.head _))]⟩

theorem mseti (d : Opnd) (imm : W32) : Statement (.mseti d imm) :=
  of_row fun l => ⟨⟨true, [d.code, 0xB2], .mseti (opndOf d.code l) l⟩,
    (row1 (0x1B#8 ++ d.code ++ 0xb200#16) 11 (by simp (disch := decide) only [field_hi, field_lo]; rfl)).trans (by change some (Row.mk _ _ _) = _; simp (disch := decide) only [field_hi, field_lo, field_all, Nat.reduceSub, Nat.sub_self]; rfl),
    rfl, rfl, fun h => by rw [h d (.head _), lit_of (h (.lit imm) (.tail _ (.head _)))]⟩

theorem mlane (d : Opnd) (a : Opnd) : Statement (.mlane d a) :=
  of_row fun l => ⟨⟨true, [d.code, a.code], .mlane (opndOf d.code l) (opndOf a.code l)⟩,
    (row1 (0x1C#8 ++ d.code ++ a.code ++ 0#8) 12 (by simp (disch := decide) only [field_hi, field_lo]; rfl)).trans (by change some (Row.mk _ _ _) = _; simp (disch := decide) only [field_hi, field_lo, field_all, Nat.reduceSub, Nat.sub_self]; rfl),
    rfl, rfl, fun h => by rw [h d (.head _), h a (.tail _ (.head _))]⟩

theorem fpsget (d : Opnd) : Statement (.fpsget d) :=
  of_row fun l => ⟨⟨true, [d.code], .fpsget (opndOf d.code l)⟩,
    (row1 (0x1D#8 ++ d.code ++ 0#16) 13 (by simp (disch := decide) only [field_hi, field_lo]; rfl)).trans (by change some (Row.mk _ _ _) = _; simp (disch := decide) only [field_hi, field_lo, field_all, Nat.reduceSub, Nat.sub_self]; rfl),
    rfl, rfl, fun h => by rw [h d (.head _)]⟩

theorem fpsclr (a : Opnd) (imm : BitVec 6) : Statement (.fpsclr a imm) :=
  of_row fun l => ⟨⟨true, [a.code], .fpsclr (opndOf a.code l) imm⟩,
    (row1 (0x1E#8 ++ 0#8 ++ a.code ++ 0#2 ++ imm) 14 (by simp (disch := decide) only [field_hi, field_lo]; rfl)).trans (by change some (Row.mk _ _ _) = _; simp (disch := decide) only [field_hi, field_lo, field_all, Nat.reduceSub, Nat.sub_self]; rfl),
    rfl, rfl, fun h => by rw [h a (.head _)]⟩

theorem sget (d : Opnd) (imm : BitVec 8) : Statement (.sget d imm) :=
  of_row fun l => ⟨⟨true, [d.code], .sget (opndOf d.code l) imm⟩,
    (row1 (0x1F#8 ++ d.code ++ 0#8 ++ imm) 15 (by simp (disch := decide) only [field_hi, field_lo]; rfl)).trans (by change some (Row.mk _ _ _) = _; simp (disch := decide) only [field_hi, field_lo, field_all, Nat.reduceSub, Nat.sub_self]; rfl),
    rfl, rfl, fun h => by rw [h d (.head _)]⟩

theorem sadd (d : Opnd) (a : Opnd) (b : Opnd) : Statement (.sadd d a b) :=
  of_row fun l => ⟨⟨true, [d.code, a.code, b.code], .sadd (opndOf d.code l) (opndOf a.code l) (opndOf b.code l)⟩,
    (row2 (0x20#8 ++ d.code ++ a.code ++ b.code) 0 (by simp (disch := decide) only [field_hi, field_lo]; rfl)).trans (by change some (Row.mk _ _ _) = _; simp (disch := decide) only [field_hi, field_lo, field_all, Nat.reduceSub, Nat.sub_self]),
    rfl, rfl, fun h => by rw [h d (.head _), h a (.tail _ (.head _)), h b (.tail _ (.tail _ (.head _)))]⟩

theorem ssub (d : Opnd) (a : Opnd) (b : Opnd) : Statement (.ssub d a b) :=
  of_row fun l => ⟨⟨true, [d.code, a.code, b.code], .ssub (opndOf d.code l) (opndOf a.code l) (opndOf b.code l)⟩,
    (row2 (0x21#8 ++ d.code ++ a.code ++ b.code) 1 (by simp (disch := decide) only [field_hi, field_lo]; rfl)).trans (by change some (Row.mk _ _ _) = _; simp (disch := decide) only [field_hi, field_lo, field_all, Nat.reduceSub, Nat.sub_self]),
    rfl, rfl, fun h => by rw [h d (.head _), h a (.tail _ (.head _)), h b (.tail _ (.tail _ (.head _)))]⟩

theorem smul (d : Opnd) (a : Opnd) (b : Opnd) : Statement (.smul d a b) :=
  of_row fun l => ⟨⟨true, [d.code, a.code, b.code], .smul (opndOf d.code l) (opndOf a.code l) (opndOf b.code l)⟩,
    (row2 (0x22#8 ++ d.code ++ a.code ++ b.code) 2 (by simp (disch := decide) only [field_hi, field_lo]; rfl)).trans (by change some (Row.mk _ _ _) = _; simp (disch := decide) only [field_hi, field_lo, field_all, Nat.reduceSub, Nat.sub_self]),
    rfl, rfl, fun h => by rw [h d (.head _), h a (.tail _ (.head _)), h b (.tail _ (.tail _ (.head _)))]⟩

theorem smulh (d : Opnd) (a : Opnd) (b : Opnd) : Statement (.smulh d a b) :=
  of_row fun l => ⟨⟨true, [d.code, a.code, b.code], .smulh (opndOf d.code l) (opndOf a.code l) (opndOf b.code l)⟩,
    (row2 (0x23#8 ++ d.code ++ a.code ++ b.code) 3 (by simp (disch := decide) only [field_hi, field_lo]; rfl)).trans (by change some (Row.mk _ _ _) = _; simp (disch := decide) only [field_hi, field_lo, field_all, Nat.reduceSub, Nat.sub_self]),
    rfl, rfl, fun h => by rw [h d (.head _), h a (.tail _ (.head _)), h b (.tail _ (.tail _ (.head _)))]⟩

theorem smulhn (d : Opnd) (a : Opnd) (b : Opnd) : Statement (.smulhn d a b) :=
  of_row fun l => ⟨⟨true, [d.code, a.code, b.code], .smulhn (opndOf d.code l) (opndOf a.code l) (opndOf b.code l)⟩,
    (row2 (0x24#8 ++ d.code ++ a.code ++ b.code) 4 (by simp (disch := decide) only [field_hi, field_lo]; rfl)).trans (by change some (Row.mk _ _ _) = _; simp (disch := decide) only [field_hi, field_lo, field_all, Nat.reduceSub, Nat.sub_self]),
    rfl, rfl, fun h => by rw [h d (.head _), h a (.tail _ (.head _)), h b (.tail _ (.tail _ (.head _)))]⟩

theorem sdiv (d : Opnd) (a : Opnd) (b : Opnd) : Statement (.sdiv d a b) :=
  of_row fun l => ⟨⟨true, [d.code, a.code, b.code], .sdiv (opndOf d.code l) (opndOf a.code l) (opndOf b.code l)⟩,
    (row2 (0x25#8 ++ d.code ++ a.code ++ b.code) 5 (by simp (disch := decide) only [field_hi, field_lo]; rfl)).trans (by change some (Row.mk _ _ _) = _; simp (disch := decide) only [field_hi, field_lo, field_all, Nat.reduceSub, Nat.sub_self]),
    rfl, rfl, fun h => by rw [h d (.head _), h a (.tail _ (.head _)), h b (.tail _ (.tail _ (.head _)))]⟩

theorem sdivn (d : Opnd) (a : Opnd) (b : Opnd) : Statement (.sdivn d a b) :=
  of_row fun l => ⟨⟨true, [d.code, a.code, b.code], .sdivn (opndOf d.code l) (opndOf a.code l) (opndOf b.code l)⟩,
    (row2 (0x26#8 ++ d.code ++ a.code ++ b.code) 6 (by simp (disch := decide) only [field_hi, field_lo]; rfl)).trans (by change some (Row.mk _ _ _) = _; simp (disch := decide) only [field_hi, field_lo, field_all, Nat.reduceSub, Nat.sub_self]),
    rfl, rfl, fun h => by rw [h d (.head _), h a (.tail _ (.head _)), h b (.tail _ (.tail _ (.head _)))]⟩

theorem smod (d : Opnd) (a : Opnd) (b : Opnd) : Statement (.smod d a b) :=
  of_row fun l => ⟨⟨true, [d.code, a.code, b.code], .smod (opndOf d.code l) (opndOf a.code l) (opndOf b.code l)⟩,
    (row2 (0x27#8 ++ d.code ++ a.code ++ b.code) 7 (by simp (disch := decide) only [field_hi, field_lo]; rfl)).trans (by change some (Row.mk _ _ _) = _; simp (disch := decide) only [field_hi, field_lo, field_all, Nat.reduceSub, Nat.sub_self]),
    rfl, rfl, fun h => by rw [h d (.head _), h a (.tail _ (.head _)), h b (.tail _ (.tail _ (.head _)))]⟩

theorem sand (d : Opnd) (a : Opnd) (b : Opnd) : Statement (.sand d a b) :=
  of_row fun l => ⟨⟨true, [d.code, a.code, b.code], .sand (opndOf d.code l) (opndOf a.code l) (opndOf b.code l)⟩,
    (row2 (0x28#8 ++ d.code ++ a.code ++ b.code) 8 (by simp (disch := decide) only [field_hi, field_lo]; rfl)).trans (by change some (Row.mk _ _ _) = _; simp (disch := decide) only [field_hi, field_lo, field_all, Nat.reduceSub, Nat.sub_self]),
    rfl, rfl, fun h => by rw [h d (.head _), h a (.tail _ (.head _)), h b (.tail _ (.tail _ (.head _)))]⟩

theorem sor (d : Opnd) (a : Opnd) (b : Opnd) : Statement (.sor d a b) :=
  of_row fun l => ⟨⟨true, [d.code, a.code, b.code], .sor (opndOf d.code l) (opndOf a.code l) (opndOf b.code l)⟩,
    (row2 (0x29#8 ++ d.code ++ a.code ++ b.code) 9 (by simp (disch := decide) only [field_hi, field_lo]; rfl)).trans (by change some (Row.mk _ _ _) = _; simp (disch := decide) only [field_hi, field_lo, field_all, Nat.reduceSub, Nat.sub_self]),
    rfl, rfl, fun h => by rw [h d (.head _), h a (.tail _ (.head _)), h b (.tail _ (.tail _ (.head _)))]⟩

theorem sxor (d : Opnd) (a : Opnd) (b : Opnd) : Statement (.sxor d a b) :=
  of_row fun l => ⟨⟨true, [d.code, a.code, b.code], .sxor (opndOf d.code l) (opndOf a.code l) (opndOf b.code l)⟩,
    (row2 (0x2A#8 ++ d.code ++ a.code ++ b.code) 10 (by simp (disch := decide) only [field_hi, field_lo]; rfl)).trans (by change some (Row.mk _ _ _) = _; simp (disch := decide) only [field_hi, field_lo, field_all, Nat.reduceSub, Nat.sub_self]),
    rfl, rfl, fun h => by rw [h d (.head _), h a (.tail _ (.head _)), h b (.tail _ (.tail _ (.head _)))]⟩

theorem sshl (d : Opnd) (a : Opnd) (b : Opnd) : Statement (.sshl d a b) :=
  of_row fun l => ⟨⟨true, [d.code, a.code, b.code], .sshl (opndOf d.code l) (opndOf a.code l) (opndOf b.code l)⟩,
    (row2 (0x2B#8 ++ d.code ++ a.code ++ b.code) 11 (by simp (disch := decide) only [field_hi, field_lo]; rfl)).trans (by change some (Row.mk _ _ _) = _; simp (disch := decide) only [field_hi, field_lo, field_all, Nat.reduceSub, Nat.sub_self]),
    rfl, rfl, fun h => by rw [h d (.head _), h a (.tail _ (.head _)), h b (.tail _ (.tail _ (.head _)))]⟩

theorem sshr (d : Opnd) (a : Opnd) (b : Opnd) : Statement (.sshr d a b) :=
  of_row fun l => ⟨⟨true, [d.code, a.code, b.code], .sshr (opndOf d.code l) (opndOf a.code l) (opndOf b.code l)⟩,
    (row2 (0x2C#8 ++ d.code ++ a.code ++ b.code) 12 (by simp (disch := decide) only [field_hi, field_lo]; rfl)).trans (by change some (Row.mk _ _ _) = _; simp (disch := decide) only [field_hi, field_lo, field_all, Nat.reduceSub, Nat.sub_self]),
    rfl, rfl, fun h => by rw [h d (.head _), h a (.tail _ (.head _)), h b (.tail _ (.tail _ (.head _)))]⟩

theorem ssar (d : Opnd) (a : Opnd) (b : Opnd) : Statement (.ssar d a b) :=
  of_row fun l => ⟨⟨true, [d.code, a.code, b.code], .ssar (opndOf d.code l) (opndOf a.code l) (opndOf b.code l)⟩,
    (row2 (0x2D#8 ++ d.code ++ a.code ++ b.code) 13 (by simp (disch := decide) only [field_hi, field_lo]; rfl)).trans (by change some (Row.mk _ _ _) = _; simp (disch := decide) only [field_hi, field_lo, field_all, Nat.reduceSub, Nat.sub_self]),
    rfl, rfl, fun h => by rw [h d (.head _), h a (.tail _ (.head _)), h b (.tail _ (.tail _ (.head _)))]⟩

theorem smin (d : Opnd) (a : Opnd) (b : Opnd) : Statement (.smin d a b) :=
  of_row fun l => ⟨⟨true, [d.code, a.code, b.code], .smin (opndOf d.code l) (opndOf a.code l) (opndOf b.code l)⟩,
    (row2 (0x2E#8 ++ d.code ++ a.code ++ b.code) 14 (by simp (disch := decide) only [field_hi, field_lo]; rfl)).trans (by change some (Row.mk _ _ _) = _; simp (disch := decide) only [field_hi, field_lo, field_all, Nat.reduceSub, Nat.sub_self]),
    rfl, rfl, fun h => by rw [h d (.head _), h a (.tail _ (.head _)), h b (.tail _ (.tail _ (.head _)))]⟩

theorem smax (d : Opnd) (a : Opnd) (b : Opnd) : Statement (.smax d a b) :=
  of_row fun l => ⟨⟨true, [d.code, a.code, b.code], .smax (opndOf d.code l) (opndOf a.code l) (opndOf b.code l)⟩,
    (row2 (0x2F#8 ++ d.code ++ a.code ++ b.code) 15 (by simp (disch := decide) only [field_hi, field_lo]; rfl)).trans (by change some (Row.mk _ _ _) = _; simp (disch := decide) only [field_hi, field_lo, field_all, Nat.reduceSub, Nat.sub_self]),
    rfl, rfl, fun h => by rw [h d (.head _), h a (.tail _ (.head _)), h b (.tail _ (.tail _ (.head _)))]⟩

theorem sminn (d : Opnd) (a : Opnd) (b : Opnd) : Statement (.sminn d a b) :=
  of_row fun l => ⟨⟨true, [d.code, a.code, b.code], .sminn (opndOf d.code l) (opndOf a.code l) (opndOf b.code l)⟩,
    (row3 (0x30#8 ++ d.code ++ a.code ++ b.code) 0 (by simp (disch := decide) only [field_hi, field_lo]; rfl)).trans (by change some (Row.mk _ _ _) = _; simp (disch := decide) only [field_hi, field_lo, field_all, Nat.reduceSub, Nat.sub_self]),
    rfl, rfl, fun h => by rw [h d (.head _), h a (.tail _ (.head _)), h b (.tail _ (.tail _ (.head _)))]⟩

theorem smaxn (d : Opnd) (a : Opnd) (b : Opnd) : Statement (.smaxn d a b) :=
  of_row fun l => ⟨⟨true, [d.code, a.code, b.code], .smaxn (opndOf d.code l) (opndOf a.code l) (opndOf b.code l)⟩,
    (row3 (0x31#8 ++ d.code ++ a.code ++ b.code) 1 (by simp (disch := decide) only [field_hi, field_lo]; rfl)).trans (by change some (Row.mk _ _ _) = _; simp (disch := decide) only [field_hi, field_lo, field_all, Nat.reduceSub, Nat.sub_self]),
    rfl, rfl, fun h => by rw [h d (.head _), h a (.tail _ (.head _)), h b (.tail _ (.tail _ (.head _)))]⟩

theorem smov (d : Opnd) (a : Opnd) : Statement (.smov d a) :=
  of_row fun l => ⟨⟨true, [d.code, a.code], .smov (opndOf d.code l) (opndOf a.code l)⟩,
    (row3 (0x32#8 ++ d.code ++ a.code ++ 0#8) 2 (by simp (disch := decide) only [field_hi, field_lo]; rfl)).trans (by change some (Row.mk _ _ _) = _; simp (disch := decide) only [field_hi, field_lo, field_all, Nat.reduceSub, Nat.sub_self]; rfl),
    rfl, rfl, fun h => by rw [h d (.head _), h a (.tail _ (.head _))]⟩

theorem smovi (d : Opnd) (imm : BitVec 16) : Statement (.smovi d imm) :=
  of_row fun l => ⟨⟨true, [d.code], .smovi (opndOf d.code l) imm⟩,
    (row3 (0x33#8 ++ d.code ++ imm) 3 (by simp (disch := decide) only [field_hi, field_lo]; rfl)).trans (by change some (Row.mk _ _ _) = _; simp (disch := decide) only [field_hi, field_lo, field_all, Nat.reduceSub, Nat.sub_self]),
    rfl, rfl, fun h => by rw [h d (.head _)]⟩

theorem smovh (d : Opnd) (imm : BitVec 16) : Statement (.smovh d imm) :=
  of_row fun l => ⟨⟨true, [d.code], .smovh (opndOf d.code l) imm⟩,
    (row3 (0x34#8 ++ d.code ++ imm) 4 (by simp (disch := decide) only [field_hi, field_lo]; rfl)).trans (by change some (Row.mk _ _ _) = _; simp (disch := decide) only [field_hi, field_lo, field_all, Nat.reduceSub, Nat.sub_self]),
    rfl, rfl, fun h => by rw [h d (.head _)]⟩

theorem scmpeq (d : Opnd) (a : Opnd) (b : Opnd) : Statement (.scmpeq d a b) :=
  of_row fun l => ⟨⟨true, [d.code, a.code, b.code], .scmpeq (opndOf d.code l) (opndOf a.code l) (opndOf b.code l)⟩,
    (row3 (0x35#8 ++ d.code ++ a.code ++ b.code) 5 (by simp (disch := decide) only [field_hi, field_lo]; rfl)).trans (by change some (Row.mk _ _ _) = _; simp (disch := decide) only [field_hi, field_lo, field_all, Nat.reduceSub, Nat.sub_self]),
    rfl, rfl, fun h => by rw [h d (.head _), h a (.tail _ (.head _)), h b (.tail _ (.tail _ (.head _)))]⟩

theorem scmplt (d : Opnd) (a : Opnd) (b : Opnd) : Statement (.scmplt d a b) :=
  of_row fun l => ⟨⟨true, [d.code, a.code, b.code], .scmplt (opndOf d.code l) (opndOf a.code l) (opndOf b.code l)⟩,
    (row3 (0x36#8 ++ d.code ++ a.code ++ b.code) 6 (by simp (disch := decide) only [field_hi, field_lo]; rfl)).trans (by change some (Row.mk _ _ _) = _; simp (disch := decide) only [field_hi, field_lo, field_all, Nat.reduceSub, Nat.sub_self]),
    rfl, rfl, fun h => by rw [h d (.head _), h a (.tail _ (.head _)), h b (.tail _ (.tail _ (.head _)))]⟩

theorem scmpltn (d : Opnd) (a : Opnd) (b : Opnd) : Statement (.scmpltn d a b) :=
  of_row fun l => ⟨⟨true, [d.code, a.code, b.code], .scmpltn (opndOf d.code l) (opndOf a.code l) (opndOf b.code l)⟩,
    (row3 (0x37#8 ++ d.code ++ a.code ++ b.code) 7 (by simp (disch := decide) only [field_hi, field_lo]; rfl)).trans (by change some (Row.mk _ _ _) = _; simp (disch := decide) only [field_hi, field_lo, field_all, Nat.reduceSub, Nat.sub_self]),
    rfl, rfl, fun h => by rw [h d (.head _), h a (.tail _ (.head _)), h b (.tail _ (.tail _ (.head _)))]⟩

theorem spopc (d : Opnd) (a : Opnd) : Statement (.spopc d a) :=
  of_row fun l => ⟨⟨true, [d.code, a.code], .spopc (opndOf d.code l) (opndOf a.code l)⟩,
    (row3 (0x38#8 ++ d.code ++ a.code ++ 0#8) 8 (by simp (disch := decide) only [field_hi, field_lo]; rfl)).trans (by change some (Row.mk _ _ _) = _; simp (disch := decide) only [field_hi, field_lo, field_all, Nat.reduceSub, Nat.sub_self]; rfl),
    rfl, rfl, fun h => by rw [h d (.head _), h a (.tail _ (.head _))]⟩

theorem sclz (d : Opnd) (a : Opnd) : Statement (.sclz d a) :=
  of_row fun l => ⟨⟨true, [d.code, a.code], .sclz (opndOf d.code l) (opndOf a.code l)⟩,
    (row3 (0x39#8 ++ d.code ++ a.code ++ 0#8) 9 (by simp (disch := decide) only [field_hi, field_lo]; rfl)).trans (by change some (Row.mk _ _ _) = _; simp (disch := decide) only [field_hi, field_lo, field_all, Nat.reduceSub, Nat.sub_self]; rfl),
    rfl, rfl, fun h => by rw [h d (.head _), h a (.tail _ (.head _))]⟩

theorem sbfx (d : Opnd) (a : Opnd) (b : Opnd) : Statement (.sbfx d a b) :=
  of_row fun l => ⟨⟨true, [d.code, a.code, b.code], .sbfx (opndOf d.code l) (opndOf a.code l) (opndOf b.code l)⟩,
    (row3 (0x3A#8 ++ d.code ++ a.code ++ b.code) 10 (by simp (disch := decide) only [field_hi, field_lo]; rfl)).trans (by change some (Row.mk _ _ _) = _; simp (disch := decide) only [field_hi, field_lo, field_all, Nat.reduceSub, Nat.sub_self]),
    rfl, rfl, fun h => by rw [h d (.head _), h a (.tail _ (.head _)), h b (.tail _ (.tail _ (.head _)))]⟩

theorem sbfi (d : Opnd) (a : Opnd) (b : Opnd) : Statement (.sbfi d a b) :=
  of_row fun l => ⟨⟨true, [d.code, a.code, b.code], .sbfi (opndOf d.code l) (opndOf a.code l) (opndOf b.code l)⟩,
    (row3 (0x3B#8 ++ d.code ++ a.code ++ b.code) 11 (by simp (disch := decide) only [field_hi, field_lo]; rfl)).trans (by change some (Row.mk _ _ _) = _; simp (disch := decide) only [field_hi, field_lo, field_all, Nat.reduceSub, Nat.sub_self]),
    rfl, rfl, fun h => by rw [h d (.head _), h a (.tail _ (.head _)), h b (.tail _ (.tail _ (.head _)))]⟩

theorem saddi (d : Opnd) (a : Opnd) (imm : BitVec 8) : Statement (.saddi d a imm) :=
  of_row fun l => ⟨⟨true, [d.code, a.code], .saddi (opndOf d.code l) (opndOf a.code l) imm⟩,
    (row3 (0x3C#8 ++ d.code ++ a.code ++ imm) 12 (by simp (disch := decide) only [field_hi, field_lo]; rfl)).trans (by change some (Row.mk _ _ _) = _; simp (disch := decide) only [field_hi, field_lo, field_all, Nat.reduceSub, Nat.sub_self]),
    rfl, rfl, fun h => by rw [h d (.head _), h a (.tail _ (.head _))]⟩

theorem amov (d : Opnd) (a : Opnd) : Statement (.amov d a) :=
  of_row fun l => ⟨⟨true, [d.code, a.code], .amov (opndOf d.code l) (opndOf a.code l)⟩,
    (row3 (0x3D#8 ++ d.code ++ a.code ++ 0#8) 13 (by simp (disch := decide) only [field_hi, field_lo]; rfl)).trans (by change some (Row.mk _ _ _) = _; simp (disch := decide) only [field_hi, field_lo, field_all, Nat.reduceSub, Nat.sub_self]; rfl),
    rfl, rfl, fun h => by rw [h d (.head _), h a (.tail _ (.head _))]⟩

theorem aadd (d : Opnd) (a : Opnd) (b : Opnd) : Statement (.aadd d a b) :=
  of_row fun l => ⟨⟨true, [d.code, a.code, b.code], .aadd (opndOf d.code l) (opndOf a.code l) (opndOf b.code l)⟩,
    (row3 (0x3E#8 ++ d.code ++ a.code ++ b.code) 14 (by simp (disch := decide) only [field_hi, field_lo]; rfl)).trans (by change some (Row.mk _ _ _) = _; simp (disch := decide) only [field_hi, field_lo, field_all, Nat.reduceSub, Nat.sub_self]),
    rfl, rfl, fun h => by rw [h d (.head _), h a (.tail _ (.head _)), h b (.tail _ (.tail _ (.head _)))]⟩

theorem bset (d : Opnd) (a : Opnd) (b : Opnd) : Statement (.bset d a b) :=
  of_row fun l => ⟨⟨true, [d.code, a.code, b.code], .bset (opndOf d.code l) (opndOf a.code l) (opndOf b.code l)⟩,
    (row3 (0x3F#8 ++ d.code ++ a.code ++ b.code) 15 (by simp (disch := decide) only [field_hi, field_lo]; rfl)).trans (by change some (Row.mk _ _ _) = _; simp (disch := decide) only [field_hi, field_lo, field_all, Nat.reduceSub, Nat.sub_self]),
    rfl, rfl, fun h => by rw [h d (.head _), h a (.tail _ (.head _)), h b (.tail _ (.tail _ (.head _)))]⟩

theorem vadd (d : Opnd) (a : Opnd) (b : Opnd) : Statement (.vadd d a b) :=
  of_row fun l => ⟨⟨true, [d.code, a.code, b.code], .vadd (opndOf d.code l) (opndOf a.code l) (opndOf b.code l)⟩,
    (row4 (0x40#8 ++ d.code ++ a.code ++ b.code) 0 (by simp (disch := decide) only [field_hi, field_lo]; rfl)).trans (by change some (Row.mk _ _ _) = _; simp (disch := decide) only [field_hi, field_lo, field_all, Nat.reduceSub, Nat.sub_self]),
    rfl, rfl, fun h => by rw [h d (.head _), h a (.tail _ (.head _)), h b (.tail _ (.tail _ (.head _)))]⟩

theorem vsub (d : Opnd) (a : Opnd) (b : Opnd) : Statement (.vsub d a b) :=
  of_row fun l => ⟨⟨true, [d.code, a.code, b.code], .vsub (opndOf d.code l) (opndOf a.code l) (opndOf b.code l)⟩,
    (row4 (0x41#8 ++ d.code ++ a.code ++ b.code) 1 (by simp (disch := decide) only [field_hi, field_lo]; rfl)).trans (by change some (Row.mk _ _ _) = _; simp (disch := decide) only [field_hi, field_lo, field_all, Nat.reduceSub, Nat.sub_self]),
    rfl, rfl, fun h => by rw [h d (.head _), h a (.tail _ (.head _)), h b (.tail _ (.tail _ (.head _)))]⟩

theorem vmul (d : Opnd) (a : Opnd) (b : Opnd) : Statement (.vmul d a b) :=
  of_row fun l => ⟨⟨true, [d.code, a.code, b.code], .vmul (opndOf d.code l) (opndOf a.code l) (opndOf b.code l)⟩,
    (row4 (0x42#8 ++ d.code ++ a.code ++ b.code) 2 (by simp (disch := decide) only [field_hi, field_lo]; rfl)).trans (by change some (Row.mk _ _ _) = _; simp (disch := decide) only [field_hi, field_lo, field_all, Nat.reduceSub, Nat.sub_self]),
    rfl, rfl, fun h => by rw [h d (.head _), h a (.tail _ (.head _)), h b (.tail _ (.tail _ (.head _)))]⟩

theorem vmulh (d : Opnd) (a : Opnd) (b : Opnd) : Statement (.vmulh d a b) :=
  of_row fun l => ⟨⟨true, [d.code, a.code, b.code], .vmulh (opndOf d.code l) (opndOf a.code l) (opndOf b.code l)⟩,
    (row4 (0x43#8 ++ d.code ++ a.code ++ b.code) 3 (by simp (disch := decide) only [field_hi, field_lo]; rfl)).trans (by change some (Row.mk _ _ _) = _; simp (disch := decide) only [field_hi, field_lo, field_all, Nat.reduceSub, Nat.sub_self]),
    rfl, rfl, fun h => by rw [h d (.head _), h a (.tail _ (.head _)), h b (.tail _ (.tail _ (.head _)))]⟩

theorem vmad (d : Opnd) (a : Opnd) (b : Opnd) : Statement (.vmad d a b) :=
  of_row fun l => ⟨⟨true, [d.code, a.code, b.code], .vmad (opndOf d.code l) (opndOf a.code l) (opndOf b.code l)⟩,
    (row4 (0x44#8 ++ d.code ++ a.code ++ b.code) 4 (by simp (disch := decide) only [field_hi, field_lo]; rfl)).trans (by change some (Row.mk _ _ _) = _; simp (disch := decide) only [field_hi, field_lo, field_all, Nat.reduceSub, Nat.sub_self]),
    rfl, rfl, fun h => by rw [h d (.head _), h a (.tail _ (.head _)), h b (.tail _ (.tail _ (.head _)))]⟩

theorem vand (d : Opnd) (a : Opnd) (b : Opnd) : Statement (.vand d a b) :=
  of_row fun l => ⟨⟨true, [d.code, a.code, b.code], .vand (opndOf d.code l) (opndOf a.code l) (opndOf b.code l)⟩,
    (row4 (0x45#8 ++ d.code ++ a.code ++ b.code) 5 (by simp (disch := decide) only [field_hi, field_lo]; rfl)).trans (by change some (Row.mk _ _ _) = _; simp (disch := decide) only [field_hi, field_lo, field_all, Nat.reduceSub, Nat.sub_self]),
    rfl, rfl, fun h => by rw [h d (.head _), h a (.tail _ (.head _)), h b (.tail _ (.tail _ (.head _)))]⟩

theorem vor (d : Opnd) (a : Opnd) (b : Opnd) : Statement (.vor d a b) :=
  of_row fun l => ⟨⟨true, [d.code, a.code, b.code], .vor (opndOf d.code l) (opndOf a.code l) (opndOf b.code l)⟩,
    (row4 (0x46#8 ++ d.code ++ a.code ++ b.code) 6 (by simp (disch := decide) only [field_hi, field_lo]; rfl)).trans (by change some (Row.mk _ _ _) = _; simp (disch := decide) only [field_hi, field_lo, field_all, Nat.reduceSub, Nat.sub_self]),
    rfl, rfl, fun h => by rw [h d (.head _), h a (.tail _ (.head _)), h b (.tail _ (.tail _ (.head _)))]⟩

theorem vxor (d : Opnd) (a : Opnd) (b : Opnd) : Statement (.vxor d a b) :=
  of_row fun l => ⟨⟨true, [d.code, a.code, b.code], .vxor (opndOf d.code l) (opndOf a.code l) (opndOf b.code l)⟩,
    (row4 (0x47#8 ++ d.code ++ a.code ++ b.code) 7 (by simp (disch := decide) only [field_hi, field_lo]; rfl)).trans (by change some (Row.mk _ _ _) = _; simp (disch := decide) only [field_hi, field_lo, field_all, Nat.reduceSub, Nat.sub_self]),
    rfl, rfl, fun h => by rw [h d (.head _), h a (.tail _ (.head _)), h b (.tail _ (.tail _ (.head _)))]⟩

theorem vnot (d : Opnd) (a : Opnd) : Statement (.vnot d a) :=
  of_row fun l => ⟨⟨true, [d.code, a.code], .vnot (opndOf d.code l) (opndOf a.code l)⟩,
    (row4 (0x48#8 ++ d.code ++ a.code ++ 0#8) 8 (by simp (disch := decide) only [field_hi, field_lo]; rfl)).trans (by change some (Row.mk _ _ _) = _; simp (disch := decide) only [field_hi, field_lo, field_all, Nat.reduceSub, Nat.sub_self]; rfl),
    rfl, rfl, fun h => by rw [h d (.head _), h a (.tail _ (.head _))]⟩

theorem vshl (d : Opnd) (a : Opnd) (b : Opnd) : Statement (.vshl d a b) :=
  of_row fun l => ⟨⟨true, [d.code, a.code, b.code], .vshl (opndOf d.code l) (opndOf a.code l) (opndOf b.code l)⟩,
    (row4 (0x49#8 ++ d.code ++ a.code ++ b.code) 9 (by simp (disch := decide) only [field_hi, field_lo]; rfl)).trans (by change some (Row.mk _ _ _) = _; simp (disch := decide) only [field_hi, field_lo, field_all, Nat.reduceSub, Nat.sub_self]),
    rfl, rfl, fun h => by rw [h d (.head _), h a (.tail _ (.head _)), h b (.tail _ (.tail _ (.head _)))]⟩

theorem vshr (d : Opnd) (a : Opnd) (b : Opnd) : Statement (.vshr d a b) :=
  of_row fun l => ⟨⟨true, [d.code, a.code, b.code], .vshr (opndOf d.code l) (opndOf a.code l) (opndOf b.code l)⟩,
    (row4 (0x4A#8 ++ d.code ++ a.code ++ b.code) 10 (by simp (disch := decide) only [field_hi, field_lo]; rfl)).trans (by change some (Row.mk _ _ _) = _; simp (disch := decide) only [field_hi, field_lo, field_all, Nat.reduceSub, Nat.sub_self]),
    rfl, rfl, fun h => by rw [h d (.head _), h a (.tail _ (.head _)), h b (.tail _ (.tail _ (.head _)))]⟩

theorem vmin (d : Opnd) (a : Opnd) (b : Opnd) : Statement (.vmin d a b) :=
  of_row fun l => ⟨⟨true, [d.code, a.code, b.code], .vmin (opndOf d.code l) (opndOf a.code l) (opndOf b.code l)⟩,
    (row4 (0x4B#8 ++ d.code ++ a.code ++ b.code) 11 (by simp (disch := decide) only [field_hi, field_lo]; rfl)).trans (by change some (Row.mk _ _ _) = _; simp (disch := decide) only [field_hi, field_lo, field_all, Nat.reduceSub, Nat.sub_self]),
    rfl, rfl, fun h => by rw [h d (.head _), h a (.tail _ (.head _)), h b (.tail _ (.tail _ (.head _)))]⟩

theorem vmax (d : Opnd) (a : Opnd) (b : Opnd) : Statement (.vmax d a b) :=
  of_row fun l => ⟨⟨true, [d.code, a.code, b.code], .vmax (opndOf d.code l) (opndOf a.code l) (opndOf b.code l)⟩,
    (row4 (0x4C#8 ++ d.code ++ a.code ++ b.code) 12 (by simp (disch := decide) only [field_hi, field_lo]; rfl)).trans (by change some (Row.mk _ _ _) = _; simp (disch := decide) only [field_hi, field_lo, field_all, Nat.reduceSub, Nat.sub_self]),
    rfl, rfl, fun h => by rw [h d (.head _), h a (.tail _ (.head _)), h b (.tail _ (.tail _ (.head _)))]⟩

theorem vabs (d : Opnd) (a : Opnd) : Statement (.vabs d a) :=
  of_row fun l => ⟨⟨true, [d.code, a.code], .vabs (opndOf d.code l) (opndOf a.code l)⟩,
    (row4 (0x4D#8 ++ d.code ++ a.code ++ 0#8) 13 (by simp (disch := decide) only [field_hi, field_lo]; rfl)).trans (by change some (Row.mk _ _ _) = _; simp (disch := decide) only [field_hi, field_lo, field_all, Nat.reduceSub, Nat.sub_self]; rfl),
    rfl, rfl, fun h => by rw [h d (.head _), h a (.tail _ (.head _))]⟩

theorem vneg (d : Opnd) (a : Opnd) : Statement (.vneg d a) :=
  of_row fun l => ⟨⟨true, [d.code, a.code], .vneg (opndOf d.code l) (opndOf a.code l)⟩,
    (row4 (0x4E#8 ++ d.code ++ a.code ++ 0#8) 14 (by simp (disch := decide) only [field_hi, field_lo]; rfl)).trans (by change some (Row.mk _ _ _) = _; simp (disch := decide) only [field_hi, field_lo, field_all, Nat.reduceSub, Nat.sub_self]; rfl),
    rfl, rfl, fun h => by rw [h d (.head _), h a (.tail _ (.head _))]⟩

theorem vmov (d : Opnd) (a : Opnd) : Statement (.vmov d a) :=
  of_row fun l => ⟨⟨true, [d.code, a.code], .vmov (opndOf d.code l) (opndOf a.code l)⟩,
    (row4 (0x4F#8 ++ d.code ++ a.code ++ 0#8) 15 (by simp (disch := decide) only [field_hi, field_lo]; rfl)).trans (by change some (Row.mk _ _ _) = _; simp (disch := decide) only [field_hi, field_lo, field_all, Nat.reduceSub, Nat.sub_self]; rfl),
    rfl, rfl, fun h => by rw [h d (.head _), h a (.tail _ (.head _))]⟩

theorem vmovi (d : Opnd) (imm : BitVec 16) : Statement (.vmovi d imm) :=
  of_row fun l => ⟨⟨true, [d.code], .vmovi (opndOf d.code l) imm⟩,
    (row5 (0x50#8 ++ d.code ++ imm) 0 (by simp (disch := decide) only [field_hi, field_lo]; rfl)).trans (by change some (Row.mk _ _ _) = _; simp (disch := decide) only [field_hi, field_lo, field_all, Nat.reduceSub, Nat.sub_self]),
    rfl, rfl, fun h => by rw [h d (.head _)]⟩

theorem vbcast (d : Opnd) (a : Opnd) (b : Opnd) : Statement (.vbcast d a b) :=
  of_row fun l => ⟨⟨true, [d.code, a.code, b.code], .vbcast (opndOf d.code l) (opndOf a.code l) (opndOf b.code l)⟩,
    (row5 (0x51#8 ++ d.code ++ a.code ++ b.code) 1 (by simp (disch := decide) only [field_hi, field_lo]; rfl)).trans (by change some (Row.mk _ _ _) = _; simp (disch := decide) only [field_hi, field_lo, field_all, Nat.reduceSub, Nat.sub_self]),
    rfl, rfl, fun h => by rw [h d (.head _), h a (.tail _ (.head _)), h b (.tail _ (.tail _ (.head _)))]⟩

theorem vceq (d : Opnd) (a : Opnd) (b : Opnd) : Statement (.vceq d a b) :=
  of_row fun l => ⟨⟨true, [d.code, a.code, b.code], .vceq (opndOf d.code l) (opndOf a.code l) (opndOf b.code l)⟩,
    (row5 (0x52#8 ++ d.code ++ a.code ++ b.code) 2 (by simp (disch := decide) only [field_hi, field_lo]; rfl)).trans (by change some (Row.mk _ _ _) = _; simp (disch := decide) only [field_hi, field_lo, field_all, Nat.reduceSub, Nat.sub_self]),
    rfl, rfl, fun h => by rw [h d (.head _), h a (.tail _ (.head _)), h b (.tail _ (.tail _ (.head _)))]⟩

theorem vcne (d : Opnd) (a : Opnd) (b : Opnd) : Statement (.vcne d a b) :=
  of_row fun l => ⟨⟨true, [d.code, a.code, b.code], .vcne (opndOf d.code l) (opndOf a.code l) (opndOf b.code l)⟩,
    (row5 (0x53#8 ++ d.code ++ a.code ++ b.code) 3 (by simp (disch := decide) only [field_hi, field_lo]; rfl)).trans (by change some (Row.mk _ _ _) = _; simp (disch := decide) only [field_hi, field_lo, field_all, Nat.reduceSub, Nat.sub_self]),
    rfl, rfl, fun h => by rw [h d (.head _), h a (.tail _ (.head _)), h b (.tail _ (.tail _ (.head _)))]⟩

theorem vclt (d : Opnd) (a : Opnd) (b : Opnd) : Statement (.vclt d a b) :=
  of_row fun l => ⟨⟨true, [d.code, a.code, b.code], .vclt (opndOf d.code l) (opndOf a.code l) (opndOf b.code l)⟩,
    (row5 (0x54#8 ++ d.code ++ a.code ++ b.code) 4 (by simp (disch := decide) only [field_hi, field_lo]; rfl)).trans (by change some (Row.mk _ _ _) = _; simp (disch := decide) only [field_hi, field_lo, field_all, Nat.reduceSub, Nat.sub_self]),
    rfl, rfl, fun h => by rw [h d (.head _), h a (.tail _ (.head _)), h b (.tail _ (.tail _ (.head _)))]⟩

theorem vcle (d : Opnd) (a : Opnd) (b : Opnd) : Statement (.vcle d a b) :=
  of_row fun l => ⟨⟨true, [d.code, a.code, b.code], .vcle (opndOf d.code l) (opndOf a.code l) (opndOf b.code l)⟩,
    (row5 (0x55#8 ++ d.code ++ a.code ++ b.code) 5 (by simp (disch := decide) only [field_hi, field_lo]; rfl)).trans (by change some (Row.mk _ _ _) = _; simp (disch := decide) only [field_hi, field_lo, field_all, Nat.reduceSub, Nat.sub_self]),
    rfl, rfl, fun h => by rw [h d (.head _), h a (.tail _ (.head _)), h b (.tail _ (.tail _ (.head _)))]⟩

theorem vcgt (d : Opnd) (a : Opnd) (b : Opnd) : Statement (.vcgt d a b) :=
  of_row fun l => ⟨⟨true, [d.code, a.code, b.code], .vcgt (opndOf d.code l) (opndOf a.code l) (opndOf b.code l)⟩,
    (row5 (0x56#8 ++ d.code ++ a.code ++ b.code) 6 (by simp (disch := decide) only [field_hi, field_lo]; rfl)).trans (by change some (Row.mk _ _ _) = _; simp (disch := decide) only [field_hi, field_lo, field_all, Nat.reduceSub, Nat.sub_self]),
    rfl, rfl, fun h => by rw [h d (.head _), h a (.tail _ (.head _)), h b (.tail _ (.tail _ (.head _)))]⟩

theorem vcge (d : Opnd) (a : Opnd) (b : Opnd) : Statement (.vcge d a b) :=
  of_row fun l => ⟨⟨true, [d.code, a.code, b.code], .vcge (opndOf d.code l) (opndOf a.code l) (opndOf b.code l)⟩,
    (row5 (0x57#8 ++ d.code ++ a.code ++ b.code) 7 (by simp (disch := decide) only [field_hi, field_lo]; rfl)).trans (by change some (Row.mk _ _ _) = _; simp (disch := decide) only [field_hi, field_lo, field_all, Nat.reduceSub, Nat.sub_self]),
    rfl, rfl, fun h => by rw [h d (.head _), h a (.tail _ (.head _)), h b (.tail _ (.tail _ (.head _)))]⟩

theorem vsel (d : Opnd) (a : Opnd) (b : Opnd) : Statement (.vsel d a b) :=
  of_row fun l => ⟨⟨true, [d.code, a.code, b.code], .vsel (opndOf d.code l) (opndOf a.code l) (opndOf b.code l)⟩,
    (row5 (0x58#8 ++ d.code ++ a.code ++ b.code) 8 (by simp (disch := decide) only [field_hi, field_lo]; rfl)).trans (by change some (Row.mk _ _ _) = _; simp (disch := decide) only [field_hi, field_lo, field_all, Nat.reduceSub, Nat.sub_self]),
    rfl, rfl, fun h => by rw [h d (.head _), h a (.tail _ (.head _)), h b (.tail _ (.tail _ (.head _)))]⟩

theorem vpopc (d : Opnd) (a : Opnd) : Statement (.vpopc d a) :=
  of_row fun l => ⟨⟨true, [d.code, a.code], .vpopc (opndOf d.code l) (opndOf a.code l)⟩,
    (row5 (0x59#8 ++ d.code ++ a.code ++ 0#8) 9 (by simp (disch := decide) only [field_hi, field_lo]; rfl)).trans (by change some (Row.mk _ _ _) = _; simp (disch := decide) only [field_hi, field_lo, field_all, Nat.reduceSub, Nat.sub_self]; rfl),
    rfl, rfl, fun h => by rw [h d (.head _), h a (.tail _ (.head _))]⟩

theorem vclz (d : Opnd) (a : Opnd) : Statement (.vclz d a) :=
  of_row fun l => ⟨⟨true, [d.code, a.code], .vclz (opndOf d.code l) (opndOf a.code l)⟩,
    (row5 (0x5A#8 ++ d.code ++ a.code ++ 0#8) 10 (by simp (disch := decide) only [field_hi, field_lo]; rfl)).trans (by change some (Row.mk _ _ _) = _; simp (disch := decide) only [field_hi, field_lo, field_all, Nat.reduceSub, Nat.sub_self]; rfl),
    rfl, rfl, fun h => by rw [h d (.head _), h a (.tail _ (.head _))]⟩

theorem vbfx (d : Opnd) (a : Opnd) (b : Opnd) : Statement (.vbfx d a b) :=
  of_row fun l => ⟨⟨true, [d.code, a.code, b.code], .vbfx (opndOf d.code l) (opndOf a.code l) (opndOf b.code l)⟩,
    (row5 (0x5B#8 ++ d.code ++ a.code ++ b.code) 11 (by simp (disch := decide) only [field_hi, field_lo]; rfl)).trans (by change some (Row.mk _ _ _) = _; simp (disch := decide) only [field_hi, field_lo, field_all, Nat.reduceSub, Nat.sub_self]),
    rfl, rfl, fun h => by rw [h d (.head _), h a (.tail _ (.head _)), h b (.tail _ (.tail _ (.head _)))]⟩

theorem vidx (d : Opnd) (a : Opnd) (b : Opnd) : Statement (.vidx d a b) :=
  of_row fun l => ⟨⟨true, [d.code, a.code, b.code], .vidx (opndOf d.code l) (opndOf a.code l) (opndOf b.code l)⟩,
    (row5 (0x5C#8 ++ d.code ++ a.code ++ b.code) 12 (by simp (disch := decide) only [field_hi, field_lo]; rfl)).trans (by change some (Row.mk _ _ _) = _; simp (disch := decide) only [field_hi, field_lo, field_all, Nat.reduceSub, Nat.sub_self]),
    rfl, rfl, fun h => by rw [h d (.head _), h a (.tail _ (.head _)), h b (.tail _ (.tail _ (.head _)))]⟩

theorem vdot4 (d : Opnd) (a : Opnd) (b : Opnd) : Statement (.vdot4 d a b) :=
  of_row fun l => ⟨⟨true, [d.code, a.code, b.code], .vdot4 (opndOf d.code l) (opndOf a.code l) (opndOf b.code l)⟩,
    (row5 (0x5D#8 ++ d.code ++ a.code ++ b.code) 13 (by simp (disch := decide) only [field_hi, field_lo]; rfl)).trans (by change some (Row.mk _ _ _) = _; simp (disch := decide) only [field_hi, field_lo, field_all, Nat.reduceSub, Nat.sub_self]),
    rfl, rfl, fun h => by rw [h d (.head _), h a (.tail _ (.head _)), h b (.tail _ (.tail _ (.head _)))]⟩

theorem fadd (d : Opnd) (a : Opnd) (b : Opnd) : Statement (.fadd d a b) :=
  of_row fun l => ⟨⟨true, [d.code, a.code, b.code], .fadd (opndOf d.code l) (opndOf a.code l) (opndOf b.code l)⟩,
    (row7 (0x70#8 ++ d.code ++ a.code ++ b.code) 0 (by simp (disch := decide) only [field_hi, field_lo]; rfl)).trans (by change some (Row.mk _ _ _) = _; simp (disch := decide) only [field_hi, field_lo, field_all, Nat.reduceSub, Nat.sub_self]),
    rfl, rfl, fun h => by rw [h d (.head _), h a (.tail _ (.head _)), h b (.tail _ (.tail _ (.head _)))]⟩

theorem fsub (d : Opnd) (a : Opnd) (b : Opnd) : Statement (.fsub d a b) :=
  of_row fun l => ⟨⟨true, [d.code, a.code, b.code], .fsub (opndOf d.code l) (opndOf a.code l) (opndOf b.code l)⟩,
    (row7 (0x71#8 ++ d.code ++ a.code ++ b.code) 1 (by simp (disch := decide) only [field_hi, field_lo]; rfl)).trans (by change some (Row.mk _ _ _) = _; simp (disch := decide) only [field_hi, field_lo, field_all, Nat.reduceSub, Nat.sub_self]),
    rfl, rfl, fun h => by rw [h d (.head _), h a (.tail _ (.head _)), h b (.tail _ (.tail _ (.head _)))]⟩

theorem fmul (d : Opnd) (a : Opnd) (b : Opnd) : Statement (.fmul d a b) :=
  of_row fun l => ⟨⟨true, [d.code, a.code, b.code], .fmul (opndOf d.code l) (opndOf a.code l) (opndOf b.code l)⟩,
    (row7 (0x72#8 ++ d.code ++ a.code ++ b.code) 2 (by simp (disch := decide) only [field_hi, field_lo]; rfl)).trans (by change some (Row.mk _ _ _) = _; simp (disch := decide) only [field_hi, field_lo, field_all, Nat.reduceSub, Nat.sub_self]),
    rfl, rfl, fun h => by rw [h d (.head _), h a (.tail _ (.head _)), h b (.tail _ (.tail _ (.head _)))]⟩

theorem ffma (d : Opnd) (a : Opnd) (b : Opnd) : Statement (.ffma d a b) :=
  of_row fun l => ⟨⟨true, [d.code, a.code, b.code], .ffma (opndOf d.code l) (opndOf a.code l) (opndOf b.code l)⟩,
    (row7 (0x73#8 ++ d.code ++ a.code ++ b.code) 3 (by simp (disch := decide) only [field_hi, field_lo]; rfl)).trans (by change some (Row.mk _ _ _) = _; simp (disch := decide) only [field_hi, field_lo, field_all, Nat.reduceSub, Nat.sub_self]),
    rfl, rfl, fun h => by rw [h d (.head _), h a (.tail _ (.head _)), h b (.tail _ (.tail _ (.head _)))]⟩

theorem fmin (d : Opnd) (a : Opnd) (b : Opnd) : Statement (.fmin d a b) :=
  of_row fun l => ⟨⟨true, [d.code, a.code, b.code], .fmin (opndOf d.code l) (opndOf a.code l) (opndOf b.code l)⟩,
    (row7 (0x74#8 ++ d.code ++ a.code ++ b.code) 4 (by simp (disch := decide) only [field_hi, field_lo]; rfl)).trans (by change some (Row.mk _ _ _) = _; simp (disch := decide) only [field_hi, field_lo, field_all, Nat.reduceSub, Nat.sub_self]),
    rfl, rfl, fun h => by rw [h d (.head _), h a (.tail _ (.head _)), h b (.tail _ (.tail _ (.head _)))]⟩

theorem fmax (d : Opnd) (a : Opnd) (b : Opnd) : Statement (.fmax d a b) :=
  of_row fun l => ⟨⟨true, [d.code, a.code, b.code], .fmax (opndOf d.code l) (opndOf a.code l) (opndOf b.code l)⟩,
    (row7 (0x75#8 ++ d.code ++ a.code ++ b.code) 5 (by simp (disch := decide) only [field_hi, field_lo]; rfl)).trans (by change some (Row.mk _ _ _) = _; simp (disch := decide) only [field_hi, field_lo, field_all, Nat.reduceSub, Nat.sub_self]),
    rfl, rfl, fun h => by rw [h d (.head _), h a (.tail _ (.head _)), h b (.tail _ (.tail _ (.head _)))]⟩

theorem fminnum (d : Opnd) (a : Opnd) (b : Opnd) : Statement (.fminnum d a b) :=
  of_row fun l => ⟨⟨true, [d.code, a.code, b.code], .fminnum (opndOf d.code l) (opndOf a.code l) (opndOf b.code l)⟩,
    (row7 (0x76#8 ++ d.code ++ a.code ++ b.code) 6 (by simp (disch := decide) only [field_hi, field_lo]; rfl)).trans (by change some (Row.mk _ _ _) = _; simp (disch := decide) only [field_hi, field_lo, field_all, Nat.reduceSub, Nat.sub_self]),
    rfl, rfl, fun h => by rw [h d (.head _), h a (.tail _ (.head _)), h b (.tail _ (.tail _ (.head _)))]⟩

theorem fmaxnum (d : Opnd) (a : Opnd) (b : Opnd) : Statement (.fmaxnum d a b) :=
  of_row fun l => ⟨⟨true, [d.code, a.code, b.code], .fmaxnum (opndOf d.code l) (opndOf a.code l) (opndOf b.code l)⟩,
    (row7 (0x77#8 ++ d.code ++ a.code ++ b.code) 7 (by simp (disch := decide) only [field_hi, field_lo]; rfl)).trans (by change some (Row.mk _ _ _) = _; simp (disch := decide) only [field_hi, field_lo, field_all, Nat.reduceSub, Nat.sub_self]),
    rfl, rfl, fun h => by rw [h d (.head _), h a (.tail _ (.head _)), h b (.tail _ (.tail _ (.head _)))]⟩

theorem fabs (d : Opnd) (a : Opnd) : Statement (.fabs d a) :=
  of_row fun l => ⟨⟨true, [d.code, a.code], .fabs (opndOf d.code l) (opndOf a.code l)⟩,
    (row7 (0x78#8 ++ d.code ++ a.code ++ 0#8) 8 (by simp (disch := decide) only [field_hi, field_lo]; rfl)).trans (by change some (Row.mk _ _ _) = _; simp (disch := decide) only [field_hi, field_lo, field_all, Nat.reduceSub, Nat.sub_self]; rfl),
    rfl, rfl, fun h => by rw [h d (.head _), h a (.tail _ (.head _))]⟩

theorem fneg (d : Opnd) (a : Opnd) : Statement (.fneg d a) :=
  of_row fun l => ⟨⟨true, [d.code, a.code], .fneg (opndOf d.code l) (opndOf a.code l)⟩,
    (row7 (0x79#8 ++ d.code ++ a.code ++ 0#8) 9 (by simp (disch := decide) only [field_hi, field_lo]; rfl)).trans (by change some (Row.mk _ _ _) = _; simp (disch := decide) only [field_hi, field_lo, field_all, Nat.reduceSub, Nat.sub_self]; rfl),
    rfl, rfl, fun h => by rw [h d (.head _), h a (.tail _ (.head _))]⟩

theorem frcp (d : Opnd) (a : Opnd) : Statement (.frcp d a) :=
  of_row fun l => ⟨⟨true, [d.code, a.code], .frcp (opndOf d.code l) (opndOf a.code l)⟩,
    (row7 (0x7A#8 ++ d.code ++ a.code ++ 0#8) 10 (by simp (disch := decide) only [field_hi, field_lo]; rfl)).trans (by change some (Row.mk _ _ _) = _; simp (disch := decide) only [field_hi, field_lo, field_all, Nat.reduceSub, Nat.sub_self]; rfl),
    rfl, rfl, fun h => by rw [h d (.head _), h a (.tail _ (.head _))]⟩

theorem frsq (d : Opnd) (a : Opnd) : Statement (.frsq d a) :=
  of_row fun l => ⟨⟨true, [d.code, a.code], .frsq (opndOf d.code l) (opndOf a.code l)⟩,
    (row7 (0x7B#8 ++ d.code ++ a.code ++ 0#8) 11 (by simp (disch := decide) only [field_hi, field_lo]; rfl)).trans (by change some (Row.mk _ _ _) = _; simp (disch := decide) only [field_hi, field_lo, field_all, Nat.reduceSub, Nat.sub_self]; rfl),
    rfl, rfl, fun h => by rw [h d (.head _), h a (.tail _ (.head _))]⟩

theorem fsqrt (d : Opnd) (a : Opnd) : Statement (.fsqrt d a) :=
  of_row fun l => ⟨⟨true, [d.code, a.code], .fsqrt (opndOf d.code l) (opndOf a.code l)⟩,
    (row7 (0x7C#8 ++ d.code ++ a.code ++ 0#8) 12 (by simp (disch := decide) only [field_hi, field_lo]; rfl)).trans (by change some (Row.mk _ _ _) = _; simp (disch := decide) only [field_hi, field_lo, field_all, Nat.reduceSub, Nat.sub_self]; rfl),
    rfl, rfl, fun h => by rw [h d (.head _), h a (.tail _ (.head _))]⟩

theorem fdiv (d : Opnd) (a : Opnd) (b : Opnd) : Statement (.fdiv d a b) :=
  of_row fun l => ⟨⟨true, [d.code, a.code, b.code], .fdiv (opndOf d.code l) (opndOf a.code l) (opndOf b.code l)⟩,
    (row7 (0x7D#8 ++ d.code ++ a.code ++ b.code) 13 (by simp (disch := decide) only [field_hi, field_lo]; rfl)).trans (by change some (Row.mk _ _ _) = _; simp (disch := decide) only [field_hi, field_lo, field_all, Nat.reduceSub, Nat.sub_self]),
    rfl, rfl, fun h => by rw [h d (.head _), h a (.tail _ (.head _)), h b (.tail _ (.tail _ (.head _)))]⟩

theorem fexp2 (d : Opnd) (a : Opnd) : Statement (.fexp2 d a) :=
  of_row fun l => ⟨⟨true, [d.code, a.code], .fexp2 (opndOf d.code l) (opndOf a.code l)⟩,
    (row7 (0x7E#8 ++ d.code ++ a.code ++ 0#8) 14 (by simp (disch := decide) only [field_hi, field_lo]; rfl)).trans (by change some (Row.mk _ _ _) = _; simp (disch := decide) only [field_hi, field_lo, field_all, Nat.reduceSub, Nat.sub_self]; rfl),
    rfl, rfl, fun h => by rw [h d (.head _), h a (.tail _ (.head _))]⟩

theorem flog2 (d : Opnd) (a : Opnd) : Statement (.flog2 d a) :=
  of_row fun l => ⟨⟨true, [d.code, a.code], .flog2 (opndOf d.code l) (opndOf a.code l)⟩,
    (row7 (0x7F#8 ++ d.code ++ a.code ++ 0#8) 15 (by simp (disch := decide) only [field_hi, field_lo]; rfl)).trans (by change some (Row.mk _ _ _) = _; simp (disch := decide) only [field_hi, field_lo, field_all, Nat.reduceSub, Nat.sub_self]; rfl),
    rfl, rfl, fun h => by rw [h d (.head _), h a (.tail _ (.head _))]⟩

theorem fsin (d : Opnd) (a : Opnd) : Statement (.fsin d a) :=
  of_row fun l => ⟨⟨true, [d.code, a.code], .fsin (opndOf d.code l) (opndOf a.code l)⟩,
    (row8 (0x80#8 ++ d.code ++ a.code ++ 0#8) 0 (by simp (disch := decide) only [field_hi, field_lo]; rfl)).trans (by change some (Row.mk _ _ _) = _; simp (disch := decide) only [field_hi, field_lo, field_all, Nat.reduceSub, Nat.sub_self]; rfl),
    rfl, rfl, fun h => by rw [h d (.head _), h a (.tail _ (.head _))]⟩

theorem fcos (d : Opnd) (a : Opnd) : Statement (.fcos d a) :=
  of_row fun l => ⟨⟨true, [d.code, a.code], .fcos (opndOf d.code l) (opndOf a.code l)⟩,
    (row8 (0x81#8 ++ d.code ++ a.code ++ 0#8) 1 (by simp (disch := decide) only [field_hi, field_lo]; rfl)).trans (by change some (Row.mk _ _ _) = _; simp (disch := decide) only [field_hi, field_lo, field_all, Nat.reduceSub, Nat.sub_self]; rfl),
    rfl, rfl, fun h => by rw [h d (.head _), h a (.tail _ (.head _))]⟩

theorem frnd (d : Opnd) (a : Opnd) (x : BitVec 1) (r : BitVec 3) : Statement (.frnd d a x r) :=
  of_row fun l => ⟨⟨true, [d.code, a.code], .frnd (opndOf d.code l) (opndOf a.code l) x r⟩,
    (row8 (0x82#8 ++ d.code ++ a.code ++ 0#4 ++ x ++ r) 2 (by simp (disch := decide) only [field_hi, field_lo]; rfl)).trans (by change some (Row.mk _ _ _) = _; simp (disch := decide) only [field_hi, field_lo, field_all, Nat.reduceSub, Nat.sub_self]; rfl),
    rfl, rfl, fun h => by rw [h d (.head _), h a (.tail _ (.head _))]⟩

theorem fscale (d : Opnd) (a : Opnd) (b : Opnd) : Statement (.fscale d a b) :=
  of_row fun l => ⟨⟨true, [d.code, a.code, b.code], .fscale (opndOf d.code l) (opndOf a.code l) (opndOf b.code l)⟩,
    (row8 (0x83#8 ++ d.code ++ a.code ++ b.code) 3 (by simp (disch := decide) only [field_hi, field_lo]; rfl)).trans (by change some (Row.mk _ _ _) = _; simp (disch := decide) only [field_hi, field_lo, field_all, Nat.reduceSub, Nat.sub_self]),
    rfl, rfl, fun h => by rw [h d (.head _), h a (.tail _ (.head _)), h b (.tail _ (.tail _ (.head _)))]⟩

theorem fclass (d : Opnd) (a : Opnd) : Statement (.fclass d a) :=
  of_row fun l => ⟨⟨true, [d.code, a.code], .fclass (opndOf d.code l) (opndOf a.code l)⟩,
    (row8 (0x84#8 ++ d.code ++ a.code ++ 0#8) 4 (by simp (disch := decide) only [field_hi, field_lo]; rfl)).trans (by change some (Row.mk _ _ _) = _; simp (disch := decide) only [field_hi, field_lo, field_all, Nat.reduceSub, Nat.sub_self]; rfl),
    rfl, rfl, fun h => by rw [h d (.head _), h a (.tail _ (.head _))]⟩

theorem fceq (d : Opnd) (a : Opnd) (b : Opnd) : Statement (.fceq d a b) :=
  of_row fun l => ⟨⟨true, [d.code, a.code, b.code], .fceq (opndOf d.code l) (opndOf a.code l) (opndOf b.code l)⟩,
    (row8 (0x85#8 ++ d.code ++ a.code ++ b.code) 5 (by simp (disch := decide) only [field_hi, field_lo]; rfl)).trans (by change some (Row.mk _ _ _) = _; simp (disch := decide) only [field_hi, field_lo, field_all, Nat.reduceSub, Nat.sub_self]),
    rfl, rfl, fun h => by rw [h d (.head _), h a (.tail _ (.head _)), h b (.tail _ (.tail _ (.head _)))]⟩

theorem fclt (d : Opnd) (a : Opnd) (b : Opnd) : Statement (.fclt d a b) :=
  of_row fun l => ⟨⟨true, [d.code, a.code, b.code], .fclt (opndOf d.code l) (opndOf a.code l) (opndOf b.code l)⟩,
    (row8 (0x86#8 ++ d.code ++ a.code ++ b.code) 6 (by simp (disch := decide) only [field_hi, field_lo]; rfl)).trans (by change some (Row.mk _ _ _) = _; simp (disch := decide) only [field_hi, field_lo, field_all, Nat.reduceSub, Nat.sub_self]),
    rfl, rfl, fun h => by rw [h d (.head _), h a (.tail _ (.head _)), h b (.tail _ (.tail _ (.head _)))]⟩

theorem fcle (d : Opnd) (a : Opnd) (b : Opnd) : Statement (.fcle d a b) :=
  of_row fun l => ⟨⟨true, [d.code, a.code, b.code], .fcle (opndOf d.code l) (opndOf a.code l) (opndOf b.code l)⟩,
    (row8 (0x87#8 ++ d.code ++ a.code ++ b.code) 7 (by simp (disch := decide) only [field_hi, field_lo]; rfl)).trans (by change some (Row.mk _ _ _) = _; simp (disch := decide) only [field_hi, field_lo, field_all, Nat.reduceSub, Nat.sub_self]),
    rfl, rfl, fun h => by rw [h d (.head _), h a (.tail _ (.head _)), h b (.tail _ (.tail _ (.head _)))]⟩

theorem fcun (d : Opnd) (a : Opnd) (b : Opnd) : Statement (.fcun d a b) :=
  of_row fun l => ⟨⟨true, [d.code, a.code, b.code], .fcun (opndOf d.code l) (opndOf a.code l) (opndOf b.code l)⟩,
    (row8 (0x88#8 ++ d.code ++ a.code ++ b.code) 8 (by simp (disch := decide) only [field_hi, field_lo]; rfl)).trans (by change some (Row.mk _ _ _) = _; simp (disch := decide) only [field_hi, field_lo, field_all, Nat.reduceSub, Nat.sub_self]),
    rfl, rfl, fun h => by rw [h d (.head _), h a (.tail _ (.head _)), h b (.tail _ (.tail _ (.head _)))]⟩

theorem fkey (d : Opnd) (a : Opnd) : Statement (.fkey d a) :=
  of_row fun l => ⟨⟨true, [d.code, a.code], .fkey (opndOf d.code l) (opndOf a.code l)⟩,
    (row8 (0x89#8 ++ d.code ++ a.code ++ 0#8) 9 (by simp (disch := decide) only [field_hi, field_lo]; rfl)).trans (by change some (Row.mk _ _ _) = _; simp (disch := decide) only [field_hi, field_lo, field_all, Nat.reduceSub, Nat.sub_self]; rfl),
    rfl, rfl, fun h => by rw [h d (.head _), h a (.tail _ (.head _))]⟩

theorem cvt (d : Opnd) (a : Opnd) (t : BitVec 4) (s : BitVec 4) : Statement (.cvt d a t s) :=
  of_row fun l => ⟨⟨true, [d.code, a.code], .cvt (opndOf d.code l) (opndOf a.code l) t s⟩,
    (row8 (0x8A#8 ++ d.code ++ a.code ++ t ++ s) 10 (by simp (disch := decide) only [field_hi, field_lo]; rfl)).trans (by change some (Row.mk _ _ _) = _; simp (disch := decide) only [field_hi, field_lo, field_all, Nat.reduceSub, Nat.sub_self]),
    rfl, rfl, fun h => by rw [h d (.head _), h a (.tail _ (.head _))]⟩

theorem qpack (d : Opnd) (a : Opnd) (s : BitVec 1) (f : BitVec 3) : Statement (.qpack d a s f) :=
  of_row fun l => ⟨⟨true, [d.code, a.code], .qpack (opndOf d.code l) (opndOf a.code l) s f⟩,
    (row8 (0x8B#8 ++ d.code ++ a.code ++ 0#4 ++ s ++ f) 11 (by simp (disch := decide) only [field_hi, field_lo]; rfl)).trans (by change some (Row.mk _ _ _) = _; simp (disch := decide) only [field_hi, field_lo, field_all, Nat.reduceSub, Nat.sub_self]; rfl),
    rfl, rfl, fun h => by rw [h d (.head _), h a (.tail _ (.head _))]⟩

theorem qunpack (d : Opnd) (a : Opnd) (s : BitVec 1) (f : BitVec 3) : Statement (.qunpack d a s f) :=
  of_row fun l => ⟨⟨true, [d.code, a.code], .qunpack (opndOf d.code l) (opndOf a.code l) s f⟩,
    (row8 (0x8C#8 ++ d.code ++ a.code ++ 0#4 ++ s ++ f) 12 (by simp (disch := decide) only [field_hi, field_lo]; rfl)).trans (by change some (Row.mk _ _ _) = _; simp (disch := decide) only [field_hi, field_lo, field_all, Nat.reduceSub, Nat.sub_self]; rfl),
    rfl, rfl, fun h => by rw [h d (.head _), h a (.tail _ (.head _))]⟩

theorem qscale (d : Opnd) (a : Opnd) (s : BitVec 1) (f : BitVec 3) : Statement (.qscale d a s f) :=
  of_row fun l => ⟨⟨true, [d.code, a.code], .qscale (opndOf d.code l) (opndOf a.code l) s f⟩,
    (row8 (0x8D#8 ++ d.code ++ a.code ++ 0#4 ++ s ++ f) 13 (by simp (disch := decide) only [field_hi, field_lo]; rfl)).trans (by change some (Row.mk _ _ _) = _; simp (disch := decide) only [field_hi, field_lo, field_all, Nat.reduceSub, Nat.sub_self]; rfl),
    rfl, rfl, fun h => by rw [h d (.head _), h a (.tail _ (.head _))]⟩

theorem scvt (d : Opnd) (a : Opnd) (k : BitVec 2) (s : BitVec 1) (f : BitVec 4) : Statement (.scvt d a k s f) :=
  of_row fun l => ⟨⟨true, [d.code, a.code], .scvt (opndOf d.code l) (opndOf a.code l) k s f⟩,
    (row8 (0x8E#8 ++ d.code ++ a.code ++ 0#1 ++ k ++ s ++ f) 14 (by simp (disch := decide) only [field_hi, field_lo]; rfl)).trans (by change some (Row.mk _ _ _) = _; simp (disch := decide) only [field_hi, field_lo, field_all, Nat.reduceSub, Nat.sub_self]; rfl),
    rfl, rfl, fun h => by rw [h d (.head _), h a (.tail _ (.head _))]⟩

theorem vshfl (d : Opnd) (a : Opnd) (b : Opnd) : Statement (.vshfl d a b) :=
  of_row fun l => ⟨⟨true, [d.code, a.code, b.code], .vshfl (opndOf d.code l) (opndOf a.code l) (opndOf b.code l)⟩,
    (rowA (0xA0#8 ++ d.code ++ a.code ++ b.code) 0 (by simp (disch := decide) only [field_hi, field_lo]; rfl)).trans (by change some (Row.mk _ _ _) = _; simp (disch := decide) only [field_hi, field_lo, field_all, Nat.reduceSub, Nat.sub_self]),
    rfl, rfl, fun h => by rw [h d (.head _), h a (.tail _ (.head _)), h b (.tail _ (.tail _ (.head _)))]⟩

theorem vbfly (d : Opnd) (a : Opnd) (imm : BitVec 5) : Statement (.vbfly d a imm) :=
  of_row fun l => ⟨⟨true, [d.code, a.code], .vbfly (opndOf d.code l) (opndOf a.code l) imm⟩,
    (rowA (0xA1#8 ++ d.code ++ a.code ++ 0#3 ++ imm) 1 (by simp (disch := decide) only [field_hi, field_lo]; rfl)).trans (by change some (Row.mk _ _ _) = _; simp (disch := decide) only [field_hi, field_lo, field_all, Nat.reduceSub, Nat.sub_self]; rfl),
    rfl, rfl, fun h => by rw [h d (.head _), h a (.tail _ (.head _))]⟩

theorem vrot (d : Opnd) (a : Opnd) (imm : BitVec 5) : Statement (.vrot d a imm) :=
  of_row fun l => ⟨⟨true, [d.code, a.code], .vrot (opndOf d.code l) (opndOf a.code l) imm⟩,
    (rowA (0xA2#8 ++ d.code ++ a.code ++ 0#3 ++ imm) 2 (by simp (disch := decide) only [field_hi, field_lo]; rfl)).trans (by change some (Row.mk _ _ _) = _; simp (disch := decide) only [field_hi, field_lo, field_all, Nat.reduceSub, Nat.sub_self]; rfl),
    rfl, rfl, fun h => by rw [h d (.head _), h a (.tail _ (.head _))]⟩

theorem vredadd (d : Opnd) (a : Opnd) : Statement (.vredadd d a) :=
  of_row fun l => ⟨⟨true, [d.code, a.code], .vredadd (opndOf d.code l) (opndOf a.code l)⟩,
    (rowA (0xA3#8 ++ d.code ++ a.code ++ 0#8) 3 (by simp (disch := decide) only [field_hi, field_lo]; rfl)).trans (by change some (Row.mk _ _ _) = _; simp (disch := decide) only [field_hi, field_lo, field_all, Nat.reduceSub, Nat.sub_self]; rfl),
    rfl, rfl, fun h => by rw [h d (.head _), h a (.tail _ (.head _))]⟩

theorem vredmax (d : Opnd) (a : Opnd) : Statement (.vredmax d a) :=
  of_row fun l => ⟨⟨true, [d.code, a.code], .vredmax (opndOf d.code l) (opndOf a.code l)⟩,
    (rowA (0xA4#8 ++ d.code ++ a.code ++ 0#8) 4 (by simp (disch := decide) only [field_hi, field_lo]; rfl)).trans (by change some (Row.mk _ _ _) = _; simp (disch := decide) only [field_hi, field_lo, field_all, Nat.reduceSub, Nat.sub_self]; rfl),
    rfl, rfl, fun h => by rw [h d (.head _), h a (.tail _ (.head _))]⟩

theorem vredmin (d : Opnd) (a : Opnd) : Statement (.vredmin d a) :=
  of_row fun l => ⟨⟨true, [d.code, a.code], .vredmin (opndOf d.code l) (opndOf a.code l)⟩,
    (rowA (0xA5#8 ++ d.code ++ a.code ++ 0#8) 5 (by simp (disch := decide) only [field_hi, field_lo]; rfl)).trans (by change some (Row.mk _ _ _) = _; simp (disch := decide) only [field_hi, field_lo, field_all, Nat.reduceSub, Nat.sub_self]; rfl),
    rfl, rfl, fun h => by rw [h d (.head _), h a (.tail _ (.head _))]⟩

theorem vargmax (d : Opnd) (a : Opnd) (b : Opnd) : Statement (.vargmax d a b) :=
  of_row fun l => ⟨⟨true, [d.code, a.code, b.code], .vargmax (opndOf d.code l) (opndOf a.code l) (opndOf b.code l)⟩,
    (rowA (0xA6#8 ++ d.code ++ a.code ++ b.code) 6 (by simp (disch := decide) only [field_hi, field_lo]; rfl)).trans (by change some (Row.mk _ _ _) = _; simp (disch := decide) only [field_hi, field_lo, field_all, Nat.reduceSub, Nat.sub_self]),
    rfl, rfl, fun h => by rw [h d (.head _), h a (.tail _ (.head _)), h b (.tail _ (.tail _ (.head _)))]⟩

theorem vscan (d : Opnd) (a : Opnd) (x : BitVec 1) (off : BitVec 2) : Statement (.vscan d a x off) :=
  of_row fun l => ⟨⟨true, [d.code, a.code], .vscan (opndOf d.code l) (opndOf a.code l) x off⟩,
    (rowA (0xA7#8 ++ d.code ++ a.code ++ 0#5 ++ x ++ off) 7 (by simp (disch := decide) only [field_hi, field_lo]; rfl)).trans (by change some (Row.mk _ _ _) = _; simp (disch := decide) only [field_hi, field_lo, field_all, Nat.reduceSub, Nat.sub_self]; rfl),
    rfl, rfl, fun h => by rw [h d (.head _), h a (.tail _ (.head _))]⟩

theorem vdist (d : Opnd) (a : Opnd) (q : BitVec 2) (r : BitVec 3) (f : BitVec 1) (m : BitVec 1) : Statement (.vdist d a q r f m) :=
  of_row fun l => ⟨⟨true, [d.code, a.code], .vdist (opndOf d.code l) (opndOf a.code l) q r f m⟩,
    (rowA (0xA8#8 ++ d.code ++ a.code ++ 0#1 ++ q ++ r ++ f ++ m) 8 (by simp (disch := decide) only [field_hi, field_lo]; rfl)).trans (by change some (Row.mk _ _ _) = _; simp (disch := decide) only [field_hi, field_lo, field_all, Nat.reduceSub, Nat.sub_self]; rfl),
    rfl, rfl, fun h => by rw [h d (.head _), h a (.tail _ (.head _))]⟩

theorem vtopk (d : Opnd) (a : Opnd) (off : BitVec 1) (k : BitVec 5) : Statement (.vtopk d a off k) :=
  of_row fun l => ⟨⟨true, [d.code, a.code], .vtopk (opndOf d.code l) (opndOf a.code l) off k⟩,
    (rowA (0xA9#8 ++ d.code ++ a.code ++ 0#2 ++ off ++ k) 9 (by simp (disch := decide) only [field_hi, field_lo]; rfl)).trans (by change some (Row.mk _ _ _) = _; simp (disch := decide) only [field_hi, field_lo, field_all, Nat.reduceSub, Nat.sub_self]; rfl),
    rfl, rfl, fun h => by rw [h d (.head _), h a (.tail _ (.head _))]⟩

theorem vtopkm (d : Opnd) (a : Opnd) (off : BitVec 1) (k : BitVec 5) : Statement (.vtopkm d a off k) :=
  of_row fun l => ⟨⟨true, [d.code, a.code], .vtopkm (opndOf d.code l) (opndOf a.code l) off k⟩,
    (rowA (0xAA#8 ++ d.code ++ a.code ++ 0#2 ++ off ++ k) 10 (by simp (disch := decide) only [field_hi, field_lo]; rfl)).trans (by change some (Row.mk _ _ _) = _; simp (disch := decide) only [field_hi, field_lo, field_all, Nat.reduceSub, Nat.sub_self]; rfl),
    rfl, rfl, fun h => by rw [h d (.head _), h a (.tail _ (.head _))]⟩

theorem lds (d : Opnd) (mem : MemRef) : Statement (.lds d mem) :=
  of_row fun l => ⟨⟨true, [d.code], .lds (opndOf d.code l) mem⟩,
    (rowB (0xB0#8 ++ d.code ++ mem.bits) 0 (by simp (disch := decide) only [field_hi, field_lo]; rfl)).trans (by change some (Row.mk _ _ _) = _; simp (disch := decide) only [field_hi, field_lo, field_all, Nat.reduceSub, Nat.sub_self, memRefOf_bits]),
    rfl, rfl, fun h => by rw [h d (.head _)]⟩

theorem sts (d : Opnd) (mem : MemRef) : Statement (.sts d mem) :=
  of_row fun l => ⟨⟨true, [d.code], .sts (opndOf d.code l) mem⟩,
    (rowB (0xB1#8 ++ d.code ++ mem.bits) 1 (by simp (disch := decide) only [field_hi, field_lo]; rfl)).trans (by change some (Row.mk _ _ _) = _; simp (disch := decide) only [field_hi, field_lo, field_all, Nat.reduceSub, Nat.sub_self, memRefOf_bits]),
    rfl, rfl, fun h => by rw [h d (.head _)]⟩

theorem ldv (d : Opnd) (mem : MemRef) : Statement (.ldv d mem) :=
  of_row fun l => ⟨⟨true, [d.code], .ldv (opndOf d.code l) mem⟩,
    (rowB (0xB2#8 ++ d.code ++ mem.bits) 2 (by simp (disch := decide) only [field_hi, field_lo]; rfl)).trans (by change some (Row.mk _ _ _) = _; simp (disch := decide) only [field_hi, field_lo, field_all, Nat.reduceSub, Nat.sub_self, memRefOf_bits]),
    rfl, rfl, fun h => by rw [h d (.head _)]⟩

theorem stv (d : Opnd) (mem : MemRef) : Statement (.stv d mem) :=
  of_row fun l => ⟨⟨true, [d.code], .stv (opndOf d.code l) mem⟩,
    (rowB (0xB3#8 ++ d.code ++ mem.bits) 3 (by simp (disch := decide) only [field_hi, field_lo]; rfl)).trans (by change some (Row.mk _ _ _) = _; simp (disch := decide) only [field_hi, field_lo, field_all, Nat.reduceSub, Nat.sub_self, memRefOf_bits]),
    rfl, rfl, fun h => by rw [h d (.head _)]⟩

theorem ldl (d : Opnd) (mem : MemRef) : Statement (.ldl d mem) :=
  of_row fun l => ⟨⟨true, [d.code], .ldl (opndOf d.code l) mem⟩,
    (rowB (0xB4#8 ++ d.code ++ mem.bits) 4 (by simp (disch := decide) only [field_hi, field_lo]; rfl)).trans (by change some (Row.mk _ _ _) = _; simp (disch := decide) only [field_hi, field_lo, field_all, Nat.reduceSub, Nat.sub_self, memRefOf_bits]),
    rfl, rfl, fun h => by rw [h d (.head _)]⟩

theorem stl (d : Opnd) (mem : MemRef) : Statement (.stl d mem) :=
  of_row fun l => ⟨⟨true, [d.code], .stl (opndOf d.code l) mem⟩,
    (rowB (0xB5#8 ++ d.code ++ mem.bits) 5 (by simp (disch := decide) only [field_hi, field_lo]; rfl)).trans (by change some (Row.mk _ _ _) = _; simp (disch := decide) only [field_hi, field_lo, field_all, Nat.reduceSub, Nat.sub_self, memRefOf_bits]),
    rfl, rfl, fun h => by rw [h d (.head _)]⟩

theorem lda (d : Opnd) (mem : MemRef) : Statement (.lda d mem) :=
  of_row fun l => ⟨⟨true, [d.code], .lda (opndOf d.code l) mem⟩,
    (rowB (0xB6#8 ++ d.code ++ mem.bits) 6 (by simp (disch := decide) only [field_hi, field_lo]; rfl)).trans (by change some (Row.mk _ _ _) = _; simp (disch := decide) only [field_hi, field_lo, field_all, Nat.reduceSub, Nat.sub_self, memRefOf_bits]),
    rfl, rfl, fun h => by rw [h d (.head _)]⟩

theorem sta (d : Opnd) (mem : MemRef) : Statement (.sta d mem) :=
  of_row fun l => ⟨⟨true, [d.code], .sta (opndOf d.code l) mem⟩,
    (rowB (0xB7#8 ++ d.code ++ mem.bits) 7 (by simp (disch := decide) only [field_hi, field_lo]; rfl)).trans (by change some (Row.mk _ _ _) = _; simp (disch := decide) only [field_hi, field_lo, field_all, Nat.reduceSub, Nat.sub_self, memRefOf_bits]),
    rfl, rfl, fun h => by rw [h d (.head _)]⟩

theorem ldw (d : Opnd) (mem : MemRef) : Statement (.ldw d mem) :=
  of_row fun l => ⟨⟨true, [d.code], .ldw (opndOf d.code l) mem⟩,
    (rowB (0xB8#8 ++ d.code ++ mem.bits) 8 (by simp (disch := decide) only [field_hi, field_lo]; rfl)).trans (by change some (Row.mk _ _ _) = _; simp (disch := decide) only [field_hi, field_lo, field_all, Nat.reduceSub, Nat.sub_self, memRefOf_bits]),
    rfl, rfl, fun h => by rw [h d (.head _)]⟩

theorem stw (d : Opnd) (mem : MemRef) : Statement (.stw d mem) :=
  of_row fun l => ⟨⟨true, [d.code], .stw (opndOf d.code l) mem⟩,
    (rowB (0xB9#8 ++ d.code ++ mem.bits) 9 (by simp (disch := decide) only [field_hi, field_lo]; rfl)).trans (by change some (Row.mk _ _ _) = _; simp (disch := decide) only [field_hi, field_lo, field_all, Nat.reduceSub, Nat.sub_self, memRefOf_bits]),
    rfl, rfl, fun h => by rw [h d (.head _)]⟩

theorem ldpar (d : Opnd) (mem : MemRef) : Statement (.ldpar d mem) :=
  of_row fun l => ⟨⟨true, [d.code], .ldpar (opndOf d.code l) mem⟩,
    (rowB (0xBA#8 ++ d.code ++ mem.bits) 10 (by simp (disch := decide) only [field_hi, field_lo]; rfl)).trans (by change some (Row.mk _ _ _) = _; simp (disch := decide) only [field_hi, field_lo, field_all, Nat.reduceSub, Nat.sub_self, memRefOf_bits]),
    rfl, rfl, fun h => by rw [h d (.head _)]⟩

theorem stt (d : Opnd) (mem : MemRef) : Statement (.stt d mem) :=
  of_row fun l => ⟨⟨true, [d.code], .stt (opndOf d.code l) mem⟩,
    (rowB (0xBB#8 ++ d.code ++ mem.bits) 11 (by simp (disch := decide) only [field_hi, field_lo]; rfl)).trans (by change some (Row.mk _ _ _) = _; simp (disch := decide) only [field_hi, field_lo, field_all, Nat.reduceSub, Nat.sub_self, memRefOf_bits]),
    rfl, rfl, fun h => by rw [h d (.head _)]⟩

theorem stm (d : Opnd) (mem : MemRef) : Statement (.stm d mem) :=
  of_row fun l => ⟨⟨true, [d.code], .stm (opndOf d.code l) mem⟩,
    (rowB (0xBC#8 ++ d.code ++ mem.bits) 12 (by simp (disch := decide) only [field_hi, field_lo]; rfl)).trans (by change some (Row.mk _ _ _) = _; simp (disch := decide) only [field_hi, field_lo, field_all, Nat.reduceSub, Nat.sub_self, memRefOf_bits]),
    rfl, rfl, fun h => by rw [h d (.head _)]⟩

theorem pref (mem : MemRef) : Statement (.pref mem) :=
  of_row fun l => ⟨⟨true, [], .pref mem⟩,
    (rowB (0xBD#8 ++ 0#8 ++ mem.bits) 13 (by simp (disch := decide) only [field_hi, field_lo]; rfl)).trans (by change some (Row.mk _ _ _) = _; simp (disch := decide) only [field_hi, field_lo, field_all, Nat.reduceSub, Nat.sub_self, memRefOf_bits]; rfl),
    rfl, rfl, fun _ => rfl⟩

theorem atadd (d : Opnd) (mem : MemRef) : Statement (.atadd d mem) :=
  of_row fun l => ⟨⟨true, [d.code], .atadd (opndOf d.code l) mem⟩,
    (rowC (0xC0#8 ++ d.code ++ mem.bits) 0 (by simp (disch := decide) only [field_hi, field_lo]; rfl)).trans (by change some (Row.mk _ _ _) = _; simp (disch := decide) only [field_hi, field_lo, field_all, Nat.reduceSub, Nat.sub_self, memRefOf_bits]),
    rfl, rfl, fun h => by rw [h d (.head _)]⟩

theorem atmin (d : Opnd) (mem : MemRef) : Statement (.atmin d mem) :=
  of_row fun l => ⟨⟨true, [d.code], .atmin (opndOf d.code l) mem⟩,
    (rowC (0xC1#8 ++ d.code ++ mem.bits) 1 (by simp (disch := decide) only [field_hi, field_lo]; rfl)).trans (by change some (Row.mk _ _ _) = _; simp (disch := decide) only [field_hi, field_lo, field_all, Nat.reduceSub, Nat.sub_self, memRefOf_bits]),
    rfl, rfl, fun h => by rw [h d (.head _)]⟩

theorem atmax (d : Opnd) (mem : MemRef) : Statement (.atmax d mem) :=
  of_row fun l => ⟨⟨true, [d.code], .atmax (opndOf d.code l) mem⟩,
    (rowC (0xC2#8 ++ d.code ++ mem.bits) 2 (by simp (disch := decide) only [field_hi, field_lo]; rfl)).trans (by change some (Row.mk _ _ _) = _; simp (disch := decide) only [field_hi, field_lo, field_all, Nat.reduceSub, Nat.sub_self, memRefOf_bits]),
    rfl, rfl, fun h => by rw [h d (.head _)]⟩

theorem atand (d : Opnd) (mem : MemRef) : Statement (.atand d mem) :=
  of_row fun l => ⟨⟨true, [d.code], .atand (opndOf d.code l) mem⟩,
    (rowC (0xC3#8 ++ d.code ++ mem.bits) 3 (by simp (disch := decide) only [field_hi, field_lo]; rfl)).trans (by change some (Row.mk _ _ _) = _; simp (disch := decide) only [field_hi, field_lo, field_all, Nat.reduceSub, Nat.sub_self, memRefOf_bits]),
    rfl, rfl, fun h => by rw [h d (.head _)]⟩

theorem ator (d : Opnd) (mem : MemRef) : Statement (.ator d mem) :=
  of_row fun l => ⟨⟨true, [d.code], .ator (opndOf d.code l) mem⟩,
    (rowC (0xC4#8 ++ d.code ++ mem.bits) 4 (by simp (disch := decide) only [field_hi, field_lo]; rfl)).trans (by change some (Row.mk _ _ _) = _; simp (disch := decide) only [field_hi, field_lo, field_all, Nat.reduceSub, Nat.sub_self, memRefOf_bits]),
    rfl, rfl, fun h => by rw [h d (.head _)]⟩

theorem atxor (d : Opnd) (mem : MemRef) : Statement (.atxor d mem) :=
  of_row fun l => ⟨⟨true, [d.code], .atxor (opndOf d.code l) mem⟩,
    (rowC (0xC5#8 ++ d.code ++ mem.bits) 5 (by simp (disch := decide) only [field_hi, field_lo]; rfl)).trans (by change some (Row.mk _ _ _) = _; simp (disch := decide) only [field_hi, field_lo, field_all, Nat.reduceSub, Nat.sub_self, memRefOf_bits]),
    rfl, rfl, fun h => by rw [h d (.head _)]⟩

theorem atxchg (d : Opnd) (mem : MemRef) : Statement (.atxchg d mem) :=
  of_row fun l => ⟨⟨true, [d.code], .atxchg (opndOf d.code l) mem⟩,
    (rowC (0xC6#8 ++ d.code ++ mem.bits) 6 (by simp (disch := decide) only [field_hi, field_lo]; rfl)).trans (by change some (Row.mk _ _ _) = _; simp (disch := decide) only [field_hi, field_lo, field_all, Nat.reduceSub, Nat.sub_self, memRefOf_bits]),
    rfl, rfl, fun h => by rw [h d (.head _)]⟩

theorem atcas (d : Opnd) (mem : MemRef) : Statement (.atcas d mem) :=
  of_row fun l => ⟨⟨true, [d.code], .atcas (opndOf d.code l) mem⟩,
    (rowC (0xC7#8 ++ d.code ++ mem.bits) 7 (by simp (disch := decide) only [field_hi, field_lo]; rfl)).trans (by change some (Row.mk _ _ _) = _; simp (disch := decide) only [field_hi, field_lo, field_all, Nat.reduceSub, Nat.sub_self, memRefOf_bits]),
    rfl, rfl, fun h => by rw [h d (.head _)]⟩

theorem atinc (d : Opnd) (mem : MemRef) : Statement (.atinc d mem) :=
  of_row fun l => ⟨⟨true, [d.code], .atinc (opndOf d.code l) mem⟩,
    (rowC (0xC8#8 ++ d.code ++ mem.bits) 8 (by simp (disch := decide) only [field_hi, field_lo]; rfl)).trans (by change some (Row.mk _ _ _) = _; simp (disch := decide) only [field_hi, field_lo, field_all, Nat.reduceSub, Nat.sub_self, memRefOf_bits]),
    rfl, rfl, fun h => by rw [h d (.head _)]⟩

theorem atfadd (d : Opnd) (mem : MemRef) : Statement (.atfadd d mem) :=
  of_row fun l => ⟨⟨true, [d.code], .atfadd (opndOf d.code l) mem⟩,
    (rowC (0xC9#8 ++ d.code ++ mem.bits) 9 (by simp (disch := decide) only [field_hi, field_lo]; rfl)).trans (by change some (Row.mk _ _ _) = _; simp (disch := decide) only [field_hi, field_lo, field_all, Nat.reduceSub, Nat.sub_self, memRefOf_bits]),
    rfl, rfl, fun h => by rw [h d (.head _)]⟩

theorem atfmax (d : Opnd) (mem : MemRef) : Statement (.atfmax d mem) :=
  of_row fun l => ⟨⟨true, [d.code], .atfmax (opndOf d.code l) mem⟩,
    (rowC (0xCA#8 ++ d.code ++ mem.bits) 10 (by simp (disch := decide) only [field_hi, field_lo]; rfl)).trans (by change some (Row.mk _ _ _) = _; simp (disch := decide) only [field_hi, field_lo, field_all, Nat.reduceSub, Nat.sub_self, memRefOf_bits]),
    rfl, rfl, fun h => by rw [h d (.head _)]⟩

theorem atfmin (d : Opnd) (mem : MemRef) : Statement (.atfmin d mem) :=
  of_row fun l => ⟨⟨true, [d.code], .atfmin (opndOf d.code l) mem⟩,
    (rowC (0xCB#8 ++ d.code ++ mem.bits) 11 (by simp (disch := decide) only [field_hi, field_lo]; rfl)).trans (by change some (Row.mk _ _ _) = _; simp (disch := decide) only [field_hi, field_lo, field_all, Nat.reduceSub, Nat.sub_self, memRefOf_bits]),
    rfl, rfl, fun h => by rw [h d (.head _)]⟩

theorem fence : Statement .fence :=
  of_row fun l => ⟨⟨true, [], .fence⟩,
    (rowC (0xCC#8 ++ 0#24) 12 (by simp (disch := decide) only [field_hi, field_lo]; rfl)).trans (by change some (Row.mk _ _ _) = _; simp (disch := decide) only [field_hi, field_lo, field_all, Nat.reduceSub, Nat.sub_self]; rfl),
    rfl, rfl, fun _ => rfl⟩

theorem fencea (a : Opnd) (b : Opnd) : Statement (.fencea a b) :=
  of_row fun l => ⟨⟨true, [a.code, b.code], .fencea (opndOf a.code l) (opndOf b.code l)⟩,
    (rowC (0xCD#8 ++ 0#8 ++ a.code ++ b.code) 13 (by simp (disch := decide) only [field_hi, field_lo]; rfl)).trans (by change some (Row.mk _ _ _) = _; simp (disch := decide) only [field_hi, field_lo, field_all, Nat.reduceSub, Nat.sub_self]; rfl),
    rfl, rfl, fun h => by rw [h a (.head _), h b (.tail _ (.head _))]⟩

theorem acqrg (d : Opnd) (a : Opnd) (b : Opnd) : Statement (.acqrg d a b) :=
  of_row fun l => ⟨⟨true, [d.code, a.code, b.code], .acqrg (opndOf d.code l) (opndOf a.code l) (opndOf b.code l)⟩,
    (rowC (0xCE#8 ++ d.code ++ a.code ++ b.code) 14 (by simp (disch := decide) only [field_hi, field_lo]; rfl)).trans (by change some (Row.mk _ _ _) = _; simp (disch := decide) only [field_hi, field_lo, field_all, Nat.reduceSub, Nat.sub_self]),
    rfl, rfl, fun h => by rw [h d (.head _), h a (.tail _ (.head _)), h b (.tail _ (.tail _ (.head _)))]⟩

theorem relrg (d : Opnd) (a : Opnd) (b : Opnd) : Statement (.relrg d a b) :=
  of_row fun l => ⟨⟨true, [d.code, a.code, b.code], .relrg (opndOf d.code l) (opndOf a.code l) (opndOf b.code l)⟩,
    (rowC (0xCF#8 ++ d.code ++ a.code ++ b.code) 15 (by simp (disch := decide) only [field_hi, field_lo]; rfl)).trans (by change some (Row.mk _ _ _) = _; simp (disch := decide) only [field_hi, field_lo, field_all, Nat.reduceSub, Nat.sub_self]),
    rfl, rfl, fun h => by rw [h d (.head _), h a (.tail _ (.head _)), h b (.tail _ (.tail _ (.head _)))]⟩

theorem monarm (k : BitVec 2) (mem : MemRef) : Statement (.monarm k mem) :=
  of_row fun l => ⟨⟨true, [], .monarm k mem⟩,
    (rowD (0xD0#8 ++ 0x34#6 ++ k ++ mem.bits) 0 (by simp (disch := decide) only [field_hi, field_lo]; rfl)).trans (by change some (Row.mk _ _ _) = _; simp (disch := decide) only [field_hi, field_lo, field_all, Nat.reduceSub, Nat.sub_self, memRefOf_bits6]; rfl),
    rfl, rfl, fun _ => rfl⟩

theorem monwait (d : Opnd) (k : BitVec 2) (b : Opnd) : Statement (.monwait d k b) :=
  of_row fun l => ⟨⟨true, [d.code, b.code], .monwait (opndOf d.code l) k (opndOf b.code l)⟩,
    (rowD (0xD1#8 ++ d.code ++ 0x34#6 ++ k ++ b.code) 1 (by simp (disch := decide) only [field_hi, field_lo]; rfl)).trans (by change some (Row.mk _ _ _) = _; simp (disch := decide) only [field_hi, field_lo, field_all, Nat.reduceSub, Nat.sub_self]; rfl),
    rfl, rfl, fun h => by rw [h d (.head _), h b (.tail _ (.head _))]⟩

theorem copy (mem : MemRef) : Statement (.copy mem) :=
  of_row fun l => ⟨⟨true, [], .copy mem⟩,
    (rowD (0xD2#8 ++ 0#8 ++ mem.bits) 2 (by simp (disch := decide) only [field_hi, field_lo]; rfl)).trans (by change some (Row.mk _ _ _) = _; simp (disch := decide) only [field_hi, field_lo, field_all, Nat.reduceSub, Nat.sub_self, memRefOf_bits]; rfl),
    rfl, rfl, fun _ => rfl⟩

theorem copym (mem : MemRef) : Statement (.copym mem) :=
  of_row fun l => ⟨⟨true, [], .copym mem⟩,
    (rowD (0xD3#8 ++ 0#8 ++ mem.bits) 3 (by simp (disch := decide) only [field_hi, field_lo]; rfl)).trans (by change some (Row.mk _ _ _) = _; simp (disch := decide) only [field_hi, field_lo, field_all, Nat.reduceSub, Nat.sub_self, memRefOf_bits]; rfl),
    rfl, rfl, fun _ => rfl⟩

theorem mack (n : BitVec 6) : Statement (.mack n) :=
  of_row fun l => ⟨⟨true, [], .mack n⟩,
    (rowD (0xD4#8 ++ 0#18 ++ n) 4 (by simp (disch := decide) only [field_hi, field_lo]; rfl)).trans (by change some (Row.mk _ _ _) = _; simp (disch := decide) only [field_hi, field_lo, field_all, Nat.reduceSub, Nat.sub_self]; rfl),
    rfl, rfl, fun _ => rfl⟩

theorem stash (d : Opnd) (mem : MemRef) : Statement (.stash d mem) :=
  of_row fun l => ⟨⟨true, [d.code], .stash (opndOf d.code l) mem⟩,
    (rowD (0xD5#8 ++ d.code ++ mem.bits) 5 (by simp (disch := decide) only [field_hi, field_lo]; rfl)).trans (by change some (Row.mk _ _ _) = _; simp (disch := decide) only [field_hi, field_lo, field_all, Nat.reduceSub, Nat.sub_self, memRefOf_bits]),
    rfl, rfl, fun h => by rw [h d (.head _)]⟩

theorem stgld (mem : MemRef) : Statement (.stgld mem) :=
  of_row fun l => ⟨⟨true, [], .stgld mem⟩,
    (rowD (0xD6#8 ++ 0#8 ++ mem.bits) 6 (by simp (disch := decide) only [field_hi, field_lo]; rfl)).trans (by change some (Row.mk _ _ _) = _; simp (disch := decide) only [field_hi, field_lo, field_all, Nat.reduceSub, Nat.sub_self, memRefOf_bits]; rfl),
    rfl, rfl, fun _ => rfl⟩

theorem crs (mem : MemRef) : Statement (.crs mem) :=
  of_row fun l => ⟨⟨true, [], .crs mem⟩,
    (rowD (0xD7#8 ++ 0#8 ++ mem.bits) 7 (by simp (disch := decide) only [field_hi, field_lo]; rfl)).trans (by change some (Row.mk _ _ _) = _; simp (disch := decide) only [field_hi, field_lo, field_all, Nat.reduceSub, Nat.sub_self, memRefOf_bits]; rfl),
    rfl, rfl, fun _ => rfl⟩

theorem cscal (a : Opnd) (b : Opnd) : Statement (.cscal a b) :=
  of_row fun l => ⟨⟨true, [a.code, b.code], .cscal (opndOf a.code l) (opndOf b.code l)⟩,
    (rowD (0xD8#8 ++ 0#8 ++ a.code ++ b.code) 8 (by simp (disch := decide) only [field_hi, field_lo]; rfl)).trans (by change some (Row.mk _ _ _) = _; simp (disch := decide) only [field_hi, field_lo, field_all, Nat.reduceSub, Nat.sub_self]; rfl),
    rfl, rfl, fun h => by rw [h a (.head _), h b (.tail _ (.head _))]⟩

theorem cag (mem : MemRef) : Statement (.cag mem) :=
  of_row fun l => ⟨⟨true, [], .cag mem⟩,
    (rowD (0xD9#8 ++ 0#8 ++ mem.bits) 9 (by simp (disch := decide) only [field_hi, field_lo]; rfl)).trans (by change some (Row.mk _ _ _) = _; simp (disch := decide) only [field_hi, field_lo, field_all, Nat.reduceSub, Nat.sub_self, memRefOf_bits]; rfl),
    rfl, rfl, fun _ => rfl⟩

theorem step : Statement .step :=
  of_row fun l => ⟨⟨true, [], .step⟩,
    (rowD (0xDA#8 ++ 0#24) 10 (by simp (disch := decide) only [field_hi, field_lo]; rfl)).trans (by change some (Row.mk _ _ _) = _; simp (disch := decide) only [field_hi, field_lo, field_all, Nat.reduceSub, Nat.sub_self]; rfl),
    rfl, rfl, fun _ => rfl⟩

theorem steprd (d : Opnd) (a : Opnd) (imm : BitVec 8) : Statement (.steprd d a imm) :=
  of_row fun l => ⟨⟨true, [d.code, a.code], .steprd (opndOf d.code l) (opndOf a.code l) imm⟩,
    (rowD (0xDB#8 ++ d.code ++ a.code ++ imm) 11 (by simp (disch := decide) only [field_hi, field_lo]; rfl)).trans (by change some (Row.mk _ _ _) = _; simp (disch := decide) only [field_hi, field_lo, field_all, Nat.reduceSub, Nat.sub_self]),
    rfl, rfl, fun h => by rw [h d (.head _), h a (.tail _ (.head _))]⟩

theorem gsget (d : Opnd) (j : BitVec 3) (g : BitVec 1) (x : BitVec 6) : Statement (.gsget d j g x) :=
  of_row fun l => ⟨⟨true, [d.code], .gsget (opndOf d.code l) j g x⟩,
    (rowD (0xDC#8 ++ d.code ++ 0x1a#5 ++ j ++ 0#1 ++ g ++ x) 12 (by simp (disch := decide) only [field_hi, field_lo]; rfl)).trans (by change some (Row.mk _ _ _) = _; simp (disch := decide) only [field_hi, field_lo, field_all, Nat.reduceSub, Nat.sub_self]; rfl),
    rfl, rfl, fun h => by rw [h d (.head _)]⟩

theorem bar (d : Opnd) (a : Opnd) (b : BitVec 2) : Statement (.bar d a b) :=
  of_row fun l => ⟨⟨true, [d.code, a.code], .bar (opndOf d.code l) (opndOf a.code l) b⟩,
    (rowD (0xDD#8 ++ d.code ++ a.code ++ 0#6 ++ b) 13 (by simp (disch := decide) only [field_hi, field_lo]; rfl)).trans (by change some (Row.mk _ _ _) = _; simp (disch := decide) only [field_hi, field_lo, field_all, Nat.reduceSub, Nat.sub_self]; rfl),
    rfl, rfl, fun h => by rw [h d (.head _), h a (.tail _ (.head _))]⟩

theorem swaph (d : Opnd) (a : Opnd) : Statement (.swaph d a) :=
  of_row fun l => ⟨⟨true, [d.code, a.code], .swaph (opndOf d.code l) (opndOf a.code l)⟩,
    (rowD (0xDE#8 ++ d.code ++ a.code ++ 0#8) 14 (by simp (disch := decide) only [field_hi, field_lo]; rfl)).trans (by change some (Row.mk _ _ _) = _; simp (disch := decide) only [field_hi, field_lo, field_all, Nat.reduceSub, Nat.sub_self]; rfl),
    rfl, rfl, fun h => by rw [h d (.head _), h a (.tail _ (.head _))]⟩

theorem watch (d : Opnd) (mem : MemRef) : Statement (.watch d mem) :=
  of_row fun l => ⟨⟨true, [d.code], .watch (opndOf d.code l) mem⟩,
    (rowD (0xDF#8 ++ d.code ++ mem.bits) 15 (by simp (disch := decide) only [field_hi, field_lo]; rfl)).trans (by change some (Row.mk _ _ _) = _; simp (disch := decide) only [field_hi, field_lo, field_all, Nat.reduceSub, Nat.sub_self, memRefOf_bits]),
    rfl, rfl, fun h => by rw [h d (.head _)]⟩

theorem blatch (vb : Opnd) (t : BitVec 1) (q : BitVec 2) (f : BitVec 4) : Statement (.blatch vb t q f) :=
  of_row fun l => ⟨⟨true, [vb.code], .blatch (opndOf vb.code l) t q f⟩,
    (rowE (0xE0#8 ++ vb.code ++ 0#9 ++ t ++ q ++ f) 0 (by simp (disch := decide) only [field_hi, field_lo]; rfl)).trans (by change some (Row.mk _ _ _) = _; simp (disch := decide) only [field_hi, field_lo, field_all, Nat.reduceSub, Nat.sub_self]; rfl),
    rfl, rfl, fun h => by rw [h vb (.head _)]⟩

theorem mmaE4m3 (cbs : Opnd) (abs : Opnd) (sel : BitVec 1) (zero : BitVec 1) (lrc : BitVec 1) (lra : BitVec 1) : Statement (.mmaE4m3 cbs abs sel zero lrc lra) :=
  of_row fun l => ⟨⟨true, [cbs.code, abs.code], .mmaE4m3 (opndOf cbs.code l) (opndOf abs.code l) sel zero lrc lra⟩,
    (rowE (0xE1#8 ++ cbs.code ++ abs.code ++ sel ++ zero ++ lrc ++ lra ++ 0#4) 1 (by simp (disch := decide) only [field_hi, field_lo]; rfl)).trans (by change some (Row.mk _ _ _) = _; simp (disch := decide) only [field_hi, field_lo, field_all, Nat.reduceSub, Nat.sub_self]; rfl),
    rfl, rfl, fun h => by rw [h cbs (.head _), h abs (.tail _ (.head _))]⟩

theorem mmaE5m2 (cbs : Opnd) (abs : Opnd) (sel : BitVec 1) (zero : BitVec 1) (lrc : BitVec 1) (lra : BitVec 1) : Statement (.mmaE5m2 cbs abs sel zero lrc lra) :=
  of_row fun l => ⟨⟨true, [cbs.code, abs.code], .mmaE5m2 (opndOf cbs.code l) (opndOf abs.code l) sel zero lrc lra⟩,
    (rowE (0xE2#8 ++ cbs.code ++ abs.code ++ sel ++ zero ++ lrc ++ lra ++ 0#4) 2 (by simp (disch := decide) only [field_hi, field_lo]; rfl)).trans (by change some (Row.mk _ _ _) = _; simp (disch := decide) only [field_hi, field_lo, field_all, Nat.reduceSub, Nat.sub_self]; rfl),
    rfl, rfl, fun h => by rw [h cbs (.head _), h abs (.tail _ (.head _))]⟩

theorem mmaE3m2 (cbs : Opnd) (abs : Opnd) (sel : BitVec 1) (zero : BitVec 1) (lrc : BitVec 1) (lra : BitVec 1) : Statement (.mmaE3m2 cbs abs sel zero lrc lra) :=
  of_row fun l => ⟨⟨true, [cbs.code, abs.code], .mmaE3m2 (opndOf cbs.code l) (opndOf abs.code l) sel zero lrc lra⟩,
    (rowE (0xE3#8 ++ cbs.code ++ abs.code ++ sel ++ zero ++ lrc ++ lra ++ 0#4) 3 (by simp (disch := decide) only [field_hi, field_lo]; rfl)).trans (by change some (Row.mk _ _ _) = _; simp (disch := decide) only [field_hi, field_lo, field_all, Nat.reduceSub, Nat.sub_self]; rfl),
    rfl, rfl, fun h => by rw [h cbs (.head _), h abs (.tail _ (.head _))]⟩

theorem mmaE2m3 (cbs : Opnd) (abs : Opnd) (sel : BitVec 1) (zero : BitVec 1) (lrc : BitVec 1) (lra : BitVec 1) : Statement (.mmaE2m3 cbs abs sel zero lrc lra) :=
  of_row fun l => ⟨⟨true, [cbs.code, abs.code], .mmaE2m3 (opndOf cbs.code l) (opndOf abs.code l) sel zero lrc lra⟩,
    (rowE (0xE4#8 ++ cbs.code ++ abs.code ++ sel ++ zero ++ lrc ++ lra ++ 0#4) 4 (by simp (disch := decide) only [field_hi, field_lo]; rfl)).trans (by change some (Row.mk _ _ _) = _; simp (disch := decide) only [field_hi, field_lo, field_all, Nat.reduceSub, Nat.sub_self]; rfl),
    rfl, rfl, fun h => by rw [h cbs (.head _), h abs (.tail _ (.head _))]⟩

theorem mmaF4s (cbs : Opnd) (abs : Opnd) (sel : BitVec 1) (zero : BitVec 1) (lrc : BitVec 1) (lra : BitVec 1) : Statement (.mmaF4s cbs abs sel zero lrc lra) :=
  of_row fun l => ⟨⟨true, [cbs.code, abs.code], .mmaF4s (opndOf cbs.code l) (opndOf abs.code l) sel zero lrc lra⟩,
    (rowE (0xE5#8 ++ cbs.code ++ abs.code ++ sel ++ zero ++ lrc ++ lra ++ 0#4) 5 (by simp (disch := decide) only [field_hi, field_lo]; rfl)).trans (by change some (Row.mk _ _ _) = _; simp (disch := decide) only [field_hi, field_lo, field_all, Nat.reduceSub, Nat.sub_self]; rfl),
    rfl, rfl, fun h => by rw [h cbs (.head _), h abs (.tail _ (.head _))]⟩

theorem mmaBf16 (cbs : Opnd) (abs : Opnd) (sel : BitVec 1) (zero : BitVec 1) (lrc : BitVec 1) (lra : BitVec 1) : Statement (.mmaBf16 cbs abs sel zero lrc lra) :=
  of_row fun l => ⟨⟨true, [cbs.code, abs.code], .mmaBf16 (opndOf cbs.code l) (opndOf abs.code l) sel zero lrc lra⟩,
    (rowE (0xE6#8 ++ cbs.code ++ abs.code ++ sel ++ zero ++ lrc ++ lra ++ 0#4) 6 (by simp (disch := decide) only [field_hi, field_lo]; rfl)).trans (by change some (Row.mk _ _ _) = _; simp (disch := decide) only [field_hi, field_lo, field_all, Nat.reduceSub, Nat.sub_self]; rfl),
    rfl, rfl, fun h => by rw [h cbs (.head _), h abs (.tail _ (.head _))]⟩

theorem mmaF16 (cbs : Opnd) (abs : Opnd) (sel : BitVec 1) (zero : BitVec 1) (lrc : BitVec 1) (lra : BitVec 1) : Statement (.mmaF16 cbs abs sel zero lrc lra) :=
  of_row fun l => ⟨⟨true, [cbs.code, abs.code], .mmaF16 (opndOf cbs.code l) (opndOf abs.code l) sel zero lrc lra⟩,
    (rowE (0xE7#8 ++ cbs.code ++ abs.code ++ sel ++ zero ++ lrc ++ lra ++ 0#4) 7 (by simp (disch := decide) only [field_hi, field_lo]; rfl)).trans (by change some (Row.mk _ _ _) = _; simp (disch := decide) only [field_hi, field_lo, field_all, Nat.reduceSub, Nat.sub_self]; rfl),
    rfl, rfl, fun h => by rw [h cbs (.head _), h abs (.tail _ (.head _))]⟩

theorem mmaI8 (cbs : Opnd) (abs : Opnd) (sel : BitVec 1) (zero : BitVec 1) (lrc : BitVec 1) (lra : BitVec 1) : Statement (.mmaI8 cbs abs sel zero lrc lra) :=
  of_row fun l => ⟨⟨true, [cbs.code, abs.code], .mmaI8 (opndOf cbs.code l) (opndOf abs.code l) sel zero lrc lra⟩,
    (rowE (0xE8#8 ++ cbs.code ++ abs.code ++ sel ++ zero ++ lrc ++ lra ++ 0#4) 8 (by simp (disch := decide) only [field_hi, field_lo]; rfl)).trans (by change some (Row.mk _ _ _) = _; simp (disch := decide) only [field_hi, field_lo, field_all, Nat.reduceSub, Nat.sub_self]; rfl),
    rfl, rfl, fun h => by rw [h cbs (.head _), h abs (.tail _ (.head _))]⟩

theorem mmaE2m1 (cbs : Opnd) (abs : Opnd) (sel : BitVec 1) (zero : BitVec 1) (lrc : BitVec 1) (lra : BitVec 1) : Statement (.mmaE2m1 cbs abs sel zero lrc lra) :=
  of_row fun l => ⟨⟨true, [cbs.code, abs.code], .mmaE2m1 (opndOf cbs.code l) (opndOf abs.code l) sel zero lrc lra⟩,
    (rowE (0xEE#8 ++ cbs.code ++ abs.code ++ sel ++ zero ++ lrc ++ lra ++ 0#4) 14 (by simp (disch := decide) only [field_hi, field_lo]; rfl)).trans (by change some (Row.mk _ _ _) = _; simp (disch := decide) only [field_hi, field_lo, field_all, Nat.reduceSub, Nat.sub_self]; rfl),
    rfl, rfl, fun h => by rw [h cbs (.head _), h abs (.tail _ (.head _))]⟩

theorem mfence (d : Opnd) : Statement (.mfence d) :=
  of_row fun l => ⟨⟨true, [d.code], .mfence (opndOf d.code l)⟩,
    (rowE (0xE9#8 ++ d.code ++ 0#16) 9 (by simp (disch := decide) only [field_hi, field_lo]; rfl)).trans (by change some (Row.mk _ _ _) = _; simp (disch := decide) only [field_hi, field_lo, field_all, Nat.reduceSub, Nat.sub_self]; rfl),
    rfl, rfl, fun h => by rw [h d (.head _)]⟩

theorem mwait (a : Opnd) : Statement (.mwait a) :=
  of_row fun l => ⟨⟨true, [a.code], .mwait (opndOf a.code l)⟩,
    (rowE (0xEA#8 ++ 0#8 ++ a.code ++ 0#8) 10 (by simp (disch := decide) only [field_hi, field_lo]; rfl)).trans (by change some (Row.mk _ _ _) = _; simp (disch := decide) only [field_hi, field_lo, field_all, Nat.reduceSub, Nat.sub_self]; rfl),
    rfl, rfl, fun h => by rw [h a (.head _)]⟩

theorem accz (a : Opnd) : Statement (.accz a) :=
  of_row fun l => ⟨⟨true, [a.code], .accz (opndOf a.code l)⟩,
    (rowE (0xEB#8 ++ 0#8 ++ a.code ++ 0#8) 11 (by simp (disch := decide) only [field_hi, field_lo]; rfl)).trans (by change some (Row.mk _ _ _) = _; simp (disch := decide) only [field_hi, field_lo, field_all, Nat.reduceSub, Nat.sub_self]; rfl),
    rfl, rfl, fun h => by rw [h a (.head _)]⟩

theorem accrd (d : Opnd) (a : Opnd) (k : BitVec 2) (m : BitVec 1) (f : BitVec 4) : Statement (.accrd d a k m f) :=
  of_row fun l => ⟨⟨true, [d.code, a.code], .accrd (opndOf d.code l) (opndOf a.code l) k m f⟩,
    (rowE (0xEC#8 ++ d.code ++ a.code ++ 0#1 ++ k ++ m ++ f) 12 (by simp (disch := decide) only [field_hi, field_lo]; rfl)).trans (by change some (Row.mk _ _ _) = _; simp (disch := decide) only [field_hi, field_lo, field_all, Nat.reduceSub, Nat.sub_self]; rfl),
    rfl, rfl, fun h => by rw [h d (.head _), h a (.tail _ (.head _))]⟩

theorem accld (d : Opnd) (a : Opnd) (f : BitVec 4) : Statement (.accld d a f) :=
  of_row fun l => ⟨⟨true, [d.code, a.code], .accld (opndOf d.code l) (opndOf a.code l) f⟩,
    (rowE (0xED#8 ++ d.code ++ a.code ++ 0#4 ++ f) 13 (by simp (disch := decide) only [field_hi, field_lo]; rfl)).trans (by change some (Row.mk _ _ _) = _; simp (disch := decide) only [field_hi, field_lo, field_all, Nat.reduceSub, Nat.sub_self]; rfl),
    rfl, rfl, fun h => by rw [h d (.head _), h a (.tail _ (.head _))]⟩

theorem freeze : Statement .freeze :=
  of_row fun l => ⟨⟨true, [], .freeze⟩,
    (rowF (0xF0#8 ++ 0#24) 0 (by simp (disch := decide) only [field_hi, field_lo]; rfl)).trans (by change some (Row.mk _ _ _) = _; simp (disch := decide) only [field_hi, field_lo, field_all, Nat.reduceSub, Nat.sub_self]; rfl),
    rfl, rfl, fun _ => rfl⟩

theorem sigchk (imm : W32) : Statement (.sigchk imm) :=
  of_row fun l => ⟨⟨true, [0xB2], .sigchk l⟩,
    (rowF (0xF1#8 ++ 0xb200#24) 1 (by simp (disch := decide) only [field_hi, field_lo]; rfl)).trans (by change some (Row.mk _ _ _) = _; simp (disch := decide) only [field_hi, field_lo, field_all, Nat.reduceSub, Nat.sub_self]; rfl),
    rfl, rfl, fun h => by rw [lit_of (h (.lit imm) (.head _))]⟩

theorem sigclr : Statement .sigclr :=
  of_row fun l => ⟨⟨true, [], .sigclr⟩,
    (rowF (0xF2#8 ++ 0#24) 2 (by simp (disch := decide) only [field_hi, field_lo]; rfl)).trans (by change some (Row.mk _ _ _) = _; simp (disch := decide) only [field_hi, field_lo, field_all, Nat.reduceSub, Nat.sub_self]; rfl),
    rfl, rfl, fun _ => rfl⟩

theorem snap : Statement .snap :=
  of_row fun l => ⟨⟨true, [], .snap⟩,
    (rowF (0xF3#8 ++ 0#24) 3 (by simp (disch := decide) only [field_hi, field_lo]; rfl)).trans (by change some (Row.mk _ _ _) = _; simp (disch := decide) only [field_hi, field_lo, field_all, Nat.reduceSub, Nat.sub_self]; rfl),
    rfl, rfl, fun _ => rfl⟩

theorem rft (s : BitVec 1) : Statement (.rft s) :=
  of_row fun l => ⟨⟨true, [], .rft s⟩,
    (rowF (0xF4#8 ++ 0#23 ++ s) 4 (by simp (disch := decide) only [field_hi, field_lo]; rfl)).trans (by change some (Row.mk _ _ _) = _; simp (disch := decide) only [field_hi, field_lo, field_all, Nat.reduceSub, Nat.sub_self]; rfl),
    rfl, rfl, fun _ => rfl⟩

theorem mfsr (d : Opnd) (n : BitVec 16) : Statement (.mfsr d n) :=
  of_row fun l => ⟨⟨true, [d.code], .mfsr (opndOf d.code l) n⟩,
    (rowF (0xF5#8 ++ d.code ++ n) 5 (by simp (disch := decide) only [field_hi, field_lo]; rfl)).trans (by change some (Row.mk _ _ _) = _; simp (disch := decide) only [field_hi, field_lo, field_all, Nat.reduceSub, Nat.sub_self]),
    rfl, rfl, fun h => by rw [h d (.head _)]⟩

theorem mtsr (d : Opnd) (n : BitVec 16) : Statement (.mtsr d n) :=
  of_row fun l => ⟨⟨true, [d.code], .mtsr (opndOf d.code l) n⟩,
    (rowF (0xF6#8 ++ d.code ++ n) 6 (by simp (disch := decide) only [field_hi, field_lo]; rfl)).trans (by change some (Row.mk _ _ _) = _; simp (disch := decide) only [field_hi, field_lo, field_all, Nat.reduceSub, Nat.sub_self]),
    rfl, rfl, fun h => by rw [h d (.head _)]⟩

theorem wdepth (d : Opnd) : Statement (.wdepth d) :=
  of_row fun l => ⟨⟨true, [d.code], .wdepth (opndOf d.code l)⟩,
    (rowF (0xF7#8 ++ d.code ++ 0#16) 7 (by simp (disch := decide) only [field_hi, field_lo]; rfl)).trans (by change some (Row.mk _ _ _) = _; simp (disch := decide) only [field_hi, field_lo, field_all, Nat.reduceSub, Nat.sub_self]; rfl),
    rfl, rfl, fun h => by rw [h d (.head _)]⟩

theorem wsync : Statement .wsync :=
  of_row fun l => ⟨⟨true, [], .wsync⟩,
    (rowF (0xF8#8 ++ 0#24) 8 (by simp (disch := decide) only [field_hi, field_lo]; rfl)).trans (by change some (Row.mk _ _ _) = _; simp (disch := decide) only [field_hi, field_lo, field_all, Nat.reduceSub, Nat.sub_self]; rfl),
    rfl, rfl, fun _ => rfl⟩

theorem free (d : Opnd) (a : Opnd) (b : Opnd) : Statement (.free d a b) :=
  of_row fun l => ⟨⟨true, [d.code, a.code, b.code], .free (opndOf d.code l) (opndOf a.code l) (opndOf b.code l)⟩,
    (rowF (0xF9#8 ++ d.code ++ a.code ++ b.code) 9 (by simp (disch := decide) only [field_hi, field_lo]; rfl)).trans (by change some (Row.mk _ _ _) = _; simp (disch := decide) only [field_hi, field_lo, field_all, Nat.reduceSub, Nat.sub_self]),
    rfl, rfl, fun h => by rw [h d (.head _), h a (.tail _ (.head _)), h b (.tail _ (.tail _ (.head _)))]⟩

theorem tlbi (a : Opnd) : Statement (.tlbi a) :=
  of_row fun l => ⟨⟨true, [a.code], .tlbi (opndOf a.code l)⟩,
    (rowF (0xFA#8 ++ 0#8 ++ a.code ++ 0#8) 10 (by simp (disch := decide) only [field_hi, field_lo]; rfl)).trans (by change some (Row.mk _ _ _) = _; simp (disch := decide) only [field_hi, field_lo, field_all, Nat.reduceSub, Nat.sub_self]; rfl),
    rfl, rfl, fun h => by rw [h a (.head _)]⟩

theorem halt : Statement .halt :=
  of_row fun l => ⟨⟨true, [], .halt⟩,
    (rowF (0xFB#8 ++ 0#24) 11 (by simp (disch := decide) only [field_hi, field_lo]; rfl)).trans (by change some (Row.mk _ _ _) = _; simp (disch := decide) only [field_hi, field_lo, field_all, Nat.reduceSub, Nat.sub_self]; rfl),
    rfl, rfl, fun _ => rfl⟩

theorem clauseFetch : Statement .clauseFetch := fun h => Bool.noConfusion (show false = true from h)

theorem atomWritePerformed (op : Nat) (atom : Nat) (es : List SymErr) : Statement (.atomWritePerformed op atom es) := fun h => Bool.noConfusion (show false = true from h)

theorem atomReadPerformed (op : Nat) (atom : Nat) (es : List SymErr) (ext : BitVec 256) : Statement (.atomReadPerformed op atom es ext) := fun h => Bool.noConfusion (show false = true from h)

theorem celogFilterClear (unit : Nat) : Statement (.celogFilterClear unit) := fun h => Bool.noConfusion (show false = true from h)

theorem scAccessResponse (op : Nat) : Statement (.scAccessResponse op) := fun h => Bool.noConfusion (show false = true from h)

theorem loadDataReturn (op : Nat) : Statement (.loadDataReturn op) := fun h => Bool.noConfusion (show false = true from h)

theorem atomicPerformed (op : Nat) (atom : Nat) (es : List SymErr) : Statement (.atomicPerformed op atom es) := fun h => Bool.noConfusion (show false = true from h)

theorem arithResultWritten (op : Nat) : Statement (.arithResultWritten op) := fun h => Bool.noConfusion (show false = true from h)

theorem pageWalkComplete (agent : Agent) (root : Nat) (va : W64) (es : List SymErr) : Statement (.pageWalkComplete agent root va es) := fun h => Bool.noConfusion (show false = true from h)

theorem tlbiComplete (op : Nat) : Statement (.tlbiComplete op) := fun h => Bool.noConfusion (show false = true from h)

theorem publicationOpen (launch : Nat) (vs : Nat) (w : W32) (pageSize : Nat) : Statement (.publicationOpen launch vs w pageSize) := fun h => Bool.noConfusion (show false = true from h)

theorem publicationFrameTaken (vs : Nat) (w : W32) : Statement (.publicationFrameTaken vs w) := fun h => Bool.noConfusion (show false = true from h)

theorem publicationClose (vs : Nat) (w : W32) : Statement (.publicationClose vs w) := fun h => Bool.noConfusion (show false = true from h)

theorem versionAdvanceComplete (vs : Nat) : Statement (.versionAdvanceComplete vs) := fun h => Bool.noConfusion (show false = true from h)

theorem versionWaitTimeout (p : Place) : Statement (.versionWaitTimeout p) := fun h => Bool.noConfusion (show false = true from h)

theorem acqrgTimeout (p : Place) : Statement (.acqrgTimeout p) := fun h => Bool.noConfusion (show false = true from h)

theorem relrgComplete (op : Nat) : Statement (.relrgComplete op) := fun h => Bool.noConfusion (show false = true from h)

theorem stmPerformed (at_ : StmAtom) : Statement (.stmPerformed at_) := fun h => Bool.noConfusion (show false = true from h)

theorem swaphSwap (launch : Nat) (inst : Nat) : Statement (.swaphSwap launch inst) := fun h => Bool.noConfusion (show false = true from h)

theorem swaphTimeout (launch : Nat) (inst : Nat) : Statement (.swaphTimeout launch inst) := fun h => Bool.noConfusion (show false = true from h)

theorem barTimeout (wg : Nat) (bar : Nat) : Statement (.barTimeout wg bar) := fun h => Bool.noConfusion (show false = true from h)

theorem monwaitTimeout (p : Place) : Statement (.monwaitTimeout p) := fun h => Bool.noConfusion (show false = true from h)

theorem copyStart (op : Nat) : Statement (.copyStart op) := fun h => Bool.noConfusion (show false = true from h)

theorem copyComplete (op : Nat) (es : List SymErr) : Statement (.copyComplete op es) := fun h => Bool.noConfusion (show false = true from h)

theorem copymSend (src : CopymSrc) : Statement (.copymSend src) := fun h => Bool.noConfusion (show false = true from h)

theorem copymReceiverAck (src : CopymOf) (idx : Nat) (reply : CopymReply) : Statement (.copymReceiverAck src idx reply) := fun h => Bool.noConfusion (show false = true from h)

theorem stashComplete (op : Nat) : Statement (.stashComplete op) := fun h => Bool.noConfusion (show false = true from h)

theorem storageSlotAssigned (op : Nat) : Statement (.storageSlotAssigned op) := fun h => Bool.noConfusion (show false = true from h)

theorem storageCompletion (qp : Nat) : Statement (.storageCompletion qp) := fun h => Bool.noConfusion (show false = true from h)

theorem storageCommandTimeout (op : Nat) : Statement (.storageCommandTimeout op) := fun h => Bool.noConfusion (show false = true from h)

theorem storageWindowAccess (kind : PcieKind) (off : Nat) (size : Nat) (data : Nat) : Statement (.storageWindowAccess kind off size data) := fun h => Bool.noConfusion (show false = true from h)

theorem watchPost (slot : Nat) : Statement (.watchPost slot) := fun h => Bool.noConfusion (show false = true from h)

theorem yieldcReactivate (p : Place) : Statement (.yieldcReactivate p) := fun h => Bool.noConfusion (show false = true from h)

theorem tailraceSpill (p : Place) (frame : Nat) : Statement (.tailraceSpill p frame) := fun h => Bool.noConfusion (show false = true from h)

theorem frameSpilled (p : Place) (frame : Nat) : Statement (.frameSpilled p frame) := fun h => Bool.noConfusion (show false = true from h)

theorem tailraceRefillComplete (p : Place) (es : List SymErr) : Statement (.tailraceRefillComplete p es) := fun h => Bool.noConfusion (show false = true from h)

theorem apertureAccess (op : Nat) (lane : Nat) : Statement (.apertureAccess op lane) := fun h => Bool.noConfusion (show false = true from h)

theorem apertureStoreDelivery (op : Nat) (lane : Nat) : Statement (.apertureStoreDelivery op lane) := fun h => Bool.noConfusion (show false = true from h)

theorem bandPark (core : Nat) (quad : Nat) : Statement (.bandPark core quad) := fun h => Bool.noConfusion (show false = true from h)

theorem bandRestore (core : Nat) (quad : Nat) : Statement (.bandRestore core quad) := fun h => Bool.noConfusion (show false = true from h)

theorem mmaExecuteComplete (op : Nat) (mismatch : Bool) : Statement (.mmaExecuteComplete op mismatch) := fun h => Bool.noConfusion (show false = true from h)

theorem mmaRerunComplete (op : Nat) (mismatch : Bool) : Statement (.mmaRerunComplete op mismatch) := fun h => Bool.noConfusion (show false = true from h)

theorem contributionArrival (src : ContribSrc) : Statement (.contributionArrival src) := fun h => Bool.noConfusion (show false = true from h)

theorem quorumTimerExpiry (key : StepKey) : Statement (.quorumTimerExpiry key) := fun h => Bool.noConfusion (show false = true from h)

theorem ownerAckArrival (op : Nat) (owner : Nat) (cls : AckClass) : Statement (.ownerAckArrival op owner cls) := fun h => Bool.noConfusion (show false = true from h)

theorem ringHop (m : RingMsg) : Statement (.ringHop m) := fun h => Bool.noConfusion (show false = true from h)

theorem scalarContributionArrival (src : ScalarSrc) : Statement (.scalarContributionArrival src) := fun h => Bool.noConfusion (show false = true from h)

theorem scalarTimerExpiry (lid : Nat) (pgrp : Nat) (step : W32) : Statement (.scalarTimerExpiry lid pgrp step) := fun h => Bool.noConfusion (show false = true from h)

theorem scalarResultArrival (r : ScalarResult) : Statement (.scalarResultArrival r) := fun h => Bool.noConfusion (show false = true from h)

theorem cscalResultTimeout (op : Nat) : Statement (.cscalResultTimeout op) := fun h => Bool.noConfusion (show false = true from h)

theorem stepClosedPoint (lid : Nat) (pgrp : Nat) (step : W32) : Statement (.stepClosedPoint lid pgrp step) := fun h => Bool.noConfusion (show false = true from h)

theorem normPartialArrival (m : NormMsg) : Statement (.normPartialArrival m) := fun h => Bool.noConfusion (show false = true from h)

theorem cagChunkArrival (src : CagSrc) : Statement (.cagChunkArrival src) := fun h => Bool.noConfusion (show false = true from h)

theorem cagDeviceDone (op : Nat) (pos : Nat) (out : CagOutcome) : Statement (.cagDeviceDone op pos out) := fun h => Bool.noConfusion (show false = true from h)

theorem heldMessageExpiry (idx : Nat) : Statement (.heldMessageExpiry idx) := fun h => Bool.noConfusion (show false = true from h)

theorem weirStepMessage (lid : Nat) (rank : Nat) (step : W32) : Statement (.weirStepMessage lid rank step) := fun h => Bool.noConfusion (show false = true from h)

theorem weirHeartbeat : Statement .weirHeartbeat := fun h => Bool.noConfusion (show false = true from h)

theorem podSummaryArrival (lid : Nat) (pod : Nat) (step : W32) : Statement (.podSummaryArrival lid pod step) := fun h => Bool.noConfusion (show false = true from h)

theorem weirSilenceTimeout (lid : Nat) (isPod : Bool) (who : Nat) : Statement (.weirSilenceTimeout lid isPod who) := fun h => Bool.noConfusion (show false = true from h)

theorem linkLaneChange (ethernet : Bool) (port : Nat) (lanes : Nat) : Statement (.linkLaneChange ethernet port lanes) := fun h => Bool.noConfusion (show false = true from h)

theorem peerUnreachable (lid : Nat) (dev : BitVec 21) : Statement (.peerUnreachable lid dev) := fun h => Bool.noConfusion (show false = true from h)

theorem queueDoorbell (queue : Nat) (tail : W16) : Statement (.queueDoorbell queue tail) := fun h => Bool.noConfusion (show false = true from h)

theorem launchDispatch (queue : Nat) : Statement (.launchDispatch queue) := fun h => Bool.noConfusion (show false = true from h)

theorem launchActivate (queue : Nat) : Statement (.launchActivate queue) := fun h => Bool.noConfusion (show false = true from h)

theorem workgroupPlace : Statement .workgroupPlace := fun h => Bool.noConfusion (show false = true from h)

theorem templateImageAck (launch : Nat) (inst : Nat) (core : Nat) : Statement (.templateImageAck launch inst core) := fun h => Bool.noConfusion (show false = true from h)

theorem preemptTimerExpiry (prio : Nat) : Statement (.preemptTimerExpiry prio) := fun h => Bool.noConfusion (show false = true from h)

theorem preemptSave (wg : Nat) : Statement (.preemptSave wg) := fun h => Bool.noConfusion (show false = true from h)

theorem workgroupResume (wg : Nat) : Statement (.workgroupResume wg) := fun h => Bool.noConfusion (show false = true from h)

theorem launchComplete (launch : Nat) : Statement (.launchComplete launch) := fun h => Bool.noConfusion (show false = true from h)

theorem eventRingCoalesceTimeout : Statement .eventRingCoalesceTimeout := fun h => Bool.noConfusion (show false = true from h)

theorem evrctlWrite (v : W64) : Statement (.evrctlWrite v) := fun h => Bool.noConfusion (show false = true from h)

theorem trapEntry (p : Place) : Statement (.trapEntry p) := fun h => Bool.noConfusion (show false = true from h)

theorem launchKill (launch : Nat) (cause : KillCause) : Statement (.launchKill launch cause) := fun h => Bool.noConfusion (show false = true from h)

theorem launchKillComplete (launch : Nat) : Statement (.launchKillComplete launch) := fun h => Bool.noConfusion (show false = true from h)

theorem writesetGranuleCopy (launch : Nat) (granule : Nat) : Statement (.writesetGranuleCopy launch granule) := fun h => Bool.noConfusion (show false = true from h)

theorem redundantCompare (launch : Nat) : Statement (.redundantCompare launch) := fun h => Bool.noConfusion (show false = true from h)

theorem snapshotPin : Statement .snapshotPin := fun h => Bool.noConfusion (show false = true from h)

theorem snapshotTimer : Statement .snapshotTimer := fun h => Bool.noConfusion (show false = true from h)

theorem snapshotReadoutComplete : Statement .snapshotReadoutComplete := fun h => Bool.noConfusion (show false = true from h)

theorem snapctlWrite (v : W64) : Statement (.snapctlWrite v) := fun h => Bool.noConfusion (show false = true from h)

theorem secregionWrite (num : Nat) (v : W64) (secure : Bool) : Statement (.secregionWrite num v secure) := fun h => Bool.noConfusion (show false = true from h)

theorem lsroleWrite (num : Nat) (v : W64) : Statement (.lsroleWrite num v) := fun h => Bool.noConfusion (show false = true from h)

theorem gclrWrite (v : W64) : Statement (.gclrWrite v) := fun h => Bool.noConfusion (show false = true from h)

theorem wmbaseWrite (v : W64) : Statement (.wmbaseWrite v) := fun h => Bool.noConfusion (show false = true from h)

theorem ueptabWrite (v : W64) : Statement (.ueptabWrite v) := fun h => Bool.noConfusion (show false = true from h)

theorem cwrldWrite (die : Nat) (v : W64) (secure : Bool) : Statement (.cwrldWrite die v secure) := fun h => Bool.noConfusion (show false = true from h)

theorem registerWrite (off : Nat) (v : W64) (secure : Bool) : Statement (.registerWrite off v secure) := fun h => Bool.noConfusion (show false = true from h)

theorem flmcmdNone (v : W64) : Statement (.flmcmdNone v) := fun h => Bool.noConfusion (show false = true from h)

theorem flmcmdCloseStep (v : W64) : Statement (.flmcmdCloseStep v) := fun h => Bool.noConfusion (show false = true from h)

theorem flmcmdDeclareSilent (v : W64) : Statement (.flmcmdDeclareSilent v) := fun h => Bool.noConfusion (show false = true from h)

theorem flmcmdRefused (v : W64) : Statement (.flmcmdRefused v) := fun h => Bool.noConfusion (show false = true from h)

theorem hcmdCancelLaunch : Statement .hcmdCancelLaunch := fun h => Bool.noConfusion (show false = true from h)

theorem hcmdCancelQueue : Statement .hcmdCancelQueue := fun h => Bool.noConfusion (show false = true from h)

theorem hcmdPreemptLaunch : Statement .hcmdPreemptLaunch := fun h => Bool.noConfusion (show false = true from h)

theorem hcmdResumeHalted : Statement .hcmdResumeHalted := fun h => Bool.noConfusion (show false = true from h)

theorem hcmdKillLaunch : Statement .hcmdKillLaunch := fun h => Bool.noConfusion (show false = true from h)

theorem hcmdResumeSuspended : Statement .hcmdResumeSuspended := fun h => Bool.noConfusion (show false = true from h)

theorem hcmdDeliverTrap : Statement .hcmdDeliverTrap := fun h => Bool.noConfusion (show false = true from h)

theorem hcmdMalformed : Statement .hcmdMalformed := fun h => Bool.noConfusion (show false = true from h)

theorem pcieInboundAccess (acc : PcieAccess) : Statement (.pcieInboundAccess acc) := fun h => Bool.noConfusion (show false = true from h)

theorem reset (flash : Option ImageCheck) : Statement (.reset flash) := fun h => Bool.noConfusion (show false = true from h)

theorem bootMailboxImage (check : ImageCheck) : Statement (.bootMailboxImage check) := fun h => Bool.noConfusion (show false = true from h)

theorem bringupComplete (r : Bringup) : Statement (.bringupComplete r) := fun h => Bool.noConfusion (show false = true from h)

theorem attestationRequest (nonce : BitVec 384) : Statement (.attestationRequest nonce) := fun h => Bool.noConfusion (show false = true from h)

theorem attestationReport : Statement .attestationReport := fun h => Bool.noConfusion (show false = true from h)

theorem thermalStateChange (tj : BitVec 8) : Statement (.thermalStateChange tj) := fun h => Bool.noConfusion (show false = true from h)

theorem powerTelemetryUpdate (pwr : BitVec 12) (thr : BitVec 10) (tj : BitVec 8) (tin : BitVec 8) : Statement (.powerTelemetryUpdate pwr thr tj tin) := fun h => Bool.noConfusion (show false = true from h)

end Sys2Proof.Laws.RoundTrip
end

