-- ==== Sys2Proof/Tests/Slice0.lean ====
section
/-! SUPPORT. The model's own tests: words of the spec's worked examples decoded, an ill-formed term for each check, one step of each kind on a
small state, and for each statement that has hypotheses a state that meets them. -/

set_option Elab.async false
set_option maxRecDepth 100000

namespace Sys2Proof.Tests

open Sys2Proof Sys2Proof.Machine Sys2Proof.Stated

/-! ## Decoding: the words are those that the entries' worked examples give, or are written out from R175 and the entries -/

/-- A memory operand of address register a, mode and index. -/
def memAt (a : BitVec 4) (m : AMode) (x : BitVec 6 := 0) (b : BitVec 3 := 0) : MemRef := ⟨a, m, b, x⟩

theorem test_decode_control :
    decodeTableWord 32 0x0A43FFF9 = some (.loop (.s 3) (BitVec.ofInt 16 (-7))) ∧ decodeTableWord 32 0x07100003 = some (.call 16 3) ∧
    decodeTableWord 32 0x08108F00 = some (.calli 16 (.a 7)) ∧ decodeTableWord 32 0x0D000000 = some .exit ∧
    decodeTableWord 32 0x0E000042 = some (.trap 0x42) ∧ decodeTableWord 32 0xF4000001 = some (.rft 1) := by decide +kernel

theorem test_decode_mask :
    decodeTableWord 32 0x1398989B = some (.mand (.m 0) (.m 0) (.m 3)) ∧ decodeTableWord 64 0x0000FFFF1B99B200 = some (.mseti (.m 1) 0x0000FFFF) ∧
    decodeTableWord 32 0x1A549800 = some (.mffs (.s 20) (.m 0)) ∧ decodeTableWord 32 0x100000A0 = some (.setmode 0xA0) ∧
    decodeTableWord 32 0x1F450012 = some (.sget (.s 5) 0x12) ∧ decodeTableWord 32 0x1E00003F = some (.fpsclr (.v 0) 0x3F) := by decide +kernel

theorem test_decode_scalar :
    decodeTableWord 32 0x204142D5 = some (.sadd (.s 1) (.s 2) (.int 21)) ∧ decodeTableWord 32 0x3344FFFE = some (.smovi (.s 4) (BitVec.ofInt 16 (-2))) ∧
    decodeTableWord 32 0x3C4343FF = some (.saddi (.s 3) (.s 3) (BitVec.ofInt 8 (-1))) ∧ decodeTableWord 32 0x3E8A8A47 = some (.aadd (.a 2) (.a 2) (.s 7)) ∧
    decodeTableWord 32 0x3FA98B48 = some (.bset (.b 1) (.a 3) (.s 8)) := by decide +kernel

theorem test_decode_vector :
    decodeTableWord 32 0x40010261 = some (.vadd (.v 1) (.v 2) (.s 33)) ∧ decodeTableWord 32 0x549A0506 = some (.vclt (.m 2) (.v 5) (.v 6)) ∧
    decodeTableWord 32 0x5C07D0D8 = some (.vidx (.v 7) (.int 16) (.int 24)) ∧ decodeTableWord 32 0x730A0468 = some (.ffma (.v 10) (.v 4) (.s 40)) ∧
    decodeTableWord 64 0x3FC000007207B0B2 = some (.fmul (.v 7) .lat (.lit 0x3FC00000)) ∧ decodeTableWord 32 0x8A0302DA = some (.cvt (.v 3) (.v 2) 0xD 0xA) ∧
    decodeTableWord 32 0x8E09086D = some (.scvt (.v 9) (.v 8) 3 0 0xD) ∧ decodeTableWord 32 0xA64A0102 = some (.vargmax (.s 10) (.v 1) (.v 2)) ∧
    decodeTableWord 32 0xA9141E03 = some (.vtopk (.v 20) (.v 30) 0 3) := by decide +kernel

theorem test_decode_memory :
    decodeTableWord 32 0xB2052200 = some (.ldv (.v 5) (memAt 2 .post)) ∧ decodeTableWord 32 0xBA042848 = some (.ldpar (.v 4) (memAt 2 .lanes 8 1)) ∧
    decodeTableWord 32 0xB4093807 = some (.ldl (.v 9) (memAt 3 .lanes 7)) ∧ decodeTableWord 32 0xB54A3609 = some (.stl (.s 10) (memAt 3 .idx 9)) ∧
    decodeTableWord 32 0xC4453000 = some (.ator (.s 5) (memAt 3 .base)) ∧ decodeTableWord 32 0xCE448E4C = some (.acqrg (.s 4) (.a 6) (.s 12)) ∧
    decodeTableWord 32 0xD14FD058 = some (.monwait (.s 15) 0 (.s 24)) := by decide +kernel

theorem test_decode_engines :
    decodeTableWord 32 0xD2003200 = some (.copy (memAt 3 .post)) ∧ decodeTableWord 32 0xD3004000 = some (.copym (memAt 4 .base)) ∧
    decodeTableWord 32 0xD5102000 = some (.stash (.v 16) (memAt 2 .base)) ∧ decodeTableWord 32 0xD800548E = some (.cscal (.s 20) (.a 6)) ∧
    decodeTableWord 32 0xDB454703 = some (.steprd (.s 5) (.s 7) 3) ∧ decodeTableWord 32 0xDC4AD007 = some (.gsget (.s 10) 0 0 7) ∧
    decodeTableWord 32 0xDD49D200 = some (.bar (.s 9) (.int 18) 0) := by decide +kernel

theorem test_decode_matrix :
    decodeTableWord 32 0xE0100010 = some (.blatch (.v 16) 0 1 0) ∧ decodeTableWord 32 0xE14A4B00 = some (.mmaE4m3 (.s 10) (.s 11) 0 0 0 0) ∧
    decodeTableWord 32 0xE9450000 = some (.mfence (.s 5)) ∧ decodeTableWord 32 0xEC104A19 = some (.accrd (.v 16) (.s 10) 0 1 9) := by decide +kernel

theorem test_decode_system :
    decodeTableWord 32 0xF5440080 = some (.mfsr (.s 4) 0x80) ∧ decodeTableWord 32 0xF9034CB1 = some (.free (.v 3) (.s 12) .zero) ∧
    decodeTableWord 32 0xFA004400 = some (.tlbi (.s 4)) ∧ decodeTableWord 32 0xFB000000 = some .halt ∧
    decodeTableWord 32 0xFC000FF0 = some (.clauseHeader 0 0xF 0xF 0) := by decide +kernel

/-- R177, R184: unassigned opcodes, a field that must be zero, a second literal, and a literal that is not there. -/
theorem test_decode_refuses :
    decode [0x60000000, 0] = .error .unassigned ∧ decode [0xFB000001, 0] = .error .fixedField ∧ decode [0x2041B2B2, 0] = .error .secondLiteral ∧
    decode [0x2041B241] = .error .missingLiteral ∧ decode [] = .error .noWord := by decide +kernel

/-! ## Well-formedness: one term that each check refuses -/

theorem test_wf_reserved : Instr.wellFormed (.sadd (.s 1) (.reserved 0xB4) (.s 2)) = false := by decide +kernel
theorem test_wf_literals : Instr.wellFormed (.vadd (.v 1) (.lit 1) (.lit 2)) = false := by decide +kernel
theorem test_wf_mode : Instr.wellFormed (.ldv (.v 1) (memAt 1 .reserved6)) = false ∧ Instr.wellFormed (.ldv (.v 1) (memAt 1 .base 1)) = false ∧
    Instr.wellFormed (.ldv (.v 1) (memAt 1 .postMod 1 2)) = false := by decide +kernel
theorem test_wf_control : Instr.wellFormed (.brz (.v 1) 0) = false ∧ Instr.wellFormed (.bzm (.s 1) 0) = false ∧ Instr.wellFormed (.loop (.a 1) 0) = false ∧
    Instr.wellFormed (.call 12 0) = false ∧ Instr.wellFormed (.call 56 0) = false ∧ Instr.wellFormed (.calli 16 (.v 0)) = false ∧
    Instr.wellFormed (.jmpi (.m 0)) = false := by decide +kernel
theorem test_wf_masks : Instr.wellFormed (.mand (.s 1) (.m 1) (.m 2)) = false ∧ Instr.wellFormed (.mand (.m 1) (.v 1) (.m 2)) = false ∧
    Instr.wellFormed (.mpopc (.s 1) (.s 2)) = false ∧ Instr.wellFormed (.mlane (.m 1) (.v 1)) = false ∧ Instr.wellFormed (.mmov (.v 1) (.m 1)) = false ∧
    Instr.wellFormed (.sget (.s 1) 0x0B) = false ∧ Instr.wellFormed (.fpsclr (.a 1) 0) = false ∧ Instr.wellFormed (.getmode (.v 1)) = false := by
  decide +kernel
theorem test_wf_scalar : Instr.wellFormed (.sadd (.v 1) (.s 1) (.s 2)) = false ∧ Instr.wellFormed (.sadd (.s 1) (.v 1) (.s 2)) = false ∧
    Instr.wellFormed (.sadd (.s 1) (.s 1) (.flt 0)) = false ∧ Instr.wellFormed (.amov (.v 1) (.s 1)) = false ∧
    Instr.wellFormed (.aadd (.a 1) (.int 3) (.s 2)) = false ∧ Instr.wellFormed (.bset (.a 1) (.s 1) (.s 2)) = false ∧
    Instr.wellFormed (.bset (.b 1) (.b 2) (.s 2)) = false := by decide +kernel
theorem test_wf_vector : Instr.wellFormed (.vadd (.s 1) (.v 1) (.v 2)) = false ∧ Instr.wellFormed (.vadd (.v 1) (.m 1) (.v 2)) = false ∧
    Instr.wellFormed (.vshl (.v 1) (.v 2) (.flt 1)) = false ∧ Instr.wellFormed (.vceq (.v 1) (.v 2) (.v 3)) = false ∧
    Instr.wellFormed (.vbcast (.v 1) (.s 1) (.s 2)) = false ∧ Instr.wellFormed (.frnd (.v 1) (.v 2) 0 6) = false ∧
    Instr.wellFormed (.vscan (.v 1) (.v 2) 0 3) = false ∧ Instr.wellFormed (.qpack (.v 63) (.v 1) 0 0) = false ∧
    Instr.wellFormed (.scvt (.v 1) (.v 2) 0 0 11) = false ∧ Instr.wellFormed (.vtopk (.v 63) (.v 0) 0 3) = false ∧
    Instr.wellFormed (.vargmax (.v 1) (.v 1) (.v 2)) = false ∧ Instr.wellFormed (.vdist (.v 1) (.v 57) 0 0 0 0) = false := by decide +kernel
theorem test_wf_memory : Instr.wellFormed (.lds (.v 1) (memAt 1 .base)) = false ∧ Instr.wellFormed (.lds (.s 1) (memAt 1 .lanes)) = false ∧
    Instr.wellFormed (.ldv (.s 1) (memAt 1 .base)) = false ∧ Instr.wellFormed (.stv (.s 1) (memAt 1 .base)) = false ∧
    Instr.wellFormed (.stm (.v 1) (memAt 1 .postMod)) = false ∧ Instr.wellFormed (.atadd (.o 1) (memAt 1 .base)) = false ∧
    Instr.wellFormed (.atcas (.v 1) (memAt 1 .base)) = false ∧ Instr.wellFormed (.ldpar (.v 1) (memAt 1 .idxMod)) = false ∧
    Instr.wellFormed (.monwait (.s 1) 0 (.s 5)) = false ∧ Instr.wellFormed (.acqrg (.v 1) (.a 1) (.s 1)) = false ∧
    Instr.wellFormed (.fencea (.v 1) (.s 1)) = false ∧ Instr.wellFormed (.monarm 0 (memAt 1 .lanes)) = false := by decide +kernel
theorem test_wf_engines : Instr.wellFormed (.copy (memAt 1 .lanes)) = false ∧ Instr.wellFormed (.stash (.s 1) (memAt 1 .base)) = false ∧
    Instr.wellFormed (.steprd (.s 1) (.s 2) 0) = false ∧ Instr.wellFormed (.steprd (.s 1) (.s 2) 5) = false ∧
    Instr.wellFormed (.gsget (.s 1) 0 0 0) = false ∧ Instr.wellFormed (.gsget (.s 2) 6 0 0) = false ∧ Instr.wellFormed (.bar (.v 1) (.s 1) 0) = false ∧
    Instr.wellFormed (.cscal (.v 1) (.a 1)) = false ∧ Instr.wellFormed (.watch (.v 1) (memAt 1 .base)) = false := by decide +kernel
theorem test_wf_matrix : Instr.wellFormed (.blatch (.v 60) 0 0 0) = false ∧ Instr.wellFormed (.blatch (.v 0) 0 0 9) = false ∧
    Instr.wellFormed (.blatch (.v 0) 1 0 4) = false ∧ Instr.wellFormed (.mmaBf16 (.s 1) (.s 2) 1 0 0 0) = false ∧
    Instr.wellFormed (.mmaE4m3 (.a 1) (.s 2) 0 0 0 0) = false ∧ Instr.wellFormed (.accrd (.v 60) (.s 1) 0 0 10) = false ∧
    Instr.wellFormed (.accld (.s 1) (.v 0) 0) = false ∧ Instr.wellFormed (.mwait (.v 1)) = false ∧ Instr.wellFormed (.accz (.a 1)) = false := by
  decide +kernel
theorem test_wf_system : Instr.wellFormed (.mfsr (.v 1) 0) = false ∧ Instr.wellFormed (.mtsr (.a 1) 0) = false ∧ Instr.wellFormed (.free (.a 1) .zero .zero) = false ∧
    Instr.wellFormed (.tlbi (.v 1)) = false ∧ Instr.wellFormed (.wdepth (.a 1)) = false := by decide +kernel

/-! ## One step on small states -/

def p0 : Place := ⟨0, 0, 0⟩

/-- A launch, a workgroup and a band of it at core 0, quadrant 0, slot 0. -/
def staged : State := State.reset.stage p0
def band0 : Band := mkBand 2 p0 0 1 0 0 0 true 0

/-- The band before the first of some words of a clause that ends with them. -/
def bandOn (ws : List W32) : Band := { band0 with clause := some ⟨0xFC000FF0, ws⟩, pc := 4 }

/-- A state with that band alone. -/
def onB (b : Band) (s : State) : State := { s with bands := [b] }

/-- What a step gives, read through a function. -/
def after (s : State) {α : Type} (f : State → α) : Option α := match step s with | .next t => some (f t) | _ => none

def scalarOf (n : Nat) (s : State) : Option W64 := (s.bandAt p0).map fun b => (b.sName n).val
def pcOf (s : State) : Option W64 := (s.bandAt p0).map Band.pc
def laneOf (n l : Nat) (s : State) : Option W32 := (s.bandAt p0).map fun b => (b.vName n).val.lane l

def fetched (nbits w : Nat) : State := State.reset.withFetchWord nbits w

/-- R288: SADD s1, s2, 5 with s2 = 0 (the constant 5 is code 0xD5). -/
theorem test_sadd : after (fetched 32 0x204142D5) (scalarOf 1) = some (some 5) := by decide +kernel
theorem test_nop_advances : after (fetched 32 0) pcOf = some (some 8) := by decide +kernel
/-- R291: SMOVI s4, -2. -/
theorem test_smovi : after (fetched 32 0x3344FFFE) (scalarOf 4) = some (some 0xFFFFFFFFFFFFFFFE) := by decide +kernel
/-- R291: SADDI s3, s3, -1 with s3 = 0 wraps. -/
theorem test_saddi_wraps : after (fetched 32 0x3C4343FF) (scalarOf 3) = some (some 0xFFFFFFFFFFFFFFFF) := by decide +kernel
/-- R300: LOOP s3 with s3 = 0 leaves all ones and is taken: word offset -7 from the word after it, modulo 2^57. -/
theorem test_loop_zero : after (fetched 32 0x0A43FFF9) (fun s => (scalarOf 3 s, pcOf s)) = some (some 0xFFFFFFFFFFFFFFFF, some (va57 (0#64 - 20))) := by
  decide +kernel
/-- R289: SDIV s1, s1, s2 by zero starts an operation with all ones; its name awaits it. -/
theorem test_sdiv_zero : after (fetched 32 0x25414142) (fun s => s.ops.map Op.kind) = some [.arith .tagS (.scalar 0xFFFFFFFFFFFFFFFF) 0] := by
  decide +kernel
/-- R294: MFFS s20, m0: the lowest enabled lane of a new band is 0. -/
theorem test_mffs : after (fetched 32 0x1A549800) (scalarOf 20) = some (some 0) := by decide +kernel
/-- R296: SETMODE 0x00A0 sets TYPE to f32. -/
theorem test_setmode : after (fetched 32 0x100000A0) (fun s => (s.bandAt p0).map Band.typ) = some (some 10) := by decide +kernel
/-- R222: VADD v1, v2, s33 with zeros writes zeros; VIDX v7, 0, 8 writes 8 i, its constants being codes 0xD0 and 0xD8. -/
theorem test_vidx : after (fetched 32 0x5C07D0D8) (laneOf 7 3) = some (some 24) := by decide +kernel
/-- R148: FMUL v7, lat, 1.5 traps where lat is not valid; with no handler the launch is killed. -/
theorem test_lat_invalid : after (fetched 64 0x3FC000007207B0B2) (fun s => s.launches.map fun l => l.kills.length) = some [1] := by decide +kernel
/-- R309: HALT. -/
theorem test_halt : after (fetched 32 0xFB000000) (fun s => (s.bandAt p0).map Band.halted) = some (some true) := by decide +kernel
/-- R306: EXIT ends the band. -/
theorem test_exit : after (fetched 32 0x0D000000) (fun s => s.bands.length) = some 0 := by decide +kernel
/-- R177: a word with an unassigned opcode takes the illegal-instruction trap; with no handler the launch is killed. -/
theorem test_unassigned : after (fetched 32 0x60000000) (fun s => s.launches.map Launch.kills) = some [[.trap 1 false]] := by decide +kernel
/-- R298: SGET s5, lvl2 of a band of one level. -/
theorem test_sget : after (fetched 32 0x1F450012) (scalarOf 5) = some (some 0) := by decide +kernel
/-- R315: MFSR s4, 0x80 reads ROOT0. -/
theorem test_mfsr : after (fetched 32 0xF5440080) (scalarOf 4) = some (some 0) := by decide +kernel
/-- R35: 1.5 - 0.75 in an accumulator. -/
theorem test_x320 : (let a := x320Add 0 0 1 (.fin false 3 (-1)); (x320Add a.1 a.2 1 (.fin true 3 (-2))).1) = 3 * 2 ^ 155 := by decide +kernel
/-- R38: the keys that the rule lists. -/
theorem test_fkey : fkey f32 0xFF800000 = 0x7FFFFF ∧ fkey f32 0x80000000 = 0x7FFFFFFF ∧ fkey f32 0 = 0x80000000 ∧ fkey f32 0x7F800000 = 0xFF800000 ∧
    fkey f32 0x7FC00001 = 0xFFFFFFFF := by decide +kernel
/-- R40: an address of the fourth stack keeps its offset within 256 bytes. -/
theorem test_hbm_offset : (hbmChannel 32 0x12345678).2 % 256 = 0x78 := by decide +kernel
/-- R407: the report is asked for by the word 1 at 0xFFF8 of the mailbox. -/
theorem test_mailbox : (State.reset.devStore [(0x30000, 7)] false).mailbox = [(0, 7)] := by decide +kernel

/-! ## Witnesses: states that meet the hypotheses of the statements -/

def standsB (i : Instr) (b : Band) (s : State) : Bool :=
  (!Instr.isControl i || b.lastWord (len i)) && (!Instr.isPrivileged i || b.privileged) && i.wellFormed && b.canIssue && decide (s.cur = b.place) && decide (s.upset = 0)

theorem stands {i : Instr} {b : Band} {s : State} (h : standsB i b (onB b s) = true) : Stands i b (onB b s) := by
  simp only [standsB, Bool.and_eq_true, Bool.or_eq_true, Bool.not_eq_true', decide_eq_true_eq] at h
  obtain ⟨⟨⟨⟨⟨h1, h2⟩, h3⟩, h4⟩, h5⟩, h6⟩ := h
  refine ⟨⟨fun hc => ?_, fun hp => ?_, h3⟩, ?_, h4, h6⟩
  · simpa [hc] using h1
  · simpa [hp] using h2
  · simp [State.bandAt, onB, ← h5] at h5 ⊢

def isOk {ε α : Type} : Except ε α → Bool
  | .ok _ => true
  | .error _ => false

theorem okEx {ε α : Type} {e : Except ε α} (h : isOk e = true) : ∃ x, e = .ok x := by
  cases e with
  | ok x => exact ⟨x, rfl⟩
  | error _ => simp [isOk] at h

def allLanes : W32 := ~~~ 0#32

/-- The first 128 MiB of memory, 64 GiB being populated, mapped to itself for the core's bands with every permission, and a header at 64. -/
def mapped : State := { staged with
  regs := [(numOff 0x2002, 32)]
  mem := Mem.writeBytes [] 64 [0xF0, 0x0F, 0, 0xFC]
  tlb := [Agent.quad 0 0, .core 0, .copy 0, .tailrace 0 0, .prism 0, .flume 0].map fun a => ⟨a, 0, false, 0, 15, 0x00F000000000001F, none⟩ }

def b0 : Band := bandOn [0]
def s0 : State := onB b0 mapped
/-- The same band with something changed. -/
def sB (b : Band) : State := onB b mapped

/-- With no lane enabled. -/
def bOff : Band := { b0 with m := b0.m.set 0 0 }

theorem witness_scalar_word_results :
    (Stands (.sadd (.s 1) (.s 2) (.int 21)) b0 s0 ∧ (acting b0 s0).scalarSrc b0 true (.s 2) = .ok 0 ∧
      (acting b0 s0).scalarSrc b0 true (.int 21) = .ok 5 ∧ (acting b0 s0).lanesOf b0 = .ok allLanes ∧ putReady b0 (.s 1) (acting b0 s0) = true) ∧
    (Stands (.aadd (.a 1) (.a 1) (.s 2)) bOff (sB bOff) ∧
      (acting bOff (sB bOff)).lanesOf bOff = .ok 0) ∧
    (Stands (.sbfi (.s 1) (.s 2) (.s 3)) b0 s0 ∧ ScalarImm (.sbfi (.s 1) (.s 2) (.s 3)) b0 (acting b0 s0) (.s 1) (sbfiOf 0 0 (fld 0#64 5 0) (fld 0#64 14 8))) ∧
    (Stands (.sdiv (.s 1) (.s 2) (.s 3)) b0 s0 ∧ flagFree b0 true = true ∧ (acting b0 s0).canAlloc b0 0 1 = true) ∧
    (Stands (.bset (.b 0) (.b 1) (.v 0)) b0 s0 ∧ ((0 : W64), (0 : W64)) = b0.b.toArray.getD 1 (0, 0)) ∧
    (Stands (.bset (.b 0) (.a 1) (.s 1)) b0 s0 ∧ (acting b0 s0).scalarSrc b0 false (.a 1) = .ok 0 ∧
      (acting b0 s0).scalarSrc b0 false (.s 1) = .ok 0) :=
  ⟨⟨stands (by decide +kernel), by decide +kernel, by decide +kernel, by decide +kernel, by decide +kernel⟩,
    ⟨stands (by decide +kernel), by decide +kernel⟩,
    ⟨stands (by decide +kernel), .sbfi _ _ _ b0 _ 0 0 0 (by decide +kernel) (by decide +kernel) (by decide +kernel)⟩,
    ⟨stands (by decide +kernel), by decide +kernel, by decide +kernel⟩, ⟨stands (by decide +kernel), by decide +kernel⟩,
    ⟨stands (by decide +kernel), by decide +kernel, by decide +kernel⟩⟩

theorem witness_mask_and_mode_word_results :
    (Stands (.mand (.m 1) (.m 0) (.m 2)) b0 s0 ∧ MaskWord (.mand (.m 1) (.m 0) (.m 2)) b0 (acting b0 s0) 1 0 ∧
      (acting b0 s0).regPending b0 none none (some 1) = false) ∧
    (Stands (.mpopc (.s 1) (.m 0)) b0 s0 ∧ (acting b0 s0).maskSrc b0 (.m 0) = .ok allLanes ∧ putReady b0 (.s 1) (acting b0 s0) = true) ∧
    (Stands (.fpsget (.s 1)) b0 s0 ∧ (acting b0 s0).arithDone b0 = true ∧ putReady b0 (.s 1) (acting b0 s0) = true) ∧
    (Stands (.setmode 0xA0) b0 s0 ∧ modeRefused 0xA0 = false) ∧ (Stands (.setmode 0xE0) b0 s0 ∧ modeRefused 0xE0 = true) ∧
    (Stands (.fpsclr (.s 1) 1) b0 s0 ∧ b0.readS 1 = .ok 0) ∧ (Stands .wsync b0 s0 ∧ b0.transferring = false ∧ b0.winFault = none) ∧
    (Stands (.sigchk 0) b0 s0 ∧ b0.sig = 0) ∧ Stands (.free (.v 1) .zero (.s 2)) b0 s0 ∧ Stands .halt b0 s0 :=
  ⟨⟨stands (by decide +kernel), .mand 1 (.m 0) (.m 2) b0 _ allLanes 0 (by decide +kernel) (by decide +kernel), by decide +kernel⟩,
    ⟨stands (by decide +kernel), by decide +kernel, by decide +kernel⟩, ⟨stands (by decide +kernel), by decide +kernel, by decide +kernel⟩,
    ⟨stands (by decide +kernel), by decide +kernel⟩, ⟨stands (by decide +kernel), by decide +kernel⟩,
    ⟨stands (by decide +kernel), by decide +kernel⟩, ⟨stands (by decide +kernel), by decide +kernel, by decide +kernel⟩,
    ⟨stands (by decide +kernel), by decide +kernel⟩, stands (by decide +kernel), stands (by decide +kernel)⟩

/-- s1 holds 1. -/
def b1 : Band := { b0 with s := b0.s.set 1 (.ofVal 1), a := b0.a.set 1 64 }

theorem witness_branch_and_loop_results :
    (Stands (.brz (.s 2) 14) b1 (sB b1) ∧ Branch (.brz (.s 2) 14) b1 (acting b1 (sB b1)) 14 true ∧
      (acting b1 (sB b1)).notHeader b1 (targetOf b1 14) = false) ∧
    (Stands (.brz (.s 1) 0) b1 (sB b1) ∧ Branch (.brz (.s 1) 0) b1 (acting b1 (sB b1)) 0 false) ∧
    (Stands (.br 0) b1 (sB b1) ∧ Branch (.br 0) b1 (acting b1 (sB b1)) 0 true ∧ (acting b1 (sB b1)).notHeader b1 (targetOf b1 0) = true) ∧
    (Stands (.loop (.s 1) 14) b1 (sB b1) ∧ b1.readS 1 = .ok 1 ∧ (acting b1 (sB b1)).canAlloc b1 0 1 = true) ∧
    (Stands (.loop (.s 2) 14) b1 (sB b1) ∧ b1.readS 2 = .ok 0 ∧ (acting b1 (sB b1)).notHeader b1 (targetOf b1 14) = false) :=
  ⟨⟨stands (by decide +kernel), .brz (.s 2) 14 b1 _ 0 (by decide +kernel), by decide +kernel⟩,
    ⟨stands (by decide +kernel), .brz (.s 1) 0 b1 _ 1 (by decide +kernel)⟩, ⟨stands (by decide +kernel), .br 0 b1 _, by decide +kernel⟩,
    ⟨stands (by decide +kernel), by decide +kernel, by decide +kernel⟩, ⟨stands (by decide +kernel), by decide +kernel, by decide +kernel⟩⟩

/-- A frame to return to, and no room for another but the first in the spill area. -/
def fr0 : Frame := ⟨64, 16, List.replicate 16 VName.zero, List.replicate 8 SName.zero, .resident⟩
def b2 : Band := { b1 with frames := List.replicate 7 fr0 }

theorem witness_call_and_return_results :
    (Stands (.call 16 14) b1 (sB b1) ∧ Call (.call 16 14) b1 (acting b1 (sB b1)) 16 64 ∧ (b1.depth + 2) * 8192 ≤ (acting b1 (sB b1)).spillSize b1) ∧
    (Stands (.calli 48 (.a 1)) b1 (sB b1) ∧ Call (.calli 48 (.a 1)) b1 (acting b1 (sB b1)) 48 64) ∧
    (Stands (.call 16 14) b2 (sB b2) ∧ Call (.call 16 14) b2 (acting b2 (sB b2)) 16 64 ∧
      (acting b2 (sB b2)).spillSize b2 < (b2.depth + 2) * 8192) ∧
    (Stands .ret b2 (sB b2) ∧ b2.frames = fr0 :: List.replicate 6 fr0 ∧ (acting b2 (sB b2)).notHeader b2 (va57 fr0.retpc) = false) ∧
    (Stands .ret b1 (sB b1) ∧ b1.frames = []) ∧
    (Stands (.jmpi (.a 1)) b1 (sB b1) ∧ (acting b1 (sB b1)).testReg b1 (.a 1) = .ok 64 ∧ (acting b1 (sB b1)).notHeader b1 (va57 64) = false) ∧
    (Stands (.jmpi (.s 1)) b1 (sB b1) ∧ (acting b1 (sB b1)).testReg b1 (.s 1) = .ok 1) :=
  ⟨⟨stands (by decide +kernel), .call 16 14 b1 _ (by decide +kernel), by decide +kernel⟩,
    ⟨stands (by decide +kernel), .calli 48 (.a 1) b1 _ 64 (by decide +kernel) (by decide +kernel) (by decide +kernel) (by decide +kernel)⟩,
    ⟨stands (by decide +kernel), .call 16 14 b2 _ (by decide +kernel), by decide +kernel⟩,
    ⟨stands (by decide +kernel), by decide +kernel, by decide +kernel⟩, ⟨stands (by decide +kernel), by decide +kernel⟩,
    ⟨stands (by decide +kernel), by decide +kernel, by decide +kernel⟩, ⟨stands (by decide +kernel), by decide +kernel⟩⟩

/-- A handler table at 512 whose software trap goes to the header at 64. -/
def handled : State := { mapped with
  regs := [(numOff 0x800, 0x8000000000000200), (numOff 0x2002, 32)]
  mem := Mem.writeBytes mapped.mem 0x380 [64, 0, 0, 0, 0, 0, 0, 0x80] }
def sH (b : Band) : State := onB b handled
def trap30 : Trap := b0.trapAt true 1 0x30 0 7 0
/-- Host-assisted mode. -/
def assisted : State := { s0 with regs := [(numOff 0x844, 0xC000000000000000), (numOff 0x2002, 32)] }
def bHandler : Band := { b0 with inHandler := true }
def bWait : Band := { b0 with wait := some .entryRegs, trap := some trap30 }

theorem witness_trap_entry :
    ((sH b0).launch? 0 = some (mkLaunch 0 0 plainRec 0 none 0) ∧ b0.inHandler = false ∧ trap30.code ≠ 0x28 ∧ trap30.code ≠ 0x29 ∧
      (sH b0).hostAssisted trap30.code.toNat = false ∧ (sH b0).handler b0 trap30.code.toNat = .entry 64 false ∧ (sH b0).canAlloc b0 1 8 = true) ∧
    (s0.launch? 0 = some (mkLaunch 0 0 plainRec 0 none 0) ∧ s0.hostAssisted 0x30 = false ∧ s0.handler b0 0x30 = .absent) ∧ bHandler.inHandler = true ∧
    ((b0.trapAt false 1 0x28 0 0 0).code = 0x28) ∧
    (assisted.launch? b0.launch = some (mkLaunch 0 0 plainRec 0 none 0) ∧ (assisted.num 0x844).getLsbD 63 = true ∧
      (assisted.num 0x844).getLsbD 62 = true) ∧
    ((sB bWait).bandAt p0 = some bWait ∧ bWait.wait = some .entryRegs ∧ bWait.trap = some trap30 ∧ bWait.parked = false ∧ bWait.stopping = false) := by
  decide +kernel

/-- An error has arisen in bit 3 of the shadow unit. -/
def upsetS : State := { s0 with upset := 8 }

theorem witness_mask_check_kills :
    Legal (.mseti (.m 0) 5) b0 ∧ upsetS.bandAt upsetS.cur = some b0 ∧ b0.canIssue = true ∧ upsetS.launch? 0 = some (mkLaunch 0 0 plainRec 0 none 0) ∧
    (mkLaunch 0 0 plainRec 0 none 0).kills = [] ∧ b0.inHandler = false ∧ (acting b0 upsetS).regPending b0 none none (some 0) = false ∧
    (5#32).toNat % 255 ≠ (5#32 ^^^ upsetS.upset).toNat % 255 :=
  ⟨⟨nofun, nofun, by decide +kernel⟩, by decide +kernel⟩

theorem witness_word_checks :
    Instr.hasWord .exit = true ∧ State.reset.bandAt State.reset.cur = none ∧
    (s0.bandAt s0.cur = some b0 ∧ b0.canIssue = true) ∧ bWait.canIssue = false ∧
    (Instr.isControl .exit = true ∧ (bandOn [0, 0]).lastWord (len .exit) = false) ∧
    (Instr.isPrivileged (.mtsr (.s 1) 0) = true ∧ ({ b0 with privileged := false } : Band).privileged = false ∧ Instr.isControl (.mtsr (.s 1) 0) = false) ∧
    Instr.wellFormed (.sadd (.v 1) (.s 1) (.s 2)) = false := by decide +kernel

theorem witness_software_trap : Stands (.trap 7) b0 s0 := stands (by decide +kernel)

/-- In a handler that a trap at the word at 68 of the clause at 64 entered. -/
def bRft : Band := { b0 with
  inHandler := true, frames := [fr0], v := b0.v.set 63 ⟨VReg.zero, .priv, none⟩
  s := ((b0.s.set 25 (.ofVal 68)).set 28 (.ofVal 64)).set 29 (.ofVal 72) }
/-- The same with a place to skip to in that clause, and at the clause's header. -/
def bRftS : Band := { bRft with s := bRft.s.set 29 (.ofVal 68) }
def bRftH : Band := { bRft with s := (bRft.s.set 24 (.ofVal 0x4000)).set 25 (.ofVal 64) }

theorem witness_return_from_trap :
    (Stands (.rft 0) bRft (sB bRft) ∧ (acting bRft (sB bRft)).launch? 0 = some (mkLaunch 0 0 plainRec 0 none 0) ∧ bRft.readS 24 = .ok 0 ∧
      bRft.readS 25 = .ok 68 ∧ bRft.readS 28 = .ok 64 ∧ bRft.readS 30 = .ok 0 ∧ bRft.readS 31 = .ok 0 ∧ bRft.readV 63 = .ok VReg.zero ∧
      (acting bRft (sB bRft)).regPending bRft none none (some 0) = false ∧ bRft.frames = [fr0] ∧ fr0.loc = .resident ∧ modeRefused 0 = false ∧
      (acting bRft (sB bRft)).refetch bRft 64 = .clause ⟨0xFC000FF0, [0]⟩ ∧ (Refetched.clause ⟨0xFC000FF0, [0]⟩).hasWord 64 68 = true) ∧
    (Stands (.rft 1) bRft (sB bRft) ∧ bRft.readS 29 = .ok 72 ∧ (Refetched.clause ⟨0xFC000FF0, [0]⟩).holds 64 72 = false) ∧
    (Stands (.rft 1) bRftS (sB bRftS) ∧ bRftS.readS 29 = .ok 68 ∧ (Refetched.clause ⟨0xFC000FF0, [0]⟩).holds 64 68 = true) ∧
    (Stands (.rft 0) bRftH (sB bRftH) ∧ bRftH.readS 24 = .ok 0x4000 ∧ bRftH.readS 25 = .ok 64 ∧ bRftH.readS 28 = .ok 64) :=
  ⟨⟨stands (by decide +kernel), by decide +kernel⟩, ⟨stands (by decide +kernel), by decide +kernel⟩,
    ⟨stands (by decide +kernel), by decide +kernel⟩, ⟨stands (by decide +kernel), by decide +kernel⟩⟩

/-- MODE with TYPE f32, and with TYPE s32. -/
def bF : Band := { b0 with mode := 0xA0 }
def bI : Band := { b0 with mode := 0x60 }

theorem witness_vector_word_results :
    (∃ g, LaneWord (.vadd (.v 1) (.v 2) (.s 33)) b0 (acting b0 s0) (.v 1) g ∧ Stands (.vadd (.v 1) (.v 2) (.s 33)) b0 s0 ∧
      (acting b0 s0).lanesOf b0 = .ok allLanes ∧ vputReady b0 b0.typ (.v 1) allLanes (acting b0 s0) = true ∧
      wholeThere b0 b0.typ (.v 1) allLanes (acting b0 s0) = true) ∧
    (∃ g, LaneWord (.vmad (.o 1) (.v 2) (.v 3)) b0 (acting b0 s0) (.o 1) g ∧ vputReady b0 b0.typ (.o 1) allLanes (acting b0 s0) = true) ∧
    (∃ g, LaneWord (.vdot4 (.v 1) (.v 2) (.v 3)) bI (acting bI (sB bI)) (.v 1) g ∧ Stands (.vdot4 (.v 1) (.v 2) (.v 3)) bI (sB bI)) ∧
    (∃ g, LaneWord (.fkey (.v 1) (.v 2)) bF (acting bF (sB bF)) (.v 1) g ∧ Stands (.fkey (.v 1) (.v 2)) bF (sB bF)) ∧
    (∃ g, LaneWord (.vshl (.v 1) (.v 2) (.v 3)) b0 (acting b0 s0) (.v 1) g ∧ Stands (.vshl (.v 1) (.v 2) (.v 3)) b0 s0) ∧
    (∃ x y, Stands (.vsel (.v 1) (.v 2) (.v 3)) b0 s0 ∧ (acting b0 s0).lanesSrc b0 b0.typ (.v 2) = .ok x ∧
      (acting b0 s0).lanesSrc b0 b0.typ (.v 3) = .ok y ∧ vputReady b0 b0.typ (.v 1) (~~~ 0#32) (acting b0 s0) = true) ∧
    (∃ x y, Stands (.vclt (.m 2) (.v 5) (.v 6)) b0 s0 ∧ (acting b0 s0).lanesSrc b0 b0.typ (.v 5) = .ok x ∧
      (acting b0 s0).lanesSrc b0 b0.typ (.v 6) = .ok y ∧ (acting b0 s0).readM b0 2 = .ok 0 ∧ b0.typ < 8) ∧
    (∃ x, Stands (.fcle (.m 2) (.v 5) (.v 6)) bF (sB bF) ∧ (acting bF (sB bF)).lanesSrc bF bF.typ (.v 5) = .ok x ∧ 8 ≤ bF.typ ∧
      fmtOf bF.typ = some f32) := by
  obtain ⟨x2, h2⟩ := okEx (e := (acting b0 s0).lanesSrc b0 b0.typ (.v 2)) (by decide +kernel)
  obtain ⟨x3, h3⟩ := okEx (e := (acting b0 s0).lanesSrc b0 b0.typ (.v 3)) (by decide +kernel)
  obtain ⟨c3, k3⟩ := okEx (e := (acting b0 s0).countSrc b0 b0.typ (.v 3)) (by decide +kernel)
  obtain ⟨x5, h5⟩ := okEx (e := (acting b0 s0).lanesSrc b0 b0.typ (.v 5)) (by decide +kernel)
  obtain ⟨x6, h6⟩ := okEx (e := (acting b0 s0).lanesSrc b0 b0.typ (.v 6)) (by decide +kernel)
  obtain ⟨xs, hs⟩ := okEx (e := (acting b0 s0).lanesSrc b0 b0.typ (.s 33)) (by decide +kernel)
  obtain ⟨xo, ho⟩ := okEx (e := (acting b0 s0).lanesSrc b0 b0.typ (.o 1)) (by decide +kernel)
  obtain ⟨i1, j1⟩ := okEx (e := (acting bI (sB bI)).lanesSrc bI bI.typ (.v 1)) (by decide +kernel)
  obtain ⟨i2, j2⟩ := okEx (e := (acting bI (sB bI)).lanesSrc bI bI.typ (.v 2)) (by decide +kernel)
  obtain ⟨i3, j3⟩ := okEx (e := (acting bI (sB bI)).lanesSrc bI bI.typ (.v 3)) (by decide +kernel)
  obtain ⟨f2, l2⟩ := okEx (e := (acting bF (sB bF)).lanesSrc bF bF.typ (.v 2)) (by decide +kernel)
  obtain ⟨f5, l5⟩ := okEx (e := (acting bF (sB bF)).lanesSrc bF bF.typ (.v 5)) (by decide +kernel)
  exact ⟨⟨_, .two _ _ _ _ _ _ _ _ x2 xs rfl (fun _ => by decide +kernel) h2 hs, stands (by decide +kernel), by decide +kernel, by decide +kernel, by decide +kernel⟩,
    ⟨_, .vmad _ _ _ _ _ x2 x3 xo (by decide +kernel) h2 h3 ho, by decide +kernel⟩,
    ⟨_, .vdot4 _ _ _ _ _ i2 i3 i1 (by decide +kernel) j2 j3 j1, stands (by decide +kernel)⟩,
    ⟨_, .bits _ _ _ _ _ _ _ f32 f2 rfl (by decide +kernel) (by decide +kernel) (by decide +kernel) l2, stands (by decide +kernel)⟩,
    ⟨_, .shift _ _ _ _ _ _ _ x2 c3 rfl (by decide +kernel) h2 k3, stands (by decide +kernel)⟩,
    ⟨x2, x3, stands (by decide +kernel), h2, h3, by decide +kernel⟩, ⟨x5, x6, stands (by decide +kernel), h5, h6, by decide +kernel, by decide +kernel⟩,
    ⟨f5, stands (by decide +kernel), l5, by decide +kernel, by decide +kernel⟩⟩

theorem witness_float_results :
    (∃ g, FloatWord (.fadd (.v 1) (.v 2) (.v 3)) bF (acting bF (sB bF)) 10 (.v 1) .alu 0 g ∧ Stands (.fadd (.v 1) (.v 2) (.v 3)) bF (sB bF) ∧
      (acting bF (sB bF)).lanesOf bF = .ok allLanes ∧ vputReady bF 10 (.v 1) allLanes (acting bF (sB bF)) = true ∧
      wholeThere bF 10 (.v 1) allLanes (acting bF (sB bF)) = true) ∧
    (∃ g, FloatWord (.fsqrt (.v 1) (.v 2)) bF (acting bF (sB bF)) 10 (.v 1) .arith 0 g ∧ Stands (.fsqrt (.v 1) (.v 2)) bF (sB bF) ∧
      flagFree bF true = true) ∧
    (∃ g, FloatWord (.ffma (.v 1) (.v 2) (.v 3)) bF (acting bF (sB bF)) 10 (.v 1) .alu 0 g) ∧
    (∃ g, FloatWord (.fscale (.v 1) (.v 2) (.v 3)) bF (acting bF (sB bF)) 10 (.v 1) .alu 0 g) ∧
    (∃ g, FloatWord (.fmin (.v 1) (.v 2) (.v 3)) bF (acting bF (sB bF)) 10 (.v 1) .alu 0 g) ∧
    (∃ g, FloatWord (.frnd (.v 1) (.v 2) 1 7) bF (acting bF (sB bF)) 10 (.v 1) .alu 0 g ∧ Stands (.frnd (.v 1) (.v 2) 1 7) bF (sB bF)) ∧
    (∃ g, FloatWord (.cvt (.v 1) (.v 2) 0xD 0xA) bF (acting bF (sB bF)) 13 (.v 1) .alu 0 g ∧ Stands (.cvt (.v 1) (.v 2) 0xD 0xA) bF (sB bF)) ∧
    (∃ g, FloatWord (.scvt (.v 1) (.v 2) 0 0 0xD) bF (acting bF (sB bF)) 13 (.v 1) .plain 0 g ∧ Stands (.scvt (.v 1) (.v 2) 0 0 0xD) bF (sB bF)) := by
  obtain ⟨x2, h2⟩ := okEx (e := (acting bF (sB bF)).numSrc bF f32 (.v 2)) (by decide +kernel)
  obtain ⟨x3, h3⟩ := okEx (e := (acting bF (sB bF)).numSrc bF f32 (.v 3)) (by decide +kernel)
  obtain ⟨x1, h1⟩ := okEx (e := (acting bF (sB bF)).numSrc bF f32 (.v 1)) (by decide +kernel)
  obtain ⟨y2, k2⟩ := okEx (e := (acting bF (sB bF)).lanesSrc bF 10 (.v 2)) (by decide +kernel)
  obtain ⟨y3, k3⟩ := okEx (e := (acting bF (sB bF)).lanesSrc bF 10 (.v 3)) (by decide +kernel)
  obtain ⟨n3, c3⟩ := okEx (e := (acting bF (sB bF)).countSrc bF 10 (.v 3)) (by decide +kernel)
  obtain ⟨⟨sc, cl⟩, hs⟩ := okEx (e := bF.scaleRegs 0) (by decide +kernel)
  exact ⟨⟨_, .two (.fadd (.v 1) (.v 2) (.v 3)) bF _ (.v 1) (.v 2) (.v 3) false Machine.Num.add f32 x2 x3 rfl (by decide +kernel) (by decide +kernel) h2 h3,
      stands (by decide +kernel), by decide +kernel, by decide +kernel, by decide +kernel⟩,
    ⟨_, .one (.fsqrt (.v 1) (.v 2)) bF _ (.v 1) (.v 2) Machine.Num.sqrt f32 x2 rfl (by decide +kernel) (by decide +kernel) h2,
      stands (by decide +kernel), by decide +kernel⟩,
    ⟨_, .ffma bF _ _ _ _ f32 x2 x3 x1 (by decide +kernel) (by decide +kernel) h2 h3 h1⟩,
    ⟨_, .fscale bF _ _ _ _ f32 x2 n3 (by decide +kernel) (by decide +kernel) h2 c3⟩,
    ⟨_, .minMax (.fmin (.v 1) (.v 2) (.v 3)) bF _ (.v 1) (.v 2) (.v 3) false false f32 y2 y3 rfl (by decide +kernel) (by decide +kernel) k2 k3⟩,
    ⟨_, .frnd bF _ _ _ 1 7 f32 y2 (by decide +kernel) (by decide +kernel) (by decide +kernel) k2, stands (by decide +kernel)⟩,
    ⟨_, .cvt bF _ (.v 1) (.v 2) 0xD 0xA y2 k2, stands (by decide +kernel)⟩,
    ⟨_, .scvt bF _ (.v 1) (.v 2) 0 0 0xD y2 sc cl (by decide +kernel) k2 hs, stands (by decide +kernel)⟩⟩

theorem witness_cross_lane_word_results :
    (∃ g, ArithWord (.vshfl (.v 1) (.v 2) (.v 3)) b0 (acting b0 s0) (.v 1) 6 allLanes 0 g 0 ∧ Stands (.vshfl (.v 1) (.v 2) (.v 3)) b0 s0 ∧
      (acting b0 s0).lanesOf b0 = .ok allLanes ∧ vputReady b0 6 (.v 1) allLanes (acting b0 s0) = true ∧ flagFree b0 true = true) ∧
    (∃ r g f, ArithWord (.vscan (.v 1) (.v 2) 1 2) b0 (acting b0 s0) (.v 1) b0.typ allLanes r g f ∧ Stands (.vscan (.v 1) (.v 2) 1 2) b0 s0) ∧
    (∃ r g f, ArithWord (.vredadd (.v 1) (.v 2)) b0 (acting b0 s0) (.v 1) b0.typ allLanes r g f ∧ Stands (.vredadd (.v 1) (.v 2)) b0 s0) ∧
    (∃ x, (acting b0 s0).lanesSrc b0 b0.typ (.v 2) = .ok x ∧ Stands (.vredmax (.s 1) (.v 2)) b0 s0 ∧ (acting b0 s0).canAlloc b0 0 1 = true) ∧
    (∃ p, (acting b0 s0).vecSrc b0 6 (.v 2) = .ok p ∧ typeBits b0.typ ≤ 32 ∧ Stands (.vargmax (.s 10) (.v 1) (.v 2)) b0 s0) ∧
    (∃ cs qr acc, Stands (.vdist (.v 1) (.v 8) 0 0 0 0) b0 s0 ∧ b0.readBlock 8 8 = .ok cs ∧ (acting b0 s0).readO b0 0 = .ok qr ∧
      (acting b0 s0).vecSrc b0 10 (.v 1) = .ok acc ∧ vputReady b0 10 (.v 1) allLanes (acting b0 s0) = true) ∧
    (∃ d0 d1 a0 a1, Stands (.vtopk (.v 20) (.v 30) 0 3) b0 s0 ∧ Stands (.vtopkm (.v 20) (.v 30) 0 3) b0 s0 ∧ b0.readV 20 = .ok d0 ∧
      b0.readV 21 = .ok d1 ∧ b0.readV 30 = .ok a0 ∧ b0.readV 31 = .ok a1 ∧ (acting b0 s0).canAlloc b0 2 0 = true) := by
  obtain ⟨m2, n2⟩ := okEx (e := (acting b0 s0).lanesSrc b0 (movedTyp b0.typ) (.v 2)) (by decide +kernel)
  obtain ⟨a0, f0⟩ := okEx (e := b0.readV 30) (by decide +kernel)
  obtain ⟨a1, f1⟩ := okEx (e := b0.readV 31) (by decide +kernel)
  obtain ⟨x2, h2⟩ := okEx (e := (acting b0 s0).lanesSrc b0 b0.typ (.v 2)) (by decide +kernel)
  obtain ⟨c3, k3⟩ := okEx (e := (acting b0 s0).laneNumbers b0 (.v 3)) (by decide +kernel)
  obtain ⟨p, hp⟩ := okEx (e := (acting b0 s0).vecSrc b0 6 (.v 2)) (by decide +kernel)
  obtain ⟨cs, hc⟩ := okEx (e := b0.readBlock 8 8) (by decide +kernel)
  obtain ⟨qr, hq⟩ := okEx (e := (acting b0 s0).readO b0 0) (by decide +kernel)
  obtain ⟨acc, ha⟩ := okEx (e := (acting b0 s0).vecSrc b0 10 (.v 1)) (by decide +kernel)
  obtain ⟨d0, e0⟩ := okEx (e := b0.readV 20) (by decide +kernel)
  obtain ⟨d1, e1⟩ := okEx (e := b0.readV 21) (by decide +kernel)
  exact ⟨⟨_, .vshfl _ _ _ _ _ _ m2 c3 n2 k3, stands (by decide +kernel), by decide +kernel, by decide +kernel, by decide +kernel⟩,
    ⟨_, _, _, .vscan _ _ _ _ _ _ _ x2 (by decide +kernel) h2, stands (by decide +kernel)⟩,
    ⟨_, _, _, .vred _ 0 _ _ _ _ _ x2 (.inl ⟨rfl, rfl⟩) rfl h2, stands (by decide +kernel)⟩,
    ⟨x2, h2, stands (by decide +kernel), by decide +kernel⟩, ⟨p, hp, by decide +kernel, stands (by decide +kernel)⟩,
    ⟨cs, qr, acc, stands (by decide +kernel), hc, hq, ha, by decide +kernel⟩,
    ⟨d0, d1, a0, a1, stands (by decide +kernel), stands (by decide +kernel), e0, e1, f0, f1, by decide +kernel⟩⟩

theorem witness_block_format_results :
    (acting b0 s0).lanesOf b0 = .ok (~~~ 0#32) ∧
    (∃ rs, Stands (.qpack (.v 1) (.v 4) 0 0) b0 s0 ∧ 4 + blockRegs 0 ≤ 64 ∧ b0.readBlock 4 (blockRegs 0) = .ok rs ∧
      (acting b0 s0).canAlloc b0 2 0 = true) ∧
    (∃ img sc, Stands (.qunpack (.v 1) (.v 16) 0 0) b0 s0 ∧ 1 + blockRegs 0 ≤ 64 ∧ b0.readV 16 = .ok img ∧ b0.readV 17 = .ok sc ∧
      (acting b0 s0).canAlloc b0 (blockRegs 0) 0 = true) ∧
    (∃ r, Stands (.qscale (.v 1) (.v 2) 0 0) b0 s0 ∧ (acting b0 s0).blockReg b0 (.v 2) = .ok r ∧
      vputReady b0 10 (.v 1) (~~~ 0#32) (acting b0 s0) = true) := by
  obtain ⟨rs, h⟩ := okEx (e := b0.readBlock 4 (blockRegs 0)) (by decide +kernel)
  obtain ⟨img, hi⟩ := okEx (e := b0.readV 16) (by decide +kernel)
  obtain ⟨sc, hs⟩ := okEx (e := b0.readV 17) (by decide +kernel)
  obtain ⟨r, hr⟩ := okEx (e := (acting b0 s0).blockReg b0 (.v 2)) (by decide +kernel)
  exact ⟨by decide +kernel, ⟨rs, stands (by decide +kernel), by decide +kernel, h, by decide +kernel⟩,
    ⟨img, sc, stands (by decide +kernel), by decide +kernel, hi, hs, by decide +kernel⟩, ⟨r, stands (by decide +kernel), hr, by decide +kernel⟩⟩

def l0 : Launch := mkLaunch 0 0 plainRec 0 none 0
def w0 : Workgroup := { mkWg 1 0 0 0 0 0 0 false with places := [p0], stamped := true }
def ea64 : Ea := ⟨64, none, none⟩
/-- The mapped state with another launch record. -/
def mappedL (f : LaunchRec → LaunchRec) : State := { mapped with launches := [{ l0 with lr := f l0.lr }] }
def sL (f : LaunchRec → LaunchRec) (b : Band) : State := onB b (mappedL f)
/-- The lane of an access that reaches one 8-byte word at 64, and 32 single bytes from there. -/
def ts8 : List LaneTr := match s0.translateLanes (s0.bandCtx b0) .load true 8 [(0, 64)] with | .ok ts => ts | .error _ => []
def ts1 : List LaneTr := match s0.translateLanes (s0.bandCtx b0) .load false 1 (b1.memLanes (memAt 1 .base) ea64 1 true allLanes) with | .ok ts => ts | .error _ => []
def ts4 : List LaneTr := match s0.translateLanes (s0.bandCtx b0) .atomic true 4 [(0, 64)] with | .ok ts => ts | .error _ => []
def mirrored (r : LaunchRec) : LaunchRec := { r with mirr := true }
/-- a1 = 64, with no lane enabled. -/
def bOff1 : Band := { b1 with m := b1.m.set 0 0 }
/-- MODE with TYPE u32. -/
def bU : Band := { b1 with mode := 0x20 }

theorem witness_memory_words_start :
    (∃ dest await, Stands (.ldv (.v 5) (memAt 1 .base)) b1 (sB b1) ∧ (elemOf b1 (.v 5)).2 = 1 ∧
      Addressed b1 (acting b1 (sB b1)) (memAt 1 .base) 32 true allLanes ea64 ∧ b1.versionMin 0 (memAt 1 .base) false = .ok (none, 0) ∧
      Reached b1 (acting b1 (sB b1)) .load false false 1 (b1.memLanes (memAt 1 .base) ea64 1 true allLanes) ts1 ∧ versionShort none ts1 = none ∧
      (acting b1 (sB b1)).loadDest b1 (.v 5) false allLanes = .ok (dest, await)) ∧
    (Stands (.ldv (.v 5) (memAt 1 .base)) bOff1 (sB bOff1) ∧ (acting bOff1 (sB bOff1)).lanesOf bOff1 = .ok 0 ∧
      bOff1.indexReady (memAt 1 .base) = .ok () ∧ (acting bOff1 (sB bOff1)).effective bOff1 (memAt 1 .base) 32 = .ok ea64) ∧
    (Stands (.ldpar (.s 4) (memAt 1 .base)) b1 (sB b1) ∧ b1.versionMin 0 (memAt 1 .base) true = .ok (some 0, 0)) ∧
    (∃ data, Stands (.stv (.v 5) (memAt 1 .base)) b1 (sB b1) ∧ (acting b1 (sB b1)).lanesSrc b1 (elemOf b1 (.v 5)).1 (.v 5) = .ok data ∧
      Reached b1 (acting b1 (sB b1)) .store false true 1 (b1.memLanes (memAt 1 .base) ea64 1 true allLanes) ts1) ∧
    (∃ src dest await, Stands (.atadd (.s 4) (memAt 1 .base)) bU (sB bU) ∧ AtomKind.add.accepts bU.typ = true ∧
      (acting bU (sB bU)).atomSrc bU .add bU.typ 4 (.s 4) = .ok src ∧ atomVector (.s 4) (memAt 1 .base) = false ∧
      Addressed bU (acting bU (sB bU)) (memAt 1 .base) 4 true allLanes ea64 ∧
      Reached bU (acting bU (sB bU)) .atomic true true 4 (bU.memLanes (memAt 1 .base) ea64 4 false allLanes) ts4 ∧
      (acting bU (sB bU)).atomDest bU (.s 4) 4 1 = .ok (dest, await)) ∧
    (∃ data, Stands (.stm (.s 4) (memAt 1 .base)) b1 (sL mirrored b1) ∧
      (acting b1 (sL mirrored b1)).wg? b1.wg = some w0 ∧
      (acting b1 (sL mirrored b1)).rawData b1 (.s 4) = .ok data ∧
      ((acting b1 (sL mirrored b1)).lsView w0).mirr = true ∧
      64 + 8 ≤ (acting b1 (sL mirrored b1)).window 0 0 .sp / 2 ∧
      ((acting b1 (sL mirrored b1)).stmTarget w0 0 0).isSome = true) ∧
    (Stands (.pref (memAt 1 .base)) b1 (sB b1) ∧ (acting b1 (sB b1)).effective b1 (memAt 1 .base) 128 = .ok ea64) := by
  obtain ⟨⟨de, aw⟩, hd⟩ := okEx (e := (acting b1 (sB b1)).loadDest b1 (.v 5) false allLanes) (by decide +kernel)
  obtain ⟨da, hs⟩ := okEx (e := (acting b1 (sB b1)).lanesSrc b1 (elemOf b1 (.v 5)).1 (.v 5)) (by decide +kernel)
  obtain ⟨src, hsrc⟩ := okEx (e := (acting bU (sB bU)).atomSrc bU .add bU.typ 4 (.s 4)) (by decide +kernel)
  obtain ⟨⟨de', aw'⟩, hd'⟩ := okEx (e := (acting bU (sB bU)).atomDest bU (.s 4) 4 1) (by decide +kernel)
  obtain ⟨dm, hm⟩ := okEx (e := (acting b1 (sL mirrored b1)).rawData b1 (.s 4)) (by decide +kernel)
  exact ⟨⟨de, aw, stands (by decide +kernel), by decide +kernel,
      ⟨by decide +kernel, by decide +kernel, by decide +kernel, by decide +kernel, by decide +kernel, fun _ => by decide +kernel⟩, by decide +kernel,
      ⟨by decide +kernel, by decide +kernel, by decide +kernel, fun _ => by decide +kernel, by decide +kernel, fun _ => by decide +kernel⟩,
      by decide +kernel, hd⟩, ⟨stands (by decide +kernel), by decide +kernel, by decide +kernel, by decide +kernel⟩,
    ⟨stands (by decide +kernel), by decide +kernel⟩,
    ⟨da, stands (by decide +kernel), hs,
      ⟨by decide +kernel, by decide +kernel, by decide +kernel, fun _ => by decide +kernel, by decide +kernel, fun _ => by decide +kernel⟩⟩,
    ⟨src, de', aw', stands (by decide +kernel), by decide +kernel, hsrc, by decide +kernel,
      ⟨by decide +kernel, by decide +kernel, by decide +kernel, by decide +kernel, by decide +kernel, fun _ => by decide +kernel⟩,
      ⟨by decide +kernel, by decide +kernel, by decide +kernel, nofun, by decide +kernel, nofun⟩, hd'⟩,
    ⟨dm, stands (by decide +kernel), by decide +kernel, hm, by decide +kernel, by decide +kernel, by decide +kernel⟩,
    ⟨stands (by decide +kernel), by decide +kernel⟩⟩

/-- A launch with a template region of 256 bytes, for STT and overlay lines. -/
def frozen (r : LaunchRec) : LaunchRec := { r with frz := 1, treg := 256 }

theorem witness_typed_space_results :
    (∃ dest await, Stands (.ldl (.v 9) (memAt 1 .base)) b1 (sB b1) ∧ (acting b1 (sB b1)).wg? b1.wg = some w0 ∧
      Addressed b1 (acting b1 (sB b1)) (memAt 1 .base) 128 false allLanes ea64 ∧ checkAlign 4 (b1.memLanes (memAt 1 .base) ea64 4 true allLanes) = .ok () ∧
      (acting b1 (sB b1)).checkOffsets w0 .sp 4 (b1.memLanes (memAt 1 .base) ea64 4 true allLanes) = .ok () ∧
      (acting b1 (sB b1)).checkLocks b1 .sp 0 false 4 (b1.memLanes (memAt 1 .base) ea64 4 true allLanes) = .ok () ∧
      (acting b1 (sB b1)).accessesDone b1 = true ∧ (acting b1 (sB b1)).loadDest b1 (.v 9) false allLanes = .ok (dest, await)) ∧
    (∃ data wg' lines, Stands (.stl (.s 10) (memAt 1 .base)) b1 (sL frozen b1) ∧ (acting b1 (sL frozen b1)).rawData b1 (.s 10) = .ok data ∧
      (acting b1 (sL frozen b1)).checkOffsets w0 .sp 8 [(0, 64)] = .ok () ∧ takeOverlays b1.uid 256 [(0, 64)] w0 = .ok (wg', lines) ∧ lines ≠ []) ∧
    (∃ x, Stands (.stt (.s 10) (memAt 1 .base)) b1 (sL frozen b1) ∧ (acting b1 (sL frozen b1)).bandLaunch b1 = some x ∧ x.lr.frz ≠ 15 ∧
      64 + 8 ≤ ((acting b1 (sL frozen b1)).lsView w0).treg) := by
  obtain ⟨⟨de, aw⟩, hd⟩ := okEx (e := (acting b1 (sB b1)).loadDest b1 (.v 9) false allLanes) (by decide +kernel)
  obtain ⟨dm, hm⟩ := okEx (e := (acting b1 (sL frozen b1)).rawData b1 (.s 10)) (by decide +kernel)
  exact ⟨⟨de, aw, stands (by decide +kernel), by decide +kernel,
      ⟨by decide +kernel, by decide +kernel, by decide +kernel, by decide +kernel, by decide +kernel, nofun⟩, by decide +kernel,
      by decide +kernel, by decide +kernel, by decide +kernel, hd⟩,
    ⟨dm, { w0 with overlays := [⟨2, 0, 0⟩] }, [(0, 0)], stands (by decide +kernel), hm, by decide +kernel, by decide +kernel, by decide⟩,
    ⟨{ l0 with lr := frozen l0.lr }, stands (by decide +kernel), by decide +kernel, by decide +kernel, by decide +kernel⟩⟩

/-- A store of the byte at 64 that is still to be performed; a TLBI of the core that dropped the entry of the frame at 0. -/
def busyOp : Op := ⟨8, 0, 1, 2, p0, 0, none, .store ⟨[⟨0, 64, [64]⟩], [⟨64, 0, 1, 7, false, false⟩], 0, 1, 0, 0, .none, 0, 0, false⟩⟩
def busyS : State := { mapped with ops := [busyOp] }
def oTlbi (n : Nat) : Op := ⟨9, 0, 1, 2, p0, 0, none, .tlbi 0 [(0, 4096)] n⟩

theorem witness_fence_and_invalidation_results :
    (Stands .fence b0 s0 ∧ (acting b0 s0).accessesDone b0 = true) ∧
    (Stands .fence b0 (onB b0 busyS) ∧ (acting b0 (onB b0 busyS)).accessesDone b0 = false) ∧
    (Stands (.fencea (.a 1) (.s 1)) b1 (sB b1) ∧ (acting b1 (sB b1)).scalarSrc b1 false (.a 1) = .ok 64 ∧
      (acting b1 (sB b1)).scalarSrc b1 false (.s 1) = .ok 1 ∧ (acting b1 (sB b1)).rangeDone b1 64 65 = true) ∧
    (Stands (.fencea (.a 1) (.s 2)) b1 (sB b1) ∧ (acting b1 (sB b1)).scalarSrc b1 false (.s 2) = .ok 0) ∧
    (Stands (.tlbi (.s 4)) b0 s0 ∧ (acting b0 s0).scalarSrc b0 false (.s 4) = .ok 0 ∧ flagFree b0 false = true ∧
      (acting b0 s0).bandLaunch b0 = some l0) ∧
    (({ s0 with ops := [oTlbi 9] } : State).op? 9 = some (oTlbi 9) ∧
      ∀ x ∈ ({ s0 with ops := [oTlbi 9] } : State).ops, x.uid < 9 → State.tlbiWaits 0 0 [(0, 4096)] x = false) ∧
    (let s : State := { s0 with ops := [busyOp, oTlbi 30] };
      s.op? 9 = some (oTlbi 30) ∧ busyOp ∈ s.ops ∧ busyOp.uid < 30 ∧ State.tlbiWaits 0 0 [(0, 4096)] busyOp = true) :=
  ⟨⟨stands (by decide +kernel), by decide +kernel⟩, ⟨stands (by decide +kernel), by decide +kernel⟩,
    ⟨stands (by decide +kernel), by decide +kernel, by decide +kernel, by decide +kernel⟩,
    ⟨stands (by decide +kernel), by decide +kernel⟩,
    ⟨stands (by decide +kernel), by decide +kernel, by decide +kernel, by decide +kernel⟩, by decide +kernel, by decide +kernel⟩

/-- a6 = 65,536, s12 asks for one unit and, as s13, for a wait of a unit of time too; a token of another core on the region; a held one. -/
def bT : Band := { b0 with a := b0.a.set 6 65536, s := (b0.s.set 12 (.ofVal 1)).set 13 (.ofVal 0x100000001) }
def theirs : State := { mapped with tokens := [⟨1, 0, 1, 1⟩] }
def ours : State := { mapped with tokens := [⟨0, 0, 1, 1⟩] }
def bAcq : Band := { bT with wait := some (.acqrg 1 1 0) }

theorem witness_region_token_results :
    (Stands (.acqrg (.s 4) (.a 6) (.s 12)) bT (onB bT mapped) ∧ freshly bT ∧ (acting bT (onB bT mapped)).scalarSrc bT false (.s 12) = .ok 1 ∧
      (acting bT (onB bT mapped)).regionOf bT (.a 6) 1 = .ok (1, 1) ∧ flagFree bT false = true ∧ tokenStatus (onB bT mapped) 0 1 1 = 0) ∧
    (Stands (.acqrg (.s 4) (.a 6) (.s 12)) bT (onB bT theirs) ∧ tokenStatus (onB bT theirs) 0 1 1 = 2 ∧ fld 1#64 63 32 = 0) ∧
    (Stands (.acqrg (.s 4) (.a 6) (.s 13)) bT (onB bT theirs) ∧ (acting bT (onB bT theirs)).scalarSrc bT false (.s 13) = .ok 0x100000001 ∧
      fld 0x100000001#64 63 32 ≠ 0) ∧
    ((onB bAcq theirs).bandAt p0 = some bAcq ∧ bAcq.wait = some (.acqrg 1 1 0) ∧ 0 ≤ (onB bAcq theirs).cycle) ∧
    (∃ b : Band, (onB b theirs).bandAt p0 = some b ∧ b.wait = some (.acqrg 1 1 9) ∧ (onB b theirs).cycle < 9) ∧
    (Stands (.relrg (.s 4) (.a 6) (.s 12)) bT (onB bT ours) ∧ (onB bT ours).holdsToken 0 1 1 = true) ∧
    (Stands (.relrg (.s 4) (.a 6) (.s 12)) bT (onB bT mapped) ∧ (onB bT mapped).holdsToken 0 1 1 = false) ∧
    (let o : Op := ⟨9, 0, 1, 2, p0, 0, none, .relrg 0 1 1 .none⟩;
      let s : State := { onB bT ours with ops := [o] };
      s.op? 9 = some o ∧ s.doneBelow o.band o.uid = true ∧ s.holdsToken 0 1 1 = true) := by
  refine ⟨⟨stands (by decide +kernel), fun st h => ?_, by decide +kernel, by decide +kernel, by decide +kernel, by decide +kernel⟩,
    ⟨stands (by decide +kernel), by decide +kernel, by decide +kernel⟩, ⟨stands (by decide +kernel), by decide +kernel, by decide +kernel⟩,
    by decide +kernel, ⟨{ bT with wait := some (.acqrg 1 1 9) }, by decide +kernel⟩, ⟨stands (by decide +kernel), by decide +kernel⟩,
    ⟨stands (by decide +kernel), by decide +kernel⟩, by decide +kernel⟩
  cases h

/-- A monitor on the word at 64, and s16, s17 that ask whether it equals 0xFC000FF0, with no time to wait and with one. -/
def bMon : Band := { b1 with
  monitors := [⟨0, 64⟩]
  s := (b1.s.set 16 (.ofVal 0xFC000FF0)).set 21 (.ofVal 1) }
def bMonWait : Band := { bMon with wait := some (.monitor 0 0 1 0) }

theorem witness_monitor_results :
    (∃ x, Stands (.monarm 0 (memAt 1 .base)) b1 (sB b1) ∧ (acting b1 (sB b1)).effective b1 (memAt 1 .base) 8 = .ok ea64 ∧
      (acting b1 (sB b1)).walkFirst ((acting b1 (sB b1)).bandCtx b1) .load 8 [(0, 64)] = .ok () ∧
      (acting b1 (sB b1)).translateLanes ((acting b1 (sB b1)).bandCtx b1) .load true 8 [(0, 64)] = .ok [x] ∧
      (acting b1 (sB b1)).monitorsOf 0 < 64) ∧
    (Stands (.monwait (.s 15) 0 (.s 16)) bMon (sB bMon) ∧ bMon.readS 16 = .ok 0xFC000FF0 ∧ bMon.readS 17 = .ok 0 ∧ bMon.monitor? 0 = some ⟨0, 64⟩ ∧
      freshly bMon ∧ (acting bMon (sB bMon)).monPa bMon ⟨0, 64⟩ = 64 ∧ (acting bMon (sB bMon)).readNow bMon false [64] = true ∧
      (acting bMon (sB bMon)).readOut 64 = .ok ∧ (acting bMon (sB bMon)).scrub 64 = acting bMon (sB bMon) ∧ statusReady bMon (.s 15) (sB bMon) ∧
      condMet 0 ((sB bMon).word 64) 0xFC000FF0 = true) ∧
    (Stands (.monwait (.s 15) 0 (.s 18)) bMon (sB bMon) ∧ bMon.readS 18 = .ok 0 ∧ bMon.readS 19 = .ok 0 ∧ condMet 0 ((sB bMon).word 64) 0 = false) ∧
    (Stands (.monwait (.s 15) 0 (.s 20)) bMon (sB bMon) ∧ bMon.readS 21 = .ok 1 ∧ fld 1#64 31 0 ≠ 0) ∧
    ((sB bMonWait).bandAt p0 = some bMonWait ∧ bMonWait.wait = some (.monitor 0 0 1 0) ∧ bMonWait.monitor? 0 = some ⟨0, 64⟩) := by
  obtain ⟨⟨x, hx⟩⟩ : Nonempty { x // (acting b1 (sB b1)).translateLanes ((acting b1 (sB b1)).bandCtx b1) .load true 8 [(0, 64)] = .ok [x] } :=
    ⟨⟨ts8.headD ⟨0, 0, [], []⟩, by decide +kernel⟩⟩
  exact ⟨⟨x, stands (by decide +kernel), by decide +kernel, by decide +kernel, hx, by decide +kernel⟩,
    ⟨stands (by decide +kernel), by decide +kernel, by decide +kernel, by decide +kernel, nofun, by decide +kernel, by decide +kernel,
      by decide +kernel, by decide +kernel, .inr ⟨15, rfl, by decide +kernel⟩, by decide +kernel⟩,
    ⟨stands (by decide +kernel), by decide +kernel, by decide +kernel, by decide +kernel⟩,
    ⟨stands (by decide +kernel), by decide +kernel, by decide +kernel⟩, by decide +kernel⟩

/-- A second band of the workgroup, and a superstep at which both have arrived. -/
def b3 : Band := mkBand 3 ⟨0, 0, 1⟩ 0 1 1 1 0 true 0
def bS (b : Band) : Band := { b with wait := some .swaph }

theorem witness_barrier_and_superstep_results :
    (Stands (.bar (.s 9) (.s 2) 0) b0 s0 ∧ (acting b0 s0).wg? b0.wg = some w0 ∧ (acting b0 s0).accessesDone b0 = true ∧
      (acting b0 s0).endLateBar b0.wg 0 = acting b0 s0 ∧ ∀ c ∈ (acting b0 s0).bands, c.wg = w0.uid → c.pos ∈ (w0.arrive 0 b0.pos none).arrived) ∧
    (let s : State := { s0 with bands := [b0, b3] };
      s.bandAt s.cur = some b0 ∧ ∃ c ∈ (acting b0 s).bands, c.wg = w0.uid ∧ c.pos ∉ (w0.arrive 0 b0.pos none).arrived) ∧
    (let w : Workgroup := { w0 with bars := [⟨0, some 0, [0]⟩] };
      ({ s0 with wgs := [w] } : State).wg? 1 = some w ∧ w.bar? 0 = some ⟨0, some 0, [0]⟩ ∧ ¬ 0 < ({ s0 with wgs := [w] } : State).cycle ∧
        0 < ({ s0 with wgs := [w], cycle := 1 } : State).cycle) ∧
    (Stands (.swaph (.s 9) (.s 2)) b0 (sL mirrored b0) ∧ (acting b0 (sL mirrored b0)).bandLaunch b0 = some { l0 with lr := mirrored l0.lr } ∧
      (acting b0 (sL mirrored b0)).swapDeadline 0 (l0.domInst w0) = none ∧ (acting b0 (sL mirrored b0)).accessesDone b0 = true) ∧
    (let w : Workgroup := { w0 with bars := [⟨4, some 0, [0]⟩] };
      let s : State := { sL mirrored (bS b0) with wgs := [w] };
      s.allSwapped 0 (l0.domInst w0) = true ∧ s.stmsDone 0 (l0.domInst w0) = true) ∧
    (let w : Workgroup := { w0 with bars := [⟨4, some 0, [0]⟩] };
      let s : State := { sL mirrored (bS b0) with wgs := [w], bands := [bS b0, b3] };
      s.swapDeadline 0 (l0.domInst w0) = some (some 0) ∧ s.allSwapped 0 (l0.domInst w0) = false) :=
  ⟨⟨stands (by decide +kernel), by decide +kernel⟩, by decide +kernel, by decide +kernel, ⟨stands (by decide +kernel), by decide +kernel⟩,
    by decide +kernel, by decide +kernel⟩

/-- The workgroup's stage with a current B of format 0, and the band with all it needs to use it. -/
def g0 : BBuf := ⟨5, 0, []⟩
def bX : Band := { b0 with s := (b0.s.set 10 (.ofVal 0)).set 11 (.ofVal 1) }
def withB : State := { mapped with wgs := [{ w0 with current := some g0 }] }
def oMma : Op := ⟨9, 0, 1, 2, p0, 0, none, .mma 1 g0 0 0 VReg.zero false false false [] []⟩
def oMma' : Op := ⟨9, 0, 1, 2, p0, 0, none, .mma 1 g0 0 0 VReg.zero false false true [] []⟩

theorem witness_latch_and_batch_results :
    (∃ rs sc, Stands (.blatch (.v 16) 0 1 0) b0 s0 ∧ 16 + mxRegs 0 ≤ 63 ∧ (acting b0 s0).lanesOf b0 = .ok (~~~ 0#32) ∧
      b0.readBlock 16 (mxRegs 0) = .ok rs ∧ b0.readV 63 = .ok sc ∧ (acting b0 s0).wg? b0.wg = some w0 ∧
      ∀ o ∈ s0.ops, o.wg = w0.uid → o.kind.boundTo w0.filling.gen = false) ∧
    (Stands (.mfence (.s 5)) b0 s0 ∧ b0.closedLeft.length < 16) ∧
    (Stands (.mwait (.s 10)) bX (sB bX) ∧ (acting bX (sB bX)).scalarSrc bX false (.s 10) = .ok 0 ∧ 0 ∉ bX.closedLeft) ∧
    (let b : Band := { bX with batch := 1, batchLeft := [(0, 1)] };
      b.closedLeft = [0] ∧ (0 + 65536 - b.batch) % 65536 = 65535) ∧
    (Stands (.mwait (.s 11)) bX (sB bX) ∧ (acting bX (sB bX)).scalarSrc bX false (.s 11) = .ok 1 ∧ (1 + 65536 - bX.batch) % 65536 = 1) := by
  obtain ⟨rs, h⟩ := okEx (e := b0.readBlock 16 (mxRegs 0)) (by decide +kernel)
  obtain ⟨sc, h'⟩ := okEx (e := b0.readV 63) (by decide +kernel)
  exact ⟨⟨rs, sc, stands (by decide +kernel), by decide +kernel, by decide +kernel, h, h', by decide +kernel, by decide +kernel⟩,
    ⟨stands (by decide +kernel), by decide +kernel⟩, ⟨stands (by decide +kernel), by decide +kernel, by decide +kernel⟩, by decide +kernel,
    ⟨stands (by decide +kernel), by decide +kernel, by decide +kernel⟩⟩

theorem witness_mma_results :
    (∃ sa t, Stands (.mmaE4m3 (.s 10) (.s 10) 0 0 0 0) bX (onB bX withB) ∧ (acting bX (onB bX withB)).lanesOf bX = .ok (~~~ 0#32) ∧
      (acting bX (onB bX withB)).scalarSrc bX false (.s 10) = .ok 0 ∧ (acting bX (onB bX withB)).wg? bX.wg = some { w0 with current := some g0 } ∧
      16384 ≤ (acting bX (onB bX withB)).spaceSize { w0 with current := some g0 } .cb ∧
      32 * (64 * mxBits 0 / 8) ≤ (acting bX (onB bX withB)).spaceSize { w0 with current := some g0 } .ab ∧ bX.readV 62 = .ok sa ∧
      ((onB bX withB).arrayQueue 0 0).length < 16 ∧ (acting bX (onB bX withB)).lockTile bX 0 0 = .ok t) ∧
    (let s : State := { onB bX withB with ops := [oMma] };
      s.op? 9 = some oMma ∧ s.wg? oMma.wg = some { w0 with current := some g0 } ∧ ((s.arrayQueue 0 0).head?).map Op.uid = some 9) ∧
    (let s : State := { onB bX withB with ops := [oMma'] };
      s.op? 9 = some oMma' ∧ ((s.arrayQueue 0 0).head?).map Op.uid = some 9) ∧
    compared (List.replicate 32 (List.replicate 64 (Machine.Num.fin false 0 0))) (List.replicate 128 (List.replicate 64 (Machine.Num.fin false 0 0))) = true := by
  obtain ⟨sa, h⟩ := okEx (e := bX.readV 62) (by decide +kernel)
  obtain ⟨t, h'⟩ := okEx (e := (acting bX (onB bX withB)).lockTile bX 0 0) (by decide +kernel)
  exact ⟨⟨sa, t, stands (by decide +kernel), by decide +kernel, by decide +kernel, by decide +kernel, by decide +kernel, by decide +kernel, h,
    by decide +kernel, h'⟩, by decide +kernel, by decide +kernel, by decide +kernel⟩

theorem witness_accumulator_moves :
    (Stands (.accz (.s 10)) bX (sB bX) ∧ (acting bX (sB bX)).lanesOf bX = .ok allLanes ∧ (acting bX (sB bX)).scalarSrc bX false (.s 10) = .ok 0 ∧
      (acting bX (sB bX)).wg? bX.wg = some w0 ∧ (acting bX (sB bX)).checkRows bX w0 512 0 512 true allLanes = .ok ()) ∧
    (Stands (.accz (.s 10)) bOff (sB bOff) ∧ (acting bOff (sB bOff)).lanesOf bOff = .ok 0) ∧
    (∃ rs, Stands (.accld (.s 10) (.v 16) 10) bX (sB bX) ∧ 16 + accRegs 10 ≤ 64 ∧
      (acting bX (sB bX)).checkRows bX w0 128 0 128 true allLanes = .ok () ∧ bX.readBlock 16 (accRegs 10) = .ok rs) ∧
    Stands (.accld (.s 10) (.v 0) 8) bOff (sB bOff) ∧
    (Stands (.accrd (.v 16) (.s 10) 0 0 10) bX (sB bX) ∧ accAccepts 10 false = true ∧ flagFree bX true = true ∧
      (acting bX (sB bX)).checkRows bX w0 128 0 128 false allLanes = .ok () ∧ (∀ u, u < accRegs 10 → bX.partialReady (16 + u) allLanes = .ok ()) ∧
      (acting bX (sB bX)).canAlloc bX (accRegs 10) 0 = true) ∧
    (∃ sc cl, Stands (.accrd (.v 16) (.s 10) 1 1 9) bX (sB bX) ∧ accAccepts 9 true = true ∧ bX.scaleRegs 1 = .ok (sc, cl)) := by
  obtain ⟨rs, h⟩ := okEx (e := bX.readBlock 16 (accRegs 10)) (by decide +kernel)
  obtain ⟨⟨sc, cl⟩, hs⟩ := okEx (e := bX.scaleRegs 1) (by decide +kernel)
  exact ⟨⟨stands (by decide +kernel), by decide +kernel, by decide +kernel, by decide +kernel, by decide +kernel⟩,
    ⟨stands (by decide +kernel), by decide +kernel⟩, ⟨rs, stands (by decide +kernel), by decide +kernel, by decide +kernel, h⟩,
    stands (by decide +kernel), ⟨stands (by decide +kernel), by decide +kernel, by decide +kernel, by decide +kernel, by decide +kernel, by decide +kernel⟩,
    ⟨sc, cl, stands (by decide +kernel), by decide +kernel, hs⟩⟩

/-- Descriptors in memory: 1,024 a null copy, 1,088 a stash of mode 0, 1,152 a bucket, 1,216 a scalar, 1,280 a publication of the page at
128 MiB, 1,344 a storage read; a record of queue pair 0, whose table is at 0, with depths 8; drive 0 enabled. -/
def put64 (m : List Host.Cell) (a : Nat) (x : Nat) : List Host.Cell := Mem.writeBytes m a ((List.range 8).map (byteOf x))
def descs : State := { mapped with
  regs := [(numOff 0xE0, 1#64 <<< 63), (numOff 0x2002, 32)]
  tlb := ⟨.quad 0 0, 0, false, 0x8000000, 4, 0x0040000000000107, none⟩ :: mapped.tlb
  mem := [(16, 0x70007), (1031, 0xFC), (1096, 0x1000), (1104, 0x2000), (1112, 0x4000000040), (1160, 0x100000001), (1184, 2048), (1192, 1),
      (1224, 0x100000001), (1232, 2048), (1296, 0x8000000), (1304, 2048), (1368, 8192)].foldl
    (fun m x => if x.1 = 1031 then Mem.writeBytes m 1031 [0xFC] else put64 m x.1 x.2) mapped.mem }
def bD : Band := { b0 with a :=
  ((((((b0.a.set 2 1024).set 3 1088).set 4 1152).set 5 1216).set 6 1280).set 7 1344).set 8 65 }
def sD : State := onB bD descs

def descOf (b : Band) (e : W64) (n : Nat) (s : State) : List Byte :=
  match s.descPas b e n with
  | .ok pas => pas.map fun x => s.peekByte b x.1
  | .error _ => []

/-- The state that the read of a descriptor leaves. -/
def descRead (b : Band) (e : W64) (n : Nat) (s : State) : State :=
  match s.descPas b e n with
  | .ok pas => s.plainTouch b pas
  | .error _ => s

def descB (b : Band) (e : W64) (n : Nat) (s : State) : Bool :=
  match s.descPas b e n with
  | .ok pas => s.readNow b true (pas.map fun x => s.viewOf b.launch (s.runOf b.wg) x.1) && pas.all fun x => s.readBad b x.1 == none
  | .error _ => false

theorem described {b : Band} {e : W64} {n : Nat} {s : State} (h : descB b e n s = true) :
    Described b e n s (descOf b e n s) (descRead b e n s) := by
  unfold descB at h
  split at h
  · rename_i pas hp
    simp only [Bool.and_eq_true, List.all_eq_true, beq_iff_eq] at h
    exact ⟨pas, hp, h.1, h.2, by rw [descOf, hp], by rw [descRead, hp]⟩
  · cases h

/-- The state that the read of the band's descriptor at an address leaves. -/
def readD (e : W64) (n : Nat) : State := descRead bD e n (acting bD sD)

theorem witness_engine_words_start :
    (Stands (.copy (memAt 2 .base)) bD sD ∧ (acting bD sD).effective bD (memAt 2 .base) 64 = .ok ⟨1024, none, none⟩ ∧
      CopyRead bD (acting bD sD) 1024 (some (wordsOf (descOf bD 1024 64 (acting bD sD)) 8)) none (readD 1024 64) ∧
      (readD 1024 64).wg? bD.wg = some w0 ∧ (readD 1024 64).bandLaunch bD = some l0 ∧
      flagFree bD false = true ∧ (readD 1024 64).entriesHeld bD.wg < l0.lr.copies ∧ (readD 1024 64).locks = []) ∧
    (Stands (.copym (memAt 8 .base)) bD sD ∧ (acting bD sD).effective bD (memAt 8 .base) 64 = .ok ⟨65, none, none⟩ ∧
      CopyRead bD (acting bD sD) 65 none none (acting bD sD)) ∧
    (Stands (.mack 3) bD sD ∧ (acting bD sD).accessesDone bD = true) ∧
    (∃ rs, Stands (.stash (.v 16) (memAt 3 .base)) bD sD ∧ Described bD 1088 64 (acting bD sD) (descOf bD 1088 64 (acting bD sD)) (readD 1088 64) ∧
      (readD 1088 64).stashError w0 (parseStash (descOf bD 1088 64 (acting bD sD))) = 0 ∧
      (readD 1088 64).stampOf bD (parseStash (descOf bD 1088 64 (acting bD sD))).stamp 0 0 = .ok none ∧
      16 + (parseStash (descOf bD 1088 64 (acting bD sD))).regs ≤ 64 ∧ bD.readBlock 16 (parseStash (descOf bD 1088 64 (acting bD sD))).regs = .ok rs) ∧
    (∃ u, Stands (.yieldc 14) { b0 with lastCopy := some 9 } (sB { b0 with lastCopy := some 9 }) ∧ (some 9 : Option Nat) = some u ∧
      (({ sB b0 with ops := [⟨9, 0, 1, 2, p0, 0, none, .engine (.copy 1 [] none) none⟩] } : State).op? u).isSome = true) ∧
    (Stands (.yieldc 14) b0 s0 ∧ b0.lastCopy = none ∧ (acting b0 s0).notHeader b0 (targetOf b0 14) = false) ∧
    (∃ b : Band, (sB b).bandAt p0 = some b ∧ b.wait = some (.yieldc 9 64 4 0 none) ∧ (sB b).op? 9 = none ∧ b.parked = false) := by
  obtain ⟨rs, h⟩ := okEx (e := bD.readBlock 16 (parseStash (descOf bD 1088 64 (acting bD sD))).regs) (by decide +kernel)
  exact ⟨⟨stands (by decide +kernel), by decide +kernel, .inr ⟨by decide +kernel, _, described (by decide +kernel), rfl, by decide +kernel⟩,
      by decide +kernel, by decide +kernel, by decide +kernel, by decide +kernel, by decide +kernel⟩,
    ⟨stands (by decide +kernel), by decide +kernel, .inl ⟨by decide +kernel, rfl, rfl, rfl⟩⟩, ⟨stands (by decide +kernel), by decide +kernel⟩,
    ⟨rs, stands (by decide +kernel), described (by decide +kernel), by decide +kernel, by decide +kernel, by decide +kernel, h⟩,
    ⟨9, stands (by decide +kernel), rfl, by decide +kernel⟩, ⟨stands (by decide +kernel), by decide +kernel, by decide +kernel⟩,
    ⟨{ b0 with wait := some (.yieldc 9 64 4 0 none) }, by decide +kernel⟩⟩

/-- A slice of a copy of 32 bytes from 4,096 to 8,192, and operations with it: unplanned, planned, and a multicast of it. -/
def sl0 : Slice := ⟨0, 9, 2, p0, true, some [0, 4096, 8192, 0, 32, 0, 0, 0], none⟩
def oCopy (sls : List Slice) (p : Option Plan) : Op := ⟨9, 0, 1, 2, p0, 0, none, .engine (.copy 1 sls p) none⟩
def withOp (b : Band) (s : State) (o : Op) : State := { onB b s with ops := [o] }
def bC : Band := { b0 with copies := 1 }
def plan0 : Plan := ⟨[⟨.mem [(4096, 32)], .mem [(8192, 32)], 32, 0, none⟩], 0, 32, [], 0⟩
/-- A multicast of 32 bytes from 4,096 to the receivers listed at 1,024: one, at 12,288, of core 0, flag 0. -/
def slM : Slice := { sl0 with desc := some [0x6#64 <<< 58, 4096, 1024, 0, 32, 0, 0, 0] }
def multi : State := { mapped with mem := put64 mapped.mem 1032 12288, rflags := [(0, 0)] }
def r0 : Receiver := ⟨0, 12288, 0, false, []⟩
def oMulti (rs : List Receiver) (x : Option (List Run)) : Op := ⟨9, 0, 1, 2, p0, 0, none, .engine (.copym slM rs x 0 32) none⟩
def oStash (err : Nat) : Op := ⟨9, 0, 1, 2, p0, 0, none, .engine (.stash [(0, 4096, [1, 2])] 0 err true) none⟩

theorem witness_engine_operation_results :
    (let s := withOp bC mapped (oCopy [sl0] none);
      s.op? 9 = some (oCopy [sl0] none) ∧ s.copyReady w0 1 [sl0] = true ∧ isOk (s.sliceError l0 w0 (oCopy [sl0] none) sl0) = true ∧
        (parseCopy [0, 4096, 8192, 0, 32, 0, 0, 0]).pub = false ∧ (parseCopy [0, 4096, 8192, 0, 32, 0, 0, 0]).isNull = false) ∧
    (let s := withOp bC mapped (oCopy [{ sl0 with desc := none }] none);
      s.copyReady w0 1 [{ sl0 with desc := none }] = true ∧ isOk (s.sliceError l0 w0 (oCopy [{ sl0 with desc := none }] none) { sl0 with desc := none }) = false) ∧
    (let s := withOp bC mapped (oCopy [sl0] (some plan0));
      s.op? 9 = some (oCopy [sl0] (some plan0)) ∧ plan0.pubs = [] ∧ s.sidesOpen (oCopy [sl0] (some plan0)) plan0.moves = true ∧
        0 + 8 ≤ 32 ∧ s.sidesOpen (oCopy [sl0] (some plan0)) (plan0.moves.map fun m => m.cut 0 8) = true) ∧
    (let s := withOp bC multi (oMulti [] none);
      s.op? 9 = some (oMulti [] none) ∧ s.doneBelow 2 9 = true ∧ (parseCopy (slM.desc.getD [])).badMulticast = false ∧
        s.sliceSpace w0 { parseCopy (slM.desc.getD []) with dstk := 0 } = false ∧
        s.readReceivers (l0.engineCtx 0 true) (oMulti [] none) (parseCopy (slM.desc.getD [])) = .ok [(r0, 0)] ∧ r0.malformed 0 = false ∧
        s.badReceiver 0 (parseCopy (slM.desc.getD [])) r0 = false ∧ s.receiverHere r0 = true ∧ s.receiverAway 0 r0 = false ∧ s.flagsSet true [r0] = true ∧
        lockRoom s (s.receiverLocks 9 (parseCopy (slM.desc.getD [])) [r0]) = true ∧
        (s.resolveAll (l0.engineCtx 0 true) false w0 ((parseCopy (slM.desc.getD [])).wants none)).2 = none) ∧
    (let s := withOp bC multi (oMulti [r0] (some [⟨0, List.replicate 32 0, []⟩]));
      s.op? 9 = some (oMulti [r0] (some [⟨0, List.replicate 32 0, []⟩])) ∧ [r0][0]? = some r0 ∧ r0.acked = false ∧ s.receiverAway 0 r0 = false) ∧
    (let s := withOp bC mapped (oStash 5); s.op? 9 = some (oStash 5) ∧ s.doneBelow 2 9 = true ∧ w0.resident = true) ∧
    (let s := withOp bC mapped (oStash 0);
      s.band? 2 = some bC ∧ (s.resolveAll (l0.engineCtx 0 bC.privileged) false w0 [⟨.fill [1, 2], .va 4096, 2, 0⟩]).2 = none ∧
        s.sidesOpen (oStash 0) (s.resolveAll (l0.engineCtx 0 bC.privileged) false w0 [⟨.fill [1, 2], .va 4096, 2, 0⟩]).1 = true) := by
  decide +kernel

def oStg (err : Nat) (x : Option (Nat × Nat × Nat)) : Op := ⟨9, 0, 1, 2, p0, 0, none, .engine (.storage 0 0 0 0 8192 [8192] err 0 x) none⟩
/-- All slots for watches taken. -/
def watched : List Watch := (List.range 256).map fun k => ⟨k, 64, 0, 0, 0, false⟩
/-- A completion entry of command 0 without error, of phase 1, in the completion queue at 65,536, and a timeout of a microsecond. -/
def entered : State := { descs with
  mem := put64 (put64 descs.mem 8 65536) 65544 0x1000000000000
  regs := [(0x2300, 1), (numOff 0xE0, 1#64 <<< 63), (numOff 0x2002, 32)] }
def bW : Band := { bD with a := bD.a.set 1 64 }

theorem witness_storage_results :
    (Stands (.stgld (memAt 7 .base)) bD sD ∧ (acting bD sD).bandLaunch bD = some l0 ∧ l0.lr.redn ≠ 1 ∧
      Described bD 1344 32 (acting bD sD) (descOf bD 1344 32 (acting bD sD)) (readD 1344 32) ∧ (parseStg (descOf bD 1344 32 (acting bD sD))).buf = 8192 ∧
      (readD 1344 32).bufferPages bD .store 8192 512 = .ok [8192] ∧ isOk ((readD 1344 32).stampOf bD (8192 - 16) 0 0) = true ∧
      (readD 1344 32).stgError (parseStg (descOf bD 1344 32 (acting bD sD))) [8192] = 0 ∧ (readD 1344 32).pairFor 0 = some (0, 0) ∧
      (sD.locks.filter fun y => y.core == 0).length < 64) ∧
    (Stands (.stgld (memAt 7 .base)) bD (onB bD { descs with regs := [(numOff 0x2002, 32)] }) ∧
      (acting bD (onB bD { descs with regs := [(numOff 0x2002, 32)] })).stgError (parseStg (descOf bD 1344 32 (acting bD sD))) [8192] = 6) ∧
    (∃ x, Stands (.watch (.s 1) (memAt 1 .base)) bW (onB bW mapped) ∧
      (acting bW (onB bW mapped)).translateLanes ((acting bW (onB bW mapped)).bandCtx bW) .load true 8 [(0, 64)] = .ok [x] ∧
      x.bytes.head? = some (64, 0) ∧ (onB bW mapped).inSecure 64 = false ∧ ∀ w ∈ (onB bW mapped).watches, w.slot ≠ 0) ∧
    (∀ k, k < 256 → ∃ w ∈ ({ mapped with watches := watched } : State).watches, w.slot = k) ∧
    (let s := withOp bD descs (oStg 5 none); s.op? 9 = some (oStg 5 none) ∧ s.doneBelow 2 9 = true) ∧
    (let s := withOp bD descs (oStg 0 none); s.op? 9 = some (oStg 0 none) ∧ s.freeSlot = some 0) ∧
    (let s := withOp bD entered (oStg 0 (some (0, 0, 0)));
      s.newEntry 0 = some 0x10000000000000000000000000000 ∧ s.storageOp 0 0 = some (oStg 0 (some (0, 0, 0))) ∧ (s.stgdrv 0).getLsbD 62 = false) ∧
    (let s : State := { withOp bD entered (oStg 0 (some (0, 0, 0))) with cycle := 850 };
      fld (s.reg 0x2300) 31 0 ≠ 0 ∧ 0 + microseconds (fld (s.reg 0x2300) 31 0) ≤ s.cycle) ∧
    (WinByte.none ∈ (List.range 4).map fun i => (withOp bD descs (oStg 0 none)).winByte (2 ^ 34 + i)) ∧
    (WinByte.none ∉ (List.range 4).map fun i => (withOp bD descs (oStg 0 none)).winByte i) := by
  obtain ⟨x, hx, hb⟩ : ∃ x, (acting bW (onB bW mapped)).translateLanes ((acting bW (onB bW mapped)).bandCtx bW) .load true 8 [(0, 64)] = .ok [x] ∧
    x.bytes.head? = some (64, 0) := ⟨ts8.headD ⟨0, 0, [], []⟩, by decide +kernel⟩
  refine ⟨⟨stands (by decide +kernel), by decide +kernel, by decide +kernel, described (by decide +kernel), by decide +kernel, by decide +kernel,
      by decide +kernel, by decide +kernel, by decide +kernel, by decide +kernel⟩, ⟨stands (by decide +kernel), by decide +kernel⟩,
    ⟨x, stands (by decide +kernel), hx, hb, by decide +kernel, by decide +kernel⟩, fun k hk => ?_, by decide +kernel, by decide +kernel,
    by decide +kernel, by decide +kernel, by decide +kernel, by decide +kernel⟩
  exact ⟨⟨k, 64, 0, 0, 0, false⟩, List.mem_map.2 ⟨k, List.mem_range.2 hk, rfl⟩, rfl⟩

/-- Two devices of a rank each, this one being the first, in one group; rank 1 is elsewhere. Both have entries in the Weir at step 5. -/
def tbl : PGTable := ⟨2, 0, [⟨0, 1, 2, 0⟩], [0, 1], 0⟩
def grp : PGroup := ⟨0, 1, 2, 0⟩
def lG : Launch := { l0 with pg := some tbl }
def e0 : WeirEntry := ⟨0, false, 5, false, 0, false, 5⟩
def e1 : WeirEntry := ⟨1, false, 5, false, 0, false, 0⟩
def eP : WeirEntry := ⟨3, true, 5, false, 0, false, 0⟩
def weir0 : WeirGroup := ⟨1, 4, [e0, e1, eP], 0⟩
def grouped : State := { descs with
  launches := [lG], weir := [weir0], tlb := ⟨.flume 0, 0, false, 0, 15, 0x00F000000000001F, none⟩ :: descs.tlb }
def sG (b : Band) : State := onB b grouped
def bS1 : Band := { bD with s := bD.s.set 1 (.ofVal 1) }
/-- The floor holds rank 0 back. -/
def weirFar : WeirGroup := { weir0 with entries := [{ e0 with step := 9 }, e1] }

theorem witness_collective_word_results :
    (Stands (.crs (memAt 4 .base)) bD (sG bD) ∧ (acting bD (sG bD)).bandLaunch bD = some lG ∧ lG.lr.redn ≠ 1 ∧
      Described bD 1152 64 (acting bD (sG bD)) (descOf bD 1152 64 (acting bD (sG bD))) (descRead bD 1152 64 (acting bD (sG bD))) ∧
      lG.group? (parseBucket (descOf bD 1152 64 (acting bD (sG bD)))).pgrp = some grp ∧
      (parseBucket (descOf bD 1152 64 (acting bD (sG bD)))).ok grp bD.rank = true ∧
      zeroBytes (descOf bD 1152 64 (acting bD (sG bD))) 49 64 = true ∧ (descRead bD 1152 64 (acting bD (sG bD))).checkStore bD 2048 32 = .ok () ∧
      (descRead bD 1152 64 (acting bD (sG bD))).slotsHeld bD.wg < 32 ∧ (descRead bD 1152 64 (acting bD (sG bD))).accessesDone bD = true) ∧
    (Stands (.gsget (.s 10) 0 0 7) b0 s0 ∧ (acting b0 s0).canAlloc b0 0 2 = true) ∧
    (Stands (.cscal (.s 1) (.a 5)) bS1 (sG bS1) ∧ (acting bS1 (sG bS1)).scalarSrc bS1 false (.a 5) = .ok 1216 ∧
      Described bS1 1216 32 (acting bS1 (sG bS1)) (descOf bS1 1216 32 (acting bS1 (sG bS1))) (descRead bS1 1216 32 (acting bS1 (sG bS1))) ∧
      (parseScalar (descOf bS1 1216 32 (acting bS1 (sG bS1)))).ok grp bS1.rank = true ∧
      zeroBytes (descOf bS1 1216 32 (acting bS1 (sG bS1))) 24 32 = true) ∧
    (Stands (.cag (memAt 6 .base)) bD (sG bD) ∧ Described bD 1280 64 (acting bD (sG bD)) (descOf bD 1280 64 (acting bD (sG bD)))
        (descRead bD 1280 64 (acting bD (sG bD))) ∧
      (parseCag (descOf bD 1280 64 (acting bD (sG bD)))).ok = true ∧ zeroBytes (descOf bD 1280 64 (acting bD (sG bD))) 32 64 = true ∧ grp.has bD.rank = true ∧
      (descRead bD 1280 64 (acting bD (sG bD))).walkFirst ((acting bD (sG bD)).bandCtx bD) .load 1 [(0, 0x8000000)] = .ok () ∧
      (descRead bD 1280 64 (acting bD (sG bD))).versionedPage ((acting bD (sG bD)).bandCtx bD) 0x8000000 = true) ∧
    (Stands .step bD (sG bD) ∧ (sG bD).weirOf 1 = some weir0 ∧ weir0.rank? bD.rank = some e0 ∧
      verNewer (e0.step + 1) (weir0.floor + BitVec.ofNat 32 weir0.lead) = false) ∧
    (Stands .step bD (onB bD { grouped with weir := [weirFar] }) ∧
      verNewer (9 + 1) (weirFar.floor + BitVec.ofNat 32 weirFar.lead) = true) ∧
    (∃ x, Stands (.steprd (.s 5) (.s 1) 3) bS1 (sG bS1) ∧ (acting bS1 (sG bS1)).stepArg bS1 (.s 1) = .ok 1 ∧ weirRead bS1 3 tbl grp weir0 1 = .ok x) ∧
    (∃ x, Stands (.steprd (.s 5) (.v 0) 0) bS1 (sG bS1) ∧ weirRead bS1 0 tbl grp weir0 0 = .ok x) := by
  obtain ⟨x, h⟩ := okEx (e := weirRead bS1 3 tbl grp weir0 1) (by decide +kernel)
  obtain ⟨y, k⟩ := okEx (e := weirRead bS1 0 tbl grp weir0 0) (by decide +kernel)
  exact ⟨⟨stands (by decide +kernel), by decide +kernel, by decide +kernel, described (by decide +kernel), by decide +kernel, by decide +kernel,
      by decide +kernel, by decide +kernel, by decide +kernel, by decide +kernel⟩, ⟨stands (by decide +kernel), by decide +kernel⟩,
    ⟨stands (by decide +kernel), by decide +kernel, described (by decide +kernel), by decide +kernel, by decide +kernel⟩,
    ⟨stands (by decide +kernel), described (by decide +kernel), by decide +kernel, by decide +kernel, by decide +kernel, by decide +kernel, by decide +kernel⟩,
    ⟨stands (by decide +kernel), by decide +kernel, by decide +kernel, by decide +kernel⟩, ⟨stands (by decide +kernel), by decide +kernel⟩,
    ⟨x, stands (by decide +kernel), by decide +kernel, h⟩, ⟨y, stands (by decide +kernel), k⟩⟩

def bkt (n : Nat) : Bucket := { parseBucket [] with count := 1, quorum := 1, recVa := 2048, timer := n }
def oCrs (owner : Nat) : Op := ⟨9, 0, 1, 2, p0, 0, none, .crs ⟨0, bkt 1, [owner], [], [], [], 0, false, []⟩⟩
def key0 : StepKey := ⟨1, 0, 0, 0⟩
def red0 : Reduction := ⟨key0, 0, (bkt 1).fields, [], 0, [], [], 0, false⟩
def norm0 : NormMsg := ⟨1, 0, 4, 0, 1, 0, 0⟩

/-- A CRS whose owner, rank 1 of the other device, it reaches round a ring, and the block that starts there. -/
def oRing : Op := ⟨9, 0, 1, 2, p0, 0, none, .crs ⟨0, { bkt 1 with fmt := 2 }, [1], [], [1], [], 0, false, []⟩⟩
def ring0 : RingMsg := ⟨key0, 1, 0, [], 0, 0, 0, 0, 0, 0, 0, false, [], [], [], 0, 9⟩
def norm1 (sent : Bool) : Norm := ⟨1, 0, 4, 0, 0, 0, sent, [], false⟩

theorem witness_reduction_results :
    (let s := withOp bD grouped (oCrs 0);
      s.op? 9 = some (oCrs 0) ∧ lG.group? (bkt 1).pgrp = some grp ∧ tbl.serves 0 = true ∧ (bkt 1).indices [0] 0 = [0] ∧
        (s.readSrc 9 (bkt 1) [0]).2 = none) ∧
    (let b : Bucket := { bkt 1 with src := 0x40000000 };
      ((withOp bD grouped ⟨9, 0, 1, 2, p0, 0, none, .crs ⟨0, b, [0], [], [], [], 0, false, []⟩⟩).readSrc 9 b [0]).2.isSome = true) ∧
    grouped.byLid 1 = some lG ∧
    (let s : State := { grouped with reductions := [red0] };
      (s.reductions.filter fun x => x.key == key0 && decide (x.deadline ≤ s.cycle)) = [red0]) ∧
    ((withOp bD grouped oRing).op? 9 = some oRing ∧ tbl.serves 1 = false ∧ ((withOp bD grouped oRing).ringJoin ring0).1.folded ≠ []) ∧
    ((1, 0, 4) ∉ grouped.stepClosed ∧ grouped.atClosedPoint lG tbl grp 0 4 = true) ∧
    (let n := grouped.normOf 1 0 4 0; n.closed = false ∧ (∀ x ∈ n.got, x.dev ≠ norm0.dev) ∧ (n.lid, n.pgrp, n.step) ∉ grouped.stepClosed) ∧
    (let s : State := { grouped with norms := [norm1 false], stepClosed := [(1, 0, 4)] };
      let n := s.normOf 1 0 4 0; n.closed = false ∧ n.sent = false ∧ (∀ x ∈ n.got, x.dev ≠ norm0.dev) ∧ (n.lid, n.pgrp, n.step) ∈ s.stepClosed) ∧
    (({ grouped with norms := [norm1 true] } : State).normOf 1 0 4 0).sent = true ∧
    (∃ x ∈ (({ grouped with norms := [⟨1, 0, 4, 0, 0, 0, false, [norm0], false⟩] } : State).normOf 1 0 4 0).got, x.dev = norm0.dev) := by
  decide +kernel

theorem witness_accumulation_order_irrelevant :
    (x320Add (x320Add 0 0 1 (.fin false 1 0)).1 (x320Add 0 0 1 (.fin false 1 0)).2 1 (.fin true 3 4)).2.getLsbD 0 = false := by decide +kernel

def oCs (sent : Bool) : Op := ⟨9, 0, 1, 2, p0, 0, none, .cscal 0 0 0 0 0 1 1 2048 0 0 sent false⟩
def scal0 : ScalarStep := ⟨1, 0, 0, 0, 0, 1, 1, 0, false, [], 0, false, 0, 0⟩
def oCag : Op := ⟨9, 0, 1, 2, p0, 0, none, .cag 0 0 0 1 0 0x8000000 2048 [] [] [] none 0⟩

/-- A table at 0 that leads to itself, and to a versioned page of 2 MiB at 128 MiB whose set at 256 has control word c; a CAG from elsewhere. -/
def gathered (c : Nat) : State := { grouped with tlb := [], mem := put64 (put64 (put64 [] 0 1) 512 0x1090000000000107) 256 c }
def cagIn0 (ended : Bool) : CagIn := ⟨7, 3, 0, 1, 7, 2, [1], [], [], none, ended⟩

theorem witness_cag_chunk_results :
    (grouped.byLid 1 = some lG ∧ grouped.launch? lG.uid = some lG ∧ grouped.cagIn? 7 3 = none) ∧
    (({ grouped with cagsIn := [cagIn0 true] } : State).cagIn? 7 3 = some (cagIn0 true) ∧ 1 ∈ (cagIn0 false).got) ∧
    ((gathered 4).chunkGone lG (gathered 4).someFlume 1 7 0x8000000 [] = false ∧ (gathered 4).byLid 1 = some lG) ∧
    (((gathered 0x54).tick 1).deliver lG (gathered 0x54).someFlume 1 7 0x8000000 0 []).2 = .waits ∧
    (((gathered 0).tick 1).deliver lG (gathered 0).someFlume 1 7 0x8000000 0 []).2 = .failed 1 ∧
    (((gathered 4).tick 1).deliver lG (gathered 4).someFlume 1 7 0x8000000 0 []).2 = .taken 256 false := by decide +kernel

theorem witness_gather_and_weir_results :
    (let s := withOp bD grouped (oCs false); s.op? 9 = some (oCs false) ∧ s.launch? 0 = some lG ∧ tbl.closer grp = tbl.here) ∧
    (let s : State := { grouped with scalars := [scal0] }; s.scalarStep? 1 0 0 = some scal0 ∧ (s.reg 0x2108).getLsbD 62 = false) ∧
    (({ grouped with regs := [(0x2108, 1#64 <<< 62)] } : State).reg 0x2108).getLsbD 62 = true ∧
    (withOp bD grouped (oCs true)).op? 9 = some (oCs true) ∧
    (0 + 2 * microseconds 1 ≤ ({ grouped with cycle := 1700 } : State).cycle) ∧
    ((withOp bD grouped oCag).op? 9 = some oCag ∧ 1 ≠ lG.here) ∧
    (grouped.weirOf 1 = some weir0 ∧ weir0.rank? 1 = some e1 ∧ e1.silent = false) ∧
    ((weir0.entries.find? fun e => e.isPod && e.who == 3) = some eP ∧
      State.podLeader tbl grp { weir0 with entries := [{ e0 with silent := true }, e1, eP] } (podOf (tbl.devAt tbl.here)) ≠ some tbl.here) ∧
    (∀ w ∈ grouped.weir, grouped.cycle < w.beatAt + grouped.hbeat) ∧ grouped.weir = [weir0] ∧
    (let s : State := { grouped with cycle := 10 ^ 12 };
      weir0.beatAt + s.hbeat ≤ s.cycle ∧ e1.asked = false ∧ max lG.activatedAt e1.heard + s.siltmo ≤ s.cycle ∧
        ({ s with heldMsgs := [⟨0, .weirStep 1 1 0⟩] } : State).heldMsgs[0]? = some ⟨0, .weirStep 1 1 0⟩ ∧ 0 + s.siltmo ≤ s.cycle) ∧
    (grouped.flmcmd 0xC000000000000000 = .refused) ∧
    (({ grouped with regs := [(0x2110, 1)] } : State).flmcmd 0x8000000000000001 = .silent weir0 e1) ∧
    (({ grouped with reductions := [red0] } : State).flmcmd 0x4000000000000001 = .close [red0] []) ∧
    ((1#21).toNat ≠ grouped.devid ∧ (grouped.launches.filter fun l => l.lr.lid.toNat == 1 && (l.phase == .active || l.phase == .killing)
        && (l.pg.isSome || grouped.ops.any fun o => o.launch == l.uid && grouped.copymTo (1#21).toNat o)) = [lG] ∧
      (∀ o ∈ grouped.ops, o.launch ≠ lG.uid) ∧ ∀ x ∈ grouped.inbound, x.launch ≠ lG.uid) := by decide +kernel

/-- At the header at 64, at a word that is none, and where no page is; and at a fetched header. -/
def bFetch (a : W64) : Band := { band0 with hdr := a, pc := a }
def bHdr : Band := { band0 with clause := some ⟨0xFC000FF0, [0]⟩ }

theorem witness_clause_results :
    ((sB (bFetch 64)).bandAt p0 = some (bFetch 64) ∧ (bFetch 64).canIssue = true ∧ (sB (bFetch 64)).missing ((sB (bFetch 64)).bandCtx (bFetch 64)) 64 = false ∧
      (sB (bFetch 64)).fetchWord (bFetch 64) 64 = .ok (0xFC000FF0, none) ∧ (sB (bFetch 64)).fetchWords (bFetch 64) 1 68 = .ok [(0, none)]) ∧
    ((sB (bFetch 68)).missing ((sB (bFetch 68)).bandCtx (bFetch 68)) 68 = false ∧ (sB (bFetch 68)).fetchWord (bFetch 68) 68 = .ok (0, none)) ∧
    ((sB (bFetch 0x10000000000)).missing ((sB (bFetch 0x10000000000)).bandCtx (bFetch 0x10000000000)) 0x10000000000 = false ∧
      isOk ((sB (bFetch 0x10000000000)).fetchWord (bFetch 0x10000000000) 0x10000000000) = false) ∧
    (bHdr.canIssue = true ∧ bHdr.atHeader = true ∧ bHdr.clause.isSome = true) ∧ b0.atHeader = false ∧
    ((0 : BitVec 4) ∉ [0xC, 0xD, 0xE] ∧ (0xC : BitVec 4) ∈ [0xC, 0xD, 0xE]) ∧
    (({ bHdr with f := bHdr.f.set 0 1 } : Band).f.toArray.getD 0 0 ≠ 0 ∧ (1 : BitVec 12).getLsbD 0 = true) := by decide +kernel

def atom0 (done : Bool) : AtomAcc := ⟨64, 0, 1, 7, done, false⟩
def acc0 (cls : BitVec 3) (done : Bool) (d : Dest) : Access := ⟨[⟨0, 64, [64]⟩], [atom0 done], 0, 1, cls, 0, d, 0, 0, false⟩
def mkOp (k : OpKind) : Op := ⟨9, 0, 1, 2, p0, 0, none, k⟩

theorem witness_accesses_perform_and_land :
    (let o := mkOp (.load (acc0 0 false .none)); let s := withOp b0 mapped o;
      s.op? 9 = some o ∧ s.orderFree o (acc0 0 false .none) (atom0 false) false = true ∧ s.kindOf (s.viewOf 0 0 64) = .ram ∧
        s.coreFree o (s.viewOf 0 0 64) = true ∧ s.heldBy 0 (s.viewOf 0 0 64) = false ∧ s.readOut (s.viewOf 0 0 64) = .ok) ∧
    (let o := mkOp (.store (acc0 0 false .none)); let s := withOp b0 mapped o;
      s.orderFree o (acc0 0 false .none) (atom0 false) false = true ∧ s.coreFree o (s.viewOf 0 0 64) = true) ∧
    (let o := mkOp (.atomic .add (acc0 0 false .none) [⟨0, 64, 1, 0, 0⟩] false 0); let s := withOp b0 mapped o;
      s.orderFree o (acc0 0 false .none) (atom0 false) false = true ∧ s.coreFree o (s.viewOf 0 0 64) = true) ∧
    (let o := mkOp (.arith .tagS (.scalar 3) 0); (withOp b0 mapped o).op? 9 = some o) ∧
    ((acc0 0 true .none).undone = false ∧ (acc0 5 true .tagS).undone = false ∧ (acc0 5 true .tagS).answered = false ∧ (acc0 5 true .tagS).dest ≠ .none) ∧
    (let b : Band := { b0 with s := b0.s.set 4 { SName.ofVal 0 with pend := some ⟨9, 0⟩ } };
      (sB b).band? 2 = some b ∧ (b.sName 4).pend = some ⟨9, 0⟩) ∧
    (let o := mkOp (.stm 0 0 [(0, 1)]); let s := withOp b0 (mappedL mirrored) o;
      s.op? 9 = some o ∧ s.wg? 1 = some w0 ∧ s.stmTarget w0 0 0 = some w0 ∧ s.stmFree o 0 0 0 = true) := by decide +kernel

def bWalk : Band := { b0 with wait := some (.walk 0x10000000 0 0) }
def bVer : Band := { b0 with wait := some (.version 0 64 256 (some 1) 0) }
def sVer : State := { sL (fun r => { r with vwait := 1 }) bVer with cycle := 850 }

def bWalk64 : Band := { b0 with wait := some (.walk 64 0 0) }
/-- A table at 0 that leads to itself, and to a leaf at 256 MiB. -/
def tabled : State := { onB bWalk mapped with mem := put64 (put64 [] 0 1) 1024 0x009000001000001F }

theorem witness_walk_and_version_wait_ends :
    (((sB bWalk).bands.filter fun x => match x.wait with
        | some (.walk v _ _) => v == 0x10000000 && ((sB bWalk).bandCtx x).agent == Agent.quad 0 0 && ((sB bWalk).bandCtx x).root == 0
        | _ => false) = [bWalk] ∧ bWalk.wait = some (.walk 0x10000000 0 0) ∧ (sB bWalk).tlbHit ((sB bWalk).bandCtx bWalk) 0x10000000 = none ∧
      isOk ((sB bWalk).walk ((sB bWalk).bandCtx bWalk) 0x10000000) = false) ∧
    ((sB bWalk64).tlbHit ((sB bWalk64).bandCtx bWalk64) 64).isSome = true ∧
    (tabled.tlbHit (tabled.bandCtx bWalk) 0x10000000 = none ∧ isOk (tabled.walk (tabled.bandCtx bWalk) 0x10000000) = true) ∧
    (sVer.bandAt p0 = some bVer ∧ sVer.bandLaunch bVer = some { l0 with lr := { l0.lr with vwait := 1 } } ∧ bVer.timeLeft = none ∧
      0 + microseconds 1 ≤ sVer.cycle ∧ sVer.currentOf 256 = none) := by decide +kernel

/-- A version set at 256 with a control word, and a publication into it. -/
def vset (c : Nat) : State := { mapped with mem := put64 mapped.mem 256 c }
def pub0 (slot : Option Nat) (by_ : Publisher) : Publication := ⟨256, 7, slot, 65536, 0, by_, [0]⟩
/-- A publication by CAG of version 7 into a page of 64 KiB with that set; a copy that has moved its bytes and is to close what it published. -/
def gathering : State := { vset 4 with
  tlb := ⟨.flume 0, 0, false, 0x8000000, 4, 0x1040000000000107, none⟩ :: mapped.tlb
  ops := [⟨9, 0, 1, 2, p0, 0, none, .cag 0 7 0 1 0 0x8000000 2048 [] [] [] none 0⟩] }
def oPub : Op := ⟨9, 0, 1, 2, p0, 0, none, .engine (.copy 1 [] (some ⟨[], 0, 65536, [(256, 7)], 65536⟩)) none⟩
/-- Armed for SNAP, and an enabled post of watches. -/
def snapOn : State := { mapped with regs := [(numOff 0x101, 1), (numOff 0x880, 0x8000008000000000), (numOff 0x883, 1#64 <<< 63)] }
def watch0 (p : Bool) : Watch := ⟨0, 64, 0, 0, 1, p⟩

/-- An advance of that set that is under way, and a load that is to be performed in the frame it moves CUR off. -/
def adv0 : Advance := ⟨256, some 0, 4096, 7, 65536⟩
def accOld : Access := acc0 0 false .none

theorem witness_publication_results :
    (gathering.launch? 0 = some l0 ∧ gathering.pub? 256 7 = none ∧ gathering.openRefused 256 7 = none ∧
      ((gathering.ops.filter fun o => o.launch == 0).findSome? (gathering.opensPub l0 256 7 65536)) = some (.rank 0)) ∧
    (vset 0x1020).openRefused 256 0 = some .stale ∧
    (vset 0x10).frameFor 256 = none ∧
    ((vset 0x1020).unreadSet 256 = false ∧ ({ vset 4 with poison := [256] } : State).unreadSet 256 = true ∧
      (vset 0x1020).frameFor 256 = (vset 0x1020).recyclable 256 ∧ ((vset 4).frameFor 256).isSome = true) ∧
    (let s : State := { vset 0 with pubs := [pub0 none (.rank 0)] }; s.pub? 256 7 = some (pub0 none (.rank 0))) ∧
    (let s : State := { vset 0x1020 with pubs := [pub0 (some 0) (.rank 0)] };
      (pub0 (some 0) (.rank 0)).chunks.length * 65536 = (pub0 (some 0) (.rank 0)).size ∧ s.pub? 256 7 = some (pub0 (some 0) (.rank 0)) ∧
      s.unreadSet 256 = false ∧ vsValid (vsCtl s 256) = true ∧ verNewer 7 (vsVer s 256 (vsCur (vsCtl s 256))) = true) ∧
    (let s : State := { vset 0x1020 with mem := put64 (put64 mapped.mem 256 0x1020) 296 9, pubs := [pub0 (some 0) (.rank 0)] };
      framesIn (vsCtl s 256) 2 ≠ [] ∧ vsValid (vsCtl s 256) = true ∧ verNewer 7 (vsVer s 256 (vsCur (vsCtl s 256))) = false) ∧
    (let s : State := { vset 0x1020 with pubs := [pub0 (some 0) (.copy 9)], ops := [oPub] };
      s.pub? 256 7 = some (pub0 (some 0) (.copy 9)) ∧ s.op? 9 = some oPub) ∧
    (let s : State := { vset 0x1020 with advances := [adv0] };
      (s.advances.find? fun x => x.set == 256) = some adv0 ∧ s.advanceReady adv0 = true) ∧
    (let s : State := { withOp b0 (vset 0x1020) (mkOp (.load accOld)) with advances := [adv0] };
      (s.advances.find? fun x => x.set == 256) = some adv0 ∧ s.advanceReady adv0 = false) := by decide +kernel

/-- A snapshot that has latched in this cycle. -/
def snapped (valid : Bool) : State :=
  { snapOn with regs := if valid then [(numOff 0x880, 0x8000000000), (numOff 0x883, 1#64 <<< 63)] else [(numOff 0x880, 0x8000008000000000)]
                snapAt := some ⟨snapOn.cycle, 1, 0⟩ }

theorem witness_watch_and_snapshot_results :
    (let s : State := { snapOn with watches := [watch0 true] };
      (s.watches.find? fun x => x.slot == 0) = some (watch0 true) ∧ s.wmbase.getLsbD 0 = true) ∧ (watch0 false).pending = false ∧
    Trigger.snap.enabled mapped.snapctl = false ∧ mapped.snapctl.getLsbD 63 = false ∧ (mapped.num 0x883).getLsbD 63 = false ∧
    (Trigger.snap.enabled (snapped true).snapctl = true ∧ (snapped true).snapctl.getLsbD 63 = false ∧ ((snapped true).num 0x883).getLsbD 63 = true ∧
      (snapped true).snapAt = some ⟨(snapped true).cycle, 1, 0⟩) ∧
    (Trigger.snap.enabled (snapped false).snapctl = true ∧ (snapped false).snapctl.getLsbD 63 = true) ∧
    (regsWf snapOn.regs = true ∧ (snapOn.num 0x883).getLsbD 63 = true ∧ regsWf (snapped false).regs = true ∧ ((snapped false).num 0x883).getLsbD 63 = false) ∧
    mapped.snapping = false ∧ ({ mapped with snapping := true } : State).snapping = true ∧
    mapped.num 0x881 = BitVec.ofNat 64 mapped.cycle ∧ ({ mapped with cycle := 5 } : State).num 0x881 ≠ BitVec.ofNat 64 5 := by decide +kernel

theorem witness_snap : Stands .snap b0 s0 := stands (by decide +kernel)

def bTpl (b : Band) : Band := { b with template := true }
def oBusy : Op := mkOp (.store (acc0 0 false .none))
def frozenS : State := { mappedL frozen with wgs := [w0] }
/-- An image that core 0 has not acknowledged, with a workgroup assigned and not yet stamped. -/
def img0 : Image := ⟨8, 0, 0, 2, [0], false, 0, 1, b0.v, b0.s, b0.o, b0.a, b0.b, b0.m, 0, 0, 0, [], none, ⟨0, 0, []⟩, [], []⟩
def wNew : Workgroup := { w0 with stamped := false }
def imaged : State := { mappedL frozen with images := [img0], wgs := [wNew], bands := [] }

theorem witness_band_end_and_stamp_results :
    (Stands .exit b0 s0 ∧ (acting b0 s0).exitReady b0 = true ∧ b0.template = false) ∧
    (Stands .exit b0 (onB b0 { mapped with ops := [oBusy] }) ∧ (acting b0 (onB b0 { mapped with ops := [oBusy] })).exitReady b0 = false) ∧
    (Stands .exit (bTpl b0) (sB (bTpl b0)) ∧ (acting (bTpl b0) (sB (bTpl b0))).exitReady (bTpl b0) = true) ∧
    (Stands .freeze b0 s0 ∧ (acting b0 s0).bandLaunch b0 = some l0 ∧ l0.lr.frz = 15) ∧
    (Stands .freeze (bTpl b0) (onB (bTpl b0) frozenS) ∧
      (acting (bTpl b0) (onB (bTpl b0) frozenS)).bandLaunch (bTpl b0) = some { l0 with lr := frozen l0.lr } ∧ (bTpl b0).depth = 0 ∧
      (acting (bTpl b0) (onB (bTpl b0) frozenS)).freezeReady (bTpl b0) = true ∧ (acting (bTpl b0) (onB (bTpl b0) frozenS)).wg? 1 = some w0) ∧
    ((imaged.images.find? fun x => x.launch == 0 && x.depth == 1 && x.inst == 0 && !x.acked.contains 0 &&
        !(imaged.awaiting { l0 with lr := frozen l0.lr } x 0).isEmpty) = some img0 ∧ imaged.prologueDone img0 = true ∧
      ∀ q ∈ img0.quads, imaged.poolWith 0 q (img0.vRegs [] []) (img0.sRegs [] []).length ≤ 2048) :=
  ⟨⟨stands (by decide +kernel), by decide +kernel, by decide +kernel⟩, ⟨stands (by decide +kernel), by decide +kernel⟩,
    ⟨stands (by decide +kernel), by decide +kernel⟩, ⟨stands (by decide +kernel), by decide +kernel, by decide +kernel⟩,
    ⟨stands (by decide +kernel), by decide +kernel, by decide +kernel, by decide +kernel, by decide +kernel⟩, by decide +kernel⟩

/-- Queue 0 with one record at 1 MiB, which asks for one workgroup; a launch of it that waits, with a dependence, and with a table. -/
def queued : State := { State.reset with
  regs := [(0, (1#64 <<< 63) ||| 0x100001), (8, 1#64 <<< 32), (numOff 0x80, 1#64 <<< 63), (numOff 0x2000, 1#64 <<< 63), (numOff 0x2002, 32)]
  mem := [(15, 1), (16, 0xF1), (26, 1), (41, 0x20), (73, 4), (192, 1), (196, 7)].foldl (fun m x => Mem.writeBytes m (0x100000 + x.1) [x.2]) [] }
def recQ : List Byte := (List.range 256).map (byteOf (queued.physRead (queued.slotOf 0 0) 256 (queued.queueWorld 0)))
def lW : Launch := { l0 with phase := .waiting }
def lDep : Launch := { lW with lr := { l0.lr with dep0 := ⟨true, 0, 0x10000000, 0⟩ }, deps := [⟨0, 0, 0, false⟩] }

theorem witness_launch_dispatch_and_activation :
    (fld (queued.num 0x2000) 63 62 = 2 ∧ queued.qhead 0 ≠ queued.qtail 0 ∧ (queued.qctl 0).getLsbD 63 = true ∧ queued.activeCount < 256 ∧
      queued.kindOf (queued.slotOf 0 (queued.qhead 0)) ≠ .hole ∧ (0, queued.qhead 0) ∉ queued.cancels ∧
      isOk (queued.checkLaunch recQ (queued.newLaunch 0 recQ)) = true) ∧
    (0, queued.qhead 0) ∈ ({ queued with cancels := [(0, 0)] } : State).cancels ∧
    (({ queued with mem := [] } : State).checkLaunch (List.replicate 256 0) (queued.newLaunch 0 (List.replicate 256 0)) matches .error 1) = true ∧
    State.reset.qhead 0 = State.reset.qtail 0 ∧
    (let s : State := { queued with launches := [lW] };
      (s.launches.find? fun l => l.queue == 0 && !l.isActive) = some lW ∧ s.depFault lW = false ∧ s.weirFull lW = false) ∧
    ({ queued with launches := [lDep] } : State).depFault lDep = true ∧
    (let l : Launch := { lW with pg := some tbl };
      ({ queued with launches := [l], weir := List.replicate 8 weir0 } : State).weirFull l = true) := by decide +kernel

/-- A launch whose one workgroup has ended, and one that is being killed. -/
def lEnd : Launch := { l0 with placed := [(0, 0)] }
def ended (f : Launch → Launch) : State := { mapped with launches := [f lEnd], wgs := [{ w0 with exited := true }], bands := [] }
def lKill (l : Launch) : Launch := { l with phase := .killing, kills := [.host], killed := 1, status := 0x0C }
def lReplay (l : Launch) : Launch := { lKill l with status := 0x08, lr := { l.lr with wset := 4096 } }
def redundant (n : Nat) (l : Launch) : Launch :=
  { l with lr := { l.lr with redn := 1 }, runs := n, placed := (List.range n).map fun r => (0, r), granules := [], runCores := [(0, 0)] }

theorem witness_launch_end_and_redundancy_results :
    (lEnd.places = true ∧ lEnd.lr.redn ≠ 1 ∧ (ended id).launch? 0 = some lEnd ∧ (ended id).allEnded lEnd = true) ∧ s0.allEnded l0 = false ∧
    (let l := { l0 with kills := [.host] }; l.kills[l.killed]? = some KillCause.host ∧ l.phase ≠ .killing) ∧
    (let l := { l0 with kills := [.host, .save], killed := 1, phase := .killing }; l.kills[l.killed]? = some KillCause.save ∧ l.phase = .killing) ∧
    ((ended lKill).killReady (lKill lEnd) = true ∧ (lKill lEnd).canRestore = false) ∧
    ((ended lReplay).killReady (lReplay lEnd) = true ∧ (lReplay lEnd).canRestore = true ∧
      (((ended lReplay).clearLaunch (lReplay lEnd)).restore (lReplay lEnd)).launch? 0 ≠ none) ∧
    ((ended id).endWatches 0).launch? 0 ≠ none ∧
    (let g : Granule := ⟨0, 0, true, none⟩; let s : State := { mapped with launches := [{ l0 with granules := [g] }], ops := [oBusy] };
      ([g].find? fun x => x.pa == g.pa && x.armed && s.granuleWanted 0 x.run g.pa) = some g) ∧
    ((redundant 2 lEnd).places = true ∧ (ended (redundant 2)).allEnded (redundant 2 lEnd) = true ∧
      (ended (redundant 2)).runsAgree (redundant 2 lEnd) 0 1 = true) ∧
    ((ended (redundant 3)).allEnded (redundant 3 lEnd) = true ∧ (ended (redundant 3)).runsAgree (redundant 3 lEnd) 2 0 = true) := by decide +kernel

/-- Three runs; their frames of a granule, whose first bytes are as `f` says. -/
def runs3 (l : Launch) : Launch :=
  { redundant 3 l with granules := (List.range 3).map fun r => ⟨0, r, false, some r⟩, poolBase := 0x100000 }
def ran (f : Nat → Byte) : State := { ended runs3 with
  mem := (List.range 3).foldl (fun m r => Mem.writeBytes m (0x100000 + 4096 * r) [f r]) mapped.mem }

theorem witness_redundant_runs_differ :
    (ran fun r => if r = 0 then 1 else 2).runsAgree (runs3 lEnd) 0 1 = false ∧
    (ran fun r => if r = 0 then 1 else 2).runsAgree (runs3 lEnd) 2 0 = false ∧
    (ran fun r => if r = 0 then 1 else 2).runsAgree (runs3 lEnd) 2 1 = true ∧
    (ran fun r => BitVec.ofNat 8 (r + 1)).runsAgree (runs3 lEnd) 2 0 = false ∧
    (ran fun r => BitVec.ofNat 8 (r + 1)).runsAgree (runs3 lEnd) 2 1 = false := by decide +kernel

/-- A launch whose workgroup is to be placed, on a die with a core and on one with none; one that has waited long above another. Banks with
no role leave a core without windows. -/
def noBanks : List (Nat × W64) := [(numOff 0x1000, 0xFFFFFFFFFFFF), (numOff 0x1001, 0x8000FFFFFFFFFFFF)]
def placing (cores : W64) (f : LaunchRec → LaunchRec) : State := { mappedL f with regs := [(numOff 0x2001, cores), (numOff 0x2002, 32)], wgs := [], bands := [] }
def wPre : Workgroup := { w0 with preempting := true }
def far (r : LaunchRec) : LaunchRec := { r with ctxb := 0x10000000, carve := 8 }
def near (r : LaunchRec) : LaunchRec := { r with carve := 8 }
def lHigh : Launch := { l0 with uid := 7, lr := { l0.lr with prio := 3 } }
def starving : State := { mapped with regs := [(0, 1#64 <<< 61), (numOff 0x2002, 32)], launches := [lEnd, lHigh], cycle := 65536 }

theorem witness_placement_and_preemption_results :
    (let s : State := { mappedL far with wgs := [wPre], bands := [], regs := noBanks ++ mapped.regs };
      s.wg? 1 = some wPre ∧ wPre.resident = true ∧ (∀ x ∈ s.together wPre, s.saveReady x = true) ∧
        ((s.together wPre).foldlM (fun (s : State) w => s.saveAll { l0 with lr := far l0.lr } w) s).isNone = true) ∧
    ((placing 1 near).badReplay = none ∧ ((placing 1 near).choose.1.map fun x => x.2.2) = some (.fresh [0] 0)) ∧
    ((placing 0 id).badReplay = none ∧ (placing 0 id).choose.1 = none) ∧
    (placing 1 fun r => { r with rply := 2 }).badReplay = some { l0 with lr := { l0.lr with rply := 2 } } ∧
    ((∀ x ∈ starving.wgs, x.preempting = false) ∧ starving.starved 3 = true ∧ victim (starving.victims 3) = some w0) := by decide +kernel

/-- The context area lies where nothing is populated, which is nothing to the translation. -/
theorem witness_preempt_saves :
    (let s : State := { mappedL near with
        wgs := [wPre], bands := [], tlb := (List.range 4).map fun q => ⟨.tailrace 0 q, 0, false, 0, 15, 0x00F040000000001F, none⟩, regs := noBanks ++ mapped.regs };
      ((s.together wPre).foldlM (fun (s : State) w => s.saveAll { l0 with lr := near l0.lr } w) s).isSome = true) := by decide +kernel

/-- A workgroup that was pre-empted before it was stamped. -/
def wOut : Workgroup := { w0 with resident := false, stamped := false }
def resuming : State := { mappedL near with
  wgs := [wOut], bands := [], launches := [{ lEnd with lr := near l0.lr }], regs := noBanks ++ [(numOff 0x2001, 1), (numOff 0x2002, 32)] }

theorem witness_resume : (resuming.choose.1.map fun x => x.2.2) = some (.resume [1]) := by decide +kernel

/-- A band with two frames of which one stands below the newest; frames at other stages of their transfer; a spill area with no page. -/
def bTwo : Band := { b0 with frames := [fr0, fr0] }
def frAt (x : FrameAt) : Frame := { fr0 with loc := x }
def bRefill : Band := { b0 with frames := [frAt .refilling] }
def farSpill (r : LaunchRec) : LaunchRec := { r with spillb := 0x10000000 }
/-- A quadrant whose pool cannot give what a word asks for, with two bands that stall. -/
def bFull : Band := { b0 with itemidx := 1, stalled := some ⟨0, 2048, 0⟩ }
def bLow : Band := { b3 with itemidx := 0, stalled := some ⟨0, 1, 0⟩, v := Vector.replicate 64 ⟨VReg.zero, .priv, none⟩ }
def stuckS : State := { mapped with bands := [bFull, bLow] }
def bPark : Band := { b0 with parked := true }

theorem witness_window_and_parking_results :
    (let s : State := { sB bTwo with cycle := 16 };
      s.bandAt p0 = some bTwo ∧ bTwo.frame? 1 = some fr0 ∧ 1 < bTwo.depth ∧ s.spillWanted p0 = true ∧
        isOk (s.slotPieces l0 p0 (s.frameSlot bTwo 1)) = true) ∧
    (let s : State := sL farSpill bTwo; isOk (s.slotPieces { l0 with lr := farSpill l0.lr } p0 (s.frameSlot bTwo 1)) = false) ∧
    (let b : Band := { b0 with frames := [fr0, frAt .spilling] }; b.frame? 1 = some (frAt .spilling) ∧ (frAt .spilling).settled = true) ∧
    ((sB bRefill).bandAt p0 = some bRefill ∧ bRefill.refilling? = some (1, frAt .refilling) ∧
      (match (sB bRefill).slotPieces l0 p0 ((sB bRefill).frameSlot bRefill 1) with
        | .ok ps => decide ((sB bRefill).badPieces ((sB bRefill).whoOf bRefill) ps = []) &&
            (let g := (frAt .refilling).refill (readPieces (sB bRefill) ((sB bRefill).whoOf bRefill) ps);
              (sB bRefill).canAlloc bRefill (vPriv g.hv) (sPriv g.hs))
        | .error _ => false) = true) ∧
    (stuckS.deadlocked 0 0 = true ∧
      (highestItem ((stuckS.quadBands 0 0).filter fun b => !b.template && some b.uid != (lowestItem (stuckS.quadBands 0 0)).map Band.uid)).map
        Band.uid = some bFull.uid ∧ stuckS.bandLaunch bFull = some l0 ∧
      stuckS.landing bFull = false ∧ ((stuckS.spillAll l0 bFull).bind fun t => t.saveBand l0 bFull).isSome = true) ∧
    s0.deadlocked 0 0 = false ∧
    ((lowestItem ((sB bPark).bands.filter fun b => b.place.core == 0 && b.place.quad == 0 && b.parked)).map Band.uid = some 2 ∧
      (∀ x ∈ (sB bPark).quadBands 0 0, x.stalled = none) ∧ ((sB bPark).canAlloc bPark (vPriv bPark.v.toList) (sPriv bPark.s.toList)) = true ∧
      ((sB bPark).loadBand l0 bPark).isSome = true) := by decide +kernel

/-- An access to v0 lane 0 of the band at core 0, quadrant 0, slot 0, which stands at a header. -/
def apAcc : Access := { acc0 0 false .none with lanes := [⟨0, 64, [apertureBase]⟩], atoms := [⟨apertureBase, 0, 15, 7, false, false⟩], width := 4 }

theorem witness_aperture_results :
    (let o := mkOp (.load apAcc); let s := withOp bHdr mapped o;
      s.op? 9 = some o ∧ apAcc.laneAtom 0 = some (0, ⟨apertureBase, 0, 15, 7, false, false⟩, ⟨0, 64, [apertureBase]⟩) ∧ s.kindOf apertureBase = .aperture ∧
        s.orderFree o apAcc ⟨apertureBase, 0, 15, 7, false, false⟩ false = true ∧ s.apOpen apertureBase false = true) ∧
    (let o := mkOp (.store apAcc); let s := withOp bHdr mapped o; s.apOpen apertureBase true = true ∧ s.apBand apertureBase = some bHdr ∧
      s.apRedirect bHdr apertureBase = none) := by decide +kernel

def bR : Band := { b0 with s := b0.s.set 1 (.ofVal 7) }

theorem witness_register_results :
    (Stands (.mfsr (.s 4) 0x80) b0 s0 ∧ (numSpec 0x80).isSome = true) ∧ (Stands (.mfsr (.s 4) 0x7FFF) b0 s0 ∧ numSpec 0x7FFF = none) ∧
    (Stands (.mtsr (.s 1) 0x7FFF) bR (sB bR) ∧ bR.readS 1 = .ok 7) ∧
    (Stands (.mtsr (.s 1) 0x1000) bR (sB bR) ∧ (numSpec 0x1000).isSome = true ∧ badRole 7 = true) ∧
    (Stands (.mtsr (.s 2) 0x1000) bR (sB bR) ∧ bR.readS 2 = .ok 0 ∧ badRole 0 = false ∧ (acting bR (sB bR)).coreIdle 0 = false) ∧
    (Stands (.mtsr (.s 2) 0x1002) bR (sB bR) ∧ (numSpec 0x1002).isSome = true ∧ (acting bR (sB bR)).coreIdle 1 = true) ∧
    (Stands (.mtsr (.s 2) 0x80) bR (sB bR) ∧ ¬ (0x1000 ≤ 0x80 ∧ 0x80 < 0x11E0)) ∧
    (let s : State := { State.reset with regs := [(numOff 0, 1#64 <<< 62)] };
      (numSpec 0).isSome = true ∧ numSpec 0 = regSpec (numOff 0) ∧ (s.num (0 % 0x40)).getLsbD 62 = true) ∧
    regsWf State.reset.regs = true ∧
    ((1 + 65536 - fld (State.reset.reg 8) 63 48) % 65536 ≤ 2 ^ max 1 (fld (State.reset.reg 0) 3 0) ∧
      2 ^ max 1 (fld (State.reset.reg 0) 3 0) < (5 + 65536 - fld (State.reset.reg 8) 63 48) % 65536) ∧
    (let s : State := { State.reset with cycle := 10 ^ 13 };
      fld (s.celogCtl 0) 55 32 ≠ 0 ∧ (s.celogOf 0).since + microseconds (1000 * fld (s.celogCtl 0) 55 32) ≤ s.cycle) ∧
    (let s : State := { State.reset with evTimes := [some 0], regs := [(evrctl, 1#64 <<< 51)], cycle := 850 };
      fld (s.reg evrctl) 62 51 ≠ 0 ∧ 0 + microseconds (fld (s.reg evrctl) 62 51) ≤ s.cycle) :=
  ⟨⟨stands (by decide +kernel), by decide +kernel⟩, ⟨stands (by decide +kernel), by decide +kernel⟩, ⟨stands (by decide +kernel), by decide +kernel⟩,
    ⟨stands (by decide +kernel), by decide +kernel, by decide +kernel⟩,
    ⟨stands (by decide +kernel), by decide +kernel, by decide +kernel, by decide +kernel⟩,
    ⟨stands (by decide +kernel), by decide +kernel, by decide +kernel⟩, ⟨stands (by decide +kernel), by decide⟩, by decide +kernel, by decide +kernel,
    by decide +kernel, by decide +kernel, by decide +kernel⟩

/-- The launch of LID 1 of queue 0, commands on it and on the band at core 0, quadrant 0, slot 0; a place of no core. -/
def cmd (op : Nat) (place : Nat) (b : Band) : State := { sB b with hcmd := some op, regs := [(numOff 0x2002, 32), (0x3000, BitVec.ofNat 64 (2 ^ 32 + place))] }
def bHalt : Band := { b0 with halted := true }
def bSusp : Band := { b0 with suspended := true, trap := some trap30 }

theorem witness_host_command_results :
    ((cmd 1 0 b0).hcmd = some 1 ∧ (((cmd 1 0 b0).readOf (cmd 1 0 b0).cmdQueue).find? fun l => l.lr.lid.toNat == (cmd 1 0 b0).cmdLid) = some l0) ∧
    (let s : State := { cmd 1 0 b0 with launches := [] };
      (∀ l ∈ s.readOf s.cmdQueue, l.lr.lid.toNat ≠ s.cmdLid) ∧ ∀ i ∈ s.unreadOf s.cmdQueue, s.recordLid s.cmdQueue i ≠ s.cmdLid) ∧
    (cmd 2 0 b0).hcmd = some 2 ∧
    ((cmd 3 0 b0).launches.find? fun l => l.lr.lid.toNat == (cmd 3 0 b0).cmdLid && l.isActive) = some l0 ∧
    (cmd 4 0 bHalt).cmdBand = some bHalt ∧ (cmd 5 0 b0).cmdBand = some b0 ∧
    ((cmd 6 0 bSusp).cmdBand = some bSusp ∧ bSusp.suspended = true ∧ bSusp.trap = some trap30) ∧ (cmd 7 0 bSusp).hcmd = some 7 ∧
    (cmd 4 (60 * 64) b0).cmdBand = none ∧ (cmd 9 0 b0).hcmd = some 9 := by decide +kernel

theorem witness_inbound_access_results :
    (let a : PcieAccess := ⟨.bar0, .read, 8, 8, 0⟩; a.size ≠ 0 ∧ a.space = .bar0 ∧ a.off + a.size ≤ 2 ^ 32) ∧
    (let a : PcieAccess := ⟨.bar0, .swap, 8, 8, 5⟩; PcieKind.newValue a.kind a.size a.data 0 = some 5 ∧ PcieKind.atomicForm a.kind a.size a.off = true) ∧
    (let a : PcieAccess := ⟨.bar2, .cas 0, 64, 8, 5⟩; a.size ≠ 0 ∧ a.off + a.size ≤ 2 ^ 36 ∧ PcieKind.newValue a.kind a.size a.data 0 = some 5 ∧
      (∀ p ∈ (List.range a.size).map fun i => fld (mapped.num 0x2010) 51 36 * 2 ^ 36 + a.off + i, mapped.kindOf p = .ram ∧ mapped.inSecure p = false) ∧
      PcieKind.atomicForm a.kind a.size (fld (mapped.num 0x2010) 51 36 * 2 ^ 36 + a.off) = true) ∧
    (let a : PcieAccess := ⟨.bar4, .read, 64, 8, 0⟩; a.size ≠ 0 ∧ a.space = .bar4 ∧ a.off + a.size ≤ 2 ^ 35) ∧
    (let s : State := { mapped with regs := [(numOff 0, 1#64 <<< 63), (numOff 0x40, 0), (numOff 0x2002, 32)] }; s.inSecure 64 = true) := by
  decide +kernel

def trained (b : Bool) : Bringup := ⟨0, 0, 0, [], [], [], [], b⟩
def booting : State := { State.reset with regs := [(numOff 0x2000, 1#64 <<< 62)] }
def running : State := { State.reset with regs := [(numOff 0x2000, 1#64 <<< 63)] }

theorem witness_boot_and_telemetry_results :
    fld (State.reset.num 0x2000) 63 62 = 0 ∧ fld (booting.num 0x2000) 63 62 = 1 ∧ (trained true).trained = true ∧ (trained false).trained = false ∧
    (running.attest = .idle ∧ fld (running.num 0x2000) 63 62 = 2 ∧ Mem.wf running.mailbox = true) ∧
    ({ running with attest := .pending 3 } : State).attest = .pending 3 := by decide +kernel

theorem witness_decode_of_encode : Instr.wellFormed (.sadd (.s 1) (.s 2) (.int 21)) = true ∧ (Instr.sadd (.s 1) (.s 2) (.int 21)).hasWord = true := by
  decide +kernel
theorem witness_encode_of_decode : decode [0x204142D5, 7] = .ok (.sadd (.s 1) (.s 2) (.int 21), [7]) := by decide +kernel

theorem witness_step_runs_decoded_instruction :
    (let s : State := { sB { b0 with clause := some ⟨0xFC000FF0, [0x204142D5]⟩ } with agenda := [⟨0, .issue p0⟩] };
      decode ((⟨0xFC000FF0, [0x204142D5]⟩ : Clause).from 0 4) = .ok (.sadd (.s 1) (.s 2) (.int 21), []) ∧ (s.bandAt p0).isSome = true) ∧
    (sB (bFetch 64)).bandAt p0 = some (bFetch 64) ∧
    isOk (decode ((⟨0xFC000FF0, [0x60000000]⟩ : Clause).from 0 4)) = false ∧
    (s0.agenda = [] ∧ ∀ f ∈ (s0.elapse 1).arrive.ownEvents, (s0.elapse 1).arrive.due f = false) ∧
    oldest ((s0.elapse 1).arrive.bands.filter fun b => (s0.elapse 1).arrive.bandReady b && (s0.elapse 1).arrive.mayIssue b.place) = some b0 ∧ s0.stray = none ∧
    ({ b0 with held := true } : Band).keptBack = true ∧ b0.keptBack = false ∧ s0.mayIssue p0 = true := by decide +kernel

theorem witness_step_keeps_form : State.reset.wf = true ∧ (after State.reset fun _ => ()) = some () := by decide +kernel

theorem witness_memory_reads_back : Mem.wf mapped.mem = true ∧ Mem.wf mapped.ls = true ∧ regsWf mapped.regs = true := by decide +kernel

theorem witness_reset_state : (regSpec (numOff 0x2000)).isSome = true := by decide +kernel

theorem witness_landing_frame : s0.band? 2 = some b0 := by decide +kernel

theorem witness_memory_frame :
    (let o := mkOp (.store (acc0 0 false .none)); let s := withOp b0 mapped o;
      Mem.wf s.mem = true ∧ s.op? 9 = some o ∧ s.orderFree o (acc0 0 false .none) (atom0 false) false = true ∧ s.coreFree o 64 = true ∧ s.kindOf 64 = .ram ∧
        s.heldBy 0 64 = false ∧ s.readOut 64 = .ok ∧ s.launch? 0 = some l0 ∧ l0.granules = []) ∧
    (acc0 1 false .none).cls = 1 := by decide +kernel

theorem witness_format_values : e4m3.value 0x38 = .fin false 8 (-3) ∧ (f32.value 0x3F800000).isNan = false ∧ 0x3F800000 < 2 ^ f32.width := by
  decide +kernel

/-! ## Completion -/

theorem witness_load_and_store_words_complete :
    (Stands (.ldv (.v 5) (memAt 1 .base)) b1 (sB b1) ∧ (elemOf b1 (.v 5)).2 = 1 ∧
      Addressed b1 (acting b1 (sB b1)) (memAt 1 .base) 32 true allLanes ea64 ∧
      Reached b1 (acting b1 (sB b1)) .load false false 1 (b1.memLanes (memAt 1 .base) ea64 1 true allLanes) ts1 ∧
      b1.versionMin 0 (memAt 1 .base) false = .ok (none, 0) ∧ versionShort none ts1 = none ∧
      loadReady b1 (.v 5) false allLanes (acting b1 (sB b1)) = true) ∧
    (∃ data, Stands (.stv (.v 5) (memAt 1 .base)) b1 (sB b1) ∧ (acting b1 (sB b1)).lanesSrc b1 (elemOf b1 (.v 5)).1 (.v 5) = .ok data ∧
      Reached b1 (acting b1 (sB b1)) .store false true 1 (b1.memLanes (memAt 1 .base) ea64 1 true allLanes) ts1) := by
  obtain ⟨da, hs⟩ := okEx (e := (acting b1 (sB b1)).lanesSrc b1 (elemOf b1 (.v 5)).1 (.v 5)) (by decide +kernel)
  exact ⟨⟨stands (by decide +kernel), by decide +kernel,
      ⟨by decide +kernel, by decide +kernel, by decide +kernel, by decide +kernel, by decide +kernel, fun _ => by decide +kernel⟩,
      ⟨by decide +kernel, by decide +kernel, by decide +kernel, fun _ => by decide +kernel, by decide +kernel, fun _ => by decide +kernel⟩,
      by decide +kernel, by decide +kernel, by decide +kernel⟩, ⟨da, stands (by decide +kernel), hs,
      ⟨by decide +kernel, by decide +kernel, by decide +kernel, fun _ => by decide +kernel, by decide +kernel, fun _ => by decide +kernel⟩⟩⟩

theorem witness_atomic_mirror_and_prefetch_words_complete :
    (∃ src, Stands (.atadd (.s 4) (memAt 1 .base)) bU (sB bU) ∧ AtomKind.add.accepts bU.typ = true ∧
      (acting bU (sB bU)).atomSrc bU .add bU.typ 4 (.s 4) = .ok src ∧ atomVector (.s 4) (memAt 1 .base) = false ∧
      Addressed bU (acting bU (sB bU)) (memAt 1 .base) 4 true allLanes ea64 ∧
      Reached bU (acting bU (sB bU)) .atomic true true 4 (bU.memLanes (memAt 1 .base) ea64 4 false allLanes) ts4 ∧
      loadReady bU (.s 4) false 1 (acting bU (sB bU)) = true) ∧
    (∃ data, Stands (.stm (.s 4) (memAt 1 .base)) b1 (sL mirrored b1) ∧ (acting b1 (sL mirrored b1)).wg? b1.wg = some w0 ∧
      (acting b1 (sL mirrored b1)).rawData b1 (.s 4) = .ok data ∧ ((acting b1 (sL mirrored b1)).lsView w0).mirr = true ∧
      64 + 8 ≤ (acting b1 (sL mirrored b1)).window 0 ((acting b1 (sL mirrored b1)).lsView w0).carve .sp / 2 ∧
      ((acting b1 (sL mirrored b1)).stmTarget w0 0 0).isSome = true) ∧
    (Stands (.pref (memAt 1 .base)) b1 (sB b1) ∧ (acting b1 (sB b1)).effective b1 (memAt 1 .base) 128 = .ok ea64 ∧
      ∃ x, (acting b1 (sB b1)).translate ((acting b1 (sB b1)).bandCtx b1) .load 64 = .ok x ∧ x.pa = 64 ∧ cachedClass x.cc = true ∧ x.bind = none ∧
        (acting b1 (sB b1)).viewOf 0 0 64 = 64 ∧ (acting b1 (sB b1)).kindOf 64 = .ram ∧ (acting b1 (sB b1)).locked b1 .mem 0 false 0 128 = false ∧
        (acting b1 (sB b1)).errs = [] ∧ (acting b1 (sB b1)).readOut 64 = .ok ∧ (acting b1 (sB b1)).l1 = [] ∧ 0 < (acting b1 (sB b1)).l1Ways 0) := by
  obtain ⟨src, hsrc⟩ := okEx (e := (acting bU (sB bU)).atomSrc bU .add bU.typ 4 (.s 4)) (by decide +kernel)
  obtain ⟨dm, hm⟩ := okEx (e := (acting b1 (sL mirrored b1)).rawData b1 (.s 4)) (by decide +kernel)
  obtain ⟨x, hx⟩ := okEx (e := (acting b1 (sB b1)).translate ((acting b1 (sB b1)).bandCtx b1) .load 64) (by decide +kernel)
  have hp : (acting b1 (sB b1)).translate ((acting b1 (sB b1)).bandCtx b1) .load 64 = .ok x → x.pa = 64 ∧ cachedClass x.cc = true ∧ x.bind = none := by
    have h : (match (acting b1 (sB b1)).translate ((acting b1 (sB b1)).bandCtx b1) .load 64 with
      | .ok y => decide (y.pa = 64) && cachedClass y.cc && y.bind.isNone | .error _ => false) = true := by decide +kernel
    intro e; rw [e] at h; simp only [Bool.and_eq_true, decide_eq_true_eq, Option.isNone_iff_eq_none] at h; exact ⟨h.1.1, h.1.2, h.2⟩
  exact ⟨⟨src, stands (by decide +kernel), by decide +kernel, hsrc, by decide +kernel,
      ⟨by decide +kernel, by decide +kernel, by decide +kernel, by decide +kernel, by decide +kernel, fun _ => by decide +kernel⟩,
      ⟨by decide +kernel, by decide +kernel, by decide +kernel, nofun, by decide +kernel, nofun⟩, by decide +kernel⟩,
    ⟨dm, stands (by decide +kernel), by decide +kernel, hm, by decide +kernel, by decide +kernel, by decide +kernel⟩,
    ⟨stands (by decide +kernel), by decide +kernel, x, hx, (hp hx).1, (hp hx).2.1, (hp hx).2.2, by decide +kernel, by decide +kernel, by decide +kernel,
      by decide +kernel, by decide +kernel, by decide +kernel, by decide +kernel⟩⟩

theorem witness_matrix_words_complete :
    (∃ sa, Stands (.mmaE4m3 (.s 10) (.s 10) 0 0 0 0) bX (onB bX withB) ∧ (acting bX (onB bX withB)).lanesOf bX = .ok (~~~ 0#32) ∧
      (acting bX (onB bX withB)).scalarSrc bX false (.s 10) = .ok 0 ∧ (acting bX (onB bX withB)).wg? bX.wg = some { w0 with current := some g0 } ∧
      16384 ≤ (acting bX (onB bX withB)).spaceSize { w0 with current := some g0 } .cb ∧
      32 * (64 * mxBits 0 / 8) ≤ (acting bX (onB bX withB)).spaceSize { w0 with current := some g0 } .ab ∧ bX.readV 62 = .ok sa ∧
      ((onB bX withB).arrayQueue 0 0).length < 16 ∧ (onB bX withB).locks = []) ∧
    (let s : State := { onB bX withB with ops := [oMma] };
      s.op? 9 = some oMma ∧ s.wg? oMma.wg = some { w0 with current := some g0 } ∧ ((s.arrayQueue 0 0).head?).map Op.uid = some 9) := by
  obtain ⟨sa, h⟩ := okEx (e := bX.readV 62) (by decide +kernel)
  exact ⟨⟨sa, stands (by decide +kernel), by decide +kernel, by decide +kernel, by decide +kernel, by decide +kernel, by decide +kernel, h,
    by decide +kernel, by decide +kernel⟩, by decide +kernel⟩

/-- A computation that answers, with an answer of which `p` holds. -/
theorem okAll {ε α : Type} {e : Except ε α} {p : α → Bool} (h : (match e with | .ok x => p x | .error _ => false) = true) :
    ∃ x, e = .ok x ∧ p x = true := by
  cases e with
  | ok x => exact ⟨x, rfl, h⟩
  | error _ => cases h

/-- A band whose most recent copy is under way. -/
def bY : Band := { b0 with lastCopy := some 9 }
def sY : State := onB bY { mapped with ops := [oCopy [sl0] none] }

theorem witness_engine_and_collective_words_complete :
    (Stands (.copy (memAt 2 .base)) bD sD ∧
      CopyRead bD (acting bD sD) 1024 (some (wordsOf (descOf bD 1024 64 (acting bD sD)) 8)) none (readD 1024 64) ∧
      (readD 1024 64).wg? bD.wg = some w0 ∧ (readD 1024 64).bandLaunch bD = some l0 ∧ (readD 1024 64).entriesHeld bD.wg < l0.lr.copies ∧
      (readD 1024 64).locks = [] ∧
      ∀ op, ((readD 1024 64).sliceLocks bD w0 op (parseCopy (wordsOf (descOf bD 1024 64 (acting bD sD)) 8))).length ≤ 64) ∧
    (Stands (.copym (memAt 8 .base)) bD sD ∧ CopyRead bD (acting bD sD) 65 none none (acting bD sD)) ∧
    (Stands (.mack 3) bD sD ∧ (acting bD sD).accessesDone bD = true) ∧
    (Stands (.stash (.v 16) (memAt 3 .base)) bD sD ∧ (parseStash (descOf bD 1088 64 (acting bD sD))).footprints.length ≤ 64 ∧ (readD 1088 64).locks = []) ∧
    (Stands (.yieldc 14) bY sY ∧ ((acting bY sY).op? 9).isSome = true) ∧
    (Stands (.yieldc 14) b0 s0 ∧ b0.lastCopy = none ∧ (acting b0 s0).notHeader b0 (targetOf b0 14) = false) ∧
    (Stands (.crs (memAt 4 .base)) bD (sG bD) ∧ (parseBucket (descOf bD 1152 64 (acting bD (sG bD)))).normg < 128 ∧ lG.crsDone = [] ∧
      (∃ os, State.pageOwners ((((descRead bD 1152 64 (acting bD (sG bD))).noteRecord ((descRead bD 1152 64 (acting bD (sG bD))).bandCtx bD)
          (parseBucket (descOf bD 1152 64 (acting bD (sG bD)))).recVa).externalEffect lG.uid).modLaunch lG.uid fun x => { x with crsDone := x.crsDone ++
        [(bD.rank, (parseBucket (descOf bD 1152 64 (acting bD (sG bD)))).pgrp, (parseBucket (descOf bD 1152 64 (acting bD (sG bD)))).bid,
          (parseBucket (descOf bD 1152 64 (acting bD (sG bD)))).stepn)] }) lG 0 grp
            (parseBucket (descOf bD 1152 64 (acting bD (sG bD)))) = .ok os ∧ ∀ w ∈ os, tbl.serves w = true)) ∧
    (Stands (.gsget (.s 10) 0 0 7) b0 s0 ∧ (acting b0 s0).canAlloc b0 0 2 = true) ∧
    (Stands (.cscal (.s 1) (.a 5)) bS1 (sG bS1) ∧ tbl.closer grp = tbl.here) ∧
    (Stands (.cag (memAt 6 .base)) bD (sG bD) ∧ flagFree bD false = true) ∧
    (Stands .step bD (sG bD) ∧ verNewer (e0.step + 1) (weir0.floor + BitVec.ofNat 32 weir0.lead) = false) ∧
    (Stands (.steprd (.s 5) (.v 0) 0) bS1 (sG bS1) ∧ flagFree bS1 true = true ∧ (acting bS1 (sG bS1)).canAlloc bS1 0 1 = true) := by
  refine ⟨⟨stands (by decide +kernel), .inr ⟨by decide +kernel, _, described (by decide +kernel), rfl, by decide +kernel⟩,
      by decide +kernel, by decide +kernel, by decide +kernel, by decide +kernel, fun op => ?_⟩,
    ⟨stands (by decide +kernel), .inl ⟨by decide +kernel, rfl, rfl, rfl⟩⟩, ⟨stands (by decide +kernel), by decide +kernel⟩,
    ⟨stands (by decide +kernel), by decide +kernel, by decide +kernel⟩, ⟨stands (by decide +kernel), by decide +kernel⟩,
    ⟨stands (by decide +kernel), by decide +kernel, by decide +kernel⟩,
    ⟨stands (by decide +kernel), by decide +kernel, by decide +kernel, ?_⟩, ⟨stands (by decide +kernel), by decide +kernel⟩,
    ⟨stands (by decide +kernel), by decide +kernel⟩, ⟨stands (by decide +kernel), by decide +kernel⟩, ⟨stands (by decide +kernel), by decide +kernel⟩,
    ⟨stands (by decide +kernel), by decide +kernel, by decide +kernel⟩⟩
  · have h : (parseCopy (wordsOf (descOf bD 1024 64 (acting bD sD)) 8)).isNull = true := by decide +kernel
    generalize parseCopy (wordsOf (descOf bD 1024 64 (acting bD sD)) 8) = d at h ⊢
    unfold State.sliceLocks
    simp only [h, Bool.true_or, if_true, List.length_nil, Nat.zero_le]
  · obtain ⟨os, h, k⟩ := okAll (p := fun os : List Nat => os.all fun w => tbl.serves w)
      (e := State.pageOwners ((((descRead bD 1152 64 (acting bD (sG bD))).noteRecord ((descRead bD 1152 64 (acting bD (sG bD))).bandCtx bD)
          (parseBucket (descOf bD 1152 64 (acting bD (sG bD)))).recVa).externalEffect lG.uid).modLaunch lG.uid fun x => { x with crsDone := x.crsDone ++
        [(bD.rank, (parseBucket (descOf bD 1152 64 (acting bD (sG bD)))).pgrp, (parseBucket (descOf bD 1152 64 (acting bD (sG bD)))).bid,
          (parseBucket (descOf bD 1152 64 (acting bD (sG bD)))).stepn)] }) lG 0 grp
            (parseBucket (descOf bD 1152 64 (acting bD (sG bD))))) (by decide +kernel)
    exact ⟨os, h, List.all_eq_true.1 k⟩

/-! ## Witnesses of the clauses on waits that have ended, held words and redirected accesses -/

def bDone (b : Band) : Band := { b with wait := some (.done 1) }

theorem witness_ended_waits :
    Stands (.acqrg (.s 4) (.a 6) (.s 12)) (bDone bT) (onB (bDone bT) mapped) ∧ Stands (.bar (.s 9) (.s 2) 0) (bDone b0) (sB (bDone b0)) ∧
    (Stands (.swaph (.s 9) (.s 2)) (bDone b0) (sL mirrored (bDone b0)) ∧ (acting (bDone b0) (sL mirrored (bDone b0))).wg? 1 = some w0 ∧
      (acting (bDone b0) (sL mirrored (bDone b0))).bandLaunch (bDone b0) = some { l0 with lr := mirrored l0.lr } ∧
      (acting (bDone b0) (sL mirrored (bDone b0))).canAlloc (bDone b0) 0 1 = true) ∧
    (Stands (.monwait (.s 15) 0 (.s 16)) (bDone bMon) (sB (bDone bMon)) ∧ (bDone bMon).monitor? 0 = some ⟨0, 64⟩ ∧
      (acting (bDone bMon) (sB (bDone bMon))).readOut ((acting (bDone bMon) (sB (bDone bMon))).monPa (bDone bMon) ⟨0, 64⟩ / 32 * 32) = .ok) :=
  ⟨stands (by decide +kernel), stands (by decide +kernel), ⟨stands (by decide +kernel), by decide +kernel⟩, stands (by decide +kernel), by decide +kernel⟩

/-- A band with a frame below a transfer that is tried again, one whose frame is spilled, and one whose accumulator scale registers read. -/
def bAgain (b : Band) : Band := { b with retrying := some 1 }
def bGone : Band := { b1 with frames := [{ fr0 with loc := .spilled }] }

theorem witness_held_words :
    (acting bX (onB bX busyS)).accessesDone bX = false ∧
    (Stands (.accrd (.v 16) (.s 10) 1 1 9) bOff (sB bOff) ∧ (acting bOff (sB bOff)).lanesOf bOff = .ok 0) ∧
    ((acting bX (sB bX)).canAlloc bX (accRegs 9) 0 = true ∧ ∀ u, u < accRegs 9 → bX.partialReady (16 + u) allLanes = .ok ()) ∧
    (Stands (.loop (.s 2) 0) b1 (sB b1) ∧ b1.readS 2 = .ok 0 ∧ (acting b1 (sB b1)).notHeader b1 (targetOf b1 0) = true) ∧
    (Stands (.call 16 14) (bAgain b1) (sB (bAgain b1)) ∧ Call (.call 16 14) (bAgain b1) (acting (bAgain b1) (sB (bAgain b1))) 16 64 ∧
      (bAgain b1).winFault = none) ∧
    (Stands .ret bGone (sB bGone) ∧ bGone.frames = [{ fr0 with loc := .spilled }] ∧ bGone.winFault = none) ∧ flagFree b1 false = true ∧
    (∃ ds, ({ sH b0 with poison := [0x380] } : State).handler b0 0x30 = .damaged ds) := by
  refine ⟨by decide +kernel, ⟨stands (by decide +kernel), by decide +kernel⟩, by decide +kernel, ⟨stands (by decide +kernel), by decide +kernel⟩,
    ⟨stands (by decide +kernel), .call 16 14 _ _ (by decide +kernel), rfl⟩, ⟨stands (by decide +kernel), by decide +kernel⟩, by decide +kernel,
    [(0x380, .memUncorrectable)], ?_⟩
  decide +kernel

/-- A store of the band that is still to be performed in the atom at an address, and what plain loads of a refilled frame's slot find. -/
def storeAt (pa : Nat) : Op := ⟨8, 0, 1, 2, p0, 0, none, .store ⟨[⟨0, 64, [pa]⟩], [⟨pa, 0, 1, 7, false, false⟩], 0, 1, 0, 0, .none, 0, 0, false⟩⟩
def refillFinds (s : State) : Option PlainRead :=
  match s.slotPieces l0 p0 (s.frameSlot bRefill 1) with
  | .ok ps => some (s.plainRead bRefill ((frAt .refilling).used (s.withClass (l0.areaCtx p0) (s.frameSlot bRefill 1) ps)))
  | .error _ => none
def bSpilling : Band := { b0 with frames := [frAt .spilling] }
/-- A parked band whose newest frame is spilled. -/
def frS : Frame := ⟨64, 2, [VName.zero], [SName.zero], .spilled⟩
def bParkF : Band := { bPark with frames := [frS] }

theorem witness_window_transfers_wait_or_fail :
    ((sB bSpilling).bandAt p0 = some bSpilling ∧ bSpilling.frame? 1 = some (frAt .spilling) ∧
      (match (sB bSpilling).slotPieces l0 p0 ((sB bSpilling).frameSlot bSpilling 1) with
        | .ok ps =>
          let pas := ps.flatMap fun x => (atomsOfRun x.1 x.2).map ((sB bSpilling).viewOf 0 0)
          (sB bSpilling).readNow bSpilling false pas && !(withOp bSpilling mapped (storeAt 64)).readNow bSpilling false pas
        | .error _ => false) = true) ∧
    isOk ((sL farSpill bSpilling).slotPieces { l0 with lr := farSpill l0.lr } p0 ((sL farSpill bSpilling).frameSlot bSpilling 1)) = false ∧
    isOk ((sL farSpill bRefill).slotPieces { l0 with lr := farSpill l0.lr } p0 ((sL farSpill bRefill).frameSlot bRefill 1)) = false := by decide +kernel

theorem witness_refill_finds :
    refillFinds (withOp bRefill mapped (mkOp (.atomic .add (acc0 0 false .none) [] false 0))) = some .hold ∧
    (match refillFinds { sB bRefill with poison := [0] } with | some (.damaged _ _) => true | _ => false) = true ∧
    (match refillFinds (sB bRefill) with | some (.bytes _) => true | _ => false) = true := by decide +kernel

theorem witness_restore_with_a_frame :
    (∀ x ∈ (sB bParkF).quadBands 0 0, x.stalled = none) ∧
    lowestItem ((sB bParkF).bands.filter fun b => b.place.core == 0 && b.place.quad == 0 && b.parked) = some bParkF ∧
    (match (sB bParkF).loadBand l0 bParkF with
      | some c =>
        let c' := ({ c with parked := false, held := false, readyAt := 0, f := bParkF.f, fps := c.fps ||| bParkF.fps } : Band).rejoin 0
        decide (c.frames = [frS]) && c.winFault.isNone && (match (sB bParkF).readSlot l0 c' c'.depth frS with
          | .frame g _ _ => (sB bParkF).canAlloc bParkF (vPriv c.v.toList + vPriv g.hv) (sPriv c.s.toList + sPriv g.hs)
          | _ => false)
      | none => false) = true := by decide +kernel

/-- A version set at 256 whose current version is 0, where version 1 is awaited; the same band parked. -/
def aged (b : Band) : State := { sVer with bands := [b], mem := put64 mapped.mem 256 0x1020 }
def bVerP : Band := { bVer with parked := true }

theorem witness_version_wait_on_an_older_version :
    ((aged bVer).bandAt p0 = some bVer ∧ ((aged bVer).currentOf 256).map Prod.snd = some 0 ∧ verAtLeast 0 1 = false ∧
      0 + microseconds 1 ≤ (aged bVer).cycle) ∧
    ((aged bVerP).bandAt p0 = some bVerP ∧ bVerP.parked = true) ∧
    ((aged { bVer with wait := some (.version 0 64 256 (some 0) 0) }).currentOf 256).map Prod.snd = some 0 ∧ verAtLeast 0 0 = true ∧
    ¬ 0 + microseconds 1 ≤ ({ aged bVer with cycle := 5 } : State).cycle := by decide +kernel

def bHdrP : Band := { bHdr with parked := true }

theorem witness_redirected_aperture :
    (let o := mkOp (.load apAcc); let s := withOp bHdrP mapped o; let r := AtomAcc.redirected ⟨apertureBase, 0, 15, 7, false, false⟩ apertureBase 2097152 0 4;
      s.apOpen apertureBase false = true ∧ s.apRam apertureBase = some (2097152, 0) ∧
        s.redirectFree o apAcc r (apAcc.usesL1 r (s.heldBy 0 (s.viewOf 0 0 r.pa))) = true) ∧
    (let o := mkOp (.store apAcc); let s := withOp bHdrP mapped o; let r := AtomAcc.redirected ⟨apertureBase, 0, 15, 7, false, false⟩ apertureBase 2097152 0 4;
      s.apOpen apertureBase true = true ∧ s.redirectFree o apAcc r false = true) ∧
    (let o := mkOp (.store apAcc); let s : State := { withOp bHdrP mapped o with ops := [storeAt 2097152, o] };
      let r := AtomAcc.redirected ⟨apertureBase, 0, 15, 7, false, false⟩ apertureBase 2097152 0 4; s.redirectFree o apAcc r false = false) := by decide +kernel

/-- A command on the record of identifier 0 that queue 0 has not had read; one on a suspended band whose launch is being killed. -/
def unread : State := { queued with hcmd := some 1 }
def killed7 : State := { cmd 7 0 bSusp with launches := [{ l0 with kills := [.host] }] }

theorem witness_commands_on_unread_and_killed :
    ((∀ l ∈ unread.readOf unread.cmdQueue, l.lr.lid.toNat ≠ unread.cmdLid) ∧
      ((unread.unreadOf unread.cmdQueue).find? fun i => unread.recordLid unread.cmdQueue i == unread.cmdLid) = some 0) ∧
    (killed7.cmdBand = some bSusp ∧ killed7.beingKilled 0 = true) ∧ (cmd 7 0 bSusp).beingKilled 0 = false := by decide +kernel

/-- A store into a region that the core holds, by the L1 and not; a line of the L1; a granule that is armed, with a pool of one frame. -/
def atomH : AtomAcc := ⟨65600, 0, 1, 7, false, false⟩
def accH (cls : BitVec 3) : Access := { acc0 cls false .none with lanes := [⟨0, 65600, [65600]⟩], atoms := [atomH] }
def line0 : L1Line := { core := 0, line := 0, valid := 1, dirty := 1, data := 7, owner := some 0 }
def lArmed : Launch := { l0 with granules := [⟨0, 0, true, none⟩], poolBase := 0x100000, poolN := 1 }

theorem witness_held_regions_and_granules :
    (let o := mkOp (.store (accH 0)); let s := withOp b0 ours o;
      s.heldBy 0 (s.viewOf 0 0 65600) = true ∧ (accH 0).usesL1 atomH true = true ∧ s.orderFree o (accH 0) atomH false = true ∧
        s.coreFree o 65600 = true ∧ s.kindOf 65600 = .ram) ∧
    (let o := mkOp (.store (accH 1)); let s := withOp b0 ours o;
      (accH 1).usesL1 atomH true = false ∧ s.orderFree o (accH 1) atomH false = true ∧
        (let m := (s.flushLine 0 (65600 / 128)).armWrite 0 0 65600
         Mem.wf m.mem = true ∧ m.viewOf 0 0 65600 % 32 = 0 ∧ m.readOut 65600 = .ok ∧ m.errs = [])) ∧
    (let o := mkOp (.atomic .add (accH 0) [⟨0, 65600, 1, 0, 0⟩] false 0); let s := withOp b0 ours o;
      s.orderFree o (accH 0) atomH false = true ∧ s.coreFree o 65600 = true ∧ (s.flushLine 0 (65600 / 128)).readOut 65600 = .ok ∧
        ({ s with poison := [65600] } : State).readOut 65600 = .bad) ∧
    (let o := mkOp (.load (acc0 0 false .none)); let s := withOp b0 mapped o;
      s.errs = [] ∧ (acc0 0 false .none).usesL1 (atom0 false) (s.heldBy 0 64) = true ∧ s.readOut 64 = .ok) ∧
    (let s : State := { mapped with launches := [lArmed] };
      s.launch? 0 = some lArmed ∧ lArmed.granule? 0 64 = some ⟨0, 0, true, none⟩ ∧ lArmed.poolNext < lArmed.poolN ∧ lArmed.poolBase % 4096 = 0 ∧
        Mem.wf s.mem = true ∧ (s.copyPage 0 0x100000).readOut 0x101000 = .ok ∧ (s.copyPage 0 0x100000).errs = []) ∧
    (let s : State := { mapped with l1 := [line0] }; s.line? 0 0 = some line0 ∧ s.poison = [] ∧ s.inSecure 0 = false) := by decide +kernel

/-- The clause at 64 in a damaged atom, and one whose second word lies at the end of what is mapped; a band that RFT returned into it. -/
def bBack (r : W64) : Band := { bFetch 64 with resume := some r }

theorem witness_clause_fetch_resumes_or_fails :
    (match ({ sB (bFetch 64) with poison := [64] } : State).fetchWord (bFetch 64) 64 with | .ok (_, some _) => true | _ => false) = true ∧
    (bBack 68).resume = some 68 ∧ (⟨0xFC000FF0, [0]⟩ : Clause).holds 64 68 = true ∧ (⟨0xFC000FF0, [0]⟩ : Clause).holds 64 4096 = false ∧
    (4096 : W64) ≠ va57 (64 + 4 * BitVec.ofNat 64 (1 + 1)) ∧ (sB (bFetch 64)).apAwaits p0 = false ∧
    (let s : State := { sB (bFetch 0x7FFFFFC) with mem := Mem.writeBytes mapped.mem 0x7FFFFFC [0xF0, 0x0F, 0, 0xFC] };
      s.fetchWord (bFetch 0x7FFFFFC) 0x7FFFFFC = .ok (0xFC000FF0, none) ∧ isOk (s.fetchWords (bFetch 0x7FFFFFC) 1 0x8000000) = false) := by decide +kernel

end Sys2Proof.Tests
end

section
/-! SUPPORT. The control words that go to a header of their own naming (R173, R176): the branches and LOOP. -/

namespace Sys2Proof.Proofs.Control

open Sys2Proof Sys2Proof.Machine Sys2Proof.Stated Sys2Proof.Laws

/-! ## Targets -/

@[simp] theorem va57_va57 (a : W64) : va57 (va57 a) = va57 a := by simp [va57, BitVec.and_assoc]

@[simp] theorem va57_targetOf (b : Band) (off : W64) : va57 (targetOf b off) = targetOf b off := va57_va57 _

/-- The model's target of a word offset is the one that the statements name. -/
theorem target_eq_targetOf (b : Band) (off : W64) : b.target off = targetOf b off := rfl

theorem checkTarget_of_header {s : State} {b : Band} {t : W64} (h : s.notHeader b (va57 t) = false) : s.checkTarget b t = .ok () := by
  simp [State.checkTarget, h]

theorem checkTarget_of_notHeader {s : State} {b : Band} {t : W64} (h : s.notHeader b (va57 t) = true) :
    s.checkTarget b t = .error (.trap 0x03 0 (va57 t) 0) := by
  simp [State.checkTarget, h, tIllegalTarget]

theorem checkTarget_targetOf_header {s : State} {b : Band} {off : W64} (h : s.notHeader b (targetOf b off) = false) :
    s.checkTarget b (targetOf b off) = .ok () := checkTarget_of_header (by rwa [va57_targetOf])

theorem checkTarget_targetOf_notHeader {s : State} {b : Band} {off : W64} (h : s.notHeader b (targetOf b off) = true) :
    s.checkTarget b (targetOf b off) = .error (.trap 0x03 0 (targetOf b off) 0) := by
  have hv : s.notHeader b (va57 (targetOf b off)) = true := by rwa [va57_targetOf]
  rw [checkTarget_of_notHeader hv, va57_targetOf]

/-- The illegal-target trap of a control word without a literal: it reports the target, with the word's own place (R173, R372). -/
theorem issue_illegalTarget {i : Instr} {b : Band} {s : State} {t : W64} {body : Band → State → Try Fin'} (h : Stands i b s)
    (hc : Instr.isControl i = true) (hl : len i = 1) (hb : body b (acting b s) = .error (.trap 0x03 0 t 0)) :
    issue i body s = s.takeTrap b (b.trapAt true 1 0x03 0 t 0) := by
  rw [issue_err h _ _ _ _ hb, hc, hl]

/-! ## Branches (R299) -/

section Branches

variable {i : Instr} {b : Band} {s : State} {off : W64} {test : Band → State → Try Bool}

theorem branch_not_taken (h : Stands i b s) (ht : test b (acting b s) = .ok false) : branch i test off s = past i b s (acting b s) :=
  issue_ok h (by simp only [ht]; rfl)

theorem branch_taken (h : Stands i b s) (ht : test b (acting b s) = .ok true) (hh : (acting b s).notHeader b (targetOf b off) = false) :
    branch i test off s = gone i b s (acting b s) (targetOf b off) :=
  issue_jump h (by simp only [ht, target_eq_targetOf, bind, Except.bind, if_true, checkTarget_targetOf_header hh]; rfl)

theorem branch_illegalTarget (h : Stands i b s) (hc : Instr.isControl i = true) (hl : len i = 1) (ht : test b (acting b s) = .ok true)
    (hh : (acting b s).notHeader b (targetOf b off) = true) :
    branch i test off s = s.takeTrap b (b.trapAt true 1 0x03 0 (targetOf b off) 0) :=
  issue_illegalTarget h hc hl
    (by simp only [ht, target_eq_targetOf, bind, Except.bind, if_true, checkTarget_targetOf_notHeader hh])

end Branches

/-- A register that a branch can test is no literal. -/
theorem litWords_of_testReg {s : State} {b : Band} {p : Opnd} {x : W64} (h : s.testReg b p = .ok x) : litWords [p] = [] := by
  cases p with
  | lit w => exact nomatch h
  | _ => rfl

theorem litWords_of_testMask {s : State} {b : Band} {p : Opnd} {x : W32} (h : s.testMask b p = .ok x) : litWords [p] = [] := by
  cases p with
  | lit w => exact nomatch h
  | _ => rfl

/-- R172, R299: a branch is a control word of one word. -/
theorem branch_control_one_word {i : Instr} {b : Band} {s : State} {off : W64} {taken : Bool} (h : Branch i b s off taken) :
    Instr.isControl i = true ∧ len i = 1 := by
  cases h with
  | br => exact ⟨rfl, rfl⟩
  | brz p _ _ _ _ hx | brnz p _ _ _ _ hx =>
    exact ⟨rfl, congrArg (1 + List.length ·) (litWords_of_testReg hx)⟩
  | bzm p _ _ _ _ hx | bnzm p _ _ _ _ hx | ballm p _ _ _ _ hx =>
    exact ⟨rfl, congrArg (1 + List.length ·) (litWords_of_testMask hx)⟩

/-- R299: each branch word is the shared branch with a test of its own, which answers whether it is taken. -/
theorem exec_of_branch {i : Instr} {b : Band} {s : State} {off : W64} {taken : Bool} (h : Branch i b s off taken) :
    ∃ test : Band → State → Try Bool, (∀ t, exec i t = .next (branch i test off t)) ∧ test b s = .ok taken := by
  cases h with
  | br => exact ⟨_, fun _ => rfl, rfl⟩
  | brz _ _ _ _ _ hx | bzm _ _ _ _ _ hx | ballm _ _ _ _ _ hx =>
    refine ⟨_, fun _ => rfl, ?_⟩
    simp only [hx, bind, Except.bind]
    rfl
  | brnz _ _ _ _ _ hx | bnzm _ _ _ _ _ hx =>
    refine ⟨_, fun _ => rfl, ?_⟩
    simp only [hx, bind, Except.bind, bne, decide_not]
    rfl

theorem branchResults : BranchResults := by
  intro i s b off taken hbr h
  obtain ⟨test, hexec, ht⟩ := exec_of_branch hbr
  obtain ⟨hc, hl⟩ := branch_control_one_word hbr
  rw [hexec]
  refine ⟨?_, ?_, ?_⟩
  · rintro rfl
    rw [branch_not_taken h ht]
  · rintro rfl hh
    rw [branch_taken h ht hh]
  · rintro rfl hh
    rw [branch_illegalTarget h hc hl ht hh]

/-! ## LOOP (R300) -/

theorem writeS_of_canAlloc {s : State} {b : Band} (n : Nat) (x : W64) (h : s.canAlloc b 0 1 = true) : s.writeS b n x = .ok (s.putS b n x) := by
  simp only [State.writeS, State.alloc, h, if_true]
  rfl

section Loop

variable {s : State} {b : Band} {n : Fin 64} {off x : W64}

/-- The count before the word is 1: the register is written zero, and the loop ends. -/
theorem loopBody_last (hx : b.readS n.val = .ok 1) (ha : s.canAlloc b 0 1 = true) :
    loopBody (.s n) off b s = .ok (.next (s.putS b n.val 0)) := by
  simp only [loopBody, hx, bind, Except.bind, BitVec.sub_self, writeS_of_canAlloc _ _ ha]
  rfl

theorem count_sub_one_ne_zero (h1 : x ≠ 1) : (x - 1 == 0) = false :=
  beq_eq_false_iff_ne.2 fun h => h1 (by bv_omega)

theorem loopBody_again (hx : b.readS n.val = .ok x) (h1 : x ≠ 1) (ha : s.canAlloc b 0 1 = true)
    (hh : s.notHeader b (targetOf b off) = false) :
    loopBody (.s n) off b s = .ok (.jump (s.putS b n.val (x - 1)) (targetOf b off) none) := by
  simp only [loopBody, hx, bind, Except.bind, count_sub_one_ne_zero h1, Bool.false_eq_true, if_false, target_eq_targetOf,
    checkTarget_targetOf_header hh, writeS_of_canAlloc _ _ ha]
  rfl

theorem loopBody_illegalTarget (hx : b.readS n.val = .ok x) (h1 : x ≠ 1) (hh : s.notHeader b (targetOf b off) = true) :
    loopBody (.s n) off b s = .error (.trap 0x03 0 (targetOf b off) 0) := by
  simp only [loopBody, hx, bind, Except.bind, count_sub_one_ne_zero h1, Bool.false_eq_true, if_false, target_eq_targetOf,
    checkTarget_targetOf_notHeader hh]

end Loop

theorem exec_loop (p : Opnd) (off : BitVec 16) (s : State) :
    exec (.loop p off) s = .next (issue (.loop p off) (loopBody p (off.signExtend 64)) s) := rfl

theorem loopCountsDown : LoopCountsDown := by
  intro s b n off x h hx ha
  rw [exec_loop]
  refine ⟨?_, ?_, ?_⟩
  · rintro rfl
    rw [issue_ok h (loopBody_last hx ha)]
  · intro h1 hh
    rw [issue_jump h (loopBody_again hx h1 ha hh)]
  · intro h1 hh
    rw [issue_illegalTarget h rfl rfl (loopBody_illegalTarget hx h1 hh)]

/-- Settles O3: the branches by the shared branch with their tests, LOOP by the three ends of its meaning. -/
theorem branchAndLoopResults : Obligations.BranchAndLoopResults := ⟨branchResults, loopCountsDown⟩

end Sys2Proof.Proofs.Control
end

section
/-! SUPPORT. The pieces from which the meaning of a word that issues at once is built: its checks, the lanes it asks for, its destination. -/

namespace Sys2Proof.Proofs.Pieces

open Sys2Proof Sys2Proof.Machine Sys2Proof.Stated Sys2Proof.Laws

@[simp] theorem ok_bind {α β : Type} (x : α) (f : α → Try β) : ((Except.ok x : Try α) >>= f) = f x := rfl

@[simp] theorem error_bind {α β : Type} (e : Stop) (f : α → Try β) : ((Except.error e : Try α) >>= f) = .error e := rfl

@[simp] theorem need_true : need true = .ok () := rfl

@[simp] theorem need_false : need false = .error (.word tIllegalOperand) := rfl

@[simp] theorem holdUnless_true : holdUnless true = .ok () := rfl

@[simp] theorem modBand_id (s : State) (u : Nat) : s.modBand u id = s := by
  simp [State.modBand]

theorem popCount_eq_countP {w : Nat} (x : BitVec w) : popCount w x.toNat = (List.range w).countP x.getLsbD :=
  List.countP_eq_length_filter.symm

theorem lowestBit_eq_find? {w : Nat} (x : BitVec w) : lowestBit w x.toNat = ((List.range w).find? x.getLsbD).getD w := rfl

/-- R286: what a word does in the scalar form need be known only where some lane is enabled. -/
theorem whenEnabled_ok {s t : State} {b : Band} {body : Try State} {l : W32} (hl : s.lanesOf b = .ok l)
    (hb : l ≠ 0 → body = .ok t) : whenEnabled s b body = .ok (.next (if l = 0 then s else t)) := by
  rw [whenEnabled, hl, ok_bind]
  by_cases h0 : l = 0
  · rw [if_pos h0, if_pos h0]
    rfl
  · rw [if_neg h0, if_neg h0, hb h0]
    rfl

theorem maskDst_putM {s : State} {b : Band} {n : Fin 16} (x : W32) (h : s.regPending b none none (some n.val) = false) :
    s.maskDst b (.m n) x = .ok (s.putM b n.val x) := by
  simp only [State.maskDst, State.writeM, State.mReady, h, Bool.not_false, holdUnless_true, ok_bind]
  rfl

theorem arithS_arithScalar {s : State} {b : Band} {n : Fin 64} (x : W64) (fps : BitVec 6) (hf : flagFree b true = true)
    (ha : s.canAlloc b 0 1 = true) : s.arithS b n.val x fps = .ok (arithScalar b n x fps s) := by
  simp only [State.arithS, flag_ok hf, State.alloc, ha, if_true, ok_bind]
  rfl

end Sys2Proof.Proofs.Pieces
end

section
/-! SUPPORT. The scalar integer, address and buffer words (R288 to R292) write the results that the rules give. -/

namespace Sys2Proof.Proofs.Scalar

open Sys2Proof Sys2Proof.Machine Sys2Proof.Stated Sys2Proof.Laws Sys2Proof.Proofs.Pieces

/-! ## Results: the model's value is the rule's -/

/-- The product of two extended operands does not wrap in 128 bits, so its high half is the quotient by 2^64. -/
theorem high_signed_product (x y : W64) :
    BitVec.ofInt 64 (x.toInt * y.toInt / (2 ^ 64 : Nat)) = ((x.signExtend 128 * y.signExtend 128) >>> 64).setWidth 64 := by
  have hp : x.signExtend 128 * y.signExtend 128 = BitVec.ofInt 128 (x.toInt * y.toInt) := (BitVec.ofInt_mul _ _).symm
  rw [hp]
  generalize x.toInt * y.toInt = m
  apply BitVec.eq_of_toNat_eq
  simp only [BitVec.toNat_ofInt, BitVec.toNat_setWidth, BitVec.toNat_ushiftRight, Nat.shiftRight_eq_div_pow]
  omega

theorem high_unsigned_product (x y : W64) :
    BitVec.ofNat 64 (x.toNat * y.toNat / 2 ^ 64) = ((x.setWidth 128 * y.setWidth 128) >>> 64).setWidth 64 := by
  have hx : x.toNat % 2 ^ 128 = x.toNat := Nat.mod_eq_of_lt (by omega)
  have hy : y.toNat % 2 ^ 128 = y.toNat := Nat.mod_eq_of_lt (by omega)
  apply BitVec.eq_of_toNat_eq
  simp only [BitVec.toNat_ofNat, BitVec.toNat_setWidth, BitVec.toNat_ushiftRight, BitVec.toNat_mul, Nat.shiftRight_eq_div_pow, hx, hy]
  generalize x.toNat * y.toNat = m
  omega

theorem guarded_shiftLeft (x y : W64) : (if y.toNat < 64 then x <<< y.toNat else 0) = x <<< y := by
  rw [BitVec.shiftLeft_eq']
  split
  · rfl
  · exact (BitVec.shiftLeft_eq_zero (by omega)).symm

theorem guarded_shiftRight (x y : W64) : (if y.toNat < 64 then x >>> y.toNat else 0) = x >>> y := by
  rw [BitVec.ushiftRight_eq']
  split
  · rfl
  · exact (BitVec.ushiftRight_eq_zero (by omega)).symm

/-- What an arithmetic shift by 63 or more brings to any position is the sign. -/
theorem shifted_bit_of_63_le (x : W64) {k : Nat} (hk : 63 ≤ k) (i : Nat) :
    (if k + i < 64 then x.getLsbD (k + i) else x.msb) = x.msb := by
  split
  · obtain rfl : i = 0 := by omega
    obtain rfl : k = 63 := by omega
    rfl
  · rfl

theorem sshiftRight_min (x : W64) (k : Nat) : x.sshiftRight (min k 63) = x.sshiftRight k := by
  rcases Nat.le_total k 63 with hk | hk
  · rw [Nat.min_eq_left hk]
  · rw [Nat.min_eq_right hk]
    apply BitVec.eq_of_getLsbD_eq
    intro i _
    rw [BitVec.getLsbD_sshiftRight, BitVec.getLsbD_sshiftRight, shifted_bit_of_63_le x le_rfl i, shifted_bit_of_63_le x hk i]

theorem signed_min (x y : W64) : (if y.slt x then y else x) = if x.toInt ≤ y.toInt then x else y := by
  simp only [BitVec.slt_iff_toInt_lt, ← Int.not_le, ite_not]

theorem signed_max (x y : W64) : (if x.slt y then y else x) = if y.toInt ≤ x.toInt then x else y := by
  simp only [BitVec.slt_iff_toInt_lt, ← Int.not_le, ite_not]

theorem unsigned_min (x y : W64) : (if y.ult x then y else x) = if x ≤ y then x else y := by
  simp only [BitVec.ult_iff_lt, ← BitVec.not_le, ite_not]

theorem unsigned_max (x y : W64) : (if x.ult y then y else x) = if y ≤ x then x else y := by
  simp only [BitVec.ult_iff_lt, ← BitVec.not_le, ite_not]

theorem sdivOf_eq (b : Band) (x y : W64) :
    sdivOf b.sat x y = if y = 0 then ~~~ 0#64 else sat64 b.sat (x.toInt.tdiv y.toInt) := by
  rw [sdivOf, ← narrow64_eq]
  rfl

/-! ## Results that are there at once (R288, R290, R292) -/

/-- Each word of `scalarRule` is the shared meaning of two sources, or that of one where the second plays no part, with a function that
answers as the rule does. -/
theorem exec_of_scalarRule {i : Instr} {d a c : Opnd} {sg : Bool} {f : Bool → W64 → W64 → W64}
    (h : scalarRule i = some (d, sg, a, c, f)) :
    (∃ g, (∀ s, exec i s = .next (scalarOp i sg d a c g s)) ∧ ∀ b x y, g b x y = f b.sat x y) ∨
      ∃ g, (∀ s, exec i s = .next (scalarOp1 i sg d a g s)) ∧ ∀ b x y, g b x = f b.sat x y := by
  cases i with
  | sadd | ssub | smul => cases h; exact .inl ⟨_, fun _ => rfl, fun b _ _ => narrow64_eq b _⟩
  | smulh => cases h; exact .inl ⟨_, fun _ => rfl, fun _ => high_signed_product⟩
  | smulhn => cases h; exact .inl ⟨_, fun _ => rfl, fun _ => high_unsigned_product⟩
  | sand | sor | sxor | sbfx | aadd => cases h; exact .inl ⟨_, fun _ => rfl, fun _ _ _ => rfl⟩
  | sshl => cases h; exact .inl ⟨_, fun _ => rfl, fun _ => guarded_shiftLeft⟩
  | sshr => cases h; exact .inl ⟨_, fun _ => rfl, fun _ => guarded_shiftRight⟩
  | ssar => cases h; exact .inl ⟨_, fun _ => rfl, fun _ x y => sshiftRight_min x y.toNat⟩
  | smin => cases h; exact .inl ⟨_, fun _ => rfl, fun _ => signed_min⟩
  | smax => cases h; exact .inl ⟨_, fun _ => rfl, fun _ => signed_max⟩
  | sminn => cases h; exact .inl ⟨_, fun _ => rfl, fun _ => unsigned_min⟩
  | smaxn => cases h; exact .inl ⟨_, fun _ => rfl, fun _ => unsigned_max⟩
  | scmpeq => cases h; exact .inl ⟨_, fun _ => rfl, fun _ x y => by simp only [beq_iff_eq]⟩
  | scmplt => cases h; exact .inl ⟨_, fun _ => rfl, fun _ x y => by simp only [BitVec.slt_iff_toInt_lt]⟩
  | scmpltn => cases h; exact .inl ⟨_, fun _ => rfl, fun _ x y => by simp only [BitVec.ult_iff_lt]⟩
  | smov | amov | sclz => cases h; exact .inr ⟨_, fun _ => rfl, fun _ _ _ => rfl⟩
  | spopc => cases h; exact .inr ⟨_, fun _ => rfl, fun _ x _ => congrArg _ (popCount_eq_countP x)⟩
  | _ => nomatch h

theorem scalarResults : ScalarResults := by
  intro i s b d a c sg f x y l hi h hx hy hl hd
  rcases exec_of_scalarRule hi with ⟨g, hexec, hg⟩ | ⟨g, hexec, hg⟩
  · rw [hexec, scalarOp_put h hx hy hl hd, hg]
  · rw [hexec, scalarOp1_put h hx hl hd, hg b x y]

/-! ## Quotient and remainder (R289) -/

theorem divOp_arithScalar {i : Instr} {s : State} {b : Band} {n : Fin 64} {a c : Opnd} {sg : Bool} {g : Band → W64 → W64 → W64}
    {x y : W64} {l : W32} (h : Stands i b s) (hx : (acting b s).scalarSrc b sg a = .ok x) (hy : (acting b s).scalarSrc b sg c = .ok y)
    (hl : (acting b s).lanesOf b = .ok l) (hd : l = 0 ∨ flagFree b true = true ∧ (acting b s).canAlloc b 0 1 = true) :
    divOp i sg (.s n) a c g s = past i b s (if l = 0 then acting b s else arithScalar b n (g b x y) 0 (acting b s)) := by
  refine issue_ok h ?_
  rw [hx, ok_bind, hy, ok_bind]
  refine whenEnabled_ok hl fun h0 => ?_
  obtain ⟨hf, ha⟩ := hd.resolve_left h0
  exact arithS_arithScalar _ 0 hf ha

theorem exec_of_divRule {i : Instr} {n : Fin 64} {a c : Opnd} {sg : Bool} {f : Bool → W64 → W64 → W64}
    (h : divRule i = some (n, sg, a, c, f)) :
    ∃ g, (∀ s, exec i s = .next (divOp i sg (.s n) a c g s)) ∧ ∀ b x y, g b x y = f b.sat x y := by
  unfold divRule at h
  split at h
  · cases h; exact ⟨_, fun _ => rfl, fun b => sdivOf_eq b⟩
  · cases h; exact ⟨_, fun _ => rfl, fun _ _ _ => rfl⟩
  · cases h; exact ⟨_, fun _ => rfl, fun _ _ _ => rfl⟩
  · cases h

theorem scalarDivisionsStartWithTheirResult : ScalarDivisionsStartWithTheirResult := by
  intro i s b n a c sg f x y l hi h hx hy hl hd
  obtain ⟨g, hexec, hg⟩ := exec_of_divRule hi
  rw [hexec, divOp_arithScalar h hx hy hl hd, hg]

/-! ## Immediates (R290, R291) -/

/-- Each of these words, its sources read, writes the value where some lane is enabled. -/
theorem exec_of_scalarImm {i : Instr} {b : Band} {s : State} {d : Opnd} {v : W64} (h : ScalarImm i b s d v) :
    ∃ body : Band → State → Try Fin', (∀ t, exec i t = .next (issue i body t)) ∧ body b s = whenEnabled s b (s.scalarDst b d v) := by
  cases h with
  | smovi => exact ⟨_, fun _ => rfl, rfl⟩
  | smovh _ _ _ _ _ hx => exact ⟨_, fun _ => rfl, by simp only [hx, ok_bind]⟩
  | saddi _ _ _ _ _ _ hx => exact ⟨_, fun _ => rfl, by simp only [hx, ok_bind, narrow64_eq]⟩
  | sbfi _ _ _ _ _ _ _ _ hx hy hz => exact ⟨_, fun _ => rfl, by simp only [hx, hy, hz, ok_bind]⟩

theorem scalarImmediateResults : ScalarImmediateResults := by
  intro i s b d v l hi h hl hd
  obtain ⟨body, hexec, hb⟩ := exec_of_scalarImm hi
  rw [hexec, issue_ok h (hb.trans (whenEnabled_put hl hd))]

/-! ## Buffer registers (R292) -/

theorem exec_bset (d a c : Opnd) (s : State) : exec (.bset d a c) s = execBset d a c s := rfl

theorem bufferRegisterResults : BufferRegisterResults := by
  intro s b n a c x y l h hl hsrc
  rw [exec_bset, execBset]
  refine next_eq (issue_ok h ?_)
  rcases hsrc with ⟨k, rfl, rfl, hxy⟩ | ⟨ha, hx, hy⟩
  · simp only [beq_self_eq_true, need_true, ok_bind, ← hxy]
    exact whenEnabled_ok hl fun _ => rfl
  · cases a with
    | b k => cases ha
    | _ =>
      simp only [hx, hy, ok_bind]
      exact whenEnabled_ok hl fun _ => rfl

/-- Settles O1: each family by the shared meaning of its words. -/
theorem scalarWordResults : Obligations.ScalarWordResults :=
  ⟨scalarResults, scalarImmediateResults, scalarDivisionsStartWithTheirResult, bufferRegisterResults⟩

end Sys2Proof.Proofs.Scalar
end

section
/-! SUPPORT. The mask, mode and band-state words (R293 to R298, R304, R311 to R313) and TRAP (R307): what they write, whatever EXEC
holds. -/

namespace Sys2Proof.Proofs.BandState

open Sys2Proof Sys2Proof.Machine Sys2Proof.Stated Sys2Proof.Laws Sys2Proof.Proofs.Pieces

/-! ## Masks (R293, R294) -/

/-- Each mask word, its sources read, writes the value to its mask destination. -/
theorem exec_of_maskWord {i : Instr} {b : Band} {s : State} {n : Fin 16} {v : W32} (h : MaskWord i b s n v) :
    ∃ body : Band → State → Try Fin', (∀ t, exec i t = .next (issue i body t)) ∧
      body b s = do return .next (← s.maskDst b (.m n) v) := by
  cases h with
  | mand _ _ _ _ _ _ _ hx hy | mor _ _ _ _ _ _ _ hx hy | mxor _ _ _ _ _ _ _ hx hy | mandn _ _ _ _ _ _ _ hx hy =>
    exact ⟨_, fun _ => rfl, by simp only [hx, hy, ok_bind]⟩
  | mnot _ _ _ _ _ hx => exact ⟨_, fun _ => rfl, by simp only [hx, ok_bind]; rfl⟩
  | mmov _ _ _ _ _ hx | mlane _ _ _ _ _ hx => exact ⟨_, fun _ => rfl, by simp only [hx, ok_bind]⟩
  | mseti => exact ⟨_, fun _ => rfl, rfl⟩

theorem maskResults : MaskResults := by
  intro i s b n v hi h hp
  obtain ⟨body, hexec, hb⟩ := exec_of_maskWord hi
  rw [maskDst_putM v hp] at hb
  rw [hexec, issue_ok h hb]

/-! ## Reads of the band's own state (R294, R296 to R298, R312) -/

/-- Each of these words writes what it reads to its scalar or address destination. -/
theorem exec_of_stateWord {i : Instr} {b : Band} {s : State} {d : Opnd} {v : W64} (h : StateWord i b s d v) :
    ∃ body : Band → State → Try Fin', (∀ t, exec i t = .next (issue i body t)) ∧
      body b s = do return .next (← s.scalarDst b d v) := by
  cases h with
  | mmovS _ _ _ _ _ hx => exact ⟨_, fun _ => rfl, by simp only [hx, ok_bind]⟩
  | mpopc _ _ _ _ _ hx => exact ⟨_, fun _ => rfl, by simp only [hx, ok_bind, popCount_eq_countP]⟩
  | mffs _ _ _ _ _ hx => exact ⟨_, fun _ => rfl, by simp only [hx, ok_bind, lowestBit_eq_find?]⟩
  | getmode | sget | wdepth => exact ⟨_, fun _ => rfl, rfl⟩
  | fpsget _ _ _ hdone => exact ⟨_, fun _ => rfl, by simp only [hdone, holdUnless_true, ok_bind]⟩

theorem stateReadResults : StateReadResults := by
  intro i s b d v hi h hp
  obtain ⟨body, hexec, hb⟩ := exec_of_stateWord hi
  rw [scalarDst_put hp] at hb
  rw [hexec, issue_ok h hb]

/-! ## MODE (R182, R296) -/

section Mode

variable {i : Instr} {s : State} {b : Band} {new : W32 → W32}

theorem issue_setModeBody_accepted (h : Stands i b s) (hm : modeRefused (new b.mode) = false) :
    issue i (setModeBody new) s = past i b s ((acting b s).modBand b.uid fun c => { c with mode := new b.mode }) :=
  issue_ok h (by simp only [setModeBody, hm, Bool.not_false, need_true, ok_bind]; rfl)

theorem issue_setModeBody_refused (h : Stands i b s) (hc : Instr.isControl i = false) (hl : len i = 1)
    (hm : modeRefused (new b.mode) = true) :
    issue i (setModeBody new) s = s.takeTrap b (b.trapAt false 1 0x02 0 ((encodeWord i).setWidth 64) 0) := by
  have hb : setModeBody new b (acting b s) = .error (.word tIllegalOperand) := by
    simp only [setModeBody, hm, Bool.not_true, need_false, error_bind]
  rw [issue_word h _ hb, hc, hl]
  rfl

end Mode

/-- SETMODE and SETMM are data words of one word that write MODE by the shared meaning. -/
theorem exec_of_newMode {i : Instr} {m₀ m : W32} (h : newMode i m₀ = some m) :
    ∃ new : W32 → W32, (∀ s, exec i s = .next (issue i (setModeBody new) s)) ∧ new m₀ = m ∧ Instr.isControl i = false ∧ len i = 1 := by
  unfold newMode at h
  split at h
  · cases h; exact ⟨_, fun _ => rfl, rfl, rfl, rfl⟩
  · cases h; exact ⟨_, fun _ => rfl, rfl, rfl, rfl⟩
  · cases h

theorem modeWrites : ModeWrites := by
  intro i s b m hi h
  obtain ⟨new, hexec, rfl, hc, hl⟩ := exec_of_newMode hi
  rw [hexec]
  exact ⟨fun hm => next_eq (issue_setModeBody_accepted h hm), fun hm => next_eq (issue_setModeBody_refused h hc hl hm)⟩

/-! ## The band's own registers (R144, R163, R297, R304, R311, R313) -/

theorem windowFault_none {b : Band} (h : b.winFault = none) : b.windowFault = .ok () := by
  simp only [Band.windowFault, h]

/-- Each of these words changes its band and nothing else. -/
theorem exec_of_bandWord {i : Instr} {b : Band} {s : State} {f : Band → Band} (h : BandWord i b s f) :
    ∃ body : Band → State → Try Fin', (∀ t, exec i t = .next (issue i body t)) ∧ body b s = .ok (.next (s.modBand b.uid f)) := by
  cases h with
  | fpsclrZ imm _ _ hdone =>
    refine ⟨_, fun _ => rfl, ?_⟩
    have hnone : imm ||| (0 : W64).setWidth 6 = imm := BitVec.or_zero
    simp only [hdone, holdUnless_true, ok_bind, pure_bind, hnone]
    rfl
  | fpsclrS _ _ _ _ _ hdone hx =>
    refine ⟨_, fun _ => rfl, ?_⟩
    simp only [hdone, hx, holdUnless_true, ok_bind]
    rfl
  | sigclr | free | halt => exact ⟨_, fun _ => rfl, rfl⟩
  | nop | yield => exact ⟨_, fun _ => rfl, by rw [modBand_id]⟩
  | wsync _ _ ht hf =>
    refine ⟨_, fun _ => rfl, ?_⟩
    simp only [ht, windowFault_none hf, Bool.not_false, Bool.true_or, holdUnless_true, ok_bind, modBand_id]
    rfl
  | sigchk imm _ _ hsig =>
    have hpass : (b.inHandler || b.sig == imm) = true := by simpa using hsig
    exact ⟨_, fun _ => rfl, by rw [if_pos hpass, modBand_id]⟩

theorem bandStateResults : BandStateResults := by
  intro i s b f hi h
  obtain ⟨body, hexec, hb⟩ := exec_of_bandWord hi
  rw [hexec, issue_ok h hb]

/-- Settles O2: each family by the shared meaning of its words. -/
theorem maskAndModeWordResults : Obligations.MaskAndModeWordResults :=
  ⟨maskResults, stateReadResults, modeWrites, bandStateResults⟩

/-! ## TRAP (R307) -/

theorem exec_trap (imm : BitVec 16) (s : State) :
    exec (.trap imm) s = .next (issue (.trap imm) (fun _ _ => .error (.trap tSoftware 0 (imm.setWidth 64) 0)) s) := rfl

/-- Settles O7: TRAP is a control word of one word whose meaning is the trap. -/
theorem softwareTrap : Obligations.SoftwareTrap := by
  intro s b imm h
  rw [exec_trap, issue_err h _ _ _ _ rfl]
  rfl

end Sys2Proof.Proofs.BandState
end

section
/-! SUPPORT. Words and instructions (R168, R175, R178, R183): the round trip over all instructions, and the words read back from what they
decode to. -/

namespace Sys2Proof.Proofs.Encoding

open Sys2Proof Sys2Proof.Laws

/-! ## What is encoded decodes -/

theorem codeOk_of_not_reserved {o : Opnd} (h : o.isReserved = false) : o.codeOk = true := by
  cases o with
  | reserved c => cases h
  | _ => rfl

theorem encodable_of_wellFormed {i : Instr} (h : i.wellFormed = true) : i.encodable = true := by
  simp only [Instr.wellFormed, Bool.and_eq_true, List.all_eq_true, Bool.not_eq_true'] at h
  simp only [Instr.encodable, Bool.and_eq_true, List.all_eq_true]
  exact ⟨fun o ho => codeOk_of_not_reserved (h.1.1.1 o ho), h.1.1.2⟩

/-- The round trip of every instruction: a word has its own, an event has no word. -/
theorem roundTrip (i : Instr) : RoundTrip.Statement i := by
  cases i with
  | clauseHeader => exact RoundTrip.clauseHeader _ _ _ _
  | nop => exact RoundTrip.nop
  | br => exact RoundTrip.br _
  | brz => exact RoundTrip.brz _ _
  | brnz => exact RoundTrip.brnz _ _
  | bzm => exact RoundTrip.bzm _ _
  | bnzm => exact RoundTrip.bnzm _ _
  | ballm => exact RoundTrip.ballm _ _
  | call => exact RoundTrip.call _ _
  | calli => exact RoundTrip.calli _ _
  | ret => exact RoundTrip.ret
  | loop => exact RoundTrip.loop _ _
  | yield => exact RoundTrip.yield
  | yieldc => exact RoundTrip.yieldc _
  | exit => exact RoundTrip.exit
  | trap => exact RoundTrip.trap _
  | jmpi => exact RoundTrip.jmpi _
  | setmode => exact RoundTrip.setmode _
  | setmm => exact RoundTrip.setmm _
  | getmode => exact RoundTrip.getmode _
  | mand => exact RoundTrip.mand _ _ _
  | mor => exact RoundTrip.mor _ _ _
  | mxor => exact RoundTrip.mxor _ _ _
  | mandn => exact RoundTrip.mandn _ _ _
  | mnot => exact RoundTrip.mnot _ _
  | mmov => exact RoundTrip.mmov _ _
  | mpopc => exact RoundTrip.mpopc _ _
  | mffs => exact RoundTrip.mffs _ _
  | mseti => exact RoundTrip.mseti _ _
  | mlane => exact RoundTrip.mlane _ _
  | fpsget => exact RoundTrip.fpsget _
  | fpsclr => exact RoundTrip.fpsclr _ _
  | sget => exact RoundTrip.sget _ _
  | sadd => exact RoundTrip.sadd _ _ _
  | ssub => exact RoundTrip.ssub _ _ _
  | smul => exact RoundTrip.smul _ _ _
  | smulh => exact RoundTrip.smulh _ _ _
  | smulhn => exact RoundTrip.smulhn _ _ _
  | sdiv => exact RoundTrip.sdiv _ _ _
  | sdivn => exact RoundTrip.sdivn _ _ _
  | smod => exact RoundTrip.smod _ _ _
  | sand => exact RoundTrip.sand _ _ _
  | sor => exact RoundTrip.sor _ _ _
  | sxor => exact RoundTrip.sxor _ _ _
  | sshl => exact RoundTrip.sshl _ _ _
  | sshr => exact RoundTrip.sshr _ _ _
  | ssar => exact RoundTrip.ssar _ _ _
  | smin => exact RoundTrip.smin _ _ _
  | smax => exact RoundTrip.smax _ _ _
  | sminn => exact RoundTrip.sminn _ _ _
  | smaxn => exact RoundTrip.smaxn _ _ _
  | smov => exact RoundTrip.smov _ _
  | smovi => exact RoundTrip.smovi _ _
  | smovh => exact RoundTrip.smovh _ _
  | scmpeq => exact RoundTrip.scmpeq _ _ _
  | scmplt => exact RoundTrip.scmplt _ _ _
  | scmpltn => exact RoundTrip.scmpltn _ _ _
  | spopc => exact RoundTrip.spopc _ _
  | sclz => exact RoundTrip.sclz _ _
  | sbfx => exact RoundTrip.sbfx _ _ _
  | sbfi => exact RoundTrip.sbfi _ _ _
  | saddi => exact RoundTrip.saddi _ _ _
  | amov => exact RoundTrip.amov _ _
  | aadd => exact RoundTrip.aadd _ _ _
  | bset => exact RoundTrip.bset _ _ _
  | vadd => exact RoundTrip.vadd _ _ _
  | vsub => exact RoundTrip.vsub _ _ _
  | vmul => exact RoundTrip.vmul _ _ _
  | vmulh => exact RoundTrip.vmulh _ _ _
  | vmad => exact RoundTrip.vmad _ _ _
  | vand => exact RoundTrip.vand _ _ _
  | vor => exact RoundTrip.vor _ _ _
  | vxor => exact RoundTrip.vxor _ _ _
  | vnot => exact RoundTrip.vnot _ _
  | vshl => exact RoundTrip.vshl _ _ _
  | vshr => exact RoundTrip.vshr _ _ _
  | vmin => exact RoundTrip.vmin _ _ _
  | vmax => exact RoundTrip.vmax _ _ _
  | vabs => exact RoundTrip.vabs _ _
  | vneg => exact RoundTrip.vneg _ _
  | vmov => exact RoundTrip.vmov _ _
  | vmovi => exact RoundTrip.vmovi _ _
  | vbcast => exact RoundTrip.vbcast _ _ _
  | vceq => exact RoundTrip.vceq _ _ _
  | vcne => exact RoundTrip.vcne _ _ _
  | vclt => exact RoundTrip.vclt _ _ _
  | vcle => exact RoundTrip.vcle _ _ _
  | vcgt => exact RoundTrip.vcgt _ _ _
  | vcge => exact RoundTrip.vcge _ _ _
  | vsel => exact RoundTrip.vsel _ _ _
  | vpopc => exact RoundTrip.vpopc _ _
  | vclz => exact RoundTrip.vclz _ _
  | vbfx => exact RoundTrip.vbfx _ _ _
  | vidx => exact RoundTrip.vidx _ _ _
  | vdot4 => exact RoundTrip.vdot4 _ _ _
  | fadd => exact RoundTrip.fadd _ _ _
  | fsub => exact RoundTrip.fsub _ _ _
  | fmul => exact RoundTrip.fmul _ _ _
  | ffma => exact RoundTrip.ffma _ _ _
  | fmin => exact RoundTrip.fmin _ _ _
  | fmax => exact RoundTrip.fmax _ _ _
  | fminnum => exact RoundTrip.fminnum _ _ _
  | fmaxnum => exact RoundTrip.fmaxnum _ _ _
  | fabs => exact RoundTrip.fabs _ _
  | fneg => exact RoundTrip.fneg _ _
  | frcp => exact RoundTrip.frcp _ _
  | frsq => exact RoundTrip.frsq _ _
  | fsqrt => exact RoundTrip.fsqrt _ _
  | fdiv => exact RoundTrip.fdiv _ _ _
  | fexp2 => exact RoundTrip.fexp2 _ _
  | flog2 => exact RoundTrip.flog2 _ _
  | fsin => exact RoundTrip.fsin _ _
  | fcos => exact RoundTrip.fcos _ _
  | frnd => exact RoundTrip.frnd _ _ _ _
  | fscale => exact RoundTrip.fscale _ _ _
  | fclass => exact RoundTrip.fclass _ _
  | fceq => exact RoundTrip.fceq _ _ _
  | fclt => exact RoundTrip.fclt _ _ _
  | fcle => exact RoundTrip.fcle _ _ _
  | fcun => exact RoundTrip.fcun _ _ _
  | fkey => exact RoundTrip.fkey _ _
  | cvt => exact RoundTrip.cvt _ _ _ _
  | qpack => exact RoundTrip.qpack _ _ _ _
  | qunpack => exact RoundTrip.qunpack _ _ _ _
  | qscale => exact RoundTrip.qscale _ _ _ _
  | scvt => exact RoundTrip.scvt _ _ _ _ _
  | vshfl => exact RoundTrip.vshfl _ _ _
  | vbfly => exact RoundTrip.vbfly _ _ _
  | vrot => exact RoundTrip.vrot _ _ _
  | vredadd => exact RoundTrip.vredadd _ _
  | vredmax => exact RoundTrip.vredmax _ _
  | vredmin => exact RoundTrip.vredmin _ _
  | vargmax => exact RoundTrip.vargmax _ _ _
  | vscan => exact RoundTrip.vscan _ _ _ _
  | vdist => exact RoundTrip.vdist _ _ _ _ _ _
  | vtopk => exact RoundTrip.vtopk _ _ _ _
  | vtopkm => exact RoundTrip.vtopkm _ _ _ _
  | lds => exact RoundTrip.lds _ _
  | sts => exact RoundTrip.sts _ _
  | ldv => exact RoundTrip.ldv _ _
  | stv => exact RoundTrip.stv _ _
  | ldl => exact RoundTrip.ldl _ _
  | stl => exact RoundTrip.stl _ _
  | lda => exact RoundTrip.lda _ _
  | sta => exact RoundTrip.sta _ _
  | ldw => exact RoundTrip.ldw _ _
  | stw => exact RoundTrip.stw _ _
  | ldpar => exact RoundTrip.ldpar _ _
  | stt => exact RoundTrip.stt _ _
  | stm => exact RoundTrip.stm _ _
  | pref => exact RoundTrip.pref _
  | atadd => exact RoundTrip.atadd _ _
  | atmin => exact RoundTrip.atmin _ _
  | atmax => exact RoundTrip.atmax _ _
  | atand => exact RoundTrip.atand _ _
  | ator => exact RoundTrip.ator _ _
  | atxor => exact RoundTrip.atxor _ _
  | atxchg => exact RoundTrip.atxchg _ _
  | atcas => exact RoundTrip.atcas _ _
  | atinc => exact RoundTrip.atinc _ _
  | atfadd => exact RoundTrip.atfadd _ _
  | atfmax => exact RoundTrip.atfmax _ _
  | atfmin => exact RoundTrip.atfmin _ _
  | fence => exact RoundTrip.fence
  | fencea => exact RoundTrip.fencea _ _
  | acqrg => exact RoundTrip.acqrg _ _ _
  | relrg => exact RoundTrip.relrg _ _ _
  | monarm => exact RoundTrip.monarm _ _
  | monwait => exact RoundTrip.monwait _ _ _
  | copy => exact RoundTrip.copy _
  | copym => exact RoundTrip.copym _
  | mack => exact RoundTrip.mack _
  | stash => exact RoundTrip.stash _ _
  | stgld => exact RoundTrip.stgld _
  | crs => exact RoundTrip.crs _
  | cscal => exact RoundTrip.cscal _ _
  | cag => exact RoundTrip.cag _
  | step => exact RoundTrip.step
  | steprd => exact RoundTrip.steprd _ _ _
  | gsget => exact RoundTrip.gsget _ _ _ _
  | bar => exact RoundTrip.bar _ _ _
  | swaph => exact RoundTrip.swaph _ _
  | watch => exact RoundTrip.watch _ _
  | blatch => exact RoundTrip.blatch _ _ _ _
  | mmaE4m3 => exact RoundTrip.mmaE4m3 _ _ _ _ _ _
  | mmaE5m2 => exact RoundTrip.mmaE5m2 _ _ _ _ _ _
  | mmaE3m2 => exact RoundTrip.mmaE3m2 _ _ _ _ _ _
  | mmaE2m3 => exact RoundTrip.mmaE2m3 _ _ _ _ _ _
  | mmaF4s => exact RoundTrip.mmaF4s _ _ _ _ _ _
  | mmaBf16 => exact RoundTrip.mmaBf16 _ _ _ _ _ _
  | mmaF16 => exact RoundTrip.mmaF16 _ _ _ _ _ _
  | mmaI8 => exact RoundTrip.mmaI8 _ _ _ _ _ _
  | mmaE2m1 => exact RoundTrip.mmaE2m1 _ _ _ _ _ _
  | mfence => exact RoundTrip.mfence _
  | mwait => exact RoundTrip.mwait _
  | accz => exact RoundTrip.accz _
  | accrd => exact RoundTrip.accrd _ _ _ _ _
  | accld => exact RoundTrip.accld _ _ _
  | freeze => exact RoundTrip.freeze
  | sigchk => exact RoundTrip.sigchk _
  | sigclr => exact RoundTrip.sigclr
  | snap => exact RoundTrip.snap
  | rft => exact RoundTrip.rft _
  | mfsr => exact RoundTrip.mfsr _ _
  | mtsr => exact RoundTrip.mtsr _ _
  | wdepth => exact RoundTrip.wdepth _
  | wsync => exact RoundTrip.wsync
  | free => exact RoundTrip.free _ _ _
  | tlbi => exact RoundTrip.tlbi _
  | halt => exact RoundTrip.halt
  | _ => exact fun hw => nomatch (show false = true from hw)

/-- Settles O43: a well-formed instruction is encodable, and each word has its round trip. -/
theorem decodeOfEncode : Obligations.DecodeOfEncode := by
  intro i rest hwf hw
  exact roundTrip i hw (encodable_of_wellFormed hwf) rest

/-! ## What decodes is encoded -/

/-- The field of a word from bit `lo` on. -/
def Field (w : W32) (lo : Nat) {n : Nat} (f : BitVec n) : Prop := w.extractLsb' lo n = f

/-- Two neighbouring fields of a word make one. -/
theorem Field.append {n m lo : Nat} {w : W32} {f : BitVec n} {g : BitVec m} (hf : Field w (lo + m) f) (hg : Field w lo g) :
    Field w lo (f ++ g) := by
  rw [Field] at hf hg ⊢
  subst hf hg
  ext i hi
  simp only [BitVec.getElem_extractLsb', BitVec.getElem_append, Nat.add_assoc]
  split
  · rfl
  · congr 1; omega

theorem eq_of_field {w x : W32} (h : Field w 0 x) : x = w := by rw [← h, field_all]

set_option maxRecDepth 20000 in
@[simp] theorem code_opndOf (c : BitVec 8) (l : W32) : (opndOf c l).code = c := by
  have codes : ∀ c : Fin 256, (opndOf ⟨c⟩ 0).code = ⟨c⟩ := by decide
  by_cases hc : c = 0xB2
  · subst hc; rfl
  · rw [opndOf_other hc]; exact codes c.toFin

@[simp] theorem bits_amodeOf (x : BitVec 3) : (amodeOf x).bits = x := by
  revert x; decide

@[simp] theorem areg_memRefOf (w : W32) : (memRefOf w).areg = w.extractLsb' 12 4 := rfl
@[simp] theorem amode_memRefOf (w : W32) : (memRefOf w).amode = amodeOf (w.extractLsb' 9 3) := rfl
@[simp] theorem breg_memRefOf (w : W32) : (memRefOf w).breg = w.extractLsb' 6 3 := rfl
@[simp] theorem index_memRefOf (w : W32) : (memRefOf w).index = w.extractLsb' 0 6 := rfl

theorem litWords_opnds (cs : List (BitVec 8)) (l : W32) :
    litWords (cs.map (opndOf · l)) = (cs.filter (· == 0xB2)).map fun _ => l := by
  induction cs with
  | nil => rfl
  | cons c cs ih =>
    rw [List.map_cons, List.filter_cons]
    by_cases hc : c = 0xB2
    · subst hc; simp only [beq_self_eq_true, if_true, List.map_cons, ← ih]; rfl
    · have hn : ∀ v, opndOf c l ≠ .lit v := fun v hv => hc (by rw [← code_opndOf c l, hv]; rfl)
      have hs : litWords (opndOf c l :: cs.map (opndOf · l)) = litWords (cs.map (opndOf · l)) := by
        cases ho : opndOf c l with
        | lit v => exact absurd ho (hn v)
        | _ => rfl
      rw [hs, ih, if_neg (by simpa using hc)]

/-- What a row reads from a word that has the row's fixed fields: an instruction of that word, its operands those of the codes. -/
structure Reads (w l : W32) (r : Row) : Prop where
  word : encodeWord r.instr = w
  own : r.instr.hasWord = true
  opnds : r.instr.opnds = r.codes.map (opndOf · l)

/-- Every word of a group of rows, its opcode's high digit `hi`, is read as it stands. -/
def RowsRead (hi : Nat) (rows : Nat → W32 → W32 → Option Row) : Prop :=
  ∀ (op : Nat) (w l : W32) (r : Row), Field w 24 (BitVec.ofNat 4 hi ++ BitVec.ofNat 4 op) → rows op w l = some r → r.fixed = true → Reads w l r

theorem rows0_read : RowsRead 0 rows0 := by
  intro op w l r hop h hf
  unfold rows0 at h
  split at h
  all_goals cases h
  all_goals refine ⟨eq_of_field ?_, rfl, rfl⟩
  all_goals repeat' apply Field.append
  all_goals simp_all [Field]

theorem rows1_read : RowsRead 1 rows1 := by
  intro op w l r hop h hf
  unfold rows1 at h
  split at h
  all_goals cases h
  all_goals refine ⟨eq_of_field ?_, rfl, rfl⟩
  all_goals repeat' apply Field.append
  all_goals simp_all [Field]

theorem rows2_read : RowsRead 2 rows2 := by
  intro op w l r hop h hf
  unfold rows2 at h
  split at h
  all_goals cases h
  all_goals refine ⟨eq_of_field ?_, rfl, rfl⟩
  all_goals repeat' apply Field.append
  all_goals simp_all [Field]

theorem rows3_read : RowsRead 3 rows3 := by
  intro op w l r hop h hf
  unfold rows3 at h
  split at h
  all_goals cases h
  all_goals refine ⟨eq_of_field ?_, rfl, rfl⟩
  all_goals repeat' apply Field.append
  all_goals simp_all [Field]

theorem rows4_read : RowsRead 4 rows4 := by
  intro op w l r hop h hf
  unfold rows4 at h
  split at h
  all_goals cases h
  all_goals refine ⟨eq_of_field ?_, rfl, rfl⟩
  all_goals repeat' apply Field.append
  all_goals simp_all [Field]

theorem rows5_read : RowsRead 5 rows5 := by
  intro op w l r hop h hf
  unfold rows5 at h
  split at h
  all_goals cases h
  all_goals refine ⟨eq_of_field ?_, rfl, rfl⟩
  all_goals repeat' apply Field.append
  all_goals simp_all [Field]

theorem rows7_read : RowsRead 7 rows7 := by
  intro op w l r hop h hf
  unfold rows7 at h
  split at h
  all_goals cases h
  all_goals refine ⟨eq_of_field ?_, rfl, rfl⟩
  all_goals repeat' apply Field.append
  all_goals simp_all [Field]

theorem rows8_read : RowsRead 8 rows8 := by
  intro op w l r hop h hf
  unfold rows8 at h
  split at h
  all_goals cases h
  all_goals refine ⟨eq_of_field ?_, rfl, rfl⟩
  all_goals repeat' apply Field.append
  all_goals simp_all [Field]

theorem rowsA_read : RowsRead 10 rowsA := by
  intro op w l r hop h hf
  unfold rowsA at h
  split at h
  all_goals cases h
  all_goals refine ⟨eq_of_field ?_, rfl, rfl⟩
  all_goals repeat' apply Field.append
  all_goals simp_all [Field]

theorem rowsB_read : RowsRead 11 rowsB := by
  intro op w l r hop h hf
  unfold rowsB at h
  split at h
  all_goals cases h
  all_goals refine ⟨eq_of_field ?_, rfl, rfl⟩
  all_goals repeat' apply Field.append
  all_goals simp_all [Field]

theorem rowsC_read : RowsRead 12 rowsC := by
  intro op w l r hop h hf
  unfold rowsC at h
  split at h
  all_goals cases h
  all_goals refine ⟨eq_of_field ?_, rfl, rfl⟩
  all_goals repeat' apply Field.append
  all_goals simp_all [Field]

theorem rowsD_read : RowsRead 13 rowsD := by
  intro op w l r hop h hf
  unfold rowsD at h
  split at h
  all_goals cases h
  all_goals refine ⟨eq_of_field ?_, rfl, rfl⟩
  all_goals repeat' apply Field.append
  all_goals simp_all [Field]

theorem rowsE_read : RowsRead 14 rowsE := by
  intro op w l r hop h hf
  unfold rowsE at h
  split at h
  all_goals cases h
  all_goals refine ⟨eq_of_field ?_, rfl, rfl⟩
  all_goals repeat' apply Field.append
  all_goals simp_all [Field]

theorem rowsF_read : RowsRead 15 rowsF := by
  intro op w l r hop h hf
  unfold rowsF at h
  split at h
  all_goals cases h
  all_goals refine ⟨eq_of_field ?_, rfl, rfl⟩
  all_goals repeat' apply Field.append
  all_goals simp_all [Field]

theorem ofNat_field (w : W32) (lo : Nat) : Field w lo (BitVec.ofNat 4 (w.extractLsb' lo 4).toNat) := by
  rw [Field, BitVec.ofNat_toNat, BitVec.setWidth_eq]

/-- The high digit of an opcode chooses the group of rows. -/
theorem rowOf_reads {w l : W32} {r : Row} (h : rowOf w l = some r) (hf : r.fixed = true) : Reads w l r := by
  have hop := Field.append (ofNat_field w 28) (ofNat_field w 24)
  unfold rowOf at h
  split at h
  case h_15 => cases h
  all_goals
    rename_i hn
    rw [hn] at hop
  case h_1 => exact rows0_read _ _ _ _ hop h hf
  case h_2 => exact rows1_read _ _ _ _ hop h hf
  case h_3 => exact rows2_read _ _ _ _ hop h hf
  case h_4 => exact rows3_read _ _ _ _ hop h hf
  case h_5 => exact rows4_read _ _ _ _ hop h hf
  case h_6 => exact rows5_read _ _ _ _ hop h hf
  case h_7 => exact rows7_read _ _ _ _ hop h hf
  case h_8 => exact rows8_read _ _ _ _ hop h hf
  case h_9 => exact rowsA_read _ _ _ _ hop h hf
  case h_10 => exact rowsB_read _ _ _ _ hop h hf
  case h_11 => exact rowsC_read _ _ _ _ hop h hf
  case h_12 => exact rowsD_read _ _ _ _ hop h hf
  case h_13 => exact rowsE_read _ _ _ _ hop h hf
  case h_14 => exact rowsF_read _ _ _ _ hop h hf

/-- Settles O44: the row read encodes to the word, and its literal is the word that followed. -/
theorem encodeOfDecode : Obligations.EncodeOfDecode := by
  intro ws i rest h
  cases ws with
  | nil => cases h
  | cons w more =>
    rw [decode] at h
    split at h
    · cases h
    next r hr =>
      split at h
      · cases h
      next hfix =>
        obtain ⟨hword, hown, hopnds⟩ := rowOf_reads hr (by simpa using hfix)
        have hlit : litWords r.instr.opnds = List.replicate (r.codes.filter (· == 0xB2)).length (more.headD 0) := by
          rw [hopnds, litWords_opnds, List.map_const']
        split at h
        next hn =>
          cases h
          exact ⟨by rw [encode, hword, hlit, hn]; rfl, hown⟩
        next hn =>
          cases more with
          | nil => cases h
          | cons x more =>
            cases h
            exact ⟨by rw [encode, hword, hlit, hn]; rfl, hown⟩
        · cases h

/-- Settles O45: each word, read by its row. -/
theorem encodedWords : Obligations.EncodedWords := by
  refine ⟨?_, ?_, ?_, ?_, ?_, ?_, ?_, ?_⟩ <;> rfl

end Sys2Proof.Proofs.Encoding
end

section
/-! SUPPORT. Every word but a header is issued by the shared checks (R172, R177, R184); every instruction and event goes on; the state after
reset; memories that read back. -/

namespace Sys2Proof.Proofs.Checks

open Sys2Proof Sys2Proof.Machine Sys2Proof.Stated Sys2Proof.Laws

/-! ## The meaning of a word is its issue -/

theorem laneAlu_issue {i : Instr} {ok : Nat → Bool} {d : Opnd} {f : Band → State → Nat → Try (Nat → Nat)} :
    ∃ body, laneAlu i ok d f = issue i body := ⟨_, rfl⟩

theorem laneAlu1_issue {i : Instr} {ok : Nat → Bool} {d a : Opnd} {f : Band → Nat → Nat → Nat} :
    ∃ body, laneAlu1 i ok d a f = issue i body := laneAlu_issue

theorem laneAlu2_issue {i : Instr} {ok : Nat → Bool} {d a b : Opnd} {f : Band → Nat → Nat → Nat → Nat → Nat} :
    ∃ body, laneAlu2 i ok d a b f = issue i body := laneAlu_issue

theorem shiftOp_issue {i : Instr} {d a b : Opnd} {f : Nat → Nat → Nat → Nat} : ∃ body, shiftOp i d a b f = issue i body := laneAlu_issue

theorem floatOp_issue {i : Instr} {arith : Bool} {d : Opnd} {read : Band → State → Fmt → Try (Nat → Machine.Num × BitVec 6)} :
    ∃ body, floatOp i arith d read = issue i body := ⟨_, rfl⟩

theorem next_issue {i : Instr} {g : State → State} (h : ∃ body, g = issue i body) (s : State) :
    ∃ body, (Host.Outcome.next (g s) : Host.Outcome State Fault Refusal) = .next (issue i body s) := by
  obtain ⟨body, rfl⟩ := h
  exact ⟨body, rfl⟩

/-- R172, R177: what a word but a header does is its issue with a meaning of its own. -/
theorem exec_eq_issue {i : Instr} (hw : i.hasWord = true) (hh : ∀ w x y n, i ≠ .clauseHeader w x y n) (s : State) :
    ∃ body, exec i s = .next (issue i body s) := by
  cases i with
  | clauseHeader w x y n => exact absurd rfl (hh w x y n)
  | vadd | vsub | vmul | vmulh | vand | vor | vxor | vmin | vmax | vidx => exact next_issue laneAlu2_issue s
  | vnot | vabs | vneg | vmov | vpopc | vclz => exact next_issue laneAlu1_issue s
  | vshl | vshr | vbfx => exact next_issue shiftOp_issue s
  | fadd | fsub | fmul | fdiv | frcp | frsq | fsqrt | fexp2 | flog2 | fsin | fcos => exact next_issue floatOp_issue s
  | _ => cases hw <;> exact ⟨_, rfl⟩

/-! ## The checks before a word acts (R172, R177, R184) -/

section Refusals

variable {i : Instr} {body : Band → State → Try Fin'} {s : State} {b : Band}

theorem issue_no_band (h : s.bandAt s.cur = none) : issue i body s = s := by
  unfold issue
  rw [h]

theorem issue_not_ready (h : s.bandAt s.cur = some b) (hc : b.canIssue = false) : issue i body s = s := by
  unfold issue
  rw [h]
  simp only [hc, Bool.not_false, if_true]

theorem issue_not_last (h : s.bandAt s.cur = some b) (hc : b.canIssue = true) (hi : Instr.isControl i = true)
    (hl : b.lastWord (len i) = false) :
    issue i body s = s.takeTrap b (b.trapAt true (len i) 0x01 0 ((encodeWord i).setWidth 64) 0) := by
  unfold len at *
  unfold issue
  rw [h]
  simp only [hc, hi, hl, Bool.not_true, Bool.not_false, Bool.and_self, Bool.false_eq_true, if_true, if_false]
  rfl

/-- A word whose place in the clause is in order. -/
theorem placed_iff : (Instr.isControl i && !b.lastWord (len i)) = false ↔ (Instr.isControl i = true → b.lastWord (len i) = true) := by
  cases Instr.isControl i <;> simp

theorem permitted_iff : (Instr.isPrivileged i && !b.privileged) = false ↔ (Instr.isPrivileged i = true → b.privileged = true) := by
  cases Instr.isPrivileged i <;> simp

theorem issue_not_permitted (h : s.bandAt s.cur = some b) (hc : b.canIssue = true) (hl : Instr.isControl i = true → b.lastWord (len i) = true)
    (hi : Instr.isPrivileged i = true) (hp : b.privileged = false) :
    issue i body s = s.takeTrap b (b.trapAt (Instr.isControl i) (len i) 0x04 0 ((encodeWord i).setWidth 64) 0) := by
  have hl := placed_iff.2 hl
  unfold len at *
  unfold issue
  rw [h]
  simp only [hc, hl, hi, hp, Bool.not_true, Bool.not_false, Bool.and_self, Bool.false_eq_true, if_true, if_false]
  rfl

theorem issue_malformed (h : s.bandAt s.cur = some b) (hc : b.canIssue = true) (hl : Instr.isControl i = true → b.lastWord (len i) = true)
    (hp : Instr.isPrivileged i = true → b.privileged = true) (hw : i.wellFormed = false) :
    issue i body s = s.takeTrap b (b.trapAt (Instr.isControl i) (len i) 0x02 0 ((encodeWord i).setWidth 64) 0) := by
  have hl := placed_iff.2 hl
  have hp := permitted_iff.2 hp
  unfold len at *
  unfold issue
  rw [h]
  simp only [hc, hl, hp, hw, Bool.not_true, Bool.not_false, Bool.false_eq_true, if_true, if_false]
  rfl

end Refusals

/-- Settles O6: a word is its issue, whose checks come in the order of R177. -/
theorem wordChecks : Obligations.WordChecks := by
  intro i s hw hh
  obtain ⟨body, hexec⟩ := exec_eq_issue hw hh s
  rw [hexec]
  refine ⟨fun h => next_eq (issue_no_band h), fun b h => ⟨?_, ?_, ?_, ?_⟩⟩
  · exact fun hc => next_eq (issue_not_ready h hc)
  · exact fun hc hi hl => next_eq (issue_not_last h hc hi hl)
  · exact fun hc hl hi hp => next_eq (issue_not_permitted h hc hl hi hp)
  · exact fun hc hl hp hf => next_eq (issue_malformed h hc hl hp hf)

end Sys2Proof.Proofs.Checks
end

section
/-! SUPPORT. What a step runs (R335, R173, R177), and that it stops at an unpopulated address only (R39; log 4). -/

namespace Sys2Proof.Proofs.Stepping

open Sys2Proof Sys2Proof.Machine Sys2Proof.Stated Sys2Proof.Laws

/-! ## The turn of a band -/

section Turn

variable {s u : State} {p : Place} {b : Band}

theorem issueAt_fetch (h : s.bandAt p = some b) (hc : b.clause = none) : issueAt p s = exec .clauseFetch { s with cur := p } := by
  simp only [issueAt, h, Band.nextWord, hc]

theorem issueAt_decoded {c : Clause} {i : Instr} {more : List W32} (h : s.bandAt p = some b) (hc : b.clause = some c)
    (hd : decode (c.from b.hdr b.pc) = .ok (i, more)) : issueAt p s = exec i { s with cur := p } := by
  cases hw : c.from b.hdr b.pc with
  | nil => rw [hw] at hd; cases hd
  | cons w ws =>
    rw [hw] at hd
    simp only [issueAt, h, Band.nextWord, hc, hw, hd]

theorem issueAt_refused {c : Clause} {w : W32} {more : List W32} {x : DecodeError} (h : s.bandAt p = some b) (hc : b.clause = some c)
    (hw : c.from b.hdr b.pc = w :: more) (hd : decode (w :: more) = .error x) : issueAt p s = .next (refuseWord w { s with cur := p }) := by
  simp only [issueAt, h, Band.nextWord, hc, hw, hd]

theorem serve_passed (h : s.mayIssue p = false) : serve p 0 s = .next s := by simp [serve, h]

theorem serve_next (h : s.mayIssue p = true) (hi : issueAt p { s with upset := 0 } = .next u) :
    serve p 0 s = afterIssue p s (.next { u with upset := 0 }) := by
  simp only [serve, h, if_true, withUpset, hi]

end Turn

theorem step_of_turn {s : State} {x : Turn} {rest : List Turn} (h : s.agenda = x :: rest) :
    step s = settle (run x.move (({ s with agenda := rest } : State).elapse (1 + x.elapsed)).arrive) := by
  rw [step, h]

theorem step_of_empty {s : State} (h : s.agenda = []) : step s = settle (defaultRun (s.elapse 1).arrive) := by
  rw [step, h]

theorem step_issue {s : State} {e : Nat} {p : Place} {rest : List Turn} (h : s.agenda = ⟨e, .issue p⟩ :: rest) :
    step s = settle (serve p 0 (({ s with agenda := rest } : State).elapse (1 + e)).arrive) := step_of_turn h

/-- The band of a place with the shadow unit's error gone, as it issues there. -/
theorem bandAt_upset {s : State} {p : Place} {x : W32} : ({ s with upset := x } : State).bandAt p = s.bandAt p := rfl

/-- Settles O46: the agenda's turn, or with an empty agenda the default, by the scheduler's definitions. -/
theorem stepRunsDecodedInstruction : Obligations.StepRunsDecodedInstruction := by
  refine ⟨?_, ?_, ?_, ?_, ?_⟩
  · intro s e p rest h t u
    refine ⟨fun hm => ?_, fun b hb hm => ⟨fun v hc hv => ?_, fun v c i more hc hd hv => ?_, fun c w more x hc hw hd => ?_⟩⟩
    · rw [step_issue h, serve_passed hm]
    · rw [step_issue h, serve_next hm ((issueAt_fetch (bandAt_upset.trans hb) hc).trans hv)]
    · rw [step_issue h, serve_next hm ((issueAt_decoded (bandAt_upset.trans hb) hc hd).trans hv)]
    · rw [step_issue h, serve_next hm (issueAt_refused (bandAt_upset.trans hb) hc hw hd)]
  · intro s e i rest h
    exact step_of_turn h
  · intro s h t
    refine ⟨fun f hf => ?_, fun b hf hb => ?_⟩
    · rw [step_of_empty h, defaultRun, hf]
    · have hn : t.ownEvents.find? t.due = none := List.find?_eq_none.2 fun f hmem => by simp [hf f hmem]
      rw [step_of_empty h, defaultRun, hn]
      simp only [t] at hb
      rw [hb]
  · intro t ht
    simp only [settle, ht]
  · intro t v p b hb
    refine ⟨fun hk => ?_, fun hk => ?_⟩
    · simp [afterIssue, hb, hk]
    · simp [afterIssue, after, hb, hk]

/-! ## A step goes on -/

theorem exec_next (i : Instr) (s : State) : ∃ t, exec i s = .next t := by
  cases i <;> exact ⟨_, rfl⟩

theorem issueAt_next (p : Place) (s : State) : ∃ t, issueAt p s = .next t := by
  unfold issueAt
  split
  · exact ⟨_, rfl⟩
  · split
    · exact exec_next _ _
    · exact ⟨_, rfl⟩

theorem withUpset_next {f : Occurrence} (h : ∀ s, ∃ t, f s = .next t) (err : W32) (s : State) : ∃ t, withUpset err f s = .next t := by
  obtain ⟨t, ht⟩ := h { s with upset := err }
  exact ⟨{ t with upset := 0 }, by simp only [withUpset, ht]⟩

theorem after_next {r : Host.Outcome State Fault Refusal} (h : ∃ t, r = .next t) (s : State) : ∃ t, after s r = .next t := by
  obtain ⟨t, rfl⟩ := h
  exact ⟨_, rfl⟩

theorem afterIssue_next {r : Host.Outcome State Fault Refusal} (h : ∃ t, r = .next t) (p : Place) (s : State) :
    ∃ t, afterIssue p s r = .next t := by
  obtain ⟨t, rfl⟩ := h
  simp only [afterIssue]
  split
  · exact ⟨_, rfl⟩
  · exact after_next ⟨_, rfl⟩ s

theorem serve_goesOn (p : Place) (err : W32) (s : State) : ∃ t, serve p err s = .next t := by
  unfold serve
  split
  · exact afterIssue_next (withUpset_next (issueAt_next p) err s) p s
  · exact ⟨_, rfl⟩

theorem run_next (m : Move) (s : State) : ∃ t, run m s = .next t := by
  cases m with
  | issue p => exact serve_goesOn p 0 s
  | event i => exact after_next (exec_next i _) s
  | strike => exact ⟨_, rfl⟩
  | upsetIssue p err => exact serve_goesOn p err s
  | upsetEvent i err => exact after_next (withUpset_next (exec_next i) err _) s
  | part => exact after_next ⟨_, rfl⟩ s

/-- An event of the package that goes on, whatever the state. -/
def GoesOn (f : Occurrence) : Prop := ∀ s, ∃ t, f s = .next t

/-- Every one of a list of events goes on. -/
def AllGoOn (l : List Occurrence) : Prop := ∀ f ∈ l, GoesOn f

@[simp] theorem allGoOn_nil : AllGoOn [] := fun _ h => nomatch h

@[simp] theorem allGoOn_cons {f : Occurrence} {l : List Occurrence} : AllGoOn (f :: l) ↔ GoesOn f ∧ AllGoOn l := List.forall_mem_cons

@[simp] theorem allGoOn_append {l m : List Occurrence} : AllGoOn (l ++ m) ↔ AllGoOn l ∧ AllGoOn m := List.forall_mem_append

@[simp] theorem allGoOn_map {α : Type} {l : List α} {f : α → Occurrence} : AllGoOn (l.map f) ↔ ∀ x ∈ l, GoesOn (f x) := List.forall_mem_map

@[simp] theorem allGoOn_flatMap {α : Type} {l : List α} {f : α → List Occurrence} : AllGoOn (l.flatMap f) ↔ ∀ x ∈ l, AllGoOn (f x) := by
  simp only [AllGoOn, List.mem_flatMap]
  exact ⟨fun h x hx g hg => h g ⟨x, hx, hg⟩, fun h g ⟨x, hx, hg⟩ => h x hx g hg⟩

theorem opEvents_goOn (s : State) (o : Op) : AllGoOn (s.opEvents o) := by
  unfold State.opEvents
  dsimp only
  split
  all_goals simp only [allGoOn_append, allGoOn_cons, allGoOn_map, allGoOn_nil, and_true]
  all_goals repeat' apply And.intro
  all_goals intros
  all_goals exact fun _ => ⟨_, rfl⟩

theorem bandEvents_goOn (s : State) (b : Band) : AllGoOn (s.bandEvents b) := by
  unfold State.bandEvents
  simp only [allGoOn_append, allGoOn_flatMap, allGoOn_cons, allGoOn_nil, and_true]
  refine ⟨⟨?_, fun d _ => ⟨fun _ => ⟨_, rfl⟩, fun _ => ⟨_, rfl⟩⟩⟩, ?_⟩
  · split
    case h_8 => exact allGoOn_nil
    all_goals exact allGoOn_cons.2 ⟨fun _ => ⟨_, rfl⟩, allGoOn_nil⟩
  split
  · exact allGoOn_cons.2 ⟨fun _ => ⟨_, rfl⟩, allGoOn_nil⟩
  · exact allGoOn_nil

theorem wgEvents_goOn (s : State) (w : Workgroup) : AllGoOn (s.wgEvents w) := by
  simp only [State.wgEvents, allGoOn_cons, allGoOn_nil, and_true]
  exact ⟨fun _ => ⟨_, rfl⟩, fun _ => ⟨_, rfl⟩, fun _ => ⟨_, rfl⟩, fun _ => ⟨_, rfl⟩⟩

theorem launchEvents_goOn (s : State) (l : Launch) : AllGoOn (s.launchEvents l) := by
  unfold State.launchEvents
  simp only [allGoOn_append, allGoOn_flatMap, allGoOn_map, allGoOn_cons, allGoOn_nil, and_true]
  refine ⟨⟨?_, fun _ _ _ _ _ => ⟨_, rfl⟩⟩, fun _ => ⟨_, rfl⟩, fun _ => ⟨_, rfl⟩, fun _ => ⟨_, rfl⟩⟩
  split
  · exact allGoOn_cons.2 ⟨fun _ => ⟨_, rfl⟩, allGoOn_nil⟩
  · exact allGoOn_nil

theorem quadEvents_goOn (s : State) : AllGoOn s.quadEvents := by
  simp only [State.quadEvents, allGoOn_flatMap, allGoOn_cons, allGoOn_nil, and_true]
  exact fun _ _ => ⟨fun _ => ⟨_, rfl⟩, fun _ => ⟨_, rfl⟩⟩

theorem commandEvents_goOn : AllGoOn commandEvents := by
  simp only [commandEvents, allGoOn_cons, allGoOn_nil, and_true]
  repeat' apply And.intro
  all_goals exact fun _ => ⟨_, rfl⟩

theorem partEvents_goOn (s : State) : AllGoOn s.partEvents := by
  simp only [State.partEvents, allGoOn_append, allGoOn_flatMap, allGoOn_map, allGoOn_cons, allGoOn_nil, and_true]
  repeat' apply And.intro
  all_goals intros
  all_goals exact fun _ => ⟨_, rfl⟩

theorem ownEvents_goOn (s : State) : AllGoOn s.ownEvents := by
  simp only [State.ownEvents, allGoOn_append, allGoOn_flatMap]
  refine ⟨⟨⟨⟨⟨⟨?_, ?_⟩, ?_⟩, ?_⟩, quadEvents_goOn s⟩, ?_⟩, partEvents_goOn s⟩
  · exact fun o _ => opEvents_goOn s o
  · exact fun b _ => bandEvents_goOn s b
  · exact fun w _ => wgEvents_goOn s w
  · exact fun l _ => launchEvents_goOn s l
  · split
    · exact commandEvents_goOn
    · exact allGoOn_nil

theorem defaultRun_next (s : State) : ∃ t, defaultRun s = .next t := by
  unfold defaultRun
  split
  next f hf => exact after_next (ownEvents_goOn s f (List.mem_of_find?_eq_some hf) s) s
  · split
    · exact run_next _ s
    · exact ⟨_, rfl⟩

/-- A step is the settling of a state that it went on to. -/
theorem step_eq_settle (s : State) : ∃ t, step s = settle (.next t) := by
  unfold step
  split
  · obtain ⟨t, ht⟩ := run_next _ _
    exact ⟨t, by rw [ht]⟩
  · obtain ⟨t, ht⟩ := defaultRun_next _
    exact ⟨t, by rw [ht]⟩

/-- Settles O47: what a step goes on to is settled, and an unpopulated address is all that stops it. -/
theorem stopsOnlyAtUnpopulatedAddresses : Obligations.StopsOnlyAtUnpopulatedAddresses := by
  intro s
  obtain ⟨t, ht⟩ := step_eq_settle s
  rw [ht]
  cases h : t.stray with
  | none => exact .inl ⟨t, by simp only [settle, h], h⟩
  | some pa => exact .inr ⟨pa, by simp only [settle, h]⟩

end Sys2Proof.Proofs.Stepping
end

section
/-! SUPPORT. Bytes and registers read back (R2), and the state after reset (R4, R124, R358). -/

namespace Sys2Proof.Proofs.Bytes

open Sys2Proof Sys2Proof.Machine Sys2Proof.Stated Sys2Proof.Laws

/-! ## Memories in the form are what they read as -/

/-- A list of cells in the form reads, at the address of its first cell, as that cell. -/
theorem get_head (k : Nat) (x : Byte) (t : List Host.Cell) : Mem.get ((k, x) :: t) k = x := if_pos rfl

/-- Reading alike, the first cells stand at the same address: each memory has a byte that is not zero there. -/
theorem head_le_of_get_eq {lo k j : Nat} {x y : Byte} {s t : List Host.Cell} (hm : Mem.above lo ((k, x) :: s) = true)
    (hn : Mem.above j ((j, y) :: t) = true) (h : ∀ a, Mem.get ((k, x) :: s) a = Mem.get ((j, y) :: t) a) : j ≤ k := by
  simp only [Mem.above, Bool.and_eq_true, decide_eq_true_eq, bne_iff_ne] at hm
  by_contra hlt
  have hz : Mem.get ((j, y) :: t) k = 0 := get_below hn (by omega)
  rw [← h k, get_head] at hz
  exact hm.1.2 hz

theorem above_self {lo k : Nat} {x : Byte} {t : List Host.Cell} (h : Mem.above lo ((k, x) :: t) = true) :
    Mem.above k ((k, x) :: t) = true := by
  simp only [Mem.above, Bool.and_eq_true, decide_eq_true_eq] at h ⊢
  exact ⟨⟨le_rfl, h.1.2⟩, h.2⟩

theorem eq_nil_of_get_zero {lo : Nat} {m : List Host.Cell} (hm : Mem.above lo m = true) (h : ∀ a, Mem.get m a = 0) : m = [] := by
  cases m with
  | nil => rfl
  | cons c t =>
    simp only [Mem.above, Bool.and_eq_true, bne_iff_ne] at hm
    exact absurd ((get_head c.1 c.2 t).symm.trans (h c.1)) hm.1.2

theorem eq_of_get_eq {m : List Host.Cell} : ∀ {lo hi : Nat} {n : List Host.Cell}, Mem.above lo m = true → Mem.above hi n = true →
    (∀ a, Mem.get m a = Mem.get n a) → m = n := by
  induction m with
  | nil => exact fun _ hn h => (eq_nil_of_get_zero hn fun a => (h a).symm).symm
  | cons c s ih =>
    obtain ⟨k, x⟩ := c
    intro lo hi n hm hn h
    cases n with
    | nil => exact eq_nil_of_get_zero hm h
    | cons d t =>
      obtain ⟨j, y⟩ := d
      obtain rfl : k = j := le_antisymm (head_le_of_get_eq hn (above_self hm) fun a => (h a).symm) (head_le_of_get_eq hm (above_self hn) h)
      obtain rfl : x = y := by rw [← get_head k x s, h k, get_head]
      have hs : Mem.above (k + 1) s = true := by simp only [Mem.above, Bool.and_eq_true] at hm; exact hm.2
      have ht : Mem.above (k + 1) t = true := by simp only [Mem.above, Bool.and_eq_true] at hn; exact hn.2
      have hrest : ∀ a, Mem.get s a = Mem.get t a := by
        intro a
        by_cases ha : a = k
        · subst ha; rw [get_below hs (by omega), get_below ht (by omega)]
        · have := h a
          rwa [Mem.get, Mem.get, if_neg (Ne.symm ha), if_neg (Ne.symm ha)] at this
      rw [ih hs ht hrest]

/-! ## Bytes stored -/

theorem get_write {m : List Host.Cell} (h : Mem.wf m = true) (a n x c : Nat) :
    Mem.get (Mem.write m a n x) c = if a ≤ c ∧ c < a + n then byteOf x (c - a) else Mem.get m c := by
  by_cases hc : a ≤ c ∧ c < a + n
  · obtain ⟨i, rfl⟩ := Nat.exists_eq_add_of_le hc.1
    rw [if_pos hc, get_write_same n a x i h (by omega), Nat.add_sub_cancel_left]
  · rw [if_neg hc, get_write_other n a x c h (by omega)]

theorem foldl_wake_mem (f : Nat → Nat) (l : List Nat) (s : State) : (l.foldl (fun s i => s.wake (f i)) s).mem = s.mem := by
  induction l generalizing s with
  | nil => rfl
  | cons i l ih => exact ih _

theorem ramStore_mem (s : State) (pa n x : Nat) : (s.ramStore pa n x).mem = Mem.write s.mem pa n x := by
  unfold State.ramStore
  dsimp only
  split
  next h => rw [h, Mem.write]
  · rw [foldl_wake_mem]
    rfl

/-- Settles O50: cells and registers read back, by the rules of the byte memories. -/
theorem memoryReadsBack : Obligations.MemoryReadsBack := by
  refine ⟨fun s pa n x c h => ?_, fun s key k y h => ?_, fun s a b v h => ?_, fun m n hm hn h => eq_of_get_eq hm hn h⟩
  · rw [ramStore_mem]
    exact ⟨write_wf n pa x h, get_write h pa n x c⟩
  · exact ⟨set_wf h key y, get_set_wf h key k y⟩
  · exact ⟨setReg_wf h a v, reg_setReg h a b v⟩

/-! ## Reset -/

theorem reset_reg (off : Nat) : State.reset.reg off = resetOf off := rfl

/-- The numbers of R315 lie in the device-register range as R398 puts them. -/
theorem regSpec_numOff {k : Nat} (h : k < 0x3000) : regSpec (numOff k) = numSpec k := by
  unfold regSpec numOff
  have hk : (0x10000 + 8 * k - 0x10000) / 8 = k := by omega
  iterate 16 rw [if_neg (by omega)]
  rw [if_pos (by omega), hk]

theorem reset_num {k : Nat} {r : RegSpec} (hk : k < 0x3000) (h : numSpec k = some r) : State.reset.num k = r.reset := by
  rw [State.num, reset_reg, resetOf, regSpec_numOff hk, h]

theorem numSpec_secbase {k : Nat} (h : k < 0x40) : numSpec k = some (rwsReg (bitsMask 63 62 ||| bitsMask 51 16)) := by
  rw [numSpec, if_pos h]

theorem numSpec_celogctl {u : Nat} (h : u ≤ 11 ∨ (16 ≤ u ∧ u ≤ 25)) :
    numSpec (0xC0 + u) = some (rwpReg 0x8036EE8010000000 (bitsMask 63 62 ||| bitsMask 55 24)) := by
  rw [numSpec, if_neg (by omega), if_neg (by omega), if_neg (by omega), if_pos (by omega)]

theorem numSpec_lsrole_odd {c : Nat} (h : c < 240) :
    numSpec (0x1001 + 2 * c) = some (rwpReg (bitsMask 63 63) (bitsMask 63 63 ||| bitsMask 47 0)) := by
  unfold numSpec
  iterate 16 rw [if_neg (by omega)]
  rw [if_pos (by omega), if_neg (by omega)]

/-- Settles O51: an empty state, whose registers hold the reset values of their field maps. -/
theorem resetState : Obligations.ResetState := by
  refine ⟨rfl, fun _ => ⟨rfl, rfl⟩, rfl, rfl, rfl, rfl, fun off r h => ?_, ?_, fun n hn => ?_, fun u hu => ?_, fun c hc => ?_⟩
  · rw [reset_reg, resetOf, h]
  · rw [reset_num (by omega) (show numSpec 0x2000 = some roReg from rfl)]
    rfl
  · rw [reset_num (by omega) (numSpec_secbase hn)]
    exact ⟨rfl, rfl⟩
  · rw [State.celogCtl, reset_num (by omega) (numSpec_celogctl hu)]
    decide
  · rw [State.manual, reset_num (by omega) (numSpec_lsrole_odd hc)]
    decide

/-- Settles O49: the lists of the state after reset are empty. -/
theorem resetHasForm : Obligations.ResetHasForm := rfl

end Sys2Proof.Proofs.Bytes
end

section
/-! SUPPORT. Calls, returns and indirect jumps (R301 to R303), and the return from a trap (R308, R374). -/

namespace Sys2Proof.Proofs.Windows

open Sys2Proof Sys2Proof.Machine Sys2Proof.Stated Sys2Proof.Laws Sys2Proof.Proofs.Pieces Sys2Proof.Proofs.Control Sys2Proof.Proofs.BandState

/-! ## Targets in registers (R173) -/

section Targets

variable {s : State} {b : Band} {t : W64}

theorem checkRegTarget_of_header (ha : t.toNat % 4 = 0) (hb : t.toNat < 2 ^ 57) (h : s.notHeader b (va57 t) = false) :
    s.checkRegTarget b t = .ok () := by
  rw [State.checkRegTarget, if_neg (by omega), checkTarget_of_header h]

theorem checkRegTarget_of_bad (h : t.toNat % 4 ≠ 0 ∨ 2 ^ 57 ≤ t.toNat) : s.checkRegTarget b t = .error (.trap 0x03 0 t 0) := by
  rw [State.checkRegTarget, if_pos h]
  rfl

end Targets

/-! ## Calls (R149, R151, R301, R302) -/

/-- Each call word has the shared meaning, with a target that its check accepts. -/
theorem exec_of_call {i : Instr} {b : Band} {s : State} {n : BitVec 8} {t : W64} (h : Call i b s n t) :
    ∃ (target : Band → State → Try W64) (check : State → Band → W64 → Try Unit),
      (∀ s, exec i s = .next (issue i (callBody n.toNat target check) s)) ∧ target b s = .ok t ∧ check s b t = .ok () ∧
        Instr.isControl i = true := by
  cases h with
  | call _ _ _ _ h => exact ⟨_, _, fun _ => rfl, rfl, checkTarget_targetOf_header h, rfl⟩
  | calli _ _ _ _ _ hx ha hb h => exact ⟨_, _, fun _ => rfl, hx, checkRegTarget_of_header ha hb h, rfl⟩

theorem callResults : CallResults := by
  intro i s b n t hcall h hw
  obtain ⟨target, check, hexec, ht, hc, hi⟩ := exec_of_call hcall
  rw [hexec]
  refine ⟨fun hr => next_eq (issue_hold h ?_), fun hr hs => next_eq (issue_jump h ?_), fun hr hs => next_eq ?_⟩
  · have hn : b.retrying.isNone = false := by simpa [Option.isSome_iff_ne_none] using hr
    simp only [callBody, ht, windowFault_none hw, hn, ok_bind]
    rfl
  · simp only [callBody, ht, windowFault_none hw, hr, hc, State.windowRoom, if_neg (Nat.not_lt.2 hs), ok_bind]
    rfl
  · rw [issue_err h 0x20 0 (BitVec.ofNat 64 b.depth) (BitVec.ofNat 64 ((acting b s).spillSize b)), hi]
    simp only [callBody, ht, windowFault_none hw, hr, State.windowRoom, if_pos hs, ok_bind]
    rfl

/-! ## Returns and indirect jumps (R152, R302, R303) -/

theorem exec_ret (s : State) : exec .ret s = .next (issue .ret retBody s) := rfl

theorem returnResults : ReturnResults := by
  intro s b h
  rw [exec_ret]
  refine ⟨fun f rest hf hw hl => next_eq (issue_hold h ?_), fun f rest hf hw hl hr ha hb hh => next_eq (issue_jump h ?_),
    fun hf => next_eq ?_⟩
  · have hc : (f.loc == .resident && b.retrying.isNone) = false := by
      rcases hl with hl | hl <;> simp [hl, Option.isSome_iff_ne_none]
    simp only [retBody, hf, windowFault_none hw, hc, ok_bind]
    rfl
  · simp only [retBody, hf, windowFault_none hw, hl, hr, checkRegTarget_of_header ha hb hh, ok_bind]
    rfl
  · rw [issue_word h 0x23 (by simp only [retBody, hf]; rfl)]
    rfl

theorem exec_jmpi (p : Opnd) (s : State) : exec (.jmpi p) s = .next (issue (.jmpi p) (fun b s => do
    let x ← s.testReg b p
    s.checkRegTarget b x
    return .jump s x none) s) := rfl

theorem indirectJumpResults : IndirectJumpResults := by
  intro s b p x h hx
  rw [exec_jmpi]
  refine ⟨fun ha hb hh => next_eq (issue_jump h ?_), fun ht => next_eq (issue_illegalTarget h rfl ?_ ?_)⟩
  · simp only [hx, checkRegTarget_of_header ha hb hh, ok_bind]
    rfl
  · exact congrArg (1 + List.length ·) (litWords_of_testReg hx)
  · simp only [hx, checkRegTarget_of_bad ht, ok_bind, error_bind]

/-- Settles O4: calls by their shared meaning, RET and JMPI by their own. -/
theorem callAndReturnResults : Obligations.CallAndReturnResults := ⟨callResults, returnResults, indirectJumpResults⟩

/-! ## The return from a trap (R308, R374) -/

/-- A change of a band that stands for a word is a change of that band alone. -/
theorem acting_modBand (b : Band) (s : State) (f : Band → Band) :
    (acting b s).modBand b.uid f = (acting b s).modBand b.uid fun _ => f { b with latValid := false } := by
  simp only [acting, State.setBand, State.modBand, List.map_map]
  congr 1
  refine List.map_congr_left fun x _ => ?_
  simp only [Function.comp]
  split <;> simp_all

theorem bit_cases (k : BitVec 1) : k = 0 ∨ k = 1 := by
  revert k; decide

/-- What RFT gives back to its band before the window slides (R374): MODE, EXEC and, without S, lat. -/
def returned (k : BitVec 1) (x24 x30 x31 : W64) (lat : VReg) (c : Band) : Band :=
  let c := { c with mode := x31.setWidth 32 &&& ~~~ 0xE000#32, m := c.m.setIfInBounds 0 (x30.setWidth 32) }
  if k == 1 then { c with latValid := false } else { c with lat := lat, latValid := x24.getLsbD 13 }

/-- The band as RFT leaves it, out of the handler. -/
def afterRft (k : BitVec 1) (x24 x30 x31 : W64) (lat : VReg) (lp : Bool) (c : Band) : Band :=
  let c := { (returned k x24 x30 x31 lat c).unslide with inHandler := false, privileged := lp }
  if !(k == 1) && x24.extractLsb' 0 8 == 0x21 then c.restartTailrace else c.refillNewest

/-- The newest frame's refill changes its place alone. -/
theorem refillNewest_eq (c : Band) : ∃ fs, c.refillNewest = { c with frames := fs } ∧ fs.length = c.frames.length := by
  unfold Band.refillNewest
  split
  next f rest hf =>
    split
    · exact ⟨_, rfl, by rw [hf]; rfl⟩
    · exact ⟨c.frames, rfl, rfl⟩
  · exact ⟨c.frames, rfl, rfl⟩

theorem length_frames_setFrame (c : Band) (d : Nat) (f : Frame) : (c.setFrame d f).frames.length = c.frames.length := List.length_set

/-- A band with other frames, no recorded fault and another transfer to try again. -/
def Restarted (c d : Band) : Prop :=
  ∃ fs r, d = { c with frames := fs, winFault := none, retrying := r } ∧ fs.length = c.frames.length

theorem Restarted.refillNewest {c d : Band} (h : Restarted c d) : Restarted c d.refillNewest := by
  obtain ⟨fs, r, rfl, hl⟩ := h
  obtain ⟨gs, he, hg⟩ := refillNewest_eq { c with frames := fs, winFault := none, retrying := r }
  exact ⟨gs, r, he, hg.trans hl⟩

/-- Starting the Tailrace again changes the frames' places, and forgets the fault. -/
theorem restartTailrace_restarted (c : Band) : Restarted c c.restartTailrace := by
  unfold Band.restartTailrace
  split
  next hw => exact Restarted.refillNewest ⟨c.frames, c.retrying, by rw [← hw], rfl⟩
  · refine Restarted.refillNewest ?_
    split
    · split
      · exact ⟨_, _, rfl, length_frames_setFrame ..⟩
      · split
        · exact ⟨_, _, rfl, length_frames_setFrame ..⟩
        · exact ⟨_, _, rfl, rfl⟩
    · exact ⟨_, _, rfl, rfl⟩

/-- Out of the handler the band is as the slide back leaves it, but for its frames' places and the Tailrace. -/
theorem afterRft_eq (k : BitVec 1) (x24 x30 x31 : W64) (lat : VReg) (lp : Bool) (c : Band) :
    ∃ fs r, afterRft k x24 x30 x31 lat lp c = { (returned k x24 x30 x31 lat c).unslide with
        inHandler := false, privileged := lp, frames := fs, retrying := r,
        winFault := if k = 0 ∧ x24.extractLsb' 0 8 = 0x21 then none else (returned k x24 x30 x31 lat c).unslide.winFault } ∧
      fs.length = (returned k x24 x30 x31 lat c).unslide.frames.length := by
  have hk : (!(k == 1) && x24.extractLsb' 0 8 == 0x21) = true ↔ k = 0 ∧ x24.extractLsb' 0 8 = 0x21 := by
    rcases bit_cases k with rfl | rfl <;> simp
  unfold afterRft
  dsimp only
  by_cases h : k = 0 ∧ x24.extractLsb' 0 8 = 0x21
  · obtain ⟨fs, r, he, hl⟩ := restartTailrace_restarted { (returned k x24 x30 x31 lat c).unslide with inHandler := false, privileged := lp }
    exact ⟨fs, r, by rw [if_pos (hk.2 h), if_pos h, he], hl⟩
  · obtain ⟨fs, he, hl⟩ := refillNewest_eq { (returned k x24 x30 x31 lat c).unslide with inHandler := false, privileged := lp }
    exact ⟨fs, _, by rw [if_neg (mt hk.1 h), if_neg h, he], hl⟩

section Unslide

variable {c : Band} {f : Frame} {rest : List Frame}

theorem unslide_eq (h : c.frames = f :: rest) : c.unslide = { c with
    frames := rest
    v := Vector.ofFn fun i => if i.val < f.slide then f.hv.getD i.val VName.zero else c.vName (i.val - f.slide)
    s := Vector.ofFn fun i =>
      if 32 ≤ i.val then c.sName i.val
      else if i.val < f.slide / 2 then f.hs.getD i.val SName.zero else c.sName (i.val - f.slide / 2) } := by
  unfold Band.unslide
  rw [h]

theorem vName_unslide (h : c.frames = f :: rest) {n : Nat} (hn : n < 64) :
    c.unslide.vName n = if n < f.slide then f.hv.getD n VName.zero else c.vName (n - f.slide) := by
  rw [unslide_eq h, Band.vName]
  simp [Array.getD, hn]

theorem sName_unslide (h : c.frames = f :: rest) {n : Nat} (hn : n < 64) :
    c.unslide.sName n = if 32 ≤ n then c.sName n else if n < f.slide / 2 then f.hs.getD n SName.zero else c.sName (n - f.slide / 2) := by
  rw [unslide_eq h, Band.sName]
  simp [Array.getD, hn]

end Unslide

/-- The header that RFT resumes at, and the word within its clause if it does not resume at the header itself (R374). -/
theorem rftBody_ok {s : State} {b : Band} {k : BitVec 1} {f : Frame} {rest : List Frame} {x24 x25 x28 x29 x30 x31 h : W64} {lat : VReg}
    {l : Launch} {r : Refetched} {inClause : Prop} [Decidable inClause] (hi : b.inHandler = true) (hl : s.launch? b.launch = some l)
    (h24 : b.readS 24 = .ok x24) (h25 : b.readS 25 = .ok x25) (h28 : b.readS 28 = .ok x28) (h29 : b.readS 29 = .ok x29)
    (h30 : b.readS 30 = .ok x30) (h31 : b.readS 31 = .ok x31) (hlat : b.readV 63 = .ok lat)
    (hm0 : s.regPending b none none (some 0) = false) (hf : b.frames = f :: rest) (hr : f.loc = .resident)
    (hm : modeRefused (x31.setWidth 32) = false) (hc : s.refetch b x28 = r)
    (ht : if x24.getLsbD 14 then x25 = x28 ∧ k = 0 else r.hasWord x28 x25 = true)
    (hin : inClause ↔ x24.getLsbD 14 = false ∧ (k = 0 ∨ r.holds x28 x29 = true))
    (hh : (if inClause ∨ k = 0 then x28 else x29) = h) (ha : h.toNat % 4 = 0) (hb : h.toNat < 2 ^ 57) :
    rftBody (k == 1) b s = .ok (.jump (s.modBand b.uid (afterRft k x24 x30 x31 lat l.lr.priv)) h
      (if inClause then some (if k = 0 then x25 else x29) else none)) := by
  have hword : (if x24.getLsbD 14 then x25 != x28 else !r.hasWord x28 x25) = false := by
    split at ht
    next hd => rw [if_pos hd, ht.1, bne_self_eq_false]
    next hd => rw [if_neg hd, ht, Bool.not_true]
  have hskip : (k == 1 && x24.getLsbD 14) = false := by
    split at ht
    next hd => rw [ht.2]; rfl
    next hd => rw [Bool.eq_false_of_not_eq_true hd, Bool.and_false]
  have hwithin : (!x24.getLsbD 14 && (!(k == 1) || r.holds x28 x29)) = decide inClause := by
    by_cases hd : inClause
    · obtain ⟨h14, hk⟩ := hin.1 hd
      rw [decide_eq_true hd, h14]
      rcases bit_cases k with rfl | rfl
      · rfl
      · simpa using hk
    · rw [decide_eq_false hd, Bool.eq_false_iff]
      intro hx
      refine hd (hin.2 ?_)
      rcases bit_cases k with rfl | rfl <;> simpa using hx
  have htarget : (if (k == 1 && !decide inClause) = true then x29 else x28) = h := by
    rw [← hh]
    rcases bit_cases k with rfl | rfl <;> by_cases hd : inClause <;> simp [hd]
  have hok : ¬ (h.toNat % 4 ≠ 0 ∨ 2 ^ 57 ≤ h.toNat) := by omega
  have hres : (f.loc == FrameAt.resident) = true := by rw [hr]; rfl
  have hback : (if (k == 1) = true then x29 else x25) = if k = 0 then x25 else x29 := by
    rcases bit_cases k with rfl | rfl <;> rfl
  unfold rftBody
  simp only [hi, h24, h25, h28, h29, h30, h31, hlat, hm0, hm, hc, hword, hskip, State.mReady, ok_bind, Bool.not_true, Bool.not_false,
    holdUnless_true, Bool.false_eq_true, if_false]
  rw [hwithin, htarget, if_neg hok, hf]
  simp only [hres, holdUnless_true, ok_bind, hl, hback, decide_eq_true_eq]
  rfl

theorem exec_rft (k : BitVec 1) (s : State) : exec (.rft k) s = .next (issue (.rft k) (rftBody (k == 1)) s) := rfl

theorem issue_jump_within {i : Instr} {b : Band} {s t : State} {a r : W64} {body : Band → State → Try Fin'} (h : Stands i b s)
    (hb : body b (acting b s) = .ok (.jump t a (some r))) :
    issue i body s = t.modBand b.uid fun c => (c.issued b.inHandler i s.cycle).gotoWithin a r := by
  rw [issue_legal body h, hb]

theorem returned_frames (k : BitVec 1) (x24 x30 x31 : W64) (lat : VReg) (c : Band) : (returned k x24 x30 x31 lat c).frames = c.frames := by
  unfold returned
  dsimp only
  split <;> rfl

section Returned

variable {k : BitVec 1} {x24 x30 x31 : W64} {lat : VReg} {c : Band} {f : Frame} {rest : List Frame}

theorem returned_vName (n : Nat) : (returned k x24 x30 x31 lat c).vName n = c.vName n := by
  unfold returned
  dsimp only
  split <;> rfl

theorem returned_sName (n : Nat) : (returned k x24 x30 x31 lat c).sName n = c.sName n := by
  unfold returned
  dsimp only
  split <;> rfl

theorem unslide_returned_words (h : (returned k x24 x30 x31 lat c).frames = f :: rest) :
    (returned k x24 x30 x31 lat c).unslide.mode = x31.setWidth 32 &&& ~~~ 0xE000#32 ∧
      (returned k x24 x30 x31 lat c).unslide.exec = x30.setWidth 32 ∧
      (returned k x24 x30 x31 lat c).unslide.latValid = (decide (k = 0) && x24.getLsbD 13) ∧
      (k = 0 → (returned k x24 x30 x31 lat c).unslide.lat = lat) := by
  have hexec : (c.m.setIfInBounds 0 (x30.setWidth 32))[0] = x30.setWidth 32 := Vector.getElem_setIfInBounds_self (by decide)
  rw [unslide_eq h]
  rcases bit_cases k with rfl | rfl
  · exact ⟨rfl, hexec, rfl, fun _ => rfl⟩
  · exact ⟨rfl, hexec, rfl, fun hx => absurd hx (by decide)⟩

theorem unslide_returned_m (h : (returned k x24 x30 x31 lat c).frames = f :: rest) {n : Nat} (hn : n ≠ 0) :
    (returned k x24 x30 x31 lat c).unslide.m.toArray.getD n 0 = c.m.toArray.getD n 0 := by
  rw [unslide_eq h]
  have : (returned k x24 x30 x31 lat c).m = c.m.setIfInBounds 0 (x30.setWidth 32) := by
    unfold returned
    dsimp only
    split <;> rfl
  simp only [this, Vector.toArray_setIfInBounds, Array.getD_eq_getD_getElem?, Array.getElem?_setIfInBounds_ne hn.symm]

theorem unslide_returned_rest (h : (returned k x24 x30 x31 lat c).frames = f :: rest) :
    let d := (returned k x24 x30 x31 lat c).unslide
    d.a = c.a ∧ d.b = c.b ∧ d.o = c.o ∧ d.f = c.f ∧ d.fps = c.fps ∧ d.sig = c.sig ∧ d.srseq = c.srseq ∧ d.winFault = c.winFault := by
  rw [unslide_eq h]
  unfold returned
  dsimp only
  split <;> exact ⟨rfl, rfl, rfl, rfl, rfl, rfl, rfl, rfl⟩

end Returned

/-- Settles O8: the band that RFT leaves, its window slid back, and where it resumes. -/
theorem returnFromTrap : Obligations.ReturnFromTrap := by
  intro s b k f rest x24 x25 x28 x29 x30 x31 lat l r h hi hl h24 h25 h28 h29 h30 h31 hlat hm0 hf hr hm hc ht inClause t hin hout ha hb
  have := Classical.propDecidable inClause
  have hbody := rftBody_ok hi hl h24 h25 h28 h29 h30 h31 hlat hm0 hf hr hm hc ht (inClause := inClause) Iff.rfl
    (show (if inClause ∨ k = 0 then x28 else x29) = t from by
      split
      next hd => exact (hin hd).symm
      next hd => exact (hout (fun hx => hd (.inl hx)) ((bit_cases k).resolve_left fun hx => hd (.inr hx))).symm) ha hb
  rw [acting_modBand] at hbody
  obtain ⟨fs, q, hband, hlen⟩ := afterRft_eq k x24 x30 x31 lat l.lr.priv { b with latValid := false }
  have hframes : (returned k x24 x30 x31 lat { b with latValid := false }).frames = f :: rest := (returned_frames ..).trans hf
  rw [exec_rft]
  refine ⟨afterRft k x24 x30 x31 lat l.lr.priv { b with latValid := false }, fun hin => ?_, fun hout => ?_, ?_⟩
  · rw [if_pos hin] at hbody
    rw [issue_jump_within h hbody, hi]
  · rw [if_neg hout] at hbody
    rw [issue_jump h hbody, gone, hi]
  · rw [hband]
    rw [unslide_eq hframes] at hlen
    obtain ⟨hmode, hexec, hvalid, hlat'⟩ := unslide_returned_words hframes
    obtain ⟨ha, hb, ho, hfl, hfps, hsig, hsr, hw⟩ := unslide_returned_rest hframes
    refine ⟨hmode, hexec, rfl, rfl, hvalid, hlat', hlen, ?_, ?_, ?_, ?_, ?_, ?_, ha, hb, ho, hfl, hfps, hsig, hsr, ?_⟩
    · intro n hn h64
      exact (vName_unslide hframes h64).trans (if_pos hn)
    · intro n hn h64
      exact ((vName_unslide hframes h64).trans (if_neg (by omega))).trans (returned_vName ..)
    · intro n hn h32
      exact (sName_unslide hframes (by omega)).trans (by rw [if_neg (by omega), if_pos hn])
    · intro n hn h32
      exact (sName_unslide hframes (by omega)).trans (by rw [if_neg (by omega), if_neg (by omega), returned_sName]; rfl)
    · intro n hn h64
      exact (sName_unslide hframes h64).trans (by rw [if_pos hn, returned_sName]; rfl)
    · intro n hn h16
      exact unslide_returned_m hframes (by omega)
    · exact congrArg (ite _ none ·) hw

end Sys2Proof.Proofs.Windows
end

section
/-! SUPPORT. Taking a trap (R371 to R377, R386, R391, R392). -/

namespace Sys2Proof.Proofs.Traps

open Sys2Proof Sys2Proof.Machine Sys2Proof.Stated Sys2Proof.Laws Sys2Proof.Proofs.Pieces Sys2Proof.Proofs.Windows

/-! ## The handler's entry (R371, R372) -/

theorem trapWords_eq (b : Band) (t : Trap) : trapWords b t = trapState b t := by
  have : BitVec.ofNat 64 (t.code.toNat + (t.lane % 32) * 2 ^ 8 + (if b.latValid then 2 ^ 13 else 0) + (if t.atHdr then 2 ^ 14 else 0)) =
      t.code.setWidth 64 + BitVec.ofNat 64 (256 * (t.lane % 32)) + (if b.latValid then 0x2000 else 0) + (if t.atHdr then 0x4000 else 0) := by
    refine BitVec.eq_of_toNat_eq ?_
    have := t.code.isLt
    cases b.latValid <;> cases t.atHdr <;> simp <;> omega
  rw [trapWords, this, trapState]

theorem getD_setIfInBounds_other {α : Type} {n k i : Nat} (v : Vector α n) (x : α) {d : α} (h : k ≠ i) :
    (v.setIfInBounds k x).toArray.getD i d = v.toArray.getD i d := by
  simp only [Vector.toArray_setIfInBounds, Array.getD_eq_getD_getElem?, Array.getElem?_setIfInBounds_ne h]

section Names

variable (c : Band)

theorem sName_setSName_same {n : Nat} (x : SName) (h : n < 64) : (c.setSName n x).sName n = x := by
  simp [Band.sName, Band.setSName, Array.getD, h]

theorem sName_setSName_other {k n : Nat} (x : SName) (h : n ≠ k) : (c.setSName k x).sName n = c.sName n := by
  exact getD_setIfInBounds_other _ _ h.symm

theorem vName_setVName_same {n : Nat} (x : VName) (h : n < 64) : (c.setVName n x).vName n = x := by
  simp [Band.vName, Band.setVName, Array.getD, h]

theorem vName_setVName_other {k n : Nat} (x : VName) (h : n ≠ k) : (c.setVName k x).vName n = c.vName n := by
  exact getD_setIfInBounds_other _ _ h.symm

theorem vName_slide {n k : Nat} (a : W64) (h : k + n < 64) : (c.slide n a).vName k = c.vName (k + n) := by
  simp only [Band.vName, Band.slide, Vector.toArray_ofFn, Array.getD_eq_getD_getElem?, Array.getElem?_ofFn]
  rw [dif_pos (by omega), Option.getD_some, if_pos h]

theorem sName_slide {n k : Nat} (a : W64) (h : k + n / 2 < 32) : (c.slide n a).sName k = c.sName (k + n / 2) := by
  simp only [Band.sName, Band.slide, Vector.toArray_ofFn, Array.getD_eq_getD_getElem?, Array.getElem?_ofFn]
  rw [dif_pos (by omega), Option.getD_some, if_neg (by omega), if_pos h]

theorem sName_slide_high {n k : Nat} (a : W64) (h : 32 ≤ k) : (c.slide n a).sName k = c.sName k := by
  by_cases hk : k < 64
  · simp only [Band.sName, Band.slide, Vector.toArray_ofFn, Array.getD_eq_getD_getElem?, Array.getElem?_ofFn]
    rw [dif_pos hk, Option.getD_some, if_pos h]
  · simp [Band.sName, Array.getD, hk]

end Names

/-- The words of the trap state, written from s24 on. -/
@[irreducible] def withWords (ws : List W64) (n : Nat) (c : Band) : Band := (List.range n).foldl (fun c i => c.setSName (24 + i) (.ofVal (ws.getD i 0))) c

theorem withWords_succ (ws : List W64) (n : Nat) (c : Band) :
    withWords ws (n + 1) c = (withWords ws n c).setSName (24 + n) (.ofVal (ws.getD n 0)) := by
  unfold withWords
  simp only [List.range_succ, List.foldl_append, List.foldl_cons, List.foldl_nil]

/-- Writing them changes s registers alone. -/
theorem withWords_eq (ws : List W64) (n : Nat) (c : Band) : ∃ x, withWords ws n c = { c with s := x } := by
  induction n with
  | zero => exact ⟨c.s, by unfold withWords; rfl⟩
  | succ n ih =>
    obtain ⟨x, h⟩ := ih
    exact ⟨_, by rw [withWords_succ, h]; rfl⟩

theorem withWords_m (ws : List W64) (n : Nat) (c : Band) : (withWords ws n c).m = c.m := by
  obtain ⟨x, hx⟩ := withWords_eq ws n c
  rw [hx]

/-- Two bands with the same o, a, b and f registers, FPS, signature and counts. -/
def KeepsRest (c d : Band) : Prop :=
  c.o = d.o ∧ c.a = d.a ∧ c.b = d.b ∧ c.f = d.f ∧ c.fps = d.fps ∧ c.sig = d.sig ∧ c.srseq = d.srseq ∧ c.uid = d.uid

theorem KeepsRest.trans {c d e : Band} : KeepsRest c d → KeepsRest d e → KeepsRest c e
  | ⟨h1, h2, h3, h4, h5, h6, h7, h8⟩, ⟨k1, k2, k3, k4, k5, k6, k7, k8⟩ =>
    ⟨h1.trans k1, h2.trans k2, h3.trans k3, h4.trans k4, h5.trans k5, h6.trans k6, h7.trans k7, h8.trans k8⟩

theorem withWords_kept (ws : List W64) (n : Nat) (c : Band) : KeepsRest (withWords ws n c) c := by
  obtain ⟨x, hx⟩ := withWords_eq ws n c
  rw [hx]
  exact ⟨rfl, rfl, rfl, rfl, rfl, rfl, rfl, rfl⟩

theorem slide_kept (c : Band) (n : Nat) (a : W64) : KeepsRest (c.slide n a) c := by
  simp only [KeepsRest, Band.slide, and_self]

theorem withWords_vName (ws : List W64) (n : Nat) (c : Band) (k : Nat) : (withWords ws n c).vName k = c.vName k := by
  obtain ⟨x, hx⟩ := withWords_eq ws n c
  rw [hx]
  rfl

theorem withWords_sName (ws : List W64) (c : Band) (k : Nat) : ∀ n, n ≤ 8 →
    (withWords ws n c).sName k = if 24 ≤ k ∧ k < 24 + n then .ofVal (ws.getD (k - 24) 0) else c.sName k
  | 0, _ => by unfold withWords; exact (if_neg (by omega)).symm
  | n + 1, h => by
    rw [withWords_succ]
    by_cases hk : k = 24 + n
    · subst hk
      rw [sName_setSName_same _ _ (by omega), if_pos (by omega), Nat.add_sub_cancel_left]
    · rw [sName_setSName_other _ _ hk, withWords_sName ws c k n (by omega)]
      by_cases hin : 24 ≤ k ∧ k < 24 + n
      · rw [if_pos hin, if_pos (by omega)]
      · rw [if_neg hin, if_neg (by omega)]

/-- The band in the handler, from what it is with the trap state written (R371). -/
def inHandlerAt (b : Band) (h : W64) (p : Bool) (c : Band) : Band :=
  { (c.setVName 63 ⟨b.lat, .priv, none⟩).goto h with
    m := (c.setVName 63 ⟨b.lat, .priv, none⟩).m.setIfInBounds 0 (~~~ 0#32), mode := 0, latValid := false, inHandler := true, privileged := p,
    trap := none, suspended := false, wait := none, timeLeft := none, tried := none, stalled := none, held := false }

theorem enterHandler_eq (b : Band) (t : Trap) (h : W64) (p : Bool) :
    b.enterHandler t h p = inHandlerAt b h p (withWords (trapState b t) 8 (b.slide 16 t.pc)) := by
  rw [← trapWords_eq]
  unfold withWords
  dsimp only [Band.enterHandler, inHandlerAt]

theorem vName_inHandlerAt_last (b : Band) (h : W64) (p : Bool) (c : Band) : (inHandlerAt b h p c).vName 63 = ⟨b.lat, .priv, none⟩ :=
  show (c.setVName 63 ⟨b.lat, .priv, none⟩).vName 63 = _ from vName_setVName_same c _ (by decide)

theorem vName_inHandlerAt (b : Band) (h : W64) (p : Bool) (c : Band) {k : Nat} (hk : k ≠ 63) : (inHandlerAt b h p c).vName k = c.vName k :=
  show (c.setVName 63 ⟨b.lat, .priv, none⟩).vName k = _ from vName_setVName_other c _ hk

theorem inHandlerAt_kept (b : Band) (h : W64) (p : Bool) (c : Band) : KeepsRest (inHandlerAt b h p c) c :=
  ⟨rfl, rfl, rfl, rfl, rfl, rfl, rfl, rfl⟩

theorem frames_inHandlerAt (b : Band) (h : W64) (p : Bool) (c : Band) : (inHandlerAt b h p c).frames = c.frames := rfl

theorem m_inHandlerAt (b : Band) (h : W64) (p : Bool) (c : Band) : (inHandlerAt b h p c).m = c.m.setIfInBounds 0 (~~~ 0#32) := rfl

theorem takeTrap_entry {s : State} {b : Band} {t : Trap} {l : Launch} (hl : s.launch? b.launch = some l) (hk : l.kills = [])
    (hi : b.inHandler = false) (h28 : t.code ≠ 0x28) (h29 : t.code ≠ 0x29) :
    s.takeTrap b t = if s.hostAssisted t.code.toNat then
      (s.setBand { b with trap := some t, suspended := true, wait := none, tried := none, stalled := none, held := true }).post (s.suspendEvent b t)
    else s.enterTrap b t := by
  have hc : ¬ (t.code.toNat = tSignature ∨ t.code.toNat = tMaskCheck) := by
    rintro (h | h)
    · exact h28 (BitVec.eq_of_toNat_eq h)
    · exact h29 (BitVec.eq_of_toNat_eq h)
  have hbk : s.beingKilled b.launch = false := by simp [State.beingKilled, hl, hk]
  rw [State.takeTrap, hi, if_neg (by decide), if_neg hc, hbk, if_neg (by decide)]

theorem trapEntersHandler : TrapEntersHandler := by
  intro s b t h p l hu hl hk hi h28 h29 ha hh hr
  refine ⟨b.enterHandler t h (p || l.lr.priv), ?_, ?_⟩
  · have hs : s.shadowDiffers (~~~ 0#32) = false := by simp [State.shadowDiffers, hu]
    rw [takeTrap_entry hl hk hi h28 h29, ha, if_neg (by decide), State.enterTrap, hh]
    simp only [hl]
    rw [if_pos hr, hs, if_neg (by decide)]
  rw [enterHandler_eq]
  obtain ⟨x, hx⟩ := withWords_eq (trapState b t) 8 (b.slide 16 t.pc)
  have hs := fun k => withWords_sName (trapState b t) (b.slide 16 t.pc) k 8 (by omega)
  have hv := withWords_vName (trapState b t) 8 (b.slide 16 t.pc)
  have h63 := vName_inHandlerAt_last b h (p || l.lr.priv) (withWords (trapState b t) 8 (b.slide 16 t.pc))
  have hlow := fun k => vName_inHandlerAt (k := k) b h (p || l.lr.priv) (withWords (trapState b t) 8 (b.slide 16 t.pc))
  refine ⟨by rw [frames_inHandlerAt, hx]; rfl, fun k hk => ?_, h63, fun k hk => ?_, fun k hk => ?_, fun k hk => ?_, ?_⟩
  · exact (hs (24 + k)).trans (by rw [if_pos (by omega), Nat.add_sub_cancel_left])
  · rw [hlow k (Nat.ne_of_lt (by omega)), hv, vName_slide _ _ (by omega)]
  · exact (hs k).trans (by rw [if_neg (by omega), sName_slide _ _ (by omega)])
  · exact (hs k).trans (by rw [if_neg (by omega), sName_slide_high _ _ hk])
  · refine ⟨?_, fun k hk _ => ?_, rfl, rfl, rfl, rfl, rfl, rfl, rfl, ?_⟩
    · rw [Band.exec, m_inHandlerAt]
      exact Vector.getElem_setIfInBounds_self (by decide)
    · rw [m_inHandlerAt, getD_setIfInBounds_other _ _ (Nat.ne_of_lt hk), withWords_m]
      rfl
    · exact ((inHandlerAt_kept ..).trans (withWords_kept ..)).trans (slide_kept ..)

/-! ## Kills and suspensions (R373, R376, R391, R392) -/

theorem trapWithoutHandlerKills : TrapWithoutHandlerKills := by
  intro s b t l hl hk
  refine ⟨fun hi => ?_, fun hi h28 h29 ha => ⟨fun hh => ?_, fun ds hh => ?_⟩, fun hi hc => ?_⟩
  · rw [State.takeTrap, if_pos hi, State.trapKills]
  · rw [takeTrap_entry hl hk hi h28 h29, ha, if_neg (by decide), State.enterTrap, hh]
    rfl
  · rw [takeTrap_entry hl hk hi h28 h29, ha, if_neg (by decide), State.enterTrap, hh]
    rfl
  · have : t.code.toNat = tSignature ∨ t.code.toNat = tMaskCheck := hc.imp (by rintro h; rw [h]; rfl) (by rintro h; rw [h]; rfl)
    rw [State.takeTrap, hi, if_neg (by decide), if_pos this, State.trapKills]

theorem hostAssistedTrapSuspends : HostAssistedTrapSuspends := by
  intro s b t l hl hk hi hc
  have hcode : t.code ≠ 0x28 ∧ t.code ≠ 0x29 := by
    rcases hc with ⟨_, h | h | h | h | h⟩ | ⟨_, h⟩ <;> rw [h] <;> decide
  have ha : s.hostAssisted t.code.toNat = true := by
    rcases hc with ⟨hb, h | h | h | h | h⟩ | ⟨hb, h⟩ <;> simp [State.hostAssisted, hb, h, tWinFault]
  rw [takeTrap_entry hl hk hi hcode.1 hcode.2, ha, if_pos rfl]

theorem delayedTrapEntry : DelayedTrapEntry := by
  intro s b t q l hb hw ht hp hs hl hk
  have hbk : s.beingKilled b.launch = false := by simp [State.beingKilled, hl, hk]
  have hexec : exec (.trapEntry q) s = .next (trapEntry q s) := rfl
  have hrun : trapEntry q s = if b.inHandler then s.trapKills b t.code false else s.enterTrap b t := by
    simp only [trapEntry, hb, hw, ht, hp, hs, hbk, Bool.or_self, Bool.false_eq_true, if_false]
  rw [hexec, hrun]
  refine ⟨fun hi => by rw [hi]; rfl, fun hi => by rw [hi]; rfl⟩

/-! ## The mask unit's check (R386) -/

/-- The band at a place, after a change of its own. -/
theorem bandAt_modBand {s : State} {p : Place} {b : Band} {f : Band → Band} (h : s.bandAt p = some b) (hf : ∀ c, (f c).place = c.place) :
    (s.modBand b.uid f).bandAt p = some (f b) := by
  unfold State.bandAt State.modBand at *
  dsimp only
  rw [List.find?_map]
  have : (fun x : Band => x.place == p) ∘ (fun x => if x.uid == b.uid then f x else x) = fun x => x.place == p := by
    funext x
    simp only [Function.comp]
    split
    · rw [hf]
    · rfl
  rw [this, h, Option.map_some, if_pos (beq_self_eq_true _)]

/-- A band that is put in place of itself stands where it stood. -/
theorem bandAt_setBand {s : State} {p : Place} {b c : Band} (h : s.bandAt p = some b) (hu : c.uid = b.uid) (hp : c.place = b.place) :
    (s.setBand c).bandAt p = some c := by
  unfold State.bandAt State.setBand at *
  have hb : (c.place == p) = true := by rw [hp]; exact List.find?_some (p := fun x : Band => x.place == p) h
  generalize s.bands = l at *
  induction l with
  | nil => cases h
  | cons x l ih =>
    rw [List.find?_cons] at h
    dsimp only at ih ⊢
    rw [List.map_cons, List.find?_cons]
    by_cases hx : x.uid = c.uid
    · rw [if_pos (by rw [hx]; exact beq_self_eq_true _), hb]
    · rw [if_neg (by simpa using hx)]
      split at h
      · cases h
        exact absurd hu.symm hx
      next hne => simpa only [hne] using ih h

theorem advance_issued_kept (c : Band) (n : Nat) (h : Bool) (i : Instr) (k : Nat) :
    let d := (c.advance n).issued h i k
    d.place = c.place ∧ d.uid = c.uid ∧ d.launch = c.launch ∧ d.inHandler = c.inHandler ∧ d.m = c.m := by
  dsimp only
  unfold Band.advance
  split <;> exact ⟨rfl, rfl, rfl, rfl, rfl⟩

theorem exec_mseti (d : Opnd) (imm : W32) (s : State) :
    exec (.mseti d imm) s = .next (issue (.mseti d imm) (fun b s => do return .next (← s.maskDst b d imm)) s) := rfl

/-- A legal word that goes on is followed by the shadow unit's check (R386). -/
theorem issue_shadowed {i : Instr} {b : Band} {s t : State} {body : Band → State → Try Fin'} (h : Legal i b) (hh : s.bandAt s.cur = some b)
    (hm : b.canIssue = true) (hb : body b (acting b s) = .ok (.next t)) :
    issue i body s = s.shadowed i (b.trapAt (Instr.isControl i) (len i) tMaskCheck 0 ((encodeWord i).setWidth 64) 0) (past i b s t) := by
  have hl : (Instr.isControl i && !b.lastWord (1 + (litWords i.opnds).length)) = false := by
    cases hc : Instr.isControl i
    · rfl
    · rw [show b.lastWord (1 + (litWords i.opnds).length) = true from h.last hc]
      rfl
  have hp : (Instr.isPrivileged i && !b.privileged) = false := by
    cases hc : Instr.isPrivileged i
    · rfl
    · rw [h.priv hc]
      rfl
  unfold issue
  simp only [hh, hm, h.form, hl, hp, Bool.not_true, Bool.false_eq_true, if_false]
  have hb' : body b (s.setBand { b with latValid := false }) = .ok (.next t) := hb
  rw [hb']
  rfl

theorem maskCheckKills : MaskCheckKills := by
  intro s b imm l hlegal hh hm hl hk hi hr hx
  have hu : s.upset ≠ 0 := fun h0 => hx (by rw [h0]; exact congrArg (BitVec.toNat · % 255) BitVec.xor_zero.symm)
  have hbody : (acting b s).maskDst b (.m 0) imm = .ok ((acting b s).putM b 0 imm) := maskDst_putM imm hr
  obtain ⟨hplace, huid, hlaunch, hhandler, hmask⟩ := advance_issued_kept
    { b with latValid := false, m := b.m.setIfInBounds 0 imm } (len (.mseti (.m 0) imm)) b.inHandler (.mseti (.m 0) imm) s.cycle
  have hc := bandAt_modBand (f := fun c => (c.advance (len (.mseti (.m 0) imm))).issued b.inHandler (.mseti (.m 0) imm) s.cycle)
    (bandAt_modBand (f := fun c => { c with m := c.m.setIfInBounds 0 imm })
      (bandAt_setBand (c := { b with latValid := false }) hh rfl rfl) fun _ => rfl) fun c => (advance_issued_kept c ..).1
  rw [exec_mseti, issue_shadowed hlegal hh hm (t := (acting b s).putM b 0 imm) (by rw [hbody]; rfl), State.shadowed, if_neg hu]
  have hcur : (past (.mseti (.m 0) imm) b s ((acting b s).putM b 0 imm)).bandAt s.cur = _ := hc
  rw [hcur]
  have hexec : ∀ c : Band, c.m = b.m.setIfInBounds 0 imm → c.exec = imm := fun c h => by
    rw [Band.exec, h]
    exact Vector.getElem_setIfInBounds_self (by decide)
  have hforms : (Instr.formsExec (.mseti (.m 0) imm) && s.shadowDiffers imm) = true := by
    rw [State.shadowDiffers, bne_iff_ne.2 hu, bne_iff_ne.2 hx]
    rfl
  dsimp only
  rw [hexec _ hmask, if_pos hforms]
  have hkill : ∀ (r : State) (c : Band) (t : Trap), c.inHandler = false → t.code = 0x29 → r.takeTrap c t = r.trapKills c 0x29 true :=
    fun r c t hc ht => by rw [State.takeTrap, hc, if_neg (by decide), if_pos (.inr (by rw [ht]; rfl)), ht]
  rw [hkill _ _ _ (hhandler.trans hi) rfl, State.trapKills, hlaunch, huid]

/-- Settles O5: the five ways a trap goes. -/
theorem trapEntry : Obligations.TrapEntry :=
  ⟨trapEntersHandler, trapWithoutHandlerKills, hostAssistedTrapSuspends, delayedTrapEntry, maskCheckKills⟩

end Sys2Proof.Proofs.Traps
end

section
/-! SUPPORT. What a result leaves as it is: the frames of scalar, vector and landing results. -/

namespace Sys2Proof.Proofs.Frames

open Sys2Proof Sys2Proof.Machine Sys2Proof.Stated Sys2Proof.Laws Sys2Proof.Proofs.Pieces Sys2Proof.Proofs.Windows Sys2Proof.Proofs.Traps

/-! ## One band changed -/

theorem modBand_setBand {s : State} {b : Band} {f : Band → Band} {u : Nat} (hu : b.uid = u) (hf : (f b).uid = u) :
    (s.setBand b).modBand u f = s.setBand (f b) := by
  subst hu
  simp only [State.setBand, State.modBand, List.map_map]
  congr 1
  refine List.map_congr_left fun x _ => ?_
  simp only [Function.comp, hf]
  split
  · exact if_pos (beq_self_eq_true _)
  · rfl

theorem onlyBand_setBand {s : State} {b c : Band} (hu : c.uid = b.uid) : onlyBand b s (s.setBand c) := by
  refine ⟨rfl, fun d hd hne => ?_⟩
  obtain ⟨x, hx, rfl⟩ := List.mem_map.1 hd
  split at hne
  · exact absurd hu hne
  next h => rwa [if_neg h]

theorem eq_of_mem_setBand {s : State} {c d : Band} (hd : d ∈ (s.setBand c).bands) (hu : d.uid = c.uid) : d = c := by
  obtain ⟨x, -, rfl⟩ := List.mem_map.1 hd
  split at hu
  · rw [if_pos ‹_›]
  next h => exact absurd (beq_iff_eq.2 hu) h

/-- Past a word that puts a band in place of its own, nothing but that band has changed. -/
theorem frame_of_setBand {i : Instr} {b c : Band} {s t : State} {P : Band → Prop} (ht : t = s.setBand c) (hu : c.uid = b.uid)
    (hp : P ((c.advance (len i)).issued b.inHandler i s.cycle)) :
    onlyBand b s (past i b s t) ∧ ∀ d ∈ (past i b s t).bands, d.uid = b.uid → P d := by
  have hk := (advance_issued_kept c (len i) b.inHandler i s.cycle).2.1
  have : past i b s t = s.setBand ((c.advance (len i)).issued b.inHandler i s.cycle) := by
    rw [past, ht, modBand_setBand hu (hk.trans hu)]
  rw [this]
  exact ⟨onlyBand_setBand (hk.trans hu), fun d hd he => by rwa [eq_of_mem_setBand hd (he.trans (hk.trans hu).symm)]⟩

/-- What the end of a word leaves of its band. -/
theorem advance_issued_data (c : Band) (n : Nat) (h : Bool) (i : Instr) (k : Nat) :
    let d := (c.advance n).issued h i k
    d.v = c.v ∧ d.s = c.s ∧ d.o = c.o ∧ d.a = c.a ∧ d.m = c.m ∧ d.b = c.b ∧ d.f = c.f ∧ d.mode = c.mode ∧ d.fps = c.fps ∧
      d.frames = c.frames ∧ d.srseq = c.srseq ∧ d.lat = c.lat ∧ d.inHandler = c.inHandler ∧ d.privileged = c.privileged := by
  dsimp only
  unfold Band.advance
  split <;> exact ⟨rfl, rfl, rfl, rfl, rfl, rfl, rfl, rfl, rfl, rfl, rfl, rfl, rfl, rfl⟩

/-! ## Scalar results -/

/-- A band with a scalar or address register written. -/
def bandPut (d : Opnd) (x : W64) (c : Band) : Band :=
  match d with
  | .s n => c.setSName n.val (.ofVal x)
  | .a n => { c with a := c.a.setIfInBounds n.val x }
  | _ => c

theorem bandPut_uid (d : Opnd) (x : W64) (c : Band) : (bandPut d x c).uid = c.uid := by
  cases d <;> rfl

theorem put_acting (b : Band) (d : Opnd) (x : W64) (s : State) :
    put b d x (acting b s) = s.setBand (bandPut d x { b with latValid := false }) := by
  cases d with
  | s n => exact modBand_setBand rfl rfl
  | a n => exact modBand_setBand rfl rfl
  | _ => rfl

theorem bandPut_data (d : Opnd) (x : W64) (c : Band) :
    let e := bandPut d x c
    e.v = c.v ∧ e.o = c.o ∧ e.m = c.m ∧ e.b = c.b ∧ e.f = c.f ∧ e.mode = c.mode ∧ e.fps = c.fps ∧ e.frames = c.frames ∧ e.srseq = c.srseq ∧
      e.lat = c.lat ∧ e.inHandler = c.inHandler ∧ e.privileged = c.privileged := by
  cases d <;> exact ⟨rfl, rfl, rfl, rfl, rfl, rfl, rfl, rfl, rfl, rfl, rfl, rfl⟩

theorem bandPut_sName (d : Opnd) (x : W64) (c : Band) (k : Fin 64) :
    (bandPut d x c).sName k.val = if d = .s k then .ofVal x else c.sName k.val := by
  by_cases h : d = .s k
  · rw [if_pos h, h]
    exact sName_setSName_same c _ k.isLt
  · rw [if_neg h]
    cases d with
    | s n => exact sName_setSName_other c _ fun he => h (by rw [Fin.ext he])
    | _ => rfl

theorem bandPut_a (d : Opnd) (x : W64) (c : Band) (k : Fin 16) : (bandPut d x c).a[k] = if d = .a k then x else c.a[k] := by
  by_cases h : d = .a k
  · rw [if_pos h, h]
    exact Vector.getElem_setIfInBounds_self k.isLt
  · rw [if_neg h]
    cases d with
    | a n => exact Vector.getElem_setIfInBounds_ne k.isLt fun he => h (by rw [Fin.ext he])
    | _ => rfl

/-- Settles O52: the one band that a scalar result changes, and its one register. -/
theorem scalarResultFrame : Obligations.ScalarResultFrame := by
  intro i b d x s
  refine frame_of_setBand (put_acting b d x s) (bandPut_uid ..) ?_
  obtain ⟨hv, hs, ho, ha, hm, hb, hf, hmode, hfps, hfr, hsr, hlat, hi, hp⟩ :=
    advance_issued_data (bandPut d x { b with latValid := false }) (len i) b.inHandler i s.cycle
  obtain ⟨kv, ko, km, kb, kf, kmode, kfps, kfr, ksr, klat, ki, kp⟩ := bandPut_data d x { b with latValid := false }
  refine ⟨hv.trans kv, ho.trans ko, hm.trans km, hb.trans kb, hf.trans kf, hmode.trans kmode, hfps.trans kfps, hfr.trans kfr, hsr.trans ksr,
    hlat.trans klat, hi.trans ki, hp.trans kp, fun k => ?_, fun k => ?_⟩
  · rw [Band.sName, hs]
    exact bandPut_sName ..
  · rw [ha]
    exact bandPut_a ..

/-! ## Vector results -/

theorem mergeLanes_lane (old new : VReg) {lanes : W32} {l : Nat} (hl : l < 32) (h : lanes.getLsbD l = false) :
    (mergeLanes old new lanes).lane l = old.lane l := by
  rw [BitVec.getLsbD_eq_getElem hl] at h
  simp [mergeLanes, VReg.lane, VReg.ofFn, hl, h]

/-- A band with one register of a vector destination written in some lanes. -/
def bandPut1 (b : Band) (d : Opnd) (k : Nat) (x : VReg) (lanes : W32) (c : Band) : Band :=
  match d with
  | .v n => c.setVName (n.val + k) ⟨mergeLanes (b.vName (n.val + k)).val x lanes, .priv, none⟩
  | .o n => { c with o := c.o.setIfInBounds (n.val + k) (mergeLanes (b.o.toArray.getD (n.val + k) VReg.zero) x lanes) }
  | _ => c

/-- A band with lat from a vector destination (R148). -/
def bandLat (d : Opnd) (c : Band) : Band :=
  match d with
  | .v n => { c with lat := (c.vName n.val).val, latValid := true }
  | .o n => { c with lat := c.o.toArray.getD n.val VReg.zero, latValid := true }
  | _ => c

theorem put1_setBand {b c : Band} {s : State} (d : Opnd) (k : Nat) (x : VReg) (lanes : W32) (hu : c.uid = b.uid) :
    put1 b d k x lanes (s.setBand c) = s.setBand (bandPut1 b d k x lanes c) := by
  cases d with
  | v n => exact modBand_setBand hu hu
  | o n => exact modBand_setBand hu hu
  | _ => rfl

theorem latFrom_setBand {b c : Band} {s : State} (d : Opnd) (hu : c.uid = b.uid) :
    (s.setBand c).latFrom b d = s.setBand (bandLat d c) := by
  cases d <;> exact modBand_setBand hu hu

/-- What a vector result keeps of its band but lat: all but the registers `ks` of its destination, and their other lanes. -/
structure VectorKept (b : Band) (d : Opnd) (lanes : W32) (ks : Nat → Prop) (c : Band) : Prop where
  uid : c.uid = b.uid
  rest : c.s = b.s ∧ c.a = b.a ∧ c.m = b.m ∧ c.b = b.b ∧ c.f = b.f ∧ c.mode = b.mode ∧ c.fps = b.fps ∧ c.frames = b.frames ∧
    c.srseq = b.srseq ∧ c.inHandler = b.inHandler ∧ c.privileged = b.privileged
  v : ∀ k : Fin 64, (∀ n : Fin 64, d = .v n → ∀ j, ks j → k.val ≠ n.val + j) → c.vName k.val = b.vName k.val
  o : ∀ k : Fin 8, (∀ n : Fin 8, d = .o n → ∀ j, ks j → k.val ≠ n.val + j) → c.o[k] = b.o[k]
  lanes : ∀ l, l < 32 → lanes.getLsbD l = false →
    (∀ k : Fin 64, (c.vName k.val).val.lane l = (b.vName k.val).val.lane l) ∧ ∀ k : Fin 8, c.o[k].lane l = b.o[k].lane l
  onlyV : ∀ n : Fin 64, d = .v n → c.o = b.o
  onlyO : ∀ n : Fin 8, d = .o n → c.v = b.v

section VectorKept

variable {b c e : Band} {d : Opnd} {lanes : W32} {ks : Nat → Prop}

theorem vectorKept_self (b : Band) (d : Opnd) (lanes : W32) (ks : Nat → Prop) : VectorKept b d lanes ks b :=
  ⟨rfl, ⟨rfl, rfl, rfl, rfl, rfl, rfl, rfl, rfl, rfl, rfl, rfl⟩, fun _ _ => rfl, fun _ _ => rfl, fun _ _ _ => ⟨fun _ => rfl, fun _ => rfl⟩,
    fun _ _ => rfl, fun _ _ => rfl⟩

/-- A band with the same registers and status keeps the same. -/
theorem VectorKept.of_data (h : VectorKept b d lanes ks c) (hu : e.uid = c.uid) (hv : e.v = c.v) (ho : e.o = c.o)
    (hr : e.s = c.s ∧ e.a = c.a ∧ e.m = c.m ∧ e.b = c.b ∧ e.f = c.f ∧ e.mode = c.mode ∧ e.fps = c.fps ∧ e.frames = c.frames ∧
      e.srseq = c.srseq ∧ e.inHandler = c.inHandler ∧ e.privileged = c.privileged) : VectorKept b d lanes ks e := by
  obtain ⟨h1, h2, h3, h4, h5, h6, h7, h8, h9, h10, h11⟩ := h.rest
  obtain ⟨k1, k2, k3, k4, k5, k6, k7, k8, k9, k10, k11⟩ := hr
  have hn : ∀ k, e.vName k = c.vName k := fun k => by rw [Band.vName, hv, ← Band.vName]
  refine ⟨hu.trans h.uid, ⟨k1.trans h1, k2.trans h2, k3.trans h3, k4.trans h4, k5.trans h5, k6.trans h6, k7.trans h7, k8.trans h8,
    k9.trans h9, k10.trans h10, k11.trans h11⟩, fun k hk => (hn _).trans (h.v k hk), fun k hk => ?_, fun l hl hb => ?_,
    fun n hd => ho.trans (h.onlyV n hd), fun n hd => hv.trans (h.onlyO n hd)⟩
  · rw [ho, h.o k hk]
  · simp only [hn, ho]
    exact h.lanes l hl hb

theorem VectorKept.bandLat (h : VectorKept b d lanes ks c) : VectorKept b d lanes ks (bandLat d c) := by
  cases d with
  | v n => exact h.of_data rfl rfl rfl ⟨rfl, rfl, rfl, rfl, rfl, rfl, rfl, rfl, rfl, rfl, rfl⟩
  | o n => exact h.of_data rfl rfl rfl ⟨rfl, rfl, rfl, rfl, rfl, rfl, rfl, rfl, rfl, rfl, rfl⟩
  | _ => exact h

theorem getElem_setIfInBounds_other {α : Type} {n k i : Nat} (v : Vector α n) (x : α) (hi : i < n) (h : i ≠ k) :
    (v.setIfInBounds k x)[i] = v[i] := Vector.getElem_setIfInBounds_ne hi h.symm

theorem VectorKept.bandPut1 (h : VectorKept b d lanes ks c) {k : Nat} (hk : ks k) (x : VReg) :
    VectorKept b d lanes ks (bandPut1 b d k x lanes c) := by
  cases d with
  | v n =>
    have hother : ∀ j, j ≠ n.val + k → (bandPut1 b (.v n) k x lanes c).vName j = c.vName j := fun j hj => vName_setVName_other c _ hj
    refine ⟨h.uid, h.rest, fun j hj => (hother _ (hj n rfl k hk)).trans (h.v j hj), h.o, fun l hl hb => ⟨fun j => ?_, (h.lanes l hl hb).2⟩,
      h.onlyV, fun _ hd => nomatch hd⟩
    by_cases hj : j.val = n.val + k
    · have : (bandPut1 b (.v n) k x lanes c).vName j.val = ⟨mergeLanes (b.vName j.val).val x lanes, .priv, none⟩ := by
        rw [hj]
        exact vName_setVName_same c _ (hj ▸ j.isLt)
      rw [this]
      exact mergeLanes_lane _ _ hl hb
    · rw [hother _ hj]
      exact (h.lanes l hl hb).1 j
  | o n =>
    have hother : ∀ j : Fin 8, j.val ≠ n.val + k → (bandPut1 b (.o n) k x lanes c).o[j] = c.o[j] := fun j hj =>
      getElem_setIfInBounds_other c.o _ j.isLt hj
    refine ⟨h.uid, h.rest, h.v, fun j hj => (hother _ (hj n rfl k hk)).trans (h.o j hj), fun l hl hb => ⟨(h.lanes l hl hb).1, fun j => ?_⟩,
      (fun _ hd => nomatch hd), h.onlyO⟩
    by_cases hj : j.val = n.val + k
    · have : (bandPut1 b (.o n) k x lanes c).o[j] = mergeLanes b.o[j] x lanes := by
        have he : (c.o.setIfInBounds (n.val + k) (mergeLanes (b.o.toArray.getD (n.val + k) VReg.zero) x lanes))[j.val] =
            mergeLanes (b.o.toArray.getD (n.val + k) VReg.zero) x lanes := by
          simp only [← hj]
          exact Vector.getElem_setIfInBounds_self j.isLt
        refine he.trans ?_
        rw [← hj]
        simp [Array.getD, j.isLt]
      rw [this]
      exact mergeLanes_lane _ _ hl hb
    · rw [hother _ hj]
      exact (h.lanes l hl hb).2 j
  | _ => exact h

end VectorKept

theorem bandPut1_lat (b : Band) (d : Opnd) (k : Nat) (x : VReg) (lanes : W32) (c : Band) : (bandPut1 b d k x lanes c).lat = c.lat := by
  cases d <;> rfl

/-- The registers of a destination that a type takes: one, or a pair. -/
def takes (typ : Nat) (j : Nat) : Prop := j = 0 ∨ typeBits typ = 64 ∧ j = 1

/-- A vector result puts one band in place of its own, which keeps what the result does not name. -/
theorem vput_setBand (b : Band) (typ : Nat) (d : Opnd) (g : Nat → Nat) (lanes : W32) (alu : Bool) (s : State) :
    ∃ c, vput b typ d g lanes alu (acting b s) = s.setBand c ∧ VectorKept b d lanes (takes typ) c ∧
      (alu = false ∨ typeBits typ = 64 → c.lat = b.lat) ∧
      ((∀ n : Fin 64, d ≠ .v n) → (∀ n : Fin 8, d ≠ .o n) → c.lat = b.lat) := by
  have h0 : VectorKept b d lanes (takes typ) { b with latValid := false } :=
    (vectorKept_self b d lanes _).of_data rfl rfl rfl ⟨rfl, rfl, rfl, rfl, rfl, rfl, rfl, rfl, rfl, rfl, rfl⟩
  unfold vput
  by_cases h64 : typeBits typ = 64
  · rw [if_pos h64]
    by_cases hl : lanes = 0
    · rw [if_pos hl]
      exact ⟨_, rfl, h0, fun _ => rfl, fun _ _ => rfl⟩
    · rw [if_neg hl, acting, put1_setBand _ _ _ _ h0.uid,
        put1_setBand _ _ _ _ (h0.bandPut1 (.inl rfl) _).uid]
      have hlat : ∀ x y, (bandPut1 b d 1 y lanes (bandPut1 b d 0 x lanes { b with latValid := false })).lat = b.lat := fun x y => by
        rw [bandPut1_lat, bandPut1_lat]
      exact ⟨_, rfl, (h0.bandPut1 (.inl rfl) _).bandPut1 (.inr ⟨h64, rfl⟩) _, fun _ => hlat _ _, fun _ _ => hlat _ _⟩
  · rw [if_neg h64]
    obtain ⟨c, hc, hk, hlat⟩ : ∃ c, (if lanes = 0 then acting b s else put1 b d 0 (VReg.ofFn fun k => laneImage typ (g k)) lanes (acting b s)) =
        s.setBand c ∧ VectorKept b d lanes (takes typ) c ∧ c.lat = b.lat := by
      by_cases hl : lanes = 0
      · exact ⟨_, if_pos hl, h0, rfl⟩
      · exact ⟨_, (if_neg hl).trans (put1_setBand _ _ _ _ rfl), h0.bandPut1 (.inl rfl) _, bandPut1_lat ..⟩
    dsimp only
    rw [hc]
    cases alu with
    | false => exact ⟨c, rfl, hk, fun _ => hlat, fun _ _ => hlat⟩
    | true =>
      refine ⟨bandLat d c, latFrom_setBand d hk.uid, hk.bandLat, fun h => absurd h (by simp [h64]), fun hv ho => ?_⟩
      cases d with
      | v n => exact absurd rfl (hv n)
      | o n => exact absurd rfl (ho n)
      | _ => exact hlat

/-- Settles O53: the one band that a vector result changes, its destination in the enabled lanes, and lat. -/
theorem vectorResultFrame : Obligations.VectorResultFrame := by
  intro i b typ d g lanes alu s
  obtain ⟨c, hc, hk, hlat, hlat'⟩ := vput_setBand b typ d g lanes alu s
  refine frame_of_setBand hc hk.uid ?_
  obtain ⟨ev, es, eo, ea, em, eb, ef, emode, efps, efr, esr, elat, ei, ep⟩ := advance_issued_data c (len i) b.inHandler i s.cycle
  obtain ⟨-, ⟨ks, ka, km, kb, kf, kmode, kfps, kfr, ksr, ki, kp⟩, kv, ko, kl, konlyV, konlyO⟩ :=
    hk.of_data (advance_issued_kept c (len i) b.inHandler i s.cycle).2.1 ev eo ⟨es, ea, em, eb, ef, emode, efps, efr, esr, ei, ep⟩
  have htakes : ∀ {m n : Nat}, m ≠ n ∧ (typeBits typ = 64 → m ≠ n + 1) → ∀ j, takes typ j → m ≠ n + j := by
    rintro m n ⟨h0, h1⟩ j (rfl | ⟨h64, rfl⟩)
    · exact h0
    · exact h1 h64
  refine ⟨ks, ka, km, kb, kf, kmode, kfps, kfr, ksr, ki, kp, fun h => elat.trans (hlat h), fun k hk => kv k fun n hd => ?_,
    fun k hk => ko k fun n hd => ?_, kl, konlyV, konlyO, fun hv ho => elat.trans (hlat' hv ho)⟩
  · exact htakes ⟨fun h => (hk n hd).1 (Fin.ext h), (hk n hd).2⟩
  · exact htakes ⟨fun h => (hk n hd).1 (Fin.ext h), (hk n hd).2⟩

/-! ## Results that land -/

theorem land_of_not_tagged {t : Tag} {lanes : W32} {x : VReg} {n : VName} (h : n.pend ≠ some t) : VName.land t lanes x n = n :=
  if_neg fun he => h (eq_of_beq he)

theorem sLand_of_not_tagged {t : Tag} {x : W64} {n : SName} (h : n.pend ≠ some t) : SName.land t x n = n :=
  if_neg fun he => h (eq_of_beq he)

theorem land_lane {t : Tag} {lanes : W32} (x : VReg) (n : VName) {l : Nat} (hl : l < 32) (h : lanes.getLsbD l = false) :
    (VName.land t lanes x n).val.lane l = n.val.lane l := by
  unfold VName.land
  split
  · exact mergeLanes_lane _ _ hl h
  · rfl

theorem getD_map {α : Type} {n : Nat} (v : Vector α n) (f : α → α) {z : α} (hz : f z = z) (i : Nat) :
    (v.map f).toArray.getD i z = f (v.toArray.getD i z) := by
  by_cases h : i < n <;> simp [Array.getD, h, hz]

theorem vName_landV (c : Band) (t : Tag) (lanes : W32) (x : VReg) (n : Nat) : (c.landV t lanes x).vName n = VName.land t lanes x (c.vName n) :=
  getD_map c.v _ (land_of_not_tagged (t := t) (n := VName.zero) nofun) n

theorem sName_landS (c : Band) (t : Tag) (x : W64) (n : Nat) : (c.landS t x).sName n = SName.land t x (c.sName n) :=
  getD_map c.s _ (sLand_of_not_tagged (t := t) (n := SName.zero) nofun) n

/-- What a landing result keeps of a frame: all but the hidden names that await operation `u`. -/
def FrameKept (u : Nat) (f h : Frame) : Prop :=
  h.retpc = f.retpc ∧ h.slide = f.slide ∧ h.loc = f.loc ∧ h.hv.length = f.hv.length ∧ h.hs.length = f.hs.length ∧
    (∀ (n : Nat) (x : VName), f.hv[n]? = some x → (∀ k, x.pend ≠ some ⟨u, k⟩) → h.hv[n]? = some x) ∧
    (∀ (n : Nat) (x : SName), f.hs[n]? = some x → (∀ k, x.pend ≠ some ⟨u, k⟩) → h.hs[n]? = some x)

theorem FrameKept.trans {u : Nat} {f g h : Frame} : FrameKept u f g → FrameKept u g h → FrameKept u f h
  | ⟨a1, a2, a3, a4, a5, a6, a7⟩, ⟨b1, b2, b3, b4, b5, b6, b7⟩ =>
    ⟨b1.trans a1, b2.trans a2, b3.trans a3, b4.trans a4, b5.trans a5, fun n x hx hp => b6 n x (a6 n x hx hp) hp,
      fun n x hx hp => b7 n x (a7 n x hx hp) hp⟩

theorem getElem?_map_fixed {α : Type} {xs : List α} {f : α → α} {n : Nat} {x : α} (h : xs[n]? = some x) (hf : f x = x) :
    (xs.map f)[n]? = some x := by
  rw [List.getElem?_map, h, Option.map_some, hf]

theorem frameKept_land (u : Nat) (f : Frame) {fv : VName → VName} {fs : SName → SName}
    (hv : ∀ x : VName, (∀ k, x.pend ≠ some ⟨u, k⟩) → fv x = x) (hs : ∀ x : SName, (∀ k, x.pend ≠ some ⟨u, k⟩) → fs x = x) :
    FrameKept u f (f.land fv fs) :=
  ⟨rfl, rfl, rfl, List.length_map .., List.length_map .., fun _ x hx hp => getElem?_map_fixed hx (hv x hp),
    fun _ x hx hp => getElem?_map_fixed hx (hs x hp)⟩

/-- What a result that lands in v or s names keeps of its band: all but the names that await operation `u`, and of those the lanes that the
result does not have. -/
structure NamesKept (u : Nat) (lanes : W32) (b c : Band) : Prop where
  rest : c.b = b.b ∧ c.f = b.f ∧ c.mode = b.mode ∧ c.fps = b.fps ∧ c.pc = b.pc ∧ c.hdr = b.hdr ∧ c.lat = b.lat ∧ c.srseq = b.srseq ∧
    c.sig = b.sig ∧ c.inHandler = b.inHandler ∧ c.privileged = b.privileged ∧ c.winFault = b.winFault
  a : c.a = b.a
  m : c.m = b.m
  o : c.o = b.o
  uid : c.uid = b.uid
  vLanes : ∀ l, l < 32 → lanes.getLsbD l = false → ∀ n, (c.vName n).val.lane l = (b.vName n).val.lane l
  v : ∀ n, (∀ k, (b.vName n).pend ≠ some ⟨u, k⟩) → c.vName n = b.vName n
  s : ∀ n, (∀ k, (b.sName n).pend ≠ some ⟨u, k⟩) → c.sName n = b.sName n
  count : c.frames.length = b.frames.length
  frames : ∀ (i : Nat) (f : Frame), b.frames[i]? = some f → ∃ h, c.frames[i]? = some h ∧ FrameKept u f h

theorem namesKept_self (u : Nat) (lanes : W32) (b : Band) : NamesKept u lanes b b :=
  ⟨⟨rfl, rfl, rfl, rfl, rfl, rfl, rfl, rfl, rfl, rfl, rfl, rfl⟩, rfl, rfl, rfl, rfl, fun _ _ _ _ => rfl, fun _ _ => rfl, fun _ _ => rfl, rfl,
    fun _ f hf => ⟨f, hf, rfl, rfl, rfl, rfl, rfl, fun _ _ hx _ => hx, fun _ _ hx _ => hx⟩⟩

theorem NamesKept.trans {u : Nat} {lanes : W32} {b c d : Band} (h : NamesKept u lanes b c) (k : NamesKept u lanes c d) :
    NamesKept u lanes b d := by
  obtain ⟨a1, a2, a3, a4, a5, a6, a7, a8, a9, a10, a11, a12⟩ := h.rest
  obtain ⟨b1, b2, b3, b4, b5, b6, b7, b8, b9, b10, b11, b12⟩ := k.rest
  refine ⟨⟨b1.trans a1, b2.trans a2, b3.trans a3, b4.trans a4, b5.trans a5, b6.trans a6, b7.trans a7, b8.trans a8, b9.trans a9, b10.trans a10,
    b11.trans a11, b12.trans a12⟩, k.a.trans h.a, k.m.trans h.m, k.o.trans h.o, k.uid.trans h.uid,
    fun l hl hb n => (k.vLanes l hl hb n).trans (h.vLanes l hl hb n), fun n hn => ?_, fun n hn => ?_, k.count.trans h.count, fun i f hf => ?_⟩
  · exact (k.v n (by rwa [h.v n hn])).trans (h.v n hn)
  · exact (k.s n (by rwa [h.s n hn])).trans (h.s n hn)
  · obtain ⟨g, hg, hfg⟩ := h.frames i f hf
    obtain ⟨e, he, hge⟩ := k.frames i g hg
    exact ⟨e, he, hfg.trans hge⟩

theorem namesKept_landV (u k : Nat) (lanes : W32) (x : VReg) (c : Band) : NamesKept u lanes c (c.landV ⟨u, k⟩ lanes x) := by
  refine ⟨⟨rfl, rfl, rfl, rfl, rfl, rfl, rfl, rfl, rfl, rfl, rfl, rfl⟩, rfl, rfl, rfl, rfl, fun l hl hb n => ?_, fun n hn => ?_, fun _ _ => rfl,
    List.length_map .., fun i f hf => ⟨_, by rw [Band.landV, List.getElem?_map, hf]; rfl, frameKept_land u f (fun y hy => ?_) fun _ _ => rfl⟩⟩
  · rw [vName_landV]
    exact land_lane x _ hl hb
  · rw [vName_landV]
    exact land_of_not_tagged (hn k)
  · exact land_of_not_tagged (hy k)

theorem namesKept_landS (u k : Nat) (lanes : W32) (x : W64) (c : Band) : NamesKept u lanes c (c.landS ⟨u, k⟩ x) := by
  refine ⟨⟨rfl, rfl, rfl, rfl, rfl, rfl, rfl, rfl, rfl, rfl, rfl, rfl⟩, rfl, rfl, rfl, rfl, fun l hl hb n => rfl, fun _ _ => rfl, fun n hn => ?_,
    List.length_map .., fun i f hf => ⟨_, by rw [Band.landS, List.getElem?_map, hf]; rfl, frameKept_land u f (fun _ _ => rfl) fun y hy => ?_⟩⟩
  · rw [sName_landS]
    exact sLand_of_not_tagged (hn k)
  · exact sLand_of_not_tagged (hy k)

/-- A band that a whole block of results has landed in. -/
def landBlock (u : Nat) (lanes : W32) (rs : List (VReg × Nat)) (c : Band) : Band :=
  rs.foldl (fun (b : Band) (x : VReg × Nat) => b.landV ⟨u, x.2⟩ lanes x.1) c

theorem namesKept_landBlock (u : Nat) (lanes : W32) : ∀ (rs : List (VReg × Nat)) (c : Band),
    NamesKept u lanes c (landBlock u lanes rs c) ∧ (landBlock u lanes rs c).s = c.s
  | [], c => ⟨namesKept_self u lanes c, rfl⟩
  | x :: rs, c =>
    have ih := namesKept_landBlock u lanes rs (c.landV ⟨u, x.2⟩ lanes x.1)
    ⟨(namesKept_landV u x.2 lanes x.1 c).trans ih.1, ih.2⟩

/-- A band with a result written to its destination. -/
def bandLand (u : Nat) (d : Dest) (v : ArithVal) (b : Band) : Band :=
  match d, v with
  | .tagV false, .vec lo _ lanes => b.landV ⟨u, 0⟩ lanes lo
  | .tagV true, .vec lo hi lanes => (b.landV ⟨u, 0⟩ lanes lo).landV ⟨u, 1⟩ lanes hi
  | .tagBlock, .block rs lanes => landBlock u lanes rs.zipIdx b
  | .o n false, .vec lo _ lanes => { b with o := b.o.setIfInBounds n (mergeLanes (b.o.toArray.getD n VReg.zero) lo lanes) }
  | .o n true, .vec lo hi lanes =>
    let first := b.o.setIfInBounds n (mergeLanes (b.o.toArray.getD n VReg.zero) lo lanes)
    { b with o := first.setIfInBounds (n + 1) (mergeLanes (b.o.toArray.getD (n + 1) VReg.zero) hi lanes) }
  | .tagS, .scalar w => b.landS ⟨u, 0⟩ w
  | .tagS2, .pair lo hi => (b.landS ⟨u, 0⟩ lo).landS ⟨u, 1⟩ hi
  | .a n, .scalar w => { b with a := b.a.setIfInBounds n w }
  | .m n, .scalar w => { b with m := b.m.setIfInBounds n (w.setWidth 32) }
  | _, _ => b

theorem landDest_eq (s : State) (o : Op) (d : Dest) (v : ArithVal) : s.landDest o d v = s.modBand o.band (bandLand o.uid d v) := rfl

/-- What a result that lands keeps of its band (the statement of O54 on one band). -/
def Landed (u : Nat) (d : Dest) (v : ArithVal) (b c : Band) : Prop :=
  c.b = b.b ∧ c.f = b.f ∧ c.mode = b.mode ∧ c.fps = b.fps ∧ c.pc = b.pc ∧ c.hdr = b.hdr ∧ c.lat = b.lat ∧
    c.srseq = b.srseq ∧ c.sig = b.sig ∧ c.inHandler = b.inHandler ∧ c.privileged = b.privileged ∧ c.winFault = b.winFault ∧
    ((∀ n, d ≠ .a n) → c.a = b.a) ∧ ((∀ n, d ≠ .m n) → c.m = b.m) ∧ ((∀ n p, d ≠ .o n p) → c.o = b.o) ∧
    (∀ (n : Nat) (k : Fin 16), d = .a n → k.val ≠ n → c.a[k] = b.a[k]) ∧
    (∀ (n : Nat) (k : Fin 16), d = .m n → k.val ≠ n → c.m[k] = b.m[k]) ∧
    (∀ (n : Nat) (p : Bool) (k : Fin 8), d = .o n p → k.val ≠ n → (p = true → k.val ≠ n + 1) → c.o[k] = b.o[k]) ∧
    (∀ (lo hi : VReg) (lanes : W32) (l : Nat), v = .vec lo hi lanes → l < 32 → lanes.getLsbD l = false →
      (∀ k : Fin 64, (c.vName k.val).val.lane l = (b.vName k.val).val.lane l) ∧ ∀ k : Fin 8, c.o[k].lane l = b.o[k].lane l) ∧
    (d ≠ .tagS → d ≠ .tagS2 → c.s = b.s) ∧ ((∀ p, d ≠ .tagV p) → d ≠ .tagBlock → c.v = b.v) ∧
    (∀ n, (∀ k, (b.vName n).pend ≠ some ⟨u, k⟩) → c.vName n = b.vName n) ∧
    (∀ n, (∀ k, (b.sName n).pend ≠ some ⟨u, k⟩) → c.sName n = b.sName n) ∧
    c.frames.length = b.frames.length ∧ ∀ (i : Nat) (f : Frame), b.frames[i]? = some f → ∃ h, c.frames[i]? = some h ∧ FrameKept u f h

section Landed

variable {u : Nat} {d : Dest} {v : ArithVal} {b c : Band} {lanes : W32}

theorem NamesKept.landed (h : NamesKept u lanes b c) (hv : ∀ lo hi ls, v = .vec lo hi ls → ls = lanes)
    (hs : d ≠ .tagS → d ≠ .tagS2 → c.s = b.s) (hn : (∀ p, d ≠ .tagV p) → d ≠ .tagBlock → c.v = b.v) : Landed u d v b c := by
  obtain ⟨a1, a2, a3, a4, a5, a6, a7, a8, a9, a10, a11, a12⟩ := h.rest
  refine ⟨a1, a2, a3, a4, a5, a6, a7, a8, a9, a10, a11, a12, fun _ => h.a, fun _ => h.m, fun _ => h.o, fun _ k _ _ => by rw [h.a],
    fun _ k _ _ => by rw [h.m], fun _ _ k _ _ _ => by rw [h.o], fun lo hi ls l he hl hb => ?_, hs, hn, h.v, h.s, h.count, h.frames⟩
  obtain rfl := hv lo hi ls he
  exact ⟨fun k => h.vLanes l hl hb k.val, fun k => by rw [h.o]⟩

theorem landed_a (n : Nat) (w : W64) : Landed u (.a n) v b { b with a := b.a.setIfInBounds n w } := by
  refine ⟨rfl, rfl, rfl, rfl, rfl, rfl, rfl, rfl, rfl, rfl, rfl, rfl, fun h => absurd rfl (h n), fun _ => rfl, fun _ => rfl, ?_,
    nofun, nofun, fun _ _ _ _ _ _ _ => ⟨fun _ => rfl, fun _ => rfl⟩, fun _ _ => rfl, fun _ _ => rfl, fun _ _ => rfl, fun _ _ => rfl, rfl,
    (namesKept_self u 0 b).frames⟩
  rintro _ k ⟨⟩ hk
  exact getElem_setIfInBounds_other b.a _ k.isLt hk

theorem landed_m (n : Nat) (w : W32) : Landed u (.m n) v b { b with m := b.m.setIfInBounds n w } := by
  refine ⟨rfl, rfl, rfl, rfl, rfl, rfl, rfl, rfl, rfl, rfl, rfl, rfl, fun _ => rfl, fun h => absurd rfl (h n), fun _ => rfl, nofun, ?_,
    nofun, fun _ _ _ _ _ _ _ => ⟨fun _ => rfl, fun _ => rfl⟩, fun _ _ => rfl, fun _ _ => rfl, fun _ _ => rfl, fun _ _ => rfl, rfl,
    (namesKept_self u 0 b).frames⟩
  rintro _ k ⟨⟩ hk
  exact getElem_setIfInBounds_other b.m _ k.isLt hk

theorem landed_o {n : Nat} {p : Bool} {x : Vector VReg 8} (hx : ∀ k : Fin 8, k.val ≠ n → (p = true → k.val ≠ n + 1) → x[k] = b.o[k])
    (hl : ∀ (lo hi : VReg) (ls : W32) (l : Nat), v = .vec lo hi ls → l < 32 → ls.getLsbD l = false → ∀ k : Fin 8, x[k].lane l = b.o[k].lane l) :
    Landed u (.o n p) v b { b with o := x } := by
  refine ⟨rfl, rfl, rfl, rfl, rfl, rfl, rfl, rfl, rfl, rfl, rfl, rfl, fun _ => rfl, fun _ => rfl, fun h => absurd rfl (h n p), nofun, nofun,
    ?_, fun lo hi ls l he h32 hb => ⟨fun _ => rfl, hl lo hi ls l he h32 hb⟩, fun _ _ => rfl, fun _ _ => rfl, fun _ _ => rfl, fun _ _ => rfl, rfl,
    (namesKept_self u 0 b).frames⟩
  rintro _ _ k ⟨⟩ hk hk'
  exact hx k hk hk'

/-- An o register written in some lanes keeps the others. -/
theorem lane_setIfInBounds_merge {x y : Vector VReg 8} {n : Nat} (z : VReg) {l : Nat} (hl : l < 32) (h : lanes.getLsbD l = false)
    (hx : ∀ k : Fin 8, x[k].lane l = y[k].lane l) (k : Fin 8) :
    (x.setIfInBounds n (mergeLanes (y.toArray.getD n VReg.zero) z lanes))[k].lane l = y[k].lane l := by
  by_cases hk : k.val = n
  · subst hk
    have : (x.setIfInBounds k.val (mergeLanes (y.toArray.getD k.val VReg.zero) z lanes))[k] = mergeLanes y[k] z lanes := by
      simp [Array.getD, k.isLt]
    rw [this]
    exact mergeLanes_lane _ _ hl h
  · have : (x.setIfInBounds n (mergeLanes (y.toArray.getD n VReg.zero) z lanes))[k] = x[k] := getElem_setIfInBounds_other x _ k.isLt hk
    rw [this, hx]

end Landed

theorem landed_self (u : Nat) (d : Dest) (v : ArithVal) (b : Band) : Landed u d v b b := by
  obtain ⟨hr, -, -, -, -, -, hv, hs, hc, hf⟩ := namesKept_self u 0 b
  exact ⟨rfl, rfl, rfl, rfl, rfl, rfl, rfl, rfl, rfl, rfl, rfl, rfl, fun _ => rfl, fun _ => rfl, fun _ => rfl, fun _ _ _ _ => rfl,
    fun _ _ _ _ => rfl, fun _ _ _ _ _ _ => rfl, fun _ _ _ _ _ _ _ => ⟨fun _ => rfl, fun _ => rfl⟩, fun _ _ => rfl, fun _ _ => rfl, hv, hs, hc, hf⟩

theorem bandLand_uid (u : Nat) (d : Dest) (v : ArithVal) (b : Band) : (bandLand u d v b).uid = b.uid := by
  unfold bandLand
  split
  case h_3 rs lanes => exact (namesKept_landBlock u lanes rs.zipIdx b).1.uid
  all_goals rfl

theorem bandLand_landed (u : Nat) (d : Dest) (v : ArithVal) (b : Band) : Landed u d v b (bandLand u d v b) := by
  unfold bandLand
  split
  case h_1 lo hi lanes => exact (namesKept_landV u 0 lanes lo b).landed (by rintro _ _ _ ⟨⟩; rfl) (fun _ _ => rfl) fun h => absurd rfl (h _)
  case h_2 lo hi lanes =>
    exact ((namesKept_landV u 0 lanes lo b).trans (namesKept_landV u 1 lanes hi _)).landed (by rintro _ _ _ ⟨⟩; rfl) (fun _ _ => rfl)
      fun h => absurd rfl (h _)
  case h_3 rs lanes =>
    obtain ⟨hk, hs⟩ := namesKept_landBlock u lanes rs.zipIdx b
    exact hk.landed nofun (fun _ _ => hs) fun _ h => absurd rfl h
  case h_4 n lo hi lanes =>
    refine landed_o (fun k hk _ => getElem_setIfInBounds_other b.o _ k.isLt hk) ?_
    rintro _ _ _ l ⟨⟩ hl hb k
    exact lane_setIfInBounds_merge _ hl hb (fun _ => rfl) k
  case h_5 n lo hi lanes =>
    refine landed_o (fun k hk hk' => ?_) ?_
    · exact (getElem_setIfInBounds_other (b.o.setIfInBounds n _) _ k.isLt (hk' rfl)).trans (getElem_setIfInBounds_other b.o _ k.isLt hk)
    · rintro _ _ _ l ⟨⟩ hl hb k
      exact lane_setIfInBounds_merge _ hl hb (lane_setIfInBounds_merge _ hl hb fun _ => rfl) k
  case h_6 w => exact (namesKept_landS u 0 0 w b).landed nofun (fun h => absurd rfl h) fun _ _ => rfl
  case h_7 lo hi =>
    exact ((namesKept_landS u 0 0 lo b).trans (namesKept_landS u 1 0 hi _)).landed nofun (fun _ h => absurd rfl h) fun _ _ => rfl
  case h_8 n w => exact landed_a n w
  case h_9 n w => exact landed_m n _
  case h_10 => exact landed_self u d v b

/-- The first band of a number, after a change that keeps the numbers. -/
theorem band?_modBand {s : State} {u : Nat} {b : Band} {f : Band → Band} (h : s.band? u = some b) (hf : ∀ c, (f c).uid = c.uid) :
    (s.modBand u f).band? u = some (f b) := by
  unfold State.band? State.modBand at *
  dsimp only
  rw [List.find?_map]
  have : (fun x : Band => x.uid == u) ∘ (fun x => if x.uid == u then f x else x) = fun x => x.uid == u := by
    funext x
    simp only [Function.comp]
    split
    · rw [hf]
    · rfl
  rw [this, h, Option.map_some, if_pos (List.find?_some (p := fun x : Band => x.uid == u) h)]

/-- Settles O54: the one band that a result lands in, by its destination. -/
theorem landingFrame : Obligations.LandingFrame := by
  intro s o d v b hb
  rw [landDest_eq]
  refine ⟨rfl, fun c hc hne => ?_, _, band?_modBand hb (bandLand_uid o.uid d v), bandLand_landed o.uid d v b⟩
  obtain ⟨x, hx, rfl⟩ := List.mem_map.1 hc
  split at hne
  next h => exact absurd ((bandLand_uid ..).trans (eq_of_beq h)) hne
  next h => rwa [if_neg h]

end Sys2Proof.Proofs.Frames
end

section
/-! SUPPORT. The lane-wise vector words (R219 to R225) and the float and conversion words (R226 to R231, R236). -/

namespace Sys2Proof.Proofs.LaneWords

open Sys2Proof Sys2Proof.Machine Sys2Proof.Stated Sys2Proof.Laws Sys2Proof.Proofs.Pieces

/-! ## Vector ALU words (R222 to R224) -/

theorem laneAlu_put {i : Instr} {ok : Nat → Bool} {s : State} {b : Band} {d : Opnd} {f : Band → State → Nat → Try (Nat → Nat)} {g : Nat → Nat}
    {l : W32} (h : Stands i b s) (hok : ok b.typ = true) (hg : f b (acting b s) b.typ = .ok g) (hl : (acting b s).lanesOf b = .ok l)
    (hd : vputReady b b.typ d l (acting b s) = true) (hw : wholeThere b b.typ d l (acting b s) = true) :
    laneAlu i ok d f s = past i b s (vput b b.typ d g l true (acting b s)) := by
  refine issue_ok h ?_
  simp only [hok, need_true, hl, hg, elemDst_put hd fun _ => hw, ok_bind]
  rfl

/-- A word's meaning puts `g` into the enabled lanes of its destination and a single register's whole value into lat. -/
def PutsLanes (i : Instr) (b : Band) (s : State) (d : Opnd) (g : Nat → Nat) : Prop :=
  ∃ body : Band → State → Try Fin', (∀ t, exec i t = .next (issue i body t)) ∧
    ∀ l t, s.lanesOf b = .ok l → s.elemDst b b.typ d g l true = .ok t → body b s = .ok (.next t)

theorem putsLanes_of_laneAlu {i : Instr} {ok : Nat → Bool} {s : State} {b : Band} {d : Opnd} {f : Band → State → Nat → Try (Nat → Nat)}
    {g : Nat → Nat} (hexec : ∀ t, exec i t = .next (laneAlu i ok d f t)) (hok : ok b.typ = true) (hg : f b s b.typ = .ok g) :
    PutsLanes i b s d g :=
  ⟨_, hexec, fun l t hl ht => by simp only [hok, need_true, hl, hg, ht, ok_bind]; rfl⟩

/-- The shared meaning of two sources. -/
theorem putsLanes_of_laneAlu2 {i : Instr} {ok : Nat → Bool} {s : State} {b : Band} {d a c : Opnd} {f : Band → Nat → Nat → Nat → Nat → Nat}
    {x y g : Nat → Nat} (hexec : ∀ t, exec i t = .next (laneAlu2 i ok d a c f t)) (hok : ok b.typ = true)
    (hx : s.lanesSrc b b.typ a = .ok x) (hy : s.lanesSrc b b.typ c = .ok y) (hg : ∀ k, f b b.typ k (x k) (y k) = g k) :
    PutsLanes i b s d g :=
  putsLanes_of_laneAlu hexec hok (by rw [hx, hy, ← funext hg]; rfl)

theorem putsLanes_of_laneAlu1 {i : Instr} {ok : Nat → Bool} {s : State} {b : Band} {d a : Opnd} {f : Band → Nat → Nat → Nat}
    {x g : Nat → Nat} (hexec : ∀ t, exec i t = .next (laneAlu1 i ok d a f t)) (hok : ok b.typ = true)
    (hx : s.lanesSrc b b.typ a = .ok x) (hg : ∀ k, f b b.typ (x k) = g k) : PutsLanes i b s d g :=
  putsLanes_of_laneAlu hexec hok (by rw [hx, ← funext hg]; rfl)

theorem popCount_eq (n x : Nat) : popCount n x = (List.range n).countP x.testBit := List.countP_eq_length_filter.symm

theorem choice_swap (x y : Int) (u v : Nat) : (if x < y then u else v) = if y ≤ x then v else u := by
  split <;> split <;> omega

theorem lane2_puts {i : Instr} {b : Band} {s : State} {d a c : Opnd} {ints : Bool} {f : Band → Nat → Nat → Nat → Nat} {x y : Nat → Nat}
    (hi : lane2 i = some (d, a, c, ints, f)) (ht : ints = true → b.typ < 8) (hx : s.lanesSrc b b.typ a = .ok x)
    (hy : s.lanesSrc b b.typ c = .ok y) : PutsLanes i b s d fun k => f b k (x k) (y k) := by
  cases i with
  | vadd | vsub | vmul | vmulh | vidx =>
    cases hi
    exact putsLanes_of_laneAlu2 (fun _ => rfl) (decide_eq_true (ht rfl)) hx hy fun _ => rfl
  | vand | vor | vxor => cases hi; exact putsLanes_of_laneAlu2 (fun _ => rfl) rfl hx hy fun _ => rfl
  | vmin =>
    cases hi
    exact putsLanes_of_laneAlu2 (fun _ => rfl) (decide_eq_true (ht rfl)) hx hy fun k => choice_swap ..
  | vmax =>
    cases hi
    exact putsLanes_of_laneAlu2 (fun _ => rfl) (decide_eq_true (ht rfl)) hx hy fun k => choice_swap ..
  | vabs =>
    cases hi
    exact putsLanes_of_laneAlu1 (fun _ => rfl) (decide_eq_true (ht rfl)) hx fun k => congrArg (narrow b b.typ) (Int.abs_eq_natAbs _).symm
  | vneg => cases hi; exact putsLanes_of_laneAlu1 (fun _ => rfl) (decide_eq_true (ht rfl)) hx fun k => by rw [zero_sub]
  | vpopc => cases hi; exact putsLanes_of_laneAlu1 (fun _ => rfl) rfl hx fun k => popCount_eq _ _
  | vnot | vmov | vclz => cases hi; exact putsLanes_of_laneAlu1 (fun _ => rfl) rfl hx fun _ => rfl
  | _ => nomatch hi

theorem shift_puts {i : Instr} {b : Band} {s : State} {d a c : Opnd} {f : Nat → Nat → Nat → Nat} {x n : Nat → Nat}
    (hi : laneShift i = some (d, a, c, f)) (ht : b.typ < 8) (hx : s.lanesSrc b b.typ a = .ok x) (hn : s.countSrc b b.typ c = .ok n) :
    PutsLanes i b s d fun k => f b.typ (x k) (n k) := by
  have hexec : ∀ t, exec i t = .next (shiftOp i d a c f t) := by
    unfold laneShift at hi
    split at hi <;> cases hi <;> exact fun _ => rfl
  exact putsLanes_of_laneAlu hexec (decide_eq_true ht) (by rw [hx, ok_bind, hn]; rfl)

/-- R226: the format of a float type. -/
theorem fmt_ok {b : Band} {f : Fmt} (ht : 8 ≤ b.typ) (hf : fmtOf b.typ = some f) : b.fmt = .ok f := by
  rw [Band.fmt, isFloatType, decide_eq_true ht, if_pos rfl, hf]

theorem bits_puts {i : Instr} {b : Band} {s : State} {d a : Opnd} {wide : Bool} {f : Fmt → Nat → Nat} {ft : Fmt} {x : Nat → Nat}
    (hi : laneBits i = some (d, a, wide, f)) (ht : 8 ≤ b.typ) (hf : fmtOf b.typ = some ft) (hw : wide = true ∨ b.typ ≠ 11)
    (hx : s.lanesSrc b b.typ a = .ok x) : PutsLanes i b s d fun k => f ft (x k) := by
  have hexec : ∃ ok, (∀ t, exec i t = .next (bitOp i d a ok f t)) ∧ ok b.typ = true := by
    cases i with
    | fabs | fneg | fclass => cases hi; exact ⟨_, fun _ => rfl, rfl⟩
    | fkey => cases hi; exact ⟨_, fun _ => rfl, bne_iff_ne.2 (hw.resolve_left (by decide))⟩
    | _ => nomatch hi
  obtain ⟨ok, hexec, hok⟩ := hexec
  exact ⟨_, hexec, fun l t hl hd => by simp only [fmt_ok ht hf, hok, need_true, hl, hx, hd, ok_bind]; rfl⟩

theorem laneWord_puts {i : Instr} {b : Band} {s : State} {d : Opnd} {g : Nat → Nat} (h : LaneWord i b s d g) : PutsLanes i b s d g := by
  cases h with
  | two _ _ _ _ _ _ _ _ _ _ hi ht hx hy => exact lane2_puts hi ht hx hy
  | shift _ _ _ _ _ _ _ _ _ hi ht hx hn => exact shift_puts hi ht hx hn
  | bits _ _ _ _ _ _ _ _ _ hi ht hf hw hx => exact bits_puts hi ht hf hw hx
  | vmad _ _ _ _ _ _ _ _ ht hx hy hz =>
    exact putsLanes_of_laneAlu (fun _ => rfl) (decide_eq_true ht) (by simp only [hx, hy, hz, ok_bind]; rfl)
  | vdot4 _ _ _ _ _ _ _ _ ht hx hy hz =>
    have hs : isSigned b.typ = decide (b.typ = 2) := by rcases ht with h | h <;> rw [h] <;> rfl
    refine putsLanes_of_laneAlu (fun _ => rfl) ?_ (by simp only [hx, hy, hz, hs, ok_bind]; rfl)
    rcases ht with h | h <;> rw [h] <;> rfl
  | vmovi => exact putsLanes_of_laneAlu (fun _ => rfl) rfl rfl
  | vbcast _ _ _ _ _ _ _ hx hn => exact putsLanes_of_laneAlu (fun _ => rfl) rfl (by simp only [hx, hn, ok_bind]; rfl)

theorem vectorAluResults : VectorAluResults := by
  intro i s b d g l hi h hl hd hw
  obtain ⟨body, hexec, hbody⟩ := laneWord_puts hi
  rw [hexec, issue_ok h (hbody l _ hl (elemDst_put hd fun _ => hw))]

theorem exec_vsel (d a c : Opnd) (s : State) : exec (.vsel d a c) s = execVsel d a c s := rfl

theorem wholeThere_all (b : Band) (typ : Nat) (d : Opnd) (t : State) : wholeThere b typ d (~~~ 0#32) t = true := by
  have h : (~~~ 0#32 != 0) = true := rfl
  simp only [wholeThere, h, Bool.or_true, Bool.true_or]

theorem vectorSelectResults : VectorSelectResults := by
  intro s b d a c x y l h hx hy hl hd
  rw [exec_vsel, execVsel]
  refine next_eq (issue_ok h ?_)
  simp only [hl, hx, hy, elemDst_put hd fun _ => wholeThere_all b b.typ d _, ok_bind]
  rfl

/-! ## Comparisons (R225, R230) -/

/-- The sum of the powers of two that a list of numbers below n picks out has those bits. -/
theorem sum_pow_testBit (q : Nat → Bool) : ∀ n,
    ((List.range n).filter q).foldl (fun m i => m + 2 ^ i) 0 < 2 ^ n ∧
      ∀ j, (((List.range n).filter q).foldl (fun m i => m + 2 ^ i) 0).testBit j = (decide (j < n) && q j)
  | 0 => ⟨Nat.one_pos, fun j => by simp⟩
  | n + 1 => by
    obtain ⟨hlt, hbit⟩ := sum_pow_testBit q n
    rw [List.range_succ, List.filter_append, List.foldl_append]
    generalize ((List.range n).filter q).foldl (fun m i => m + 2 ^ i) 0 = m at hlt hbit ⊢
    by_cases hq : q n = true
    · rw [List.filter_cons_of_pos hq, List.filter_nil, List.foldl_cons, List.foldl_nil, Nat.add_comm]
      refine ⟨by rw [Nat.pow_succ]; omega, fun j => ?_⟩
      rcases Nat.lt_trichotomy j n with hj | rfl | hj
      · rw [Nat.testBit_two_pow_add_gt hj, hbit, decide_eq_true hj, decide_eq_true (by omega)]
      · rw [Nat.testBit_two_pow_add_eq, hbit, decide_eq_false (Nat.lt_irrefl _), decide_eq_true (by omega), hq]
        rfl
      · rw [decide_eq_false (by omega), Bool.false_and]
        refine Nat.testBit_lt_two_pow ?_
        have := Nat.pow_le_pow_right (n := 2) (by decide) hj
        rw [Nat.pow_succ] at this
        omega
    · rw [List.filter_cons_of_neg hq, List.filter_nil, List.foldl_nil]
      refine ⟨by rw [Nat.pow_succ]; omega, fun j => ?_⟩
      rw [hbit]
      by_cases hj : j = n
      · subst hj
        rw [Bool.eq_false_of_not_eq_true hq, Bool.and_false, Bool.and_false]
      · rw [decide_eq_decide.2 (by omega : j < n ↔ j < n + 1)]

theorem maskBits_eq (old lanes : W32) (p : Nat → Bool) : maskBits old lanes p = newMask old lanes p := by
  have hset : (laneList lanes).filter p = (List.range 32).filter fun i => p i && lanes.getLsbD i := List.filter_filter
  refine BitVec.eq_of_getLsbD_eq fun j hj => ?_
  have hnew : (newMask old lanes p).getLsbD j = if lanes.getLsbD j then p j else old.getLsbD j := by
    simp [newMask, hj]
  rw [hnew, maskBits, hset, BitVec.getLsbD_or, BitVec.getLsbD_and, BitVec.getLsbD_not, BitVec.getLsbD_ofNat, (sum_pow_testBit _ 32).2,
    decide_eq_true hj]
  cases lanes.getLsbD j <;> cases p j <;> simp

theorem readM_ready {s : State} {b : Band} {n : Nat} {x : W32} (h : s.readM b n = .ok x) : s.regPending b none none (some n) = false := by
  rw [State.readM, State.mReady] at h
  cases hp : s.regPending b none none (some n)
  · rfl
  · rw [hp] at h
    cases h

theorem compareTo_putM {s : State} {b : Band} {n : Fin 16} {old l : W32} (h : s.readM b n.val = .ok old) (p : Nat → Bool) :
    s.compareTo b (.m n) l p = .ok (s.putM b n.val (newMask old l p)) := by
  simp only [State.compareTo, h, ok_bind, State.writeM, State.mReady, readM_ready h, Bool.not_false, holdUnless_true, maskBits_eq]
  rfl

theorem exec_of_intCompare {i : Instr} {d a c : Opnd} {p : Int → Int → Bool} (h : intCompare i = some (d, a, c, p)) (s : State) :
    exec i s = .next (compareInt i d a c p s) := by
  unfold intCompare at h
  split at h <;> cases h <;> rfl

theorem exec_of_floatCompare {i : Instr} {d a c : Opnd} {any : Bool} {p : Machine.Num → Machine.Num → Bool}
    (h : floatCompare i = some (d, a, c, any, p)) (s : State) : exec i s = .next (compareFloat i d a c any p s) := by
  unfold floatCompare at h
  split at h <;> cases h <;> rfl

theorem comparisonResults : ComparisonResults := by
  intro i s b n a c x y l old h hx hy hl hm
  refine ⟨fun p hi ht => ?_, fun any p f hi ht hf => ?_⟩
  · rw [exec_of_intCompare hi]
    refine next_eq (issue_ok h ?_)
    simp only [isIntType, decide_eq_true ht, need_true, hl, hx, hy, compareTo_putM hm, ok_bind]
    rfl
  · rw [exec_of_floatCompare hi]
    refine next_eq (issue_ok h ?_)
    simp only [fmt_ok ht hf, hl, hx, hy, compareTo_putM hm, ok_bind]
    rfl

/-- Settles O9: the ALU words by what they put into the lanes, VSEL, and the comparisons by the mask they leave. -/
theorem vectorWordResults : Obligations.VectorWordResults := ⟨vectorAluResults, vectorSelectResults, comparisonResults⟩

/-! ## Float and conversion words (R226 to R231, R236) -/

/-- A float word's meaning: its lanes' elements and status go to the destination as its class says, and the draws are counted. -/
def FloatMeaning (i : Instr) (b : Band) (s : State) (typ : Nat) (d : Opnd) (e : Ends) (rnd : Nat) (g : Nat → Nat × BitVec 6) : Prop :=
  ∃ body : Band → State → Try Fin', (∀ t, exec i t = .next (issue i body t)) ∧
    ∀ l t, s.lanesOf b = .ok l → s.floatDst b typ d l (e == .arith) (e == .alu) g = .ok t → body b s = .ok (.next (t.countSr b rnd))

theorem floatMeaning_of_floatOp {i : Instr} {b : Band} {s : State} {d : Opnd} {ar : Bool} {f : Band → State → Fmt → Try (Nat → Machine.Num × BitVec 6)}
    {ft : Fmt} {x : Nat → Machine.Num × BitVec 6} (hexec : ∀ t, exec i t = .next (floatOp i ar d f t)) (ht : 8 ≤ b.typ)
    (hf : fmtOf b.typ = some ft) (hx : f b s ft = .ok x) :
    FloatMeaning i b s b.typ d (if ar then .arith else .alu) b.rnd fun k => rounded s b ft k (x k) := by
  refine ⟨_, hexec, fun l t hl hd => ?_⟩
  have hd' : s.floatDst b b.typ d l ar true (fun k => rounded s b ft k (x k)) = .ok t := by
    cases ar
    · exact hd
    · exact hd
  have : s.floatDst b b.typ d l ar true (fun i => finish ft (roundOf b.rnd (s.srKey b) i 0) b.sat b.ftz (x i)) = .ok t := hd'
  simp only [fmt_ok ht hf, hl, hx, this, ok_bind]
  rfl

theorem float2_meaning {i : Instr} {b : Band} {s : State} {d a c : Opnd} {ar : Bool}
    {op : Nat → Machine.Num → Machine.Num → Machine.Num × BitVec 6} {f : Fmt} {x y : Nat → Machine.Num × BitVec 6}
    (hi : float2Rule i = some (d, a, c, ar, op)) (ht : 8 ≤ b.typ) (hf : fmtOf b.typ = some f) (hx : s.numSrc b f a = .ok x)
    (hy : s.numSrc b f c = .ok y) : FloatMeaning i b s b.typ d (if ar then .arith else .alu) b.rnd fun k =>
      rounded s b f k ((op b.rnd (x k).1 (y k).1).1, (op b.rnd (x k).1 (y k).1).2 ||| (x k).2 ||| (y k).2) := by
  have hexec : ∀ t, exec i t = .next (float2 i ar d a c op t) := by
    unfold float2Rule at hi
    split at hi <;> cases hi <;> exact fun _ => rfl
  exact floatMeaning_of_floatOp hexec ht hf (by rw [hx, ok_bind, hy]; rfl)

theorem float1_meaning {i : Instr} {b : Band} {s : State} {d a : Opnd} {op : Machine.Num → Machine.Num × BitVec 6} {f : Fmt}
    {x : Nat → Machine.Num × BitVec 6} (hi : float1Rule i = some (d, a, op)) (ht : 8 ≤ b.typ) (hf : fmtOf b.typ = some f)
    (hx : s.numSrc b f a = .ok x) :
    FloatMeaning i b s b.typ d .arith b.rnd fun k => rounded s b f k ((op (x k).1).1, (op (x k).1).2 ||| (x k).2) := by
  have hexec : ∀ t, exec i t = .next (float1 i true d a op t) := by
    unfold float1Rule at hi
    split at hi <;> cases hi <;> exact fun _ => rfl
  exact floatMeaning_of_floatOp hexec ht hf (by rw [hx]; rfl)

theorem minMax_meaning {i : Instr} {b : Band} {s : State} {d a c : Opnd} {num big : Bool} {f : Fmt} {x y : Nat → Nat}
    (hi : minMaxRule i = some (d, a, c, num, big)) (ht : 8 ≤ b.typ) (hf : fmtOf b.typ = some f) (hx : s.lanesSrc b b.typ a = .ok x)
    (hy : s.lanesSrc b b.typ c = .ok y) : FloatMeaning i b s b.typ d .alu 0 fun k => minMax f b.ftz num big (x k) (y k) := by
  have hexec : ∀ t, exec i t = .next (minMaxOp i d a c num big t) := by
    unfold minMaxRule at hi
    split at hi <;> cases hi <;> exact fun _ => rfl
  refine ⟨_, hexec, fun l t hl hd => ?_⟩
  have hd' : s.floatDst b b.typ d l false true (fun k => minMax f b.ftz num big (x k) (y k)) = .ok t := hd
  simp only [fmt_ok ht hf, hl, hx, hy, hd', ok_bind]
  rfl

theorem floatWord_meaning {i : Instr} {b : Band} {s : State} {typ : Nat} {d : Opnd} {e : Ends} {rnd : Nat} {g : Nat → Nat × BitVec 6}
    (h : FloatWord i b s typ d e rnd g) : FloatMeaning i b s typ d e rnd g := by
  cases h with
  | two _ _ _ _ _ _ _ _ _ _ _ hi ht hf hx hy => exact float2_meaning hi ht hf hx hy
  | one _ _ _ _ _ _ _ _ hi ht hf hx => exact float1_meaning hi ht hf hx
  | ffma _ _ _ _ _ _ _ _ _ ht hf hx hy hz =>
    exact floatMeaning_of_floatOp (ar := false) (fun _ => rfl) ht hf (by simp only [hx, hy, hz, ok_bind]; rfl)
  | fscale _ _ _ _ _ _ _ _ ht hf hx hn =>
    exact floatMeaning_of_floatOp (ar := false) (fun _ => rfl) ht hf (by simp only [hx, hn, ok_bind]; rfl)
  | minMax _ _ _ _ _ _ _ _ _ _ _ hi ht hf hx hy => exact minMax_meaning hi ht hf hx hy
  | frnd _ _ _ _ _ r _ x ht hf hr hx =>
    refine ⟨_, fun _ => rfl, fun l t hl hd => ?_⟩
    have hd' : s.floatDst b b.typ d l false true _ = .ok t := hd
    simp only [fmt_ok ht hf, bne_iff_ne.2 hr, need_true, hl, hx, hd', ok_bind]
    rfl
  | cvt _ _ _ _ _ _ x hx =>
    refine ⟨_, fun _ => rfl, fun l t hl hd => ?_⟩
    have hd' : s.floatDst b _ d l false true _ = .ok t := hd
    simp only [hl, hx, hd', ok_bind]
    rfl
  | scvt _ _ _ _ k u ty x sc cl hty hx hs =>
    refine ⟨_, fun _ => rfl, fun l t hl hd => ?_⟩
    have hd' : s.floatDst b _ d l false false _ = .ok t := hd
    simp only [beq_iff_eq, hty, need_true, hl, hx, hs, hd', ok_bind]
    rfl

theorem floatDst_now {s : State} {b : Band} {typ : Nat} {d : Opnd} {l : W32} {alu : Bool} {g : Nat → Nat × BitVec 6}
    (hd : vputReady b typ d l s = true) (hw : alu = true → wholeThere b typ d l s = true) :
    s.floatDst b typ d l false alu g = .ok ((vput b typ d (fun k => (g k).1) l alu s).setFps b.uid (orLanes l g)) := by
  rw [State.floatDst, if_neg (by decide), elemDst_put hd hw]
  rfl

/-- Settles O10: the float words by their shared meaning, with the end that their class gives. -/
theorem floatResults : Obligations.FloatResults := by
  intro i s b typ d e rnd g l hi h hl hd hf hw
  obtain ⟨body, hexec, hbody⟩ := floatWord_meaning hi
  rw [hexec]
  refine next_eq (issue_ok h (hbody l _ hl ?_))
  cases e with
  | alu => exact floatDst_now hd fun _ => hw rfl
  | plain => exact floatDst_now hd nofun
  | arith => exact arithElems_put hd (hf rfl)

end Sys2Proof.Proofs.LaneWords
end

section
/-! SUPPORT. The words across lanes (R237 to R243) and the block-format words (R232 to R235). -/

namespace Sys2Proof.Proofs.CrossLane

open Sys2Proof Sys2Proof.Machine Sys2Proof.Stated Sys2Proof.Laws Sys2Proof.Proofs.Pieces Sys2Proof.Proofs.LaneWords

/-! ## Exchanges, scans and reductions (R237 to R239) -/

theorem countSum_eq (t : State) (b : Band) (op : Nat) : t.countSum b op = t.countSr b (if op = 0 ∧ 8 ≤ b.typ then b.rnd else 0) := by
  have h : (decide (op = 0) && isFloatType b.typ) = decide (op = 0 ∧ 8 ≤ b.typ) := (Bool.decide_and ..).symm
  rw [State.countSum]
  by_cases hc : op = 0 ∧ 8 ≤ b.typ
  · rw [if_pos hc, h, if_pos (decide_eq_true hc)]
  · rw [if_neg hc, h, if_neg (by rw [decide_eq_false hc]; decide)]
    rfl

/-- An arithmetic-class word's meaning: it starts an operation with the lanes' elements and the status, and counts its draw. -/
def StartsArith (i : Instr) (b : Band) (s : State) (d : Opnd) (typ : Nat) (l : W32) (rnd : Nat) (g : Nat → Nat) (fl : BitVec 6) : Prop :=
  ∃ body : Band → State → Try Fin', (∀ t, exec i t = .next (issue i body t)) ∧
    ∀ t, s.lanesOf b = .ok l → s.arithElems b typ d g l fl = .ok t → body b s = .ok (.next (t.countSr b rnd))

theorem exchange_starts {i : Instr} {b : Band} {s : State} {d a : Opnd} {idx : Band → State → Try (Nat → Nat)} {x n g : Nat → Nat} {l : W32}
    (hexec : ∀ t, exec i t = .next (exchange i d a idx t)) (hx : s.lanesSrc b (movedTyp b.typ) a = .ok x) (hn : idx b s = .ok n)
    (hg : ∀ k, x (n k % 32) = g k) : StartsArith i b s d (movedTyp b.typ) l 0 g 0 := by
  obtain rfl : (fun k => x (n k % 32)) = g := funext hg
  refine ⟨_, hexec, fun t hl ht => ?_⟩
  simp only [hl, hx, hn, ht, ok_bind]
  rfl

/-- A reduction into a vector register. -/
theorem reduction_starts {i : Instr} {op : Nat} {b : Band} {s : State} {d a : Opnd} {l : W32} {x : Nat → Nat}
    (hexec : ∀ t, exec i t = .next (reduction i op d a t)) (hd : d.isS = false) (hx : s.lanesSrc b b.typ a = .ok x) :
    StartsArith i b s d b.typ l (if op = 0 ∧ 8 ≤ b.typ then b.rnd else 0) (fun _ => (reduceOf b (s.srKey b) op l x).1)
      (reduceOf b (s.srKey b) op l x).2 := by
  refine ⟨_, hexec, fun t hl ht => ?_⟩
  rw [← countSum_eq]
  cases d with
  | s n => cases hd
  | _ =>
    simp only [hl, hx, ht, ok_bind]
    rfl

theorem exec_of_reduction {i : Instr} {op : Nat} {d a : Opnd}
    (hi : i = .vredadd d a ∧ op = 0 ∨ i = .vredmax d a ∧ op = 1 ∨ i = .vredmin d a ∧ op = 2) (t : State) :
    exec i t = .next (reduction i op d a t) := by
  rcases hi with ⟨rfl, rfl⟩ | ⟨rfl, rfl⟩ | ⟨rfl, rfl⟩ <;> rfl

theorem arithWord_starts {i : Instr} {b : Band} {s : State} {d : Opnd} {typ : Nat} {l : W32} {rnd : Nat} {g : Nat → Nat} {fl : BitVec 6}
    (h : ArithWord i b s d typ l rnd g fl) : StartsArith i b s d typ l rnd g fl := by
  cases h with
  | vshfl _ _ _ _ _ _ _ _ hx hn => exact exchange_starts (fun _ => rfl) hx hn fun _ => rfl
  | vbfly _ _ _ _ _ _ _ hx => exact exchange_starts (fun _ => rfl) hx rfl fun _ => rfl
  | vrot _ _ _ _ _ _ _ hx => exact exchange_starts (fun _ => rfl) hx rfl fun _ => rfl
  | vscan _ _ _ _ e op _ x ho hx =>
    refine ⟨_, fun _ => rfl, fun t hl ht => ?_⟩
    have hop : (if op = 0 ∧ 8 ≤ b.typ then b.rnd else 0) = if op.toNat = 0 ∧ 8 ≤ b.typ then b.rnd else 0 := by
      have h0 : op = 0 ↔ op.toNat = 0 := BitVec.toNat_eq
      simp only [h0]
    rw [hop, ← countSum_eq]
    simp only [bne_iff_ne.2 ho, need_true, hl, hx, ht, ok_bind]
    rfl
  | vred _ _ _ _ _ _ _ _ hi hd hx => exact reduction_starts (exec_of_reduction hi) hd hx

theorem exchangeScanAndReductionResults : ExchangeScanAndReductionResults := by
  intro i s b d typ rnd g fl l hi h hl hd hf
  obtain ⟨body, hexec, hbody⟩ := arithWord_starts hi
  rw [hexec, issue_ok h (hbody _ hl (arithElems_put hd hf))]

/-! ## Scalar reductions (R238, R240) -/

theorem exec_vargmax (d a c : Opnd) (s : State) : exec (.vargmax d a c) s = execVargmax d a c s := rfl

theorem scalarReductionResults : ScalarReductionResults := by
  intro s b n a c x l hl hx hf ha
  refine ⟨fun i op hi h => ?_, fun p hp ht h => ?_⟩
  · rw [exec_of_reduction hi]
    refine next_eq (issue_ok h ?_)
    simp only [hl, hx, arithS_arithScalar _ _ hf ha, ok_bind]
    rfl
  · rw [exec_vargmax, execVargmax]
    refine next_eq (issue_ok h ?_)
    simp only [decide_eq_true ht, need_true, hl, hx, hp, arithS_arithScalar _ _ hf ha, ok_bind]
    rfl

/-! ## Distances (R241) -/

theorem exec_vdist (d a : Opnd) (q : BitVec 2) (r : BitVec 3) (f m : BitVec 1) (s : State) :
    exec (.vdist d a q r f m) s = execVdist d a q r f m s := rfl

theorem distanceResults : DistanceResults := by
  intro s b d n q r f m cs qr acc l h hn hl hcs hqr hacc hd hf
  rw [exec_vdist, execVdist]
  refine next_eq (issue_ok h ?_)
  have hg : ∀ g, g = distOf b cs qr acc q f m → (acting b s).floatDst b 10 d l true true g =
      .ok (arithPut b 10 d (fun k => (distOf b cs qr acc q f m k).1) l (orLanes l (distOf b cs qr acc q f m)) (acting b s)) := by
    rintro _ rfl
    exact arithElems_put hd hf
  simp only [vNum, decide_eq_true hn, need_true, hl, hcs, hqr, hacc, ok_bind]
  rw [hg _ (funext fun k => by simp only [distOf, beq_iff_eq])]
  rfl

/-! ## Top-k (R242, R243) -/

theorem exec_of_topK {i : Instr} {n m : Fin 64} {off : BitVec 1} {k : BitVec 5} {merge : Bool}
    (hi : i = .vtopk (.v n) (.v m) off k ∧ merge = false ∨ i = .vtopkm (.v n) (.v m) off k ∧ merge = true) (s : State) :
    exec i s = .next (topK i (.v n) (.v m) (off == 1) merge (k.toNat + 1) s) := by
  rcases hi with ⟨rfl, rfl⟩ | ⟨rfl, rfl⟩ <;> rfl

theorem topKResults : TopKResults := by
  intro i s b n m off k merge d0 d1 a0 a1 l hi h hn hm hl h0 h1 h2 h3 hf ha cand r
  rw [exec_of_topK hi]
  refine next_eq (issue_ok h ?_)
  have hr : (decide (n.val ≤ 62) && decide (m.val ≤ 62)) = true := by rw [decide_eq_true hn, decide_eq_true hm]; rfl
  simp only [vNum, hr, need_true, hl, h0, h1, h2, h3, ok_bind]
  by_cases hc : merge = false ∧ l = 0
  · obtain ⟨rfl, rfl⟩ := hc
    rw [if_pos (by decide : (!false && (0 : W32) == 0) = true), if_pos ⟨rfl, rfl⟩, flag_ok hf]
    rfl
  · have hne : ¬ (!merge && l == 0) = true := by simpa using hc
    rw [if_neg hne, if_neg hc]
    simp only [State.arithTwo, flag_ok hf, State.alloc, ha, if_true, ok_bind]
    rfl

/-- Settles O11: the words across lanes by the operations that they start. -/
theorem crossLaneWordResults : Obligations.CrossLaneWordResults :=
  ⟨exchangeScanAndReductionResults, scalarReductionResults, distanceResults, topKResults⟩

/-! ## Block formats (R232 to R235) -/

theorem exec_qpack (d a : Opnd) (x : BitVec 1) (f : BitVec 3) (s : State) : exec (.qpack d a x f) s = execQpack d a x f s := rfl
theorem exec_qunpack (d a : Opnd) (x : BitVec 1) (f : BitVec 3) (s : State) : exec (.qunpack d a x f) s = execQunpack d a x f s := rfl
theorem exec_qscale (d a : Opnd) (x : BitVec 1) (f : BitVec 3) (s : State) : exec (.qscale d a x f) s = execQscale d a x f s := rfl

theorem allLanes_all : allLanes (~~~ 0#32) = .ok () := rfl

theorem writeBlock_putBlock {s : State} {b : Band} {d : Nat} {rs : List VReg} (h : s.canAlloc b rs.length 0 = true) :
    s.writeBlock b d rs = .ok (putBlock b d rs s) := by
  simp only [State.writeBlock, State.alloc, h, if_true, ok_bind]
  rfl

/-- Words of type n32 written to one register. -/
theorem vecDst_words {b : Band} {d : Opnd} {l : W32} {t : State} (g : Nat → Nat) (h : vputReady b 10 d l t = true) :
    t.vecDst b d (VReg.ofFn fun k => BitVec.ofNat 32 (g k)) l = .ok (vput b 10 d g l false t) := by
  rw [vecDst_put (by decide) h, vput, if_neg (by decide : ¬ typeBits 10 = 64)]
  rfl

/-- Settles O12: the three block words, all lanes enabled. -/
theorem blockFormatResults : Obligations.BlockFormatResults := by
  intro s b d a x f hl hf
  refine ⟨fun rs h ha hd hrs hr => ?_, fun img sc h ha hd himg hsc hr => ?_, fun e c r h hr hd => ?_⟩
  · rw [exec_qpack, execQpack]
    refine next_eq (issue_ok h ?_)
    have hn : (decide (a.val + blockRegs f.toNat ≤ 64) && decide (d.val ≤ 62)) = true := by rw [decide_eq_true ha, decide_eq_true hd]; rfl
    simp only [vNum, decide_eq_true hf, hn, need_true, hl, allLanes_all, hrs, ok_bind]
    rw [writeBlock_putBlock hr]
    rfl
  · rw [exec_qunpack, execQunpack]
    refine next_eq (issue_ok h ?_)
    have hn : (decide (a.val ≤ 62) && decide (d.val + blockRegs f.toNat ≤ 64)) = true := by rw [decide_eq_true ha, decide_eq_true hd]; rfl
    simp only [vNum, decide_eq_true hf, hn, need_true, hl, allLanes_all, himg, hsc, ok_bind]
    rw [writeBlock_putBlock (by rw [List.length_map, List.length_range]; exact hr), ok_bind]
    simp only [beq_iff_eq]
    rfl
  · rw [exec_qscale, execQscale]
    refine next_eq (issue_ok h ?_)
    simp only [decide_eq_true hf, need_true, hl, allLanes_all, hr, ok_bind]
    rw [vecDst_words (fun _ => _) hd]
    rfl

end Sys2Proof.Proofs.CrossLane
end

section
/-! SUPPORT. Loads, stores, atomics, mirror stores and prefetches as they issue (R194 to R209), and the typed spaces (R80, R164, R200). -/

namespace Sys2Proof.Proofs.MemoryWords

open Sys2Proof Sys2Proof.Machine Sys2Proof.Stated Sys2Proof.Laws Sys2Proof.Proofs.Pieces

/-! ## Checks of a word's meaning -/

/-- A check that is made in some case only, and passes. -/
theorem guarded {α : Type} {c : Prop} [Decidable c] {x : Try Unit} {k : Try α} (h : c → x = .ok ()) :
    (if c then (x >>= fun _ => k) else k) = k := by
  by_cases hc : c
  · rw [if_pos hc, h hc]
    rfl
  · rw [if_neg hc]

/-- A value that is read in one of two ways. -/
theorem chosen_bind {α β γ : Type} {c : Prop} [Decidable c] {u : Try α} {v : Try β} {f : β → α} {k : α → Try γ} {x : α}
    (h : if c then u = .ok x else ∃ y, v = .ok y ∧ x = f y) : (if c then u >>= k else v >>= fun y => (pure (f y) : Try α) >>= k) = k x := by
  by_cases hc : c
  · rw [if_pos hc] at h ⊢
    rw [h]
    rfl
  · rw [if_neg hc] at h ⊢
    obtain ⟨y, hy, rfl⟩ := h
    rw [hy]
    rfl

theorem laneList_isEmpty {l : W32} (h : l ≠ 0) : (laneList l).isEmpty = false := by
  rw [Bool.eq_false_iff]
  intro he
  refine h (BitVec.eq_of_getLsbD_eq fun i hi => ?_)
  have := List.filter_eq_nil_iff.1 (List.isEmpty_iff.1 he) i (List.mem_range.2 hi)
  rw [Bool.eq_false_of_not_eq_true this]
  exact BitVec.getLsbD_zero.symm

theorem laneList_zero : laneList 0 = [] := List.filter_eq_nil_iff.2 fun i _ => by
  rw [show (0 : W32).getLsbD i = false from BitVec.getLsbD_zero]
  exact Bool.false_ne_true

theorem memLanes_isEmpty {b : Band} {m : MemRef} {ea : Ea} {w : Nat} {vec : Bool} {l : W32} (h : l ≠ 0) :
    (b.memLanes m ea w vec l).isEmpty = false := by
  cases vec
  · rw [Band.memLanes, if_neg (by decide), if_neg h]
    rfl
  · rw [Band.memLanes, if_pos rfl, List.isEmpty_map, laneList_isEmpty h]

theorem memLanes_zero (b : Band) (m : MemRef) (ea : Ea) (w : Nat) (vec : Bool) : b.memLanes m ea w vec 0 = [] := by
  cases vec
  · rfl
  · rw [Band.memLanes, if_pos rfl, laneList_zero]
    rfl

section Reached

variable {b : Band} {s : State} {acc : Acc} {dest : Bool} {w : Nat} {ls : List (Nat × W64)} {ts : List LaneTr}

/-- R197: a weak access of the plain kind asks no alignment; any other has been checked. -/
theorem checkAlign_of_reached {strict : Bool} (h : Reached b s acc strict dest w ls ts) (hs : b.cls ≠ 0 ∨ strict = true) :
    checkAlign w ls = .ok () := by
  have := h.align
  rwa [if_neg fun hc => hs.elim (fun h => h hc.1) fun h => Bool.noConfusion (h.symm.trans hc.2)] at this

end Reached

/-! ## Loads and stores (R198, R199, R204) -/

section Access

variable {b : Band} {s : State} {d : Opnd} {m : MemRef} {l : W32} {ea : Ea} {ts : List LaneTr} {typ w : Nat}

theorem loadBody_ok {par : Bool} {min : Option W32} {since : Nat} {dest : Dest} {await : State → State} (he : elemOf b d = (typ, w))
    (hev : isVectorOpnd d = true → needEven d w = .ok ())
    (ha : Addressed b s (if par then { m with breg := 0 } else m) (if isVectorOpnd d then 32 * w else w) true l ea)
    (hv : b.versionMin s.cycle m par = .ok (min, since))
    (hr : Reached b s .load false false w (b.memLanes (if par then { m with breg := 0 } else m) ea w (isVectorOpnd d) l) ts)
    (hs : versionShort min ts = none) (hd : s.loadDest b d (isVectorOpnd d && w == 8) (if isVectorOpnd d then l else 1) = .ok (dest, await)) :
    loadBody d m par b s = .ok (.next
      ((await (((s.scIssue b.place.core b.cls).1).startOp b false (.load (accessOf s b typ w ts (fun _ => 0) dest)))).updateA b
        (if par then { m with breg := 0 } else m) ea)) := by
  have hi : b.indexReady m = .ok () := by
    have := ha.index
    cases par <;> exact this
  unfold loadBody
  simp only [he, guarded hev, ha.lanes, hi, ha.addr, memLanes_isEmpty ha.some, hv, flag_ok ha.flag, ha.sc rfl,
    guarded fun hc => checkAlign_of_reached hr (.inl hc), hr.walk, hr.trans, hr.device rfl, hr.locks, hr.aperture rfl, hs, hd, ok_bind,
    Bool.false_eq_true, if_false]
  rfl

theorem loadBody_noLanes (he : elemOf b d = (typ, w)) (hev : isVectorOpnd d = true → needEven d w = .ok ()) (hl : s.lanesOf b = .ok 0)
    (hi : b.indexReady m = .ok ()) (ha : s.effective b m (if isVectorOpnd d then 32 * w else w) = .ok ea) :
    loadBody d m false b s = .ok (.next (s.updateA b m ea)) := by
  unfold loadBody
  simp only [he, guarded hev, hl, hi, ha, memLanes_zero, List.isEmpty_nil, ok_bind, Bool.false_eq_true, if_false, if_true]
  rfl

theorem storeBody_ok {vec : Bool} {data : Nat → Nat} (he : elemOf b d = (typ, w))
    (hdata : if vec then s.lanesSrc b typ d = .ok data else ∃ x, s.storeScalar b typ d = .ok x ∧ data = fun _ => x)
    (ha : Addressed b s m (if vec then 32 * w else w) true l ea) (hr : Reached b s .store false true w (b.memLanes m ea w vec l) ts) :
    storeBody d m vec b s = .ok (.next
      (((if (b.cls = 4 ∨ b.cls = 5) ∧ 2 ≤ b.scope.toNat then ((s.scIssue b.place.core b.cls).1).invalidateL1 b.place.core
        else (s.scIssue b.place.core b.cls).1).startOp b false (.store (accessOf s b typ w ts data .none))).updateA b m ea)) := by
  have hcls : ((b.cls == 4 || b.cls == 5) && decide (2 ≤ b.scope.toNat)) = decide ((b.cls = 4 ∨ b.cls = 5) ∧ 2 ≤ b.scope.toNat) := by
    rw [Bool.decide_and, Bool.decide_or]
    rfl
  unfold storeBody
  simp only [he]
  rw [chosen_bind hdata]
  simp only [ha.lanes, ha.index, ha.addr, memLanes_isEmpty ha.some, flag_ok ha.flag, ha.sc rfl,
    guarded fun hc => checkAlign_of_reached hr (.inl hc), hr.walk, hr.trans, hr.device rfl, hr.locks, hr.aperture rfl, hcls, ok_bind,
    Bool.false_eq_true, if_false, decide_eq_true_eq]
  rfl

end Access

theorem memoryAccessesStart : MemoryAccessesStart := by
  intro i s b d m l ea ts h t w vec
  refine ⟨fun par min since dest await hi hev ha hv hr hs hd => ?_, fun vec data hi hdata ha hr => ?_, fun hi hev hl hx ha => ?_⟩
  · have hexec : ∀ t, exec i t = .next (issue i (loadBody d m par) t) := by
      rcases hi with ⟨rfl, rfl⟩ | ⟨rfl, rfl⟩ | ⟨rfl, rfl⟩ <;> exact fun _ => rfl
    rw [hexec]
    exact next_eq (issue_ok h (loadBody_ok (Prod.mk.eta (p := elemOf b d)).symm hev ha hv hr hs hd))
  · have hexec : ∀ t, exec i t = .next (issue i (storeBody d m vec) t) := by
      rcases hi with ⟨rfl, rfl⟩ | ⟨rfl, rfl⟩ <;> exact fun _ => rfl
    rw [hexec]
    exact next_eq (issue_ok h (storeBody_ok (Prod.mk.eta (p := elemOf b d)).symm hdata ha hr))
  · have hexec : ∀ t, exec i t = .next (issue i (loadBody d m false) t) := by
      rcases hi with rfl | rfl <;> exact fun _ => rfl
    rw [hexec]
    exact next_eq (issue_ok h (loadBody_noLanes (Prod.mk.eta (p := elemOf b d)).symm hev hl hx ha))

/-! ## Atomics (R206, R207) -/

theorem atomicBody_ok {k : AtomKind} {s : State} {b : Band} {d : Opnd} {m : MemRef} {src : Nat → W64 × W64} {l : W32} {ea : Ea}
    {ts : List LaneTr} {dest : Dest} {await : State → State} {w : Nat} (hw : typeBits b.typ / 8 = w) (hk : k.accepts b.typ = true)
    (hev : atomVector d m = true → needEven d w = .ok ()) (hsrc : s.atomSrc b k b.typ w d = .ok src)
    (ha : Addressed b s m (if atomVector d m then 32 * w else w) true l ea)
    (hr : Reached b s .atomic true true w (b.memLanes m ea w (atomVector d m) l) ts)
    (hd : s.atomDest b d w (if atomVector d m then l else 1) = .ok (dest, await)) :
    atomicBody k d m b s = .ok (.next
      ((await (((s.scIssue b.place.core b.cls).1).startOp b false (.atomic k (accessOf s b b.typ w ts (fun _ => 0) dest)
        (ts.map fun x => ⟨x.lane, (x.bytes.map Prod.fst).headD 0, (src x.lane).1, (src x.lane).2, 0⟩) b.sat 0))).updateA b m ea)) := by
  unfold atomicBody
  simp only [hw, guarded hev, ha.lanes, hk, Bool.or_true, need_true, hsrc, ha.index, ha.addr, memLanes_isEmpty ha.some, flag_ok ha.flag,
    ha.sc rfl, checkAlign_of_reached hr (.inr rfl), hr.walk, hr.trans, hr.locks, hd, ok_bind, Bool.false_eq_true, if_false]
  rfl

theorem exec_of_atomRule {i : Instr} {d : Opnd} {m : MemRef} {k : AtomKind} (h : atomRule i = some (d, m, k)) (s : State) :
    exec i s = .next (issue i (atomicBody k d m) s) := by
  unfold atomRule at h
  split at h <;> cases h <;> rfl

theorem atomicsStart : AtomicsStart := by
  intro i s b d m k src l ea ts dest await hi h hk t w vec hev hsrc ha hr hd
  rw [exec_of_atomRule hi, issue_ok h (atomicBody_ok rfl hk hev hsrc ha hr hd)]

/-! ## Mirror stores (R82, R203) -/

theorem exec_stm (d : Opnd) (m : MemRef) (s : State) : exec (.stm d m) s = .next (issue (.stm d m) (stmBody d m) s) := rfl

theorem wgOf_ok {s : State} {b : Band} {w : Workgroup} (h : s.wg? b.wg = some w) : s.wgOf b = .ok w := by
  rw [State.wgOf, h]

theorem illegalLanes_filter_nil {α : Type} {xs : List (Nat × α)} {p : Nat × α → Bool} (h : ∀ x ∈ xs, p x = false) :
    illegalLanes ((xs.filter p).map Prod.fst) = .ok () := by
  rw [List.filter_eq_nil_iff.2 fun x hx => by rw [h x hx]; exact Bool.false_ne_true]
  rfl

theorem find?_none_of {α : Type} {xs : List α} {p : α → Bool} (h : ∀ x ∈ xs, p x = false) : xs.find? p = none :=
  List.find?_eq_none.2 fun x hx => by rw [h x hx]; exact Bool.false_ne_true

/-- The lanes of a mirror store with the offsets that they store at. -/
def stmOffsets (d : Opnd) (l : W32) (ea : Ea) : List (Nat × Nat) :=
  if storeVector d then (laneList l).map fun k => (k, ea.e.toNat % 2 ^ 32 + 4 * k) else [(0, ea.e.toNat % 2 ^ 32)]

theorem stmBody_ok {s : State} {b : Band} {d : Opnd} {m : MemRef} {data : Nat → Nat} {l : W32} {ea : Ea} {wg : Workgroup}
    (hwg : s.wg? b.wg = some wg) (hdata : s.rawData b d = .ok data) (hl : s.lanesOf b = .ok l) (h0 : l ≠ 0)
    (hea : s.effective b m (if storeVector d then 128 else 8) = .ok ea) (hf : flagFree b false = true) (hm : (s.lsView wg).mirr = true)
    (h42 : ea.e.toNat < 2 ^ 42)
    (hoffs : ∀ x ∈ stmOffsets d l ea, x.2 < s.window wg.core (s.lsView wg).carve .sp / 2 ∧ x.2 % (if storeVector d then 4 else 8) = 0) :
    stmBody d m b s = .ok (.next
      ((if (s.stmTarget wg (fld ea.e 39 32) (fld ea.e 41 40)).isSome then
        s.startOp b false (.stm (fld ea.e 39 32) (fld ea.e 41 40)
          ((stmOffsets d l ea).map fun x => (laneBytes (if storeVector d then 4 else 8) (data x.1)).zipIdx.map fun y => (x.2 + y.2, y.1)).flatten)
      else s.sumBit b.launch mirrorFaultBit).updateA b m ea)) := by
  have hhalf : ∀ x ∈ stmOffsets d l ea, decide (s.window wg.core (s.lsView wg).carve .sp / 2 ≤ x.2) = false := fun x hx =>
    decide_eq_false (Nat.not_le.2 (hoffs x hx).1)
  have halign : ∀ x ∈ stmOffsets d l ea, (x.2 % spaceWidth (storeVector d) != 0) = false := fun x hx => by
    rw [show x.2 % spaceWidth (storeVector d) = 0 from (hoffs x hx).2]
    rfl
  have h42' : ¬ ea.e.toNat / 2 ^ 42 ≠ 0 := not_not.2 (Nat.div_eq_of_lt h42)
  have hofs : (if storeVector d then (laneList l).map fun i => (i, stmOff ea.e + 4 * i) else [(0, stmOff ea.e)]) = stmOffsets d l ea := rfl
  unfold stmBody
  simp only [hdata, hl, hea, if_neg h0, flag_ok hf, wgOf_ok hwg, hm, Bool.not_true, if_neg h42', hofs, illegalLanes_filter_nil hhalf,
    find?_none_of halign, ok_bind, Bool.false_eq_true, if_false]
  cases s.stmTarget wg (fld ea.e 39 32) (fld ea.e 41 40) <;> rfl

theorem mirrorStoresStart : MirrorStoresStart := by
  intro s b d m data l ea wg h t vec w offs hwg hdata hl h0 hea hf hm h42 hoffs
  rw [exec_stm]
  exact next_eq (issue_ok h (stmBody_ok hwg hdata hl h0 hea hf hm h42 hoffs))

/-! ## Prefetches (R205) -/

theorem exec_pref (m : MemRef) (s : State) : exec (.pref m) s = .next (issue (.pref m) (prefBody m) s) := rfl

theorem prefetchCompletes : PrefetchCompletes := by
  intro s b m l ea h hl hi ha
  rw [exec_pref]
  refine next_eq (issue_ok h ?_)
  simp only [prefBody, hl, hi, ha, ok_bind]
  rfl

/-- Settles O13: the words of memory by what their meanings come to where their lanes are reached. -/
theorem memoryWordsStart : Obligations.MemoryWordsStart := ⟨memoryAccessesStart, atomicsStart, mirrorStoresStart, prefetchCompletes⟩

end Sys2Proof.Proofs.MemoryWords
end

section
/-! SUPPORT. Typed-space loads and stores (R80, R164, R200, R202). -/

namespace Sys2Proof.Proofs.TypedSpaces

open Sys2Proof Sys2Proof.Machine Sys2Proof.Stated Sys2Proof.Laws Sys2Proof.Proofs.Pieces Sys2Proof.Proofs.MemoryWords

theorem exec_of_spaceLoadRule {i : Instr} {d : Opnd} {m : MemRef} {space : Space} (h : spaceLoadRule i = some (d, m, space)) (s : State) :
    exec i s = .next (issue i (spaceLoad space d m) s) := by
  unfold spaceLoadRule at h
  split at h <;> cases h <;> rfl

theorem exec_of_spaceStoreRule {i : Instr} {d : Opnd} {m : MemRef} {space : Space} {region : Bool}
    (h : spaceStoreRule i = some (d, m, space, region)) (s : State) : exec i s = .next (issue i (spaceStore space region d m) s) := by
  unfold spaceStoreRule at h
  split at h <;> cases h <;> rfl

section Words

variable {s : State} {b : Band} {d : Opnd} {m : MemRef} {space : Space} {l : W32} {ea : Ea} {wg : Workgroup}

/-- The bytes that a band reads at an offset of a space, through its overlay lines in SP (R164). -/
theorem spaceRead_eq (s : State) (b : Band) (space : Space) (wg : Workgroup) (a n : Nat) :
    (if (space == .sp) = true then s.readSp wg b (if (b.template || space != .sp) = true then 0 else (s.lsView wg).treg) a n
      else s.readSpace wg space a n) =
    if space = .sp then s.readSp wg b (if b.template then 0 else (s.lsView wg).treg) a n else s.readSpace wg space a n := by
  by_cases h : space = .sp
  · subst h
    rw [if_pos rfl, if_pos (beq_self_eq_true _), bne_self_eq_false, Bool.or_false]
  · rw [if_neg (by simpa using h), if_neg h]

theorem spaceLoad_ok {dest : Dest} {await : State → State} (hwg : s.wg? b.wg = some wg)
    (ha : Addressed b s m (if isVectorOpnd d then 128 else 8) false l ea)
    (hal : checkAlign (spaceWidth (isVectorOpnd d)) (b.memLanes m ea (spaceWidth (isVectorOpnd d)) (isVectorOpnd d) l) = .ok ())
    (ho : s.checkOffsets wg space (spaceWidth (isVectorOpnd d)) (b.memLanes m ea (spaceWidth (isVectorOpnd d)) (isVectorOpnd d) l) = .ok ())
    (hk : s.checkLocks b space wg.slot false (spaceWidth (isVectorOpnd d))
      (b.memLanes m ea (spaceWidth (isVectorOpnd d)) (isVectorOpnd d) l) = .ok ())
    (hdone : s.accessesDone b = true) (hd : s.loadDest b d false (if isVectorOpnd d then l else 1) = .ok (dest, await)) :
    spaceLoad space d m b s = .ok (.next ((await (s.startOp b false (.localLoad dest (localValue (isVectorOpnd d) l
      ((b.memLanes m ea (spaceWidth (isVectorOpnd d)) (isVectorOpnd d) l).map fun x =>
        (x.1, if space = .sp then s.readSp wg b (if b.template then 0 else (s.lsView wg).treg) x.2.toNat (spaceWidth (isVectorOpnd d))
          else s.readSpace wg space x.2.toNat (spaceWidth (isVectorOpnd d)))))))).updateA b m ea)) := by
  unfold spaceLoad
  simp only [ha.lanes, ha.index, ha.addr, memLanes_isEmpty ha.some, flag_ok ha.flag, hal, wgOf_ok hwg, ho, hk, hdone, holdUnless_true, hd,
    spaceRead_eq, ok_bind, Bool.false_eq_true, if_false]
  rfl

theorem spaceStore_ok {region : Bool} {data : Nat → Nat} {wg' : Workgroup} {lines : List (Nat × Nat)} (hwg : s.wg? b.wg = some wg)
    (hdata : s.rawData b d = .ok data) (hl : s.lanesOf b = .ok l) (h0 : l ≠ 0) (hi : b.indexReady m = .ok ())
    (hea : s.effective b m (if storeVector d then 128 else 8) = .ok ea)
    (hal : checkAlign (spaceWidth (storeVector d)) (b.memLanes m ea (spaceWidth (storeVector d)) (storeVector d) l) = .ok ())
    (ho : if region then (∃ x, s.bandLaunch b = some x ∧ x.lr.frz ≠ 15) ∧
        ∀ x ∈ b.memLanes m ea (spaceWidth (storeVector d)) (storeVector d) l, x.2.toNat + spaceWidth (storeVector d) ≤ (s.lsView wg).treg
      else s.checkOffsets wg space (spaceWidth (storeVector d)) (b.memLanes m ea (spaceWidth (storeVector d)) (storeVector d) l) = .ok ())
    (hf : flagFree b false = true)
    (hk : s.checkLocks b space wg.slot true (spaceWidth (storeVector d)) (b.memLanes m ea (spaceWidth (storeVector d)) (storeVector d) l) = .ok ())
    (hdone : s.accessesDone b = true)
    (hv : takeOverlays b.uid (if b.template ∨ space ≠ .sp then 0 else (s.lsView wg).treg)
      (b.memLanes m ea (spaceWidth (storeVector d)) (storeVector d) l) wg = .ok (wg', lines)) :
    spaceStore space region d m b s = .ok (.next
      ((((lines.foldl (fun u x => u.copyLine wg b (if b.template ∨ space ≠ .sp then 0 else (s.lsView wg).treg) x) s).setWg wg').storeLanes wg' space
        b.uid (if b.template ∨ space ≠ .sp then 0 else (s.lsView wg).treg) (spaceWidth (storeVector d)) data
        (b.memLanes m ea (spaceWidth (storeVector d)) (storeVector d) l)).updateA b m ea)) := by
  have htreg : (if (b.template || space != .sp) = true then 0 else (s.lsView wg).treg) = if b.template ∨ space ≠ .sp then 0 else (s.lsView wg).treg := by
    simp only [Bool.or_eq_true, bne_iff_ne]
  unfold spaceStore
  cases region with
  | true =>
    obtain ⟨⟨x, hx, hz⟩, hr⟩ := ho
    have hlanes : illegalLanes (((b.memLanes m ea (spaceWidth (storeVector d)) (storeVector d) l).filter fun x =>
        decide ((s.lsView wg).treg < x.2.toNat + spaceWidth (storeVector d))).map Prod.fst) = .ok () :=
      illegalLanes_filter_nil fun x hx => decide_eq_false (Nat.not_lt.2 (hr x hx))
    have hz' : (x.lr.frz == 15) = false := beq_eq_false_iff_ne.2 hz
    simp only [hdata, hl, hi, hea, wgOf_ok hwg, memLanes_isEmpty h0, hx, hz', flag_ok hf, hal, hlanes, hk, hdone, holdUnless_true, htreg, hv,
      ok_bind, Bool.and_false, Bool.false_eq_true, if_false, if_true]
    rfl
  | false =>
    have ho' : s.checkOffsets wg space (spaceWidth (storeVector d)) (b.memLanes m ea (spaceWidth (storeVector d)) (storeVector d) l) = .ok () := ho
    simp only [hdata, hl, hi, hea, wgOf_ok hwg, memLanes_isEmpty h0, flag_ok hf, hal, ho', hk, hdone, holdUnless_true, htreg, hv,
      ok_bind, Bool.false_and, Bool.false_eq_true, if_false]
    rfl

end Words

/-- Settles O14: the typed-space words by their shared load and store. -/
theorem typedSpaceResults : Obligations.TypedSpaceResults := by
  intro i s b d m space l ea wg h t hwg
  refine ⟨fun dest await hi ha hal ho hk hdone hd => ?_,
    fun region data wg' lines hi hdata hl h0 hx hea hal ho hf hk hdone hv => ?_⟩
  · rw [exec_of_spaceLoadRule hi]
    exact next_eq (issue_ok h (spaceLoad_ok hwg ha hal ho hk hdone hd))
  · rw [exec_of_spaceStoreRule hi]
    exact next_eq (issue_ok h (spaceStore_ok hwg hdata hl h0 hx hea hal ho hf hk hdone hv))

end Sys2Proof.Proofs.TypedSpaces
end

section
/-! SUPPORT. Fences and TLB invalidation (R62, R126, R127), ownership tokens (R85, R86). -/

namespace Sys2Proof.Proofs.Ordering

open Sys2Proof Sys2Proof.Machine Sys2Proof.Stated Sys2Proof.Laws Sys2Proof.Proofs.Pieces

/-! ## Fences (R73, R126, R127) -/

theorem exec_fence (s : State) : exec .fence s = .next (issue .fence fenceBody s) := rfl
theorem exec_fencea (a c : Opnd) (s : State) : exec (.fencea a c) s = .next (issue (.fencea a c) (fenceaBody a c) s) := rfl

theorem holdUnless_false : holdUnless false = .error .hold := rfl

theorem fencesComplete : FencesComplete := by
  refine fun s b => ⟨fun h => ⟨fun hd => ?_, fun hd => ?_⟩, fun a c base n h hbase hn hb hs hd => ?_⟩
  · rw [exec_fence, issue_ok h]
    simp only [fenceBody, hd, holdUnless_true, ok_bind]
    rfl
  · rw [exec_fence, issue_hold h]
    simp only [fenceBody, hd, holdUnless_false, error_bind]
  · rw [exec_fencea]
    refine next_eq (issue_ok h ?_)
    have hr : ¬ (2 ^ 57 ≤ base.toNat ∨ 2 ^ 57 < base.toNat + n.toNat) := by omega
    simp only [fenceaBody, hbase, hn, if_neg hr, ok_bind]
    by_cases h0 : n = 0
    · rw [if_pos h0, if_pos h0]
      rfl
    · rw [if_neg h0, if_neg h0, hd h0]
      rfl

/-! ## TLB invalidation (R62) -/

theorem exec_tlbi (a : Opnd) (s : State) : exec (.tlbi a) s = .next (issue (.tlbi a) (tlbiBody a) s) := rfl
theorem exec_tlbiComplete (u : Nat) (s : State) : exec (.tlbiComplete u) s = .next (tlbiComplete u s) := rfl

theorem tlbInvalidationResults : TlbInvalidationResults := by
  refine ⟨fun s b a desc l h hdesc h58 h51 hf hl => ?_, fun s o desc frames n ho hk hx hd => ?_, fun s o x desc frames n ho hk hx hn hw => ?_⟩
  · rw [exec_tlbi]
    refine next_eq (issue_ok h ?_)
    have hr : ¬ (desc.getLsbD 58 = true ∨ fld desc 51 49 ≠ 0) :=
      not_or.2 ⟨by rw [h58]; exact Bool.false_ne_true, not_not.2 h51⟩
    simp only [tlbiBody, hdesc, if_neg hr, flag_ok hf, hl, ok_bind]
    rfl
  · have hops : (s.ops.any fun x => decide (x.uid < n) && State.tlbiWaits (fld desc 63 62) o.place.core frames x) = false :=
      List.any_eq_false.2 fun x hm => by
        by_cases hu : x.uid < n
        · rw [hx x hm hu, Bool.and_false]; decide
        · rw [decide_eq_false hu]; exact Bool.false_ne_true
    have hl1 : s.l1.any (State.tlbiDirty (fld desc 63 62) o.place.core frames) = false :=
      List.any_eq_false.2 fun x hm => by rw [hd x hm]; decide
    simp only [exec_tlbiComplete, tlbiComplete, ho, hk, hops, hl1, Bool.or_self, Bool.false_eq_true, if_false]
    rfl
  · have hops : (s.ops.any fun x => decide (x.uid < n) && State.tlbiWaits (fld desc 63 62) o.place.core frames x) = true :=
      List.any_eq_true.2 ⟨x, hx, by rw [hw, decide_eq_true hn]; rfl⟩
    simp only [exec_tlbiComplete, tlbiComplete, ho, hk, hops, Bool.true_or, if_true]

/-- Settles O15: fences by their two bodies, TLBI by its drop of entries and its end. -/
theorem fenceAndInvalidationResults : Obligations.FenceAndInvalidationResults := ⟨fencesComplete, tlbInvalidationResults⟩

/-! ## Ownership tokens (R85, R86) -/

theorem exec_acqrg (d a e : Opnd) (s : State) : exec (.acqrg d a e) s = .next (issue (.acqrg d a e) (acqrgBody d a e) s) := rfl
theorem exec_relrg (d a e : Opnd) (s : State) : exec (.relrg d a e) s = .next (issue (.relrg d a e) (relrgBody d a e) s) := rfl
theorem exec_acqrgTimeout (q : Place) (s : State) : exec (.acqrgTimeout q) s = .next (acqrgTimeout q s) := rfl
theorem exec_relrgComplete (u : Nat) (s : State) : exec (.relrgComplete u) s = .next (relrgComplete u s) := rfl

theorem statusDst_ok {s : State} {b : Band} {d : Opnd} (x : W64) (h : statusReady b d s) : s.statusDst b d x = .ok (putStatus b d x s) := by
  rcases h with rfl | ⟨n, rfl, ha⟩
  · rfl
  · exact Control.writeS_of_canAlloc n.val x ha

/-- The status that the table of a core's die gives an ACQRG, by what it meets there. -/
def statusOf : TokenState → W64
  | .mine => 1
  | .overlap => 3
  | .other => 2
  | .full => 4
  | .free => 0

theorem tokenStatus_eq (s : State) (core p n : Nat) : tokenStatus s core p n = statusOf (s.tokenState core p n) := by
  unfold tokenStatus State.tokenState Token.overlaps dieOf
  simp only [Bool.and_assoc]
  split
  · rfl
  split
  · rfl
  split
  · rfl
  split <;> rfl

theorem tokenTaken_eq (s : State) (core slot p n : Nat) : tokenTaken s core slot p n =
    match s.tokenState core p n with
    | .free => s.takeToken core slot p n
    | .mine => s.invalidateL1 core
    | _ => s := by
  rw [tokenTaken, tokenStatus_eq]
  cases s.tokenState core p n <;> rfl

theorem tokenTimeout_eq (s : State) (core p n : Nat) : s.tokenTimeout core p n = if tokenStatus s core p n = 4 then 4 else 2 := by
  rw [State.tokenTimeout, tokenStatus_eq]
  cases s.tokenState core p n <;> rfl

/-- R85: an ACQRG that its table answers at once takes what that leaves. -/
theorem tryToken_eq {s : State} {core slot p n : Nat} (h : tokenStatus s core p n = 0 ∨ tokenStatus s core p n = 1 ∨ tokenStatus s core p n = 3) :
    s.tryToken core slot p n = some (tokenStatus s core p n, tokenTaken s core slot p n) := by
  rw [tokenTaken_eq, State.tryToken]
  rw [tokenStatus_eq] at h ⊢
  cases hs : s.tokenState core p n <;> rw [hs] at h
  case other => exact absurd h (by decide)
  case full => exact absurd h (by decide)
  all_goals rfl

theorem tryToken_none {s : State} {core slot p n : Nat} (h : tokenStatus s core p n = 2 ∨ tokenStatus s core p n = 4) :
    s.tryToken core slot p n = none ∧ tokenTaken s core slot p n = s ∧ s.tokenTimeout core p n = tokenStatus s core p n := by
  rw [tokenTaken_eq, State.tryToken, tokenTimeout_eq]
  rw [tokenStatus_eq] at h ⊢
  cases hs : s.tokenState core p n <;> rw [hs] at h
  case other => exact ⟨rfl, rfl, rfl⟩
  case full => exact ⟨rfl, rfl, rfl⟩
  all_goals exact absurd h (by decide)

theorem tokenStatus_cases (s : State) (core p n : Nat) :
    (tokenStatus s core p n = 0 ∨ tokenStatus s core p n = 1 ∨ tokenStatus s core p n = 3) ∨
      tokenStatus s core p n = 2 ∨ tokenStatus s core p n = 4 := by
  rw [tokenStatus_eq]
  cases s.tokenState core p n <;> decide

section Acquire

variable {s : State} {b : Band} {d a e : Opnd} {desc : W64} {p n : Nat}

/-- An ACQRG that does not come from the end of a wait tries the table. -/
theorem acqrgBody_fresh (hw : freshly b) (he : s.scalarSrc b false e = .ok desc) (hr : s.regionOf b a desc = .ok (p, n))
    (hf : flagFree b false = true) :
    acqrgBody d a e b s = (match s.tryToken b.place.core (slotOf s b) p n with
      | some (st, t) => t.statusDst b d st >>= fun u => .ok (.next u)
      | none => if fld desc 63 32 = 0 then s.statusDst b d (s.tokenTimeout b.place.core p n) >>= fun u => .ok (.next u)
        else .ok (.waiting (s.holdAt b (.acqrg p n (b.deadline s.cycle (fld desc 63 32)))))) := by
  unfold acqrgBody
  split
  next st h => exact absurd h (hw st)
  · simp only [he, hr, flag_ok hf, ok_bind]
    rfl

theorem acqrgBody_ended {st : W64} (hw : b.wait = some (.done st)) (hd : statusReady b d s) :
    acqrgBody d a e b s = .ok (.next (putStatus b d st s)) := by
  unfold acqrgBody
  rw [hw]
  exact congrArg (· >>= _) (statusDst_ok st hd)

end Acquire

theorem acquireRegionResults : AcquireRegionResults := by
  refine ⟨fun s b d a e desc p n h hw he hr hf => ⟨fun hst hd => ?_, fun hst hne => ?_⟩, fun s b d a e st h hw hd => ?_⟩
  · rw [exec_acqrg]
    refine next_eq (issue_ok h ?_)
    rw [acqrgBody_fresh hw he hr hf]
    rcases tokenStatus_cases (acting b s) b.place.core p n with hc | hc
    · rw [tryToken_eq hc]
      exact congrArg (· >>= _) (statusDst_ok _ hd)
    · obtain ⟨hnone, htaken, htime⟩ := tryToken_none (slot := slotOf (acting b s) b) hc
      have h0 : fld desc 63 32 = 0 := by
        have hc' : tokenStatus s b.place.core p n = 2 ∨ tokenStatus s b.place.core p n = 4 := hc
        rcases hst with h1 | h1 | h1 | h1
        · rw [h1] at hc'; exact absurd hc' (by decide)
        · rw [h1] at hc'; exact absurd hc' (by decide)
        · rw [h1] at hc'; exact absurd hc' (by decide)
        · exact h1
      have htaken' : tokenTaken (acting b s) b.place.core (slotOf s b) p n = acting b s := htaken
      rw [htaken'] at hd ⊢
      rw [hnone, htime]
      dsimp only
      rw [if_pos h0, statusDst_ok _ hd]
      rfl
  · rw [exec_acqrg]
    refine next_eq (issue_wait h ?_)
    obtain ⟨hnone, -, -⟩ := tryToken_none (s := acting b s) (slot := slotOf (acting b s) b) hst
    rw [acqrgBody_fresh hw he hr hf, hnone]
    dsimp only
    rw [if_neg hne]
    rfl
  · rw [exec_acqrg]
    exact next_eq (issue_ok h (acqrgBody_ended hw hd))

theorem acquireTimeoutEndsWait : AcquireTimeoutEndsWait := by
  refine fun s b q p n dl hb hw => ⟨fun hdl => ?_, fun hdl => ?_⟩
  · simp only [exec_acqrgTimeout, acqrgTimeout, hb, hw, if_pos hdl, tokenTimeout_eq]
    rfl
  · simp only [exec_acqrgTimeout, acqrgTimeout, hb, hw, if_neg (Nat.not_le.2 hdl)]

theorem releaseRegionResults : ReleaseRegionResults := by
  refine ⟨fun s b d a e desc p n h he hr hf hd => ?_, fun s o core p n dest ho hk hd ht => ⟨_, rfl, ?_⟩⟩
  · rw [exec_relrg]
    refine next_eq (issue_ok h ?_)
    simp only [relrgBody, he, hr, flag_ok hf, ok_bind]
    by_cases ht : s.holdsToken b.place.core p n = true
    · have ht' : (acting b s).holdsToken b.place.core p n = true := ht
      rw [if_pos ht, if_pos ht']
      rcases hd with rfl | ⟨k, rfl, ha⟩
      · rfl
      · simp only [State.alloc, ha, if_true, ok_bind]
        rfl
    · have ht' : ¬ (acting b s).holdsToken b.place.core p n = true := ht
      rw [if_neg ht, if_neg ht', statusDst_ok 5 hd]
      rfl
  · simp only [relrgComplete, ho, hk, hd, ht, Bool.not_true, Bool.false_eq_true, if_false, if_true]
    rfl

/-- Settles O16: the table's answers to ACQRG, its deadline, and the release. -/
theorem regionTokenResults : Obligations.RegionTokenResults := ⟨acquireRegionResults, acquireTimeoutEndsWait, releaseRegionResults⟩

end Sys2Proof.Proofs.Ordering
end

section
/-! SUPPORT. Monitors (R214, R215), barriers (R281) and the superstep barrier (R83, R282). -/

namespace Sys2Proof.Proofs.Waiting

open Sys2Proof Sys2Proof.Machine Sys2Proof.Stated Sys2Proof.Laws Sys2Proof.Proofs.Pieces Sys2Proof.Proofs.Ordering
open Sys2Proof.Proofs.MemoryWords

/-! ## Monitors -/

theorem exec_monarm (k : BitVec 2) (m : MemRef) (s : State) : exec (.monarm k m) s = .next (issue (.monarm k m) (monarmBody k.toNat m) s) := rfl
theorem exec_monwait (d : Opnd) (k : BitVec 2) (e : Opnd) (s : State) :
    exec (.monwait d k e) s = .next (issue (.monwait d k e) (monwaitBody d k.toNat e) s) := rfl
theorem exec_monwaitTimeout (q : Place) (s : State) : exec (.monwaitTimeout q) s = .next (monwaitTimeout q s) := rfl

theorem checkAlign_one {w : Nat} {a : W64} (i : Nat) (h : a.toNat % w = 0) : checkAlign w [(i, a)] = .ok () := by
  rw [checkAlign, find?_none_of fun x hx => by rw [List.mem_singleton.1 hx, h]; rfl]

section Monitor

variable {s : State} {b : Band} {k : Nat} {mon : Monitor}

theorem monarmBody_ok {m : MemRef} {ea : Ea} {x : LaneTr} (hea : s.effective b m 8 = .ok ea) (hf : flagFree b false = true)
    (ha : ea.e.toNat % 8 = 0) (hw : s.walkFirst (s.bandCtx b) .load 8 [(0, ea.e)] = .ok ())
    (ht : s.translateLanes (s.bandCtx b) .load true 8 [(0, ea.e)] = .ok [x]) (hm : (b.monitor? k).isSome ∨ s.monitorsOf b.place.core < 64) :
    monarmBody k m b s = .ok (.next ((s.modBand b.uid fun c =>
      { c with monitors := (c.monitors.filter fun y => y.k != k) ++ [⟨k, (x.bytes.map Prod.fst).headD 0⟩] }).updateA b m ea)) := by
  have hroom : ¬ ((b.monitor? k).isNone && decide (64 ≤ s.monitorsOf b.place.core)) = true := by
    rw [Bool.and_eq_true, decide_eq_true_eq]
    rintro ⟨hn, h64⟩
    rcases hm with hs | hs
    · rw [Option.isNone_iff_eq_none.1 hn] at hs
      cases hs
    · omega
  unfold monarmBody
  simp only [hea, flag_ok hf, checkAlign_one 0 ha, hw, ht, if_neg hroom, ok_bind]
  rfl

/-- R120, R133, R134: the end of a MONWAIT on a readable word. -/
theorem monEnd_ok {d : Opnd} {st : W64} (hm : b.monitor? k = some mon) (hr : s.readOut (s.monPa b mon / 32 * 32) = .ok) :
    let v := s.l1Update b.place.core (s.monPa b mon) (~~~ 0#32) (s.atom (s.monPa b mon / 32 * 32))
    let off := v.modBand b.uid fun c => { c with monitors := c.monitors.filter fun y => y.k != k }
    let t := if st = 0 then off.acquireAt b (if v.isRecord (v.monPa b mon) then 5 else b.scope.toNat) else off
    statusReady b d t → s.monEnd b k d st = .ok (putStatus b d st t) := by
  intro v off t hd
  have hr' : (s.readOut (s.monPa b mon / 32 * 32) != ReadOut.ok) = false := by rw [hr]; rfl
  have : s.monEnd b k d st = t.statusDst b d st := by
    unfold State.monEnd
    simp only [hm, hr', Bool.false_eq_true, if_false, Option.any_some]
    rfl
  rw [this, statusDst_ok st hd]

theorem monwaitBody_fresh {d : Opnd} {n : Fin 64} {e ctl : W64} (hw : freshly b) (he : b.readS n.val = .ok e)
    (hc : b.readS (n.val + 1) = .ok ctl) (h3 : fld ctl 63 60 ≤ 3) (h0 : fld ctl 59 32 = 0) (hm : b.monitor? k = some mon)
    (hnow : s.readNow b false [s.monPa b mon] = true) (hr : s.readOut (s.monPa b mon / 32 * 32) = .ok) :
    let u := s.scrub (s.monPa b mon / 32 * 32)
    monwaitBody d k (.s n) b s =
      if condMet (fld ctl 63 60) (u.word (s.monPa b mon)) e then u.monEnd b k d 0 >>= fun t => .ok (.next t)
      else if fld ctl 31 0 = 0 then u.monEnd b k d 1 >>= fun t => .ok (.next t)
      else .ok (.waiting (u.holdAt b (.monitor k (fld ctl 63 60) e (b.deadline u.cycle (fld ctl 31 0))))) := by
  have hctl : ¬ (3 < fld ctl 63 60 ∨ fld ctl 59 32 ≠ 0) := by omega
  unfold monwaitBody
  dsimp only
  split
  next st h => exact absurd h (hw st)
  · simp only [he, hc, if_neg hctl, hm, hnow, hr, holdUnless_true, ok_bind]
    rfl

theorem monwaitBody_ended {d : Opnd} {n : Fin 64} {st : W64} (hw : b.wait = some (.done st)) :
    monwaitBody d k (.s n) b s = s.monEnd b k d st >>= fun t => .ok (.next t) := by
  unfold monwaitBody
  rw [hw]
  rfl

end Monitor

/-- Settles O17: MONARM and MONWAIT by their bodies, the end of a wait by monEnd_ok. -/
theorem monitorResults : Obligations.MonitorResults := by
  refine ⟨fun s b k m ea x h hea hf ha hw ht hm => ?_, fun s b k d n e ctl mon h hw he hc h3 h0 hm hnow hr hr' => ?_,
    fun s b k d n st mon h hw hm hr hd => ?_, fun s b q k cond dl e mon hb hw hm hdl => ?_⟩
  · rw [exec_monarm]
    exact next_eq (issue_ok h (monarmBody_ok hea hf ha hw ht hm))
  · have hbody := monwaitBody_fresh (s := acting b s) (d := d) hw he hc h3 h0 hm hnow hr
    refine ⟨fun hmet hd => ?_, fun hmet hz hd => ?_, fun hmet hz => ?_⟩
    · rw [exec_monwait]
      refine next_eq (issue_ok h ?_)
      rw [hbody, if_pos hmet, monEnd_ok (st := 0) hm hr' hd]
      rfl
    · rw [exec_monwait]
      refine next_eq (issue_ok h ?_)
      rw [hbody, hmet, if_neg Bool.false_ne_true, if_pos hz, monEnd_ok (st := 1) hm hr' hd]
      rfl
    · rw [exec_monwait]
      refine next_eq (issue_wait h (t := _) ?_)
      rw [hbody, hmet, if_neg Bool.false_ne_true, if_neg hz]
      rfl
  · rw [exec_monwait]
    refine next_eq (issue_ok h ?_)
    rw [monwaitBody_ended hw, monEnd_ok hm hr hd]
    rfl
  · have hmet : (!b.parked && condMet cond (s.word (s.monPa b mon)) e) =
        decide (b.parked = false ∧ condMet cond (s.word (s.monPa b mon)) e = true) := by
      cases b.parked <;> simp
    simp only [exec_monwaitTimeout, monwaitTimeout, hb, hw, if_pos hdl, hm, hmet, decide_eq_true_eq]
    rfl

/-! ## Barriers (R281) -/

theorem exec_bar (d a : Opnd) (k : BitVec 2) (s : State) : exec (.bar d a k) s = .next (issue (.bar d a k) (barBody d a k.toNat) s) := rfl
theorem exec_barTimeout (wg k : Nat) (s : State) : exec (.barTimeout wg k) s = .next (barTimeout wg k s) := rfl

section Bar

variable {s : State} {b : Band} {d a : Opnd} {k : Nat}

theorem barBody_ended {st : W64} (hw : b.wait = some (.done st)) (hd : statusReady b d s) :
    barBody d a k b s = .ok (.next (putStatus b d st s)) := by
  unfold barBody
  rw [hw]
  exact congrArg (· >>= _) (statusDst_ok st hd)

theorem barBody_fresh {n : W64} {w : Workgroup} (hw : freshly b) (hn : s.scalarSrc b false a = .ok n) (hdone : s.accessesDone b = true)
    (hwg : (s.endLateBar b.wg k).wg? b.wg = some w) :
    let u := s.endLateBar b.wg k
    let inst := w.arrive k b.pos (deadlineOf b s.cycle (fld n 31 0))
    barBody d a k b s =
      if (u.wgBands w.uid).all fun x => inst.arrived.contains x.pos then (u.releaseBar w.uid k 0).statusDst b d 0 >>= fun t => .ok (.next t)
      else .ok (.waiting ((u.setWg (w.setBar inst)).holdAt b (.bar k))) := by
  unfold barBody
  split
  next st h => exact absurd h (hw st)
  · simp only [State.barTimeoutOf, hn, hdone, holdUnless_true, wgOf_ok hwg, ok_bind]
    rfl

end Bar

theorem all_wgBands (s : State) (wg : Nat) (ps : List Nat) :
    ((s.wgBands wg).all fun x => ps.contains x.pos) = true ↔ ∀ c ∈ s.bands, c.wg = wg → c.pos ∈ ps := by
  simp [State.wgBands, List.all_filter, imp_iff_not_or]

theorem endLateBar_eq {s : State} {wg k : Nat} {w : Workgroup} {x : BarInst} (hw : s.wg? wg = some w) (hx : w.bar? k = some x) :
    s.endLateBar wg k = if x.late s.cycle then s.releaseBar wg k 1 else s := by
  simp only [State.endLateBar, hw, Option.bind_some, hx]

theorem late_iff (x : BarInst) (n : Nat) : x.late n = true ↔ ∃ dl, x.deadline = some dl ∧ dl < n := by
  unfold BarInst.late
  cases x.deadline <;> simp

theorem acting_cycle (b : Band) (s : State) : (acting b s).cycle = s.cycle := rfl

theorem barrierResults : BarrierResults := by
  refine ⟨fun s b d a k w n h hw hn hdone hwg => ⟨fun hall hd => ?_, fun hsome => ?_⟩, fun s b d a k st h hw hd => ?_,
    fun s wg k w x hw hx => ?_, fun s wg k dl w ps hw hx hdl => ?_⟩
  · rw [exec_bar]
    refine next_eq (issue_ok h ?_)
    rw [barBody_fresh hw hn hdone hwg, acting_cycle, if_pos ((all_wgBands ..).2 hall)]
    exact congrArg (· >>= _) (statusDst_ok 0 hd)
  · rw [exec_bar]
    refine next_eq (issue_wait h ?_)
    obtain ⟨c, hc, hcw, hcp⟩ := hsome
    rw [barBody_fresh hw hn hdone hwg, acting_cycle, if_neg fun hall => hcp ((all_wgBands ..).1 hall c hc hcw)]
    rfl
  · rw [exec_bar]
    exact next_eq (issue_ok h (barBody_ended hw hd))
  · rw [endLateBar_eq hw hx]
    by_cases hl : ∃ dl, x.deadline = some dl ∧ dl < s.cycle
    · rw [if_pos hl, if_pos ((late_iff ..).2 hl)]
      rfl
    · rw [if_neg hl, if_neg (mt (late_iff ..).1 hl)]
  · simp only [exec_barTimeout, barTimeout, hw, Option.bind_some, hx, if_pos hdl]
    rfl

/-! ## The superstep barrier (R83, R282) -/

theorem exec_swaph (d a : Opnd) (s : State) : exec (.swaph d a) s = .next (issue (.swaph d a) (swaphBody d a) s) := rfl
theorem exec_swaphSwap (u k : Nat) (s : State) : exec (.swaphSwap u k) s = .next (swaphSwap u k s) := rfl
theorem exec_swaphTimeout (u k : Nat) (s : State) : exec (.swaphTimeout u k) s = .next (swaphTimeout u k s) := rfl

section Swap

variable {s : State} {b : Band} {d a : Opnd} {w : Workgroup} {l : Launch}

theorem endLateSwap_early {u k : Nat} (h : ∀ dl, s.swapDeadline u k = some (some dl) → s.cycle ≤ dl) : s.endLateSwap u k = s := by
  unfold State.endLateSwap
  split
  next dl hdl => rw [decide_eq_false (Nat.not_lt.2 (h dl hdl)), Bool.false_and, if_neg Bool.false_ne_true]
  · rfl

theorem swaphBody_fresh {n : W64} (hw : freshly b) (hwg : s.wg? b.wg = some w) (hl : s.bandLaunch b = some l) (hm : l.lr.mirr = true)
    (hn : s.scalarSrc b false a = .ok n) (hdone : s.memoryDone b = true)
    (hdl : ∀ dl, s.swapDeadline b.launch (l.domInst w) = some (some dl) → s.cycle ≤ dl) :
    swaphBody d a b s = .ok (.waiting ((s.setWg (w.setBar (w.arrive 4 b.pos
      ((s.swapDeadline b.launch (l.domInst w)).getD (deadlineOf b s.cycle (fld n 31 0)))))).holdAt b .swaph)) := by
  unfold swaphBody
  simp only [wgOf_ok hwg, hl, hm, Bool.not_true, Bool.false_eq_true, if_false, ok_bind]
  split
  next st h => exact absurd h (hw st)
  · simp only [State.barTimeoutOf, hn, hdone, holdUnless_true, endLateSwap_early hdl, wgOf_ok hwg, ok_bind]
    rfl

theorem swaphBody_ended {st : W64} (hw : b.wait = some (.done st)) (hwg : s.wg? b.wg = some w) (hl : s.bandLaunch b = some l)
    (hm : l.lr.mirr = true) (hd : statusReady b d s) : swaphBody d a b s = .ok (.next (putStatus b d st s)) := by
  unfold swaphBody
  simp only [wgOf_ok hwg, hl, hm, hw, statusDst_ok st hd, Bool.not_true, Bool.false_eq_true, if_false, ok_bind]
  rfl

end Swap

theorem contains_map_uid (ws : List Workgroup) (u : Nat) : (ws.map Workgroup.uid).contains u = ws.any fun x => x.uid == u := by
  rw [Bool.eq_iff_iff, List.contains_iff_mem, List.any_eq_true]
  simp only [List.mem_map, beq_iff_eq]

/-- The state with the halves of the workgroups that `p` picks turned round (R282). -/
def flipHalves (p : Workgroup → Bool) (s : State) : State :=
  { s with wgs := s.wgs.map fun w => if p w then { w with half := !w.half } else w }

/-- A workgroup's turned half is nothing that its superstep barrier depends on. -/
theorem instWgs_uids_flip (s : State) (p : Workgroup → Bool) (u k : Nat) :
    ((flipHalves p s).instWgs u k).map Workgroup.uid = (s.instWgs u k).map Workgroup.uid := by
  unfold State.instWgs State.launch? flipHalves
  dsimp only
  split
  next l _ =>
    rw [List.filter_map, List.map_map]
    have huid : ∀ w : Workgroup, (if p w then { w with half := !w.half } else w).uid = w.uid := fun w => by split <;> rfl
    have hpred : ((fun w : Workgroup => w.launch == u && w.resident && l.domInst w == k) ∘ fun w => if p w then { w with half := !w.half } else w) =
        fun w => w.launch == u && w.resident && l.domInst w == k := by
      funext w
      simp only [Function.comp]
      split <;> rfl
    rw [hpred]
    exact List.map_congr_left fun w _ => huid w
  · rfl

theorem foldl_invalidateL1_kept (ws : List Workgroup) : ∀ s : State,
    (ws.foldl (fun s w => s.invalidateL1 w.core) s).wgs = s.wgs ∧ (ws.foldl (fun s w => s.invalidateL1 w.core) s).bands = s.bands := by
  induction ws with
  | nil => exact fun _ => ⟨rfl, rfl⟩
  | cons w ws ih => exact fun s => ih (s.invalidateL1 w.core)

theorem superstepResults : SuperstepResults := by
  refine ⟨fun s b d a w l n h hw hwg hl hm hn hdone hdl => ?_, fun s b d a w l st h hw hwg hl hm hd => ?_, fun s u k ha hs => ⟨_, rfl, ?_⟩,
    fun s u k dl hdl hc ha => ⟨_, rfl, ?_⟩⟩
  · rw [exec_swaph]
    refine next_eq (issue_wait h ?_)
    rw [swaphBody_fresh hw hwg hl hm hn hdone hdl]
    rfl
  · rw [exec_swaph]
    exact next_eq (issue_ok h (swaphBody_ended hw hwg hl hm hd))
  · have hrun : swaphSwap u k s = (s.instWgs u k).foldl (fun s w => s.invalidateL1 w.core)
        ((flipHalves (fun w => (s.instWgs u k).any fun x => x.uid == w.uid) s).releaseSwap u k 0) := by
      unfold swaphSwap
      rw [ha, hs]
      rfl
    obtain ⟨hwgs, hbands⟩ := foldl_invalidateL1_kept (s.instWgs u k)
      ((flipHalves (fun w => (s.instWgs u k).any fun x => x.uid == w.uid) s).releaseSwap u k 0)
    rw [hrun, hwgs, hbands]
    unfold State.releaseSwap
    simp only [instWgs_uids_flip, contains_map_uid]
    refine ⟨?_, rfl⟩
    simp only [flipHalves]
    rw [List.map_map]
    refine List.map_congr_left fun w _ => ?_
    simp only [Function.comp]
    by_cases hc : ((s.instWgs u k).any fun x => x.uid == w.uid) = true
    · rw [if_pos hc, if_pos hc, if_pos hc]
      rfl
    · rw [if_neg hc, if_neg hc, if_neg hc]
  · have : swaphTimeout u k s = s.releaseSwap u k 1 := by
      simp only [swaphTimeout, hdl, decide_eq_true hc, ha, Bool.not_false, Bool.and_self, if_true]
    rw [this]
    unfold State.releaseSwap
    simp only [contains_map_uid]
    exact ⟨rfl, rfl⟩

/-- Settles O18: BAR and SWAPH by their bodies, the releases by what they leave of workgroups and bands. -/
theorem barrierAndSuperstepResults : Obligations.BarrierAndSuperstepResults := ⟨barrierResults, superstepResults⟩

end Sys2Proof.Proofs.Waiting
end

section
/-! SUPPORT. The matrix unit (R245 to R263): the B stage, batches, MMA and its execution, and the moves into and out of C. -/

namespace Sys2Proof.Proofs.MatrixUnit

open Sys2Proof Sys2Proof.Machine Sys2Proof.Stated Sys2Proof.Laws Sys2Proof.Proofs.Pieces Sys2Proof.Proofs.CrossLane Sys2Proof.Proofs.MemoryWords
  Sys2Proof.Proofs.Ordering Sys2Proof.Proofs.Windows

/-! ## The B stage (R247, R248) -/

theorem staged_eq (w : Workgroup) (f : Nat) (x : Quarter) (gen : Nat) :
    staged w f x gen = ({ w with filling := w.filling.only f } : Workgroup).latch x gen := by
  unfold staged Workgroup.latch BBuf.latch BBuf.only
  by_cases hf : w.filling.fmt = f
  · simp only [if_pos hf] <;> rfl
  · simp only [if_neg hf] <;> rfl

theorem only_gen (g : BBuf) (f : Nat) : (g.only f).gen = g.gen := by
  unfold BBuf.only
  split <;> rfl

theorem pairedBit_ok {t : BitVec 1} {p : Bool} (h : t = 1 → p = true) : (t == 0 || p) = true := by
  rcases bit_cases t with rfl | rfl
  · rfl
  · rw [h rfl]
    rfl

theorem latchResults : LatchResults := by
  intro s b v t q f rs sc w h hf ht hv hl hrs hsc hwg hfree
  refine next_eq (issue_ok h ?_)
  have hbound : (acting b s).ops.any (fun o => o.wg == w.uid && o.kind.boundTo (w.filling.only f.toNat).gen) = false :=
    List.any_eq_false.2 fun o ho => by
      rw [only_gen]
      by_cases hu : o.wg = w.uid
      · rw [hfree o ho hu, Bool.and_false]
        exact Bool.false_ne_true
      · rw [beq_eq_false_iff_ne.2 hu]
        exact Bool.false_ne_true
  simp only [decide_eq_true hf, pairedBit_ok ht, vNum, decide_eq_true hv, hl, allLanes_all, hrs, need_true, ok_bind, staged_eq]
  by_cases hs : mxScaled f.toNat = true
  · rw [if_pos hs] at hsc
    simp only [if_pos hs, hsc, wgOf_ok hwg, hbound, ok_bind, Bool.false_eq_true, if_false]
    rfl
  · rw [if_neg hs] at hsc
    simp only [if_neg hs, hsc, wgOf_ok hwg, hbound, ok_bind, Bool.false_eq_true, if_false]
    rfl

/-! ## Batches (R256 to R258) -/

theorem batchResults : BatchResults := by
  refine ⟨fun s b d h hn hd => ?_, fun s b a n h ha => ?_⟩
  · refine next_eq (issue_ok h ?_)
    simp only [decide_eq_true hn, holdUnless_true, ok_bind]
    rcases hd with rfl | ⟨n, rfl, ha⟩
    · rfl
    · exact congrArg (· >>= _) (Control.writeS_of_canAlloc n.val _ ha)
  · intro ahead
    have hnot : ahead = 0 ∨ 32768 ≤ ahead → ¬ (1 ≤ (n.toNat % 2 ^ 16 + 2 ^ 16 - b.batch) % 2 ^ 16 ∧ (n.toNat % 2 ^ 16 + 2 ^ 16 - b.batch) % 2 ^ 16 < 2 ^ 15) :=
      fun hc ⟨h1, h2⟩ => by
        rcases hc with hc | hc
        · exact absurd (hc ▸ h1 : 1 ≤ 0) (by decide)
        · exact absurd h2 (Nat.not_lt.2 hc)
    refine ⟨fun hc hm => ?_, fun hc hm => ?_, fun h1 h2 => ?_⟩
    · refine next_eq (issue_ok h ?_)
      have hleft : (!b.closedLeft.contains (n.toNat % 2 ^ 16)) = true := by
        rw [Bool.not_eq_true', ← Bool.not_eq_true, List.contains_iff_mem]
        exact hm
      simp only [ha, ok_bind, if_neg (hnot hc), hleft, holdUnless_true]
      rfl
    · refine next_eq (issue_hold h ?_)
      have hleft : (!b.closedLeft.contains (n.toNat % 2 ^ 16)) = false := by
        rw [Bool.not_eq_false', List.contains_iff_mem]
        exact hm
      simp only [ha, ok_bind, if_neg (hnot hc), hleft, holdUnless_false, error_bind]
    · refine next_eq ((issue_word h 0x23 ?_).trans rfl)
      simp only [ha, ok_bind, if_pos (And.intro h1 h2 : 1 ≤ (n.toNat % 2 ^ 16 + 2 ^ 16 - b.batch) % 2 ^ 16 ∧
        (n.toNat % 2 ^ 16 + 2 ^ 16 - b.batch) % 2 ^ 16 < 2 ^ 15)]
      rfl

/-- Settles O19: BLATCH, MFENCE and MWAIT by their bodies. -/
theorem latchAndBatchResults : Obligations.LatchAndBatchResults := ⟨latchResults, batchResults⟩

/-! ## MMA (R250 to R258) -/

theorem exec_of_mma {i : Instr} {f : Nat} {c a : Opnd} {sel z lc la : BitVec 1} (h : mmaOf i = some (f, c, a, sel, z, lc, la)) (s : State) :
    exec i s = .next (issue i (mmaBody f c a sel z lc la) s) := by
  unfold mmaOf at h
  split at h <;> cases h <;> rfl

theorem mmaBody_ok {s t : State} {b : Band} {f : Nat} {cb ab : Opnd} {sel z lc la : BitVec 1} {c a : W64} {w : Workgroup} {g : BBuf} {sa : VReg}
    (hsel : sel = 1 → mxPaired f = true) (hl : s.lanesOf b = .ok (~~~ 0#32)) (hc : s.scalarSrc b false cb = .ok c)
    (ha : s.scalarSrc b false ab = .ok a) (hc5 : c.toNat % 512 = 0) (ha1 : a.toNat % 128 = 0) (hw : s.wg? b.wg = some w)
    (hcb : c.toNat + 16384 ≤ s.spaceSize w .cb) (hab : a.toNat + 32 * (64 * mxBits f / 8) ≤ s.spaceSize w .ab) (hcur : w.current = some g)
    (hg : g.fmt = f) (hsa : b.readV 62 = .ok sa) (hq : (s.arrayQueue b.place.core b.place.quad).length < 16)
    (ht : s.lockTile b w.slot c.toNat = .ok t) :
    mmaBody f cb ab sel z lc la b s = .ok (.next
      ((t.startEngine b (.mma b.openBatch g a.toNat c.toNat sa (sel == 1) (z == 1) false [] [])).modBand b.uid fun x =>
        let x := x.countMma b.openBatch true
        let x := if lc = 1 then x.freeName cb else x
        if la = 1 then x.freeName ab else x)) := by
  have htiles : (decide (c.toNat + tileBytes ≤ s.spaceSize w .cb) && decide (a.toNat + mxTile f ≤ s.spaceSize w .ab)) = true := by
    rw [Bool.and_eq_true, decide_eq_true_eq, decide_eq_true_eq]
    exact ⟨hcb, hab⟩
  unfold mmaBody
  simp only [pairedBit_ok hsel, hl, allLanes_all, hc, ha, ha1, hc5, wgOf_ok hw, htiles, hcur, hg, hsa, if_neg (Nat.not_le.2 hq), ht, need_true,
    ok_bind, ne_eq, not_true_eq_false, if_false, beq_iff_eq]
  rfl

theorem mmaStarts : MmaStarts := by
  intro i s t b f cb ab sel z lc la c a w g sa hi h hsel hl hc ha hc5 ha1 hw hcb hab hcur hg hsa hq ht
  rw [exec_of_mma hi]
  exact next_eq (issue_ok h (mmaBody_ok hsel hl hc ha hc5 ha1 hw hcb hab hcur hg hsa hq ht))

/-! ## The execution of an MMA (R252 to R255, R258) -/

theorem zipIdx_map_range {α : Type} (f : Nat → α) (n : Nat) : ((List.range n).map f).zipIdx = (List.range n).map fun i => (f i, i) := by
  refine List.ext_getElem (by simp) fun i h1 h2 => ?_
  simp

theorem writeSpace_kept (w : Workgroup) (space : Space) (o : Nat) (bs : List Byte) (s : State) :
    (s.writeSpace w space o bs).bands = s.bands ∧ (s.writeSpace w space o bs).mem = s.mem ∧ (s.writeSpace w space o bs).ops = s.ops := by
  unfold State.writeSpace
  generalize bs.zipIdx = xs
  induction xs generalizing s with
  | nil => exact ⟨rfl, rfl, rfl⟩
  | cons x xs ih => exact ih (s.setLs (s.spaceKey w space (o + x.2)) x.1)

theorem foldl_writeSpace_kept {α : Type} (w : Workgroup) (space : Space) (o : α → Nat) (bs : State → α → List Byte) (xs : List α) (s : State) :
    let t := xs.foldl (fun (t : State) x => t.writeSpace w space (o x) (bs t x)) s
    t.bands = s.bands ∧ t.mem = s.mem ∧ t.ops = s.ops := by
  induction xs generalizing s with
  | nil => exact ⟨rfl, rfl, rfl⟩
  | cons x xs ih =>
    obtain ⟨hb, hm, ho⟩ := ih (s.writeSpace w space (o x) (bs s x))
    obtain ⟨hb', hm', ho'⟩ := writeSpace_kept w space (o x) (bs s x) s
    exact ⟨hb.trans hb', hm.trans hm', ho.trans ho'⟩

/-- C as an MMA writes it, row after row (R252, R253). -/
def writeTile (w : Workgroup) (c : Nat) (zero : Bool) (row col : Nat → List Machine.Num) (s : State) : State :=
  (List.range 32).foldl (fun (t : State) i => t.writeSpace w .cb (c + 512 * i) (((List.range 128).map fun j =>
    laneBytes 4 (dotFp32 (if zero then none else some (f32.value (t.readSpace w .cb (c + 512 * i + 4 * j) 4))) (row i) (col j))).flatten)) s

theorem exec_mma (o : Nat) (rerun mismatch : Bool) (s : State) :
    exec (if rerun then Instr.mmaRerunComplete o mismatch else Instr.mmaExecuteComplete o mismatch) s = .next (mmaComplete o rerun mismatch s) := by
  cases rerun <;> rfl

section Execute

variable {s : State} {o : Op} {w : Workgroup} {batch a c : Nat} {g : BBuf} {sa : VReg} {sel zero rerun mismatch : Bool} {got : List (Nat × Byte)}

/-- The MMA at the head of its array, none of its elements written: what its event does, by whether its comparison holds. -/
theorem mmaComplete_eq (ho : s.op? o.uid = some o) (hk : o.kind = .mma batch g a c sa sel zero rerun got []) (hw : s.wg? o.wg = some w)
    (hq : ((s.arrayQueue o.place.core o.place.quad).head?).map Op.uid = some o.uid) :
    let row := fun i => (List.range 64).map fun k => s.aval w g.fmt a sel sa got i k
    let col := fun j => (List.range 64).map fun k => g.bval k j
    mmaComplete o.uid rerun mismatch s =
      if mismatch && compared ((List.range 32).map row) ((List.range 128).map col) then
        if rerun then (s.endMma o batch).decideKill o.launch .matrixSilent
        else s.setOp { o with kind := .mma batch g a c sa sel zero true [] [] }
      else (writeTile w c zero row col s).endMma o batch := by
  intro row col
  have hrow : s.aRows w g.fmt a sel sa got = (List.range 32).map row := rfl
  have hcol : g.cols = (List.range 128).map col := rfl
  have hhead : (rerun != rerun || ((s.arrayQueue o.place.core o.place.quad).head?.map Op.uid) != some o.uid) = false := by
    rw [hq, bne_self_eq_false, bne_self_eq_false]
    rfl
  unfold mmaComplete
  simp only [ho, hk, hw, hhead, hrow, hcol, zipIdx_map_range, List.foldl_map, List.map_map, List.isEmpty_nil, Bool.and_true, Bool.false_eq_true, if_false,
    if_true]
  rfl

end Execute

theorem mmaExecutionResults : MmaExecutionResults := by
  intro s o w batch a c g sa sel zero rerun mismatch got ho hk hw hq ev row col differ
  have hrun : exec ev s = .next (mmaComplete o.uid rerun mismatch s) := exec_mma o.uid rerun mismatch s
  rw [hrun, mmaComplete_eq ho hk hw hq]
  refine ⟨fun hd => ?_, fun hd hr => ?_, fun hd hr => ?_⟩
  · obtain ⟨hbands, hmem, hops⟩ := foldl_writeSpace_kept w .cb (fun i => c + 512 * i) (fun t i => ((List.range 128).map fun j =>
      laneBytes 4 (dotFp32 (if zero then none else some (f32.value (t.readSpace w .cb (c + 512 * i + 4 * j) 4))) (row i) (col j))).flatten)
      (List.range 32) s
    refine ⟨writeTile w c zero row col s, ?_, hbands, hmem, hops, rfl⟩
    exact congrArg Host.Outcome.next (if_neg (ne_true_of_eq_false hd))
  · exact congrArg Host.Outcome.next ((if_pos hd).trans (if_neg (ne_true_of_eq_false hr)))
  · exact congrArg Host.Outcome.next ((if_pos hd).trans (if_pos hr))

/-- Settles O20: an MMA starts by the common body of the nine words, and is executed row by row. -/
theorem mmaResults : Obligations.MmaResults := ⟨mmaStarts, mmaExecutionResults⟩

/-! ## Reading and writing C (R259 to R262) -/

theorem forIn_unit_ok {α : Type} {f : α → Try Unit} : ∀ {xs : List α}, (∀ x ∈ xs, f x = .ok ()) →
    (forIn xs PUnit.unit fun x _ => f x >>= fun _ => (pure (ForInStep.yield PUnit.unit) : Try (ForInStep PUnit))) = .ok PUnit.unit
  | [], _ => rfl
  | x :: xs, h => by
    rw [List.forIn_cons, h x (List.mem_cons_self ..)]
    exact forIn_unit_ok fun y hy => h y (List.mem_cons_of_mem x hy)

theorem alloc_ok {s : State} {b : Band} {nv ns : Nat} (h : s.canAlloc b nv ns = true) : s.alloc b nv ns = .ok () := if_pos h

theorem accumulatorMoves_accz (s : State) (b : Band) (a : Opnd) (l : W32) (c : W64) (w : Workgroup) (h : Stands (.accz a) b s)
    (hl : (acting b s).lanesOf b = .ok l) :
    (l = 0 → exec (.accz a) s = .next (past (.accz a) b s (acting b s))) ∧
    (l ≠ 0 → (acting b s).scalarSrc b false a = .ok c → (acting b s).wg? b.wg = some w →
      (acting b s).checkRows b w 512 c.toNat 512 true l = .ok () →
      ((acting b s).accessesDone b = false → exec (.accz a) s = .next (heldAt (.accz a) b s)) ∧
      ((acting b s).accessesDone b = true → exec (.accz a) s = .next (past (.accz a) b s
        ((laneList l).foldl (fun t i => t.writeSpace w .cb (c.toNat + 512 * i) (List.replicate 512 0)) (acting b s))))) := by
  refine ⟨fun h0 => next_eq (issue_ok h ?_), fun h0 hc hw hr => ⟨fun hd => next_eq (issue_hold h ?_), fun hd => next_eq (issue_ok h ?_)⟩⟩
  · simp only [hl, ok_bind, if_pos h0]
    rfl
  · simp only [hl, ok_bind, if_neg h0, hc, wgOf_ok hw, hr, hd, holdUnless_false, error_bind]
  · simp only [hl, ok_bind, if_neg h0, hc, wgOf_ok hw, hr, hd, holdUnless_true]
    rfl

/-- Settles O21: the three words by their bodies, held or not. -/
theorem accumulatorMoves : Obligations.AccumulatorMoves := by
  refine ⟨accumulatorMoves_accz, fun s b a v f l c w rs h hf hv hl => ?_, fun s b v a k x f l h hacc hv hl => ?_⟩
  · have hfmt : (f.toNat == 8 || f.toNat == 9 || f.toNat == 10) = true := by
      rcases hf with rfl | rfl | rfl <;> decide
    refine ⟨fun h0 => next_eq (issue_ok h ?_), fun h0 hc hw hr => ⟨fun hd => next_eq (issue_hold h ?_), fun hd hrs => next_eq (issue_ok h ?_)⟩⟩
    · simp only [hfmt, vNum, decide_eq_true hv, need_true, hl, ok_bind, if_pos h0]
      rfl
    · simp only [hfmt, vNum, decide_eq_true hv, need_true, hl, ok_bind, if_neg h0, hc, wgOf_ok hw, hr, hd, holdUnless_false, error_bind]
    · simp only [hfmt, vNum, decide_eq_true hv, need_true, hl, ok_bind, if_neg h0, hc, wgOf_ok hw, hr, hd, holdUnless_true, hrs]
      rfl
  · refine ⟨fun h0 => next_eq (issue_ok h ?_), fun c w sc cl h0 hf hc hw hr => ⟨fun hd => next_eq (issue_hold h ?_), fun hd hsc hp hroom => next_eq (issue_ok h ?_)⟩⟩
    · simp only [hacc, vNum, decide_eq_true hv, need_true, hl, ok_bind, if_pos h0]
      rfl
    · simp only [hacc, vNum, decide_eq_true hv, need_true, hl, ok_bind, if_neg h0, flag_ok hf, hc, wgOf_ok hw, hr, hd, holdUnless_false, error_bind]
    · have hready : ∀ u ∈ List.range (accRegs f.toNat), b.partialReady (v.val + u) l = .ok () := fun u hu => hp u (List.mem_range.1 hu)
      simp only [hacc, vNum, decide_eq_true hv, need_true, hl, ok_bind, if_neg h0, flag_ok hf, hc, wgOf_ok hw, hr, hd, holdUnless_true,
        forIn_unit_ok hready, alloc_ok hroom]
      rcases bit_cases x with rfl | rfl
      · rfl
      · simp only [hsc rfl, ok_bind]
        rfl

end Sys2Proof.Proofs.MatrixUnit
end

section
/-! SUPPORT. The words of the copy engines and the Prism (R89 to R106, R268 to R271), and YIELDC (R99, R305). -/

namespace Sys2Proof.Proofs.EngineWords

open Sys2Proof Sys2Proof.Machine Sys2Proof.Stated Sys2Proof.Laws Sys2Proof.Proofs.Pieces Sys2Proof.Proofs.CrossLane Sys2Proof.Proofs.MemoryWords
  Sys2Proof.Proofs.MatrixUnit Sys2Proof.Proofs.Control

/-! ## What the words share: the read of a descriptor, room in the queue and in the lock table -/

theorem withDesc_ok {b : Band} {e : W64} {n : Nat} {s t : State} {bs : List Byte} (h : Described b e n s bs t)
    (k : List Byte → State → Try Fin') : withDesc b e n s k = k bs t := by
  obtain ⟨pas, hpas, hnow, hbad, rfl, rfl⟩ := h
  have hgood : (pas.filterMap fun x => s.readBad b x.1) = [] := List.filterMap_eq_nil_iff.2 hbad
  have hread : s.plainRead b pas = .bytes (pas.map fun x => s.peekByte b x.1) := by
    rw [State.plainRead, hnow, hgood]
    rfl
  rw [withDesc, hpas, ok_bind, hread]

theorem needEntry_ok {s : State} {b : Band} {l : Launch} (hl : s.bandLaunch b = some l) (h : s.entriesHeld b.wg < l.lr.copies) :
    s.needEntry b = .ok () := by
  rw [State.needEntry, hl]
  exact if_neg (Nat.not_le.2 h)

theorem needLocks_ok {s : State} {core n : Nat} (h : (s.locks.filter fun y => y.core == core).length + n ≤ 64) : s.needLocks core n = .ok () :=
  if_pos (decide_eq_true h)

/-! ## COPY (R89, R90, R100, R268) -/

/-- The ranges that a slice of COPY locks: none where its descriptor is not aligned. -/
def copyLocks (b : Band) (w : Workgroup) (u : Nat) (desc : Option (List W64)) (s : State) : List Lock :=
  match desc with
  | some ws => s.sliceLocks b w u (parseCopy ws)
  | none => []

/-- The slice of a COPY and the state in which it has joined its copy. -/
def sliceJoined (b : Band) (desc : Option (List W64)) (stamp : Option StampSpec) (s : State) : State × Nat :=
  s.addSlice b (b.copies + 1) ⟨b.pos, s.nextUid, b.uid, b.place, b.privileged, desc, stamp⟩

theorem copyAttach_ok {s : State} {b : Band} {desc : Option (List W64)} {stamp : Option StampSpec} {w : Workgroup} {l : Launch}
    (hw : s.wg? b.wg = some w) (hf : flagFree b false = true) (hl : s.bandLaunch b = some l)
    (he : s.copyOp? b.wg (b.copies + 1) = none → s.entriesHeld b.wg < l.lr.copies)
    (hlocks : (s.locks.filter fun y => y.core == b.place.core).length + (copyLocks b w (sliceJoined b desc stamp s).2 desc s).length ≤ 64) :
    copyAttach b desc stamp s = .ok ((((sliceJoined b desc stamp s).1.addLocks (copyLocks b w (sliceJoined b desc stamp s).2 desc s)).modBand b.uid
      fun c => { c with copies := b.copies + 1, lastCopy := some (sliceJoined b desc stamp s).2 })) := by
  have hentry : (s.copyOp? b.wg (b.copies + 1)).isNone = true → s.needEntry b = .ok () := fun hn =>
    needEntry_ok hl (he (Option.isNone_iff_eq_none.1 hn))
  unfold copyAttach
  simp only [wgOf_ok hw, flag_ok hf, guarded hentry, ok_bind]
  exact congrArg (· >>= _) (needLocks_ok hlocks)

theorem copyWordAttachesSlice : CopyWordAttachesSlice := by
  intro s t b m ea desc stamp w l h hea hread hw hf hl he x locks hlocks
  refine next_eq (issue_ok h ?_)
  have hattach : copyAttach b desc stamp t = _ := copyAttach_ok hw hf hl he hlocks
  unfold copyBody
  rcases hread with ⟨halign, rfl, rfl, rfl⟩ | ⟨halign, bs, hbs, rfl, hstamp⟩
  · simp only [hea, ok_bind, if_pos halign, hattach]
    rfl
  · simp only [hea, ok_bind, halign, ne_eq, not_true_eq_false, if_false, withDesc_ok hbs, hstamp, hattach]
    rfl

/-! ## COPYM and MACK (R103, R269, R270) -/

/-- The state in which a COPYM's multicast is under way, its source locked. -/
def multicastStarted (b : Band) (w : Workgroup) (desc : Option (List W64)) (stamp : Option StampSpec) (s : State) : State :=
  ((s.startEngine b (.engine (.copym ⟨b.pos, s.nextUid, b.uid, b.place, b.privileged, desc, stamp⟩ [] none 0 0) stamp)).addLocks
    (match desc with | some ws => sourceLock b w s (parseCopy ws) | none => [])).modBand b.uid fun c => { c with lastCopy := some s.nextUid }

theorem copymStart_ok {s : State} {b : Band} {desc : Option (List W64)} {stamp : Option StampSpec} {w : Workgroup} {l : Launch}
    (hw : s.wg? b.wg = some w) (hf : flagFree b false = true) (hl : s.bandLaunch b = some l) (he : s.entriesHeld b.wg < l.lr.copies)
    (hlocks : (s.locks.filter fun y => y.core == b.place.core).length +
      (match desc with | some ws => sourceLock b w s (parseCopy ws) | none => []).length ≤ 64) :
    copymStart b desc stamp s = .ok (multicastStarted b w desc stamp s) := by
  unfold copymStart
  simp only [wgOf_ok hw, flag_ok hf, needEntry_ok hl he, ok_bind]
  cases desc with
  | none => exact congrArg (· >>= _) (needLocks_ok hlocks)
  | some ws => exact congrArg (· >>= _) (needLocks_ok hlocks)

theorem copymCompletes (s t : State) (b : Band) (m : MemRef) (ea : Ea) (desc : Option (List W64)) (stamp : Option StampSpec) (w : Workgroup)
    (l : Launch) (h : Stands (.copym m) b s) (hea : (acting b s).effective b m 64 = .ok ea) (hread : CopyRead b (acting b s) ea.e desc stamp t)
    (hw : t.wg? b.wg = some w) (hf : flagFree b false = true) (hl : t.bandLaunch b = some l) (he : t.entriesHeld b.wg < l.lr.copies)
    (hlocks : (t.locks.filter fun y => y.core == b.place.core).length +
      (match desc with | some ws => sourceLock b w t (parseCopy ws) | none => []).length ≤ 64) :
    exec (.copym m) s = .next (past (.copym m) b s ((multicastStarted b w desc stamp t).updateA b m ea)) := by
  refine next_eq (issue_ok h ?_)
  have hstart := copymStart_ok (stamp := stamp) hw hf hl he hlocks
  unfold copymBody
  rcases hread with ⟨halign, rfl, rfl, rfl⟩ | ⟨halign, bs, hbs, rfl, hstamp⟩
  · simp only [hea, ok_bind, if_pos halign, hstart]
    rfl
  · simp only [hea, ok_bind, halign, ne_eq, not_true_eq_false, if_false, withDesc_ok hbs, hstamp, hstart]
    rfl

/-- A core's flag set (R270). -/
def flagSet (x : Nat × Nat) (s : State) : State := if s.rflags.contains x then s else { s with rflags := s.rflags ++ [x] }

theorem flagSet_frame (x : Nat × Nat) (s : State) : flagSet x s = { s with rflags := (flagSet x s).rflags } := by
  unfold flagSet
  split <;> rfl

theorem mem_flagSet (x y : Nat × Nat) (s : State) : y ∈ (flagSet x s).rflags ↔ y ∈ s.rflags ∨ y = x := by
  unfold flagSet
  split
  next h =>
    refine ⟨.inl, fun hy => hy.elim id ?_⟩
    rintro rfl
    exact List.contains_iff_mem.1 h
  · exact List.mem_append.trans (or_congr_right List.mem_singleton)

theorem multicastWordResults : MulticastWordResults := by
  refine ⟨copymCompletes, fun s b n h hd => ⟨flagSet (b.place.core, n.toNat) (acting b s), next_eq (issue_ok h ?_), flagSet_frame _ _, fun c k => ?_⟩⟩
  · simp only [hd, holdUnless_true, ok_bind]
    rfl
  · rw [mem_flagSet, Prod.mk.injEq]
    rfl

/-! ## STASH (R104 to R106, R271) -/

/-- The ranges that a STASH locks: none where its descriptor is in error. -/
def stashLocks (b : Band) (w : Workgroup) (d : StashDesc) (s : State) : List Lock :=
  if s.stashError w d ≠ 0 then [] else d.footprints.map fun f =>
    if f.1 = 2 then locLock b.place.core s.nextUid true .ab w.slot f.2.1.toNat f.2.2
    else memLock b.place.core s.nextUid true (s.bandCtx b) f.2.1.toNat f.2.2

/-- What a STASH holds to be written, and the status of its conversion. -/
def stashOut (b : Band) (w : Workgroup) (d : StashDesc) (rs : List VReg) (s : State) : List (Nat × W64 × List Byte) × BitVec 6 :=
  if s.stashError w d = 0 then stashWrites b (s.srKey b) d rs else ([], 0)

/-- The state in which a STASH is under way, its destinations locked. -/
def stashStarted (b : Band) (w : Workgroup) (d : StashDesc) (rs : List VReg) (stamp : Option StampSpec) (s : State) : State :=
  ((((s.startEngine b (.engine (.stash (stashOut b w d rs s).1 0 (s.stashError w d) b.privileged) stamp)).addLocks (stashLocks b w d s)).modBand
    b.uid fun c => { c with lastCopy := some s.nextUid }).setFps b.uid (stashOut b w d rs s).2).countSr b b.rnd

theorem stashBody_ok {s t : State} {b : Band} {v : Fin 64} {m : MemRef} {ea : Ea} {bs : List Byte} {stamp : Option StampSpec} {w : Workgroup}
    {l : Launch} {rs : List VReg} {d : StashDesc} (hd : parseStash bs = d) (hea : s.effective b m 64 = .ok ea) (halign : ea.e.toNat % 64 = 0)
    (hbs : Described b ea.e 64 s bs t) (hstamp : t.stampOf b d.stamp d.seq d.scope = .ok stamp) (hv : v.val + d.regs ≤ 64)
    (hl : t.lanesOf b = .ok (~~~ 0#32)) (hw : t.wg? b.wg = some w) (hrs : b.readBlock v.val d.regs = .ok rs) (hf : flagFree b false = true)
    (hla : t.bandLaunch b = some l) (he : t.entriesHeld b.wg < l.lr.copies)
    (hlocks : (t.locks.filter fun y => y.core == b.place.core).length + (stashLocks b w d t).length ≤ 64) :
    stashBody (.v v) m b s = .ok (.next ((stashStarted b w d rs stamp t).updateA b m ea)) := by
  unfold stashBody
  simp only [vNum, hea, halign, ne_eq, not_true_eq_false, if_false, withDesc_ok hbs, hd, hstamp, need_true, decide_eq_true hv, hl, allLanes_all,
    wgOf_ok hw, hrs, flag_ok hf, needEntry_ok hla he, ok_bind]
  exact congrArg (· >>= _) (needLocks_ok hlocks)

theorem stashWordStarts : StashWordStarts := by
  intro s t b v m ea bs stamp w l rs h hea halign hbs d hstamp hv hl hw hrs hf hla he err locks hlocks out
  exact next_eq (issue_ok h (stashBody_ok rfl hea halign hbs hstamp hv hl hw hrs hf hla he hlocks))

/-! ## YIELDC (R99, R305) -/

theorem yieldUntilCopyResults : YieldUntilCopyResults := by
  refine ⟨fun s b off h => ⟨fun u hu ho => ?_, fun hnone hh => ?_⟩, fun s b q u t pc hdr ended hb hw hop hp hh => ?_⟩
  · have hbody : yieldcBody (off.signExtend 64) b (acting b s) =
        .ok (.leave (acting b s) (targetOf b (off.signExtend 64)) (.yieldc u (targetOf b (off.signExtend 64)) b.pc b.hdr none)) := by
      simp only [yieldcBody, hu, ho, if_true]
      rfl
    refine next_eq ((issue_legal _ h).trans ?_)
    rw [hbody]
  · refine next_eq (issue_jump h ?_)
    have hjump : ((acting b s).checkTarget b (targetOf b (off.signExtend 64)) >>= fun _ =>
        (pure (.jump (acting b s) (targetOf b (off.signExtend 64)) none) : Try Fin')) =
        .ok (.jump (acting b s) (targetOf b (off.signExtend 64)) none) := by
      rw [checkTarget_targetOf_header hh]
      rfl
    rcases hnone with hn | ⟨u, hu, hn⟩
    · simp only [yieldcBody, hn]
      exact hjump
    · simp only [yieldcBody, hu, hn, Option.isSome_none, Bool.false_eq_true, if_false]
      exact hjump
  · refine congrArg Host.Outcome.next (show yieldcReactivate q s = _ from ?_)
    have hgo : ((s.op? u).isSome || b.parked) = false := by rw [hop, hp]; rfl
    simp only [yieldcReactivate, hb, hw, hgo, Bool.false_eq_true, if_false]
    exact if_neg (ne_true_of_eq_false hh)

/-- Settles O22: COPY, COPYM, MACK, STASH and YIELDC by their bodies. -/
theorem engineWordsStart : Obligations.EngineWordsStart :=
  ⟨copyWordAttachesSlice, multicastWordResults, stashWordStarts, yieldUntilCopyResults⟩

end Sys2Proof.Proofs.EngineWords
end

section
/-! SUPPORT. What the report of an event (R345) and the correction of an error (R52) leave alone: all that is quiet under the few writes
that they are made of. -/

namespace Sys2Proof.Proofs.Reports

open Sys2Proof Sys2Proof.Machine Sys2Proof.Laws

theorem foldl_kept {α β : Type} (f : State → β) (step : State → α → State) (h : ∀ s x, f (step s x) = f s) (xs : List α) :
    ∀ s, f (xs.foldl step s) = f s := by
  induction xs with
  | nil => exact fun _ => rfl
  | cons x xs ih => exact fun s => (ih (step s x)).trans (h s x)

/-- What relates a state to what the writes that reports are made of leave of it: reports are made of them, and corrections besides. -/
structure Calm (R : State → State → Prop) : Prop where
  refl : ∀ s, R s s
  trans : ∀ {s t u}, R s t → R t u → R s u
  wake : ∀ s pa, R s (s.wake pa)
  cells : ∀ s pa n x, R s (s.putCells pa n x)
  send : ∀ s x, R s (s.send x)
  stray : ∀ (s : State) p, R s { s with stray := p }
  events : ∀ (s : State) g ts b k, R s { s with evGap := g, evTimes := ts, evBuf := b, evHeld := k }
  ring : ∀ s w, R s (s.setReg evrctl w)
  pending : ∀ (s : State) p, R s { s with msixPending := p }
  celog : ∀ (s : State) c, R s { s with celog := c }
  errs : ∀ (s : State) p, R s { s with errs := s.errs.filter p }

section Calm

variable {R : State → State → Prop} (q : Calm R)

include q

theorem foldl_calm {α : Type} (step : State → α → State) (h : ∀ s x, R s (step s x)) (xs : List α) : ∀ s, R s (xs.foldl step s) := by
  induction xs with
  | nil => exact q.refl
  | cons x xs ih => exact fun s => q.trans (h s x) (ih (step s x))

theorem ramStore_calm (s : State) (pa n x : Nat) : R s (s.ramStore pa n x) := by
  unfold State.ramStore
  split
  · exact q.refl s
  · exact q.trans (q.cells s pa n x) (foldl_calm q (fun s i => s.wake ((pa / 32 + i) * 32)) (fun _ _ => q.wake _ _) _ _)

theorem interrupt_calm (s : State) (v : Nat) : R s (s.interrupt v) := by
  unfold State.interrupt
  split
  · exact q.pending _ _
  · exact q.send _ _

theorem ringWrite_calm (s : State) (e : Event) : R s (s.ringWrite e) := by
  unfold State.ringWrite
  extract_lets p base pa x s1 s2 s3
  have h1 : R s s1 := by
    unfold s1
    split
    · split
      · exact q.refl s
      · exact ramStore_calm q s _ _ _
    · exact q.send _ _
    · exact q.stray _ _
    · exact q.refl s
  have h3 : R s s3 := q.trans h1 (q.trans (q.events s1 _ _ _ _) (q.ring s2 _))
  split
  · exact q.trans h3 (interrupt_calm q s3 0)
  · exact h3

theorem ringDrain_calm : ∀ (n : Nat) (s : State), R s (State.ringDrain n s)
  | 0, s => q.refl s
  | n + 1, s => by
    rw [State.ringDrain]
    split
    · exact q.refl s
    · split
      · exact q.trans (q.trans (q.events s _ _ _ _) (ringWrite_calm q _ _)) (ringDrain_calm n _)
      · split
        · exact q.trans (q.trans (q.events s _ _ _ _) (ringWrite_calm q _ _)) (ringDrain_calm n _)
        · exact q.refl s

theorem post_calm (s : State) (e : Event) : R s (s.post e) := by
  unfold State.post
  split
  · exact q.trans (q.events s _ _ _ _) (ringDrain_calm q _ _)
  · split
    · exact q.events s _ _ _ _
    · split
      · exact q.trans (q.events s _ _ _ _) (ringDrain_calm q _ _)
      · exact q.events s _ _ _ _

theorem correctedError_calm (s : State) (pa sym : Nat) : R s (s.correctedError pa sym) := by
  unfold State.correctedError
  extract_lets u unit ctl ev c key hs n
  have hev : ∀ (cls : Nat) (t : State), R t (ev cls t) := fun cls t => post_calm q t _
  split
  · exact q.refl s
  · split
    · exact hev _ _
    · split
      · split
        · exact q.trans (q.celog s _) (hev _ _)
        · exact q.celog s _
      · exact q.trans (q.celog s _) (hev _ _)

theorem scrub_calm (s : State) (atom : Nat) : R s (s.scrub atom) := by
  unfold State.scrub
  split
  · exact q.refl s
  · refine foldl_calm q _ (fun t a => ?_) _ _
    split
    · exact q.trans (q.errs t _) (correctedError_calm q _ _ _)
    · exact q.refl t

theorem readTouch_calm (s : State) (who : Option (Nat × Nat)) (pa n : Nat) : R s (s.readTouch who pa n) := by
  unfold State.readTouch
  split
  · exact q.send _ _
  · split
    · exact q.refl s
    · have hone : ∀ (t : State) (a : Nat), R t (if t.kindOf a == .ram && t.readOut a == .ok then t.scrub a else t) := fun t a => by
        split
        · exact scrub_calm q _ _
        · exact q.refl t
      cases who with
      | none => exact foldl_calm q _ hone _ _
      | some w => exact foldl_calm q _ (fun t a => hone t (t.viewOf w.1 w.2 a)) _ _

theorem physTouch_calm (s : State) (pa n : Nat) (secure : Bool) : R s (s.physTouch pa n secure) := by
  unfold State.physTouch
  split
  · exact q.send _ _
  · split
    · exact q.refl s
    · refine foldl_calm q _ (fun t a => ?_) _ _
      split
      · exact post_calm q _ _
      · split
        · exact scrub_calm q _ _
        · exact q.refl t

theorem touchSides_calm (s : State) (o : Op) (xs : List Side) : R s (s.touchSides o xs) := by
  refine foldl_calm q _ (fun t x => ?_) _ _
  split
  · exact foldl_calm q _ (fun t p => readTouch_calm q t _ _ _) _ _
  · exact q.refl t

theorem atomStore_calm (s : State) (u : Option Nat) (pa : Nat) (mask : BitVec 32) (data : BitVec 256) :
    R s (s.atomStore u pa mask data) := by
  have hmate (t : State) : R t (t.resealMate pa) := by
    unfold State.resealMate
    extract_lets mate
    split
    · exact q.cells _ _ _ _
    · exact q.refl t
  unfold State.atomStore
  split
  · exact q.refl s
  · split
    · exact ramStore_calm q _ _ _ _
    · split
      · exact q.trans (scrub_calm q _ _) (q.trans (hmate _) (ramStore_calm q _ _ _ _))
      · exact post_calm q _ _
      · exact post_calm q _ _

end Calm

/-- A view of the state that no report changes: the writes that reports are made of leave it alone. -/
structure Quiet {β : Type} (f : State → β) : Prop where
  wake : ∀ s pa, f (s.wake pa) = f s
  cells : ∀ s pa n x, f (s.putCells pa n x) = f s
  send : ∀ s x, f (s.send x) = f s
  stray : ∀ (s : State) p, f { s with stray := p } = f s
  events : ∀ (s : State) g ts b k, f { s with evGap := g, evTimes := ts, evBuf := b, evHeld := k } = f s
  ring : ∀ s w, f (s.setReg evrctl w) = f s
  pending : ∀ (s : State) p, f { s with msixPending := p } = f s
  celog : ∀ (s : State) c, f { s with celog := c } = f s
  errs : ∀ (s : State) es, f { s with errs := es } = f s

section Quiet

variable {β : Type} {f : State → β} (q : Quiet f)

include q

theorem Quiet.calm : Calm fun s t => f t = f s where
  refl _ := rfl
  trans h h' := h'.trans h
  wake := q.wake
  cells := q.cells
  send := q.send
  stray := q.stray
  events := q.events
  ring := q.ring
  pending := q.pending
  celog := q.celog
  errs s _ := q.errs s _

theorem ramStore_quiet (s : State) (pa n x : Nat) : f (s.ramStore pa n x) = f s := ramStore_calm q.calm s pa n x

theorem interrupt_quiet (s : State) (v : Nat) : f (s.interrupt v) = f s := interrupt_calm q.calm s v

theorem post_quiet (s : State) (e : Event) : f (s.post e) = f s := post_calm q.calm s e

theorem scrub_quiet (s : State) (atom : Nat) : f (s.scrub atom) = f s := scrub_calm q.calm s atom

theorem readTouch_quiet (s : State) (who : Option (Nat × Nat)) (pa n : Nat) : f (s.readTouch who pa n) = f s := readTouch_calm q.calm s who pa n

theorem physTouch_quiet (s : State) (pa n : Nat) (secure : Bool) : f (s.physTouch pa n secure) = f s := physTouch_calm q.calm s pa n secure

theorem touchSides_quiet (s : State) (o : Op) (xs : List Side) : f (s.touchSides o xs) = f s := touchSides_calm q.calm s o xs

theorem atomStore_quiet (s : State) (u : Option Nat) (pa : Nat) (mask : BitVec 32) (data : BitVec 256) :
    f (s.atomStore u pa mask data) = f s := atomStore_calm q.calm s u pa mask data

end Quiet

/-! ## Registers: all but the ring's own control register -/

theorem lookupReg_assocPut_other {a b : Nat} (h : b ≠ a) (w : Option W64) : ∀ l : List (Nat × W64), lookupReg (assocPut l a w) b = lookupReg l b
  | [] => by cases w <;> simp [assocPut, lookupReg, Ne.symm h]
  | (k, x) :: t => by
    have ih := lookupReg_assocPut_other h w t
    unfold assocPut
    split
    · rw [lookupReg, lookupReg, ih]
    · split
      next hk => cases w <;> simp [lookupReg, hk, Ne.symm h]
      · cases w <;> simp [lookupReg, Ne.symm h]

theorem reg_setReg_other (s : State) {a b : Nat} (h : b ≠ a) (w : W64) : (s.setReg a w).reg b = s.reg b :=
  congrArg (·.getD (resetOf b)) (lookupReg_assocPut_other h _ s.regs)

theorem reg_quiet {off : Nat} (h : off ≠ evrctl) : Quiet fun s => s.reg off where
  wake _ _ := rfl
  cells _ _ _ _ := rfl
  send _ _ := rfl
  stray _ _ := rfl
  events _ _ _ _ _ := rfl
  ring s w := reg_setReg_other s h w
  pending _ _ := rfl
  celog _ _ := rfl
  errs _ _ := rfl

theorem devid_touchSides (s : State) (o : Op) (xs : List Side) : (s.touchSides o xs).devid = s.devid :=
  congrArg (fun w => fld w 20 0) (touchSides_quiet (reg_quiet (off := numOff 0x2004) (by decide)) s o xs)

end Sys2Proof.Proofs.Reports
end

section
/-! SUPPORT. Copies, multicasts and stashes as they are planned, performed, acknowledged and ended (R90 to R104). -/

namespace Sys2Proof.Proofs.EngineOperations

open Sys2Proof Sys2Proof.Machine Sys2Proof.Stated Sys2Proof.Laws Sys2Proof.Proofs.Pieces Sys2Proof.Proofs.Reports

/-! ## The start of a copy (R90, R92, R98) -/

theorem copyStart_eq {s : State} {o : Op} {n : Nat} {sl : Slice} {st : Option StampSpec} {l : Launch} {w : Workgroup} (ho : s.op? o.uid = some o)
    (hk : o.kind = .engine (.copy n [sl] none) st) (hl : s.launch? o.launch = some l) (hw : s.wg? o.wg = some w) (hr : s.copyReady w n [sl] = true) :
    let late : W16 := if w.exits.any fun k => decide (k < n) then 1 else 0
    copyStart o.uid s = match s.sliceError l w o sl with
      | .error e => s.setOp { o with kind := .engine (.copy n [sl] (some ⟨[], addError late e, 0, [], 0⟩)) sl.stamp }
      | .ok (d, t) =>
        let x := (⟨s, ⟨[], late, 0, [], 0⟩, none, false⟩ : Building).slice l w o.uid sl d t
        if x.waits then x.s
        else x.s.setOp { o with kind := .engine (.copy n [sl] (some { x.plan with
          status := match x.err with | some e => addError x.plan.status e | none => x.plan.status })) sl.stamp } := by
  intro late
  unfold copyStart
  simp only [ho, hk, hl, hw, hr, Bool.not_true, Bool.false_eq_true, if_false, List.foldl_cons, List.foldl_nil, insertByPos,
    List.findSome?_singleton, List.map_cons, List.map_nil]
  cases s.sliceError l w o sl <;> rfl

theorem copyStartPlans : CopyStartPlans := by
  intro s o n sl st l w ho hk hl hw hr late plan
  have hrun : exec (.copyStart o.uid) s = .next (copyStart o.uid s) := rfl
  rw [hrun, copyStart_eq ho hk hl hw hr]
  refine ⟨fun e he => ?_, fun d t he hp hn => ?_, fun d t he hn => ?_⟩
  · rw [he]
  · rw [he]
    simp only [Building.slice, hn, hp, Bool.false_eq_true, if_false, Nat.zero_add, List.nil_append]
    rfl
  · rw [he]
    simp only [Building.slice, hn, if_true, Bool.false_eq_true, if_false]
    rfl

/-! ## The parts and the end of a copy (R96, R97, R100, R133) -/

theorem copyComplete_eq {s : State} {o : Op} {n : Nat} {sls : List Slice} {p : Plan} {st : Option StampSpec} (ho : s.op? o.uid = some o)
    (hk : o.kind = .engine (.copy n sls (some p)) st) (hs : s.sidesOpen o (p.moves.filter fun m => !m.lost (s.plansGone o.uid p)) = true)
    (hst : s.stampOpen o st = true) :
    let gone := s.plansGone o.uid p
    let partly := p.status.getLsbD 4
    let x := s.transfer o (p.moves.filter fun m => !m.lost gone) partly
    let status := p.status ||| (if x.2.2 then stPoisoned else 0)
    copyComplete o.uid s =
      ((p.pubs.filter fun x => !gone.contains x).foldl (fun s x => if partly then s.abandonPub o.uid x.1 x.2 else s.closePub x.1 x.2) x.1).endEngine
        o.uid st (if !gone.isEmpty || (partly && !p.pubs.isEmpty) then status ||| stPub 3 else status)
        (if partly || !gone.isEmpty then p.moved + x.2.1 else p.count) 0 := by
  intro gone partly x status
  unfold copyComplete
  simp only [ho, hk, hs, hst, Bool.not_true, Bool.or_self, Bool.false_eq_true, if_false]
  rfl

theorem copyCompletes : CopyCompletes := by
  refine ⟨fun s₀ s es o n sls p st hes ho hk hs hst => ?_, fun s o c sls p st m i k n ho hk hp hm hn hle hs => ?_⟩
  · have hrun : exec (.copyComplete o.uid es) s₀ = .next (copyComplete o.uid s) := hes ▸ rfl
    rw [hrun, copyComplete_eq ho hk hs hst]
    refine ⟨fun hg => ⟨fun hnone => ?_, fun hsome => ?_⟩, fun hg hpubs => ?_⟩
    · have hempty : (s.plansGone o.uid p).isEmpty = true := List.isEmpty_iff.2 hnone
      simp only [hg, hempty, Bool.not_true, Bool.false_and, Bool.or_self, Bool.false_eq_true, if_false]
      rfl
    · have hempty : (s.plansGone o.uid p).isEmpty = false := Bool.eq_false_iff.2 fun h => hsome (List.isEmpty_iff.1 h)
      simp only [hg, hempty, Bool.not_false, Bool.true_or, Bool.or_true, Bool.false_eq_true, if_false, if_true]
      rfl
    · have hgone : s.plansGone o.uid p = [] := by rw [State.plansGone, hpubs]; rfl
      simp only [hg, hpubs, List.filter_nil, List.foldl_nil, hgone, List.isEmpty_nil, Bool.not_true, Bool.true_or, Bool.and_false, Bool.or_self,
        Bool.false_eq_true, if_false, if_true]
      rfl
  · have hgone : s.plansGone o.uid p = [] := by rw [State.plansGone, hp]; rfl
    have hlost : m.lost [] = false := by unfold Move'.lost; cases m.pub <;> rfl
    unfold State.enginePart State.copyPart
    simp only [ho, hk, hm, hgone, hlost, hs, Nat.pos_iff_ne_zero.1 hn, decide_eq_false (Nat.not_lt.2 hle), decide_false, Bool.not_true, Bool.or_self,
      Bool.false_eq_true, if_false]
    rfl

/-! ## Multicasts (R102, R103) -/

theorem foldl_sendPayload_here {s : State} {u launch : Nat} {seq : BitVec 48} {st : W16} {runs : List Run} :
    ∀ {xs : List (Receiver × Nat)}, (∀ x ∈ xs, s.receiverHere x.1 = true) → xs.foldl (fun s x => s.sendPayload u launch seq st runs x) s = s
  | [], _ => rfl
  | x :: xs, h => by
    rw [List.foldl_cons, State.sendPayload, if_pos (h x (List.mem_cons_self ..))]
    exact foldl_sendPayload_here fun y hy => h y (List.mem_cons_of_mem x hy)

theorem op?_setOp {s : State} {o o' : Op} (h : (s.setOp o).op? o.uid = some o') : o' = o := by
  obtain ⟨hu, hm⟩ := And.intro (List.find?_some h) (List.mem_of_find?_eq_some h)
  obtain ⟨x, -, rfl⟩ := List.mem_map.1 hm
  split
  · rfl
  next hx => rw [if_neg hx] at hu; exact absurd hu hx

theorem settleCopym_waiting {s : State} {o : Op} {sl : Slice} {rs : List Receiver} {runs : Option (List Run)} {st : W16} {n : Nat}
    {stamp : Option StampSpec} (hk : o.kind = .engine (.copym sl rs runs st n) stamp) (hr : rs.all Receiver.acked = false) :
    (s.setOp o).settleCopym o.uid = s.setOp o := by
  unfold State.settleCopym
  split
  next o' ho =>
    rw [op?_setOp ho, hk]
    split
    next heq =>
      cases heq
      rw [hr]
      rfl
    · rfl
  · rfl

/-- The receivers that a list names have not acknowledged, and it names one at least. -/
theorem readReceivers_fresh {s : State} {c : Ctx} {o : Op} {d : CopyDesc} {rs : List (Receiver × W64)} (h : s.readReceivers c o d = .ok rs) :
    (rs.map Prod.fst).all Receiver.acked = false := by
  unfold State.readReceivers at h
  cases hp : s.enginePieces c .load d.dst (32 * (d.nrcv + 1)) with
  | error e => rw [hp] at h; cases h
  | ok ps =>
    rw [hp] at h
    cases h
    simp [List.range_succ_eq_map]

section Send

variable {s : State} {o : Op} {sl : Slice} {ws : List W64} {k : W16} {n0 : Nat} {st : Option StampSpec} {l : Launch} {w : Workgroup} {away : Bool}
  {rs : List (Receiver × W64)} {ms : List Move'} {d : CopyDesc} {c : Ctx}

/-- A multicast whose receivers are all here, with its flags taken and its destinations locked. -/
def flagsTaken (s : State) (u : Nat) (d : CopyDesc) (here : List Receiver) : State :=
  State.addLocks { s with rflags := s.rflags.filter fun f => !(here.map fun r => (r.core, r.flag)).contains f } (s.receiverLocks u d here)

theorem takeFlags_here {here : List Receiver} (h : ∀ r ∈ here, s.receiverHere r = true) :
    s.takeFlags here (s.receiverLocks o.uid d here) = flagsTaken s o.uid d here := by
  unfold State.takeFlags
  rw [List.filter_eq_self.2 h]
  rfl

theorem copymSend_here (ho : s.op? o.uid = some o) (hk : o.kind = .engine (.copym sl [] none k n0) st) (hl : s.launch? o.launch = some l)
    (hw : s.wg? o.wg = some w) (hsl : sl.desc = some ws) (hd : parseCopy ws = d) (hc : l.engineCtx w.core sl.priv = c)
    (hdone : s.doneBelow o.band o.uid = true) (hserve : (w.resident || w.exited) = true) (hbad : d.badMulticast = false)
    (hspace : s.sliceSpace w { d with dstk := 0 } = false) (hrs : s.readReceivers c o d = .ok rs)
    (hgood : ∀ r ∈ rs, r.1.malformed r.2 = false ∧ s.badReceiver o.launch d r.1 = false ∧ s.receiverHere r.1 = true ∧ s.receiverAway o.launch r.1 = false)
    (hflags : s.flagsSet away (rs.map Prod.fst) = true) (hroom : lockRoom s (s.receiverLocks o.uid d (rs.map Prod.fst)) = true)
    (hst : s.stampOpen o st = true) (hsides : s.sidesOpen o ms = true) (hms : s.resolveAll c l.lr.migr w (d.wants none) = (ms, none))
    (hread : ∀ m ∈ ms, (flagsTaken s o.uid d (rs.map Prod.fst)).sideBad o m.src = []) :
    let t := flagsTaken s o.uid d (rs.map Prod.fst)
    copymSend o.uid away s = (t.touchSides o (ms.map Move'.src)).setOp { o with kind := .engine (.copym sl
      ((rs.map Prod.fst).map fun r => { r with rest := t.payload o ms }) (some (t.payload o ms)) 0 (d.xb * d.rows.length)) st } := by
  intro t
  have hhere : ∀ r ∈ rs.map Prod.fst, s.receiverHere r = true := fun r hr => by
    obtain ⟨x, hx, rfl⟩ := List.mem_map.1 hr
    exact (hgood x hx).2.2.1
  have hform : (rs.any fun r => r.1.malformed r.2) = false := List.any_eq_false.2 fun r hr => ne_true_of_eq_false (hgood r hr).1
  have hwin : (rs.any fun r => !s.receiverAway o.launch r.1 && s.badReceiver o.launch d r.1) = false := List.any_eq_false.2 fun r hr => by
    rw [(hgood r hr).2.1, Bool.and_false]
    exact Bool.false_ne_true
  have haway : (rs.map Prod.fst).any (s.receiverAway o.launch) = false := List.any_eq_false.2 fun r hr => by
    obtain ⟨x, hx, rfl⟩ := List.mem_map.1 hr
    exact ne_true_of_eq_false (hgood x hx).2.2.2
  have hserves : ∀ x : Bool, w.serves x = true := fun x => by rw [Workgroup.serves, hserve, Bool.true_or]
  have hclean : (ms.flatMap fun m => t.sideBad o m.src) = [] := List.flatMap_eq_nil_iff.2 hread
  unfold copymSend
  simp only [ho, hk, hl, hw, hdone, hserves, hst, hsl, hd, hc, hbad, hspace, hrs, hform, hwin, hms, hflags, hroom, haway, hsides, Bool.not_true,
    Bool.or_self, Bool.false_eq_true, if_false, takeFlags_here hhere]
  rw [show (ms.flatMap fun m => (flagsTaken s o.uid d (rs.map Prod.fst)).sideBad o m.src) = [] from hclean]
  rw [foldl_sendPayload_here fun x hx => ?_]
  · exact settleCopym_waiting rfl (by
      rw [List.all_map]
      exact readReceivers_fresh hrs)
  · obtain ⟨r, hr, he⟩ := List.mem_map.1 (List.fst_mem_of_mem_zipIdx hx)
    have hdev : ((t.touchSides o (ms.map Move'.src)).devid) = s.devid := devid_touchSides t o _
    rw [← he]
    show (!r.remote || podOf (t.touchSides o (ms.map Move'.src)).devid * 1024 + r.member == (t.touchSides o (ms.map Move'.src)).devid) = true
    rw [hdev]
    exact hhere r hr

end Send

theorem multicastEventResults : MulticastEventResults := by
  refine ⟨fun s o sl ws k n0 st l w away rs ms ho hk hl hw hsl hdone hserve hbad hspace hrs hgood hflags hroom hst hsides hms hread => ?_,
    fun s o i sl ws rs runs k n st l r code ho hl hk hsl hr hack haway hopen => ?_⟩
  · exact congrArg Host.Outcome.next (copymSend_here ho hk hl hw hsl rfl rfl hdone hserve hbad hspace hrs hgood hflags hroom hst hsides hms hread)
  · refine congrArg Host.Outcome.next (show copymAck o.uid i code.toNat s = _ from ?_)
    have hcode : (if code.toNat = 0 then none else some code.toNat) = if code = 0 then none else some code.toNat := by
      by_cases hc : code = 0
      · rw [hc]; rfl
      · rw [if_neg hc, if_neg fun h : code.toNat = 0 => hc (BitVec.eq_of_toNat_eq h)]
    have hgo : (s.receiverAway o.launch r || (s.receiverHere r && !s.receiveOpen l sl.priv r (parseCopy ws).spread.1 (parseCopy ws).spread.2 r.rest)) =
        false := by
      rw [haway]
      cases hh : s.receiverHere r with
      | false => rfl
      | true => rw [hopen hh]; rfl
    unfold copymAck
    simp only [ho, hk, hl, hr, hsl, hack, hgo, hcode, Bool.false_eq_true, if_false] <;> rfl

/-! ## Stashes (R104) -/

theorem stashCompletes : StashCompletes := by
  intro s o ws before err priv st l w ho hk hl hw hdone hst
  refine ⟨fun he => congrArg Host.Outcome.next (show stashComplete o.uid s = _ from ?_), fun ms he hms hs =>
    congrArg Host.Outcome.next (show stashComplete o.uid s = _ from ?_)⟩
  · unfold stashComplete
    simp only [ho, hk, hl, hw, hdone, hst, Bool.not_true, Bool.or_self, Bool.false_eq_true, if_false, if_pos he]
  · unfold stashComplete State.stashMoves
    simp only [ho, hk, hl, hw, hdone, hst, hms, hs, he, ne_eq, not_true_eq_false, Bool.not_true, Bool.or_self, Bool.false_eq_true, if_false]
    rfl

/-- Settles O23: copies, multicasts and stashes by the equations of their events. -/
theorem engineOperationResults : Obligations.EngineOperationResults :=
  ⟨copyStartPlans, copyCompletes, multicastEventResults, stashCompletes⟩

end Sys2Proof.Proofs.EngineOperations
end

section
/-! SUPPORT. Storage loads and their commands (R107 to R109, R272), watches (R111, R283) and the storage window (R396). -/

namespace Sys2Proof.Proofs.Storage

open Sys2Proof Sys2Proof.Machine Sys2Proof.Stated Sys2Proof.Laws Sys2Proof.Proofs.Pieces Sys2Proof.Proofs.MemoryWords Sys2Proof.Proofs.EngineWords
  Sys2Proof.Proofs.Waiting

/-! ## STGLD and WATCH (R108, R272, R283) -/

theorem notRedundant_ok {s : State} {b : Band} {l : Launch} (hl : s.bandLaunch b = some l) (h : l.lr.redn ≠ 1) : s.notRedundant b = .ok () := by
  rw [State.notRedundant, hl]
  exact if_neg h

section Stgld

variable {s u : State} {b : Band} {m : MemRef} {ea : Ea} {bs : List Byte} {l : Launch} {pages : List Nat} {stamp : Option StampSpec} {d : StgDesc}

/-- The state after the external effect of a command that writes or flushes (R284). -/
def afterEffect (b : Band) (d : StgDesc) (u : State) : State := if d.cmd == 1 || d.cmd == 2 then u.externalEffect b.launch else u

/-- The payload bytes of a command's buffer, none where its descriptor is malformed. -/
def payloadBytes (d : StgDesc) (u : State) : Nat := if d.malformed (u.blockBytes d.drive) then 0 else d.bytes (u.blockBytes d.drive)

/-- STGLD up to the choice of its queue pair. -/
theorem stgldBody_eq (hl : s.bandLaunch b = some l) (hr : l.lr.redn ≠ 1) (hea : s.effective b m 32 = .ok ea) (halign : ea.e.toNat % 32 = 0)
    (hbs : Described b ea.e 32 s bs u) (hd : parseStg bs = d) (hbuf : d.buf.toNat % u.blockBytes d.drive = 0)
    (hpages : u.bufferPages b (if d.cmd = 0 then .store else .load) d.buf (d.reach (u.blockBytes d.drive)) = .ok pages)
    (hstamp : u.stampOf b (d.buf - 16) d.seq d.scope = .ok stamp) (hf : flagFree b false = true) (hlu : u.bandLaunch b = some l)
    (he : u.entriesHeld b.wg < l.lr.copies) (hlocks : (u.locks.filter fun y => y.core == b.place.core).length < 64) :
    let start := fun (t : State) (q : Nat) => (storageStarted b u t d (payloadBytes d u) pages (u.stgError d pages) q stamp).updateA b m ea
    stgldBody m b s = if u.stgError d pages ≠ 0 then .ok (.next (start (afterEffect b d u) 0))
      else match (afterEffect b d u).pairFor d.drive with
        | none => .error (.wait .entry)
        | some (k, q) => .ok (.next (start { afterEffect b d u with rrPair := assocSet (afterEffect b d u).rrPair d.drive (k + 1) } q)) := by
  intro start
  have hroom : ∀ (c : Bool) x, u.needLocks b.place.core (if c then ([] : List Lock) else [x]).length = .ok () := fun c x => by
    refine needLocks_ok ?_
    cases c
    · exact Nat.succ_le_of_lt hlocks
    · exact Nat.le_of_lt hlocks
  unfold stgldBody
  simp only [notRedundant_ok hl hr, hea, halign, ne_eq, not_true_eq_false, if_false, withDesc_ok hbs, hd, hbuf, hpages, hstamp, flag_ok hf,
    needEntry_ok hlu he, hroom, ok_bind]
  rfl

end Stgld

theorem stgldCompletes (s u : State) (b : Band) (m : MemRef) (ea : Ea) (bs : List Byte) (l : Launch) (pages : List Nat) (stamp : Option StampSpec)
    (h : Stands (.stgld m) b s) (hl : (acting b s).bandLaunch b = some l) (hr : l.lr.redn ≠ 1) (hea : (acting b s).effective b m 32 = .ok ea)
    (halign : ea.e.toNat % 32 = 0) (hbs : Described b ea.e 32 (acting b s) bs u) :
    let d := parseStg bs
    let block := u.blockBytes d.drive
    let n := if d.malformed block then 0 else d.bytes block
    d.buf.toNat % block = 0 → u.bufferPages b (if d.cmd = 0 then .store else .load) d.buf (d.reach block) = .ok pages →
    u.stampOf b (d.buf - 16) d.seq d.scope = .ok stamp → flagFree b false = true → u.bandLaunch b = some l →
    u.entriesHeld b.wg < l.lr.copies → (u.locks.filter fun y => y.core == b.place.core).length < 64 →
    let err := u.stgError d pages
    let t := if d.cmd == 1 || d.cmd == 2 then u.externalEffect b.launch else u
    (∀ k q, err = 0 → t.pairFor d.drive = some (k, q) →
      exec (.stgld m) s = .next (past (.stgld m) b s
        ((storageStarted b u { t with rrPair := assocSet t.rrPair d.drive (k + 1) } d n pages 0 q stamp).updateA b m ea))) ∧
    (err ≠ 0 → exec (.stgld m) s = .next (past (.stgld m) b s ((storageStarted b u t d n pages err 0 stamp).updateA b m ea))) := by
  intro d block n hbuf hpages hstamp hf hlu he hlocks err t
  have hbody := stgldBody_eq hl hr hea halign hbs rfl hbuf hpages hstamp hf hlu he hlocks
  refine ⟨fun k q h0 hp => next_eq (issue_ok h (hbody.trans ?_)), fun h0 => next_eq (issue_ok h (hbody.trans (if_pos h0)))⟩
  have hpair : (afterEffect b (parseStg bs) u).pairFor (parseStg bs).drive = some (k, q) := hp
  have herr : u.stgError (parseStg bs) pages = 0 := h0
  rw [if_neg (not_not.2 herr), hpair, herr]
  rfl

section Watch

variable {s : State} {b : Band} {n : Fin 64} {m : MemRef} {ea : Ea} {l : Launch} {x : LaneTr} {pa page : Nat}

theorem watchBody_eq (hl : s.bandLaunch b = some l) (hr : l.lr.redn ≠ 1) (hea : s.effective b m 8 = .ok ea) (halign : ea.e.toNat % 8 = 0)
    (hwalk : s.walkFirst (s.bandCtx b) .load 8 [(0, ea.e)] = .ok ()) (htr : s.translateLanes (s.bandCtx b) .load true 8 [(0, ea.e)] = .ok [x])
    (hx : x.bytes.head? = some (pa, page)) (hp : page ≠ 3) (hs : s.inSecure pa = false) (hf : flagFree b false = true)
    (ha : s.canAlloc b 0 1 = true) :
    watchBody (.s n) m b s = match (List.range 256).find? fun k => !(s.watches.any fun w => w.slot == k) with
      | none => .ok (.next ((s.putS b n.val (~~~ 0)).updateA b m ea))
      | some k => .ok (.next (({ s.putS b n.val (BitVec.ofNat 64 k) with
          watches := (s.putS b n.val (BitVec.ofNat 64 k)).watches ++ [⟨k, pa, b.launch, s.word pa, 0, true⟩] } : State).updateA b m ea)) := by
  have hhead : (([x].map LaneTr.bytes).flatten).headD (0, 0) = (pa, page) := by
    rw [List.map_singleton, List.flatten_singleton, List.headD_eq_head?_getD, hx]
    rfl
  unfold watchBody
  simp only [notRedundant_ok hl hr, hea, checkAlign_one 0 halign, hwalk, htr, hhead, hp, hs, flag_ok hf, Control.writeS_of_canAlloc n.val _ ha, ok_bind,
    false_or, Bool.false_eq_true, if_false]
  cases (List.range 256).find? fun k => !(s.watches.any fun w => w.slot == k) <;> rfl

end Watch

theorem storageAndWatchWordResults : StorageAndWatchWordResults := by
  refine ⟨stgldCompletes, fun s b n m ea l x pa page h hl hr hea halign hwalk htr hx hp hs hf ha => ?_⟩
  have hbody := watchBody_eq (n := n) hl hr hea halign hwalk htr hx hp hs hf ha
  have hslot : ∀ k, (!(s.watches.any fun w => w.slot == k)) = false ↔ ∃ w ∈ s.watches, w.slot = k := fun k => by
    rw [Bool.not_eq_false', List.any_eq_true]
    simp only [beq_iff_eq]
  refine ⟨fun hfull => ?_, fun k hk hfree hlow => ?_⟩
  · have hnone : ((List.range 256).find? fun k => !((acting b s).watches.any fun w => w.slot == k)) = none :=
      find?_none_of fun k hk => (hslot k).2 (hfull k (List.mem_range.1 hk))
    refine next_eq (issue_ok h (hbody.trans ?_))
    rw [hnone]
  · have hsome : ((List.range 256).find? fun k => !((acting b s).watches.any fun w => w.slot == k)) = some k := by
      refine List.find?_range_eq_some.2 ⟨?_, List.mem_range.2 hk, fun j hj => ?_⟩
      · refine Bool.eq_true_of_not_eq_false fun hc => ?_
        obtain ⟨w, hw, he⟩ := (hslot k).1 hc
        exact hfree w hw he
      · rw [show (!(acting b s).watches.any fun w => w.slot == j) = false from (hslot j).2 (hlow j hj)]
        rfl
    refine next_eq (issue_ok h (hbody.trans ?_))
    rw [hsome]
    rfl

/-! ## Commands at their queue pairs (R396, R109) -/

theorem storageCommandResults : StorageCommandResults := by
  refine ⟨fun s o cmd drive nlb err j slba buf pages st ho hk hdone => ⟨fun he hst => ?_, fun k he hslot => ?_⟩,
    fun s j e o cmd drive nlb err slba buf pages x st hj hnew hop hk hassist hst => ?_,
    fun s o cmd drive nlb err j k cid at_ slba buf pages st ho hk htmo hlate hst => ?_⟩
  · refine congrArg Host.Outcome.next (show storageAssigned o.uid s = _ from ?_)
    simp only [storageAssigned, ho, hk, hdone, hst, Bool.not_true, Bool.false_eq_true, if_false, if_pos he, if_true]
  · subst he
    refine congrArg Host.Outcome.next (show storageAssigned o.uid s = _ from ?_)
    simp only [storageAssigned, ho, hk, hdone, hslot, Bool.not_true, Bool.false_eq_true, if_false, ne_eq, not_true_eq_false]
  · refine congrArg Host.Outcome.next ((if_pos hj).trans (show storageCompletion j s = _ from ?_))
    unfold storageCompletion
    simp only [hnew, hop, hk, hassist, Option.any_some, hst, Bool.not_true, Bool.false_eq_true, if_false]
    exact ite_not ..
  · refine congrArg Host.Outcome.next (show storageTimeout o.uid s = _ from ?_)
    simp only [storageTimeout, ho, hk]
    exact if_pos (by rw [decide_eq_true hlate, hst, decide_eq_true htmo]; rfl)

/-! ## The storage window (R396) -/

theorem storageWindowResults : StorageWindowResults := by
  intro s off size data hoff bs pas
  have hrun : ∀ k, exec (.storageWindowAccess k off size data) s = .next (windowAccess k off size data s) := fun k =>
    congrArg Host.Outcome.next (if_pos hoff)
  refine ⟨hrun .write, fun hnone => (hrun .read).trans ?_, fun hall => (hrun .read).trans ?_, fun hlen hsize halign hsec => (hrun .swap).trans ?_,
    fun hlen => (hrun .swap).trans ?_, fun pa hk hs => ?_⟩
  · refine congrArg Host.Outcome.next (if_pos (List.any_eq_true.2 ⟨_, hnone, ?_⟩))
    rfl
  · refine congrArg Host.Outcome.next (if_neg fun hc => ?_)
    obtain ⟨x, hx, he⟩ := List.any_eq_true.1 hc
    exact hall (eq_of_beq he ▸ hx)
  · have hform : PcieKind.atomicForm .swap size (pas.headD 0) = true := by
      unfold PcieKind.atomicForm
      rw [beq_iff_eq.2 halign, Bool.and_true]
      rcases hsize with rfl | rfl <;> rfl
    have hclear : pas.any s.inSecure = false := List.any_eq_false.2 fun p hp => ne_true_of_eq_false (hsec p hp)
    have hswap : State.outsideRam s .swap size data pas =
        if !PcieKind.atomicForm .swap size (pas.headD 0) then s.send (.pcieData none)
        else if pas.any s.inSecure then (s.outsideRefused pas).send (.pcieData (some 0))
        else (s.outsideWrite (pas.zipIdx.map fun x => (x.1, byteOf data x.2))).send (.pcieData (some (leNat (pas.map s.outsideByte)))) := rfl
    refine congrArg Host.Outcome.next ((if_pos hlen).trans (hswap.trans ?_))
    rw [hform, hclear]
    rfl
  · exact congrArg Host.Outcome.next (if_neg hlen)
  · rw [State.outsideByte, hk, State.ramByte, hs]
    rfl

/-- Settles O24: the two words by their bodies, commands and window by the equations of their events. -/
theorem storageResults : Obligations.StorageResults := ⟨storageAndWatchWordResults, storageCommandResults, storageWindowResults⟩

end Sys2Proof.Proofs.Storage
end

section
/-! SUPPORT. The words of reductions, norms, scalars, publications and the Weir (R273 to R280). -/

namespace Sys2Proof.Proofs.CollectiveWords

open Sys2Proof Sys2Proof.Machine Sys2Proof.Stated Sys2Proof.Laws Sys2Proof.Proofs.Pieces Sys2Proof.Proofs.MemoryWords Sys2Proof.Proofs.EngineWords
  Sys2Proof.Proofs.Storage Sys2Proof.Proofs.MatrixUnit

theorem needSlot_ok {s : State} {b : Band} (h : s.slotsHeld b.wg < 32) : s.needSlot b = .ok () := if_neg (Nat.not_le.2 h)

/-! ## CRS and GSGET (R274, R280) -/

theorem crsBody_ok {s u : State} {b : Band} {m : MemRef} {ea : Ea} {bs : List Byte} {l : Launch} {t : PGTable} {g : PGroup} {k : Bucket}
    (hl : s.bandLaunch b = some l) (hr : l.lr.redn ≠ 1) (hea : s.effective b m 64 = .ok ea) (halign : ea.e.toNat % 64 = 0)
    (hbs : Described b ea.e 64 s bs u) (hlu : u.bandLaunch b = some l) (ht : l.pg = some t) (hk : parseBucket bs = k) (hg : l.group? k.pgrp = some g)
    (hok : k.ok g b.rank = true) (hz : zeroBytes bs 49 64 = true) (hstore : u.checkStore b k.recVa 32 = .ok ()) (hf : flagFree b false = true)
    (hslot : u.slotsHeld b.wg < 32) (hdone : u.accessesDone b = true) :
    crsBody m b s = .ok (.next (((u.noteRecord (u.bandCtx b) k.recVa).submitCrs b l t g k).updateA b m ea)) := by
  unfold crsBody
  simp only [notRedundant_ok hl hr, hea, halign, ne_eq, not_true_eq_false, if_false, withDesc_ok hbs, hlu, ht, hk, hg, hok, hz, Bool.and_self, need_true,
    hstore, flag_ok hf, needSlot_ok hslot, hdone, holdUnless_true, ok_bind]
  rfl

theorem gsgetBody_ok {s : State} {b : Band} {n : Fin 64} {j x : Nat} {older : Bool} (hn : n.val % 2 = 0) (hj : j ≤ 5) (hf : flagFree b true = true)
    (ha : s.canAlloc b 0 2 = true) :
    let v := gsValue ((s.gOf x).pick older) j
    gsgetBody (.s n) j older x b s = .ok (.next ((((s.invalidateL1 b.place.core).startOp b true (.arith .tagS2 (.pair v.1 v.2.1) v.2.2)).awaitS b n.val
      s.nextUid 0).awaitS b (n.val + 1) s.nextUid 1)) := by
  have hform : (n.val % 2 == 0 && decide (j ≤ 5)) = true := by rw [hn, decide_eq_true hj]; rfl
  unfold gsgetBody
  simp only [hform, need_true, flag_ok hf, alloc_ok ha, ok_bind]
  rfl

theorem reduceAndNormWordResults : ReduceAndNormWordResults := by
  refine ⟨fun s u b m ea bs l t g h hl hr hea halign hbs hlu ht hg hok hz hstore hf hslot hdone => ?_, fun s b n j g x h hn hj hf ha => ?_⟩
  · exact next_eq (issue_ok h (crsBody_ok hl hr hea halign hbs hlu ht rfl hg hok hz hstore hf hslot hdone))
  · exact next_eq (issue_ok h (gsgetBody_ok hn hj hf ha))

/-! ## CSCAL and CAG (R276, R277) -/

theorem cscalBody_ok {s u : State} {b : Band} {a p : Opnd} {v e : W64} {bs : List Byte} {l : Launch} {t : PGTable} {g : PGroup} {k : ScalarDesc}
    (hl : s.bandLaunch b = some l) (hr : l.lr.redn ≠ 1) (hv : s.scalarSrc b false a = .ok v) (he : s.scalarSrc b false p = .ok e)
    (halign : e.toNat % 32 = 0) (hbs : Described b e 32 s bs u) (hlu : u.bandLaunch b = some l) (ht : l.pg = some t) (hk : parseScalar bs = k)
    (hg : l.group? k.pgrp = some g) (hok : k.ok g b.rank = true) (hz : zeroBytes bs 24 32 = true) (hstore : u.checkStore b k.recVa 32 = .ok ())
    (hf : flagFree b false = true) (hslot : u.slotsHeld b.wg < 32) (hdone : u.accessesDone b = true) :
    cscalBody a p b s = .ok (.next ((u.noteRecord (u.bandCtx b) k.recVa).submitScalar b l t g k v)) := by
  unfold cscalBody
  simp only [notRedundant_ok hl hr, hv, he, halign, ne_eq, not_true_eq_false, if_false, withDesc_ok hbs, hlu, ht, hk, hg, hok, hz, Bool.and_self,
    need_true, hstore, flag_ok hf, needSlot_ok hslot, hdone, holdUnless_true, ok_bind]
  rfl

/-- The band's rank may publish to the group that a CAG names: a member of it, or group 0 of a launch without a table (R277). -/
def mayPublish (l : Launch) (pgrp rank : Nat) : Bool :=
  match l.pg with
  | some _ => (match l.group? pgrp with | some g => g.has rank | none => false)
  | none => pgrp == 0

theorem mayPublish_of {l : Launch} {pgrp rank : Nat} (hno : l.pg = none → pgrp = 0)
    (hyes : l.pg.isSome = true → ∃ g, l.group? pgrp = some g ∧ g.has rank = true) : mayPublish l pgrp rank = true := by
  unfold mayPublish
  cases hp : l.pg with
  | none => exact beq_iff_eq.2 (hno hp)
  | some t =>
    obtain ⟨g, hg, hrank⟩ := hyes (by rw [hp]; rfl)
    simp only [hg, hrank]

theorem cagBody_ok {s u : State} {b : Band} {m : MemRef} {ea : Ea} {bs : List Byte} {l : Launch} {d : CagDesc} (hl : s.bandLaunch b = some l)
    (hr : l.lr.redn ≠ 1) (hpriv : (l.pg.isSome || b.privileged) = true) (hea : s.effective b m 64 = .ok ea) (halign : ea.e.toNat % 64 = 0)
    (hbs : Described b ea.e 64 s bs u) (hd : parseCag bs = d) (hok : d.ok = true) (hz : zeroBytes bs 32 64 = true)
    (hpub : mayPublish l d.pgrp b.rank = true) (hstore : u.checkStore b d.recVa 32 = .ok ())
    (hwalk : u.walkFirst (u.bandCtx b) .load 1 [(0, d.dst)] = .ok ()) (hver : u.versionedPage (u.bandCtx b) d.dst = true)
    (hf : flagFree b false = true) (hslot : u.slotsHeld b.wg < 32) (hdone : u.accessesDone b = true) :
    cagBody m b s = .ok (.next (((u.noteRecord (u.bandCtx b) d.recVa).submitCag b l d).updateA b m ea)) := by
  have hallowed : (l.pg.isNone && !b.privileged) = false := by
    cases hp : l.pg with
    | none => rw [hp] at hpriv; rw [show b.privileged = true from hpriv]; rfl
    | some t => rfl
  have hform : (d.ok && zeroBytes bs 32 64 && (match l.pg with
      | some _ => (match l.group? d.pgrp with | some g => g.has b.rank | none => false)
      | none => d.pgrp == 0)) = true := by
    rw [hok, hz]
    exact hpub
  unfold cagBody
  simp only [notRedundant_ok hl hr, hea, hl, hallowed, halign, ne_eq, not_true_eq_false, if_false, withDesc_ok hbs, hd, hstore, hwalk, hver,
    flag_ok hf, needSlot_ok hslot, hdone, holdUnless_true, Bool.not_true, Bool.false_eq_true, ok_bind]
  exact (congrArg (fun c => need c >>= _) hform).trans rfl

theorem scalarAndGatherWordResults : ScalarAndGatherWordResults := by
  refine ⟨fun s u b a p v e bs l t g h hl hr hv he halign hbs hlu ht hg hok hz hstore hf hslot hdone => ?_,
    fun s u b m ea bs l h hl hr hpriv hea halign hbs hok hz hno hyes hstore hwalk hver hf hslot hdone => ?_⟩
  · exact next_eq (issue_ok h (cscalBody_ok hl hr hv he halign hbs hlu ht rfl hg hok hz hstore hf hslot hdone))
  · exact next_eq (issue_ok h (cagBody_ok hl hr hpriv hea halign hbs rfl hok hz (mayPublish_of hno hyes) hstore hwalk hver hf hslot hdone))

/-! ## STEP and STEPRD (R278, R279) -/

section Step

variable {s : State} {b : Band} {l : Launch} {t : PGTable} {g : PGroup} {w : WeirGroup}

theorem stepping_ok (hl : s.bandLaunch b = some l) (ht : l.pg = some t) (hg : l.group? 0 = some g) (hw : s.weirOf l.lr.lid.toNat = some w) :
    s.stepping b = .ok (l, t, g, w) := by
  unfold State.stepping
  simp only [hl, ht, hg, hw]

theorem stepBody_eq {e : WeirEntry} (hs : s.stepping b = .ok (l, t, g, w)) (he : w.rank? b.rank = some e) :
    stepBody b s = if verNewer (e.step + 1) (w.floor + BitVec.ofNat 32 w.lead) then .error (.wait .step)
      else .ok (.next (((s.setWeir (w.put { e with step := e.step + 1, taken := e.taken + 1 })).sendSteps t g l.lr.lid.toNat
        [{ e with step := e.step + 1, taken := e.taken + 1 }]).retrySteps)) := by
  unfold stepBody
  simp only [hs, he, ok_bind]
  rfl

theorem steprdBody_ok {n : Fin 64} {a : Opnd} {sel arg : Nat} {x : W64} (hs : s.stepping b = .ok (l, t, g, w))
    (harg : 3 ≤ sel → s.stepArg b a = .ok arg) (hzero : sel < 3 → arg = 0) (hx : weirRead b sel t g w arg = .ok x)
    (hf : flagFree b true = true) (ha : s.canAlloc b 0 1 = true) :
    steprdBody (.s n) a sel b s = .ok (.next ((s.startOp b true (.arith .tagS (.scalar x) 0)).awaitS b n.val s.nextUid 0)) := by
  unfold steprdBody
  by_cases hsel : 3 ≤ sel
  · simp only [if_pos hsel, harg hsel, hs, hx, flag_ok hf, alloc_ok ha, ok_bind]
    rfl
  · cases hzero (Nat.lt_of_not_le hsel)
    simp only [if_neg hsel, pure_bind, hs, hx, flag_ok hf, alloc_ok ha, ok_bind]
    rfl

end Step

theorem stepWordResults : StepWordResults := by
  refine ⟨fun s b l t g w e h hl ht hg hw he => ?_, fun s b n a imm l t g w arg x h hl ht hg hw harg hzero hx hf ha => ?_⟩
  · have hbody := stepBody_eq (stepping_ok hl ht hg hw) he
    refine ⟨fun hn => next_eq (issue_ok h (hbody.trans (if_neg (ne_true_of_eq_false hn)))), fun hn => next_eq ?_⟩
    rw [issue_legal _ h, hbody, if_pos hn]
  · exact next_eq (issue_ok h (steprdBody_ok (stepping_ok hl ht hg hw) harg hzero hx hf ha))

/-- Settles O25: each word by its body. -/
theorem collectiveWordResults : Obligations.CollectiveWordResults :=
  ⟨reduceAndNormWordResults, scalarAndGatherWordResults, stepWordResults⟩

end Sys2Proof.Proofs.CollectiveWords
end

section
/-! SUPPORT. What reaches the Flumes of a device: contributions, hops, acknowledgements and norms (R349 to R358). -/

namespace Sys2Proof.Proofs.FlumeEvents

open Sys2Proof Sys2Proof.Machine Sys2Proof.Stated Sys2Proof.Laws Sys2Proof.Proofs.Pieces Sys2Proof.Proofs.Reports

/-! ## Contributions (R349, R350, R351) -/

theorem contributionResults : ContributionResults := by
  refine ⟨fun s u o owner c l t err ho hk hl ht hmem hnot hserve hread => ?_, fun s owner m l hl => ?_⟩
  · have hgo : (!c.owners.contains owner || c.acked.contains owner || !t.serves owner) = false := by
      rw [List.contains_iff_mem.2 hmem, hserve, Bool.eq_false_iff.2 fun h => hnot (List.contains_iff_mem.1 h)]
      rfl
    have hrun : exec (.contributionArrival (.own o.uid owner)) s = .next (contribOwn o.uid owner s) := rfl
    rw [hrun]
    unfold contribOwn
    simp only [ho, hk, hl, ht, hgo, Bool.false_eq_true, if_false]
    rw [hread]
    refine ⟨fun he => ?_, fun e he => ?_⟩
    · rw [he]
    · rw [he]
  · refine congrArg Host.Outcome.next (show contribRemote owner m s = _ from ?_)
    unfold contribRemote
    simp only [hl]
    rfl

/-! ## Messages to a device leave the launches and the norms alone (R367) -/

/-- A launch without what writes to memory may change of it: whether its dependences are met (R329). -/
def bareLaunch (l : Launch) : Launch := { l with deps := [] }

/-- What a step-closed point goes by: the launches, the norms and the points reached. -/
def normView (s : State) : List Launch × List Norm × List (Nat × Nat × W32) := (s.launches.map bareLaunch, s.norms, s.stepClosed)

theorem normView_quiet : Quiet normView where
  wake s pa := by
    unfold normView State.wake
    rw [List.map_map]
    rfl
  cells _ _ _ _ := rfl
  send _ _ := rfl
  stray _ _ := rfl
  events _ _ _ _ _ := rfl
  ring _ _ := rfl
  pending _ _ := rfl
  celog _ _ := rfl
  errs _ _ := rfl

theorem reply_normView (s : State) (lid : W32) (dev : Nat) (x : Sent) : normView (s.reply lid dev x) = normView s := by
  have hreach : normView (s.reach dev).2 = normView s := by
    unfold State.reach
    split
    · rfl
    · split
      · rfl
      · exact physTouch_quiet normView_quiet s _ _ _
  unfold State.reply State.sendTo
  generalize s.reach dev = r at hreach ⊢
  obtain ⟨ok, t⟩ := r
  cases ok with
  | false =>
    have hpost : normView (t.peerEvent lid dev) = normView t := post_quiet normView_quiet _ _
    exact hpost.trans hreach
  | true => exact hreach

/-- The launch of an identifier, as far as writes leave it alone. -/
theorem byLid_of_launches {s t : State} {lid : Nat} {l : Launch} (h : t.launches.map bareLaunch = s.launches.map bareLaunch) (hl : s.byLid lid = some l) :
    ∃ l', t.byLid lid = some l' ∧ l'.pg = l.pg := by
  have hfind : ∀ u : State, (u.byLid lid).map bareLaunch =
      (u.launches.map bareLaunch).find? fun l => l.lr.lid.toNat == lid && l.pg.isSome && (l.phase == .active || l.phase == .killing) := fun u => by
    rw [List.find?_map]
    rfl
  have hsame : (t.byLid lid).map bareLaunch = some (bareLaunch l) := by
    rw [hfind t, h, ← hfind s, hl]
    rfl
  obtain ⟨l', hl', he⟩ := Option.map_eq_some_iff.1 hsame
  exact ⟨l', hl', (congrArg Launch.pg he : (bareLaunch l').pg = (bareLaunch l).pg)⟩

/-! ## The step-closed point (R353, R357) -/

def sameNorm (a b : Norm) : Bool := a.lid == b.lid && a.pgrp == b.pgrp && a.step == b.step && a.j == b.j

theorem mem_setNorm {s : State} {m n : Norm} (h : m ∈ (s.setNorm n).norms) : m ∈ s.norms ∧ sameNorm m n = false ∨ m = n := by
  rcases List.mem_append.1 h with h | h
  · obtain ⟨hm, hk⟩ := List.mem_filter.1 h
    exact .inl ⟨hm, (Bool.not_eq_true' _).mp hk⟩
  · exact .inr (List.mem_singleton.1 h)

theorem sameNorm_self (n : Norm) : sameNorm n n = true := by simp [sameNorm]

/-- A norm that closes stays as it is but for that. -/
theorem closeNorm_kept (s : State) (n : Norm) : (s.closeNorm n).launches = s.launches ∧ (s.closeNorm n).stepClosed = s.stepClosed ∧
    ((s.closeNorm n).norms = s.norms ∨ (s.closeNorm n).norms = (s.setNorm { n with closed := true }).norms) := by
  unfold State.closeNorm
  split
  · exact ⟨rfl, rfl, .inl rfl⟩
  · split
    · dsimp only
      split
      · exact ⟨rfl, rfl, .inr rfl⟩
      · exact ⟨rfl, rfl, .inl rfl⟩
    · exact ⟨rfl, rfl, .inl rfl⟩

section Send

variable {s : State} {n : Norm} {l : Launch} {t : PGTable} {g : PGroup}

/-- A norm partial that is sent changes its own norm, which counts as sent from then on. -/
theorem sendNorm_kept (hl : s.byLid n.lid = some l) (ht : l.pg = some t) (hg : l.group? n.pgrp = some g) :
    (s.sendNorm n).launches.map bareLaunch = s.launches.map bareLaunch ∧ (s.sendNorm n).stepClosed = s.stepClosed ∧
      ∀ m ∈ (s.sendNorm n).norms, m ∈ s.norms ∧ sameNorm m n = false ∨ m.sent = true := by
  unfold State.sendNorm
  simp only [hl, ht, hg]
  generalize hmsg : (⟨n.lid, n.pgrp, n.step, n.j, BitVec.ofNat 21 s.devid, n.own, n.side⟩ : NormMsg) = msg
  generalize hn : ({ n with sent := true, got := n.got ++ [msg] } : Norm) = n'
  have hsent : n'.sent = true := hn ▸ rfl
  have hkey : ∀ m, sameNorm m n' = sameNorm m n := fun m => hn ▸ rfl
  generalize hu : ((t.positions g).map t.devAt).foldl (fun u d => if d == s.devid then u else u.reply l.lr.lid d (.norm d msg)) s = u
  have hview : normView u = normView s := hu ▸ foldl_kept normView _ (fun v d => by
    split
    · rfl
    · exact reply_normView v _ _ _) _ _
  obtain ⟨hlaunch, hclosed, hnorms⟩ := closeNorm_kept (u.setNorm n') n'
  refine ⟨(congrArg _ hlaunch).trans (congrArg Prod.fst hview), hclosed.trans (congrArg (fun v => v.2.2) hview), fun m hm => ?_⟩
  have hset : m ∈ (u.setNorm n').norms → m ∈ s.norms ∧ sameNorm m n = false ∨ m.sent = true := fun h => by
    rcases mem_setNorm h with ⟨h, hk⟩ | rfl
    · exact .inl ⟨(congrArg (fun v => v.2.1) hview : u.norms = s.norms) ▸ h, (hkey m).symm.trans hk⟩
    · exact .inr hsent
  rcases hnorms with h | h
  · exact hset (h ▸ hm)
  · rw [h] at hm
    rcases mem_setNorm hm with ⟨hm, -⟩ | rfl
    · exact hset hm
    · exact .inr hsent

end Send

/-- Norms that are sent one after the other have been sent in the end. -/
theorem foldl_sendNorm {lid pgrp : Nat} {st : W32} {l : Launch} {t : PGTable} {g : PGroup} (ht : l.pg = some t) (hg : t.group? pgrp = some g) :
    ∀ (ns : List Norm) (s : State), (∀ n ∈ ns, n.lid = lid ∧ n.pgrp = pgrp) → (∃ l', s.byLid lid = some l' ∧ l'.pg = l.pg) →
      (∀ m ∈ s.norms, m.lid = lid → m.pgrp = pgrp → m.step = st → m.sent = true ∨ m ∈ ns) →
      (ns.foldl State.sendNorm s).stepClosed = s.stepClosed ∧
        ∀ m ∈ (ns.foldl State.sendNorm s).norms, m.lid = lid → m.pgrp = pgrp → m.step = st → m.sent = true
  | [], s, _, _, hs => ⟨rfl, fun m hm h1 h2 h3 => (hs m hm h1 h2 h3).resolve_right List.not_mem_nil⟩
  | n :: ns, s, hns, ⟨l', hl', hpg⟩, hs => by
    obtain ⟨hlid, hpgrp⟩ := hns n (List.mem_cons_self ..)
    have htab : l'.pg = some t := hpg.trans ht
    have hgroup : l'.group? n.pgrp = some g := by rw [Launch.group?, htab, hpgrp]; exact hg
    obtain ⟨hlaunch, hclosed, hnorms⟩ := sendNorm_kept (hlid ▸ hl') htab hgroup
    have hl'' : ∃ l'', (s.sendNorm n).byLid lid = some l'' ∧ l''.pg = l.pg := by
      obtain ⟨l'', hl'', hpg'⟩ := byLid_of_launches hlaunch hl'
      exact ⟨l'', hl'', hpg'.trans hpg⟩
    obtain ⟨hc, hm⟩ := foldl_sendNorm ht hg ns (s.sendNorm n) (fun x hx => hns x (List.mem_cons_of_mem n hx)) hl'' fun m hm h1 h2 h3 => by
      rcases hnorms m hm with ⟨hold, hk⟩ | hsent
      · refine (hs m hold h1 h2 h3).imp_right fun hmem => (List.mem_cons.1 hmem).resolve_left fun he => ?_
        rw [he, sameNorm_self] at hk
        exact Bool.noConfusion hk
      · exact .inl hsent
    exact ⟨hc.trans hclosed, hm⟩

/-- The state in which a step's closed point counts as reached. -/
def pointReached (lid pgrp : Nat) (st : W32) (s : State) : State :=
  { s with
    stepClosed := s.stepClosed ++ [(lid, pgrp, st)]
    closedHere := s.closedHere.filter fun k => !(k.lid == lid && k.pgrp == pgrp && k.step == st) }

/-- The norms of a step that are still to be sent. -/
def unsentNorms (lid pgrp : Nat) (st : W32) (s : State) : List Norm :=
  s.norms.filter fun n => n.lid == lid && n.pgrp == pgrp && n.step == st && !n.sent

theorem stepClosedPoint_eq {s : State} {lid pgrp : Nat} {st : W32} {l : Launch} {t : PGTable} {g : PGroup} (hl : s.byLid lid = some l)
    (ht : l.pg = some t) (hg : l.group? pgrp = some g) (hnew : (lid, pgrp, st) ∉ s.stepClosed) (hat : s.atClosedPoint l t g pgrp st = true) :
    ∃ e, stepClosedPoint lid pgrp st s = (unsentNorms lid pgrp st ((pointReached lid pgrp st s).post e)).foldl State.sendNorm
      ((pointReached lid pgrp st s).post e) := by
  have hgo : (s.stepClosed.contains (lid, pgrp, st) || !s.atClosedPoint l t g pgrp st) = false := by
    rw [hat, Bool.eq_false_iff.2 fun h => hnew (List.contains_iff_mem.1 h)]
    rfl
  unfold stepClosedPoint
  simp only [hl, ht, hg, hgo, Bool.false_eq_true, if_false]
  exact ⟨_, rfl⟩

theorem stepClosedPoint_sent {s : State} {lid pgrp : Nat} {st : W32} {l : Launch} {t : PGTable} {g : PGroup} (hl : s.byLid lid = some l)
    (ht : l.pg = some t) (hg : l.group? pgrp = some g) (hnew : (lid, pgrp, st) ∉ s.stepClosed) (hat : s.atClosedPoint l t g pgrp st = true) :
    (stepClosedPoint lid pgrp st s).stepClosed = s.stepClosed ++ [(lid, pgrp, st)] ∧
      ∀ n ∈ (stepClosedPoint lid pgrp st s).norms, n.lid = lid → n.pgrp = pgrp → n.step = st → n.sent = true := by
  obtain ⟨e, he⟩ := stepClosedPoint_eq hl ht hg hnew hat
  have hview : normView ((pointReached lid pgrp st s).post e) = normView (pointReached lid pgrp st s) := post_quiet normView_quiet _ e
  have hgt : t.group? pgrp = some g := by rw [Launch.group?, ht] at hg; exact hg
  rw [he]
  generalize (pointReached lid pgrp st s).post e = v at hview
  have hlaunch : v.launches.map bareLaunch = s.launches.map bareLaunch := congrArg Prod.fst hview
  have hclosed : v.stepClosed = s.stepClosed ++ [(lid, pgrp, st)] := congrArg (fun w => w.2.2) hview
  have hkeys : ∀ n ∈ unsentNorms lid pgrp st v, n.lid = lid ∧ n.pgrp = pgrp := fun n hn => by
    have hk := (List.mem_filter.1 hn).2
    simp only [Bool.and_eq_true, beq_iff_eq] at hk
    exact hk.1.1
  have hall : ∀ m ∈ v.norms, m.lid = lid → m.pgrp = pgrp → m.step = st → m.sent = true ∨ m ∈ unsentNorms lid pgrp st v := fun m hm h1 h2 h3 => by
    cases hs : m.sent with
    | true => exact .inl rfl
    | false => exact .inr (List.mem_filter.2 ⟨hm, by simp [h1, h2, h3, hs]⟩)
  obtain ⟨hc, hm⟩ := foldl_sendNorm ht hgt (unsentNorms lid pgrp st v) v hkeys (byLid_of_launches hlaunch hl) hall
  exact ⟨hc.trans hclosed, hm⟩

/-! ## Timers, acknowledgements, hops, norms and the emptying of g registers -/

theorem gOf_clearG (s : State) (v : W64) (j : Nat) : (s.clearG v).gOf j = if v.getLsbD j then ⟨j, none, none⟩ else s.gOf j := by
  unfold State.gOf State.clearG
  rw [List.find?_filter]
  by_cases hj : v.getLsbD j = true
  · have hnone : s.gregs.find? (fun g => decide ((!v.getLsbD g.j) = true ∧ (g.j == j) = true)) = none := List.find?_eq_none.2 fun g _ hg => by
      obtain ⟨h1, h2⟩ := of_decide_eq_true hg
      rw [beq_iff_eq.1 h2, hj] at h1
      exact Bool.noConfusion h1
    rw [if_pos hj, hnone]
    rfl
  · have hsame : (fun g : GReg => decide ((!v.getLsbD g.j) = true ∧ (g.j == j) = true)) = fun g => g.j == j := funext fun g => by
      by_cases hg : g.j = j
      · rw [hg, Bool.eq_false_iff.2 hj, beq_self_eq_true]
        rfl
      · rw [beq_eq_false_iff_ne.2 hg]
        exact decide_eq_false fun h => Bool.false_ne_true h.2
    rw [if_neg hj, hsame]

theorem normArrival_eq {s : State} {m : NormMsg} {l : Launch} {n : Norm} (hl : s.byLid m.lid = some l) (hn : s.normOf m.lid m.pgrp m.step m.j = n) :
    normArrival m s = if n.closed || n.got.any (fun x => x.dev == m.dev) then s else s.updateNorm { n with got := n.got ++ [m] } := by
  unfold normArrival
  simp only [hl, hn, Option.isSome_some, if_true]

theorem normArrival_dropped {s : State} {m : NormMsg} {l : Launch} {n : Norm} (hl : s.byLid m.lid = some l)
    (hn : s.normOf m.lid m.pgrp m.step m.j = n) (h : n.closed = true ∨ ∃ x ∈ n.got, x.dev = m.dev) : normArrival m s = s := by
  rw [normArrival_eq hl hn]
  refine if_pos (Bool.or_eq_true_iff.2 (h.imp_right fun ⟨x, hx, he⟩ => List.any_eq_true.2 ⟨x, hx, beq_iff_eq.2 he⟩))

theorem normArrival_joins {s : State} {m : NormMsg} {l : Launch} {n : Norm} (hl : s.byLid m.lid = some l)
    (hn : s.normOf m.lid m.pgrp m.step m.j = n) (hc : n.closed = false) (hg : ∀ x ∈ n.got, x.dev ≠ m.dev) :
    normArrival m s = s.updateNorm { n with got := n.got ++ [m] } := by
  have hopen : n.got.any (fun x => x.dev == m.dev) = false := List.any_eq_false.2 fun x hx he => hg x hx (eq_of_beq he)
  rw [normArrival_eq hl hn, hc, hopen]
  exact if_neg Bool.false_ne_true

theorem updateNorm_held {s : State} {n : Norm} (h : n.sent = true ∨ (n.lid, n.pgrp, n.step) ∉ s.stepClosed) :
    s.updateNorm n = (s.setNorm n).closeNorm n := by
  refine if_neg fun hx => ?_
  obtain ⟨h1, h2⟩ := Bool.and_eq_true_iff.1 hx
  rcases h with h | h
  · rw [h] at h1
    exact Bool.noConfusion h1
  · exact h (List.contains_iff_mem.1 h2)

theorem updateNorm_sends {s : State} {n : Norm} (hs : n.sent = false) (h : (n.lid, n.pgrp, n.step) ∈ s.stepClosed) : s.updateNorm n = s.sendNorm n :=
  if_pos (by rw [hs, List.contains_iff_mem.2 h]; rfl)

theorem normPartialResults (s : State) (m : NormMsg) (l : Launch) (hl : s.byLid m.lid = some l) (n : Norm) (hn : s.normOf m.lid m.pgrp m.step m.j = n) :
    (n.closed = true ∨ (∃ x ∈ n.got, x.dev = m.dev) → exec (.normPartialArrival m) s = .next s) ∧
    (n.closed = false → (∀ x ∈ n.got, x.dev ≠ m.dev) →
      (n.sent = true ∨ (n.lid, n.pgrp, n.step) ∉ s.stepClosed → exec (.normPartialArrival m) s =
        .next ((s.setNorm { n with got := n.got ++ [m] }).closeNorm { n with got := n.got ++ [m] })) ∧
      (n.sent = false → (n.lid, n.pgrp, n.step) ∈ s.stepClosed → exec (.normPartialArrival m) s =
        .next (s.sendNorm { n with got := n.got ++ [m] }))) := by
  have hrun : exec (.normPartialArrival m) s = .next (normArrival m s) := rfl
  rw [hrun]
  refine ⟨fun h => next_eq (normArrival_dropped hl hn h), fun hc hg => ?_⟩
  rw [normArrival_joins hl hn hc hg]
  exact ⟨fun h => next_eq (updateNorm_held h), fun hs h => next_eq (updateNorm_sends hs h)⟩

theorem ringAdd_owner (m : RingMsg) (rank : Nat) (es : List Elem) : (ringAdd m rank es).owner = m.owner := by
  unfold ringAdd
  dsimp only
  split <;> rfl

/-- A contribution that joins a block leaves it with the owner that it goes to. -/
theorem ringJoin_owner (s : State) (m : RingMsg) : (s.ringJoin m).1.owner = m.owner := by
  unfold State.ringJoin
  split
  · split
    · extract_lets key mine ix n
      have hn : n.owner = m.owner := by unfold n; split <;> rfl
      clear_value n
      split
      · rfl
      · split
        · rfl
        · exact (ringAdd_owner n _ _).trans hn
    · rfl
  · rfl

theorem flumeEventResults : FlumeEventResults := by
  refine ⟨fun s k r hr => next_eq ?_, fun s o owner c x l t ho hk hl ht hs hc => next_eq ?_,
    fun s op owner lid l hl => next_eq ?_, fun s lid pgrp st l t g hl ht hg hnew hat => ⟨_, rfl, stepClosedPoint_sent hl ht hg hnew hat⟩,
    fun s m l t hl ht hs hf => next_eq ?_, fun s m l hl => normPartialResults s m l hl _ rfl, fun s v => ⟨s.clearG v, rfl, rfl, gOf_clearG s v⟩⟩
  · show quorumTimer k s = _
    rw [quorumTimer, hr]
    rfl
  · show ownerAck o.uid owner c s = _
    have hbind : (s.launch? o.launch).bind Launch.pg = some t := by rw [hl]; exact ht
    unfold ownerAck
    split
    next lid => exact absurd rfl (hc lid)
    · simp only [ho, hk, hbind, hs, Bool.false_eq_true, if_false]
  · show s.faultHeard lid = _
    rw [State.faultHeard, hl]
  · show ringHop m s = _
    have hbind : (s.byLid m.key.lid).bind Launch.pg = some t := by rw [hl]; exact ht
    have hempty : (s.ringJoin m).1.folded.isEmpty = false := Bool.eq_false_iff.2 fun h => hf (List.isEmpty_iff.1 h)
    unfold ringHop
    simp only [hbind, hempty, ringJoin_owner, hs, Bool.false_eq_true, if_false]

/-- Settles O26: contributions by their two equations, the Flume's events each by its own. -/
theorem reductionResults : Obligations.ReductionResults := ⟨contributionResults, flumeEventResults⟩

end Sys2Proof.Proofs.FlumeEvents
end

section
/-! SUPPORT. Scalars and publications as they arrive (R356, R277), and what the Weir hears, counts silent and releases (R361 to R366, R418). -/

namespace Sys2Proof.Proofs.WeirEvents

open Sys2Proof Sys2Proof.Machine Sys2Proof.Stated Sys2Proof.Laws Sys2Proof.Proofs.Pieces

theorem foldl_noop {α β : Type} {step : β → α → β} {s : β} : ∀ {xs : List α}, (∀ x ∈ xs, step s x = s) → xs.foldl step s = s
  | [], _ => rfl
  | x :: xs, h => by
    rw [List.foldl_cons, h x (List.mem_cons_self ..)]
    exact foldl_noop fun y hy => h y (List.mem_cons_of_mem x hy)

theorem insertAsc_last {a : Nat} : ∀ {l : List Nat}, (∀ k ∈ l, k < a) → insertAsc l a = l ++ [a]
  | [], _ => rfl
  | x :: l, h => by
    have hx : x < a := h x (List.mem_cons_self ..)
    rw [insertAsc, if_pos hx, insertAsc_last fun k hk => h k (List.mem_cons_of_mem x hk)]
    rfl

/-! ## Scalars (R356) -/

theorem scalarTimer_eq {s : State} {lid pgrp : Nat} {st : W32} {x : ScalarStep} (hx : s.scalarStep? lid pgrp st = some x) (hc : x.closed = false)
    (hd : x.deadline ≤ s.cycle) : scalarTimer lid pgrp st s = if (s.reg 0x2108).getLsbD 62 then
      if x.expired then s else (s.setScalar { x with expired := true }).post
        (s.eventOf 0x55 (BitVec.ofNat 32 lid) (stepDetail ⟨lid, pgrp, 0, st⟩) x.vals.length)
      else s.closeScalar x stTimer := by
  have hgo : (x.closed || decide (s.cycle < x.deadline)) = false := by rw [hc, decide_eq_false (Nat.not_lt.2 hd)]; rfl
  unfold scalarTimer
  simp only [hx, hgo, Bool.false_eq_true, if_false]

theorem scalarResult_eq {s : State} {r : ScalarResult} {o : Op} {opc typ q tm at_ : Nat} {recVa v : W64} {sent late : Bool}
    (ho : s.op? r.tag = some o) (hk : o.kind = .cscal r.rank r.step opc typ r.pgrp q tm recVa v at_ sent late) :
    scalarResult r s = s.scalarRecord r.tag r.status r.non r.nlate r.ndrop r.result := by
  unfold scalarResult
  simp only [ho, Option.map_some, hk, decide_true, Bool.and_self, if_true]

/-! ## Chunks (R277) -/

section Chunk

variable {s : State} {x : CagIn} {c : CagChunk} {l : Launch}

theorem takeChunk_ended (hl : s.launch? x.launch = some l) (h : x.ended = true ∨ c.chunk ∈ x.got) : s.takeChunk x c = s := by
  unfold State.takeChunk
  simp only [hl]
  exact if_pos (Bool.or_eq_true_iff.2 (h.imp_right List.contains_iff_mem.2))

/-- A chunk that is still wanted is delivered, and joins, waits or ends the device's part by what that comes to. -/
theorem takeChunk_eq (hl : s.launch? x.launch = some l) (he : x.ended = false) (hg : c.chunk ∉ x.got)
    (hgone : s.chunkGone l s.someFlume x.rank x.ver c.dst x.sets = false) :
    let d := (s.tick 1).deliver l s.someFlume x.rank x.ver c.dst c.data c.bad
    let y : CagIn := { x with held := x.held.filter fun z => z.chunk != c.chunk }
    (d.2 = .waits → s.takeChunk x c = d.1.setCagIn { y with held := y.held ++ [c] }) ∧
    (∀ e, d.2 = .failed e → s.takeChunk x c = d.1.endCagIn y l.lr.lid (.failed (BitVec.ofNat 3 e))) ∧
    (∀ set closed, d.2 = .taken set closed → x.got.length + 1 < x.nchk → (∀ k ∈ x.got, k < c.chunk) →
      s.takeChunk x c = d.1.setCagIn { y with got := x.got ++ [c.chunk], sets := d.2.sets x.sets }) := by
  have hgo : (x.ended || x.got.contains c.chunk) = false := by
    rw [he, Bool.eq_false_iff.2 fun h => hg (List.contains_iff_mem.1 h)]
    rfl
  unfold State.takeChunk
  simp only [hl, hgo, hgone, Bool.false_eq_true, if_false]
  generalize (s.tick 1).deliver l s.someFlume x.rank x.ver c.dst c.data c.bad = d'
  obtain ⟨t, v⟩ := d'
  refine ⟨fun hd => ?_, fun e hd => ?_, fun set closed hd hn hk => ?_⟩
  · cases (hd : v = _)
    rfl
  · cases (hd : v = _)
    rfl
  · cases (hd : v = _)
    have hlen : (x.got ++ [c.chunk]).length < x.nchk := by rwa [List.length_append]
    simp only [insertAsc_last hk, if_pos hlen]

end Chunk

theorem cagDeviceDone_eq {s : State} {o : Op} {l : Launch} {pos : Nat} {out : CagOutcome} (ho : s.op? o.uid = some o)
    (hl : s.launch? o.launch = some l) (hp : pos ≠ l.here) : cagDeviceDone o.uid pos out s = s.cagEnd o.uid pos out := by
  have hbind : ((s.op? o.uid).bind fun o => s.launch? o.launch) = some l := by rw [ho]; exact hl
  unfold cagDeviceDone
  simp only [hbind, if_neg hp]

theorem scalarAndGatherEventResults : ScalarAndGatherEventResults := by
  refine ⟨fun s o rank opc typ pgrp q tm at_ st recVa v late l t g ho hk hl ht hg hc => next_eq ?_, fun s m l hl => next_eq ?_,
    fun s lid pgrp st x hx hc hd => ⟨fun hq => next_eq ?_, fun hq he => next_eq ?_⟩,
    fun s r o opc typ q tm at_ recVa v sent late ho hk => next_eq (scalarResult_eq ho hk),
    fun s o rank opc typ pgrp q tm at_ st recVa v sent late ho hk hd => next_eq ?_,
    fun s dev tag lid rank nchk chunk w dst data bad l l' hl hl' => ?_,
    fun s o pos out l ho hl hp => next_eq (cagDeviceDone_eq ho hl hp)⟩
  · show scalarOwn o.uid s = _
    unfold scalarOwn
    simp only [ho, hk, hl, ht, hg, if_pos hc]
  · show scalarRemote m s = _
    unfold scalarRemote
    simp only [hl]
  · exact (scalarTimer_eq hx hc hd).trans (if_neg (ne_true_of_eq_false hq))
  · exact (scalarTimer_eq hx hc hd).trans ((if_pos hq).trans (if_neg (ne_true_of_eq_false he)))
  · show cscalTimeout o.uid s = _
    unfold cscalTimeout
    simp only [ho, hk, if_pos hd]
  · have hrun : exec (.cagChunkArrival (.remote dev tag lid rank nchk chunk w dst data bad)) s =
        .next (s.takeChunk ((s.cagIn? dev tag).getD ⟨dev, tag, l.uid, rank, w, nchk, [], [], [], none, false⟩) ⟨chunk, dst, data, bad⟩) := by
      refine next_eq (show cagRemote dev tag lid rank nchk w ⟨chunk, dst, data, bad⟩ s = _ from ?_)
      unfold cagRemote
      simp only [hl]
    rw [hrun]
    refine ⟨fun h => next_eq (takeChunk_ended hl' h), fun he hg hgone => ?_⟩
    obtain ⟨hwaits, hfails, htaken⟩ := takeChunk_eq (c := ⟨chunk, dst, data, bad⟩) hl' he hg hgone
    exact ⟨fun hd => next_eq (hwaits hd), fun e hd => next_eq (hfails e hd), fun set closed hd hn hk => next_eq (htaken set closed hd hn hk)⟩

/-! ## The Weir (R361 to R366) -/

theorem hear_live {s : State} {w : WeirGroup} {e : WeirEntry} {st : W32} (h : e.silent = false) :
    (s.hear w e st).weir = s.weir.map fun x => if x.lid = w.lid then
      w.put { e with step := if e.isPod || verNewer st e.step then st else e.step, heard := s.cycle, asked := false } else x := by
  unfold State.hear
  simp only [h, Bool.false_and, Bool.false_eq_true, if_false, State.retrySteps, State.setWeir, beq_iff_eq]
  rfl

theorem laneCode_eq (n : Nat) : laneCode n = min n 3 := by
  unfold laneCode
  split
  · omega
  · split
    · omega
    · split <;> omega

theorem peerLost_quiet {s : State} {l : Launch} {dev : Nat} (ho : ∀ o ∈ s.ops, o.launch ≠ l.uid) (hi : ∀ x ∈ s.inbound, x.launch ≠ l.uid) :
    s.peerLost l dev = ({ s with cagsIn := s.cagsIn.filter fun x => !(x.launch == l.uid && x.dev == dev) } : State).post
      (s.eventFor 0x57 l.uid (dev % 2 ^ 21)) := by
  have hops : s.ops.filter (fun o => o.launch == l.uid) = [] := List.filter_eq_nil_iff.2 fun o h => by
    rw [beq_eq_false_iff_ne.2 (ho o h)]
    exact Bool.false_ne_true
  have hlost : ∀ x ∈ s.inbound, (x.launch == l.uid && x.dev == dev) = false := fun x h => by
    rw [beq_eq_false_iff_ne.2 (hi x h), Bool.false_and]
  have hin : s.inbound.filter (fun x => x.launch == l.uid && x.dev == dev) = [] :=
    List.filter_eq_nil_iff.2 fun x h => ne_true_of_eq_false (hlost x h)
  have hkeep : s.inbound.filter (fun x => !(x.launch == l.uid && x.dev == dev)) = s.inbound :=
    List.filter_eq_self.2 fun x h => by rw [hlost x h]; rfl
  unfold State.peerLost
  simp only [hops, hin, hkeep, List.foldl_nil]

theorem weirHeartbeat_early {s : State} (h : ∀ w ∈ s.weir, s.cycle < w.beatAt + s.hbeat) : weirHeartbeat s = s :=
  foldl_noop fun w hw => if_pos (h w hw)

theorem weirHeartbeat_one {s : State} {w : WeirGroup} {l : Launch} {t : PGTable} {g : PGroup} (hs : s.weir = [w]) (hb : w.beatAt + s.hbeat ≤ s.cycle)
    (hl : s.byLid w.lid = some l) (ht : l.pg = some t) (hg : l.group? 0 = some g) :
    let u := (s.setWeir { w with beatAt := s.cycle }).sendSteps t g w.lid (w.entries.filter fun e => !e.isPod && t.serves e.who)
    weirHeartbeat s = if State.podLeader t g w (podOf (t.devAt t.here)) = some t.here then u.sendSummary t g w else u := by
  unfold weirHeartbeat
  rw [hs, List.foldl_cons, List.foldl_nil]
  simp only [if_neg (Nat.not_lt.2 hb), hl, ht, hg, beq_iff_eq]

theorem weirSilence_eq {s : State} {lid who : Nat} {isPod : Bool} {l : Launch} {t : PGTable} {w : WeirGroup} {e : WeirEntry}
    (hl : s.byLid lid = some l) (ht : l.pg = some t) (hw : s.weirOf lid = some w)
    (he : (w.entries.find? fun e => e.isPod == isPod && e.who == who) = some e) (hown : isPod = true ∨ t.serves who = false)
    (hs : e.silent = false) (ha : e.asked = false) (hd : max l.activatedAt e.heard + s.siltmo ≤ s.cycle) :
    let u := s.post (s.eventOf 0x51 (BitVec.ofNat 32 lid) (weirDetail e))
    weirSilence lid isPod who s = if u.hosts then u.setWeir (w.put { e with asked := true }) else u.silence w e := by
  have hgo : (!isPod && t.serves who || e.silent || e.asked || decide (s.cycle < max l.activatedAt e.heard + s.siltmo)) = false := by
    rw [hs, ha, decide_eq_false (Nat.not_lt.2 hd)]
    rcases hown with rfl | h
    · rfl
    · rw [h, Bool.and_false]
      rfl
  unfold weirSilence
  simp only [hl, ht, hw, he, hgo, Bool.false_eq_true, if_false]

theorem heldExpiry_eq {s : State} {i : Nat} {h : Held} (hi : s.heldMsgs[i]? = some h) (hd : h.arrived + s.siltmo ≤ s.cycle) :
    let t : State := { s with heldMsgs := s.heldMsgs.eraseIdx i }
    heldExpiry i s = match h.msg with
      | .contribution _ m => t.reply (BitVec.ofNat 32 m.key.lid) m.dev (.ack m.rank m.key .dropped)
      | .ring m => t.ackRing m .dropped
      | .scalar m => t.reply (BitVec.ofNat 32 m.lid) m.dev (.ack m.rank ⟨m.lid, m.pgrp, 0, m.step⟩ .dropped)
      | _ => t := by
  unfold heldExpiry
  simp only [hi, if_neg (Nat.not_lt.2 hd)]
  cases h.msg <;> rfl

theorem flmcmdResults (s : State) (v : W64) : exec (.flmcmdNone v) s = .next s ∧
    (s.flmcmd v = .refused → exec (.flmcmdRefused v) s =
      .next (s.post (s.eventOf 0x5F (BitVec.ofNat 32 (fld v 31 0)) ((s.reg 0x2110).toNat + v.toNat * 2 ^ 64)))) ∧
    (∀ w e, s.flmcmd v = .silent w e → exec (.flmcmdDeclareSilent v) s = .next (s.silence w e)) ∧
    (∀ rs xs, s.flmcmd v = .close rs xs → exec (.flmcmdCloseStep v) s =
      .next (xs.foldl (fun s x => s.closeScalar x 0) (rs.foldl (fun s r => s.closeStep r 0) s))) := by
  refine ⟨next_eq ?_, fun h => next_eq ?_, fun w e h => next_eq ?_, fun rs xs h => next_eq ?_⟩
  · show (if s.flmcmd v = .nothing then s.writeFlmcmd v else s) = s
    split
    next h => rw [State.writeFlmcmd, h]
    · rfl
  · show (if s.flmcmd v = .refused then s.writeFlmcmd v else s) = _
    rw [if_pos h, State.writeFlmcmd, h]
  · show (match s.flmcmd v with | .silent _ _ => s.writeFlmcmd v | _ => s) = _
    rw [State.writeFlmcmd, h]
  · show (match s.flmcmd v with | .close _ _ => s.writeFlmcmd v | _ => s) = _
    rw [State.writeFlmcmd, h]

theorem weirEventResults : WeirEventResults := by
  refine ⟨fun s lid rank st l t w e hl ht hw he hs => next_eq ?_, fun s w e st h => hear_live h,
    fun s lid pod st l t g w e hl hw he ht hg hp => next_eq ?_, fun s h => next_eq (weirHeartbeat_early h),
    fun s w l t g hs hb hl ht hg => next_eq (weirHeartbeat_one hs hb hl ht hg),
    fun s lid who isPod l t w e hl ht hw he hown hs ha hd => next_eq (weirSilence_eq hl ht hw he hown hs ha hd),
    fun s i h hi hd => next_eq (heldExpiry_eq hi hd), flmcmdResults, fun s eth port lanes => next_eq ?_,
    fun s lid dev l hdev hls ho hi => next_eq ?_⟩
  · show weirStepMessage lid rank st s = _
    unfold weirStepMessage
    simp only [hl, hw, he, ht, hs, Bool.false_eq_true, if_false]
  · show podSummary lid pod st s = _
    unfold podSummary
    simp only [hl, hw, he, ht, hg, beq_iff_eq, if_neg hp]
  · show linkLanes eth port lanes s = _
    rw [linkLanes, laneCode_eq]
  · show peerUnreachable lid dev.toNat s = _
    rw [peerUnreachable, if_neg hdev, hls]
    exact peerLost_quiet ho hi

/-- Settles O28: each event by its own equation. -/
theorem gatherAndWeirResults : Obligations.GatherAndWeirResults := ⟨scalarAndGatherEventResults, weirEventResults⟩

end Sys2Proof.Proofs.WeirEvents
end

section
/-! SUPPORT. Clauses: the fetch of a whole one (R168, R173, R174) and the issue of its header (R169, R171, R172). -/

namespace Sys2Proof.Proofs.Clauses

open Sys2Proof Sys2Proof.Machine Sys2Proof.Stated Sys2Proof.Laws

/-! ## The fetch -/

section Fetch

variable {s : State} {b : Band}

/-- A band that may issue, with no clause and its header's page in reach, fetches the clause at its header. -/
theorem fetchClause_eq (hb : s.bandAt s.cur = some b) (hc : b.clause = none) (hi : b.canIssue = true) (hs : b.stopping = false)
    (ha : s.apAwaits b.place = false) (hm : s.missing (s.bandCtx b) b.hdr = false) :
    fetchClause s = match s.fetchAt b b.hdr with
      | .trap code va => s.takeTrap b (s.fetchTrap b code va)
      | .damaged pa c => (s.consume b pa c).stopAt b.uid
      | .notHeader => s.takeTrap b { s.fetchTrap b tIllegalTarget b.hdr with s26 := b.hdr }
      | .clause c =>
        match b.resumeIn c with
        | some d => (s.fetchScrub b b.hdr (1 + c.words.length)).setBand d
        | none => s.takeTrap b { s.fetchTrap b tIllegalTarget b.hdr with s26 := b.resume.getD 0 } := by
  have hgo : (b.clause.isSome || !b.canIssue || b.stopping || s.apAwaits b.place) = false := by rw [hc, hi, hs, ha]; rfl
  unfold fetchClause
  simp only [hb, hgo, hm, Bool.and_false, Bool.false_eq_true, if_false]
  all_goals cases s.fetchAt b b.hdr with
  | clause c => cases b.resumeIn c <;> rfl
  | _ => rfl

theorem fetchAt_clause {h : W32} {ws : List (W32 × Option (Nat × KillCause))} (hh : s.fetchWord b b.hdr = .ok (h, none))
    (hcode : h.extractLsb' 24 8 = 0xFC) (hws : s.fetchWords b ((h.extractLsb' 0 4).toNat + 1) (va57 (b.hdr + 4)) = .ok ws)
    (hgood : ∀ x ∈ ws, x.2 = none) : s.fetchAt b b.hdr = .clause ⟨h, ws.map Prod.fst⟩ := by
  have hnone : ws.findSome? Prod.snd = none := List.findSome?_eq_none_iff.2 hgood
  unfold State.fetchAt
  simp only [hh, hcode, bne_self_eq_false, Bool.false_eq_true, if_false, hws, hnone]

theorem fetchAt_damaged {h : W32} {pa : Nat} {c : KillCause} (hh : s.fetchWord b b.hdr = .ok (h, some (pa, c))) :
    s.fetchAt b b.hdr = .damaged pa c := by
  unfold State.fetchAt
  simp only [hh]

theorem fetchAt_notHeader {h : W32} (hh : s.fetchWord b b.hdr = .ok (h, none)) (hcode : h.extractLsb' 24 8 ≠ 0xFC) :
    s.fetchAt b b.hdr = .notHeader := by
  unfold State.fetchAt
  simp only [hh, bne_iff_ne.2 hcode, if_true]

theorem fetchAt_fails {f : TrFault} (hh : s.fetchWord b b.hdr = .error f) : s.fetchAt b b.hdr = .trap 0x18 b.hdr := by
  unfold State.fetchAt
  simp only [hh, tFetch]

theorem fetchAt_straddles {h : W32} {va : W64} {f : TrFault} (hh : s.fetchWord b b.hdr = .ok (h, none)) (hcode : h.extractLsb' 24 8 = 0xFC)
    (hws : s.fetchWords b ((h.extractLsb' 0 4).toNat + 1) (va57 (b.hdr + 4)) = .error (va, f)) : s.fetchAt b b.hdr = .trap 0x19 va := by
  unfold State.fetchAt
  simp only [hh, hcode, bne_self_eq_false, Bool.false_eq_true, if_false, hws, tStraddle]

theorem resumeIn_fresh {c : Clause} (h : b.resume = none) : b.resumeIn c = some { b with clause := some c, pc := b.hdr } := by
  unfold Band.resumeIn
  rw [h]

theorem resumeIn_word {c : Clause} {r : W64} (h : b.resume = some r) (hc : c.holds b.hdr r = true) :
    b.resumeIn c = some { b with clause := some c, pc := r, resume := none } := by
  unfold Band.resumeIn
  rw [h]
  exact if_pos hc

theorem resumeIn_nowhere {c : Clause} {r : W64} (h : b.resume = some r) (hc : c.holds b.hdr r = false)
    (hr : r ≠ va57 (b.hdr + 4 * BitVec.ofNat 64 (1 + c.words.length))) : b.resumeIn c = none := by
  unfold Band.resumeIn
  rw [h]
  exact (if_neg (ne_true_of_eq_false hc)).trans (if_neg fun he => hr (eq_of_beq he))

end Fetch

theorem clauseFetchResults : ClauseFetchResults := by
  intro s b hb hc hi hs ha _ hm
  have hrun : exec .clauseFetch s = .next (fetchClause s) := rfl
  rw [hrun, fetchClause_eq hb hc hi hs ha hm]
  refine ⟨fun h ws hh hcode hws hgood => ?_, fun h pa c hh => ?_, fun h hh hcode => ?_, fun f hh => ?_, fun h va f hh hcode hws => ?_⟩
  · rw [fetchAt_clause hh hcode hws hgood]
    have hlen : (ws.map Prod.fst).length = ws.length := List.length_map ..
    refine ⟨fun hr => ?_, fun r hr hin => ?_, fun r hr hin hne => ?_⟩
    · simp only [resumeIn_fresh hr, hlen]
    · simp only [resumeIn_word hr hin, hlen]
    · simp only [resumeIn_nowhere hr hin (by rwa [hlen]), hr]
      rfl
  · rw [fetchAt_damaged hh]
  · rw [fetchAt_notHeader hh hcode]
    rfl
  · rw [fetchAt_fails hh]
  · rw [fetchAt_straddles hh hcode hws]

/-! ## The header -/

theorem setField_iff (x : BitVec 4) : setField x = true ↔ x ∉ [0xC, 0xD, 0xE] := by
  revert x; decide

theorem flagsClear_iff (b : Band) (wait : BitVec 12) :
    b.flagsClear wait = true ↔ ∀ k, k < 12 → wait.getLsbD k = true → b.f.toArray.getD k 0 = 0 := by
  unfold Band.flagsClear
  rw [List.all_eq_true]
  refine forall_congr' fun k => ?_
  rw [List.mem_range, Bool.or_eq_true, Bool.not_eq_true', beq_iff_eq, ← Bool.not_eq_true, imp_iff_not_or (a := wait.getLsbD k = true)]

theorem clauseHeaderResults : ClauseHeaderResults := by
  intro s b wait sa sb n hb hi ha i trap legal clear
  have hrun : exec i s = .next (headerStep i wait sa sb s) := rfl
  have hlegal : (setField sa && setField sb) = true ↔ legal := by rw [Bool.and_eq_true, setField_iff, setField_iff]
  have hclear : b.flagsClear wait = true ↔ clear := flagsClear_iff b wait
  have hcan : (!b.canIssue) = false := by rw [hi]; rfl
  refine ⟨fun h => ?_, fun h hc hs => ?_⟩
  · have hin : (!b.atHeader || b.clause.isNone) = true := by
      rcases h with h | h
      · rw [h]; rfl
      · rw [h]; exact Bool.or_true _
    rw [hrun]
    unfold headerStep
    simp only [hb, hcan, hin, Bool.false_eq_true, if_false, if_true]
    rfl
  · have hin : (!b.atHeader || b.clause.isNone) = false := by
      rw [h, Option.isNone_eq_false_iff.2 hc]
      rfl
    have hgo : (b.stopping || s.apAwaits b.place) = false := by rw [hs, ha]; rfl
    have hstep : headerStep i wait sa sb s = if !(setField sa && setField sb) then s.takeTrap b (b.trapAt false 1 tIllegalOperand 0 ((encodeWord i).setWidth 64) 0)
        else if !b.flagsClear wait then s.setBand { b with held := true }
        else s.setBand { (({ b with pc := va57 (b.pc + 4) } : Band).issued b.inHandler i s.cycle) with latValid := false } := by
      unfold headerStep
      simp only [hb, hcan, hin, hgo, Bool.false_eq_true, if_false]
    rw [hrun, hstep]
    refine ⟨fun hl => ?_, fun hl hx => ?_, fun hl hx => ?_⟩
    · rw [Bool.eq_false_iff.2 (mt hlegal.1 hl)]
      rfl
    · rw [hlegal.2 hl, Bool.eq_false_iff.2 (mt hclear.1 hx)]
      rfl
    · rw [hlegal.2 hl, hclear.2 hx]
      rfl

/-- Settles O29: the fetch by what is found at the header, the header by its flags. -/
theorem clauseResults : Obligations.ClauseResults := ⟨clauseFetchResults, clauseHeaderResults⟩

end Sys2Proof.Proofs.Clauses
end

section
/-! SUPPORT. Accesses as they are performed and as they land (R118 to R124, R206 to R209), and the mirror stores (R82). -/

namespace Sys2Proof.Proofs.Performing

open Sys2Proof Sys2Proof.Machine Sys2Proof.Stated Sys2Proof.Laws

/-! ## Atoms -/

section Atoms

variable {s : State} {o : Op} {x : Access} {i : Nat} {a : AtomAcc}

/-- A load's atom of RAM that may be performed is read. -/
theorem atomRead_ram (ext : BitVec 256) (ho : s.op? o.uid = some o) (hk : o.kind = .load x) (ha : x.atoms[i]? = some a) (hd : a.done = false)
    (hf : s.orderFree o x a (x.usesL1 a (s.heldBy o.place.core (s.viewOf o.launch o.run a.pa))) = true)
    (hr : s.kindOf (s.viewOf o.launch o.run a.pa) = .ram) (hc : s.coreFree o (s.viewOf o.launch o.run a.pa) = true) :
    atomRead o.uid i ext s =
      let r := s.ramRead o x a
      let p := r.2.2.scPerform x (s.viewOf o.launch o.run a.pa)
      let y := p.2.setAtom i { a with data := r.1, done := true, bad := !r.2.1 }
      (p.1.setOp { o with kind := .load y }).acquireOf o y := by
  have hgo : (a.done || !s.orderFree o x a (x.usesL1 a (s.heldBy o.place.core (s.viewOf o.launch o.run a.pa))) ||
      s.kindOf (s.viewOf o.launch o.run a.pa) == .aperture || !s.coreFree o (s.viewOf o.launch o.run a.pa)) = false := by
    rw [hd, hf, hr, hc]; rfl
  unfold atomRead
  simp only [ho, hk, ha, hgo, Bool.false_eq_true, if_false]
  simp only [hr]

/-- What is read of an atom that the core's region does not hold, by an access that goes past the L1: the home's data. -/
theorem ramRead_home (hx : x.cls = 1 ∨ x.cls = 5) (hh : s.heldBy o.place.core (s.viewOf o.launch o.run a.pa) = false)
    (hr : s.readOut (s.viewOf o.launch o.run a.pa) = .ok) : (s.ramRead o x a).1 = s.atom (s.viewOf o.launch o.run a.pa) := by
  have hl : x.usesL1 a false = false := by
    unfold Access.usesL1
    rcases hx with hx | hx <;> rw [hx] <;> rfl
  unfold State.ramRead State.homeRead
  simp only [hh, hl, hr, Bool.false_eq_true, if_false]

/-- A store's atom of RAM that may be performed is written from its core. -/
theorem atomWrite_ram (ho : s.op? o.uid = some o) (hk : o.kind = .store x) (ha : x.atoms[i]? = some a) (hd : a.done = false)
    (hf : s.orderFree o x a false = true) (hc : s.coreFree o (s.viewOf o.launch o.run a.pa) = true)
    (hr : s.kindOf (s.viewOf o.launch o.run a.pa) = .ram) :
    atomWrite o.uid i s =
      let p := (s.coreStore o.place.core o.launch o.run (x.usesL1 a true) a.pa a.mask a.data).scPerform x (s.viewOf o.launch o.run a.pa)
      let y := p.2.setAtom i { a with done := true }
      ((p.1.setOp { o with kind := .store y }).acquireOf o y).endStore o y := by
  have hgo : (a.done || !s.orderFree o x a false || !s.coreFree o (s.viewOf o.launch o.run a.pa) ||
      s.kindOf (s.viewOf o.launch o.run a.pa) == .aperture) = false := by
    rw [hd, hf, hr, hc]; rfl
  unfold atomWrite
  simp only [ho, hk, ha, hgo, Bool.false_eq_true, if_false]
  simp only [hr]

/-- A write from a core: into its L1 where it holds the region and the class uses it, else at home, after the line was sent there. -/
theorem coreStore_eq (s : State) (core u run : Nat) (l1 : Bool) (pa : Nat) (mask : BitVec 32) (data : BitVec 256) :
    s.coreStore core u run l1 pa mask data =
      let held := s.heldBy core (s.viewOf u run pa)
      let f := if held then s.flushLine core (s.viewOf u run pa / 128) else s
      let m := s.armWrite u run pa
      if held && l1 then m.l1Put core (m.viewOf u run pa) mask data (some u) false
      else (f.homeWrite (some (u, run)) pa mask data).l1Update core (f.viewOf u run pa) mask data := rfl

variable {k : AtomKind} {ls : List AtomLane} {sat : Bool} {fps : BitVec 6}

/-- The state in which an atomic finds its atom: its core has sent the line home. -/
def lineHome (s : State) (o : Op) (pa : Nat) : State := if s.heldBy o.place.core pa then s.flushLine o.place.core (pa / 128) else s

/-- An atomic's atom of RAM that may be performed and can be read: its lanes act on it in one step. -/
theorem atomicPerform_ok (ho : s.op? o.uid = some o) (hk : o.kind = .atomic k x ls sat fps) (ha : x.atoms[i]? = some a) (hd : a.done = false)
    (hf : s.orderFree o x a false = true) (hc : s.coreFree o (s.viewOf o.launch o.run a.pa) = true)
    (hr : s.kindOf (s.viewOf o.launch o.run a.pa) = .ram) {f : State} (hh : lineHome s o (s.viewOf o.launch o.run a.pa) = f)
    (hok : f.readOut (s.viewOf o.launch o.run a.pa) = .ok) :
    atomicPerform o.uid i s =
      let pa := s.viewOf o.launch o.run a.pa
      let r := atomLanes k x.typ x.width sat a.pa (f.atom pa) ls
      let t := f.scrub pa
      let t := if r.2.1 = 0 then t.l1Update o.place.core pa (~~~ 0#32) (f.atom pa) else
        (t.homeWrite o.who a.pa r.2.1 r.1).l1Update o.place.core (t.viewOf o.launch o.run a.pa) (~~~ 0#32) r.1
      let p := t.scPerform x pa
      let y := p.2.setAtom i { a with done := true }
      (p.1.setOp { o with kind := .atomic k y r.2.2.1 sat (fps ||| r.2.2.2) }).acquireOf o y := by
  have hgo : (a.done || !s.orderFree o x a false || !s.coreFree o (s.viewOf o.launch o.run a.pa)) = false := by
    rw [hd, hf, hc]; rfl
  have hn : (s.kindOf (s.viewOf o.launch o.run a.pa) == .host) = false := by rw [hr]; rfl
  unfold lineHome at hh
  unfold atomicPerform State.homeRead
  simp only [ho, hk, ha, hgo, hn, hh, hok, Bool.false_eq_true, Bool.not_true, if_false, if_true]

/-- An atomic's atom of RAM that cannot be read is consumed: its lanes receive zero and write nothing. -/
theorem atomicPerform_damaged (ho : s.op? o.uid = some o) (hk : o.kind = .atomic k x ls sat fps) (ha : x.atoms[i]? = some a) (hd : a.done = false)
    (hf : s.orderFree o x a false = true) (hc : s.coreFree o (s.viewOf o.launch o.run a.pa) = true)
    (hr : s.kindOf (s.viewOf o.launch o.run a.pa) = .ram) {f : State} (hh : lineHome s o (s.viewOf o.launch o.run a.pa) = f) {tag : Bool}
    (hbad : f.readOut (s.viewOf o.launch o.run a.pa) = if tag then .tag else .bad) :
    atomicPerform o.uid i s =
      let pa := s.viewOf o.launch o.run a.pa
      let p := (f.consumeBy o pa tag).scPerform x pa
      let y := p.2.setAtom i { a with done := true }
      (p.1.setOp { o with kind := .atomic k y (noLanes a.pa ls) sat fps }).acquireOf o y := by
  have hgo : (a.done || !s.orderFree o x a false || !s.coreFree o (s.viewOf o.launch o.run a.pa)) = false := by
    rw [hd, hf, hc]; rfl
  have hn : (s.kindOf (s.viewOf o.launch o.run a.pa) == .host) = false := by rw [hr]; rfl
  unfold lineHome at hh
  unfold atomicPerform State.homeRead
  cases tag <;>
    simp only [ho, hk, ha, hgo, hn, hh, hbad, Bool.false_eq_true, Bool.not_false, if_false, if_true]

end Atoms

theorem atomsPerformed : AtomsPerformed := by
  unfold AtomsPerformed
  refine ⟨fun s₀ s es o x i a ext ho hk ha hd hf hr hc => ?_, fun s o x a hx hh hr => ramRead_home hx hh hr,
    fun s₀ s es o x i a ho hk ha hd hf hc hr hs => ?_, fun s₀ s es o k x ls sat fps i a ho hk ha hd hf hc hr hs => ⟨?_, fun tag hbad => ?_⟩⟩
  · intro r p y hs
    subst hs
    exact congrArg _ (atomRead_ram ext ho hk ha hd hf hr hc)
  · subst hs
    exact congrArg _ ((atomWrite_ram ho hk ha hd hf hc hr).trans (by rw [coreStore_eq]; rfl))
  · intro hok
    subst hs
    exact congrArg _ (atomicPerform_ok ho hk ha hd hf hc hr rfl hok)
  · subst hs
    exact congrArg _ (atomicPerform_damaged ho hk ha hd hf hc hr rfl hbad)

/-! ## Results -/

section Results

variable {s : State} {o : Op} {x : Access}

/-- With no upset mask unit nothing that lands in m0 stops the band. -/
theorem landMask_of_no_upset (d : Dest) (h : s.upset = 0) : s.landMask o d = s := by
  have hs (y : W32) : s.shadowDiffers y = false := by unfold State.shadowDiffers; rw [h]; rfl
  unfold State.landMask
  split
  · rw [hs]; rfl
  · rfl

/-- What a read that ends writes, before its operation ends. -/
def readWritten (s : State) (o : Op) (x : Access) (v : ArithVal) (fps : BitVec 6) : State := (s.landDest o x.dest v).setFps o.band fps

/-- A read that ends ends its operation, unless it is an sc access whose response has not come. -/
theorem endRead_done (v : ArithVal) (fps : BitVec 6) (h : s.upset = 0) (hx : x.cls ≠ 5 ∨ x.answered = true) :
    s.endRead o x v fps = (readWritten s o x v fps).endOp o := by
  have hgo : (x.cls == 5 && !x.answered) = false := by
    rcases hx with hx | hx
    · rw [beq_false_of_ne hx, Bool.false_and]
    · rw [hx, Bool.not_true, Bool.and_false]
  unfold State.endRead readWritten
  rw [landMask_of_no_upset x.dest (s := s.landDest o x.dest v) h]
  simp only [hgo, Bool.false_eq_true, if_false]

/-- An sc access whose result is written before its response stays, counted by no flag. -/
theorem endRead_unanswered (v : ArithVal) (fps : BitVec 6) (h : s.upset = 0) (hx : x.cls = 5) (hn : x.answered = false) :
    s.endRead o x v fps =
      ((readWritten s o x v fps).dropFlag o).setOp { o with flag := none, kind := .load { x with dest := .none } } := by
  have hgo : (x.cls == 5 && !x.answered) = true := by rw [hx, hn]; rfl
  unfold State.endRead readWritten
  rw [landMask_of_no_upset x.dest (s := s.landDest o x.dest v) h]
  simp only [hgo, if_true]

/-- The data of a load reach its registers. -/
theorem loadReturn_load (ho : s.op? o.uid = some o) (hk : o.kind = .load x) (hu : x.undone = false) :
    loadReturn o.uid s = s.endRead o x (destValue x.dest x.typ (x.lanes.map fun l => (l.lane, x.laneValue l))) 0 := by
  unfold loadReturn
  simp only [ho, hk, hu, Bool.false_eq_true, if_false]

/-- The old values of an atomic reach their registers. -/
theorem loadReturn_atomic {k : AtomKind} {ls : List AtomLane} {sat : Bool} {fps : BitVec 6} (ho : s.op? o.uid = some o)
    (hk : o.kind = .atomic k x ls sat fps) (hu : x.undone = false) :
    loadReturn o.uid s = s.endRead o x (destValue x.dest x.typ (ls.map fun l => (l.lane, l.old.toNat))) fps := by
  unfold loadReturn
  simp only [ho, hk, hu, Bool.false_eq_true, if_false]

/-- The data of a local load reach its registers. -/
theorem loadReturn_local {d : Dest} {v : ArithVal} (ho : s.op? o.uid = some o) (hk : o.kind = .localLoad d v) (h : s.upset = 0) :
    loadReturn o.uid s = (s.landDest o d v).endOp o := by
  unfold loadReturn
  simp only [ho, hk]
  rw [landMask_of_no_upset d (s := s.landDest o d v) h]

/-- The result of an arithmetic-class operation is written. -/
theorem arithWritten_eq {d : Dest} {v : ArithVal} {fps : BitVec 6} (ho : s.op? o.uid = some o) (hk : o.kind = .arith d v fps) :
    arithWritten o.uid s = ((s.landDest o d v).setFps o.band fps).endOp o := by
  unfold arithWritten
  simp only [ho, hk]

/-- A scalar result lands in the register that awaits it. -/
theorem landDest_scalar {b : Band} {n : Nat} (w : W64) (hb : s.band? o.band = some b) (hp : (b.sName n).pend = some ⟨o.uid, 0⟩) :
    ∃ c, (s.landDest o .tagS (.scalar w)).band? o.band = some c ∧ c.sName n = { b.sName n with val := w, pend := none } := by
  refine ⟨b.landS ⟨o.uid, 0⟩ w, ?_, ?_⟩
  · exact Frames.band?_modBand (f := Frames.bandLand o.uid .tagS (.scalar w)) hb fun _ => rfl
  · rw [Frames.sName_landS, SName.land, if_pos (beq_iff_eq.mpr hp)]

end Results

theorem resultsLand : ResultsLand := by
  unfold ResultsLand
  refine ⟨fun s o d v fps ho hk => congrArg _ (arithWritten_eq ho hk),
    fun s o x ho hk hu h => ⟨fun hx => ?_, fun hx hn => ?_⟩, fun s o k x ls sat fps ho hk hu h => ⟨fun hx => ?_, fun hx hn => ?_⟩,
    fun s o d v ho hk h => congrArg _ (loadReturn_local ho hk h), fun s o d w b n hb hd hp _ => ?_⟩
  · exact congrArg _ ((loadReturn_load ho hk hu).trans (endRead_done _ _ h hx))
  · exact congrArg _ ((loadReturn_load ho hk hu).trans (endRead_unanswered _ _ h hx hn))
  · exact congrArg _ ((loadReturn_atomic ho hk hu).trans (endRead_done _ _ h hx))
  · exact congrArg _ ((loadReturn_atomic ho hk hu).trans (endRead_unanswered _ _ h hx hn))
  · subst hd
    exact landDest_scalar w hb hp

/-! ## Responses and mirror stores -/

section Responses

variable {s : State} {o : Op} {x : Access}

/-- The core's clock after the response of an sc access (R124). -/
def responseTaken (s : State) (o : Op) (x : Access) : State :=
  let c := clockOf s.scClock o.place.core
  { s with scClock := clockSet s.scClock o.place.core ((if c.toNat < x.resp.toNat then x.resp else c) + 1) }

/-- The response of an sc access whose atoms are all performed. -/
theorem scResponse_eq (ho : s.op? o.uid = some o) (hk : o.kind.access? = some x) (hc : x.cls = 5) (hu : x.undone = false)
    (hn : x.answered = false) :
    scResponse o.uid s = match o.kind with
      | .load _ => if o.flag.isNone && x.dest == .none then (responseTaken s o x).endOp o
          else (responseTaken s o x).setOp { o with kind := .load { x with answered := true } }
      | .store _ => (responseTaken s o x).endOp o
      | .atomic k _ ls sat f => (responseTaken s o x).setOp { o with kind := .atomic k { x with answered := true } ls sat f }
      | _ => responseTaken s o x := by
  have hgo : (x.cls != 5 || x.undone || x.answered) = false := by rw [hc, hu, hn]; rfl
  unfold scResponse
  simp only [ho, hk, hgo, Bool.false_eq_true, if_false]
  rfl

/-- An atom of a mirror store lands in the back half of its target. -/
theorem stmPerformed_eq {core slot atom : Nat} {cells : List (Nat × Byte)} {w u : Workgroup} (ho : s.op? o.uid = some o)
    (hk : o.kind = .stm core slot cells) (hw : s.wg? o.wg = some w) (ht : s.stmTarget w core slot = some u) (hx : ∃ x ∈ cells, x.1 / 32 = atom)
    (hf : s.stmFree o core slot atom = true) :
    stmPerformed o.uid atom s =
      let rest := cells.filter fun x => x.1 / 32 != atom
      let t := (cells.filter fun x => x.1 / 32 == atom).foldl (fun s x => s.setLs (s.backKey u x.1) x.2) s
      if rest.isEmpty then t.endOp o else t.setOp { o with kind := .stm core slot rest } := by
  have hne : (cells.filter fun x => x.1 / 32 == atom).isEmpty = false := by
    obtain ⟨x, hx, he⟩ := hx
    exact List.isEmpty_eq_false_iff_exists_mem.mpr ⟨x, List.mem_filter.mpr ⟨hx, beq_iff_eq.mpr he⟩⟩
  have hgo : ((cells.filter fun x => x.1 / 32 == atom).isEmpty || !s.stmFree o core slot atom) = false := by rw [hne, hf]; rfl
  have hb : ((s.wg? o.wg).bind fun w => s.stmTarget w core slot) = some u := by rw [hw]; exact ht
  unfold stmPerformed
  simp only [ho, hk, hgo, hb, Bool.false_eq_true, if_false]

/-- Bytes written to the back half of a workgroup change nothing but the local stores. -/
theorem foldl_backKey_eq (u : Workgroup) : ∀ (xs : List (Nat × Byte)) (s : State),
    xs.foldl (fun s x => s.setLs (s.backKey u x.1) x.2) s =
      { s with ls := (xs.foldl (fun s x => s.setLs (s.backKey u x.1) x.2) s).ls }
  | [], _ => rfl
  | x :: xs, s => by
    rw [List.foldl_cons, foldl_backKey_eq u xs]
    rfl

end Responses

theorem responseAndMirrorResults : ResponseAndMirrorResults := by
  unfold ResponseAndMirrorResults
  refine ⟨fun s o x ho hk hc hu hn => ?_, fun s o x ho hk hc hu hn hw => ?_, fun s o x ho hk hc hu hn hf hd => ?_,
    fun s o k x ls sat fps ho hk hc hu hn => ?_, fun s o core slot atom cells w u ho hk hw ht hx hf => ⟨?_, foldl_backKey_eq u _ s⟩⟩
  · exact congrArg _ ((scResponse_eq ho (by rw [hk]; rfl) hc hu hn).trans (by rw [hk]; rfl))
  · have hgo : (o.flag.isNone && x.dest == .none) = false := by
      rcases hw with h | h
      · rw [Option.isNone_eq_false_iff.mpr (Option.isSome_iff_ne_none.mpr h), Bool.false_and]
      · rw [beq_false_of_ne h, Bool.and_false]
    exact congrArg _ ((scResponse_eq ho (by rw [hk]; rfl) hc hu hn).trans (by simp only [hk, hgo, Bool.false_eq_true, if_false]; rfl))
  · have hgo : (o.flag.isNone && x.dest == .none) = true := by rw [hf, hd]; rfl
    exact congrArg _ ((scResponse_eq ho (by rw [hk]; rfl) hc hu hn).trans (by simp only [hk, hgo, if_true]; rfl))
  · exact congrArg _ ((scResponse_eq ho (by rw [hk]; rfl) hc hu hn).trans (by rw [hk]; rfl))
  · refine congrArg _ ((stmPerformed_eq ho hk hw ht hx hf).trans ?_)
    simp only [List.isEmpty_iff]

/-- Settles O30: the equation of each event at an operation that may go on, one lemma per kind of access. -/
theorem accessesPerformAndLand : Obligations.AccessesPerformAndLand := ⟨atomsPerformed, resultsLand, responseAndMirrorResults⟩

end Sys2Proof.Proofs.Performing
end

section
/-! SUPPORT. The ends of page walks (R60, R61) and of version waits (R67, R204). -/

namespace Sys2Proof.Proofs.Walks

open Sys2Proof Sys2Proof.Machine Sys2Proof.Stated Sys2Proof.Laws

/-! ## Entries joining their holders -/

section Holders

variable {s : State} {t e : TlbEntry} {c : Ctx} {va : Nat}

/-- An entry that joins a holder with room for entries is at the head, and an entry of another agent keeps its place. -/
theorem tlbPut_tlb (h : 0 < tlbCapacity t.agent) :
    (s.tlbPut t).tlb = t :: s.tlb ∨ ∃ v : TlbEntry, v.agent = t.agent ∧ (s.tlbPut t).tlb = t :: s.tlb.erase v := by
  have hne : ¬ tlbCapacity t.agent = 0 := Nat.pos_iff_ne_zero.mp h
  unfold State.tlbPut
  by_cases hl : (s.tlb.filter fun x => x.agent == t.agent).length < tlbCapacity t.agent
  · left
    simp only [if_neg hne, if_pos hl]
  · right
    have hv : s.victim (s.tlb.filter fun x => x.agent == t.agent).length < (s.tlb.filter fun x => x.agent == t.agent).length :=
      Nat.mod_lt _ (by omega)
    refine ⟨(s.tlb.filter fun x => x.agent == t.agent)[s.victim (s.tlb.filter fun x => x.agent == t.agent).length],
      beq_iff_eq.mp (List.mem_filter.mp (List.getElem_mem hv)).2, ?_⟩
    simp only [if_neg hne, if_neg hl, List.getElem?_eq_getElem hv]

/-- An entry of another agent at the head is still found after one has joined. -/
theorem find_tlbPut_head (h : 0 < tlbCapacity t.agent) (hne : e.agent ≠ t.agent) {rest : List TlbEntry} (hs : s.tlb = e :: rest)
    (hc : e.covers e.agent c va = true) : (s.tlbPut t).tlb.find? (fun x => x.covers e.agent c va) = some e := by
  have ht : ¬ t.covers e.agent c va = true := by
    unfold TlbEntry.covers
    rw [beq_false_of_ne hne.symm]
    simp
  rcases tlbPut_tlb (s := s) h with he | ⟨v, hv, he⟩
  · rw [he, List.find?_cons_of_neg (p := fun x : TlbEntry => x.covers e.agent c va) ht, hs, List.find?_cons_of_pos (p := fun x : TlbEntry => x.covers e.agent c va) hc]
  · have hev : (e == v) = false := beq_false_of_ne fun hev => hne (hev ▸ hv)
    rw [he, List.find?_cons_of_neg (p := fun x : TlbEntry => x.covers e.agent c va) ht, hs, List.erase_cons_tail (by rw [hev]; exact Bool.false_ne_true), List.find?_cons_of_pos (p := fun x : TlbEntry => x.covers e.agent c va) hc]

/-- The head of a holder's list after an entry has joined. -/
theorem tlbPut_head (h : 0 < tlbCapacity t.agent) : ∃ rest, (s.tlbPut t).tlb = t :: rest := by
  rcases tlbPut_tlb (s := s) h with he | ⟨v, _, he⟩ <;> exact ⟨_, he⟩

/-- The entry for an agent of the leaf that a walk has found. -/
def leafEntry (s : State) (c : Ctx) (va : Nat) (pte : W64) (a : Agent) : TlbEntry :=
  ⟨a, c.root, c.world, va / 2 ^ (12 + pteSize pte) * 2 ^ (12 + pteSize pte), pteSize pte, pte, s.bindingOf pte⟩

theorem leafEntry_covers (s : State) (c : Ctx) (va : Nat) (pte : W64) (a : Agent) : (leafEntry s c va pte a).covers a c va = true := by
  simp [leafEntry, TlbEntry.covers]

/-- After a quadrant's walk has found a leaf, its own holder has the leaf's entry. -/
theorem tlbHit_tlbFill {core quad : Nat} {pte : W64} (ha : c.agent = .quad core quad) (hn : s.tlbHit c va = none)
    (hw : s.walk c va = .ok pte) : ((s.tlbFill c va).tlbHit c va).map TlbEntry.pte = some pte := by
  have hq : 0 < tlbCapacity (leafEntry s c va pte (.quad core quad)).agent := Nat.succ_pos 63
  have hk : 0 < tlbCapacity (leafEntry s c va pte (.core core)).agent := Nat.succ_pos 2047
  obtain ⟨rest, hr⟩ := tlbPut_head (s := s.walkLeaves c va) hq
  have hf : s.tlbFill c va =
      ((s.walkLeaves c va).tlbPut (leafEntry s c va pte (.quad core quad))).tlbPut (leafEntry s c va pte (.core core)) := by
    unfold State.tlbFill
    simp only [hn, hw, ha, agentHolders, List.foldl_cons, List.foldl_nil]
    rfl
  have hh := find_tlbPut_head hk (e := leafEntry s c va pte (.quad core quad)) nofun hr (leafEntry_covers s c va pte _)
  rw [hf]
  unfold State.tlbHit
  simp only [ha, agentHolders, List.findSome?_cons]
  rw [show (leafEntry s c va pte (.quad core quad)).agent = .quad core quad from rfl] at hh
  rw [hh]
  rfl

/-- A band translates for its quadrant. -/
theorem bandCtx_agent (s : State) (b : Band) : (s.bandCtx b).agent = .quad b.place.core b.place.quad := by
  unfold State.bandCtx
  split <;> rfl

end Holders

/-! ## Walks and waits that end -/

section Ends

variable {s : State} {b : Band}

/-- The bands that wait for an agent's walk of an address. -/
def walkers (s : State) (agent : Agent) (root : Nat) (va : W64) : List Band := s.bands.filter fun x => match x.wait with
  | some (.walk v _ _) => v == va && (s.bandCtx x).agent == agent && (s.bandCtx x).root == root
  | _ => false

/-- A walk that finds a leaf, or whose entry another has left, fills the holder and wakes the bands that wait for it. -/
theorem walkComplete_found {agent : Agent} {root : Nat} {va : W64} {rest : List Band} (hb : walkers s agent root va = b :: rest)
    (h : (∃ t, s.tlbHit (s.bandCtx b) va.toNat = some t) ∨ ∃ pte, s.walk (s.bandCtx b) va.toNat = .ok pte) :
    walkComplete agent root va s = { s.tlbFill (s.bandCtx b) va.toNat with
      bands := (s.tlbFill (s.bandCtx b) va.toNat).bands.map (s.tlbFill (s.bandCtx b) va.toNat).walkWakes } := by
  unfold walkComplete
  generalize hws : s.bands.filter _ = ws
  obtain rfl : ws = b :: rest := hws.symm.trans hb
  rcases h with ⟨t, ht⟩ | ⟨pte, hw⟩
  · simp only [ht]
  · simp only [hw]
    cases s.tlbHit (s.bandCtx b) va.toNat <;> rfl

/-- A walk that finds no leaf is the trap of the one band that waits for it. -/
theorem walkComplete_failed {agent : Agent} {root : Nat} {va : W64} {k lane : Nat} {m : Bool} (hb : walkers s agent root va = [b])
    (hwait : b.wait = some (.walk va k lane)) (ht : s.tlbHit (s.bandCtx b) va.toNat = none) (hw : s.walk (s.bandCtx b) va.toNat = .error m) :
    walkComplete agent root va s = s.walkFailed b va k lane m := by
  unfold walkComplete
  generalize hws : s.bands.filter _ = ws
  obtain rfl : ws = [b] := hws.symm.trans hb
  simp only [ht, hw, List.foldl_cons, List.foldl_nil, hwait]

/-- A band whose address its TLB now holds tries again. -/
theorem walkWakes_hit {v : W64} {k lane : Nat} (hwait : b.wait = some (.walk v k lane))
    (h : (s.tlbHit (s.bandCtx b) v.toNat).isSome = true) : s.walkWakes b = { b with wait := none, held := false } := by
  unfold State.walkWakes
  simp only [hwait, h, if_true]

variable {l : Launch} {lane since v : Nat} {va : W64} {min cur : Option W32}

/-- Whether the current version of a set is good enough for a wait. -/
def goodVersion (cur min : Option W32) : Bool :=
  match cur, min with
  | some x, some m => verAtLeast x m
  | some _, none => true
  | none, _ => false

/-- The trap of a version wait that has run out. -/
def versionTrap (b : Band) (lane : Nat) (va : W64) (cur : Option W32) : Trap :=
  b.trapAt false b.wordLen tVersionWait lane va (match cur with | some x => x.setWidth 64 | none => ~~~ 0#64)

/-- How long a band waits for a version (R67, R336). -/
def versionLimit (b : Band) (l : Launch) : Option Nat := b.timeLeft.getD (if l.lr.vwait = 0 then none else some (microseconds l.lr.vwait))

/-- When a version wait ends in its trap. -/
theorem versionLapsed_eq (hw : b.wait = some (.version lane va v min since)) (hl : s.bandLaunch b = some l)
    (hc : (s.currentOf v).map Prod.snd = cur) :
    s.versionLapsed b = if (match versionLimit b l with | some n => decide (s.cycle < since + n) | none => true) || goodVersion cur min then none
      else some (versionTrap b lane va cur) := by
  unfold State.versionLapsed versionLimit goodVersion versionTrap
  simp only [hw, hl, hc]
  all_goals rfl

variable {q : Place}

theorem versionTimeout_waits (hb : s.bandAt q = some b) (h : s.versionLapsed b = none) : versionTimeout q s = s := by
  unfold versionTimeout
  simp only [hb, h]

theorem versionTimeout_trap {t : Trap} (hb : s.bandAt q = some b) (h : s.versionLapsed b = some t) (hp : b.parked = false) :
    versionTimeout q s = (s.setBand { b with wait := none }).takeTrap { b with wait := none } t := by
  unfold versionTimeout
  simp only [hb, h, hp, Bool.false_eq_true, if_false]

theorem versionTimeout_parked {t : Trap} (hb : s.bandAt q = some b) (h : s.versionLapsed b = some t) (hp : b.parked = true) :
    versionTimeout q s = s.setBand { b with trap := some t, wait := some .entryRegs, held := true } := by
  unfold versionTimeout
  simp only [hb, h, hp, if_true]

end Ends

/-- Settles O31: the entry that joins its holder is found there, and a wait lapses exactly when its limit has run out. -/
theorem walkAndVersionWaitEnds : Obligations.WalkAndVersionWaitEnds := by
  unfold Obligations.WalkAndVersionWaitEnds
  refine ⟨fun s₀ s es agent root va b rest k lane hs hb hwait => ?_, fun s b v k lane hw h => walkWakes_hit hw h,
    fun s b q l lane since v va min cur hb hw hl hc => ?_⟩
  · subst hs
    exact ⟨fun pte hn hw => ⟨congrArg _ (walkComplete_found hb (.inr ⟨pte, hw⟩)), tlbHit_tlbFill (bandCtx_agent _ b) hn hw⟩,
      fun t ht => congrArg _ (walkComplete_found hb (.inl ⟨t, ht⟩)),
      fun m hn hw hr => congrArg _ (walkComplete_failed (hr ▸ hb) hwait hn hw)⟩
  · have hv := versionLapsed_eq hw hl hc
    refine ⟨fun h => congrArg _ (versionTimeout_waits hb (hv.trans (if_pos ?_))), fun n hn => ⟨fun hlt => ?_, fun hg hle => ⟨fun hp => ?_, fun hp => ?_⟩⟩⟩
    · rcases h with hg | hn
      · rw [show goodVersion cur min = true from hg, Bool.or_true]
      · rw [show versionLimit b l = none from hn]; rfl
    · refine congrArg _ (versionTimeout_waits hb (hv.trans (if_pos ?_)))
      rw [show versionLimit b l = some n from hn]
      simp only [decide_eq_true hlt, Bool.true_or]
    all_goals
      have ht : s.versionLapsed b = some (versionTrap b lane va cur) := hv.trans (if_neg (by
        rw [show versionLimit b l = some n from hn, show goodVersion cur min = false from hg]
        simp only [decide_eq_false (Nat.not_lt.mpr hle), Bool.or_false]
        exact Bool.false_ne_true))
    · exact congrArg _ (versionTimeout_trap hb ht hp)
    · exact congrArg _ (versionTimeout_parked hb ht hp)

end Sys2Proof.Proofs.Walks
end

section
/-! SUPPORT. Publications and their advances (R65, R66, R359), posts of watches (R110, R111) and snapshots (R387, R388, R393). -/

namespace Sys2Proof.Proofs.Publishing

open Sys2Proof Sys2Proof.Machine Sys2Proof.Stated Sys2Proof.Laws

/-! ## Publications -/

section Publications

variable {s : State} {l : Launch} {u set size : Nat} {w : W32} {p : Publisher}

/-- The open that one of a launch's operations asks for, of a version that is not being published. -/
theorem publicationOpen_eq (hl : s.launch? u = some l)
    (ho : ((s.ops.filter fun o => o.launch == u).findSome? (s.opensPub l set w size)) = some p) (hn : s.pub? set w = none) :
    publicationOpen u set w size s = (s.openPub set w size u p).2 := by
  unfold publicationOpen
  simp only [hl, ho, hn]

theorem openPub_refused {r : Opened} (h : s.openRefused set w = some r) : s.openPub set w size u p = (r, s) := by
  unfold State.openPub
  simp only [h]

theorem openPub_accepted (h : s.openRefused set w = none) :
    s.openPub set w size u p = (s.abandonOlder set w).takeFrame set w size u p := by
  unfold State.openPub
  simp only [h]

/-- A publication that has replaced those of its version is the one of that version. -/
theorem find_replaced (ps : List Publication) (q : Publication) :
    ((ps.filter fun x => !(x.set == q.set && x.ver == q.ver)) ++ [q]).find? (fun x => x.set == q.set && x.ver == q.ver) = some q := by
  have hno : ∀ x ∈ ps.filter (fun x => !(x.set == q.set && x.ver == q.ver)), ¬ (x.set == q.set && x.ver == q.ver) = true :=
    fun x hx => Bool.not_eq_true _ ▸ (Bool.not_eq_true' _).mp (List.mem_filter.mp hx).2
  rw [List.find?_append, List.find?_eq_none.mpr hno, Option.none_or, List.find?_cons_of_pos (by simp)]

/-- An open that takes frame `j`. -/
theorem takeFrame_taken {j : Nat} (hr : s.unreadSet set = false) (hf : s.frameFor set = some j) :
    ((s.takeFrame set w size u p).2).pub? set w = some ⟨set, w, some j, size, u, p, []⟩ := by
  unfold State.takeFrame
  simp only [hr, hf, Bool.false_eq_true, if_false]
  exact find_replaced s.pubs ⟨set, w, some j, size, u, p, []⟩

/-- An open that waits for a frame. -/
theorem takeFrame_waits (h : s.unreadSet set = true ∨ s.frameFor set = none) :
    ((s.takeFrame set w size u p).2).pub? set w = some ⟨set, w, none, size, u, p, []⟩ := by
  have hn : (if s.unreadSet set = true then none else s.frameFor set) = none := by
    rcases h with h | h
    · exact if_pos h
    · rw [h, ite_self]
  unfold State.takeFrame
  simp only [hn]
  exact find_replaced s.pubs ⟨set, w, none, size, u, p, []⟩

variable {q : Publication}

/-- A waiting open tries again. -/
theorem publicationFrameTaken_eq (hp : s.pub? q.set q.ver = some q) (hs : q.slot = none) :
    publicationFrameTaken q.set q.ver s = (s.takeFrame q.set q.ver q.size q.launch q.by_).2 := by
  obtain ⟨set, ver, slot, size, launch, by_, chunks⟩ := q
  subst hs
  unfold publicationFrameTaken
  simp only [hp]

/-- A rank's publication whose chunks are all there closes. -/
theorem publicationClose_rank {r : Nat} (hp : s.pub? q.set q.ver = some q) (hb : q.by_ = .rank r) (hc : q.chunks.length * 65536 = q.size) :
    publicationClose q.set q.ver s = s.closePub q.set q.ver := by
  unfold publicationClose
  simp only [hp, hb, hc, if_true]

/-- A copy's publication to which no move is left closes, and its plan names it no more. -/
theorem publicationClose_copy {o : Op} {c : Nat} {sls : List Slice} {plan : Plan} {st : Option StampSpec} (hp : s.pub? q.set q.ver = some q)
    (hb : q.by_ = .copy o.uid) (ho : s.op? o.uid = some o) (hk : o.kind = .engine (.copy c sls (some plan)) st)
    (hm : ∀ m ∈ plan.moves, m.pub ≠ some (q.set, q.ver)) (hs : plan.status.getLsbD 4 = false) (hc : plan.pubs.contains (q.set, q.ver) = true) :
    publicationClose q.set q.ver s = (s.closePub q.set q.ver).setOp
      { o with kind := .engine (.copy c sls (some { plan with pubs := plan.pubs.filter (· != (q.set, q.ver)) })) st } := by
  have ha : (plan.moves.all fun m => m.pub != some (q.set, q.ver)) = true := List.all_eq_true.mpr fun m h => bne_iff_ne.mpr (hm m h)
  have hgo : ((plan.moves.all fun m => m.pub != some (q.set, q.ver)) && !plan.status.getLsbD 4 && plan.pubs.contains (q.set, q.ver)) = true := by
    rw [ha, hs, hc]; rfl
  unfold publicationClose
  simp only [hp, hb, ho, hk, hgo, if_true]

/-- The publications without one. -/
def unpublished (s : State) (q : Publication) : State := { s with pubs := s.pubs.filter fun x => !(x.set == q.set && x.ver == q.ver) }

/-- A set's control word once its frame `j` is complete. -/
def completeCtl (s : State) (set j : Nat) : W64 := ctlSetState (vsCtl s set) j 2 ||| (1#64 <<< 12)

/-- A publication closes as the first or the newest of its set: its frame becomes current and an advance starts. -/
theorem closePub_current {j : Nat} (hp : s.pub? q.set q.ver = some q) (hs : q.slot = some j) (hr : s.unreadSet q.set = false)
    (h : framesIn (vsCtl s q.set) 2 = [] ∨ vsValid (vsCtl s q.set) = false ∨ verNewer q.ver (vsVer s q.set (vsCur (vsCtl s q.set))) = true) :
    s.closePub q.set q.ver =
      let v := (unpublished s q).setCtl q.launch q.set (setFld (completeCtl s q.set j) 1 0 j)
      { v with advances := s.advances ++ [⟨q.set, if vsValid (vsCtl s q.set) then some (vsFrame s q.set (vsCur (vsCtl s q.set))) else none,
          vsFrame s q.set j, q.ver, q.size⟩] } := by
  obtain ⟨set, ver, slot, size, launch, by_, chunks⟩ := q
  subst hs
  have hgo : ((framesIn (vsCtl s set) 2).isEmpty || (!vsValid (vsCtl s set) || verNewer ver (vsVer s set (vsCur (vsCtl s set))))) = true := by
    rcases h with h | h | h
    · rw [h]; rfl
    · rw [h, Bool.not_false, Bool.true_or, Bool.or_true]
    · rw [h, Bool.or_true, Bool.or_true]
  have hu : (unpublished s ⟨set, ver, some j, size, launch, by_, chunks⟩).unreadSet set = false := hr
  unfold unpublished at hu ⊢
  unfold State.closePub completeCtl
  simp only [hp, hgo, hu, Bool.false_eq_true, if_false, if_true]
  rfl

/-- A publication that closes behind a newer one becomes complete only. -/
theorem closePub_complete {j : Nat} (hp : s.pub? q.set q.ver = some q) (hs : q.slot = some j) (hr : s.unreadSet q.set = false)
    (hf : framesIn (vsCtl s q.set) 2 ≠ []) (hv : vsValid (vsCtl s q.set) = true)
    (hn : verNewer q.ver (vsVer s q.set (vsCur (vsCtl s q.set))) = false) :
    s.closePub q.set q.ver = (unpublished s q).setCtl q.launch q.set (completeCtl s q.set j) := by
  obtain ⟨set, ver, slot, size, launch, by_, chunks⟩ := q
  subst hs
  have he : (framesIn (vsCtl s set) 2).isEmpty = false := List.isEmpty_eq_false_iff.mpr hf
  have hgo : ((framesIn (vsCtl s set) 2).isEmpty || (!vsValid (vsCtl s set) || verNewer ver (vsVer s set (vsCur (vsCtl s set))))) = false := by
    rw [he, hv, hn]; rfl
  have hu : (unpublished s ⟨set, ver, some j, size, launch, by_, chunks⟩).unreadSet set = false := hr
  unfold unpublished at hu ⊢
  unfold State.closePub completeCtl
  simp only [hp, hgo, hu, Bool.false_eq_true, if_false]

variable {vs : Nat} {a : Advance}

/-- A translation's entry after an advance: of the set, it names the frame that is current now. -/
def rebound (vs : Nat) (a : Advance) (t : TlbEntry) : TlbEntry :=
  match t.bind with
  | some b => if b.set == vs then { t with bind := some ⟨vs, some (a.frame, a.ver)⟩ } else t
  | none => t

/-- Every entry of the set names the frame that the advance makes current. -/
theorem rebound_bind {t : TlbEntry} {b : Binding} (h : (rebound vs a t).bind = some b) (hb : b.set = vs) : b.cur = some (a.frame, a.ver) := by
  unfold rebound at h
  split at h
  · next c hc =>
    split at h
    · obtain rfl := Option.some.inj h
      rfl
    · next hne =>
      obtain rfl := Option.some.inj (hc.symm.trans h)
      exact absurd (beq_iff_eq.mpr hb) hne
  · next hc => exact nomatch hc.symm.trans h

/-- The state after an advance: no L1 has a clean line of the new frame outside held regions, and the set's entries name that frame. -/
def advanced (s : State) (vs : Nat) (a : Advance) : State :=
  { s.dropLines fun l =>
      decide (a.frame ≤ l.line * 128) && decide (l.line * 128 < a.frame + a.size) && l.dirty == 0 && !s.heldBy l.core (l.line * 128) with
    tlb := s.tlb.map (rebound vs a), advances := s.advances.erase a }

/-- The advance of a set to which nothing is bound any more ends. -/
theorem versionAdvance_ready (ha : (s.advances.find? fun x => x.set == vs) = some a) (hr : s.advanceReady a = true) :
    versionAdvance vs s = advanced s vs a := by
  unfold versionAdvance
  simp only [ha, hr, if_true]
  rfl

theorem versionAdvance_waits (ha : (s.advances.find? fun x => x.set == vs) = some a) (hr : s.advanceReady a = false) :
    versionAdvance vs s = s := by
  unfold versionAdvance
  simp only [ha, hr, Bool.false_eq_true, if_false]

end Publications

theorem publicationResults : PublicationResults := by
  unfold PublicationResults
  refine ⟨fun s l u set size w p hl ho hn => ⟨fun r hr => ?_, fun hr => ?_⟩, fun s set size u w p => ⟨takeFrame_waits, fun j hr hf => takeFrame_taken hr hf⟩,
    fun s p hp hs => congrArg _ (publicationFrameTaken_eq hp hs), fun s p r hp hb hc => congrArg _ (publicationClose_rank hp hb hc),
    fun s p o c sls q st hp hb ho hk hm hs hc => congrArg _ (publicationClose_copy hp hb ho hk hm hs hc),
    fun s p j hp hs hr => ⟨fun h => closePub_current hp hs hr h, fun hf hv hn => closePub_complete hp hs hr hf hv hn⟩,
    fun s vs a ha => ⟨fun hr => ?_, fun hr => congrArg _ (versionAdvance_waits ha hr)⟩⟩
  · exact congrArg _ ((publicationOpen_eq hl ho hn).trans (by rw [openPub_refused hr]))
  · exact congrArg _ ((publicationOpen_eq hl ho hn).trans (by rw [openPub_accepted hr]))
  · refine ⟨advanced s vs a, congrArg Host.Outcome.next (versionAdvance_ready ha hr), rfl, rfl, fun e he b hb hset => ?_⟩
    obtain ⟨t, _, rfl⟩ := List.mem_map.mp he
    exact rebound_bind hb hset

/-! ## Posts of watches -/

theorem watchPostResults : WatchPostResults := by
  unfold WatchPostResults
  refine fun s w hw => ⟨fun hp he => ?_, fun h => ?_⟩
  · show Host.Outcome.next (s.watchPost w.slot) = _
    unfold State.watchPost
    simp only [hw, hp, he, Bool.and_self, if_true]
  · have hgo : (w.pending && s.wmbase.getLsbD 0) = false := by
      rcases h with h | h <;> rw [h]
      · exact Bool.false_and _
      · exact Bool.and_false _
    show Host.Outcome.next (s.watchPost w.slot) = _
    unfold State.watchPost
    simp only [hw, hgo, Bool.false_eq_true, if_false]

/-! ## Snapshots -/

section Snapshots

variable {s : State} {t : Trigger} {lid : W32} {q : Nat}

theorem snapshot_disabled (h : t.enabled s.snapctl = false) : s.snapshot t lid q = s := by
  unfold State.snapshot
  simp only [h, Bool.not_false, if_true]

/-- A trigger that finds a snapshot held leaves it, unless it fires in the latch's own cycle. -/
theorem snapshot_held (h : s.snapctl.getLsbD 63 = false) (hs : (s.num 0x883).getLsbD 63 = false ∨ ∀ x, s.snapAt = some x → x.cycle ≠ s.cycle) :
    s.snapshot t lid q = s := by
  have hgo : ((s.num 0x883).getLsbD 63 && s.snapAt.any fun x => x.cycle == s.cycle) = false := by
    rcases hs with hs | hs
    · rw [hs, Bool.false_and]
    · have : (s.snapAt.any fun x => x.cycle == s.cycle) = false := by
        cases hx : s.snapAt with
        | none => rfl
        | some x => exact beq_false_of_ne (hs x hx)
      rw [this, Bool.and_false]
  unfold State.snapshot
  simp only [h, hgo, Bool.not_false, Bool.false_eq_true, if_true, if_false, ite_self]

/-- A source that fires in the cycle of the latch joins the status. -/
theorem snapshot_joins {x : SnapLatch} (he : t.enabled s.snapctl = true) (h : s.snapctl.getLsbD 63 = false) (hs : (s.num 0x883).getLsbD 63 = true)
    (hx : s.snapAt = some x) (hc : x.cycle = s.cycle) : s.snapshot t lid q = s.setNum 0x883 (s.num 0x883 ||| t.bits) := by
  have hgo : ((s.num 0x883).getLsbD 63 && s.snapAt.any fun x => x.cycle == s.cycle) = true := by
    rw [hs, hx, Option.any_some, hc, beq_self_eq_true]; rfl
  unfold State.snapshot
  simp only [he, h, hgo, Bool.not_true, Bool.not_false, Bool.false_eq_true, if_true, if_false]

/-- The state that a latch leaves, before the host is told. -/
def latched (s : State) (t : Trigger) (lid : W32) (q : Nat) : State :=
  { ((s.setNum 0x880 (s.snapctl &&& ~~~ (1#64 <<< 63))).setNum 0x883 (snapStatus t s)).tick 1 with
    snap := s.snapRecords, snapping := !s.snapctl.getLsbD 62, snapAt := some ⟨s.cycle, lid, q⟩ }

/-- An armed and enabled trigger latches. -/
theorem snapshot_latches (he : t.enabled s.snapctl = true) (h : s.snapctl.getLsbD 63 = true) :
    s.snapshot t lid q = if s.snapctl.getLsbD 62 then
      (latched s t lid q).post (mkEvent 0x63 lid ((latched s t lid q).num 0x883).toNat 0 q) else latched s t lid q := by
  unfold State.snapshot
  simp only [he, h, Bool.not_true, Bool.false_eq_true, if_false]
  rfl

theorem snapshotTimer_eq (s : State) :
    exec .snapshotTimer s = .next (if s.num 0x881 == BitVec.ofNat 64 s.cycle then s.snapshot .timer 0 0 else s) := rfl

/-- The state with a snapshot's blocks at SNAPBUF and their number in NBLK. -/
def readOutStored (s : State) : State :=
  let stored := s.snap.zipIdx.foldl (fun (u : State) x =>
    u.physStore (fld (s.num 0x882) 51 20 * 2 ^ 20 + 1024 * x.2) x.1.bytes.length (leNat x.1.bytes) false) s
  { stored.setNum 0x883 (setFld (stored.num 0x883) 47 32 stored.snap.length) with snapping := false }

theorem readoutComplete_idle (h : s.snapping = false) : readoutComplete s = s := by
  unfold readoutComplete
  simp only [h, Bool.not_false, if_true]

theorem readoutComplete_eq (h : s.snapping = true) : readoutComplete s = (readOutStored s).snapEvent true := by
  unfold readoutComplete
  simp only [h, Bool.not_true, Bool.false_eq_true, if_false]
  rfl

/-- The event of a read-out. -/
theorem snapEvent_readOut (u : State) : u.snapEvent true = u.post (match u.snapAt with
    | some x => mkEvent 0x63 x.lid ((u.num 0x883).toNat + 2 ^ 64) 0 x.queue
    | none => mkEvent 0x63 0 ((u.num 0x883).toNat + 2 ^ 64)) := by
  unfold State.snapEvent
  cases u.snapAt <;> rfl

/-- The fields of SNAPCTL that software writes (R387). -/
def snapctlFields : W64 := bitsMask 63 62 ||| bitsMask 39 36 ||| bitsMask 21 16

/-- The fields that a write reaches: ARM only while no snapshot is held. -/
def snapctlWritten (s : State) : W64 := if (s.num 0x883).getLsbD 63 then snapctlFields &&& ~~~ (1#64 <<< 63) else snapctlFields

theorem numSpec_snapctl : numSpec 0x880 = some (rwpReg 0 snapctlFields) := rfl

/-- What merging a value into SNAPCTL gives. -/
theorem merge_snapctl (old v : W64) : (rwpReg 0 snapctlFields).merge old v true = (old &&& ~~~ snapctlFields) ||| (v &&& snapctlFields) := by
  show ((old &&& ~~~ (snapctlFields ||| 0#64)) ||| (v &&& (snapctlFields ||| 0#64))) &&& ~~~ (v &&& 0#64) = _
  rw [BitVec.or_zero, BitVec.and_zero, BitVec.not_zero, BitVec.and_allOnes]

/-- To keep a bit of the old value in what is written is to leave it out of what is written. -/
theorem merge_keeping (old v m k : W64) :
    (old &&& ~~~ m) ||| (((v &&& ~~~ k) ||| (old &&& k)) &&& m) = (old &&& ~~~ (m &&& ~~~ k)) ||| (v &&& (m &&& ~~~ k)) := by
  ext i hi
  simp only [BitVec.getElem_or, BitVec.getElem_and, BitVec.getElem_not]
  cases old[i] <;> cases v[i] <;> cases m[i] <;> cases k[i] <;> rfl

theorem writeSnapctl_eq (s : State) (v : W64) :
    s.writeSnapctl v = s.setNum 0x880 ((s.snapctl &&& ~~~ snapctlWritten s) ||| (v &&& snapctlWritten s)) := by
  unfold State.writeSnapctl snapctlWritten
  simp only [numSpec_snapctl, merge_snapctl]
  by_cases h : (s.num 0x883).getLsbD 63 = true
  · rw [if_pos h, if_pos h, merge_keeping]
  · rw [if_neg h, if_neg h]

end Snapshots

theorem snapshotResults : SnapshotResults := by
  unfold SnapshotResults
  refine ⟨fun s t lid q => ⟨fun h => ?_, fun x he h hs hx hc => snapshot_joins he h hs hx hc, fun he h => snapshot_latches he h⟩,
    fun s b h => next_eq (issue_ok h rfl), fun s => rfl, fun s => ⟨fun h => ?_, fun h => ?_⟩, fun s h => congrArg _ (readoutComplete_idle h),
    fun s h => congrArg _ ((readoutComplete_eq h).trans (snapEvent_readOut _)), fun s v hw => ⟨_, congrArg Host.Outcome.next (writeSnapctl_eq s v), rfl, ?_⟩⟩
  · rcases h with h | ⟨h, hs⟩
    · exact snapshot_disabled h
    · exact snapshot_held h hs
  · rw [snapshotTimer_eq, if_pos (beq_iff_eq.mpr h)]
  · rw [snapshotTimer_eq, if_neg fun hb => h (beq_iff_eq.mp hb)]
  · exact (num_setNum hw _ _ _).trans (if_pos rfl)

/-- Settles O32: publications, posts of watches and snapshots, one equation per event. -/
theorem publicationWatchAndSnapshotResults : Obligations.PublicationWatchAndSnapshotResults :=
  ⟨publicationResults, watchPostResults, snapshotResults⟩

end Sys2Proof.Proofs.Publishing
end

section
/-! SUPPORT. EXIT, FREEZE (R306, R161, R165) and the stamping of a core's workgroups from an image (R322, R333). -/

namespace Sys2Proof.Proofs.BandEnds

open Sys2Proof Sys2Proof.Machine Sys2Proof.Stated Sys2Proof.Laws Sys2Proof.Proofs.Pieces

section Words

variable {s : State} {b : Band} {w : Workgroup} {l : Launch}

/-- A band that still has something in flight is held at its EXIT. -/
theorem exitBody_hold (h : s.exitReady b = false) : exitBody b s = .error .hold := by
  unfold exitBody
  rw [h, Ordering.holdUnless_false, error_bind]

/-- EXIT of a band that is no template's. -/
theorem exitBody_plain (h : s.exitReady b = true) (ht : b.template = false) : exitBody b s = .ok (.gone (s.endBand b)) := by
  unfold exitBody
  simp only [h, holdUnless_true, ok_bind, ht, Bool.false_eq_true, if_false]
  rfl

/-- EXIT of a template releases the workgroups that were to start from its image. -/
theorem exitBody_template (h : s.exitReady b = true) (ht : b.template = true) (hw : s.wg? b.wg = some w) :
    exitBody b s = .ok (.gone (((s.endBand b).releaseInst b.launch w.idx w.run).settleImages)) := by
  unfold exitBody
  simp only [h, holdUnless_true, ok_bind, ht, hw, if_true]
  rfl

/-- FREEZE without a template, below window depth 0, or a fourth time. -/
theorem freezeBody_illegal (hl : s.bandLaunch b = some l) (h : l.lr.frz = 15 ∨ b.depth ≠ 0 ∨ b.fdepth = 3) :
    freezeBody b s = .error (.word tIllegalState) := by
  unfold freezeBody
  simp only [hl, h, if_true]
  rfl

/-- The state with a band's registers as an image, whose nested items a band that is no template's workgroup holds. -/
def frozen (s : State) (l : Launch) (b : Band) (w : Workgroup) : State :=
  let t : State := { s with images := s.images ++ [s.capture b w], nextUid := s.nextUid + 1 }
  if b.template then t
  else t.modWg w.uid fun x => { x with nested := (nestedOf l b (s.capture b w).uid).foldl (fun ns n => insertNested n ns) x.nested }

/-- FREEZE that may act makes the image and ends the band. -/
theorem freezeBody_ok (hl : s.bandLaunch b = some l) (hf : l.lr.frz ≠ 15) (hd : b.depth = 0) (hn : b.fdepth ≠ 3)
    (hr : s.freezeReady b = true) (ha : b.template = true ∨ s.accessesDone b = true) (hw : s.wg? b.wg = some w) :
    freezeBody b s = .ok (.gone ((frozen s l b w).endBand b)) := by
  have hgo : ¬ (l.lr.frz = 15 ∨ b.depth ≠ 0 ∨ b.fdepth = 3) := by
    rintro (h | h | h)
    exacts [hf h, h hd, hn h]
  have hready : (s.freezeReady b && (b.template || s.accessesDone b)) = true := by
    rw [hr, Bool.true_and, Bool.or_eq_true]
    exact ha
  unfold freezeBody
  simp only [hl, hgo, if_false, hready, holdUnless_true, ok_bind, MemoryWords.wgOf_ok hw]
  rfl

end Words

theorem exitAndFreezeResults : ExitAndFreezeResults := by
  unfold ExitAndFreezeResults
  refine ⟨fun s b h => ⟨fun hr => next_eq (issue_hold h (exitBody_hold hr)), fun hr ht => next_eq (issue_gone h (exitBody_plain hr ht)),
    fun w hr ht hw => next_eq (issue_gone h (exitBody_template hr ht hw))⟩, fun s b l h hl => ⟨fun hb => ?_, fun w hf hd hn hr ha hw => ?_⟩⟩
  · exact next_eq (issue_word h tIllegalState (freezeBody_illegal hl hb))
  · exact next_eq (issue_gone h (freezeBody_ok hl hf hd hn hr ha hw))

/-- The image that a core waits for, once the prologue's stores are performed and the pools have room, is that core's, which stamps the
workgroups that wait there. -/
theorem imageAck_eq {s : State} {l : Launch} {i : Image} {inst core : Nat} (hl : s.launch? l.uid = some l)
    (hi : (s.images.find? fun x => x.launch == l.uid && x.depth == 1 && x.inst == inst && !x.acked.contains core && !(s.awaiting l x core).isEmpty)
      = some i) (hp : s.prologueDone i = true)
    (hq : ∀ q ∈ i.quads, s.poolWith core q (i.vRegs [] []) (i.sRegs [] []).length ≤ 2048) :
    imageAck l.uid inst core s =
      let t : State := { s with images := s.images.map fun x => if x.uid = i.uid then { x with acked := insertAsc x.acked core } else x }
      ((s.awaiting l i core).foldl (fun s w => s.stampWg l w i) (t.invalidateL1 core)).settleImages := by
  have ha : (i.quads.all fun q => decide (s.poolWith core q (i.vRegs [] []) (i.sRegs [] []).length ≤ 2048)) = true :=
    List.all_eq_true.mpr fun q h => decide_eq_true (hq q h)
  have hgo : (!s.prologueDone i || !(i.quads.all fun q => decide (s.poolWith core q (i.vRegs [] []) (i.sRegs [] []).length ≤ 2048))) = false := by
    rw [hp, ha]; rfl
  unfold imageAck
  simp only [hl, hi, hgo, Bool.false_eq_true, if_false, beq_iff_eq]

theorem templateImageAckResults : TemplateImageAckResults := by
  unfold TemplateImageAckResults
  exact fun s l i inst core hl hi hp hq => congrArg _ (imageAck_eq hl hi hp hq)

/-- Settles O33: each word by how its meaning ends, and the equation of the event. -/
theorem bandEndAndStampResults : Obligations.BandEndAndStampResults := ⟨exitAndFreezeResults, templateImageAckResults⟩

end Sys2Proof.Proofs.BandEnds
end

section
/-! SUPPORT. The dispatch of records and the activation of launches (R329, R360). -/

namespace Sys2Proof.Proofs.Dispatching

open Sys2Proof Sys2Proof.Machine Sys2Proof.Stated Sys2Proof.Laws

section Dispatch

variable {s : State} {q : Nat}

/-- Whether a queue's record is not read now. -/
def notServed (s : State) (q : Nat) : Bool :=
  decide (64 ≤ q) || fld (s.num 0x2000) 63 62 != 2 || decide (s.qhead q = s.qtail q) || !(s.qctl q).getLsbD 63 || decide (256 ≤ s.activeCount) ||
    s.launches.any fun l => l.queue == q && !l.isActive

theorem notServed_false (hq : q < 64) (hb : fld (s.num 0x2000) 63 62 = 2) (hh : s.qhead q ≠ s.qtail q) (he : (s.qctl q).getLsbD 63 = true)
    (hn : s.activeCount < 256) (hl : ∀ l ∈ s.launches, l.queue = q → l.isActive = true) : notServed s q = false := by
  have ha : (s.launches.any fun l => l.queue == q && !l.isActive) = false := List.any_eq_false.mpr fun l h hc => by
    obtain ⟨hlq, hla⟩ := Bool.and_eq_true_iff.mp hc
    rw [hl l h (beq_iff_eq.mp hlq)] at hla
    exact Bool.false_ne_true hla
  unfold notServed
  rw [decide_eq_false (Nat.not_le.mpr hq), hb, decide_eq_false hh, he, decide_eq_false (Nat.not_le.mpr hn), ha]
  rfl

theorem notServed_true (h : s.qhead q = s.qtail q ∨ (s.qctl q).getLsbD 63 = false ∨ fld (s.num 0x2000) 63 62 ≠ 2) : notServed s q = true := by
  unfold notServed
  rcases h with h | h | h
  · rw [decide_eq_true h, Bool.or_true, Bool.true_or, Bool.true_or, Bool.true_or]
  · rw [h, Bool.not_false, Bool.or_true, Bool.true_or, Bool.true_or]
  · rw [bne_iff_ne.mpr h, Bool.or_true, Bool.true_or, Bool.true_or, Bool.true_or, Bool.true_or]

theorem launchDispatch_idle (h : notServed s q = true) : launchDispatch q s = s := by
  unfold notServed at h
  unfold launchDispatch
  exact if_pos h

/-- The bytes of the record at a queue's HEAD. -/
def recordAt (s : State) (q : Nat) : List Byte := (List.range 256).map (byteOf (s.physRead (s.slotOf q (s.qhead q)) 256 (s.queueWorld q)))

/-- The state with the record at a queue's HEAD read. -/
def recordRead (s : State) (q : Nat) : State :=
  { s.physTouch (s.slotOf q (s.qhead q)) 256 (s.queueWorld q) with
    nextUid := s.nextUid + 1, cancels := s.cancels.erase (q, s.qhead q), lastRead := assocSet s.lastRead q s.nextUid }

variable (h : notServed s q = false) (hk : s.kindOf (s.slotOf q (s.qhead q)) ≠ .hole)

include h hk

/-- A record that the host has cancelled is refused. -/
theorem launchDispatch_cancelled (hc : (q, s.qhead q) ∈ s.cancels) :
    launchDispatch q s = (recordRead s q).refuse (s.newLaunch q (recordAt s q)) 0x0B := by
  have hh : ¬ (s.kindOf (s.slotOf q (s.qhead q)) == .hole) = true := ne_true_of_eq_false (beq_false_of_ne hk)
  unfold notServed at h
  unfold launchDispatch
  rw [if_neg (ne_true_of_eq_false h), if_neg hh]
  exact if_pos (List.contains_iff_mem.mpr hc)

variable (hc : (q, s.qhead q) ∉ s.cancels)

include hc

/-- A record that fails a check is refused with the check's status. -/
theorem launchDispatch_refused {st : Byte} (hst : (recordRead s q).checkLaunch (recordAt s q) (s.newLaunch q (recordAt s q)) = .error st) :
    launchDispatch q s = ((recordRead s q).cpReads (recordAt s q) (s.newLaunch q (recordAt s q))).refuse (s.newLaunch q (recordAt s q)) st := by
  have hh : ¬ (s.kindOf (s.slotOf q (s.qhead q)) == .hole) = true := ne_true_of_eq_false (beq_false_of_ne hk)
  have hg : ¬ s.cancels.contains (q, s.qhead q) = true := fun h => hc (List.contains_iff_mem.mp h)
  unfold notServed at h
  unfold recordRead recordAt at *
  unfold launchDispatch
  rw [if_neg (ne_true_of_eq_false h), if_neg hh]
  simp only [if_neg hg, hst]

/-- The launch of a record that passes the checks waits. -/
theorem launchDispatch_waits {l : Launch} (hl : (recordRead s q).checkLaunch (recordAt s q) (s.newLaunch q (recordAt s q)) = .ok l) :
    launchDispatch q s = { (recordRead s q).cpReads (recordAt s q) l with launches := ((recordRead s q).cpReads (recordAt s q) l).launches ++ [l] } := by
  have hh : ¬ (s.kindOf (s.slotOf q (s.qhead q)) == .hole) = true := ne_true_of_eq_false (beq_false_of_ne hk)
  have hg : ¬ s.cancels.contains (q, s.qhead q) = true := fun h => hc (List.contains_iff_mem.mp h)
  unfold notServed at h
  unfold recordRead recordAt at *
  unfold launchDispatch
  rw [if_neg (ne_true_of_eq_false h), if_neg hh]
  simp only [if_neg hg, hl]

end Dispatch

section Activate

variable {s : State} {q : Nat} {l : Launch}

/-- A waiting launch with a dependence word whose translation faults is refused. -/
theorem launchActivate_fault (hl : (s.launches.find? fun l => l.queue == q && !l.isActive) = some l) (hf : s.depFault l = true) :
    launchActivate q s = s.refuse l 7 := by
  unfold launchActivate
  simp only [hl, hf, if_true]

/-- A waiting launch whose dependences are met is refused or becomes active. -/
theorem launchActivate_met (hl : (s.launches.find? fun l => l.queue == q && !l.isActive) = some l) (hf : s.depFault l = false)
    (hd : ∀ d ∈ l.deps, d.met = true) (ha : ∀ u, l.after = some u → s.launch? u = none) :
    launchActivate q s =
      if s.weirFull l then s.refuse l 4
      else
        let l' := { l with phase := .active, activatedAt := s.cycle, deps := [] }
        (((s.advanceHead q).setLaunch l').weirStart l').applyHeldFor l'.lr.lid.toNat := by
  have hm : (l.deps.any fun d => !d.met) = false := List.any_eq_false.mpr fun d h => by rw [hd d h]; exact Bool.false_ne_true
  have hn : (match l.after with | some u => (s.launch? u).isSome | none => false) = false := by
    cases h : l.after with
    | none => rfl
    | some u => exact congrArg Option.isSome (ha u h)
  unfold launchActivate
  simp only [hl, hf, hm, Bool.false_or, Bool.false_eq_true, if_false]
  exact if_neg (ne_true_of_eq_false hn)

end Activate

/-- Settles O34: a queue's record by whether it is served, cancelled and sound, and a waiting launch by its dependences. -/
theorem launchDispatchAndActivation : Obligations.LaunchDispatchAndActivation := by
  unfold Obligations.LaunchDispatchAndActivation
  refine ⟨fun s q hq hb hh he hn hl hk => ?_, fun s q h => next_eq (launchDispatch_idle (notServed_true h)),
    fun s q l hl => ⟨fun hf => congrArg _ (launchActivate_fault hl hf), fun hf hd ha => ?_⟩⟩
  · have hs := notServed_false hq hb hh he hn hl
    exact ⟨fun hc => next_eq (launchDispatch_cancelled hs hk hc), fun st hc hst => next_eq (launchDispatch_refused hs hk hc hst),
      fun l' hc hl' => next_eq (launchDispatch_waits hs hk hc hl')⟩
  · have heq := launchActivate_met hl hf hd ha
    refine ⟨fun hw => congrArg _ (heq.trans (if_pos hw)), fun hw => congrArg _ (heq.trans (if_neg (ne_true_of_eq_false hw)))⟩

end Sys2Proof.Proofs.Dispatching
end

section
/-! SUPPORT. What stores by the part leave alone, the ends of launches (R343, R375 to R377), write sets (R379) and redundant runs (R383,
R384). -/

namespace Sys2Proof.Proofs.LaunchEnds

open Sys2Proof Sys2Proof.Machine Sys2Proof.Stated Sys2Proof.Laws Sys2Proof.Proofs.Reports

/-! ## Stores that are quiet -/

section Quiet

variable {β : Type} {f : State → β} (q : Quiet f)

include q

theorem storeAt_quiet (s : State) (u : Option Nat) (pa n x : Nat) : f (s.storeAt u pa n x) = f s := by
  unfold State.storeAt State.eachAtom
  split
  · rfl
  · exact foldl_kept f _ (fun t i => atomStore_quiet q t u _ _ _) _ _

theorem freeFrame_quiet (s : State) (p : Publication) : f (s.freeFrame p) = f s := by
  unfold State.freeFrame
  split
  · exact storeAt_quiet q _ _ _ _ _
  · rfl

end Quiet

/-- The publications are quiet. -/
theorem pubs_quiet : Quiet State.pubs where
  wake _ _ := rfl
  cells _ _ _ _ := rfl
  send _ _ := rfl
  stray _ _ := rfl
  events _ _ _ _ _ := rfl
  ring _ _ := rfl
  pending _ _ := rfl
  celog _ _ := rfl
  errs _ _ := rfl

/-- Whose a band is, and whether it is to stop at its next header. -/
def Stopping (s : State) : List (Nat × Bool) := s.bands.map fun b => (b.launch, b.stopping)

theorem retest_stopping (s : State) (pa : Nat) (b : Band) : ((b.retest s pa).launch, (b.retest s pa).stopping) = (b.launch, b.stopping) := by
  unfold Band.retest
  split
  · split
    · split <;> rfl
    · rfl
  · rfl

theorem stopping_quiet : Quiet Stopping where
  wake s pa := by
    unfold Stopping State.wake
    rw [List.map_map]
    exact List.map_congr_left fun b _ => retest_stopping s pa b
  cells _ _ _ _ := rfl
  send _ _ := rfl
  stray _ _ := rfl
  events _ _ _ _ _ := rfl
  ring _ _ := rfl
  pending _ _ := rfl
  celog _ _ := rfl
  errs _ _ := rfl

/-- A view that a snapshot leaves alone: it is quiet, and the snapshot's own registers and records are not in it. -/
theorem snapshot_kept {β : Type} {f : State → β} (q : Quiet f) (hreg : ∀ s k w, f (s.setNum k w) = f s)
    (hsnap : ∀ (s : State) x y z n, f { s with snap := x, snapping := y, snapAt := z, freeCtr := n } = f s) (s : State) (t : Trigger) (lid : W32)
    (queue : Nat) : f (s.snapshot t lid queue) = f s := by
  unfold State.snapshot
  extract_lets ctl timer st blocks host s1 s2
  have h1 : f s1 = f s := (hsnap ((s.setNum 0x880 (ctl &&& ~~~ (1#64 <<< 63))).setNum 0x883 st) _ _ _ _).trans ((hreg _ _ _).trans (hreg s _ _))
  have h2 : f s2 = f s := (hsnap s1 _ _ _ _).trans h1
  split
  · rfl
  · split
    · split
      · exact hreg _ _ _
      · rfl
    · split
      · exact (post_quiet q _ _).trans h2
      · exact h2

theorem faultSnap_kept {β : Type} {f : State → β} (q : Quiet f) (hreg : ∀ s k w, f (s.setNum k w) = f s)
    (hsnap : ∀ (s : State) x y z n, f { s with snap := x, snapping := y, snapAt := z, freeCtr := n } = f s) (s : State) (u : Nat) (c : KillCause) :
    f (s.faultSnap u c) = f s := by
  unfold State.faultSnap
  split
  · exact snapshot_kept q hreg hsnap _ _ _ _
  · rfl

/-! ## Completion and kills -/

section Ends

variable {s : State} {l : Launch}

theorem launchComplete_eq (hl : s.launch? l.uid = some l) :
    launchComplete l.uid s = if l.places && l.lr.redn != 1 && s.allEnded l then s.complete l.uid 0 else s := by
  unfold launchComplete
  simp only [hl]

/-- The first kill of a launch that is entered: its bands stop and it is being killed. -/
def killEntered (s : State) (l : Launch) (c : KillCause) : State :=
  let t := s.setLaunch { l.addCause c with phase := .killing, status := KillCause.status c, replayable := KillCause.replayable c }
  { t with bands := t.bands.map fun b => if b.launch == l.uid then { b with stopping := true } else b }

variable {c : KillCause}

/-- The next kill of a launch that is being killed joins. -/
theorem launchKill_joins (hl : s.launch? l.uid = some l) (hc : l.kills[l.killed]? = some c) (hp : l.phase = .killing) :
    launchKill l.uid c s = (s.setLaunch (l.killMore c)).faultSnap l.uid c := by
  unfold launchKill
  simp only [hl, hc, hp, bne_self_eq_false, beq_self_eq_true, Bool.false_eq_true, if_false, if_true]

/-- The first kill of a launch is entered. -/
theorem launchKill_first (hl : s.launch? l.uid = some l) (hc : l.kills[l.killed]? = some c) (hp : l.phase ≠ .killing) :
    launchKill l.uid c s = ((killEntered s l c).abandonPubs l.uid).faultSnap l.uid c := by
  have hb : (l.phase == .killing) = false := beq_false_of_ne hp
  unfold launchKill
  simp only [hl, hc, hb, bne_self_eq_false, Bool.false_eq_true, if_false]
  rfl

/-- Every band of a launch whose kill is entered stops at its next header. -/
theorem stopping_killEntered : ∀ x ∈ Stopping (killEntered s l c), x.1 = l.uid → x.2 = true := by
  intro x hx hu
  obtain ⟨b, hb, rfl⟩ := List.mem_map.mp hx
  obtain ⟨a, _, rfl⟩ := List.mem_map.mp hb
  by_cases h : a.launch == l.uid
  · rw [if_pos h]
  · rw [if_neg h] at hu
    exact absurd (beq_iff_eq.mpr hu) h

theorem stopping_abandonPubs (s : State) (u : Nat) : Stopping (s.abandonPubs u) = Stopping s :=
  foldl_kept Stopping State.freeFrame (freeFrame_quiet stopping_quiet) _ s

/-- An abandoned launch has no publication. -/
theorem pubs_abandonPubs (s : State) (u : Nat) : ∀ p ∈ (s.abandonPubs u).pubs, p.launch ≠ u :=
  fun _ hp => bne_iff_ne.mp (List.mem_filter.mp hp).2

/-- The first kill of a launch stops its bands and abandons its publications. -/
theorem launchKill_stops (hl : s.launch? l.uid = some l) (hc : l.kills[l.killed]? = some c) (hp : l.phase ≠ .killing) :
    (∀ b ∈ (launchKill l.uid c s).bands, b.launch = l.uid → b.stopping = true) ∧ ∀ p ∈ (launchKill l.uid c s).pubs, p.launch ≠ l.uid := by
  rw [launchKill_first hl hc hp]
  constructor
  · intro b hb hu
    have hk := faultSnap_kept stopping_quiet (fun _ _ _ => rfl) (fun _ _ _ _ _ => rfl) ((killEntered s l c).abandonPubs l.uid) l.uid c
    have hm := List.mem_map_of_mem (f := fun b : Band => (b.launch, b.stopping)) hb
    rw [show List.map _ _ = _ from hk, stopping_abandonPubs] at hm
    exact stopping_killEntered _ hm hu
  · rw [faultSnap_kept pubs_quiet (fun _ _ _ => rfl) (fun _ _ _ _ _ => rfl)]
    exact pubs_abandonPubs _ _

/-- A killed launch that is not restored completes. -/
theorem launchKillComplete_ends (hl : s.launch? l.uid = some l) (hr : s.killReady l = true) (hn : l.canRestore = false) :
    launchKillComplete l.uid s = (s.clearLaunch l).complete l.uid (if l.status = 0x08 ∧ 2 ≤ l.replays then 0x09 else l.status) := by
  unfold launchKillComplete
  simp only [hl, hr, hn, Bool.not_true, Bool.false_eq_true, if_false, Bool.and_eq_true, beq_iff_eq, decide_eq_true_eq]

/-- A killed launch that is restored is left to the host or runs again. -/
theorem launchKillComplete_restored {l' : Launch} (hl : s.launch? l.uid = some l) (hr : s.killReady l = true) (hc : l.canRestore = true) {t : State}
    (ht : (s.clearLaunch l).restore l = t) (hl' : t.launch? l.uid = some l') :
    launchKillComplete l.uid s = if l'.assisted = some true then
      (t.post (t.eventFor 0x62 l.uid (l'.saved.length + lowestFault l'.fsum * 2 ^ 32))).complete l.uid 0x08 else t.replay l' := by
  unfold launchKillComplete
  simp only [hl, hr, hc, ht, hl', Bool.not_true, Bool.false_eq_true, if_false, if_true]

/-- A launch that has left the part is not there. -/
theorem launch?_dropLaunch (s : State) (u : Nat) : (s.dropLaunch u).launch? u = none :=
  List.find?_eq_none.mpr fun _ hx he => bne_iff_ne.mp (List.mem_filter.mp hx).2 (beq_iff_eq.mp he)

/-- Nothing of a launch that has left the part is there. -/
theorem dropLaunch_leaves_nothing (s : State) (u : Nat) :
    (∀ w ∈ (s.dropLaunch u).wgs, w.launch ≠ u) ∧ (∀ b ∈ (s.dropLaunch u).bands, b.launch ≠ u) ∧ ∀ o ∈ (s.dropLaunch u).ops, o.launch ≠ u :=
  ⟨fun _ h => bne_iff_ne.mp (List.mem_filter.mp h).2, fun _ h => bne_iff_ne.mp (List.mem_filter.mp h).2,
    fun _ h => bne_iff_ne.mp (List.mem_filter.mp h).2⟩

/-- Completion of a launch that is there: its record, and it leaves the part. -/
theorem complete_of_some {u : Nat} {st : Byte} (hl : (s.endWatches u).launch? u = some l) :
    s.complete u st = (((s.endWatches u).postEnd l st).endCollectives l).dropLaunch u := by
  unfold State.complete
  simp only [hl]

theorem complete_of_none {u : Nat} {st : Byte} (hl : (s.endWatches u).launch? u = none) : s.complete u st = s.endWatches u := by
  unfold State.complete
  simp only [hl]

end Ends

theorem launchEndResults : LaunchEndResults := by
  unfold LaunchEndResults
  refine ⟨fun s l hl => ⟨fun hp hr ha => ?_, fun ha => ?_⟩, fun s l c hl hc => ⟨fun hp => next_eq (launchKill_joins hl hc hp), fun hp => ?_⟩,
    fun s l hl hr hn => next_eq (launchKillComplete_ends hl hr hn), fun s l l' hl hr hc hl' => next_eq (launchKillComplete_restored hl hr hc rfl hl'),
    fun s u st => ?_⟩
  · refine next_eq ((launchComplete_eq hl).trans (if_pos ?_))
    rw [hp, bne_iff_ne.mpr hr, ha]
    rfl
  · refine next_eq ((launchComplete_eq hl).trans (if_neg ?_))
    rw [ha, Bool.and_false]
    exact Bool.false_ne_true
  · exact ⟨_, rfl, launchKill_stops hl hc hp⟩
  · cases hl : (s.endWatches u).launch? u with
    | none => exact ⟨complete_of_none hl ▸ hl, fun h => absurd rfl h⟩
    | some l =>
      rw [complete_of_some hl]
      exact ⟨launch?_dropLaunch _ u, fun _ => dropLaunch_leaves_nothing _ u⟩

/-! ## Write sets and redundant runs -/

section Runs

variable {s : State} {l : Launch}

/-- The copy that a write waits for is made. -/
theorem granuleCopy_eq {g : Granule} (hl : s.launch? l.uid = some l)
    (hg : (l.granules.find? fun x => x.pa == g.pa && x.armed && s.granuleWanted l.uid x.run g.pa) = some g) :
    granuleCopy l.uid g.pa s = s.armWrite l.uid g.run g.pa := by
  unfold granuleCopy
  simp only [hl, hg]

/-- The third run of a launch whose first two differ. -/
def thirdRun (l : Launch) : Launch :=
  { l with runs := 3, granules := l.granules ++ (dedup (l.granules.map Granule.pa)).map fun pa => ⟨pa, 2, true, none⟩ }

/-- All runs of a redundant launch have ended: they are compared. -/
theorem redundantCompare_eq (hl : s.launch? l.uid = some l) (hp : l.places = true) (hr : l.lr.redn = 1) (ha : s.allEnded l = true) :
    redundantCompare l.uid s =
      if l.runs = 2 then if s.runsAgree l 0 1 then (s.writeShadows l 0).complete l.uid 0 else s.setLaunch (thirdRun l)
      else if s.runsAgree l 2 0 then (s.writeShadows l 0).complete l.uid 0
      else if s.runsAgree l 2 1 then (s.writeShadows l 1).complete l.uid 0
      else ((dedup (l.runCores.map Prod.fst)).foldl (fun s c => s.probation l.uid c) s).complete l.uid 0x0A := by
  have hgo : (!l.places || l.lr.redn != 1 || !s.allEnded l) = false := by rw [hp, hr, ha]; rfl
  unfold redundantCompare
  simp only [hl, hgo, Bool.false_eq_true, if_false]
  rfl

end Runs

theorem writeSetAndRedundancyResults : WriteSetAndRedundancyResults := by
  unfold WriteSetAndRedundancyResults
  refine ⟨fun s l g hl hg => next_eq (granuleCopy_eq hl hg), fun s l hl hp hr ha => ?_⟩
  have heq := redundantCompare_eq hl hp hr ha
  refine ⟨fun h2 h => next_eq ?_, fun h2 h => ⟨thirdRun l, next_eq ?_, rfl, rfl⟩, fun h3 h => next_eq ?_, fun h3 h h1 => next_eq ?_,
    fun h3 h h1 => next_eq ?_⟩
  · exact heq.trans (by rw [if_pos h2, if_pos h])
  · exact heq.trans (by rw [if_pos h2, if_neg (ne_true_of_eq_false h)])
  all_goals
    have hn : ¬ l.runs = 2 := by omega
  · exact heq.trans (by rw [if_neg hn, if_pos h])
  · exact heq.trans (by rw [if_neg hn, if_neg (ne_true_of_eq_false h), if_pos h1])
  · exact heq.trans (by rw [if_neg hn, if_neg (ne_true_of_eq_false h), if_neg (ne_true_of_eq_false h1)])

/-- Settles O35: the equations of the ends, and what the first kill leaves, from what stores and reports leave alone. -/
theorem launchEndAndRedundancyResults : Obligations.LaunchEndAndRedundancyResults := ⟨launchEndResults, writeSetAndRedundancyResults⟩

end Sys2Proof.Proofs.LaunchEnds
end

section
/-! SUPPORT. The distributor's choice served, and pre-emption (R331, R338 to R342). -/

namespace Sys2Proof.Proofs.Placement

open Sys2Proof Sys2Proof.Machine Sys2Proof.Stated Sys2Proof.Laws

section Save

variable {s : State} {w : Workgroup} {l : Launch}

/-- A pre-empted workgroup whose bands, and those of its domain group, have stopped is saved, or its launch is killed. -/
theorem preemptSave_eq (hw : s.wg? w.uid = some w) (hl : s.launch? w.launch = some l) (hp : w.preempting = true) (hr : w.resident = true)
    (hk : l.kills = []) (ha : ∀ x ∈ s.together w, s.saveReady x = true) :
    preemptSave w.uid s = match (s.together w).foldlM (fun s w => s.saveAll l w) s with
      | none => s.decideKill l.uid .save
      | some t => (s.together w).foldl (fun s w => s.unplace ((s.wg? w.uid).getD w) l.lr.vwait) t := by
  have hgo : (!w.preempting || !w.resident || l.kills != [] || !(s.together w).all s.saveReady) = false := by
    rw [hp, hr, hk, List.all_eq_true.mpr ha]; rfl
  unfold preemptSave
  simp only [hw, hl, hgo, Bool.false_eq_true, if_false]
  all_goals cases (s.together w).foldlM (fun s w => s.saveAll l w) s <;> rfl

/-- The bands of a workgroup that is being pre-empted, and of its domain group, are to stop. -/
theorem startPreempt_stops (fixed : Bool) :
    ∀ b ∈ (s.startPreempt w fixed).bands, b.wg ∈ (s.together w).map Workgroup.uid → b.stopping = true := by
  intro b hb hm
  obtain ⟨a, _, rfl⟩ := List.mem_map.mp hb
  by_cases h : ((s.together w).map Workgroup.uid).contains a.wg = true
  · rw [if_pos h]
  · rw [if_neg h] at hm
    exact absurd (List.contains_iff_mem.mpr hm) h

/-- The timer of a starved priority pre-empts its victim, while no workgroup is being pre-empted. -/
theorem preemptTimer_eq {prio : Nat} (hn : ∀ x ∈ s.wgs, x.preempting = false) (hs : s.starved prio = true)
    (hv : victim (s.victims prio) = some w) : preemptTimer prio s = s.startPreempt w false := by
  have ha : s.wgs.any Workgroup.preempting = false := List.any_eq_false.mpr fun x h => ne_true_of_eq_false (hn x h)
  have hgo : (s.wgs.any Workgroup.preempting || !s.starved prio) = false := by rw [ha, hs]; rfl
  unfold preemptTimer
  simp only [hgo, hv, Bool.false_eq_true, if_false]

end Save

section Choice

variable {s t : State} {q : Nat} {l : Launch}

/-- A launch whose replay log cannot be followed is killed. -/
theorem workgroupPlace_badReplay (h : s.badReplay = some l) : workgroupPlace s = s.decideKill l.uid .replayLog := by
  unfold workgroupPlace
  simp only [h]

/-- The distributor's choice is served, where it is no resumption. -/
theorem workgroupPlace_serve {u : Unit'} (hb : s.badReplay = none) (hc : s.choose = (some (q, l, u), t)) (hu : ∀ ws, u ≠ .resume ws) :
    workgroupPlace s = t.serve q l u := by
  unfold workgroupPlace
  simp only [hb, hc]

/-- With no choice the deficits alone change. -/
theorem workgroupPlace_none (hb : s.badReplay = none) (hc : s.choose = (none, t)) : workgroupPlace s = t := by
  unfold workgroupPlace
  simp only [hb, hc]

/-- The distributor's choice, where it is the resumption of a workgroup. -/
theorem workgroupResume_serve {u : Nat} {ws : List Nat} (hc : s.choose = (some (q, l, .resume ws), t)) (hu : u ∈ ws) :
    workgroupResume u s = t.serve q l (.resume ws) := by
  unfold workgroupResume
  simp only [hc, List.contains_iff_mem.mpr hu, if_true]

end Choice

/-- Settles O36: each event's equation in the case that the statement names. -/
theorem placementAndPreemptionResults : Obligations.PlacementAndPreemptionResults := by
  unfold Obligations.PlacementAndPreemptionResults
  refine ⟨fun s w l hw hl hp hr hk ha => ⟨fun t ht => ?_, fun hn => ?_⟩,
    fun s hb => ⟨fun q l u t hc hu => next_eq (workgroupPlace_serve hb hc hu), fun t hc => next_eq (workgroupPlace_none hb hc)⟩,
    fun s l h => next_eq (workgroupPlace_badReplay h), fun s t q u l ws hc hu => next_eq (workgroupResume_serve hc hu),
    fun s prio w hn hs hv => next_eq (preemptTimer_eq hn hs hv), fun s w fixed => startPreempt_stops fixed⟩
  · exact next_eq ((preemptSave_eq hw hl hp hr hk ha).trans (by rw [ht]))
  · exact next_eq ((preemptSave_eq hw hl hp hr hk ha).trans (by rw [hn]))

end Sys2Proof.Proofs.Placement
end

section
/-! SUPPORT. Frames that are spilled and refilled (R154 to R157), and bands that are parked and restored (R166, R167). -/

namespace Sys2Proof.Proofs.Parking

open Sys2Proof Sys2Proof.Machine Sys2Proof.Stated Sys2Proof.Laws

/-! ## Transfers of frames -/

section Transfers

variable {s : State} {b : Band} {q : Place} {d : Nat} {f : Frame} {l : Launch}

section Spill

variable (hb : s.bandAt q = some b) (hf : b.frame? d = some f) (hl : s.bandLaunch b = some l) (hp : b.parked = false) (hd : d < b.depth)
  (hr : f.loc = .resident) (hw : b.winFault = none) (hs : s.spillWanted q = true)

include hb hf hl hp hd hr hw hs

/-- What the spill of a resident frame that the quadrant wants comes to. -/
theorem tailraceSpill_eq : tailraceSpill q d s = match s.slotPieces l q (s.frameSlot b d) with
    | .error (va, x) => s.setBand (b.recordFault va d x.kind.code)
    | .ok _ => s.setBand (b.setFrame d { f with loc := .spilling }) := by
  have hgo : (b.parked || decide (b.depth ≤ d) || f.loc != .resident || b.winFault.isSome || !s.spillWanted q) = false := by
    rw [hp, decide_eq_false (Nat.not_le.mpr hd), hr, hw, hs]; rfl
  unfold tailraceSpill
  simp only [hb, hf, hl]
  rw [if_neg (ne_true_of_eq_false (by simpa using hgo))]
  all_goals cases s.slotPieces l q (s.frameSlot b d) <;> rfl

end Spill

section Spilled

variable (hb : s.bandAt q = some b) (hf : b.frame? d = some f) (hl : s.bandLaunch b = some l) (hr : f.loc = .spilling) (hs : f.settled = true)

include hb hf hl hr hs

/-- The end of a spill whose slot can be reached: once the band's earlier accesses to it are performed. -/
theorem frameSpilled_ok {ps : List (Nat × Nat)} (hp : s.slotPieces l q (s.frameSlot b d) = .ok ps) :
    frameSpilled q d s = if s.readNow b false (ps.flatMap fun x => (atomsOfRun x.1 x.2).map (s.viewOf b.launch (s.runOf b.wg))) then
      (s.spillFrame b (s.withClass (l.areaCtx q) (s.frameSlot b d) ps) f).modBand b.uid fun c =>
        ((c.setFrame d { f with loc := .spilled }).refillNewest).endRetry d else s := by
  have hgo : (f.loc != .spilling || !f.settled) = false := by rw [hr, hs]; rfl
  unfold frameSpilled
  simp only [hb, hf, hl, hgo, hp, Bool.false_eq_true, if_false]
  all_goals cases s.readNow b false (ps.flatMap fun x => (atomsOfRun x.1 x.2).map (s.viewOf b.launch (s.runOf b.wg))) <;> rfl

/-- The end of a spill whose slot cannot be reached: a window fault. -/
theorem frameSpilled_fault {va : W64} {x : TrFault} (hp : s.slotPieces l q (s.frameSlot b d) = .error (va, x)) :
    frameSpilled q d s = s.setBand (((b.setFrame d { f with loc := .resident }).recordFault va d x.kind.code).endRetry d) := by
  have hgo : (f.loc != .spilling || !f.settled) = false := by rw [hr, hs]; rfl
  unfold frameSpilled
  simp only [hb, hf, hl, hgo, hp, Bool.false_eq_true, if_false]

end Spilled

/-- What reading a slot whose pages can be reached comes to. -/
theorem readSlot_ok {ps : List (Nat × Nat)} (hp : s.slotPieces l b.place (s.frameSlot b d) = .ok ps) :
    s.readSlot l b d f = match s.plainRead b (f.used (s.withClass (l.areaCtx b.place) (s.frameSlot b d) ps)) with
      | .hold => .hold
      | .damaged ds bs => .frame (f.refill bs) (f.used (s.withClass (l.areaCtx b.place) (s.frameSlot b d) ps)) ds
      | .bytes bs => .frame (f.refill bs) (f.used (s.withClass (l.areaCtx b.place) (s.frameSlot b d) ps)) [] := by
  unfold State.readSlot
  simp only [hp]
  all_goals cases s.plainRead b (f.used (s.withClass (l.areaCtx b.place) (s.frameSlot b d) ps)) <;> rfl

theorem readSlot_fault {va : W64} {x : TrFault} (hp : s.slotPieces l b.place (s.frameSlot b d) = .error (va, x)) :
    s.readSlot l b d f = .fault va x := by
  unfold State.readSlot
  simp only [hp]

section Refill

variable (hb : s.bandAt q = some b) (hf : b.refilling? = some (d, f)) (hl : s.bandLaunch b = some l) (hp : b.parked = false)
  (hw : b.winFault = none)

include hb hf hl hp hw

theorem refillComplete_fault {va : W64} {x : TrFault} (hr : s.readSlot l b d f = .fault va x) :
    refillComplete q s = s.setBand (((b.setFrame d { f with loc := .spilled }).recordFault va d x.kind.code).endRetry d) := by
  have hgo : (b.parked || b.winFault.isSome) = false := by rw [hp, hw]; rfl
  unfold refillComplete
  simp only [hb, hf, hl, hgo, hr, Bool.false_eq_true, if_false]

theorem refillComplete_hold (hr : s.readSlot l b d f = .hold) : refillComplete q s = s := by
  have hgo : (b.parked || b.winFault.isSome) = false := by rw [hp, hw]; rfl
  unfold refillComplete
  simp only [hb, hf, hl, hgo, hr, Bool.false_eq_true, if_false]

theorem refillComplete_frame {g : Frame} {pas : List (Nat × Nat)} {ds : List (Nat × KillCause)} (hr : s.readSlot l b d f = .frame g pas ds)
    (ha : s.canAlloc b (vPriv g.hv) (sPriv g.hs) = true) :
    refillComplete q s = ((s.plainTouch b pas).setBand ((b.setFrame d g).endRetry d)).consumeAll b ds := by
  have hgo : (b.parked || b.winFault.isSome) = false := by rw [hp, hw]; rfl
  unfold refillComplete
  simp only [hb, hf, hl, hgo, hr, ha, Bool.false_eq_true, if_false, if_true]

end Refill

end Transfers

theorem windowTransferResults : WindowTransferResults := by
  unfold WindowTransferResults
  refine ⟨fun s b q d f l hb hf hl hp hd hr hw hs => ⟨fun ps hps => ?_, fun va x he => ?_⟩,
    fun s b q d f l hb hf hl hr hs => ⟨fun ps hps => ⟨fun hn => ?_, fun hn => ?_⟩, fun va x he => next_eq (frameSpilled_fault hb hf hl hr hs he)⟩,
    fun s₀ s es b q d f l hb hf hl hp hw hs => ?_⟩
  · exact next_eq ((tailraceSpill_eq hb hf hl hp hd hr hw hs).trans (by rw [hps]))
  · exact next_eq ((tailraceSpill_eq hb hf hl hp hd hr hw hs).trans (by rw [he]))
  · exact next_eq ((frameSpilled_ok hb hf hl hr hs hps).trans (if_pos hn))
  · exact next_eq ((frameSpilled_ok hb hf hl hr hs hps).trans (if_neg (ne_true_of_eq_false hn)))
  · subst hs
    refine ⟨fun va x he => next_eq (refillComplete_fault hb hf hl hp hw (readSlot_fault he)), fun ps hps => ⟨fun hh => ?_, fun bs hbs ha => ?_,
      fun ds bs hds ha => ?_⟩⟩
    · exact next_eq (refillComplete_hold hb hf hl hp hw ((readSlot_ok hps).trans (by rw [hh])))
    · exact next_eq ((refillComplete_frame (ds := []) hb hf hl hp hw ((readSlot_ok hps).trans (by rw [hbs])) ha).trans rfl)
    · exact next_eq (refillComplete_frame hb hf hl hp hw ((readSlot_ok hps).trans (by rw [hds])) ha)

/-! ## Parking and restoring -/

section Park

variable {s : State} {core quad : Nat} {b c : Band} {l : Launch}

theorem bandPark_none (h : s.deadlocked core quad = false) : bandPark core quad s = s := by
  unfold bandPark
  simp only [h, Bool.not_false, if_true]

/-- In a deadlocked quadrant the band of the highest item, whose results have landed, is saved and parked. That `spill` and `save` are
variables keeps the checker from evaluating the accesses to a whole slot and a whole context. -/
theorem bandPark_of {spill save : State → Launch → Band → Option State} (hspill : State.spillAll = spill) (hsave : State.saveBand = save)
    {t u : State} (h : s.deadlocked core quad = true)
    (hb : highestItem ((s.quadBands core quad).filter fun b => !b.template && some b.uid != (lowestItem (s.quadBands core quad)).map Band.uid) =
      some b)
    (hl : s.bandLaunch b = some l) (hn : s.landing b = false) (ht : spill s l b = some t) (hu : save t l b = some u) :
    bandPark core quad s = u.modBand b.uid fun c => { c with parked := true, stalled := none, fps := 0 } := by
  unfold bandPark
  rw [hspill, hsave]
  simp only [h, hb, hl, hn, ht, hu, Bool.not_true, Bool.false_eq_true, if_false]

/-- The band that a parked one is when it goes on: as read back, its flags and status kept, its wait tried again. -/
def goesOn (s : State) (b c : Band) : Band :=
  ({ c with parked := false, held := false, readyAt := s.cycle, f := b.f, fps := c.fps ||| b.fps } : Band).rejoin s.cycle

/-- Trying a wait again leaves the registers, the frames and the recorded fault alone. -/
theorem rejoin_kept (b : Band) (n : Nat) : (b.rejoin n).v = b.v ∧ (b.rejoin n).s = b.s ∧ (b.rejoin n).frames = b.frames ∧
    (b.rejoin n).winFault = b.winFault := by
  unfold Band.rejoin
  split
  · split <;> exact ⟨rfl, rfl, rfl, rfl⟩
  · exact ⟨rfl, rfl, rfl, rfl⟩

/-- A band that goes on has the registers, the frames and the recorded fault that were read back. -/
theorem goesOn_kept (s : State) (b c : Band) :
    (goesOn s b c).v = c.v ∧ (goesOn s b c).s = c.s ∧ (goesOn s b c).frames = c.frames ∧ (goesOn s b c).winFault = c.winFault :=
  rejoin_kept _ _

section Restore

variable {load : State → Launch → Band → Option Band} (hload : State.loadBand = load)
  (hq : ∀ x ∈ s.quadBands core quad, x.stalled = none)
  (hb : lowestItem (s.bands.filter fun b => b.place.core == core && b.place.quad == quad && b.parked) = some b)
  (hl : s.bandLaunch b = some l) (hc : load s l b = some c) {c' : Band} (hg : goesOn s b c = c')

include hload hq hb hl hc hg

/-- A band without frames is restored once the pool can hold its registers. -/
theorem bandRestore_noFrame (hf : c'.frames = []) (ha : s.canAlloc b (vPriv c'.v.toList) (sPriv c'.s.toList) = true) :
    bandRestore core quad s = (s.setBand c').wakeTokens := by
  have hgo : ((s.quadBands core quad).any fun b => b.stalled.isSome) = false :=
    List.any_eq_false.mpr fun x h => by rw [hq x h]; exact Bool.false_ne_true
  unfold goesOn at hg
  unfold bandRestore
  rw [hload]
  simp only [hgo, hb, hl, hc, hg, hf, ha, Bool.false_eq_true, if_false, if_true]

/-- A band whose newest frame is spilled is restored with that frame. -/
theorem bandRestore_frame {read : State → Launch → Band → Nat → Frame → SlotRead} (hread : State.readSlot = read) {f g : Frame} {rest : List Frame}
    {pas : List (Nat × Nat)} {ds : List (Nat × KillCause)} (hf : c'.frames = f :: rest)
    (hloc : (f.loc == .spilled && c'.winFault.isNone) = true) (hr : read s l c' c'.depth f = .frame g pas ds)
    (ha : s.canAlloc b (vPriv c'.v.toList + vPriv g.hv) (sPriv c'.s.toList + sPriv g.hs) = true) :
    bandRestore core quad s = (((s.plainTouch b pas).setBand { c' with frames := g :: rest }).consumeAll b ds).wakeTokens := by
  have hgo : ((s.quadBands core quad).any fun b => b.stalled.isSome) = false :=
    List.any_eq_false.mpr fun x h => by rw [hq x h]; exact Bool.false_ne_true
  unfold goesOn at hg
  unfold bandRestore
  rw [hload, hread]
  simp only [hgo, hb, hl, hc, hg, hf, hloc, hr, ha, Bool.false_eq_true, if_false, if_true]

end Restore

end Park

theorem parkingResults : ParkingResults := by
  unfold ParkingResults
  refine ⟨fun s core quad b l t u h hb hl hn ht hu => next_eq (bandPark_of rfl rfl h hb hl hn ht hu), fun s core quad h => next_eq (bandPark_none h),
    fun s core quad b c l hq hb hl hc hf ha => ?_, fun s core quad b c l f g rest pas ds hq hb hl hc hf hloc hw hr ha => ?_⟩
  all_goals
    obtain ⟨hv, hs, hfr, hwf⟩ := goesOn_kept s b c
  · exact next_eq (bandRestore_noFrame (c' := goesOn s b c) rfl hq hb hl hc rfl (hfr.trans hf) (by rw [hv, hs]; exact ha))
  · exact next_eq (bandRestore_frame (c' := goesOn s b c) rfl hq hb hl hc rfl rfl (hfr.trans hf) (by rw [hloc, hwf.trans hw]; rfl) hr
      (by rw [hv, hs]; exact ha))

/-- Settles O37: the equation of each event of the Tailrace in the case that the statement names. -/
theorem windowAndParkingResults : Obligations.WindowAndParkingResults := ⟨windowTransferResults, parkingResults⟩

end Sys2Proof.Proofs.Parking
end

section
/-! SUPPORT. Accesses through the register aperture as they are performed (R130, R160). -/

namespace Sys2Proof.Proofs.Aperture

open Sys2Proof Sys2Proof.Machine Sys2Proof.Stated Sys2Proof.Laws

section Access

variable {s : State} {o : Op} {x : Access} {lane i : Nat} {a : AtomAcc} {l : LaneAcc} {write : Bool}

/-- What keeps a lane's access from being performed now. -/
def apertureClosed (s : State) (o : Op) (x : Access) (a : AtomAcc) (pa : Nat) (write : Bool) : Bool :=
  s.kindOf pa != .aperture || !s.orderFree o x a false || !s.apOpen pa write

theorem apertureClosed_false {pa : Nat} (hk : s.kindOf pa = .aperture) (hf : s.orderFree o x a false = true) (ho : s.apOpen pa write = true) :
    apertureClosed s o x a pa write = false := by
  unfold apertureClosed
  rw [hk, hf, ho]
  rfl

section Load

variable (ho : s.op? o.uid = some o) (hk : o.kind = .load x) (hl : x.laneAtom lane = some (i, a, l))
  (hc : apertureClosed s o x a (l.pas.headD 0) false = false)

include ho hk hl hc

/-- A lane of a load reads a live register of the target band. -/
theorem apertureAccess_live (hr : s.apRam (l.pas.headD 0) = none) :
    apertureAccess o.uid lane s =
      let pa := l.pas.headD 0
      let y := x.setAtom i { a with data := mergeAtom a.data (BitVec.ofNat 256 (s.apRead pa x.width) <<< (8 * (pa % 32))) a.mask, done := true }
      (s.setOp { o with kind := .load y }).acquireOf o y := by
  unfold apertureClosed at hc
  unfold apertureAccess
  simp only [ho, hk, hl, hc, hr, Bool.false_eq_true, if_false]

variable {q cc : Nat} (hr : s.apRam (l.pas.headD 0) = some (q, cc)) {r : AtomAcc} (hred : a.redirected (l.pas.headD 0) q cc x.width = r)

include hr hred

/-- A lane of a load of a spilled register waits for the place where that lies. -/
theorem apertureAccess_waits (hf : s.redirectFree o x r (x.usesL1 r (s.heldBy o.place.core (s.viewOf o.launch o.run r.pa))) = false) :
    apertureAccess o.uid lane s = s := by
  unfold apertureClosed at hc
  unfold apertureAccess
  simp only [ho, hk, hl, hc, hr, hred, hf, Bool.not_false, Bool.false_eq_true, if_false, if_true]

/-- A lane of a load of a spilled register reads it where it lies. -/
theorem apertureAccess_redirected (hf : s.redirectFree o x r (x.usesL1 r (s.heldBy o.place.core (s.viewOf o.launch o.run r.pa))) = true) :
    apertureAccess o.uid lane s =
      let pa := l.pas.headD 0
      let w := s.ramRead o x r
      let d := BitVec.ofNat 256 (w.1.toNat / 256 ^ (q % 32) % 256 ^ x.width * 256 ^ (pa % 32))
      let y := x.setAtom i { a with data := mergeAtom a.data d a.mask, done := true, bad := !w.2.1 }
      (w.2.2.setOp { o with kind := .load y }).acquireOf o y := by
  unfold apertureClosed at hc
  unfold apertureAccess
  simp only [ho, hk, hl, hc, hr, hred, hf, Bool.not_true, Bool.false_eq_true, if_false]

end Load

section Store

variable (ho : s.op? o.uid = some o) (hk : o.kind = .store x) (hl : x.laneAtom lane = some (i, a, l))
  (hc : apertureClosed s o x a (l.pas.headD 0) true = false)

include ho hk hl hc

/-- The end of a lane's store once it has reached state `t`. -/
def laneStored (o : Op) (x : Access) (i : Nat) (a : AtomAcc) (t : State) : State :=
  let y := x.setAtom i { a with done := true }
  ((t.setOp { o with kind := .store y }).acquireOf o y).endStore o y

/-- A lane of a store writes a live register of the target band. -/
theorem apertureStore_live (hr : s.apRam (l.pas.headD 0) = none) :
    apertureStore o.uid lane s =
      laneStored o x i a (s.apWrite (l.pas.headD 0) ((List.range x.width).map fun k => byteOf a.data.toNat (l.pas.headD 0 % 32 + k))) := by
  unfold apertureClosed at hc
  unfold apertureStore laneStored
  simp only [ho, hk, hl, hc, hr, Bool.false_eq_true, if_false]

variable {q cc : Nat} (hr : s.apRam (l.pas.headD 0) = some (q, cc)) {r : AtomAcc} (hred : a.redirected (l.pas.headD 0) q cc x.width = r)

include hr hred

/-- A lane of a store to a spilled register waits for the place where that lies. -/
theorem apertureStore_waits (hf : s.redirectFree o x r false = false) : apertureStore o.uid lane s = s := by
  unfold apertureClosed at hc
  unfold apertureStore
  simp only [ho, hk, hl, hc, hr, hred, hf, Bool.not_false, Bool.false_eq_true, if_false, if_true]

/-- A lane of a store to a spilled register is a plain store to the place where that lies. -/
theorem apertureStore_redirected (hf : s.redirectFree o x r false = true) :
    apertureStore o.uid lane s =
      laneStored o x i a (s.coreStore o.place.core o.launch o.run (x.usesL1 r true) r.pa r.mask r.data) := by
  unfold apertureClosed at hc
  unfold apertureStore laneStored
  simp only [ho, hk, hl, hc, hr, hred, hf, Bool.not_true, Bool.false_eq_true, if_false]

end Store

/-- The aperture serves a register that is live between two of its band's clauses, or of a parked band. -/
theorem between_clauses_of_apOpen {pa : Nat} {b : Band} (hb : s.apBand pa = some b) (ho : s.apOpen pa true = true) (hn : s.apRedirect b pa = none) :
    b.parked = true ∨ b.atHeader = true := by
  unfold State.apOpen at ho
  simp only [hb, hn, Option.isSome_none, Bool.false_or, Bool.and_eq_true, Bool.or_eq_true] at ho
  exact ho.1.1

end Access

/-- Settles O38: a lane's access by whether its register is live, and where a spilled one lies. -/
theorem apertureResults : Obligations.ApertureResults := by
  unfold Obligations.ApertureResults
  refine ⟨fun s o x lane i a l ho hk hl ha hf hopen => ?_, fun s o x lane i a l ho hk hl ha hf hopen => ?_,
    fun s pa b hb ho hn => between_clauses_of_apOpen hb ho hn⟩
  · have hc := apertureClosed_false ha hf hopen
    exact ⟨fun hr => next_eq (apertureAccess_live ho hk hl hc hr), fun q cc hr =>
      ⟨fun hn => next_eq (apertureAccess_waits ho hk hl hc hr rfl hn), fun hn => next_eq (apertureAccess_redirected ho hk hl hc hr rfl hn)⟩⟩
  · have hc := apertureClosed_false ha hf hopen
    exact ⟨fun hr => next_eq (apertureStore_live ho hk hl hc hr), fun q cc hr =>
      ⟨fun hn => next_eq (apertureStore_waits ho hk hl hc hr rfl hn), fun hn => next_eq (apertureStore_redirected ho hk hl hc hr rfl hn)⟩⟩

end Sys2Proof.Proofs.Aperture
end

section
/-! SUPPORT. MFSR and MTSR (R315, R78) and the events that write registers (R4, R328, R345, R364, R389, R404). -/

namespace Sys2Proof.Proofs.Registers

open Sys2Proof Sys2Proof.Machine Sys2Proof.Stated Sys2Proof.Laws Sys2Proof.Proofs.Pieces

/-! ## The words -/

section Words

variable {s : State} {b : Band} {d : Opnd} {n : Nat}

theorem mfsrBody_ok (hn : (numSpec n).isSome = true) (hp : putReady b d s = true) :
    mfsrBody d n b s = .ok (.next (put b d (s.readReg (numOff n) (s.bandSecure b)) s)) := by
  unfold mfsrBody
  simp only [hn, need_true, ok_bind, scalarDst_put hp]
  rfl

theorem mfsrBody_noRegister (hn : numSpec n = none) : mfsrBody d n b s = .error (.word tIllegalOperand) := by
  unfold mfsrBody
  simp only [hn, Option.isSome_none, need_false, error_bind]

theorem mtsrBody_noRegister (hn : numSpec n = none) : mtsrBody d n b s = .error (.word tIllegalOperand) := by
  unfold mtsrBody
  simp only [hn, Option.isSome_none, need_false, error_bind]

variable {k : Fin 64} {v : W64} (hn : (numSpec n).isSome = true) (hv : b.readS k.val = .ok v)

include hn hv

/-- MTSR of a reserved role. -/
theorem mtsrBody_badRole (hr : 0x1000 ≤ n ∧ n < 0x11E0) (hb : badRole v = true) : mtsrBody (.s k) n b s = .error (.word tIllegalOperand) := by
  unfold mtsrBody
  simp only [hn, hv, hr, hb, and_self, need_true, need_false, ok_bind, error_bind, Bool.not_true, if_true]

/-- MTSR of the roles of a core that is not idle. -/
theorem mtsrBody_busy (hr : 0x1000 ≤ n ∧ n < 0x11E0) (hb : badRole v = false) (hi : s.coreIdle ((n - 0x1000) / 2) = false) :
    mtsrBody (.s k) n b s = .error (.word tIllegalState) := by
  unfold mtsrBody
  simp only [hn, hv, hr, hb, hi, and_self, need_true, ok_bind, Bool.not_false, if_true]
  rfl

/-- MTSR writes its register. -/
theorem mtsrBody_ok (hr : 0x1000 ≤ n ∧ n < 0x11E0 → badRole v = false ∧ s.coreIdle ((n - 0x1000) / 2) = true) :
    mtsrBody (.s k) n b s = .ok (.next (s.writeReg (numOff n) v (~~~ 0) (s.bandSecure b))) := by
  unfold mtsrBody
  by_cases h : 0x1000 ≤ n ∧ n < 0x11E0
  · obtain ⟨hb, hi⟩ := hr h
    simp only [hn, hv, h, hb, hi, and_self, need_true, ok_bind, Bool.not_false, Bool.not_true, Bool.false_eq_true, if_true, if_false]
    rfl
  · simp only [hn, hv, h, need_true, ok_bind, if_false]
    rfl

end Words

theorem registerWordResults : RegisterWordResults := by
  unfold RegisterWordResults
  refine ⟨fun s b d n h => ⟨fun hn hp => next_eq (issue_ok h (mfsrBody_ok hn hp)), fun hn => next_eq (issue_word h tIllegalOperand (mfsrBody_noRegister hn))⟩,
    fun s b k n v h hv => ⟨fun hn => next_eq (issue_word h tIllegalOperand (mtsrBody_noRegister hn)),
      fun hn hr hb => next_eq (issue_word h tIllegalOperand (mtsrBody_badRole hn hv hr hb)),
      fun hn hr hb hi => next_eq (issue_word h tIllegalState (mtsrBody_busy hn hv hr hb hi)),
      fun hn hr => next_eq (issue_ok h (mtsrBody_ok hn hv hr))⟩⟩

/-! ## The events -/

section Events

variable {s : State}

/-- The region registers behind a LOCK bit stay as they are (R50). -/
theorem writeReg_lockedRegion {num : Nat} (v mask : W64) (secure : Bool) (hn : num < 0x80) (hl : (s.num (num % 0x40)).getLsbD 62 = true) :
    s.writeReg (numOff num) v mask secure = s := by
  have hoff : (numOff num - 0x10000) / 8 = num := by unfold numOff; omega
  have hlock : s.locked? num = true := by
    unfold State.locked?
    rw [if_pos hn]
    exact hl
  have hbig : 0x10000 ≤ numOff num := Nat.le_add_right _ _
  have hev : ¬ numOff num = evrctl := fun h => by rw [h] at hbig; exact absurd hbig (by decide)
  unfold State.writeReg
  split
  · rfl
  · dsimp only
    rw [if_neg (by omega), if_neg (by omega), if_neg hev, if_neg (by omega), if_neg (by omega), if_neg (by omega), if_neg (by omega),
      if_neg (by omega), hoff, if_pos hlock]

/-- The roles of a core that is not idle, and reserved roles, are not written (R78). -/
theorem writeLsrole_refused {num : Nat} {v : W64} (h : s.coreIdle ((num - 0x1000) / 2) = false ∨ badRole v = true) : s.writeLsrole num v = s := by
  have hgo : (!s.coreIdle ((num - 0x1000) / 2) || badRole v) = true := by
    rcases h with h | h <;> rw [h]
    · rfl
    · exact Bool.or_true _
  unfold State.writeLsrole
  exact if_pos hgo

/-- TAIL moves, unless the ring would overflow (R328). -/
theorem doorbell_eq (q : Nat) (tail : W16) :
    s.doorbell q tail =
      if 2 ^ max 1 (fld (s.reg (32 * q)) 3 0) < (tail.toNat + 65536 - fld (s.reg (32 * q + 8)) 63 48) % 65536 then s.post (mkEvent 0x11 0 0 0 q)
      else s.setReg (32 * q + 8) (setFld (s.reg (32 * q + 8)) 47 32 tail.toNat) := rfl

/-- A unit's filter is cleared when its period has passed (R52). -/
theorem celogClear_due {unit : Nat} (hm : fld (s.celogCtl unit) 55 32 ≠ 0)
    (hc : (s.celogOf unit).since + microseconds (1000 * fld (s.celogCtl unit) 55 32) ≤ s.cycle) :
    celogClear unit s = s.setCelog ⟨unit, [], [], [], s.cycle⟩ := by
  unfold celogClear
  refine if_neg ?_
  rw [Bool.or_eq_true, decide_eq_true_eq, decide_eq_true_eq]
  rintro (h | h)
  exacts [hm h, absurd hc (Nat.not_le.mpr h)]

/-- The oldest unread record has waited CTIME (R345). -/
theorem ringCoalesce_due {t : Nat} {rest : List (Option Nat)} (he : s.evTimes = some t :: rest) (hm : fld (s.reg evrctl) 62 51 ≠ 0)
    (hc : t + microseconds (fld (s.reg evrctl) 62 51) ≤ s.cycle) : ringCoalesce s = ({ s with evTimes := none :: rest } : State).interrupt 0 := by
  unfold ringCoalesce
  simp only [he]
  refine if_neg ?_
  rw [Bool.or_eq_true, decide_eq_true_eq, decide_eq_true_eq]
  rintro (h | h)
  exacts [hm h, absurd hc (Nat.not_le.mpr h)]

end Events

theorem registerEventResults : RegisterEventResults := by
  unfold RegisterEventResults
  refine ⟨fun s off v secure => rfl, fun s num v secure hn => next_eq (if_pos hn), fun s num v secure r hn _ _ hl => next_eq ?_,
    fun s die v secure hd => next_eq (if_pos hd), fun s num v hlo hhi => ⟨fun h => next_eq ?_, fun _ _ => next_eq (if_pos ⟨hlo, hhi⟩)⟩,
    fun s v => ⟨rfl, rfl⟩, fun s v hw => ⟨s.writeUeptab v, rfl, rfl, (reg_setReg hw _ _ _).trans (if_pos rfl), rfl⟩,
    fun s q tail hq => ⟨fun h => next_eq ?_, fun h => next_eq ?_⟩, fun s unit hm hc => next_eq (celogClear_due hm hc),
    fun s t rest he hm hc => next_eq (ringCoalesce_due he hm hc)⟩
  · exact (if_pos hn).trans (writeReg_lockedRegion v _ secure hn hl)
  · exact (if_pos ⟨hlo, hhi⟩).trans (writeLsrole_refused h)
  · exact (if_pos hq).trans ((doorbell_eq q tail).trans (if_neg (Nat.not_lt.mpr h)))
  · exact (if_pos hq).trans ((doorbell_eq q tail).trans (if_pos h))

/-- Settles O39: the words by how their meaning ends, and each event's equation. -/
theorem registerResults : Obligations.RegisterResults := ⟨registerWordResults, registerEventResults⟩

end Sys2Proof.Proofs.Registers
end

section
/-! SUPPORT. The host's commands (R400, R401). -/

namespace Sys2Proof.Proofs.HostCommands

open Sys2Proof Sys2Proof.Machine Sys2Proof.Stated Sys2Proof.Laws

section Commands

variable {s t : State} {res : Nat}

/-- A command that is being performed ends with the result of its body. -/
theorem whenCommand_eq {op : Nat} {body : State → State × Nat} (h : s.hcmd = some op) (hb : body s = (t, res)) :
    whenCommand op body s = commandDone t res := by
  unfold whenCommand
  rw [if_pos h, hb]
  rfl

/-- CANCEL of a launch that has been read. -/
theorem cancelLaunch_read {l : Launch} (hl : ((s.readOf s.cmdQueue).find? fun l => l.lr.lid.toNat == s.cmdLid) = some l) :
    cancelLaunch s = (if l.isActive then s.decideKill l.uid .cancelled else s.refuse l 0x0B, 0) := by
  unfold cancelLaunch
  simp only [hl]
  rfl

section Unread

variable (hn : ∀ l ∈ s.readOf s.cmdQueue, l.lr.lid.toNat ≠ s.cmdLid)

include hn

theorem find_read_none : ((s.readOf s.cmdQueue).find? fun l => l.lr.lid.toNat == s.cmdLid) = none :=
  List.find?_eq_none.mpr fun l h he => hn l h (beq_iff_eq.mp he)

/-- CANCEL of a record that has not been read. -/
theorem cancelLaunch_unread {i : Nat} (hi : ((s.unreadOf s.cmdQueue).find? fun i => s.recordLid s.cmdQueue i == s.cmdLid) = some i) :
    cancelLaunch s = ((s.touchRecords s.cmdQueue s.cmdLid (s.unreadOf s.cmdQueue)).cancelUnread s.cmdQueue [i], 0) := by
  unfold cancelLaunch
  simp only [find_read_none hn, hi]
  rfl

/-- CANCEL of an identifier that no record has. -/
theorem cancelLaunch_none (hi : ∀ i ∈ s.unreadOf s.cmdQueue, s.recordLid s.cmdQueue i ≠ s.cmdLid) :
    cancelLaunch s = (s.touchRecords s.cmdQueue s.cmdLid (s.unreadOf s.cmdQueue), 1) := by
  have hu : ((s.unreadOf s.cmdQueue).find? fun i => s.recordLid s.cmdQueue i == s.cmdLid) = none :=
    List.find?_eq_none.mpr fun i h he => hi i h (beq_iff_eq.mp he)
  unfold cancelLaunch
  simp only [find_read_none hn, hu]
  rfl

end Unread

/-- PREEMPT of an identifier of no active launch. -/
theorem preemptLaunch_none (h : ∀ l ∈ s.launches, l.lr.lid.toNat = s.cmdLid → l.isActive = false) : preemptLaunch s = (s, 1) := by
  have hf : (s.launches.find? fun l => l.lr.lid.toNat == s.cmdLid && l.isActive) = none :=
    List.find?_eq_none.mpr fun l hl he => by
      obtain ⟨hlid, ha⟩ := Bool.and_eq_true_iff.mp he
      rw [h l hl (beq_iff_eq.mp hlid)] at ha
      exact Bool.false_ne_true ha
  unfold preemptLaunch
  simp only [hf]
  rfl

/-- PREEMPT of an active launch. -/
theorem preemptLaunch_some {l : Launch} (h : (s.launches.find? fun l => l.lr.lid.toNat == s.cmdLid && l.isActive) = some l) :
    preemptLaunch s = ((s.wgs.filter fun w => w.launch == l.uid && w.resident && !w.exited && !w.preempting).foldl
      (fun s w => s.startPreempt w (l.lr.rply == 2)) s, 0) := by
  unfold preemptLaunch
  simp only [h]
  rfl

variable {ok : Band → Bool} {act : Band → State → State} {b : Band}

/-- A command on the band that PLACE names. -/
theorem onBand_some (h : s.cmdBand = some b) : onBand ok act s = if ok b then (act b s, 0) else (s, 2) := by
  unfold onBand
  simp only [h]
  rfl

theorem onBand_none (h : s.cmdBand = none) : onBand ok act s = (s, 2) := by
  unfold onBand
  simp only [h]
  rfl

/-- A command on a band that PLACE names, by whether it is in the state that the command needs. -/
theorem whenCommand_onBand {op : Nat} (ho : s.hcmd = some op) (hb : s.cmdBand = some b) :
    whenCommand op (onBand ok act) s = if ok b then commandDone (act b s) 0 else commandDone s 2 := by
  cases h : ok b with
  | true => exact whenCommand_eq ho ((onBand_some hb).trans (if_pos h))
  | false => exact whenCommand_eq ho ((onBand_some hb).trans (if_neg (ne_true_of_eq_false h)))

theorem whenCommand_noBand {op : Nat} (ho : s.hcmd = some op) (hb : s.cmdBand = none) :
    whenCommand op (onBand ok act) s = commandDone s 2 := whenCommand_eq ho (onBand_none hb)

/-- What RESUME does to a suspended band. -/
def resumeAct (b : Band) (s : State) : State := match b.trap with | some t => s.setBand (b.unsuspend t) | none => s

/-- What DELIVER does to a suspended band. -/
def deliverAct (b : Band) (s : State) : State :=
  match b.trap with
  | some t =>
    let c := { b with suspended := false }
    if s.beingKilled b.launch then (s.setBand { c with trap := none }).deliverInKill { c with trap := none } t else s.enterTrap c t
  | none => s

theorem execHcmdResumeSuspended_eq (s : State) : exec .hcmdResumeSuspended s = .next (whenCommand 6 (onBand Band.suspended resumeAct) s) := rfl

theorem execHcmdDeliverTrap_eq (s : State) : exec .hcmdDeliverTrap s = .next (whenCommand 7 (onBand Band.suspended deliverAct) s) := rfl

theorem resumeAct_trap {x : Trap} (h : b.trap = some x) : resumeAct b s = s.setBand (b.unsuspend x) := by
  unfold resumeAct
  simp only [h]

theorem deliverAct_trap {x : Trap} (h : b.trap = some x) :
    deliverAct b s = if s.beingKilled b.launch then
      (s.setBand { b with suspended := false, trap := none }).deliverInKill { b with suspended := false, trap := none } x
      else s.enterTrap { b with suspended := false } x := by
  unfold deliverAct
  simp only [h]

end Commands

/-- Settles O40: each command's body, and the command on a band by the state that the band is in. -/
theorem hostCommandResults : Obligations.HostCommandResults := by
  unfold Obligations.HostCommandResults
  refine ⟨fun s ho => ⟨fun l hl => next_eq (whenCommand_eq ho (cancelLaunch_read hl)), fun hn => ⟨fun i hi => next_eq (whenCommand_eq ho (cancelLaunch_unread hn hi)),
      fun hi => next_eq (whenCommand_eq ho (cancelLaunch_none hn hi))⟩⟩, fun s ho => next_eq (whenCommand_eq ho rfl),
    fun s ho => ⟨fun h => next_eq (whenCommand_eq ho (preemptLaunch_none h)), fun l h => next_eq (whenCommand_eq ho (preemptLaunch_some h))⟩,
    fun s b hb => ⟨fun ho => next_eq (whenCommand_onBand ho hb), fun ho => next_eq (whenCommand_onBand ho hb), fun t ho hs ht => ?_,
      fun t ho hs ht => ⟨fun hk => ?_, fun hk => ?_⟩, fun hs => ⟨fun ho => ?_, fun ho => ?_⟩⟩,
    fun s hb => ⟨fun ho => next_eq (whenCommand_noBand ho hb), fun ho => next_eq (whenCommand_noBand ho hb),
      fun ho => next_eq (whenCommand_noBand ho hb), fun ho => next_eq (whenCommand_noBand ho hb)⟩,
    fun s op ho => ⟨fun h => ?_, fun h1 h8 => ?_⟩⟩
  · exact (execHcmdResumeSuspended_eq s).trans (next_eq ((whenCommand_onBand ho hb).trans (by rw [if_pos hs, resumeAct_trap ht])))
  · exact (execHcmdDeliverTrap_eq s).trans (next_eq ((whenCommand_onBand ho hb).trans
      (by rw [if_pos hs, deliverAct_trap ht, if_neg (ne_true_of_eq_false hk)])))
  · exact (execHcmdDeliverTrap_eq s).trans (next_eq ((whenCommand_onBand ho hb).trans (by rw [if_pos hs, deliverAct_trap ht, if_pos hk])))
  · exact next_eq ((whenCommand_onBand ho hb).trans (if_neg (ne_true_of_eq_false hs)))
  · exact next_eq ((whenCommand_onBand ho hb).trans (if_neg (ne_true_of_eq_false hs)))
  · show execHcmdMalformed s = _
    unfold execHcmdMalformed
    simp only [ho, h, if_true]
    exact next_eq (whenCommand_eq ho rfl)
  · have hn : ¬ (op = 0 ∨ 8 ≤ op) := by omega
    show execHcmdMalformed s = _
    unfold execHcmdMalformed
    simp only [ho, hn, if_false]

end Sys2Proof.Proofs.HostCommands
end

section
/-! SUPPORT. Requests of the host on PCIe (R394, R395, R396). -/

namespace Sys2Proof.Proofs.Inbound

open Sys2Proof Sys2Proof.Machine Sys2Proof.Stated Sys2Proof.Laws

section Requests

variable {s : State} {a : PcieAccess}

/-- A request on BAR0 that lies in it. -/
theorem pcieAccess_bar0 (hz : a.size ≠ 0) (hs : a.space = .bar0) (hr : a.off + a.size ≤ 2 ^ 32) : pcieAccess a s = s.outsideDevice a := by
  unfold pcieAccess
  simp only [hz, hs, Nat.not_lt.mpr hr, if_false]

/-- A request on BAR4 that lies in it. -/
theorem pcieAccess_bar4 (hz : a.size ≠ 0) (hs : a.space = .bar4) (hr : a.off + a.size ≤ 2 ^ 35) :
    pcieAccess a s = windowAccess a.kind a.off a.size a.data s := by
  unfold pcieAccess
  simp only [hz, hs, Nat.not_lt.mpr hr, if_false]

/-- The addresses that a request on BAR2 reaches. -/
def bar2Bytes (s : State) (a : PcieAccess) : List Nat := (List.range a.size).map fun i => fld (s.num 0x2010) 51 36 * 2 ^ 36 + a.off + i

/-- A request on BAR2 that lies in it and in RAM. -/
theorem pcieAccess_bar2 (hz : a.size ≠ 0) (hs : a.space = .bar2) (hr : a.off + a.size ≤ 2 ^ 36) (hk : ∀ p ∈ bar2Bytes s a, s.kindOf p = .ram) :
    pcieAccess a s = s.outsideRam a.kind a.size a.data (bar2Bytes s a) := by
  have ha : ((bar2Bytes s a).all fun p => s.kindOf p == .ram) = true := List.all_eq_true.mpr fun p hp => beq_iff_eq.mpr (hk p hp)
  unfold pcieAccess
  rw [if_neg hz, hs]
  exact (if_neg (Nat.not_lt.mpr hr)).trans (if_pos ha)

/-- The first address that a request on BAR2 reaches. -/
theorem bar2Bytes_headD (hz : a.size ≠ 0) : (bar2Bytes s a).headD 0 = fld (s.num 0x2010) 51 36 * 2 ^ 36 + a.off := by
  obtain ⟨n, hn⟩ := Nat.exists_eq_succ_of_ne_zero hz
  unfold bar2Bytes
  rw [hn, List.range_succ_eq_map, List.map_cons, List.headD_cons, Nat.add_zero]

/-- A request that gives a new value is none that reads or writes alone. -/
theorem newValue_some {k : PcieKind} {size data old x : Nat} (h : PcieKind.newValue k size data old = some x) : k ≠ .read ∧ k ≠ .write := by
  constructor <;> rintro rfl <;> exact nomatch h

/-- An atomic request on device registers answers with the old value and leaves the new one. -/
theorem outsideDevice_atomic {x : Nat} (hx : PcieKind.newValue a.kind a.size a.data (s.devRead a.off a.size false) = some x)
    (hf : PcieKind.atomicForm a.kind a.size a.off = true) :
    s.outsideDevice a = (s.devStore ((List.range a.size).map fun i => (a.off + i, byteOf x i)) false).send
      (.pcieData (some (s.devRead a.off a.size false))) := by
  obtain ⟨hr, hw⟩ := newValue_some hx
  unfold State.outsideDevice
  cases hk : a.kind with
  | read => exact absurd hk hr
  | write => exact absurd hk hw
  | _ =>
    rw [hk] at hx hf
    simp only [hx, hf, Bool.not_true, Bool.false_eq_true, if_false]

/-- An atomic request on RAM outside secure memory answers with the old value and leaves the new one. -/
theorem outsideRam_atomic {k : PcieKind} {size data x : Nat} {pas : List Nat}
    (hx : PcieKind.newValue k size data (leNat (pas.map s.outsideByte)) = some x) (hf : PcieKind.atomicForm k size (pas.headD 0) = true)
    (hs : ∀ p ∈ pas, s.inSecure p = false) :
    s.outsideRam k size data pas = (s.outsideWrite (pas.zipIdx.map fun y => (y.1, byteOf x y.2))).send
      (.pcieData (some (leNat (pas.map s.outsideByte)))) := by
  obtain ⟨hr, hw⟩ := newValue_some hx
  have hclear : pas.any s.inSecure = false := List.any_eq_false.2 fun p hp => ne_true_of_eq_false (hs p hp)
  unfold State.outsideRam
  cases k with
  | read => exact absurd rfl hr
  | write => exact absurd rfl hw
  | _ => simp only [hx, hf, hclear, Bool.not_true, Bool.false_eq_true, if_false]

/-- A swap of 4 or 8 bytes at their alignment has the form of an atomic request. -/
theorem atomicForm_swap {size at_ : Nat} (hs : size = 4 ∨ size = 8) (ha : at_ % size = 0) : PcieKind.atomicForm .swap size at_ = true := by
  unfold PcieKind.atomicForm
  rw [beq_iff_eq.2 ha, Bool.and_true]
  rcases hs with rfl | rfl <;> rfl

/-- The four bytes of a number below 2^32 in order are that number. -/
theorem leNat_four_bytes (n : W32) : leNat ((List.range 4).map fun i => byteOf n.toNat i) = n.toNat := by
  have hn := n.isLt
  simp only [List.range_succ, List.range_zero, List.nil_append, List.map_cons, List.map_nil, List.cons_append, leNat, byteOf,
    BitVec.toNat_ofNat]
  omega

/-- The four bytes of BAR register k in configuration space. -/
theorem configBytes_bar (s : State) {k : Nat} (hk : k < 6) :
    leNat ((List.range 4).map fun i => s.configByte (0x10 + 4 * k + i)) = (s.barReg k).toNat := by
  refine Eq.trans (congrArg leNat (List.map_congr_left fun i hi => ?_)) (leNat_four_bytes (s.barReg k))
  have hi4 : i < 4 := List.mem_range.mp hi
  unfold State.configByte
  rw [if_pos (by omega), show (0x10 + 4 * k + i - 0x10) / 4 = k by omega, show (0x10 + 4 * k + i) % 4 = i by omega]

/-- A read of BAR register k in configuration space. -/
theorem pcieAccess_barRead (s : State) {k : Nat} (hk : k < 6) :
    pcieAccess ⟨.config, .read, 0x10 + 4 * k, 4, 0⟩ s = (s.tick 1).send (.pcieData (some (s.barReg k).toNat)) := by
  have hr : ¬ 4096 < 0x10 + 4 * k + 4 := by omega
  unfold pcieAccess
  simp only [hr, OfNat.ofNat_ne_zero, if_false, configBytes_bar s hk]

/-- A byte of secure memory reads as zero from outside. -/
theorem outsideByte_secure {pa : Nat} (h : s.inSecure pa = true) : s.outsideByte pa = 0 := by
  unfold State.outsideByte State.ramByte
  rw [h]
  exact ite_self _

end Requests

/-- Settles O41: a request by the space that it reaches, then by its kind. -/
theorem inboundAccessResults : Obligations.InboundAccessResults := by
  unfold Obligations.InboundAccessResults
  refine ⟨fun s a hz hs hr => ?_, fun s a hz hs hr => ?_,
    fun s a hz hs hr => next_eq ((pcieAccess_bar4 hz hs hr).trans (if_pos hr).symm), fun s k hk => next_eq (pcieAccess_barRead s hk),
    fun s pa h => outsideByte_secure h⟩
  · have heq := pcieAccess_bar0 (s := s) hz hs hr
    refine ⟨fun hk => next_eq (heq.trans ?_), fun hk => next_eq (heq.trans ?_), fun x hx hf => next_eq (heq.trans (outsideDevice_atomic hx hf))⟩
    · unfold State.outsideDevice
      simp only [hk]
    · unfold State.outsideDevice
      simp only [hk]
  · intro base pas hk old put
    have heq := pcieAccess_bar2 (s := s) hz hs hr hk
    have hform {k : PcieKind} (hf : PcieKind.atomicForm k a.size base = true) : PcieKind.atomicForm k a.size ((bar2Bytes s a).headD 0) = true :=
      bar2Bytes_headD (s := s) hz ▸ hf
    refine ⟨fun hw => next_eq (heq.trans (by rw [hw]; rfl)), fun hr => next_eq (heq.trans (by rw [hr]; rfl)),
      fun x hx hf hsec => next_eq (heq.trans (outsideRam_atomic hx (hform hf) hsec)), fun hw h48 hal hsec => next_eq (heq.trans ?_)⟩
    rw [hw]
    exact outsideRam_atomic rfl (hform (atomicForm_swap h48 hal)) hsec

end Sys2Proof.Proofs.Inbound
end

section
/-! SUPPORT. Reset, boot and bring-up (R406), attestation (R407), temperature and power (R409). -/

namespace Sys2Proof.Proofs.Boot

open Sys2Proof Sys2Proof.Machine Sys2Proof.Stated Sys2Proof.Laws

/-! ## Registers without the canonical form -/

theorem lookupReg_assocPut_some (a : Nat) (w : W64) : ∀ l : List (Nat × W64), lookupReg (assocPut l a (some w)) a = some w
  | [] => by simp [assocPut, lookupReg]
  | (k, x) :: t => by
    have ih := lookupReg_assocPut_some a w t
    unfold assocPut
    split
    · rw [lookupReg, if_neg (by omega), ih]
    · split <;> simp [lookupReg]

/-- A value other than the reset value is read back, whatever the form of the registers. -/
theorem num_setNum_same (s : State) {k : Nat} {w : W64} (h : w ≠ resetOf (numOff k)) : (s.setNum k w).num k = w := by
  show (lookupReg (assocPut s.regs (numOff k) (if w = resetOf (numOff k) then none else some w)) (numOff k)).getD _ = w
  rw [if_neg h, lookupReg_assocPut_some]
  rfl

/-! ## BOOTSTAT -/

/-- A state in BOOTSTAT above what lies in the bits below it. -/
theorem bootState_of {n lo : Nat} (hn : n < 4) (hlo : lo < 2 ^ 62) : fld (BitVec.ofNat 64 (n * 2 ^ 62 + lo)) 63 62 = n := by
  unfold fld
  rw [BitVec.toNat_ofNat]
  omega

/-- BOOTSTAT resets to state 0, so a value with another state is read back. -/
theorem bootState_setNum (s : State) {w : W64} {n : Nat} (hn : n ≠ 0) (hw : fld w 63 62 = n) :
    fld ((s.setNum 0x2000 w).num 0x2000) 63 62 = n ∧ (s.setNum 0x2000 w).num 0x2000 = w := by
  have h : (s.setNum 0x2000 w).num 0x2000 = w := num_setNum_same s fun he => by
    rw [he] at hw
    exact hn (hw.symm.trans (by decide))
  exact ⟨h.symm ▸ hw, h⟩

/-- A version in the low half of BOOTSTAT leaves state 1 as it is. -/
theorem bootState_flaell (v : W32) : fld ((1#64 <<< 62) ||| v.setWidth 64) 63 62 = 1 := by
  have hv := v.isLt
  have h1 : (1#64 <<< 62).toNat >>> 62 = 1 := by decide
  have h2 : (v.setWidth 64).toNat >>> 62 = 0 := by
    rw [BitVec.toNat_setWidth, Nat.shiftRight_eq_div_pow]
    omega
  unfold fld
  rw [← Nat.shiftRight_eq_div_pow, BitVec.toNat_or, Nat.shiftRight_or_distrib, h1, h2]
  rfl

/-! ## Reset -/

/-- The state that reset leaves before the boot ROM has read the flash. -/
def atReset (s : State) : State :=
  { State.reset with sent := s.sent, keyGen := s.keyGen + 1, nextUid := s.nextUid, freeCtr := s.freeCtr, agenda := s.agenda }

/-- Vectors are masked at reset: with no image vector 2 is pending. -/
theorem reset_none (s : State) : reset none s = { atReset s with msixPending := (atReset s).msixPending ||| (1#4 <<< 2) } :=
  if_pos (show (resetOf (0x4000 + 16 * 2 + 8)).getLsbD 32 = true by decide)

theorem reset_some (s : State) (c : ImageCheck) : reset (some c) s = (atReset s).verifyImage c := rfl

/-- Verifying an image changes a register alone. -/
theorem verifyImage_kept (s : State) (c : ImageCheck) : s.verifyImage c = { s with regs := (s.verifyImage c).regs } := by
  cases c <;> rfl

/-- A write of registers changes them alone. -/
theorem setNums_kept (base : Nat) (ws : List W64) (s : State) : setNums base ws s = { s with regs := (setNums base ws s).regs } := by
  unfold setNums
  induction ws.zipIdx generalizing s with
  | nil => rfl
  | cons x xs ih =>
    rw [List.foldl_cons, ih]
    rfl

/-- A view of the state without its registers. -/
def Unregistered {β : Type} (f : State → β) : Prop := ∀ (s : State) (l : List (Nat × W64)), f { s with regs := l } = f s

section Bringup

variable {β : Type} {f : State → β} (hf : Unregistered f) (s : State) (r : Bringup)

include hf

theorem setNums_unregistered (base : Nat) (ws : List W64) (t : State) : f (setNums base ws t) = f t := by
  rw [setNums_kept]
  exact hf _ _

/-- Bring-up changes registers alone. -/
theorem bringup_unregistered : f (bringup r s) = f s := by
  unfold bringup
  extract_lets fver s1 s2 s3 s4 s5
  have h5 : f s5 = f s := by
    unfold s5
    refine (Reports.foldl_kept f _ (fun t c => hf t _) _ _).trans ?_
    unfold s4 s3 s2 s1
    simp only [setNums_unregistered hf]
  split
  · rfl
  · split
    · exact hf _ _
    · exact (hf _ _).trans h5

end Bringup

/-- Bring-up that ends well sets STATE to 2. -/
theorem bringup_trained {s : State} {r : Bringup} (hb : fld (s.num 0x2000) 63 62 = 1) (hr : r.trained = true) :
    ∃ (t : State) (lo : Nat), bringup r s = t.setNum 0x2000 (BitVec.ofNat 64 (2 * 2 ^ 62 + lo)) ∧ lo < 2 ^ 32 := by
  have h1 : ¬ s.bootState ≠ 1 := fun h => h hb
  unfold bringup
  simp only [h1, hr, Bool.not_true, Bool.false_eq_true, if_false]
  exact ⟨_, _, rfl, Nat.mod_lt _ (by decide)⟩

/-- Memory training that fails stops bring-up with code 6. -/
theorem bringup_untrained {s : State} {r : Bringup} (hb : fld (s.num 0x2000) 63 62 = 1) (hr : r.trained = false) :
    bringup r s = s.setNum 0x2000 (BitVec.ofNat 64 (3 * 2 ^ 62 + 6 * 2 ^ 32 + fld (s.num 0x2000) 31 0)) := by
  have h1 : ¬ s.bootState ≠ 1 := fun h => h hb
  unfold bringup
  simp only [h1, hr, Bool.not_false, if_true, if_false]
  rfl

theorem bootResults : BootResults := by
  unfold BootResults
  refine ⟨fun s flash => ⟨reset flash s, rfl, ?_⟩, fun s v h => next_eq (if_pos h), fun s c h => next_eq (if_neg h),
    fun s r hb hr => ⟨bringup r s, rfl, ?_, bringup_unregistered (fun _ _ => rfl) s r, bringup_unregistered (fun _ _ => rfl) s r⟩,
    fun s r hb hr => ⟨bringup r s, rfl, ?_⟩, fun s r h => next_eq (if_pos h)⟩
  · cases flash with
    | none =>
      rw [reset_none]
      exact ⟨rfl, rfl, rfl, rfl, rfl, rfl, rfl, fun _ => ⟨rfl, show ((0 : BitVec 4) ||| (1#4 <<< 2)).getLsbD 2 = true by decide⟩, nofun⟩
    | some c =>
      rw [reset_some, verifyImage_kept]
      refine ⟨rfl, rfl, rfl, rfl, rfl, rfl, rfl, nofun, fun v hv => ?_⟩
      obtain rfl := Option.some.inj hv
      exact (bootState_setNum (atReset s) one_ne_zero (bootState_flaell v)).1
  · obtain ⟨t, lo, he, hlo⟩ := bringup_trained hb hr
    rw [he]
    exact (bootState_setNum t two_ne_zero (bootState_of (by decide) (by omega))).1
  · rw [bringup_untrained hb hr]
    have hlo : fld (s.num 0x2000) 31 0 < 2 ^ 32 := Nat.mod_lt _ (by decide)
    have hs : fld (BitVec.ofNat 64 (3 * 2 ^ 62 + 6 * 2 ^ 32 + fld (s.num 0x2000) 31 0)) 63 62 = 3 := by
      rw [Nat.add_assoc]
      exact bootState_of (by decide) (by omega)
    obtain ⟨h3, hv⟩ := bootState_setNum s (by decide) hs
    refine ⟨h3, ?_, rfl⟩
    rw [hv]
    generalize fld (s.num 0x2000) 31 0 = lo at hlo
    unfold fld
    rw [BitVec.toNat_ofNat]
    omega

/-! ## Attestation -/

section Mailbox

variable {m : List Host.Cell}

/-- Bytes of a number written one by one at an address. -/
theorem get_foldl_set (a x : Nat) (hm : Mem.wf m = true) (c : Nat) : ∀ n,
    Mem.get ((List.range n).foldl (fun m i => Mem.set m (a + i) (byteOf x i)) m) c = if a ≤ c ∧ c < a + n then byteOf x (c - a) else Mem.get m c
  | 0 => (if_neg (by omega)).symm
  | n + 1 => by
    have hwf : Mem.wf ((List.range n).foldl (fun m i => Mem.set m (a + i) (byteOf x i)) m) = true :=
      foldl_set_wf (fun i => (a + i, byteOf x i)) (List.range n) hm
    rw [List.range_succ, List.foldl_append, List.foldl_cons, List.foldl_nil, get_set_wf hwf, get_foldl_set a x hm c n]
    by_cases hc : c = a + n
    · rw [if_pos hc, if_pos (by omega), hc, Nat.add_sub_cancel_left]
    · rw [if_neg hc]
      by_cases h : a ≤ c ∧ c < a + n
      · rw [if_pos h, if_pos (by omega)]
      · rw [if_neg h, if_neg (by omega)]

/-- The bytes of a number are read as that number. -/
theorem read_of_bytes : ∀ (n a x : Nat), (∀ i < n, Mem.get m (a + i) = byteOf x i) → Mem.read m a n = x % 256 ^ n
  | 0, _, x, _ => by rw [Mem.read, Nat.pow_zero, Nat.mod_one]
  | n + 1, a, x, h => by
    have h0 : Mem.get m a = byteOf x 0 := h 0 (Nat.succ_pos n)
    have ht : ∀ i < n, Mem.get m (a + 1 + i) = byteOf (x / 256) i := fun i hi => by
      rw [show a + 1 + i = a + (i + 1) by omega, h (i + 1) (by omega), byteOf, byteOf, Nat.pow_succ, Nat.mul_comm, Nat.div_div_eq_div_mul]
    rw [Mem.read, h0, read_of_bytes n (a + 1) (x / 256) ht, byteOf, Nat.pow_zero, Nat.div_one, BitVec.toNat_ofNat, Nat.pow_succ' (n := n),
      Nat.mod_mul]

end Mailbox

/-- The bytes of a number with their offsets in the mailbox. -/
def boxCells (at_ n x : Nat) : List (Nat × Byte) := (natBytes n x).zipIdx.map fun (y, i) => (at_ + i, y)

theorem boxCells_eq (at_ n x : Nat) : boxCells at_ n x = (List.range n).map fun i => (at_ + i, byteOf x i) := by
  unfold boxCells natBytes
  rw [MatrixUnit.zipIdx_map_range, List.map_map]
  rfl

theorem foldl_boxCells (at_ n x : Nat) (m : List Host.Cell) :
    (boxCells (0x30000 + at_) n x).foldl (fun m c => Mem.set m (c.1 - 0x30000) c.2) m =
      (List.range n).foldl (fun m i => Mem.set m (at_ + i) (byteOf x i)) m := by
  rw [boxCells_eq, List.foldl_map]
  refine congrArg (fun f => List.foldl f m (List.range n)) ?_
  funext m i
  rw [show 0x30000 + at_ + i - 0x30000 = at_ + i by omega]

/-- The bytes that the host writes to ask for a report. -/
def requestCells (nonce : BitVec 384) : List (Nat × Byte) := boxCells (0x30000 + 0) 48 nonce.toNat ++ boxCells (0x30000 + 0xFFF8) 8 1

/-- The mailbox with the nonce and the request in it. -/
def requestBox (m : List Host.Cell) (nonce : BitVec 384) : List Host.Cell :=
  (List.range 8).foldl (fun m i => Mem.set m (0xFFF8 + i) (byteOf 1 i))
    ((List.range 48).foldl (fun m i => Mem.set m (0 + i) (byteOf nonce.toNat i)) m)

theorem foldl_requestCells (nonce : BitVec 384) (m : List Host.Cell) :
    (requestCells nonce).foldl (fun m c => Mem.set m (c.1 - 0x30000) c.2) m = requestBox m nonce := by
  unfold requestCells requestBox
  rw [List.foldl_append, foldl_boxCells, foldl_boxCells]

section RequestBox

variable {m : List Host.Cell} (hm : Mem.wf m = true) (nonce : BitVec 384)

include hm

theorem get_requestBox (c : Nat) : Mem.get (requestBox m nonce) c =
    if 0xFFF8 ≤ c ∧ c < 0xFFF8 + 8 then byteOf 1 (c - 0xFFF8) else if 0 ≤ c ∧ c < 0 + 48 then byteOf nonce.toNat (c - 0) else Mem.get m c := by
  unfold requestBox
  rw [get_foldl_set _ _ (foldl_set_wf (fun i => (0 + i, byteOf nonce.toNat i)) (List.range 48) hm), get_foldl_set _ _ hm]

theorem read_requestBox_word : Mem.read (requestBox m nonce) 0xFFF8 8 = 1 := by
  rw [read_of_bytes 8 0xFFF8 1 fun i hi => by rw [get_requestBox hm, if_pos (by omega), Nat.add_sub_cancel_left]]
  rfl

theorem read_requestBox_nonce : BitVec.ofNat 384 (Mem.read (requestBox m nonce) 0 48) = nonce := by
  have hn := nonce.isLt
  rw [read_of_bytes 48 0 nonce.toNat fun i hi => by
    rw [get_requestBox hm, if_neg (by omega), if_pos (by omega), Nat.sub_zero, Nat.zero_add], Nat.mod_eq_of_lt (by omega), BitVec.ofNat_toNat,
    BitVec.setWidth_eq]

end RequestBox

/-- The request word is among the bytes that the host writes. -/
theorem requestCells_word (nonce : BitVec 384) : (requestCells nonce).any (fun c => c.1 == 0x3FFF8) = true :=
  List.any_eq_true.mpr ⟨(0x30000 + 0xFFF8 + 0, byteOf 1 0), by
    unfold requestCells
    rw [boxCells_eq, boxCells_eq]
    exact List.mem_append_right _ (List.mem_map.mpr ⟨0, by decide, rfl⟩), by decide⟩

/-- What the mailbox holds does not show in a register. -/
theorem num_mailbox (s : State) (m : List Host.Cell) (k : Nat) : ({ s with mailbox := m } : State).num k = s.num k := rfl

/-- The host's request is noted with its nonce. -/
theorem requestReport_idle {s : State} (nonce : BitVec 384) (ha : s.attest = .idle) (hb : fld (s.num 0x2000) 63 62 = 2) :
    s.requestReport nonce = { s with attest := .pending nonce } := by
  unfold State.requestReport
  simp only [ha, hb, beq_self_eq_true, Bool.or_true, Bool.and_self, if_true]

/-- A request of a report that the host writes into the mailbox. -/
theorem writeMailbox_request {s : State} (nonce : BitVec 384) (ha : s.attest = .idle) (hb : fld (s.num 0x2000) 63 62 = 2)
    (hm : Mem.wf s.mailbox = true) :
    s.writeMailbox (requestCells nonce) = { s with mailbox := requestBox s.mailbox nonce, attest := .pending nonce } := by
  have hr : ({ s with mailbox := requestBox s.mailbox nonce } : State).requestReport nonce
      = { s with mailbox := requestBox s.mailbox nonce, attest := .pending nonce } := by
    rw [requestReport_idle (s := { s with mailbox := requestBox s.mailbox nonce }) nonce ha ((num_mailbox ..).symm ▸ hb)]
  unfold State.writeMailbox
  simp only [foldl_requestCells, requestCells_word, read_requestBox_word hm, read_requestBox_nonce hm, beq_self_eq_true, Bool.and_self,
    if_true]
  exact hr

/-- The state with a report in the mailbox. -/
def reported (s : State) (m : List Host.Cell) : State := ({ s with mailbox := m, attest := .idle } : State).tick 1

theorem reported_fields (s : State) (m : List Host.Cell) :
    (reported s m).attest = .idle ∧ (reported s m).mem = s.mem ∧ (reported s m).mailbox = m := ⟨rfl, rfl, rfl⟩

/-- The mailbox with Flaell's report, from its first byte on. -/
def reportBox (s : State) (nonce : BitVec 384) : List Host.Cell :=
  Mem.writeBytes s.mailbox 0 (s.reportBody nonce ++ s.reportSign (s.reportBody nonce))

theorem attestReport_pending {s : State} {nonce : BitVec 384} (h : s.attest = .pending nonce) :
    attestReport s = (reported s (reportBox s nonce)).interrupt 2 := by
  unfold attestReport reported reportBox
  simp only [h]

/-- An interrupt changes neither memory, the mailbox nor a pending request. -/
theorem interrupt_kept (s : State) (v : Nat) :
    (s.interrupt v).attest = s.attest ∧ (s.interrupt v).mem = s.mem ∧ (s.interrupt v).mailbox = s.mailbox := by
  unfold State.interrupt
  split <;> exact ⟨rfl, rfl, rfl⟩

theorem attestationAndThermalResults : AttestationAndThermalResults := by
  unfold AttestationAndThermalResults
  refine ⟨fun s nonce ha hb hm => ⟨_, next_eq (writeMailbox_request nonce ha hb hm), rfl, rfl, rfl⟩, fun s nonce h => ?_,
    fun s tj => rfl, fun s pwr thr tj tin => rfl⟩
  obtain ⟨hat, hmem, hbox⟩ := interrupt_kept (reported s (reportBox s nonce)) 2
  obtain ⟨rat, rmem, rbox⟩ := reported_fields s (reportBox s nonce)
  exact ⟨(reported s (reportBox s nonce)).interrupt 2, next_eq (attestReport_pending h), hat.trans rat, hmem.trans rmem, hbox.trans rbox⟩

/-- Settles O42: what each event leaves, by the registers and the mailbox that it writes. -/
theorem bootAndTelemetryResults : Obligations.BootAndTelemetryResults := ⟨bootResults, attestationAndThermalResults⟩

end Sys2Proof.Proofs.Boot
end

section
/-! SUPPORT. X320 accumulation in either order (O27). -/

namespace Sys2Proof.Proofs.Accumulation
open Sys2Proof Sys2Proof.Machine Sys2Proof.Stated Sys2Proof.Laws

/-- The side bits that a value itself brings into an accumulator (R35). -/
def sideOf : Machine.Num → BitVec 4
  | .nan _ => sNS
  | .inf neg => if neg then sMI else sPI
  | .fin _ _ _ => 0

theorem x320Add_nan (v : Int) (sd : BitVec 4) (w : Nat) (g : Bool) : x320Add v sd w (.nan g) = (v, sd ||| sideOf (.nan g)) := rfl

theorem x320Add_inf (v : Int) (sd : BitVec 4) (w : Nat) (g : Bool) : x320Add v sd w (.inf g) = (v, sd ||| sideOf (.inf g)) := rfl

theorem x320Add_fin (v : Int) (sd : BitVec 4) (w : Nat) (g : Bool) (m : Nat) (e : Int) :
    x320Add v sd w (.fin g m e) = ((x320Wrap (v + w * x320 (.fin g m e))).1,
      if (x320Wrap (v + w * x320 (.fin g m e))).2 then sd ||| sV else sd) := rfl

theorem emod_shift_add (a c m h : Int) : ((a + h) % m - h + c + h) % m = (a + c + h) % m := by
  rw [show (a + h) % m - h + c + h = (a + h) % m + c by omega, Int.emod_add_emod, show a + h + c = a + c + h by omega]

/-- A wrap between two additions does not show in the value: it is a sum modulo 2^320. -/
theorem x320Wrap_add (a c : Int) : (x320Wrap ((x320Wrap a).1 + c)).1 = (x320Wrap (a + c)).1 :=
  congrArg (· - ((2 ^ 319 : Nat) : Int)) (emod_shift_add a c (2 ^ 320 : Nat) (2 ^ 319 : Nat))

/-- The value after two additions. -/
theorem x320Add_comm_val (v : Int) (sd : BitVec 4) (w w' : Nat) (x y : Machine.Num) :
    (x320Add (x320Add v sd w x).1 (x320Add v sd w x).2 w' y).1 = (x320Add (x320Add v sd w' y).1 (x320Add v sd w' y).2 w x).1 := by
  cases x with
  | nan g => cases y <;> rfl
  | inf g => cases y <;> rfl
  | fin g m e =>
    cases y with
    | nan g' => rfl
    | inf g' => rfl
    | fin g' m' e' =>
      simp only [x320Add_fin, x320Wrap_add]
      rw [Int.add_right_comm]

/-- Where bit 0 is clear after an addition it was clear before, and the value's own side bits were added. -/
theorem x320Add_side_of_clear {v : Int} {sd : BitVec 4} {w : Nat} {x : Machine.Num} (h : (x320Add v sd w x).2.getLsbD 0 = false) :
    (x320Add v sd w x).2 = sd ||| sideOf x ∧ sd.getLsbD 0 = false := by
  cases x with
  | nan g =>
    rw [x320Add_nan, BitVec.getLsbD_or, Bool.or_eq_false_iff] at h
    exact ⟨rfl, h.1⟩
  | inf g =>
    rw [x320Add_inf, BitVec.getLsbD_or, Bool.or_eq_false_iff] at h
    exact ⟨rfl, h.1⟩
  | fin g m e =>
    rw [x320Add_fin] at h ⊢
    cases hb : (x320Wrap (v + w * x320 (.fin g m e))).2 with
    | false => simpa [hb, sideOf] using h
    | true => simp [hb, sV] at h

/-- Settles O27: the value is a sum modulo 2^320, and the side bits are those of the two values. -/
theorem accumulationOrderIrrelevant : Obligations.AccumulationOrderIrrelevant := by
  intro v sd w w' x y
  refine ⟨x320Add_comm_val v sd w w' x y, fun hp hq => ?_⟩
  obtain ⟨hp2, ha⟩ := x320Add_side_of_clear hp
  obtain ⟨hq2, hb⟩ := x320Add_side_of_clear hq
  obtain ⟨ha2, -⟩ := x320Add_side_of_clear ha
  obtain ⟨hb2, -⟩ := x320Add_side_of_clear hb
  calc
    _ = sd ||| sideOf x ||| sideOf y := by rw [hp2, ha2]
    _ = sd ||| sideOf y ||| sideOf x := by rw [BitVec.or_assoc, BitVec.or_comm (sideOf x), ← BitVec.or_assoc]
    _ = _ := by rw [hq2, hb2]

end Sys2Proof.Proofs.Accumulation
end

section
/-! SUPPORT. Codes of a float format and their values: rounding, and the order of the keys (O56). -/

namespace Sys2Proof.Proofs.FloatCodes
open Sys2Proof Sys2Proof.Machine Sys2Proof.Stated Sys2Proof.Laws

/-! ## A code is a sign and a magnitude -/

/-- The value of a sign and a magnitude (R17). -/
def valueOf (f : Fmt) (neg : Bool) (mag : Nat) : Machine.Num :=
  if f.special == .ieee && mag / 2 ^ f.mb == 2 ^ f.eb - 1 then
    (if mag % 2 ^ f.mb = 0 then .inf neg else .nan (decide (mag % 2 ^ f.mb < 2 ^ (f.mb - 1))))
  else if f.special == .nanOnly && mag == f.signBit - 1 then .nan false
  else if mag / 2 ^ f.mb = 0 then .fin neg (mag % 2 ^ f.mb) f.minExp
  else .fin neg (2 ^ f.mb + mag % 2 ^ f.mb) (f.minExp + ((mag / 2 ^ f.mb : Nat) : Int) - 1)

/-- A magnitude counted in steps of the smallest subnormal. -/
def steps (f : Fmt) (mag : Nat) : Nat :=
  if mag / 2 ^ f.mb = 0 then mag % 2 ^ f.mb else (2 ^ f.mb + mag % 2 ^ f.mb) * 2 ^ (mag / 2 ^ f.mb - 1)

theorem width_eq (f : Fmt) : 2 ^ f.width = 2 * f.signBit := by
  rw [Fmt.width, Fmt.signBit, Nat.add_assoc, Nat.pow_add, Nat.pow_one]

theorem signBit_eq (f : Fmt) : f.signBit = 2 ^ f.eb * 2 ^ f.mb := by rw [Fmt.signBit, Nat.pow_add]

theorem value_withSign (f : Fmt) (neg : Bool) {mag : Nat} (h : mag < f.signBit) : f.value (f.withSign neg mag) = valueOf f neg mag := by
  have hn : decide (f.signBit ≤ f.withSign neg mag % (2 * f.signBit)) = neg := by
    cases neg with
    | false => rw [Fmt.withSign, if_neg Bool.false_ne_true, Nat.mod_eq_of_lt (by omega)]; exact decide_eq_false (by omega)
    | true => rw [Fmt.withSign, if_pos rfl, Nat.mod_eq_of_lt (by omega)]; exact decide_eq_true (by omega)
  have hm : f.withSign neg mag % f.signBit = mag := by
    cases neg with
    | false => exact Nat.mod_eq_of_lt h
    | true => rw [Fmt.withSign, if_pos rfl, Nat.add_mod_left, Nat.mod_eq_of_lt h]
  unfold Fmt.value
  simp only [hn, hm]
  rfl

/-- Every code of the width is a sign and a magnitude. -/
theorem code_eq {f : Fmt} {c : Nat} (h : c < 2 ^ f.width) : ∃ neg mag, mag < f.signBit ∧ c = f.withSign neg mag := by
  rw [width_eq] at h
  by_cases hs : f.signBit ≤ c
  · exact ⟨true, c - f.signBit, by omega, by rw [Fmt.withSign, if_pos rfl]; omega⟩
  · exact ⟨false, c, by omega, rfl⟩

/-- A value that is no NaN: an infinity of its code, or a multiple of the smallest subnormal below it. -/
theorem valueOf_cases {f : Fmt} (neg : Bool) {mag : Nat} (h : mag < f.signBit) (hv : (valueOf f neg mag).isNan = false) :
    (valueOf f neg mag = .inf neg ∧ f.special = .ieee ∧ mag = f.infCode) ∨
    ((f.special = .ieee → mag < f.infCode) ∧ mag ≤ f.maxCode ∧
      ((valueOf f neg mag = .fin neg mag f.minExp ∧ mag < 2 ^ f.mb) ∨
        ∃ e, valueOf f neg mag = .fin neg (2 ^ f.mb + mag % 2 ^ f.mb) (f.minExp + ((e + 1 : Nat) : Int) - 1) ∧ mag / 2 ^ f.mb = e + 1)) := by
  have hM : 0 < 2 ^ f.mb := Nat.two_pow_pos _
  have hdm := Nat.div_add_mod' mag (2 ^ f.mb)
  by_cases h1 : f.special = .ieee ∧ mag / 2 ^ f.mb = 2 ^ f.eb - 1
  · have hc : (f.special == .ieee && mag / 2 ^ f.mb == 2 ^ f.eb - 1) = true := by simp [h1.1, h1.2]
    by_cases h2 : mag % 2 ^ f.mb = 0
    · refine .inl ⟨by rw [valueOf, if_pos hc, if_pos h2], h1.1, ?_⟩
      rw [Fmt.infCode, ← h1.2]
      omega
    · rw [valueOf, if_pos hc, if_neg h2] at hv
      cases hv
  · have hc : ¬ (f.special == .ieee && mag / 2 ^ f.mb == 2 ^ f.eb - 1) = true := by simpa using h1
    by_cases h3 : f.special = .nanOnly ∧ mag = f.signBit - 1
    · have hc' : (f.special == .nanOnly && mag == f.signBit - 1) = true := by simp [h3.1, h3.2]
      rw [valueOf, if_neg hc, if_pos hc'] at hv
      cases hv
    · have hc' : ¬ (f.special == .nanOnly && mag == f.signBit - 1) = true := by simpa using h3
      have hlt : f.special = .ieee → mag < f.infCode := fun hs => by
        have hd : mag / 2 ^ f.mb < 2 ^ f.eb := (Nat.div_lt_iff_lt_mul hM).mpr (signBit_eq f ▸ h)
        exact (Nat.div_lt_iff_lt_mul hM).mp (Nat.lt_of_le_of_ne (Nat.le_sub_one_of_lt hd) fun hx => h1 ⟨hs, hx⟩)
      refine .inr ⟨hlt, ?_, ?_⟩
      · unfold Fmt.maxCode
        rw [Fmt.signBit] at h h3
        cases hs : f.special with
        | ieee => exact Nat.le_sub_one_of_lt (hlt hs)
        | nanOnly => have hne : mag ≠ 2 ^ (f.eb + f.mb) - 1 := fun hx => h3 ⟨hs, hx⟩
                     dsimp only
                     omega
        | none => exact Nat.le_sub_one_of_lt h
      · cases he : mag / 2 ^ f.mb with
        | zero =>
          have hlt : mag < 2 ^ f.mb := (Nat.div_eq_zero_iff_lt hM).mp he
          exact .inl ⟨by rw [valueOf, if_neg hc, if_neg hc', if_pos he, Nat.mod_eq_of_lt hlt], hlt⟩
        | succ e => exact .inr ⟨e, by rw [valueOf, if_neg hc, if_neg hc', if_neg (by omega), he], rfl⟩

/-! ## Rounding -/

/-- A value on the grid of its own exponent is its own rounding. -/
theorem roundFin_onGrid {f : Fmt} (sat neg : Bool) {m k : Nat} (hk : max ((Nat.log2 m : Int) + (f.minExp + k)) (f.minExp + f.mb) - f.mb = f.minExp + k)
    (hc : m + k * 2 ^ f.mb ≤ f.maxCode) : roundFin f rne sat neg m (f.minExp + k) = (f.withSign neg (m + k * 2 ^ f.mb), 0) := by
  have hg : onGrid rne neg m (f.minExp + k) (f.minExp + k) = (m, true) := by simp [onGrid]
  have hs : (f.minExp + (k : Int) - f.minExp).toNat = k := by omega
  unfold roundFin
  simp only [hk, hg, hs, if_neg (Nat.not_lt.mpr hc), if_true]

theorem roundNum_valueOf {f : Fmt} (sat : Bool) {neg : Bool} {mag : Nat} (h : mag < f.signBit) (hv : (valueOf f neg mag).isNan = false)
    (hi : (valueOf f neg mag).isInf = false) : roundNum f rne sat (valueOf f neg mag) = (f.withSign neg mag, 0) := by
  obtain ⟨hx, -⟩ | ⟨-, hmax, ⟨hx, hlt⟩ | ⟨e, hx, he⟩⟩ := valueOf_cases neg h hv
  · rw [hx] at hi
    cases hi
  · rw [hx, roundNum]
    split
    next hz => rw [hz]
    next hz =>
      have hl : Nat.log2 mag < f.mb := (Nat.log2_lt hz).mpr hlt
      simpa using roundFin_onGrid (k := 0) (m := mag) sat neg (by omega) (by simpa using hmax)
  · have hM : 0 < 2 ^ f.mb := Nat.two_pow_pos _
    have hl : Nat.log2 (2 ^ f.mb + mag % 2 ^ f.mb) = f.mb := by
      rw [Nat.log2_eq_iff (by omega), Nat.pow_succ]
      have := Nat.mod_lt mag hM
      omega
    have hm : 2 ^ f.mb + mag % 2 ^ f.mb + e * 2 ^ f.mb = mag := by
      have := Nat.div_add_mod' mag (2 ^ f.mb)
      rw [he, Nat.succ_mul] at this
      omega
    have hr := roundFin_onGrid (k := e) (f := f) (m := 2 ^ f.mb + mag % 2 ^ f.mb) sat neg (by omega) (hm.symm ▸ hmax)
    rw [hx, roundNum, if_neg (by omega), show f.minExp + ((e + 1 : Nat) : Int) - 1 = f.minExp + e by omega, hr, hm]

/-- A finite value of a format, rounded to the format, is its own code, and exact. -/
theorem roundNum_value {f : Fmt} {c : Nat} (sat : Bool) {neg : Bool} {m : Nat} {e : Int} (hc : c < 2 ^ f.width) (hv : f.value c = .fin neg m e) :
    roundNum f rne sat (f.value c) = (c, 0) := by
  obtain ⟨n, mag, hm, rfl⟩ := code_eq hc
  rw [value_withSign f n hm] at hv ⊢
  exact roundNum_valueOf sat hm (by rw [hv]; rfl) (by rw [hv]; rfl)

/-! ## Order -/

theorem steps_lt_succ (f : Fmt) (k : Nat) : steps f k < steps f (k + 1) := by
  have hM : 0 < 2 ^ f.mb := Nat.two_pow_pos _
  generalize hE : 2 ^ f.mb = M at hM
  obtain ⟨e, m, hm, rfl⟩ : ∃ e m, m < M ∧ k = M * e + m := ⟨k / M, k % M, Nat.mod_lt _ hM, (Nat.div_add_mod k M).symm⟩
  have h1 : (M * e + m) / M = e := by rw [Nat.mul_add_div hM, Nat.div_eq_of_lt hm, Nat.add_zero]
  have h2 : (M * e + m) % M = m := by rw [Nat.mul_add_mod, Nat.mod_eq_of_lt hm]
  unfold steps
  rw [hE, h1, h2]
  by_cases hc : m + 1 < M
  · have h3 : (M * e + m + 1) / M = e := by rw [Nat.add_assoc, Nat.mul_add_div hM, Nat.div_eq_of_lt hc, Nat.add_zero]
    have h4 : (M * e + m + 1) % M = m + 1 := by rw [Nat.add_assoc, Nat.mul_add_mod, Nat.mod_eq_of_lt hc]
    rw [h3, h4]
    split
    · omega
    · exact Nat.mul_lt_mul_of_pos_right (by omega) (Nat.two_pow_pos _)
  · have hk : M * e + m + 1 = M * (e + 1) := by rw [Nat.mul_succ]; omega
    rw [hk, Nat.mul_div_cancel_left _ hM, Nat.mul_mod_right, if_neg (Nat.succ_ne_zero e), Nat.add_sub_cancel, Nat.add_zero]
    cases e with
    | zero => rw [if_pos rfl, Nat.pow_zero]; omega
    | succ e =>
      rw [if_neg (by omega), Nat.add_sub_cancel, Nat.pow_succ, Nat.mul_comm _ 2, ← Nat.mul_assoc]
      exact Nat.mul_lt_mul_of_pos_right (by omega) (Nat.two_pow_pos _)

theorem steps_lt_iff (f : Fmt) {a b : Nat} : steps f a < steps f b ↔ a < b := (strictMono_nat_of_lt_succ (steps_lt_succ f)).lt_iff_lt

/-- A sign before a count of steps. -/
def signed (neg : Bool) (k : Nat) : Int := if neg then -(k : Int) else k

/-- A finite value is a count of steps of the smallest subnormal. -/
theorem valueOf_fin {f : Fmt} {neg : Bool} {mag : Nat} (h : mag < f.signBit) (hv : (valueOf f neg mag).isNan = false)
    (hi : (valueOf f neg mag).isInf = false) :
    ∃ m e, valueOf f neg mag = .fin neg m e ∧ f.minExp ≤ e ∧ m * 2 ^ (e - f.minExp).toNat = steps f mag := by
  obtain ⟨hx, -⟩ | ⟨-, -, ⟨hx, hlt⟩ | ⟨e, hx, he⟩⟩ := valueOf_cases neg h hv
  · rw [hx] at hi
    cases hi
  · exact ⟨mag, f.minExp, hx, Int.le_refl _, by simp [steps, Nat.div_eq_of_lt hlt, Nat.mod_eq_of_lt hlt]⟩
  · refine ⟨_, _, hx, by omega, ?_⟩
    rw [steps, if_neg (by omega), he, show (f.minExp + ((e + 1 : Nat) : Int) - 1 - f.minExp).toNat = e by omega, Nat.add_sub_cancel]

theorem scaled_eq {neg : Bool} {m : Nat} {e e0 lo : Int} (h : e0 ≤ e) (hl : lo ≤ e0) :
    scaled neg m e e0 * 2 ^ (e0 - lo).toNat = signed neg (m * 2 ^ (e - lo).toNat) := by
  have hp : (e - lo).toNat = (e - e0).toNat + (e0 - lo).toNat := by omega
  have hm : m * 2 ^ (e - lo).toNat = m * 2 ^ (e - e0).toNat * 2 ^ (e0 - lo).toNat := by rw [hp, Nat.pow_add, Nat.mul_assoc]
  rw [hm]
  unfold scaled signed
  cases neg <;> simp

/-- Two finite values compare as their counts of steps. -/
theorem cmp_fin {n n' : Bool} {m m' : Nat} {e e' lo : Int} (h : lo ≤ e) (h' : lo ≤ e') :
    (Machine.Num.fin n m e).cmp (.fin n' m' e') = compare (signed n (m * 2 ^ (e - lo).toNat)) (signed n' (m' * 2 ^ (e' - lo).toNat)) := by
  have hp : (0 : Int) < 2 ^ (min e e' - lo).toNat := by positivity
  rw [← scaled_eq (Int.min_le_left e e') (le_min h h'), ← scaled_eq (Int.min_le_right e e') (le_min h h')]
  show compare _ _ = _
  rw [Int.compare_eq_ite_lt, Int.compare_eq_ite_lt]
  simp only [Int.mul_lt_mul_right hp]

/-- A greater magnitude decides by its sign. -/
theorem compare_signed_left {n n' : Bool} {a b : Nat} (h : b < a) : compare (signed n a) (signed n' b) = if n then .lt else .gt := by
  cases n with
  | true => exact Int.compare_eq_lt.mpr (by cases n' <;> simp only [signed] <;> grind)
  | false => exact Int.compare_eq_gt.mpr (by cases n' <;> simp only [signed] <;> grind)

theorem compare_signed_right {n n' : Bool} {a b : Nat} (h : a < b) : compare (signed n a) (signed n' b) = if n' then .gt else .lt := by
  rw [← Int.compare_swap, compare_signed_left h]
  cases n' <;> rfl

theorem compare_signed_same {n n' : Bool} {a : Nat} (h : 0 < a) :
    compare (signed n a) (signed n' a) = if n == n' then .eq else if n then .lt else .gt := by
  cases n with
  | true => cases n' with
    | true => exact Int.compare_eq_eq.mpr rfl
    | false => exact Int.compare_eq_lt.mpr (by simp only [signed]; grind)
  | false => cases n' with
    | true => exact Int.compare_eq_gt.mpr (by simp only [signed]; grind)
    | false => exact Int.compare_eq_eq.mpr rfl

/-- A value that is no NaN: an infinity, whose code is above all others, or a finite one. -/
theorem inf_or_fin {f : Fmt} (hf : 0 < f.eb) {n : Bool} {a : Nat} (ha : a < f.signBit) (hx : (valueOf f n a).isNan = false) :
    (valueOf f n a = .inf n ∧ f.special = .ieee ∧ a = f.infCode ∧ 0 < steps f a) ∨
      (f.special = .ieee → a < f.infCode) ∧ ∃ m e, valueOf f n a = .fin n m e ∧ f.minExp ≤ e ∧ m * 2 ^ (e - f.minExp).toNat = steps f a := by
  obtain ⟨hi, hs, hc⟩ | ⟨hlt, -, hfin⟩ := valueOf_cases n ha hx
  · have hpos : 0 < f.infCode :=
      Nat.mul_pos (Nat.sub_pos_of_lt (Nat.one_lt_two_pow (Nat.ne_of_gt hf))) (Nat.two_pow_pos _)
    exact .inl ⟨hi, hs, hc, Nat.zero_lt_of_lt ((steps_lt_iff f).mpr (hc ▸ hpos))⟩
  · refine .inr ⟨hlt, valueOf_fin ha hx ?_⟩
    obtain ⟨h, -⟩ | ⟨e, h, -⟩ := hfin <;> rw [h] <;> rfl

/-- Values that are no NaN compare as their signed counts of steps, infinities by the code that stands for them. -/
theorem cmp_valueOf {f : Fmt} (hf : 0 < f.eb) {n n' : Bool} {a b : Nat} (ha : a < f.signBit) (hb : b < f.signBit)
    (hx : (valueOf f n a).isNan = false) (hy : (valueOf f n' b).isNan = false) :
    (valueOf f n a).cmp (valueOf f n' b) = compare (signed n (steps f a)) (signed n' (steps f b)) := by
  obtain ⟨hx, hs, rfl, hpos⟩ | ⟨hlt, m, e, hx, he, hk⟩ := inf_or_fin hf ha hx
  · obtain ⟨hy, -, rfl, -⟩ | ⟨hlt', m', e', hy, -, -⟩ := inf_or_fin hf hb hy
    · rw [hx, hy, compare_signed_same hpos]
      rfl
    · rw [hx, hy, compare_signed_left ((steps_lt_iff f).mpr (hlt' hs))]
      rfl
  · obtain ⟨hy, hs, rfl, -⟩ | ⟨-, m', e', hy, he', hk'⟩ := inf_or_fin hf hb hy
    · rw [hx, hy, compare_signed_right ((steps_lt_iff f).mpr (hlt hs))]
      rfl
    · rw [hx, hy, cmp_fin he he', hk, hk']

theorem neg?_valueOf {f : Fmt} (hf : 0 < f.eb) {n : Bool} {a : Nat} (ha : a < f.signBit) (hx : (valueOf f n a).isNan = false) :
    (valueOf f n a).neg? = n := by
  obtain ⟨hx, -⟩ | ⟨-, m, e, hx, -⟩ := inf_or_fin hf ha hx <;> rw [hx] <;> rfl

theorem fkey_withSign {f : Fmt} {n : Bool} {a : Nat} (ha : a < f.signBit) (hx : (valueOf f n a).isNan = false) :
    fkey f (f.withSign n a) = if n then f.signBit - 1 - a else a + f.signBit := by
  have hv : (f.value (f.withSign n a)).isNan = false := by rw [value_withSign f n ha, hx]
  rw [fkey, hv, if_neg Bool.false_ne_true, width_eq]
  cases n with
  | true =>
    rw [Fmt.withSign, if_pos rfl, Nat.mod_eq_of_lt (by omega), if_pos (by omega), if_pos rfl]
    omega
  | false => rw [Fmt.withSign, if_neg Bool.false_ne_true, Nat.mod_eq_of_lt (by omega), if_neg (by omega), if_neg Bool.false_ne_true]

/-- What below says by signs and magnitudes. -/
theorem below_valueOf {f : Fmt} (hf : 0 < f.eb) {n n' : Bool} {a b : Nat} (ha : a < f.signBit) (hb : b < f.signBit)
    (hx : (valueOf f n a).isNan = false) (hy : (valueOf f n' b).isNan = false) :
    (valueOf f n a).below (valueOf f n' b) = true ↔ (if n then (n' = true → b < a) else n' = false ∧ a < b) := by
  unfold Machine.Num.below
  rw [cmp_valueOf hf ha hb hx hy, neg?_valueOf hf ha hx, neg?_valueOf hf hb hy]
  obtain hlt | rfl | hlt := Nat.lt_trichotomy a b
  · rw [compare_signed_right ((steps_lt_iff f).mpr hlt)]
    cases n <;> cases n' <;> simp <;> omega
  · cases ha0 : steps f a with
    | zero => cases n <;> cases n' <;> simp [signed]
    | succ k =>
      rw [compare_signed_same (Nat.succ_pos k)]
      cases n <;> cases n' <;> simp
  · rw [compare_signed_left ((steps_lt_iff f).mpr hlt)]
    cases n <;> cases n' <;> simp <;> omega

/-- Keys order the codes as their values, -0 below +0. -/
theorem fkey_lt_iff {f : Fmt} (hf : 0 < f.eb) {c d : Nat} (hc : c < 2 ^ f.width) (hd : d < 2 ^ f.width) (hx : (f.value c).isNan = false)
    (hy : (f.value d).isNan = false) : fkey f c < fkey f d ↔ (f.value c).below (f.value d) = true := by
  obtain ⟨n, a, ha, rfl⟩ := code_eq hc
  obtain ⟨n', b, hb, rfl⟩ := code_eq hd
  rw [value_withSign f n ha] at hx ⊢
  rw [value_withSign f n' hb] at hy ⊢
  rw [fkey_withSign ha hx, fkey_withSign hb hy, below_valueOf hf ha hb hx hy]
  cases n <;> cases n' <;> simp <;> omega

/-! ## The obligation -/

theorem eb_pos : ∀ f ∈ [f64, f32, f16, bf16, e5m2, e4m3, e3m2, e2m3, e2m1], 0 < f.eb := by decide

/-- Settles O56: a code is a sign and a count of steps of the smallest subnormal. -/
theorem formatValues : Obligations.FormatValues :=
  ⟨fun _ _ _ sat _ _ _ hc hv => roundNum_value sat hc hv, fun f hf _ _ hc hd hx hy => fkey_lt_iff (eb_pos f hf) hc hd hx hy, by decide⟩

end Sys2Proof.Proofs.FloatCodes
end

section
/-! SUPPORT. Loads, stores, atomics, mirror stores and prefetches complete (O57, O58). -/

namespace Sys2Proof.Proofs.Completing
open Sys2Proof Sys2Proof.Machine Sys2Proof.Stated Sys2Proof.Laws Sys2Proof.Proofs.Pieces Sys2Proof.Proofs.Traps Sys2Proof.Proofs.MemoryWords

/-! ## What the parts of a word's effect leave as it is -/

theorem newOp_congr {b : Band} {s t : State} (fl : Option Nat) (k : OpKind) (hu : t.nextUid = s.nextUid) (hw : t.wgs = s.wgs) :
    newOp b t fl k = newOp b s fl k := by
  have hr : t.runOf b.wg = s.runOf b.wg := by rw [State.runOf, State.runOf, State.wg?, State.wg?, hw]
  rw [newOp, newOp, hu, hr]

/-- A change to the bands, the L1 and the clocks: memory, the operations and what numbers them stay. -/
structure Kept (s t : State) : Prop where
  mem : t.mem = s.mem
  ops : t.ops = s.ops
  uid : t.nextUid = s.nextUid
  wgs : t.wgs = s.wgs

theorem Kept.trans {s t u : State} (h : Kept s t) (h' : Kept t u) : Kept s u :=
  ⟨h'.mem.trans h.mem, h'.ops.trans h.ops, h'.uid.trans h.uid, h'.wgs.trans h.wgs⟩

theorem kept_acting (b : Band) (s : State) : Kept s (acting b s) := ⟨rfl, rfl, rfl, rfl⟩

theorem kept_invalidateL1 (s : State) (core : Nat) : Kept s (s.invalidateL1 core) := ⟨rfl, rfl, rfl, rfl⟩

theorem kept_scIssue (s : State) (core : Nat) (cls : BitVec 3) : Kept s (s.scIssue core cls).1 := by
  unfold State.scIssue
  split <;> exact ⟨rfl, rfl, rfl, rfl⟩

theorem kept_modBand (s : State) (u : Nat) (f : Band → Band) : Kept s (s.modBand u f) := ⟨rfl, rfl, rfl, rfl⟩

theorem kept_updateA (s : State) (b : Band) (m : MemRef) (ea : Ea) : Kept s (s.updateA b m ea) := by
  unfold State.updateA
  cases ea.upd <;> exact ⟨rfl, rfl, rfl, rfl⟩

/-- An operation that a word starts joins those of the state before. -/
theorem startOp_ops {s t : State} (h : Kept s t) (b : Band) (a : Bool) (k : OpKind) :
    (t.startOp b a k).ops = s.ops ++ [newOp b s (b.flagOf a) k] ∧ (t.startOp b a k).mem = s.mem := by
  rw [← newOp_congr _ _ h.uid h.wgs, ← h.ops, ← h.mem]
  unfold State.startOp
  cases b.flagOf a <;> exact ⟨rfl, rfl⟩

/-- A band after a change that keeps the numbers. -/
theorem of_band?_modBand {s : State} {u : Nat} {f : Band → Band} {c : Band} (h : (s.modBand u f).band? u = some c)
    (hf : ∀ c, (f c).uid = c.uid) :
    ∃ c', s.band? u = some c' ∧ c = f c' := by
  cases hs : s.band? u with
  | some c' =>
    rw [Frames.band?_modBand hs hf] at h
    exact ⟨c', rfl, (Option.some.inj h).symm⟩
  | none =>
    have hmem := List.mem_of_find?_eq_some h
    obtain ⟨x, hx, rfl⟩ := List.mem_map.mp hmem
    have hu : x.uid = u := by
      have := eq_of_beq (List.find?_some (p := fun x : Band => x.uid == u) h)
      split at this
      · rwa [hf] at this
      · exact this
    exact absurd (beq_iff_eq.mpr hu) (List.find?_eq_none.mp hs x hx)

/-! ## Destinations (R145) -/

/-- The address register's update leaves the names as they are. -/
theorem awaiting_updateA {b : Band} {d : Opnd} {pair : Bool} {op : Nat} {t : State} (m : MemRef) (ea : Ea) (h : Awaiting b d pair op t) :
    Awaiting b d pair op (t.updateA b m ea) := by
  intro c hc
  unfold State.updateA at hc
  cases hu : ea.upd with
  | none =>
    rw [hu] at hc
    exact h c hc
  | some x =>
    rw [hu] at hc
    obtain ⟨c', hc', rfl⟩ := of_band?_modBand hc fun _ => rfl
    exact h c' hc'

theorem awaitV_vName {t : State} {b c : Band} {n : Nat} (hn : n < 64) (u p : Nat) (h : (t.awaitV b n u p).band? b.uid = some c) :
    (c.vName n).pend = some ⟨u, p⟩ := by
  obtain ⟨c', -, rfl⟩ := of_band?_modBand h fun _ => rfl
  rw [vName_setVName_same _ _ hn]

/-- A register that can be taken gives a destination whose names then await the operation. -/
theorem loadDest_of_ready {t : State} {b : Band} {d : Opnd} {pair : Bool} {lanes : W32} (h : loadReady b d pair lanes t = true)
    (hp : pair = true → ∀ n : Fin 64, d = .v n → n.val + 1 < 64) :
    ∃ dest await, t.loadDest b d pair lanes = .ok (dest, await) ∧ ∀ v, Kept v (await v) ∧ Awaiting b d pair t.nextUid (await v) := by
  unfold loadReady at h
  cases d with
  | v n =>
    simp only [Bool.and_eq_true, Bool.or_eq_true, Bool.not_eq_true'] at h
    obtain ⟨⟨h1, h2⟩, h3⟩ := h
    cases pair with
    | true =>
      have hn := hp rfl n rfl
      refine ⟨.tagV true, fun v => (v.awaitV b n.val t.nextUid 0).awaitV b (n.val + 1) t.nextUid 1, ?_, fun v => ⟨⟨rfl, rfl, rfl, rfl⟩, ?_⟩⟩
      · have h2 := h2.resolve_left Bool.noConfusion
        unfold keeps at h1 h2
        simp only [State.loadDest, Band.partialReady, h1, h2, holdUnless_true, State.alloc, show t.canAlloc b 2 0 = true from h3, ok_bind, if_true]
        rfl
      · intro c hc
        refine ⟨?_, fun _ => awaitV_vName hn _ _ hc⟩
        obtain ⟨c', hc', rfl⟩ := of_band?_modBand hc fun _ => rfl
        rw [vName_setVName_other _ _ (by omega)]
        exact awaitV_vName n.isLt _ _ hc'
    | false =>
      refine ⟨.tagV false, fun v => v.awaitV b n.val t.nextUid 0, ?_, fun v => ⟨⟨rfl, rfl, rfl, rfl⟩, fun c hc => ⟨awaitV_vName n.isLt _ _ hc, nofun⟩⟩⟩
      unfold keeps at h1
      simp only [State.loadDest, Band.partialReady, h1, holdUnless_true, State.alloc, show t.canAlloc b 1 0 = true from h3, ok_bind, if_true,
        Bool.false_eq_true, if_false]
      rfl
  | o n =>
    simp only [Bool.and_eq_true, Bool.or_eq_true] at h
    refine ⟨.o n.val pair, id, ?_, fun v => ⟨⟨rfl, rfl, rfl, rfl⟩, fun _ _ => trivial⟩⟩
    cases pair with
    | true =>
      have h2 := h.2.resolve_left Bool.noConfusion
      simp only [State.loadDest, State.oReady, h.1, h2, holdUnless_true, ok_bind, if_true]
      rfl
    | false =>
      simp only [State.loadDest, State.oReady, h.1, holdUnless_true, ok_bind, Bool.false_eq_true, if_false]
      rfl
  | s n =>
    refine ⟨.tagS, fun v => v.awaitS b n.val t.nextUid 0, ?_, fun v => ⟨⟨rfl, rfl, rfl, rfl⟩, fun c hc => ?_⟩⟩
    · simp only [State.loadDest, State.alloc, show t.canAlloc b 0 1 = true from h, ok_bind, if_true]
      rfl
    · obtain ⟨c', -, rfl⟩ := of_band?_modBand hc fun _ => rfl
      show ((c'.setSName n.val _).sName n.val).pend = _
      rw [sName_setSName_same _ _ n.isLt]
  | a n =>
    refine ⟨.a n.val, id, ?_, fun v => ⟨⟨rfl, rfl, rfl, rfl⟩, fun _ _ => trivial⟩⟩
    simp only [State.loadDest, State.aReady, show (!t.regPending b none (some n.val) none) = true from h, holdUnless_true, ok_bind]
    rfl
  | m n =>
    refine ⟨.m n.val, id, ?_, fun v => ⟨⟨rfl, rfl, rfl, rfl⟩, fun _ _ => trivial⟩⟩
    simp only [State.loadDest, State.mReady, show (!t.regPending b none none (some n.val)) = true from h, holdUnless_true, ok_bind]
    rfl
  | _ => cases h

/-- R177: a 64-bit element lies in two registers of the file. -/
theorem pair_in_file {d : Opnd} {w : Nat} {vec : Bool} (h : vec = true → needEven d w = .ok ()) (hp : (vec && w == 8) = true) (n : Fin 64)
    (hd : d = .v n) : n.val + 1 < 64 := by
  obtain ⟨hv, hw⟩ := Bool.and_eq_true_iff.mp hp
  have he := h hv
  rw [hd, eq_of_beq hw, needEven] at he
  unfold need at he
  split at he
  next hc =>
    have := n.isLt
    simp at hc
    omega
  next => cases he

/-! ## Loads and stores (R195 to R199) -/

theorem covers_accessOf (b : Band) (typ w : Nat) (ts : List LaneTr) (data : Nat → Nat) (s : State) (dest : Dest) :
    Covers b typ w ts data s (accessOf s b typ w ts data dest) := ⟨rfl, rfl, rfl, rfl, rfl, rfl, rfl⟩

/-- What a word leaves that starts an operation and whose destination awaits it. -/
theorem started_awaiting {s t v : State} {b : Band} {d : Opnd} {pair : Bool} {k : OpKind} {await : State → State} (m : MemRef) (ea : Ea)
    (hs : Kept s t) (hv : Kept t v) (ha : ∀ v, Kept v (await v) ∧ Awaiting b d pair t.nextUid (await v)) :
    ((await (v.startOp b false k)).updateA b m ea).mem = s.mem ∧
      Awaiting b d pair s.nextUid ((await (v.startOp b false k)).updateA b m ea) ∧
      ((await (v.startOp b false k)).updateA b m ea).ops = s.ops ++ [newOp b s (b.flagOf false) k] := by
  obtain ⟨hk, hw⟩ := ha (v.startOp b false k)
  have hu := hk.trans (kept_updateA _ b m ea)
  obtain ⟨hops, hmem⟩ := startOp_ops (hs.trans hv) b false k
  exact ⟨hu.mem.trans hmem, awaiting_updateA m ea (hs.uid ▸ hw), hu.ops.trans hops⟩

/-- What a word leaves that starts an operation with no destination. -/
theorem started_updateA {s v : State} (b : Band) (k : OpKind) (m : MemRef) (ea : Ea) (hv : Kept s v) :
    ((v.startOp b false k).updateA b m ea).mem = s.mem ∧
      ((v.startOp b false k).updateA b m ea).ops = s.ops ++ [newOp b s (b.flagOf false) k] := by
  have hu := kept_updateA (v.startOp b false k) b m ea
  obtain ⟨hops, hmem⟩ := startOp_ops hv b false k
  exact ⟨hu.mem.trans hmem, hu.ops.trans hops⟩

/-- Settles O57: each word starts its operation, and only registers and the L1 change besides. -/
theorem loadAndStoreWordsComplete : Obligations.LoadAndStoreWordsComplete := by
  intro i s b d m l ea ts h t typ w vec
  obtain ⟨hload, hstore, -⟩ := memoryAccessesStart i s b d m l ea ts h
  refine ⟨fun par hi hev ha hr hver hready => ?_, fun many data hi ha hr => ?_⟩
  · obtain ⟨min, since, hmin, hshort⟩ := hver
    obtain ⟨dest, await, hd, haw⟩ := loadDest_of_ready hready fun hp n => pair_in_file hev hp n
    obtain ⟨hmem, hwait, hops⟩ := started_awaiting (k := .load (accessOf t b typ w ts (fun _ => 0) dest))
      (if par then { m with breg := 0 } else m) ea (kept_acting b s) (kept_scIssue t b.place.core b.cls) haw
    exact ⟨_, hload par min since dest await hi hev ha hmin hr hshort hd, hmem, hwait, _, hops, covers_accessOf ..⟩
  · have hu : Kept s (if (b.cls = 4 ∨ b.cls = 5) ∧ 2 ≤ b.scope.toNat then (t.scIssue b.place.core b.cls).1.invalidateL1 b.place.core
        else (t.scIssue b.place.core b.cls).1) := by
      have hsc := (kept_acting b s).trans (kept_scIssue t b.place.core b.cls)
      split
      · exact hsc.trans (kept_invalidateL1 _ _)
      · exact hsc
    obtain ⟨hmem, hops⟩ := started_updateA b (.store (accessOf t b typ w ts data .none)) m ea hu
    obtain ⟨hi', hdata⟩ : (i = .sts d m ∧ many = false ∨ i = .stv d m ∧ many = true) ∧
        (if many then t.lanesSrc b typ d = .ok data else ∃ x, t.storeScalar b typ d = .ok x ∧ data = fun _ => x) := by
      obtain ⟨h1, rfl, h2⟩ | ⟨h1, rfl, h2⟩ := hi
      · exact ⟨.inl ⟨h1, rfl⟩, h2⟩
      · exact ⟨.inr ⟨h1, rfl⟩, h2⟩
    exact ⟨_, hstore many data hi' hdata ha hr, hmem, _, hops, covers_accessOf ..⟩

/-! ## Atomics (R206 to R209) -/

/-- The destination of an atomic: none, or that of a load. -/
theorem atomDest_of_ready {t : State} {b : Band} {d : Opnd} {w : Nat} {lanes : W32}
    (h : (d.isV || d.isS) = true → loadReady b d (d.isV && w == 8) lanes t = true)
    (hp : (d.isV && w == 8) = true → ∀ n : Fin 64, d = .v n → n.val + 1 < 64) :
    ∃ dest await, t.atomDest b d w lanes = .ok (dest, await) ∧ ∀ v, Kept v (await v) ∧ Awaiting b d (d.isV && w == 8) t.nextUid (await v) := by
  cases d with
  | v n => exact loadDest_of_ready (h rfl) hp
  | s n => exact loadDest_of_ready (h rfl) hp
  | _ => exact ⟨.none, id, rfl, fun v => ⟨⟨rfl, rfl, rfl, rfl⟩, fun _ _ => trivial⟩⟩

theorem isV_atomVector {d : Opnd} {m : MemRef} {w : Nat} (h : (d.isV && w == 8) = true) : (atomVector d m && w == 8) = true := by
  cases d with
  | v n => exact h
  | _ => cases h

theorem atomicsComplete : AtomicsComplete := by
  intro i s b d m k src l ea ts hi h hk t w vec pair hev hsrc ha hr hready
  obtain ⟨dest, await, hd, haw⟩ := atomDest_of_ready hready fun hp n => pair_in_file hev (isV_atomVector hp) n
  obtain ⟨hmem, hwait, hops⟩ := started_awaiting (k := .atomic k (accessOf t b b.typ w ts (fun _ => 0) dest)
    (ts.map fun y => ⟨y.lane, (y.bytes.map Prod.fst).headD 0, (src y.lane).1, (src y.lane).2, 0⟩) b.sat 0) m ea (kept_acting b s)
    (kept_scIssue t b.place.core b.cls) haw
  exact ⟨_, atomicsStart i s b d m k src l ea ts dest await hi h hk hev hsrc ha hr hd, hmem, hwait, _, hops, covers_accessOf ..⟩

/-! ## Mirror stores (R82, R203) -/

theorem fsum_sumBit (s : State) (u bit : Nat) (hb : bit < 16) : ∀ c ∈ (s.sumBit u bit).launches, c.uid = u → c.fsum.getLsbD bit = true := by
  intro c hc hu
  obtain ⟨x, -, rfl⟩ := List.mem_map.mp hc
  by_cases hx : x.uid == u
  · rw [if_pos hx]
    simp [hb]
  · rw [if_neg hx] at hu
    exact absurd (beq_iff_eq.mpr hu) hx

theorem updateA_launches (s : State) (b : Band) (m : MemRef) (ea : Ea) : (s.updateA b m ea).launches = s.launches := by
  unfold State.updateA
  cases ea.upd <;> rfl

theorem updateA_ls (s : State) (b : Band) (m : MemRef) (ea : Ea) : (s.updateA b m ea).ls = s.ls := by
  unfold State.updateA
  cases ea.upd <;> rfl

theorem startOp_ls (s : State) (b : Band) (a : Bool) (k : OpKind) : (s.startOp b a k).ls = s.ls := by
  unfold State.startOp
  cases b.flagOf a <;> rfl

theorem mirrorStoreCompletes : MirrorStoreCompletes := by
  intro s b d m data l ea wg h t vec w offs hwg hdata hl h0 hea hf hm h42 hoffs
  refine ⟨_, mirrorStoresStart s b d m data l ea wg h hwg hdata hl h0 hea hf hm h42 hoffs, ?_⟩
  cases ht : t.stmTarget wg (fld ea.e 39 32) (fld ea.e 41 40) with
  | some x =>
    obtain ⟨hmem, hops⟩ := started_updateA b (.stm (fld ea.e 39 32) (fld ea.e 41 40)
      (offs.map fun x => (laneBytes w (data x.1)).zipIdx.map fun y => (x.2 + y.2, y.1)).flatten) m ea (kept_acting b s)
    exact ⟨hmem, (updateA_ls ..).trans (startOp_ls ..), fun _ => hops, nofun⟩
  | none =>
    have hu := kept_updateA (t.sumBit b.launch mirrorFaultBit) b m ea
    refine ⟨hu.mem, updateA_ls .., nofun, fun _ => ⟨hu.ops, ?_⟩⟩
    rw [if_neg (by decide), updateA_launches]
    exact fsum_sumBit t b.launch mirrorFaultBit (by decide)

end Sys2Proof.Proofs.Completing
end

section
/-! SUPPORT. What a prefetch leaves in the L1 (R71, R205; O58). -/

namespace Sys2Proof.Proofs.Prefetching
open Sys2Proof Sys2Proof.Machine Sys2Proof.Stated Sys2Proof.Laws Sys2Proof.Proofs.Pieces Sys2Proof.Proofs.MemoryWords

/-! ## Lines -/

theorem line?_setLine (s : State) (l : L1Line) : (s.setLine l).line? l.core l.line = some l :=
  List.find?_cons_of_pos (by rw [beq_self_eq_true, beq_self_eq_true]; rfl)

/-- Bytes of a line that are valid stay so. -/
theorem validOf_setAtom_of_whole {l : L1Line} {j : Nat} (k : Nat) (mask : BitVec 32) (x : BitVec 256) (d : Option Nat) (h : l.validOf j = ~~~ 0#32) :
    (l.setAtom k mask x d).validOf j = ~~~ 0#32 := by
  unfold L1Line.setAtom L1Line.validOf at *
  refine BitVec.eq_of_getLsbD_eq fun i hi => ?_
  have hbit := congrArg (BitVec.getLsbD · i) h
  simp only [BitVec.getLsbD_extractLsb', BitVec.getLsbD_or, Bool.and_or_distrib_left] at hbit ⊢
  rw [hbit, BitVec.getLsbD_not, BitVec.getLsbD_zero, decide_eq_true hi]
  rfl

/-- Bytes of an atom that is filled, all but those valid before, are valid after. -/
theorem validOf_setAtom_fill (l : L1Line) {k : Nat} (hk : k < 4) (x : BitVec 256) (d : Option Nat) :
    (l.setAtom k (~~~ 0#32 &&& ~~~ l.validOf k) x d).validOf k = ~~~ 0#32 := by
  unfold L1Line.setAtom L1Line.validOf
  refine BitVec.eq_of_getLsbD_eq fun i hi => ?_
  have hlt : 32 * k + i < 128 := by omega
  have hi' : i < 128 := by omega
  simp only [BitVec.getLsbD_extractLsb', BitVec.getLsbD_or, BitVec.getLsbD_shiftLeft, BitVec.getLsbD_setWidth, BitVec.getLsbD_and,
    BitVec.getLsbD_not, BitVec.getLsbD_zero, Nat.add_sub_cancel_left, hi, hi', hlt, Nat.not_lt.mpr (Nat.le_add_right (32 * k) i),
    decide_true, decide_false, Bool.true_and, Bool.not_false]
  cases l.valid.getLsbD (32 * k + i) <;> rfl

/-! ## Filling a line -/

/-- A core's L1 has a line, or room for it. -/
def Roomy (s : State) (core line : Nat) : Prop :=
  (s.line? core line).isSome = true ∨ (s.l1.filter fun y => y.core == core && y.line % 128 == line % 128).length < s.l1Ways core

/-- A core's L1 holds every byte of atom k of a line. -/
def Whole (s : State) (core line k : Nat) : Prop := ∃ l, s.line? core line = some l ∧ l.validOf k = ~~~ 0#32

/-- One step of the filling of a line. -/
def fillAtom (core pa : Nat) (s : State) (k : Nat) : State :=
  let a := pa / 128 * 128 + 32 * k
  if s.readOut a == .ok then (s.scrub a).l1Put core a (~~~ 0#32) (s.atom a) none true else s

theorem fillLine_eq (s : State) (core pa : Nat) : s.fillLine core pa = (List.range 4).foldl (fillAtom core pa) s := rfl

theorem l1Room_of_roomy {s : State} {core line : Nat} (h : Roomy s core line) (hn : s.line? core line = none) : s.l1Room core line = s := by
  have h' := h.resolve_left (by rw [hn]; exact Bool.false_ne_true)
  unfold State.l1Room
  exact if_pos h'

/-- An atom put into a line for which there is room: the L1 alone changes, the atom is there, and what was there stays. -/
theorem l1Put_roomy {s : State} {core pa k : Nat} (h : Roomy s core (pa / 128)) (hk : pa / 32 % 4 = k) (x : BitVec 256) :
    ∃ ls, s.l1Put core pa (~~~ 0#32) x none true = { s with l1 := ls } ∧ Whole { s with l1 := ls } core (pa / 128) k ∧
      ∀ j, Whole s core (pa / 128) j → Whole { s with l1 := ls } core (pa / 128) j := by
  have hk4 : k < 4 := hk ▸ Nat.mod_lt _ (by decide)
  unfold State.l1Put
  simp only [hk]
  cases hl : s.line? core (pa / 128) with
  | some l =>
    obtain ⟨rfl, hline⟩ : l.core = core ∧ l.line = pa / 128 := by
      have := List.find?_some hl
      simpa using this
    have hnew := fun m x d => line?_setLine s (l.setAtom k m x d)
    refine ⟨_, rfl, ⟨_, hline ▸ hnew _ _ _, validOf_setAtom_fill l hk4 x none⟩, fun j hj => ?_⟩
    obtain ⟨l', hl', hw⟩ := hj
    obtain rfl := Option.some.inj (hl.symm.trans hl')
    exact ⟨_, hline ▸ hnew _ _ _, validOf_setAtom_of_whole k _ x none hw⟩
  | none =>
    rw [l1Room_of_roomy h hl]
    have hz : ~~~ 0#32 &&& ~~~ (L1Line.mk core (pa / 128) 0 0 0 none).validOf k = ~~~ 0#32 := by simp [L1Line.validOf]
    refine ⟨_, rfl, ⟨_, line?_setLine s _, ?_⟩, fun j hj => ?_⟩
    · have hfill := validOf_setAtom_fill (L1Line.mk core (pa / 128) 0 0 0 none) hk4 x none
      rwa [hz] at hfill
    · obtain ⟨l', hl', -⟩ := hj
      cases hl.symm.trans hl'

/-- A step of the filling: the L1 alone changes, there stays room, the atom is there where it can be read, and what was there stays. -/
theorem fillAtom_roomy {s : State} {core pa k : Nat} (he : s.errs = []) (h : Roomy s core (pa / 128)) (hk : k < 4) :
    ∃ ls, fillAtom core pa s k = { s with l1 := ls } ∧ Roomy { s with l1 := ls } core (pa / 128) ∧
      (s.readOut (pa / 128 * 128 + 32 * k) = .ok → Whole { s with l1 := ls } core (pa / 128) k) ∧
      ∀ j, Whole s core (pa / 128) j → Whole { s with l1 := ls } core (pa / 128) j := by
  unfold fillAtom
  by_cases hr : s.readOut (pa / 128 * 128 + 32 * k) = .ok
  · have hs : s.scrub (pa / 128 * 128 + 32 * k) = s := by rw [State.scrub, if_pos he]
    have hd : (pa / 128 * 128 + 32 * k) / 128 = pa / 128 := by omega
    obtain ⟨ls, hput, hw, hkeep⟩ := l1Put_roomy (s := s) (core := core) (pa := pa / 128 * 128 + 32 * k) (k := k) (hd.symm ▸ h) (by omega)
      (s.atom (pa / 128 * 128 + 32 * k))
    rw [hd] at hw hkeep
    refine ⟨ls, ?_, .inl ?_, fun _ => hw, hkeep⟩
    · simp only [hs, hr, beq_self_eq_true, if_true, hput]
    · obtain ⟨l, hl, -⟩ := hw
      rw [hl]
      rfl
  · refine ⟨s.l1, if_neg fun hc => hr (eq_of_beq hc), h, fun hc => absurd hc hr, fun _ hj => hj⟩

/-- A line for which there is room is filled with its atoms that can be read. -/
theorem foldl_fillAtom {core pa k : Nat} : ∀ (ks : List Nat) (s : State), s.errs = [] → Roomy s core (pa / 128) → (∀ j ∈ ks, j < 4) →
    s.readOut (pa / 128 * 128 + 32 * k) = .ok → k ∈ ks ∨ Whole s core (pa / 128) k → Whole (ks.foldl (fillAtom core pa) s) core (pa / 128) k
  | [], _, _, _, _, _, h => h.resolve_left List.not_mem_nil
  | j :: ks, s, he, hroom, hlt, hr, h => by
    obtain ⟨ls, hstep, hroom', hown, hkeep⟩ := fillAtom_roomy he hroom (hlt j List.mem_cons_self)
    rw [List.foldl_cons, hstep]
    refine foldl_fillAtom ks { s with l1 := ls } he hroom' (fun i hi => hlt i (List.mem_cons_of_mem _ hi)) hr ?_
    obtain h | h := h
    · obtain rfl | h := List.mem_cons.mp h
      · exact .inr (hown hr)
      · exact .inl h
    · exact .inr (hkeep k h)

theorem l1Hit_of_whole {s : State} {core pa : Nat} (h : Whole s core (pa / 128) (pa / 32 % 4)) : (s.l1Hit core pa (~~~ 0#32)).isSome = true := by
  obtain ⟨l, hl, hv⟩ := h
  unfold State.l1Hit
  rw [hl]
  simp only [hv]
  rfl

theorem l1Hit_fillLine {s : State} {core pa : Nat} (he : s.errs = []) (h : Roomy s core (pa / 128)) (hr : s.readOut (pa / 32 * 32) = .ok) :
    ((s.fillLine core pa).l1Hit core pa (~~~ 0#32)).isSome = true := by
  rw [fillLine_eq]
  refine l1Hit_of_whole (foldl_fillAtom _ s he h (fun j hj => List.mem_range.mp hj) ?_ (.inl (List.mem_range.mpr (Nat.mod_lt _ (by decide)))))
  rw [show pa / 128 * 128 + 32 * (pa / 32 % 4) = pa / 32 * 32 by omega]
  exact hr

/-! ## The word -/

theorem l1Hit_updateA (s : State) (b : Band) (m : MemRef) (ea : Ea) (core pa : Nat) (k : BitVec 32) :
    (s.updateA b m ea).l1Hit core pa k = s.l1Hit core pa k := by
  unfold State.updateA
  cases ea.upd <;> rfl

/-- A lane of PREF that nothing drops fills its line. -/
theorem prefLane_ok {b : Band} {s : State} {x : Nat × W64} {y : Tr} (ht : s.translate (s.bandCtx b) .load x.2 = .ok y)
    (hk : s.kindOf (s.viewOf b.launch (s.runOf b.wg) y.pa) = .ram) (hc : cachedClass y.cc = true)
    (hl : s.locked b .mem 0 false (x.2.toNat / 128 * 128) 128 = false) (hb : ∀ v, y.bind = some v → v.cur ≠ none) :
    State.prefLane b s x = s.fillLine b.place.core (s.viewOf b.launch (s.runOf b.wg) y.pa) := by
  unfold State.prefLane
  rw [ht]
  simp only [hk, hc, hl, beq_self_eq_true, Bool.and_self, Bool.not_false, Bool.true_and]
  cases hy : y.bind with
  | none => rfl
  | some v =>
    obtain ⟨c, hv⟩ := Option.ne_none_iff_exists'.mp (hb v hy)
    simp only [hv]
    rfl

/-- A prefetch of one address leaves its bytes in the L1. -/
theorem l1Hit_prefetched {t : State} {b : Band} {m : MemRef} {l : W32} {ea : Ea} {x : Tr} (hm : m.amode ≠ .lanes) (h0 : l ≠ 0)
    (hx : t.translate (t.bandCtx b) .load ea.e = .ok x) (hk : t.kindOf (t.viewOf b.launch (t.runOf b.wg) x.pa) = .ram)
    (hc : cachedClass x.cc = true) (hl : t.locked b .mem 0 false (ea.e.toNat / 128 * 128) 128 = false)
    (hb : ∀ v, x.bind = some v → v.cur ≠ none) (he : t.errs = []) (hr : t.readOut (t.viewOf b.launch (t.runOf b.wg) x.pa / 32 * 32) = .ok)
    (hroom : Roomy t b.place.core (t.viewOf b.launch (t.runOf b.wg) x.pa / 128)) :
    ((((b.memLanes m ea 128 (m.amode == .lanes) l).foldl (State.prefLane b) t).updateA b m ea).l1Hit b.place.core
      (t.viewOf b.launch (t.runOf b.wg) x.pa) (~~~ 0#32)).isSome = true := by
  have hlanes : b.memLanes m ea 128 (m.amode == .lanes) l = [(0, ea.e)] := by
    rw [Band.memLanes, if_neg (by simpa using hm), if_neg h0]
  have hlane : State.prefLane b t (0, ea.e) = t.fillLine b.place.core (t.viewOf b.launch (t.runOf b.wg) x.pa) :=
    prefLane_ok (x := (0, ea.e)) hx hk hc hl hb
  rw [l1Hit_updateA, hlanes, List.foldl_cons, List.foldl_nil, hlane]
  exact l1Hit_fillLine he hroom hr

theorem prefetchReachesTheL1 : PrefetchReachesTheL1 := by
  intro s b m l ea h t hl hi ha
  refine ⟨_, prefetchCompletes s b m l ea h hl hi ha, ?_⟩
  intro x hm h0 hx pa hk hc hlock hb he hr hroom
  exact l1Hit_prefetched (t := t) hm h0 hx hk hc hlock hb he hr hroom

/-- Settles O58: the operation that an atomic or a mirror store starts, and the line that a prefetch fills. -/
theorem atomicMirrorAndPrefetchWordsComplete : Obligations.AtomicMirrorAndPrefetchWordsComplete :=
  ⟨Completing.atomicsComplete, Completing.mirrorStoreCompletes, prefetchReachesTheL1⟩

end Sys2Proof.Proofs.Prefetching
end

section
/-! SUPPORT. MMA words and their executions complete (O59). -/

namespace Sys2Proof.Proofs.MmaCompleting
open Sys2Proof Sys2Proof.Machine Sys2Proof.Stated Sys2Proof.Laws Sys2Proof.Proofs.Pieces Sys2Proof.Proofs.MatrixUnit Sys2Proof.Proofs.Completing

/-! ## The lock of a C tile (R258) -/

theorem sameTile_holders (l : Lock) (hs : List (Nat × Nat)) (core slot c : Nat) :
    ({ l with holders := hs } : Lock).sameTile core slot c = l.sameTile core slot c := rfl

/-- A tile's lock, shared or new, holds it for the band's open batch. -/
theorem lockTile_ok {s : State} {b : Band} {slot c : Nat} (h : (∃ k ∈ s.locks, k.sameTile b.place.core slot c = true) ∨
    (s.locks.filter fun k => k.core == b.place.core).length < 64) :
    ∃ ls, s.lockTile b slot c = .ok { s with locks := ls } ∧ ∃ k ∈ ls, k.sameTile b.place.core slot c = true ∧ (b.uid, b.openBatch) ∈ k.holders := by
  unfold State.lockTile
  by_cases hany : (s.locks.any fun l => l.sameTile b.place.core slot c) = true
  · refine ⟨_, if_pos hany, ?_⟩
    obtain ⟨k, hk, hsame⟩ := List.any_eq_true.mp hany
    refine ⟨_, List.mem_map.mpr ⟨k, hk, rfl⟩, ?_⟩
    by_cases hm : (b.uid, b.openBatch) ∈ k.holders
    · rw [List.contains_iff_mem.mpr hm, if_neg (by simp)]
      exact ⟨hsame, hm⟩
    · rw [if_pos (by simpa [hsame] using hm)]
      exact ⟨hsame, List.mem_append_right _ (List.mem_singleton_self _)⟩
  · have hfree := h.resolve_left fun ⟨k, hk, hsame⟩ => hany (List.any_eq_true.mpr ⟨k, hk, hsame⟩)
    have hn : s.needLocks b.place.core 1 = .ok () := EngineWords.needLocks_ok (Nat.succ_le_of_lt hfree)
    refine ⟨s.locks ++ [⟨b.place.core, none, [(b.uid, b.openBatch)], true, .cb, 0, false, slot, c, c + tileBytes⟩], ?_, _,
      List.mem_append_right _ (List.mem_singleton_self _), ?_, List.mem_singleton_self _⟩
    · simp only [if_neg hany, hn, ok_bind]
      rfl
    · simp [Lock.sameTile]

/-- What an MMA word leaves besides its band: its operation, and the locks of its core. -/
theorem mmaWordsComplete : MmaWordsComplete := by
  intro i s b f cb ab sel z lc la c a w g sa hi h hsel hl hc ha hc5 ha1 hw hcb hab hcur hg hsa hq hlock
  obtain ⟨ls, ht, hk⟩ := lockTile_ok (s := acting b s) (slot := w.slot) (c := c.toNat) hlock
  exact ⟨_, mmaStarts i s _ b f cb ab sel z lc la c a w g sa hi h hsel hl hc ha hc5 ha1 hw hcb hab hcur hg hsa hq ht, rfl, rfl, hk⟩

/-! ## Execution -/

theorem op?_dropOp (s : State) (u : Nat) : (s.dropOp u).op? u = none := by
  refine List.find?_eq_none.mpr fun x hx => ?_
  have := (List.mem_filter.mp hx).2
  simpa using this

theorem op?_of_ops {s t : State} (h : t.ops = s.ops) (u : Nat) : t.op? u = s.op? u := by rw [State.op?, State.op?, h]

theorem settleBatches_kept (s : State) (u : Nat) : (s.settleBatches u).ops = s.ops ∧ (s.settleBatches u).mem = s.mem := by
  unfold State.settleBatches
  cases s.band? u <;> exact ⟨rfl, rfl⟩

theorem endOp_mem (s : State) (o : Op) : (s.endOp o).mem = s.mem := by
  unfold State.endOp State.dropFlag
  cases o.flag <;> rfl

/-- An MMA that ends is under way no longer, and memory is as it was. -/
theorem endMma_ends (s : State) (o : Op) (batch : Nat) : (s.endMma o batch).op? o.uid = none ∧ (s.endMma o batch).mem = s.mem := by
  obtain ⟨hops, hmem⟩ := settleBatches_kept ((s.endOp o).modBand o.band fun b => b.countMma batch false) o.band
  exact ⟨(op?_of_ops hops o.uid).trans (op?_dropOp (s.dropFlag o) o.uid), hmem.trans (endOp_mem s o)⟩

theorem mmaExecutionCompletes : MmaExecutionCompletes := by
  intro s o w batch a c g sa sel zero rerun got ho hk hw hq
  obtain ⟨hend, -⟩ := mmaExecutionResults s o w batch a c g sa sel zero rerun false got ho hk hw hq
  obtain ⟨t, hexec, -, hmem, -⟩ := hend rfl
  obtain ⟨hnone, hmem'⟩ := endMma_ends t o batch
  exact ⟨_, hexec, hnone, hmem'.trans hmem⟩

/-- Settles O59: the lock of the tile, and the end of the operation. -/
theorem matrixWordsComplete : Obligations.MatrixWordsComplete := ⟨mmaWordsComplete, mmaExecutionCompletes⟩

end Sys2Proof.Proofs.MmaCompleting
end

section
/-! SUPPORT. The words of the copy engines, the Prism and the collectives complete (O60). -/

namespace Sys2Proof.Proofs.EngineCompleting
open Sys2Proof Sys2Proof.Machine Sys2Proof.Stated Sys2Proof.Laws Sys2Proof.Proofs.Pieces Sys2Proof.Proofs.Control Sys2Proof.Proofs.Traps
  Sys2Proof.Proofs.EngineWords Sys2Proof.Proofs.CollectiveWords Sys2Proof.Proofs.Completing Sys2Proof.Proofs.Reports

/-! ## What holds of a band after a word's parts -/

/-- What band `u` holds, where it is there. -/
def Holds (s : State) (u : Nat) (p : Band → Prop) : Prop := ∀ c, s.band? u = some c → p c

theorem holds_modBand {s : State} {u : Nat} {f : Band → Band} {p : Band → Prop} (h : Holds s u fun c => p (f c)) (hf : ∀ c, (f c).uid = c.uid) :
    Holds (s.modBand u f) u p := by
  intro c hc
  obtain ⟨c', hc', rfl⟩ := of_band?_modBand hc hf
  exact h c' hc'

/-- What the update of an address register leaves of a band. -/
theorem holds_updateA {s : State} {b : Band} {p : Band → Prop} (m : MemRef) (ea : Ea) (hp : ∀ (c : Band) a, p c → p { c with a := a })
    (h : Holds s b.uid p) : Holds (s.updateA b m ea) b.uid p := by
  unfold State.updateA
  cases ea.upd with
  | none => exact h
  | some x => exact holds_modBand (fun c hc => hp c _ (h c hc)) fun _ => rfl

theorem holds_awaitS {s : State} {b : Band} {n : Nat} (hn : n < 64) (u p : Nat) : Holds (s.awaitS b n u p) b.uid fun c => (c.sName n).pend = some ⟨u, p⟩ :=
  holds_modBand (fun _ _ => congrArg SName.pend (sName_setSName_same _ _ hn)) fun _ => rfl

/-! ## COPY, COPYM, MACK, STASH (R268 to R271) -/

theorem startEngine_ops {s t : State} (h : Kept s t) (b : Band) (k : OpKind) : (t.startEngine b k).ops = s.ops ++ [newOp b s none k] := by
  rw [← newOp_congr _ _ h.uid h.wgs, ← h.ops]
  rfl

/-- The copy that a slice joins: one not yet started, of its number. -/
theorem addSlice_joined (s : State) (b : Band) (n : Nat) (sl : Slice) :
    ∃ o ∈ (s.addSlice b n sl).1.ops, o.uid = (s.addSlice b n sl).2 ∧ o.wg = b.wg ∧
      ∃ sls st, o.kind = .engine (.copy n sls none) st ∧ sl ∈ sls := by
  unfold State.addSlice
  cases ho : s.copyOp? b.wg n with
  | none => exact ⟨newOp b s none _, List.mem_append_right _ (List.mem_singleton_self _), rfl, rfl, [sl], none, rfl, List.mem_singleton_self _⟩
  | some o =>
    have hmem := List.mem_of_find?_eq_some ho
    have hfound := ho
    unfold State.copyOp? at hfound
    have hsel := List.find?_some hfound
    obtain ⟨hwg, hk⟩ := Bool.and_eq_true_iff.mp hsel
    obtain ⟨sls, st, hkind⟩ : ∃ sls st, o.kind = .engine (.copy n sls none) st := by
      split at hk
      next k sls st hkind => exact ⟨sls, st, by rw [hkind, eq_of_beq hk]⟩
      next => cases hk
    simp only [hkind]
    exact ⟨_, List.mem_map.mpr ⟨o, hmem, if_pos (beq_self_eq_true _)⟩, rfl, eq_of_beq hwg, _, st, rfl, List.mem_append_right _ (List.mem_singleton_self _)⟩

theorem copyWordCompletes : CopyWordCompletes := by
  intro s t b m ea desc stamp w l h hea hread hw hf hl he hlocks hroom
  obtain ⟨o, ho, hu, hwg, hk⟩ := addSlice_joined t b (b.copies + 1) ⟨b.pos, t.nextUid, b.uid, b.place, b.privileged, desc, stamp⟩
  refine ⟨_, copyWordAttachesSlice s t b m ea desc stamp w l h hea hread hw hf hl he ?_, o, ?_, hwg, hk, ?_⟩
  · cases desc with
    | none => exact hroom
    | some ws => exact hlocks ws _ rfl
  · rw [(kept_updateA _ b m ea).ops]
    exact ho
  · exact holds_updateA m ea (fun _ _ hc => hc) (holds_modBand (fun c _ => ⟨rfl, congrArg some hu.symm⟩) fun _ => rfl)

theorem length_sourceLock_le (b : Band) (w : Workgroup) (s : State) (d : CopyDesc) : (sourceLock b w s d).length ≤ 1 := by
  unfold sourceLock
  split
  · exact Nat.zero_le _
  · split <;> exact Nat.le_refl _

theorem multicastWordsComplete : MulticastWordsComplete := by
  refine ⟨fun s t b m ea desc stamp w l h hea hread hw hf hl he hlocks => ?_, fun s b n h hd => ?_⟩
  · have hroom : (t.locks.filter fun y => y.core == b.place.core).length +
        (match desc with | some ws => sourceLock b w t (parseCopy ws) | none => []).length ≤ 64 := by
      cases desc with
      | none => exact Nat.le_of_lt hlocks
      | some ws =>
        have := length_sourceLock_le b w t (parseCopy ws)
        dsimp only
        omega
    refine ⟨_, copymCompletes s t b m ea desc stamp w l h hea hread hw hf hl he hroom, ?_, ?_⟩
    · exact (kept_updateA _ b m ea).ops
    · exact holds_updateA m ea (fun _ _ hc => hc) (holds_modBand (fun _ _ => rfl) fun _ => rfl)
  · obtain ⟨t, hexec, hframe, hflags⟩ := multicastWordResults.2 s b n h hd
    refine ⟨t, hexec, ?_, ?_, (hflags _ _).mpr (.inr ⟨rfl, rfl⟩)⟩ <;> rw [hframe] <;> rfl

/-- What a STASH that is under way leaves: its operation, and the band's most recent one. -/
theorem stashStarted_kept (b : Band) (w : Workgroup) (d : StashDesc) (rs : List VReg) (stamp : Option StampSpec) (t : State) :
    (stashStarted b w d rs stamp t).ops =
      t.ops ++ [newOp b t none (.engine (.stash (stashOut b w d rs t).1 0 (t.stashError w d) b.privileged) stamp)] ∧
    Holds (stashStarted b w d rs stamp t) b.uid fun c => c.lastCopy = some t.nextUid := by
  have hlast : Holds (((((t.startEngine b (.engine (.stash (stashOut b w d rs t).1 0 (t.stashError w d) b.privileged) stamp)).addLocks
      (stashLocks b w d t)).modBand b.uid fun c => { c with lastCopy := some t.nextUid }).setFps b.uid (stashOut b w d rs t).2)) b.uid
      fun c => c.lastCopy = some t.nextUid :=
    holds_modBand (holds_modBand (fun _ _ => rfl) fun _ => rfl) fun _ => rfl
  unfold stashStarted State.countSr
  by_cases hr : b.rnd = 5
  · rw [if_pos hr]
    exact ⟨rfl, holds_modBand hlast fun _ => rfl⟩
  · rw [if_neg hr]
    exact ⟨rfl, hlast⟩

theorem length_stashLocks_le (b : Band) (w : Workgroup) (d : StashDesc) (s : State) : (stashLocks b w d s).length ≤ d.footprints.length := by
  unfold stashLocks
  split
  · exact Nat.zero_le _
  · rw [List.length_map]

theorem stashWordCompletes : StashWordCompletes := by
  intro s t b v m ea bs stamp w l rs h hea halign hbs d hstamp hv hl hw hrs hf hla he hlocks err out
  obtain ⟨hops, hlast⟩ := stashStarted_kept b w d rs stamp t
  have hout : out = (stashOut b w d rs t).1 := by
    unfold out stashOut
    split <;> rfl
  refine ⟨(stashStarted b w d rs stamp t).updateA b m ea, next_eq (issue_ok h (stashBody_ok rfl hea halign hbs hstamp hv hl hw hrs hf hla he
    (Nat.le_trans (Nat.add_le_add_left (length_stashLocks_le b w d t) _) hlocks))), ?_, holds_updateA m ea (fun _ _ hc => hc) hlast⟩
  rw [hout]
  exact (kept_updateA _ b m ea).ops.trans hops

/-! ## YIELDC (R99, R305) -/

theorem yieldCompletes : YieldCompletes := by
  intro s b off h target
  obtain ⟨hwait, hgo⟩ := yieldUntilCopyResults.1 s b off h
  refine ⟨fun u hu ho => ⟨_, hwait u hu ho, rfl, rfl, ?_⟩, fun hnone hh => ?_⟩
  · exact holds_modBand (fun _ _ => ⟨rfl, va57_targetOf b _⟩) fun _ => rfl
  · have hnone' : b.lastCopy = none ∨ ∃ u, b.lastCopy = some u ∧ (acting b s).op? u = none := by
      cases hu : b.lastCopy with
      | none => exact .inl rfl
      | some u => exact .inr ⟨u, rfl, hnone u hu⟩
    exact ⟨_, hgo hnone' hh, rfl, rfl, holds_modBand (fun _ _ => ⟨rfl, va57_targetOf b _⟩) fun _ => rfl⟩

/-! ## CRS and GSGET (R274, R280) -/

theorem kept_noteRecord (s : State) (c : Ctx) (r : W64) : Kept s (s.noteRecord c r) := by
  unfold State.noteRecord
  cases s.translate c .store r <;> exact ⟨rfl, rfl, rfl, rfl⟩

theorem mem_insertAsc {x y : Nat} : ∀ {l : List Nat}, x ∈ insertAsc l y ↔ x = y ∨ x ∈ l
  | [] => List.mem_singleton.trans (or_iff_left List.not_mem_nil).symm
  | a :: l => by
    unfold insertAsc
    split
    · rw [List.mem_cons, mem_insertAsc, List.mem_cons, or_left_comm]
    · split
      next h => rw [← h, List.mem_cons, ← or_assoc, or_self]
      next => exact List.mem_cons

theorem mem_foldl_insertAsc {x : Nat} : ∀ {l acc : List Nat}, x ∈ l.foldl insertAsc acc ↔ x ∈ acc ∨ x ∈ l
  | [], _ => (or_iff_left List.not_mem_nil).symm
  | y :: l, acc => by rw [List.foldl_cons, mem_foldl_insertAsc, mem_insertAsc, List.mem_cons, or_assoc, or_left_comm]

theorem of_mem_dedup {x : Nat} {l : List Nat} (h : x ∈ dedup l) : x ∈ l := (mem_foldl_insertAsc.mp h).resolve_left List.not_mem_nil

/-- A bucket whose owners this device serves is handed to them at once. -/
theorem submitCrs_ops {s : State} {b : Band} {l : Launch} {t : PGTable} {g : PGroup} {k : Bucket} {os : List Nat}
    (hnew : (b.rank, k.pgrp, k.bid, k.stepn) ∉ l.crsDone) (hn : k.normg < 128)
    (hos : ((s.externalEffect l.uid).modLaunch l.uid fun x =>
      { x with crsDone := x.crsDone ++ [(b.rank, k.pgrp, k.bid, k.stepn)] }).pageOwners l b.place.core g k = .ok os)
    (hserve : ∀ w ∈ os, t.serves w = true) :
    (s.submitCrs b l t g k).ops = s.ops ++ [newOp b s none (.crs ⟨b.rank, k, os, [], [], [], 0, false, []⟩)] := by
  have haway : (dedup os).filter (fun w => !t.serves w && !([] : List Nat).contains w) = [] := List.filter_eq_nil_iff.mpr fun w hw => by
    rw [hserve w (of_mem_dedup hw)]
    exact Bool.false_ne_true
  have hring : ∀ u : State, u.ringOwners t k os = [] := fun u => by
    unfold State.ringOwners
    split
    · exact List.filter_eq_nil_iff.mpr fun w hw => by
        rw [hserve w (of_mem_dedup hw)]
        exact Bool.false_ne_true
    · rfl
  have hc : l.crsDone.contains (b.rank, k.pgrp, k.bid, k.stepn) = false := by simpa using hnew
  unfold State.submitCrs
  simp only [hc, Bool.false_eq_true, if_false, if_neg (Nat.not_le.mpr hn), hos, hring, haway]
  rfl

theorem reduceAndNormWordsComplete : ReduceAndNormWordsComplete := by
  refine ⟨fun s v b m ea bs l t g h hl hr hea halign hbs hlv ht hg hok hz hstore hf hslot hdone => ?_, fun s b n j g x h hn hj hf ha => ?_⟩
  · refine ⟨_, reduceAndNormWordResults.1 s v b m ea bs l t g h hl hr hea halign hbs hlv ht hg hok hz hstore hf hslot hdone, ?_⟩
    intro os hnew hn hos hserve
    have hk := kept_noteRecord v (v.bandCtx b) (parseBucket bs).recVa
    rw [(kept_updateA _ b m ea).ops, submitCrs_ops hnew hn hos hserve, hk.ops, newOp_congr _ _ hk.uid hk.wgs]
  · refine ⟨_, reduceAndNormWordResults.2 s b n j g x h hn hj hf ha, ?_, ?_⟩
    · exact (startOp_ops ((kept_acting b s).trans (kept_invalidateL1 _ _)) b true _).1
    · intro c hc
      obtain ⟨c', hc', rfl⟩ := of_band?_modBand hc fun _ => rfl
      have hn1 : n.val + 1 < 64 := by have := n.isLt; omega
      exact ⟨(congrArg SName.pend (sName_setSName_other c' _ (by omega))).trans (holds_awaitS n.isLt _ _ c' hc'),
        congrArg SName.pend (sName_setSName_same c' _ hn1)⟩

/-! ## CSCAL and CAG (R276, R277) -/

theorem foldl_fixed {α β : Type} {f : β → α → β} {b : β} : ∀ {xs : List α}, (∀ x ∈ xs, f b x = b) → xs.foldl f b = b
  | [], _ => rfl
  | x :: xs, h => by
    rw [List.foldl_cons, h x List.mem_cons_self]
    exact foldl_fixed fun y hy => h y (List.mem_cons_of_mem x hy)

theorem noteRecord_cycle (s : State) (c : Ctx) (r : W64) : (s.noteRecord c r).cycle = s.cycle := by
  unfold State.noteRecord
  cases s.translate c .store r <;> rfl

/-- A scalar whose closer is this device is under way. -/
theorem submitScalar_ops {s v : State} (hk : Kept v s) (hc : s.cycle = v.cycle) {b : Band} {l : Launch} {t : PGTable} {g : PGroup} (d : ScalarDesc) (x : W64)
    (h : t.closer g = t.here) : (s.submitScalar b l t g d x).ops = v.ops ++ [newOp b v none
      (.cscal b.rank d.stepn d.opc d.typ d.pgrp d.quorum d.timer d.recVa x v.cycle false false)] := by
  unfold State.submitScalar
  simp only [if_pos h]
  rw [← hc]
  exact startEngine_ops (hk.trans ⟨rfl, rfl, rfl, rfl⟩) b _

/-- A publication to this device alone is under way. -/
theorem submitCag_ops {s v : State} (hk : Kept v s) {b : Band} {l : Launch} (d : CagDesc) (h : ∀ q ∈ l.cagDevices d.pgrp, q = l.here) :
    (s.submitCag b l d).ops = v.ops ++ [newOp b v none (.cag b.rank d.ver d.pgrp (d.nchk + 1) d.src d.dst d.recVa [] [] [] none 0)] := by
  unfold State.submitCag
  dsimp only
  rw [foldl_fixed]
  · exact startEngine_ops (hk.trans ⟨rfl, rfl, rfl, rfl⟩) b _
  · intro q hq
    rw [h q hq, bne_self_eq_false, Bool.false_and]
    rfl

theorem scalarAndGatherWordsComplete : ScalarAndGatherWordsComplete := by
  refine ⟨fun s v b a p x e bs l t g h hl hr hx he halign hbs hlv ht hg hok hz hstore hf hslot hdone => ?_,
    fun s v b m ea bs l h hl hr hpriv hea halign hbs hok hz hno hyes hstore hwalk hver hf hslot hdone => ?_⟩
  · refine ⟨_, scalarAndGatherWordResults.1 s v b a p x e bs l t g h hl hr hx he halign hbs hlv ht hg hok hz hstore hf hslot hdone, fun hc => ?_⟩
    exact submitScalar_ops (kept_noteRecord v _ _) (noteRecord_cycle v _ _) _ x hc
  · refine ⟨_, scalarAndGatherWordResults.2 s v b m ea bs l h hl hr hpriv hea halign hbs hok hz hno hyes hstore hwalk hver hf hslot hdone, fun hq => ?_⟩
    rw [(kept_updateA _ b m ea).ops]
    exact submitCag_ops (kept_noteRecord v _ _) _ hq

/-! ## STEP and STEPRD (R278, R279) -/

theorem weir_quiet : Quiet fun s => s.weir where
  wake _ _ := rfl
  cells _ _ _ _ := rfl
  send _ _ := rfl
  stray _ _ := rfl
  events _ _ _ _ _ := rfl
  ring _ _ := rfl
  pending _ _ := rfl
  celog _ _ := rfl
  errs _ _ := rfl

theorem reply_weir (s : State) (lid : W32) (dev : Nat) (x : Sent) : (s.reply lid dev x).weir = s.weir := by
  have hreach : (s.reach dev).2.weir = s.weir := by
    unfold State.reach
    split
    · rfl
    · split
      · rfl
      · exact physTouch_quiet weir_quiet s _ _ _
  unfold State.reply State.sendTo
  generalize s.reach dev = r at hreach ⊢
  obtain ⟨ok, t⟩ := r
  cases ok with
  | false =>
    have hpost : (t.peerEvent lid dev).weir = t.weir := post_quiet weir_quiet _ _
    exact hpost.trans hreach
  | true => exact hreach

theorem sendSteps_weir (s : State) (t : PGTable) (g : PGroup) (lid : Nat) (es : List WeirEntry) : (s.sendSteps t g lid es).weir = s.weir := by
  unfold State.sendSteps
  exact foldl_kept _ _ (fun s e => foldl_kept _ _ (fun s p => reply_weir s _ _ _) _ s) es s

theorem weirOf_setWeir {s : State} {lid : Nat} {w w' : WeirGroup} (h : s.weirOf lid = some w) (hl : w'.lid = w.lid) :
    (s.setWeir w').weirOf lid = some w' := by
  have hlid : w.lid = lid := eq_of_beq (List.find?_some (p := fun g : WeirGroup => g.lid == lid) h)
  unfold State.weirOf State.setWeir at *
  rw [List.find?_map]
  have hp : (fun g : WeirGroup => g.lid == lid) ∘ (fun x => if x.lid == w'.lid then w' else x) = fun g => g.lid == lid := by
    funext x
    simp only [Function.comp]
    split
    next hx => rw [eq_of_beq hx]
    next => rfl
  rw [hp, h, Option.map_some, if_pos (beq_iff_eq.mpr hl.symm)]

/-- An entry of a rank that is replaced by one of the same rank. -/
theorem rank?_put {w : WeirGroup} {r : Nat} {e e' : WeirEntry} (h : w.rank? r = some e) (hp : e'.isPod = e.isPod) (hw : e'.who = e.who) :
    (w.put e').rank? r = some e' := by
  have hsel := List.find?_some (p := fun e : WeirEntry => !e.isPod && e.who == r) h
  unfold WeirGroup.rank? WeirGroup.put at *
  dsimp only
  rw [List.find?_map]
  have hq : (fun e : WeirEntry => !e.isPod && e.who == r) ∘ (fun x => if x.isPod == e'.isPod && x.who == e'.who then e' else x) =
      fun e => !e.isPod && e.who == r := by
    funext x
    simp only [Function.comp]
    split
    next hx =>
      obtain ⟨h1, h2⟩ := Bool.and_eq_true_iff.mp hx
      rw [eq_of_beq h1, eq_of_beq h2]
    next => rfl
  rw [hq, h, Option.map_some, if_pos (by rw [hp, hw, beq_self_eq_true, beq_self_eq_true]; rfl)]

theorem stepWordsComplete : StepWordsComplete := by
  refine ⟨fun s b l t g w e h hl ht hg hw he hlead => ?_, fun s b n a imm l t g w arg x h hl ht hg hw harg hzero hx hf ha => ?_⟩
  · refine ⟨_, (stepWordResults.1 s b l t g w e h hl ht hg hw he).1 hlead, w.put { e with step := e.step + 1, taken := e.taken + 1 }, ?_,
      rank?_put he rfl rfl⟩
    have hset := weirOf_setWeir (s := acting b s) (w' := w.put { e with step := e.step + 1, taken := e.taken + 1 }) hw rfl
    unfold State.weirOf at hset ⊢
    rw [← hset]
    exact congrArg (List.find? _) (sendSteps_weir _ t g _ _)
  · refine ⟨_, stepWordResults.2 s b n a imm l t g w arg x h hl ht hg hw harg hzero hx hf ha, ?_, holds_awaitS n.isLt _ _⟩
    exact (startOp_ops (kept_acting b s) b true _).1

/-- Settles O60: each word by the state that it leaves. -/
theorem engineAndCollectiveWordsComplete : Obligations.EngineAndCollectiveWordsComplete :=
  ⟨copyWordCompletes, multicastWordsComplete, stashWordCompletes, yieldCompletes, reduceAndNormWordsComplete, scalarAndGatherWordsComplete,
    stepWordsComplete⟩

end Sys2Proof.Proofs.EngineCompleting
end

section
/-! SUPPORT. What the bytes of RAM read as, and what a write of an atom leaves of them (R44 to R51; O55). -/

namespace Sys2Proof.Proofs.Seen
open Sys2Proof Sys2Proof.Machine Sys2Proof.Stated Sys2Proof.Laws Sys2Proof.Proofs.EngineCompleting

/-! ## Bytes of little-endian numbers -/

theorem byteOf_cons_zero (x n : Nat) : byteOf (x + 256 * n) 0 = BitVec.ofNat 8 x :=
  BitVec.eq_of_toNat_eq (by simp only [byteOf, BitVec.toNat_ofNat, Nat.pow_zero, Nat.div_one]; omega)

theorem byteOf_cons_succ (x n i : Nat) (h : x < 256) : byteOf (x + 256 * n) (i + 1) = byteOf n i := by
  rw [byteOf, byteOf, Nat.pow_succ, Nat.mul_comm (256 ^ i), ← Nat.div_div_eq_div_mul, Nat.add_mul_div_left _ _ (by decide), Nat.div_eq_of_lt h, Nat.zero_add]

theorem byteOf_leNat : ∀ (l : List Byte) (i : Nat) (h : i < l.length), byteOf (leNat l) i = l[i]
  | b :: l, 0, _ => by rw [leNat, byteOf_cons_zero, BitVec.ofNat_toNat, BitVec.setWidth_eq]; rfl
  | b :: l, i + 1, h => by
    rw [leNat, byteOf_cons_succ _ _ _ b.isLt, byteOf_leNat l i (Nat.lt_of_succ_lt_succ h)]
    rfl

theorem byteOf_leNat_range (f : Nat → Byte) {n i : Nat} (h : i < n) : byteOf (leNat ((List.range n).map f)) i = f i := by
  rw [byteOf_leNat _ i (by simpa using h), List.getElem_map, List.getElem_range]

theorem byteOf_read (m : List Host.Cell) : ∀ (n a i : Nat), i < n → byteOf (Mem.read m a n) i = Mem.get m (a + i)
  | n + 1, a, 0, _ => by rw [Mem.read, byteOf_cons_zero, BitVec.ofNat_toNat, BitVec.setWidth_eq]; rfl
  | n + 1, a, i + 1, h => by
    rw [Mem.read, byteOf_cons_succ _ _ _ (Mem.get m a).isLt, byteOf_read m n (a + 1) i (Nat.lt_of_succ_lt_succ h), Nat.add_right_comm]
    rfl

theorem byteOf_mod (x : Nat) {n i : Nat} (h : i < n) : byteOf (x % 256 ^ n) i = byteOf x i := by
  refine BitVec.eq_of_toNat_eq ?_
  obtain ⟨k, rfl⟩ := Nat.exists_eq_add_of_lt h
  rw [byteOf, byteOf, BitVec.toNat_ofNat, BitVec.toNat_ofNat, show 256 ^ (i + k + 1) = 256 ^ i * 256 ^ (k + 1) by rw [← Nat.pow_add, Nat.add_assoc],
    Nat.mod_mul_right_div_self, Nat.pow_succ, Nat.mul_comm (256 ^ k), Nat.mod_mul_right_mod]

theorem byteOf_toNat_ofNat_256 (x : Nat) {i : Nat} (h : i < 32) : byteOf (BitVec.ofNat 256 x).toNat i = byteOf x i := by
  rw [BitVec.toNat_ofNat, show 2 ^ 256 = 256 ^ 32 from (Nat.pow_mul 2 8 32)]
  exact byteOf_mod x h

/-- R44: the bytes of a merge. -/
theorem byteOf_mergeAtom (old new : BitVec 256) (mask : BitVec 32) {i : Nat} (h : i < 32) :
    byteOf (mergeAtom old new mask).toNat i = if mask.getLsbD i then byteOf new.toNat i else byteOf old.toNat i := by
  rw [mergeAtom, byteOf_toNat_ofNat_256 _ h, byteOf_leNat_range _ h]

/-! ## What a byte's reading rests on -/

theorem inSecure_regs {s t : State} (h : t.regs = s.regs) (a : Nat) : t.inSecure a = s.inSecure a := by
  have hn : ∀ k, t.num k = s.num k := fun k => by rw [State.num, State.reg, h]; rfl
  have ha : t.anyRegion = s.anyRegion := by rw [State.anyRegion, h]; rfl
  simp only [State.inSecure, State.meetsSecure, hn, ha]

/-- What a byte reads as rests on the cells of its atom, whether that is sealed and what errors it has, the keys and the regions. -/
theorem seen_congr {s t : State} {c : Nat} (hk : t.keyGen = s.keyGen) (hr : t.regs = s.regs)
    (hs : t.sealed.contains (c / 32 * 32) = s.sealed.contains (c / 32 * 32)) (hd : t.decoded (c / 32 * 32) = s.decoded (c / 32 * 32))
    (hm : ∀ a, a / 32 * 32 = c / 32 * 32 → Mem.get t.mem a = Mem.get s.mem a) : t.seen c = s.seen c := by
  have hin := inSecure_regs hr c
  have hint : t.intact (c / 32 * 32) = s.intact (c / 32 * 32) := by simp only [State.intact, hs, hd]
  have hsealed : t.sealedAt c = s.sealedAt c := hs
  have hbytes : Mem.bytes t.mem (c / 16 * 16) 16 = Mem.bytes s.mem (c / 16 * 16) 16 :=
    List.map_congr_left fun i hi => hm _ (by have := List.mem_range.mp hi; omega)
  have hxts : ∀ cipher a x, t.xts cipher a x = s.xts cipher a x := fun _ _ _ => by simp only [State.xts, hk]
  have halt : ((List.range 16).map fun i => t.altered (c / 16 * 16 + i)) = (List.range 16).map fun i => s.altered (c / 16 * 16 + i) := by
    refine List.map_congr_left fun i hi => ?_
    have hq : (c / 16 * 16 + i) / 32 * 32 = c / 32 * 32 := by have := List.mem_range.mp hi; omega
    simp only [State.altered, hq, hd]
  have hcoded : t.codedBlock c = s.codedBlock c := by
    simp only [State.codedBlock, State.storedBlock, hbytes, hsealed, hxts, halt]
  have halt1 : t.altered c = s.altered c := by simp only [State.altered, hd]
  simp only [State.seen, hin, hint, hsealed, hcoded, hxts, halt1, hm c rfl]

/-- Two states with the same RAM: cells, errors, seals, keys, poison and registers. -/
structure SameRam (s t : State) : Prop where
  mem : t.mem = s.mem
  errs : t.errs = s.errs
  sealed : t.sealed = s.sealed
  keyGen : t.keyGen = s.keyGen
  poison : t.poison = s.poison
  regs : t.regs = s.regs

theorem SameRam.refl (s : State) : SameRam s s := ⟨rfl, rfl, rfl, rfl, rfl, rfl⟩

theorem SameRam.trans {s t u : State} (h : SameRam s t) (h' : SameRam t u) : SameRam s u :=
  ⟨h'.mem.trans h.mem, h'.errs.trans h.errs, h'.sealed.trans h.sealed, h'.keyGen.trans h.keyGen, h'.poison.trans h.poison, h'.regs.trans h.regs⟩

theorem SameRam.seen {s t : State} (h : SameRam s t) (c : Nat) : t.seen c = s.seen c :=
  seen_congr h.keyGen h.regs (by rw [h.sealed]) (by simp only [State.decoded, h.errs]) fun a _ => by rw [h.mem]

theorem sameRam_foldl {α : Type} {f : State → α → State} (h : ∀ s a, SameRam s (f s a)) : ∀ (l : List α) (s : State), SameRam s (l.foldl f s)
  | [], s => SameRam.refl s
  | a :: l, s => (h s a).trans (sameRam_foldl h l (f s a))

/-- Regions stand at multiples of 64 KiB. -/
theorem inSecure_near (s : State) {a b : Nat} (h : a / 65536 = b / 65536) : s.inSecure a = s.inSecure b := by
  simp only [State.inSecure, State.meetsSecure, Nat.add_sub_cancel, h]

theorem inSecure_atom (s : State) (a : Nat) : s.inSecure (a / 32 * 32) = s.inSecure a := inSecure_near s (by omega)

theorem decoded_of_no_errs {s : State} {q : Nat} (h : ∀ e ∈ s.errs, e.atom ≠ q) : s.decoded q = some ⟨none, 0⟩ := by
  have hnil : (s.errs.filter fun e => e.atom == q) = [] := List.filter_eq_nil_iff.mpr fun e he hq => h e he (eq_of_beq hq)
  rw [State.decoded, hnil]
  rfl

/-- A byte of an atom that has no error, and is sealed in secure memory and only there, reads as its cell. -/
theorem seen_sound {s : State} {c : Nat} (he : ∀ e ∈ s.errs, e.atom ≠ c / 32 * 32) (hs : s.sealed.contains (c / 32 * 32) = s.inSecure c) :
    s.seen c = Mem.get s.mem c := by
  have hd := decoded_of_no_errs he
  have hint : s.intact (c / 32 * 32) = s.inSecure c := by
    rw [State.intact, hs, hd]
    exact Bool.and_true _
  have halt : s.altered c = 0 := by
    rw [State.altered, hd]
    simp [byteOf]
  unfold State.seen
  rw [hint, State.sealedAt, hs, halt]
  cases s.inSecure c with
  | true => rfl
  | false => exact BitVec.xor_zero

/-- A run of bytes as its controllers deliver it. -/
theorem byteOf_look (s : State) (a : Nat) {n i : Nat} (h : i < n) : byteOf (s.look a n) i = s.seen (a + i) := by
  unfold State.look
  split
  next hp =>
    obtain ⟨hr, hs, he⟩ := hp
    rw [byteOf_read _ _ _ _ h, seen_sound]
    · rw [he]
      exact nofun
    · rw [hs, State.inSecure, State.meetsSecure, hr]
      rfl
  next => exact byteOf_leNat_range _ h

/-! ## Cells that are written -/

theorem putCells_mem (s : State) (pa n x : Nat) : (s.putCells pa n x).mem = Mem.write s.mem pa n x := rfl

theorem putCells_wf {s : State} (hw : Mem.wf s.mem = true) (pa n x : Nat) : Mem.wf (s.putCells pa n x).mem = true := write_wf n pa x hw

theorem putCells_regs (s : State) (pa n x : Nat) : (s.putCells pa n x).regs = s.regs := rfl

/-- Bytes placed in whole atoms leave what the others read as. -/
theorem seen_putCells_other {s : State} {pa n x c : Nat} (hw : Mem.wf s.mem = true) (hp : pa % 32 = 0) (hn : n % 32 = 0)
    (h : c < pa ∨ pa + n ≤ c) : (s.putCells pa n x).seen c = s.seen c := by
  have hq : (decide (pa ≤ c / 32 * 32) && decide (c / 32 * 32 + 32 ≤ pa + n)) = false := by
    rw [← Bool.decide_and]
    exact decide_eq_false (by omega)
  refine seen_congr rfl rfl ?_ ?_ fun a ha => ?_
  · have hkept : ∀ l : List Nat, (l.filter fun q => !(decide (pa ≤ q) && decide (q + 32 ≤ pa + n))).contains (c / 32 * 32) = l.contains (c / 32 * 32) :=
      fun l => by
        rw [Bool.eq_iff_iff, List.contains_iff_mem, List.contains_iff_mem, List.mem_filter, hq]
        exact and_iff_left rfl
    show (if s.inSecure pa then _ else _ : List Nat).contains _ = _
    split
    · rw [← hkept s.sealed, Bool.eq_iff_iff, List.contains_iff_mem, List.contains_iff_mem, mem_foldl_insertAsc]
      refine or_iff_left fun hm => ?_
      obtain ⟨i, hi, he⟩ := List.mem_map.mp hm
      have := List.mem_range.mp hi
      omega
    · exact hkept s.sealed
  · show codeOut _ = codeOut _
    rw [State.putCells, List.filter_filter]
    refine congrArg codeOut (List.filter_congr fun e _ => ?_)
    cases hc : e.atom == c / 32 * 32 with
    | false => rfl
    | true =>
      dsimp only
      rw [eq_of_beq hc, hq]
      rfl
  · rw [putCells_mem, Bytes.get_write hw, if_neg (by omega)]

/-- Bytes placed in one atom read back there. -/
theorem seen_putCells_within {s : State} {pa x c : Nat} (hw : Mem.wf s.mem = true) (hp : pa % 32 = 0) (h : pa ≤ c) (h' : c < pa + 32) :
    (s.putCells pa 32 x).seen c = byteOf x (c - pa) := by
  have hq : c / 32 * 32 = pa := by omega
  have hself : (decide (pa ≤ pa) && decide (pa + 32 ≤ pa + 32)) = true := by rw [decide_eq_true (Nat.le_refl _), decide_eq_true (Nat.le_refl _)]; rfl
  refine (seen_sound ?_ ?_).trans ?_
  · intro e he hatom
    have hkept := (List.mem_filter.mp he).2
    dsimp only at hkept
    rw [hatom, hq, hself] at hkept
    cases hkept
  · rw [inSecure_regs (putCells_regs s pa 32 x), ← inSecure_atom s c, hq]
    show (if s.inSecure pa then _ else _ : List Nat).contains _ = _
    cases s.inSecure pa with
    | true =>
      rw [if_pos rfl, List.contains_iff_mem, mem_foldl_insertAsc]
      exact .inr (List.mem_map.mpr ⟨0, List.mem_range.mpr (by decide), by omega⟩)
    | false =>
      rw [if_neg Bool.false_ne_true, ← Bool.not_eq_true, List.contains_iff_mem]
      intro hm
      have hkept := (List.mem_filter.mp hm).2
      dsimp only at hkept
      rw [hself] at hkept
      cases hkept
  · rw [putCells_mem, Bytes.get_write hw, if_pos ⟨h, h'⟩]

theorem sameRam_ramStore (s : State) (pa n x : Nat) (hn : n ≠ 0) : SameRam (s.putCells pa n x) (s.ramStore pa n x) := by
  unfold State.ramStore
  rw [if_neg hn]
  exact sameRam_foldl (f := fun s i => s.wake ((pa / 32 + i) * 32)) (fun _ _ => ⟨rfl, rfl, rfl, rfl, rfl, rfl⟩) _ _

/-- An atom written whole. -/
theorem seen_ramStore {s : State} {pa x : Nat} (hw : Mem.wf s.mem = true) (hp : pa % 32 = 0) (c : Nat) :
    (s.ramStore pa 32 x).seen c = if pa ≤ c ∧ c < pa + 32 then byteOf x (c - pa) else s.seen c := by
  rw [(sameRam_ramStore s pa 32 x (by decide)).seen]
  split
  next h => exact seen_putCells_within hw hp h.1 h.2
  next h => exact seen_putCells_other hw hp rfl (by omega)

/-! ## Merges (R44, R45) -/

/-- Atoms that a read checks have no error: it corrects nothing. -/
theorem scrub_of_no_errs {s : State} {pa : Nat} (h : ∀ q ∈ s.checked pa, ∀ e ∈ s.errs, e.atom ≠ q) : s.scrub pa = s := by
  unfold State.scrub
  split
  · rfl
  · refine foldl_fixed fun q hq => ?_
    rw [decoded_of_no_errs (h q hq)]
    rfl

/-- R44: the other atom of a sector, written back as it reads, reads as before. -/
theorem seen_resealMate {s : State} {pa : Nat} (hw : Mem.wf s.mem = true) (hp : pa % 32 = 0) (c : Nat) : (s.resealMate pa).seen c = s.seen c := by
  unfold State.resealMate
  extract_lets mate
  have hm : mate % 32 = 0 := by
    unfold mate
    split <;> omega
  split
  · by_cases hc : mate ≤ c ∧ c < mate + 32
    · rw [seen_putCells_within hw hm hc.1 hc.2, byteOf_look s mate (by omega), Nat.add_sub_cancel' hc.1]
    · exact seen_putCells_other hw hm rfl (by omega)
  · rfl

theorem resealMate_wf {s : State} (pa : Nat) (hw : Mem.wf s.mem = true) : Mem.wf (s.resealMate pa).mem = true := by
  unfold State.resealMate
  extract_lets mate
  split
  · exact putCells_wf hw _ _ _
  · exact hw

/-- What an atom reads as after bytes of it were stored: the enabled ones as they were stored, all others as before (R44). -/
theorem seen_atomStore {s : State} {pa : Nat} (launch : Option Nat) (mask : BitVec 32) (data : BitVec 256) (hw : Mem.wf s.mem = true)
    (hp : pa % 32 = 0) (hr : s.readOut pa = .ok) (hs : s.scrub pa = s) (c : Nat) :
    (s.atomStore launch pa mask data).seen c =
      if pa ≤ c ∧ c < pa + 32 ∧ mask.getLsbD (c - pa) = true then byteOf data.toNat (c - pa) else s.seen c := by
  unfold State.atomStore
  split
  next h0 => rw [h0, if_neg fun h => absurd h.2.2 (by simp)]
  next =>
    split
    next h1 =>
      rw [seen_ramStore hw hp]
      refine if_congr ⟨fun h => ⟨h.1, h.2, ?_⟩, fun h => ⟨h.1, h.2.1⟩⟩ rfl rfl
      rw [h1, BitVec.getLsbD_not, BitVec.getLsbD_zero, decide_eq_true (show c - pa < 32 by omega)]
      rfl
    next =>
      simp only [hr, hs]
      rw [seen_ramStore (resealMate_wf pa hw) hp, seen_resealMate hw hp]
      by_cases hc : pa ≤ c ∧ c < pa + 32
      · rw [if_pos hc, byteOf_mergeAtom _ _ _ (by omega)]
        by_cases hm : mask.getLsbD (c - pa) = true
        · rw [if_pos hm, if_pos ⟨hc.1, hc.2, hm⟩]
        · rw [if_neg hm, if_neg fun h => hm h.2.2, State.atom, byteOf_toNat_ofNat_256 _ (by omega), byteOf_look _ _ (by omega),
            Nat.add_sub_cancel' hc.1]
      · rw [if_neg hc, if_neg fun h => hc ⟨h.1, h.2.1⟩]

/-! ## A line that goes home (R74) -/

/-- What lets every merge of a line go on: no error, no poison in its atoms, and they are sealed where they lie in secure memory. -/
structure LineSound (s : State) (line : Nat) : Prop where
  wf : Mem.wf s.mem = true
  errs : s.errs = []
  clean : ∀ k, k < 4 → 128 * line + 32 * k ∉ s.poison
  kept : ∀ k, k < 4 → s.inSecure (128 * line + 32 * k) = true → 128 * line + 32 * k ∈ s.sealed

section Line

variable {s : State} {line k : Nat}

theorem sector_of_line (hk : k < 4) {q : Nat} (hq : q ∈ s.checked (128 * line + 32 * k)) :
    ∃ j, j < 4 ∧ q = 128 * line + 32 * j ∧ s.inSecure q = s.inSecure (128 * line + 32 * k) := by
  obtain ⟨j, hj, rfl⟩ : ∃ j, j < 4 ∧ q = 128 * line + 32 * j := by
    unfold State.checked sectorOf at hq
    split at hq
    · obtain rfl | hq := List.mem_cons.mp hq
      · exact ⟨k / 2 * 2, by omega, by omega⟩
      · exact ⟨k / 2 * 2 + 1, by omega, by have := List.mem_singleton.mp hq; omega⟩
    · exact ⟨k, hk, List.mem_singleton.mp hq⟩
  exact ⟨j, hj, rfl, inSecure_near s (by omega)⟩

theorem LineSound.readOut (h : LineSound s line) (hk : k < 4) : s.readOut (128 * line + 32 * k) = .ok := by
  have hd : ∀ q, s.decoded q = some ⟨none, 0⟩ := fun q => decoded_of_no_errs (by rw [h.errs]; exact nofun)
  have hbad : ((s.checked (128 * line + 32 * k)).any fun q => s.poison.contains q || (s.decoded q).isNone) = false := by
    refine List.any_eq_false.mpr fun q hq => ?_
    obtain ⟨j, hj, rfl, -⟩ := sector_of_line hk hq
    rw [hd, show s.poison.contains (128 * line + 32 * j) = false by simpa using h.clean j hj]
    exact Bool.false_ne_true
  have htag : (s.inSecure (128 * line + 32 * k) && !s.tagHolds (128 * line + 32 * k)) = false := by
    cases hsec : s.inSecure (128 * line + 32 * k) with
    | false => rfl
    | true =>
      have hall : (sectorOf (128 * line + 32 * k)).all s.intact = true := List.all_eq_true.mpr fun q hq => by
        obtain ⟨j, hj, rfl, hin⟩ := sector_of_line (q := q) hk (by rw [State.checked, if_pos hsec]; exact hq)
        rw [State.intact, hd, List.contains_iff_mem.mpr (h.kept j hj (hin.trans hsec))]
        rfl
      rw [State.tagHolds, hall]
      rfl
  rw [State.readOut, if_neg (ne_true_of_eq_false hbad), if_neg (ne_true_of_eq_false htag)]

theorem LineSound.putCells (h : LineSound s line) (hk : k < 4) (x : Nat) : LineSound (s.putCells (128 * line + 32 * k) 32 x) line where
  wf := putCells_wf h.wf _ _ _
  errs := by
    show s.errs.filter _ = []
    rw [h.errs]
    rfl
  clean j hj hm := h.clean j hj (List.mem_filter.mp hm).1
  kept j hj hin := by
    have hin' : s.inSecure (128 * line + 32 * j) = true := (inSecure_regs (putCells_regs s _ 32 x) _).symm.trans hin
    have hsame : s.inSecure (128 * line + 32 * k) = true := (inSecure_near s (by omega)).trans hin'
    show _ ∈ (if s.inSecure (128 * line + 32 * k) then _ else _ : List Nat)
    rw [if_pos hsame, mem_foldl_insertAsc, List.mem_filter]
    by_cases hjk : j = k
    · exact .inr (List.mem_map.mpr ⟨0, List.mem_range.mpr (by decide), by omega⟩)
    · refine .inl ⟨h.kept j hj hin', ?_⟩
      dsimp only
      rw [← Bool.decide_and, decide_eq_false (by omega)]
      rfl

theorem LineSound.of_sameRam {t : State} (h : LineSound s line) (hr : SameRam s t) : LineSound t line where
  wf := hr.mem ▸ h.wf
  errs := hr.errs.trans h.errs
  clean j hj := hr.poison ▸ h.clean j hj
  kept j hj hin := hr.sealed ▸ h.kept j hj ((inSecure_regs hr.regs _).symm.trans hin)

theorem LineSound.atomStore (h : LineSound s line) (hk : k < 4) (launch : Option Nat) (mask : BitVec 32) (data : BitVec 256) :
    LineSound (s.atomStore launch (128 * line + 32 * k) mask data) line := by
  have hput : ∀ x, LineSound (s.ramStore (128 * line + 32 * k) 32 x) line := fun x =>
    (h.putCells hk x).of_sameRam (sameRam_ramStore s _ 32 x (by decide))
  have hmate : s.resealMate (128 * line + 32 * k) = s := by
    unfold State.resealMate
    extract_lets mate
    refine if_neg fun hc => ?_
    obtain ⟨hsec, hnot⟩ := Bool.and_eq_true_iff.mp hc
    obtain ⟨j, hj, hm⟩ : ∃ j, j < 4 ∧ mate = 128 * line + 32 * j := by
      unfold mate
      split
      · exact ⟨k + 1, by omega, by omega⟩
      · exact ⟨k - 1, by omega, by omega⟩
    have hin : s.inSecure mate = true := (inSecure_near s (by omega)).trans hsec
    rw [List.contains_iff_mem.mpr (hm ▸ h.kept j hj (hm ▸ hin))] at hnot
    cases hnot
  unfold State.atomStore
  split
  · exact h
  · split
    · exact hput _
    · simp only [h.readOut hk, State.scrub, h.errs, if_true, hmate]
      exact hput _

end Line

/-- A byte of some atoms of a line that is dirty. -/
def DirtyIn (l : L1Line) (line : Nat) (ks : List Nat) (c : Nat) : Prop := c / 128 = line ∧ c / 32 % 4 ∈ ks ∧ l.dirty.getLsbD (c % 128) = true

theorem byteOf_dataOf (l : L1Line) {k i : Nat} (h : i < 32) : byteOf (l.dataOf k).toNat i = byteOf l.data.toNat (32 * k + i) := by
  have hp : 2 ^ (256 * k) = 256 ^ (32 * k) := by rw [show 256 * k = 8 * (32 * k) by omega, Nat.pow_mul]
  rw [L1Line.dataOf, BitVec.extractLsb'_toNat, Nat.shiftRight_eq_div_pow, show 2 ^ 256 = 256 ^ 32 from Nat.pow_mul 2 8 32, byteOf_mod _ h, hp,
    byteOf, byteOf, Nat.div_div_eq_div_mul, ← Nat.pow_add]

/-- The dirty bytes of some atoms of a line stored at their homes, one atom after the other. -/
theorem seen_foldl_atomStore {l : L1Line} (launch : Option Nat) (c : Nat) : ∀ (ks : List Nat) (s : State), LineSound s l.line → (∀ k ∈ ks, k < 4) →
    (DirtyIn l l.line ks c →
      (ks.foldl (fun s k => s.atomStore launch (l.line * 128 + 32 * k) (l.dirtyOf k) (l.dataOf k)) s).seen c = byteOf l.data.toNat (c % 128)) ∧
    (¬ DirtyIn l l.line ks c →
      (ks.foldl (fun s k => s.atomStore launch (l.line * 128 + 32 * k) (l.dirtyOf k) (l.dataOf k)) s).seen c = s.seen c)
  | [], _, _, _ => ⟨fun h => absurd h.2.1 List.not_mem_nil, fun _ => rfl⟩
  | k :: ks, s, h, hk => by
    have hk4 := hk k List.mem_cons_self
    have hstep := seen_atomStore launch (l.dirtyOf k) (l.dataOf k) h.wf (by omega) (h.readOut hk4) (by rw [State.scrub, if_pos h.errs]) c
    obtain ⟨hin, hout⟩ := seen_foldl_atomStore (l := l) launch c ks _ (h.atomStore hk4 launch (l.dirtyOf k) (l.dataOf k)) fun j hj => hk j (List.mem_cons_of_mem k hj)
    rw [Nat.mul_comm 128] at hstep hin hout
    rw [List.foldl_cons]
    by_cases hc : c / 128 = l.line ∧ c / 32 % 4 = k ∧ l.dirty.getLsbD (c % 128) = true
    · have hbit : (l.dirtyOf k).getLsbD (c - (l.line * 128 + 32 * k)) = true := by
        rw [L1Line.dirtyOf, BitVec.getLsbD_extractLsb', show 32 * k + (c - (l.line * 128 + 32 * k)) = c % 128 by omega, hc.2.2,
          decide_eq_true (by omega)]
        rfl
      have hbyte : byteOf (l.dataOf k).toNat (c - (l.line * 128 + 32 * k)) = byteOf l.data.toNat (c % 128) := by
        rw [byteOf_dataOf l (by omega), show 32 * k + (c - (l.line * 128 + 32 * k)) = c % 128 by omega]
      rw [if_pos ⟨by omega, by omega, hbit⟩, hbyte] at hstep
      refine ⟨fun _ => ?_, fun hn => absurd ⟨hc.1, hc.2.1 ▸ List.mem_cons_self, hc.2.2⟩ hn⟩
      by_cases hd : DirtyIn l l.line ks c
      · exact hin hd
      · exact (hout hd).trans hstep
    · rw [if_neg fun hx => hc ⟨by omega, by omega, by
        have hb := hx.2.2
        rw [L1Line.dirtyOf, BitVec.getLsbD_extractLsb', show 32 * k + (c - (l.line * 128 + 32 * k)) = c % 128 by omega] at hb
        exact (Bool.and_eq_true_iff.mp hb).2⟩] at hstep
      refine ⟨fun hd => hin ⟨hd.1, ?_, hd.2.2⟩, fun hn => (hout fun hd => hn ⟨hd.1, List.mem_cons_of_mem k hd.2.1, hd.2.2⟩).trans hstep⟩
      exact (List.mem_cons.mp hd.2.1).resolve_left fun he => hc ⟨hd.1, he, hd.2.2⟩

/-- A line that is written back leaves its dirty bytes at home, and no other byte reads otherwise. -/
theorem seen_flushLine {s : State} {core line : Nat} {l : L1Line} (hl : s.line? core line = some l) (h : LineSound s line) (c : Nat) :
    (s.flushLine core line).seen c =
      if c / 128 = line ∧ l.dirty.getLsbD (c % 128) = true then byteOf l.data.toNat (c % 128) else s.seen c := by
  obtain rfl : l.line = line := by
    have := List.find?_some hl
    simp only [Bool.and_eq_true, beq_iff_eq] at this
    exact this.2
  have hdrop : SameRam (s.writeBack l) (s.flushLine core l.line) := by
    unfold State.flushLine
    rw [hl]
    exact ⟨rfl, rfl, rfl, rfl, rfl, rfl⟩
  obtain ⟨hin, hout⟩ := seen_foldl_atomStore l.owner c (List.range 4) s h fun k hk => List.mem_range.mp hk
  rw [hdrop.seen]
  by_cases hc : c / 128 = l.line ∧ l.dirty.getLsbD (c % 128) = true
  · rw [if_pos hc]
    exact hin ⟨hc.1, List.mem_range.mpr (Nat.mod_lt _ (by decide)), hc.2⟩
  · rw [if_neg hc]
    exact hout fun hd => hc ⟨hd.1, hd.2.2⟩

end Sys2Proof.Proofs.Seen
end

section
/-! SUPPORT. The bytes that accesses of memory change (R43 to R53, R72 to R74, R206, R379; O55). -/

namespace Sys2Proof.Proofs.AccessFrame
open Sys2Proof Sys2Proof.Machine Sys2Proof.Stated Sys2Proof.Laws Sys2Proof.Proofs.Reports Sys2Proof.Proofs.Performing Sys2Proof.Proofs.Seen

/-! ## What changes no RAM -/

theorem sameRam_setOp (s : State) (o : Op) : SameRam s (s.setOp o) := ⟨rfl, rfl, rfl, rfl, rfl, rfl⟩

theorem sameRam_setLine (s : State) (l : L1Line) : SameRam s (s.setLine l) := ⟨rfl, rfl, rfl, rfl, rfl, rfl⟩

theorem sameRam_scPerform (s : State) (x : Access) (pa : Nat) : SameRam s (s.scPerform x pa).1 := by
  unfold State.scPerform
  split <;> exact ⟨rfl, rfl, rfl, rfl, rfl, rfl⟩

theorem sameRam_acquireOf (s : State) (o : Op) (x : Access) : SameRam s (s.acquireOf o x) := by
  unfold State.acquireOf
  split <;> exact ⟨rfl, rfl, rfl, rfl, rfl, rfl⟩

theorem sameRam_dropFlag (s : State) (o : Op) : SameRam s (s.dropFlag o) := by
  unfold State.dropFlag
  split <;> exact ⟨rfl, rfl, rfl, rfl, rfl, rfl⟩

theorem sameRam_endStore (s : State) (o : Op) (x : Access) : SameRam s (s.endStore o x) := by
  unfold State.endStore State.endOp
  split
  · exact SameRam.refl s
  · split
    · exact (sameRam_dropFlag s o).trans (sameRam_setOp _ _)
    · exact (sameRam_dropFlag s o).trans ⟨rfl, rfl, rfl, rfl, rfl, rfl⟩

theorem sameRam_l1Update (s : State) (core pa : Nat) (mask : BitVec 32) (x : BitVec 256) : SameRam s (s.l1Update core pa mask x) := by
  unfold State.l1Update
  split
  · exact sameRam_setLine s _
  · exact SameRam.refl s

/-- What an access leaves of RAM once its atom has been read or written: its operation, its clock and its core's L1 are no RAM. -/
theorem sameRam_performed (s : State) (o o' : Op) (x y : Access) (pa : Nat) :
    SameRam s (((s.scPerform x pa).1.setOp o').acquireOf o y) :=
  (sameRam_scPerform s x pa).trans ((sameRam_setOp _ _).trans (sameRam_acquireOf _ _ _))

/-! ## The L1 (R71, R74) -/

/-- RAM as it was, or but for the write-back of a line of the core. -/
def RamOrFlushed (core : Nat) (s t : State) : Prop := SameRam s t ∨ ∃ v, SameRam (s.flushLine core v) t

theorem RamOrFlushed.seen {core : Nat} {s t : State} (h : RamOrFlushed core s t) :
    (∀ c, t.seen c = s.seen c) ∨ ∃ v, ∀ c, t.seen c = (s.flushLine core v).seen c :=
  h.imp (fun h => h.seen) fun ⟨v, h⟩ => ⟨v, h.seen⟩

theorem RamOrFlushed.trans {core : Nat} {s t u : State} (h : RamOrFlushed core s t) (h' : SameRam t u) : RamOrFlushed core s u :=
  h.imp (fun h => h.trans h') fun ⟨v, h⟩ => ⟨v, h.trans h'⟩

theorem l1Room_ram (s : State) (core line : Nat) : RamOrFlushed core s (s.l1Room core line) := by
  unfold State.l1Room
  extract_lets set
  split
  · exact .inl (SameRam.refl s)
  · split
    next v _ => exact .inr ⟨v.line, ⟨rfl, rfl, rfl, rfl, rfl, rfl⟩⟩
    next => exact .inl (SameRam.refl s)

/-- Bytes that enter a line change no RAM, but that room is made for a line that was absent; the line is there afterwards. -/
theorem l1Put_ram (s : State) (core pa : Nat) (mask : BitVec 32) (x : BitVec 256) (d : Option Nat) (keep : Bool) :
    RamOrFlushed core s (s.l1Put core pa mask x d keep) ∧
      ((s.line? core (pa / 128)).isSome = true → SameRam s (s.l1Put core pa mask x d keep)) ∧
      ((s.l1Put core pa mask x d keep).line? core (pa / 128)).isSome = true := by
  unfold State.l1Put
  extract_lets line k
  cases hl : s.line? core line with
  | some l =>
    obtain ⟨hcore, hline⟩ : l.core = core ∧ l.line = line := by simpa using List.find?_some hl
    have hset := sameRam_setLine s (l.setAtom k (if keep then mask &&& ~~~ l.validOf k else mask) x d)
    refine ⟨.inl hset, fun _ => hset, ?_⟩
    have hfound := Prefetching.line?_setLine s (l.setAtom k (if keep then mask &&& ~~~ l.validOf k else mask) x d)
    rw [show (l.setAtom k (if keep then mask &&& ~~~ l.validOf k else mask) x d).core = core from hcore,
      show (l.setAtom k (if keep then mask &&& ~~~ l.validOf k else mask) x d).line = line from hline] at hfound
    exact Option.isSome_of_eq_some hfound
  | none =>
    refine ⟨(l1Room_ram s core line).trans (sameRam_setLine _ _), fun h => absurd h Bool.false_ne_true, ?_⟩
    exact Option.isSome_of_eq_some (Prefetching.line?_setLine (s.l1Room core line) ((L1Line.mk core line 0 0 0 none).setAtom k mask x d))

/-- Errors only go by being written over or corrected. -/
theorem errs_calm : Calm fun s t => s.errs = [] → t.errs = [] where
  refl _ h := h
  trans h h' h0 := h' (h h0)
  wake _ _ h := h
  cells s pa n x h := by
    show s.errs.filter _ = []
    rw [h]
    rfl
  send _ _ h := h
  stray _ _ h := h
  events _ _ _ _ _ h := h
  ring _ _ h := h
  pending _ _ h := h
  celog _ _ h := h
  errs s p h := by
    show s.errs.filter p = []
    rw [h]
    rfl

theorem errs_flushLine {s : State} (core line : Nat) (h : s.errs = []) : (s.flushLine core line).errs = [] := by
  unfold State.flushLine
  split
  · exact foldl_calm errs_calm _ (fun t k => atomStore_calm errs_calm t _ _ _ _) _ s h
  · exact h

theorem scrub_of_nil {s : State} (pa : Nat) (h : s.errs = []) : s.scrub pa = s := by rw [State.scrub, if_pos h]

/-- With no error to correct, a line that is filled changes no RAM, but that room is made for it. -/
theorem foldl_fillAtom_ram {core pa : Nat} : ∀ (ks : List Nat) (s : State), s.errs = [] → (∀ k ∈ ks, k < 4) →
    RamOrFlushed core s (ks.foldl (Prefetching.fillAtom core pa) s) ∧
      ((s.line? core (pa / 128)).isSome = true → SameRam s (ks.foldl (Prefetching.fillAtom core pa) s))
  | [], s, _, _ => ⟨.inl (SameRam.refl s), fun _ => SameRam.refl s⟩
  | k :: ks, s, he, hk => by
    have hk4 := hk k List.mem_cons_self
    have hrest := fun j hj => hk j (List.mem_cons_of_mem k hj)
    rw [List.foldl_cons]
    by_cases hr : s.readOut (pa / 128 * 128 + 32 * k) = .ok
    · obtain ⟨hput, hsame, hthere⟩ := l1Put_ram s core (pa / 128 * 128 + 32 * k) (~~~ 0#32) (s.atom (pa / 128 * 128 + 32 * k)) none true
      have hstep : Prefetching.fillAtom core pa s k = s.l1Put core (pa / 128 * 128 + 32 * k) (~~~ 0#32) (s.atom (pa / 128 * 128 + 32 * k)) none true := by
        unfold Prefetching.fillAtom
        simp only [hr, scrub_of_nil _ he, beq_self_eq_true, if_true]
      rw [show (pa / 128 * 128 + 32 * k) / 128 = pa / 128 by omega] at hsame hthere
      rw [hstep]
      have herrs : (s.l1Put core (pa / 128 * 128 + 32 * k) (~~~ 0#32) (s.atom (pa / 128 * 128 + 32 * k)) none true).errs = [] :=
        hput.elim (fun h => h.errs.trans he) fun ⟨v, h⟩ => h.errs.trans (errs_flushLine core v he)
      have hlast := (foldl_fillAtom_ram ks _ herrs hrest).2 hthere
      exact ⟨hput.trans hlast, fun h => (hsame h).trans hlast⟩
    · have hstep : Prefetching.fillAtom core pa s k = s := if_neg fun hc => hr (eq_of_beq hc)
      rw [hstep]
      exact foldl_fillAtom_ram ks s he hrest

theorem fillLine_ram {s : State} (core pa : Nat) (he : s.errs = []) : RamOrFlushed core s (s.fillLine core pa) := by
  rw [Prefetching.fillLine_eq]
  exact (foldl_fillAtom_ram _ s he fun k hk => List.mem_range.mp hk).1

/-! ## Stores -/

/-- A store's atom performed at its home. -/
theorem seen_homeWrite {s : State} {u run : Nat} {pa : Nat} {mask : BitVec 32} (data : BitVec 256) (h0 : mask ≠ 0) {m : State}
    (hm : s.armWrite u run pa = m) (hw : Mem.wf m.mem = true) (hp : m.viewOf u run pa % 32 = 0) (hr : m.readOut (m.viewOf u run pa) = .ok)
    (he : ∀ q ∈ m.checked (m.viewOf u run pa), ∀ e ∈ m.errs, e.atom ≠ q) (c : Nat) :
    (s.homeWrite (some (u, run)) pa mask data).seen c =
      if m.viewOf u run pa ≤ c ∧ c < m.viewOf u run pa + 32 ∧ mask.getLsbD (c - m.viewOf u run pa) = true
      then byteOf data.toNat (c - m.viewOf u run pa) else m.seen c := by
  unfold State.homeWrite
  rw [if_neg h0]
  simp only [hm]
  exact seen_atomStore (some u) mask data hw hp hr (scrub_of_no_errs he) c

/-- What the frame says of a store's atom: at its home, or in the L1. -/
theorem storeFrame {s : State} {o : Op} {x : Access} {i : Nat} {a : AtomAcc} (ho : s.op? o.uid = some o) (hk : o.kind = .store x)
    (ha : x.atoms[i]? = some a) (hd : a.done = false) (hmask : a.mask ≠ 0) (hf : s.orderFree o x a false = true)
    (hc : s.coreFree o (s.viewOf o.launch o.run a.pa) = true) (hr : s.kindOf (s.viewOf o.launch o.run a.pa) = .ram) :
    let held := s.heldBy o.place.core (s.viewOf o.launch o.run a.pa)
    (∀ m, (held && x.usesL1 a true) = false →
      (if held then s.flushLine o.place.core (s.viewOf o.launch o.run a.pa / 128) else s).armWrite o.launch o.run a.pa = m →
      Mem.wf m.mem = true → m.viewOf o.launch o.run a.pa % 32 = 0 → m.readOut (m.viewOf o.launch o.run a.pa) = .ok →
      (∀ q ∈ m.checked (m.viewOf o.launch o.run a.pa), ∀ e ∈ m.errs, e.atom ≠ q) → ∀ c, (atomWrite o.uid i s).seen c =
        if m.viewOf o.launch o.run a.pa ≤ c ∧ c < m.viewOf o.launch o.run a.pa + 32 ∧ a.mask.getLsbD (c - m.viewOf o.launch o.run a.pa) = true
        then byteOf a.data.toNat (c - m.viewOf o.launch o.run a.pa) else m.seen c) ∧
    ((held && x.usesL1 a true) = true → RamOrFlushed o.place.core (s.armWrite o.launch o.run a.pa) (atomWrite o.uid i s)) := by
  intro held
  have hend : SameRam (s.coreStore o.place.core o.launch o.run (x.usesL1 a true) a.pa a.mask a.data) (atomWrite o.uid i s) := by
    rw [atomWrite_ram ho hk ha hd hf hc hr]
    exact (sameRam_performed _ _ _ _ _ _).trans (sameRam_endStore _ _ _)
  rw [coreStore_eq] at hend
  refine ⟨fun m hl1 hm hw hp hok he c => ?_, fun hl1 => ?_⟩
  · dsimp only at hend
    rw [if_neg (ne_true_of_eq_false hl1)] at hend
    rw [hend.seen, (sameRam_l1Update _ _ _ _ _).seen]
    exact seen_homeWrite a.data hmask hm hw hp hok he c
  · dsimp only at hend
    rw [if_pos hl1] at hend
    exact (l1Put_ram _ _ _ _ _ _ _).1.trans hend

/-! ## Atomics -/

/-- An atomic's atom that may not be performed yet: nothing happens. -/
theorem atomicPerform_waits {s : State} {o : Op} {k : AtomKind} {x : Access} {ls : List AtomLane} {sat : Bool} {fps : BitVec 6} {i : Nat}
    {a : AtomAcc} (ho : s.op? o.uid = some o) (hk : o.kind = .atomic k x ls sat fps) (ha : x.atoms[i]? = some a)
    (h : (a.done || !s.orderFree o x a false || !s.coreFree o (s.viewOf o.launch o.run a.pa)) = true) : atomicPerform o.uid i s = s := by
  unfold atomicPerform
  simp only [ho, hk, ha, h, if_true]

/-- What the frame says of an atomic's atom. -/
theorem atomicFrame {s : State} {o : Op} {k : AtomKind} {x : Access} {ls : List AtomLane} {sat : Bool} {fps : BitVec 6} {i : Nat} {a : AtomAcc}
    (ho : s.op? o.uid = some o) (hk : o.kind = .atomic k x ls sat fps) (ha : x.atoms[i]? = some a)
    (hr : s.kindOf (s.viewOf o.launch o.run a.pa) = .ram) {f m : State} (hf : lineHome s o (s.viewOf o.launch o.run a.pa) = f)
    (hm : f.armWrite o.launch o.run a.pa = m) (hok₀ : f.readOut (s.viewOf o.launch o.run a.pa) = .ok)
    (he₀ : ∀ q ∈ f.checked (s.viewOf o.launch o.run a.pa), ∀ e ∈ f.errs, e.atom ≠ q) (hw : Mem.wf m.mem = true)
    (hp : m.viewOf o.launch o.run a.pa % 32 = 0) (hok : m.readOut (m.viewOf o.launch o.run a.pa) = .ok)
    (he : ∀ q ∈ m.checked (m.viewOf o.launch o.run a.pa), ∀ e ∈ m.errs, e.atom ≠ q) :
    atomicPerform o.uid i s = s ∨ (∀ c, (atomicPerform o.uid i s).seen c = f.seen c) ∨
      ∀ c, c < m.viewOf o.launch o.run a.pa ∨ m.viewOf o.launch o.run a.pa + 32 ≤ c → (atomicPerform o.uid i s).seen c = m.seen c := by
  cases hgo : a.done || !s.orderFree o x a false || !s.coreFree o (s.viewOf o.launch o.run a.pa) with
  | true => exact .inl (atomicPerform_waits ho hk ha hgo)
  | false =>
    simp only [Bool.or_eq_false_iff, Bool.not_eq_false'] at hgo
    obtain ⟨⟨hd, ho'⟩, hc⟩ := hgo
    have hperf := atomicPerform_ok ho hk ha hd ho' hc hr hf hok₀
    extract_lets pa r t u p y at hperf
    have ht : t = f := scrub_of_no_errs he₀
    have hend : SameRam u (atomicPerform o.uid i s) := by
      rw [hperf]
      exact sameRam_performed u _ _ _ _ _
    by_cases h0 : r.2.1 = 0
    · refine .inr (.inl fun c => hend.seen c |>.trans ?_)
      unfold u
      rw [if_pos h0, ht]
      exact (sameRam_l1Update f _ _ _ _).seen c
    · refine .inr (.inr fun c hout => hend.seen c |>.trans ?_)
      unfold u
      rw [if_neg h0, (sameRam_l1Update _ _ _ _ _).seen, ht]
      exact (seen_homeWrite r.1 h0 hm hw hp hok he c).trans (if_neg (by omega))

/-! ## Loads -/

theorem atomRead_waits {s : State} {o : Op} {x : Access} {i : Nat} {a : AtomAcc} (ext : BitVec 256) (ho : s.op? o.uid = some o)
    (hk : o.kind = .load x) (ha : x.atoms[i]? = some a) (h : (a.done ||
      !s.orderFree o x a (x.usesL1 a (s.heldBy o.place.core (s.viewOf o.launch o.run a.pa))) ||
      s.kindOf (s.viewOf o.launch o.run a.pa) == .aperture || !s.coreFree o (s.viewOf o.launch o.run a.pa)) = true) :
    atomRead o.uid i ext s = s := by
  unfold atomRead
  simp only [ho, hk, ha, h, if_true]

/-- A read at the home of an atom that can be read, with no error to correct. -/
theorem homeRead_ok {s : State} (o : Op) {pa : Nat} (h : s.readOut pa = .ok) (he : s.errs = []) : s.homeRead o pa = (s.atom pa, true, s) := by
  unfold State.homeRead
  simp only [h, scrub_of_nil pa he]

theorem ramRead_l1 {s : State} {o : Op} {x : Access} {a : AtomAcc} (he : s.errs = [])
    (hl : x.usesL1 a (s.heldBy o.place.core (s.viewOf o.launch o.run a.pa)) = true) (hr : s.readOut (s.viewOf o.launch o.run a.pa) = .ok) :
    RamOrFlushed o.place.core s (s.ramRead o x a).2.2 := by
  unfold State.ramRead
  simp only [hl, if_true, homeRead_ok o hr he]
  cases s.l1Hit o.place.core (s.viewOf o.launch o.run a.pa) a.mask with
  | some d =>
    dsimp only
    exact .inl (SameRam.refl s)
  | none =>
    dsimp only
    exact fillLine_ram _ _ he

theorem ramRead_pastL1 {s f : State} {o : Op} {x : Access} {a : AtomAcc} (he : f.errs = [])
    (hl : x.usesL1 a (s.heldBy o.place.core (s.viewOf o.launch o.run a.pa)) = false) (hf : lineHome s o (s.viewOf o.launch o.run a.pa) = f)
    (hr : f.readOut (s.viewOf o.launch o.run a.pa) = .ok) : SameRam f (s.ramRead o x a).2.2 := by
  unfold lineHome at hf
  unfold State.ramRead
  simp only [hl, Bool.false_eq_true, if_false, hf, homeRead_ok o hr he, if_true]
  exact sameRam_l1Update f _ _ _ _

/-- What the frame says of a load's atom. -/
theorem loadFrame {s : State} {o : Op} {x : Access} {i : Nat} {a : AtomAcc} (ext : BitVec 256) (he : s.errs = []) (ho : s.op? o.uid = some o)
    (hk : o.kind = .load x) (ha : x.atoms[i]? = some a) (hr : s.kindOf (s.viewOf o.launch o.run a.pa) = .ram) {l1 : Bool}
    (hl : x.usesL1 a (s.heldBy o.place.core (s.viewOf o.launch o.run a.pa)) = l1) {f : State}
    (hf : (if s.heldBy o.place.core (s.viewOf o.launch o.run a.pa) && !l1 then
      s.flushLine o.place.core (s.viewOf o.launch o.run a.pa / 128) else s) = f) (hok : f.readOut (s.viewOf o.launch o.run a.pa) = .ok) :
    (l1 = false → atomRead o.uid i ext s = s ∨ (atomRead o.uid i ext s).mem = f.mem) ∧
      (l1 = true → RamOrFlushed o.place.core s (atomRead o.uid i ext s)) := by
  cases hgo : a.done || !s.orderFree o x a (x.usesL1 a (s.heldBy o.place.core (s.viewOf o.launch o.run a.pa))) ||
      s.kindOf (s.viewOf o.launch o.run a.pa) == .aperture || !s.coreFree o (s.viewOf o.launch o.run a.pa) with
  | true =>
    rw [atomRead_waits ext ho hk ha hgo]
    exact ⟨fun _ => .inl rfl, fun _ => .inl (SameRam.refl s)⟩
  | false =>
    simp only [Bool.or_eq_false_iff, Bool.not_eq_false'] at hgo
    obtain ⟨⟨⟨hd, ho'⟩, -⟩, hc⟩ := hgo
    rw [atomRead_ram ext ho hk ha hd ho' hr hc]
    have hend := sameRam_performed (s.ramRead o x a).2.2 o { o with kind := .load (((s.ramRead o x a).2.2.scPerform x
      (s.viewOf o.launch o.run a.pa)).2.setAtom i { a with data := (s.ramRead o x a).1, done := true, bad := !(s.ramRead o x a).2.1 }) } x
      (((s.ramRead o x a).2.2.scPerform x (s.viewOf o.launch o.run a.pa)).2.setAtom i
        { a with data := (s.ramRead o x a).1, done := true, bad := !(s.ramRead o x a).2.1 }) (s.viewOf o.launch o.run a.pa)
    cases l1 with
    | true =>
      rw [Bool.not_true, Bool.and_false, if_neg Bool.false_ne_true] at hf
      subst hf
      exact ⟨nofun, fun _ => (ramRead_l1 he hl hok).trans hend⟩
    | false =>
      rw [Bool.not_false, Bool.and_true] at hf
      have herrs : f.errs = [] := by
        rw [← hf]
        split
        · exact errs_flushLine _ _ he
        · exact he
      exact ⟨fun _ => .inr ((ramRead_pastL1 herrs hl hf hok).trans hend).mem, nofun⟩

/-! ## Armed granules (R379) -/

theorem seen_poison (s : State) (p : List Nat) (c : Nat) : ({ s with poison := p } : State).seen c = s.seen c :=
  seen_congr rfl rfl rfl rfl fun _ _ => rfl

theorem seen_copyPage {s : State} (src : Nat) {dst : Nat} (hw : Mem.wf s.mem = true) (hd : dst % 4096 = 0) {c : Nat} (h : c < dst ∨ dst + 4096 ≤ c) :
    (s.copyPage src dst).seen c = s.seen c := by
  unfold State.copyPage
  dsimp only
  rw [seen_poison, (sameRam_ramStore s dst 4096 _ (by decide)).seen, seen_putCells_other hw (by omega) (by decide) h]

theorem copyPage_wf {s : State} (src dst : Nat) (hw : Mem.wf s.mem = true) : Mem.wf (s.copyPage src dst).mem = true := by
  have h := putCells_wf hw dst 4096 (s.look src 4096)
  rw [← (sameRam_ramStore s dst 4096 _ (by decide)).mem] at h
  exact h

/-- The bytes of a run of eight are those that its mask enables in their atom. -/
theorem of_atomPart_mask {e x i : Nat} (he : e % 8 = 0) (h : (atomPart e 8 x (e / 32 * 32)).1.getLsbD i = true) : e % 32 ≤ i ∧ i < e % 32 + 8 := by
  have hlo : max e (e / 32 * 32) - e / 32 * 32 = e % 32 := by omega
  have hhi : min (e + 8) (e / 32 * 32 + 32) - e / 32 * 32 = e % 32 + 8 := by omega
  rw [atomPart, hlo, hhi, BitVec.getLsbD_ofNat, Nat.pow_add, ← Nat.mul_sub_one, Nat.testBit_two_pow_mul, Nat.testBit_two_pow_sub_one] at h
  simp only [Bool.and_eq_true, decide_eq_true_eq] at h
  omega

theorem seen_storeAt_word {s : State} (u : Option Nat) {e : Nat} (x : Nat) (he : e % 8 = 0) (hw : Mem.wf s.mem = true)
    (hr : s.readOut (e / 32 * 32) = .ok) (hs : s.scrub (e / 32 * 32) = s) {c : Nat} (h : c < e ∨ e + 8 ≤ c) :
    (s.storeAt u e 8 x).seen c = s.seen c := by
  have hone : (e + 8 - 1) / 32 - e / 32 + 1 = 1 := by omega
  unfold State.storeAt State.eachAtom
  rw [if_neg (by decide), hone, List.range_one, List.foldl_cons, List.foldl_nil, Nat.add_zero, seen_atomStore u _ _ hw (by omega) hr hs]
  refine if_neg fun hc => ?_
  have := of_atomPart_mask he hc.2.2
  omega

theorem armFrame {s : State} {u run pa : Nat} {l : Launch} (hl : s.launch? u = some l) :
    ((∀ g, l.granule? run pa = some g → g.armed = false) → s.armWrite u run pa = s) ∧
    ∀ g, l.granule? run pa = some g → g.armed = true →
      (l.poolN ≤ l.poolNext → (s.armWrite u run pa).mem = s.mem) ∧
      (l.poolNext < l.poolN → l.poolBase % 4096 = 0 → Mem.wf s.mem = true →
        let fr := l.poolBase + 4096 * l.poolNext
        let e := l.poolBase + 4096 * l.poolN + 8 * l.poolNext
        let k := s.copyPage g.pa fr
        k.readOut (e / 32 * 32) = .ok → (∀ q ∈ k.checked (e / 32 * 32), ∀ x ∈ k.errs, x.atom ≠ q) →
        ∀ c, (c < fr ∨ fr + 4096 ≤ c) → (c < e ∨ e + 8 ≤ c) → (s.armWrite u run pa).seen c = s.seen c) := by
  refine ⟨fun h => ?_, fun g hg ha => ⟨fun hfull => ?_, fun hroom hbase hw => ?_⟩⟩
  · unfold State.armWrite
    simp only [hl]
    cases hg : l.granule? run pa with
    | none => rfl
    | some g => simp only [h g hg, Bool.not_false, if_true]
  · unfold State.armWrite
    simp only [hl, hg, ha, Bool.not_true, Bool.false_eq_true, if_false, if_neg (Nat.not_lt.mpr hfull)]
    rfl
  · intro fr e k hr he c hfr hce
    have harm : SameRam (k.storeAt (some u) e 8 g.pa) (s.armWrite u run pa) := by
      unfold State.armWrite
      simp only [hl, hg, ha, Bool.not_true, Bool.false_eq_true, if_false, if_pos hroom]
      exact ⟨rfl, rfl, rfl, rfl, rfl, rfl⟩
    rw [harm.seen, seen_storeAt_word (s := k) (some u) g.pa (by omega) (copyPage_wf _ _ hw) hr (scrub_of_no_errs he) hce]
    exact seen_copyPage g.pa hw (by omega) hfr

/-! ## Atoms of accesses -/

theorem addByte_aligned {pa cc : Nat} {x : Byte} : ∀ {as : List AtomAcc}, (∀ a ∈ as, a.pa % 32 = 0) → ∀ a ∈ addByte pa cc x as, a.pa % 32 = 0
  | [], _, a, ha => by
    obtain rfl := List.mem_singleton.mp ha
    exact Nat.mul_mod_left _ _
  | b :: as, h, a, ha => by
    have hb := h b List.mem_cons_self
    have hrest := fun y hy => h y (List.mem_cons_of_mem b hy)
    unfold addByte at ha
    split at ha
    · obtain rfl | ha := List.mem_cons.mp ha
      · exact hb
      · exact hrest a ha
    · obtain rfl | ha := List.mem_cons.mp ha
      · exact hb
      · exact addByte_aligned hrest a ha

theorem atomsOf_aligned (cells : List ((Nat × Nat) × Byte)) : ∀ a ∈ atomsOf cells, a.pa % 32 = 0 := by
  have hfold : ∀ (cells : List ((Nat × Nat) × Byte)) (as : List AtomAcc), (∀ a ∈ as, a.pa % 32 = 0) →
      ∀ a ∈ cells.foldl (fun as x => addByte x.1.1 x.1.2 x.2 as) as, a.pa % 32 = 0 := fun cells => by
    induction cells with
    | nil => exact fun _ h => h
    | cons x cells ih => exact fun as h => ih _ (addByte_aligned h)
  exact hfold cells [] nofun

/-- Settles O55: the frame of each kind of access, of an armed granule and of a line, and the alignment of atoms. -/
theorem memoryFrame : Obligations.MemoryFrame := by
  refine ⟨fun s₀ s es o x i a hs ho hk ha hd hmask hf hc hr => ?_, fun s₀ s es o k x ls sat fps i a hs ho hk ha hr => ?_,
    fun s₀ s es o x i a ext hs he ho hk ha hr => ?_, fun s u run pa l hl => armFrame hl, fun s core line l hl hw he hatoms c => ?_, atomsOf_aligned⟩
  · obtain ⟨hhome, hl1⟩ := storeFrame ho hk ha hd hmask hf hc hr
    have hexec : exec (.atomWritePerformed o.uid i es) s₀ = .next (atomWrite o.uid i s) := next_eq (congrArg (atomWrite o.uid i) hs)
    intro core held
    refine ⟨fun h => ?_, fun h => ?_⟩
    · intro f m pa hw hp hok he
      have hnot : (held && x.usesL1 a true) = false := by
        rw [of_decide_eq_true (Bool.and_eq_true_iff.mp h).2, Bool.and_false]
      exact ⟨_, hexec, hhome m hnot rfl hw hp hok he⟩
    · have hin : (held && x.usesL1 a true) = true := by
        rw [(Bool.and_eq_true_iff.mp h).1, of_decide_eq_true (Bool.and_eq_true_iff.mp h).2]
        rfl
      exact ⟨_, hexec, (hl1 hin).seen⟩
  · have hexec : exec (.atomicPerformed o.uid i es) s₀ = .next (atomicPerform o.uid i s) := next_eq (congrArg (atomicPerform o.uid i) hs)
    intro pa₀ f m pa hok₀ he₀ hw hp hok he
    exact ⟨_, hexec, atomicFrame ho hk ha hr rfl rfl hok₀ he₀ hw hp hok he⟩
  · have hexec : exec (.atomReadPerformed o.uid i es ext) s₀ = .next (atomRead o.uid i ext s) := next_eq (congrArg (atomRead o.uid i ext) hs)
    intro core pa l1 f hok
    obtain ⟨hpast, hin⟩ := loadFrame ext he ho hk ha hr rfl rfl hok
    exact ⟨_, hexec, hpast, fun h => (hin h).seen⟩
  · exact seen_flushLine hl ⟨hw, he, fun k hk => (hatoms k hk).1, fun k hk => (hatoms k hk).2⟩ c

end Sys2Proof.Proofs.AccessFrame
end

section
/-! SUPPORT. What it takes for a part of the model to keep the canonical form of a state's data, and the operations of memory, L1, translation,
registers, traps, issue, fetch, loads, stores, atomics and control flow that keep it. -/

namespace Sys2Proof.Proofs.Form

open Sys2Proof Sys2Proof.Machine Sys2Proof.Laws

/-- The result of a computation, when it has one, has the property. -/
def Yields {α : Type} (P : α → Prop) (x : Try α) : Prop := ∀ a, x = .ok a → P a

/-- The value, when there is one, has the property. -/
def Gives {α : Type} (P : α → Prop) (x : Option α) : Prop := ∀ a, x = some a → P a

/-- The data of a state are in canonical form. -/
abbrev Formed (s : State) : Prop := s.wf = true

/-- The state that a word's meaning ends with. -/
def finState : Fin' → State
  | .next s | .jump s _ _ | .leave s _ _ | .gone s | .waiting s => s

/-- The state that a word's meaning ends with is in canonical form. -/
def FinFormed (r : Fin') : Prop := (finState r).wf = true

/-- A machine that goes on has its data in canonical form. -/
def NextFormed (x : Host.Outcome State Fault Refusal) : Prop := ∀ t, x = .next t → t.wf = true

theorem yields_ok {α : Type} {P : α → Prop} {a : α} (h : P a) : Yields P (.ok a) := by
  rintro _ ⟨⟩
  exact h

theorem yields_pure {α : Type} {P : α → Prop} {a : α} (h : P a) : Yields P (pure a) := yields_ok h

theorem yields_error {α : Type} {P : α → Prop} {e : Stop} : Yields P (.error e) := fun _ h => nomatch h

theorem yields_any {α : Type} {x : Try α} : Yields (fun _ => True) x := fun _ _ => trivial

theorem yields_bind {α β : Type} {P : α → Prop} {Q : β → Prop} {x : Try α} {f : α → Try β} (hx : Yields P x)
    (hf : ∀ a, P a → Yields Q (f a)) : Yields Q (x >>= f) := by
  intro b hb
  cases x with
  | error e => nomatch hb
  | ok a => exact hf a (hx a rfl) b hb

/-- A computation whose result holds no state may come first. -/
theorem yields_after {α β : Type} {Q : β → Prop} {x : Try α} {f : α → Try β} (hf : ∀ a, Yields Q (f a)) : Yields Q (x >>= f) :=
  yields_bind yields_any fun a _ => hf a

theorem gives_some {α : Type} {P : α → Prop} {a : α} (h : P a) : Gives P (some a) := by
  rintro _ ⟨⟩
  exact h

theorem gives_none {α : Type} {P : α → Prop} : Gives P none := fun _ h => nomatch h

theorem gives_bind {α β : Type} {P : α → Prop} {Q : β → Prop} {x : Option α} {f : α → Option β} (hx : Gives P x)
    (hf : ∀ a, P a → Gives Q (f a)) : Gives Q (x >>= f) := by
  intro b hb
  cases x with
  | none => nomatch hb
  | some a => exact hf a (hx a rfl) b hb

theorem gives_after {α β : Type} {Q : β → Prop} {x : Option α} {f : α → Option β} (hf : ∀ a, Gives Q (f a)) : Gives Q (x >>= f) :=
  gives_bind (P := fun _ => True) (fun _ _ => trivial) fun a _ => hf a

theorem gives_mapOf {α β : Type} {P : α → Prop} {Q : β → Prop} {x : Option α} {f : α → β} (hx : Gives P x) (hf : ∀ a, P a → Q (f a)) :
    Gives Q (x.map f) := by
  intro b hb
  cases x with
  | none => nomatch hb
  | some a => exact Option.some.inj hb ▸ hf a (hx a rfl)

theorem gives_map {α β : Type} {P : β → Prop} {x : Option α} {f : α → β} (hf : ∀ a, P (f a)) : Gives P (x.map f) := by
  intro b hb
  cases x with
  | none => nomatch hb
  | some a => exact Option.some.inj hb ▸ hf a

theorem gives_findSome {α β : Type} {P : β → Prop} {f : α → Option β} (hf : ∀ a, Gives P (f a)) (l : List α) :
    Gives P (l.findSome? f) := by
  intro b hb
  obtain ⟨a, _, ha⟩ := List.exists_of_findSome?_eq_some hb
  exact hf a b ha

theorem gives_foldlM {α : Type} {f : State → α → Option State} (hf : ∀ t x, t.wf = true → Gives Formed (f t x)) :
    ∀ (l : List α) {s : State}, s.wf = true → Gives Formed (l.foldlM f s)
  | [], _, h => gives_some h
  | x :: l, s, h => by
    rw [List.foldlM_cons]
    exact gives_bind (hf s x h) fun t ht => gives_foldlM hf l ht

theorem next_formed {t : State} (h : t.wf = true) : NextFormed (.next t) := by
  rintro _ ⟨⟩
  exact h

theorem ite_form {c : Prop} [Decidable c] {s t : State} (hs : s.wf = true) (ht : t.wf = true) : (if c then s else t).wf = true := by
  split
  · exact hs
  · exact ht

theorem fst_form {α : Type} {p : State × α} {s : State} {a : α} (h : p.1.wf = true) (e : p = (s, a)) : s.wf = true := by
  subst e
  exact h

theorem snd_form {α : Type} {p : α × State} {s : State} {a : α} (h : p.2.wf = true) (e : p = (a, s)) : s.wf = true := by
  subst e
  exact h

theorem snd_snd_form {α β : Type} {p : α × β × State} {s : State} {a : α} {b : β} (h : p.2.2.wf = true) (e : p = (a, b, s)) :
    s.wf = true := by
  subst e
  exact h

theorem foldl_fst {α β : Type} {f : State × β → α → State × β} (hf : ∀ p x, p.1.wf = true → (f p x).1.wf = true) :
    ∀ (l : List α) {p : State × β}, p.1.wf = true → (l.foldl f p).1.wf = true
  | [], _, h => h
  | x :: l, _, h => foldl_fst hf l (hf _ x h)

theorem foldl_building {α : Type} {f : Building → α → Building} (hf : ∀ p x, p.s.wf = true → (f p x).s.wf = true) :
    ∀ (l : List α) {p : Building}, p.s.wf = true → (l.foldl f p).s.wf = true
  | [], _, h => h
  | x :: l, _, h => foldl_building hf l (hf _ x h)

theorem foldl_gives {α : Type} {f : Option State → α → Option State} (hf : ∀ p x, Gives Formed p → Gives Formed (f p x)) :
    ∀ (l : List α) {p : Option State}, Gives Formed p → Gives Formed (l.foldl f p)
  | [], _, h => h
  | x :: l, _, h => foldl_gives hf l (hf _ x h)

/-! ## The operations -/

theorem writeBar_form {s : State} {k : ℕ} {v mask : W32} (h : s.wf = true) : (s.writeBar k v mask).wf = true := by
  unfold State.writeBar
  split
  · exact wf_of h rfl rfl rfl rfl
  · exact h

theorem setLaunch_form {s : State} {l : Launch} (h : s.wf = true) : (s.setLaunch l).wf = true := wf_of h rfl rfl rfl rfl

theorem setWg_form {s : State} {w : Workgroup} (h : s.wf = true) : (s.setWg w).wf = true := wf_of h rfl rfl rfl rfl

theorem setOp_form {s : State} {o : Op} (h : s.wf = true) : (s.setOp o).wf = true := wf_of h rfl rfl rfl rfl

theorem setBand_form {s : State} {b : Band} (h : s.wf = true) : (s.setBand b).wf = true := wf_of h rfl rfl rfl rfl

theorem modBand_form {s : State} {u : ℕ} {f : Band → Band} (h : s.wf = true) : (s.modBand u f).wf = true := wf_of h rfl rfl rfl rfl

theorem modLaunch_form {s : State} {u : ℕ} {f : Launch → Launch} (h : s.wf = true) : (s.modLaunch u f).wf = true :=
  wf_of h rfl rfl rfl rfl

theorem modWg_form {s : State} {u : ℕ} {f : Workgroup → Workgroup} (h : s.wf = true) : (s.modWg u f).wf = true := wf_of h rfl rfl rfl rfl

theorem dropOp_form {s : State} {u : ℕ} (h : s.wf = true) : (s.dropOp u).wf = true := wf_of h rfl rfl rfl rfl

theorem strike_form {s : State} {atom sym : ℕ} {err : Byte} (h : s.wf = true) : (s.strike atom sym err).wf = true :=
  wf_of h rfl rfl rfl rfl

theorem strikes_form {s : State} {es : List SymErr} (h : s.wf = true) : (s.strikes es).wf = true :=
  foldl_wf (fun _ _ hx => strike_form hx) _ h

theorem dropLines_form {s : State} {drop : L1Line → Bool} (h : s.wf = true) : (s.dropLines drop).wf = true := wf_of h rfl rfl rfl rfl

theorem invalidateL1_form {s : State} {core : ℕ} (h : s.wf = true) : (s.invalidateL1 core).wf = true := dropLines_form h

theorem tick_form {s : State} {n : ℕ} (h : s.wf = true) : (s.tick n).wf = true := wf_of h rfl rfl rfl rfl

theorem sumBit_form {s : State} {u bit : ℕ} (h : s.wf = true) : (s.sumBit u bit).wf = true := modLaunch_form h

theorem decideKill_form {s : State} {u : ℕ} {c : KillCause} (h : s.wf = true) : (s.decideKill u c).wf = true := modLaunch_form h

theorem postWrite_form {s : State} {cells : List (ℕ × Byte)} {secure : Bool} (h : s.wf = true) :
    (s.postWrite cells secure).wf = true := wf_of h rfl rfl rfl rfl

theorem physTouch_form {s : State} {pa n : ℕ} {secure : Bool} (h : s.wf = true) : (s.physTouch pa n secure).wf = true := by
  unfold State.physTouch
  split
  · exact send_form h _
  split
  · exact h
  refine foldl_wf (fun _ _ hx => ?_) _ h
  split
  · exact secureEvent_form hx _
  split
  · exact scrub_form hx _
  · exact hx

theorem copyPage_form {s : State} {src dst : ℕ} (h : s.wf = true) : (s.copyPage src dst).wf = true := by
  unfold State.copyPage
  extract_lets _ s1
  have hs1 : s1.wf = true := ramStore_form h _ _ _
  exact wf_of hs1 rfl rfl rfl rfl

theorem armWrite_form {s : State} {u run pa : ℕ} (h : s.wf = true) : (s.armWrite u run pa).wf = true := by
  unfold State.armWrite
  split
  · exact h
  split
  · split
    · exact h
    split
    · extract_lets _ s1 s2
      have hs1 : s1.wf = true := copyPage_form h
      have hs2 : s2.wf = true := storeAt_form hs1 _ _ _ _
      exact modLaunch_form hs2
    · exact sumBit_form (modLaunch_form h)
  · exact h

theorem homeWrite_form {s : State} {who : Option (ℕ × ℕ)} {pa : ℕ} {mask : BitVec 32} {data : BitVec 256} (h : s.wf = true) :
    (s.homeWrite who pa mask data).wf = true := by
  unfold State.homeWrite
  split
  · exact h
  split
  · extract_lets s1
    have hs1 : s1.wf = true := armWrite_form h
    exact atomStore_form hs1 _ _ _ _
  · exact atomStore_form h _ _ _ _

theorem homePoison_form {s : State} {who : Option (ℕ × ℕ)} {pa : ℕ} (h : s.wf = true) : (s.homePoison who pa).wf = true := by
  unfold State.homePoison
  extract_lets s1
  have hs1 : s1.wf = true := by
    unfold s1
    split
    · exact armWrite_form h
    · exact h
  exact wf_of hs1 rfl rfl rfl rfl

theorem writeFor_form {s : State} {who : Option (ℕ × ℕ)} {pa n x : ℕ} (h : s.wf = true) : (s.writeFor who pa n x).wf = true := by
  unfold State.writeFor
  refine eachAtom_form h _ _ _ fun _ _ _ _ hd => ?_
  extract_lets
  split
  · exact homeWrite_form hd
  · exact send_form hd _
  · exact wf_of hd rfl rfl rfl rfl
  · exact postWrite_form hd

theorem readTouch_form {s : State} {who : Option (ℕ × ℕ)} {pa n : ℕ} (h : s.wf = true) : (s.readTouch who pa n).wf = true := by
  unfold State.readTouch
  split
  · exact send_form h _
  split
  · exact h
  refine foldl_wf (fun _ _ hx => ?_) _ h
  extract_lets
  split
  · exact scrub_form hx _
  · exact hx

theorem setLine_form {s : State} {l : L1Line} (h : s.wf = true) : (s.setLine l).wf = true := wf_of h rfl rfl rfl rfl

theorem dropLine_form {s : State} {core line : ℕ} (h : s.wf = true) : (s.dropLine core line).wf = true := wf_of h rfl rfl rfl rfl

theorem writeBack_form {s : State} {l : L1Line} (h : s.wf = true) : (s.writeBack l).wf = true :=
  foldl_wf (fun _ _ hx => atomStore_form hx _ _ _ _) _ h

theorem flushLine_form {s : State} {core line : ℕ} (h : s.wf = true) : (s.flushLine core line).wf = true := by
  unfold State.flushLine
  split
  · exact dropLine_form (writeBack_form h)
  · exact h

theorem l1Room_form {s : State} {core line : ℕ} (h : s.wf = true) : (s.l1Room core line).wf = true := by
  unfold State.l1Room
  extract_lets
  split
  · exact h
  split
  · exact tick_form (flushLine_form h)
  · exact h

theorem l1Put_form {s : State} {core pa : ℕ} {mask : BitVec 32} {x : BitVec 256} {dirty : Option ℕ} {keep : Bool} (h : s.wf = true) :
    (s.l1Put core pa mask x dirty keep).wf = true := by
  unfold State.l1Put
  extract_lets
  split
  · exact setLine_form h
  · exact setLine_form (l1Room_form h)

theorem l1Update_form {s : State} {core pa : ℕ} {mask : BitVec 32} {x : BitVec 256} (h : s.wf = true) :
    (s.l1Update core pa mask x).wf = true := by
  unfold State.l1Update
  split
  · exact setLine_form h
  · exact h

theorem dropRegion_form {s : State} {core pbase len : ℕ} (h : s.wf = true) : (s.dropRegion core pbase len).wf = true := dropLines_form h

theorem releaseRegion_form {s : State} {core pbase len : ℕ} (h : s.wf = true) : (s.releaseRegion core pbase len).wf = true :=
  dropRegion_form (foldl_wf (fun _ _ hx => writeBack_form hx) _ h)

theorem fillLine_form {s : State} {core pa : ℕ} (h : s.wf = true) : (s.fillLine core pa).wf = true := by
  unfold State.fillLine
  refine foldl_wf (fun _ _ hx => ?_) _ h
  extract_lets
  split
  · exact l1Put_form (scrub_form hx _)
  · exact hx

theorem tlbPut_form {s : State} {t : TlbEntry} (h : s.wf = true) : (s.tlbPut t).wf = true := by
  unfold State.tlbPut
  extract_lets
  split
  · exact h
  split
  · exact wf_of h rfl rfl rfl rfl
  split
  · exact wf_of h rfl rfl rfl rfl
  · exact h

theorem wcachePut_form {s : State} {e : WalkEntry} (h : s.wf = true) : (s.wcachePut e).wf = true := by
  unfold State.wcachePut
  extract_lets
  split
  · exact wf_of h rfl rfl rfl rfl
  split
  · exact wf_of h rfl rfl rfl rfl
  · exact h

theorem walkLeaves_form {s : State} {c : Ctx} {va : ℕ} (h : s.wf = true) : (s.walkLeaves c va).wf = true := by
  unfold State.walkLeaves
  extract_lets _ s1 s2
  have hs1 : s1.wf = true := foldl_wf (fun _ _ hx => scrub_form hx _) _ h
  have hs2 : s2.wf = true := foldl_wf (fun _ _ hx => send_form hx _) _ hs1
  split
  · exact hs2
  · exact foldl_wf (fun _ _ hx => wcachePut_form hx) _ hs2

theorem tlbFill_form {s : State} {c : Ctx} {va : ℕ} (h : s.wf = true) : (s.tlbFill c va).wf = true := by
  unfold State.tlbFill
  split
  · split
    · exact h
    · exact tlbPut_form h
  split
  · exact h
  · exact foldl_wf (fun _ _ hx => tlbPut_form hx) _ (walkLeaves_form h)

theorem touchPieces_form {s : State} {who : Option (ℕ × ℕ)} {ps : List (ℕ × ℕ)} (h : s.wf = true) :
    (s.touchPieces who ps).wf = true := foldl_wf (fun _ _ hx => readTouch_form hx) _ h

theorem writePieces_form {who : Option (ℕ × ℕ)} : ∀ {l : List (ℕ × ℕ)} {bs : List Byte} {s : State}, s.wf = true →
    (s.writePieces who l bs).wf = true
  | [], _, _, h => h
  | _ :: _, _, _, h => by
    rw [State.writePieces]
    exact writePieces_form (writeFor_form h)

theorem plainTouch_form {s : State} {b : Band} {pas : List (ℕ × ℕ)} (h : s.wf = true) : (s.plainTouch b pas).wf = true :=
  foldl_wf (fun _ _ hx => send_form hx _) _ (foldl_wf (fun _ _ hx => scrub_form hx _) _ (foldl_wf (fun _ _ hx => fillLine_form hx) _ h))

theorem consume_form {s : State} {b : Band} {pa : ℕ} {c : KillCause} (h : s.wf = true) : (s.consume b pa c).wf = true :=
  modBand_form (decideKill_form (memEvent_form h _ _ _ _))

theorem consumeAll_form {s : State} {b : Band} {ds : List (ℕ × KillCause)} (h : s.wf = true) : (s.consumeAll b ds).wf = true :=
  foldl_wf (fun _ _ hx => consume_form hx) _ h

theorem coreStore_form {s : State} {core u run : ℕ} {l1 : Bool} {pa : ℕ} {mask : BitVec 32} {data : BitVec 256} (h : s.wf = true) :
    (s.coreStore core u run l1 pa mask data).wf = true := by
  unfold State.coreStore
  extract_lets _ s1 s2
  have hs1 : s1.wf = true := armWrite_form h
  have hs2 : s2.wf = true := by
    unfold s2
    split
    · exact flushLine_form h
    · exact h
  split
  · exact l1Put_form hs1
  · exact l1Update_form (homeWrite_form hs2)

theorem plainWrite_form {s : State} {b : Band} {xs : List ((ℕ × ℕ) × Byte)} (h : s.wf = true) : (s.plainWrite b xs).wf = true := by
  unfold State.plainWrite
  refine foldl_wf (fun _ _ hx => ?_) _ h
  extract_lets
  split
  · exact coreStore_form hx
  · exact foldl_wf (fun _ _ hx1 => writeFor_form hx1) _ hx

theorem holdShared_form {s : State} {core quad : ℕ} {x : ℕ × ℕ} (h : s.wf = true) : (s.holdShared core quad x).wf = true := by
  unfold State.holdShared
  split
  · exact h
  · exact wf_of h rfl rfl rfl rfl

theorem slotShared_form {s : State} (h : s.wf = true) : s.slotShared.wf = true :=
  foldl_wf (fun _ _ hx => foldl_wf (fun _ _ hx1 => foldl_wf (fun _ _ hx2 => holdShared_form hx2) _ hx1) _ hx) _ h

theorem slotNames_form {s : State} (h : s.wf = true) : s.slotNames.wf = true := by
  unfold State.slotNames
  refine foldl_wf (fun _ _ hx => ?_) _ h
  split
  · exact hx
  · exact modBand_form hx

theorem assignSlots_form {s : State} (h : s.wf = true) : s.assignSlots.wf = true := by
  unfold State.assignSlots
  extract_lets s1
  have hs1 : s1.wf = true := slotNames_form (slotShared_form (wf_of h rfl rfl rfl rfl))
  exact wf_of hs1 rfl rfl rfl rfl

theorem putV_form {s : State} {b : Band} {n : ℕ} {x : VReg} {lanes : W32} (h : s.wf = true) : (s.putV b n x lanes).wf = true :=
  modBand_form h

theorem putS_form {s : State} {b : Band} {n : ℕ} {x : W64} (h : s.wf = true) : (s.putS b n x).wf = true := modBand_form h

theorem putO_form {s : State} {b : Band} {n : ℕ} {x : VReg} {lanes : W32} (h : s.wf = true) : (s.putO b n x lanes).wf = true :=
  modBand_form h

theorem putA_form {s : State} {b : Band} {n : ℕ} {x : W64} (h : s.wf = true) : (s.putA b n x).wf = true := modBand_form h

theorem putM_form {s : State} {b : Band} {n : ℕ} {x : W32} (h : s.wf = true) : (s.putM b n x).wf = true := modBand_form h

theorem writeS_form {s : State} {b : Band} {n : ℕ} {x : W64} (h : s.wf = true) : Yields Formed (s.writeS b n x) :=
  yields_after fun _ => yields_pure (putS_form h)

theorem writeV_form {s : State} {b : Band} {n : ℕ} {x : VReg} {lanes : W32} (h : s.wf = true) :
    Yields Formed (s.writeV b n x lanes) := yields_after fun _ => yields_after fun _ => yields_pure (putV_form h)

theorem writeA_form {s : State} {b : Band} {n : ℕ} {x : W64} (h : s.wf = true) : Yields Formed (s.writeA b n x) :=
  yields_after fun _ => yields_pure (putA_form h)

theorem writeM_form {s : State} {b : Band} {n : ℕ} {x : W32} (h : s.wf = true) : Yields Formed (s.writeM b n x) :=
  yields_after fun _ => yields_pure (putM_form h)

theorem writeO_form {s : State} {b : Band} {n : ℕ} {x : VReg} {lanes : W32} (h : s.wf = true) :
    Yields Formed (s.writeO b n x lanes) := yields_after fun _ => yields_pure (putO_form h)

theorem awaitV_form {s : State} {b : Band} {n op part : ℕ} (h : s.wf = true) : (s.awaitV b n op part).wf = true := modBand_form h

theorem awaitS_form {s : State} {b : Band} {n op part : ℕ} (h : s.wf = true) : (s.awaitS b n op part).wf = true := modBand_form h

theorem landDest_form {s : State} {o : Op} {d : Dest} {v : ArithVal} (h : s.wf = true) : (s.landDest o d v).wf = true := modBand_form h

theorem startOp_form {s : State} {b : Band} {arith : Bool} {k : OpKind} (h : s.wf = true) : (s.startOp b arith k).wf = true := by
  unfold State.startOp
  extract_lets fl _ s1
  have hs1 : s1.wf = true := wf_of h rfl rfl rfl rfl
  clear_value fl s1
  split
  · exact hs1
  · exact modBand_form hs1

theorem startEngine_form {s : State} {b : Band} {k : OpKind} (h : s.wf = true) : (s.startEngine b k).wf = true := wf_of h rfl rfl rfl rfl

theorem dropFlag_form {s : State} {o : Op} (h : s.wf = true) : (s.dropFlag o).wf = true := by
  unfold State.dropFlag
  split
  · exact h
  · exact modBand_form h

theorem endOp_form {s : State} {o : Op} (h : s.wf = true) : (s.endOp o).wf = true := dropOp_form (dropFlag_form h)

theorem handlerTouch_form {s : State} {b : Band} {code : ℕ} (h : s.wf = true) : (s.handlerTouch b code).wf = true := by
  unfold State.handlerTouch
  split
  · exact plainTouch_form h
  · exact h

theorem stopAt_form {s : State} {u : ℕ} (h : s.wf = true) : (s.stopAt u).wf = true := modBand_form h

theorem trapKills_form {s : State} {b : Band} {code : Byte} {silent : Bool} (h : s.wf = true) :
    (s.trapKills b code silent).wf = true := stopAt_form (decideKill_form h)

theorem enterTrap_form {s : State} {b : Band} {t : Trap} (h : s.wf = true) : (s.enterTrap b t).wf = true := by
  unfold State.enterTrap
  split
  · exact trapKills_form (handlerTouch_form h)
  · exact trapKills_form (consumeAll_form h)
  · exact setBand_form h
  extract_lets
  split
  · split
    · exact trapKills_form h
    · exact setBand_form (handlerTouch_form h)
  · exact setBand_form h

theorem deliverInKill_form {s : State} {b : Band} {t : Trap} (h : s.wf = true) : (s.deliverInKill b t).wf = true := by
  unfold State.deliverInKill
  split
  · exact enterTrap_form h
  · exact enterTrap_form h
  · exact stopAt_form h

theorem trapInKill_form {s : State} {b : Band} {t : Trap} (h : s.wf = true) : (s.trapInKill b t).wf = true := by
  unfold State.trapInKill
  split
  · exact stopAt_form h
  · exact deliverInKill_form h

theorem takeTrap_form {s : State} {b : Band} {t : Trap} (h : s.wf = true) : (s.takeTrap b t).wf = true := by
  unfold State.takeTrap
  split
  · exact trapKills_form h
  split
  · exact trapKills_form h
  split
  · exact trapInKill_form h
  split
  · exact post_form (setBand_form h) _
  · exact enterTrap_form h

theorem shadowed_form {s : State} {i : Instr} {t : Trap} {r : State} (hr : r.wf = true) :
    (s.shadowed i t r).wf = true := by
  unfold State.shadowed
  split
  · exact hr
  split
  · split
    · exact takeTrap_form hr
    · exact hr
  · exact hr

/-- A word keeps the form when its meaning does: the traps, waits and records of its issue change nothing of the data by themselves. -/
theorem issue_form {i : Instr} {body : Band → State → Try Fin'} {s : State}
    (hbody : ∀ b t, t.wf = true → Yields FinFormed (body b t)) (h : s.wf = true) : (issue i body s).wf = true := by
  unfold issue
  split
  · exact h
  next b _ =>
    extract_lets len w trap again formed
    have htrap : ∀ code lane x y, (trap code lane x y).wf = true := fun _ _ _ _ => takeTrap_form h
    have hformed : ∀ {t}, t.wf = true → (formed t).wf = true := fun ht => shadowed_form ht
    have hsafe : ∀ {r}, body b (s.setBand { b with latValid := false }) = .ok r → (finState r).wf = true :=
      hbody b _ (setBand_form h) _
    split
    · exact h
    split
    · exact htrap _ _ _ _
    split
    · exact htrap _ _ _ _
    split
    · exact htrap _ _ _ _
    split
    · exact htrap _ _ _ _
    · exact htrap _ _ _ _
    · exact htrap _ _ _ _
    · exact setBand_form h
    · exact setBand_form h
    · exact setBand_form h
    next heq => exact hformed (modBand_form (hsafe heq))
    next heq => exact hformed (modBand_form (hsafe heq))
    next heq => exact hformed (modBand_form (hsafe heq))
    next heq => exact modBand_form (hsafe heq)
    next heq => exact hsafe heq
    next heq => exact modBand_form (hsafe heq)

theorem refuseWord_form {w : W32} {s : State} (h : s.wf = true) : (refuseWord w s).wf = true := by
  unfold refuseWord
  split
  · exact h
  extract_lets
  split
  · exact h
  · exact takeTrap_form h

theorem setFps_form {s : State} {u : ℕ} {f : BitVec 6} (h : s.wf = true) : (s.setFps u f).wf = true := modBand_form h

theorem countSr_form {s : State} {b : Band} {rnd : ℕ} (h : s.wf = true) : (s.countSr b rnd).wf = true := by
  unfold State.countSr
  split
  · exact modBand_form h
  · exact h

theorem scalarDst_form {s : State} {b : Band} {d : Opnd} {x : W64} (h : s.wf = true) : Yields Formed (s.scalarDst b d x) := by
  unfold State.scalarDst
  split
  · exact writeS_form h
  · exact writeA_form h
  · exact yields_error

theorem maskDst_form {s : State} {b : Band} {d : Opnd} {x : W32} (h : s.wf = true) : Yields Formed (s.maskDst b d x) := by
  unfold State.maskDst
  split
  · exact writeM_form h
  · exact yields_error

theorem whenEnabled_form {s : State} {b : Band} {body : Try State} (h : s.wf = true) (hbody : Yields Formed body) :
    Yields FinFormed (whenEnabled s b body) := by
  unfold whenEnabled
  refine yields_after fun _ => ?_
  split
  · exact yields_pure h
  · exact yields_bind hbody fun _ ht => yields_pure ht

theorem updateA_form {s : State} {b : Band} {m : MemRef} {ea : Ea} (h : s.wf = true) : (s.updateA b m ea).wf = true := by
  unfold State.updateA
  split
  · exact putA_form h
  · exact h

theorem vecDst_form {s : State} {b : Band} {d : Opnd} {x : VReg} {lanes : W32} (h : s.wf = true) :
    Yields Formed (s.vecDst b d x lanes) := by
  unfold State.vecDst
  split
  · exact yields_ok h
  split
  · exact writeV_form h
  · exact writeO_form h
  · exact yields_error

theorem pairDst_form {s : State} {b : Band} {d : Opnd} {lo hi : VReg} {lanes : W32} (h : s.wf = true) :
    Yields Formed (s.pairDst b d lo hi lanes) := by
  unfold State.pairDst
  split
  · refine yields_after fun _ => ?_
    split
    · exact yields_pure h
    · exact yields_after fun _ => yields_after fun _ => yields_after fun _ => yields_pure (putV_form (putV_form h))
  · refine yields_after fun _ => ?_
    split
    · exact yields_pure h
    · exact yields_after fun _ => yields_after fun _ => yields_pure (putO_form (putO_form h))
  · exact yields_error

theorem latFrom_form {s : State} {b : Band} {d : Opnd} (h : s.wf = true) : (s.latFrom b d).wf = true := modBand_form h

theorem elemDst_form {s : State} {b : Band} {typ : ℕ} {d : Opnd} {f : ℕ → ℕ} {lanes : W32} {alu : Bool} (h : s.wf = true) :
    Yields Formed (s.elemDst b typ d f lanes alu) := by
  unfold State.elemDst
  split
  · exact pairDst_form h
  extract_lets rest
  have hrest : ∀ x, Yields Formed (rest x) := by
    intro _
    unfold rest
    refine yields_bind (vecDst_form h) fun _ ht => yields_pure ?_
    split
    · exact latFrom_form ht
    · exact ht
  split
  · exact yields_after fun _ => hrest ()
  · exact hrest ()

theorem fetchScrub_form {s : State} {b : Band} {hdr : W64} {n : ℕ} (h : s.wf = true) : (s.fetchScrub b hdr n).wf = true := by
  unfold State.fetchScrub
  split
  · exact h
  refine foldl_wf (fun _ _ hx => ?_) _ h
  split
  · exact readTouch_form hx
  · exact hx

theorem fetchClause_form {s : State} (h : s.wf = true) : (fetchClause s).wf = true := by
  unfold fetchClause
  split
  · exact h
  split
  · exact h
  split
  · exact setBand_form h
  split
  · exact takeTrap_form h
  · exact stopAt_form (consume_form h)
  · exact takeTrap_form h
  split
  · exact setBand_form (fetchScrub_form h)
  · exact takeTrap_form h

theorem headerStep_form {i : Instr} {wait : BitVec 12} {seta setb : BitVec 4} {s : State} (h : s.wf = true) :
    (headerStep i wait seta setb s).wf = true := by
  unfold headerStep
  split
  · exact h
  extract_lets
  split
  · exact h
  split
  · exact takeTrap_form h
  split
  · exact setBand_form h
  split
  · exact takeTrap_form h
  split
  all_goals exact setBand_form h

theorem scIssue_form {s : State} {core : ℕ} {cls : BitVec 3} (h : s.wf = true) : ((s.scIssue core cls).1).wf = true := by
  unfold State.scIssue
  split
  · exact wf_of h rfl rfl rfl rfl
  · exact h

theorem loadDest_form {s : State} {b : Band} {d : Opnd} {pair : Bool} {lanes : W32} :
    Yields (fun p => ∀ t, t.wf = true → (p.2 t).wf = true) (s.loadDest b d pair lanes) := by
  unfold State.loadDest
  extract_lets
  split
  · refine yields_after fun _ => ?_
    split
    · exact yields_after fun _ => yields_after fun _ => yields_pure fun _ ht => awaitV_form (awaitV_form ht)
    · exact yields_after fun _ => yields_pure fun _ ht => awaitV_form ht
  · refine yields_after fun x => ?_
    extract_lets rest
    have hrest : ∀ x, Yields (fun p => ∀ t, t.wf = true → (p.2 t).wf = true) (rest x) := fun _ => yields_pure fun _ ht => ht
    split
    · exact yields_after fun _ => hrest ()
    · exact hrest ()
  · exact yields_after fun _ => yields_pure fun _ ht => awaitS_form ht
  · exact yields_after fun _ => yields_pure fun _ ht => ht
  · exact yields_after fun _ => yields_pure fun _ ht => ht
  · exact yields_error

theorem loadBody_form {d : Opnd} {m : MemRef} {par : Bool} {b : Band} {s : State} (h : s.wf = true) :
    Yields FinFormed (loadBody d m par b s) := by
  unfold loadBody
  split
  extract_lets _ _ _ rest
  have hrest : ∀ x, Yields FinFormed (rest x) := by
    intro x
    unfold rest
    refine yields_after fun _ => yields_after fun _ => yields_after fun _ => ?_
    extract_lets
    split
    · exact yields_pure (updateA_form h)
    refine yields_after fun _ => ?_
    split
    refine yields_after fun _ => yields_after fun _ => ?_
    extract_lets rest1
    have hrest1 : ∀ x, Yields FinFormed (rest1 x) := by
      intro _
      unfold rest1
      refine yields_after fun _ => yields_after fun _ => yields_after fun _ => yields_after fun _ => yields_after fun _ => ?_
      split
      · exact yields_error
      refine yields_bind (loadDest_form) fun t ht => ?_
      split
      split
      rename_i t _ heq
      have ht1 : t.wf = true := fst_form (scIssue_form h) heq
      exact yields_pure (updateA_form (ht _ (startOp_form ht1)))
    split
    · exact yields_after fun _ => hrest1 ()
    · exact hrest1 ()
  split
  · exact yields_after fun _ => hrest ()
  · exact hrest ()

theorem storeBody_form {d : Opnd} {m : MemRef} {vector : Bool} {b : Band} {s : State} (h : s.wf = true) :
    Yields FinFormed (storeBody d m vector b s) := by
  unfold storeBody
  split
  extract_lets _ rest
  have hrest : ∀ x, Yields FinFormed (rest x) := by
    intro x
    unfold rest
    refine yields_after fun _ => yields_after fun _ => yields_after fun _ => ?_
    extract_lets _ rest1
    have hrest1 : ∀ x, Yields FinFormed (rest1 x) := by
      intro _
      unfold rest1
      refine yields_after fun _ => yields_after fun _ => yields_after fun _ => yields_after fun _ => yields_after fun _ => ?_
      split
      rename_i t _ heq
      have ht : t.wf = true := fst_form (scIssue_form h) heq
      extract_lets _ t1
      have ht1 : t1.wf = true := by
        unfold t1
        split
        · exact invalidateL1_form ht
        · exact ht
      exact yields_pure (updateA_form (startOp_form ht1))
    split
    · exact yields_pure (updateA_form h)
    refine yields_after fun _ => yields_after fun _ => ?_
    split
    · exact yields_after fun _ => hrest1 ()
    · exact hrest1 ()
  split
  · exact yields_after fun _ => hrest _
  · exact yields_after fun _ => yields_after fun _ => hrest _

theorem prefLane_form {b : Band} {s : State} {x : ℕ × W64} (h : s.wf = true) : (State.prefLane b s x).wf = true := by
  unfold State.prefLane
  split
  · exact h
  extract_lets
  split
  · split
    · exact fillLine_form h
    · exact h
  split
  · exact fillLine_form h
  · exact h

theorem prefBody_form {m : MemRef} {b : Band} {s : State} (h : s.wf = true) : Yields FinFormed (prefBody m b s) :=
  yields_after fun _ => yields_after fun _ => yields_after fun _ => yields_pure (updateA_form (foldl_wf (fun _ _ hx3 =>
    prefLane_form hx3) _ h))

theorem atomDest_form {s : State} {b : Band} {d : Opnd} {w : ℕ} {lanes : W32} :
    Yields (fun p => ∀ t, t.wf = true → (p.2 t).wf = true) (s.atomDest b d w lanes) := by
  unfold State.atomDest
  split
  · exact loadDest_form
  · exact loadDest_form
  · exact yields_ok fun _ ht => ht

theorem atomicBody_form {k : AtomKind} {d : Opnd} {m : MemRef} {b : Band} {s : State} (h : s.wf = true) :
    Yields FinFormed (atomicBody k d m b s) := by
  unfold atomicBody
  extract_lets _ _ _ _ rest
  have hrest : ∀ x, Yields FinFormed (rest x) := by
    intro _
    unfold rest
    refine yields_after fun _ => yields_after fun _ => yields_after fun _ => yields_after fun _ => yields_after fun _ => ?_
    extract_lets
    split
    · exact yields_pure (updateA_form h)
    refine yields_after fun _ => yields_after fun _ => yields_after fun _ => ?_
    refine yields_after fun _ => yields_after fun _ => yields_after fun _ => yields_bind (atomDest_form) fun t ht => ?_
    split
    split
    rename_i t _ heq
    have ht1 : t.wf = true := fst_form (scIssue_form h) heq
    exact yields_pure (updateA_form (ht _ (startOp_form ht1)))
  split
  · exact yields_after fun _ => hrest ()
  · exact hrest ()

theorem branch_form {i : Instr} {taken : Band → State → Try Bool} {off : W64} {a : State} (h : a.wf = true) :
    (branch i taken off a).wf = true := by
  unfold branch
  refine issue_form (fun _ _ ht => ?_) h
  refine yields_after fun _ => ?_
  split
  · exact yields_after fun _ => yields_pure ht
  · exact yields_pure ht

theorem loopBody_form {p : Opnd} {off : W64} {b : Band} {s : State} (h : s.wf = true) : Yields FinFormed (loopBody p off b s) := by
  unfold loopBody
  split
  · refine yields_after fun _ => ?_
    extract_lets
    split
    · exact yields_bind (writeS_form h) fun _ ht => yields_pure ht
    · exact yields_after fun _ => yields_bind (writeS_form h) fun _ ht => yields_pure ht
  · exact yields_error

theorem callBody_form {n : ℕ} {target : Band → State → Try W64} {check : State → Band → W64 → Try Unit} {b : Band} {s : State}
    (h : s.wf = true) :
    Yields FinFormed (callBody n target check b s) :=
  yields_after fun _ => yields_after fun _ => yields_after fun _ => yields_after fun _ => yields_after fun _ =>
    yields_pure (modBand_form h)

theorem retBody_form {b : Band} {s : State} (h : s.wf = true) : Yields FinFormed (retBody b s) := by
  unfold retBody
  split
  · exact yields_error
  · exact yields_after fun _ => yields_after fun _ => yields_after fun _ => yields_pure (modBand_form h)

theorem yieldcBody_form {off : W64} {b : Band} {s : State} (h : s.wf = true) : Yields FinFormed (yieldcBody off b s) := by
  unfold yieldcBody
  extract_lets
  split
  · split
    · exact yields_pure h
    · exact yields_after fun _ => yields_pure h
  · exact yields_after fun _ => yields_pure h

theorem rftBody_form {skip : Bool} {b : Band} {s : State} (h : s.wf = true) : Yields FinFormed (rftBody skip b s) := by
  unfold rftBody
  extract_lets _ rest
  have hrest : ∀ x, Yields FinFormed (rest x) := by
    intro x
    unfold rest
    refine yields_after fun _ => yields_after fun _ => yields_after fun _ => ?_
    refine yields_after fun _ => yields_after fun _ => yields_after fun _ => yields_after fun _ => yields_after fun _ => ?_
    extract_lets _ _ _ _ t rest1 rest2 rest3 rest4
    have ht : t.wf = true := modBand_form h
    have hrest1 : ∀ x, Yields FinFormed (rest1 x) := by
      intro _
      unfold rest1
      split
      · exact yields_error
      · exact yields_after fun _ => yields_pure ht
    have hrest2 : ∀ x, Yields FinFormed (rest2 x) := by
      intro _
      unfold rest2
      split
      · exact yields_after fun _ => hrest1 ()
      · exact hrest1 ()
    have hrest3 : ∀ x, Yields FinFormed (rest3 x) := by
      intro _
      unfold rest3
      split
      · exact yields_after fun _ => hrest2 ()
      · exact hrest2 ()
    have hrest4 : ∀ x, Yields FinFormed (rest4 x) := by
      intro _
      unfold rest4
      split
      · split
        · exact yields_after fun _ => hrest3 ()
        · exact hrest3 ()
      split
      · exact yields_after fun _ => hrest3 ()
      · exact hrest3 ()
    split
    · exact yields_after fun _ => hrest4 ()
    · exact hrest4 ()
  split
  · exact yields_after fun _ => hrest ()
  · exact hrest ()

theorem setModeBody_form {new : W32 → W32} {b : Band} {s : State} (h : s.wf = true) : Yields FinFormed (setModeBody new b s) :=
  yields_after fun _ => yields_pure (modBand_form h)

theorem maskOp_form {i : Instr} {d a b : Opnd} {f : W32 → W32 → W32} {a1 : State} (h : a1.wf = true) :
    (maskOp i d a b f a1).wf = true :=
  issue_form (fun _ _ ht => yields_after fun _ => yields_after fun _ => yields_bind (maskDst_form ht) fun _ ht1 => yields_pure ht1) h

theorem maskCount_form {i : Instr} {d a : Opnd} {f : W32 → ℕ} {a1 : State} (h : a1.wf = true) : (maskCount i d a f a1).wf = true :=
  issue_form (fun _ _ ht => yields_after fun _ => yields_bind (scalarDst_form ht) fun _ ht1 => yields_pure ht1) h

end Sys2Proof.Proofs.Form
end

section
/-! SUPPORT. The operations of the vector unit, local stores, fences, regions, monitors, barriers, publications and reductions keep the form. -/

namespace Sys2Proof.Proofs.Form

open Sys2Proof Sys2Proof.Machine Sys2Proof.Laws

theorem scalarOp_form {i : Instr} {signed : Bool} {d a b : Opnd} {f : Band → W64 → W64 → W64} {a1 : State} (h : a1.wf = true) :
    (scalarOp i signed d a b f a1).wf = true :=
  issue_form (fun _ _ ht => yields_after fun _ => yields_after fun _ => whenEnabled_form ht (scalarDst_form ht)) h

theorem scalarOp1_form {i : Instr} {signed : Bool} {d a : Opnd} {f : Band → W64 → W64} {a1 : State} (h : a1.wf = true) :
    (scalarOp1 i signed d a f a1).wf = true := issue_form (fun _ _ ht => yields_after fun _ => whenEnabled_form ht (scalarDst_form ht)) h

theorem arithS_form {s : State} {b : Band} {n : ℕ} {x : W64} {fps : BitVec 6} (h : s.wf = true) :
    Yields Formed (s.arithS b n x fps) := yields_after fun _ => yields_after fun _ => yields_pure (awaitS_form (startOp_form h))

theorem arithV_form {s : State} {b : Band} {d : Opnd} {x : VReg} {lanes : W32} {fps : BitVec 6} (h : s.wf = true) :
    Yields Formed (s.arithV b d x lanes fps) := by
  unfold State.arithV
  refine yields_after fun _ => ?_
  split
  · exact yields_pure (startOp_form h)
  split
  · exact yields_after fun _ => yields_after fun _ => yields_pure (awaitV_form (startOp_form h))
  · exact yields_after fun _ => yields_pure (startOp_form h)
  · exact yields_error

theorem arithPair_form {s : State} {b : Band} {d : Opnd} {lo hi : VReg} {lanes : W32} {fps : BitVec 6} (h : s.wf = true) :
    Yields Formed (s.arithPair b d lo hi lanes fps) := by
  unfold State.arithPair
  refine yields_after fun _ => ?_
  split
  · refine yields_after fun _ => ?_
    split
    · exact yields_pure (startOp_form h)
    · exact yields_after fun _ => yields_after fun _ => yields_after fun _ => yields_pure (awaitV_form (awaitV_form (startOp_form h)))
  · refine yields_after fun _ => ?_
    split
    · exact yields_pure (startOp_form h)
    · exact yields_after fun _ => yields_after fun _ => yields_pure (startOp_form h)
  · exact yields_error

theorem arithElems_form {s : State} {b : Band} {typ : ℕ} {d : Opnd} {f : ℕ → ℕ} {lanes : W32} {fps : BitVec 6} (h : s.wf = true) :
    Yields Formed (s.arithElems b typ d f lanes fps) := by
  unfold State.arithElems
  split
  · exact arithPair_form h
  · exact arithV_form h

theorem divOp_form {i : Instr} {signed : Bool} {d a b : Opnd} {f : Band → W64 → W64 → W64} {a1 : State} (h : a1.wf = true) :
    (divOp i signed d a b f a1).wf = true := by
  unfold divOp
  refine issue_form (fun _ _ ht => ?_) h
  refine yields_after fun _ => yields_after fun _ => whenEnabled_form ht ?_
  split
  · exact arithS_form ht
  · exact yields_error

theorem laneAlu_form {i : Instr} {ok : ℕ → Bool} {d : Opnd} {f : Band → State → ℕ → Try (ℕ → ℕ)} {a : State} (h : a.wf = true) :
    (laneAlu i ok d f a).wf = true :=
  issue_form (fun _ _ ht => yields_after fun _ => yields_after fun _ => yields_after fun _ =>
    yields_bind (elemDst_form ht) fun _ ht1 => yields_pure ht1) h

theorem laneAlu2_form {i : Instr} {ok : ℕ → Bool} {d a b : Opnd} {f : Band → ℕ → ℕ → ℕ → ℕ → ℕ} {a1 : State} (h : a1.wf = true) :
    (laneAlu2 i ok d a b f a1).wf = true := laneAlu_form h

theorem laneAlu1_form {i : Instr} {ok : ℕ → Bool} {d a : Opnd} {f : Band → ℕ → ℕ → ℕ} {a1 : State} (h : a1.wf = true) :
    (laneAlu1 i ok d a f a1).wf = true := laneAlu_form h

theorem shiftOp_form {i : Instr} {d a b : Opnd} {f : ℕ → ℕ → ℕ → ℕ} {a1 : State} (h : a1.wf = true) :
    (shiftOp i d a b f a1).wf = true := laneAlu_form h

theorem compareTo_form {s : State} {b : Band} {d : Opnd} {lanes : W32} {p : ℕ → Bool} (h : s.wf = true) :
    Yields Formed (s.compareTo b d lanes p) := by
  unfold State.compareTo
  split
  · exact yields_after fun _ => writeM_form h
  · exact yields_error

theorem compareInt_form {i : Instr} {d a b : Opnd} {p : ℤ → ℤ → Bool} {a1 : State} (h : a1.wf = true) :
    (compareInt i d a b p a1).wf = true :=
  issue_form (fun _ _ ht => yields_after fun _ => yields_after fun _ => yields_after fun _ => yields_after fun _ =>
    yields_bind (compareTo_form ht) fun _ ht1 => yields_pure ht1) h

theorem floatDst_form {s : State} {b : Band} {typ : ℕ} {d : Opnd} {lanes : W32} {arith alu : Bool} {g : ℕ → ℕ × BitVec 6}
    (h : s.wf = true) :
    Yields Formed (s.floatDst b typ d lanes arith alu g) := by
  unfold State.floatDst
  extract_lets
  split
  · exact arithElems_form h
  · exact yields_bind (elemDst_form h) fun _ ht => yields_pure (setFps_form ht)

theorem floatOp_form {i : Instr} {arith : Bool} {d : Opnd} {f : Band → State → Fmt → Try (ℕ → Machine.Num × BitVec 6)} {a : State}
    (h : a.wf = true) :
    (floatOp i arith d f a).wf = true :=
  issue_form (fun _ _ ht => yields_after fun _ => yields_after fun _ => yields_after fun _ =>
    yields_bind (floatDst_form ht) fun _ ht1 => yields_pure (countSr_form ht1)) h

theorem float2_form {i : Instr} {arith : Bool} {d a b : Opnd} {op : ℕ → Machine.Num → Machine.Num → Machine.Num × BitVec 6}
    {a1 : State} (h : a1.wf = true) :
    (float2 i arith d a b op a1).wf = true := floatOp_form h

theorem float1_form {i : Instr} {arith : Bool} {d a : Opnd} {op : Machine.Num → Machine.Num × BitVec 6} {a1 : State} (h : a1.wf = true) :
    (float1 i arith d a op a1).wf = true := floatOp_form h

theorem minMaxOp_form {i : Instr} {d a b : Opnd} {num wantMax : Bool} {a1 : State} (h : a1.wf = true) :
    (minMaxOp i d a b num wantMax a1).wf = true :=
  issue_form (fun _ _ ht => yields_after fun _ => yields_after fun _ => yields_after fun _ => yields_after fun _ =>
    yields_bind (floatDst_form ht) fun _ ht1 => yields_pure ht1) h

theorem bitOp_form {i : Instr} {d a : Opnd} {ok : ℕ → Bool} {f : Fmt → ℕ → ℕ} {a1 : State} (h : a1.wf = true) :
    (bitOp i d a ok f a1).wf = true :=
  issue_form (fun _ _ ht => yields_after fun _ => yields_after fun _ => yields_after fun _ => yields_after fun _ =>
    yields_bind (elemDst_form ht) fun _ ht1 => yields_pure ht1) h

theorem compareFloat_form {i : Instr} {d a b : Opnd} {anyNan : Bool} {p : Machine.Num → Machine.Num → Bool} {a1 : State}
    (h : a1.wf = true) :
    (compareFloat i d a b anyNan p a1).wf = true :=
  issue_form (fun _ _ ht => yields_after fun _ => yields_after fun _ => yields_after fun _ => yields_after fun _ =>
    yields_bind (compareTo_form ht) fun _ ht1 => yields_pure (setFps_form ht1)) h

theorem writeBlock_form {s : State} {b : Band} {d : ℕ} {rs : List VReg} (h : s.wf = true) : Yields Formed (s.writeBlock b d rs) := by
  unfold State.writeBlock
  refine yields_after fun _ => yields_pure (foldl_wf (fun _ _ hx1 => ?_) _ h)
  split
  exact putV_form hx1

theorem spaceLoad_form {space : Space} {d : Opnd} {m : MemRef} {b : Band} {s : State} (h : s.wf = true) :
    Yields FinFormed (spaceLoad space d m b s) := by
  unfold spaceLoad
  extract_lets
  refine yields_after fun _ => yields_after fun _ => yields_after fun _ => ?_
  extract_lets
  split
  · exact yields_pure (updateA_form h)
  refine yields_after fun _ => yields_after fun _ => yields_after fun _ => ?_
  refine yields_after fun _ => yields_after fun _ => yields_after fun _ => yields_bind (loadDest_form) fun _ ht => ?_
  split
  exact yields_pure (updateA_form (ht _ (startOp_form h)))

theorem copyLine_form {s : State} {w : Workgroup} {b : Band} {treg : ℕ} {x : ℕ × ℕ} (h : s.wf = true) :
    (s.copyLine w b treg x).wf = true := writeSpace_form h _ _ _ _

theorem storeLanes_form {s : State} {w : Workgroup} {space : Space} {band treg width : ℕ} {data : ℕ → ℕ} {ls : List (ℕ × W64)}
    (h : s.wf = true) :
    (s.storeLanes w space band treg width data ls).wf = true := by
  unfold State.storeLanes
  refine foldl_wf (fun _ _ hx => ?_) _ h
  split
  refine foldl_wf (fun _ _ hx1 => ?_) _ hx
  split
  exact setLs_form hx1 _ _

theorem spaceStore_form {space : Space} {region : Bool} {d : Opnd} {m : MemRef} {b : Band} {s : State} (h : s.wf = true) :
    Yields FinFormed (spaceStore space region d m b s) := by
  unfold spaceStore
  extract_lets
  refine yields_after fun x => yields_after fun _ => yields_after fun _ => yields_after fun _ => yields_after fun _ => ?_
  extract_lets _ _ _ rest rest1
  have hrest : ∀ x, Yields FinFormed (rest x) := by
    intro _
    unfold rest
    refine yields_after fun _ => yields_after fun _ => ?_
    split
    · exact yields_error
    extract_lets t
    have ht : t.wf = true := setWg_form (foldl_wf (fun _ _ hx8 => copyLine_form hx8) _ h)
    exact yields_pure (updateA_form (storeLanes_form ht))
  have hrest1 : ∀ x, Yields FinFormed (rest1 x) := by
    intro _
    unfold rest1
    refine yields_after fun _ => yields_after fun _ => ?_
    split
    all_goals exact yields_after fun _ => hrest ()
  split
  · exact yields_pure (updateA_form h)
  split
  · split
    · exact yields_after fun _ => hrest1 ()
    · exact hrest1 ()
  split
  · exact yields_after fun _ => hrest1 ()
  · exact hrest1 ()

theorem stmBody_form {d : Opnd} {m : MemRef} {b : Band} {s : State} (h : s.wf = true) : Yields FinFormed (stmBody d m b s) := by
  unfold stmBody
  extract_lets
  refine yields_after fun x => yields_after fun _ => yields_after fun _ => ?_
  split
  · exact yields_pure (updateA_form h)
  refine yields_after fun _ => yields_after fun _ => ?_
  extract_lets _ _ _ _ _ _ rest rest1
  have hrest : ∀ x, Yields FinFormed (rest x) := by
    intro _
    unfold rest
    refine yields_after fun _ => ?_
    split
    · exact yields_error
    split
    · exact yields_pure (updateA_form (sumBit_form h))
    · exact yields_pure (updateA_form (startOp_form h))
  have hrest1 : ∀ x, Yields FinFormed (rest1 x) := by
    intro _
    unfold rest1
    split
    · exact yields_after fun _ => hrest ()
    · exact hrest ()
  split
  · exact yields_after fun _ => hrest1 ()
  · exact hrest1 ()

theorem stmPerformed_form {u atom : ℕ} {s : State} (h : s.wf = true) : (stmPerformed u atom s).wf = true := by
  unfold stmPerformed
  split
  · exact h
  split
  · extract_lets
    split
    · exact h
    split
    · extract_lets s1
      have hs1 : s1.wf = true := foldl_wf (fun _ _ hx => setLs_form hx _ _) _ h
      split
      · exact endOp_form hs1
      · exact setOp_form hs1
    · exact sumBit_form (endOp_form h)
  · exact h

theorem acquireAt_form {s : State} {b : Band} {scope : ℕ} (h : s.wf = true) : (s.acquireAt b scope).wf = true := by
  unfold State.acquireAt
  split
  · exact invalidateL1_form h
  · exact h

theorem fenceBody_form {b : Band} {s : State} (h : s.wf = true) : Yields FinFormed (fenceBody b s) :=
  yields_after fun _ => yields_pure (acquireAt_form h)

theorem fenceaBody_form {a l : Opnd} {b : Band} {s : State} (h : s.wf = true) : Yields FinFormed (fenceaBody a l b s) := by
  unfold fenceaBody
  refine yields_after fun x => yields_after fun _ => ?_
  extract_lets rest
  have hrest : ∀ x, Yields FinFormed (rest x) := by
    intro _
    unfold rest
    split
    · exact yields_pure h
    · exact yields_after fun _ => yields_pure (acquireAt_form h)
  split
  · exact yields_after fun _ => hrest ()
  · exact hrest ()

theorem statusDst_form {s : State} {b : Band} {d : Opnd} {x : W64} (h : s.wf = true) : Yields Formed (s.statusDst b d x) := by
  unfold State.statusDst
  split
  · exact writeS_form h
  · exact yields_ok h
  · exact yields_error

theorem holdAt_form {s : State} {b : Band} {w : Wait} (h : s.wf = true) : (s.holdAt b w).wf = true := modBand_form h

theorem takeToken_form {s : State} {core slot pbase len : ℕ} (h : s.wf = true) : (s.takeToken core slot pbase len).wf = true :=
  invalidateL1_form (dropRegion_form (wf_of h rfl rfl rfl rfl))

theorem tryToken_form {s : State} {core slot pbase len : ℕ} (h : s.wf = true) :
    Gives (fun p => p.2.wf = true) (s.tryToken core slot pbase len) := by
  unfold State.tryToken
  split
  · exact gives_some (invalidateL1_form h)
  · exact gives_some h
  · exact gives_some (takeToken_form h)
  · exact gives_none

theorem wakeTokens_form {s : State} (h : s.wf = true) : s.wakeTokens.wf = true := by
  unfold State.wakeTokens
  extract_lets
  refine foldl_wf (fun _ _ hx => ?_) _ h
  split
  · split
    next t1 heq =>
      have ht1 : t1.wf = true := (tryToken_form hx) _ heq
      exact modBand_form ht1
    · exact hx
  · exact hx

theorem acqrgBody_form {d a e : Opnd} {b : Band} {s : State} (h : s.wf = true) : Yields FinFormed (acqrgBody d a e b s) := by
  unfold acqrgBody
  split
  · exact yields_bind (statusDst_form h) fun _ ht => yields_pure ht
  refine yields_after fun _ => yields_after fun _ => ?_
  split
  refine yields_after fun _ => ?_
  extract_lets
  split
  next t heq =>
    have ht : t.wf = true := (tryToken_form h) _ heq
    exact yields_bind (statusDst_form ht) fun _ ht1 => yields_pure ht1
  split
  · exact yields_bind (statusDst_form h) fun _ ht => yields_pure ht
  · exact yields_pure (holdAt_form h)

theorem acqrgTimeout_form {p : Place} {s : State} (h : s.wf = true) : (acqrgTimeout p s).wf = true := by
  unfold acqrgTimeout
  split
  · split
    · split
      · extract_lets s1
        have hs1 : s1.wf = true := wakeTokens_form h
        exact modBand_form hs1
      · exact h
    · exact h
  · exact h

theorem freeToken_form {s : State} {core pbase len : ℕ} (h : s.wf = true) : (s.freeToken core pbase len).wf = true := by
  unfold State.freeToken
  extract_lets s1
  have hs1 : s1.wf = true := releaseRegion_form h
  exact wakeTokens_form (wf_of hs1 rfl rfl rfl rfl)

theorem freeTokensOf_form {s : State} {core slot : ℕ} (h : s.wf = true) : (s.freeTokensOf core slot).wf = true :=
  foldl_wf (fun _ _ hx => freeToken_form hx) _ h

theorem relrgBody_form {d a e : Opnd} {b : Band} {s : State} (h : s.wf = true) : Yields FinFormed (relrgBody d a e b s) := by
  unfold relrgBody
  refine yields_after fun _ => yields_after fun _ => ?_
  split
  refine yields_after fun _ => ?_
  split
  · split
    · exact yields_after fun _ => yields_pure (awaitS_form (startOp_form h))
    · exact yields_pure (startOp_form h)
  · exact yields_bind (statusDst_form h) fun _ ht => yields_pure ht

theorem relrgComplete_form {u : ℕ} {s : State} (h : s.wf = true) : (relrgComplete u s).wf = true := by
  unfold relrgComplete
  split
  · exact h
  split
  · split
    · exact h
    split
    · exact endOp_form (landDest_form (freeToken_form h))
    · exact endOp_form (landDest_form h)
  · exact h

theorem monarmBody_form {k : ℕ} {m : MemRef} {b : Band} {s : State} (h : s.wf = true) : Yields FinFormed (monarmBody k m b s) := by
  unfold monarmBody
  refine yields_after fun _ => yields_after fun _ => yields_after fun _ => ?_
  extract_lets
  refine yields_after fun _ => yields_after fun _ => ?_
  split
  · exact yields_error
  extract_lets _ t
  have ht : t.wf = true := modBand_form h
  exact yields_pure (updateA_form ht)

theorem monEnd_form {s : State} {b : Band} {k : ℕ} {d : Opnd} {st : W64} (h : s.wf = true) : Yields Formed (s.monEnd b k d st) := by
  unfold State.monEnd
  extract_lets s1 t t1
  have hs1 : s1.wf = true := by
    unfold s1
    split
    · split
      · exact h
      · exact l1Update_form h
    · exact h
  have ht : t.wf = true := modBand_form hs1
  have ht1 : t1.wf = true := by
    unfold t1
    split
    · exact acquireAt_form ht
    · exact ht
  exact statusDst_form ht1

theorem monwaitBody_form {d : Opnd} {k : ℕ} {e : Opnd} {b : Band} {s : State} (h : s.wf = true) :
    Yields FinFormed (monwaitBody d k e b s) := by
  unfold monwaitBody
  split
  · split
    · exact yields_bind (monEnd_form h) fun _ ht => yields_pure ht
    refine yields_after fun x => yields_after fun _ => ?_
    extract_lets rest
    have hrest : ∀ x, Yields FinFormed (rest x) := by
      intro _
      unfold rest
      split
      · exact yields_error
      extract_lets _ s1
      have hs1 : s1.wf = true := scrub_form h _
      refine yields_after fun _ => ?_
      split
      · exact yields_pure (stopAt_form (consume_form h))
      · exact yields_pure (stopAt_form (consume_form h))
      split
      · exact yields_bind (monEnd_form hs1) fun _ ht => yields_pure ht
      split
      · exact yields_bind (monEnd_form hs1) fun _ ht => yields_pure ht
      · exact yields_pure (holdAt_form hs1)
    split
    · exact yields_after fun _ => hrest ()
    · exact hrest ()
  · exact yields_error

theorem monwaitTimeout_form {p : Place} {s : State} (h : s.wf = true) : (monwaitTimeout p s).wf = true := by
  unfold monwaitTimeout
  split
  · split
    · split
      · exact modBand_form h
      · exact h
    · exact h
  · exact h

theorem releaseBar_form {s : State} {wg b : ℕ} {st : W64} (h : s.wf = true) : (s.releaseBar wg b st).wf = true := by
  unfold State.releaseBar
  extract_lets s1
  have hs1 : s1.wf = true := modWg_form h
  exact wf_of hs1 rfl rfl rfl rfl

theorem endLateBar_form {s : State} {wg k : ℕ} (h : s.wf = true) : (s.endLateBar wg k).wf = true := by
  unfold State.endLateBar
  split
  · split
    · exact releaseBar_form h
    · exact h
  · exact h

theorem barBody_form {d a : Opnd} {k : ℕ} {b : Band} {s : State} (h : s.wf = true) : Yields FinFormed (barBody d a k b s) := by
  unfold barBody
  split
  · exact yields_bind (statusDst_form h) fun _ ht => yields_pure ht
  refine yields_after fun _ => yields_after fun _ => ?_
  extract_lets s1
  have hs1 : s1.wf = true := endLateBar_form h
  refine yields_after fun _ => ?_
  extract_lets
  split
  · exact yields_bind (statusDst_form (releaseBar_form hs1)) fun _ ht => yields_pure ht
  · exact yields_pure (holdAt_form (setWg_form hs1))

theorem barTimeout_form {wg k : ℕ} {s : State} (h : s.wf = true) : (barTimeout wg k s).wf = true := by
  unfold barTimeout
  split
  · split
    · exact releaseBar_form h
    · exact h
  · exact h

theorem barsAfterExit_form {s : State} {wg : ℕ} (h : s.wf = true) : (s.barsAfterExit wg).wf = true := by
  unfold State.barsAfterExit
  split
  · exact h
  refine foldl_wf (fun _ _ hx => ?_) _ h
  split
  · exact releaseBar_form hx
  · exact hx

theorem releaseSwap_form {s : State} {launch inst : ℕ} {st : W64} (h : s.wf = true) : (s.releaseSwap launch inst st).wf = true :=
  wf_of h rfl rfl rfl rfl

theorem endLateSwap_form {s : State} {launch inst : ℕ} (h : s.wf = true) : (s.endLateSwap launch inst).wf = true := by
  unfold State.endLateSwap
  split
  · split
    · exact releaseSwap_form h
    · exact h
  · exact h

theorem swaphBody_form {d a : Opnd} {b : Band} {s : State} (h : s.wf = true) : Yields FinFormed (swaphBody d a b s) := by
  unfold swaphBody
  refine yields_after fun x => ?_
  split
  · exact yields_error
  extract_lets s1 rest
  have hs1 : s1.wf = true := endLateSwap_form h
  have hrest : ∀ x, Yields FinFormed (rest x) := by
    intro _
    unfold rest
    split
    · exact yields_bind (statusDst_form h) fun _ ht => yields_pure ht
    · exact yields_after fun _ => yields_after fun _ => yields_after fun _ => yields_pure (holdAt_form (setWg_form hs1))
  split
  · exact yields_after fun _ => hrest ()
  · exact hrest ()

theorem swaphSwap_form {launch inst : ℕ} {s : State} (h : s.wf = true) : (swaphSwap launch inst s).wf = true := by
  unfold swaphSwap
  split
  · extract_lets _ s1
    have hs1 : s1.wf = true := wf_of h rfl rfl rfl rfl
    exact foldl_wf (fun _ _ hx => invalidateL1_form hx) _ (releaseSwap_form hs1)
  · exact h

theorem swaphTimeout_form {launch inst : ℕ} {s : State} (h : s.wf = true) : (swaphTimeout launch inst s).wf = true := by
  unfold swaphTimeout
  split
  · split
    · exact releaseSwap_form h
    · exact h
  · exact h

theorem tlbiBody_form {a : Opnd} {b : Band} {s : State} (h : s.wf = true) : Yields FinFormed (tlbiBody a b s) := by
  unfold tlbiBody
  refine yields_after fun x => ?_
  extract_lets _ _ t rest
  have ht : t.wf = true := wf_of h rfl rfl rfl rfl
  have hrest : ∀ x, Yields FinFormed (rest x) := fun _ => yields_after fun _ => yields_pure (startOp_form ht)
  split
  · exact yields_after fun _ => hrest ()
  · exact hrest ()

theorem tlbiComplete_form {u : ℕ} {s : State} (h : s.wf = true) : (tlbiComplete u s).wf = true := by
  unfold tlbiComplete
  split
  · exact h
  split
  · split
    · exact h
    · exact endOp_form h
  · exact h

theorem withDesc_form {b : Band} {e : W64} {n : ℕ} {s : State} {k : List Byte → State → Try Fin'} (h : s.wf = true)
    (hk : ∀ x t, t.wf = true → Yields FinFormed (k x t)) :
    Yields FinFormed (withDesc b e n s k) := by
  unfold withDesc
  refine yields_after fun _ => ?_
  split
  · exact yields_error
  · exact yields_pure (stopAt_form (consumeAll_form h))
  · exact hk _ _ (plainTouch_form h)

theorem damageEvent_form {s : State} {launch : ℕ} {a : ℕ × Bool} (h : s.wf = true) : (s.damageEvent launch a).wf = true :=
  memEvent_form h _ _ _ _

theorem noteRecord_form {s : State} {c : Ctx} {rec : W64} (h : s.wf = true) : (s.noteRecord c rec).wf = true := by
  unfold State.noteRecord
  split
  · exact wf_of h rfl rfl rfl rfl
  · exact h

theorem closeRecord_form {s : State} {l : Launch} {n : ℕ} {rec : W64} {hi : W32} {status : W16} {non nlate ndrop : ℕ} {result : W64}
    (h : s.wf = true) :
    (s.closeRecord l n rec hi status non nlate ndrop result).wf = true := by
  unfold State.closeRecord
  split
  · exact h
  extract_lets s1
  have hs1 : s1.wf = true := noteRecord_form h
  split
  · extract_lets s2
    have hs2 : s2.wf = true := writeFor_form hs1
    exact writeFor_form hs2
  · exact hs1

theorem externalEffect_form {s : State} {launch : ℕ} (h : s.wf = true) : (s.externalEffect launch).wf = true := sumBit_form h

theorem reach_form {s : State} {dev : ℕ} (h : s.wf = true) : ((s.reach dev).2).wf = true := by
  unfold State.reach
  split
  · exact h
  split
  · exact h
  extract_lets t
  have ht : t.wf = true := physTouch_form h
  exact wf_of ht rfl rfl rfl rfl

theorem sendTo_form {s : State} {dev : ℕ} {x : Sent} (h : s.wf = true) : ((s.sendTo dev x).1).wf = true := by
  unfold State.sendTo
  split
  rename_i t heq
  have ht : t.wf = true := snd_form (reach_form h) heq
  split
  · exact send_form ht _
  · exact ht

theorem peerEvent_form {s : State} {lid : W32} {dev : ℕ} (h : s.wf = true) : (s.peerEvent lid dev).wf = true := post_form h _

theorem reply_form {s : State} {lid : W32} {dev : ℕ} {x : Sent} (h : s.wf = true) : (s.reply lid dev x).wf = true := by
  unfold State.reply
  split
  rename_i t _ heq
  have ht : t.wf = true := fst_form (sendTo_form h) heq
  split
  · exact ht
  · exact peerEvent_form ht

theorem setCtl_form {s : State} {launch set : ℕ} {ctl : W64} (h : s.wf = true) : (s.setCtl launch set ctl).wf = true :=
  storeAt_form h _ _ _ _

theorem setVern_form {s : State} {launch set j : ℕ} {w : W32} (h : s.wf = true) : (s.setVern launch set j w).wf = true :=
  storeAt_form h _ _ _ _

theorem freeFrame_form {s : State} {p : Publication} (h : s.wf = true) : (s.freeFrame p).wf = true := by
  unfold State.freeFrame
  split
  · exact setCtl_form h
  · exact h

theorem abandonOlder_form {s : State} {set : ℕ} {w : W32} (h : s.wf = true) : (s.abandonOlder set w).wf = true := by
  unfold State.abandonOlder
  extract_lets _ s1
  have hs1 : s1.wf = true := foldl_wf (fun _ _ hx => freeFrame_form hx) _ h
  exact wf_of hs1 rfl rfl rfl rfl

theorem takeFrame_form {s : State} {set : ℕ} {w : W32} {size launch : ℕ} {by_ : Publisher} (h : s.wf = true) :
    ((s.takeFrame set w size launch by_).2).wf = true := by
  unfold State.takeFrame
  extract_lets
  split
  · extract_lets s1
    have hs1 : s1.wf = true := setCtl_form (setVern_form h)
    exact tick_form (wf_of hs1 rfl rfl rfl rfl)
  · exact wf_of h rfl rfl rfl rfl

theorem openPub_form {s : State} {set : ℕ} {w : W32} {size launch : ℕ} {by_ : Publisher} (h : s.wf = true) :
    ((s.openPub set w size launch by_).2).wf = true := by
  unfold State.openPub
  split
  · exact h
  · exact takeFrame_form (abandonOlder_form h)

theorem openFor_form {s : State} {set : ℕ} {w : W32} {size launch : ℕ} {by_ : Publisher} (h : s.wf = true) :
    ((s.openFor set w size launch by_).2).wf = true := by
  unfold State.openFor
  split
  · split
    · exact h
    split
    all_goals exact h
  · exact openPub_form h

theorem closePub_form {s : State} {set : ℕ} {w : W32} (h : s.wf = true) : (s.closePub set w).wf = true := by
  unfold State.closePub
  split
  · extract_lets _ _ _ _ _ s1 src
    have hs1 : s1.wf = true := wf_of h rfl rfl rfl rfl
    have hsrc : src.wf = true := setCtl_form hs1
    split
    · exact setCtl_form hs1
    split
    · exact wf_of hsrc rfl rfl rfl rfl
    · exact setCtl_form hs1
  · exact h

theorem abandonPubs_form {s : State} {launch : ℕ} (h : s.wf = true) : (s.abandonPubs launch).wf = true := by
  unfold State.abandonPubs
  extract_lets _ s1
  have hs1 : s1.wf = true := foldl_wf (fun _ _ hx => freeFrame_form hx) _ h
  exact wf_of hs1 rfl rfl rfl rfl

theorem publicationFrameTaken_form {vs : ℕ} {w : W32} {s : State} (h : s.wf = true) : (publicationFrameTaken vs w s).wf = true := by
  unfold publicationFrameTaken
  split
  · exact takeFrame_form h
  · exact h

theorem versionAdvance_form {vs : ℕ} {s : State} (h : s.wf = true) : (versionAdvance vs s).wf = true := by
  unfold versionAdvance
  split
  · exact h
  split
  · extract_lets _ s1
    have hs1 : s1.wf = true := dropLines_form h
    exact wf_of hs1 rfl rfl rfl rfl
  · exact h

theorem postWatch_form {s : State} {w : Watch} (h : s.wf = true) : (s.postWatch w).wf = true := send_form h _

theorem setWatch_form {s : State} {w : Watch} (h : s.wf = true) : (s.setWatch w).wf = true := wf_of h rfl rfl rfl rfl

theorem watchPost_form {s : State} {slot : ℕ} (h : s.wf = true) : (s.watchPost slot).wf = true := by
  unfold State.watchPost
  split
  · exact h
  split
  · exact sumBit_form (setWatch_form (postWatch_form h))
  · exact h

theorem snapEvent_form {s : State} {readOut : Bool} (h : s.wf = true) : (s.snapEvent readOut).wf = true := by
  unfold State.snapEvent
  split
  exact post_form h _

theorem snapshot_form {s : State} {t : Trigger} {lid : W32} {queue : ℕ} (h : s.wf = true) : (s.snapshot t lid queue).wf = true := by
  unfold State.snapshot
  extract_lets _ _ _ _ _ s1 s2
  have hs1 : s1.wf = true := tick_form (setNum_form (setNum_form h _ _) _ _)
  have hs2 : s2.wf = true := wf_of hs1 rfl rfl rfl rfl
  split
  · exact h
  split
  · split
    · exact setNum_form h _ _
    · exact h
  split
  · exact snapEvent_form hs2
  · exact hs2

theorem readoutComplete_form {s : State} (h : s.wf = true) : (readoutComplete s).wf = true := by
  unfold readoutComplete
  split
  · exact h
  extract_lets _ s1 s2
  have hs1 : s1.wf = true := by
    unfold s1
    refine foldl_wf (fun _ _ hx => ?_) _ h
    split
    exact physStore_form hx _ _ _ _
  have hs2 : s2.wf = true := setNum_form hs1 _ _
  exact snapEvent_form (wf_of hs2 rfl rfl rfl rfl)

theorem writeSnapctl_form {s : State} {v : W64} (h : s.wf = true) : (s.writeSnapctl v).wf = true := by
  unfold State.writeSnapctl
  extract_lets
  split
  · exact setNum_form h _ _
  · exact h

theorem setCrs_form {s : State} {u : ℕ} {c : CrsOp} (h : s.wf = true) : (s.setCrs u c).wf = true := by
  unfold State.setCrs
  split
  · exact setOp_form h
  · exact h

theorem readSrcAtom_form {s : State} {u k : ℕ} (h : s.wf = true) : ((s.readSrcAtom u k).1).wf = true := by
  unfold State.readSrcAtom
  split
  · split
    · split
      · exact h
      split
      · exact h
      extract_lets _ _ s1
      have hs1 : s1.wf = true := foldl_wf (fun _ _ hx1 => damageEvent_form hx1) _ (touchPieces_form (tick_form h))
      exact setCrs_form hs1
    · exact h
  · exact h

theorem readSrc_form {s : State} {u : ℕ} {b : Bucket} {ix : List ℕ} (h : s.wf = true) : ((s.readSrc u b ix).1).wf = true := by
  unfold State.readSrc
  refine foldl_fst (fun _ _ hx => ?_) _ h
  split
  · exact readSrcAtom_form hx
  · exact hx

theorem putG_form {s : State} {g : GReg} (h : s.wf = true) : (s.putG g).wf = true := wf_of h rfl rfl rfl rfl

theorem setNorm_form {s : State} {n : Machine.Norm} (h : s.wf = true) : (s.setNorm n).wf = true := wf_of h rfl rfl rfl rfl

theorem closeNorm_form {s : State} {n : Machine.Norm} (h : s.wf = true) : (s.closeNorm n).wf = true := by
  unfold State.closeNorm
  split
  · exact h
  split
  · extract_lets
    split
    · split
      exact putG_form (setNorm_form h)
    · exact h
  · exact h

theorem closeNorms_form {s : State} {lid : ℕ} (h : s.wf = true) : (s.closeNorms lid).wf = true :=
  foldl_wf (fun _ _ hx => closeNorm_form hx) _ h

theorem sendNorm_form {s : State} {n : Machine.Norm} (h : s.wf = true) : (s.sendNorm n).wf = true := by
  unfold State.sendNorm
  split
  · exact setNorm_form h
  split
  · extract_lets _ _ s1
    have hs1 : s1.wf = true := by
      unfold s1
      refine foldl_wf (fun _ _ hx => ?_) _ h
      split
      · exact hx
      · exact reply_form hx
    exact closeNorm_form (setNorm_form hs1)
  · exact setNorm_form h

theorem updateNorm_form {s : State} {n : Machine.Norm} (h : s.wf = true) : (s.updateNorm n).wf = true := by
  unfold State.updateNorm
  split
  · exact sendNorm_form h
  · exact closeNorm_form (setNorm_form h)

theorem hold_form {s : State} {m : HeldMsg} (h : s.wf = true) : (s.hold m).wf = true := wf_of h rfl rfl rfl rfl

theorem normArrival_form {m : NormMsg} {s : State} (h : s.wf = true) : (normArrival m s).wf = true := by
  unfold normArrival
  split
  · extract_lets
    split
    · exact h
    · exact updateNorm_form h
  split
  · exact h
  · exact hold_form h

theorem setDrops_form {s : State} {k : StepKey} {owner n : ℕ} (h : s.wf = true) : (s.setDrops k owner n).wf = true :=
  wf_of h rfl rfl rfl rfl

theorem countDrop_form {s : State} {k : StepKey} {owner : ℕ} (h : s.wf = true) : (s.countDrop k owner).wf = true := setDrops_form h

theorem noRoom_form {s : State} {k : StepKey} {owner rank : ℕ} (h : s.wf = true) : (s.noRoom k owner rank).wf = true :=
  post_form (countDrop_form h) _

theorem setReduction_form {s : State} {r : Reduction} (h : s.wf = true) : (s.setReduction r).wf = true := wf_of h rfl rfl rfl rfl

theorem settleCrs_form {s : State} {u : ℕ} (h : s.wf = true) : (s.settleCrs u).wf = true := by
  unfold State.settleCrs
  split
  · split
    · exact dropOp_form h
    · exact h
  · exact h

theorem crsWrite_form {s : State} {u : ℕ} {st : W16} {non nlate ndrop : ℕ} (h : s.wf = true) :
    (s.crsWrite u st non nlate ndrop).wf = true := by
  unfold State.crsWrite
  split
  · split
    · exact setCrs_form (closeRecord_form h)
    · exact h
  · exact h

theorem crsEnd_form {s : State} {u code : ℕ} (h : s.wf = true) : (s.crsEnd u code).wf = true := by
  unfold State.crsEnd
  split
  · refine dropOp_form ?_
    split
    · exact h
    · exact crsWrite_form (setCrs_form h)
  · exact h

theorem crsRecord_form {s : State} {u : ℕ} {st : W16} {non nlate ndrop : ℕ} (h : s.wf = true) :
    (s.crsRecord u st non nlate ndrop).wf = true := by
  unfold State.crsRecord
  split
  · split
    next t _ heq =>
      have ht : t.wf = true := fst_form (readSrc_form h) heq
      exact crsEnd_form ht
    rename_i t heq
    have ht : t.wf = true := fst_form (readSrc_form h) heq
    exact settleCrs_form (crsWrite_form ht)
  · exact h

theorem writeResults_form {s : State} {l : Launch} {n : ℕ} {fx : StepFields} {d2 : ℕ} {as : List SumAcc} (h : s.wf = true) :
    ((s.writeResults l n fx d2 as).1).wf = true := by
  unfold State.writeResults
  refine foldl_fst (fun _ _ hx => ?_) _ h
  extract_lets
  split
  · exact hx
  · exact writePieces_form hx

theorem remember_form {s : State} {c : Closed} (h : s.wf = true) : (s.remember c).wf = true := wf_of h rfl rfl rfl rfl

theorem reductionFault_form {s : State} {l : Launch} {t : PGTable} {r : Reduction} (h : s.wf = true) :
    (s.reductionFault l t r).wf = true := by
  unfold State.reductionFault
  extract_lets s1 s2
  have hs1 : s1.wf = true := by
    unfold s1
    split
    · exact sumBit_form h
    · exact h
  have hs2 : s2.wf = true := foldl_wf (fun _ _ hx => reply_form hx) _ hs1
  exact snapshot_form (post_form hs2 _)

theorem closeStep_form {s : State} {r : Reduction} {how : W16} (h : s.wf = true) : (s.closeStep r how).wf = true := by
  unfold State.closeStep
  split
  · exact wf_of h rfl rfl rfl rfl
  extract_lets _ _ _ _ _ s1
  have hs1 : s1.wf = true := wf_of h rfl rfl rfl rfl
  split
  rename_i t _ heq
  have ht : t.wf = true := by
    refine fst_form ?_ heq
    split
    · exact hs1
    · exact writeResults_form (tick_form hs1)
  extract_lets s2 _ s3 _ s4
  have hs2 : s2.wf = true := by
    unfold s2
    split
    · exact reductionFault_form ht
    · exact ht
  have hs3 : s3.wf = true := by
    unfold s3
    split
    · split
      split
      exact updateNorm_form hs2
    · exact hs2
  have hs4 : s4.wf = true := setDrops_form (remember_form hs3)
  split
  · split
    · exact crsRecord_form hs4
    · exact hs4
  · exact hs4

theorem ackCrs_form {s : State} {u owner : ℕ} {c : AckClass} (h : s.wf = true) : (s.ackCrs u owner c).wf = true := by
  unfold State.ackCrs
  split
  · split
    · split
      · exact h
      extract_lets _ s1
      have hs1 : s1.wf = true := setCrs_form h
      split
      · exact settleCrs_form hs1
      split
      · split
        · exact hs1
        · split
          all_goals exact crsRecord_form hs1
        · split
          all_goals exact crsRecord_form hs1
        · exact crsRecord_form hs1
      split
      · exact crsRecord_form hs1
      · exact hs1
    · exact h
  · exact h

theorem contribute_form {s : State} {k : StepKey} {owner rank : ℕ} {fx : StepFields} {es : List Elem} (h : s.wf = true) :
    ((s.contribute k owner rank fx es).2).wf = true := by
  unfold State.contribute
  split
  · extract_lets
    split
    · exact h
    split
    · exact noRoom_form h
    · exact setReduction_form h
  · extract_lets
    split
    · exact h
    split
    · exact noRoom_form h
    · exact setReduction_form h
  · exact countDrop_form h

theorem checkQuorum_form {s : State} {k : StepKey} {owner : ℕ} (h : s.wf = true) : (s.checkQuorum k owner).wf = true := by
  unfold State.checkQuorum
  split
  · split
    · exact closeStep_form h
    · exact h
  · exact h

theorem contribOwn_form {u owner : ℕ} {s : State} (h : s.wf = true) : (contribOwn u owner s).wf = true := by
  unfold contribOwn
  split
  · split
    · split
      · split
        · exact h
        extract_lets
        split
        next t _ heq =>
          have ht : t.wf = true := fst_form (readSrc_form h) heq
          exact crsEnd_form ht
        rename_i t heq
        have ht : t.wf = true := fst_form (readSrc_form h) heq
        split
        rename_i t1 heq1
        have ht1 : t1.wf = true := snd_form (contribute_form ht) heq1
        exact checkQuorum_form (ackCrs_form ht1)
      · exact h
    · exact h
  · exact h

theorem acknowledge_form {s : State} {m : ContribMsg} {c : AckClass} (h : s.wf = true) : (s.acknowledge m c).wf = true := reply_form h

theorem contribRemote_form {owner : ℕ} {m : ContribMsg} {s : State} (h : s.wf = true) : (contribRemote owner m s).wf = true := by
  unfold contribRemote
  split
  · split
    rename_i t heq
    have ht : t.wf = true := snd_form (contribute_form h) heq
    exact checkQuorum_form (acknowledge_form ht)
  split
  · exact acknowledge_form h
  split
  · exact hold_form h
  · exact acknowledge_form (noRoom_form h)

theorem quorumTimer_form {k : StepKey} {s : State} (h : s.wf = true) : (quorumTimer k s).wf = true := by
  unfold quorumTimer
  refine foldl_wf (fun _ _ hx => ?_) _ h
  split
  · split
    · exact hx
    · exact post_form (setReduction_form hx) _
  · exact closeStep_form hx

theorem faultHeard_form {s : State} {lid : ℕ} (h : s.wf = true) : (s.faultHeard lid).wf = true := by
  unfold State.faultHeard
  split
  · exact sumBit_form h
  · exact h

theorem ownerAck_form {u owner : ℕ} {c : AckClass} {s : State} (h : s.wf = true) : (ownerAck u owner c s).wf = true := by
  unfold ownerAck
  split
  · exact faultHeard_form h
  split
  · split
    · split
      · exact setOp_form h
      · exact h
    · split
      · exact h
      · exact ackCrs_form h
    · exact h
  · exact h

theorem sendContribs_form {s : State} {u : ℕ} {l : Launch} {t : PGTable} {c : CrsOp} {parts : List (ℕ × List Elem)} (h : s.wf = true) :
    (s.sendContribs u l t c parts).wf = true := by
  unfold State.sendContribs
  extract_lets
  refine foldl_wf (fun _ _ hx => ?_) _ h
  split
  rename_i t2 _ heq
  have ht2 : t2.wf = true := fst_form (sendTo_form hx) heq
  split
  · exact ht2
  · exact crsEnd_form (peerEvent_form ht2)

theorem submitCrs_form {s : State} {bd : Band} {l : Launch} {t : PGTable} {g : PGroup} {b : Bucket} (h : s.wf = true) :
    (s.submitCrs bd l t g b).wf = true := by
  unfold State.submitCrs
  extract_lets _ s1 s2 s3 s4
  have hs1 : s1.wf = true := externalEffect_form h
  have hs2 : s2.wf = true := modLaunch_form hs1
  have hs3 : s3.wf = true := by
    unfold s3
    split
    · exact updateNorm_form hs2
    · exact hs2
  have hs4 : s4.wf = true := tick_form hs3
  split
  · exact closeRecord_form hs1
  split
  · exact closeRecord_form hs3
  extract_lets
  split
  next t1 _ heq =>
    have ht1 : t1.wf = true := fst_form (readSrc_form (startEngine_form hs4)) heq
    exact crsEnd_form ht1
  rename_i t1 heq
  have ht1 : t1.wf = true := fst_form (readSrc_form (startEngine_form hs4)) heq
  exact sendContribs_form ht1

theorem crsBody_form {m : MemRef} {b : Band} {s : State} (h : s.wf = true) : Yields FinFormed (crsBody m b s) := by
  unfold crsBody
  refine yields_after fun x => yields_after fun _ => ?_
  extract_lets rest
  have hrest : ∀ x, Yields FinFormed (rest x) := by
    intro _
    unfold rest
    refine withDesc_form h fun _ _ ht => ?_
    extract_lets
    split
    · exact yields_error
    split
    · exact yields_after fun _ => yields_after fun _ => yields_after fun _ => yields_after fun _ => yields_after fun _ =>
      yields_pure (updateA_form (submitCrs_form (noteRecord_form ht)))
    · exact yields_error
  split
  · exact yields_after fun _ => hrest ()
  · exact hrest ()

theorem stepClosedPoint_form {lid pgrp : ℕ} {st : W32} {s : State} (h : s.wf = true) : (stepClosedPoint lid pgrp st s).wf = true := by
  unfold stepClosedPoint
  split
  · exact h
  split
  · split
    · exact h
    extract_lets _ _ s1 s2
    have hs1 : s1.wf = true := wf_of h rfl rfl rfl rfl
    have hs2 : s2.wf = true := post_form hs1 _
    exact foldl_wf (fun _ _ hx => sendNorm_form hx) _ hs2
  · exact h

theorem ringJoin_form {s : State} {m : RingMsg} (h : s.wf = true) : ((s.ringJoin m).2).wf = true := by
  unfold State.ringJoin
  split
  · split
    · extract_lets
      split
      · exact h
      split
      next t _ heq =>
        have ht : t.wf = true := fst_form (readSrc_form h) heq
        exact crsEnd_form ht
      rename_i t heq
      have ht : t.wf = true := fst_form (readSrc_form h) heq
      extract_lets s1
      have hs1 : s1.wf = true := by
        unfold s1
        split
        · exact setCrs_form ht
        · exact ht
      exact hs1
    · exact h
  · exact h

theorem ackRanks_form {s : State} {k : StepKey} {ranks : List ℕ} {c : AckClass} (h : s.wf = true) :
    (s.ackRanks k ranks c).wf = true := by
  unfold State.ackRanks
  split
  · exact foldl_wf (fun _ _ hx => reply_form hx) _ h
  · exact foldl_wf (fun _ _ hx => send_form hx _) _ h

theorem ackRing_form {s : State} {m : RingMsg} {c : AckClass} (h : s.wf = true) : (s.ackRing m c).wf = true := ackRanks_form h

theorem ringFold_form {s : State} {k : StepKey} {owner : ℕ} {fx : StepFields} {ranks : List ℕ} {ps : List RingPart} (h : s.wf = true) :
    (s.ringFold k owner fx ranks ps).wf = true := by
  unfold State.ringFold
  split
  split
  · extract_lets _ _ _ _ s1
    have hs1 : s1.wf = true := ackRanks_form (setReduction_form h)
    split
    · exact hs1
    · exact checkQuorum_form hs1
  · exact ackRanks_form (foldl_wf (fun _ _ hx => countDrop_form hx) _ h)

theorem ringArrive_form {s : State} {m : RingMsg} (h : s.wf = true) : (s.ringArrive m).wf = true := by
  unfold State.ringArrive
  extract_lets _ _ _ _ _ s1
  have hs1 : s1.wf = true := wf_of h rfl rfl rfl rfl
  split
  · exact h
  split
  · exact wf_of h rfl rfl rfl rfl
  split
  · exact ackRanks_form (foldl_wf (fun _ _ hx => noRoom_form hx) _ hs1)
  · exact ringFold_form hs1

theorem ringHop_form {m : RingMsg} {s : State} (h : s.wf = true) : (ringHop m s).wf = true := by
  unfold ringHop
  split
  · split
    · exact h
    split
    · exact ackRing_form h
    split
    · exact hold_form h
    · exact ackRing_form (foldl_wf (fun _ _ hx => noRoom_form hx) _ h)
  split
  rename_i t heq
  have ht : t.wf = true := snd_form (ringJoin_form h) heq
  split
  · exact ht
  split
  · exact ringArrive_form ht
  · exact send_form ht _

theorem gsgetBody_form {d : Opnd} {j : ℕ} {older : Bool} {x : ℕ} {b : Band} {s : State} (h : s.wf = true) :
    Yields FinFormed (gsgetBody d j older x b s) := by
  unfold gsgetBody
  split
  · refine yields_after fun _ => yields_after fun _ => yields_after fun _ => ?_
    split
    extract_lets t
    have ht : t.wf = true := invalidateL1_form h
    exact yields_pure (awaitS_form (awaitS_form (startOp_form ht)))
  · exact yields_error

theorem clearG_form {s : State} {v : W64} (h : s.wf = true) : (s.clearG v).wf = true := wf_of h rfl rfl rfl rfl

theorem scalarRecord_form {s : State} {u : ℕ} {st : W16} {non nlate ndrop : ℕ} {result : W64} (h : s.wf = true) :
    (s.scalarRecord u st non nlate ndrop result).wf = true := by
  unfold State.scalarRecord
  split
  · split
    · exact dropOp_form (closeRecord_form h)
    · exact dropOp_form h
  · exact h

theorem submitScalar_form {s : State} {bd : Band} {l : Launch} {t : PGTable} {g : PGroup} {d : ScalarDesc} {value : W64}
    (h : s.wf = true) :
    (s.submitScalar bd l t g d value).wf = true := by
  unfold State.submitScalar
  extract_lets _ s1
  have hs1 : s1.wf = true := startEngine_form (externalEffect_form h)
  split
  · exact hs1
  split
  rename_i t1 _ heq
  have ht1 : t1.wf = true := fst_form (sendTo_form hs1) heq
  split
  · exact ht1
  · exact scalarRecord_form (peerEvent_form ht1)

theorem cscalBody_form {a p : Opnd} {b : Band} {s : State} (h : s.wf = true) : Yields FinFormed (cscalBody a p b s) := by
  unfold cscalBody
  refine yields_after fun x => yields_after fun _ => yields_after fun _ => ?_
  extract_lets rest
  have hrest : ∀ x, Yields FinFormed (rest x) := by
    intro _
    unfold rest
    refine withDesc_form h fun _ _ ht => ?_
    extract_lets
    split
    · exact yields_error
    split
    · exact yields_after fun _ => yields_after fun _ => yields_after fun _ => yields_after fun _ => yields_after fun _ =>
      yields_pure (submitScalar_form (noteRecord_form ht))
    · exact yields_error
  split
  · exact yields_after fun _ => hrest ()
  · exact hrest ()

theorem setScalar_form {s : State} {x : ScalarStep} (h : s.wf = true) : (s.setScalar x).wf = true := wf_of h rfl rfl rfl rfl

theorem scalarOutcome_form {s : State} {dev : ℕ} {r : ScalarResult} (h : s.wf = true) : (s.scalarOutcome dev r).wf = true := by
  unfold State.scalarOutcome
  split
  · exact scalarRecord_form h
  · exact reply_form h

theorem closeScalar_form {s : State} {x : ScalarStep} {how : W16} (h : s.wf = true) : (s.closeScalar x how).wf = true := by
  unfold State.closeScalar
  split
  extract_lets _ s1
  have hs1 : s1.wf = true := setScalar_form h
  exact foldl_wf (fun _ _ hx1 => scalarOutcome_form hx1) _ hs1

theorem scalarArrive_form {s : State} {m : ScalarMsg} (h : s.wf = true) : (s.scalarArrive m).wf = true := by
  unfold State.scalarArrive
  extract_lets _ _ s1 _ s2
  have hs1 : s1.wf = true := by
    unfold s1
    split
    · exact setScalar_form h
    · exact h
  have hs2 : s2.wf = true := setScalar_form h
  split
  · exact scalarOutcome_form hs1
  split
  · exact scalarOutcome_form (setScalar_form h)
  split
  · exact closeScalar_form hs2
  · exact hs2

theorem scalarOwn_form {u : ℕ} {s : State} (h : s.wf = true) : (scalarOwn u s).wf = true := by
  unfold scalarOwn
  split
  · split
    · split
      · split
        · exact scalarArrive_form (setOp_form h)
        · exact h
      · exact h
    · exact h
  · exact h

theorem scalarDropped_form {s : State} {m : ScalarMsg} (h : s.wf = true) : (s.scalarDropped m).wf = true := reply_form h

theorem scalarRemote_form {m : ScalarMsg} {s : State} (h : s.wf = true) : (scalarRemote m s).wf = true := by
  unfold scalarRemote
  split
  · exact scalarArrive_form h
  split
  · exact scalarDropped_form h
  split
  · exact hold_form h
  · exact scalarDropped_form (post_form h _)

theorem scalarTimer_form {lid pgrp : ℕ} {step : W32} {s : State} (h : s.wf = true) : (scalarTimer lid pgrp step s).wf = true := by
  unfold scalarTimer
  split
  · split
    · exact h
    split
    · split
      · exact h
      · exact post_form (setScalar_form h) _
    · exact closeScalar_form h
  · exact h

theorem scalarResult_form {r : ScalarResult} {s : State} (h : s.wf = true) : (scalarResult r s).wf = true := by
  unfold scalarResult
  split
  · split
    · exact scalarRecord_form h
    · exact h
  · exact h

theorem cscalTimeout_form {u : ℕ} {s : State} (h : s.wf = true) : (cscalTimeout u s).wf = true := by
  unfold cscalTimeout
  split
  · split
    · split
      · exact scalarRecord_form h
      · exact h
    · exact h
  · exact h

theorem settleCag_form {s : State} {u : ℕ} (h : s.wf = true) : (s.settleCag u).wf = true := by
  unfold State.settleCag
  split
  · split
    · split
      · exact dropOp_form (closeRecord_form h)
      · exact h
    · exact h
  · exact h

theorem cagEnd_form {s : State} {u pos : ℕ} {out : CagOutcome} (h : s.wf = true) : (s.cagEnd u pos out).wf = true := by
  unfold State.cagEnd
  split
  · split
    · split
      · exact h
      · exact settleCag_form (setOp_form h)
    · exact h
  · exact h

theorem cagDeviceDone_form {u pos : ℕ} {out : CagOutcome} {s : State} (h : s.wf = true) : (cagDeviceDone u pos out s).wf = true := by
  unfold cagDeviceDone
  split
  · split
    · exact h
    · exact cagEnd_form h
  · exact h

theorem submitCag_form {s : State} {bd : Band} {l : Launch} {d : CagDesc} (h : s.wf = true) : (s.submitCag bd l d).wf = true := by
  unfold State.submitCag
  extract_lets _ s1
  have hs1 : s1.wf = true := startEngine_form (externalEffect_form h)
  refine foldl_wf (fun _ _ hx => ?_) _ hs1
  split
  · exact cagEnd_form hx
  · exact hx

theorem cagBody_form {m : MemRef} {b : Band} {s : State} (h : s.wf = true) : Yields FinFormed (cagBody m b s) := by
  unfold cagBody
  refine yields_after fun x => yields_after fun _ => ?_
  split
  · exact yields_error
  extract_lets rest rest1
  have hrest : ∀ x, Yields FinFormed (rest x) := by
    intro _
    unfold rest
    refine withDesc_form h fun _ _ ht => ?_
    extract_lets _ rest2
    have hrest2 : ∀ x, Yields FinFormed (rest2 x) := fun _ => yields_after fun _ => yields_after fun _ => yields_after fun _ =>
      yields_pure (updateA_form (submitCag_form (noteRecord_form ht)))
    refine yields_after fun _ => yields_after fun _ => yields_after fun _ => ?_
    split
    · exact yields_after fun _ => hrest2 ()
    · exact hrest2 ()
  have hrest1 : ∀ x, Yields FinFormed (rest1 x) := by
    intro _
    unfold rest1
    split
    · exact yields_after fun _ => hrest ()
    · exact hrest ()
  split
  · exact yields_after fun _ => hrest1 ()
  · exact hrest1 ()

theorem poison_form {s : State} {p : List ℕ} (h : s.wf = true) : ({ s with poison := p } : State).wf = true := wf_of h rfl rfl rfl rfl

theorem layChunk_form {s : State} {pa data : ℕ} {bad : List ℕ} (h : s.wf = true) : (s.layChunk pa data bad).wf = true := by
  unfold State.layChunk
  exact poison_form (ramStore_form h _ _ _)

theorem pubs_form {s : State} {p : List Publication} (h : s.wf = true) : ({ s with pubs := p } : State).wf = true :=
  wf_of h rfl rfl rfl rfl

theorem deliver_form {s : State} {l : Launch} {n rank : ℕ} {w : W32} {va : W64} {data : ℕ} {bad : List ℕ} (h : s.wf = true) :
    ((s.deliver l n rank w va data bad).1).wf = true := by
  unfold State.deliver
  split
  · exact h
  split
  · exact h
  extract_lets
  split
  next heq => exact snd_form (openFor_form h) heq
  next heq => exact snd_form (openFor_form h) heq
  next heq => exact snd_form (openFor_form h) heq
  rename_i t heq
  have ht : t.wf = true := snd_form (openFor_form h) heq
  split
  · split
    · exact ht
    split
    · exact ht
    extract_lets s1 _ s2
    have hs2 : s2.wf = true := pubs_form (layChunk_form ht)
    split
    · exact closePub_form hs2
    · exact hs2
  · exact ht

end Sys2Proof.Proofs.Form
end

section
/-! SUPPORT. The operations of collectives, special registers, bands at rest, accesses as they are performed, and copies keep the form. -/

namespace Sys2Proof.Proofs.Form

open Sys2Proof Sys2Proof.Machine Sys2Proof.Laws

theorem cagFail_form {s : State} {u e : ℕ} (h : s.wf = true) : (s.cagFail u e).wf = true := by
  unfold State.cagFail
  split
  · split
    · exact dropOp_form (closeRecord_form h)
    · exact h
  · exact h

theorem cagDelivered_form {s : State} {u c : ℕ} {d : Delivery} (h : s.wf = true) : (s.cagDelivered u c d).wf = true := by
  unfold State.cagDelivered
  split
  · split
    · split
      · exact h
      · exact cagEnd_form (setOp_form h)
      extract_lets _ _ _ s1
      have hs1 : s1.wf = true := setOp_form h
      split
      · exact hs1
      · exact cagEnd_form hs1
    · exact h
  · exact h

theorem cagOwn_form {u c : ℕ} {s : State} (h : s.wf = true) : (cagOwn u c s).wf = true := by
  unfold cagOwn
  split
  · split
    · split
      · exact h
      extract_lets
      split
      · exact cagFail_form h
      extract_lets
      split
      rename_i t _ heq
      have ht : t.wf = true := by
        refine fst_form ?_ heq
        split
        · exact h
        split
        · exact h
        · exact deliver_form h
      split
      · exact ht
      extract_lets s1 s2 _ s3
      have hs1 : s1.wf = true := foldl_wf (fun _ _ hx1 => damageEvent_form hx1) _ (touchPieces_form ht)
      have hs2 : s2.wf = true := by
        unfold s2
        split
        · exact hs1
        · exact setOp_form hs1
      have hs3 : s3.wf = true := by
        unfold s3
        split
        · refine foldl_wf (fun _ _ hx1 => ?_) _ hs2
          split
          · exact hx1
          split
          rename_i t2 _ heq1
          have ht2 : t2.wf = true := fst_form (sendTo_form hx1) heq1
          split
          · exact ht2
          · exact cagEnd_form (peerEvent_form ht2)
        · exact hs2
      exact cagDelivered_form hs3
    · exact h
  · exact h

theorem setCagIn_form {s : State} {x : CagIn} (h : s.wf = true) : (s.setCagIn x).wf = true := wf_of h rfl rfl rfl rfl

theorem endCagIn_form {s : State} {x : CagIn} {lid : W32} {out : CagOutcome} (h : s.wf = true) : (s.endCagIn x lid out).wf = true :=
  reply_form (setCagIn_form h)

theorem takeChunk_form {s : State} {x : CagIn} {c : CagChunk} (h : s.wf = true) : (s.takeChunk x c).wf = true := by
  unfold State.takeChunk
  split
  · exact h
  split
  · exact h
  extract_lets
  split
  rename_i t _ heq
  have ht : t.wf = true := by
    refine fst_form ?_ heq
    split
    · exact h
    · exact deliver_form (tick_form h)
  split
  · exact setCagIn_form ht
  · exact endCagIn_form ht
  extract_lets
  split
  · exact setCagIn_form ht
  · exact endCagIn_form ht

theorem cagRemote_form {dev tag lid rank nchk : ℕ} {w : W32} {c : CagChunk} {s : State} (h : s.wf = true) :
    (cagRemote dev tag lid rank nchk w c s).wf = true := by
  unfold cagRemote
  split
  · exact takeChunk_form h
  · exact reply_form h

theorem landChunks_form {s : State} (h : s.wf = true) : s.landChunks.wf = true := by
  unfold State.landChunks
  refine foldl_wf (fun _ _ hx => ?_) _ h
  refine foldl_wf (fun _ _ hx1 => ?_) _ hx
  split
  · exact takeChunk_form hx1
  · exact hx1

theorem weirStart_form {s : State} {l : Launch} (h : s.wf = true) : (s.weirStart l).wf = true := by
  unfold State.weirStart
  split
  · exact wf_of h rfl rfl rfl rfl
  · exact h

theorem setWeir_form {s : State} {w : WeirGroup} (h : s.wf = true) : (s.setWeir w).wf = true := wf_of h rfl rfl rfl rfl

theorem retrySteps_form {s : State} (h : s.wf = true) : s.retrySteps.wf = true := wf_of h rfl rfl rfl rfl

theorem sendSteps_form {s : State} {t : PGTable} {g : PGroup} {lid : ℕ} {es : List WeirEntry} (h : s.wf = true) :
    (s.sendSteps t g lid es).wf = true := foldl_wf (fun _ _ hx => foldl_wf (fun _ _ hx1 => reply_form hx1) _ hx) _ h

theorem sendSummary_form {s : State} {t : PGTable} {g : PGroup} {w : WeirGroup} (h : s.wf = true) :
    (s.sendSummary t g w).wf = true := by
  unfold State.sendSummary
  split
  · exact h
  extract_lets
  refine foldl_wf (fun _ _ hx => ?_) _ h
  split
  · exact reply_form hx
  · exact hx

theorem weirHeartbeat_form {s : State} (h : s.wf = true) : (weirHeartbeat s).wf = true := by
  unfold weirHeartbeat
  refine foldl_wf (fun _ _ hx => ?_) _ h
  split
  · exact hx
  split
  · exact hx
  split
  · extract_lets s1 s2
    have hs1 : s1.wf = true := setWeir_form hx
    have hs2 : s2.wf = true := sendSteps_form hs1
    split
    · exact sendSummary_form hs2
    · exact hs2
  · exact hx

theorem hear_form {s : State} {w : WeirGroup} {e : WeirEntry} {step : W32} (h : s.wf = true) : (s.hear w e step).wf = true := by
  unfold State.hear
  extract_lets
  split
  · exact retrySteps_form (post_form (setWeir_form h) _)
  · exact retrySteps_form (setWeir_form h)

theorem weirStepMessage_form {lid rank : ℕ} {step : W32} {s : State} (h : s.wf = true) :
    (weirStepMessage lid rank step s).wf = true := by
  unfold weirStepMessage
  split
  · split
    · split
      · split
        · exact h
        · exact hear_form h
      split
      · exact h
      · exact hear_form h
    · exact h
  split
  · exact h
  · exact hold_form h

theorem podSummary_form {lid pod : ℕ} {step : W32} {s : State} (h : s.wf = true) : (podSummary lid pod step s).wf = true := by
  unfold podSummary
  split
  · split
    · exact h
    extract_lets s1
    have hs1 : s1.wf = true := hear_form h
    split
    · extract_lets
      split
      · exact foldl_wf (fun _ _ hx => reply_form hx) _ hs1
      · exact hs1
    · exact hs1
  split
  · exact h
  · exact hold_form h

theorem silence_form {s : State} {w : WeirGroup} {e : WeirEntry} (h : s.wf = true) : (s.silence w e).wf = true :=
  retrySteps_form (closeNorms_form (setWeir_form h))

theorem weirSilence_form {lid : ℕ} {isPod : Bool} {who : ℕ} {s : State} (h : s.wf = true) :
    (weirSilence lid isPod who s).wf = true := by
  unfold weirSilence
  split
  · split
    · exact h
    extract_lets _ s1
    have hs1 : s1.wf = true := post_form h _
    split
    · exact h
    split
    · exact setWeir_form hs1
    · exact silence_form hs1
  · exact h

theorem stepBody_form {b : Band} {s : State} (h : s.wf = true) : Yields FinFormed (stepBody b s) := by
  unfold stepBody
  refine yields_after fun _ => ?_
  split
  split
  · exact yields_error
  extract_lets
  split
  · exact yields_error
  · exact yields_pure (retrySteps_form (sendSteps_form (setWeir_form h)))

theorem steprdBody_form {d a : Opnd} {sel : ℕ} {b : Band} {s : State} (h : s.wf = true) :
    Yields FinFormed (steprdBody d a sel b s) := by
  unfold steprdBody
  split
  · refine yields_after fun _ => yields_after fun _ => ?_
    split
    exact yields_after fun _ => yields_after fun _ => yields_after fun _ => yields_pure (awaitS_form (startOp_form h))
  · exact yields_error

theorem applyHeld_form {m : HeldMsg} {s : State} (h : s.wf = true) : (applyHeld m s).wf = true := by
  unfold applyHeld
  split
  · exact contribRemote_form h
  · exact scalarRemote_form h
  · exact weirStepMessage_form h
  · exact podSummary_form h
  · exact normArrival_form h
  · exact ringHop_form h

theorem applyHeldFor_form {s : State} {lid : ℕ} (h : s.wf = true) : (s.applyHeldFor lid).wf = true :=
  foldl_wf (fun _ _ hx => applyHeld_form hx) _ (wf_of h rfl rfl rfl rfl)

theorem heldExpiry_form {i : ℕ} {s : State} (h : s.wf = true) : (heldExpiry i s).wf = true := by
  unfold heldExpiry
  split
  · exact h
  split
  · exact h
  extract_lets s1
  have hs1 : s1.wf = true := wf_of h rfl rfl rfl rfl
  split
  · exact acknowledge_form hs1
  · exact ackRing_form hs1
  · exact scalarDropped_form hs1
  · exact hs1

theorem writeFlmcmd_form {s : State} {v : W64} (h : s.wf = true) : (s.writeFlmcmd v).wf = true := by
  unfold State.writeFlmcmd
  split
  · exact h
  · exact foldl_wf (fun _ _ hx => closeScalar_form hx) _ (foldl_wf (fun _ _ hx => closeStep_form hx) _ h)
  · exact silence_form h
  · exact post_form h _

theorem linkLanes_form {ethernet : Bool} {port lanes : ℕ} {s : State} (h : s.wf = true) :
    (linkLanes ethernet port lanes s).wf = true := by
  unfold linkLanes
  extract_lets s1
  have hs1 : s1.wf = true := by
    unfold s1
    split
    · exact h
    · exact setNum_form h _ _
  exact post_form hs1 _

theorem rolesChanged_form {s : State} {core : ℕ} (h : s.wf = true) : (s.rolesChanged core).wf = true :=
  foldl_wf (fun _ _ hx => flushLine_form hx) _ h

theorem writeLsrole_form {s : State} {num : ℕ} {v : W64} (h : s.wf = true) : (s.writeLsrole num v).wf = true := by
  unfold State.writeLsrole
  extract_lets
  split
  · exact h
  split
  · exact h
  extract_lets _ s1 s2
  have hs1 : s1.wf = true := by
    unfold s1
    split
    · exact h
    · exact rolesChanged_form h
  have hs2 : s2.wf = true := setNum_form hs1 _ _
  split
  · exact hs2
  · exact setNum_form hs2 _ _

theorem doorbell_form {s : State} {q : ℕ} {tail : W16} (h : s.wf = true) : (s.doorbell q tail).wf = true := by
  unfold State.doorbell
  extract_lets
  split
  · exact post_form h _
  · exact setReg_form h _ _

theorem writeWmbase_form {s : State} {v : W64} (h : s.wf = true) : (s.writeWmbase v).wf = true := by
  unfold State.writeWmbase
  extract_lets _ s1 s2
  have hs1 : s1.wf = true := setNum_form h _ _
  have hs2 : s2.wf = true := wf_of hs1 rfl rfl rfl rfl
  split
  · exact foldl_wf (fun _ _ hx => watchPost_form hx) _ hs2
  · exact hs1

theorem writeUeptab_form {s : State} {v : W64} (h : s.wf = true) : (s.writeUeptab v).wf = true := by
  unfold State.writeUeptab
  extract_lets src
  have hsrc : src.wf = true := setReg_form h _ _
  exact wf_of hsrc rfl rfl rfl rfl

theorem writeEvrctl_form {s : State} {v : W64} (h : s.wf = true) : (s.writeEvrctl v).wf = true := by
  unfold State.writeEvrctl
  split
  · extract_lets s1
    have hs1 : s1.wf = true := setReg_form h _ _
    exact drain_form (wf_of hs1 rfl rfl rfl rfl)
  · exact h

theorem writeHcmd1_form {s : State} {v : W64} (h : s.wf = true) : (s.writeHcmd1 v).wf = true := by
  unfold State.writeHcmd1
  split
  · exact h
  extract_lets src
  have hsrc : src.wf = true := setReg_form h _ _
  exact wf_of hsrc rfl rfl rfl rfl

theorem writeMsix_form {s : State} {off : ℕ} {v : W64} (h : s.wf = true) : (s.writeMsix off v).wf = true := by
  unfold State.writeMsix
  extract_lets s1
  have hs1 : s1.wf = true := setReg_form h _ _
  split
  · split
    · refine send_form ?_ _
      exact wf_of hs1 rfl rfl rfl rfl
    · exact hs1
  · exact hs1

theorem writeReg_form {s : State} {off : ℕ} {v mask : W64} {secure : Bool} (h : s.wf = true) :
    (s.writeReg off v mask secure).wf = true := by
  unfold State.writeReg
  generalize regSpec off = r
  cases r with
  | none => exact h
  | some r =>
    refine ite_form (ite_form (doorbell_form (setReg_form h _ _)) (setReg_form h _ _)) ?_
    refine ite_form (doorbell_form h) <| ite_form (writeEvrctl_form h) <| ite_form (writeFlmcmd_form h) ?_
    refine ite_form (writeUeptab_form h) <| ite_form (writeHcmd1_form h) <| ite_form (writeMsix_form h) ?_
    refine ite_form (setReg_form h _ _) <| ite_form h <| ite_form (writeWmbase_form h) <| ite_form (clearG_form h) ?_
    exact ite_form (writeSnapctl_form h) <| ite_form (setReg_form h _ _) <| ite_form (writeLsrole_form h) (setReg_form h _ _)

theorem requestReport_form {s : State} {nonce : BitVec 384} (h : s.wf = true) : (s.requestReport nonce).wf = true := by
  unfold State.requestReport
  extract_lets
  split
  · exact wf_of h rfl rfl rfl rfl
  · exact h

theorem mailbox_form {s : State} {m : List (ℕ × Byte)} (h : s.wf = true) (hm : Mem.wf m = true) : ({ s with mailbox :=
  m } : State).wf = true := by
  obtain ⟨hmem, hls, _, hregs⟩ := (wf_iff s).1 h
  exact (wf_iff _).2 ⟨hmem, hls, hm, hregs⟩

theorem foldl_set_wf {n : ℕ} : ∀ (l : List (ℕ × Byte)) {m : List (ℕ × Byte)}, Mem.wf m = true →
    Mem.wf (l.foldl (fun m c => Mem.set m (c.1 - n) c.2) m) = true
  | [], _, h => h
  | _ :: l, _, h => foldl_set_wf l (set_wf h _ _)

theorem writeMailbox_form {s : State} {cells : List (ℕ × Byte)} (h : s.wf = true) : (s.writeMailbox cells).wf = true := by
  unfold State.writeMailbox
  obtain ⟨_, _, hm, _⟩ := (wf_iff s).1 h
  extract_lets s1
  have hs1 : s1.wf = true := mailbox_form h (foldl_set_wf _ hm)
  clear_value s1
  split
  · exact requestReport_form hs1
  · exact hs1

theorem devStore_form {s : State} {cells : List (ℕ × Byte)} {secure : Bool} (h : s.wf = true) :
    (s.devStore cells secure).wf = true := by
  unfold State.devStore
  extract_lets _ _ s1
  have hs1 : s1.wf = true := by
    unfold s1
    split
    · exact h
    · exact writeMailbox_form h
  refine foldl_wf (fun _ _ hx => ?_) _ hs1
  split
  exact writeReg_form hx

theorem celogClear_form {unit : ℕ} {s : State} (h : s.wf = true) : (celogClear unit s).wf = true := by
  unfold celogClear
  extract_lets
  split
  · exact h
  · exact setCelog_form h _

theorem mfsrBody_form {d : Opnd} {n : ℕ} {b : Band} {s : State} (h : s.wf = true) : Yields FinFormed (mfsrBody d n b s) :=
  yields_after fun _ => yields_bind (scalarDst_form h) fun _ ht => yields_pure ht

theorem mtsrBody_form {d : Opnd} {n : ℕ} {b : Band} {s : State} (h : s.wf = true) : Yields FinFormed (mtsrBody d n b s) := by
  unfold mtsrBody
  refine yields_after fun x => ?_
  split
  · refine yields_after fun _ => ?_
    extract_lets rest
    have hrest : ∀ x, Yields FinFormed (rest x) := fun _ => yields_pure (writeReg_form h)
    split
    · refine yields_after fun _ => ?_
      split
      · exact yields_after fun _ => hrest ()
      · exact hrest ()
    · exact hrest ()
  · exact yields_error

theorem tailraceSpill_form {p : Place} {d : ℕ} {s : State} (h : s.wf = true) : (tailraceSpill p d s).wf = true := by
  unfold tailraceSpill
  split
  · exact h
  split
  · split
    · exact h
    split
    all_goals exact setBand_form h
  · exact h

theorem writeParts_form {s : State} {l : Launch} {run : ℕ} {p : Place} {base : W64} {parts : List (ℕ × List Byte)} (h : s.wf = true) :
    (s.writeParts l run p base parts).wf = true := by
  unfold State.writeParts
  refine foldl_wf (fun _ _ hx => ?_) _ h
  split
  split
  · exact writePieces_form hx
  · exact hx

theorem spillFrame_form {s : State} {b : Band} {pas : List (ℕ × ℕ)} {f : Frame} (h : s.wf = true) :
    (s.spillFrame b pas f).wf = true := foldl_wf (fun _ _ hx => plainWrite_form hx) _ h

theorem frameSpilled_form {p : Place} {d : ℕ} {s : State} (h : s.wf = true) : (frameSpilled p d s).wf = true := by
  unfold frameSpilled
  split
  · exact h
  split
  · split
    · exact h
    split
    · exact setBand_form h
    split
    · exact h
    · exact modBand_form (spillFrame_form h)
  · exact h

theorem refillComplete_form {p : Place} {s : State} (h : s.wf = true) : (refillComplete p s).wf = true := by
  unfold refillComplete
  split
  · exact h
  split
  · split
    · exact h
    split
    · exact setBand_form h
    · exact h
    split
    · exact consumeAll_form (setBand_form (plainTouch_form h))
    · exact h
  · exact h

theorem saveBand_form {s : State} {l : Launch} {b : Band} (h : s.wf = true) : Gives Formed (s.saveBand l b) :=
  gives_map fun _ => writeParts_form h

theorem spillAll_form {s : State} {l : Launch} {b : Band} (h : s.wf = true) : Gives Formed (s.spillAll l b) := by
  unfold State.spillAll
  refine foldl_gives (fun _ _ hx => ?_) _ (gives_some h)
  split
  · split
    · exact gives_some (modBand_form (hx _ rfl))
    split
    · exact gives_none
    · exact gives_some (modBand_form (spillFrame_form (hx _ rfl)))
  · exact gives_none

theorem bandPark_saving {core quad : ℕ} {s : State} {save spill : State → Launch → Band → Option State} (hsave : State.saveBand = save)
    (hspill : State.spillAll = spill) (h : s.wf = true) : (bandPark core quad s).wf = true := by
  have hu : ∀ {t l b}, t.wf = true → Gives Formed (save t l b) := fun ht => hsave ▸ saveBand_form ht
  have ht : ∀ {l b}, Gives Formed (spill s l b) := hspill ▸ spillAll_form h
  unfold bandPark
  rw [hsave, hspill]
  split
  · exact h
  extract_lets bs low
  split
  · exact h
  split
  · exact h
  split
  · exact h
  split
  · exact decideKill_form h
  next heq =>
    split
    · exact decideKill_form (ht _ heq)
    next heq' => exact modBand_form (hu (ht _ heq) _ heq')

theorem bandPark_form {core quad : ℕ} {s : State} (h : s.wf = true) : (bandPark core quad s).wf = true := bandPark_saving rfl rfl h

theorem bandRestore_reading {core quad : ℕ} {s : State} {load : State → Launch → Band → Option Band}
    {read : State → Launch → Band → ℕ → Frame → SlotRead} (hload : State.loadBand = load) (hread : State.readSlot = read)
      (h : s.wf = true) :
    (bandRestore core quad s).wf = true := by
  unfold bandRestore
  rw [hload, hread]
  split
  · exact h
  split
  · exact h
  split
  · exact h
  split
  · exact decideKill_form h
  extract_lets c nv ns
  clear_value c nv ns
  split
  · split
    · split
      · split
        · exact wakeTokens_form (setBand_form h)
        · exact h
      · exact h
      · split
        · exact wakeTokens_form (consumeAll_form (setBand_form (plainTouch_form h)))
        · exact h
    · split
      · exact wakeTokens_form (setBand_form h)
      · exact h
  · split
    · exact wakeTokens_form (setBand_form h)
    · exact h

theorem bandRestore_form {core quad : ℕ} {s : State} (h : s.wf = true) : (bandRestore core quad s).wf = true :=
  bandRestore_reading rfl rfl h

theorem apWrite_form {s : State} {pa : ℕ} {bs : List Byte} (h : s.wf = true) : (s.apWrite pa bs).wf = true := by
  unfold State.apWrite
  split
  · exact h
  split
  · exact writePieces_form h
  · exact setBand_form h

theorem scPerform_form {s : State} {x : Access} {pa : ℕ} (h : s.wf = true) : ((s.scPerform x pa).1).wf = true := by
  unfold State.scPerform
  split
  · exact h
  · exact wf_of h rfl rfl rfl rfl

theorem acquireOf_form {s : State} {o : Op} {x : Access} (h : s.wf = true) : (s.acquireOf o x).wf = true := by
  unfold State.acquireOf
  split
  · exact invalidateL1_form h
  · exact h

theorem endStore_form {s : State} {o : Op} {x : Access} (h : s.wf = true) : (s.endStore o x).wf = true := by
  unfold State.endStore
  split
  · exact h
  split
  · exact setOp_form (dropFlag_form h)
  · exact endOp_form h

theorem consumeBy_form {s : State} {o : Op} {pa : ℕ} {tag : Bool} (h : s.wf = true) : (s.consumeBy o pa tag).wf = true := by
  unfold State.consumeBy
  extract_lets _ s1
  have hs1 : s1.wf = true := decideKill_form (memEvent_form h _ _ _ _)
  exact modBand_form hs1

theorem homeRead_form {s : State} {o : Op} {pa : ℕ} (h : s.wf = true) : (((s.homeRead o pa).2).2).wf = true := by
  unfold State.homeRead
  split
  · exact scrub_form h _
  · exact consumeBy_form h
  · exact consumeBy_form h

theorem ramRead_home {s : State} {o : Op} {x : Access} {a : AtomAcc} {read : State → Op → ℕ → BitVec 256 × Bool × State}
    (hread : State.homeRead = read) (h : s.wf = true) : (((s.ramRead o x a).2).2).wf = true := by
  have hr : ∀ {t o pa}, t.wf = true → (read t o pa).2.2.wf = true := fun ht => hread ▸ homeRead_form ht
  unfold State.ramRead
  rw [hread]
  extract_lets pa core s1
  clear_value pa core
  have hs1 : s1.wf = true := ite_form (flushLine_form h) h
  clear_value s1
  split
  · cases s.l1Hit core pa a.mask with
    | some d => exact h
    | none =>
      dsimp only
      generalize hr' : read s o pa = r
      obtain ⟨d, good, t⟩ := r
      have ht : t.wf = true := snd_snd_form (hr h) hr'
      cases good <;> simp only [Bool.false_eq_true, if_true, if_false]
      · exact ht
      · exact fillLine_form ht
  · generalize hr' : read s1 o pa = r
    obtain ⟨d, good, t⟩ := r
    have ht : t.wf = true := snd_snd_form (hr hs1) hr'
    cases good <;> simp only [Bool.false_eq_true, if_true, if_false]
    · exact ht
    · exact l1Update_form ht

theorem ramRead_form {s : State} {o : Op} {x : Access} {a : AtomAcc} (h : s.wf = true) : (((s.ramRead o x a).2).2).wf = true :=
  ramRead_home rfl h

theorem atomRead_form {u i : ℕ} {ext : BitVec 256} {s : State} (h : s.wf = true) : (atomRead u i ext s).wf = true := by
  unfold atomRead
  split
  · split
    · split
      · extract_lets
        split
        · exact h
        split
        rename_i t heq
        have ht : t.wf = true := by
          refine snd_snd_form ?_ heq
          split
          · exact ramRead_form h
          · exact h
          · exact send_form h _
          · exact h
        split
        rename_i t1 _ heq1
        have ht1 : t1.wf = true := fst_form (scPerform_form ht) heq1
        exact acquireOf_form (setOp_form ht1)
      · exact h
    · exact h
  · exact h

theorem atomWrite_form {u i : ℕ} {s : State} (h : s.wf = true) : (atomWrite u i s).wf = true := by
  unfold atomWrite
  split
  · split
    · split
      · extract_lets _ s1
        have hs1 : s1.wf = true := by
          unfold s1
          split
          · exact coreStore_form h
          · exact devStore_form h
          · exact foldl_wf (fun _ _ hx => send_form hx _) _ h
          · exact h
        split
        · exact h
        split
        rename_i t _ heq
        have ht : t.wf = true := fst_form (scPerform_form hs1) heq
        exact endStore_form (acquireOf_form (setOp_form ht))
      · exact h
    · exact h
  · exact h

theorem atomicPerform_form {u i : ℕ} {s : State} (h : s.wf = true) : (atomicPerform u i s).wf = true := by
  unfold atomicPerform
  split
  · split
    · split
      · extract_lets _ _ _ s1
        have hs1 : s1.wf = true := by
          unfold s1
          split
          · exact flushLine_form h
          · exact h
        split
        · exact h
        split
        rename_i t heq
        have ht : t.wf = true := by
          refine snd_snd_form ?_ heq
          split
          · exact tick_form hs1
          · exact homeRead_form hs1
        split
        extract_lets _ s2
        have hs2 : s2.wf = true := by
          unfold s2
          split
          · exact ht
          split
          · split
            · exact ht
            · exact l1Update_form ht
          split
          · exact foldl_wf (fun _ _ hx1 => send_form hx1 _) _ ht
          · exact l1Update_form (homeWrite_form ht)
        split
        rename_i t1 _ heq1
        have ht1 : t1.wf = true := fst_form (scPerform_form hs2) heq1
        exact acquireOf_form (setOp_form ht1)
      · exact h
    · exact h
  · exact h

theorem apertureAccess_form {u lane : ℕ} {s : State} (h : s.wf = true) : (apertureAccess u lane s).wf = true := by
  unfold apertureAccess
  split
  · split
    · split
      · extract_lets
        split
        · exact h
        split
        · extract_lets
          split
          · exact h
          split
          rename_i t heq
          have ht : t.wf = true := snd_snd_form (ramRead_form h) heq
          exact acquireOf_form (setOp_form ht)
        · exact acquireOf_form (setOp_form h)
      · exact h
    · exact h
  · exact h

theorem apertureStore_form {u lane : ℕ} {s : State} (h : s.wf = true) : (apertureStore u lane s).wf = true := by
  unfold apertureStore
  split
  · split
    · split
      · extract_lets _ _ finish
        have hfinish : ∀ t, t.wf = true → (finish t).wf = true := fun _ ht => endStore_form (acquireOf_form (setOp_form ht))
        split
        · exact h
        split
        · extract_lets
          split
          · exact h
          · exact hfinish _ (coreStore_form h)
        · exact hfinish _ (apWrite_form h)
      · exact h
    · exact h
  · exact h

theorem landMask_form {s : State} {o : Op} {d : Dest} (h : s.wf = true) : (s.landMask o d).wf = true := by
  unfold State.landMask
  split
  · split
    · exact takeTrap_form h
    · exact h
  · exact h

theorem endRead_form {s : State} {o : Op} {x : Access} {v : ArithVal} {fps : BitVec 6} (h : s.wf = true) :
    (s.endRead o x v fps).wf = true := by
  unfold State.endRead
  extract_lets s1
  have hs1 : s1.wf = true := setFps_form (landMask_form (landDest_form h))
  split
  · exact setOp_form (dropFlag_form hs1)
  · exact endOp_form hs1

theorem loadReturn_form {u : ℕ} {s : State} (h : s.wf = true) : (loadReturn u s).wf = true := by
  unfold loadReturn
  split
  · split
    · split
      · exact h
      · exact endRead_form h
    · split
      · exact h
      · exact endRead_form h
    · exact endOp_form (landMask_form (landDest_form h))
    · exact h
  · exact h

theorem scResponse_form {u : ℕ} {s : State} (h : s.wf = true) : (scResponse u s).wf = true := by
  unfold scResponse
  split
  · split
    · split
      · exact h
      extract_lets _ _ s1
      have hs1 : s1.wf = true := wf_of h rfl rfl rfl rfl
      split
      · split
        · exact endOp_form hs1
        · exact setOp_form hs1
      · exact endOp_form hs1
      · exact setOp_form hs1
      · exact hs1
    · exact h
  · exact h

theorem walkFailed_form {s : State} {b : Band} {va : W64} {kind lane : ℕ} {malformed : Bool} (h : s.wf = true) :
    (s.walkFailed b va kind lane malformed).wf = true := by
  unfold State.walkFailed
  extract_lets _ s1
  have hs1 : s1.wf = true := setBand_form h
  split
  all_goals exact takeTrap_form hs1

theorem walkComplete_form {agent : Agent} {root : ℕ} {va : W64} {s : State} (h : s.wf = true) :
    (walkComplete agent root va s).wf = true := by
  unfold walkComplete
  extract_lets waiting ctx
  clear_value waiting ctx
  split
  · exact h
  split
  · refine foldl_wf (fun _ _ hx => ?_) _ h
    split
    · exact walkFailed_form hx
    · exact hx
  extract_lets s1
  have hs1 : s1.wf = true := tlbFill_form h
  exact wf_of hs1 rfl rfl rfl rfl

theorem versionTimeout_form {p : Place} {s : State} (h : s.wf = true) : (versionTimeout p s).wf = true := by
  unfold versionTimeout
  split
  · split
    · exact h
    split
    · exact setBand_form h
    · exact takeTrap_form (setBand_form h)
  · exact h

theorem addLocks_form {s : State} {ls : List Lock} (h : s.wf = true) : (s.addLocks ls).wf = true := wf_of h rfl rfl rfl rfl

theorem dropLocks_form {s : State} {u : ℕ} (h : s.wf = true) : (s.dropLocks u).wf = true := wf_of h rfl rfl rfl rfl

theorem l1Engine_form {s : State} {core pa : ℕ} {mask : BitVec 32} {x : BitVec 256} (h : s.wf = true) :
    (s.l1Engine core pa mask x).wf = true := by
  unfold State.l1Engine
  split
  · exact setLine_form h
  · exact h

theorem engineStore_form {s : State} {o : Op} {cells : List (ℕ × Byte)} {bad : List ℕ} (h : s.wf = true) :
    (s.engineStore o cells bad).wf = true := by
  unfold State.engineStore
  extract_lets _ _ s1 s2 _ s3 s4
  have hs1 : s1.wf = true := foldl_wf (fun _ _ hx => l1Engine_form (homeWrite_form hx)) _ h
  have hs2 : s2.wf = true := by
    unfold s2
    refine foldl_wf (fun _ _ hx => ?_) _ hs1
    split
    · exact homePoison_form hx
    · exact hx
  have hs3 : s3.wf = true := by
    unfold s3
    split
    · exact hs2
    · exact devStore_form hs2
  have hs4 : s4.wf = true := foldl_wf (fun _ _ hx => send_form hx _) _ hs3
  exact foldl_wf (fun _ _ hx => apWrite_form hx) _ hs4

theorem putMove_form {s : State} {o : Op} {m : Move'} {bs : List (Byte × Bool)} {keep : ℕ → Bool} (h : s.wf = true) :
    (s.putMove o m bs keep).wf = true := by
  unfold State.putMove
  split
  · exact engineStore_form h
  · refine foldl_wf (fun _ _ hx => ?_) _ h
    split
    split
    · exact hx
    · exact setLs_form hx _ _
  · exact h

theorem copyEnded_form {s : State} {u scope : ℕ} (h : s.wf = true) : (s.copyEnded u scope).wf = true := wf_of h rfl rfl rfl rfl

theorem endEngine_form {s : State} {u : ℕ} {stamp : Option StampSpec} {status : W16} {count nvme : ℕ} (h : s.wf = true) :
    (s.endEngine u stamp status count nvme).wf = true := by
  unfold State.endEngine
  split
  · exact h
  extract_lets s1 s2
  have hs1 : s1.wf = true := by
    unfold s1
    split
    · extract_lets s3
      have hs3 : s3.wf = true := engineStore_form h
      exact engineStore_form hs3
    · exact h
  have hs2 : s2.wf = true := by
    unfold s2
    split
    · exact snapshot_form (sumBit_form hs1)
    · exact hs1
  exact copyEnded_form (dropOp_form (dropLocks_form hs2))

theorem damaged_form {s : State} {o : Op} {atoms : List (ℕ × Bool)} {toLocal : Bool} (h : s.wf = true) :
    (s.damaged o atoms toLocal).wf = true := by
  unfold State.damaged
  refine foldl_wf (fun _ _ hx => ?_) _ h
  extract_lets s1
  have hs1 : s1.wf = true := damageEvent_form hx
  split
  · exact decideKill_form hs1
  · exact hs1

theorem touchSides_form {s : State} {o : Op} {xs : List Side} (h : s.wf = true) : (s.touchSides o xs).wf = true := by
  unfold State.touchSides
  refine foldl_wf (fun _ _ hx => ?_) _ h
  split
  · exact touchPieces_form hx
  · exact hx

theorem transfer_form {s : State} {o : Op} {ms : List Move'} {partly : Bool} (h : s.wf = true) :
    ((s.transfer o ms partly).1).wf = true := by
  unfold State.transfer
  extract_lets
  split
  rename_i t _ _ heq
  have ht : t.wf = true := fst_form (foldl_fst (fun _ _ hx1 => putMove_form hx1) _ (touchSides_form h)) heq
  extract_lets s2
  have hs2 : s2.wf = true := damaged_form (damaged_form ht)
  split
  · exact tick_form hs2
  · exact hs2

theorem addSlice_form {s : State} {b : Band} {n : ℕ} {sl : Slice} (h : s.wf = true) : ((s.addSlice b n sl).1).wf = true := by
  unfold State.addSlice
  split
  · split
    · exact setOp_form h
    · exact h
  · exact startEngine_form h

theorem copyAttach_form {b : Band} {desc : Option (List W64)} {stamp : Option StampSpec} {s : State} (h : s.wf = true) :
    Yields Formed (copyAttach b desc stamp s) := by
  unfold copyAttach
  extract_lets
  refine yields_after fun x => yields_after fun _ => ?_
  extract_lets rest
  have hrest : ∀ x, Yields Formed (rest x) := by
    intro _
    unfold rest
    split
    rename_i t _ heq
    have ht : t.wf = true := fst_form (addSlice_form h) heq
    exact yields_after fun _ => yields_pure (modBand_form (addLocks_form ht))
  split
  · exact yields_after fun _ => hrest ()
  · exact hrest ()

theorem copyBody_form {m : MemRef} {b : Band} {s : State} (h : s.wf = true) : Yields FinFormed (copyBody m b s) := by
  unfold copyBody
  refine yields_after fun _ => ?_
  split
  · exact yields_bind (copyAttach_form h) fun _ ht => yields_pure (updateA_form ht)
  · exact withDesc_form h fun _ _ ht => yields_after fun _ => yields_bind (copyAttach_form ht) fun _ ht1 => yields_pure (updateA_form ht1)

theorem publish_form {x : Building} {l : Launch} {w : Workgroup} {u : ℕ} {sl : Slice} {d : CopyDesc} (hx : x.s.wf = true) :
    (Building.publish x l w u sl d).s.wf = true := by
  unfold Building.publish
  extract_lets
  split
  · exact hx
  extract_lets
  split
  rename_i t heq
  have ht : t.wf = true := by
    refine snd_form ?_ heq
    split
    · exact hx
    · exact openFor_form hx
  split
  · exact ht
  split
  all_goals exact ht

theorem slice_form {x : Building} {l : Launch} {w : Workgroup} {u : ℕ} {sl : Slice} {d : CopyDesc} {t : Option Tensor}
    (hx : x.s.wf = true) :
    (Building.slice x l w u sl d t).s.wf = true := by
  unfold Building.slice
  split
  · exact hx
  split
  · exact publish_form hx
  · exact hx

theorem copyStart_form {u : ℕ} {s : State} (h : s.wf = true) : (copyStart u s).wf = true := by
  unfold copyStart
  split
  · split
    · split
      · exact h
      extract_lets sls st stamp _ bad x _ p
      have hx : x.s.wf = true := by
        unfold x
        refine foldl_building (fun _ _ hx1 => ?_) _ h
        split
        · exact slice_form hx1
        · exact hx1
      clear_value sls st stamp bad x p
      split
      · exact setOp_form h
      split
      · exact hx
      · exact setOp_form hx
    · exact h
  · exact h

theorem abandonPub_form {s : State} {u set : ℕ} {w : W32} (h : s.wf = true) : (s.abandonPub u set w).wf = true := by
  unfold State.abandonPub
  split
  · split
    · extract_lets s1
      have hs1 : s1.wf = true := freeFrame_form h
      exact wf_of hs1 rfl rfl rfl rfl
    · exact h
  · exact h

theorem copyComplete_form {u : ℕ} {s : State} (h : s.wf = true) : (copyComplete u s).wf = true := by
  unfold copyComplete
  split
  · split
    · extract_lets
      split
      · exact h
      split
      rename_i t _ _ heq
      have ht : t.wf = true := fst_form (transfer_form h) heq
      extract_lets _ _ s1
      have hs1 : s1.wf = true := by
        unfold s1
        refine foldl_wf (fun _ _ hx1 => ?_) _ ht
        split
        · exact abandonPub_form hx1
        · exact closePub_form hx1
      exact endEngine_form hs1
    · exact h
  · exact h

theorem copyPart_form {s : State} {o : Op} {i k n : ℕ} (h : s.wf = true) : (s.copyPart o i k n).wf = true := by
  unfold State.copyPart
  split
  · split
    · split
      · exact h
      split
      rename_i t _ _ heq
      have ht : t.wf = true := fst_form (transfer_form h) heq
      exact setOp_form ht
    · exact h
  · exact h

theorem publicationOpen_form {launch vs : ℕ} {w : W32} {pageSize : ℕ} {s : State} (h : s.wf = true) :
    (publicationOpen launch vs w pageSize s).wf = true := by
  unfold publicationOpen
  split
  · split
    · exact openPub_form h
    · exact h
  · exact h

theorem publicationClose_form {vs : ℕ} {w : W32} {s : State} (h : s.wf = true) : (publicationClose vs w s).wf = true := by
  unfold publicationClose
  split
  · split
    · split
      · exact closePub_form h
      · exact h
    split
    · split
      · split
        · exact setOp_form (closePub_form h)
        · exact h
      · exact h
    · exact h
  · exact h

theorem copymStart_form {b : Band} {desc : Option (List W64)} {stamp : Option StampSpec} {s : State} (h : s.wf = true) :
    Yields Formed (copymStart b desc stamp s) := by
  unfold copymStart
  refine yields_after fun _ => yields_after fun _ => yields_after fun _ => ?_
  extract_lets _ _ _ t
  have ht : t.wf = true := addLocks_form (startEngine_form h)
  exact yields_after fun _ => yields_pure (modBand_form ht)

theorem copymBody_form {m : MemRef} {b : Band} {s : State} (h : s.wf = true) : Yields FinFormed (copymBody m b s) := by
  unfold copymBody
  refine yields_after fun _ => ?_
  split
  · exact yields_bind (copymStart_form h) fun _ ht => yields_pure (updateA_form ht)
  · exact withDesc_form h fun _ _ ht => yields_after fun _ => yields_bind (copymStart_form ht) fun _ ht1 => yields_pure (updateA_form ht1)

theorem takeFlags_form {s : State} {rs : List Receiver} {locks : List Lock} (h : s.wf = true) : (s.takeFlags rs locks).wf = true :=
  addLocks_form (wf_of h rfl rfl rfl rfl)

theorem sendPayload_form {s : State} {u launch : ℕ} {seq : BitVec 48} {st : W16} {runs : List Run} {x : Receiver × ℕ} (h : s.wf = true) :
    (s.sendPayload u launch seq st runs x).wf = true := by
  unfold State.sendPayload
  split
  · exact h
  extract_lets
  split
  rename_i t _ heq
  have ht : t.wf = true := fst_form (sendTo_form h) heq
  split
  · exact ht
  split
  · split
    · exact setOp_form (post_form ht _)
    · exact ht
  · exact ht

end Sys2Proof.Proofs.Form
end

section
/-! SUPPORT. The operations of multicasts, stashes, storage, launches, events and placement keep the form. -/

namespace Sys2Proof.Proofs.Form

open Sys2Proof Sys2Proof.Machine Sys2Proof.Laws

theorem settleCopym_form {s : State} {u : ℕ} (h : s.wf = true) : (s.settleCopym u).wf = true := by
  unfold State.settleCopym
  split
  · split
    · split
      · exact endEngine_form h
      · exact h
    · exact h
  · exact h

theorem copymSend_form {u : ℕ} {away : Bool} {s : State} (h : s.wf = true) : (copymSend u away s).wf = true := by
  unfold copymSend
  split
  · split
    · split
      · exact h
      extract_lets fail
      have hfail : ∀ e, (fail e).wf = true := fun _ => endEngine_form h
      split
      · exact hfail _
      extract_lets
      split
      · exact hfail _
      split
      · exact hfail _
      split
      · exact hfail _
      split
      · exact hfail _
      split
      · exact hfail _
      extract_lets _ _ s1
      have hs1 : s1.wf = true := takeFlags_form h
      split
      split
      · exact h
      split
      · exact endEngine_form hs1
      extract_lets _ _ _ s2 _ s3
      have hs2 : s2.wf = true := damaged_form (touchSides_form hs1)
      have hs3 : s3.wf = true := setOp_form hs2
      exact settleCopym_form (foldl_wf (fun _ _ hx => sendPayload_form hx) _ hs3)
    · exact h
  · exact h

theorem inboundSend_form {dev lid tag : ℕ} {priv : Bool} {lo : ℤ} {n : ℕ} {entries : List (W64 × W64 × W64)} {s : State}
    (h : s.wf = true) :
    (inboundSend dev lid tag priv lo n entries s).wf = true := by
  unfold inboundSend
  extract_lets
  split
  · exact h
  extract_lets
  split
  · exact h
  · exact addLocks_form (wf_of h rfl rfl rfl rfl)

theorem putRuns_form {s : State} {o : Op} {ms : List (Move' × Run)} (h : s.wf = true) : (s.putRuns o ms).wf = true := by
  unfold State.putRuns
  refine foldl_wf (fun _ _ hx => ?_) _ h
  split
  exact putMove_form hx

theorem receive_form {s : State} {o : Op} {l : Launch} {priv : Bool} {seq : BitVec 48} {r : Receiver} {lo : ℤ} {n : ℕ}
    {runs : List Run} {st : W16} {count : ℕ} (h : s.wf = true) :
    ((s.receive o l priv seq r lo n runs st count).1).wf = true := by
  unfold State.receive
  extract_lets
  split
  · exact h
  extract_lets s1
  have hs1 : s1.wf = true := putRuns_form h
  split
  · exact hs1
  split
  · exact hs1
  extract_lets _ s2
  have hs2 : s2.wf = true := engineStore_form hs1
  exact engineStore_form hs2

theorem copymAck_form {u i code : ℕ} {s : State} (h : s.wf = true) : (copymAck u i code s).wf = true := by
  unfold copymAck
  split
  · split
    · split
      · extract_lets
        split
        · exact settleCopym_form h
        split
        · exact h
        split
        rename_i t _ heq
        have ht : t.wf = true := by
          refine fst_form ?_ heq
          split
          · exact receive_form h
          · exact h
        exact settleCopym_form (setOp_form ht)
      · exact h
    · exact h
  · exact h

theorem inboundPayload_form {dev tag i : ℕ} {runs : List Run} {seq : BitVec 48} {st : W16} {count : ℕ} {s : State} (h : s.wf = true) :
    (inboundPayload dev tag i runs seq st count s).wf = true := by
  unfold inboundPayload
  split
  · exact h
  split
  · split
    · exact h
    extract_lets
    split
    rename_i t _ heq
    have ht : t.wf = true := fst_form (receive_form h) heq
    extract_lets s1
    have hs1 : s1.wf = true := reply_form ht
    split
    · exact dropLocks_form (wf_of hs1 rfl rfl rfl rfl)
    · exact wf_of hs1 rfl rfl rfl rfl
  · exact h

theorem copymPart_form {s : State} {o : Op} {i k n : ℕ} (h : s.wf = true) : (s.copymPart o i k n).wf = true := by
  unfold State.copymPart
  split
  · split
    · split
      · extract_lets
        split
        · exact h
        split
        · exact h
        split
        · exact h
        · exact setOp_form (putRuns_form h)
      · exact h
    · exact h
  · exact h

theorem stashBody_form {dst : Opnd} {m : MemRef} {b : Band} {s : State} (h : s.wf = true) : Yields FinFormed (stashBody dst m b s) := by
  unfold stashBody
  refine yields_after fun x => yields_after fun _ => ?_
  extract_lets rest
  have hrest : ∀ x, Yields FinFormed (rest x) := by
    intro _
    unfold rest
    refine withDesc_form h fun _ _ ht => ?_
    extract_lets
    refine yields_after fun _ => yields_after fun _ => yields_after fun _ => ?_
    refine yields_after fun _ => yields_after fun _ => yields_after fun _ => yields_after fun _ => yields_after fun _ => ?_
    extract_lets
    refine yields_after fun _ => ?_
    split
    extract_lets t1
    have ht1 : t1.wf = true := modBand_form (addLocks_form (startEngine_form ht))
    exact yields_pure (updateA_form (countSr_form (setFps_form ht1)))
  split
  · exact yields_after fun _ => hrest ()
  · exact hrest ()

theorem stashComplete_form {u : ℕ} {s : State} (h : s.wf = true) : (stashComplete u s).wf = true := by
  unfold stashComplete
  split
  · split
    · split
      · exact h
      split
      · exact endEngine_form h
      split
      split
      · exact h
      split
      rename_i t _ _ heq
      have ht : t.wf = true := fst_form (transfer_form h) heq
      exact endEngine_form ht
    · exact h
  · exact h

theorem stashPart_form {s : State} {o : Op} {i k n : ℕ} (h : s.wf = true) : (s.stashPart o i k n).wf = true := by
  unfold State.stashPart
  split
  · split
    · extract_lets
      split
      split
      · exact h
      · exact setOp_form (transfer_form h)
    · exact h
  · exact h

theorem enginePart_form {s : State} {u i k n : ℕ} (h : s.wf = true) : (s.enginePart u i k n).wf = true := by
  unfold State.enginePart
  split
  · split
    · exact copyPart_form h
    · exact copymPart_form h
    · exact stashPart_form h
    · exact h
  · exact h

theorem yieldcReactivate_form {p : Place} {s : State} (h : s.wf = true) : (yieldcReactivate p s).wf = true := by
  unfold yieldcReactivate
  split
  · split
    · split
      · exact h
      extract_lets _ s1
      have hs1 : s1.wf = true := setBand_form (acquireAt_form h)
      split
      · exact takeTrap_form hs1
      · exact hs1
    · exact h
  · exact h

theorem exchange_form {i : Instr} {d a : Opnd} {idx : Band → State → Try (ℕ → ℕ)} {a1 : State} (h : a1.wf = true) :
    (exchange i d a idx a1).wf = true :=
  issue_form (fun _ _ ht => yields_after fun _ => yields_after fun _ => yields_after fun _ =>
    yields_bind (arithElems_form ht) fun _ ht1 => yields_pure ht1) h

theorem countSum_form {s : State} {b : Band} {op : ℕ} (h : s.wf = true) : (s.countSum b op).wf = true := by
  unfold State.countSum
  split
  · exact countSr_form h
  · exact h

theorem reduction_form {i : Instr} {op : ℕ} {d a : Opnd} {a1 : State} (h : a1.wf = true) : (reduction i op d a a1).wf = true := by
  unfold reduction
  refine issue_form (fun _ t ht => ?_) h
  refine yields_after fun _ => yields_after fun _ => ?_
  extract_lets _ rest
  have hrest : ∀ t, t.wf = true → Yields FinFormed (rest t) := fun _ ht1 => yields_pure (countSum_form ht1)
  split
  · exact yields_bind (arithS_form ht) fun _ ht1 => hrest _ ht1
  · exact yields_bind (arithElems_form ht) fun _ ht1 => hrest _ ht1

theorem arithTwo_form {s : State} {b : Band} {n : ℕ} {lo hi : VReg} {fps : BitVec 6} (h : s.wf = true) :
    Yields Formed (s.arithTwo b n lo hi fps) :=
  yields_after fun _ => yields_after fun _ => yields_pure (awaitV_form (awaitV_form (startOp_form h)))

theorem topK_form {i : Instr} {d a : Opnd} {smallest merge : Bool} {k : ℕ} {a1 : State} (h : a1.wf = true) :
    (topK i d a smallest merge k a1).wf = true := by
  unfold topK
  refine issue_form (fun _ _ ht => ?_) h
  refine yields_after fun _ => yields_after fun _ => yields_after fun _ => ?_
  refine yields_after fun _ => yields_after fun _ => yields_after fun _ => yields_after fun _ => yields_after fun _ => ?_
  extract_lets
  split
  · exact yields_after fun _ => yields_pure (startOp_form ht)
  · exact yields_bind (arithTwo_form ht) fun _ ht1 => yields_pure ht1

theorem arithWritten_form {u : ℕ} {s : State} (h : s.wf = true) : (arithWritten u s).wf = true := by
  unfold arithWritten
  split
  · split
    · exact endOp_form (setFps_form (landDest_form h))
    · exact h
  · exact h

theorem setQpair_form {s : State} {q : QPair} (h : s.wf = true) : (s.setQpair q).wf = true := wf_of h rfl rfl rfl rfl

theorem stgldBody_form {m : MemRef} {b : Band} {s : State} (h : s.wf = true) : Yields FinFormed (stgldBody m b s) := by
  unfold stgldBody
  refine yields_after fun x => yields_after fun _ => ?_
  extract_lets rest
  have hrest : ∀ x, Yields FinFormed (rest x) := by
    intro _
    unfold rest
    refine withDesc_form h fun _ t ht => ?_
    extract_lets _ _ _ _ s1 rest1
    have hs1 : s1.wf = true := by
      unfold s1
      split
      · exact externalEffect_form ht
      · exact ht
    have hrest1 : ∀ x, Yields FinFormed (rest1 x) := by
      intro _
      unfold rest1
      refine yields_after fun _ => yields_after fun _ => yields_after fun _ => yields_after fun _ => ?_
      extract_lets _ _ start
      have hstart : ∀ t q, t.wf = true → (start t q).wf = true := by
        intro _ _ hq
        unfold start
        extract_lets t2
        have ht2 : t2.wf = true := addLocks_form (startEngine_form hq)
        exact updateA_form (modBand_form ht2)
      refine yields_after fun _ => ?_
      split
      · exact yields_pure (hstart _ _ hs1)
      split
      · exact yields_error
      · exact yields_pure (hstart _ _ (wf_of hs1 rfl rfl rfl rfl))
    split
    · exact yields_after fun _ => hrest1 ()
    · exact hrest1 ()
  split
  · exact yields_after fun _ => hrest ()
  · exact hrest ()

theorem storageAssigned_form {u : ℕ} {s : State} (h : s.wf = true) : (storageAssigned u s).wf = true := by
  unfold storageAssigned
  split
  · split
    · split
      · exact h
      split
      · split
        · exact endEngine_form h
        · exact h
      split
      · exact h
      extract_lets _ _ _ _ _ _ s1 s2
      have hs1 : s1.wf = true := setQpair_form (physStore_form h _ _ _ _)
      have hs2 : s2.wf = true := setOp_form hs1
      split
      · exact post_form hs2 _
      · exact send_form hs2 _
    · exact h
  · exact h

theorem storageCompletion_form {j : ℕ} {s : State} (h : s.wf = true) : (storageCompletion j s).wf = true := by
  unfold storageCompletion
  split
  · exact h
  extract_lets _ _ status _ op _ s1 s2
  have hs1 : s1.wf = true := setQpair_form h
  have hs2 : s2.wf = true := by
    unfold s2
    split
    · exact hs1
    · exact send_form hs1 _
  split
  · exact h
  clear_value status op s2
  split
  · exact hs2
  split
  · split
    all_goals exact endEngine_form hs2
  · exact hs2

theorem storageTimeout_form {u : ℕ} {s : State} (h : s.wf = true) : (storageTimeout u s).wf = true := by
  unfold storageTimeout
  split
  · split
    · extract_lets
      split
      · exact endEngine_form h
      · exact h
    · exact h
  · exact h

theorem outsideWrite_form {s : State} {cells : List (ℕ × Byte)} (h : s.wf = true) : (s.outsideWrite cells).wf = true := by
  unfold State.outsideWrite
  refine foldl_wf (fun _ _ hx => ?_) _ h
  split
  · exact hx
  split
  · exact secureEvent_form hx _
  · exact atomStore_form hx _ _ _ _

theorem outsideRefused_form {s : State} {pas : List ℕ} (h : s.wf = true) : (s.outsideRefused pas).wf = true :=
  foldl_wf (fun _ _ hx => physTouch_form hx) _ h

theorem outsideRam_form {s : State} {k : PcieKind} {size data : ℕ} {pas : List ℕ} (h : s.wf = true) :
    (s.outsideRam k size data pas).wf = true := by
  unfold State.outsideRam
  extract_lets _ put
  have hput : ∀ t x, t.wf = true → (put t x).wf = true := fun _ _ hx => outsideWrite_form hx
  split
  · exact hput _ _ h
  · exact send_form (outsideRefused_form h) _
  split
  · exact send_form h _
  split
  · exact send_form (outsideRefused_form h) _
  refine send_form ?_ _
  split
  · exact hput _ _ h
  · exact outsideRefused_form h

theorem windowAccess_form {kind : PcieKind} {off size data : ℕ} {s : State} (h : s.wf = true) :
    (windowAccess kind off size data s).wf = true := by
  unfold windowAccess
  extract_lets
  split
  · exact outsideWrite_form h
  · split
    · exact send_form h _
    · exact send_form (outsideRefused_form h) _
  split
  · exact outsideRam_form h
  · exact send_form h _

theorem watchBody_form {d : Opnd} {m : MemRef} {b : Band} {s : State} (h : s.wf = true) : Yields FinFormed (watchBody d m b s) := by
  unfold watchBody
  refine yields_after fun x => yields_after fun _ => yields_after fun _ => yields_after fun _ => yields_after fun _ => ?_
  extract_lets _ rest
  have hrest : ∀ x, Yields FinFormed (rest x) := by
    intro _
    unfold rest
    refine yields_after fun _ => ?_
    split
    · split
      · exact yields_bind (writeS_form h) fun _ ht => yields_pure (updateA_form ht)
      · exact yields_bind (writeS_form h) fun _ ht => yields_pure (updateA_form (wf_of ht rfl rfl rfl rfl))
    · exact yields_error
  split
  · exact yields_after fun _ => hrest ()
  · exact hrest ()

theorem copymLost_form {s : State} {o : Op} {dev : ℕ} (h : s.wf = true) : (s.copymLost o dev).wf = true := by
  unfold State.copymLost
  split
  · refine foldl_wf (fun _ _ hx => ?_) _ h
    split
    split
    · exact copymAck_form hx
    · exact hx
  · exact h

theorem opLost_form {s : State} {l : Launch} {dev : ℕ} {o : Op} (h : s.wf = true) : (s.opLost l dev o).wf = true := by
  unfold State.opLost
  split
  · split
    · exact crsEnd_form h
    · exact h
  · split
    · split
      · exact scalarRecord_form h
      · exact h
    · exact h
  · refine foldl_wf (fun _ _ hx => ?_) _ h
    split
    · exact cagEnd_form hx
    · exact hx
  · exact copymLost_form h

theorem peerLost_form {s : State} {l : Launch} {dev : ℕ} (h : s.wf = true) : (s.peerLost l dev).wf = true := by
  unfold State.peerLost
  extract_lets s1 _ s2
  have hs1 : s1.wf = true := foldl_wf (fun _ _ hx => opLost_form hx) _ h
  have hs2 : s2.wf = true := foldl_wf (fun _ _ hx => dropLocks_form hx) _ hs1
  refine post_form ?_ _
  exact wf_of hs2 rfl rfl rfl rfl

theorem peerUnreachable_form {lid dev : ℕ} {s : State} (h : s.wf = true) : (peerUnreachable lid dev s).wf = true := by
  unfold peerUnreachable
  split
  · exact h
  · exact foldl_wf (fun _ _ hx => peerLost_form hx) _ h

theorem advanceHead_form {s : State} {q : ℕ} (h : s.wf = true) : (s.advanceHead q).wf = true := setReg_form h _ _

theorem cpTouch_form {s : State} {l : Launch} {va : W64} {n : ℕ} (h : s.wf = true) : (s.cpTouch l va n).wf = true := by
  unfold State.cpTouch
  split
  · exact h
  · exact foldl_wf (fun _ _ hx => physTouch_form hx) _ h

theorem cpStore_form {s : State} {pa : ℕ} {bs : List Byte} {secure : Bool} (h : s.wf = true) : (s.cpStore pa bs secure).wf = true := by
  unfold State.cpStore
  split
  · exact devStore_form h
  · exact postWrite_form h
  · exact writeFor_form h

theorem writeStamp_form {s : State} {l : Launch} {status : Byte} (h : s.wf = true) : Gives Formed (s.writeStamp l status) := by
  unfold State.writeStamp
  split
  · exact gives_some h
  split
  · exact gives_none
  split
  · exact gives_none
  · exact gives_some (cpStore_form h)

theorem postEnd_form {s : State} {l : Launch} {status : Byte} (h : s.wf = true) : (s.postEnd l status).wf = true := by
  unfold State.postEnd
  split
  next t heq =>
    have ht : t.wf = true := (writeStamp_form h) _ heq
    exact post_form ht _
  · exact post_form h _

theorem endWatches_form {s : State} {u : ℕ} (h : s.wf = true) : (s.endWatches u).wf = true := by
  unfold State.endWatches
  extract_lets _ s1
  have hs1 : s1.wf = true := foldl_wf (fun _ _ hx => watchPost_form hx) _ h
  exact wf_of hs1 rfl rfl rfl rfl

theorem endCollectives_form {s : State} {l : Launch} (h : s.wf = true) : (s.endCollectives l).wf = true := by
  unfold State.endCollectives
  split
  · exact h
  · exact wf_of h rfl rfl rfl rfl

theorem dropLaunch_form {s : State} {u : ℕ} (h : s.wf = true) : (s.dropLaunch u).wf = true := wf_of h rfl rfl rfl rfl

theorem complete_form {s : State} {u : ℕ} {status : Byte} (h : s.wf = true) : (s.complete u status).wf = true := by
  unfold State.complete
  extract_lets s1
  have hs1 : s1.wf = true := endWatches_form h
  split
  · exact hs1
  · exact dropLaunch_form (endCollectives_form (postEnd_form hs1))

theorem refuse_form {s : State} {l : Launch} {status : Byte} (h : s.wf = true) : (s.refuse l status).wf = true :=
  dropLaunch_form (postEnd_form (advanceHead_form h))

theorem cpReads_form {s : State} {bs : List Byte} {l : Launch} (h : s.wf = true) : (s.cpReads bs l).wf = true := by
  unfold State.cpReads
  split
  · exact h
  · exact foldl_wf (fun _ _ hx => cpTouch_form hx) _ h

theorem readRecord_form {s : State} {n : ℕ} {c : List (ℕ × ℕ)} {r : List (ℕ × ℕ)} (h : s.wf = true) :
    ({ s with nextUid := n, cancels := c, lastRead := r } : State).wf = true := wf_of h rfl rfl rfl rfl

theorem launches_form {s : State} {ls : List Launch} (h : s.wf = true) : ({ s with launches := ls } : State).wf = true :=
  wf_of h rfl rfl rfl rfl

theorem launchDispatch_form {q : ℕ} {s : State} (h : s.wf = true) : (launchDispatch q s).wf = true := by
  unfold launchDispatch
  refine ite_form h ?_
  extract_lets pa bs l gone read s1
  have hs1 : s1.wf = true := readRecord_form (physTouch_form h)
  clear_value s1 read gone l bs pa
  refine ite_form (stray_form h _) (ite_form (refuse_form hs1) ?_)
  generalize s1.checkLaunch bs l = r
  cases r with
  | error e => exact refuse_form (cpReads_form hs1)
  | ok l => exact launches_form (cpReads_form hs1)

theorem launchActivate_form {q : ℕ} {s : State} (h : s.wf = true) : (launchActivate q s).wf = true := by
  unfold launchActivate
  split
  · exact h
  split
  · exact refuse_form h
  split
  · split
    · exact h
    split
    · exact refuse_form h
    extract_lets _ s1
    have hs1 : s1.wf = true := setLaunch_form (advanceHead_form h)
    exact applyHeldFor_form (weirStart_form hs1)
  split
  · exact h
  split
  · exact refuse_form h
  extract_lets _ s1
  have hs1 : s1.wf = true := setLaunch_form (advanceHead_form h)
  exact applyHeldFor_form (weirStart_form hs1)

theorem ringCoalesce_form {s : State} (h : s.wf = true) : (ringCoalesce s).wf = true := by
  unfold ringCoalesce
  split
  · extract_lets
    split
    · exact h
    refine interrupt_form ?_ _
    exact wf_of h rfl rfl rfl rfl
  · exact h

theorem trapEntry_form {p : Place} {s : State} (h : s.wf = true) : (trapEntry p s).wf = true := by
  unfold trapEntry
  split
  · exact h
  split
  · split
    · exact h
    split
    · exact trapKills_form h
    · exact enterTrap_form h
  · exact h

theorem logPlacement_form {s : State} {u kind wslot : ℕ} {places : List Place} {item : ℕ} (h : s.wf = true) :
    (s.logPlacement u kind wslot places item).wf = true := by
  unfold State.logPlacement
  split
  · extract_lets _ s1 _ _ s2 s3
    have hs1 : s1.wf = true := modLaunch_form h
    have hs2 : s2.wf = true := by
      unfold s2
      split
      · exact writePieces_form hs1
      · exact hs1
    have hs3 : s3.wf = true := modLaunch_form hs2
    split
    · exact hs1
    split
    · exact post_form hs3 _
    · exact hs3
  · exact h

theorem makeBands_form {s : State} {l : Launch} {w : Workgroup} {f : Band → Band} (h : s.wf = true) :
    (s.makeBands l w f).wf = true := by
  unfold State.makeBands
  extract_lets _ src
  have hsrc : src.wf = true := modWg_form h
  exact wf_of hsrc rfl rfl rfl rfl

theorem stampWg_form {s : State} {l : Launch} {w : Workgroup} {i : Image} (h : s.wf = true) : (s.stampWg l w i).wf = true := by
  unfold State.stampWg
  extract_lets s1 s2
  have hs1 : s1.wf = true := writeSpace_form h _ _ _ _
  have hs2 : s2.wf = true := modWg_form hs1
  exact makeBands_form hs2

theorem settleImages_form {s : State} (h : s.wf = true) : s.settleImages.wf = true := by
  unfold State.settleImages
  extract_lets s1
  have hs1 : s1.wf = true := wf_of h rfl rfl rfl rfl
  exact wf_of hs1 rfl rfl rfl rfl

theorem putWg_form {s : State} {l : Launch} {run idx : ℕ} {template : Bool} {slot : ℕ} {places : List Place} {ctx : ℕ} (h : s.wf = true) :
    (s.putWg l run idx template slot places ctx).wf = true := by
  unfold State.putWg
  extract_lets _ _ _ s1 s2 s3 s4 s5
  have hs1 : s1.wf = true := wf_of h rfl rfl rfl rfl
  have hs2 : s2.wf = true := modLaunch_form hs1
  have hs3 : s3.wf = true := logPlacement_form hs2
  have hs4 : s4.wf = true := clearWindows_form (invalidateL1_form hs3) _
  have hs5 : s5.wf = true := by
    unfold s5
    split
    · exact makeBands_form hs4
    split
    · split
      · exact stampWg_form hs4
      · exact hs4
    · exact hs4
  exact settleImages_form hs5

theorem placeOn_form {s : State} {u run idx : ℕ} {template : Bool} {cores : List ℕ} (h : s.wf = true) :
    Gives Formed (s.placeOn u run idx template cores) := by
  unfold State.placeOn
  refine gives_after fun _ => gives_after fun _ => gives_findSome (fun _ => ?_) _
  refine gives_map fun _ => ?_
  split
  exact putWg_form h

theorem putPinned_form {l : Launch} {put : State → List ℕ → ℕ → Option State} {idx : ℕ → ℕ}
    (hput : ∀ t cores w, t.wf = true → Gives Formed (put t cores w)) : ∀ {pins : List (Level × ℕ)} {cores ws : List ℕ} {s : State},
    s.wf = true → Gives Formed (State.putPinned l put idx pins cores ws s)
  | [], _, _, _, h => gives_foldlM (fun _ _ ht => hput _ _ _ ht) _ h
  | _ :: _, _, _, _, h => by
    rw [State.putPinned]
    exact gives_foldlM (fun _ _ ht => gives_findSome (fun _ => putPinned_form hput ht) _) _ h

theorem putTogether_form {s : State} {l : Launch} {put : State → List ℕ → ℕ → Option State} {idx : ℕ → ℕ} {ws : List ℕ}
    (h : s.wf = true) (hput : ∀ t y z, t.wf = true → Gives Formed (put t y z)) :
    Gives Formed (s.putTogether l put idx ws) := gives_findSome (fun _ => putPinned_form (fun _ _ _ hw => hput _ _ _ hw) h) _

theorem stampNested_form {s : State} {w : Workgroup} {n : Nested} {p : Place} (h : s.wf = true) : (s.stampNested w n p).wf = true := by
  unfold State.stampNested
  split
  · extract_lets _ _ _ s1 s2
    have hs1 : s1.wf = true := wf_of h rfl rfl rfl rfl
    have hs2 : s2.wf = true := modWg_form hs1
    exact settleImages_form (logPlacement_form hs2)
  · exact h

theorem fillSlot_form {s : State} {u : ℕ} {p : Place} (h : s.wf = true) : (s.fillSlot u p).wf = true := by
  unfold State.fillSlot
  split
  · exact h
  split
  · split
    · exact h
    · exact stampNested_form h
  · exact h

theorem setDef_form {s : State} {q : ℕ} {x : ℤ} (h : s.wf = true) : (s.setDef q x).wf = true := setReg_form h _ _

theorem charge_form {s : State} {l : Launch} {n : ℕ} (h : s.wf = true) : (s.charge l n).wf = true := setDef_form (modLaunch_form h)

theorem chargeWg_form {s : State} {w : Workgroup} {n : ℕ} (h : s.wf = true) : (s.chargeWg w n).wf = true := by
  unfold State.chargeWg
  split
  · exact h
  split
  · exact modLaunch_form h
  · exact charge_form (modLaunch_form h)

theorem wgExit_form {s : State} {w : Workgroup} (h : s.wf = true) : (s.wgExit w).wf = true := by
  unfold State.wgExit
  extract_lets s1 _ _ s2 s3
  have hs1 : s1.wf = true := chargeWg_form (freeTokensOf_form h)
  have hs2 : s2.wf = true := modWg_form hs1
  have hs3 : s3.wf = true := wf_of hs2 rfl rfl rfl rfl
  exact settleImages_form (modLaunch_form hs3)

theorem releaseInst_form {s : State} {u inst run : ℕ} (h : s.wf = true) : (s.releaseInst u inst run).wf = true := by
  unfold State.releaseInst
  split
  · exact h
  extract_lets _ s1
  have hs1 : s1.wf = true := wf_of h rfl rfl rfl rfl
  exact modLaunch_form hs1

theorem dropHolder_form {s : State} {band : ℕ} (h : s.wf = true) : (s.dropHolder band).wf = true := wf_of h rfl rfl rfl rfl

theorem endBand_form {s : State} {b : Band} (h : s.wf = true) : (s.endBand b).wf = true := by
  unfold State.endBand
  extract_lets s1 s2 s3 s4
  have hs1 : s1.wf = true := by
    unfold s1
    split
    · exact endLateSwap_form h
    · exact h
  have hs2 : s2.wf = true := dropHolder_form (wf_of hs1 rfl rfl rfl rfl)
  have hs3 : s3.wf = true := modWg_form hs2
  have hs4 : s4.wf = true := settleImages_form (barsAfterExit_form (fillSlot_form hs3))
  split
  · split
    · exact wgExit_form hs4
    · exact hs4
  · exact hs4

theorem exitBody_form {b : Band} {s : State} (h : s.wf = true) : Yields FinFormed (exitBody b s) := by
  unfold exitBody
  refine yields_after fun _ => ?_
  extract_lets t
  have ht : t.wf = true := endBand_form h
  refine yields_pure ?_
  split
  · split
    · exact settleImages_form (releaseInst_form ht)
    · exact ht
  · exact ht

theorem freezeBody_form {b : Band} {s : State} (h : s.wf = true) : Yields FinFormed (freezeBody b s) := by
  unfold freezeBody
  split
  · exact yields_error
  extract_lets rest
  have hrest : ∀ x, Yields FinFormed (rest x) := by
    intro _
    unfold rest
    refine yields_after fun _ => yields_after fun _ => ?_
    extract_lets _ s1 s2
    have hs1 : s1.wf = true := wf_of h rfl rfl rfl rfl
    have hs2 : s2.wf = true := by
      unfold s2
      split
      · exact hs1
      · exact modWg_form hs1
    exact yields_pure (endBand_form hs2)
  split
  · exact yields_after fun _ => hrest ()
  · exact hrest ()

end Sys2Proof.Proofs.Form
end

section
/-! SUPPORT. The operations of saving, placing, commands, host accesses, boot and matrices keep the form. -/

namespace Sys2Proof.Proofs.Form

open Sys2Proof Sys2Proof.Machine Sys2Proof.Laws

theorem imageAck_form {u inst core : ℕ} {s : State} (h : s.wf = true) : (imageAck u inst core s).wf = true := by
  unfold imageAck
  split
  · exact h
  split
  · exact h
  split
  · exact h
  extract_lets _ s1
  have hs1 : s1.wf = true := wf_of h rfl rfl rfl rfl
  exact settleImages_form (foldl_wf (fun _ _ hx => stampWg_form hx) _ (invalidateL1_form hs1))

theorem startPreempt_form {s : State} {w : Workgroup} {fixed : Bool} (h : s.wf = true) : (s.startPreempt w fixed).wf = true :=
  wf_of h rfl rfl rfl rfl

theorem saveParts_form {s : State} {l : Launch} {run : ℕ} {p : Place} {base : W64} {n : ℕ} {parts : List (ℕ × List Byte)}
    (h : s.wf = true) :
    Gives Formed (s.saveParts l run p base n parts) := gives_map fun _ => writeParts_form h

theorem saveOne_form {s : State} {l : Launch} {w : Workgroup} {b : Band} (h : s.wf = true) : Gives Formed (s.saveOne l w b) := by
  unfold State.saveOne
  split
  · exact gives_some h
  · exact gives_bind (spillAll_form h) fun _ ht => saveBand_form ht

theorem saveImage_form {s : State} {l : Launch} {w : Workgroup} {i : Image} (h : s.wf = true) : Gives Formed (s.saveImage l w i) := by
  unfold State.saveImage
  split
  · exact gives_some h
  · exact gives_mapOf (saveParts_form h) fun _ ht => wf_of ht rfl rfl rfl rfl

theorem saveAll_form {s : State} {l : Launch} {w : Workgroup} (h : s.wf = true) : Gives Formed (s.saveAll l w) := by
  unfold State.saveAll
  split
  · exact gives_some h
  extract_lets
  refine gives_bind (gives_foldlM (fun _ _ hx => saveOne_form hx) _ h) fun _ ht => ?_
  refine gives_bind (gives_foldlM (fun _ _ hx => saveImage_form hx) _ ht) fun _ ht1 => ?_
  extract_lets _ _ s1
  have hs1 : s1.wf = true := modWg_form ht1
  exact gives_bind (saveParts_form hs1) fun _ ht2 => gives_bind (saveParts_form ht2) fun _ ht3 =>
    gives_bind (saveParts_form ht3) fun _ ht4 => gives_some (tick_form ht4)

theorem unplace_form {s : State} {w : Workgroup} {vwait : ℕ} (h : s.wf = true) : (s.unplace w vwait).wf = true := by
  unfold State.unplace
  extract_lets _ _ s1 s2
  have hs1 : s1.wf = true := chargeWg_form (freeTokensOf_form h)
  have hs2 : s2.wf = true := wf_of hs1 rfl rfl rfl rfl
  exact modWg_form hs2

theorem preemptSave_form {u : ℕ} {s : State} (h : s.wf = true) : (preemptSave u s).wf = true := by
  unfold preemptSave
  split
  · exact h
  split
  · exact h
  extract_lets
  split
  · exact h
  split
  · exact decideKill_form h
  rename_i t heq
  have ht : t.wf = true := (gives_foldlM (fun _ _ hx1 => saveAll_form hx1) _ h) _ heq
  exact foldl_wf (fun _ _ hx1 => unplace_form hx1) _ ht

theorem takeTokens_form {s : State} {core slot : ℕ} {ts : List Token} (h : s.wf = true) : Gives Formed (s.takeTokens core slot ts) := by
  unfold State.takeTokens
  refine gives_foldlM (fun _ _ hx => ?_) _ h
  split
  · exact gives_some (takeToken_form hx)
  · exact gives_some hx
  · exact gives_none

theorem loadWindows_form {s : State} {l : Launch} {w : Workgroup} (h : s.wf = true) : Gives Formed (s.loadWindows l w) :=
  gives_map fun _ => foldl_wf (fun _ _ hx1 => setLs_form hx1 _ _) _ h

theorem loadStage_form {s : State} {l : Launch} {w : Workgroup} (h : s.wf = true) : Gives Formed (s.loadStage l w) := by
  unfold State.loadStage
  refine gives_map fun _ => ?_
  split
  · exact h
  · exact tick_form (modWg_form h)

theorem loadBands_form {s : State} {l : Launch} {w : Workgroup} {saved : List Band} (h : s.wf = true) :
    Gives Formed (s.loadBands l w saved) := by
  unfold State.loadBands
  refine gives_foldlM (fun _ _ hx => ?_) _ h
  refine gives_after fun _ => gives_some ?_
  exact wf_of hx rfl rfl rfl rfl

theorem shareImages_form {s : State} {bs : List Band} {core : ℕ} (h : s.wf = true) : (s.shareImages bs core).wf = true :=
  wf_of h rfl rfl rfl rfl

theorem movePlans_form {s : State} {u core slot core' slot' : ℕ} (h : s.wf = true) :
    (s.movePlans u core slot core' slot').wf = true := wf_of h rfl rfl rfl rfl

theorem resumeWg_form {s : State} {l : Launch} {cores : List ℕ} {u : ℕ} (h : s.wf = true) : Gives Formed (s.resumeWg l cores u) := by
  unfold State.resumeWg
  refine gives_after fun _ => gives_after fun _ => ?_
  split
  split
  · exact gives_some (decideKill_form h)
  refine gives_bind (takeTokens_form h) fun _ ht => ?_
  extract_lets _ s1 s2 s3 s4 r
  have hs1 : s1.wf = true := invalidateL1_form (setWg_form (movePlans_form ht))
  have hs2 : s2.wf = true := modLaunch_form hs1
  have hs3 : s3.wf = true := logPlacement_form hs2
  have hs4 : s4.wf = true := clearWindows_form hs3 _
  have hr : Gives Formed r := gives_bind (loadWindows_form hs3) fun _ ht1 => gives_bind (loadStage_form ht1) fun _ ht2 =>
    gives_after fun _ => loadBands_form (shareImages_form ht2)
  split
  · refine gives_some ?_
    split
    · split
      · exact stampWg_form hs4
      · exact hs4
    · exact hs4
  clear_value s3 r
  split
  · exact gives_some (decideKill_form hs3)
  split
  · exact gives_some (hr _ rfl)
  · exact gives_none

theorem placeEntry_form {s : State} {u : ℕ} (h : s.wf = true) : Gives Formed (s.placeEntry u) := by
  unfold State.placeEntry
  refine gives_after fun _ => gives_after fun _ => ?_
  split
  extract_lets
  refine gives_bind (P := Formed) ?_ fun _ ht => gives_some (modLaunch_form ht)
  split
  · refine gives_after fun _ => gives_after fun _ => ?_
    split
    · exact gives_some (stampNested_form h)
    · exact gives_none
  refine gives_after fun _ => gives_after fun _ => ?_
  split
  · exact gives_after fun _ => gives_some (putWg_form h)
  · exact gives_none

theorem tryUnit_form {s : State} {l : Launch} {a : Unit'} (h : s.wf = true) : Gives Formed (s.tryUnit l a) := by
  unfold State.tryUnit
  split
  · exact placeOn_form h
  · split
    · exact putTogether_form h fun _ _ _ hz => placeOn_form hz
    · exact gives_foldlM (fun _ _ hx => placeOn_form hx) _ h
  · split
    · exact putTogether_form h fun _ _ _ hz => resumeWg_form hz
    · exact gives_foldlM (fun _ _ hx => resumeWg_form hx) _ h
  · exact gives_foldlM (fun _ _ hx => placeEntry_form hx) _ h

theorem gain_form {s : State} {n q : ℕ} (h : s.wf = true) : (s.gain n q).wf = true := setDef_form h

theorem dropDefs_form {s : State} {qs : List ℕ} (h : s.wf = true) : (s.dropDefs qs).wf = true := by
  unfold State.dropDefs
  refine foldl_wf (fun _ _ hx => ?_) _ h
  split
  · exact setDef_form hx
  · exact hx

theorem choose_form {s : State} (h : s.wf = true) : s.choose.2.wf = true := by
  unfold State.choose
  extract_lets cs s1
  have hs1 : s1.wf = true := dropDefs_form h
  clear_value cs s1
  split
  · exact hs1
  extract_lets here qs s2
  have hs2 : s2.wf = true := by
    unfold s2
    refine ite_form hs1 ?_
    split
    · exact foldl_wf (fun _ _ ht => gain_form ht) _ hs1
    · exact hs1
  clear_value s2
  split
  · exact hs2
  · exact hs2

theorem serve_form {s : State} {q : ℕ} {l : Launch} {u : Unit'} (h : s.wf = true) : (s.serve q l u).wf = true := by
  unfold State.serve
  split
  next t heq =>
    have ht : t.wf = true := (tryUnit_form h) _ heq
    exact wf_of ht rfl rfl rfl rfl
  · exact h

theorem workgroupPlace_form {s : State} (h : s.wf = true) : (workgroupPlace s).wf = true := by
  unfold workgroupPlace
  split
  · exact decideKill_form h
  split
  · exact h
  next t _ heq1 =>
    have ht : t.wf = true := snd_form (choose_form h) heq1
    exact serve_form ht
  rename_i t heq
  have ht : t.wf = true := snd_form (choose_form h) heq
  exact ht

theorem workgroupResume_form {u : ℕ} {s : State} (h : s.wf = true) : (workgroupResume u s).wf = true := by
  unfold workgroupResume
  split
  next t heq =>
    have ht : t.wf = true := snd_form (choose_form h) heq
    split
    · exact serve_form ht
    · exact h
  · exact h

theorem preemptTimer_form {prio : ℕ} {s : State} (h : s.wf = true) : (preemptTimer prio s).wf = true := by
  unfold preemptTimer
  split
  · exact h
  split
  · exact startPreempt_form h
  · exact h

theorem launchComplete_form {u : ℕ} {s : State} (h : s.wf = true) : (launchComplete u s).wf = true := by
  unfold launchComplete
  split
  · exact h
  split
  · exact complete_form h
  · exact h

theorem faultSnap_form {s : State} {u : ℕ} {c : KillCause} (h : s.wf = true) : (s.faultSnap u c).wf = true := by
  unfold State.faultSnap
  split
  · exact snapshot_form h
  · exact h

theorem launchKill_form {u : ℕ} {c : KillCause} {s : State} (h : s.wf = true) : (launchKill u c s).wf = true := by
  unfold launchKill
  split
  · exact h
  split
  · exact h
  split
  · exact faultSnap_form (setLaunch_form h)
  extract_lets _ s1 s2
  have hs1 : s1.wf = true := setLaunch_form h
  have hs2 : s2.wf = true := wf_of hs1 rfl rfl rfl rfl
  exact faultSnap_form (abandonPubs_form hs2)

theorem restore_form {s : State} {l : Launch} (h : s.wf = true) : (s.restore l).wf = true :=
  sumBit_form (foldl_wf (fun _ _ hx => copyPage_form hx) _ h)

theorem clearLaunch_form {s : State} {l : Launch} (h : s.wf = true) : (s.clearLaunch l).wf = true := by
  unfold State.clearLaunch
  extract_lets _ s1 _ s2
  have hs1 : s1.wf = true := by
    unfold s1
    refine foldl_wf (fun _ _ hx => ?_) _ h
    split
    · exact hx
    · exact chargeWg_form (freeTokensOf_form hx)
  have hs2 : s2.wf = true := foldl_wf (fun _ _ hx => dropHolder_form hx) _ hs1
  exact wf_of hs2 rfl rfl rfl rfl

theorem replay_form {s : State} {l : Launch} (h : s.wf = true) : (s.replay l).wf = true := by
  unfold State.replay
  extract_lets _ s1
  have hs1 : s1.wf = true := wf_of h rfl rfl rfl rfl
  exact weirStart_form (setLaunch_form hs1)

theorem launchKillComplete_form {u : ℕ} {s : State} (h : s.wf = true) : (launchKillComplete u s).wf = true := by
  unfold launchKillComplete
  split
  · exact h
  split
  · exact h
  extract_lets s1 s2
  have hs1 : s1.wf = true := clearLaunch_form h
  have hs2 : s2.wf = true := restore_form hs1
  split
  · split
    · exact hs2
    split
    · exact complete_form (post_form hs2 _)
    · exact replay_form hs2
  · exact complete_form hs1

theorem granuleCopy_form {u pa : ℕ} {s : State} (h : s.wf = true) : (granuleCopy u pa s).wf = true := by
  unfold granuleCopy
  split
  · exact h
  split
  · exact armWrite_form h
  · exact h

theorem writeShadows_form {s : State} {l : Launch} {run : ℕ} (h : s.wf = true) : (s.writeShadows l run).wf = true := by
  unfold State.writeShadows
  refine foldl_wf (fun _ _ hx => ?_) _ h
  split
  · split
    · exact copyPage_form hx
    · exact hx
  · exact hx

theorem probation_form {s : State} {u core : ℕ} (h : s.wf = true) : (s.probation u core).wf = true := post_form (setNum_form h _ _) _

theorem redundantCompare_form {u : ℕ} {s : State} (h : s.wf = true) : (redundantCompare u s).wf = true := by
  unfold redundantCompare
  split
  · exact h
  split
  · exact h
  split
  · split
    · exact complete_form (writeShadows_form h)
    · exact setLaunch_form h
  split
  · exact complete_form (writeShadows_form h)
  split
  · exact complete_form (writeShadows_form h)
  · exact complete_form (foldl_wf (fun _ _ hx => probation_form hx) _ h)

theorem hcmd_form {s : State} {c : Option Nat} (h : s.wf = true) : ({ s with hcmd := c } : State).wf = true := wf_of h rfl rfl rfl rfl

theorem endCommand_form {s : State} {res : ℕ} (h : s.wf = true) : (s.endCommand res).wf = true := by
  unfold State.endCommand
  exact interrupt_form (setReg_form (hcmd_form h) _ _) _

theorem whenCommand_form {op : ℕ} {body : State → State × ℕ} {s : State} (hbody : ∀ t, t.wf = true → ((body t).1).wf = true)
    (hs : s.wf = true) :
    (whenCommand op body s).wf = true := by
  unfold whenCommand
  split
  · split
    rename_i t _ heq
    have ht : t.wf = true := fst_form (hbody _ hs) heq
    exact endCommand_form ht
  · exact hs

theorem cancel_form {s : State} {l : Launch} (h : s.wf = true) : (s.cancel l).wf = true := by
  unfold State.cancel
  split
  · exact decideKill_form h
  · exact refuse_form h

theorem touchRecords_form {q lid : ℕ} : ∀ {is : List ℕ} {s : State}, s.wf = true → (s.touchRecords q lid is).wf = true
  | [], _, h => h
  | _ :: _, _, h => by
    rw [State.touchRecords]
    exact ite_form (physTouch_form h) (touchRecords_form (physTouch_form h))

theorem cancelUnread_form {s : State} {q : ℕ} {is : List ℕ} (h : s.wf = true) : (s.cancelUnread q is).wf = true := wf_of h rfl rfl rfl rfl

theorem cancelLaunch_form {s : State} (h : s.wf = true) : ((cancelLaunch s).1).wf = true := by
  unfold cancelLaunch
  extract_lets _ t
  have ht : t.wf = true := touchRecords_form h
  split
  · exact cancel_form h
  split
  · exact cancelUnread_form ht
  · exact ht

theorem cancelQueue_form {s : State} (h : s.wf = true) : ((cancelQueue s).1).wf = true :=
  cancelUnread_form (foldl_wf (fun _ _ hx => cancel_form hx) _ h)

theorem preemptLaunch_form {s : State} (h : s.wf = true) : ((preemptLaunch s).1).wf = true := by
  unfold preemptLaunch
  split
  · exact h
  · exact foldl_wf (fun _ _ hx => startPreempt_form hx) _ h

theorem onBand_form {ok : Band → Bool} {act : Band → State → State} {s : State} (hact : ∀ x t, t.wf = true → (act x t).wf = true)
    (hs : s.wf = true) :
    ((onBand ok act s).1).wf = true := by
  unfold onBand
  split
  · exact hs
  split
  · exact hact _ _ hs
  · exact hs

theorem outsideAperture_form {s : State} {a : PcieAccess} {pa : ℕ} (h : s.wf = true) : (s.outsideAperture a pa).wf = true := by
  unfold State.outsideAperture
  extract_lets
  split
  · split
    · exact apWrite_form h
    · exact h
  · split
    · exact send_form h _
    split
    · exact send_form h _
    · exact h
  · exact send_form h _

theorem outsideDevice_form {s : State} {a : PcieAccess} (h : s.wf = true) : (s.outsideDevice a).wf = true := by
  unfold State.outsideDevice
  extract_lets _ put
  have hput : ∀ t x, t.wf = true → (put t x).wf = true := fun _ _ hx => devStore_form hx
  split
  · exact hput _ _ h
  · exact send_form h _
  split
  · exact send_form h _
  refine send_form ?_ _
  split
  · exact hput _ _ h
  · exact h

theorem configWrite_form {s : State} {cells : List (ℕ × Byte)} (h : s.wf = true) : (s.configWrite cells).wf = true :=
  foldl_wf (fun _ _ hx => writeBar_form hx) _ h

theorem pcieAccess_form {a : PcieAccess} {s : State} (h : s.wf = true) : (pcieAccess a s).wf = true := by
  unfold pcieAccess
  extract_lets answer
  have hanswer : ∀ t, t.wf = true → (answer t).wf = true := by
    intro _ ht
    unfold answer
    split
    · exact ht
    · exact send_form ht _
  split
  · exact h
  split
  · split
    · exact h
    · exact outsideDevice_form h
  · split
    · exact h
    · exact windowAccess_form h
  · split
    · exact h
    split
    · exact send_form (tick_form h) _
    · exact configWrite_form h
    · exact hanswer _ h
  split
  · exact h
  split
  · exact outsideRam_form h
  split
  · exact outsideAperture_form h
  · exact hanswer _ h

theorem verifyImage_form {s : State} {c : ImageCheck} (h : s.wf = true) : (s.verifyImage c).wf = true := by
  unfold State.verifyImage
  split
  all_goals exact setNum_form h _ _

theorem reset_form {flash : Option ImageCheck} {s : State} : (reset flash s).wf = true := by
  unfold reset
  extract_lets src t
  have ht : t.wf = true := wf_of (s := State.reset) rfl rfl rfl rfl rfl
  clear_value t
  split
  · exact verifyImage_form ht
  · exact interrupt_form ht _

theorem setNums_form {base : ℕ} {ws : List W64} {s : State} (h : s.wf = true) : (setNums base ws s).wf = true := by
  unfold setNums
  refine foldl_wf (fun _ _ hx => ?_) _ h
  split
  exact setNum_form hx _ _

theorem bringup_form {r : Bringup} {s : State} (h : s.wf = true) : (bringup r s).wf = true := by
  unfold bringup
  extract_lets _ s1 s2 s3 s4 s5
  have hs1 : s1.wf = true := setNums_form h
  have hs2 : s2.wf = true := setNums_form hs1
  have hs3 : s3.wf = true := setNums_form hs2
  have hs4 : s4.wf = true := setNums_form (setNums_form hs3)
  have hs5 : s5.wf = true := foldl_wf (fun _ _ hx => setNum_form hx _ _) _ hs4
  split
  · exact h
  split
  · exact setNum_form h _ _
  · exact setNum_form hs5 _ _

theorem report_form {s : State} {m : List Host.Cell} {a : Attest} (h : s.wf = true) (hm : Mem.wf m = true) :
    ({ s with mailbox := m, attest := a } : State).wf = true := by
  obtain ⟨hmem, hls, _, hregs⟩ := (wf_iff s).1 h
  exact (wf_iff _).2 ⟨hmem, hls, hm, hregs⟩

theorem attestReport_form {s : State} (h : s.wf = true) : (attestReport s).wf = true := by
  obtain ⟨_, _, hm, _⟩ := (wf_iff s).1 h
  unfold attestReport
  split
  · exact h
  extract_lets body
  clear_value body
  exact interrupt_form (tick_form (report_form h (writeBytes_wf _ _ hm))) _

theorem setTj_form {s : State} {tj : ℕ} (h : s.wf = true) : (s.setTj tj).wf = true := by
  unfold State.setTj
  extract_lets _ _ s1
  have hs1 : s1.wf = true := setNum_form h _ _
  split
  · exact send_form (interrupt_form hs1 _) _
  · exact hs1

theorem settleBatches_form {s : State} {u : ℕ} (h : s.wf = true) : (s.settleBatches u).wf = true := by
  unfold State.settleBatches
  split
  · exact h
  extract_lets _ s1
  have hs1 : s1.wf = true := setBand_form h
  exact wf_of hs1 rfl rfl rfl rfl

theorem lockTile_form {s : State} {b : Band} {slot c : ℕ} (h : s.wf = true) : Yields Formed (s.lockTile b slot c) := by
  unfold State.lockTile
  extract_lets
  split
  · exact yields_ok (wf_of h rfl rfl rfl rfl)
  · exact yields_after fun _ => yields_pure (addLocks_form h)

theorem mmaBody_form {f : ℕ} {cbs abs : Opnd} {sel zero lrc lra : BitVec 1} {b : Band} {s : State} (h : s.wf = true) :
    Yields FinFormed (mmaBody f cbs abs sel zero lrc lra b s) := by
  unfold mmaBody
  refine yields_after fun x => yields_after fun _ => yields_after fun _ => yields_after fun _ => ?_
  extract_lets
  refine yields_after fun _ => ?_
  extract_lets _ rest rest1
  have hrest : ∀ x, Yields FinFormed (rest x) := by
    intro _
    unfold rest
    refine yields_after fun _ => yields_after fun _ => ?_
    split
    · exact yields_error
    extract_lets rest2
    have hrest2 : ∀ x, Yields FinFormed (rest2 x) := by
      intro _
      unfold rest2
      refine yields_after fun _ => ?_
      extract_lets rest3
      have hrest3 : ∀ x, Yields FinFormed (rest3 x) := by
        intro _
        unfold rest3
        refine yields_bind (lockTile_form h) fun _ ht => ?_
        extract_lets s1
        have hs1 : s1.wf = true := startEngine_form ht
        exact yields_pure (modBand_form hs1)
      split
      · exact yields_after fun _ => hrest3 ()
      · exact hrest3 ()
    split
    · exact yields_after fun _ => hrest2 ()
    · exact hrest2 ()
  have hrest1 : ∀ x, Yields FinFormed (rest1 x) := by
    intro _
    unfold rest1
    split
    · exact yields_after fun _ => hrest ()
    · exact hrest ()
  split
  · exact yields_after fun _ => hrest1 ()
  · exact hrest1 ()

theorem endMma_form {s : State} {o : Op} {batch : ℕ} (h : s.wf = true) : (s.endMma o batch).wf = true :=
  settleBatches_form (modBand_form (endOp_form h))

theorem mmaComplete_form {u : ℕ} {again mismatch : Bool} {s : State} (h : s.wf = true) :
    (mmaComplete u again mismatch s).wf = true := by
  unfold mmaComplete
  split
  · exact h
  split
  · split
    · exact h
    extract_lets _ t
    have ht : t.wf = true := by
      unfold t
      refine foldl_wf (fun _ _ hx => ?_) _ h
      split
      · exact writeSpace_form hx _ _ _ _
      refine foldl_wf (fun _ _ hx1 => ?_) _ hx
      split
      · exact hx1
      · exact writeSpace_form hx1 _ _ _ _
    split
    · split
      · exact decideKill_form (endMma_form h)
      · exact setOp_form h
    · exact endMma_form ht
  · exact h

theorem mmaPart_form {s : State} {u i lo n : ℕ} (h : s.wf = true) : (s.mmaPart u i lo n).wf = true := by
  unfold State.mmaPart
  split
  · exact h
  split
  · split
    · exact h
    extract_lets _ _ _ _ t
    have ht : t.wf = true := foldl_wf (fun _ _ hx => writeSpace_form hx _ _ _ _) _ h
    split
    · exact setOp_form h
    · exact setOp_form ht
  · exact h

theorem part_form {s : State} {op i lo n : ℕ} (h : s.wf = true) : (s.part op i lo n).wf = true := by
  unfold State.part
  split
  · exact mmaPart_form h
  · exact readSrcAtom_form h
  · exact enginePart_form h

theorem retry_form {s : State} {b : Band} (h : s.wf = true) : (s.retry b).wf = true := by
  unfold State.retry
  extract_lets
  split
  · split
    · exact h
    · exact setBand_form h
  · exact setBand_form h

theorem release_form {s : State} (h : s.wf = true) : s.release.wf = true := by
  unfold State.release
  refine foldl_wf (fun _ _ hx => ?_) _ h
  split
  · exact retry_form hx
  · exact hx

theorem noteReady_form {s t : State} (ht : t.wf = true) : (s.noteReady t).wf = true := wf_of ht rfl rfl rfl rfl

theorem elapse_form {s : State} {n : ℕ} (h : s.wf = true) : (s.elapse n).wf = true := wf_of h rfl rfl rfl rfl

theorem land_form {s : State} {e : List (ℕ × Byte) × Bool} (h : s.wf = true) : (s.land e).wf = true := by
  unfold State.land
  split
  · exact h
  split
  · exact devStore_form h
  split
  · exact apWrite_form h
  · exact wf_of h rfl rfl rfl rfl

theorem landPosted_form {s : State} (h : s.wf = true) : s.landPosted.wf = true :=
  foldl_wf (fun _ _ hx => land_form hx) _ (wf_of h rfl rfl rfl rfl)

theorem arrive_form {s : State} (h : s.wf = true) : s.arrive.wf = true := landChunks_form (landPosted_form (assignSlots_form h))

theorem noteIssue_form {t : State} {p : Place} (h : t.wf = true) : (t.noteIssue p).wf = true := wf_of h rfl rfl rfl rfl

theorem carry_form {s : State} {i : Instr} (h : s.wf = true) : (s.carry i).wf = true := by
  unfold State.carry
  split
  · exact wf_of h rfl rfl rfl rfl
  · exact h

end Sys2Proof.Proofs.Form
end

section
/-! SUPPORT. Every instruction keeps the form. -/

namespace Sys2Proof.Proofs.Form

open Sys2Proof Sys2Proof.Machine Sys2Proof.Laws

/-- A word is in order when what it means is. -/
theorem word_form {i : Instr} {body : Band → State → Try Fin'} {s : State} (hbody : ∀ b t, t.wf = true → Yields FinFormed (body b t))
    (h : s.wf = true) : NextFormed (.next (issue i body s)) := next_formed (issue_form hbody h)

theorem execMmov_form {d a : Opnd} {s : State} (h : s.wf = true) : NextFormed (execMmov d a s) := by
  unfold execMmov
  refine next_formed (issue_form (fun _ _ ht => ?_) h)
  refine yields_after fun _ => ?_
  split
  · exact yields_bind (maskDst_form ht) fun _ ht1 => yields_pure ht1
  · exact yields_bind (scalarDst_form ht) fun _ ht1 => yields_pure ht1

theorem execFpsclr_form {a : Opnd} {imm : BitVec 6} {s : State} (h : s.wf = true) : NextFormed (execFpsclr a imm s) := by
  unfold execFpsclr
  refine next_formed (issue_form (fun _ _ ht => ?_) h)
  refine yields_after fun x => ?_
  extract_lets rest
  have hrest : ∀ x, Yields FinFormed (rest x) := fun _ => yields_pure (modBand_form ht)
  split
  all_goals exact yields_after fun _ => hrest _

theorem execBset_form {d a b : Opnd} {s : State} (h : s.wf = true) : NextFormed (execBset d a b s) := by
  unfold execBset
  refine next_formed (issue_form (fun _ _ ht => ?_) h)
  extract_lets rest
  have hrest : ∀ x, Yields FinFormed (rest x) := by
    intro _
    unfold rest
    refine whenEnabled_form ht ?_
    split
    · exact yields_ok (modBand_form ht)
    · exact yields_error
  split
  · exact yields_after fun _ => yields_after fun _ => hrest _
  · exact yields_after fun _ => yields_after fun _ => yields_after fun _ => hrest _

theorem execQscale_form {d a : Opnd} {x : BitVec 1} {f : BitVec 3} {s : State} (h : s.wf = true) :
    NextFormed (execQscale d a x f s) := by
  unfold execQscale
  refine next_formed (issue_form (fun _ _ ht => ?_) h)
  refine yields_after fun _ => yields_after fun _ => yields_after fun _ => yields_after fun _ => ?_
  split
  exact yields_bind (vecDst_form ht) fun _ ht1 => yields_pure (setFps_form ht1)

theorem execScvt_form {d a : Opnd} {k : BitVec 2} {x : BitVec 1} {f : BitVec 4} {s : State} (h : s.wf = true) :
    NextFormed (execScvt d a k x f s) := by
  unfold execScvt
  refine next_formed (issue_form (fun _ _ ht => ?_) h)
  refine yields_after fun _ => ?_
  extract_lets
  refine yields_after fun _ => yields_after fun _ => yields_after fun _ => ?_
  split
  exact yields_bind (floatDst_form ht) fun _ ht1 => yields_pure (countSr_form ht1)

theorem execVargmax_form {d a b : Opnd} {s : State} (h : s.wf = true) : NextFormed (execVargmax d a b s) := by
  unfold execVargmax
  refine next_formed (issue_form (fun _ _ ht => ?_) h)
  refine yields_after fun _ => yields_after fun _ => yields_after fun _ => yields_after fun _ => ?_
  extract_lets
  split
  · exact yields_bind (arithS_form ht) fun _ ht1 => yields_pure ht1
  · exact yields_error

theorem execMack_form {n : BitVec 6} {s : State} (h : s.wf = true) : NextFormed (execMack n s) := by
  unfold execMack
  refine next_formed (issue_form (fun _ _ ht => ?_) h)
  refine yields_after fun _ => ?_
  extract_lets
  refine yields_pure ?_
  split
  · exact ht
  · exact wf_of ht rfl rfl rfl rfl

theorem execBlatch_form {vb : Opnd} {t : BitVec 1} {q : BitVec 2} {f : BitVec 4} {s : State} (h : s.wf = true) :
    NextFormed (execBlatch vb t q f s) := by
  unfold execBlatch
  refine next_formed (issue_form (fun _ _ ht1 => ?_) h)
  refine yields_after fun x => yields_after fun _ => ?_
  extract_lets
  refine yields_after fun _ => yields_after fun _ => yields_after fun _ => yields_after fun _ => yields_after fun _ => ?_
  extract_lets rest
  have hrest : ∀ x, Yields FinFormed (rest x) := by
    intro _
    unfold rest
    refine yields_after fun _ => ?_
    extract_lets _ src
    have hsrc : src.wf = true := setWg_form ht1
    split
    · exact yields_pure (setWg_form ht1)
    · exact yields_pure (wf_of hsrc rfl rfl rfl rfl)
  split
  all_goals exact yields_after fun _ => hrest _

theorem execMfence_form {d : Opnd} {s : State} (h : s.wf = true) : NextFormed (execMfence d s) := by
  unfold execMfence
  refine next_formed (issue_form (fun b t ht => yields_after fun _ => ?_) h)
  extract_lets rest
  have hrest : ∀ u, u.wf = true → Yields FinFormed (rest u) := fun _ hu => yields_pure (settleBatches_form (modBand_form hu))
  split
  · exact yields_bind (P := Formed) (yields_ok ht) hrest
  · exact yields_bind (scalarDst_form ht) hrest

theorem execMwait_form {a : Opnd} {s : State} (h : s.wf = true) : NextFormed (execMwait a s) := by
  unfold execMwait
  refine next_formed (issue_form (fun _ _ ht => ?_) h)
  refine yields_after fun x => ?_
  extract_lets _ _ rest
  have hrest : ∀ x, Yields FinFormed (rest x) := fun _ => yields_after fun _ => yields_pure ht
  split
  · exact yields_after fun _ => hrest ()
  · exact hrest ()

theorem execAccz_form {a : Opnd} {s : State} (h : s.wf = true) : NextFormed (execAccz a s) := by
  unfold execAccz
  refine next_formed (issue_form (fun _ _ ht => ?_) h)
  refine yields_after fun _ => ?_
  split
  · exact yields_pure ht
  · exact yields_after fun _ => yields_after fun _ => yields_after fun _ => yields_after fun _ =>
    yields_pure (foldl_wf (fun _ _ hx5 => writeSpace_form hx5 _ _ _ _) _ ht)

theorem execAccrd_form {d a : Opnd} {k : BitVec 2} {m : BitVec 1} {f : BitVec 4} {s : State} (h : s.wf = true) :
    NextFormed (execAccrd d a k m f s) := by
  unfold execAccrd
  refine next_formed (issue_form (fun _ _ ht => ?_) h)
  extract_lets
  refine yields_after fun x => yields_after fun _ => yields_after fun _ => yields_after fun _ => ?_
  split
  · exact yields_pure (countSr_form ht)
  refine yields_after fun _ => yields_after fun _ => ?_
  extract_lets
  refine yields_after fun _ => yields_after fun _ => yields_after fun _ => ?_
  extract_lets rest
  have hrest : ∀ x, Yields FinFormed (rest x) := by
    intro _
    unfold rest
    split
    refine yields_after fun _ => yields_after fun _ => ?_
    extract_lets _ _ _ t1 t2
    have ht1 : t1.wf = true := startOp_form ht
    have ht2 : t2.wf = true := foldl_wf (fun _ _ hx11 => awaitV_form hx11) _ ht1
    exact yields_pure (countSr_form ht2)
  split
  all_goals exact yields_after fun _ => hrest _

theorem execAccld_form {d a : Opnd} {f : BitVec 4} {s : State} (h : s.wf = true) : NextFormed (execAccld d a f s) := by
  unfold execAccld
  refine next_formed (issue_form (fun _ _ ht => ?_) h)
  extract_lets
  refine yields_after fun _ => yields_after fun _ => yields_after fun _ => yields_after fun _ => ?_
  split
  · exact yields_pure ht
  · exact yields_after fun _ => yields_after fun _ => yields_after fun _ => yields_after fun _ => yields_after fun _ =>
    yields_pure (foldl_wf (fun _ _ hx9 => writeSpace_form hx9 _ _ _ _) _ ht)

theorem execSigchk_form {imm : W32} {s : State} (h : s.wf = true) : NextFormed (execSigchk imm s) := by
  unfold execSigchk
  refine next_formed (issue_form (fun _ _ ht => ?_) h)
  split
  · exact yields_ok ht
  · exact yields_error

theorem execCopymSend_form {src : CopymSrc} {s : State} (h : s.wf = true) : NextFormed (execCopymSend src s) := by
  unfold execCopymSend
  refine next_formed ?_
  split
  · exact copymSend_form h
  · exact inboundSend_form h

theorem execCopymReceiverAck_form {src : CopymOf} {idx : ℕ} {reply : CopymReply} {s : State} (h : s.wf = true) :
    NextFormed (execCopymReceiverAck src idx reply s) := by
  unfold execCopymReceiverAck
  refine next_formed ?_
  split
  · exact copymAck_form h
  · exact inboundPayload_form h
  · exact h
  · exact h

theorem execStorageCompletion_form {qp : ℕ} {s : State} (h : s.wf = true) : NextFormed (execStorageCompletion qp s) := by
  unfold execStorageCompletion
  refine next_formed ?_
  split
  · exact storageCompletion_form h
  · exact h

theorem execStorageWindowAccess_form {kind : PcieKind} {off size data : ℕ} {s : State} (h : s.wf = true) :
    NextFormed (execStorageWindowAccess kind off size data s) := by
  unfold execStorageWindowAccess
  refine next_formed ?_
  split
  · exact windowAccess_form h
  · exact h

theorem execContributionArrival_form {src : ContribSrc} {s : State} (h : s.wf = true) : NextFormed (execContributionArrival src s) := by
  unfold execContributionArrival
  refine next_formed ?_
  split
  · exact contribOwn_form h
  · exact contribRemote_form h

theorem execScalarContributionArrival_form {src : ScalarSrc} {s : State} (h : s.wf = true) :
    NextFormed (execScalarContributionArrival src s) := by
  unfold execScalarContributionArrival
  refine next_formed ?_
  split
  · exact scalarOwn_form h
  · exact scalarRemote_form h

theorem execCagChunkArrival_form {src : CagSrc} {s : State} (h : s.wf = true) : NextFormed (execCagChunkArrival src s) := by
  unfold execCagChunkArrival
  refine next_formed ?_
  split
  · exact cagOwn_form h
  · exact cagRemote_form h

theorem execQueueDoorbell_form {queue : ℕ} {tail : W16} {s : State} (h : s.wf = true) :
    NextFormed (execQueueDoorbell queue tail s) := by
  unfold execQueueDoorbell
  refine next_formed ?_
  split
  · exact doorbell_form h
  · exact h

theorem execSnapshotTimer_form {s : State} (h : s.wf = true) : NextFormed (execSnapshotTimer s) := by
  unfold execSnapshotTimer
  refine next_formed ?_
  split
  · exact snapshot_form h
  · exact h

theorem execSecregionWrite_form {num : ℕ} {v : W64} {secure : Bool} {s : State} (h : s.wf = true) :
    NextFormed (execSecregionWrite num v secure s) := by
  unfold execSecregionWrite
  refine next_formed ?_
  split
  · exact writeReg_form h
  · exact h

theorem execLsroleWrite_form {num : ℕ} {v : W64} {s : State} (h : s.wf = true) : NextFormed (execLsroleWrite num v s) := by
  unfold execLsroleWrite
  refine next_formed ?_
  split
  · exact writeLsrole_form h
  · exact h

theorem execCwrldWrite_form {die : ℕ} {v : W64} {secure : Bool} {s : State} (h : s.wf = true) :
    NextFormed (execCwrldWrite die v secure s) := by
  unfold execCwrldWrite
  refine next_formed ?_
  split
  · exact writeReg_form h
  · exact h

theorem execFlmcmdNone_form {v : W64} {s : State} (h : s.wf = true) : NextFormed (execFlmcmdNone v s) := by
  unfold execFlmcmdNone
  refine next_formed ?_
  split
  · exact writeFlmcmd_form h
  · exact h

theorem execFlmcmdCloseStep_form {v : W64} {s : State} (h : s.wf = true) : NextFormed (execFlmcmdCloseStep v s) := by
  unfold execFlmcmdCloseStep
  refine next_formed ?_
  split
  · exact writeFlmcmd_form h
  · exact h

theorem execFlmcmdDeclareSilent_form {v : W64} {s : State} (h : s.wf = true) : NextFormed (execFlmcmdDeclareSilent v s) := by
  unfold execFlmcmdDeclareSilent
  refine next_formed ?_
  split
  · exact writeFlmcmd_form h
  · exact h

theorem execFlmcmdRefused_form {v : W64} {s : State} (h : s.wf = true) : NextFormed (execFlmcmdRefused v s) := by
  unfold execFlmcmdRefused
  refine next_formed ?_
  split
  · exact writeFlmcmd_form h
  · exact h

theorem execHcmdResumeSuspended_form {s : State} (h : s.wf = true) : NextFormed (execHcmdResumeSuspended s) := by
  unfold execHcmdResumeSuspended
  refine next_formed (whenCommand_form (fun _ ht => ?_) h)
  refine onBand_form (fun _ _ ht1 => ?_) ht
  split
  · exact setBand_form ht1
  · exact ht1

theorem execHcmdDeliverTrap_form {s : State} (h : s.wf = true) : NextFormed (execHcmdDeliverTrap s) := by
  unfold execHcmdDeliverTrap
  refine next_formed (whenCommand_form (fun _ ht => ?_) h)
  refine onBand_form (fun _ _ ht1 => ?_) ht
  split
  · extract_lets
    split
    · exact deliverInKill_form (setBand_form ht1)
    · exact enterTrap_form ht1
  · exact ht1

theorem execHcmdMalformed_form {s : State} (h : s.wf = true) : NextFormed (execHcmdMalformed s) := by
  unfold execHcmdMalformed
  refine next_formed ?_
  split
  · split
    · exact whenCommand_form (fun _ ht => ht) h
    · exact h
  · exact h

theorem execBootMailboxImage_form {check : ImageCheck} {s : State} (h : s.wf = true) : NextFormed (execBootMailboxImage check s) := by
  unfold execBootMailboxImage
  refine next_formed ?_
  split
  · exact verifyImage_form h
  · exact h

theorem exec_form {i : Instr} {s : State} (h : s.wf = true) : NextFormed (exec i s) := by
  cases i with
  | clauseHeader => exact next_formed (headerStep_form h)
  | nop | yield => exact word_form (fun _ _ ht => yields_ok ht) h
  | br | brz | brnz | bzm | bnzm | ballm => exact next_formed (branch_form h)
  | call | calli => exact word_form (fun _ _ ht => callBody_form ht) h
  | ret => exact word_form (fun _ _ ht => retBody_form ht) h
  | loop => exact word_form (fun _ _ ht => loopBody_form ht) h
  | yieldc => exact word_form (fun _ _ ht => yieldcBody_form ht) h
  | exit => exact word_form (fun _ _ ht => exitBody_form ht) h
  | trap => exact word_form (fun _ _ _ => yields_error) h
  | jmpi | wsync => exact word_form (fun _ _ ht => yields_after fun _ => yields_after fun _ => yields_pure ht) h
  | setmode | setmm => exact word_form (fun _ _ ht => setModeBody_form ht) h
  | getmode | sget | wdepth => exact word_form (fun _ _ ht => yields_bind (scalarDst_form ht) fun _ hu => yields_pure hu) h
  | mand | mor | mxor | mandn | mnot => exact next_formed (maskOp_form h)
  | mmov => exact execMmov_form h
  | mpopc | mffs => exact next_formed (maskCount_form h)
  | mseti => exact word_form (fun _ _ ht => yields_bind (maskDst_form ht) fun _ hu => yields_pure hu) h
  | mlane => exact word_form (fun _ _ ht => yields_after fun _ => yields_bind (maskDst_form ht) fun _ hu => yields_pure hu) h
  | fpsget =>
    exact word_form (fun _ _ ht => yields_after fun _ => yields_bind (scalarDst_form ht) fun _ hu => yields_pure hu) h
  | fpsclr => exact execFpsclr_form h
  | sadd | ssub | smul | smulh | smulhn | sand | sor | sxor | sshl | sshr | ssar | smin | smax | sminn | smaxn | scmpeq | scmplt
  | scmpltn | sbfx | aadd => exact next_formed (scalarOp_form h)
  | sdiv | sdivn | smod => exact next_formed (divOp_form h)
  | smov | spopc | sclz | amov => exact next_formed (scalarOp1_form h)
  | smovi => exact word_form (fun _ _ ht => whenEnabled_form ht (scalarDst_form ht)) h
  | smovh | saddi => exact word_form (fun _ _ ht => yields_after fun _ => whenEnabled_form ht (scalarDst_form ht)) h
  | sbfi =>
    exact word_form (fun _ _ ht => yields_after fun _ => yields_after fun _ => yields_after fun _ =>
      whenEnabled_form ht (scalarDst_form ht)) h
  | bset => exact execBset_form h
  | vadd | vsub | vmul | vmulh | vand | vor | vxor | vmin | vmax | vidx => exact next_formed (laneAlu2_form h)
  | vmad | vmovi | vbcast | vdot4 => exact next_formed (laneAlu_form h)
  | vnot | vabs | vneg | vmov | vpopc | vclz => exact next_formed (laneAlu1_form h)
  | vshl | vshr | vbfx => exact next_formed (shiftOp_form h)
  | vceq | vcne | vclt | vcle | vcgt | vcge => exact next_formed (compareInt_form h)
  | vsel =>
    exact word_form (fun _ _ ht => yields_after fun _ => yields_after fun _ => yields_after fun _ =>
      yields_bind (elemDst_form ht) fun _ hu => yields_pure hu) h
  | fadd | fsub | fmul | fdiv => exact next_formed (float2_form h)
  | ffma | fscale => exact next_formed (floatOp_form h)
  | fmin | fmax | fminnum | fmaxnum => exact next_formed (minMaxOp_form h)
  | fabs | fneg | fclass | fkey => exact next_formed (bitOp_form h)
  | frcp | frsq | fsqrt | fexp2 | flog2 | fsin | fcos => exact next_formed (float1_form h)
  | frnd =>
    exact word_form (fun _ _ ht => yields_after fun _ => yields_after fun _ => yields_after fun _ => yields_after fun _ =>
      yields_bind (floatDst_form ht) fun _ hu => yields_pure (countSr_form hu)) h
  | fceq | fclt | fcle | fcun => exact next_formed (compareFloat_form h)
  | cvt =>
    exact word_form (fun _ _ ht => yields_after fun _ => yields_after fun _ => yields_bind (floatDst_form ht) fun _ hu =>
      yields_pure (countSr_form hu)) h
  | qpack =>
    exact word_form (fun _ _ ht => yields_after fun _ => yields_after fun _ => yields_after fun _ => yields_after fun _ =>
      yields_after fun _ => yields_after fun _ => yields_after fun _ => yields_bind (writeBlock_form ht) fun _ hu =>
      yields_pure (countSr_form (setFps_form hu))) h
  | qunpack =>
    exact word_form (fun _ _ ht => yields_after fun _ => yields_after fun _ => yields_after fun _ => yields_after fun _ =>
      yields_after fun _ => yields_after fun _ => yields_after fun _ => yields_after fun _ =>
      yields_bind (writeBlock_form ht) fun _ hu => yields_pure (countSr_form (setFps_form hu))) h
  | qscale => exact execQscale_form h
  | scvt => exact execScvt_form h
  | vshfl | vbfly | vrot => exact next_formed (exchange_form h)
  | vredadd | vredmax | vredmin => exact next_formed (reduction_form h)
  | vargmax => exact execVargmax_form h
  | vscan =>
    exact word_form (fun _ _ ht => yields_after fun _ => yields_after fun _ => yields_after fun _ =>
      yields_bind (arithElems_form ht) fun _ hu => yields_pure (countSum_form hu)) h
  | vdist =>
    exact word_form (fun _ _ ht => yields_after fun _ => yields_after fun _ => yields_after fun _ => yields_after fun _ =>
      yields_after fun _ => yields_after fun _ => yields_bind (floatDst_form ht) fun _ hu => yields_pure hu) h
  | vtopk | vtopkm => exact next_formed (topK_form h)
  | lds | ldv | ldpar => exact word_form (fun _ _ ht => loadBody_form ht) h
  | sts | stv => exact word_form (fun _ _ ht => storeBody_form ht) h
  | ldl | lda | ldw => exact word_form (fun _ _ ht => spaceLoad_form ht) h
  | stl | sta | stw | stt => exact word_form (fun _ _ ht => spaceStore_form ht) h
  | stm => exact word_form (fun _ _ ht => stmBody_form ht) h
  | pref => exact word_form (fun _ _ ht => prefBody_form ht) h
  | atadd | atmin | atmax | atand | ator | atxor | atxchg | atcas | atinc | atfadd | atfmax | atfmin =>
    exact word_form (fun _ _ ht => atomicBody_form ht) h
  | fence => exact word_form (fun _ _ ht => fenceBody_form ht) h
  | fencea => exact word_form (fun _ _ ht => fenceaBody_form ht) h
  | acqrg => exact word_form (fun _ _ ht => acqrgBody_form ht) h
  | relrg => exact word_form (fun _ _ ht => relrgBody_form ht) h
  | monarm => exact word_form (fun _ _ ht => monarmBody_form ht) h
  | monwait => exact word_form (fun _ _ ht => monwaitBody_form ht) h
  | copy => exact word_form (fun _ _ ht => copyBody_form ht) h
  | copym => exact word_form (fun _ _ ht => copymBody_form ht) h
  | mack => exact execMack_form h
  | stash => exact word_form (fun _ _ ht => stashBody_form ht) h
  | stgld => exact word_form (fun _ _ ht => stgldBody_form ht) h
  | crs => exact word_form (fun _ _ ht => crsBody_form ht) h
  | cscal => exact word_form (fun _ _ ht => cscalBody_form ht) h
  | cag => exact word_form (fun _ _ ht => cagBody_form ht) h
  | step => exact word_form (fun _ _ ht => stepBody_form ht) h
  | steprd => exact word_form (fun _ _ ht => steprdBody_form ht) h
  | gsget => exact word_form (fun _ _ ht => gsgetBody_form ht) h
  | bar => exact word_form (fun _ _ ht => barBody_form ht) h
  | swaph => exact word_form (fun _ _ ht => swaphBody_form ht) h
  | watch => exact word_form (fun _ _ ht => watchBody_form ht) h
  | blatch => exact execBlatch_form h
  | mmaE4m3 | mmaE5m2 | mmaE3m2 | mmaE2m3 | mmaF4s | mmaBf16 | mmaF16 | mmaI8 | mmaE2m1 =>
    exact word_form (fun _ _ ht => mmaBody_form ht) h
  | mfence => exact execMfence_form h
  | mwait => exact execMwait_form h
  | accz => exact execAccz_form h
  | accrd => exact execAccrd_form h
  | accld => exact execAccld_form h
  | freeze => exact word_form (fun _ _ ht => freezeBody_form ht) h
  | sigchk => exact execSigchk_form h
  | sigclr | free | halt => exact word_form (fun _ _ ht => yields_ok (modBand_form ht)) h
  | snap => exact word_form (fun _ _ ht => yields_ok (snapshot_form ht)) h
  | rft => exact word_form (fun _ _ ht => rftBody_form ht) h
  | mfsr => exact word_form (fun _ _ ht => mfsrBody_form ht) h
  | mtsr => exact word_form (fun _ _ ht => mtsrBody_form ht) h
  | tlbi => exact word_form (fun _ _ ht => tlbiBody_form ht) h
  | clauseFetch => exact next_formed (fetchClause_form h)
  | atomWritePerformed => exact next_formed (atomWrite_form (strikes_form h))
  | atomReadPerformed => exact next_formed (atomRead_form (strikes_form h))
  | celogFilterClear => exact next_formed (celogClear_form h)
  | scAccessResponse => exact next_formed (scResponse_form h)
  | loadDataReturn => exact next_formed (loadReturn_form h)
  | atomicPerformed => exact next_formed (atomicPerform_form (strikes_form h))
  | arithResultWritten => exact next_formed (arithWritten_form h)
  | pageWalkComplete => exact next_formed (walkComplete_form (strikes_form h))
  | tlbiComplete => exact next_formed (tlbiComplete_form h)
  | publicationOpen => exact next_formed (publicationOpen_form h)
  | publicationFrameTaken => exact next_formed (publicationFrameTaken_form h)
  | publicationClose => exact next_formed (publicationClose_form h)
  | versionAdvanceComplete => exact next_formed (versionAdvance_form h)
  | versionWaitTimeout => exact next_formed (versionTimeout_form h)
  | acqrgTimeout => exact next_formed (acqrgTimeout_form h)
  | relrgComplete => exact next_formed (relrgComplete_form h)
  | stmPerformed => exact next_formed (stmPerformed_form h)
  | swaphSwap => exact next_formed (swaphSwap_form h)
  | swaphTimeout => exact next_formed (swaphTimeout_form h)
  | barTimeout => exact next_formed (barTimeout_form h)
  | monwaitTimeout => exact next_formed (monwaitTimeout_form h)
  | copyStart => exact next_formed (copyStart_form h)
  | copyComplete => exact next_formed (copyComplete_form (strikes_form h))
  | copymSend => exact execCopymSend_form h
  | copymReceiverAck => exact execCopymReceiverAck_form h
  | stashComplete => exact next_formed (stashComplete_form h)
  | storageSlotAssigned => exact next_formed (storageAssigned_form h)
  | storageCompletion => exact execStorageCompletion_form h
  | storageCommandTimeout => exact next_formed (storageTimeout_form h)
  | storageWindowAccess => exact execStorageWindowAccess_form h
  | watchPost => exact next_formed (watchPost_form h)
  | yieldcReactivate => exact next_formed (yieldcReactivate_form h)
  | tailraceSpill => exact next_formed (tailraceSpill_form h)
  | frameSpilled => exact next_formed (frameSpilled_form h)
  | tailraceRefillComplete => exact next_formed (refillComplete_form (strikes_form h))
  | apertureAccess => exact next_formed (apertureAccess_form h)
  | apertureStoreDelivery => exact next_formed (apertureStore_form h)
  | bandPark => exact next_formed (bandPark_form h)
  | bandRestore => exact next_formed (bandRestore_form h)
  | mmaExecuteComplete | mmaRerunComplete => exact next_formed (mmaComplete_form h)
  | contributionArrival => exact execContributionArrival_form h
  | quorumTimerExpiry => exact next_formed (quorumTimer_form h)
  | ownerAckArrival => exact next_formed (ownerAck_form h)
  | ringHop => exact next_formed (ringHop_form h)
  | scalarContributionArrival => exact execScalarContributionArrival_form h
  | scalarTimerExpiry => exact next_formed (scalarTimer_form h)
  | scalarResultArrival => exact next_formed (scalarResult_form h)
  | cscalResultTimeout => exact next_formed (cscalTimeout_form h)
  | stepClosedPoint => exact next_formed (stepClosedPoint_form h)
  | normPartialArrival => exact next_formed (normArrival_form h)
  | cagChunkArrival => exact execCagChunkArrival_form h
  | cagDeviceDone => exact next_formed (cagDeviceDone_form h)
  | heldMessageExpiry => exact next_formed (heldExpiry_form h)
  | weirStepMessage => exact next_formed (weirStepMessage_form h)
  | weirHeartbeat => exact next_formed (weirHeartbeat_form h)
  | podSummaryArrival => exact next_formed (podSummary_form h)
  | weirSilenceTimeout => exact next_formed (weirSilence_form h)
  | linkLaneChange => exact next_formed (linkLanes_form h)
  | peerUnreachable => exact next_formed (peerUnreachable_form h)
  | queueDoorbell => exact execQueueDoorbell_form h
  | launchDispatch => exact next_formed (launchDispatch_form h)
  | launchActivate => exact next_formed (launchActivate_form h)
  | workgroupPlace => exact next_formed (workgroupPlace_form h)
  | templateImageAck => exact next_formed (imageAck_form h)
  | preemptTimerExpiry => exact next_formed (preemptTimer_form h)
  | preemptSave => exact next_formed (preemptSave_form h)
  | workgroupResume => exact next_formed (workgroupResume_form h)
  | launchComplete => exact next_formed (launchComplete_form h)
  | eventRingCoalesceTimeout => exact next_formed (ringCoalesce_form h)
  | evrctlWrite => exact next_formed (writeEvrctl_form h)
  | trapEntry => exact next_formed (trapEntry_form h)
  | launchKill => exact next_formed (launchKill_form h)
  | launchKillComplete => exact next_formed (launchKillComplete_form h)
  | writesetGranuleCopy => exact next_formed (granuleCopy_form h)
  | redundantCompare => exact next_formed (redundantCompare_form h)
  | snapshotPin => exact next_formed (snapshot_form h)
  | snapshotTimer => exact execSnapshotTimer_form h
  | snapshotReadoutComplete => exact next_formed (readoutComplete_form h)
  | snapctlWrite => exact next_formed (writeSnapctl_form h)
  | secregionWrite => exact execSecregionWrite_form h
  | lsroleWrite => exact execLsroleWrite_form h
  | gclrWrite => exact next_formed (clearG_form h)
  | wmbaseWrite => exact next_formed (writeWmbase_form h)
  | ueptabWrite => exact next_formed (writeUeptab_form h)
  | cwrldWrite => exact execCwrldWrite_form h
  | registerWrite => exact next_formed (writeReg_form h)
  | flmcmdNone => exact execFlmcmdNone_form h
  | flmcmdCloseStep => exact execFlmcmdCloseStep_form h
  | flmcmdDeclareSilent => exact execFlmcmdDeclareSilent_form h
  | flmcmdRefused => exact execFlmcmdRefused_form h
  | hcmdCancelLaunch => exact next_formed (whenCommand_form (fun _ ht => cancelLaunch_form ht) h)
  | hcmdCancelQueue => exact next_formed (whenCommand_form (fun _ ht => cancelQueue_form ht) h)
  | hcmdPreemptLaunch => exact next_formed (whenCommand_form (fun _ ht => preemptLaunch_form ht) h)
  | hcmdResumeHalted => exact next_formed (whenCommand_form (fun _ ht => onBand_form (fun _ _ hu => setBand_form hu) ht) h)
  | hcmdKillLaunch => exact next_formed (whenCommand_form (fun _ ht => onBand_form (fun _ _ hu => decideKill_form hu) ht) h)
  | hcmdResumeSuspended => exact execHcmdResumeSuspended_form h
  | hcmdDeliverTrap => exact execHcmdDeliverTrap_form h
  | hcmdMalformed => exact execHcmdMalformed_form h
  | pcieInboundAccess => exact next_formed (pcieAccess_form h)
  | reset => exact next_formed reset_form
  | bootMailboxImage => exact execBootMailboxImage_form h
  | bringupComplete => exact next_formed (bringup_form h)
  | attestationRequest => exact next_formed (writeMailbox_form h)
  | attestationReport => exact next_formed (attestReport_form h)
  | thermalStateChange => exact next_formed (setTj_form h)
  | powerTelemetryUpdate => exact next_formed (setTj_form (setNum_form h _ _))

end Sys2Proof.Proofs.Form
end

section
/-! SUPPORT. Every event of the package, every move and every step keep the form. -/

namespace Sys2Proof.Proofs.Form

open Sys2Proof Sys2Proof.Machine Sys2Proof.Laws

/-- An event that keeps the canonical form. -/
def Keeps (f : Occurrence) : Prop := ∀ s, s.wf = true → NextFormed (f s)

/-- Every one of a list of events keeps it. -/
def AllKeep (l : List Occurrence) : Prop := ∀ f ∈ l, Keeps f

@[simp] theorem allKeep_nil : AllKeep [] := fun _ h => nomatch h

@[simp] theorem allKeep_cons {f : Occurrence} {l : List Occurrence} : AllKeep (f :: l) ↔ Keeps f ∧ AllKeep l := List.forall_mem_cons

@[simp] theorem allKeep_append {l m : List Occurrence} : AllKeep (l ++ m) ↔ AllKeep l ∧ AllKeep m := List.forall_mem_append

@[simp] theorem allKeep_map {α : Type} {l : List α} {f : α → Occurrence} : AllKeep (l.map f) ↔ ∀ x ∈ l, Keeps (f x) := List.forall_mem_map

@[simp] theorem allKeep_flatMap {α : Type} {l : List α} {f : α → List Occurrence} : AllKeep (l.flatMap f) ↔ ∀ x ∈ l, AllKeep (f x) := by
  simp only [AllKeep, List.mem_flatMap]
  exact ⟨fun h x hx g hg => h g ⟨x, hx, hg⟩, fun h g ⟨x, hx, hg⟩ => h x hx g hg⟩

/-- An event that is an instruction's meaning keeps the form, as every instruction does. -/
theorem keeps_exec (i : Instr) : Keeps (exec i) := fun _ h => exec_form h

theorem keeps_of {g : State → State} (hg : ∀ {s}, s.wf = true → (g s).wf = true) : Keeps fun s => .next (g s) :=
  fun _ h => next_formed (hg h)

theorem opEvents_keep (s : State) (o : Op) : AllKeep (s.opEvents o) := by
  unfold State.opEvents
  dsimp only
  split
  all_goals simp only [allKeep_append, allKeep_cons, allKeep_map, allKeep_nil, and_true]
  · refine ⟨⟨fun _ _ => keeps_of fun h => atomRead_form (strikes_form h), fun _ _ =>
    keeps_of apertureAccess_form⟩, keeps_of loadReturn_form,
      keeps_of scResponse_form⟩
  · exact ⟨⟨fun _ _ => keeps_of fun h => atomWrite_form (strikes_form h), fun _ _ =>
    keeps_of apertureStore_form⟩, keeps_of scResponse_form⟩
  · exact ⟨fun _ _ => keeps_of fun h => atomicPerform_form (strikes_form h), keeps_of loadReturn_form, keeps_of scResponse_form⟩
  · exact keeps_of loadReturn_form
  · exact keeps_of arithWritten_form
  · exact fun _ _ => keeps_of stmPerformed_form
  · exact keeps_of tlbiComplete_form
  · exact keeps_of relrgComplete_form
  · exact ⟨keeps_of mmaComplete_form, keeps_of mmaComplete_form⟩
  · exact ⟨keeps_of copyStart_form, keeps_of fun h => copyComplete_form (strikes_form h)⟩
  · exact ⟨fun _ h => execCopymSend_form h, fun _ _ _ h => execCopymReceiverAck_form h⟩
  · exact keeps_of stashComplete_form
  · exact ⟨keeps_of storageAssigned_form, keeps_of storageTimeout_form⟩
  · exact fun _ _ _ h => execContributionArrival_form h
  · exact ⟨fun _ h => execScalarContributionArrival_form h, keeps_of cscalTimeout_form⟩
  · exact fun _ _ _ h => execCagChunkArrival_form h

theorem bandEvents_keep (s : State) (b : Band) : AllKeep (s.bandEvents b) := by
  unfold State.bandEvents
  dsimp only
  simp only [allKeep_append, allKeep_flatMap, allKeep_cons, allKeep_nil, and_true]
  refine ⟨⟨?_, fun d _ => ⟨keeps_of tailraceSpill_form, keeps_of frameSpilled_form⟩⟩, ?_⟩
  · split
    · exact allKeep_cons.2 ⟨keeps_of fun h => walkComplete_form (strikes_form h), allKeep_nil⟩
    · exact allKeep_cons.2 ⟨keeps_of versionTimeout_form, allKeep_nil⟩
    · exact allKeep_cons.2 ⟨keeps_of acqrgTimeout_form, allKeep_nil⟩
    · exact allKeep_cons.2 ⟨keeps_of monwaitTimeout_form, allKeep_nil⟩
    · exact allKeep_cons.2 ⟨keeps_of barTimeout_form, allKeep_nil⟩
    · exact allKeep_cons.2 ⟨keeps_of trapEntry_form, allKeep_nil⟩
    · exact allKeep_cons.2 ⟨keeps_of yieldcReactivate_form, allKeep_nil⟩
    · exact allKeep_nil
  split
  · exact allKeep_cons.2 ⟨keeps_of fun h => refillComplete_form (strikes_form h), allKeep_nil⟩
  · exact allKeep_nil

theorem wgEvents_keep (s : State) (w : Workgroup) : AllKeep (s.wgEvents w) := by
  simp only [State.wgEvents, allKeep_cons, allKeep_nil, and_true]
  exact ⟨keeps_of swaphSwap_form, keeps_of swaphTimeout_form, keeps_of preemptSave_form, keeps_of workgroupResume_form⟩

theorem launchEvents_keep (s : State) (l : Launch) : AllKeep (s.launchEvents l) := by
  unfold State.launchEvents
  simp only [allKeep_append, allKeep_flatMap, allKeep_map, allKeep_cons, allKeep_nil, and_true]
  refine ⟨⟨?_, fun _ _ _ _ => keeps_of imageAck_form⟩, keeps_of launchKillComplete_form, keeps_of redundantCompare_form,
    keeps_of launchComplete_form⟩
  split
  · exact allKeep_cons.2 ⟨keeps_of launchKill_form, allKeep_nil⟩
  · exact allKeep_nil

theorem quadEvents_keep (s : State) : AllKeep s.quadEvents := by
  simp only [State.quadEvents, allKeep_flatMap, allKeep_cons, allKeep_nil, and_true]
  exact fun _ _ => ⟨keeps_of bandPark_form, keeps_of bandRestore_form⟩

theorem commandEvents_keep : AllKeep commandEvents := by
  simp only [commandEvents, allKeep_cons, allKeep_nil, and_true]
  exact ⟨keeps_exec .hcmdCancelLaunch, keeps_exec .hcmdCancelQueue, keeps_exec .hcmdPreemptLaunch, keeps_exec .hcmdResumeHalted,
    keeps_exec .hcmdKillLaunch, keeps_exec .hcmdResumeSuspended, keeps_exec .hcmdDeliverTrap, keeps_exec .hcmdMalformed⟩

theorem partEvents_keep (s : State) : AllKeep s.partEvents := by
  simp only [State.partEvents, allKeep_append, allKeep_flatMap, allKeep_map, allKeep_cons, allKeep_nil, and_true, and_assoc]
  exact ⟨fun _ _ => keeps_of publicationFrameTaken_form, fun _ _ => keeps_of versionAdvance_form, fun _ _ => keeps_of quorumTimer_form,
    fun _ _ => keeps_of scalarTimer_form, fun _ _ => keeps_of stepClosedPoint_form, fun _ _ => keeps_of heldExpiry_form,
    fun _ _ _ _ => keeps_of weirSilence_form, fun _ _ => keeps_of watchPost_form, fun _ _ _ h => execStorageCompletion_form h,
    fun _ _ => keeps_of launchActivate_form, fun _ _ => keeps_of launchDispatch_form, keeps_of workgroupPlace_form,
    keeps_of weirHeartbeat_form, keeps_of ringCoalesce_form, fun _ h => execSnapshotTimer_form h, keeps_of readoutComplete_form,
    keeps_of attestReport_form, fun _ _ => keeps_of preemptTimer_form, fun _ _ => keeps_of celogClear_form,
    fun _ _ => keeps_of celogClear_form⟩

theorem ownEvents_keep (s : State) : AllKeep s.ownEvents := by
  simp only [State.ownEvents, allKeep_append, allKeep_flatMap]
  refine ⟨⟨⟨⟨⟨⟨fun o _ => opEvents_keep s o, fun b _ => bandEvents_keep s b⟩, fun w _ => wgEvents_keep s w⟩,
    fun l _ => launchEvents_keep s l⟩, quadEvents_keep s⟩, ?_⟩, partEvents_keep s⟩
  split
  · exact commandEvents_keep
  · exact allKeep_nil

/-! ## The turn of a step -/

theorem after_form {s : State} {r : Host.Outcome State Fault Refusal} (hr : NextFormed r) : NextFormed (after s r) := by
  cases r with
  | next t => exact next_formed (release_form (noteReady_form (hr t rfl)))
  | _ => exact hr

theorem issueAt_form {p : Place} {s : State} (h : s.wf = true) : NextFormed (issueAt p s) := by
  unfold issueAt
  split
  · exact next_formed h
  split
  · exact exec_form (wf_of h rfl rfl rfl rfl)
  · exact next_formed (refuseWord_form (wf_of h rfl rfl rfl rfl))

theorem afterIssue_form {p : Place} {s : State} {r : Host.Outcome State Fault Refusal} (hr : NextFormed r) : NextFormed (afterIssue p s r) := by
  cases r with
  | next t =>
    have ht := hr t rfl
    unfold afterIssue
    dsimp only
    split
    · exact next_formed ht
    · exact after_form (next_formed (ite_form ht (noteIssue_form ht)))
  | _ => exact hr

theorem withUpset_form {err : W32} {f : Occurrence} (hf : Keeps f) {s : State} (h : s.wf = true) : NextFormed (withUpset err f s) := by
  have hr := hf { s with upset := err } (wf_of h rfl rfl rfl rfl)
  unfold withUpset
  split
  next t ht => exact next_formed (wf_of (hr t ht) rfl rfl rfl rfl)
  · exact hr

theorem serve_next {p : Place} {err : W32} {s : State} (h : s.wf = true) : NextFormed (serve p err s) := by
  unfold serve
  split
  · exact afterIssue_form (withUpset_form (fun _ ht => issueAt_form ht) h)
  · exact next_formed h

theorem run_form {m : Move} {s : State} (h : s.wf = true) : NextFormed (run m s) := by
  cases m with
  | issue p => exact serve_next h
  | event i => exact after_form (exec_form (carry_form h))
  | strike atom sym err => exact next_formed (strike_form h)
  | upsetIssue p err => exact serve_next h
  | upsetEvent i err => exact after_form (withUpset_form (keeps_exec i) (carry_form h))
  | part op i lo n => exact after_form (next_formed (part_form h))

theorem defaultRun_form {s : State} (h : s.wf = true) : NextFormed (defaultRun s) := by
  unfold defaultRun
  split
  next f hf => exact after_form (ownEvents_keep s f (List.mem_of_find?_eq_some hf) s h)
  · split
    · exact run_form h
    · exact next_formed h

theorem settle_form {r : Host.Outcome State Fault Refusal} (hr : NextFormed r) : NextFormed (settle r) := by
  cases r with
  | next t =>
    unfold settle
    dsimp only
    split
    · exact fun _ h => nomatch h
    · exact hr
  | _ => exact hr

theorem step_form {s : State} (h : s.wf = true) : NextFormed (step s) := by
  unfold step
  split
  · exact settle_form (run_form (arrive_form (elapse_form (wf_of h rfl rfl rfl rfl))))
  · exact settle_form (defaultRun_form (arrive_form (elapse_form h)))

/-- Settles O48: every operation of the model keeps the form of the data that it is given
  (the lemmas above, one for each operation), and a
step is made of them. -/
theorem stepKeepsForm : Obligations.StepKeepsForm := fun _ t h ht => step_form h t ht

end Sys2Proof.Proofs.Form
end
